-- ==== Sys2Proof/Word.lean ====
section
/-! DEFINITION. Words, bytes, sparse tables and memories (00_scope.md R1, R2). -/
namespace Sys2Proof

/-- A byte of memory. -/
abbrev Byte := BitVec 8

/-- A table indexed by number: pairs in rising order of the number; an element not listed has its reset value. -/
abbrev Tbl (α : Type) := List (Nat × α)

/-- Bytes by address in the canonical form of Sys2Proof/Machine/Ops.lean; an unlisted byte is 0. -/
abbrev Memory := List (Nat × Byte)

/-- Bits [l + w - 1 : l] of a number (R1). -/
def field (v l w : Nat) : Nat := v / 2 ^ l % 2 ^ w

/-- Bit i of a number. -/
def bit (v i : Nat) : Bool := v / 2 ^ i % 2 = 1

/-- The least c with c * b at least a (05_matrix_engines.md R137). -/
def cdiv (a b : Nat) : Nat := (a + b - 1) / b

/-- a rounded up to a multiple of b. -/
def roundUp (a b : Nat) : Nat := cdiv a b * b

end Sys2Proof
end

