-- ==== Sys2Proof/Syntax.lean ====
section
/-! DEFINITION. The commands of spec/opcode_table.json, one constructor of Instr per row, and the plain data that
they carry: instruction words (03_instructions.md), program images (02_kernels_commit.md, The proof check),
packets (16_causeway.md R399), tickets (20_security.md R479), firmware images (R471). -/
namespace Sys2Proof

/-! ### Instruction words (Table 3.1) -/

/-- Operands of PROB (Table 3.10). Pointers are descriptor pointers (R68). -/
structure ProbOps where
  transA : Bool := false
  transB : Bool := false
  frozen : Bool := false
  a : Nat := 0
  b : Nat := 0
  c : Nat := 0
  aux : Nat := 0
  fn : Nat := 0
  dst : Nat := 0
  acc : Nat := 0
  deriving DecidableEq, Repr

/-- Operands of ATTN (Table 3.12); `back` is variant 1. -/
structure AttnOps where
  back : Bool := false
  first : Bool := false
  last : Bool := false
  mask : Bool := false
  causal : Bool := false
  base : Nat := 0
  scale : BitVec 32 := 0
  qpos : Nat := 0
  kpos : Nat := 0
  deriving DecidableEq, Repr

/-- Operands of ROWOP (Table 3.14). -/
structure RowOps where
  variant : Nat := 0
  mask : Bool := false
  stats : Bool := false
  x : Nat := 0
  y : Nat := 0
  aux : Nat := 0
  st : Nat := 0
  func : Nat := 0
  eps : BitVec 32 := 0
  deriving DecidableEq, Repr

/-- Operands of STRIPE (Table 3.16), the minus-one fields as they are encoded. -/
structure StripeOps where
  variant : Nat := 0
  zc : Bool := false
  argmax : Bool := false
  inp : Nat := 0
  w : Nat := 0
  out : Nat := 0
  aux : Nat := 0
  fn : Nat := 0
  sy : Nat := 0
  sx : Nat := 0
  py : Nat := 0
  px : Nat := 0
  pfh : Nat := 0
  pfw : Nat := 0
  deriving DecidableEq, Repr

/-- Operands of PEEL (R98). -/
structure PeelOps where
  variant : Nat := 0
  narrow : Bool := false
  src : Nat := 0
  dst : Nat := 0
  idx : Nat := 0
  round : Nat := 0
  deriving DecidableEq, Repr

/-- Operands of ATOM (Table 3.17): variant 0 uses addr, part, operand and compare; variant 1 uses src and dst. -/
structure AtomOps where
  variant : Nat := 0
  wide64 : Bool := false
  remote : Bool := false
  addr : Nat := 0
  part : Nat := 0
  operand : Nat := 0
  compare : Nat := 0
  src : Nat := 0
  dst : Nat := 0
  op : Nat := 0
  deriving DecidableEq, Repr

/-- Operands of COLL (Table 3.19). -/
structure CollOps where
  variant : Nat := 0
  dir : Bool := false
  src : Nat := 0
  dst : Nat := 0
  counts : Nat := 0
  group : Nat := 0
  root : Nat := 0
  redop : Nat := 0
  deriving DecidableEq, Repr

/-- A decoded instruction word. -/
inductive Op where
  | nop
  | kbegin (templ request : Nat) (irq pass : Bool)
  | commit
  | wait (sync threshold : Nat)
  | signal (variant sync part queue value : Nat)
  | fence
  | recipe (variant set wide group : Nat)
  | prob (o : ProbOps)
  | attn (o : AttnOps)
  | rowop (o : RowOps)
  | stripe (o : StripeOps)
  | peel (o : PeelOps)
  | atom (o : AtomOps)
  | coll (o : CollOps)
  | codec (variant job : Nat)
  | place (region tier : Nat)
  | epoch (variant set version : Nat)
  | sound (variant period slot : Nat) (threshold : BitVec 32)
  deriving DecidableEq, Repr

/-! ### Program images (02_kernels_commit.md, The proof check; what its chapters add) -/

/-- Tiers of 14_shelf_tiers.md R344, moorings (R307) and the park area of R361. -/
inductive Tier where
  | crust | crumb | shelf | harbour | park
  deriving DecidableEq, Repr

/-- Role of a region in a template (R41, R269). -/
inductive Role where
  | input | output | scratch | pool
  deriving DecidableEq, Repr

/-- A declared region (R307, R345). scope: 0 part, 1 half 0, 2 half 1; home: half of a Harbour region. -/
structure Region where
  base : Nat := 0
  size : Nat := 0
  scope : Nat := 0
  tiers : List Tier := []
  initial : Tier := .crumb
  home : Nat := 0
  resident : Bool := false
  deriving DecidableEq, Repr

/-- A template's use of a region, by its index in the image (R41, R345). -/
structure Use where
  region : Nat := 0
  role : Role := .input
  tier : Tier := .crumb
  deriving DecidableEq, Repr

/-- A declared wide footprint (R85). -/
structure WideFoot where
  trays : Nat := 0
  scratch0 : Nat := 0
  scratch1 : Nat := 0
  uses : List Use := []
  deriving DecidableEq, Repr

/-- A kernel template with its declarations. Scratch is in bytes per half; a named held tray comes with the owner code
of the role that the template gives it (R300). -/
structure Template where
  queue : Nat := 0
  words : List (BitVec 256) := []
  trays : Nat := 0
  rowBufs : Nat := 0
  lineBufs : Nat := 0
  heldTrays : List (Nat × Nat) := []
  heldCount : Nat := 0
  scratch0 : Nat := 0
  scratch1 : Nat := 0
  uses : List Use := []
  wide : Option WideFoot := none
  retile : Bool := false
  collective : Bool := false
  coresMin : Nat := 1
  coresMax : Nat := 256
  kvLayout : Option Nat := none
  syncs : List Nat := []
  deriving DecidableEq, Repr

/-- Destination that the descriptor image of a STRIPE output declares (R245). -/
inductive OutDest where
  | store | reduce | accum (tray : Nat)
  deriving DecidableEq, Repr

/-- A descriptor image (R70) with the declarations of R204, R245 and R257. -/
structure DescDecl where
  va : Nat := 0
  bits : BitVec 512 := 0
  spill : Option (Nat × BitVec 32) := none
  zc : Bool := false
  dest : OutDest := .store
  deriving DecidableEq, Repr

/-- A job descriptor image of CODEC (R267, R289). -/
structure JobDecl where
  va : Nat := 0
  bits : BitVec 1024 := 0
  deriving DecidableEq, Repr

/-- A declared queue (R35, R395). -/
structure QueueDecl where
  queue : Nat := 0
  ringBase : Nat := 0
  ringLog2 : Nat := 6
  vector : Nat := 0
  vlClass : Nat := 0
  deriving DecidableEq, Repr

/-- A declared sync object (R62). -/
structure SyncDecl where
  sync : Nat := 0
  initial : Nat := 0
  irqEn : Bool := false
  vector : Nat := 0
  deriving DecidableEq, Repr

/-- A declared order of two templates through a sync object (Table 2.7, 0x06). -/
structure OrderDecl where
  earlier : Nat := 0
  later : Nat := 0
  sync : Nat := 0
  deriving DecidableEq, Repr

/-- A tied-weight accumulator (R227). -/
structure AccDecl where
  tray : Nat := 0
  words : Nat := 0
  cores : List Nat := []
  window : Nat := 0
  size : Nat := 0
  deriving DecidableEq, Repr

/-- A held tray (R300). -/
structure HeldTrayDecl where
  tray : Nat := 0
  cores : List Nat := []
  deriving DecidableEq, Repr

/-- Rights of an export entry (R400). -/
inductive Right where
  | w | r | a | s | d
  deriving DecidableEq, Repr

/-- An export entry (R400). berth 32 stands for any berth. -/
structure ExportEnt where
  base : Nat := 0
  pages : Nat := 0
  rights : List Right := []
  lo : Nat := 0
  hi : Nat := 0
  berth : Nat := 32
  syncs : List Nat := []
  queues : List Nat := []
  deriving DecidableEq, Repr

/-- A declared Longshore group (R409). -/
structure GroupDecl where
  group : Nat := 0
  members : List Nat := []
  rank : Nat := 0
  quorum : Nat := 0
  epoch : Nat := 1
  links : List (Nat × List Nat) := []
  deriving DecidableEq, Repr

/-- A program image. A template's index is its place in the list (R78). -/
structure Image where
  templates : List Template := []
  regions : List Region := []
  queues : List QueueDecl := []
  syncs : List SyncDecl := []
  descs : List DescDecl := []
  jobs : List JobDecl := []
  orders : List OrderDecl := []
  accs : List AccDecl := []
  heldTrays : List HeldTrayDecl := []
  exports : List ExportEnt := []
  groups : List GroupDecl := []
  deriving DecidableEq, Repr

/-! ### Causeway packets, tickets, firmware, sensors, host messages -/

/-- A member's greeting (R416, Table 17.2). -/
structure Greeting where
  variant : Nat := 0
  redop : Nat := 0
  root : Nat := 0
  dir : Bool := false
  format : Nat := 0
  n : Nat := 0
  d : Nat := 0
  seq : Nat := 0
  crc : Nat := 0
  deriving DecidableEq, Repr

/-- A packet: the header of Table 16.3, its use by COLL (Table 17.3) and MGMT (R462), and its data; `port` is the port at
which it arrived, none for one that this part sent to itself. -/
structure Packet where
  type : Nat := 0
  vl : Nat := 0
  poison : Bool := false
  srcPart : Nat := 0
  dstPart : Nat := 0
  srcBerth : Nat := 0
  txn : Nat := 0
  addr : Nat := 0
  length : Nat := 0
  op : Nat := 0
  wide64 : Bool := false
  srcHalf : Nat := 0
  dropped : Bool := false
  operand : Nat := 0
  hops : Nat := 0
  data : List Byte := []
  rank : Nat := 0
  kind : Nat := 0
  group : Nat := 0
  epoch : Nat := 0
  seq : Nat := 0
  chunk : Nat := 0
  greeting : Greeting := {}
  list : List Nat := []
  landed : List Nat := []
  port : Option Nat := none
  deriving DecidableEq, Repr

/-- A ticket body (Table 20.4). -/
structure TicketBody where
  magic : Nat := 0
  action : Nat := 0
  target : BitVec 128 := 0
  seq : Nat := 0
  payload : List Byte := []
  deriving DecidableEq, Repr

/-- A half-ticket: a body and a signature block (R479). -/
structure HalfTicket where
  body : TicketBody := {}
  party : Nat := 0
  sigEd : BitVec 512 := 0
  sigMl : List Byte := []
  deriving DecidableEq, Repr

/-- One party's public keys (Table 20.5). -/
structure KeyPair where
  ed : BitVec 256 := 0
  ml : List Byte := []
  deriving DecidableEq, Repr

/-- A firmware image (Table 20.1). -/
structure Firmware where
  magic : Nat := 0
  type : Nat := 0
  keysel : Nat := 0
  raise : Bool := false
  secver : Nat := 0
  digest : BitVec 384 := 0
  sigEd : BitVec 512 := 0
  sigMl : List Byte := []
  payload : List Byte := []
  deriving DecidableEq, Repr

/-- One latch of the sensors of Table 19.2 for one half: stack readings and the greatest of the four cluster
readings, in 0.25 degrees C, by cc; entry voltage and current in tenths; mean power at the entry and at the half's
rails in W. -/
structure Sensors where
  stack : List Nat := []
  cluster : List Nat := []
  vin : Nat := 0
  iin : Nat := 0
  power : Nat := 0
  rails : Nat := 0
  deriving DecidableEq, Repr

/-- Requests that the SPDM 1.2 responder answers (R477, R478); `other` is any request it does not support. -/
inductive SpdmReq where
  | getVersion | getCapabilities | negotiateAlgorithms | getDigests
  | getCertificate (slot offset length : Nat)
  | challenge (slot : Nat) (nonce : BitVec 256)
  | getMeasurements (block : Nat) (signed : Bool) (nonce : BitVec 256)
  | other
  deriving DecidableEq, Repr

/-- One thing that decoding a unit does to the pool, in order: kind 0 a picture is decoded into a free buffer and kept for
reference or not; 1 buffer `buf` is no longer a reference; 2 the picture of buffer `buf`, or the one decoded last when
`buf` is 16, is output, with film grain or not. -/
structure DecOp where
  kind : Nat := 0
  buf : Nat := 0
  keep : Bool := false
  intra : Bool := false
  grain : Bool := false
  order : Nat := 0
  deriving DecidableEq, Repr, Inhabited

/-- A NAL unit of an HEVC access unit: its nuh_layer_id, whether it is an SEI, its bytes (R262). -/
structure Nal where
  layer : Nat := 0
  sei : Bool := false
  bytes : List Byte := []
  deriving DecidableEq, Repr, Inhabited

/-- What the standards make of one unit of a bitstream (R261, R262, R274, R276, R278, Table 11.8): nonconforming; profile
and level in the standard's own coding; field_seq_flag; chroma_format_idc, 1 for 4:2:0; operating points and large-scale
tile decoding of AV1; bit depth; a random access point, a CRA, a RASL picture; size; buffers referenced; what it does. -/
structure DecUnit where
  bad : Bool := false
  profile : Nat := 0
  level : Nat := 0
  fieldSeq : Bool := false
  chroma : Nat := 1
  opPoints : Nat := 1
  largeScale : Bool := false
  tenBit : Bool := false
  start : Bool := false
  cra : Bool := false
  rasl : Bool := false
  width : Nat := 0
  height : Nat := 0
  refs : List Nat := []
  ops : List DecOp := []
  renderW : Nat := 0
  renderH : Nat := 0
  deriving DecidableEq, Repr, Inhabited

/-- A reference of an inter block: the long-term picture or the previous one, and a vector in quarter samples (R287). -/
structure EncRef where
  lt : Bool := false
  mvx : Int := 0
  mvy : Int := 0
  deriving DecidableEq, Repr, Inhabited

/-- A coding block of an encoded picture in the tools of Table 11.2: luma position and size, partition, transform size
(log2) and type, intra or inter mode, references. -/
structure EncBlock where
  x : Nat := 0
  y : Nat := 0
  size : Nat := 8
  part : Nat := 0
  tx : Nat := 2
  txType : Nat := 0
  intra : Bool := true
  mode : Nat := 0
  refs : List EncRef := []
  deriving DecidableEq, Repr, Inhabited

/-- An encoder's decisions for a picture. -/
structure EncChoice where
  tileCols : Nat := 1
  blocks : List EncBlock := []
  deriving DecidableEq, Repr, Inhabited

/-- What a picture is coded as: standard, depth, class, size, level, PICTURE_NUM, QP; first of its stream, so IDR_N_LP or
KEY_FRAME with its parameter sets (R276); recovery point count (R285); columns of a refresh step and its index; long-term
slots held as (buffer, picture), the slot that the picture fills and the slot searched (R284); for a transcode, the
input's depth (R290). -/
structure EncPic where
  av1 : Bool := false
  deep : Bool := false
  classL : Bool := false
  width : Nat := 0
  height : Nat := 0
  level : Nat := 0
  num : Nat := 0
  qp : Nat := 0
  first : Bool := false
  recovery : Option Nat := none
  cols : Nat := 0
  index : Nat := 0
  slots : List (Nat × Nat) := []
  fills : Option Nat := none
  golden : Option Nat := none
  c6 : Option Bool := none
  deriving DecidableEq, Repr, Inhabited

/-! ### Commands -/

/-- What comes with the end of an engine's piece of work: the A-cycles for which it stalled (R151), and the on-die codeword
that it read (R294, R331). -/
structure Finish where
  stall : Nat := 0
  rx : BitVec 288 := 0
  deriving DecidableEq, Repr

/-- One constructor per row of spec/opcode_table.json. -/
inductive Instr where
  -- words of a kernel, dispatched by the run of queue q
  | nop (q : Nat)
  | kbegin (q templ request : Nat) (irq pass : Bool)
  | commit (q : Nat)
  | wait (q sync threshold : Nat)
  | signal (q variant sync part queue value : Nat)
  | fence (q : Nat)
  | recipe (q variant set wide group : Nat)
  | prob (q : Nat) (o : ProbOps)
  | attn (q : Nat) (o : AttnOps)
  | rowop (q : Nat) (o : RowOps)
  | stripe (q : Nat) (o : StripeOps)
  | peel (q : Nat) (o : PeelOps)
  | atom (q : Nat) (o : AtomOps)
  | coll (q : Nat) (o : CollOps)
  | codec (q variant job : Nat)
  | place (q region tier : Nat)
  | epoch (q variant set version : Nat)
  | sound (q variant period slot : Nat) (threshold : BitVec 32)
  -- doorbells and registers
  | tail (q v : Nat)
  | resume (q : Nat)
  | skip (q : Nat)
  | clrEvents (q : Nat)
  | synValueWrite (sync value : Nat)
  | registerWrite (bar offset size value : Nat)
  -- kernel life and engines
  | kernelFetch (q : Nat)
  | crewGrant (q : Nat)
  | trayScrubDone (core tray : Nat)
  | killTraysReturned (q : Nat)
  | crewCoreJoin (q core : Nat)
  | planReady (q : Nat)
  | chunkFillDone (mxe : Nat) (isB : Bool) (rx : BitVec 288)
  | tileDone (mxe stall : Nat) (rx : BitVec 288)
  | tileSteal (mxe : Nat)
  | batchSteal (core : Nat) (peel : Bool)
  | rowDone (core : Nat) (f : Finish)
  | attnShareDone (mxe wait : Nat)
  | peelBatchDone (core : Nat) (f : Finish)
  | stripeDone (cluster : Nat) (f : Finish)
  | stripeSteal (cluster : Nat)
  | soundingCompare (q mxe : Nat)
  -- commit
  | commitBegin (q : Nat)
  | commitStoresAcked (q : Nat)
  | commitAtomicsDone (q : Nat)
  | commitRemoteDone (q : Nat)
  | kernelRerun (q : Nat)
  | harbourOpApply (q : Nat)
  -- stacks
  | stackReadDone (stack channel pa : Nat) (source : Nat) (rx : BitVec 288)
  | ueRereadDone (stack channel pa : Nat) (rx : BitVec 288)
  | pinCountClear (stack channel : Nat)
  | refresh (stack channel : Nat)
  | scrubRead (stack channel pa : Nat) (rx : BitVec 288)
  -- tiers and the Shelf
  | migrationDone (half page : Nat)
  | shelfReadDone (q inst : Nat)
  | shelfMapRebuild
  | wearLevel
  | garbageCollect (block : Nat)
  | shelfRelocate (block : Nat) (failed : Bool) (lost : List Nat)
  -- Tidewatch
  | tidewatchLoop (half : Nat) (overran : Bool) (sensors : Sensors)
  | deadlineEval (half : Nat)
  | telemetry (half : Nat)
  | overCurrent (half : Nat)
  | admission (berth : Nat) (image : Image)
  | proofCheckDone (pages : List Nat)
  | remove (berth : Nat)
  | park (berth : Nat)
  | parkComplete (berth : Nat)
  | restore (berth : Nat) (pages : List Nat)
  | restorePageReturn (berth vpage : Nat)
  | killQueue (berth queue : Nat)
  | ticket (half : HalfTicket)
  | reset
  | fundamentalReset
  | trayParkDone (core tray : Nat)
  | trayRestoreDone (core tray : Nat)
  | domainGate (domain : Nat)
  | domainUngate (domain : Nat)
  | domainUngateDone (domain : Nat)
  | openSlot (berth primary alt : Nat) (altValid : Bool) (passes : Nat)
  | closeSlot (berth : Nat)
  | clearSlot (berth slot : Nat)
  | relock
  | portEnable (port : Nat)
  | portDisable (port : Nat)
  | routeEntryWrite (value : Nat)
  | pinMarkWrite (stack channel value : Nat)
  | hdmDecoderCommit (k base size ways : Nat)
  -- tickets, chair, power
  | halfTicketVerified
  | custodianHalfTicket (half srcPart : Nat) (ht : HalfTicket)
  | ticketTimeout (digest : BitVec 384)
  | peerTicketCheck
  | peerVerdict
  | peerVerdictTimeout
  | isthmusHeartbeatSend (half : Nat)
  | isthmusHeartbeat (half : Nat) (claim : Bool) (chairState : Nat) (m0 : BitVec 384)
  | isthmusHeartbeatLost (half : Nat)
  | bootHeartbeatTimeout (half : Nat)
  | vinQualified
  | rootPllLocked
  | serdesPllLocked
  | bootStageDone (half : Nat) (copyA copyB codecA codecB : Firmware)
  | rootPllLockLoss
  | relockAttempt (locked : Bool)
  | underVoltage
  | holdupEnd
  | thermalTrip (sensor : Nat)
  -- Causeway
  | portTrained (port peerPart peerPort : Nat)
  | laneLockLoss (port lane : Nat)
  | ackStall (port : Nat)
  | drainEnd (port : Nat)
  | codewordUncorrectable (port : Nat)
  | linkAck (port number credits : Nat)
  | linkNak (port number : Nat)
  | linkAckTimer (port : Nat)
  | write (half : Nat) (p : Packet)
  | read (half : Nat) (p : Packet)
  | readResp (half : Nat) (p : Packet)
  | atomic (half : Nat) (p : Packet)
  | signalAdd (half : Nat) (p : Packet)
  | signalSet (half : Nat) (p : Packet)
  | doorbell (half : Nat) (p : Packet)
  | ack (half : Nat) (p : Packet)
  | nack (half : Nat) (p : Packet)
  | packetForward (port : Nat) (p : Packet)
  | reservedPacket (port : Nat) (p : Packet)
  | resendTimeout (half txn : Nat)
  | deliveryTimeout (half txn : Nat)
  | filterExpiry (half srcPart srcHalf txn : Nat)
  | txnFree (half txn : Nat)
  | holTimeout (port vl : Nat)
  -- Longshore
  | longshoreEngineGrant
  | collGreeting (p : Packet)
  | collCount (p : Packet)
  | go (p : Packet)
  | abort (p : Packet)
  | collData (p : Packet)
  | chunkAck (p : Packet)
  | chunkNak (p : Packet)
  | chunkResend (q inst chunk : Nat)
  | collDone (p : Packet)
  | land (p : Packet)
  | memberHeartbeatSend (half : Nat)
  | memberHeartbeat (p : Packet)
  | memberLost (group rank : Nat)
  | lostNotice (p : Packet)
  | leaveNotice (p : Packet)
  | poll (p : Packet)
  | pollAnswer (p : Packet)
  | coordinatorTimeout (group : Nat)
  | install (p : Packet)
  | exclusion (p : Packet)
  | installTimeout (group : Nat)
  | taint (p : Packet)
  -- codec
  | codecEngineGrant
  | codecJobDone (engine : Nat)
  -- host port
  | hostLinkUp (width rate : Nat) (cache mem lanesHalf1 : Bool)
  | hostLinkDown
  | cxlMemRead (addr n : Nat)
  | cxlMemWrite (addr : Nat) (data : List (Option Byte)) (poison : Bool)
  | doeDiscovery (index : Nat)
  | cdatRead
  | spdmRequest (r : SpdmReq)
  | getMldsaCert (offset length : Nat)
  | signTranscript
  | rationsWindow (arbiter edge : Nat) (requests : List Nat)
  -- Keeper
  | lhCharacter (c : Byte) (framingError : Bool)
  | keeperId
  | baud (rate : Nat)
  | baudRevert
  | rd (addr n : Nat)
  | wr (addr value : Nat)
  | wrd (berth offset n : Nat)
  | wwr (berth offset value : Nat)
  | temp
  | mrd (berth va n : Nat)
  | mwr (berth va n : Nat)
  | keeperBlock (data : List Byte) (crc : BitVec 32)
  | keeperBlockTimeout
  | halt (berth : Nat)
  | release (berth : Nat)
  | keeperKill (queue : Nat)
  | lock
  | stat
  | snoop (addr : Nat)
  | configSpaceWrite (enable fmask : Bool)
  | mgmt (half : Nat) (p : Packet)
  | regulatorsGood
  deriving DecidableEq, Repr

end Sys2Proof
end

