-- ==== Sys2Proof/Decode.lean ====
section
/-! DEFINITION. Instruction words (03_instructions.md R66 to R104), and decodeTableWord, which spells no command because
no row of the opcode table gives bits (notes/assumptions/21.md). -/
namespace Sys2Proof

/-- The command that a word spells by the table's bits: no row of the table gives bits. -/
def decodeTableWord (_nbits _w : Nat) : Option Instr := none

def opcodeOf (w : Nat) : Nat := field w 248 8
def variantOf (w : Nat) : Nat := field w 244 4
def flagsOf (w : Nat) : Nat := field w 240 4

def decodeProb (w : Nat) : ProbOps :=
  { transA := bit w 240, transB := bit w 241, frozen := bit w 242
    a := field w 0 42, b := field w 42 42, c := field w 84 42, aux := field w 126 42
    fn := field w 168 4, dst := field w 172 2, acc := field w 174 4 }

def decodeAttn (w : Nat) : AttnOps :=
  { back := variantOf w = 1, first := bit w 240, last := bit w 241, mask := bit w 242, causal := bit w 243
    base := field w 0 42, scale := BitVec.ofNat 32 (field w 42 32), qpos := field w 74 32, kpos := field w 106 32 }

def decodeRow (w : Nat) : RowOps :=
  { variant := variantOf w, mask := bit w 240, stats := bit w 241
    x := field w 0 42, y := field w 42 42, aux := field w 84 42, st := field w 126 42
    func := field w 168 5, eps := BitVec.ofNat 32 (field w 176 32) }

def decodeStripe (w : Nat) : StripeOps :=
  { variant := variantOf w, zc := bit w 240, argmax := bit w 241
    inp := field w 0 42, w := field w 42 42, out := field w 84 42, aux := field w 126 42
    fn := field w 168 4, sy := field w 172 4, sx := field w 176 4, py := field w 180 4, px := field w 184 4
    pfh := field w 188 4, pfw := field w 192 4 }

def decodePeel (w : Nat) : PeelOps :=
  { variant := variantOf w, narrow := bit w 240
    src := field w 0 42, dst := field w 42 42, idx := field w 84 42, round := field w 126 2 }

def decodeAtom (w : Nat) : AtomOps :=
  if variantOf w = 0 then
    { variant := 0, wide64 := bit w 240, remote := bit w 241
      addr := field w 0 48, part := field w 48 16, operand := field w 64 64, compare := field w 128 64
      op := field w 192 4 }
  else
    { variant := variantOf w, src := field w 0 42, dst := field w 42 42, op := field w 192 4 }

def decodeColl (w : Nat) : CollOps :=
  { variant := variantOf w, dir := bit w 240
    src := field w 0 42, dst := field w 42 42, counts := field w 84 42
    group := field w 126 16, root := field w 142 16, redop := field w 158 4 }

/-- The operation that a word's opcode, variant and fields spell; none for a reserved opcode, variant or flag (R67). -/
def decodeOp (w : Nat) : Option Op :=
  let v := variantOf w
  let f := flagsOf w
  match opcodeOf w with
  | 0x00 => if v = 0 ∧ f = 0 then some .nop else none
  | 0x01 => if v = 0 ∧ f < 4 then some (.kbegin (field w 0 16) (field w 16 16) (bit w 240) (bit w 241)) else none
  | 0x02 => if v = 0 ∧ f = 0 then some .commit else none
  | 0x03 => if v = 0 ∧ f = 0 then some (.wait (field w 0 14) (field w 64 64)) else none
  | 0x04 => if v ≤ 4 ∧ f = 0 then
      some (.signal v (field w 0 14) (field w 16 16) (field w 32 19) (field w 64 64)) else none
  | 0x05 => if v = 0 ∧ f = 0 then some .fence else none
  | 0x08 => if v = 0 ∧ f = 0 then some (.recipe 0 (field w 0 16) 0 0)
      else if v = 1 ∧ f = 0 then some (.recipe 1 (field w 0 16) (field w 16 16) (field w 32 6)) else none
  | 0x10 => if v = 0 ∧ f < 8 then some (.prob (decodeProb w)) else none
  | 0x11 => if v ≤ 1 then some (.attn (decodeAttn w)) else none
  | 0x12 => if v ≤ 6 ∧ f < 4 then some (.rowop (decodeRow w)) else none
  | 0x13 => if v ≤ 3 ∧ f < 4 then some (.stripe (decodeStripe w)) else none
  | 0x14 => if v ≤ 3 ∧ f < 2 then some (.peel (decodePeel w)) else none
  | 0x18 => if (v = 0 ∧ f < 4) ∨ (v = 1 ∧ f = 0) then some (.atom (decodeAtom w)) else none
  | 0x19 => if v ≤ 5 ∧ f < 2 then some (.coll (decodeColl w)) else none
  | 0x1A => if v ≤ 2 ∧ f = 0 then some (.codec v (field w 0 42)) else none
  | 0x1C => if v = 0 ∧ f = 0 then some (.place (field w 0 42) (field w 42 2)) else none
  | 0x1D => if v ≤ 2 ∧ f = 0 then some (.epoch v (field w 0 12) (field w 16 32)) else none
  | 0x1E => if v = 0 ∧ f = 0 then some (.sound 0 0 0 0)
      else if v = 1 ∧ f = 0 then
        some (.sound 1 (field w 0 4) (field w 8 8) (BitVec.ofNat 32 (field w 32 32))) else none
  | _ => none

/-! ### Words spelled (the same tables, read from the operation to the word) -/

/-- Fields side by side, the lowest first, as (width, value) pairs. -/
def concat : List (Nat × Nat) → Nat
  | [] => 0
  | (w, v) :: t => v + 2 ^ w * concat t

def bitNat (b : Bool) : Nat := if b then 1 else 0

/-- FLAGS, VARIANT and OPCODE above the operand fields (Table 3.1). -/
def head (f0 f1 f2 f3 : Bool) (variant opcode : Nat) : List (Nat × Nat) :=
  [(1, bitNat f0), (1, bitNat f1), (1, bitNat f2), (1, bitNat f3), (4, variant), (8, opcode)]

/-- The word of an operation, its unassigned bits 0. -/
def encodeOp : Op → Nat
  | .nop => concat ((240, 0) :: head false false false false 0 0x00)
  | .kbegin t r irq pass => concat ([(16, t), (16, r), (208, 0)] ++ head irq pass false false 0 0x01)
  | .commit => concat ((240, 0) :: head false false false false 0 0x02)
  | .wait s t => concat ([(14, s), (50, 0), (64, t), (112, 0)] ++ head false false false false 0 0x03)
  | .signal v s p q x =>
    concat ([(14, s), (2, 0), (16, p), (19, q), (13, 0), (64, x), (112, 0)] ++ head false false false false v 0x04)
  | .fence => concat ((240, 0) :: head false false false false 0 0x05)
  | .recipe v s w g => concat ([(16, s), (16, w), (6, g), (202, 0)] ++ head false false false false v 0x08)
  | .prob o =>
    concat ([(42, o.a), (42, o.b), (42, o.c), (42, o.aux), (4, o.fn), (2, o.dst), (4, o.acc), (62, 0)]
      ++ head o.transA o.transB o.frozen false 0 0x10)
  | .attn o =>
    concat ([(42, o.base), (32, o.scale.toNat), (32, o.qpos), (32, o.kpos), (102, 0)]
      ++ head o.first o.last o.mask o.causal (bitNat o.back) 0x11)
  | .rowop o =>
    concat ([(42, o.x), (42, o.y), (42, o.aux), (42, o.st), (5, o.func), (3, 0), (32, o.eps.toNat), (32, 0)]
      ++ head o.mask o.stats false false o.variant 0x12)
  | .stripe o =>
    concat ([(42, o.inp), (42, o.w), (42, o.out), (42, o.aux), (4, o.fn), (4, o.sy), (4, o.sx), (4, o.py), (4, o.px),
      (4, o.pfh), (4, o.pfw), (44, 0)] ++ head o.zc o.argmax false false o.variant 0x13)
  | .peel o =>
    concat ([(42, o.src), (42, o.dst), (42, o.idx), (2, o.round), (112, 0)]
      ++ head o.narrow false false false o.variant 0x14)
  | .atom o =>
    if o.variant = 0 then
      concat ([(48, o.addr), (16, o.part), (64, o.operand), (64, o.compare), (4, o.op), (44, 0)]
        ++ head o.wide64 o.remote false false 0 0x18)
    else
      concat ([(42, o.src), (42, o.dst), (108, 0), (4, o.op), (44, 0)] ++ head false false false false o.variant 0x18)
  | .coll o =>
    concat ([(42, o.src), (42, o.dst), (42, o.counts), (16, o.group), (16, o.root), (4, o.redop), (78, 0)]
      ++ head o.dir false false false o.variant 0x19)
  | .codec v j => concat ([(42, j), (198, 0)] ++ head false false false false v 0x1A)
  | .place r t => concat ([(42, r), (2, t), (196, 0)] ++ head false false false false 0 0x1C)
  | .epoch v s x => concat ([(12, s), (4, 0), (32, x), (192, 0)] ++ head false false false false v 0x1D)
  | .sound v p s t =>
    concat ([(4, p), (4, 0), (8, s), (16, 0), (32, t.toNat), (176, 0)] ++ head false false false false v 0x1E)

/-- The operand bits [h:l] that a word's opcode and variant assign (Tables 3.6 to 3.19), as (l, width) pairs. -/
def operandBits (w : Nat) : List (Nat × Nat) :=
  let v := variantOf w
  match opcodeOf w with
  | 0x01 => [(0, 32)]
  | 0x03 => [(0, 14), (64, 64)]
  | 0x04 => [(0, 14), (16, 16), (32, 19), (64, 64)]
  | 0x08 => if v = 0 then [(0, 16)] else [(0, 38)]
  | 0x10 => [(0, 178)]
  | 0x11 => [(0, 138)]
  | 0x12 => [(0, 173), (176, 32)]
  | 0x13 => [(0, 196)]
  | 0x14 => [(0, 128)]
  | 0x18 => if v = 0 then [(0, 196)] else [(0, 84), (192, 4)]
  | 0x19 => [(0, 162)]
  | 0x1A => [(0, 42)]
  | 0x1C => [(0, 44)]
  | 0x1D => [(0, 12), (16, 32)]
  | 0x1E => if v = 1 then [(0, 4), (8, 8), (32, 32)] else []
  | _ => []

/-- The operand bits [239:0] of a word that no table assigns are 0. -/
def reservedZero (w : Nat) : Bool :=
  (operandBits w).foldl (fun acc p => acc - field w p.1 p.2 * 2 ^ p.1) (w % 2 ^ 240) = 0

/-- The bits of a word that the run-time mask leaves free (R40, R67): thresholds, amounts, sequence positions. -/
def freeBits (w : Nat) : List (Nat × Nat) :=
  match opcodeOf w with
  | 0x03 => [(64, 64)]
  | 0x04 => [(64, 64)]
  | 0x11 => [(74, 32), (106, 32)]
  | _ => []

/-- A word with its template's free bits set to 0. -/
def maskFree (template w : Nat) : Nat :=
  (freeBits template).foldl (fun acc p => acc - field acc p.1 p.2 * 2 ^ p.1) w

/-- A fetched word agrees with its template (R40). -/
def matchesTemplate (template w : Nat) : Bool := maskFree template template = maskFree template w

end Sys2Proof
end

