-- ==== Sys2Proof/Config.lean ====
section
/-! DEFINITION. What the spec leaves open or takes from standards that it names, as constants without a body: nothing can
be proved of their values. -/
namespace Sys2Proof.Config

/-- Free values, by the index that the state's counter gives (notes/assumptions/6.md). -/
opaque freeValue : Nat → BitVec 64

/-- Bits of a byte of a held remote write that its PEEL does not store, from the target part, the byte's address there,
the mask of the bits stored and their value (R57; notes/assumptions/37.md). -/
opaque padBits : Nat → Nat → Nat → Nat → BitVec 8

/-- FP32 value that a sounding takes for a reserved encoding of a format (R213; notes/assumptions/88.md). -/
opaque reservedElem : Nat → Nat → BitVec 32

/-- Data flit of a collective's greeting, DONE, or of any packet whose body has no layout in the spec (R419;
notes/assumptions/89.md). -/
opaque flitBody : Packet → Nat → BitVec 256

/-! ### Cryptography that the spec takes from its standards (20_security.md; notes/assumptions/10.md) -/

opaque sha384 : List Byte → BitVec 384

/-- HMAC-SHA-384 of a message under a key (R475, R476). -/
opaque hmac384 : List Byte → List Byte → BitVec 384

/-- The device secret (R475), fused. -/
opaque deviceSecret : List Byte

/-- Ed25519: does a signature of a message verify under a public key. -/
opaque edVerify : BitVec 256 → List Byte → BitVec 512 → Bool

/-- ML-DSA-65 with a context string: does a signature of a message verify under a public key. -/
opaque mlVerify : List Byte → List Byte → List Byte → List Byte → Bool

/-- Ed25519 public key of the private key that the first 32 bytes of an HMAC value are (R476). -/
opaque edPublic : BitVec 384 → BitVec 256

/-- ML-DSA-65 signature by the alias key of a CDI, with a context, of a hash (R478). -/
opaque mlSign : BitVec 384 → List Byte → BitVec 384 → List Byte

/-! ### Fused and stored values (notes/assumptions/5.md) -/

/-- The vendor's public keys by slot (R472). -/
opaque vendorEd : Nat → BitVec 256
opaque vendorMl : Nat → List Byte

/-- A vendor slot is revoked by fuse (R472). -/
opaque slotRevoked : Nat → Bool

/-- The fused minimum version of an image type as shipped (R472, R474). -/
opaque secverFused : Nat → BitVec 32

/-- The certificate chain of an algorithm, 0 Ed25519 and 1 ML-DSA-65, with the alias certificate that carries the
measurements of both halves (R476). -/
opaque certChain : Nat → BitVec 384 → List (BitVec 384) → List Byte

/-- The vendor's PCI-SIG ID (R441). -/
opaque vendorId : BitVec 16

/-- The bytes of an SPDM 1.2 response whose layout the standard gives, from the requests answered since GET_VERSION, the
request, and the contents that the spec names (R477; notes/assumptions/10.md). -/
opaque spdmResponse : List SpdmReq → SpdmReq → List Byte → List Byte

/-- The transcript that a signed response covers, in the same terms (R478). -/
opaque spdmTranscript : List SpdmReq → SpdmReq → List Byte → List Byte

/-! ### The codec standards (11_codec.md R263, R266; notes/assumptions/9.md). `params` are fields of the job, `vars` the
bytes of the stream context in the part's own layout, `refs` the contents of pool buffers. -/

/-- Bytes of each unit into which a bitstream falls. -/
opaque decSplit (params : List Nat) (stream : List Byte) : List Nat

/-- The NAL units of an HEVC access unit. -/
opaque decNals (unit : List Byte) : List Nal

/-- What decoding a unit does, from the variables carried and the marks of the pool. -/
opaque decUnit (params : List Nat) (vars unit : List Byte) (marks : List Nat) : DecUnit

/-- Byte i of the buffer that a unit's k-th operation writes. -/
opaque decByte (params : List Nat) (vars unit : List Byte) (refs : List (List Byte)) (k i : Nat) : Byte

/-- Byte i of the variables carried after a unit. -/
opaque decVars (params : List Nat) (vars unit : List Byte) (i : Nat) : Byte

/-- An encoder's decisions for a picture; the tools, vectors and columns that chapter 11 rules out are taken out of them
(`legalBlock`). -/
opaque encChoice (pic : EncPic) (vars frame : List Byte) (refs : List (List Byte)) : EncChoice

/-- Coded bytes of a picture under its decisions. -/
opaque encBytes (pic : EncPic) (choice : EncChoice) (vars frame : List Byte) (refs : List (List Byte)) : List Byte

/-- Byte i of the buffer that holds a coded picture's reconstruction and side area. -/
opaque encByte (pic : EncPic) (choice : EncChoice) (vars frame : List Byte) (refs : List (List Byte)) (i : Nat) : Byte

/-- Byte i of the variables carried after a coded picture. -/
opaque encVars (pic : EncPic) (choice : EncChoice) (vars frame : List Byte) (refs : List (List Byte)) (i : Nat) : Byte

/-- The QP offset under RC_MODE 1 with TARGET_BITS 0, for which R282 states no quotient. -/
opaque rateFree : Int → Int

end Sys2Proof.Config
end

