-- ==== Sys2Proof/Machine/FnTables.lean ====
section
/-! DEFINITION. The coefficient tables of the row engine (06_row_engine.md R164 to R167), FP32 bit patterns c[0..d] of
each segment, as R167 builds them (DEDUCED, notes/assumptions/11.md). native* have degree 3, c6* degree 2 (R173). -/
namespace Sys2Proof.Machine

/-- Segments of exp2, degree 3 (R166, R167). -/
def nativeExp2 : List (List Nat) :=
  [[0x3F800000, 0x3CB17219, 0x3975FAE7, 0x35E5D26B], [0x3F82CD87, 0x3CB554CD, 0x397B5DCA, 0x35E5FC42],
   [0x3F85AAC3, 0x3CB94D48, 0x39806F6F, 0x35EFFF3E], [0x3F88980F, 0x3CBD5C06, 0x39833F66, 0x35F54096],
   [0x3F8B95C2, 0x3CC18183, 0x39861F21, 0x35FA9F64], [0x3F8EA43A, 0x3CC5BE3E, 0x39890EF8, 0x35FAEB87],
   [0x3F91C3D3, 0x3CCA12B9, 0x398C0F46, 0x3602DBFC], [0x3F94F4F0, 0x3CCE7F7B, 0x398F2067, 0x36055EC4],
   [0x3F9837F0, 0x3CD3050A, 0x399242B9, 0x3608A728], [0x3F9B8D3A, 0x3CD7A3F2, 0x3995769D, 0x360BA530],
   [0x3F9EF532, 0x3CDC5CC1, 0x3998BC74, 0x360EB3FE], [0x3FA27043, 0x3CE13008, 0x399C14A5, 0x3611D3F0],
   [0x3FA5FED7, 0x3CE61E5C, 0x399F7F94, 0x36150567], [0x3FA9A15B, 0x3CEB2854, 0x39A2FDAD, 0x361848C4],
   [0x3FAD583F, 0x3CF04E8C, 0x39A68F59, 0x361B9E6B], [0x3FB123F6, 0x3CF591A0, 0x39AA3507, 0x361F06C4]] ++
  [[0x3FB504F3, 0x3CFAF234, 0x39ADEF27, 0x36228237], [0x3FB8FBAF, 0x3D003876, 0x39B1BE2C, 0x36261130],
   [0x3FBD08A4, 0x3D030739, 0x39B5A28A, 0x3629B41B], [0x3FC12C4D, 0x3D05E5BA, 0x39B99CB9, 0x362D6B68],
   [0x3FC5672A, 0x3D08D44F, 0x39BDAD35, 0x3631378A], [0x3FC9B9BE, 0x3D0BD355, 0x39C1D478, 0x363518F5],
   [0x3FCE248C, 0x3D0EE325, 0x39C61304, 0x36391022], [0x3FD2A81E, 0x3D120420, 0x39CA695B, 0x363D1D89],
   [0x3FD744FD, 0x3D1536A5, 0x39CED802, 0x364141A7], [0x3FDBFBB8, 0x3D187B16, 0x39D35F81, 0x36457CFC],
   [0x3FE0CCDF, 0x3D1BD1D7, 0x39D80065, 0x3649D00A], [0x3FE5B907, 0x3D1F3B51, 0x39DCBB3A, 0x364E3B55],
   [0x3FEAC0C7, 0x3D22B7EA, 0x39E19093, 0x3652BF66], [0x3FEFE4BA, 0x3D264810, 0x39E68104, 0x36575CC8],
   [0x3FF5257D, 0x3D29EC2E, 0x39EB8D25, 0x365C1408], [0x3FFA83B3, 0x3D2DA4B6, 0x39F0B591, 0x3660E5B8]]

/-- Segments of exp, degree 3 (R166, R167). -/
def nativeExp : List (List Nat) :=
  [[0x3F800000, 0x3CB17219, 0x3975FAE7, 0x35E5D26B], [0x3F82CD87, 0x3CB554CD, 0x397B5DCA, 0x35E67D44],
   [0x3F85AAC3, 0x3CB94D48, 0x39806F6F, 0x35EFFF3E], [0x3F88980F, 0x3CBD5C06, 0x39833F66, 0x35F54096],
   [0x3F8B95C2, 0x3CC18183, 0x39861F21, 0x35FA9F64], [0x3F8EA43A, 0x3CC5BE3E, 0x39890EF8, 0x35FBAE8C],
   [0x3F91C3D3, 0x3CCA12B9, 0x398C0F46, 0x3602DBFC], [0x3F94F4F0, 0x3CCE7F7B, 0x398F2067, 0x3605B98A],
   [0x3F9837F0, 0x3CD3050A, 0x399242B9, 0x3608A728], [0x3F9B8D3A, 0x3CD7A3F2, 0x3995769D, 0x360BA530],
   [0x3F9EF532, 0x3CDC5CC1, 0x3998BC74, 0x360EB3FE], [0x3FA27043, 0x3CE13008, 0x399C14A5, 0x3611D3F0],
   [0x3FA5FED7, 0x3CE61E5C, 0x399F7F94, 0x36150567], [0x3FA9A15B, 0x3CEB2854, 0x39A2FDAD, 0x361848C4],
   [0x3FAD583F, 0x3CF04E8C, 0x39A68F59, 0x361B9E6B], [0x3FB123F6, 0x3CF591A0, 0x39AA3507, 0x361F06C4]] ++
  [[0x3FB504F3, 0x3CFAF234, 0x39ADEF27, 0x36228237], [0x3FB8FBAF, 0x3D003876, 0x39B1BE2C, 0x36261130],
   [0x3FBD08A4, 0x3D030739, 0x39B5A28A, 0x3629B41B], [0x3FC12C4D, 0x3D05E5BA, 0x39B99CB9, 0x362D6B68],
   [0x3FC5672A, 0x3D08D44F, 0x39BDAD35, 0x3631378A], [0x3FC9B9BE, 0x3D0BD355, 0x39C1D478, 0x363518F5],
   [0x3FCE248C, 0x3D0EE325, 0x39C61304, 0x36391022], [0x3FD2A81E, 0x3D120420, 0x39CA695B, 0x363D1D89],
   [0x3FD744FD, 0x3D1536A5, 0x39CED802, 0x364141A7], [0x3FDBFBB8, 0x3D187B16, 0x39D35F81, 0x36457CFC],
   [0x3FE0CCDF, 0x3D1BD1D7, 0x39D80065, 0x3649D00A], [0x3FE5B907, 0x3D1F3B51, 0x39DCBB3A, 0x364E3B55],
   [0x3FEAC0C7, 0x3D22B7EA, 0x39E19093, 0x3652BF66], [0x3FEFE4BA, 0x3D264810, 0x39E68104, 0x36575CC8],
   [0x3FF5257D, 0x3D29EC2E, 0x39EB8D25, 0x365C1408], [0x3FFA83B3, 0x3D2DA4B6, 0x39F0B591, 0x3660E5B8]]

/-- Segments of log2, degree 3 (R166, R167). -/
def nativeLog2 : List (List Nat) :=
  [[0x00000000, 0x3D38AA28, 0xBA388F42, 0x376B1126], [0x3D35D69C, 0x3D33119C, 0xBA2D8CA8, 0x3756A2E7],
   [0x3DB31FB8, 0x3D2DCD55, 0xBA237EEA, 0x374481A4], [0x3E0462C4, 0x3D28D61A, 0xBA1A4A7A, 0x37345CBA],
   [0x3E2E00D2, 0x3D24257E, 0xBA11D78E, 0x3725F06E], [0x3E567AF1, 0x3D1FB5C7, 0xBA0A1187, 0x3719038E],
   [0x3E7DE0B6, 0x3D1B81D7, 0xBA02E673, 0x370D659A], [0x3E92203D, 0x3D178514, 0xB9F88D48, 0x3702ED3E],
   [0x3EA4D3C2, 0x3D13BB5A, 0xB9EC48B9, 0x36F2EE3C], [0x3EB7110E, 0x3D1020EF, 0xB9E0E70B, 0x36E1C9BC],
   [0x3EC8DDD4, 0x3D0CB270, 0xB9D652E7, 0x36D2389F], [0x3EDA3F60, 0x3D096CCD, 0xB9CC796B, 0x36C40D96],
   [0x3EEB3A9F, 0x3D064D3D, 0xB9C349D4, 0x36B7214D], [0x3EFBD42B, 0x3D035136, 0xB9BAB533, 0x36AB5181],
   [0x3F060828, 0x3D007667, 0xB9B2AE37, 0x36A08043], [0x3F0DF989, 0x3CFB7563, 0xB9AB28F4, 0x36969357]] ++
  [[0xBED47FCC, 0x3CF63847, 0xB9A41AB9, 0x368D73AF], [0xBEC544C0, 0x3CF131E8, 0xB99D79E9, 0x36850CFA],
   [0xBEB6587B, 0x3CEC5EFD, 0xB9973DDA, 0x367A9A8A], [0xBEA7B7DE, 0x3CE7BC80, 0xB9915EBB, 0x366C4953],
   [0xBE995FF7, 0x3CE347A6, 0xB98BD577, 0x365F0A14], [0xBE8B4E03, 0x3CDEFDD8, 0xB9869BA4, 0x3652C3AB],
   [0xBE7AFEC5, 0x3CDADCB3, 0xB981AB6E, 0x36475FB0], [0xBE5FE33D, 0x3CD6E1FF, 0xB979FF0F, 0x363CCA19],
   [0xBE4544C0, 0x3CD30BAD, 0xB9712635, 0x3632F0F7], [0xBE2B1EE1, 0x3CCF57D3, 0xB968C37C, 0x3629C42D],
   [0xBE116D6E, 0x3CCBC4A8, 0xB960CED1, 0x36213543], [0xBDF058D7, 0x3CC85082, 0xB95940CD, 0x3619372B],
   [0xBDBEB025, 0x3CC4F9D5, 0xB95212A8, 0x3611BE22], [0xBD8DD995, 0x3CC1BF2E, 0xB94B3E27, 0x360ABF82],
   [0xBD3B9CA6, 0x3CBE9F32, 0xB944BD8D, 0x360431A8], [0x00000000, 0xBCB8AA3E, 0xB938A304, 0xB5FC17AF]]

/-- Segments of recip, degree 3 (R166, R167). -/
def nativeRecip : List (List Nat) :=
  [[0x3F800000, 0xBCFFFF95, 0x3A7FB60B, 0xB7F0AB56], [0x3F783E10, 0xBCF0B7F1, 0x3A692D62, 0xB7D530CF],
   [0x3F70F0F1, 0xBCE2C457, 0x3A5536FE, 0xB7BD8637], [0x3F6A0EA1, 0xBCD5FE7A, 0x3A43779C, 0xB7A90D80],
   [0x3F638E39, 0xBCCA454C, 0x3A33A2BC, 0xB79745AC], [0x3F5D67C9, 0xBCBF7C26, 0x3A2577ED, 0xB787C4DD],
   [0x3F579436, 0xBCB58A1B, 0x3A18C0A5, 0xB774676E], [0x3F520D21, 0xBCAC5962, 0x3A0D4E83, 0xB75C9387],
   [0x3F4CCCCD, 0xBCA3D6E7, 0x3A02F9ED, 0xB7479539], [0x3F47CE0C, 0xBC9BF1DE, 0x39F341E3, 0xB735075C],
   [0x3F430C31, 0xBC949B77, 0x39E24CAE, 0xB72494DB], [0x3F3E82FA, 0xBC8DC695, 0x39D2E1BF, 0xB715F5DD],
   [0x3F3A2E8C, 0xBC876795, 0x39C4D554, 0xB708ED72], [0x3F360B61, 0xBC81741A, 0x39B8015E, 0xB6FA8F7B],
   [0x3F321643, 0xBC77C5CA, 0x39AC44A9, 0xB6E5B0E1], [0x3F2E4C41, 0xBC6D575F, 0x39A18224, 0xB6D2F31F]] ++
  [[0x3F2AAAAB, 0xBC638E1C, 0x3997A04E, 0xB6C214DF], [0x3F272F05, 0xBC5A5CA9, 0x398E88B5, 0xB6B2DDC0],
   [0x3F23D70A, 0xBC51B700, 0x39862789, 0xB6A51CF7], [0x3F20A0A1, 0xBC499246, 0x397CD687, 0xB698A82B],
   [0x3F1D89D9, 0xBC41E4A9, 0x396E88B1, 0xB68D5A7C], [0x3F1A90E8, 0xBC3AA540, 0x396149EF, 0xB68313BE],
   [0x3F17B426, 0xBC33CBF7, 0x3955019F, 0xB6736F92], [0x3F14F209, 0xBC2D5171, 0x394999C6, 0xB6625BD1],
   [0x3F124925, 0xBC272EF8, 0x393EFEB5, 0xB652C0C8], [0x3F0FB824, 0xBC215E6D, 0x39351EC9, 0xB644782C],
   [0x3F0D3DCB, 0xBC1BDA36, 0x392BEA28, 0xB637602A], [0x3F0AD8F3, 0xBC169D31, 0x3923528D, 0xB62B5ACF],
   [0x3F088889, 0xBC11A2AA, 0x391B4B1D, 0xB6204D8A], [0x3F064B8A, 0xBC0CE64E, 0x3913C839, 0xB61620BC],
   [0x3F042108, 0xBC086421, 0x390CBF5C, 0xB60CBF5C], [0x3F020821, 0xBC04187B, 0x39062700, 0xB60416A5]]

/-- Segments of rsqrt, degree 3 (R166, R167). -/
def nativeRsqrt : List (List Nat) :=
  [[0x3F800000, 0xBC7FFFC5, 0x39BFD754, 0xB7179496], [0x3F7C1764, 0xBC747393, 0x39B1A519, 0xB70852FA],
   [0x3F785B42, 0xBC69BF20, 0x39A4E075, 0xB6F5F927], [0x3F74C867, 0xBC5FCD03, 0x39995B74, 0xB6DE8FE1],
   [0x3F715BEF, 0xBC568A79, 0x398EEF00, 0xB6C9F080], [0x3F6E133E, 0xBC4DE702, 0x398579B2, 0xB6B7B5C9],
   [0x3F6AEBF5, 0xBC45D411, 0x3979BDC1, 0xB6A78B06], [0x3F67E3ED, 0xBC3E44C4, 0x396A0BAC, 0xB6992904],
   [0x3F64F92E, 0xBC372DA9, 0x395BB265, 0xB68C53A1], [0x3F6229ED, 0xBC30848C, 0x394E8CCB, 0xB680D7E0],
   [0x3F5F7483, 0xBC2A4052, 0x39427A85, 0xB66D14AA], [0x3F5CD76E, 0xBC2458D1, 0x39375F46, 0xB65A8BC2],
   [0x3F5A514A, 0xBC1EC6B3, 0x392D223E, 0xB649D554], [0x3F57E0CF, 0xBC19835E, 0x3923AD96, 0xB63ABA87],
   [0x3F5584CD, 0xBC1488DC, 0x391AEE08, 0xB62D0BF9], [0x3F533C2E, 0xBC0FD1C8, 0x3912D287, 0xB620A097]] ++
  [[0x3F5105EC, 0xBC0B593E, 0x390B4BF1, 0xB61554AB], [0x3F4EE116, 0xBC071ACC, 0x39044CD0, 0xB60B0912],
   [0x3F4CCCCD, 0xBC031267, 0x38FB9247, 0xB601A290], [0x3F4AC83F, 0xBBFE78B9, 0x38EF6C63, 0xB5F2128E],
   [0x3F48D2AB, 0xBBF72A9E, 0x38E414BA, 0xB5E2506F], [0x3F46EB5A, 0xBBF0344D, 0x38D97A0D, 0xB5D3D9C6],
   [0x3F4511A3, 0xBBE9901E, 0x38CF8CD3, 0xB5C68DE1], [0x3F4344E6, 0xBBE338DC, 0x38C63F11, 0xB5BA4FD0],
   [0x3F41848F, 0xBBDD29BF, 0x38BD8421, 0xB5AF05E2], [0x3F3FD012, 0xBBD75E5C, 0x38B55096, 0xB5A4993F],
   [0x3F3E26EB, 0xBBD1D2A3, 0x38AD9A11, 0xB59AF588], [0x3F3C889F, 0xBBCC82D1, 0x38A6572A, 0xB5920890],
   [0x3F3AF4BA, 0xBBC76B6A, 0x389F7F50, 0xB589C211], [0x3F396ACE, 0xBBC28936, 0x38990AB9, 0xB5821373],
   [0x3F37EA74, 0xBBBDD938, 0x3892F245, 0xB575DF3E], [0x3F36734A, 0xBBB958A7, 0x388D2F76, 0xB5689595]] ++
  [[0x3F3504F3, 0xBC3504CA, 0x3987A6F4, 0xB6D65DF9], [0x3F32416A, 0xBC2CDA71, 0x397B3A54, 0xB6C0CA9C],
   [0x3F2F9D53, 0xBC2548A7, 0x39692BC6, 0xB6ADEDEA], [0x3F2D166C, 0xBC1E4047, 0x3958E140, 0xB69D6007],
   [0x3F2AAAAB, 0xBC17B40D, 0x394A237D, 0xB68ECAF2], [0x3F285835, 0xBC119850, 0x393CC340, 0xB681E714],
   [0x3F261D5F, 0xBC0BE2C4, 0x393097FE, 0xB66CF111], [0x3F23F8A2, 0xBC068A4D, 0x39257EC7, 0xB65899EC],
   [0x3F21E89B, 0xBC0186D3, 0x391B5961, 0xB64673AF], [0x3F1FEC04, 0xBBF9A242, 0x39120D8A, 0xB636363F],
   [0x3F1E01B3, 0xBBF0C58A, 0x39098462, 0xB627A432], [0x3F1C2896, 0xBBE86BF2, 0x3901A9E8, 0xB61A890A],
   [0x3F1A5FB2, 0xBBE08B1D, 0x38F4D91D, 0xB60EB7BB], [0x3F18A61F, 0xBBD919B3, 0x38E779CA, 0xB604097E],
   [0x3F16FB06, 0xBBD20F46, 0x38DB1A95, 0xB5F4B9A0], [0x3F155DA2, 0xBBCB6435, 0x38CFA360, 0xB5E3294C]] ++
  [[0x3F13CD3A, 0xBBC51195, 0x38C4FEC5, 0xB5D32F80], [0x3F124925, 0xBBBF111E, 0x38BB19BC, 0xB5C4A034],
   [0x3F10D0C3, 0xBBB95D17, 0x38B1E349, 0xB5B754E4], [0x3F0F6381, 0xBBB3F047, 0x38A94C43, 0xB5AB2BCD],
   [0x3F0E00D5, 0xBBAEC5E9, 0x38A14711, 0xB5A0073F], [0x3F0CA83F, 0xBBA9D9A0, 0x3899C77F, 0xB595CD11],
   [0x3F0B5948, 0xBBA52769, 0x3892C295, 0xB58C6627], [0x3F0A137D, 0xBBA0AB98, 0x388C2E6C, 0xB583BE09],
   [0x3F08D677, 0xBB9C62CA, 0x38860216, 0xB5778517], [0x3F07A1D2, 0xBB9849E1, 0x3880357C, 0xB568C710],
   [0x3F067532, 0xBB945DFC, 0x38758293, 0xB55B2531], [0x3F05503E, 0xBB909C72, 0x386B3DB0, 0xB54E85C2],
   [0x3F0432A5, 0xBB8D02CD, 0x38619033, 0xB542D1BF], [0x3F031C1A, 0xBB898EC6, 0x38586F14, 0xB537F489],
   [0x3F020C52, 0xBB863E40, 0x384FD044, 0xB52DDB98], [0x3F01030A, 0xBB830F43, 0x3847AA92, 0xB5247642]]

/-- Segments of exp2, degree 2 (R166, R167). -/
def c6Exp2 : List (List Nat) :=
  [[0x3F800000, 0x3CB1704E, 0x3978AC4D], [0x3F82CD87, 0x3CB552F7, 0x397E14C2],
   [0x3F85AAC3, 0x3CB94B69, 0x3981D764], [0x3F88980F, 0x3CBD5A1C, 0x3984AF3D],
   [0x3F8B95C2, 0x3CC17F8E, 0x39879706], [0x3F8EA43A, 0x3CC5BC3E, 0x398A89E3],
   [0x3F91C3D3, 0x3CCA10AE, 0x398D97D0], [0x3F94F4F0, 0x3CCE7D64, 0x3990B0E4],
   [0x3F9837F0, 0x3CD302E8, 0x3993DCA4], [0x3F9B8D3A, 0x3CD7A1C4, 0x39971982],
   [0x3F9EF532, 0x3CDC5A87, 0x399A6885], [0x3FA27043, 0x3CE12DC1, 0x399DCA15],
   [0x3FA5FED7, 0x3CE61C08, 0x39A13E99], [0x3FA9A15B, 0x3CEB25F3, 0x39A4C67B],
   [0x3FAD583F, 0x3CF04C1D, 0x39A86228], [0x3FB123F6, 0x3CF58F24, 0x39AC120F]] ++
  [[0x3FB504F3, 0x3CFAEFAA, 0x39AFD6A1], [0x3FB8FBAF, 0x3D00372A, 0x39B3B053],
   [0x3FBD08A4, 0x3D0305E6, 0x39B79F99], [0x3FC12C4D, 0x3D05E45F, 0x39BBA4EE],
   [0x3FC5672A, 0x3D08D2ED, 0x39BFC0CD], [0x3FC9B9BE, 0x3D0BD1EA, 0x39C3F3B5],
   [0x3FCE248C, 0x3D0EE1B3, 0x39C83E26], [0x3FD2A81E, 0x3D1202A6, 0x39CCA0A5],
   [0x3FD744FD, 0x3D153522, 0x39D11BB8], [0x3FDBFBB8, 0x3D18798B, 0x39D5AFE9],
   [0x3FE0CCDF, 0x3D1BD044, 0x39DA5DC5], [0x3FE5B907, 0x3D1F39B4, 0x39DF25DC],
   [0x3FEAC0C7, 0x3D22B645, 0x39E408C1], [0x3FEFE4BA, 0x3D264661, 0x39E9070A],
   [0x3FF5257D, 0x3D29EA76, 0x39EE2150], [0x3FFA83B3, 0x3D2DA2F4, 0x39F35831]]

/-- Segments of log2, degree 2 (R166, R167). -/
def c6Log2 : List (List Nat) :=
  [[0x00000000, 0x3D38A2CD, 0xBA330C41], [0x3D35D69C, 0x3D330AE5, 0xBA28844E],
   [0x3DB31FB8, 0x3D2DC730, 0xBA1EE367], [0x3E0462C4, 0x3D28D075, 0xBA160FE2],
   [0x3E2E00D2, 0x3D24204D, 0xBA0DF38B], [0x3E567AF1, 0x3D1FB0FE, 0xBA067B1B],
   [0x3E7DE0B6, 0x3D1B7D6B, 0xB9FF2B86], [0x3E92203D, 0x3D1780FB, 0xB9F2699C],
   [0x3EA4D3C2, 0x3D13B78E, 0xB9E696A3], [0x3EB7110E, 0x3D101D67, 0xB9DB9BDC],
   [0x3EC8DDD4, 0x3D0CAF26, 0xB9D1652A], [0x3EDA3F60, 0x3D0969BC, 0xB9C7E0BA],
   [0x3EEB3A9F, 0x3D064A60, 0xB9BEFEB4], [0x3EFBD42B, 0x3D034E88, 0xB9B6B0FA],
   [0x3F060828, 0x3D0073E5, 0xB9AEEAEC], [0x3F0DF989, 0x3CFB70AE, 0xB9A7A13D]] ++
  [[0xBED47FCC, 0x3CF633DA, 0xB9A0C9C5], [0xBEC544C0, 0x3CF12DBF, 0xB99A5B62],
   [0xBEB6587B, 0x3CEC5B12, 0xB9944DD6], [0xBEA7B7DE, 0x3CE7B8CE, 0xB98E99AE],
   [0xBE995FF7, 0x3CE34429, 0xB989382B], [0xBE8B4E03, 0x3CDEFA8C, 0xB984232F],
   [0xBE7AFEC5, 0x3CDAD995, 0xB97EAA4F], [0xBE5FE33D, 0x3CD6DF0B, 0xB9759209],
   [0xBE4544C0, 0x3CD308E1, 0xB96CF44C], [0xBE2B1EE1, 0x3CCF552B, 0xB964C8A4],
   [0xBE116D6E, 0x3CCBC222, 0xB95D0756], [0xBDF058D7, 0x3CC84E1D, 0xB955A94B],
   [0xBDBEB025, 0x3CC4F78E, 0xB94EA800], [0xBD8DD995, 0x3CC1BD03, 0xB947FD7A],
   [0xBD3B9CA6, 0x3CBE9D21, 0xB941A436], [0x00000000, 0xBCB8A846, 0xB93B9720]]

/-- Segments of recip, degree 2 (R166, R167). -/
def c6Recip : List (List Nat) :=
  [[0x3F800000, 0xBCFFE172, 0x3A746C5E], [0x3F783E10, 0xBCF09D40, 0x3A5F2DAE],
   [0x3F70F0F1, 0xBCE2AC9D, 0x3A4C537B], [0x3F6A0EA1, 0xBCD5E950, 0x3A3B89EB],
   [0x3F638E39, 0xBCCA325C, 0x3A2C8A8C], [0x3F5D67C9, 0xBCBF6B27, 0x3A1F19E5],
   [0x3F579436, 0xBCB57ACE, 0x3A130584], [0x3F520D21, 0xBCAC4B94, 0x3A08226F],
   [0x3F4CCCCD, 0xBCA3CA69, 0x39FC97C4], [0x3F47CE0C, 0xBC9BE68A, 0x39EAC493],
   [0x3F430C31, 0xBC94912A, 0x39DA94D7], [0x3F3E82FA, 0xBC8DBD33, 0x39CBD974],
   [0x3F3A2E8C, 0xBC875F04, 0x39BE6984], [0x3F360B61, 0xBC816C43, 0x39B22165],
   [0x3F321643, 0xBC77B76B, 0x39A6E1F7], [0x3F2E4C41, 0xBC6D4A2C, 0x399C8FF3]] ++
  [[0x3F2AAAAB, 0xBC6381F7, 0x3993135F], [0x3F272F05, 0xBC5A5178, 0x398A571C],
   [0x3F23D70A, 0xBC51ACAB, 0x3982487E], [0x3F20A0A1, 0xBC4988B9, 0x3975ADFC],
   [0x3F1D89D9, 0xBC41DBD0, 0x3967E7DA], [0x3F1A90E8, 0xBC3A9D0D, 0x395B2477],
   [0x3F17B426, 0xBC33C45A, 0x394F4C83], [0x3F14F209, 0xBC2D4A5C, 0x39444B2B],
   [0x3F124925, 0xBC272860, 0x393A0DC6], [0x3F0FB824, 0xBC215848, 0x39308397],
   [0x3F0D3DCB, 0xBC1BD47A, 0x39279D8D], [0x3F0AD8F3, 0xBC1697D5, 0x391F4E1B],
   [0x3F088889, 0xBC119DA7, 0x39178901], [0x3F064B8A, 0xBC0CE19C, 0x3910432F],
   [0x3F042108, 0xBC085FBB, 0x390972A0], [0x3F020821, 0xBC041459, 0x39030E3D]]

/-- Segments of rsqrt, degree 2 (R166, R167). -/
def c6Rsqrt : List (List Nat) :=
  [[0x3F800000, 0xBC7FECCB, 0x39B8BB75], [0x3F7C1764, 0xBC746282, 0x39AB406B],
   [0x3F785B42, 0xBC69AFBB, 0x399F1BEC], [0x3F74C867, 0xBC5FBF15, 0x39942379],
   [0x3F715BEF, 0xBC567DD5, 0x398A32D3], [0x3F6E133E, 0xBC4DDB83, 0x39812AF6],
   [0x3F6AEBF5, 0xBC45C995, 0x3971E264], [0x3F67E3ED, 0xBC3E3B2F, 0x3962DCFF],
   [0x3F64F92E, 0xBC3724E1, 0x39551DCD], [0x3F6229ED, 0xBC307C7C, 0x39488212],
   [0x3F5F7483, 0xBC2A38E7, 0x393CEB7E], [0x3F5CD76E, 0xBC2451FA, 0x39323F82],
   [0x3F5A514A, 0xBC1EC063, 0x392866CD], [0x3F57E0CF, 0xBC197D87, 0x391F4CD0],
   [0x3F5584CD, 0xBC148372, 0x3916DF63], [0x3F533C2E, 0xBC0FCCC2, 0x390F0E6F]] ++
  [[0x3F5105EC, 0xBC0B5492, 0x3907CBA8], [0x3F4EE116, 0xBC071673, 0x39010A53],
   [0x3F4CCCCD, 0xBC030E58, 0x38F57E28], [0x3F4AC83F, 0xBBFE7127, 0x38E9BF7E],
   [0x3F48D2AB, 0xBBF72389, 0x38DEC66C], [0x3F46EB5A, 0xBBF02DAD, 0x38D4828F],
   [0x3F4511A3, 0xBBE989E8, 0x38CAE525], [0x3F4344E6, 0xBBE33308, 0x38C1E0DE],
   [0x3F41848F, 0xBBDD2445, 0x38B969B1], [0x3F3FD012, 0xBBD75936, 0x38B174B7],
   [0x3F3E26EB, 0xBBD1CDCA, 0x38A9F80E], [0x3F3C889F, 0xBBCC7E3F, 0x38A2EAB9],
   [0x3F3AF4BA, 0xBBC7671B, 0x389C448B], [0x3F396ACE, 0xBBC28525, 0x3895FE0F],
   [0x3F37EA74, 0xBBBDD55F, 0x38901076], [0x3F36734A, 0xBBB95503, 0x388A7587]] ++
  [[0x3F3504F3, 0xBC34F75F, 0x3982A01C], [0x3F32416A, 0xBC2CCE60, 0x39722FB6],
   [0x3F2F9D53, 0xBC253DC4, 0x396103A4], [0x3F2D166C, 0xBC1E366E, 0x39517FE3],
   [0x3F2AAAAB, 0xBC17AB1E, 0x39437137], [0x3F285835, 0xBC11902E, 0x3936ABBE],
   [0x3F261D5F, 0xBC0BDB5A, 0x392B09BE], [0x3F23F8A2, 0xBC068386, 0x39206AA3],
   [0x3F21E89B, 0xBC01809E, 0x3916B231], [0x3F1FEC04, 0xBBF996DB, 0x390DC7D7],
   [0x3F1E01B3, 0xBBF0BB0C, 0x39059627], [0x3F1C2896, 0xBBE86247, 0x38FC14B3],
   [0x3F1A5FB2, 0xBBE0822F, 0x38EE27E1], [0x3F18A61F, 0xBBD91170, 0x38E148C8],
   [0x3F16FB06, 0xBBD2079E, 0x38D55DB8], [0x3F155DA2, 0xBBCB5D1A, 0x38CA4FF1]] ++
  [[0x3F13CD3A, 0xBBC50AFA, 0x38C00B3C], [0x3F124925, 0xBBBF0AF8, 0x38B67D98],
   [0x3F10D0C3, 0xBBB9575B, 0x38AD96F2], [0x3F0F6381, 0xBBB3EAEC, 0x38A548E9],
   [0x3F0E00D5, 0xBBAEC0E7, 0x389D8699], [0x3F0CA83F, 0xBBA9D4F0, 0x3896446B],
   [0x3F0B5948, 0xBBA52305, 0x388F77F0], [0x3F0A137D, 0xBBA0A77A, 0x388917BD],
   [0x3F08D677, 0xBB9C5EEC, 0x38831B50], [0x3F07A1D2, 0xBB98463D, 0x387AF5E8],
   [0x3F067532, 0xBB945A8F, 0x38705F57], [0x3F05503E, 0xBB909937, 0x38666637],
   [0x3F0432A5, 0xBB8CFFC1, 0x385CFEF8], [0x3F031C1A, 0xBB898BE6, 0x38541F0E],
   [0x3F020C52, 0xBB863B88, 0x384BBCDA], [0x3F01030A, 0xBB830CB1, 0x3843CF8C]]

end Sys2Proof.Machine
end

