-- ==== Sys2Proof/Machine/Num.lean ====
section
/-! DEFINITION. Number formats and product arithmetic (04_formats.md): exact values, rounding, group sums, conversions.
The numbers here are exact: a finite value is a sign, an integer significand and a power of two. -/
namespace Sys2Proof.Machine

/-- A value: not a number, an infinity, or (-1)^neg * sig * 2^q exactly (R114). -/
inductive Fv where
  | nan
  | inf (neg : Bool)
  | fin (neg : Bool) (sig : Nat) (q : Int)
  deriving DecidableEq, Repr

/-- A floating-point format: exponent bits, fraction bits, bias (Table 4.1). -/
structure FpFmt where
  eb : Nat
  fb : Nat
  bias : Nat
  deriving DecidableEq, Repr

def fp32 : FpFmt := ⟨8, 23, 127⟩
def fp16 : FpFmt := ⟨5, 10, 15⟩
def bf16 : FpFmt := ⟨8, 7, 127⟩

/-- n * 2^k, the bits below 1 dropped. -/
def shl (n : Nat) (k : Int) : Nat := if k ≥ 0 then n * 2 ^ k.toNat else n / 2 ^ (-k).toNat

/-- floor(log2 |x|) of a nonzero value (R114). -/
def lead (sig : Nat) (q : Int) : Int := (Nat.log2 sig : Int) + q

def Fv.zero : Fv := .fin false 0 0

def Fv.isZero : Fv → Bool
  | .fin _ s _ => s = 0
  | _ => false

def Fv.isNan : Fv → Bool
  | .nan => true
  | _ => false

def Fv.isFin : Fv → Bool
  | .fin .. => true
  | _ => false

def Fv.negative : Fv → Bool
  | .nan => false
  | .inf n => n
  | .fin n _ _ => n

def Fv.neg : Fv → Fv
  | .nan => .nan
  | .inf n => .inf (!n)
  | .fin n s q => .fin (!n) s q

def Fv.abs : Fv → Fv
  | .nan => .nan
  | .inf _ => .inf false
  | .fin _ s q => .fin false s q

/-- x * 2^k exactly. -/
def Fv.scale (x : Fv) (k : Int) : Fv :=
  match x with
  | .fin n s q => .fin n s (q + k)
  | y => y

/-- An integer as a value; 0 is +0. -/
def Fv.ofInt (i : Int) : Fv := .fin (i < 0) i.natAbs 0

/-- s * 2^q as a value; 0 is +0. -/
def Fv.ofScaled (s : Int) (q : Int) : Fv := .fin (s < 0) s.natAbs q

/-- The significand with its sign. -/
def signedSig (neg : Bool) (sig : Nat) : Int := if neg then -(sig : Int) else sig

/-! ### Storage (R105, R106) -/

/-- The value of a stored word of format F. -/
def decFp (F : FpFmt) (w : Nat) : Fv :=
  let f := field w 0 F.fb
  let e := field w F.fb F.eb
  let neg := bit w (F.fb + F.eb)
  if e = 2 ^ F.eb - 1 then (if f = 0 then .inf neg else .nan)
  else if e = 0 then .fin neg f (1 - F.bias - F.fb)
  else .fin neg (f + 2 ^ F.fb) ((e : Int) - F.bias - F.fb)

/-- The stored word of a value that format F holds exactly; a NaN is the canonical NaN. -/
def encFp (F : FpFmt) (x : Fv) : Nat :=
  let top := 2 ^ (F.fb + F.eb)
  match x with
  | .nan => (2 ^ F.eb - 1) * 2 ^ F.fb + 2 ^ (F.fb - 1)
  | .inf n => (if n then top else 0) + (2 ^ F.eb - 1) * 2 ^ F.fb
  | .fin n s q =>
    (if n then top else 0) +
    (if s = 0 then 0
     else
      let e := lead s q
      if e ≥ 1 - F.bias then
        (e + F.bias).toNat * 2 ^ F.fb + (shl s (q - (e - F.fb)) - 2 ^ F.fb)
      else shl s (q - (1 - F.bias - F.fb)))

/-- The largest finite value of F. -/
def maxFin (F : FpFmt) (neg : Bool) : Fv := .fin neg (2 ^ (F.fb + 1) - 1) ((F.bias : Int) - F.fb)

/-- Round m * 2^q to F, to nearest with ties to even, or toward zero (round_fp32 of R114; R124). -/
def roundMag (F : FpFmt) (trunc neg : Bool) (m : Nat) (q : Int) : Fv :=
  if m = 0 then .fin neg 0 0
  else
    let p : Int := Nat.log2 m
    let e := p + q
    let emin : Int := 1 - F.bias
    let keep : Int := if e < emin then F.fb + 1 - (emin - e) else F.fb + 1
    let d := (p + 1 - keep).toNat
    let r0 := m / 2 ^ d
    let rem := m % 2 ^ d
    let half := 2 ^ (d - 1)
    let up := !trunc && d ≠ 0 && (decide (rem > half) || (decide (rem = half) && bit r0 0))
    let r := if up then r0 + 1 else r0
    if r = 0 then .fin neg 0 0
    else if lead r (q + d) > F.bias then (if trunc then maxFin F neg else .inf neg)
    else .fin neg r (q + d)

/-- Round a value to format F. A zero keeps its sign (R124). -/
def roundFv (F : FpFmt) (trunc : Bool) (x : Fv) : Fv :=
  match x with
  | .fin n s q => roundMag F trunc n s q
  | y => y

/-- round_fp32(s, q) of R114: a sum of exactly 0 gives +0. -/
def roundFp32 (s q : Int) : Fv :=
  if s = 0 then .zero else roundMag fp32 false (s < 0) s.natAbs q

/-! ### FP32 operations of the row engine and the Harbour (R155, R313) -/

/-- The exact sum, as the row engine takes it. Two zeros of one sign keep it, and an exact cancellation is +0 (notes/assumptions/19.md). -/
def addX (a b : Fv) : Fv :=
  match a, b with
  | .nan, _ => .nan
  | _, .nan => .nan
  | .inf m, .inf n => if m = n then .inf m else .nan
  | .inf m, _ => .inf m
  | _, .inf n => .inf n
  | .fin m s q, .fin n t r =>
    if s = 0 ∧ t = 0 then .fin (m && n) 0 0
    else
      let k := min q r
      let v := signedSig m (shl s (q - k)) + signedSig n (shl t (r - k))
      .ofScaled v k

/-- The exact product, with the sign of its factors on a zero; zero times an infinity is NaN. -/
def mulX (a b : Fv) : Fv :=
  match a, b with
  | .nan, _ => .nan
  | _, .nan => .nan
  | .inf m, .inf n => .inf (m != n)
  | .inf m, .fin n t _ => if t = 0 then .nan else .inf (m != n)
  | .fin m s _, .inf n => if s = 0 then .nan else .inf (m != n)
  | .fin m s q, .fin n t r => .fin (m != n) (s * t) (if s * t = 0 then 0 else q + r)

/-- The addition of the Harbour and of Longshore: the exact sum rounded by round_fp32 of R114, which gives +0 for a sum of
0 (R313, R414). -/
def faddHbr (a b : Fv) : Fv := if (addX a b).isZero then .zero else roundFv fp32 false (addX a b)

/-- fp32(a + b). -/
def fadd (a b : Fv) : Fv := roundFv fp32 false (addX a b)

/-- fp32(a - b). -/
def fsub (a b : Fv) : Fv := fadd a b.neg

/-- fp32(a * b). -/
def fmul (a b : Fv) : Fv := roundFv fp32 false (mulX a b)

/-- a < b of two finite or infinite values, the zeros equal. -/
def Fv.lt (a b : Fv) : Bool :=
  match a, b with
  | .nan, _ => false
  | _, .nan => false
  | .inf m, .inf n => m && !n
  | .inf m, _ => m
  | _, .inf n => !n
  | .fin m s q, .fin n t r =>
    let k := min q r
    signedSig m (shl s (q - k)) < signedSig n (shl t (r - k))

/-- The maximum of R157: NaN when either is NaN, and -0 less than +0. -/
def fmaxTree (a b : Fv) : Fv :=
  if a.isNan || b.isNan then .nan
  else if a.lt b then b
  else if b.lt a then a
  else if a.negative then b else a

/-- The minimum in the same sense. -/
def fminTree (a b : Fv) : Fv :=
  if a.isNan || b.isNan then .nan
  else if a.lt b then a
  else if b.lt a then b
  else if a.negative then a else b

/-! ### Products and groups (R112 to R115) -/

/-- An exact product as it enters a group: a finite product that is zero is +0 (R112). -/
def prod (a b : Fv) : Fv :=
  match mulX a b with
  | .fin n s q => if s = 0 then .zero else .fin n s q
  | y => y

/-- chop of R114: v on the grid 2^(emax - 27), the bits below dropped. -/
def chop (v : Fv) (emax : Int) : Int :=
  match v with
  | .fin n s q => signedSig n (shl s (q + 27 - emax))
  | _ => 0

/-- The greatest lead of the nonzero finite values of a list, if there is one. -/
def maxLead : List Fv → Option Int
  | [] => none
  | v :: vs =>
    match v, maxLead vs with
    | .fin _ s q, none => if s = 0 then none else some (lead s q)
    | .fin _ s q, some e => if s = 0 then some e else some (max e (lead s q))
    | _, e => e

/-- group_add of R114. -/
def groupAdd (acc : Fv) (ts : List Fv) : Fv :=
  let all := acc :: ts
  let nan := all.any Fv.isNan
  let pinf := all.any (· = .inf false)
  let ninf := all.any (· = .inf true)
  if nan || (pinf && ninf) then .nan
  else if pinf then .inf false
  else if ninf then .inf true
  else
    match maxLead all with
    | none => .zero
    | some e => roundFp32 ((all.map (chop · e)).foldl (· + ·) 0) (e - 27)

/-- A list cut into consecutive pieces of n, the last one shorter; `fuel` is at least the list's length. -/
def chunksOf {α : Type} (n fuel : Nat) (l : List α) : List (List α) :=
  match fuel with
  | 0 => []
  | f + 1 => if l = [] then [] else l.take n :: chunksOf n f (l.drop n)
termination_by structural fuel

/-- The products added into acc in groups of 32, in order (R113). -/
def groupSum (acc : Fv) (ts : List Fv) : Fv :=
  (chunksOf 32 ts.length ts).foldl groupAdd acc

/-! ### Integers (R107, R116) -/

/-- Two's complement of the low w bits. -/
def toSigned (v w : Nat) : Int :=
  let x := v % 2 ^ w
  if 2 * x ≥ 2 ^ w then (x : Int) - 2 ^ w else x

/-- The low w bits of an integer. -/
def ofSigned (i : Int) (w : Nat) : Nat := (i % (2 ^ w : Nat)).toNat

/-- Wrap to INT32. -/
def wrap32 (i : Int) : Int := toSigned (ofSigned i 32) 32

/-- The integer nearest x, ties to even, or toward zero; x finite. -/
def roundInt (trunc : Bool) (x : Fv) : Int :=
  match x with
  | .fin n s q =>
    if q ≥ 0 then signedSig n (shl s q)
    else
      let d := (-q).toNat
      let r0 := s / 2 ^ d
      let rem := s % 2 ^ d
      let half := 2 ^ (d - 1)
      let up := !trunc && (decide (rem > half) || (decide (rem = half) && bit r0 0))
      signedSig n (if up then r0 + 1 else r0)
  | _ => 0

def clamp (lo hi i : Int) : Int := max lo (min hi i)

/-! ### Element formats (Table 3.4, Table 4.2) -/

/-- Bits of an element of a format code. -/
def elemBits (f : Nat) : Nat :=
  match f with
  | 0 => 32 | 1 => 16 | 2 => 16 | 3 => 8 | 4 => 4 | 5 => 16 | 6 => 32 | 7 => 16
  | 8 => 8 | 9 => 4 | 10 => 3 | 11 => 2 | 12 => 1 | _ => 8

/-- Formats with block exponents. -/
def isBlock (f : Nat) : Bool := decide (8 ≤ f) && decide (f ≤ 11)

/-- FP32, FP16 and BF16. -/
def isFloat (f : Nat) : Bool := decide (f ≤ 2)

/-- INT8, INT4, INT16, INT32 and U16. -/
def isIntFmt (f : Nat) : Bool := decide (3 ≤ f) && decide (f ≤ 7)

/-- The floating-point format of a code, FP32 for any other. -/
def fpOf (f : Nat) : FpFmt :=
  match f with
  | 1 => fp16
  | 2 => bf16
  | _ => fp32

/-- The least and greatest element of an integer or block-scaled format. -/
def elemRange (f : Nat) : Int × Int :=
  match f with
  | 3 => (-128, 127) | 4 => (-8, 7) | 5 => (-32768, 32767) | 6 => (-2147483648, 2147483647) | 7 => (0, 65535)
  | 8 => (-128, 127) | 9 => (-8, 7) | 10 => (-3, 3) | 11 => (-1, 1)
  | _ => (0, 1)

/-- An element read from its raw bits, a block-scaled one without its exponent; the error is a FORMAT detail
(R107, R108). -/
def decElem (f raw : Nat) : Except Nat Fv :=
  match f with
  | 0 => .ok (decFp fp32 raw)
  | 1 => .ok (decFp fp16 raw)
  | 2 => .ok (decFp bf16 raw)
  | 7 => .ok (.ofInt raw)
  | 10 => if raw = 4 then .error 1 else .ok (.ofInt (toSigned raw 3))
  | 11 => match raw with
    | 0 => .ok .zero
    | 1 => .ok (.ofInt 1)
    | 2 => .ok (.ofInt (-1))
    | _ => .error 2
  | 12 => .ok (.ofInt raw)
  | _ => .ok (.ofInt (toSigned raw (elemBits f)))

/-- The raw bits of an integer element of a format. -/
def encInt (f : Nat) (i : Int) : Nat :=
  match f with
  | 11 => if i = 0 then 0 else if i > 0 then 1 else 2
  | _ => ofSigned i (elemBits f)

/-! ### Block-scaled sums (R117 to R119) -/

/-- promote of R118: the value, and whether it was altered. -/
def promote (r s : Int) : Fv × Bool :=
  let v := match roundFp32 r s with
    | .inf n => maxFin fp32 n
    | y => y
  (v, decide (r ≠ 0) && !((addX v (.ofScaled (-r) s)).isZero))

/-- One run (R118): per block, its exponent sum and its integer sum. -/
def addRun (acc : Fv) (blocks : List (Int × Int)) : Fv × Bool :=
  let live := blocks.filter (fun b => b.2 ≠ 0)
  match live with
  | [] => (acc, false)
  | b :: bs =>
    let smax := bs.foldl (fun m c => max m c.1) b.1
    let r := live.foldl (fun t c =>
      t + signedSig (c.2 < 0) (c.2.natAbs / 2 ^ (smax - c.1).toNat)) (0 : Int)
    if r = 0 then (acc, false)
    else
      let p := promote r smax
      (groupAdd acc [p.1], p.2)

/-! ### Splitting (R120 to R123) -/

/-- trunc_bf16 of an FP32 value. -/
def truncBf16 (x : Fv) : Fv := decFp bf16 (encFp fp32 x / 2 ^ 16)

/-- The pieces hi, mid, lo of split-3 and hi, lo of split-2, most significant first (R120). -/
def splitPieces (n : Nat) (x : Fv) : List Fv :=
  match x with
  | .fin .. =>
    let hi := truncBf16 x
    let r1 := fsub x hi
    if n = 3 then
      let mid := truncBf16 r1
      [hi, mid, truncBf16 (fsub r1 mid)]
    else [hi, truncBf16 r1]
  | y => if n = 3 then [y, .zero, .zero] else [y, .zero]

/-- Passes of Table 4.7 for FP32: piece numbers (0 = hi, 1 = mid of split-3 or lo of split-2, 2 = lo). -/
def splitPasses (n : Nat) : List (Nat × Nat) :=
  if n = 3 then [(2, 0), (1, 1), (0, 2), (1, 0), (0, 1), (0, 0)] else [(1, 0), (0, 1), (0, 0)]

/-- A product of a pass: outside hi * hi, one with an infinity or NaN is +0 (R122). -/
def passProd (hh : Bool) (a b : Fv) : Fv :=
  if hh || (a.isFin && b.isFin) then prod a b else .zero

/-! ### Conversions (R124 to R127) -/

/-- A value rounded for a floating-point, integer or U16 format, as raw bits; a NaN or infinity to an integer is FORMAT
detail 3 (R124, R125, R127). -/
def convScalar (f : Nat) (trunc : Bool) (x : Fv) : Except Nat Nat :=
  if isFloat f then .ok (encFp (fpOf f) (roundFv (fpOf f) trunc x))
  else
    match x with
    | .fin .. =>
      let r := elemRange f
      .ok (encInt f (clamp r.1 r.2 (roundInt trunc x)))
    | _ => .error 3

/-- c of R126, step 3. -/
def blockC (f : Nat) : Int :=
  match f with
  | 8 => 6 | 9 => 2 | 10 => 1 | _ => 0

/-- A block formed by R126: exponent, elements, whether step 3 clamped it. -/
def toBlock (f : Nat) (trunc : Bool) (xs : List Fv) : Except Nat (Int × List Int × Bool) :=
  if xs.any (fun x => !x.isFin) then .error 3
  else
    match maxLead xs with
    | none => .ok (0, xs.map (fun _ => 0), false)
    | some l =>
      let e0 := l - blockC f
      let e := clamp (-128) 127 e0
      let r := elemRange f
      .ok (e, xs.map (fun x => clamp r.1 r.2 (roundInt trunc (x.scale (-e)))), e != e0)

end Sys2Proof.Machine
end

