-- ==== Sys2Proof/Machine/Fn.lean ====
section
/-! DEFINITION. Row engine arithmetic: functions, drains, soft maximum, RMS normalisation (06_row_engine.md). -/
namespace Sys2Proof.Machine

/-- Function set and mode (Table 6.1). -/
structure FnMode where
  base2 : Bool := false
  heirloom : Bool := false
  deriving DecidableEq, Repr

/-- FP32 constants by bit pattern. -/
def f32 (w : Nat) : Fv := decFp fp32 w

def one : Fv := .fin false 1 0
def log2E : Fv := f32 0x3FB8AA3B
def ln2 : Fv := f32 0x3F317218
def kG : Fv := f32 0x3F4C422A
def cG : Fv := f32 0x3D372713
def c3 : Fv := f32 0x3E095D4E
def half : Fv := .fin false 1 (-1)

/-- -2^126, the value of a masked position (R175). -/
def maskedVal : Fv := .fin true 1 126

/-- Row of a coefficient table. -/
def segment (t : List (List Nat)) (j : Nat) : List Fv := (t.getD j []).map f32

/-- The segment polynomial (R165), coefficients c[0..d]. -/
def poly (c : List Fv) (u : Fv) : Fv :=
  match c.reverse with
  | [] => .zero
  | top :: rest => rest.foldl (fun p k => fadd (fmul p u) k) top

/-- reduce_exp of R164 with c = num * 2^-den. n is cut off at -1000 and 1000, past which every result is 0 or an
infinity. -/
def reduceExp (neg : Bool) (s : Nat) (q : Int) (num den : Nat) : Int × Nat × Fv :=
  let k := q + 32 - den
  let a : Int := signedSig neg (s * num)
  let v : Int := if k ≥ 0 then a * 2 ^ (min k 4096).toNat else a / (2 ^ (-k).toNat : Nat)
  let n := v / (2 ^ 32 : Nat)
  let r := (v % (2 ^ 32 : Nat)).toNat
  (clamp (-1000) 1000 n, field r 27 5, .fin false (field r 4 23) (-23))

/-- The 23-bit fraction of |x| and its lead (R164). -/
def frac23 (s : Nat) (q : Int) : Int × Nat :=
  let n := lead s q
  (n, shl s (q + 23 - n) - 2 ^ 23)

/-- reduce_log of R164. -/
def reduceLog (s : Nat) (q : Int) : Int × Nat × Fv :=
  let nf := frac23 s q
  let j := field nf.2 18 5
  let k := field nf.2 0 18
  (if j ≥ 16 then nf.1 + 1 else nf.1, j, .fin false (if j = 31 then 2 ^ 18 - k else k) (-18))

/-- exp2 or exp from a table. -/
def expOf (t : List (List Nat)) (num den : Nat) (x : Fv) : Fv :=
  match x with
  | .fin n s q =>
    let r := reduceExp n s q num den
    roundFv fp32 false ((poly (segment t r.2.1) r.2.2).scale r.1)
  | y => y

/-- n + p of log2 and ln, exactly. -/
def logOf (t : List (List Nat)) (x : Fv) : Fv :=
  match x with
  | .fin _ s q =>
    let r := reduceLog s q
    addX (.ofInt r.1) (poly (segment t r.2.1) r.2.2)
  | y => y

def recipOf (t : List (List Nat)) (x : Fv) : Fv :=
  match x with
  | .fin neg s q =>
    let nf := frac23 s q
    let p := poly (segment t (field nf.2 18 5)) (.fin false (field nf.2 0 18) (-18))
    let r := roundFv fp32 false (p.scale (-nf.1))
    if neg then r.neg else r
  | y => y

def rsqrtOf (t : List (List Nat)) (x : Fv) : Fv :=
  match x with
  | .fin _ s q =>
    let nf := frac23 s q
    let j := field nf.2 18 5 + (if nf.1 % 2 = 0 then 0 else 32)
    let p := poly (segment t j) (.fin false (field nf.2 0 18) (-18))
    roundFv fp32 false (p.scale (-(nf.1 / 2)))
  | y => y

/-- Table 6.2 for the function of code f (Table 3.15); none where the input is evaluated. -/
def special (f : Nat) (x : Fv) : Option Fv :=
  match x with
  | .nan => some .nan
  | .inf neg =>
    match f with
    | 0 | 2 => some (if neg then .zero else .inf false)
    | 1 | 3 => some (if neg then .nan else .inf false)
    | 4 => some (.fin neg 0 0)
    | 5 => some (if neg then .nan else .zero)
    | 6 => some (if neg then .nan else .inf false)
    | 7 => some (if neg then .zero else one)
    | 8 => some (if neg then .fin true 1 0 else one)
    | 9 | 10 => some (if neg then .fin true 0 0 else .inf false)
    | 11 | 12 => some (if neg then .zero else one)
    | _ => some .zero
  | .fin neg 0 _ =>
    match f with
    | 0 | 2 => some one
    | 1 | 3 => some (.inf true)
    | 4 => some (.inf neg)
    | 5 => some (.inf neg)
    | 6 => some (.fin neg 0 0)
    | 7 => some half
    | 8 | 9 | 10 => some (.fin neg 0 0)
    | 11 | 12 => some half
    | _ => some one
  | .fin neg _ _ =>
    match f with
    | 1 | 3 | 5 | 6 => if neg then some .nan else none
    | _ => none

/-- Evaluate past Table 6.2. -/
def viaSpecial (f : Nat) (x : Fv) (y : Fv) : Fv := (special f x).getD y

def fnExp2 (m : FnMode) (x : Fv) : Fv :=
  viaSpecial 0 x (expOf (if m.heirloom then c6Exp2 else nativeExp2) 1 0 x)

def fnLog2 (m : FnMode) (x : Fv) : Fv :=
  viaSpecial 1 x (roundFv fp32 false (logOf (if m.heirloom then c6Log2 else nativeLog2) x))

def fnExp (m : FnMode) (x : Fv) : Fv :=
  viaSpecial 2 x
    (if m.base2 || m.heirloom then fnExp2 m (fmul x log2E) else expOf nativeExp 0x171547652B8 40 x)

def fnLn (m : FnMode) (x : Fv) : Fv :=
  viaSpecial 3 x
    (if m.base2 || m.heirloom then fmul (fnLog2 m x) ln2
     else roundFv fp32 false (mulX (logOf nativeLog2 x) (.fin false 0xB17217F7D2 (-40))))

def withSign (neg : Bool) (x : Fv) : Fv := if neg then x.neg else x

def fnRecip (m : FnMode) (x : Fv) : Fv :=
  viaSpecial 4 x
    (if m.base2 then withSign x.negative (fnExp2 m (fsub .zero (fnLog2 m x.abs)))
     else recipOf (if m.heirloom then c6Recip else nativeRecip) x)

def fnRsqrt (m : FnMode) (x : Fv) : Fv :=
  viaSpecial 5 x
    (if m.base2 then fnExp2 m (fmul half.neg (fnLog2 m x))
     else rsqrtOf (if m.heirloom then c6Rsqrt else nativeRsqrt) x)

def fnSqrt (m : FnMode) (x : Fv) : Fv :=
  viaSpecial 6 x
    (if m.base2 then fnExp2 m (fmul half (fnLog2 m x)) else fnRecip m (fnRsqrt m x))

def fnSigmoid (m : FnMode) (x : Fv) : Fv :=
  viaSpecial 7 x (fnRecip m (fadd one (fnExp2 m (fsub .zero (fmul x log2E)))))

def fnTanh (m : FnMode) (x : Fv) : Fv :=
  let a := fmul x.abs log2E
  let b := fnExp2 m (fadd a a)
  let r := fnRecip m (fadd one b)
  viaSpecial 8 x (withSign x.negative (fsub one (fadd r r)))

def fnSilu (m : FnMode) (x : Fv) : Fv := viaSpecial 9 x (fmul x (fnSigmoid m x))

def fnGelu (m : FnMode) (x : Fv) : Fv :=
  let z := fmul kG (fadd x (fmul cG (fmul (fmul x x) x)))
  viaSpecial 10 x (fmul (fmul half x) (fadd one (fnTanh m z)))

def fnSiluD (m : FnMode) (x : Fv) : Fv :=
  let s := fnSigmoid m x
  viaSpecial 11 x (fmul s (fadd one (fmul x (fsub one s))))

def fnTanhD (m : FnMode) (x : Fv) : Fv :=
  let t := fnTanh m x
  viaSpecial 13 x (fsub one (fmul t t))

/-- gelu', where (1 - t * t) * dz is +0 when 1 - t * t is 0 (R169). -/
def fnGeluD (m : FnMode) (x : Fv) : Fv :=
  let x2 := fmul x x
  let t := fnTanh m (fmul kG (fadd x (fmul cG (fmul x2 x))))
  let dz := fmul kG (fadd one (fmul c3 x2))
  let w := fsub one (fmul t t)
  let wd := if w.isZero then .zero else fmul w dz
  viaSpecial 12 x (fadd (fmul half (fadd one t)) (fmul (fmul half x) wd))

/-- The function of a code of Table 3.15; a code that an admitted image cannot hold gives NaN. -/
def fn (m : FnMode) (code : Nat) (x : Fv) : Fv :=
  match code with
  | 0 => fnExp2 m x
  | 1 => fnLog2 m x
  | 2 => fnExp m x
  | 3 => fnLn m x
  | 4 => fnRecip m x
  | 5 => fnRsqrt m x
  | 6 => fnSqrt m x
  | 7 => fnSigmoid m x
  | 8 => fnTanh m x
  | 9 => fnSilu m x
  | 10 => fnGelu m x
  | 11 => fnSiluD m x
  | 12 => fnGeluD m x
  | 13 => fnTanhD m x
  | _ => .nan

/-- Native evaluations per element (Table 6.4). -/
def fnCost (base2 : Bool) (code : Nat) : Nat :=
  if code ≤ 3 then 1
  else if code ≤ 5 then (if base2 then 2 else 1)
  else if code = 6 then 2
  else (if base2 then 3 else 2)

/-- Greater than zero. -/
def positive (x : Fv) : Bool := Fv.zero.lt x

/-- A drain (R174): code of Table 3.11, accumulator value, drain operand. Drains never use Heirloom mode (R162). -/
def drainFn (base2 : Bool) (code : Nat) (v a : Fv) : Fv :=
  let m : FnMode := { base2 := base2 }
  let rect := fun x : Fv => if x.isNan then .nan else if positive x then x else .zero
  match code with
  | 1 => fadd v a
  | 2 => fnSilu m v
  | 3 => fnGelu m v
  | 4 => fnTanh m v
  | 5 => fnSilu m (fadd v a)
  | 6 => fnGelu m (fadd v a)
  | 7 => fmul v (fnSiluD m a)
  | 8 => fmul v (fnGeluD m a)
  | 9 => fmul v (fnTanhD m a)
  | 10 => rect v
  | 11 => rect (fadd v a)
  | 12 => if positive a then v else .zero
  | _ => v

/-- Native evaluations of one drained element. -/
def drainCost (base2 : Bool) (code : Nat) : Nat :=
  match code with
  | 2 | 3 | 4 | 5 | 6 | 7 | 8 | 9 => if base2 then 3 else 2
  | _ => 0

/-! ### Rows (R157, R175 to R181) -/

/-- One chunk of up to 128 elements entered into the lanes. -/
def laneStep (op : Fv → Fv → Fv) : List Fv → List Fv → List Fv
  | a :: as, v :: vs => op a v :: laneStep op as vs
  | as, [] => as
  | [], _ => []

/-- The upper half of the lanes folded into the lower, `fuel` times. -/
def laneTree (op : Fv → Fv → Fv) : Nat → List Fv → List Fv
  | 0, l => l
  | k + 1, l => laneTree op k (List.zipWith op (l.take (2 ^ k)) (l.drop (2 ^ k)))

/-- The reduction of R157. -/
def rowReduce (start : Fv) (op : Fv → Fv → Fv) (v : List Fv) : Fv :=
  let lanes := (chunksOf 128 v.length v).foldl (laneStep op) (List.replicate 128 start)
  (laneTree op 7 lanes).headD start

def rowSum (v : List Fv) : Fv := rowReduce .zero fadd v

def rowMax (v : List Fv) : Fv := rowReduce (.inf true) fmaxTree v

/-- A soft-maximum row (R175 to R177): outputs, maximum, sum. mask lists one flag per element. -/
def softmaxRow (m : FnMode) (x : List Fv) (mask : List Bool) : List Fv × Fv × Fv :=
  let xm := x.zip mask
  if xm.any (fun p => !p.2 && (p.1.isNan || p.1 = .inf false)) then (x.map (fun _ => .nan), .nan, .nan)
  else if xm.all (fun p => p.2 || p.1 = .inf true) then (x.map (fun _ => .zero), maskedVal, .zero)
  else
    let v := xm.map (fun p => if p.2 then maskedVal else p.1)
    let mx := rowMax v
    let e := v.map (fun y => fnExp m (fsub y mx))
    let s := rowSum e
    let r := fnRecip m s
    (e.map (fun y => fmul y r), mx, s)

/-- An RMS-normalised row (R180, R181): outputs and the reciprocal root mean square. -/
def rmsnormRow (m : FnMode) (eps : Fv) (x gain : List Fv) : List Fv × Fv :=
  let e0 := if eps.isZero then .zero else eps
  if x.any (fun y => !y.isFin) then (x.map (fun _ => .nan), .nan)
  else if x.all Fv.isZero then (x, fnRsqrt m (roundFv fp32 false e0))
  else
    let ex : Int := match rowMax (x.map Fv.abs) with
      | .fin _ s q => lead s q
      | _ => 0
    let xs := x.map (fun y => roundFv fp32 false (y.scale (-ex)))
    let ss := rowSum (xs.map (fun y => fmul y y))
    let ms := fmul ss (fnRecip m (roundFv fp32 false (.ofInt x.length)))
    let es := roundFv fp32 false (e0.scale (-(2 * ex)))
    let rs := fnRsqrt m (fadd ms es)
    ((xs.zip gain).map (fun p => fmul (fmul p.1 rs) p.2), roundFv fp32 false (rs.scale (-ex)))

end Sys2Proof.Machine
end

