-- ==== Sys2Proof/Machine/State.lean ====
section
/-! DEFINITION. The machine's state, as plain data: every register, buffer, counter, mode and table that the spec gives
the part, in the numbering of 01_the_part.md R10. A field's comment gives its width or meaning and the rule that names
it; its default is its reset value (INVENTORY.md, State, gives where that value comes from). Tables (Tbl) hold the
units that differ from their reset value. -/
namespace Sys2Proof.Machine

/-- STATE of a queue context (R35): 0 idle, 1 waiting, 2 running, 3 committing, 4 stopped, 5 disabled. -/
inductive QState where
  | idle | waiting | running | committing | stopped | disabled
  deriving DecidableEq, Repr

/-- CWY_STATUS.STATE (R408): 0 off, 1 training, 2 up, 3 draining, 4 down. -/
inductive PState where
  | off | training | up | draining | down
  deriving DecidableEq, Repr

/-- TWC_CHAIR.STATE (R470): 0 boot, 1 agreed, 2 split, 3 alone. -/
inductive Chair where
  | boot | agreed | split | alone
  deriving DecidableEq, Repr

/-- BTH_GRP_STATE.STATE (R432): 0 active, 1 re-forming, 2 excluded, 3 no quorum. -/
inductive GState where
  | active | reforming | excluded | noQuorum
  deriving DecidableEq, Repr

/-- Parking state of a berth (R364): 0 live, 1 parking, 2 parked, 3 restoring. -/
inductive ParkState where
  | live | parking | parked | restoring
  deriving DecidableEq, Repr

/-- The power entry (23_package.md R516, R517): off, qualified (VIN in range for 10 ms), alwaysOn (step 1 of Table
1.6 complete), holdup (after an under-voltage). -/
inductive Power where
  | off | qualified | alwaysOn | holdup
  deriving DecidableEq, Repr

/-- What the current kernel of a queue is doing: waiting (STATE 1, R35), running (STATE 2), draining (COMMIT has been
dispatched), committing (STATE 3), killed (ended; the queue awaits a re-run, a RESUME or a SKIP). -/
inductive RPhase where
  | waiting | running | draining | committing | killed
  deriving DecidableEq, Repr

/-- What a 32 B unit of a memory carries beside its bytes: nothing, poison (R424), or an uncorrectable mark (R335). -/
inductive UnitSt where
  | good | poison | uncorrectable
  deriving DecidableEq, Repr

/-- Key of a re-usable plan (R139): template instruction, extents, recipe set and crew. -/
structure PlanKey where
  berth : Nat := 0
  templ : Nat := 0
  word : Nat := 0
  extents : List Nat := []
  set : Nat := 0
  crew : List Nat := []
  deriving DecidableEq, Repr

/-- A route table entry (16_causeway.md R406, R407). -/
structure Route where
  primary : Nat := 0
  priValid : Bool := false
  alt : Nat := 0
  altValid : Bool := false
  deriving DecidableEq, Repr

/-- What a request sent over the Causeway is for (R403): a held effect of a commit, a read of an instruction, codec
or collective traffic, a management message. -/
inductive OutstFor where
  | effect (queue : Nat)
  | readFor (queue inst off : Nat)
  | mgmt
  deriving DecidableEq, Repr

/-- A request sent and not answered, or waiting for a TXN (R403, R404). -/
structure Outst where
  half : Nat := 0
  txn : Nat := 0
  what : OutstFor := .mgmt
  packet : Packet := {}
  sends : Nat := 0
  deriving DecidableEq, Repr

/-- An entry of the duplicate filter (R404). -/
structure FilterEnt where
  half : Nat := 0
  srcPart : Nat := 0
  srcHalf : Nat := 0
  txn : Nat := 0
  answer : Packet := {}
  deriving DecidableEq, Repr

/-- A migration request (R349, R350): the page, where it goes, and the queue whose re-run waits for it. -/
structure MigReq where
  berth : Nat := 0
  vpage : Nat := 0
  tier : Tier := .crumb
  fromFault : Bool := false
  queue : Nat := 0
  deriving DecidableEq, Repr

/-- Soundings in force (R87). -/
structure SndCfg where
  period : Nat := 0
  slot : Nat := 0
  thr : BitVec 32 := 0
  deriving DecidableEq, Repr

/-- A descriptor, or a job descriptor, as an instruction's dispatch read it (R70). -/
structure Desc where
  va : Nat := 0
  bits : Nat := 0
  deriving DecidableEq, Repr

/-- One entry of the held log (Table 2.4; an entry covers at most 4 KiB of data, R44). -/
inductive Held where
  | signal (variant sync part queue value : Nat)
  | atom (o : AtomOps)
  | reduce (op : Nat) (elems : List (Nat × BitVec 32))
  | remoteWrite (part addr : Nat) (data : List Byte)
  | place (tier : Nat) (pages : List Nat)
  | release (addr value : Nat)
  | epoch (variant set version : Nat)
  deriving DecidableEq, Repr

/-- A message that has left the part: an MSI-X write, a management record, a packet handed to the Causeway, a link
acknowledgement, a Lighthouse line or block, data answered to the host, RspIHitI to a snoop, a DOE answer, an Isthmus
message. -/
inductive Out where
  | msix (vector addr data : Nat)
  | record (half : Nat) (bytes : List Byte)
  | packet (port : Option Nat) (p : Packet)
  | link (port : Nat) (nak : Bool) (number credits : Nat)
  | flits (port : Nat) (blocks : List (BitVec 257))
  | line (text : List Byte)
  | hostData (data : List Byte) (poison : Bool)
  | hostWrite (addr : Nat) (data : List Byte)
  | snooped (addr : Nat)
  | doe (data : List Byte)
  | isthmus (half : Nat) (words : List Nat)
  | ticketTo (half : Nat) (body : TicketBody)
  deriving DecidableEq, Repr

/-- A chunk that a COLL sends (R420): target rank, chunk index, its data, the elements of SRC that it was read from (first
and count, when it comes from SRC), whether it is poisoned, sent, acknowledged. -/
structure Send where
  target : Nat := 0
  chunk : Nat := 0
  data : List Byte := []
  src : Option (Nat × Nat) := none
  poison : Bool := false
  sent : Bool := false
  acked : Bool := false
  deriving DecidableEq, Repr

/-- A chunk held for reduction or for the way down (R414): the rank it came from (the own rank at rank 0 for a result),
its index, data, and the poisoned elements of it. -/
structure Part where
  rank : Nat := 0
  chunk : Nat := 0
  data : List Byte := []
  bad : List Nat := []
  deriving DecidableEq, Repr


/-- One sync object (Table 2.3) (02_kernels_commit.md). -/
structure Sync where
  value : Nat := 0  -- 64 bits, R36
  berth : Nat := 0  -- 5 bits, R36
  allocated : Bool := false  -- R36
  irqEn : Bool := false  -- R36
  vector : Nat := 0  -- 11 bits, R36
  dropped : Bool := false  -- R36
  deriving DecidableEq, Repr

/-- One hardware queue: its context (Table 2.2), its doorbell's TAIL and what the image declares for it (02_kernels_commit.md). -/
structure QCtx where
  ringBase : Nat := 0  -- 48 bits, R35
  ringLog2 : Nat := 0  -- 5 bits, R35
  berth : Nat := 0  -- 5 bits, R35
  state : QState := .disabled  -- 3 bits, R35
  vector : Nat := 0  -- 11 bits, R35
  dropCount : Nat := 0  -- 16 bits, R35
  head : Nat := 0  -- 32 bits, R35
  tail : Nat := 0  -- 32 bits, R33
  kernelStart : Nat := 0  -- 32 bits, R35
  faultWord : Nat := 0  -- 32 bits, R35
  faultCode : Nat := 0  -- 8 bits, R35
  faultDetail : Nat := 0  -- 8 bits, R35
  rerunCount : Nat := 0  -- 8 bits, R35
  eventFlags : BitVec 32 := 0  -- R35
  epochRetired : Nat := 0  -- 32 bits, R35
  spillway : Nat := 0  -- 32 bits, R35
  sounding : Nat := 0  -- 32 bits, R35
  scaleRange : Nat := 0  -- 32 bits, R35
  halfbake : Nat := 0  -- 32 bits, R35
  killCount : Nat := 0  -- 64 bits, R35
  skipWaiting : Bool := false  -- R58
  vlClass : Nat := 0  -- 3 bits, R395
  acq : List (Nat × Nat) := []  -- 16 entries, R237
  deriving DecidableEq, Repr

/-- One tray's owner register (Table 12.3) (12_trays_harbour.md). -/
structure Tray where
  owner : Nat := 0  -- 4 bits, R316
  berth : Nat := 0  -- 5 bits, R316
  pinned : Bool := false  -- R316
  scrubbing : Bool := false  -- R316
  scrubFor : Nat := 0  -- berth for which the tray is scrubbed, R301
  parkedBy : Option Nat := none  -- berth whose pinned tray is on the Shelf, R376
  deriving DecidableEq, Repr

/-- One matrix engine (Tables 5.7, 5.8) (05_matrix_engines.md). -/
structure Mxe where
  busy : Bool := false  -- R153
  stolen : Bool := false  -- R153
  inCrew : Bool := false  -- R153
  tiles : Nat := 0  -- 64 bits, R153
  stream : Bool := false  -- its ATTN tile has row streams outstanding, R183
  streamHeirloom : Bool := false  -- of those, in Heirloom mode, R183
  streamBase2 : Bool := false  -- of those, in the base-2 set, R183
  deriving DecidableEq, Repr

/-- One core: trays, engines' status and counters (05_matrix_engines.md). -/
structure Core where
  trays : Tbl Tray := []  -- 16 trays, R292
  tfTray : Nat := 0  -- 4 bits, R316
  tfFound : Nat := 0  -- 4 bits, R316
  tfAccessor : Nat := 0  -- 4 bits, R316
  tfCount : Nat := 0  -- 32 bits, R316
  mxe : Tbl Mxe := []  -- 4 engines, R153
  steals : Nat := 0  -- 64 bits, R153
  rweBusy : Bool := false  -- R183
  rweHeirloom : Bool := false  -- R183
  rweBase2 : Bool := false  -- R183
  rweRows : Nat := 0  -- 64 bits, R183
  rweEvals : Nat := 0  -- 64 bits, R183
  attnChunks : Nat := 0  -- 64 bits, R203
  attnWait : Nat := 0  -- 64 bits, R203
  sndTiles : Nat := 0  -- 64 bits, R219
  crew : Option Nat := none  -- queue or none, R134
  victim : Option Nat := none  -- berth whose killed kernel freed the core, until a crew takes it, R374
  deriving DecidableEq, Repr

/-- One cluster: tiling controls, plan counters, Stripe engine, throttle registers (05_matrix_engines.md). -/
structure Cluster where
  stealEn : Bool := true  -- R152
  stealXEn : Bool := true  -- R152
  stealMinX : Nat := 4  -- 4 bits, R152
  planReuseEn : Bool := true  -- R152
  plans : Nat := 0  -- 32 bits, R152
  reused : Nat := 0  -- 32 bits, R152
  planCache : List PlanKey := []  -- last plan of each template instruction, R139
  strBusy : Bool := false  -- R260
  strStolen : Bool := false  -- R260
  strZc : Bool := false  -- R260
  strHs : Nat := 0  -- 5 bits, R260
  strStripe : Nat := 0  -- 32 bits, R260
  strDone : Nat := 0  -- 64 bits, R260
  strRefetch : Nat := 0  -- 64 bits, R260
  strZcBytes : Nat := 0  -- 64 bits, R260
  mCap : Nat := 0  -- 4 bits, R470
  mTherm : Nat := 0  -- 4 bits, R470
  mEff : Nat := 0  -- 4 bits, R470
  temp : Nat := 0  -- greatest of the four readings latched last, in 0.25 C, R456
  held : List Nat := []  -- cores that R341 holds gated, R341
  deriving DecidableEq, Repr

/-- A berth's Harbour share in one half (Table 12.6) (12_trays_harbour.md). -/
structure Share where
  share : Nat := 0  -- 13 bits, R317
  resident : Nat := 0  -- 13 bits, R317
  scratch : Nat := 0  -- 13 bits, R317
  waiting : Bool := false  -- R317
  deriving DecidableEq, Repr

/-- One half's Harbour (Tables 12.5 to 12.7, 15.9) (12_trays_harbour.md). -/
structure Hbr where
  moorWays : Nat := 0  -- 4 bits, R317
  gated : BitVec 8 := 0  -- 8 bits, R317
  shares : Tbl Share := []  -- 32 berths, R317
  lines : List Nat := []  -- allotted mooring lines (LINES reads its length), R308
  cache : Tbl (List Nat) := []  -- slice and set -> cached lines, most recent first, R303
  hits : Nat := 0  -- 64 bits, R317
  misses : Nat := 0  -- 64 bits, R317
  atoms : Nat := 0  -- 64 bits, R317
  hostW : Nat := 16  -- 16 bits, R387
  migW : Nat := 16  -- 16 bits, R387
  window : Nat := 1024  -- 16 bits, R387
  deriving DecidableEq, Repr

/-- One stack channel (Tables 13.8; R332) (13_stacks.md). -/
structure Chan where
  valid : Bool := false  -- R343
  pin : Nat := 0  -- 5 bits, R343
  auto : Bool := false  -- R343
  second : Bool := false  -- R343
  corrected : Nat := 0  -- 32 bits, R343
  lastPin : Nat := 0  -- 5 bits, R343
  counts : Tbl Nat := []  -- 18 counts of 8 bits, R332
  refreshRow : Nat := 0  -- next row to refresh, R325
  rereads : List (Nat × Nat) := []  -- uncorrectable units awaiting their second read, with source, R335
  deriving DecidableEq, Repr

/-- One DRAM stack's controller (Tables 13.5 to 13.8, 15.9) (13_stacks.md). -/
structure Stack where
  temp : Nat := 0  -- 10 bits, R343
  stkM : Nat := 0  -- 4 bits, R343
  doubleRefresh : Bool := false  -- R343
  crit : Bool := false  -- R343
  tHi : Nat := 90  -- 8 bits, R343
  tLo : Nat := 86  -- 8 bits, R343
  markThresh : Nat := 8  -- 8 bits, R343
  ueAddr : Nat := 0  -- 42 bits, R343
  ueChan : Nat := 0  -- 6 bits, R343
  ueSource : Nat := 0  -- 2 bits, R343
  ueCount : Nat := 0  -- 32 bits, R343
  ueRows : List (Nat × Nat) := []  -- bank rows with an uncorrectable unit in 24 h, and its time, R340
  wideW : Nat := 48  -- 16 bits, R387
  narrowW : Nat := 16  -- 16 bits, R387
  window : Nat := 128  -- 16 bits, R387
  chans : Tbl Chan := []  -- 64 channels, R318
  deriving DecidableEq, Repr

/-- One erase block of the Shelf (14_shelf_tiers.md). -/
structure Block where
  erases : Nat := 0  -- count, R356
  used : Nat := 0  -- units programmed since the last erase, 0..512, R354
  valid : List Nat := []  -- logical units whose current copy the block holds, R355
  reads : Nat := 0  -- reads since the last program, R357
  since : Nat := 0  -- powered microseconds of the Shelf at the last program, R357
  bad : Bool := false  -- on the bad-block list, R357
  deriving DecidableEq, Repr

/-- The Shelf controller and map (Tables 14.4 to 14.6, 15.9) (14_shelf_tiers.md). -/
structure Shelf where
  inService : BitVec 8 := 0  -- 8 bits, R363
  mapReady : Bool := false  -- R363
  lowSpare : Bool := false  -- R363
  wearWarn : Bool := false  -- R363
  written : Nat := 0  -- 64 bits, R363
  refreshed : Nat := 0  -- 64 bits, R363
  lost : Nat := 0  -- 32 bits, R363
  readW : Nat := 3  -- 16 bits, R387
  migW : Nat := 1  -- 16 bits, R387
  window : Nat := 4096  -- 16 bits, R387
  map : Tbl (Option (Nat × Nat)) := []  -- 2^28 entries: logical unit -> flash stack, unit index (none: not valid), R355
  saved : Tbl (Option (Nat × Nat)) := []  -- the map as journal and checkpoints on flash give it, R355
  us : Nat := 0  -- microseconds for which the Shelf has been powered, R357
  blocks : Tbl Block := []  -- 8 x 81,920 erase blocks, R354
  lostUnits : List Nat := []  -- logical units marked lost, R357
  deriving DecidableEq, Repr

/-- One Causeway port (Tables 16.7, 16.8) and its link layer (16_causeway.md). -/
structure Port where
  enable : Bool := false  -- R408
  state : PState := .off  -- 3 bits, R408
  locked : BitVec 8 := 0  -- 8 bits, R408
  peerPart : Nat := 0  -- 16 bits, R408
  peerPort : Nat := 0  -- 6 bits, R408
  w1 : Nat := 16  -- 16 bits, R408
  w2 : Nat := 16  -- 16 bits, R408
  w3 : Nat := 16  -- 16 bits, R408
  w4 : Nat := 16  -- 16 bits, R408
  w5 : Nat := 16  -- 16 bits, R408
  w6 : Nat := 32  -- 16 bits, R408
  w7 : Nat := 8  -- 16 bits, R408
  window : Nat := 1024  -- 16 bits, R408
  fecCorr : Nat := 0  -- 32 bits, R408
  fecUncorr : Nat := 0  -- 32 bits, R408
  retries : Nat := 0  -- 32 bits, R408
  linkDowns : Nat := 0  -- 16 bits, R408
  rxBad : Nat := 0  -- 16 bits, R408
  txFlits : Nat := 0  -- 64 bits, R408
  txNext : Nat := 0  -- 12 bits, R392
  unacked : List (Nat × BitVec 257) := []  -- retry buffer: numbered flits sent and not acknowledged, 0..2,048, each with its block, R393
  rxNext : Nat := 0  -- 12 bits, R392
  sinceAck : Nat := 0  -- flits accepted since the last LINK_ACK, 0..64, R392
  rxHold : Bool := false  -- discarding until the retry, R393
  nakNum : Nat := 0  -- 12 bits, R394
  nakRun : Nat := 0  -- LINK_NAKs in a row naming nakNum, R394
  credit : Tbl Nat := []  -- flit credits taken per VL, R396
  freed : Tbl Nat := []  -- 16-flit units freed per VL, not yet returned, R396
  txq : List Packet := []  -- queued packets, oldest first, R398
  deriving DecidableEq, Repr

/-- Part-wide Causeway registers (Table 16.9) and end-to-end state (16_causeway.md). -/
structure Cwy where
  partId : Nat := 0  -- 16 bits, R408
  resendUs : Nat := 200  -- 16 bits, R408
  resends : Nat := 3  -- 4 bits, R408
  deliveryTimeout : Nat := 1000  -- 28 bits, R408
  rtDst : Nat := 0  -- 16 bits, R408
  rtVl : Nat := 0  -- 3 bits, R408
  routes : Tbl Route := []  -- 2 halves x 8 VLs x 65,536 entries, R406
  drops : Nat := 0  -- 32 bits, R408
  lastNack : Nat := 0  -- 4 bits, R408
  resent : Nat := 0  -- 28 bits, R408
  holDrops : Nat := 0  -- 32 bits, R408
  filterFull : Nat := 0  -- 32 bits, R408
  txn : Tbl Nat := []  -- 24 bits per half: next transaction number, R404
  txnBusy : List (Nat × Nat) := []  -- half and TXN given less than 40 ms ago, R404
  outst : List Outst := []  -- requests sent and not answered, R403
  waiting : List Outst := []  -- requests that wait for a free TXN, R404
  filter : List FilterEnt := []  -- duplicate filter, 65,536 entries per half, R404
  deriving DecidableEq, Repr

/-- One codec engine (Tables 11.10, 11.11) (11_codec.md). -/
structure CodecEng where
  busy : Bool := false  -- R291
  variant : Nat := 0  -- 2 bits, R291
  queue : Nat := 0  -- 19 bits, R291
  inst : Nat := 0  -- instruction of the running job within its kernel, R264
  cons : Nat := 0  -- value read at CONS_ADDR when the job started, R270
  mEff : Nat := 0  -- 4 bits, R459
  pictures : Nat := 0  -- 64 bits, R291
  blocks : Nat := 0  -- 64 bits, R291
  clipped : Nat := 0  -- 64 bits, R291
  deriving DecidableEq, Repr

/-- One Longshore engine (Table 17.8) (17_longshore.md). -/
structure LshEng where
  busy : Bool := false  -- R433
  variant : Nat := 0  -- 3 bits, R433
  queue : Nat := 0  -- 19 bits, R433
  group : Nat := 0  -- 16 bits, R433
  bytes : Nat := 0  -- 64 bits, R433
  deriving DecidableEq, Repr

/-- One half's Tidewatch registers and clocks (19_tidewatch.md). -/
structure TwcHalf where
  loops : Nat := 0  -- 32 bits, R470
  overruns : Nat := 0  -- 16 bits, R470
  mH : Nat := 0  -- 0..12, R458
  fCap : Nat := 0  -- 4 bits, R470
  sCap : Nat := 0  -- 4 bits, R470
  kCap : Nat := 0  -- 4 bits, R470
  fEff : Nat := 0  -- 4 bits, R459
  sEff : Nat := 0  -- 4 bits, R459
  lostMs : Nat := 50  -- 16 bits, R433
  heartbeatMs : Nat := 10  -- 16 bits, R433
  reformMs : Nat := 20  -- 16 bits, R433
  chair : Chair := .boot  -- 2 bits, R470
  cause : Nat := 0  -- 3 bits, R470
  claim : Bool := false  -- R470
  peerHb : Bool := false  -- R470
  splits : Nat := 0  -- 32 bits, R470
  recSeq : Nat := 0  -- 32 bits, R463
  us : Nat := 0  -- microseconds of the crystal since step 2 of Table 1.6, R457
  sinceTelem : Nat := 0  -- loop runs since the last telemetry, R456
  bootStage : Nat := 0  -- stages of Table 20.2 completed, 0..7, R473
  keyClosed : Bool := false  -- key engine closed, R475
  secretLocked : Bool := false  -- device secret locked, R475
  devKeys : Bool := false  -- device keys derived, R476
  aliasKeys : Option (BitVec 384) := none  -- CDI of the derived alias keys, R476
  romReject : Bool := false  -- both image copies rejected: the half stays in ROM, R472
  peerM0 : Option (BitVec 384) := none  -- M0 received from the other half, R474
  raise : List (Nat × Nat) := []  -- SECVER_MIN raises waiting for AGREED, R474
  migQ : List MigReq := []  -- migration requests, in the order served, R351
  migRun : Option MigReq := none  -- migration in progress, R351
  migHeld : Bool := false  -- queued migrations wait (SPLIT), R468
  deriving DecidableEq, Repr

/-- Part-wide Tidewatch registers (Tables 19.10, 19.12, 19.13) (19_tidewatch.md). -/
structure Twc where
  pwrLimit : Nat := 4600  -- 16 bits, R470
  pwrHyst : Nat := 100  -- 16 bits, R470
  telemMs : Nat := 0  -- 16 bits, R470
  power : Nat := 0  -- 16 bits, R470
  mP : Nat := 0  -- 4 bits, R470
  ocTrips : Nat := 0  -- 32 bits, R470
  errDomain : Nat := 0  -- 9 bits, R470
  errWhy : Nat := 0  -- 3 bits, R470
  errRefused : Nat := 0  -- 32 bits, R470
  gated : BitVec 384 := 0  -- 378 domains, R470
  ungating : List Nat := []  -- ungating commands in progress, R460
  domQ : List (Nat × Bool) := []  -- domain commands waiting for the one in progress, R460
  domBusy : Option Nat := none  -- domain whose gating waits for tray parking, R460
  ringBase : Nat := 0  -- 48 bits, R470
  ringEn : Bool := false  -- R470
  ringLog2 : Nat := 6  -- 5 bits, R470
  ringDropped : Nat := 0  -- 32 bits, R470
  prod : Nat := 0  -- 32 bits, R470
  cons : Nat := 0  -- 32 bits, R470
  reportPart : Nat := 0  -- 16 bits, R470
  reportValid : Bool := false  -- R470
  cmdArg : Nat := 0  -- 64 bits, R470
  cmdBusy : Bool := false  -- R470
  cmdAwait : Bool := false  -- R464
  resetWait : Nat := 0  -- 8 bits, R46, R465
  lastOp : Nat := 0  -- 8 bits, R470
  result : Nat := 0  -- 8 bits, R470
  cmdDone : Nat := 0  -- 32 bits, R470
  cmdBerth : Nat := 0  -- 5 bits, R470
  pendImage : Option Image := none  -- image under proof check, R61
  pendPages : Option (List Nat) := none  -- pages of an admission whose trays are being scrubbed, R300
  pendScrub : List (Nat × Nat) := []  -- trays still being scrubbed for it, R300
  fencing : Option (Nat × Bool) := none  -- half that a fence ticket is taking out of service; true once its ports drain, R469
  deriving DecidableEq, Repr

/-- A ticket body held pending, with the signatures that have arrived (20_security.md). -/
structure Ticket where
  body : TicketBody := {}  -- body, R479
  digest : BitVec 384 := 0  -- SHA-384 of the body, R479
  half : Nat := 0  -- half that holds it, R481
  oper : Bool := false  -- Operator half-ticket verified, R481
  cust : Bool := false  -- Custodian half-ticket verified, R481
  custPart : Nat := 0  -- Custodian's SRC_PART, R481
  sent : Bool := false  -- sent to the other half, R481
  peerSays : Option Nat := none  -- other half's verdict, a code of Table 20.7, R481
  operHt : Option HalfTicket := none  -- the Operator's half-ticket, R481
  custHt : Option HalfTicket := none  -- the Custodian's half-ticket, R481
  deriving DecidableEq, Repr

/-- Security block (Table 20.11), keys, fuses and pending tickets (20_security.md). -/
structure Sec where
  provisioned : Bool := false  -- R489
  measMatch : Bool := false  -- R489
  copyH0 : Bool := false  -- R489
  copyH1 : Bool := false  -- R489
  secverMin : Tbl Nat := []  -- 32 bits per image type (fused), R474
  lastResult : Nat := 0  -- 8 bits, R489
  lastAction : Nat := 0  -- 8 bits, R489
  refused : Nat := 0  -- 32 bits, R489
  seq : Nat := 0  -- 64 bits, R489
  level : Nat := 0  -- 2 bits, R489
  debugBerths : BitVec 32 := 0  -- R489
  meas : Tbl (BitVec 384) := []  -- 8 measurement registers of 48 B, R473
  arrived : List (HalfTicket × Nat × Nat) := []  -- half-tickets that await verification, with half and SRC_PART, R481
  pend : List Ticket := []  -- pending bodies, at most 4, R481
  paired : List (Nat × BitVec 384) := []  -- half and digest of bodies with both half-tickets, in the order of the second, R482
  operKeys : Option KeyPair := none  -- Operator's public keys, R485
  custKeys : Option KeyPair := none  -- Custodian's public keys, R485
  lastHash : Option (BitVec 384) := none  -- transcript hash the last message signed, for SIGN_TRANSCRIPT, R478
  spdmSeen : List SpdmReq := []  -- requests answered since GET_VERSION, oldest first, R477
  deriving DecidableEq, Repr

/-- An inbound block transfer of MWR (22_keeper.md). -/
structure Inbound where
  berth : Nat := 0  -- 5 bits, R507
  va : Nat := 0  -- 48 bits, R507
  len : Nat := 0  -- 1..65,536, R507
  block : Nat := 0  -- block number, R507
  naks : Nat := 0  -- NAKs of this block, R507
  deriving DecidableEq, Repr

/-- Keeper (Table 22.5) and the Lighthouse line (22_keeper.md). -/
structure Dbg where
  baudSel : Nat := 0  -- 3 bits, R509
  baudTrial : Bool := false  -- a new rate awaits its first command line, R505
  framing : Nat := 0  -- 24 bits, R509
  overruns : Nat := 0  -- 24 bits, R509
  halted : BitVec 32 := 0  -- R509
  commands : Nat := 0  -- 32 bits, R509
  errors : Nat := 0  -- 32 bits, R509
  rx : List (BitVec 8) := []  -- receive buffer, at most 1,024 B, R498
  badLine : Bool := false  -- the line contains a discarded character, R498
  longLine : Bool := false  -- the line is longer than 255 characters, R499
  lineLen : Nat := 0  -- characters of the line so far, R499
  lines : List (Nat × List (BitVec 8)) := []  -- complete lines waiting for Keeper: 0 whole, 1 with a discarded character, 2 too long, R500
  reports : List String := []  -- waiting reports, at most 64, R501
  lostReports : Nat := 0  -- reports dropped since the queue was full, R501
  inbound : Option Inbound := none  -- inbound transfer in progress, R507
  deriving DecidableEq, Repr

/-- One berth's entry of the berth layout (Tables 15.1, 20.6) (15_berths_scheduling.md). -/
structure Layout where
  configured : Bool := false  -- R365
  cores : BitVec 256 := 0  -- R387
  shareMin : Nat := 0  -- 16 bits, R387
  shareMax : Nat := 0  -- 16 bits, R387
  ration : Nat := 0  -- 16 bits, R387
  harbour0 : Nat := 0  -- 13 bits, R317
  harbour1 : Nat := 0  -- 13 bits, R317
  quotas : List Nat := []  -- 7 x 32 bits, R470
  parkRes : Nat := 0  -- 32 bits, R363
  qbase : Nat := 0  -- 19 bits, R443
  qcount : Nat := 0  -- 20 bits, R443
  sbase : Nat := 0  -- 14 bits, R443
  scount : Nat := 0  -- 15 bits, R443
  vbase : Nat := 0  -- 11 bits, R443
  vcount : Nat := 0  -- 12 bits, R443
  templates : Nat := 0  -- template limit, R480
  reqSlots : Nat := 0  -- request slots, R480
  deriving DecidableEq, Repr

/-- One sounding slot (Table 8.2) (08_soundings.md). -/
structure Slot where
  baseline : BitVec 32 := 0  -- R218
  baseValid : Bool := false  -- R218
  drift : Bool := false  -- R218
  lastDrift : BitVec 32 := 0  -- R218
  maxDrift : BitVec 32 := 0  -- R218
  sounded : Nat := 0  -- 32 bits, R218
  drifted : Nat := 0  -- 32 bits, R218
  seq : Nat := 0  -- 32 bits, R218
  clearPend : Bool := false  -- a CLEAR waits for the owning kernel's commit, R218
  deriving DecidableEq, Repr

/-- One live version of a weight set (09_backward.md). -/
structure Version where
  version : Nat := 0  -- 32 bits, R234
  refs : Nat := 0  -- 16 bits, R234
  transient : Nat := 0  -- count, R234
  deriving DecidableEq, Repr

/-- One weight set of a berth (09_backward.md). -/
structure WSet where
  current : Option Nat := none  -- 32 bits when it has one, R234
  live : List Version := []  -- at most 8 live versions, R234
  deriving DecidableEq, Repr

/-- One serving request slot (Table 15.10) (15_berths_scheduling.md). -/
structure Req where
  primary : Nat := 0  -- 19 bits, R387
  alt : Nat := 0  -- 19 bits, R387
  altValid : Bool := false  -- R387
  passes : Nat := 0  -- 16 bits, R387
  deadline : Nat := 0  -- 32 bits, R387
  estFull : Nat := 0  -- 32 bits, R387
  estCheap : Nat := 0  -- 32 bits, R387
  isOpen : Bool := false  -- R387
  switched : Bool := false  -- R387
  stillLate : Bool := false  -- R387
  late : Bool := false  -- R387
  abandoned : Bool := false  -- R387
  started : Nat := 0  -- 16 bits, R387
  switchPass : Nat := 0  -- 16 bits, R387
  predict : Nat := 0  -- 32 bits, R387
  finish : Nat := 0  -- 32 bits, R387
  openedAt : Nat := 0  -- us clock at the open write, R377
  t0 : Nat := 0  -- start of pass 0, us from the open write, R378
  ts : Nat := 0  -- start of the latest pass, us from the open write, R378
  priDone : Bool := false  -- primary queue has gone idle after the switch, R381
  altSkipped : Nat := 0  -- alternate passes skipped, R381
  deriving DecidableEq, Repr

/-- One Longshore group record (Tables 17.6, 17.7) and its exchange state (17_longshore.md). -/
structure Group where
  group : Nat := 0  -- 16 bits, R432
  state : GState := .active  -- 2 bits, R432
  tainted : Bool := false  -- R432
  reformed : Bool := false  -- R432
  rank : Nat := 0  -- 16 bits, R432
  members : List Nat := []  -- member list in rank order (SIZE_M1 reads G - 1), R409
  quorum : Nat := 0  -- 17 bits, R409
  epoch : Nat := 0  -- 32 bits, R432
  seq : Nat := 0  -- 32 bits, R432
  reforms : Nat := 0  -- 16 bits, R432
  poisoned : Nat := 0  -- 16 bits, R432
  mismatches : Nat := 0  -- 16 bits, R432
  aborts : Nat := 0  -- 16 bits, R432
  links : List (Nat × List Nat) := []  -- ports cabled to each neighbour part, R409
  answers : List Nat := []  -- old ranks that answered the coordinator's poll, R429
  lostRanks : List Nat := []  -- ranks declared lost, R429
  landedSeen : List Nat := []  -- sequence numbers known to have landed, newest first, R429
  coordinator : Bool := false  -- this member polls as coordinator, R429
  held : List Packet := []  -- packets of a higher epoch, greetings and counts of a COLL not yet dispatched, R417
  lastHeard : Tbl Nat := []  -- us of the last heartbeat per neighbour rank, R428
  deriving DecidableEq, Repr

/-- A berth's epoch registers (Tables 9.1 to 9.3) (09_backward.md). -/
structure Epochs where
  notLive : Bool := false  -- R239
  notHeld : Bool := false  -- R239
  pubFull : Bool := false  -- R239
  refsFull : Bool := false  -- R239
  lastSet : Nat := 0  -- 12 bits, R239
  retired : Nat := 0  -- 32 bits, R239
  sel : Nat := 0  -- 12 bits, R239
  log : Tbl (Nat × Nat) := []  -- 64 retirement log entries: set, version, R239
  sets : Tbl WSet := []  -- 4,096 weight sets, R234
  deriving DecidableEq, Repr

/-- Where one 2 MiB virtual page is (14_shelf_tiers.md). -/
structure Page where
  tier : Tier := .harbour  -- Crust, Crumb, Shelf or park area; harbour: mapped nowhere, R344
  phys : Nat := 0  -- physical page number (address >> 21), R344
  migrating : Bool := false  -- a migration of the page is running, R350
  shelfCopy : Bool := false  -- the page's Shelf park copy is current, R361
  copyAt : Nat := 0  -- physical page number of that copy, R361
  home : Tier := .crumb  -- tier from which the page was parked, to which it returns, R361
  deriving DecidableEq, Repr

/-- The registers of the CXL component block that hold no decoder, in the layout of CXL 2.0 (R441) (18_host_port.md). -/
structure CxlRegs where
  uncMask : Nat := 0x1CFFF  -- 17 bits, R26
  uncSev : Nat := 0x1CFFF  -- 17 bits, R26
  corMask : Nat := 0x7F  -- 7 bits, R26
  poisonEn : Bool := true  -- R26
  linkCtl : Nat := 0  -- 3 bits, R26
  rxCredit : Nat := 0  -- 50 bits, R26
  ackTimer : Nat := 0  -- 18 bits, R26
  mdhOff : Bool := false  -- R26
  hdmGlobal : Nat := 0  -- 2 bits, R26
  deriving DecidableEq, Repr

/-- One HDM decoder of the CXL component registers and its GLB_HDM_BIND (18_host_port.md). -/
structure Hdm where
  base : Nat := 0  -- host base, R446
  size : Nat := 0  -- bytes, R446
  ways : Nat := 0  -- 4 bits, R446
  grain : Nat := 0  -- 4 bits, R446
  lock : Bool := false  -- R446
  skip : Nat := 0  -- 64 bits, R446
  committed : Bool := false  -- R446
  error : Bool := false  -- commit error, R446
  bindBerth : Nat := 0  -- 5 bits, R454
  bindValid : Bool := false  -- R454
  bindVbase : Nat := 0  -- 48 bits, R454
  deriving DecidableEq, Repr

/-- One MSI-X table entry and its pending bit (18_host_port.md). -/
structure Msix where
  addr : Nat := 0  -- 64 bits, R26
  data : Nat := 0  -- 32 bits, R26
  masked : Bool := true  -- R452
  pending : Bool := false  -- R452
  deriving DecidableEq, Repr

/-- A CXL.mem access that waits for the switch of a migrating page (18_host_port.md). -/
structure HostAcc where
  write : Bool := false  -- R351
  addr : Nat := 0  -- host address, R351
  n : Nat := 0  -- bytes of a read, R351
  data : List (Option Byte) := []  -- bytes of a write, none where it is masked, R351
  poison : Bool := false  -- R351
  deriving DecidableEq, Repr

/-- GLB registers (01_the_part.md). -/
structure Glb where
  h0Up : Bool := false  -- R29
  h1Up : Bool := false  -- R29
  h0Fenced : Bool := false  -- R29
  h1Fenced : Bool := false  -- R29
  chair : Nat := 0  -- R29
  split : Bool := false  -- R29
  rootLock : Bool := false  -- R29
  sOnRoot : Bool := false  -- R29
  clkFault : Bool := false  -- R29
  relockCount : Nat := 0  -- 3 bits, R29
  base2 : BitVec 32 := 0  -- R183
  preemptGap : Nat := 3000000  -- 32 bits, R387
  preemptEn : Bool := true  -- R387
  linkWidth : Nat := 0  -- 5 bits, R454
  linkRate : Nat := 0  -- 3 bits, R454
  cxlCache : Bool := false  -- R454
  cxlMem : Bool := false  -- R454
  degraded : Bool := false  -- R454
  lanesHalf1 : Bool := false  -- R454
  trainings : Nat := 0  -- 32 bits, R454
  errReason : Nat := 0  -- 4 bits, R454
  errDecoder : Nat := 0  -- 2 bits, R454
  errRefused : Nat := 0  -- 32 bits, R454
  hdm : Tbl Hdm := []  -- 4 decoders, R446
  cxl : CxlRegs := {}  -- CXL component registers, R26
  msix : Tbl Msix := []  -- 2,048 vectors, R451
  msixEnable : Bool := false  -- R452
  msixFmask : Bool := false  -- R452
  vin : Nat := 0  -- 10 bits, R524
  iin : Nat := 0  -- 11 bits, R524
  trip : Bool := false  -- R524
  tripSensor : Nat := 0  -- 6 bits, R524
  uvEvents : Nat := 0  -- 32 bits, R524
  trips : Nat := 0  -- 32 bits, R524
  crustSplit : Nat := 128  -- 8 bits, R343
  crumbSplit : Nat := 640  -- 10 bits, R343
  ismMgmtW : Nat := 64  -- 16 bits, R387
  ismWindow : Nat := 4096  -- 16 bits, R387
  hostWait : List HostAcc := []  -- host accesses that wait for a migrating page, R351
  deriving DecidableEq, Repr

/-- Power and clock start-up (Table 1.6; R516, R517) (01_the_part.md). -/
structure Clk where
  power : Power := .off  -- stage of the power entry and the start-up, R23
  fOn : Bool := false  -- F clock runs, R23
  aOn : Bool := false  -- A clocks run, R23
  kOn : Bool := false  -- K clocks run, R23
  serdes : Bool := false  -- SerDes PLLs locked, R23
  relockFailed : Bool := false  -- all three relock attempts failed, R24
  deriving DecidableEq, Repr

/-- The Tidewatch record on the Shelf, as far as it is not held in another structure (19_tidewatch.md). -/
structure TRec where
  layouts : Tbl Layout := []  -- berth layout of every configured berth, R466
  moor0 : Nat := 0  -- 4 bits, R466
  moor1 : Nat := 0  -- 4 bits, R466
  crustSplit : Nat := 128  -- 8 bits, R466
  crumbSplit : Nat := 640  -- 10 bits, R466
  fence0 : Bool := false  -- fence state of half 0, R466
  fence1 : Bool := false  -- fence state of half 1, R466
  pinMarks : Tbl (Nat × Bool) := []  -- pin mark per channel of every stack: pin, set by the controller, R334
  retired : List Nat := []  -- retired physical pages, R348
  parks : List Nat := []  -- index of park records, R466
  seq : Nat := 0  -- 64 bits, R466
  refused : Nat := 0  -- 32 bits, R489
  uvEvents : Nat := 0  -- 32 bits, R524
  trips : Nat := 0  -- 32 bits, R524
  operKeys : Option KeyPair := none  -- Operator's keys, R485
  custKeys : Option KeyPair := none  -- Custodian's keys, R485
  interrupted : List (Nat × Nat × Nat × Nat) := []  -- interrupted commits: queue, KERNEL_START, phase, cause, R24
  deriving DecidableEq, Repr

/-- One rations arbiter (15_berths_scheduling.md). -/
structure Arb where
  wstart : Nat := 0  -- edge at which the window started, R383
  credit : Tbl Int := []  -- credit counter per requester, where it differs from 0, R383
  chosen : Option Nat := none  -- requester chosen at the last edge, R383
  started : Bool := false  -- the first window has begun, R384
  deriving DecidableEq, Repr

/-- One tile, batch, stripe or attention tile of a planned instruction (05_matrix_engines.md). -/
structure Work where
  item : Nat := 0  -- index in dealing order, R144
  eng : Nat := 0  -- engine that holds it, R144
  started : Bool := false  -- running, R145
  stolen : Bool := false  -- stolen, R145
  fills : Nat := 0  -- chunk fills done for it, R222
  shares : Nat := 0  -- attention chunks whose RWE share is done, R198
  deriving DecidableEq, Repr

/-- One sounding of a run that has not yet compared (08_soundings.md). -/
structure SndWork where
  inst : Nat := 0  -- instruction, R212
  tile : Nat := 0  -- tile, R212
  acc : List (BitVec 32) := []  -- narrow accumulators of the tile, when it has completed, R214
  ready : Bool := false  -- the tile has completed, R214
  deriving DecidableEq, Repr

/-- A sounding's drift in the held log (08_soundings.md). -/
structure SndRes where
  inst : Nat := 0  -- instruction, R215
  tile : Nat := 0  -- tile, R215
  slot : Nat := 0  -- slot, R215
  d : BitVec 32 := 0  -- FP32 drift, R215
  thr : BitVec 32 := 0  -- THRESHOLD, R215
  deriving DecidableEq, Repr

/-- Progress of one COLL at this member (17_longshore.md). -/
structure CollSt where
  group : Nat := 0  -- 16 bits, R411
  seq : Nat := 0  -- 32 bits, R411
  greeted : Bool := false  -- greeting sent, R416
  kids : List (Nat × Greeting × Nat) := []  -- greetings of tree children: rank, greeting, difference forwarded, R416
  counts : List (Nat × Nat) := []  -- variant 3 counts received per rank, R416
  myCounts : List Nat := []  -- variant 3 counts that this member sends, R412
  mismatch : Nat := 0  -- first difference found, detail of Table 17.2, R416
  go : Bool := false  -- GO held, R416
  began : Bool := false  -- its data has begun to move, R419
  sends : List Send := []  -- chunks to send, sent and acknowledged, R420
  recvd : List (Nat × Nat) := []  -- chunks received: rank, index, R420
  chunkNaks : List (Nat × Nat × Nat) := []  -- NAKs sent per chunk: rank, index, count, R426
  parts : List Part := []  -- subtree values held for reduction, R414
  poison : Bool := false  -- a poisoned unit was stored, R427
  doneKids : List (Nat × Bool) := []  -- DONEs of children with poison flag, R421
  doneSent : Bool := false  -- DONE sent, R421
  landed : Bool := false  -- LAND held, R421
  deriving DecidableEq, Repr

/-- One dispatched instruction of a run (03_instructions.md). -/
structure Inst where
  word : Nat := 0  -- ring index, R75
  op : Op := .nop  -- decoded word, R66
  descs : List Desc := []  -- descriptors read at dispatch, in slot order, R70
  set : Nat := 8  -- recipe set captured, R84
  snd : Option SndCfg := none  -- soundings captured, R87
  planned : Bool := false  -- plan written and work dealt, R136
  zero : Bool := false  -- output extent 0, R59
  done : Bool := false  -- completed, R82
  shape : Nat × Nat := (0, 0)  -- tile shape, or stripe height, R137
  work : List Work := []  -- work not yet completed, R144
  doneItems : List Nat := []  -- items completed, R151
  engLast : List (Nat × Nat) := []  -- stripe that each engine completed last, R254
  scale : Bool := false  -- a SCALE_RANGE alteration occurred, R119
  readsLeft : List (Nat × Nat) := []  -- remote or Shelf reads still unanswered: offset, bytes, R405
  got : List (Nat × List (BitVec 8) × Bool) := []  -- data that remote or Shelf reads delivered, with poison, R405
  coll : Option CollSt := none  -- state of a COLL, R416
  engine : Option Nat := none  -- codec or Longshore engine taken, R264
  deriving DecidableEq, Repr

/-- One entry of a run's held log (02_kernels_commit.md). -/
structure HeldRec where
  inst : Nat := 0  -- issuing instruction, R45
  ord : Nat := 0  -- order within the instruction, R312
  eff : Held := .release 0 0  -- the effect, R42
  deriving DecidableEq, Repr

/-- The current kernel of one queue (02_kernels_commit.md). -/
structure Run where
  words : List Op := []  -- fetched words, KBEGIN to COMMIT, R40
  start : Nat := 0  -- index of the KBEGIN, R35
  templ : Nat := 0  -- template index, R40
  ip : Nat := 0  -- words dispatched or satisfied so far, R75
  fetched : Bool := false  -- the words of this run have been fetched, R32
  opened : Bool := false  -- KBEGIN has been taken, R78
  irq : Bool := false  -- F0 of KBEGIN, R78
  pass : Bool := false  -- F1 of KBEGIN, R78
  request : Nat := 0  -- 12 bits, R78
  phase : RPhase := .waiting  -- waiting, running, draining, committing, killed, R35
  recSample : BitVec 64 := 0  -- recipe select sampled, R85
  base2 : Bool := false  -- function set sampled, R161
  set : Nat := 8  -- recipe set in force, R84
  keptGroups : BitVec 64 := 0  -- groups whose NARROW_SET was kept, R220
  snd : Option SndCfg := none  -- soundings in force, R87
  tileCtrl : List (Nat × Nat) := []  -- CLU_TILE_CTRL of each cluster as sampled, R152
  sndSeq : Tbl Nat := []  -- SEQ of each slot when the run left STATE 1, R212
  sndCount : Tbl Nat := []  -- sounded PROBs so far per slot, R212
  crew : List Nat := []  -- crew cores, R134
  trayMap : List (Nat × Nat × Nat) := []  -- trays handed to the run: core, tray, owner, R299
  wide : Bool := false  -- the run takes its wide footprint, R85
  trayCount : Nat := 0  -- trays handed per crew core, R526
  zeroShape : Bool := false  -- zero-shape kernel, R59
  insts : List Inst := []  -- dispatched instructions, oldest first, R75
  held : List HeldRec := []  -- held log, R42
  entries : Nat := 0  -- held-log entries taken, R44
  flags : BitVec 32 := 0  -- event flags raised by the run, R42
  spill : Nat := 0  -- elements clamped, R207
  sounds : List SndWork := []  -- soundings still to compare, R213
  sndRes : List SndRes := []  -- drifts held, R215
  drops : Nat := 0  -- effects this commit has dropped, R47
  samples : List (Nat × Nat × Bool) := []  -- epoch samples: set, version, live, R236
  sampled : Bool := false  -- epoch samples taken, R236
  passStarted : Bool := false  -- its pass start has counted, R378
  cycles0 : Nat := 0  -- class 0 cycles of the run, R369
  commitPhase : Nat := 0  -- commit phase, 0..8, R45
  halted : Bool := false  -- commit halted by loss of root lock, R24
  resumed : Bool := false  -- commit resumed after a halt: admission waits for it, R24
  retiled : Bool := false  -- re-tiled, R143
  retileDims : List (Nat × List Nat) := []  -- extents that the re-tiled plan is sized for, R143
  waitMig : Bool := false  -- re-run waits for migrations, R350
  waitGroup : Option Nat := none  -- re-run waits for this group to re-form, R429
  scratch0 : Nat := 0  -- Harbour scratch units charged in half 0, R309
  scratch1 : Nat := 0  -- Harbour scratch units charged in half 1, R309
  traysOut : List (Nat × Nat) := []  -- trays of a killed run not yet returned: core, tray, R52
  readyAt : Nat := 0  -- order in which kernels became ready, R371
  landed : Bool := false  -- collective kernel landed, R64
  deriving DecidableEq, Repr

/-- A berth's park record on the Shelf (14_shelf_tiers.md). -/
structure ParkRec where
  queues : List (Nat × QCtx) := []  -- queue contexts, R359
  runs : List (Nat × Run) := []  -- the queues' current kernels, which queue contexts name, R359
  syncs : List (Nat × Sync) := []  -- sync objects, R359
  slots : Tbl Slot := []  -- sounding slots, R359
  wideKept : BitVec 64 := 0  -- R220
  wideKeptCount : Nat := 0  -- 32 bits, R220
  epochs : Epochs := {}  -- epoch state, R359
  grps : Tbl Group := []  -- group records, R410
  trays : List (Nat × Nat) := []  -- pinned trays: core, tray, R359
  pages : List (Nat × Nat × Tier) := []  -- page list: virtual page, Shelf page of its copy, tier it returns to, R359
  lines : List (Nat × Nat) := []  -- allotted mooring lines: half, line key, R359
  deriving DecidableEq, Repr

/-- One berth: scheduling, window registers, admitted image, page map (15_berths_scheduling.md). -/
structure Berth where
  layout : Layout := {}  -- entry of the berth layout, R365
  share : Nat := 0  -- 16 bits, R387
  virt : Nat := 0  -- 64 bits, R369
  cycles : Tbl Nat := []  -- 7 counters of 64 bits, R368
  cyclesSent : Tbl Nat := []  -- counters at the last telemetry record, R528
  preempted : Nat := 0  -- 32 bits, R387
  active : Bool := false  -- has a kernel ready or running, R370
  image : Option Image := none  -- admitted image, R61
  qctxSel : Nat := 0  -- 20 bits, R445
  slots : Tbl Slot := []  -- 256 sounding slots, R218
  wideKept : BitVec 64 := 0  -- R220
  wideKeptCount : Nat := 0  -- 32 bits, R220
  epochs : Epochs := {}  -- epoch registers, R239
  parkState : ParkState := .live  -- 2 bits, R364
  parkMs : Nat := 0  -- 32 bits, R364
  parkBytes : Nat := 0  -- 64 bits, R364
  parkStart : Nat := 0  -- us clock when the park or restore began, R359
  migReq : Nat := 0  -- 32 bits, R364
  migDone : Nat := 0  -- 32 bits, R364
  migDrop : Nat := 0  -- 32 bits, R364
  recipeSel : BitVec 64 := 0  -- R386
  reqSel : Nat := 0  -- 12 bits, R387
  reqs : Tbl Req := []  -- 4,096 request slots, R377
  grpSel : Nat := 0  -- 6 bits, R432
  grps : Tbl Group := []  -- 64 group records, R410
  pages : Tbl Page := []  -- 2^27 virtual pages, R344
  parkRec : Option ParkRec := none  -- park record, R359
  retQ : List Nat := []  -- pages still in the park area, in the order they return, R361
  retDest : List (Nat × Nat) := []  -- physical page to which each of them returns, R361
  accWritten : List (Nat × Nat) := []  -- words whose written bit is set: queue that wrote, tray * 2^32 + word, R228
  fenceParked : Bool := false  -- kept parked by a fence, R469
  removing : Nat := 0  -- 0 no removal, 1 by REMOVE, 2 by a fence, until its commits have ended, R464
  deriving DecidableEq, Repr

/-- The whole part. -/
structure State where
  glb : Glb := {}  -- GLB registers, R25
  clk : Clk := {}  -- power and clocks, R23
  queues : Tbl QCtx := []  -- 524,288 queues, R35
  runs : Tbl Run := []  -- current kernel per queue, R32
  syncs : Tbl Sync := []  -- 16,384 sync objects, R36
  cores : Tbl Core := []  -- 256 cores, R9
  clusters : Tbl Cluster := []  -- 32 clusters, R9
  hbr : Tbl Hbr := []  -- 2 Harbours, R303
  stks : Tbl Stack := []  -- 32 stacks, R318
  shelf : Shelf := {}  -- the Shelf, R354
  ports : Tbl Port := []  -- 64 ports, R388
  cwy : Cwy := {}  -- Causeway, part-wide, R408
  codecs : Tbl CodecEng := []  -- 8 codec engines, R264
  codecQ : List (Nat × Nat) := []  -- codec jobs waiting: queue, instruction, R264
  lsh : Tbl LshEng := []  -- 8 Longshore engines, R418
  lshQ : List (Nat × Nat) := []  -- COLLs waiting: queue, instruction, R418
  twcH : Tbl TwcHalf := []  -- 2 Tidewatch controllers, R455
  twc : Twc := {}  -- Tidewatch, part-wide, R470
  sec : Sec := {}  -- security block, R489
  dbg : Dbg := {}  -- Keeper, R509
  trec : TRec := {}  -- Tidewatch record, R466
  berths : Tbl Berth := []  -- 32 berths, R365
  arbs : Tbl Arb := []  -- rations arbiters, R384
  mem : Memory := []  -- stack bytes 0..0x2FF_FFFF_FFFF and Shelf logical bytes 0x1000_0000_0000..0x1FFF_FFFF_FFFF, by physical address, R318
  moor : Memory := []  -- mooring bytes, by berth and virtual address, R308
  trays : Memory := []  -- tray bytes, by core, tray and offset; Shelf copies of parked trays of berth b at core + 256 (b + 1), R292
  units : Tbl UnitSt := []  -- 32 B units of mem that are poisoned or uncorrectable, R335
  delivered : List (Nat × List Byte) := []  -- data that the controller delivered at the last read of a 32 B unit, where it differs from the stored bits, R330
  pageLast : Tbl Nat := []  -- 1 + the berth whose data a physical page last held, R487
  moorUnits : Tbl UnitSt := []  -- the same of moor, R424
  readySeq : Nat := 0  -- counter behind Run.readyAt, R371
  fresh : Nat := 0  -- the model's own: counter of free values taken
  out : List Out := []  -- the model's own: messages that have left the part, newest first
  pending : List Instr := []  -- the model's own: commands that wait, first in first out
  deriving DecidableEq, Repr

/-- Reasons for which the machine could stop with a fault. No command of this part stops it: faults of kernels are
effects on the queue's state (R50), so the one reason is raised by nothing. It would be safe. -/
inductive Fault where
  /-- Raised by no command; safe. -/
  | unreachable
  deriving DecidableEq, Repr

/-- Reasons for which a command is refused. -/
inductive Refusal where
  /-- Raised by the arm of a command that has no meaning in this model; safe. -/
  | notModelled (mnemonic : String)
  deriving DecidableEq, Repr

/-- The part right after a power-on reset: every field at its default (01_the_part.md R8; INVENTORY.md, State). -/
def State.reset : State := {}

end Sys2Proof.Machine
end

