-- ==== Sys2Proof/Machine/Ops.lean ====
section
/-! DEFINITION. Shared operations: sparse tables, memories in canonical form, access to one unit of the state. -/
namespace Sys2Proof.Machine

/-! ### Tables: pairs in rising order of the index, no entry equal to the reset value -/

/-- Element k of a table whose unlisted elements are d. -/
def look {α : Type} (d : α) : Tbl α → Nat → α
  | [], _ => d
  | (j, v) :: t, k => if k = j then v else look d t k

/-- The table with an entry of v at k, in the place that the rising order gives it. -/
def setEntry {α : Type} : Tbl α → Nat → α → Tbl α
  | [], k, v => [(k, v)]
  | (j, w) :: t, k, v =>
    if k < j then (k, v) :: (j, w) :: t else if k = j then (j, v) :: t else (j, w) :: setEntry t k v

/-- The table with element k set to v; the reset value d leaves no entry. -/
def put {α : Type} [DecidableEq α] (d : α) (t : Tbl α) (k : Nat) (v : α) : Tbl α :=
  if v = d then t.filter (fun c => c.1 ≠ k) else setEntry t k v

/-- The canonical form, for a table whose indices all exceed the bound, if there is one. -/
def tblWfFrom {α : Type} [DecidableEq α] (d : α) : Option Nat → Tbl α → Bool
  | _, [] => true
  | lo, (j, v) :: t =>
    (match lo with
     | none => true
     | some b => decide (b < j)) && decide (v ≠ d) && tblWfFrom d (some j) t

/-- The canonical form of a table. -/
def tblWf {α : Type} [DecidableEq α] (d : α) (t : Tbl α) : Bool := tblWfFrom d none t

/-! ### Memories: an unlisted byte is 0 (notes/assumptions/17.md) -/

/-- The canonical form of a memory. -/
def Memory.wf (m : Memory) : Bool := tblWf (0 : Byte) m

def rdByte (m : Memory) (a : Nat) : Byte := look 0 m a

def wrByte (m : Memory) (a : Nat) (v : Byte) : Memory := put 0 m a v

/-- n bytes from address a. -/
def rdBytes (m : Memory) (a : Nat) : Nat → List Byte
  | 0 => []
  | n + 1 => rdByte m a :: rdBytes m (a + 1) n

/-- Bytes stored from address a upwards. -/
def wrBytes (m : Memory) (a : Nat) : List Byte → Memory
  | [] => m
  | b :: bs => wrBytes (wrByte m a b) (a + 1) bs

/-- n bytes set to zero from address a. -/
def zeroBytes (m : Memory) (a n : Nat) : Memory := m.filter (fun c => c.1 < a || a + n ≤ c.1)

/-- Bytes as a little-endian number (R2). -/
def leNat : List Byte → Nat
  | [] => 0
  | b :: bs => b.toNat + 256 * leNat bs

/-- The n little-endian bytes of a number (R2). -/
def leBytes : Nat → Nat → List Byte
  | 0, _ => []
  | n + 1, v => BitVec.ofNat 8 v :: leBytes n (v / 256)

/-! ### Numbers in registers -/

/-- Bits [l + w - 1 : l] of v replaced by x. -/
def setField (v l w x : Nat) : Nat := v - field v l w * 2 ^ l + x % 2 ^ w * 2 ^ l

/-- A saturating sum at w bits. -/
def satAdd (w a b : Nat) : Nat := min (a + b) (2 ^ w - 1)

/-- A sum modulo 2^w. -/
def wrapAdd (w a b : Nat) : Nat := (a + b) % 2 ^ w

/-- How far a w-bit index lies past another, as both wrap. -/
def ahead (w a b : Nat) : Nat := if b ≤ a then a - b else a + 2 ^ w - b

def boolNat (b : Bool) : Nat := if b then 1 else 0

/-- Bit i of a bit vector. -/
def bitOf {w : Nat} (v : BitVec w) (i : Nat) : Bool := v.getLsbD i

/-- A bit vector with bit i set to b. -/
def setBit {w : Nat} (v : BitVec w) (i : Nat) (b : Bool) : BitVec w :=
  if b then v ||| BitVec.ofNat w (2 ^ i) else v &&& ~~~ BitVec.ofNat w (2 ^ i)

/-- The indices of the bits that are 1, of n. -/
def bitList {w : Nat} (v : BitVec w) (n : Nat) : List Nat := (List.range n).filter (bitOf v)

/-- A fold over a list with the state last. -/
def forEach {α σ : Type} (l : List α) (f : α → σ → σ) (s : σ) : σ := l.foldl (fun t a => f a t) s

/-! ### One unit of the state -/

def State.queue (s : State) (q : Nat) : QCtx := look {} s.queues q
def State.setQueue (s : State) (q : Nat) (v : QCtx) : State := { s with queues := put {} s.queues q v }
def State.modQueue (s : State) (q : Nat) (f : QCtx → QCtx) : State := s.setQueue q (f (s.queue q))

def State.run (s : State) (q : Nat) : Run := look {} s.runs q
def State.setRun (s : State) (q : Nat) (v : Run) : State := { s with runs := put {} s.runs q v }
def State.modRun (s : State) (q : Nat) (f : Run → Run) : State := s.setRun q (f (s.run q))

def State.sync (s : State) (i : Nat) : Sync := look {} s.syncs i
def State.setSync (s : State) (i : Nat) (v : Sync) : State := { s with syncs := put {} s.syncs i v }
def State.modSync (s : State) (i : Nat) (f : Sync → Sync) : State := s.setSync i (f (s.sync i))

def State.core (s : State) (c : Nat) : Core := look {} s.cores c
def State.setCore (s : State) (c : Nat) (v : Core) : State := { s with cores := put {} s.cores c v }
def State.modCore (s : State) (c : Nat) (f : Core → Core) : State := s.setCore c (f (s.core c))

def State.cluster (s : State) (c : Nat) : Cluster := look {} s.clusters c
def State.setCluster (s : State) (c : Nat) (v : Cluster) : State := { s with clusters := put {} s.clusters c v }
def State.modCluster (s : State) (c : Nat) (f : Cluster → Cluster) : State := s.setCluster c (f (s.cluster c))

def State.harbour (s : State) (h : Nat) : Hbr := look {} s.hbr h
def State.setHarbour (s : State) (h : Nat) (v : Hbr) : State := { s with hbr := put {} s.hbr h v }
def State.modHarbour (s : State) (h : Nat) (f : Hbr → Hbr) : State := s.setHarbour h (f (s.harbour h))

def State.stack (s : State) (k : Nat) : Stack := look {} s.stks k
def State.setStack (s : State) (k : Nat) (v : Stack) : State := { s with stks := put {} s.stks k v }
def State.modStack (s : State) (k : Nat) (f : Stack → Stack) : State := s.setStack k (f (s.stack k))

def State.modChan (s : State) (k ch : Nat) (f : Chan → Chan) : State :=
  s.modStack k (fun t => { t with chans := put {} t.chans ch (f (look {} t.chans ch)) })

def State.port (s : State) (p : Nat) : Port := look {} s.ports p
def State.setPort (s : State) (p : Nat) (v : Port) : State := { s with ports := put {} s.ports p v }
def State.modPort (s : State) (p : Nat) (f : Port → Port) : State := s.setPort p (f (s.port p))

def State.codecEng (s : State) (e : Nat) : CodecEng := look {} s.codecs e
def State.setCodecEng (s : State) (e : Nat) (v : CodecEng) : State := { s with codecs := put {} s.codecs e v }
def State.modCodecEng (s : State) (e : Nat) (f : CodecEng → CodecEng) : State := s.setCodecEng e (f (s.codecEng e))

def State.lshEng (s : State) (e : Nat) : LshEng := look {} s.lsh e
def State.setLshEng (s : State) (e : Nat) (v : LshEng) : State := { s with lsh := put {} s.lsh e v }
def State.modLshEng (s : State) (e : Nat) (f : LshEng → LshEng) : State := s.setLshEng e (f (s.lshEng e))

def State.half (s : State) (h : Nat) : TwcHalf := look {} s.twcH h
def State.setHalf (s : State) (h : Nat) (v : TwcHalf) : State := { s with twcH := put {} s.twcH h v }
def State.modHalf (s : State) (h : Nat) (f : TwcHalf → TwcHalf) : State := s.setHalf h (f (s.half h))

def State.berth (s : State) (b : Nat) : Berth := look {} s.berths b
def State.setBerth (s : State) (b : Nat) (v : Berth) : State := { s with berths := put {} s.berths b v }
def State.modBerth (s : State) (b : Nat) (f : Berth → Berth) : State := s.setBerth b (f (s.berth b))

def State.block (s : State) (i : Nat) : Block := look {} s.shelf.blocks i
def State.setBlock (s : State) (i : Nat) (v : Block) : State :=
  { s with shelf := { s.shelf with blocks := put {} s.shelf.blocks i v } }

def State.modGlb (s : State) (f : Glb → Glb) : State := { s with glb := f s.glb }
def State.modClk (s : State) (f : Clk → Clk) : State := { s with clk := f s.clk }
def State.modShelf (s : State) (f : Shelf → Shelf) : State := { s with shelf := f s.shelf }
def State.modCwy (s : State) (f : Cwy → Cwy) : State := { s with cwy := f s.cwy }
def State.modTwc (s : State) (f : Twc → Twc) : State := { s with twc := f s.twc }
def State.modSec (s : State) (f : Sec → Sec) : State := { s with sec := f s.sec }
def State.modDbg (s : State) (f : Dbg → Dbg) : State := { s with dbg := f s.dbg }
def State.modTrec (s : State) (f : TRec → TRec) : State := { s with trec := f s.trec }

/-- A message leaves the part. -/
def State.emit (s : State) (o : Out) : State := { s with out := o :: s.out }

/-- The next free value's index, and the counter advanced (notes/assumptions/6.md). -/
def State.take (s : State) : Nat × State := (s.fresh, { s with fresh := s.fresh + 1 })

/-! ### Numbering (R10) -/

def queueHalf (q : Nat) : Nat := q / 2 ^ 18
def coreHalf (c : Nat) : Nat := c / 128
def clusterOf (core : Nat) : Nat := core / 8
def clusterHalf (c : Nat) : Nat := c / 16
def portHalf (p : Nat) : Nat := p / 32
def syncHalf (i : Nat) : Nat := i / 2 ^ 13

def State.fenced (s : State) (h : Nat) : Bool := if h = 0 then s.glb.h0Fenced else s.glb.h1Fenced
def State.halfUp (s : State) (h : Nat) : Bool := if h = 0 then s.glb.h0Up else s.glb.h1Up

end Sys2Proof.Machine
end

