-- ==== Sys2Proof/Machine/Fabric.lean ====
section
/-! DEFINITION. Rations arbiters (15_berths_scheduling.md R383, R384) and the sending side of the Causeway
(16_causeway.md R396 to R407): routing, virtual lanes, credits, transaction numbers. -/
namespace Sys2Proof.Machine

/-! ### Rations (R383) -/

/-- Arbiters by number: Harbour slice port sl: sl; stack channel: 0x1000 + 64 * stack + ch; Isthmus direction d:
0x2000 + d; Shelf controller: 0x3000; Causeway injection of port p: 0x4000 + p. -/
def arbWeights (s : State) (id : Nat) : List Nat :=
  let rations := (List.range 32).map (fun b => (s.berth b).layout.ration)
  if id < 0x1000 then
    let h := s.harbour (id / 64)
    rations ++ [h.hostW, h.migW]
  else if id < 0x2000 then
    let k := s.stack ((id - 0x1000) / 64)
    [k.wideW, k.narrowW]
  else if id < 0x3000 then rations ++ [s.glb.ismMgmtW]
  else if id < 0x4000 then [s.shelf.readW, s.shelf.migW]
  else
    let p := s.port (id - 0x4000)
    [p.w1, p.w2, p.w3, p.w4, p.w5, p.w6, p.w7]

/-- The window of an arbiter, in edges of its clock. -/
def arbWindow (s : State) (id : Nat) : Nat :=
  if id < 0x1000 then (s.harbour (id / 64)).window
  else if id < 0x2000 then (s.stack ((id - 0x1000) / 64)).window
  else if id < 0x3000 then s.glb.ismWindow
  else if id < 0x4000 then s.shelf.window
  else (s.port (id - 0x4000)).window

/-- Every counter full. -/
def arbFull (ws : List Nat) : Tbl Int :=
  (List.range ws.length).foldl (fun t i => put 0 t i (ws.getD i 0 : Int)) []

/-- exhausted(e) of R383. -/
def arbExhausted (ws : List Nat) (c : Tbl Int) (pend : List Nat) : Bool :=
  let live := pend.filter (fun i => ws.getD i 0 > 0)
  !live.isEmpty && live.all (fun i => look 0 c i ≤ 0)

/-- The requester chosen from the counters seen: the largest positive credit, else the lowest of weight 0. -/
def arbChoose (ws : List Nat) (seen : Tbl Int) (pend : List Nat) : Option Nat :=
  let best := (List.range ws.length).foldl (fun (b : Option Nat) i =>
    if pend.contains i && decide (ws.getD i 0 > 0) && decide (look 0 seen i > 0) then
      match b with
      | none => some i
      | some j => if look 0 seen i > look 0 seen j then some i else b
    else b) none
  match best with
  | some i => some i
  | none => (List.range ws.length).find? (fun i => pend.contains i && decide (ws.getD i 0 = 0))

/-- One edge of an arbiter (R383). After reset its first edge starts a window (R384). -/
def arbEdge (ws : List Nat) (window : Nat) (a : Arb) (e : Nat) (pend : List Nat) : Arb :=
  let c0 := if a.started then a.credit else []
  let refill := !a.started || decide (e - a.wstart = window) || arbExhausted ws c0 pend
  let seen := if refill then arbFull ws else c0
  let after := match a.chosen with
    | some i => if pend.contains i then put 0 seen i (look 0 seen i - 1) else seen
    | none => seen
  { wstart := if refill then e else a.wstart
    credit := after
    chosen := arbChoose ws seen pend
    started := true }

/-! ### Ports -/

/-- Flits of a packet: its header and its data (R399). -/
def flitsOf (p : Packet) : Nat :=
  1 + (if p.type = 0xA ∧ (p.kind = 1 ∨ p.kind = 7) then 1 else cdiv p.data.length 32)

/-! ### Blocks on the wire (R389, R391, Tables 16.3, 16.4, 17.3) -/

/-- Fields of a header, each at its lowest bit. -/
def placeBits (fs : List (Nat × Nat × Nat)) : Nat :=
  fs.foldl (fun n f => n + (f.2.2 % 2 ^ f.2.1) * 2 ^ f.1) 0

/-- Fields of a header by lowest bit, width and value: Table 16.3, with COLL's use of it (Table 17.3) and MGMT's
(R462). -/
def headerFields (p : Packet) : List (Nat × Nat × Nat) :=
  [(0, 4, p.type), (4, 3, p.vl), (7, 1, boolNat p.poison), (8, 16, p.srcPart), (24, 16, p.dstPart), (40, 5, p.srcBerth),
    (128, 13, p.length), (141, 4, p.op), (145, 1, boolNat p.wide64), (146, 1, p.srcHalf), (147, 1, boolNat p.dropped),
    (216, 8, p.hops)] ++
  (if p.type = 0xA ∨ p.type = 0xB then [(56, 16, p.rank), (72, 8, p.kind), (80, 16, p.group), (96, 32, p.epoch)]
   else [(56, 24, p.txn), (80, 48, p.addr)]) ++
  (if p.type = 0xA then [(152, 32, p.seq), (184, 32, p.chunk)] else [(152, 64, p.operand)])

/-- A block: its flag in bit 0, one flit body in bits 256..1. -/
def blockOf (flag : Bool) (body : Nat) : BitVec 257 := BitVec.ofNat 257 (boolNat flag + 2 * (body % 2 ^ 256))

/-- A data flit of a packet: 32 bytes in rising address. -/
def dataBody (p : Packet) (k : Nat) : Nat :=
  if p.data = [] then (Sys2Proof.Config.flitBody p k).toNat else leNat ((p.data.drop (32 * k)).take 32)

/-- The blocks of a packet: its header flit with flag 1, its data flits with flag 0. -/
def packetBlocks (p : Packet) : List (BitVec 257) :=
  blockOf true (placeBits (headerFields p)) :: (List.range (flitsOf p - 1)).map (fun k => blockOf false (dataBody p k))

/-- A link control flit: 0 IDLE, 1 LINK_ACK, 2 LINK_NAK; the number in bits [19:8], credits in bits [55:24]. -/
def controlBlock (kind number credits : Nat) : BitVec 257 :=
  blockOf true (placeBits [(0, 4, 0xF), (4, 4, kind), (8, 12, number), (24, 32, credits)])

/-- The blocks of what a port sends. -/
def Out.blocks : Out → List (BitVec 257)
  | .packet (some _) p => packetBlocks p
  | .link _ nak number credits => [controlBlock (if nak then 2 else 1) number credits]
  | .flits _ bs => bs
  | _ => []

/-- Codeword n of a direction (R389): 20 blocks, those that nothing fills IDLE; the first of every 16,384 is the alignment
codeword, which carries no block. -/
def codeword (n : Nat) (bs : List (BitVec 257)) : List (BitVec 257) :=
  if n % 16384 = 0 then [] else (bs ++ List.replicate 20 (controlBlock 0 0 0)).take 20

/-- Receive buffer of a VL at the peer, in flits (R396). -/
def vlBuffer (vl : Nat) : Nat := if vl = 0 then 1024 else 256

/-- The VL served next at a packet boundary: VL0 when it is queued and credited, else by rations among VL1..VL7
(R397). -/
def pickVl (s : State) (p : Nat) (ready : List Nat) : Option Nat :=
  if ready.contains 0 then some 0
  else
    let ws := arbWeights s (0x4000 + p)
    let a := look {} s.arbs (0x4000 + p)
    let pend := (ready.filter (· ≠ 0)).map (· - 1)
    let c := if !a.started || arbExhausted ws a.credit pend then arbFull ws else a.credit
    (arbChoose ws c pend).map (· + 1)

/-- Flits charged to a VL of the injection arbiter (R397). -/
def chargeVl (s : State) (p vl n : Nat) : State :=
  if vl = 0 then s
  else
    let ws := arbWeights s (0x4000 + p)
    let a := look {} s.arbs (0x4000 + p)
    let c := if !a.started || arbExhausted ws a.credit [vl - 1] then arbFull ws else a.credit
    let a' := { a with credit := put 0 c (vl - 1) (look 0 c (vl - 1) - n), started := true }
    { s with arbs := put {} s.arbs (0x4000 + p) a' }

/-- The first packet of a VL in a queue. -/
def frontOf (q : List Packet) (vl : Nat) : Option Packet := q.find? (fun p => p.vl = vl)

/-- The packets that may start: whole within the credit of their VL and the retry buffer (R393, R396). -/
def readyVls (t : Port) : List Nat :=
  (List.range 8).filter (fun vl =>
    match frontOf t.txq vl with
    | none => false
    | some p => decide (look 0 t.credit vl + flitsOf p ≤ vlBuffer vl) &&
                decide (t.unacked.length + flitsOf p ≤ 2048))

/-- Remove the first packet of a VL. -/
def dropFront : List Packet → Nat → List Packet
  | [], _ => []
  | p :: ps, vl => if p.vl = vl then ps else p :: dropFront ps vl

/-- A port sends queued packets while it may; `fuel` bounds their number. -/
def sendPort (p : Nat) : Nat → State → State
  | 0, s => s
  | k + 1, s =>
    let t := s.port p
    if t.state = .up ∨ t.state = .draining then
      match pickVl s p (readyVls t) with
      | none => s
      | some vl =>
        match frontOf t.txq vl with
        | none => s
        | some pk =>
          let n := flitsOf pk
          let nums := ((List.range n).map (fun i => (t.txNext + i) % 4096)).zip (packetBlocks pk)
          let t' := { t with
            txq := dropFront t.txq vl
            txNext := (t.txNext + n) % 4096
            unacked := t.unacked ++ nums
            credit := put 0 t.credit vl (look 0 t.credit vl + n)
            txFlits := wrapAdd 64 t.txFlits n }
          sendPort p k (((chargeVl (s.setPort p t') p vl n).emit (.packet (some p) pk)))
    else s

/-- A packet joins the output queue of a port (R398), with HOPS one higher (R406). -/
def enqueue (p : Nat) (pk : Packet) (s : State) : State :=
  let s := s.modPort p (fun t => { t with txq := t.txq ++ [{ pk with hops := pk.hops + 1 }] })
  sendPort p (s.port p).txq.length s

/-- Key of a routing-table entry. -/
def routeKey (half vl dst : Nat) : Nat := half * 2 ^ 19 + vl * 2 ^ 16 + dst

/-- The port that a packet takes, in the routing table of a half (R406). -/
def routePort (s : State) (half vl dst : Nat) : Option Nat :=
  let r := look {} s.cwy.routes (routeKey half vl dst)
  let pst := (s.port r.primary).state
  let ast := (s.port r.alt).state
  if r.priValid ∧ (pst = .up ∨ pst = .training) then some r.primary
  else if r.altValid ∧ ast = .up then some r.alt
  else none

/-- Packets that are answers: they are discarded when they cannot be routed (R406). -/
def isAnswer (p : Packet) : Bool := p.type = 0x8 || p.type = 0x9 || p.type = 0x3

/-- A NACK to the source of a packet. -/
def nackTo (s : State) (p : Packet) (reason : Nat) : Packet :=
  { type := 0x9, vl := 6, srcPart := s.cwy.partId, dstPart := p.srcPart, srcBerth := 0, txn := p.txn
    op := reason, srcHalf := p.srcHalf, addr := p.addr }

/-- The counter RX_BAD, kept in the first port of the half that discards. -/
def countBad (p : Nat) (s : State) : State := s.modPort p (fun t => { t with rxBad := satAdd 16 t.rxBad 1 })

/-- A packet sent from, or passing through, a half (R406): local delivery, the port of the route, or no route. An
answer of NO_ROUTE or HOPS itself is routed once and discarded when that fails. -/
def routeTo (half : Nat) (pk : Packet) (retry : Bool) (s : State) : State :=
  if pk.dstPart = s.cwy.partId then s.emit (.packet none pk)
  else
    match routePort s half pk.vl pk.dstPart with
    | some p =>
      if pk.hops ≥ 63 then
        (if isAnswer pk || !retry then countBad p s
         else
          let n := nackTo s pk 0x6
          if n.dstPart = s.cwy.partId then s.emit (.packet none n)
          else match routePort s half n.vl n.dstPart with
            | some r => enqueue r n s
            | none => countBad p s)
      else enqueue p pk s
    | none =>
      if isAnswer pk || !retry then countBad (32 * half) s
      else
        let n := nackTo s pk 0x5
        if n.dstPart = s.cwy.partId then s.emit (.packet none n)
        else match routePort s half n.vl n.dstPart with
          | some r => enqueue r n s
          | none => countBad (32 * half) s

/-- Route a packet. -/
def route (half : Nat) (pk : Packet) (s : State) : State := routeTo half pk true s

/-- A request of a half takes its TXN and is sent, or waits for a free one (R404). -/
def request (half : Nat) (what : OutstFor) (pk : Packet) (s : State) : State :=
  let n := look 0 s.cwy.txn half
  let o : Outst := { half := half, txn := n, what := what, packet := pk, sends := 1 }
  if s.cwy.txnBusy.contains (half, n) then
    s.modCwy (fun c => { c with waiting := c.waiting ++ [{ o with sends := 0 }] })
  else
    let pk := { pk with txn := n, srcPart := s.cwy.partId, srcHalf := half }
    let s := s.modCwy (fun c => { c with
      txn := put 0 c.txn half ((n + 1) % 2 ^ 24)
      txnBusy := c.txnBusy ++ [(half, n)]
      outst := c.outst ++ [{ o with packet := pk }] })
    route half pk s

/-- The requests that wait for a TXN are offered again, oldest first. -/
def sendWaiting (s : State) : State :=
  let w := s.cwy.waiting
  forEach w (fun o t => request o.half o.what o.packet t) (s.modCwy (fun c => { c with waiting := [] }))

end Sys2Proof.Machine
end

