-- ==== Sys2Proof/Machine/Flags.lean ====
section
/-! DEFINITION. What the part raises and reports: MSI-X vectors (18_host_port.md R451, R452), events of a queue context
(02_kernels_commit.md R50), management records (19_tidewatch.md R463, R528). -/
namespace Sys2Proof.Machine

/-! ### Vectors -/

/-- The host link is up. -/
def State.linkUp (s : State) : Bool := s.glb.linkWidth ≠ 0

/-- A vector can send: MSI-X enabled, function and vector unmasked, link up (R440, R452). -/
def vectorOpen (s : State) (v : Nat) : Bool :=
  s.glb.msixEnable && !s.glb.msixFmask && !(look {} s.glb.msix v).masked && s.linkUp

/-- A vector is raised: its message is sent, or its pending bit set. -/
def raiseVector (v : Nat) (s : State) : State :=
  let e := look {} s.glb.msix v
  if vectorOpen s v then
    (s.modGlb (fun g => { g with msix := put {} g.msix v { e with pending := false } })).emit (.msix v e.addr e.data)
  else s.modGlb (fun g => { g with msix := put {} g.msix v { e with pending := true } })

/-- The pending messages that can now be sent are sent. -/
def flushVectors (s : State) : State :=
  forEach (s.glb.msix.map (·.1)) (fun v t =>
    if (look {} t.glb.msix v).pending && vectorOpen t v then raiseVector v t else t) s

/-! ### Events of a queue (Table 2.5) -/

/-- EVENT_FLAGS bit of an event code set. -/
def raiseEvent (code : Nat) (c : QCtx) : QCtx := { c with eventFlags := setBit c.eventFlags code true }

/-! ### Management records -/

/-- Halves and chair as GLB_HALF_STATUS shows them (Table 1.9). -/
def halfStatus (g : Glb) : Nat :=
  boolNat g.h0Up + 2 * boolNat g.h1Up + 4 * boolNat g.h0Fenced + 8 * boolNat g.h1Fenced + 16 * g.chair
    + 32 * boolNat g.split

/-- The 64 bytes of a record (Table 19.4). The payload starts at byte 16. SEQ is the count of records that the half
made before it (notes/assumptions/28.md). -/
def recordBytes (s : State) (half type berth : Nat) (payload : List Byte) : List Byte :=
  let h := s.half half
  (leBytes 1 type ++ leBytes 1 half ++ leBytes 1 berth ++ leBytes 1 0 ++ leBytes 4 h.recSeq ++ leBytes 8 h.us
    ++ payload ++ List.replicate 48 0).take 64

/-- A half's records reach the ring through the chair half: its own, and the other half's over the Isthmus while its
heartbeats arrive (R463). -/
def reachesChair (s : State) (half : Nat) : Bool :=
  half = s.glb.chair || (s.half half).peerHb || (s.half half).chair = .alone

/-- A MGMT packet (R462). -/
def mgmtPacket (s : State) (dst msg : Nat) (body : List Byte) : Packet :=
  { type := 0xB, vl := 7, srcPart := s.cwy.partId, dstPart := dst, kind := msg, data := body, length := body.length }

/-- A record is made by a half (R463): it takes its SEQ, goes into the ring where the ring is enabled and not full, and
to REPORT_PART where that is valid. berth 0xFF stands for none. -/
def makeRecord (half type berth : Nat) (payload : List Byte) (s : State) : State :=
  let bytes := recordBytes s half type berth payload
  let s := (s.modHalf half (fun h => { h with recSeq := wrapAdd 32 h.recSeq 1 })).emit (.record half bytes)
  let s := if s.twc.ringEn && reachesChair s half then
      let full := ahead 32 s.twc.prod s.twc.cons = 2 ^ s.twc.ringLog2
      let s := if full then s.modTwc (fun t => { t with ringDropped := satAdd 32 t.ringDropped 1 })
        else (s.modTwc (fun t => { t with prod := wrapAdd 32 t.prod 1 })).emit
          (.hostWrite (s.twc.ringBase + 64 * (s.twc.prod % 2 ^ s.twc.ringLog2)) bytes)
      raiseVector 5 s
    else s
  if s.twc.reportValid then route half (mgmtPacket s s.twc.reportPart type bytes) s else s

/-- Record payloads of Table 19.14. -/
def payAdmission (reason templ decl : Nat) : List Byte :=
  leBytes 1 reason ++ leBytes 1 0 ++ leBytes 2 templ ++ leBytes 4 decl

def payDropped (queue start part reason : Nat) : List Byte :=
  leBytes 4 queue ++ leBytes 4 start ++ leBytes 2 part ++ leBytes 1 reason

def payPark (restore : Bool) (bytes ms : Nat) : List Byte :=
  leBytes 8 (boolNat restore) ++ leBytes 8 bytes ++ leBytes 4 ms

def payMemory (kind stack channel addr : Nat) : List Byte :=
  leBytes 1 kind ++ leBytes 1 stack ++ leBytes 1 channel ++ leBytes 5 0 ++ leBytes 8 addr

def payThermal (cluster : Nat) (gated : Bool) : List Byte := leBytes 1 cluster ++ leBytes 1 (boolNat gated)

def payCommand (op result : Nat) : List Byte := leBytes 1 op ++ leBytes 1 result

def payInterrupted (queue start phase cause : Nat) : List Byte :=
  leBytes 4 queue ++ leBytes 4 start ++ leBytes 1 phase ++ leBytes 1 cause

def payTicket (code action seq : Nat) (digest : BitVec 384) : List Byte :=
  leBytes 1 code ++ leBytes 1 action ++ leBytes 6 0 ++ leBytes 8 seq ++ leBytes 32 digest.toNat

/-- GLB_HALF_STATUS changes: when it does, vector 0 and a half-status record of the acting half (R451, Table 19.5). -/
def setGlbHalf (half : Nat) (f : Glb → Glb) (s : State) : State :=
  let s' := s.modGlb f
  if halfStatus s'.glb = halfStatus s.glb then s'
  else makeRecord half 0x24 0xFF (leBytes 8 (halfStatus s'.glb)) (raiseVector 0 s')

/-- An uncorrectable unit of a stack is recorded (R335): address, channel and source, the count, a memory record of
kind 1 and vector 6. source: 0 wide, 1 narrow, 2 scrub, 3 masked write or commit effect. -/
def recordUe (stack channel pa source : Nat) (s : State) : State :=
  let s := s.modStack stack (fun k => { k with
    ueAddr := pa / 32 * 32, ueChan := channel, ueSource := source, ueCount := satAdd 32 k.ueCount 1 })
  raiseVector 6 (makeRecord (stack / 16) 0x25 0xFF (payMemory 1 stack channel (pa / 32 * 32)) s)

end Sys2Proof.Machine
end

