-- ==== Sys2Proof/Machine/Code.lean ====
section
/-! DEFINITION. The Breakwater code (13_stacks.md R328 to R331) and the channel hash (R321). Symbol i of a 288-bit
codeword is its bits [8i + 7 : 8i]; symbols 2k and 2k + 1 travel on pin k (R329, R331). -/
namespace Sys2Proof.Machine

/-- Multiplication by x in GF(2^8) with 0x11D. -/
def gtimes2 (a : Nat) : Nat := if a ≥ 128 then (2 * a) ^^^ 0x11D else 2 * a

/-- Product of a and the low k bits of b. -/
def gmulBits : Nat → Nat → Nat → Nat
  | 0, _, _ => 0
  | k + 1, a, b => (if b % 2 = 1 then a else 0) ^^^ gmulBits k (gtimes2 a) (b / 2)

/-- gmul of R328. -/
def gmul (a b : Nat) : Nat := gmulBits 8 a b

/-- α^n. -/
def gpow : Nat → Nat
  | 0 => 1
  | n + 1 => gtimes2 (gpow n)

/-- a^n. -/
def gexp (a : Nat) : Nat → Nat
  | 0 => 1
  | n + 1 => gmul a (gexp a n)

/-- The inverse of a nonzero element. -/
def ginv (a : Nat) : Nat := gexp a 254

/-- One step of the division of R328: r[0..3] and a data byte. -/
def checkStep (r : Nat × Nat × Nat × Nat) (d : Nat) : Nat × Nat × Nat × Nat :=
  let f := d ^^^ r.2.2.2
  (gmul f 0x40, r.1 ^^^ gmul f 0x78, r.2.1 ^^^ gmul f 0x36, r.2.2.1 ^^^ gmul f 0x0F)

/-- Check symbols p[0..3] of data bytes d[0..31] (R328). -/
def checkSymbols (d : List Nat) : List Nat :=
  let r := d.reverse.foldl checkStep (0, 0, 0, 0)
  [r.1, r.2.1, r.2.2.1, r.2.2.2]

/-- The exponent of x that carries symbol i. -/
def symExp (i : Nat) : Nat := if i < 32 then i + 4 else i - 32

/-- Syndrome S_k of the symbols c, whose first has number i. -/
def syndromeFrom (k : Nat) : Nat → List Nat → Nat
  | _, [] => 0
  | i, c :: cs => gmul c (gpow (k * symExp i)) ^^^ syndromeFrom k (i + 1) cs

/-- S_0..S_3 (R330). -/
def syndromes (c : List Nat) : List Nat := [0, 1, 2, 3].map (fun k => syndromeFrom k 0 c)

/-- The values at symbols 2k and 2k + 1 whose syndromes are s, if there are such. -/
def pinPattern (s : List Nat) (k : Nat) : Option (List (Nat × Nat)) :=
  let x1 := gpow (symExp (2 * k))
  let x2 := gpow (symExp (2 * k + 1))
  let s0 := s.getD 0 0
  let v2 := gmul (s.getD 1 0 ^^^ gmul x1 s0) (ginv (x1 ^^^ x2))
  let v1 := s0 ^^^ v2
  let ok := fun i => (gmul v1 (gexp x1 i) ^^^ gmul v2 (gexp x2 i)) = s.getD i 0
  if ok 2 ∧ ok 3 then some [(2 * k, v1), (2 * k + 1, v2)] else none

/-- The pattern with pin k marked and a further symbol p, if its syndromes are s. -/
def markedPattern (s : List Nat) (k p : Nat) : Option (List (Nat × Nat)) :=
  let x1 := gpow (symExp (2 * k))
  let x2 := gpow (symExp (2 * k + 1))
  let x3 := gpow (symExp p)
  let t := fun i => s.getD (i + 1) 0 ^^^ gmul x1 (s.getD i 0)
  let u := fun i => t (i + 1) ^^^ gmul x2 (t i)
  let v3 := gmul (u 0) (ginv (gmul (x1 ^^^ x3) (x2 ^^^ x3)))
  let v2 := gmul (t 0 ^^^ gmul v3 (x1 ^^^ x3)) (ginv (x1 ^^^ x2))
  let v1 := s.getD 0 0 ^^^ v2 ^^^ v3
  if u 1 = gmul x3 (u 0) then some [(2 * k, v1), (2 * k + 1, v2), (p, v3)] else none

/-- The first pattern that a search finds. -/
def firstSome {α : Type} (f : Nat → Option α) : List Nat → Option α
  | [] => none
  | i :: is => match f i with
    | some a => some a
    | none => firstSome f is

/-- The correctable pattern of R330 with syndromes s; mark is the marked pin. -/
def pattern (mark : Option Nat) (s : List Nat) : Option (List (Nat × Nat)) :=
  match mark with
  | none => firstSome (pinPattern s) (List.range 18)
  | some k => firstSome (markedPattern s k) ((List.range 36).filter (fun p => p / 2 ≠ k))

/-- The symbols of a received word. -/
def symbolsOf (rx : BitVec 288) : List Nat := (List.range 36).map (fun i => field rx.toNat (8 * i) 8)

/-- A received word decoded: the data bytes and the symbols altered, or none when it is uncorrectable (R330). -/
def decodeWord (mark : Option Nat) (rx : BitVec 288) : Option (List Byte × List Nat) :=
  let c := symbolsOf rx
  let s := syndromes c
  let bytes := fun l : List Nat => (l.take 32).map (BitVec.ofNat 8)
  if s.all (· = 0) then some (bytes c, [])
  else
    match pattern mark s with
    | none => none
    | some es =>
      let es := es.filter (fun e => e.2 ≠ 0)
      some (bytes (es.foldl (fun l e => l.set e.1 (l.getD e.1 0 ^^^ e.2)) c), es.map (·.1))

/-- The stored codeword of 32 data bytes. -/
def encodeWord (d : List Byte) : BitVec 288 :=
  let n := d.map BitVec.toNat
  BitVec.ofNat 288 ((n ++ checkSymbols n).foldr (fun b acc => b + 256 * acc) 0)

/-! ### The channel hash (R321) -/

/-- Where a stack address lies. -/
structure Place where
  stack : Nat
  channel : Nat
  layer : Nat
  bank : Nat
  row : Nat
  col : Nat
  unit : Nat
  o : Nat
  deriving DecidableEq, Repr

/-- The xor of the w-bit digits of hi; `fuel` bounds their number. -/
def foldXor (w : Nat) : Nat → Nat → Nat
  | 0, _ => 0
  | k + 1, hi => hi % 2 ^ w ^^^ foldXor w k (hi / 2 ^ w)

/-- place(pa) of R321 under the splits of STK_SCOPE. -/
def place (crustSplit crumbSplit pa : Nat) : Place :=
  let crust := pa < 0x8000000000
  let g0 := if crust then pa / 256 else (pa - 0x8000000000) / 256
  let c := if crust then 2 ^ 20 else 5 * 2 ^ 20
  let b := 8192 * (if crust then crustSplit else crumbSplit)
  let first := if crust then 0 else 2
  let part := g0 < 2048 * b
  let w := if part then 11 else 10
  let g1 := if part then g0 else g0 - 2048 * b
  let upper := !part && decide (g1 ≥ 1024 * (c - b))
  let g := if upper then g1 - 1024 * (c - b) else g1
  let base := if upper then 16 else 0
  let o := if part then g / 2 ^ 11 else b + g / 2 ^ 10
  let t := g % 2 ^ w ^^^ foldXor w 5 (g / 2 ^ w)
  { stack := base + t / 64
    channel := t % 64
    layer := first + o / 2 ^ 19
    bank := field o 0 5
    row := field o 7 12
    col := field o 5 2
    unit := field pa 5 3
    o := o }

end Sys2Proof.Machine
end

