-- ==== Sys2Proof/Machine/Operands.lean ====
section
/-! DEFINITION. Operands: tensor descriptors (03_instructions.md R68 to R73), accesses of a kernel to its berth's range
(R41, R344, R350, R322, R335, R425), tensor elements, stores. A fault is a pair (code of Table 2.5, detail). -/
namespace Sys2Proof.Machine

/-- A fault: code and detail. The detail of PLACEMENT (code 2) also carries the virtual page touched, times 256. -/
abbrev Flt := Nat × Nat

/-! ### Descriptors (Table 3.3) -/

structure Tensor where
  base : Nat := 0
  part : Nat := 0
  rank : Nat := 1
  fmt : Nat := 0
  remote : Bool := false
  hasWide : Bool := false
  ext : List Nat := []
  stride : List Nat := []
  scaleBase : Nat := 0
  wide : Nat := 0
  deriving DecidableEq, Repr

def tensorOf (bits : Nat) : Tensor :=
  { base := field bits 0 48
    part := field bits 48 16
    rank := field bits 64 3
    fmt := field bits 67 5
    remote := bit bits 72
    hasWide := bit bits 73
    ext := [field bits 80 32, field bits 112 32, field bits 144 32, field bits 176 32, field bits 208 32]
    stride := [1, field bits 240 40, field bits 280 40, field bits 320 40, field bits 360 40]
    scaleBase := field bits 400 48
    wide := field bits 448 42 }

def Tensor.e (t : Tensor) (k : Nat) : Nat := if k < t.rank then t.ext.getD k 0 else 1

def Tensor.st (t : Tensor) (k : Nat) : Nat := t.stride.getD k 0

/-- Index e of R72 of element (i0, i1, i2, i3, i4). -/
def Tensor.idx (t : Tensor) (i : List Nat) : Nat :=
  (i.zip t.stride).foldl (fun acc p => acc + p.1 * p.2) 0

/-- Rows: the indices of R72 of (0, i1, ..), dimension 1 innermost. -/
def Tensor.rows (t : Tensor) : List Nat :=
  let dim := fun k l => (List.range (t.e k)).flatMap (fun i => l.map (fun e => e + i * t.st k))
  dim 4 (dim 3 (dim 2 (dim 1 [0])))

/-- Number of rows: positions of dimensions 1 and above. -/
def Tensor.rowCount (t : Tensor) : Nat := t.e 1 * t.e 2 * t.e 3 * t.e 4

/-- The number of elements. -/
def Tensor.count (t : Tensor) : Nat := t.e 0 * t.rowCount

/-- The free bits of a descriptor set to 0 (Table 3.3: BASE, the extents, SCALE_BASE). -/
def fixedBits (b : Nat) : Nat :=
  b - field b 0 48 - field b 80 160 * 2 ^ 80 - field b 400 48 * 2 ^ 400

/-- The fields reserved at run time are 0 (R70). -/
def descReservedOk (t : Tensor) : Bool :=
  (List.range 5).all (fun k => k < t.rank || (t.ext.getD k 0 = 0 && t.st k = 0)) &&
  (isBlock t.fmt || t.scaleBase = 0)

/-- The run-time BASE is aligned as its format requires (R73). -/
def aligned (t : Tensor) : Bool :=
  let n := elemBits t.fmt / 8
  decide (elemBits t.fmt < 16) || decide (t.base % n = 0)

/-! ### Accesses of a kernel -/

/-- What an access needs to know: the berth, its image, the regions in force, whether it takes the narrow path. -/
structure Ctx where
  berth : Nat := 0
  queue : Nat := 0
  img : Image := {}
  uses : List Use := []
  narrow : Bool := false
  deriving DecidableEq, Repr

/-- Image of a berth, an empty one when none is admitted. -/
def State.imageOf (s : State) (b : Nat) : Image := ((s.berth b).image).getD {}

/-- Template of a queue's current kernel. -/
def State.template (s : State) (q : Nat) : Template :=
  ((s.imageOf (s.queue q).berth).templates).getD (s.run q).templ {}

/-- The access context of a queue's current kernel. A run under its wide footprint falls under its regions (R85). -/
def State.ctx (s : State) (q : Nat) : Ctx :=
  let b := (s.queue q).berth
  let t := s.template q
  { berth := b
    queue := q
    img := s.imageOf b
    uses := match (s.run q).wide, t.wide with
      | true, some w => w.uses
      | _, _ => t.uses }

/-- A region holds an address. -/
def regionHas (r : Region) (va : Nat) : Bool := decide (r.base ≤ va) && decide (va < r.base + r.size)

/-- The region of a use. -/
def Ctx.region (c : Ctx) (u : Use) : Region := c.img.regions.getD u.region {}

/-- The use whose region holds an address, among the roles that an access may have (R41). -/
def Ctx.find (c : Ctx) (ok : Role → Bool) (va : Nat) : Option Use :=
  c.uses.find? (fun u => ok u.role && regionHas (c.region u) va)

/-- Reads reach input, output and scratch regions (R41, R82; notes/assumptions/16.md). -/
def readRole : Role → Bool
  | .pool => false
  | _ => true

/-- Stores reach output and scratch regions (R42). -/
def writeRole : Role → Bool
  | .output => true
  | .scratch => true
  | _ => false

/-- The accumulator whose window holds an address (R227). -/
def Ctx.acc (c : Ctx) (va : Nat) : Option AccDecl :=
  c.img.accs.find? (fun a => decide (a.window ≤ va) && decide (va < a.window + 4 * a.words))

/-- Where an address lies. -/
inductive Locus where
  | stack (pa : Nat)
  | mooring (home va : Nat)
  | acc (a : AccDecl) (word : Nat)
  deriving DecidableEq, Repr

/-- Key of a mooring byte. -/
def moorKey (b va : Nat) : Nat := b * 2 ^ 48 + va

/-- Address of a tray byte. -/
def trayKey (core tray off : Nat) : Nat := (core * 16 + tray) * 2 ^ 17 + off

/-- The part-wide half whose stacks hold a stack address; none for a part-scope address (R321). -/
def scopeHalf (crustSplit crumbSplit pa : Nat) : Option Nat :=
  let crust := pa < 0x8000000000
  let g := if crust then pa / 256 else (pa - 0x8000000000) / 256
  let b := 8192 * (if crust then crustSplit else crumbSplit)
  let c := if crust then 2 ^ 20 else 5 * 2 ^ 20
  if g < 2048 * b then none
  else if g - 2048 * b ≥ 1024 * (c - b) then some 1 else some 0

/-- Home half of a stack address (R12). -/
def State.homeHalf (s : State) (pa : Nat) : Nat :=
  (place s.glb.crustSplit s.glb.crumbSplit pa).stack / 16

/-- An address is unreachable: its half is fenced, or it is part-scope and either half is (R322). -/
def State.unreachable (s : State) (pa : Nat) : Bool :=
  if pa ≥ 0x30000000000 then false
  else match scopeHalf s.glb.crustSplit s.glb.crumbSplit pa with
    | none => s.glb.h0Fenced || s.glb.h1Fenced
    | some h => s.fenced h

/-- The page of a berth that holds an address. -/
def State.page (s : State) (b va : Nat) : Page := look {} (s.berth b).pages (va / 2 ^ 21)

/-- Whether a page is mapped in a tier, and the detail of PLACEMENT otherwise (R350, Table 14.1). -/
def placed (p : Page) (t : Tier) : Option Nat :=
  if p.migrating then some 2
  else if p.tier = .park then some 3
  else if p.tier ≠ t then some 1
  else none

/-- Locate an address for an access. -/
def State.locate (s : State) (c : Ctx) (ok : Role → Bool) (va : Nat) : Except Flt Locus :=
  match c.find ok va with
  | none => .error (0x0E, 1)
  | some u =>
    if u.tier = .harbour then
      let r := c.region u
      if s.fenced r.home then .error (0x09, 6) else .ok (.mooring r.home va)
    else
      let p := s.page c.berth va
      match placed p u.tier with
      | some d => .error (0x02, d + 256 * (va / 2 ^ 21))
      | none =>
        let pa := p.phys * 2 ^ 21 + va % 2 ^ 21
        if s.unreachable pa then .error (0x09, 6) else .ok (.stack pa)

/-- What reading a unit gives beside data (R335, R425, Table 13.4). -/
def State.unitFault (s : State) (c : Ctx) (l : Locus) : Option Flt :=
  match l with
  | .stack pa =>
    match look .good s.units (pa / 32) with
    | .good => none
    | .poison => some (0x04, 1)
    | .uncorrectable => some (0x09, if c.narrow then 3 else if pa < 0x8000000000 then 1 else 2)
  | .mooring _ va =>
    match look .good s.moorUnits (moorKey c.berth va / 32) with
    | .good => none
    | .poison => some (0x04, 1)
    | .uncorrectable => some (0x09, 5)
  | .acc .. => none

/-- A word of an accumulator as its Peel reads it (R229). -/
def State.accWord (s : State) (b : Nat) (a : AccDecl) (w : Nat) : Nat :=
  let core := a.cores.getD (w / 2 ^ 14) 0
  let off := 4 * (w % 2 ^ 14)
  let written := (s.berth b).accWritten.any (fun p => p.2 = a.tray * 2 ^ 32 + w)
  leNat (rdBytes s.trays (trayKey core a.tray (if written then off + 65536 else off)) 4)

/-- A byte of a stack as its controller delivers it (R330): from the unit's last read where that differs from the stored
bits, a miscorrection of Table 13.3. -/
def State.memByte (s : State) (pa : Nat) : Byte :=
  match s.delivered.find? (fun d => d.1 = pa / 32) with
  | some d => d.2.getD (pa % 32) 0
  | none => rdByte s.mem pa

/-- Before a write into a unit: what the controller delivered is what a masked write merges into (R336). -/
def State.merged (s : State) (u : Nat) : State :=
  { s with mem := wrBytes s.mem (32 * u) ((List.range 32).map (fun i => s.memByte (32 * u + i)))
           delivered := s.delivered.filter (fun d => d.1 ≠ u) }

/-- A byte at a place. -/
def State.byteAt (s : State) (c : Ctx) (l : Locus) (va : Nat) : Byte :=
  match l with
  | .stack pa => s.memByte pa
  | .mooring _ v => rdByte s.moor (moorKey c.berth v)
  | .acc a w => BitVec.ofNat 8 (s.accWord c.berth a w / 256 ^ ((va - a.window) % 4))

/-- A byte read by a kernel. -/
def State.readByte (s : State) (c : Ctx) (ok : Role → Bool) (va : Nat) : Except Flt Byte :=
  match s.locate c ok va with
  | .error f => .error f
  | .ok l =>
    match s.unitFault c l with
    | some f => .error f
    | none => .ok (s.byteAt c l va)

/-- n bytes read by a kernel; the first fault met ends the read. -/
def State.readBytes (s : State) (c : Ctx) (ok : Role → Bool) (va : Nat) : Nat → Except Flt (List Byte)
  | 0 => .ok []
  | n + 1 =>
    match s.readByte c ok va with
    | .error f => .error f
    | .ok b =>
      match s.readBytes c ok (va + 1) n with
      | .error f => .error f
      | .ok bs => .ok (b :: bs)

/-- Bits [8 * a + n - 1 .. 8 * a] of memory as a little-endian bit string from bit address `bitAddr` (R72). -/
def State.readBits (s : State) (c : Ctx) (ok : Role → Bool) (bitAddr n : Nat) : Except Flt Nat :=
  let first := bitAddr / 8
  let last := (bitAddr + n - 1) / 8
  match s.readBytes c ok first (last + 1 - first) with
  | .error f => .error f
  | .ok bs => .ok (field (leNat bs) (bitAddr % 8) n)

/-- Map with the first error ending it. -/
def mapE {α β ε : Type} (f : α → Except ε β) : List α → Except ε (List β)
  | [] => .ok []
  | a :: as =>
    match f a with
    | .error e => .error e
    | .ok b =>
      match mapE f as with
      | .error e => .error e
      | .ok bs => .ok (b :: bs)

/-- Fold with the first error ending it. -/
def foldE {α σ ε : Type} (f : σ → α → Except ε σ) (s : σ) : List α → Except ε σ
  | [] => .ok s
  | a :: as =>
    match f s a with
    | .error e => .error e
    | .ok s' => foldE f s' as

/-! ### Reading tensors -/

/-- The block exponent of element e (R72). -/
def State.blockExp (s : State) (c : Ctx) (t : Tensor) (e : Nat) : Except Flt Int :=
  match s.readByte c readRole (t.scaleBase + e / 32) with
  | .error f => .error f
  | .ok b => .ok (toSigned b.toNat 8)

/-- The raw bits of element e. -/
def State.rawElem (s : State) (c : Ctx) (t : Tensor) (e : Nat) : Except Flt Nat :=
  s.readBits c readRole (t.base * 8 + e * elemBits t.fmt) (elemBits t.fmt)

/-- Element e of a tensor without its block exponent; a reserved encoding raises FORMAT (R108). -/
def State.elemPlain (s : State) (c : Ctx) (t : Tensor) (e : Nat) : Except Flt Fv :=
  match s.rawElem c t e with
  | .error f => .error f
  | .ok raw =>
    match decElem t.fmt raw with
    | .error d => .error (0x08, d)
    | .ok v => .ok v

/-- The exact value of element e, block exponent included (R107). -/
def State.elem (s : State) (c : Ctx) (t : Tensor) (e : Nat) : Except Flt Fv :=
  match s.elemPlain c t e with
  | .error f => .error f
  | .ok v =>
    if isBlock t.fmt then
      match s.blockExp c t e with
      | .error f => .error f
      | .ok x => .ok (v.scale x)
    else .ok v

/-- Elements at a list of indices of R72. -/
def State.elems (s : State) (c : Ctx) (t : Tensor) (es : List Nat) : Except Flt (List Fv) := mapE (s.elem c t) es

/-- A value as FP32, a block-scaled one through promote with its saturation (R126). -/
def widen (v : Fv) : Fv × Bool :=
  match v with
  | .fin n s q => promote (signedSig n s) q
  | y => (y, false)

/-! ### Stores: per byte, a mask of the bits stored and their value -/

abbrev Stores := Tbl (Nat × Nat)

/-- A byte stored under a mask. -/
def Stores.byte (st : Stores) (a mask v : Nat) : Stores :=
  let o := look (0, 0) st a
  put (0, 0) st a (o.1 ||| mask, (o.2 &&& (255 - mask)) ||| (v &&& mask))

/-- n bits stored from a bit address upwards; `fuel` is at least the number of bytes. -/
def Stores.bits (st : Stores) (bitAddr n v : Nat) (fuel : Nat := n) : Stores :=
  match fuel with
  | 0 => st
  | f + 1 =>
    if n = 0 then st
    else
      let off := bitAddr % 8
      let k := min n (8 - off)
      Stores.bits (st.byte (bitAddr / 8) ((2 ^ k - 1) * 2 ^ off) (v % 2 ^ k * 2 ^ off)) (bitAddr + k) (n - k)
        (v / 2 ^ k) f
termination_by structural fuel

/-- Bytes stored from an address upwards. -/
def Stores.bytes (st : Stores) (a : Nat) : List Byte → Stores
  | [] => st
  | b :: bs => (st.byte a 255 b.toNat).bytes (a + 1) bs

/-- Element e of a tensor stored from its raw bits. -/
def Stores.elem (st : Stores) (t : Tensor) (e raw : Nat) : Stores :=
  st.bits (t.base * 8 + e * elemBits t.fmt) (elemBits t.fmt) raw

/-- The units that stores touch, rising, once each. -/
def Stores.units (st : Stores) : List Nat := (st.map (fun p => p.1 / 32)).eraseDups

/-- All 32 bytes of a unit are stored whole. -/
def Stores.whole (st : Stores) (u : Nat) : Bool :=
  (List.range 32).all (fun i => (look (0, 0) st (32 * u + i)).1 = 255)

/-- A byte of a unit after the stores. -/
def Stores.over (st : Stores) (a : Nat) (old : Byte) : Byte :=
  let o := look (0, 0) st a
  BitVec.ofNat 8 ((old.toNat &&& (255 - o.1)) ||| o.2)

/-- The Harbour line of a mooring byte (R308). -/
def lineOf (b base va : Nat) : Nat := b * 2 ^ 48 + base + (va - base) / 256 * 256

/-- A mooring line is allotted at the first write that reaches it; its half allots none while a slice group of it is
gated, but then no run holding moorings is running (R308, R315). -/
def State.allot (s : State) (home line : Nat) : State :=
  s.modHarbour home (fun h => if h.lines.contains line then h else { h with lines := h.lines ++ [line] })

/-- A word of an accumulator written into its working copy (R229). -/
def State.accWrite (s : State) (b q : Nat) (a : AccDecl) (w v : Nat) : State :=
  let core := a.cores.getD (w / 2 ^ 14) 0
  let key := (q, a.tray * 2 ^ 32 + w)
  let s := { s with trays := wrBytes s.trays (trayKey core a.tray (4 * (w % 2 ^ 14) + 65536)) (leBytes 4 v) }
  s.modBerth b (fun t => if t.accWritten.contains key then t else { t with accWritten := t.accWritten ++ [key] })

/-- What an access answers that must wait: not a fault, nothing happens (R315). -/
def stalled : Flt := (0x100, 0)

/-- A mooring line may not be allotted now: a slice group of its half is gated (R315). -/
def State.lineBarred (s : State) (home line : Nat) : Bool :=
  (s.harbour home).gated ≠ 0 && !(s.harbour home).lines.contains line

/-- Where each of a list of bytes lies that a kernel stores to; the first fault met. -/
def State.locateAll (s : State) (c : Ctx) (vas : List Nat) : Except Flt (List (Nat × Locus)) :=
  mapE (fun va => match s.locate c writeRole va with
    | .error f => .error f
    | .ok l => .ok (va, l)) vas

/-- The stores to a list of bytes alone. -/
def Stores.part (st : Stores) (vas : List Nat) : Stores := st.filter (fun p => vas.contains p.1)

/-- A unit's stores in a stack. A whole unit clears a mark (R336, R424). A masked write onto a poisoned unit writes
nothing; one onto an uncorrectable unit raises detail 7, with the unit beside it (R336). -/
def State.storeStack (s : State) (c : Ctx) (st : Stores) (u pa : Nat) : Except Flt State :=
  let page := u / 2 ^ 16
  let bytes := fun m => wrBytes m (32 * pa) ((List.range 32).map (fun i => st.over (32 * u + i) (rdByte m (32 * pa + i))))
  let clearCopy := fun (t : State) => t.modBerth c.berth (fun b =>
    { b with pages := put {} b.pages page { look {} b.pages page with shelfCopy := false } })
  let t := s.merged pa
  if st.whole u then .ok (clearCopy { t with mem := bytes t.mem, units := put .good s.units pa .good })
  else match look .good s.units pa with
    | .good => .ok (clearCopy { t with mem := bytes t.mem })
    | .poison => .ok s
    | .uncorrectable => .error (0x09, 7 + 256 * (pa + 1))

/-- A unit's stores in moorings; each line that they reach is allotted. -/
def State.storeMoor (s : State) (c : Ctx) (st : Stores) (u : Nat) (lines : List (Nat × Nat)) : Except Flt State :=
  let k := c.berth * 2 ^ 43 + u
  if lines.any (fun l => s.lineBarred l.1 l.2) then .error stalled
  else
    let s := forEach lines (fun l t => t.allot l.1 l.2) s
    let bytes := fun m => wrBytes m (32 * k) ((List.range 32).map (fun i => st.over (32 * u + i) (rdByte m (32 * k + i))))
    if st.whole u then .ok { s with moor := bytes s.moor, moorUnits := put .good s.moorUnits k .good }
    else match look .good s.moorUnits k with
      | .good => .ok { s with moor := bytes s.moor }
      | .poison => .ok s
      | .uncorrectable => .error (0x09, 7)

/-- Base of the region in which a store to an address falls. -/
def Ctx.storeBase (c : Ctx) (va : Nat) : Nat := ((c.find writeRole va).map (fun w => (c.region w).base)).getD 0

/-- The stores of one unit: every byte that they touch must lie in a region of its role (R41). -/
def State.storeUnit (s : State) (c : Ctx) (st : Stores) (u : Nat) : Except Flt State :=
  match s.locateAll c ((st.filter (fun p => p.1 / 32 = u && p.2.1 ≠ 0)).map (·.1)) with
  | .error f => .error f
  | .ok ls =>
    let stk := ls.filterMap (fun p => match p.2 with
      | .stack pa => some (p.1, pa / 32)
      | _ => none)
    let moor := ls.filterMap (fun p => match p.2 with
      | .mooring home va => some (p.1, home, lineOf c.berth (c.storeBase va) va)
      | _ => none)
    let done : Except Flt State := match stk with
      | [] => .ok s
      | p :: _ => s.storeStack c (st.part (stk.map (·.1))) u p.2
    match done with
    | .error f => .error f
    | .ok s =>
      if moor = [] then .ok s else s.storeMoor c (st.part (moor.map (·.1))) u ((moor.map (·.2)).eraseDups)

/-- In-place stores of a work item, unit by unit in rising address. -/
def State.store (s : State) (c : Ctx) (st : Stores) : Except Flt State :=
  foldE (fun t u => t.storeUnit c st u) s st.units

/-! ### Harbour cache directory (R303 to R305; notes/assumptions/18.md) -/

/-- Slice of a half and set of a stack address (R304), with the slice served by its partner while gated (R315). -/
def State.cacheSlot (s : State) (pa : Nat) : Nat × Nat :=
  let p := place s.glb.crustSplit s.glb.crumbSplit pa
  let h := p.stack / 16
  let sl0 := 4 * (p.stack % 16) + p.channel / 16
  let sl := if bitOf (s.harbour h).gated (sl0 / 8) then sl0 ^^^ 8 else sl0
  (h, sl * 512 + (field pa 8 9 ^^^ field pa 17 9))

/-- A granule looked up. A read that misses brings it in place of the least recently used line; a store only updates a
line that is present (R305). -/
def State.touch (s : State) (pa : Nat) (store : Bool := false) : State :=
  let hs := s.cacheSlot pa
  let line := pa / 256
  s.modHarbour hs.1 (fun h =>
    let ways := look [] h.cache hs.2
    let cap := 16 - h.moorWays
    let hit := ways.contains line
    { h with
      cache := if store && !hit then h.cache else put [] h.cache hs.2 ((line :: ways.filter (· ≠ line)).take cap)
      hits := if hit then wrapAdd 64 h.hits 1 else h.hits
      misses := if hit then h.misses else wrapAdd 64 h.misses 1 })

/-- The granules of a list of virtual addresses looked up, once each, in order; a mooring access counts as a hit. -/
def State.touchAll (s : State) (c : Ctx) (vas : List Nat) (store : Bool := false) : State :=
  forEach ((vas.map (· / 256)).eraseDups) (fun g t =>
    match t.locate c (fun _ => true) ((vas.find? (fun v => v / 256 = g)).getD (g * 256)) with
    | .ok (.stack pa) => if pa < 0x30000000000 ∧ !c.narrow then t.touch pa store else t
    | .ok (.mooring home _) => t.modHarbour home (fun h => { h with hits := wrapAdd 64 h.hits 1 })
    | _ => t) s

end Sys2Proof.Machine
end

