-- ==== Sys2Proof/Machine/Plan.lean ====
section
/-! DEFINITION. What an instruction's descriptors must satisfy before it is planned: slots (03_instructions.md R68,
R93), agreement of extents (R89, R95, R97, R98, R184, R240, R412), output extent 0 (R59, R159, R193, R195, R248),
declared bounds and TILE_OVERFLOW (05_matrix_engines.md R141), plan allotments (R138). -/
namespace Sys2Proof.Machine

/-! ### Recipe sets (Table 3.8) -/

def setSplit (set : Nat) : Nat := field set 0 2
def setHeirloom (set : Nat) : Bool := bit set 2
def setRun (set : Nat) : Nat := field set 3 2
def setSpillway (set : Nat) : Bool := bit set 5
def setWide (set : Nat) : Bool := bit set 6

/-- The set in force after RECIPE, from the recipe select as the run sampled it (R84, R85). -/
def recipeSet (sample : BitVec 64) (hasWide : Bool) (variant set wide group : Nat) : Nat :=
  if variant = 0 then set
  else if bitOf sample group && hasWide then wide else set

/-- The set that each word of a kernel captures. -/
def setsAlong (sample : BitVec 64) (hasWide : Bool) (cur : Nat) : List Op → List Nat
  | [] => []
  | .recipe v a b g :: ws => cur :: setsAlong sample hasWide (recipeSet sample hasWide v a b g) ws
  | _ :: ws => cur :: setsAlong sample hasWide cur ws

/-! ### Descriptor slots -/

/-- Slots of an ATTN that its variant and flags use (Table 3.13). -/
def attnSlots (o : AttnOps) : List Nat :=
  [0, 1, 2, 3, 4] ++ (if o.mask then [5] else [])
    ++ (if o.back then [6, 7, 8, 9] ++ (if o.first then [] else [10]) else if o.first then [] else [6, 7])

/-- Virtual addresses of the descriptors that a word points to, in slot order; 0 for none. -/
def opPointers : Op → List Nat
  | .prob o => [o.a * 64, o.b * 64, o.c * 64, o.aux * 64]
  | .attn o => (List.range 11).map (fun k => if (attnSlots o).contains k then o.base * 64 + 64 * k else 0)
  | .rowop o => [o.x * 64, o.y * 64, o.aux * 64, o.st * 64]
  | .stripe o => [o.inp * 64, o.w * 64, o.out * 64, o.aux * 64]
  | .peel o => [o.src * 64, o.dst * 64, o.idx * 64]
  | .atom o => if o.variant = 1 then [o.src * 64, o.dst * 64] else []
  | .coll o => [o.src * 64, o.dst * 64, o.counts * 64]
  | .place r _ => [r * 64]
  | _ => []

/-- A PROB with FROZEN = 1, which reads none of its descriptors (R224). -/
def opFrozen : Op → Bool
  | .prob o => o.frozen
  | _ => false

/-- Virtual addresses of the descriptors that an instruction reads, in slot order; 0 for none. -/
def opSlots (op : Op) : List Nat := if opFrozen op then [] else opPointers op

/-- The WIDE bit replaces descriptors of PROB and ATTN only (Table 3.8). -/
def takesWide : Op → Bool
  | .prob _ => true
  | .attn _ => true
  | _ => false

/-- Image of the descriptor at an address. -/
def descOf (img : Image) (va : Nat) : Option DescDecl := img.descs.find? (fun d => d.va = va)

/-- The declared tensor at an address. -/
def declared (img : Image) (va : Nat) : Tensor := ((descOf img va).map (fun d => tensorOf d.bits.toNat)).getD {}

/-! ### Zero-compressed maps (R257) -/

/-- The descriptor's image declares a zero-compressed map. -/
def isZc (img : Image) (d : Desc) : Bool := ((descOf img d.va).map (·.zc)).getD false

/-- Bytes of an element. -/
def elemBytes (t : Tensor) : Nat := elemBits t.fmt / 8

/-- Bitmap bytes of a row of n elements. -/
def bitmapBytes (n : Nat) : Nat := cdiv n 256 * 32

/-- Bytes of a row's slot, Z of R257. -/
def zcSlotBytes (t : Tensor) : Nat := t.st 2 * elemBytes t

/-- Address of row r's slot. -/
def zcSlot (t : Tensor) (r : Nat) : Nat := t.base + r * zcSlotBytes t

/-! ### Reading descriptors -/

/-- A descriptor read at dispatch and compared with its image (R70). -/
def State.readDesc (s : State) (c : Ctx) (va : Nat) : Except Flt Desc :=
  if va = 0 then .ok {}
  else match s.readBytes c readRole va 64 with
    | .error f => .error f
    | .ok bs =>
      let b := leNat bs
      let t := tensorOf b
      let want := ((descOf c.img va).map (fun d => d.bits.toNat)).getD 0
      if fixedBits b ≠ fixedBits want || !descReservedOk t then .error (0x0F, 3)
      else .ok { va := va, bits := b }

/-- A slot's descriptor, or the wide alternate that replaces it (R84). -/
def State.readSlot (s : State) (c : Ctx) (wide : Bool) (va : Nat) : Except Flt Desc :=
  match s.readDesc c va with
  | .error f => .error f
  | .ok d =>
    let t := tensorOf d.bits
    if wide && t.hasWide then s.readDesc c (t.wide * 64) else .ok d

/-- The descriptors of an instruction under a recipe set. -/
def State.readSlots (s : State) (c : Ctx) (set : Nat) (op : Op) : Except Flt (List Desc) :=
  mapE (s.readSlot c (setWide set && takesWide op)) (opSlots op)

def tensors (ds : List Desc) : List Tensor := ds.map (fun d => if d.va = 0 then {} else tensorOf d.bits)

/-- The declared tensors of the same descriptors: their extents are the bounds. -/
def bounds (img : Image) (ds : List Desc) : List Tensor :=
  ds.map (fun d => if d.va = 0 then {} else declared img d.va)

/-- The declared descriptors that a word points to under a recipe set. -/
def declPointers (img : Image) (set : Nat) (op : Op) : List Desc :=
  (opPointers op).map (fun va =>
    if va = 0 then {}
    else
      let t := declared img va
      let va' := if setWide set && takesWide op && t.hasWide then t.wide * 64 else va
      { va := va', bits := ((descOf img va').map (fun d => d.bits.toNat)).getD 0 })

/-- Those that the instruction reads. -/
def declSlots (img : Image) (set : Nat) (op : Op) : List Desc := if opFrozen op then [] else declPointers img set op

/-! ### Shapes -/

def Tensor.sameExt (a b : Tensor) : Bool := (List.range 5).all (fun k => a.e k = b.e k)

/-- Equal extents but for dimension 0, which is n. -/
def Tensor.sameRows (a b : Tensor) (n : Nat) : Bool :=
  a.e 0 = n && ([1, 2, 3, 4].all (fun k => a.e k = b.e k))

def nth (ts : List Tensor) (k : Nat) : Tensor := ts.getD k {}

/-- Drain codes that use AUX as a bias, and as saved pre-activations (Table 3.11). -/
def drainBias (f : Nat) : Bool := [0x1, 0x5, 0x6, 0xB].contains f
def drainSaved (f : Nat) : Bool := [0x7, 0x8, 0x9, 0xC].contains f

/-- M, N and K of a PROB from its run-time tensors (R89). -/
def probDims (o : ProbOps) (ts : List Tensor) : Nat × Nat × Nat :=
  ((nth ts 2).e 1, (nth ts 2).e 0, if o.transA then (nth ts 0).e 1 else (nth ts 0).e 0)

def probAgree (o : ProbOps) (ts : List Tensor) : Bool :=
  let d := probDims o ts
  let a := nth ts 0
  let b := nth ts 1
  (if o.transA then a.e 0 else a.e 1) = d.1 &&
  (if o.transB then b.e 1 else b.e 0) = d.2.1 && (if o.transB then b.e 0 else b.e 1) = d.2.2 &&
  (!drainBias o.fn || (nth ts 3).e 0 = d.2.1) && (!drainSaved o.fn || (nth ts 3).sameExt (nth ts 2))

structure AttnDims where
  dh : Nat
  dv : Nat
  mq : Nat
  nk : Nat
  deriving DecidableEq, Repr

def attnDims (ts : List Tensor) : AttnDims :=
  { dh := (nth ts 0).e 0, dv := (nth ts 2).e 0, mq := (nth ts 0).e 1, nk := (nth ts 1).e 1 }

/-- Extents of Table 7.1. -/
def attnAgree (o : AttnOps) (ts : List Tensor) : Bool :=
  let d := attnDims ts
  let has := fun k (x y : Nat) => !(attnSlots o).contains k || ((nth ts k).e 0 = x && (nth ts k).e 1 = y)
  has 1 d.dh d.nk && has 2 d.dv d.nk && has 3 d.dv d.mq && has 4 3 d.mq && has 5 d.nk d.mq && has 6 d.dv d.mq &&
  (if o.back then has 7 d.dh d.mq && has 8 d.dh d.nk && has 9 d.dv d.nk && has 10 d.dh d.mq else has 7 3 d.mq)

def rowAgree (o : RowOps) (ts : List Tensor) : Bool :=
  let x := nth ts 0
  let y := nth ts 1
  let aux := nth ts 2
  let st := nth ts 3
  (if o.variant = 3 ∨ o.variant = 4 then y.sameRows x 1 else y.sameExt x) &&
  (match o.variant with
   | 1 => !o.mask || aux.sameExt x
   | 2 => o.aux = 0 || aux.e 0 = x.e 0
   | 5 => aux.sameExt x
   | 6 => aux.sameExt x
   | _ => true) &&
  (!o.stats || (if o.variant = 1 then st.rank = x.rank && st.sameRows x 2 else st.sameRows x 1))

/-- Geometry of a STRIPE. -/
structure Conv where
  cin : Nat
  w : Nat
  h : Nat
  fw : Nat
  fh : Nat
  co : Nat
  sy : Nat
  sx : Nat
  ho : Nat
  wo : Nat
  deriving DecidableEq, Repr

/-- An output extent of CONV and pooling, and of UPCONV (R97). -/
def convOut (n pad f stride : Nat) : Nat := if n + 2 * pad ≥ f then (n + 2 * pad - f) / stride + 1 else 0

def upOut (n pad f stride : Nat) : Nat :=
  let v : Int := ((n : Int) - 1) * stride + f - 2 * pad
  if v > 0 then v.toNat else 0

def convOf (o : StripeOps) (ts : List Tensor) : Conv :=
  let x := nth ts 0
  let w := nth ts 1
  let pool := o.variant = 1 || o.variant = 2
  let fw := if pool then o.pfw + 1 else w.e 1
  let fh := if pool then o.pfh + 1 else w.e 2
  let sy := o.sy + 1
  let sx := o.sx + 1
  { cin := x.e 0, w := x.e 1, h := x.e 2, fw := fw, fh := fh, sy := sy, sx := sx
    co := if pool then x.e 0 else w.e 3
    ho := if o.variant = 3 then upOut (x.e 2) o.py fh sy else convOut (x.e 2) o.py fh sy
    wo := if o.variant = 3 then upOut (x.e 1) o.px fw sx else convOut (x.e 1) o.px fw sx }

def stripeAgree (o : StripeOps) (ts : List Tensor) : Bool :=
  let g := convOf o ts
  let out := nth ts 2
  let aux := nth ts 3
  (o.variant = 1 || o.variant = 2 || (nth ts 1).e 0 = g.cin) &&
  out.e 0 = (if o.argmax then 1 else g.co) && out.e 1 = g.wo && out.e 2 = g.ho &&
  (!drainBias o.fn || aux.e 0 = g.co) && (!drainSaved o.fn || aux.sameExt out) &&
  (!o.argmax || (aux.e 0 = 1 && aux.e 1 = g.wo && aux.e 2 = g.ho))

def peelAgree (o : PeelOps) (ts : List Tensor) : Bool :=
  let src := nth ts 0
  let dst := nth ts 1
  match o.variant with
  | 1 => dst.e 0 = src.e 1 && dst.e 1 = src.e 0 && [2, 3, 4].all (fun k => dst.e k = src.e k)
  | 2 => dst.e 0 = src.e 0 && dst.e 1 = (nth ts 2).e 0 && [2, 3, 4].all (fun k => dst.e k = 1)
  | _ => dst.sameExt src

/-- Run-time extents agree as the instruction requires. COLL's requirements are those of Longshore.lean. -/
def opAgree (op : Op) (ts : List Tensor) : Bool :=
  match op with
  | .prob o => o.frozen || probAgree o ts
  | .attn o => attnAgree o ts
  | .rowop o => rowAgree o ts
  | .stripe o => stripeAgree o ts
  | .peel o => peelAgree o ts
  | .atom o => o.variant = 0 || (nth ts 0).sameExt (nth ts 1)
  | _ => true

/-- Every descriptor's BASE is aligned (R73). -/
def opAligned (ds : List Desc) : Bool := ds.all (fun d => d.va = 0 || aligned (tensorOf d.bits))

/-- The output extent is 0. -/
def opZero (op : Op) (ts : List Tensor) : Bool :=
  match op with
  | .prob o => o.frozen || (probDims o ts).1 = 0 || (probDims o ts).2.1 = 0
  | .attn o => let d := attnDims ts; d.mq = 0 && (!o.back || d.nk = 0)
  | .rowop _ => (nth ts 0).count = 0
  | .stripe o => let g := convOf o ts; g.ho = 0 || g.wo = 0 || g.co = 0
  | .peel _ => (nth ts 1).count = 0
  | _ => false

/-- Instructions that R59 counts. -/
def hasShape : Op → Bool
  | .prob _ => true
  | .attn _ => true
  | .rowop _ => true
  | .stripe _ => true
  | .peel _ => true
  | _ => false

/-! ### Bounds (R141) -/

/-- TILE_OVERFLOW detail of dimension k of slot j (Table 5.2; notes/assumptions/29.md for a STRIPE). -/
def overflowDetail (op : Op) (j k : Nat) : Nat :=
  match op with
  | .prob o =>
    match j, k with
    | 0, 0 => if o.transA then 1 else 3
    | 0, 1 => if o.transA then 3 else 1
    | 1, 0 => if o.transB then 3 else 2
    | 1, 1 => if o.transB then 2 else 3
    | _, 0 => 2
    | _, _ => 1
  | .attn _ =>
    if k = 0 then (if j = 5 then 3 else 4)
    else if j = 1 ∨ j = 2 ∨ j = 8 ∨ j = 9 then 3 else 1
  | .stripe _ =>
    match j, k with
    | 0, 2 => 1
    | 0, _ => 5
    | 1, 0 => 5
    | 1, 3 => 2
    | 1, _ => 3
    | _, 0 => 2
    | _, 1 => 5
    | _, _ => 1
  | .peel _ => if j = 2 then 1 else if k = 0 then 4 else 1
  | _ => if k = 0 then 4 else 1

/-- The bounds of an instruction at word w, with those of a re-tiled run in place of the declared ones (R143). -/
def runBounds (img : Image) (ds : List Desc) (retile : List (Nat × List Nat)) (w : Nat) : List Tensor :=
  let b := bounds img ds
  match retile.find? (fun p => p.1 = w) with
  | none => b
  | some p => (List.range b.length).map (fun j =>
      { (b.getD j {}) with ext := (List.range 5).map (fun k => p.2.getD (5 * j + k) 0) })

/-- First extent above its bound, in slot order and from dimension 0 upwards. -/
def firstOver (op : Op) (ts bs : List Tensor) : Option Nat :=
  let pairs := (List.range ts.length).flatMap (fun j => (List.range 5).map (fun k => (j, k)))
  (pairs.find? (fun p => (nth ts p.1).e p.2 > (nth bs p.1).e p.2)).map (fun p => overflowDetail op p.1 p.2)

/-! ### Allotments (R138) -/

/-- Chunk length of Table 5.1. -/
def chunkLen (fmt : Nat) : Nat :=
  match fmt with
  | 0x0 => 64
  | 0x1 => 128
  | 0x2 => 128
  | 0x5 => 128
  | 0x3 => 256
  | 0x4 => 512
  | 0x8 => 256
  | 0x9 => 512
  | 0xA => 512
  | _ => 1024

/-- Entries of plan tables that an instruction is allotted at given bounds. -/
def tableEntries (op : Op) (bs : List Tensor) : Nat :=
  match op with
  | .prob o =>
    if o.frozen then 0
    else
      let d := probDims o bs
      cdiv d.1 32 + cdiv d.2.1 32 + cdiv d.2.2 (chunkLen (nth bs 0).fmt) + 3
  | .attn o =>
    let d := attnDims bs
    let b := cdiv d.mq 32 + cdiv d.nk 64 + 2
    if o.back then b + cdiv d.nk 32 + cdiv d.mq 64 + 2 else b
  | .rowop _ => cdiv (nth bs 0).rowCount 32 + 1
  | .stripe _ => (nth bs 2).e 2 + 1
  | .peel o => cdiv (if o.variant = 2 then (nth bs 1).e 1 else (nth bs 1).rowCount) 32 + 1
  | _ => 0

/-- Input rows that a stripe of hs output rows fetches (Table 10.2). -/
def stripeRows (o : StripeOps) (g : Conv) (hs : Nat) : Nat :=
  if o.variant = 3 then (hs + g.fh - 2) / g.sy + 1 else (hs - 1) * min g.sy g.fh + g.fh

/-- Rows that the line-buffer trays hold, at the bytes of a row with its padding, of which an UPCONV's input has none
(R242, R251; notes/assumptions/30.md). -/
def rowsFit (o : StripeOps) (g : Conv) (lineBufs fmt : Nat) : Nat :=
  let row := (if o.variant = 3 then g.w else g.w + 2 * o.px) * g.cin * elemBits fmt / 8
  if row = 0 then 2 ^ 32 else lineBufs * 131072 / row

/-- Row and line buffers of a template hold an instruction at given bounds (R158, R251). -/
def buffersFit (t : Template) (op : Op) (bs : List Tensor) : Bool :=
  match op with
  | .rowop o =>
    if o.variant = 1 ∨ o.variant = 2 then decide ((nth bs 0).e 0 ≤ 32768 * t.rowBufs) else true
  | .stripe o =>
    let g := convOf o bs
    decide (stripeRows o g 1 ≤ rowsFit o g t.lineBufs (nth bs 0).fmt)
  | _ => true

end Sys2Proof.Machine
end

