-- ==== Sys2Proof/Machine/Kernel.lean ====
section
/-! DEFINITION. The life of a kernel (02_kernels_commit.md R30 to R60): ring words, the end of a run, faults and what
follows them, readiness and virtual time (15_berths_scheduling.md R369 to R371), migration requests
(14_shelf_tiers.md R349 to R351), doorbells, and the words that only change the kernel's own state or its held log. -/
namespace Sys2Proof.Machine

/-- An answer that is always a next state. -/
abbrev Res := Host.Outcome State Fault Refusal

/-! ### More accessors -/

def State.tray (s : State) (c t : Nat) : Tray := look {} (s.core c).trays t
def State.modTray (s : State) (c t : Nat) (f : Tray → Tray) : State :=
  s.modCore c (fun k => { k with trays := put {} k.trays t (f (look {} k.trays t)) })
def State.mxe (s : State) (m : Nat) : Mxe := look {} (s.core (m / 4)).mxe (m % 4)
def State.modMxe (s : State) (m : Nat) (f : Mxe → Mxe) : State :=
  s.modCore (m / 4) (fun k => { k with mxe := put {} k.mxe (m % 4) (f (look {} k.mxe (m % 4))) })
def State.group (s : State) (b i : Nat) : Group := look {} (s.berth b).grps i
def State.modGroup (s : State) (b i : Nat) (f : Group → Group) : State :=
  s.modBerth b (fun t => { t with grps := put {} t.grps i (f (look {} t.grps i)) })
def State.modReq (s : State) (b i : Nat) (f : Req → Req) : State :=
  s.modBerth b (fun t => { t with reqs := put {} t.reqs i (f (look {} t.reqs i)) })
def State.modSlot (s : State) (b i : Nat) (f : Slot → Slot) : State :=
  s.modBerth b (fun t => { t with slots := put {} t.slots i (f (look {} t.slots i)) })
def State.modPage (s : State) (b p : Nat) (f : Page → Page) : State :=
  s.modBerth b (fun t => { t with pages := put {} t.pages p (f (look {} t.pages p)) })
def State.modShare (s : State) (h b : Nat) (f : Share → Share) : State :=
  s.modHarbour h (fun t => { t with shares := put {} t.shares b (f (look {} t.shares b)) })

/-- The instruction list of a run with one instruction changed. -/
def State.modInst (s : State) (q i : Nat) (f : Inst → Inst) : State :=
  s.modRun q (fun r => { r with insts := (List.range r.insts.length).map (fun k =>
    if k = i then f (r.insts.getD k {}) else r.insts.getD k {}) })

/-! ### Ring words -/

/-- A byte of a berth's range where it lies now, with no region check: the fetch of ring words and accesses from
outside the kernels. -/
def State.rangeByte (s : State) (b va : Nat) : Byte :=
  match (s.imageOf b).regions.find? (fun r => r.tiers.contains .harbour && regionHas r va) with
  | some _ => rdByte s.moor (moorKey b va)
  | none => s.memByte ((s.page b va).phys * 2 ^ 21 + va % 2 ^ 21)

/-- Word i of a queue's ring (R30). -/
def State.ringWord (s : State) (q i : Nat) : Nat :=
  let c := s.queue q
  let a := c.ringBase + i % 2 ^ c.ringLog2 * 32
  leNat ((List.range 32).map (fun k => s.rangeByte c.berth (a + k)))

/-- Why word i of a queue's ring cannot be read: it is out of reach, uncorrectable or poisoned (R322, R335, R425). -/
def State.ringFlt (s : State) (q i : Nat) : Option Flt :=
  let c := s.queue q
  let va := c.ringBase + i % 2 ^ c.ringLog2 * 32
  match (s.imageOf c.berth).regions.find? (fun r => r.tiers.contains .harbour && regionHas r va) with
  | some r => if s.fenced r.home then some (0x09, 6) else s.unitFault { berth := c.berth } (.mooring r.home va)
  | none =>
    let pa := (s.page c.berth va).phys * 2 ^ 21 + va % 2 ^ 21
    if s.unreachable pa then some (0x09, 6) else s.unitFault { berth := c.berth } (.stack pa)

/-- Pending words from an index on. -/
def pendingFrom (c : QCtx) (i : Nat) : Nat := ahead 32 c.tail i

/-- Outcome of a fetch (R40): words still missing, a word that differs, a word that cannot be read, the kernel's words. -/
inductive Fetched where
  | short
  | bad (i templ : Nat)
  | fault (i : Nat) (f : Flt)
  | good (templ : Nat) (ops : List Op)
  deriving DecidableEq, Repr

/-- Fetched words compared with the template's from position i on. -/
def fetchAlong (s : State) (q start templ : Nat) : List (BitVec 256) → Nat → List Op → Fetched
  | [], _, acc => .good templ acc.reverse
  | w :: ws, i, acc =>
    if i ≥ pendingFrom (s.queue q) start then .short
    else match s.ringFlt q ((start + i) % 2 ^ 32) with
      | some f => .fault i f
      | none =>
        let x := s.ringWord q ((start + i) % 2 ^ 32)
        if matchesTemplate w.toNat x then fetchAlong s q start templ ws (i + 1) ((decodeOp x).getD .nop :: acc)
        else .bad i templ

/-- The words of the kernel at an index of the ring (R40). -/
def fetchAt (s : State) (q start : Nat) : Fetched :=
  if pendingFrom (s.queue q) start = 0 then .short
  else match s.ringFlt q start, decodeOp (s.ringWord q start) with
    | some f, _ => .fault 0 f
    | none, some (.kbegin t _ _ _) =>
      match (s.imageOf (s.queue q).berth).templates[t]? with
      | none => .bad 0 0
      | some k => if k.queue = q then fetchAlong s q start t k.words 0 [] else .bad 0 0
    | none, _ => .bad 0 0

/-- Offset from an index of the first pending COMMIT (R58); the fuel is the number of pending words. -/
def commitOffset (s : State) (q start : Nat) : Nat → Nat → Option Nat
  | 0, _ => none
  | n + 1, i =>
    if decodeOp (s.ringWord q ((start + i) % 2 ^ 32)) = some .commit then some i
    else commitOffset s q start n (i + 1)

/-! ### Groups and collective packets (17_longshore.md R414, R419) -/

/-- The record of a group number. -/
def State.findGroup (s : State) (g : Nat) : Option (Nat × Nat) :=
  (s.berths.flatMap (fun p => p.2.grps.map (fun e => (p.1, e.1, e.2.group)))).find? (fun e => e.2.2 = g)
    |>.map (fun e => (e.1, e.2.1))

/-- Parent and children of a rank in the tree of R414. -/
def treeParent (r : Nat) : Option Nat := if r = 0 then none else some ((r - 1) / 2)
def treeKids (g r : Nat) : List Nat := [2 * r + 1, 2 * r + 2].filter (· < g)
def treeNear (g r : Nat) : List Nat := (treeParent r).toList ++ treeKids g r

/-- A packet of a group's member. -/
def collPacket (s : State) (b : Nat) (g : Group) (kind op seq : Nat) : Packet :=
  { type := 0xA, vl := 0, srcPart := s.cwy.partId, srcBerth := b, kind := kind, group := g.group, epoch := g.epoch
    rank := g.rank, seq := seq, op := op }

/-- A packet to a member: over the declared ports to its part that are UP in turn, else by the VL0 route (R419). -/
def sendRank (half : Nat) (g : Group) (r turn : Nat) (pk : Packet) (s : State) : State :=
  let part := g.members.getD r 0
  let pk := { pk with dstPart := part }
  let up := (((g.links.find? (fun l => l.1 = part)).map (·.2)).getD []).filter (fun p => (s.port p).state = .up)
  if part = s.cwy.partId ∨ up = [] then route half pk s
  else enqueue (up.getD (turn % up.length) 0) pk s

/-- ABORT to the neighbours in the tree, but for one rank (notes/assumptions/31.md); a mismatch carries its detail. -/
def sendAbort (half b i reason detail seq : Nat) (but : Option Nat) (s : State) : State :=
  let g := s.group b i
  forEach ((treeNear g.members.length g.rank).filter (fun r => some r ≠ but)) (fun r t =>
    sendRank half g r 0 { collPacket t b g 0x03 reason seq with operand := detail } t) s

/-- Groups that a kernel's COLL words name. -/
def collGroups (ops : List Op) : List Nat :=
  (ops.filterMap (fun o => match o with | .coll c => some c.group | _ => none)).eraseDups

/-- COLL words on a group. -/
def collCountOf (ops : List Op) (g : Nat) : Nat :=
  (ops.filter (fun o => match o with | .coll c => c.group = g | _ => false)).length

/-! ### The end of a run (R52) -/

/-- A tray is an accumulator of the berth recorded in it (R227). -/
def State.isAcc (s : State) (c t : Nat) : Bool :=
  let k := s.tray c t
  k.pinned && (s.imageOf k.berth).accs.any (fun a => a.tray = t && a.cores.contains c)

/-- TRAY_OWNER of an access to a tray whose owner it does not act for (R297). Beside the tray and the owner found the
detail carries the core and the owner code of the access, for Table 12.4. -/
def State.trayOwnerFault (s : State) (core tray accessor : Nat) : Flt :=
  (0x03, tray + 16 * (s.tray core tray).owner + 256 * core + 2 ^ 16 * accessor)

/-- What keeps a Peel from a word of an accumulator: its core's Peel acts for the tray's owner only while the tray is its
own (R296, R297). -/
def State.accBar (s : State) (a : AccDecl) (w : Nat) : Option Flt :=
  let core := a.cores.getD (w / 2 ^ 14) 0
  if (s.tray core a.tray).owner = 6 then none else some (s.trayOwnerFault core a.tray 6)

/-- What keeps those that act for an owner from the trays that a run was handed for it in a core: a tray that has
another owner now (R296, R297). -/
def State.trayBar (s : State) (q core owner : Nat) : Option Flt :=
  ((s.run q).trayMap.find? (fun p => p.1 = core && p.2.2 = owner && (s.tray core p.2.1).owner ≠ owner)).map
    (fun p => s.trayOwnerFault core p.2.1 owner)

/-- Trays of a crew core that its run holds, and that are not on their way back from a killed run. -/
def State.runTrays (s : State) (c : Nat) : List Nat :=
  (List.range 16).filter (fun t =>
    let o := (s.tray c t).owner
    decide (1 ≤ o) && decide (o ≤ 8) && !s.isAcc c t && !s.runs.any (fun r => r.2.traysOut.contains (c, t)))

/-- A tray goes back to the scheduler (R299); one that holds another berth's parked tray is marked 0x9 again. -/
def returnTray (c t : Nat) (s : State) : State :=
  s.modTray c t (fun k => { k with
    owner := if k.parkedBy.isSome then 0x9 else if k.pinned then 0xA else 0
    scrubbing := false, scrubFor := 0 })

/-- An MXE that runs nothing. -/
def idleMxe (m : Mxe) : Mxe :=
  { m with busy := false, stolen := false, stream := false, streamHeirloom := false, streamBase2 := false }

/-- The engine of a started work item stops. -/
def idleEngine (op : Op) (w : Work) (s : State) : State :=
  if !w.started then s
  else match op with
    | .prob _ => s.modMxe w.eng idleMxe
    | .attn _ => s.modMxe w.eng idleMxe
    | .rowop _ => s.modCore w.eng (fun c => { c with rweBusy := false, rweHeirloom := false, rweBase2 := false })
    | .stripe _ => s.modCluster w.eng (fun c => { c with strBusy := false, strStolen := false, strZc := false })
    | _ => s

/-- What a codec job that is stopped had completed: pictures, 64 × 64 areas and clipped samples (R291), free within what
the job holds (notes/assumptions/36.md). -/
def stoppedJob (v b fresh : Nat) : Nat × Nat × Nat :=
  let w := field b 16 16
  let h := field b 32 16
  let per := cdiv w 64 * cdiv h 64
  let k := (Config.freeValue fresh).toNat % (field b 128 32 * per + 1)
  (if per = 0 then 0 else k / per, k,
    if v = 1 then (Config.freeValue (fresh + 1)).toNat % (field b 128 32 * (w * h + w * h / 2) + 1) else 0)

/-- The codec or Longshore engine of an instruction stops. -/
def idleUnit (i : Inst) (s : State) : State :=
  match i.engine, i.op with
  | some e, .codec v _ =>
    let n := stoppedJob v (i.descs.getD 0 {}).bits s.fresh
    { s with fresh := s.fresh + 2 }.modCodecEng e (fun c => { c with
      busy := false, pictures := wrapAdd 64 c.pictures n.1, blocks := wrapAdd 64 c.blocks n.2.1
      clipped := wrapAdd 64 c.clipped n.2.2 })
  | some e, .coll _ => s.modLshEng e (fun l => { l with busy := false })
  | _, _ => s

/-- Every engine that works for a run stops, its crew disbands, its reads are abandoned. -/
def stopEngines (q : Nat) (s : State) : State :=
  let r := s.run q
  let s := forEach r.insts (fun i t => idleUnit i (forEach i.work (idleEngine i.op) t)) s
  let s := forEach r.crew (fun c t => t.modCore c (fun k => { k with
    crew := none, mxe := k.mxe.filterMap (fun p =>
      let m := { idleMxe p.2 with inCrew := false }
      if m = {} then none else some (p.1, m)) })) s
  let mine := fun (o : Outst) => match o.what with | .readFor a _ _ => a = q | _ => false
  { s with
    codecQ := s.codecQ.filter (fun p => p.1 ≠ q)
    lshQ := s.lshQ.filter (fun p => p.1 ≠ q)
    cwy := { s.cwy with outst := s.cwy.outst.filter (fun o => !mine o)
                        waiting := s.cwy.waiting.filter (fun o => !mine o) } }

/-- Harbour lines of a region are freed. -/
def freeLines (b : Nat) (r : Region) (s : State) : State :=
  let key := b * 2 ^ 48 + r.base
  let mine := fun k => decide (key ≤ k) && decide (k < key + r.size)
  let s := s.modHarbour r.home (fun h => { h with lines := h.lines.filter (fun k => !mine k) })
  { s with moor := zeroBytes s.moor key r.size
           moorUnits := s.moorUnits.filter (fun u => !mine (u.1 * 32)) }

/-- The run's Harbour scratch is freed (R309). -/
def freeScratch (q : Nat) (s : State) : State :=
  let r := s.run q
  let c := s.ctx q
  let s := s.modShare 0 c.berth (fun h => { h with scratch := h.scratch - r.scratch0 })
  let s := s.modShare 1 c.berth (fun h => { h with scratch := h.scratch - r.scratch1 })
  if r.phase = .waiting then s
  else forEach c.uses (fun u t =>
    let g := c.region u
    if g.tiers.contains .harbour && !g.resident then freeLines c.berth g t else t) s

/-- Index of the last word that a run dispatched (R52). KBEGIN and each satisfied WAIT count as dispatched (DESIGN
CHOICE, notes/assumptions/85.md). -/
def lastWord (r : Run) : Nat := if r.ip = 0 then r.start else (r.start + r.ip - 1) % 2 ^ 32

/-- A run ends without effects (R52): engines stop, the held log, events and counts are discarded, Harbour space and
the written bits of accumulators are released, the fault is recorded. A collective that had not landed is aborted on
the other members (R65), but for the group whose message ended it; one killed in STATE 1 has no other effect, so it
sends no ABORT (R39 before R65: DESIGN CHOICE, notes/assumptions/85.md). -/
def killRun (q code detail word : Nat) (from_ : Option Nat) (s : State) : State :=
  let r := s.run q
  let b := (s.queue q).berth
  let groups := if r.phase = .waiting ∨ r.landed then []
    else (collGroups r.words).filter (fun g => some g ≠ from_)
  let out := r.crew.flatMap (fun c => (s.runTrays c).map (fun t => (c, t)))
  let s := freeScratch q (stopEngines q s)
  let s := s.modBerth b (fun t => { t with
    accWritten := t.accWritten.filter (fun p => p.1 ≠ q)
    virt := if code = 5 then t.virt else wrapAdd 64 t.virt r.cycles0
    preempted := if code = 5 ∧ detail = 1 then satAdd 32 t.preempted 1 else t.preempted })
  let s := s.setRun q { words := r.words, start := r.start, templ := r.templ, fetched := r.fetched, irq := r.irq
                        pass := r.pass, request := r.request, phase := .killed, samples := r.samples
                        sampled := r.sampled, passStarted := r.passStarted, retiled := r.retiled
                        retileDims := r.retileDims, wide := r.wide, traysOut := r.traysOut ++ out }
  let s := s.modQueue q (fun c => { c with
    kernelStart := r.start, faultWord := word, faultCode := code, faultDetail := detail
    killCount := wrapAdd 64 c.killCount 1 })
  let half := queueHalf q
  forEach groups (fun g t =>
    match t.findGroup g with
    | none => t
    | some (gb, i) =>
      let t := t.modGroup gb i (fun x => { x with aborts := satAdd 16 x.aborts 1 })
      sendAbort half gb i 2 0 (t.group gb i).seq none t) s

/-- The queue stops: STATE 4 and its vector (R50). -/
def stopQueue (q : Nat) (s : State) : State :=
  raiseVector (s.queue q).vector (s.modQueue q (fun c => { c with state := .stopped, skipWaiting := false }))

/-- The queue waits to re-run its kernel; `counted` re-runs count (R56). -/
def awaitRerun (q : Nat) (counted : Bool) (s : State) : State :=
  s.modQueue q (fun c => { c with state := .waiting
                                  rerunCount := if counted then c.rerunCount + 1 else c.rerunCount })

/-! ### Migration requests (14_shelf_tiers.md R349 to R351) -/

/-- The region of an image that holds an address. -/
def regionAt (img : Image) (va : Nat) : Option Region := img.regions.find? (fun r => regionHas r va)

/-- The half that serves part-scope destinations. -/
def partHalf (s : State) : Nat := if s.glb.h0Fenced then 1 else 0

/-- The half whose engine moves a page to a tier (R351). -/
def engineHalf (s : State) (b vpage : Nat) : Nat :=
  match (regionAt (s.imageOf b) (vpage * 2 ^ 21)).map (·.scope) with
  | some 1 => 0
  | some 2 => 1
  | _ => partHalf s

/-- A migration engine takes its next request when it is idle; one whose page has come to its tier meanwhile is done.
The fuel is the number of requests. -/
def nextMig (h : Nat) : Nat → State → State
  | 0, s => s
  | n + 1, s =>
    let t := s.half h
    match t.migRun, t.migQ with
    | none, r :: rest =>
      let p := look {} (s.berth r.berth).pages r.vpage
      if t.migHeld then s
      else if p.tier = r.tier && !p.migrating then
        nextMig h n ((s.modHalf h (fun x => { x with migQ := rest })).modBerth r.berth (fun x =>
          { x with migDone := wrapAdd 32 x.migDone 1 }))
      else (s.modHalf h (fun x => { x with migQ := rest, migRun := some r })).modPage r.berth r.vpage
        (fun p => { p with migrating := true })
    | _, _ => s

def startMig (h : Nat) (s : State) : State := nextMig h (s.half h).migQ.length s

/-- Place that a new request of its kind takes. -/
def migPlace (q : List MigReq) (fromFault : Bool) : Nat :=
  if fromFault then (q.takeWhile (·.fromFault)).length else q.length

def insertAt (l : List MigReq) (n : Nat) (r : MigReq) : List MigReq := l.take n ++ r :: l.drop n

/-- A migration of a page to a tier is requested (R349). -/
def requestMig (b vpage : Nat) (tier : Tier) (fromFault : Bool) (q : Nat) (s : State) : State :=
  let p := look {} (s.berth b).pages vpage
  let same := fun (r : MigReq) => r.berth = b && r.vpage = vpage
  let running := [0, 1].any (fun h => match (s.half h).migRun with
    | some r => same r && r.tier = tier
    | none => false)
  let old := [0, 1].find? (fun k => ((s.half k).migQ).any same)
  if (p.tier = tier ∧ !p.migrating) ∨ (running ∧ old = none) then s
  else
    let h := engineHalf s b vpage
    let req : MigReq := { berth := b, vpage := vpage, tier := tier, fromFault := fromFault, queue := q }
    let s := s.modBerth b (fun t => { t with migReq := wrapAdd 32 t.migReq 1
                                             migDone := if old.isSome then wrapAdd 32 t.migDone 1 else t.migDone })
    let oldPlace := if old = some h then (s.half h).migQ.findIdx same else 2 ^ 64
    let wasFault := old.any (fun k => ((s.half k).migQ.find? same).any (·.fromFault))
    let s := forEach [0, 1] (fun k t => t.modHalf k (fun x => { x with migQ := x.migQ.filter (fun r => !same r) })) s
    let mq := (s.half h).migQ
    let req := { req with fromFault := fromFault || wasFault }
    let s := s.modHalf h (fun x => { x with migQ := insertAt mq (min oldPlace (migPlace mq fromFault)) req })
    startMig h s

/-- Pages of a kernel's regions that are not where its template wants them (R350). -/
def outOfPlace (s : State) (c : Ctx) : List (Nat × Tier) :=
  c.uses.flatMap (fun u =>
    let r := c.region u
    if u.tier = .harbour ∨ r.size = 0 then []
    else
      let lo := r.base / 2 ^ 21
      let hi := (r.base + r.size - 1) / 2 ^ 21
      ((List.range (hi + 1 - lo)).map (· + lo)).filterMap (fun p =>
        match placed (look {} (s.berth c.berth).pages p) u.tier with
        | none => none
        | some _ => some (p, u.tier)))

/-- A PLACEMENT fault brings the kernel's footprint into place; pages still in the park area return ahead of the
list (R350, R361). -/
def requestFootprint (q touched : Nat) (s : State) : State :=
  let c := s.ctx q
  let miss := outOfPlace s c
  let parked := (miss.map (·.1)).filter (fun p => (look {} (s.berth c.berth).pages p).tier = .park)
  let first := (if parked.contains touched then [touched] else []) ++ parked.filter (· ≠ touched)
  let ahead := fun (l : List Nat) => first.eraseDups ++ l.filter (fun p => !first.contains p)
  let s := s.modBerth c.berth (fun t => { t with retQ := ahead t.retQ })
  forEach miss (fun m t =>
    if (look {} (t.berth c.berth).pages m.1).tier = .park then t else requestMig c.berth m.1 m.2 true q t) s

/-- Some page of the kernel's regions has a migration queued or running, or is still in the park area. -/
def footprintBusy (s : State) (c : Ctx) : Bool :=
  (outOfPlace s c).any (fun m =>
    let p := look {} (s.berth c.berth).pages m.1
    p.migrating || p.tier = .park ||
      [0, 1].any (fun h => (s.half h).migQ.any (fun r => r.berth = c.berth && r.vpage = m.1)))

/-! ### Readiness and virtual time -/

/-- The run would take its wide footprint (R85). -/
def wideNow (s : State) (q : Nat) : Bool :=
  let sel := (s.berth (s.queue q).berth).recipeSel
  (s.template q).wide.isSome && (s.run q).words.any (fun o => match o with
    | .recipe 1 _ _ g => bitOf sel g
    | _ => false)

/-- The kernel is zero-shape (R59): each instruction that R59 or R277 counts reads as having output extent 0. -/
def zeroShape (s : State) (q : Nat) : Bool :=
  let r := s.run q
  let c := { s.ctx q with uses := if wideNow s q then (match (s.template q).wide with
    | some w => w.uses
    | none => []) else (s.template q).uses }
  let sel := (s.berth c.berth).recipeSel
  let sets := setsAlong sel (s.template q).wide.isSome 8 r.words
  (r.words.zip sets).all (fun p =>
    if hasShape p.1 then
      match s.readSlots c p.2 p.1 with
      | .error _ => false
      | .ok ds => opZero p.1 (tensors ds)
    else match p.1 with
      | .codec _ job => (match s.readBytes c readRole (job * 64 + 16) 4 with
        | .error _ => false
        | .ok bs => leNat bs = 0)
      | _ => true)

/-- Harbour scratch that the kernel needs in a half, in units of 16 KiB (R309). -/
def needScratch (s : State) (q h : Nat) : Nat :=
  if zeroShape s q then 0
  else
    let t := s.template q
    let bytes := match wideNow s q, t.wide with
      | true, some w => if h = 0 then w.scratch0 else w.scratch1
      | _, _ => if h = 0 then t.scratch0 else t.scratch1
    cdiv bytes 16384

/-- The scratch fits the berth's remaining share in a half. -/
def scratchFits (s : State) (q h : Nat) : Bool :=
  let k := look {} (s.harbour h).shares (s.queue q).berth
  let n := needScratch s q h
  decide (n = 0) || decide (k.resident + k.scratch + n ≤ k.share)

/-- KBEGIN taken and every WAIT satisfied. -/
def waitsDone (r : Run) : Bool :=
  r.phase = .waiting && r.fetched && r.opened && (match r.words[r.ip]? with
    | some (.wait _ _) => false
    | _ => true)

/-- A kernel is ready (R371); one of a berth that Keeper halts is not (R491). -/
def ready (s : State) (q : Nat) : Bool :=
  waitsDone (s.run q) && scratchFits s q 0 && scratchFits s q 1 && !bitOf s.dbg.halted (s.queue q).berth

/-- A run is in progress with its engines or in its commit. -/
def inProgress (r : Run) : Bool := r.phase = .running || r.phase = .draining || r.phase = .committing

/-- Queues of a berth with a current kernel. -/
def berthQueues (s : State) (b : Nat) : List Nat := (s.runs.map (·.1)).filter (fun q => (s.queue q).berth = b)

/-- Berth a is behind berth c in normalised time (R369). -/
def behind (s : State) (a c : Nat) : Bool :=
  decide ((s.berth a).virt * (s.berth c).share < (s.berth c).virt * (s.berth a).share)

/-- A berth becomes active, or stops being so (R370; notes/assumptions/32.md). -/
def refreshActive (b : Nat) (s : State) : State :=
  let now := (berthQueues s b).any (fun q => ready s q || inProgress (s.run q))
  let t := s.berth b
  if now = t.active then s
  else if now then
    let others := (s.berths.map (·.1)).filter (fun x => x ≠ b && (s.berth x).active)
    let least := others.foldl (fun (m : Option Nat) x => match m with
      | none => some x
      | some y => if behind s x y then some x else m) none
    match least with
    | none => s.modBerth b (fun k => { k with active := true })
    | some x =>
      let k := s.berth x
      s.modBerth b (fun u => { u with active := true, virt := max u.virt (k.virt * u.share / k.share) })
  else s.modBerth b (fun k => { k with active := false })

/-- A kernel that became ready takes its place in time (R371). -/
def refreshReady (q : Nat) (s : State) : State :=
  let r := s.run q
  if ready s q then
    if r.readyAt = 0 then
      let n := s.readySeq + 1
      let t := s.modRun q (fun x => { x with readyAt := n })
      { t with readySeq := n }
    else s
  else if r.readyAt = 0 ∨ r.phase ≠ .waiting then s else s.modRun q (fun x => { x with readyAt := 0 })

/-- WAITING of a berth's shares: one of its runs does not fit in either half (R309, Table 12.6). -/
def refreshWaiting (b : Nat) (s : State) : State :=
  let waits := (berthQueues s b).any (fun q => waitsDone (s.run q) && !(scratchFits s q 0 && scratchFits s q 1))
  forEach [0, 1] (fun h t => t.modShare h b (fun k => { k with waiting := waits })) s

/-- Readiness, activity and waiting brought up to date. -/
def settle (s : State) : State :=
  let s := forEach (s.runs.map (·.1)) refreshReady s
  let s := forEach (s.berths.map (·.1)) refreshActive s
  forEach (s.berths.map (·.1)) refreshWaiting s

/-! ### Faults (Table 2.5) -/

/-- A store that an uncorrectable unit of a stack turned away is recorded, with SOURCE 3 (R335, R336). -/
def recordStore (unit : Nat) (s : State) : State :=
  let p := place s.glb.crustSplit s.glb.crumbSplit (unit * 32)
  recordUe p.stack p.channel (unit * 32) 3 s

/-- Codes whose handling is to stop. -/
def stopCode (code detail : Nat) : Bool :=
  [0x03, 0x06, 0x08, 0x09, 0x0D, 0x0E, 0x0F].contains code || (code = 0x07 && detail ≠ 1) || code = 0x01

/-- A run may still be killed (R46, R64). One that was killed and waits to re-run has no run to kill: a kill then has no
effect (DESIGN CHOICE, notes/assumptions/85.md). -/
def killable (r : Run) : Bool :=
  (r.phase = .waiting && r.fetched) || ((r.phase = .running || r.phase = .draining) && !r.landed)

/-- A fault of a run, with the group whose message ended it; a landed run takes none (R64). The detail of a PLACEMENT
carries the page touched, that of a masked store onto an uncorrectable stack unit the unit, which is recorded (R336). A
TILE_OVERFLOW that may re-tile does not come here (see overflowRun in Sched.lean). -/
def faultRun (q code detail word : Nat) (group : Option Nat) (s : State) : State :=
  let touched := detail / 256
  let detail := detail % 256
  let counted := code ≠ 5
  let stop := stopCode code detail || (counted && decide ((s.queue q).rerunCount ≥ 15))
  if (s.run q).landed then s
  else
  let s := if code = 2 then requestFootprint q touched s else s
  let s := if code = 9 ∧ detail = 7 ∧ touched ≠ 0 then recordStore (touched - 1) s else s
  let s := killRun q code detail word group s
  settle (if stop then stopQueue q s
    else
      let s := s.modRun q (fun r => { r with waitMig := code = 2, waitGroup := if code = 7 then group else none })
      awaitRerun q counted s)

/-- A fault of an access ends the run at a word of it; an access that must wait ends nothing. -/
def runFault (q word : Nat) (f : Flt) (s : State) : State :=
  if f = stalled then s else faultRun q f.1 f.2 word none s

/-- A kill that no word of the kernel caused (R46, R52). -/
def killQueue (q detail : Nat) (s : State) : State :=
  let r := s.run q
  if killable r then faultRun q 5 detail (lastWord r) none s else s

/-- Every killable kernel of a list of queues is killed. -/
def killAll (qs : List Nat) (detail : Nat) (s : State) : State := forEach qs (fun q t => killQueue q detail t) s

/-! ### Skipping a kernel -/

/-- Transient references of a kernel end (R236). -/
def dropSamples (q : Nat) (s : State) : State :=
  let b := (s.queue q).berth
  forEach (s.run q).samples (fun x t =>
    if x.2.2 then t.modBerth b (fun k =>
      let w := look {} k.epochs.sets x.1
      let live := w.live.map (fun v => if v.version = x.2.1 then { v with transient := v.transient - 1 } else v)
      { k with epochs := { k.epochs with sets := put {} k.epochs.sets x.1 { w with live := live } } })
    else t) s

/-- The queue whose templates name a sounding slot (R211). -/
def slotQueue (img : Image) (slot : Nat) : Option Nat :=
  (img.templates.find? (fun t => t.words.any (fun w => match decodeOp w.toNat with
    | some (.sound 1 _ k _) => k = slot
    | _ => false))).map (·.queue)

/-- A sounding slot is cleared (Table 8.2): bits [33:32], [31:0] and [223:64]. -/
def clearedSlot (_ : Slot) : Slot := {}

/-- The CLEARs that wait for a queue's kernel apply (R218). -/
def applyClears (q : Nat) (s : State) : State :=
  let b := (s.queue q).berth
  forEach ((s.berth b).slots.map (·.1)) (fun k t =>
    if slotQueue (t.imageOf b) k = some q ∧ (look {} (t.berth b).slots k).clearPend then t.modSlot b k clearedSlot
    else t) s

/-- The kernel is passed over without effects and HEAD takes a new value. -/
def passOver (q head : Nat) (s : State) : State :=
  let b := (s.queue q).berth
  let s := applyClears q (dropSamples q s)
  let s := s.modBerth b (fun t => { t with accWritten := t.accWritten.filter (fun p => p.1 ≠ q) })
  let out := (s.run q).traysOut
  let s := s.setRun q { traysOut := out }
  s.modQueue q (fun c => { c with head := head, state := .idle, skipWaiting := false })

/-- A SKIP completes when the kernel's COMMIT is pending (R58). -/
def trySkip (q : Nat) (s : State) : State :=
  let c := s.queue q
  match commitOffset s q c.kernelStart (pendingFrom c c.kernelStart) 0 with
  | none => s.modQueue q (fun k => { k with skipWaiting := true })
  | some i => passOver q ((c.kernelStart + i + 1) % 2 ^ 32) s

/-! ### Doorbells (R33, R34, R58) -/

/-- The doorbell of a queue answers: an admitted queue of a half in service (R28, R35). -/
def doorbellOpen (s : State) (q : Nat) : Bool := (s.queue q).state ≠ .disabled && !s.fenced (queueHalf q)

/-- A write of TAIL (R34). -/
def setTail (q v : Nat) (s : State) : State :=
  let c := s.queue q
  let n := ahead 32 (v % 2 ^ 32) c.head
  if n > 2 ^ c.ringLog2 ∨ n < ahead 32 c.tail c.head then s
  else
    let s := s.modQueue q (fun k => { k with tail := v % 2 ^ 32 })
    if c.state = .stopped ∧ c.skipWaiting then trySkip q s else s

/-- RESUME of a stopped queue (R58). -/
def doResume (q : Nat) (s : State) : State :=
  if (s.queue q).state = .stopped then
    s.modQueue q (fun c => { c with state := .waiting, rerunCount := 0, skipWaiting := false })
  else s

/-- SKIP of a stopped queue (R58). -/
def doSkip (q : Nat) (s : State) : State := if (s.queue q).state = .stopped then trySkip q s else s

/-- One 64-bit write of a doorbell: TAIL first, SKIP before RESUME (R34); bytes [3:0] carry TAIL when `low`. -/
def ringDoorbell (q v : Nat) (low : Bool) (s : State) : State :=
  if doorbellOpen s q then
    let s := if low then setTail q (v % 2 ^ 32) s else s
    let s := if bit v 34 then s.modQueue q (fun c => { c with eventFlags := 0 }) else s
    if bit v 33 then doSkip q s else if bit v 32 then doResume q s else s
  else s

def execTail (q v : Nat) (s : State) : Res :=
  .next (if doorbellOpen s q then setTail q (v % 2 ^ 32) s else s)

def execResume (q : Nat) (s : State) : Res := .next (ringDoorbell q (2 ^ 32) false s)

def execSkip (q : Nat) (s : State) : Res := .next (ringDoorbell q (2 ^ 33) false s)

def execClrEvents (q : Nat) (s : State) : Res := .next (ringDoorbell q (2 ^ 34) false s)

/-! ### Words of a kernel in STATE 1 -/

/-- KBEGIN of the fetched kernel is taken (R78): numeric state is the default. -/
def execKbegin (q templ request : Nat) (irq pass : Bool) (s : State) : Res :=
  let r := s.run q
  if r.phase = .waiting ∧ r.fetched ∧ r.ip = 0 ∧ r.words[0]? = some (.kbegin templ request irq pass) then
    .next (settle (s.modRun q (fun x => { x with opened := true, ip := 1, irq := irq, pass := pass
                                                 request := request, set := 8, snd := none })))
  else .next s

/-- A WAIT is satisfied (R37, R80). A kernel's WAITs are taken one at a time, in ring order (DESIGN CHOICE,
notes/assumptions/85.md). -/
def execWait (q sync threshold : Nat) (s : State) : Res :=
  let r := s.run q
  if r.phase = .waiting ∧ r.opened ∧ r.words[r.ip]? = some (.wait sync threshold)
      ∧ (s.sync sync).value ≥ threshold then
    .next (settle (s.modRun q (fun x => { x with ip := x.ip + 1 })))
  else .next s

/-! ### Words of a running kernel -/

/-- The word is the next to dispatch: STATE 2 with COMMIT not reached (R75); instructions ahead of a FENCE have
completed because FENCE itself dispatches only then (R82). -/
def nextWord (r : Run) (op : Op) : Bool := r.phase = .running && decide (r.words[r.ip]? = some op)

/-- The next word's ring index. -/
def wordIndex (r : Run) : Nat := (r.start + r.ip) % 2 ^ 32

/-- The word has dispatched. -/
def advance (q : Nat) (s : State) : State := s.modRun q (fun r => { r with ip := r.ip + 1 })

/-- Held effects of the word at position i enter the log, in order, taking n entries of the declared count (R44, R77). -/
def hold (q i n : Nat) (effs : List Held) (s : State) : Except Flt State :=
  let r := s.run q
  if r.entries + n > (s.template q).heldCount then .error (0x0F, 2)
  else
    let base := (r.held.filter (fun h => h.inst = i)).length
    let recs : List HeldRec :=
      (List.range effs.length).map (fun k => { inst := i, ord := base + k, eff := effs.getD k (.release 0 0) })
    .ok (s.modRun q (fun x => { x with held := x.held ++ recs, entries := x.entries + n }))

/-- A word's dispatch with what it does; a fault ends the run at that word, but a landed run goes on to its commit
without that word's effect (R46, R64). -/
def dispatch (q : Nat) (op : Op) (f : State → Except Flt State) (s : State) : State :=
  let r := s.run q
  if nextWord r op then
    match f s with
    | .error e => if r.landed then advance q s else faultRun q e.1 e.2 (wordIndex r) none s
    | .ok t => advance q t
  else s

def execNop (q : Nat) (s : State) : Res := .next (dispatch q .nop .ok s)

/-- SIGNAL is held (R81). -/
def execSignal (q variant sync part queue value : Nat) (s : State) : Res :=
  let r := s.run q
  .next (dispatch q (.signal variant sync part queue value)
    (hold q r.ip 1 [.signal variant sync part queue value]) s)

/-- FENCE dispatches when every instruction before it has completed (R82). -/
def execFence (q : Nat) (s : State) : Res :=
  if (s.run q).insts.all (·.done) then .next (dispatch q .fence .ok s) else .next s

/-- RECIPE changes the set that later instructions capture (R84, R85); the narrow set kept for want of a wide
footprint is noted (R220). -/
def execRecipe (q variant set wide group : Nat) (s : State) : Res :=
  let has := (s.template q).wide.isSome
  .next (dispatch q (.recipe variant set wide group) (fun t => .ok (t.modRun q (fun r => { r with
    set := recipeSet r.recSample has variant set wide group
    keptGroups := if variant = 1 ∧ bitOf r.recSample group ∧ !has then setBit r.keptGroups group true
      else r.keptGroups }))) s)

/-- SOUND turns soundings on or off for later PROBs (R87). -/
def execSound (q variant period slot : Nat) (threshold : BitVec 32) (s : State) : Res :=
  .next (dispatch q (.sound variant period slot threshold) (fun t => .ok (t.modRun q (fun r => { r with
    snd := if variant = 0 then none else some { period := period, slot := slot, thr := threshold } }))) s)

/-- EPOCH is held (R104). -/
def execEpoch (q variant set version : Nat) (s : State) : Res :=
  let r := s.run q
  .next (dispatch q (.epoch variant set version) (hold q r.ip 1 [.epoch variant set version]) s)

/-- Pages that hold an element of a tensor (R103). -/
def tensorPages (t : Tensor) : List Nat :=
  if t.count = 0 then []
  else (t.rows.flatMap (fun e =>
    let lo := (t.base * 8 + e * elemBits t.fmt) / 8 / 2 ^ 21
    let hi := (t.base * 8 + (e + t.e 0) * elemBits t.fmt - 1) / 8 / 2 ^ 21
    (List.range (hi + 1 - lo)).map (· + lo))).eraseDups

/-- PLACE is held with the pages that its descriptor spans (R103). -/
def execPlace (q region tier : Nat) (s : State) : Res :=
  let r := s.run q
  .next (dispatch q (.place region tier) (fun t =>
    match t.readDesc (t.ctx q) (region * 64) with
    | .error f => .error f
    | .ok d =>
      if !opAligned [d] then .error (0x0F, 5)
      else hold q r.ip 1 [.place tier (tensorPages (tensorOf d.bits))] t) s)

/-- COMMIT ends the kernel: it drains (R79). -/
def execCommit (q : Nat) (s : State) : Res :=
  if nextWord (s.run q) .commit then
    .next ((advance q s).modRun q (fun r => { r with phase := .draining }))
  else .next s

/-! ### Fetching -/

/-- The slot that a queue serves as primary (true) or alternate (false), while it is open (R377). -/
def openSlotOf (s : State) (q : Nat) : Option (Nat × Bool) :=
  let b := (s.queue q).berth
  ((s.berth b).reqs.find? (fun p => p.2.isOpen && (p.2.primary = q || (p.2.altValid && p.2.alt = q)))).map
    (fun p => (p.1, p.2.primary = q))

/-- What a switch does to the kernel that a queue reaches in STATE 1 (R381): none, the primary goes idle at TAIL, the
alternate skips it. `passReq` is the REQUEST of a PASS kernel. -/
inductive BakeSkip where
  | none | toTail (slot : Nat) | one (slot : Nat) (isPass : Bool)
  deriving DecidableEq, Repr

def bakeSkip (s : State) (q : Nat) (passReq : Option Nat) (started : Bool) : BakeSkip :=
  match openSlotOf s q with
  | none => .none
  | some (k, prim) =>
    let r := look {} (s.berth (s.queue q).berth).reqs k
    if !r.switched ∨ started then .none
    else if prim then
      if passReq = some k ∧ !r.priDone then .toTail k else .none
    else if r.started > r.switchPass then .none
    else if passReq = some k then (if r.altSkipped < r.switchPass then .one k true else .none)
    else .one k false

/-- The skip applies; false when the kernel's COMMIT is not yet pending. -/
def applyBake (q start : Nat) (x : BakeSkip) (s : State) : Option State :=
  let c := s.queue q
  match x with
  | .none => none
  | .toTail k => some ((passOver q c.tail s).modReq c.berth k (fun r => { r with priDone := true }))
  | .one k p =>
    match commitOffset s q start (pendingFrom c start) 0 with
    | none => some s
    | some i => some ((passOver q ((start + i + 1) % 2 ^ 32) s).modReq c.berth k (fun r =>
        { r with altSkipped := if p then r.altSkipped + 1 else r.altSkipped }))

/-- A half admits kernels: it is up, not fenced, not in split, its clocks run, after a relock through step 8 of Table 1.6,
no part reset waits, and no commit is halted or resuming (R23, R24, R46, R468). -/
def admits (s : State) (h : Nat) : Bool :=
  s.halfUp h && !s.fenced h && !s.glb.split && s.clk.fOn && (s.clk.serdes || s.glb.relockCount = 0) &&
    (s.half h).chair ≠ .split && s.twc.resetWait = 0 &&
    !s.runs.any (fun r => r.2.halted || r.2.resumed)

/-- A queue may fetch: its berth is live and not halted (R361, R491). -/
def mayFetch (s : State) (q : Nat) : Bool :=
  let b := (s.queue q).berth
  admits s (queueHalf q) && ((s.berth b).parkState = .live || (s.berth b).parkState = .restoring) &&
    !(s.berth b).fenceParked && (s.berth b).removing = 0 && !bitOf s.dbg.halted b

/-- The fetched kernel becomes the queue's current kernel, in STATE 1. -/
def installRun (q start templ : Nat) (ops : List Op) (s : State) : State :=
  let kb := ops.headD .nop
  let r := s.run q
  let base : Run := { r with words := ops, start := start, templ := templ, fetched := true, opened := false, ip := 0
                             phase := .waiting, waitMig := false, waitGroup := none, wide := false }
  let base := match kb with
    | .kbegin _ req irq pass => { base with request := req, irq := irq, pass := pass }
    | _ => base
  (s.setRun q base).modQueue q (fun c => { c with state := .waiting, kernelStart := start })

/-- A fetch that found a word that differs, INSTRUCTION detail 1 (R40), or that cannot be read. -/
def fetchFault (q start i : Nat) (f : Flt) (s : State) : State :=
  let s := s.modRun q (fun r => { r with start := start, fetched := true, phase := .waiting })
  let s := s.modQueue q (fun c => { c with kernelStart := start })
  faultRun q f.1 f.2 ((start + i) % 2 ^ 32) none s

/-- The queue fetches its next kernel (R32, R40). -/
def execKernelFetch (q : Nat) (s : State) : Res :=
  let c := s.queue q
  if c.state = .idle ∧ pendingFrom c c.head ≠ 0 ∧ mayFetch s q then
    let passReq := match decodeOp (s.ringWord q c.head) with
      | some (.kbegin _ r _ true) => some r
      | _ => none
    match applyBake q c.head (bakeSkip s q passReq false) s with
    | some t => .next (settle t)
    | none =>
      let fresh := (s.modQueue q (fun x => { x with rerunCount := 0 })).setRun q
        { traysOut := (s.run q).traysOut }
      match fetchAt s q c.head with
      | .short => .next s
      | .bad i _ => .next (fetchFault q c.head i (0x0F, 1) fresh)
      | .fault i f => .next (fetchFault q c.head i f fresh)
      | .good t ops => .next (settle (installRun q c.head t ops fresh))
  else .next s

/-- A group record lets the kernel re-run: re-formed, or excluded or without quorum so that the run stops (R429). -/
def groupSettled (s : State) (g : Option Nat) : Bool :=
  match g with
  | none => true
  | some n => match s.findGroup n with
    | none => true
    | some (b, i) => (s.group b i).state ≠ .reforming

/-- A killed kernel restarts at its KBEGIN (R55) once its fault's handling has completed: migrations done, trays
returned, the group re-formed. -/
def execKernelRerun (q : Nat) (s : State) : Res :=
  let c := s.queue q
  let r := s.run q
  if c.state = .waiting ∧ r.phase = .killed ∧ r.traysOut = [] ∧ mayFetch s q
      ∧ !(r.waitMig && footprintBusy s (s.ctx q)) ∧ groupSettled s r.waitGroup then
    match fetchAt s q c.kernelStart with
    | .short => .next s
    | .bad i _ => .next (fetchFault q c.kernelStart i (0x0F, 1) s)
    | .fault i f => .next (fetchFault q c.kernelStart i f s)
    | .good t ops => .next (settle (installRun q c.kernelStart t ops s))
  else .next s

/-- The trays of a killed run return to the scheduler (R52, R299). -/
def execKillTraysReturned (q : Nat) (s : State) : Res :=
  let out := (s.run q).traysOut
  let s := forEach out (fun p t => returnTray p.1 p.2 t) s
  .next (settle (s.modRun q (fun r => { r with traysOut := [] })))

end Sys2Proof.Machine
end

