-- ==== Sys2Proof/Machine/Work.lean ====
section
/-! DEFINITION. Work items: tiles, batches and stripes; how they are shaped, dealt, started and stolen
(05_matrix_engines.md R137 to R148; 06_row_engine.md R154; 07_attention.md R196; 10_stripes.md R252, R253;
03_instructions.md R527). -/
namespace Sys2Proof.Machine

/-! ### Engines of a crew -/

/-- Kinds of engines that work items run on. -/
inductive EngKind where
  | mxe | rwe | peel | stripe
  deriving DecidableEq, Repr

def engKind : Op → Option EngKind
  | .prob _ => some .mxe
  | .attn _ => some .mxe
  | .rowop _ => some .rwe
  | .peel _ => some .peel
  | .stripe _ => some .stripe
  | _ => none

def insertNat (a : Nat) : List Nat → List Nat
  | [] => [a]
  | b :: bs => if a ≤ b then a :: b :: bs else b :: insertNat a bs

/-- A list in rising order. -/
def sortNat (l : List Nat) : List Nat := l.foldr insertNat []

/-- Engines of a kind that work for a run, by rising part-wide index. -/
def crewEngines (s : State) (r : Run) : EngKind → List Nat
  | .mxe => (sortNat r.crew).flatMap (fun c => ((List.range 4).map (fun m => 4 * c + m)).filter (fun m => (s.mxe m).inCrew))
  | .rwe => sortNat r.crew
  | .peel => sortNat r.crew
  | .stripe => sortNat ((r.crew.map clusterOf).eraseDups)

/-- The core of an engine, for the levels of Table 5.3. -/
def engCore : EngKind → Nat → Nat
  | .mxe, e => e / 4
  | .stripe, e => 8 * e
  | _, e => e

/-- Work items of an instruction that no engine has started. -/
def untaken (i : Inst) (eng : Nat) : List Work := i.work.filter (fun w => w.eng = eng && !w.started)

/-! ### Tiling controls as the run sampled them (R152) -/

/-- CLU_TILE_CTRL as a number. -/
def tileCtrlOf (c : Cluster) : Nat :=
  boolNat c.stealEn + 2 * boolNat c.stealXEn + 16 * c.stealMinX + 256 * boolNat c.planReuseEn

def runCtrl (r : Run) (cluster : Nat) : Nat := look 0x143 r.tileCtrl cluster

/-! ### Steals (R145, R253) -/

/-- Level of Table 5.3 at which an engine sees another. -/
def stealLevel (thief victim : Nat) : Nat :=
  if thief = victim then 0
  else if clusterOf thief = clusterOf victim then 1
  else if coreHalf thief = coreHalf victim then 2
  else 3

/-- The victim of an engine for an instruction: by level, then most untaken items, then the lowest index. -/
def findVictim (s : State) (r : Run) (i : Inst) (k : EngKind) (eng : Nat) : Option Nat :=
  let tc := engCore k eng
  if !bit (runCtrl r (clusterOf tc)) 0 then none
  else
    let cands := fun lvl => ((crewEngines s r k).filter (fun v => v ≠ eng)).filter (fun v =>
      let vc := engCore k v
      let n := (untaken i v).length
      let same := if k = .stripe ∧ stealLevel tc vc ≤ 2 then 2 else stealLevel tc vc
      same = lvl && (if lvl = 3 then
          bit (runCtrl r (clusterOf tc)) 1 && bit (runCtrl r (clusterOf vc)) 1 &&
            decide (n ≥ field (runCtrl r (clusterOf vc)) 4 4) && decide (n ≥ 1)
        else decide (n ≥ 1)))
    let best := fun (l : List Nat) => l.foldl (fun (b : Option Nat) v => match b with
      | none => some v
      | some x => if (untaken i v).length > (untaken i x).length then some v else b) none
    firstSome (fun lvl => best (cands lvl)) [0, 1, 2, 3]

/-! ### Starting -/

/-- Trays that the run was handed still scrub (R301). -/
def crewScrubbing (s : State) (r : Run) : Bool := r.trayMap.any (fun p => (s.tray p.1 p.2.1).scrubbing)

/-- An engine runs something for the run, or is busy. -/
def engBusy (s : State) (r : Run) (k : EngKind) (e : Nat) : Bool :=
  match k with
  | .mxe => (s.mxe e).busy
  | .rwe => (s.core e).rweBusy
  | .stripe => (s.cluster e).strBusy
  | .peel => r.insts.any (fun i => engKind i.op = some .peel && i.work.any (fun w => w.eng = e && w.started))

/-- An engine starts an item: its status shows it. -/
def engineOn (q : Nat) (i : Inst) (item eng : Nat) (stolen : Bool) (s : State) : State :=
  match engKind i.op with
  | some .mxe =>
    let rows := match i.op with | .attn o => !o.back | _ => false
    s.modMxe eng (fun m => { m with
      busy := true, stolen := stolen, stream := rows
      streamHeirloom := rows && setHeirloom i.set, streamBase2 := rows && (s.run q).base2 })
  | some .rwe => s.modCore eng (fun c => { c with
      rweBusy := true, rweHeirloom := setHeirloom i.set, rweBase2 := (s.run q).base2 })
  | some .stripe => s.modCluster eng (fun c => { c with
      strBusy := true, strStolen := stolen, strHs := i.shape.1, strStripe := item
      strZc := match i.op with | .stripe o => o.zc | _ => false })
  | _ => s

/-- Spans of bytes cut into pieces of at most 4 KiB. -/
def pieces (a n : Nat) : List (Nat × Nat) :=
  (List.range (cdiv n 4096)).map (fun k => (a + 4096 * k, min 4096 (n - 4096 * k)))

/-- Bytes that row r of a tensor occupies, and its block exponents. -/
def rowBytes (t : Tensor) (r : Nat) : List (Nat × Nat) :=
  let e := t.rows.getD r 0
  let lo := (t.base * 8 + e * elemBits t.fmt) / 8
  let hi := cdiv (t.base * 8 + (e + t.e 0) * elemBits t.fmt) 8
  pieces lo (hi - lo) ++ (if isBlock t.fmt then [(t.scaleBase + e / 32, cdiv (t.e 0) 32)] else [])

/-- Rows of batch b. -/
def batchRows (t : Tensor) (b : Nat) : List Nat := (List.range (min 32 (t.rowCount - 32 * b))).map (· + 32 * b)

/-- The source of a PEEL is a region that its template declares in tier Shelf (R346). -/
def onShelf (c : Ctx) (t : Tensor) : Bool :=
  !t.remote && (match c.find readRole t.base with
    | some u => u.tier = .shelf
    | none => false)

/-- The rows of a zero-compressed map whose records move with batch b: that of the batch that holds a row's last position
(R259; notes/assumptions/38.md). -/
def zcMoved (t : Tensor) (b : Nat) : List Nat :=
  ((batchRows t b).filter (fun r => r % t.e 1 + 1 = t.e 1)).map (· / t.e 1)

/-- Spans of bytes that a PEEL's batch reads, in row order, the strip's spill record last. -/
def batchSpans (c : Ctx) (i : Inst) (b : Nat) : List (Nat × Nat) :=
  let t := nth (tensors i.descs) 0
  let spill := fun k => (descOf c.img (i.descs.getD k {}).va).bind (·.spill)
  if isZc c.img (i.descs.getD 0 {}) then (zcMoved t b).map (fun r => (zcSlot t r, zcSlotBytes t))
  else (batchRows t b).flatMap (rowBytes t) ++ (match i.op, spill 0, spill 1 with
    | .peel o, some (off, _), some _ => if o.variant = 0 then [(t.scaleBase + off + 512 * b, 512)] else []
    | _, _, _ => [])

/-- Reads of a PEEL's batch from a remote source (R405, R527); from the Shelf, the 64 KiB units that hold what it reads
(R353). -/
def batchReads (c : Ctx) (i : Inst) (b : Nat) : List (Nat × Nat) :=
  let t := nth (tensors i.descs) 0
  if onShelf c t then
    ((batchSpans c i b).flatMap (fun p =>
      (List.range ((p.1 + p.2 - 1) / 65536 + 1 - p.1 / 65536)).map (· + p.1 / 65536))).eraseDups.map
      (fun u => (u * 65536, 65536))
  else if t.remote then batchSpans c i b
  else []

/-- The reads of a batch go out: READ requests (R405), or reads of the Shelf controller (R353). -/
def sendReads (q j item : Nat) (s : State) : State :=
  let i := (s.run q).insts.getD j {}
  let t := nth (tensors i.descs) 0
  let c := s.queue q
  let l := batchReads (s.ctx q) i item
  let s := s.modInst q j (fun x => { x with readsLeft := x.readsLeft ++ l })
  if !t.remote then s
  else forEach l (fun p u => request (queueHalf q) (.readFor q j p.1)
    { type := 0x2, vl := 1 + c.vlClass, dstPart := t.part, srcBerth := c.berth, addr := p.1, length := p.2 } u) s

/-- Item `item` of instruction j starts on an engine. -/
def startItem (q j item eng : Nat) (stolen : Bool) (s : State) : State :=
  let i := (s.run q).insts.getD j {}
  let s := s.modInst q j (fun x => { x with work := x.work.map (fun w =>
    if w.item = item then { w with eng := eng, started := true, stolen := stolen } else w) })
  let s := if engKind i.op = some .peel then sendReads q j item s else s
  engineOn q i item eng stolen s

/-- The instruction at which an idle engine finds work, in dispatch order: its own untaken items first, then a steal
within the instruction, before a newer one (R144). -/
def findWork (s : State) (r : Run) (k : EngKind) (eng : Nat) : Option (Nat × Option Nat) :=
  firstSome (fun j =>
    let i := r.insts.getD j {}
    if i.planned ∧ !i.done ∧ engKind i.op = some k then
      if (untaken i eng) ≠ [] then some (j, none)
      else (findVictim s r i k eng).map (fun v => (j, some v))
    else none) (List.range r.insts.length)

/-- The engine that an idle engine would steal from. -/
def findVictimOf (s : State) (r : Run) (k : EngKind) (eng : Nat) : Option Nat := (findWork s r k eng).bind (·.2)

/-- An idle engine starts its own next item. -/
def startOwn (q : Nat) (k : EngKind) (eng : Nat) (s : State) : State :=
  let r := s.run q
  if engBusy s r k eng then s
  else match findWork s r k eng with
    | some (j, none) =>
      match untaken (r.insts.getD j {}) eng with
      | w :: _ => startItem q j w.item eng false s
      | [] => s
    | _ => s

/-- Every idle engine of the crew starts its own next item, once the crew's scrubs have completed. An engine whose steal
target is taken meanwhile turns to its own items of a newer instruction, so the engines look again, once for each
instruction. -/
def startIdle (q : Nat) (s : State) : State :=
  let r := s.run q
  if crewScrubbing s r then s
  else forEach (List.range (r.insts.length + 1)) (fun _ t =>
    forEach [EngKind.mxe, .rwe, .peel, .stripe] (fun k t =>
      forEach (crewEngines t r k) (fun e u => startOwn q k e u) t) t) s

/-- An idle engine steals: the victim's last untaken item (R145). -/
def steal (q : Nat) (k : EngKind) (eng : Nat) (s : State) : State :=
  let r := s.run q
  if engBusy s r k eng || crewScrubbing s r || !(crewEngines s r k).contains eng then s
  else match findWork s r k eng with
    | some (j, some v) =>
      match (untaken (r.insts.getD j {}) v).getLast? with
      | some w =>
        let s := startItem q j w.item eng true s
        let s := if k = .mxe then s.modCore (eng / 4) (fun c => { c with steals := wrapAdd 64 c.steals 1 }) else s
        startIdle q s
      | none => s
    | _ => s

/-- An MXE with an empty queue claims an untaken tile (R145). -/
def execTileSteal (mxe : Nat) (s : State) : Res :=
  .next (match (s.core (mxe / 4)).crew with
    | some q => steal q .mxe mxe s
    | none => s)

/-- An idle RWE, or Peel, claims an untaken batch (R154, R527). -/
def execBatchSteal (core : Nat) (peel : Bool) (s : State) : Res :=
  .next (match (s.core core).crew with
    | some q => steal q (if peel then .peel else .rwe) core s
    | none => s)

/-- Runs that a cluster's Stripe engine works for, oldest queue first. -/
def clusterRuns (s : State) (cluster : Nat) : List Nat :=
  (((List.range 8).filterMap (fun k => (s.core (8 * cluster + k)).crew)).eraseDups)

/-- A Stripe engine whose dealt stripes have all started claims one (R253). -/
def execStripeSteal (cluster : Nat) (s : State) : Res :=
  .next (match (clusterRuns s cluster).find? (fun q => (findVictimOf s (s.run q) .stripe cluster).isSome) with
    | some q => steal q .stripe cluster s
    | none => s)

/-! ### Shapes -/

/-- tn of choose_tile. -/
def tileCols (n : Nat) : Nat := if n ≤ 32 then 32 else if n ≤ 64 then 64 else if n ≤ 128 then 128 else 256

/-- choose_tile (R137). -/
def chooseTile (m n e : Nat) : Nat × Nat :=
  let tn := tileCols n
  let few := fun tm => cdiv m tm * cdiv n tn < e
  if !few 128 then (128, tn) else if !few 64 then (64, tn) else (32, tn)

/-- choose_stripe (R252): halved while too many rows or too few stripes; five halvings reach 1. -/
def chooseStripe (o : StripeOps) (g : Conv) (fit e : Nat) : Nat → Nat → Nat
  | 0, hs => hs
  | k + 1, hs =>
    if hs > 1 ∧ (stripeRows o g hs > fit ∨ cdiv g.ho hs < e) then chooseStripe o g fit e k (hs / 2) else hs

/-- Rows of an attention tile (R196). -/
def attnTile (rows e : Nat) : Nat := if cdiv rows 64 < e then 32 else 64

/-- Chunk of key rows (R188). -/
def attnKb (d : AttnDims) : Nat := if max d.dh d.dv ≤ 128 then 128 else 64

/-- Bands dealt round-robin over engines: band b's items, for each band in turn (R144). -/
def dealBands (engines : List Nat) (bands per : Nat) : List Work :=
  (List.range bands).flatMap (fun b => (List.range per).map (fun c =>
    { item := b * per + c, eng := engines.getD (b % engines.length) 0 }))

/-- Stripes dealt in contiguous shares (R253). -/
def dealShares (engines : List Nat) (n : Nat) : List Work :=
  (List.range engines.length).flatMap (fun i =>
    let lo := i * n / engines.length
    let hi := (i + 1) * n / engines.length
    (List.range (hi - lo)).map (fun k => { item := lo + k, eng := engines.getD i 0 }))

/-- Shape, items and table entries of a planned instruction (R136 to R139). -/
def planOf (s : State) (q : Nat) (i : Inst) : (Nat × Nat) × List Work × Nat :=
  let r := s.run q
  let ts := tensors i.descs
  match i.op with
  | .prob o =>
    let d := probDims o ts
    let es := crewEngines s r .mxe
    let sh := chooseTile d.1 d.2.1 es.length
    let bands := cdiv d.1 sh.1
    let cols := cdiv d.2.1 sh.2
    (sh, dealBands es bands cols, bands + cols + cdiv d.2.2 (chunkLen (nth ts 0).fmt) + 3)
  | .attn o =>
    let d := attnDims ts
    let es := crewEngines s r .mxe
    let tq := attnTile d.mq es.length
    let tk := attnTile d.nk es.length
    let kb := attnKb d
    if o.back then
      let na := cdiv d.nk tk
      let nb := cdiv d.mq tq
      ((tq, tk), dealBands es (na + nb) 1, na + cdiv d.mq kb + 2 + (nb + cdiv d.nk kb + 2))
    else ((tq, 0), dealBands es (cdiv d.mq tq) 1, cdiv d.mq tq + cdiv d.nk kb + 2)
  | .rowop _ =>
    let n := cdiv (nth ts 0).rowCount 32
    ((32, 0), dealBands (crewEngines s r .rwe) n 1, n + 1)
  | .peel o =>
    let n := cdiv (if o.variant = 2 then (nth ts 1).e 1 else (nth ts 1).rowCount) 32
    ((32, 0), dealBands (crewEngines s r .peel) n 1, n + 1)
  | .stripe o =>
    let g := convOf o ts
    let es := crewEngines s r .stripe
    let hs := chooseStripe o g (rowsFit o g (s.template q).lineBufs (nth ts 0).fmt) es.length 5 32
    let n := cdiv g.ho hs
    ((hs, 0), dealShares es n, n + 1)
  | _ => ((0, 0), [], 0)

/-- Tiles of a sounded PROB that are sampled (R212): q is the slot's SEQ at the start plus the sounded PROBs before. -/
def sampledTiles (tiles period qq : Nat) : List Nat :=
  (List.range tiles).filter (fun t => (t + qq) % 2 ^ period = 0)

/-- A PROB is sounded (R211): soundings on, both operands block-scaled, neither turned to its wide descriptor. -/
def isSounded (i : Inst) : Bool :=
  match i.op, i.snd with
  | .prob o, some _ =>
    let ts := tensors i.descs
    !o.frozen && !i.zero && isBlock (nth ts 0).fmt && isBlock (nth ts 1).fmt &&
      (i.descs.getD 0 {}).va = o.a * 64 && (i.descs.getD 1 {}).va = o.b * 64
  | _, _ => false

/-- TRAY_OWNER of a run, noted in the core whose tray it was (R297, Table 12.4). -/
def noteTrayFault (detail : Nat) (s : State) : State :=
  s.modCore (detail / 256 % 256) (fun k => { k with
    tfTray := detail % 16, tfFound := detail / 16 % 16, tfAccessor := detail / 2 ^ 16, tfCount := satAdd 32 k.tfCount 1 })

/-- A fault that ends a run at a word; a TRAY_OWNER is noted first. -/
def trayFault (q word : Nat) (f : Flt) (s : State) : State :=
  runFault q word f (if f.1 = 0x03 then noteTrayFault f.2 s else s)

/-- The Baker core finishes an instruction's plan and deals its work (R136, R139). -/
def execPlanReady (q : Nat) (s : State) : Res :=
  let r := s.run q
  match r.insts.findIdx? (fun i => (engKind i.op).isSome && !i.planned && !i.zero && !i.done) with
  | none => .next s
  | some j =>
    if r.phase ≠ .running ∧ r.phase ≠ .draining then .next s
    else
      let i := r.insts.getD j {}
      let lead := r.crew.headD 0
      match s.trayBar q lead 7 with
      | some f => .next (trayFault q i.word f s)
      | none =>
      let (shape, work, _) := planOf s q i
      let cl := clusterOf lead
      let e := (crewEngines s r ((engKind i.op).getD .mxe)).length
      let key : PlanKey := { berth := (s.queue q).berth, templ := r.templ, word := ahead 32 i.word r.start
                             extents := (tensors i.descs).flatMap (·.ext), set := i.set, crew := [e] }
      let same := fun (k : PlanKey) => k.berth = key.berth && k.templ = key.templ && k.word = key.word
      let reuse := bit (runCtrl r cl) 8 && (s.cluster cl).planCache.any (fun k =>
        same k && k.extents = key.extents && k.crew = key.crew)
      let s := s.modCluster cl (fun c => { c with
        plans := wrapAdd 32 c.plans 1
        reused := if reuse then wrapAdd 32 c.reused 1 else c.reused
        planCache := key :: c.planCache.filter (fun k => !same k) })
      let s := s.modInst q j (fun x => { x with planned := true, shape := shape, work := work })
      let i := (s.run q).insts.getD j {}
      let s := if isSounded i then
          match i.snd with
          | some c =>
            let r := s.run q
            let before := ((r.insts.take j).filter (fun x => isSounded x && (match x.snd with
              | some d => d.slot = c.slot
              | none => false))).length
            let qq := look 0 r.sndSeq c.slot + before
            let new := (sampledTiles work.length c.period qq).map (fun t => ({ inst := j, tile := t } : SndWork))
            s.modRun q (fun x => { x with
              sounds := x.sounds ++ new
              sndCount := put 0 x.sndCount c.slot (look 0 x.sndCount c.slot + 1) })
          | none => s
        else s
      .next (startIdle q s)

/-! ### Completion -/

/-- Engine time of a class is added to a berth's counters (R368). -/
def addCycles (b cls n : Nat) (s : State) : State :=
  s.modBerth b (fun t => { t with cycles := put 0 t.cycles cls (wrapAdd 64 (look 0 t.cycles cls) n) })

/-- The item that an engine of a kind runs: queue, instruction, work. -/
def runningItem (s : State) (qs : List Nat) (k : EngKind) (eng : Nat) : Option (Nat × Nat × Work) :=
  firstSome (fun q =>
    let r := s.run q
    firstSome (fun j =>
      let i := r.insts.getD j {}
      if engKind i.op = some k then (i.work.find? (fun w => w.eng = eng && w.started)).map (fun w => (q, j, w))
      else none) (List.range r.insts.length)) qs

/-- An item completes: it leaves the work list, its engine goes idle and takes its next item, a Stripe engine that of
another run where this one has none; the instruction completes with its last item. -/
def finishItem (q j : Nat) (w : Work) (s : State) : State :=
  let i := (s.run q).insts.getD j {}
  let s := idleEngine i.op w s
  let s := s.modInst q j (fun x =>
    let rest := x.work.filter (fun v => v.item ≠ w.item)
    { x with work := rest, doneItems := x.doneItems ++ [w.item], done := rest.isEmpty })
  let s := startIdle q s
  match i.op with
  | .stripe _ => forEach ((clusterRuns s w.eng).filter (· ≠ q)) startIdle s
  | _ => s

/-- Cycles of an item that completes on an engine, its last ones, in which the engine's next item already runs, apart
(R151, R255, R525). -/
def finishCounted (q j : Nat) (w : Work) (k : EngKind) (cls n tail : Nat) (s : State) : State :=
  let b := (s.queue q).berth
  let s := finishItem q j w (addCycles b cls n s)
  if engBusy s (s.run q) k w.eng then s else addCycles b cls tail s

/-- A fault that an item's accesses raise ends the run at its instruction. A landed run goes on to its commit without
what the item would have left (R46, R64). -/
def itemFault (q j : Nat) (w : Work) (f : Flt) (s : State) : State :=
  if f ≠ stalled ∧ (s.run q).landed then finishItem q j w s
  else trayFault q ((s.run q).insts.getD j {}).word f s

end Sys2Proof.Machine
end

