-- ==== Sys2Proof/Machine/Sched.lean ====
section
/-! DEFINITION. The scheduler (15_berths_scheduling.md R371 to R376): order, crews, trays and their roles
(12_trays_harbour.md R298, R301; 05_matrix_engines.md R134, R135, R526), pre-emption, re-tiling (R143), request slots and
the deadline monitor (R377 to R382), sounding slots' CLEAR (08_soundings.md R218). -/
namespace Sys2Proof.Machine

/-! ### Cores that qualify (R372) -/

/-- A core is in service: its half is not fenced, its domain and its cluster fabric are not gated (Table 19.3). -/
def coreInService (s : State) (c : Nat) : Bool :=
  !s.fenced (coreHalf c) && !bitOf s.twc.gated c && !bitOf s.twc.gated (256 + clusterOf c)

/-- Declared tray count in force: the wide one for a run that takes its wide footprint. -/
def trayCountOf (s : State) (q : Nat) (wide : Bool) : Nat :=
  let t := s.template q
  match wide, t.wide with
  | true, some w => w.trays
  | _, _ => t.trays

/-- A tray may be handed to a kernel of berth b (R372, R526): free; parked for another berth; held for its own berth
in a role that the template names. -/
def mayHand (s : State) (b : Nat) (t : Template) (c k : Nat) : Bool :=
  let y := s.tray c k
  (y.owner = 0 && !y.scrubbing) || (y.owner = 0x9 && y.parkedBy.isSome && y.parkedBy ≠ some b) ||
    (y.owner = 0xA && y.berth = b && t.heldTrays.any (fun h => h.1 = k))

/-- The trays that a core would hand, in the order of R526: 14, 15, then the lowest-numbered. -/
def handOrder (s : State) (b : Nat) (t : Template) (c : Nat) : List Nat :=
  ([14, 15] ++ List.range 14).filter (mayHand s b t c)

/-- A core qualifies for a queue's kernel (R372). -/
def qualifies (s : State) (q c : Nat) (wide : Bool) : Bool :=
  let b := (s.queue q).berth
  bitOf (s.berth b).layout.cores c && coreInService s c && (s.core c).crew = none &&
    (s.tray c 14).owner = 0 && (s.tray c 15).owner = 0 &&
    decide ((handOrder s b (s.template q) c).length ≥ trayCountOf s q wide)

/-- Accumulators that a template's words name: by ACC_TRAY, or by a declared base inside the window. -/
def namedAccs (img : Image) (t : Template) : List AccDecl :=
  let vas := (t.words.map (fun w => (decodeOp w.toNat).getD .nop)).flatMap opSlots
  img.accs.filter (fun a =>
    vas.any (fun va => match descOf img va with
      | none => false
      | some d =>
        let x := (tensorOf d.bits.toNat).base
        (decide (a.window ≤ x) && decide (x < a.window + 4 * a.words)) || d.dest = .accum a.tray))

/-- Pinned trays of its own berth that the kernel names, as (core, tray). -/
def namedTrays (s : State) (q : Nat) : List (Nat × Nat) :=
  let img := s.imageOf (s.queue q).berth
  let t := s.template q
  (namedAccs img t).flatMap (fun a => a.cores.map (fun c => (c, a.tray))) ++
    (img.heldTrays.filter (fun h => t.heldTrays.any (fun x => x.1 = h.tray))).flatMap (fun h =>
      h.cores.map (fun c => (c, h.tray)))

/-- A tray that the kernel names is parked: the kernel stays in STATE 1 (R376). -/
def namedParked (s : State) (q : Nat) : List (Nat × Nat) :=
  (namedTrays s q).filter (fun p => (s.tray p.1 p.2).parkedBy = some (s.queue q).berth)

/-- Qualifying cores in the order of R372. -/
def qualifying (s : State) (q : Nat) (wide : Bool) : List Nat :=
  let h := queueHalf q
  let own := (List.range 128).map (· + 128 * h)
  let other := (List.range 128).map (· + 128 * (1 - h))
  (own ++ other).filter (fun c => qualifies s q c wide)

/-! ### Order (R371) -/

/-- Kernel a stands before kernel c. -/
def before (s : State) (a c : Nat) : Bool :=
  let ba := (s.queue a).berth
  let bc := (s.queue c).berth
  if ba = bc then
    let ra := (s.run a).readyAt
    let rc := (s.run c).readyAt
    decide (ra < rc) || (ra = rc && decide (a < c))
  else if behind s ba bc then true
  else if behind s bc ba then false
  else decide (ba < bc)

/-- Harbour footprint of a kernel in a half: scratch, or a use of a region homed there. -/
def harbourFoot (s : State) (q h : Nat) : Bool :=
  decide (needScratch s q h ≠ 0) ||
    (s.ctx q).uses.any (fun u => u.tier = .harbour && ((s.ctx q).region u).home = h)

/-- A gated slice group keeps the kernel in STATE 1 (R315; notes/assumptions/33.md). -/
def gateHolds (s : State) (q : Nat) : Bool :=
  [0, 1].any (fun h => (s.harbour h).gated ≠ 0 &&
    (harbourFoot s q h || (queueHalf q = h && (harbourFoot s q 0 || harbourFoot s q 1))))

/-- A PASS kernel of an alternate queue stays in STATE 1 until the switch (R381). -/
def passHeld (s : State) (q : Nat) : Bool :=
  let r := s.run q
  match openSlotOf s q with
  | some (k, false) => r.pass && r.request = k && !r.passStarted && !(look {} (s.berth (s.queue q).berth).reqs k).switched
  | _ => false

/-- The kernel may leave STATE 1, its crew apart. -/
def mayLeave (s : State) (q : Nat) : Bool :=
  ready s q && admits s (queueHalf q) && !passHeld s q && !gateHolds s q && !(s.berth (s.queue q).berth).fenceParked

/-- The kernel can have its crew now. -/
def crewNow (s : State) (q : Nat) : Bool :=
  namedParked s q = [] && decide ((qualifying s q (wideNow s q)).length ≥ (s.template q).coresMin)

/-! ### Handing trays (R526) -/

/-- A tray is handed to an owner. One last held by another berth is scrubbed, and its BERTH changes when the scrub is
done: a kill before then leaves it to be scrubbed again (R301). -/
def handTray (b c t owner : Nat) (s : State) : State :=
  s.modTray c t (fun k => { k with owner := owner, scrubbing := k.berth ≠ b, scrubFor := if k.berth ≠ b then b else 0 })

/-- The handed tray is one that the berth holds (R300). -/
def isHeld (s : State) (b c k : Nat) : Bool := (s.tray c k).owner = 0xA && (s.tray c k).berth = b

/-- Owners of the handed trays by role, of which `held` are held ones, and the number of MXE slots. -/
def roleOwners (t : Template) (lead stripes rows : Bool) (held hand : List Nat) : List (Nat × Nat) × Nat :=
  let plan := if lead then hand.filter (· = 14) else []
  let rest := hand.filter (fun k => !held.contains k && !plan.contains k)
  let nl := if stripes then t.lineBufs + 1 else 0
  let nr := if rows then t.rowBufs else 0
  let line := rest.take nl
  let row := (rest.drop nl).take nr
  let mat := sortNat ((rest.drop nl).drop nr)
  let slots := min 4 (mat.length / 3)
  (plan.map (fun k => (k, 7)) ++ line.map (fun k => (k, 8)) ++ row.map (fun k => (k, 5)) ++
    held.map (fun k => (k, ((t.heldTrays.find? (fun h => h.1 = k)).map (·.2)).getD 6)) ++
    (List.range mat.length).map (fun i => (mat.getD i 0, if i / 3 < slots then i / 3 + 1 else 6)), slots)

def usesStripe (ops : List Op) : Bool := ops.any (fun o => match o with | .stripe _ => true | _ => false)
def usesRows (ops : List Op) : Bool :=
  ops.any (fun o => match o with | .rowop r => r.variant = 1 || r.variant = 2 | _ => false)

/-- A core joins a run's crew: trays handed, engines in the crew. -/
def joinCore (q c : Nat) (lead stripes : Bool) (s : State) : State :=
  let b := (s.queue q).berth
  let t := s.template q
  let r := s.run q
  let hand := (handOrder s b t c).take r.trayCount
  let (owners, slots) := roleOwners t lead stripes (usesRows r.words) (hand.filter (isHeld s b c)) hand
  let s := forEach owners (fun p u => handTray b c p.1 p.2 u) s
  let s := s.modRun q (fun x => { x with trayMap := x.trayMap ++ owners.map (fun p => (c, p.1, p.2)) })
  let s := s.modCore c (fun k => { k with crew := some q, victim := none })
  forEach (List.range slots) (fun m u => u.modMxe (4 * c + m) (fun x => { x with inCrew := true })) s

/-! ### Leaving STATE 1 -/

/-- Sounding slots that a kernel's words name. -/
def soundSlots (ops : List Op) : List Nat :=
  (ops.filterMap (fun o => match o with | .sound 1 _ k _ => some k | _ => none)).eraseDups

/-- Versions that a kernel's acquires sample (2^32, which no version has, where the set has no current one), with a transient reference to each that is live (R236). -/
def sampleEpochs (q : Nat) (s : State) : State :=
  let r := s.run q
  let b := (s.queue q).berth
  if r.sampled then s
  else
    let s := s.modRun q (fun x => { x with sampled := true, samples := [] })
    forEach r.words (fun o t => match o with
      | .epoch 0 set v =>
        let w := look {} (t.berth b).epochs.sets set
        let ver := if v = 0xFFFFFFFF then w.current else some v
        let live := match ver with
          | some x => w.live.any (fun y => y.version = x)
          | none => false
        let t := t.modRun q (fun x => { x with samples := x.samples ++ [(set, ver.getD (2 ^ 32), live)] })
        if live then
          let l := w.live.map (fun y => if some y.version = ver then { y with transient := y.transient + 1 } else y)
          t.modBerth b (fun k => { k with epochs := { k.epochs with sets := put {} k.epochs.sets set { w with live := l } } })
        else t
      | _ => t) s

/-- Microseconds of a slot since its open write. -/
def slotNow (s : State) (r : Req) : Nat := (s.half (queueHalf r.primary)).us - r.openedAt

/-- A PASS kernel's first leave from STATE 1 starts a pass of its open slot (R378). -/
def startPass (q : Nat) (s : State) : State :=
  let r := s.run q
  let b := (s.queue q).berth
  if !r.pass || r.passStarted then s
  else
    let s := s.modRun q (fun x => { x with passStarted := true })
    match openSlotOf s q with
    | none => s
    | some (k, _) =>
      if k ≠ r.request then s
      else
        let now := slotNow s (look {} (s.berth b).reqs k)
        s.modReq b k (fun x => { x with
          started := min (x.started + 1) 65535, t0 := if x.started = 0 then now else x.t0, ts := now })

/-- What a run samples when it leaves STATE 1: recipe select (R85), function set (R161), tiling controls (R152), SEQ of
its sounding slots (R212), epochs (R236), its pass start (R378); its Harbour scratch is charged (R309). -/
def leaveState1 (q : Nat) (s : State) : State :=
  let r := s.run q
  let b := (s.queue q).berth
  let wide := wideNow s q
  let zero := zeroShape s q
  let n0 := needScratch s q 0
  let n1 := needScratch s q 1
  let ctrl := (List.range 32).filterMap (fun k =>
    let v := tileCtrlOf (s.cluster k)
    if v = 0x143 then none else some (k, v))
  let seqs := (soundSlots r.words).foldl (fun t k => put 0 t k (look {} (s.berth b).slots k).seq) []
  let cnt := trayCountOf s q wide
  let s := s.modRun q (fun x => { x with
    recSample := (s.berth b).recipeSel, base2 := bitOf s.glb.base2 b, tileCtrl := ctrl, sndSeq := seqs, sndCount := []
    wide := wide, zeroShape := zero, scratch0 := n0, scratch1 := n1, trayCount := cnt, phase := .running })
  let s := s.modShare 0 b (fun k => { k with scratch := k.scratch + n0 })
  let s := s.modShare 1 b (fun k => { k with scratch := k.scratch + n1 })
  (startPass q (sampleEpochs q s)).modQueue q (fun c => { c with state := .running })

/-- The crew is taken (R372, R526). -/
def takeCrew (q : Nat) (cores : List Nat) (s : State) : State :=
  let crew := sortNat cores
  let lead := crew.headD 0
  let str := usesStripe (s.run q).words
  let s := s.modRun q (fun x => { x with crew := crew })
  forEach crew (fun c t =>
    let top := str && !(crew.any (fun d => clusterOf d = clusterOf c && decide (d > c)))
    joinCore q c (c = lead) top t) s

/-! ### Pre-emption (R373, R374) -/

/-- Normalised lead of berth b over berth a exceeds PREEMPT_GAP. -/
def leads (s : State) (b a : Nat) : Bool :=
  let x := s.berth a
  let y := s.berth b
  decide (y.virt * x.share > x.virt * y.share + s.glb.preemptGap * x.share * y.share)

/-- Running kernels that may be killed for a queue's kernel. -/
def victims (s : State) (q : Nat) : List Nat :=
  let a := (s.queue q).berth
  let cores := (s.berth a).layout.cores
  (s.runs.map (·.1)).filter (fun v =>
    let r := s.run v
    let b := (s.queue v).berth
    b ≠ a && (r.phase = .running || r.phase = .draining) && !r.landed && r.crew.any (bitOf cores) && leads s b a)

/-- A victim stands before another: not collective first, then the greatest normalised time, then the lower queue. -/
def victimBefore (s : State) (v w : Nat) : Bool :=
  let cv := decide (collGroups (s.run v).words ≠ [])
  let cw := decide (collGroups (s.run w).words ≠ [])
  if cv ≠ cw then !cv
  else
    let bv := (s.queue v).berth
    let bw := (s.queue w).berth
    if behind s bw bv then true else if behind s bv bw then false else decide (v < w)

def bestVictim (s : State) (vs : List Nat) : Option Nat :=
  vs.foldl (fun (m : Option Nat) v => match m with
    | none => some v
    | some w => if victimBefore s v w then some v else m) none

/-- The core will qualify once the trays of killed runs have returned and pinned trays of the victim's berth are
parked (R374). -/
def qualifiesSoon (s : State) (q c : Nat) (wide : Bool) : Bool :=
  if qualifies s q c wide then true
  else
    let b := (s.queue q).berth
    let back := (s.runs.flatMap (fun p => p.2.traysOut)).filter (fun p => p.1 = c)
    let s' := forEach back (fun p t => returnTray p.1 p.2 t) s
    let s' := match (s.core c).victim with
      | none => s'
      | some v => if v = b then s' else forEach (List.range 14) (fun k t =>
          let y := t.tray c k
          if y.pinned ∧ y.berth = v ∧ y.parkedBy = none then
            t.modTray c k (fun z => { z with owner := 0x9, parkedBy := some v })
          else t) s'
    qualifies s' q c wide

/-- What pre-emption still has to provide: cores, or a named tray that another kernel holds (R376). -/
def lacks (s : State) (q : Nat) : Bool :=
  let wide := wideNow s q
  decide (((List.range 256).filter (fun c => qualifiesSoon s q c wide)).length < (s.template q).coresMin)

def namedBorrowed (s : State) (q : Nat) : List (Nat × Nat) :=
  (namedParked s q).filter (fun p => (s.tray p.1 p.2).owner ≠ 0x9)

/-- One victim is killed with detail 1; its cores remember its berth. -/
def preempt (v : Nat) (s : State) : State :=
  let crew := (s.run v).crew
  let b := (s.queue v).berth
  forEach crew (fun c t => t.modCore c (fun k => { k with victim := some b })) (killQueue v 1 s)

/-- Victims are killed until the kernel will have its cores, or none remains (R374); the fuel bounds their number. -/
def preemptFor (q : Nat) : Nat → State → State
  | 0, s => s
  | n + 1, s =>
    if !s.glb.preemptEn then s
    else
      let vs := victims s q
      let pool := if lacks s q then vs
        else vs.filter (fun v => (namedBorrowed s q).any (fun p => (s.run v).crew.contains p.1))
      match bestVictim s pool with
      | none => s
      | some v => preemptFor q n (preempt v s)

/-! ### CREW_GRANT and joins -/

/-- A kernel ahead in the order that can have its crew now. -/
def aheadNow (s : State) (q : Nat) : Bool :=
  (s.runs.map (·.1)).any (fun p => p ≠ q && before s p q && mayLeave s p && !zeroShape s p && crewNow s p)

/-- A ready kernel leaves STATE 1 with its crew (R134, R371 to R375), or has victims killed for it; a kernel that a
switch turns away is skipped (R381). -/
def execCrewGrant (q : Nat) (s : State) : Res :=
  let r := s.run q
  let bake := if r.phase = .waiting ∧ r.fetched then
      bakeSkip s q (if r.pass then some r.request else none) r.passStarted
    else .none
  match applyBake q r.start bake s with
  | some t => .next (settle t)
  | none =>
      if !mayLeave s q then .next s
      else if zeroShape s q then .next (settle (leaveState1 q s))
      else if aheadNow s q then .next s
      else if crewNow s q then
        let cores := (qualifying s q (wideNow s q)).take (s.template q).coresMax
        .next (settle (takeCrew q cores (leaveState1 q s)))
      else .next (settle (preemptFor q (s.runs.length) s))

/-- A core that qualifies later joins a running kernel's crew (R147, R372). Where it is the highest-numbered of its cluster
the line-buffer and weight trays stay with the core that holds them (DESIGN CHOICE, notes/assumptions/87.md). -/
def execCrewCoreJoin (q core : Nat) (s : State) : Res :=
  let r := s.run q
  let wanted := (s.runs.map (·.1)).any (fun p => p ≠ q && before s p q && mayLeave s p && !zeroShape s p &&
    qualifies s p core (wideNow s p))
  if r.phase = .running ∧ !r.zeroShape ∧ r.crew.length < (s.template q).coresMax ∧ qualifies s q core r.wide
      ∧ !wanted then
    let top := usesStripe r.words && !(r.crew.any (fun d => clusterOf d = clusterOf core))
    let s := s.modRun q (fun x => { x with crew := x.crew ++ [core] })
    .next (startIdle q (joinCore q core false top s))
  else .next s

/-! ### TILE_OVERFLOW and re-tiling (R142, R143) -/

/-- The allotments of every instruction of the kernel pass the test of R138 with one instruction re-sized. -/
def retileFits (s : State) (q w : Nat) (exts : List Nat) : Bool :=
  let r := s.run q
  let t := s.template q
  let img := (s.ctx q).img
  let sets := setsAlong r.recSample t.wide.isSome 8 r.words
  let each := (List.range r.words.length).map (fun k =>
    let op := r.words.getD k .nop
    (op, runBounds img (declSlots img (sets.getD k 8) op) [(w, exts)] k))
  decide ((each.map (fun p => tableEntries p.1 p.2)).foldl (· + ·) 0 ≤ 16384) && each.all (fun p => buffersFit t p.1 p.2)

/-- TILE_OVERFLOW at word position w with the run's extents: re-tiled and re-run, or the queue stops. -/
def overflowRun (q w detail : Nat) (ts : List Tensor) (s : State) : State :=
  let r := s.run q
  let t := s.template q
  let word := (r.start + w) % 2 ^ 32
  let exts := ts.flatMap (fun x => (List.range 5).map x.e)
  if !t.retile then faultRun q 1 detail word none s
  else if r.retiled then faultRun q 1 (detail + 0x80) word none s
  else if !retileFits s q w exts then faultRun q 1 (detail + 0x80) word none s
  else if (s.queue q).rerunCount ≥ 15 then faultRun q 1 detail word none s
  else
    let s := killRun q 1 detail word none s
    let s := s.modRun q (fun x => { x with retiled := true, retileDims := [(w, exts)] })
    settle (awaitRerun q true s)

/-! ### Request slots (R377, R382) -/

/-- The queue's kernel is abandoned and the queue goes idle at TAIL, with no effect of the kernels passed over. A begun
commit completes (R46). -/
def idleAtTail (q : Nat) (s : State) : State :=
  let r := s.run q
  let c := s.queue q
  if c.state = .disabled ∨ r.phase = .committing ∨ r.landed then s
  else
    let out := r.traysOut ++ r.crew.flatMap (fun k => (s.runTrays k).map (fun t => (k, t)))
    let s := freeScratch q (stopEngines q s)
    let s := s.modRun q (fun x => { x with traysOut := out })
    settle (passOver q c.tail s)

/-- The queue belongs to a berth's admitted image. -/
def ownsQueue (s : State) (b q : Nat) : Bool := (s.queue q).berth = b && (s.queue q).state ≠ .disabled

/-- An open write of the selected slot (R377). -/
def doOpen (b primary alt : Nat) (altValid : Bool) (passes : Nat) (s : State) : State :=
  let k := (s.berth b).reqSel
  let r := look {} (s.berth b).reqs k
  if r.isOpen ∨ passes = 0 ∨ !ownsQueue s b primary ∨ (altValid ∧ !ownsQueue s b alt)
      ∨ (altValid ∧ queueHalf primary ≠ queueHalf alt) ∨ !(s.berth b).layout.configured then s
  else s.modReq b k (fun x =>
    { primary := primary, alt := alt, altValid := altValid, passes := passes, deadline := x.deadline
      estFull := x.estFull, estCheap := x.estCheap, isOpen := true, openedAt := (s.half (queueHalf primary)).us })

/-- A slot closes; an alternate that never ran goes idle (R382). -/
def closeReq (b k : Nat) (abandoned : Bool) (s : State) : State :=
  let r := look {} (s.berth b).reqs k
  if !r.isOpen then s
  else
    let now := slotNow s r
    let s := s.modReq b k (fun x => { x with
      isOpen := false, finish := min now (2 ^ 32 - 1), late := decide (now > x.deadline)
      abandoned := abandoned })
    if r.altValid && !r.switched then idleAtTail r.alt s else s

def execOpenSlot (berth primary alt : Nat) (altValid : Bool) (passes : Nat) (s : State) : Res :=
  .next (doOpen berth primary alt altValid passes s)

def execCloseSlot (berth : Nat) (s : State) : Res :=
  .next (closeReq berth (s.berth berth).reqSel false s)

/-- CLEAR of a sounding slot: at once, or when the owning queue's kernel commits or is skipped (R218). A slot that no
admitted queue names ignores it. -/
def doClear (b k : Nat) (s : State) : State :=
  match slotQueue (s.imageOf b) k with
  | none => s
  | some q =>
    if (s.queue q).state = .idle ∨ (s.queue q).state = .disabled then s.modSlot b k clearedSlot
    else s.modSlot b k (fun x => { x with clearPend := true })

def execClearSlot (berth slot : Nat) (s : State) : Res := .next (doClear berth slot s)

/-! ### The deadline monitor (R379, R380) -/

/-- Predicted finish, and the measured time per pass. -/
def predictReq (r : Req) (now : Nat) : Nat × Nat :=
  if r.started = 0 then (now + r.passes * r.estFull, r.estFull)
  else if r.started = 1 then (r.t0 + r.passes * r.estFull, r.estFull)
  else
    let m := (r.ts - r.t0) / (r.started - 1)
    (if r.started ≤ r.passes + 1 then r.ts + (r.passes + 1 - r.started) * m
      else r.ts - (r.started - r.passes - 1) * m, m)

/-- One open slot is evaluated. -/
def evalReq (b k : Nat) (s : State) : State :=
  let r := look {} (s.berth b).reqs k
  let now := slotNow s r
  let (p, m) := predictReq r now
  let s := s.modReq b k (fun x => { x with predict := min p (2 ^ 32 - 1) })
  if p > r.deadline ∧ r.started < r.passes ∧ r.altValid then
    let pc := if r.started = 0 then now + r.passes * r.estCheap
      else r.ts + m + (r.passes - r.started) * r.estCheap
    let s := s.modReq b k (fun x => { x with
      switched := true, switchPass := x.started, stillLate := decide (pc > r.deadline) })
    let s := s.modQueue r.primary (fun c => raiseEvent 0x11 { c with halfbake := satAdd 32 c.halfbake 1 })
    raiseVector (s.queue r.primary).vector s
  else s

/-- The deadline monitor of a half: its open slots that have not switched, by berth and slot (R379). -/
def deadlineEval (half : Nat) (s : State) : State :=
  forEach (s.berths.map (·.1)) (fun b t =>
    forEach ((t.berth b).reqs.map (·.1)) (fun k u =>
      let r := look {} (u.berth b).reqs k
      if r.isOpen ∧ !r.switched ∧ queueHalf r.primary = half then evalReq b k u else u) t) s

def execDeadlineEval (half : Nat) (s : State) : Res := .next (deadlineEval half s)

end Sys2Proof.Machine
end

