-- ==== Sys2Proof/Machine/Compute.lean ====
section
/-! DEFINITION. Matrix products: dispatch of the instructions that are planned (05_matrix_engines.md R136), products and
drains of PROB (04_formats.md R109 to R127; 06_row_engine.md R174), spill records (08_soundings.md R204 to R210),
accumulators (09_backward.md R228, R229), tiles and fills (05_matrix_engines.md R149 to R151; R222), soundings
(R211 to R219). -/
namespace Sys2Proof.Machine

/-! ### Dispatch -/

/-- Bytes of a tensor's data, block exponents included (notes/assumptions/34.md). -/
def dataBytes (t : Tensor) : Nat :=
  cdiv (t.count * elemBits t.fmt) 8 + (if isBlock t.fmt then cdiv (t.e 0) 32 * t.rowCount else 0)

/-- Destination that a STRIPE's output image declares. -/
def outDest (img : Image) (va : Nat) : OutDest := ((descOf img va).map (·.dest)).getD .store

/-- Held-log entries that an instruction takes when it dispatches (Table 3.5). -/
def heldEntries (img : Image) (op : Op) (ts : List Tensor) : Nat :=
  match op with
  | .prob o => if o.dst = 1 then cdiv (dataBytes (nth ts 2)) 4096 else 0
  | .stripe o => if outDest img (o.out * 64) = .reduce then cdiv (dataBytes (nth ts 2)) 4096 else 0
  | .peel _ => if (nth ts 1).remote then cdiv (dataBytes (nth ts 1)) 4096 else 0
  | _ => 0

/-- Wide alternates of a sounded PROB's operands, read with its descriptors (R213). -/
def readRefs (s : State) (c : Ctx) (r : Run) (op : Op) (ds : List Desc) : Except Flt (List Desc) :=
  match op with
  | .prob o =>
    let i : Inst := { op := .prob o, descs := ds, snd := r.snd }
    if isSounded i then
      mapE (fun k => let t := nth (tensors ds) k; if t.hasWide then s.readDesc c (t.wide * 64) else .ok {}) [0, 1]
    else .ok []
  | _ => .ok []

/-- Dispatch of PROB, ATTN, ROWOP, STRIPE and PEEL: steps 1 to 3 of R136. -/
def dispatchWork (q : Nat) (op : Op) (s : State) : State :=
  let r := s.run q
  if !nextWord r op then s
  else
    let c := s.ctx q
    let fault := fun (f : Flt) => faultRun q f.1 f.2 (wordIndex r) none s
    match s.readSlots c r.set op with
    | .error f => fault f
    | .ok ds =>
      let ts := tensors ds
      let base : Inst := { word := wordIndex r, op := op, descs := ds, set := r.set, snd := r.snd }
      let add := fun (i : Inst) (n : Nat) =>
        advance q (s.modRun q (fun x => { x with insts := x.insts ++ [i], entries := x.entries + n }))
      if !opAgree op ts then fault (0x0F, 4)
      else if !opAligned ds then fault (0x0F, 5)
      else if opZero op ts then add { base with zero := true, done := true } 0
      else match firstOver op ts (runBounds c.img ds r.retileDims r.ip) with
        | some d => overflowRun q r.ip d ts s
        | none =>
          let n := heldEntries c.img op ts
          if r.entries + n > (s.template q).heldCount then fault (0x0F, 2)
          else match readRefs s c r op ds with
            | .error f => fault f
            | .ok refs =>
              if !opAligned refs then fault (0x0F, 5) else add { base with descs := ds ++ refs } n

/-- PROB (R88 to R92). -/
def execProb (q : Nat) (o : ProbOps) (s : State) : Res := .next (dispatchWork q (.prob o) s)

/-! ### What the work of an item leaves -/

structure Yield where
  st : Stores := []
  held : List HeldRec := []
  acc : List (Nat × Fv) := []
  alt : Bool := false
  spill : Nat := 0
  evals : Nat := 0
  reads : List Nat := []
  records : Nat := 0
  deriving DecidableEq, Repr

/-- Granules of a span of bytes, by one address in each. -/
def spanVas (first last : Nat) : List Nat :=
  (List.range (last / 256 + 1 - first / 256)).map (fun k => max first ((first / 256 + k) * 256))

/-- Granules that n consecutive elements from index e touch. -/
def Tensor.span (t : Tensor) (e n : Nat) : List Nat :=
  if n = 0 then []
  else
    let lo := t.base * 8 + e * elemBits t.fmt
    spanVas (lo / 8) ((lo + n * elemBits t.fmt - 1) / 8)

/-- Granules that the block exponents of n consecutive elements from index e touch. -/
def Tensor.exps (t : Tensor) (e n : Nat) : List Nat :=
  if n = 0 || !isBlock t.fmt then [] else spanVas (t.scaleBase + e / 32) (t.scaleBase + (e + n - 1) / 32)

/-- Granules that reading n consecutive elements from index e touches. -/
def Tensor.granules (t : Tensor) (e n : Nat) : List Nat := t.span e n ++ t.exps e n

/-- An element accumulated by the home Peel (R229). -/
def State.accumulate (s : State) (c : Ctx) (tray va : Nat) (v : Fv) : Except Flt State :=
  match c.img.accs.find? (fun a => a.tray = tray) with
  | none => .error (0x0E, 2)
  | some a =>
    if va < a.window ∨ va ≥ a.window + 4 * a.words then .error (0x0E, 2)
    else
      let w := (va - a.window) / 4
      match s.accBar a w with
      | some f => .error f
      | none => .ok (s.accWrite c.berth c.queue a w (encFp fp32 (fadd (decFp fp32 (s.accWord c.berth a w)) v)))

/-- The place of every element that a reduction or a held write will reach is checked while the run may still fault
(R41). -/
def State.reachAll (s : State) (c : Ctx) (vas : List Nat) : Except Flt State :=
  foldE (fun t va => match t.locate c writeRole va with
    | .error f => .error f
    | .ok _ => .ok t) s vas

def heldVas : Held → List Nat
  | .reduce _ es => es.map (·.1)
  | _ => []

/-- Position within its kernel of the word of instruction j (R45). -/
def wordPos (r : Run) (j : Nat) : Nat := ahead 32 (r.insts.getD j {}).word r.start

/-- The yield of an item enters the state: stores, accumulations, held reductions, event counts, cache lookups. -/
def applyYield (q j tray : Nat) (y : Yield) (s : State) : Except Flt State :=
  let c := s.ctx q
  match s.reachAll c (y.held.flatMap (fun h => heldVas h.eff)) with
  | .error f => .error f
  | .ok s =>
    match s.store c y.st with
    | .error f => .error f
    | .ok s =>
      match foldE (fun t p => State.accumulate t c tray p.1 p.2) s y.acc with
      | .error f => .error f
      | .ok s =>
        let s := (s.touchAll c y.reads).touchAll c (y.st.map (·.1)) true
        let s := s.modRun q (fun r => { r with
          held := r.held ++ y.held.map (fun h => { h with inst := wordPos r j })
          spill := r.spill + y.spill
          flags := setBit (setBit r.flags 0x0B (bitOf r.flags 0x0B || decide (y.spill ≠ 0))) 0x10
            (bitOf r.flags 0x10 || y.alt) })
        .ok (s.modInst q j (fun x => { x with scale := x.scale || y.alt }))

/-! ### Sums of products -/

/-- Elements of a line of an operand along K, without block exponents, and the exponent of each of its blocks. -/
structure Line where
  xs : List Fv := []
  ex : List Int := []
  deriving DecidableEq, Repr

/-- The line at the given indices of R72. -/
def State.line (s : State) (c : Ctx) (t : Tensor) (es : List Nat) : Except Flt Line :=
  match mapE (s.elemPlain c t) es with
  | .error f => .error f
  | .ok xs =>
    if isBlock t.fmt then
      match mapE (fun b => s.blockExp c t (es.getD (32 * b) 0)) (List.range (cdiv es.length 32)) with
      | .error f => .error f
      | .ok ex => .ok { xs := xs, ex := ex }
    else .ok { xs := xs }

/-- The exact value at position k. -/
def Line.at (l : Line) (k : Nat) : Fv := (l.xs.getD k .zero).scale (l.ex.getD (k / 32) 0)

/-- Products of BF16 and FP16 (R112, R113). -/
def dotFloat (a b : List Fv) : Fv := groupSum .zero (List.zipWith prod a b)

/-- Products of FP32 in n pieces (R120 to R122). -/
def dotSplit (n : Nat) (a b : List Fv) : Fv :=
  let pa := a.map (splitPieces n)
  let pb := b.map (splitPieces n)
  (splitPasses n).foldl (fun acc p =>
    groupSum acc (List.zipWith (fun x y =>
      passProd (p.1 = 0 && p.2 = 0) (x.getD p.1 .zero) (y.getD p.2 .zero)) pa pb)) .zero

/-- Integer products modulo 2^32 (R116, R123). -/
def dotInt (a b : List Fv) : Int :=
  wrap32 ((List.zipWith (fun x y => roundInt true x * roundInt true y) a b).foldl (· + ·) 0)

/-- Exact integer sum of n products from position lo. -/
def blockSum (a b : List Fv) (lo n : Nat) : Int :=
  (List.zipWith (fun x y => roundInt true x * roundInt true y) ((a.drop lo).take n) ((b.drop lo).take n)).foldl
    (· + ·) 0

/-- Block-scaled products in runs (R117, R118). -/
def dotBlock (run : Nat) (a b : Line) : Fv × Bool :=
  (List.range (cdiv a.xs.length run)).foldl (fun acc j =>
    let pieces := if run = 64 then [(64 * j, 32), (64 * j + 32, 32)] else [(run * j, run)]
    let p := addRun acc.1 (pieces.map (fun x =>
      (a.ex.getD (x.1 / 32) 0 + b.ex.getD (x.1 / 32) 0, blockSum a.xs b.xs x.1 x.2)))
    (p.1, acc.2 || p.2)) (.zero, false)

/-- Run length of a format under a recipe set (R117). -/
def runLen (fmt set : Nat) : Nat := if fmt = 8 then 32 else 16 * 2 ^ setRun set

/-- One element's sum before the Spillway: the accumulator, an integer one as its exact value (R109). -/
def dot (fmt set : Nat) (a b : Line) : Fv × Bool :=
  if fmt = 0 then (dotSplit (if setSplit set = 1 then 2 else 3) a.xs b.xs, false)
  else if fmt ≤ 2 then (dotFloat a.xs b.xs, false)
  else if isBlock fmt then dotBlock (runLen fmt set) a b
  else (.ofInt (dotInt a.xs b.xs), false)

/-! ### Spill records (Table 8.1) -/

/-- Spill declaration of a descriptor's image. -/
def spillOf (img : Image) (d : Desc) : Option (Nat × BitVec 32) :=
  if d.va = 0 then none else (descOf img d.va).bind (·.spill)

/-- Bytes of a kernel's range as a number. -/
def State.readNat (s : State) (c : Ctx) (va n : Nat) : Except Flt Nat :=
  match s.readBytes c readRole va n with
  | .error f => .error f
  | .ok bs => .ok (leNat bs)

/-- Entries of the record of a strip: value, row within the strip, index; they take the narrow path (R210). -/
def State.readSpill (s : State) (c : Ctx) (t : Tensor) (off strip : Nat) : Except Flt (List (Fv × Nat × Nat)) :=
  let c := { c with narrow := true }
  let a := t.scaleBase + off + 512 * strip
  match s.readNat c a 8 with
  | .error f => .error f
  | .ok h =>
    mapE (fun k => match s.readNat c (a + 8 + 8 * k) 8 with
      | .error f => .error f
      | .ok e => .ok (decFp bf16 (field e 0 16), field e 16 5, field e 21 32)) (List.range (field h 0 6))

/-- Records of the strips that hold some of the given rows, entries with their row of the tensor. -/
def State.spills (s : State) (c : Ctx) (d : Desc) (set : Nat) (rows : List Nat) :
    Except Flt (List (Fv × Nat × Nat)) :=
  match spillOf c.img d with
  | none => .ok []
  | some (off, _) =>
    if !setSpillway set then .ok []
    else
      let strips := (rows.map (· / 32)).eraseDups
      match mapE (fun k => match s.readSpill c (tensorOf d.bits) off k with
          | .error f => .error f
          | .ok es => .ok (es.map (fun e => (e.1, 32 * k + e.2.1, e.2.2)))) strips with
      | .error f => .error f
      | .ok l => .ok l.flatten

/-- Spill products of element (m, n), in the order of R210. -/
def spillTerms (kk m n : Nat) (a b : Line) (sa sb : List (Fv × Nat × Nat)) : List Fv :=
  let ea := sa.filter (fun e => e.2.1 = m && decide (e.2.2 < kk))
  let eb := sb.filter (fun e => e.2.1 = n && decide (e.2.2 < kk))
  ea.flatMap (fun e => prod e.1 (b.at e.2.2) ::
    (eb.filter (fun g => g.2.2 = e.2.2)).map (fun g => prod e.1 g.1)) ++
  eb.map (fun g => prod (a.at g.2.2) g.1)

/-! ### Writing block-scaled rows (R126, R206) -/

/-- Outliers of one row taken while the record has room: entries so far, excess so far, the row left. -/
def spillRow (lim : Fv) (r : Nat) (st : List (Nat × Nat × Nat) × Nat) (row : List Fv) :
    (List (Nat × Nat × Nat) × Nat) × List Fv :=
  (List.range row.length).foldl (fun acc k =>
    let v := row.getD k .zero
    if v.isFin && lim.lt v.abs then
      if acc.1.1.length < 63 then
        ((acc.1.1 ++ [(encFp bf16 (roundFv bf16 false v), r, k)], acc.1.2), acc.2 ++ [.zero])
      else ((acc.1.1, acc.1.2 + 1), acc.2 ++ [v])
    else (acc.1, acc.2 ++ [v])) (st, [])

/-- A strip's outliers (R206): record entries, excess, the rows left. -/
def spillStrip (lim : Fv) (rows : List (List Fv)) : (List (Nat × Nat × Nat) × Nat) × List (List Fv) :=
  (List.range rows.length).foldl (fun acc r =>
    let p := spillRow lim r acc.1 (rows.getD r [])
    (p.1, acc.2 ++ [p.2])) (([], 0), [])

/-- A record's header and entries stored. -/
def Stores.record (st : Stores) (a : Nat) (es : List (Nat × Nat × Nat)) : Stores :=
  (List.range es.length).foldl (fun t k =>
    let e := es.getD k (0, 0, 0)
    t.bytes (a + 8 + 8 * k) (leBytes 8 (e.1 + e.2.1 * 2 ^ 16 + e.2.2 * 2 ^ 21))) (st.bytes a (leBytes 8 es.length))

/-- A run of values along dimension 0 stored as blocks from index e, a multiple of 32; true where an exponent was
clamped. -/
def storeBlocks (t : Tensor) (trunc : Bool) (e : Nat) (st : Stores) (xs : List Fv) : Except Flt (Stores × Bool) :=
  let parts := chunksOf 32 xs.length xs
  foldE (fun acc b =>
    match toBlock t.fmt trunc (parts.getD b []) with
    | .error d => .error (0x08, d)
    | .ok (x, is, clamped) =>
      let e0 := e + 32 * b
      let st := acc.1.byte (t.scaleBase + e0 / 32) 255 (ofSigned x 8)
      let st := (List.range is.length).foldl (fun u k => u.elem t (e0 + k) (encInt t.fmt (is.getD k 0))) st
      .ok (st, acc.2 || clamped)) (st, false) (List.range parts.length)

/-- Values of whole strips stored as blocks with their records, rows given by their index of R72: stores, a clamped
exponent, elements in excess, F-cycles of the records (R208). -/
def storeStrips (t : Tensor) (trunc : Bool) (spill : Option (Nat × BitVec 32)) (strip0 : Nat) (es : List Nat)
    (rows : List (List Fv)) (st : Stores) : Except Flt (Stores × Bool × Nat × Nat) :=
  let cost := fun (n : Nat) => if spill.isSome then 1 + n else 0
  foldE (fun acc k =>
    let mine := (rows.drop (32 * k)).take 32
    let at_ := (es.drop (32 * k)).take 32
    let ((entries, excess), left) := match spill with
      | some (_, lim) => spillStrip (decFp fp32 lim.toNat) mine
      | none => (([], 0), mine)
    match foldE (fun a r =>
        match storeBlocks t trunc (at_.getD r 0) a.1 (left.getD r []) with
        | .error f => .error f
        | .ok p => .ok (p.1, a.2 || p.2)) (acc.1, acc.2.1) (List.range left.length) with
    | .error f => .error f
    | .ok p =>
      let st := match spill with
        | some (off, _) => p.1.record (t.scaleBase + off + 512 * (strip0 + k)) entries
        | none => p.1
      .ok (st, p.2, acc.2.2.1 + excess, acc.2.2.2 + cost entries.length)) (st, false, 0, 0)
    (List.range (cdiv rows.length 32))

/-! ### Tiles of a PROB -/

/-- Rows and columns of tile t that lie inside M and N. -/
def tileRange (shape : Nat × Nat) (m n t : Nat) : List Nat × List Nat :=
  let cols := cdiv n shape.2
  let b := t / cols
  let c := t % cols
  ((List.range (min shape.1 (m - b * shape.1))).map (· + b * shape.1),
   (List.range (min shape.2 (n - c * shape.2))).map (· + c * shape.2))

/-- Indices of row m of A, and of column n of B, along K. -/
def aLine (o : ProbOps) (t : Tensor) (kk m : Nat) : List Nat :=
  (List.range kk).map (fun k => if o.transA then t.idx [m, k] else t.idx [k, m])
def bLine (o : ProbOps) (t : Tensor) (kk n : Nat) : List Nat :=
  (List.range kk).map (fun k => if o.transB then t.idx [k, n] else t.idx [n, k])

/-- Accumulators of a region of C, row by row, whether a promotion altered a value, and spill entries read. -/
structure Accs where
  rows : List (List Fv) := []
  alt : Bool := false
  entries : Nat := 0
  deriving DecidableEq, Repr

/-- The accumulators of R109 at given rows and columns. -/
def State.probAccs (s : State) (c : Ctx) (i : Inst) (o : ProbOps) (rows cols : List Nat) : Except Flt Accs :=
  let ts := tensors i.descs
  let ta := nth ts 0
  let tb := nth ts 1
  let kk := (probDims o ts).2.2
  match mapE (fun m => s.line c ta (aLine o ta kk m)) rows with
  | .error f => .error f
  | .ok as =>
    match mapE (fun n => s.line c tb (bLine o tb kk n)) cols with
    | .error f => .error f
    | .ok bs =>
      match s.spills c (i.descs.getD 0 {}) i.set rows with
      | .error f => .error f
      | .ok sa =>
        match s.spills c (i.descs.getD 1 {}) i.set cols with
        | .error f => .error f
        | .ok sb =>
          let cell := fun (m n : Nat) (a b : Line) =>
            let p := dot ta.fmt i.set a b
            (groupSum p.1 (spillTerms kk m n a b sa sb), p.2)
          let all := (rows.zip as).map (fun x => (cols.zip bs).map (fun y => cell x.1 y.1 x.2 y.2))
          .ok { rows := all.map (fun r => r.map (·.1)), alt := all.any (fun r => r.any (·.2))
                entries := sa.length + sb.length }

/-- The drain operand of an element at index e of the saved tensor, or column n of the bias. -/
def State.drainAux (s : State) (c : Ctx) (fn : Nat) (aux : Tensor) (e n : Nat) : Except Flt Fv :=
  if drainBias fn then s.elem c aux n
  else if drainSaved fn then s.elem c aux e
  else .ok .zero

/-- Drained values of a region of C (R174): an integer accumulator is converted to FP32 first (R111). -/
def State.probDrain (s : State) (c : Ctx) (i : Inst) (o : ProbOps) (base2 : Bool) (rows cols : List Nat)
    (a : List (List Fv)) : Except Flt (List (List Fv)) :=
  let ts := tensors i.descs
  let aux := nth ts 3
  mapE (fun x => mapE (fun y =>
    match s.drainAux c o.fn aux (aux.idx [y.1, x.1]) y.1 with
    | .error f => .error f
    | .ok v =>
      let acc := if (nth ts 2).fmt = 6 then y.2 else roundFv fp32 false y.2
      .ok (drainFn base2 o.fn acc v)) (cols.zip x.2)) (rows.zip a)

/-- What one region of C leaves, its values drained. -/
def probOut (img : Image) (j : Nat) (i : Inst) (o : ProbOps) (rows cols : List Nat) (v : List (List Fv)) :
    Except Flt Yield :=
  let t := nth (tensors i.descs) 2
  let cells := (rows.zip v).flatMap (fun x => (cols.zip x.2).map (fun y => (t.idx [y.1, x.1], y.2)))
  if o.dst = 1 then
    let raw := fun (x : Fv) => if t.fmt = 6 then ofSigned (roundInt true x) 32 else encFp fp32 x
    let tileCol := cols.headD 0
    let row := fun (x : Nat × List Fv) => Held.reduce (if t.fmt = 6 then 0 else 10) ((cols.zip x.2).map (fun y =>
      (t.base + 4 * t.idx [y.1, x.1], BitVec.ofNat 32 (raw y.2))))
    let recs : List HeldRec := (rows.zip v).map (fun x => { inst := j, ord := x.1 * 2 ^ 32 + tileCol, eff := row x })
    .ok { held := recs }
  else if o.dst = 2 then .ok { acc := cells.map (fun p => (t.base + 4 * p.1, p.2)) }
  else if isBlock t.fmt then
    match storeStrips t false (spillOf img (i.descs.getD 2 {})) (rows.headD 0 / 32)
        (rows.map (fun m => t.idx [cols.headD 0, m])) v [] with
    | .error f => .error f
    | .ok p => .ok { st := p.1, alt := p.2.1, spill := p.2.2.1, records := p.2.2.2 }
  else
    match foldE (fun st p => match convScalar t.fmt false p.2 with
        | .error d => .error ((0x08, d) : Flt)
        | .ok raw => .ok (Stores.elem st t p.1 raw)) [] cells with
    | .error f => .error f
    | .ok st => .ok { st := st }

/-- C takes spill records: a strip is converted whole, when the last tile of its band completes
(notes/assumptions/35.md). -/
def wholeBand (img : Image) (i : Inst) : Bool := (spillOf img (i.descs.getD 2 {})).isSome

/-- The last tile of its band to complete. -/
def lastOfBand (i : Inst) (cols t : Nat) : Bool :=
  (List.range cols).all (fun k => let u := t / cols * cols + k; u = t || i.doneItems.contains u)

/-- What tile t of a PROB leaves, with its accumulators. -/
def State.probTile (s : State) (q j : Nat) (t : Nat) : Except Flt (Yield × Accs) :=
  let r := s.run q
  let c := s.ctx q
  let i := r.insts.getD j {}
  match i.op with
  | .prob o =>
    let ts := tensors i.descs
    let d := probDims o ts
    let g := tileRange i.shape d.1 d.2.1 t
    let cols := cdiv d.2.1 i.shape.2
    let band := wholeBand c.img i
    let outCols := if band then List.range d.2.1 else g.2
    match s.probAccs c i o g.1 g.2 with
    | .error f => .error f
    | .ok a =>
      if band && !lastOfBand i cols t then .ok ({ alt := a.alt }, a)
      else
        match (if band then s.probAccs c i o g.1 outCols else .ok a) with
        | .error f => .error f
        | .ok full =>
          match s.probDrain c i o r.base2 g.1 outCols full.rows with
          | .error f => .error f
          | .ok v =>
            match probOut c.img j i o g.1 outCols v with
            | .error f => .error f
            | .ok y =>
              let ta := nth ts 0
              let tb := nth ts 1
              let aux := nth ts 3
              let reads := (if o.transA then (List.range d.2.2).flatMap (fun k =>
                  ta.granules (ta.idx [g.1.headD 0, k]) g.1.length)
                 else g.1.flatMap (fun m => ta.granules (ta.idx [0, m]) d.2.2)) ++
                (if o.transB then g.2.flatMap (fun n => tb.granules (tb.idx [0, n]) d.2.2)
                 else (List.range d.2.2).flatMap (fun k => tb.granules (tb.idx [g.2.headD 0, k]) g.2.length)) ++
                (if drainBias o.fn then aux.granules (outCols.headD 0) outCols.length
                 else if drainSaved o.fn then g.1.flatMap (fun m =>
                   aux.granules (aux.idx [outCols.headD 0, m]) outCols.length)
                 else [])
              .ok ({ y with alt := y.alt || a.alt, reads := reads
                            evals := g.1.length * g.2.length * drainCost r.base2 o.fn }, a)
  | _ => .ok ({}, {})

/-! ### Cycles of tiles (R131, R151, R210, R217) -/

/-- k-steps per A-cycle and passes of a format under a set (Table 5.1). -/
def kStep (fmt : Nat) : Nat :=
  match fmt with
  | 5 => 2 | 3 => 2 | 8 => 2 | 4 => 4 | 9 => 4 | 10 => 4 | 11 => 8 | _ => 1

def passesOf (fmt set : Nat) : Nat :=
  if fmt = 0 then (if setSplit set = 1 then 3 else 6) else if fmt = 5 then 4 else 1

/-- Length of chunk k of n (R131). -/
def chunkAt (fmt set kk k : Nat) : Nat :=
  let kc := chunkLen fmt
  if k + 1 < cdiv kk kc then kc
  else roundUp (kk - k * kc) (if decide (9 ≤ fmt) && isBlock fmt && setRun set = 2 then 64 else 32)

/-- Issue cycles of a tile of a PROB: X (R151), or S * 32 with K = 0 (R150). The tile is complete 39 A-cycles later, in
which the MXE's next one already runs. -/
def tileCycles (fmt set kk : Nat) (shape : Nat × Nat) : Nat :=
  let sub := shape.1 / 32 * (shape.2 / 32)
  if kk = 0 then sub * 32
  else
    let n := cdiv kk (chunkLen fmt)
    let ls := (List.range (passesOf fmt set)).flatMap (fun p => (List.range n).map (fun k =>
      let l := chunkAt fmt set kk k / kStep fmt
      if p + 1 = passesOf fmt set ∧ k + 1 = n then max l 32 else l))
    sub * ls.foldl (· + ·) 0

/-- A PROB reads spill records of an operand (R209). -/
def readsSpill (img : Image) (i : Inst) : Bool :=
  setSpillway i.set && ((spillOf img (i.descs.getD 0 {})).isSome || (spillOf img (i.descs.getD 1 {})).isSome)

/-- A-cycles that a PROB's tile adds to class 1: its issue cycles, its Spillway (R210), and the records that its drain
writes, each F-cycle as two A-cycles (R208; notes/assumptions/36.md). -/
def probCycles (img : Image) (i : Inst) (o : ProbOps) (a : Accs) (records : Nat) : Nat :=
  let ts := tensors i.descs
  tileCycles (nth ts 0).fmt i.set (probDims o ts).2.2 i.shape +
    (if readsSpill img i then 16 + a.entries else 0) + 2 * records

/-! ### Fills -/

/-- Bytes of a fill of an MXE slot: chunk k of a PROB's tile, or of an attention tile (R222; notes/assumptions/36.md). -/
def fillBytes (i : Inst) (isB : Bool) (k : Nat) : Nat :=
  let ts := tensors i.descs
  match i.op with
  | .prob o =>
    let t := nth ts 0
    let kk := (probDims o ts).2.2
    let n := max 1 (cdiv kk (chunkLen t.fmt))
    let len := chunkAt t.fmt i.set kk (k % n)
    (len * elemBits t.fmt / 8 + (if isBlock t.fmt then len / 32 else 0)) * (if isB then i.shape.2 else i.shape.1)
  | .attn _ =>
    let d := attnDims ts
    let kb := attnKb d
    if isB then kb * (d.dh * elemBits (nth ts 1).fmt + d.dv * elemBits (nth ts 2).fmt) / 8
    else i.shape.1 * d.dh * 2
  | _ => 0

/-- A fill is a transposing one. -/
def fillTransposes (i : Inst) (isB : Bool) : Bool :=
  match i.op with
  | .prob o => if isB then o.transB else o.transA
  | _ => false

/-- An on-die codeword that cannot be corrected (R294, R331): no pin is ever marked there. -/
def trayBad (rx : BitVec 288) : Bool := (decodeWord none rx).isNone

/-- What stops an engine that completes a piece of work on a core: a tray of its own not its own (R297), or the on-die
codeword that it read, which raises MEM_UNCORRECTABLE with the detail of Table 13.4. -/
def State.engineBar (s : State) (q core owner : Nat) (rx : BitVec 288) (detail : Nat) : Option Flt :=
  (s.trayBar q core owner).orElse (fun _ => if trayBad rx then some (0x09, detail) else none)

/-- Item that an MXE runs. -/
def mxeItem (s : State) (m : Nat) : Option (Nat × Nat × Work) :=
  runningItem s ((s.core (m / 4)).crew).toList .mxe m

/-- Fills that a PROB's tile needs: an A fill and a B fill of each chunk (R222). Those of an attention tile are not
counted (notes/assumptions/36.md). -/
def needFills (i : Inst) : Option Nat :=
  match i.op with
  | .prob o => let ts := tensors i.descs; some (2 * cdiv (probDims o ts).2.2 (chunkLen (nth ts 0).fmt))
  | _ => none

/-- The fill is the tile's next one: an A fill goes before the B fill of its chunk (R223). -/
def nextFill (i : Inst) (w : Work) (isB : Bool) : Bool :=
  match needFills i with
  | some n => decide (w.fills < n) && isB = (w.fills % 2 = 1)
  | none => true

/-- The Peel completes a chunk-buffer fill of an MXE slot (R222, R223). The codeword is of the Harbour line or flit that
the fill was read through. -/
def execChunkFillDone (mxe : Nat) (isB : Bool) (rx : BitVec 288) (s : State) : Res :=
  .next (match mxeItem s mxe with
    | none => s
    | some (q, j, w) =>
      let i := (s.run q).insts.getD j {}
      if !nextFill i w isB then s
      else
      let n := fillBytes i isB (w.fills / 2)
      let s := addCycles (s.queue q).berth 3 (cdiv n (if fillTransposes i isB then 128 else 256)) s
      match s.engineBar q (mxe / 4) (mxe % 4 + 1) rx 5 with
      | some f => itemFault q j w f s
      | none => s.modInst q j (fun x => { x with work := x.work.map (fun v =>
        if v.item = w.item then { v with fills := v.fills + 1 } else v) }))

/-! ### Soundings (R211 to R219) -/

/-- An element that raises no FORMAT: the value of a reserved encoding is free (R213; notes/assumptions/88.md). -/
def State.elemQuiet (s : State) (c : Ctx) (t : Tensor) (e : Nat) : Except Flt Fv :=
  match s.rawElem c t e with
  | .error f => .error f
  | .ok raw =>
    match decElem t.fmt raw with
    | .ok _ => s.elem c t e
    | .error _ => .ok (decFp fp32 (Config.reservedElem t.fmt raw).toNat)

/-- FP32 value of an element of a sounded operand (R213). -/
def refElem (s : State) (c : Ctx) (i : Inst) (k e : Nat) (spills : List Fv) : Except Flt Fv :=
  let wide := i.descs.getD (4 + k) {}
  if wide.va ≠ 0 then s.elemQuiet c (tensorOf wide.bits) e
  else
    match s.elem c (tensorOf (i.descs.getD k {}).bits) e with
    | .error f => .error f
    | .ok v => .ok (spills.foldl fadd (widen v).1)

/-- A line of a sounded operand in FP32. The wide alternate has its own strides. -/
def refLine (s : State) (c : Ctx) (i : Inst) (o : ProbOps) (k kk r : Nat) (sp : List (Fv × Nat × Nat)) :
    Except Flt (List Fv) :=
  let wide := i.descs.getD (4 + k) {}
  let t := if wide.va ≠ 0 then tensorOf wide.bits else tensorOf (i.descs.getD k {}).bits
  let es := if k = 0 then aLine o t kk r else bLine o t kk r
  mapE (fun x => refElem s c i k (es.getD x 0)
    ((sp.filter (fun e => e.2.1 = r && e.2.2 = x)).map (·.1))) (List.range kk)

/-- Reference accumulators of a tile in FP32 (R213). -/
def refAccs (s : State) (c : Ctx) (i : Inst) (o : ProbOps) (t : Nat) : Except Flt (List Fv) :=
  let d := probDims o (tensors i.descs)
  let g := tileRange i.shape d.1 d.2.1 t
  match s.spills c (i.descs.getD 0 {}) i.set g.1 with
  | .error f => .error f
  | .ok sa =>
    match s.spills c (i.descs.getD 1 {}) i.set g.2 with
    | .error f => .error f
    | .ok sb =>
      match mapE (fun m => refLine s c i o 0 d.2.2 m sa) g.1 with
      | .error f => .error f
      | .ok as =>
        match mapE (fun n => refLine s c i o 1 d.2.2 n sb) g.2 with
        | .error f => .error f
        | .ok bs => .ok (as.flatMap (fun a => bs.map (fun b => dotSplit 3 a b)))

/-- a / b correctly rounded to FP32, both positive and finite (R214). The quotient is taken with enough bits below the
last one kept that its remainder decides every tie. -/
def fdiv (a b : Fv) : Fv :=
  match a, b with
  | .fin _ s q, .fin _ t r =>
    if t = 0 then .inf false
    else
      let n := s * 2 ^ 400
      let m := 2 * (n / t) + (if n % t = 0 then 0 else 1)
      roundFv fp32 false (.fin false m (q - r - 401))
  | _, _ => .nan

/-- Drift of a sounding (R214): pairs of the narrow and the reference accumulator. -/
def driftOf (ps : List (Fv × Fv)) : Fv :=
  let step := fun (acc : Fv × Fv × Bool) (p : Fv × Fv) =>
    if p.1.isFin && p.2.isFin then
      let dd := (fsub p.1 p.2).abs
      (if acc.1.lt dd then dd else acc.1, if acc.2.1.lt p.2.abs then p.2.abs else acc.2.1, acc.2.2)
    else (acc.1, acc.2.1, acc.2.2 || encFp fp32 p.1 ≠ encFp fp32 p.2)
  let r := ps.foldl step (.zero, .zero, false)
  if r.2.2 || r.1 = .inf false then .inf false
  else if r.1.isZero then .zero
  else if r.2.1.isZero then .inf false
  else fdiv r.1 r.2.1

/-- Free trays of a core. -/
def freeTrays (s : State) (core : Nat) : Nat :=
  ((List.range 16).filter (fun t => (s.tray core t).owner = 0 && !(s.tray core t).scrubbing)).length

/-- An MXE of the stealing pool for a run (R213, R216): in no crew, idle, and with three free trays in its core, which
the sounding borrows while it runs (R299); or of the run's crew with none of its tiles untaken or running. -/
def poolMxe (s : State) (r : Run) (m : Nat) : Bool :=
  let x := s.mxe m
  !x.busy && (if x.inCrew then r.crew.contains (m / 4) && !(r.insts.any (fun i => engKind i.op = some .mxe &&
      i.work.any (fun w => w.eng = m)))
    else coreInService s (m / 4) && decide (3 ≤ freeTrays s (m / 4)))

/-- A pool MXE completes the oldest sounding of a run whose tile has completed (R213 to R217). -/
def execSoundingCompare (q mxe : Nat) (s : State) : Res :=
  let r := s.run q
  let c := s.ctx q
  if (r.phase = .running ∨ r.phase = .draining) ∧ poolMxe s r mxe = true then
    match r.sounds.find? (·.ready) with
    | none => .next s
    | some w =>
      let i := r.insts.getD w.inst {}
      match i.op, i.snd with
      | .prob o, some k =>
        match refAccs s c i o w.tile with
        | .error f =>
          .next (if r.landed then s.modRun q (fun x => { x with sounds := x.sounds.filter (· ≠ w) })
            else trayFault q i.word f s)
        | .ok refs =>
          let d := driftOf ((w.acc.map (fun b => decFp fp32 b.toNat)).zip refs)
          let kk := (probDims o (tensors i.descs)).2.2
          let n := i.shape.1 / 32 * (i.shape.2 / 32) * 6 * roundUp kk 64 + 79
          let s := s.modCore (mxe / 4) (fun x => { x with sndTiles := wrapAdd 64 x.sndTiles 1 })
          let s := addCycles c.berth 1 n s
          .next (s.modRun q (fun x => { x with
            sounds := x.sounds.filter (· ≠ w)
            sndRes := x.sndRes ++ [{ inst := w.inst, tile := w.tile, slot := k.slot
                                     d := BitVec.ofNat 32 (encFp fp32 d), thr := k.thr }] }))
      | _, _ => .next s
  else .next s

/-- A sampled tile hands its narrow accumulators to its sounding. -/
def readySound (q j t : Nat) (a : Accs) (s : State) : State :=
  let bits := a.rows.flatten.map (fun v => BitVec.ofNat 32 (encFp fp32 v))
  s.modRun q (fun r => { r with sounds := r.sounds.map (fun w =>
    if w.inst = j ∧ w.tile = t then { w with acc := bits, ready := true } else w) })

/-- A tile of a PROB completes on an MXE (R150, R151), all of its chunks filled (R222). -/
def finishProb (mxe stall q j : Nat) (o : ProbOps) (w : Work) (s : State) : State :=
  let i := (s.run q).insts.getD j {}
  if w.fills < (needFills i).getD 0 then s
  else match s.probTile q j w.item with
  | .error f => itemFault q j w f s
  | .ok (y, a) =>
    match applyYield q j o.acc y s with
    | .error f => itemFault q j w f s
    | .ok s =>
      let s := s.modCore (mxe / 4) (fun x => { x with rweEvals := wrapAdd 64 x.rweEvals y.evals })
      let s := s.modMxe mxe (fun m => { m with tiles := wrapAdd 64 m.tiles 1 })
      let n := probCycles (s.ctx q).img i o a y.records + stall
      finishCounted q j w .mxe 1 n 39 (readySound q j w.item a s)

end Sys2Proof.Machine
end

