-- ==== Sys2Proof/Machine/Rows.lean ====
section
/-! DEFINITION. ROWOP and the batches of the row engines (06_row_engine.md R154 to R159, R175 to R183, R525). -/
namespace Sys2Proof.Machine

/-- ROWOP (R95). -/
def execRowop (q : Nat) (o : RowOps) (s : State) : Res := .next (dispatchWork q (.rowop o) s)

/-- Row r of a tensor, its n elements along dimension 0. -/
def State.rowVals (s : State) (c : Ctx) (t : Tensor) (r n : Nat) : Except Flt (List Fv) :=
  let e := t.rows.getD r 0
  s.elems c t ((List.range n).map (· + e))

/-- Values stored along dimension 0 of row r, rounded to the tensor's format. -/
def storeRow (t : Tensor) (r : Nat) (xs : List Fv) (st : Stores) : Stores :=
  let e := t.rows.getD r 0
  (List.range xs.length).foldl (fun u k =>
    u.elem t (e + k) (encFp (fpOf t.fmt) (roundFv (fpOf t.fmt) false (xs.getD k .zero)))) st

/-- A row's outputs, its statistics, and the native evaluations it took. -/
structure RowRes where
  ys : List Fv := []
  stats : List Fv := []
  evals : Nat := 0
  deriving DecidableEq, Repr

/-- One row of a ROWOP from its input and its second operand (R95, R157, R175 to R181). -/
def rowCompute (m : FnMode) (o : RowOps) (x aux : List Fv) : RowRes :=
  match o.variant with
  | 0 => { ys := x.map (fn m o.func), evals := x.length * fnCost m.base2 o.func }
  | 1 =>
    let mask := if o.mask then aux.map (fun v => !v.isZero) else x.map (fun _ => false)
    let p := softmaxRow m x mask
    let ran := !p.2.2.isZero && !p.2.2.isNan
    { ys := p.1, stats := [p.2.1, p.2.2], evals := if ran then x.length + fnCost m.base2 4 else 0 }
  | 2 =>
    let gain := if o.aux = 0 then x.map (fun _ => one) else aux
    let p := rmsnormRow m (decFp fp32 o.eps.toNat) x gain
    let ran := !(x.any (fun y => !y.isFin)) && !(x.all Fv.isZero)
    { ys := p.1, stats := [p.2], evals := fnCost m.base2 5 + (if ran then fnCost m.base2 4 else 0) }
  | 3 => { ys := [rowSum x] }
  | 4 => { ys := [rowMax x] }
  | 5 => { ys := List.zipWith fmul x aux }
  | _ => { ys := List.zipWith fadd x aux }

/-- One row read, computed and stored into the yield. -/
def State.rowStep (s : State) (c : Ctx) (m : FnMode) (o : RowOps) (ts : List Tensor) (y : Yield) (r : Nat) :
    Except Flt Yield :=
  let tx := nth ts 0
  let ty := nth ts 1
  let ta := nth ts 2
  let d := tx.e 0
  match s.rowVals c tx r d with
  | .error f => .error f
  | .ok x =>
    let needs := (o.variant = 1 && o.mask) || (o.variant = 2 && o.aux ≠ 0) || o.variant = 5 || o.variant = 6
    let ar := if o.variant = 2 then 0 else r
    match (if needs then s.rowVals c ta ar d else .ok []) with
    | .error f => .error f
    | .ok a =>
      let z := rowCompute m o x a
      let st := storeRow ty r z.ys y.st
      let st := if o.stats then storeRow (nth ts 3) r z.stats st else st
      .ok { y with
        st := st, evals := y.evals + z.evals
        reads := y.reads ++ tx.span (tx.rows.getD r 0) d ++ (if needs then ta.span (ta.rows.getD ar 0) d else []) }

/-- A-cycles of n rows of length d (R179, R182), for rows that are streamed those of their entry (R525). -/
def rowCycles (base2 : Bool) (o : RowOps) (d n : Nat) : Nat :=
  let extra := if base2 then 14 else 0
  match o.variant with
  | 1 => n * (3 * cdiv d 128 + 72 + extra)
  | 2 => n * (3 * cdiv d 128 + 74 + extra)
  | 0 => n * cdiv (d * fnCost base2 o.func) 128
  | _ => n * cdiv d 128

/-- A-cycles from a streamed row's last entry to its last result, in which the next row already enters (R525). -/
def rowTail (base2 : Bool) (o : RowOps) : Nat :=
  match o.variant with
  | 0 => 14 * fnCost base2 o.func
  | 1 => 0
  | 2 => 0
  | 3 => 32
  | 4 => 8
  | _ => 4

/-- An RWE completes its batch of rows (R154). -/
def execRowDone (core : Nat) (end_ : Finish) (s : State) : Res :=
  .next (match runningItem s ((s.core core).crew).toList .rwe core with
    | none => s
    | some (q, j, w) =>
      let r := s.run q
      let i := r.insts.getD j {}
      match i.op with
      | .rowop o =>
        let ts := tensors i.descs
        let lo := 32 * w.item
        let n := min 32 ((nth ts 0).rowCount - lo)
        let m : FnMode := { base2 := r.base2, heirloom := setHeirloom i.set }
        match s.engineBar q core 5 end_.rx 4 with
        | some f => itemFault q j w f s
        | none =>
        match foldE (s.rowStep (s.ctx q) m o ts) {} ((List.range n).map (· + lo)) with
        | .error f => itemFault q j w f s
        | .ok y =>
          match applyYield q j 0 y s with
          | .error f => itemFault q j w f s
          | .ok s =>
            let s := s.modCore core (fun c => { c with
              rweRows := wrapAdd 64 c.rweRows n, rweEvals := wrapAdd 64 c.rweEvals y.evals })
            finishCounted q j w .rwe 2 (rowCycles r.base2 o ((nth ts 0).e 0) n + end_.stall) (rowTail r.base2 o) s
      | _ => s)

end Sys2Proof.Machine
end

