-- ==== Sys2Proof/Machine/Attention.lean ====
section
/-! DEFINITION. ATTN (07_attention.md R184 to R203), forward and backward, and the completion of MXE tiles. -/
namespace Sys2Proof.Machine

/-- ATTN (R93). -/
def execAttn (q : Nat) (o : AttnOps) (s : State) : Res := .next (dispatchWork q (.attn o) s)

/-! ### Operands -/

/-- Row i of an operand of rank 2, its n elements. -/
def State.row2 (s : State) (c : Ctx) (t : Tensor) (n i : Nat) : Except Flt (List Fv) :=
  s.elems c t ((List.range n).map (fun d => t.idx [d, i]))

/-- The m rows of keys or values, which take the narrow path where they lie in a stack (R326). -/
def State.rows2 (s : State) (c : Ctx) (t : Tensor) (n m : Nat) : Except Flt (List (List Fv)) :=
  mapE (s.row2 { c with narrow := true } t n) (List.range m)

/-- Mask bits of a query row; a causal mask apart (R188). -/
def State.maskRow (s : State) (c : Ctx) (o : AttnOps) (ts : List Tensor) (nk i : Nat) : Except Flt (List Bool) :=
  if o.mask then
    match s.row2 c (nth ts 5) nk i with
    | .error f => .error f
    | .ok l => .ok (l.map (fun v => !v.isZero))
  else .ok (List.replicate nk false)

/-- masked(i, j) of R188. -/
def maskedAt (o : AttnOps) (bits : List Bool) (i j : Nat) : Bool :=
  bits.getD j false || (o.causal && decide (o.kpos + j > o.qpos + i))

/-- c of R188. -/
def attnScale (o : AttnOps) : Fv := fmul (decFp fp32 o.scale.toNat) log2E

/-- qf of R188. -/
def roundTo (fmt : Nat) (x : Fv) : Fv := roundFv (fpOf fmt) false x

/-! ### Forward (R188 to R191) -/

/-- The running state of a query row; bad marks a row of R191. -/
structure RowState where
  m : Fv := maskedVal
  l : Fv := .zero
  o : List Fv := []
  bad : Bool := false
  deriving DecidableEq, Repr

/-- A chunk's positions: scaled scores, and none where masked or beyond Nk. -/
def chunkScores (o : AttnOps) (qrow : List Fv) (ks : List (List Fv)) (bits : List Bool) (i kb ch : Nat) :
    List (Option Fv) :=
  (List.range kb).map (fun jj =>
    let j := ch * kb + jj
    if j ≥ ks.length || maskedAt o bits i j then none
    else some (fmul (groupSum .zero (List.zipWith prod qrow (ks.getD j []))) (attnScale o)))

/-- One chunk of the running-state rule. -/
def chunkStep (fm : FnMode) (qfmt kb : Nat) (vs : List (List Fv)) (dv : Nat) (st : RowState) (ch : Nat)
    (z : List (Option Fv)) : RowState :=
  let bad := z.any (fun x => match x with
    | some v => v.isNan || v = .inf false
    | none => false)
  let zv := z.map (fun x => x.getD maskedVal)
  let mn := fmaxTree st.m (rowMax zv)
  let a := fnExp2 fm (fsub st.m mn)
  let p := z.map (fun x => match x with
    | some v => fnExp2 fm (fsub v mn)
    | none => .zero)
  let l := fadd (fmul a st.l) (rowSum p)
  let alive := z.map (fun x => match x with
    | some v => v ≠ .inf true
    | none => false)
  let pq := p.map (roundTo qfmt)
  let out := (List.range dv).map (fun v =>
    let terms := (List.range kb).map (fun jj =>
      if alive.getD jj false then prod (pq.getD jj .zero) ((vs.getD (ch * kb + jj) []).getD v .zero) else .zero)
    fadd (fmul a (st.o.getD v .zero)) (groupSum .zero terms))
  { m := mn, l := l, o := out, bad := st.bad || bad }

/-- What a query row stores: output and statistics (R190, R191). -/
def rowEnd (fm : FnMode) (last : Bool) (st : RowState) : List Fv × List Fv :=
  if st.bad then (st.o.map (fun _ => .nan), [.nan, .nan, .nan])
  else if !last then (st.o, [st.m, st.l, .zero])
  else if st.l.isZero then (st.o.map (fun _ => .zero), [maskedVal, .zero, maskedVal])
  else
    let r := fnRecip fm st.l
    (st.o.map (fun x => fmul x r), [st.m, st.l, fadd st.m (fnLog2 fm st.l)])

/-- The state a row starts from (R94, R191). -/
def State.rowStart (s : State) (c : Ctx) (o : AttnOps) (ts : List Tensor) (dv i : Nat) : Except Flt RowState :=
  if o.first then .ok { o := List.replicate dv .zero }
  else
    match s.row2 c (nth ts 6) dv i with
    | .error f => .error f
    | .ok oi =>
      match s.row2 c (nth ts 7) 2 i with
      | .error f => .error f
      | .ok sm =>
        let m := sm.getD 0 .zero
        let l := sm.getD 1 .zero
        .ok { m := m, l := l, o := oi, bad := m.isNan || l.isNan }

/-- Rows of FP32 statistics or outputs stored. -/
def storeRow2 (t : Tensor) (i : Nat) (xs : List Fv) (st : Stores) : Stores :=
  (List.range xs.length).foldl (fun u k =>
    u.elem t (t.idx [k, i]) (encFp (fpOf t.fmt) (roundFv (fpOf t.fmt) false (xs.getD k .zero)))) st

/-- Forward, one query row. -/
def State.attnRow (s : State) (c : Ctx) (fm : FnMode) (o : AttnOps) (ts : List Tensor) (ks vs : List (List Fv))
    (st : Stores) (i : Nat) : Except Flt Stores :=
  let d := attnDims ts
  let kb := attnKb d
  match s.row2 c (nth ts 0) d.dh i with
  | .error f => .error f
  | .ok qrow =>
    match s.maskRow c o ts d.nk i with
    | .error f => .error f
    | .ok bits =>
      match s.rowStart c o ts d.dv i with
      | .error f => .error f
      | .ok r0 =>
        let r := (List.range (cdiv d.nk kb)).foldl (fun r ch =>
          chunkStep fm (nth ts 0).fmt kb vs d.dv r ch (chunkScores o qrow ks bits i kb ch)) r0
        let e := rowEnd fm o.last r
        .ok (storeRow2 (nth ts 4) i e.2 (storeRow2 (nth ts 3) i e.1 st))

/-- Forward, the tile's query rows (R196). -/
def State.attnForward (s : State) (c : Ctx) (fm : FnMode) (o : AttnOps) (ts : List Tensor) (rows : List Nat) :
    Except Flt Stores :=
  let d := attnDims ts
  match s.rows2 c (nth ts 1) d.dh d.nk with
  | .error f => .error f
  | .ok ks =>
    match s.rows2 c (nth ts 2) d.dv d.nk with
    | .error f => .error f
    | .ok vs => foldE (s.attnRow c fm o ts ks vs) [] rows

/-! ### Backward (R194, R195) -/

/-- What variant 1 reads of a query row: Q, dO, mask bits, sl, sls, dr. -/
structure BackRow where
  i : Nat := 0
  qrow : List Fv := []
  go : List Fv := []
  bits : List Bool := []
  sl : Fv := .zero
  sls : Fv := .zero
  dr : Fv := .zero
  deriving DecidableEq, Repr

def State.backRow (s : State) (c : Ctx) (o : AttnOps) (ts : List Tensor) (i : Nat) : Except Flt BackRow :=
  let d := attnDims ts
  match s.row2 c (nth ts 0) d.dh i with
  | .error f => .error f
  | .ok qrow =>
    match s.row2 c (nth ts 6) d.dv i with
    | .error f => .error f
    | .ok go =>
      match s.row2 c (nth ts 3) d.dv i with
      | .error f => .error f
      | .ok oo =>
        match s.row2 c (nth ts 4) 3 i with
        | .error f => .error f
        | .ok st =>
          match s.maskRow c o ts d.nk i with
          | .error f => .error f
          | .ok bits => .ok { i := i, qrow := qrow, go := go, bits := bits, sl := st.getD 1 .zero
                              sls := st.getD 2 .zero, dr := rowSum (List.zipWith fmul go oo) }

/-- p and g of query row r and key row j, rounded to Q's format; none where the row's saved sum is 0, which
contributes +0 (R178). -/
def backPair (fm : FnMode) (o : AttnOps) (qfmt : Nat) (r : BackRow) (krow vrow : List Fv) (j : Nat) :
    Option (Fv × Fv) :=
  if r.sl.isZero then none
  else
    let z := fmul (groupSum .zero (List.zipWith prod r.qrow krow)) (attnScale o)
    let p := if maskedAt o r.bits r.i j then .zero else fnExp2 fm (fsub z r.sls)
    let dp := groupSum .zero (List.zipWith prod r.go vrow)
    let g := fmul (fmul p (fsub dp r.dr)) (decFp fp32 o.scale.toNat)
    some (roundTo qfmt p, roundTo qfmt g)

/-- A gradient element: the group sum of a factor of each pair by an element. -/
def gradSum (pairs : List (Option Fv)) (xs : List Fv) : Fv :=
  groupSum .zero (List.zipWith (fun p x => match p with
    | some v => prod v x
    | none => .zero) pairs xs)

/-- Phase A: dK and dV of the tile's key rows. -/
def backKeys (fm : FnMode) (o : AttnOps) (ts : List Tensor) (rs : List BackRow) (ks vs : List (List Fv)) (rows : List Nat) :
    Stores :=
  let d := attnDims ts
  rows.foldl (fun st j =>
    let pg := rs.map (fun r => backPair fm o (nth ts 0).fmt r (ks.getD j []) (vs.getD j []) j)
    let dk := (List.range d.dh).map (fun k =>
      gradSum (pg.map (·.map (·.2))) (rs.map (fun r => r.qrow.getD k .zero)))
    let dv := (List.range d.dv).map (fun v =>
      gradSum (pg.map (·.map (·.1))) (rs.map (fun r => r.go.getD v .zero)))
    storeRow2 (nth ts 9) j dv (storeRow2 (nth ts 8) j dk st)) []

/-- Phase B: dQ of the tile's query rows. -/
def State.backQueries (s : State) (c : Ctx) (fm : FnMode) (o : AttnOps) (ts : List Tensor) (rs : List BackRow)
    (ks vs : List (List Fv)) : Except Flt Stores :=
  let d := attnDims ts
  foldE (fun st r =>
    let pg := (List.range d.nk).map (fun j => backPair fm o (nth ts 0).fmt r (ks.getD j []) (vs.getD j []) j)
    let dq := (List.range d.dh).map (fun k => gradSum (pg.map (·.map (·.2))) (ks.map (fun x => x.getD k .zero)))
    if o.first then .ok (storeRow2 (nth ts 7) r.i dq st)
    else match s.row2 c (nth ts 10) d.dh r.i with
      | .error f => .error f
      | .ok old => .ok (storeRow2 (nth ts 7) r.i (if d.nk = 0 then old else List.zipWith fadd old dq) st)) [] rs

/-! ### Tiles -/

/-- Rows of tile t of T rows over n. -/
def bandRows (t size n : Nat) : List Nat := (List.range (min size (n - t * size))).map (· + t * size)

/-- Phase A tiles of variant 1. -/
def phaseA (d : AttnDims) (shape : Nat × Nat) : Nat := cdiv d.nk shape.2

/-- What a tile of an ATTN stores. -/
def State.attnItem (s : State) (q : Nat) (i : Inst) (o : AttnOps) (t : Nat) : Except Flt Stores :=
  let c := s.ctx q
  let ts := tensors i.descs
  let d := attnDims ts
  let fm : FnMode := { base2 := (s.run q).base2, heirloom := setHeirloom i.set }
  if !o.back then s.attnForward c fm o ts (bandRows t i.shape.1 d.mq)
  else
    match s.rows2 c (nth ts 1) d.dh d.nk with
    | .error f => .error f
    | .ok ks =>
      match s.rows2 c (nth ts 2) d.dv d.nk with
      | .error f => .error f
      | .ok vs =>
        if t < phaseA d i.shape then
          match mapE (s.backRow c o ts) (List.range d.mq) with
          | .error f => .error f
          | .ok rs => .ok (backKeys fm o ts rs ks vs (bandRows t i.shape.2 d.nk))
        else
          match mapE (s.backRow c o ts) (bandRows (t - phaseA d i.shape) i.shape.1 d.mq) with
          | .error f => .error f
          | .ok rs => s.backQueries c fm o ts rs ks vs

/-- Chunks of a tile. -/
def attnChunks (i : Inst) (o : AttnOps) (t : Nat) : Nat :=
  let d := attnDims (tensors i.descs)
  if o.back && decide (t < phaseA d i.shape) then cdiv d.mq (attnKb d) else cdiv d.nk (attnKb d)

/-- A-cycles of a tile (R199; notes/assumptions/36.md for variant 1). -/
def attnCycles (i : Inst) (o : AttnOps) (t : Nat) : Nat :=
  let d := attnDims (tensors i.descs)
  let kb := attnKb d
  let n := attnChunks i o t
  let band := if o.back && decide (t < phaseA d i.shape) then i.shape.2 / 32 else i.shape.1 / 32
  let ts := band * (kb / 32) * roundUp d.dh 32
  let tp := band * cdiv d.dv 32 * kb
  let drain := band * cdiv d.dv 32 * 32
  if n = 0 then drain + 39
  else if o.back then n * ((if t < phaseA d i.shape then 4 else 3) * ts) + 39
  else (if n ≥ 2 then n * (ts + tp) + 39 else ts + tp + 2 * i.shape.1 + 124) + (if o.last then drain else 0)

/-- Query rows of a tile, and its key rows: a phase A tile takes every query row. -/
def attnRows (i : Inst) (o : AttnOps) (t : Nat) : List Nat × List Nat :=
  let d := attnDims (tensors i.descs)
  if !o.back then (bandRows t i.shape.1 d.mq, List.range d.nk)
  else if t < phaseA d i.shape then (List.range d.mq, bandRows t i.shape.2 d.nk)
  else (bandRows (t - phaseA d i.shape) i.shape.1 d.mq, List.range d.nk)

/-- Positions of a row among some key rows that are not masked (R188). -/
def State.liveKeys (s : State) (c : Ctx) (o : AttnOps) (ts : List Tensor) (keys : List Nat) (i : Nat) : Nat :=
  match s.maskRow c o ts (attnDims ts).nk i with
  | .error _ => 0
  | .ok bits => (keys.filter (fun j => !maskedAt o bits i j)).length

/-- Native evaluations of chunk ch of a forward tile: an exponential of each position that is not masked, and one for
each row's running state (R188). -/
def shareEvals (s : State) (c : Ctx) (i : Inst) (o : AttnOps) (t ch : Nat) : Nat :=
  let ts := tensors i.descs
  let d := attnDims ts
  let kb := attnKb d
  let keys := (List.range (min kb (d.nk - ch * kb))).map (· + ch * kb)
  ((attnRows i o t).1.map (fun r => 1 + s.liveKeys c o ts keys r)).foldl (· + ·) 0

/-- Native evaluations at a tile's end: recip and log2 of each row of a last block that is not fully masked (R190); in
variant 1 an exponential of each pair that is not masked (R194). -/
def endEvals (s : State) (c : Ctx) (i : Inst) (o : AttnOps) (t : Nat) (base2 : Bool) : Nat :=
  let ts := tensors i.descs
  let rows := attnRows i o t
  if o.back then (rows.1.map (fun r => match s.row2 c (nth ts 4) 2 r with
    | .error _ => 0
    | .ok st => if (st.getD 1 .zero).isZero then 0 else s.liveKeys c o ts rows.2 r)).foldl (· + ·) 0
  else if o.last then (rows.1.filter (fun r => decide (s.liveKeys c o ts rows.2 r ≠ 0))).length *
    (fnCost base2 4 + fnCost base2 1)
  else 0

/-- Granules that a tile reads through the Harbour: keys and values in a stack take the narrow path (R326). -/
def attnReads (s : State) (c : Ctx) (i : Inst) (o : AttnOps) (t : Nat) : List Nat :=
  let ts := tensors i.descs
  let d := attnDims ts
  let rows := attnRows i o t
  let of := fun (k n : Nat) (l : List Nat) => l.flatMap (fun r => (nth ts k).granules ((nth ts k).idx [0, r]) n)
  let kv := (of 1 d.dh (List.range d.nk) ++ of 2 d.dv (List.range d.nk)).filter (fun va =>
    match s.locate c readRole va with
    | .ok (.mooring ..) => true
    | _ => false)
  of 0 d.dh rows.1 ++ kv ++ (if o.mask then of 5 d.nk rows.1 else []) ++
    (if o.back then of 3 d.dv rows.1 ++ of 4 3 rows.1 ++ of 6 d.dv rows.1 ++ (if o.first then [] else of 10 d.dh rows.1)
     else if o.first then [] else of 6 d.dv rows.1 ++ of 7 2 rows.1)

/-- The RWE completes its share of a chunk (R198). `wait` is what the MXE stalled for it. The output product of chunk
c - 2 has been issued before the scores of chunk c, so that chunk is complete then (R203). -/
def execAttnShareDone (mxe wait : Nat) (s : State) : Res :=
  .next (match mxeItem s mxe with
    | none => s
    | some (q, j, w) =>
      let i := (s.run q).insts.getD j {}
      match i.op with
      | .attn o =>
        if o.back || decide (w.shares ≥ attnChunks i o w.item) then s
        else
          match s.trayBar q (mxe / 4) (mxe % 4 + 1) with
          | some f => itemFault q j w f s
          | none =>
            let evals := shareEvals s (s.ctx q) i o w.item w.shares
            let s := s.modCore (mxe / 4) (fun c => { c with
              attnWait := wrapAdd 64 c.attnWait wait
              attnChunks := if w.shares ≥ 2 then wrapAdd 64 c.attnChunks 1 else c.attnChunks
              rweEvals := wrapAdd 64 c.rweEvals evals })
            let s := addCycles (s.queue q).berth 2 (2 * i.shape.1 + 46) s
            let more := decide (w.shares + 1 < attnChunks i o w.item)
            let s := s.modMxe mxe (fun m => { m with
              stream := m.stream && more, streamHeirloom := m.streamHeirloom && more
              streamBase2 := m.streamBase2 && more })
            s.modInst q j (fun x => { x with work := x.work.map (fun v =>
              if v.item = w.item then { v with shares := v.shares + 1 } else v) })
      | _ => s)

/-- A tile of an ATTN completes, all of its shares done. -/
def finishAttn (mxe stall q j : Nat) (o : AttnOps) (w : Work) (s : State) : State :=
  let i := (s.run q).insts.getD j {}
  if !o.back && decide (w.shares < attnChunks i o w.item) then s
  else match s.attnItem q i o w.item with
    | .error f => itemFault q j w f s
    | .ok st =>
      let n := attnChunks i o w.item
      let evals := endEvals s (s.ctx q) i o w.item (s.run q).base2
      match applyYield q j 0 { st := st, reads := attnReads s (s.ctx q) i o w.item } s with
      | .error f => itemFault q j w f s
      | .ok s =>
        let s := s.modCore (mxe / 4) (fun c => { c with
          attnChunks := wrapAdd 64 c.attnChunks (if o.back then n else min n 2)
          rweEvals := wrapAdd 64 c.rweEvals evals })
        let s := addCycles (s.queue q).berth 1 (attnCycles i o w.item + stall) s
        finishItem q j w (s.modMxe mxe (fun m => { m with tiles := wrapAdd 64 m.tiles 1 }))

/-- An MXE completes and drains a tile (R151, R199). -/
def execTileDone (mxe stall : Nat) (rx : BitVec 288) (s : State) : Res :=
  .next (match mxeItem s mxe with
    | none => s
    | some (q, j, w) =>
      let i := (s.run q).insts.getD j {}
      match s.engineBar q (mxe / 4) (mxe % 4 + 1) rx 4 with
      | some f => itemFault q j w f s
      | none => match i.op with
        | .prob o => finishProb mxe stall q j o w s
        | .attn o => finishAttn mxe stall q j o w s
        | _ => s)

end Sys2Proof.Machine
end

