-- ==== Sys2Proof/Machine/Stripes.lean ====
section
/-! DEFINITION. STRIPE (10_stripes.md): convolution, pooling, argmax, zero-compressed maps. -/
namespace Sys2Proof.Machine

/-- STRIPE (R96). -/
def execStripe (q : Nat) (o : StripeOps) (s : State) : Res := .next (dispatchWork q (.stripe o) s)

/-! ### Zero-compressed maps (R257 to R259) -/

/-- Raw elements of row r of a zero-compressed map, in bit order; the header is ignored (R259). -/
def State.zcRow (s : State) (c : Ctx) (t : Tensor) (r : Nat) : Except Flt (List Nat) :=
  let n := t.e 0 * t.e 1
  let a := zcSlot t r + 32
  match s.readBytes c readRole a (bitmapBytes n) with
  | .error f => .error f
  | .ok bm =>
    let bits := (List.range n).map (fun i => bit (leNat bm) i)
    match foldE (fun acc b =>
        if b then
          match s.readNat c (a + bitmapBytes n + acc.1 * elemBytes t) (elemBytes t) with
          | .error f => .error f
          | .ok v => .ok (acc.1 + 1, v :: acc.2)
        else .ok (acc.1, 0 :: acc.2)) ((0, []) : Nat × List Nat) bits with
    | .error f => .error f
    | .ok p => .ok p.2.reverse

/-- Granules that a reader of row r's record touches: its bitmap and its values. -/
def State.zcGranules (s : State) (c : Ctx) (t : Tensor) (r : Nat) : List Nat :=
  match s.zcRow c t r with
  | .error _ => []
  | .ok raw =>
    let a := zcSlot t r + 32
    spanVas a (a + bitmapBytes raw.length + (raw.filter (· ≠ 0)).length * elemBytes t - 1)

/-- Length of a row's record. -/
def zcLength (t : Tensor) (raw : List Nat) : Nat :=
  32 + bitmapBytes raw.length + roundUp ((raw.filter (· ≠ 0)).length * elemBytes t) 32

/-- Bytes of a row's record (Table 10.3). -/
def zcRecord (t : Tensor) (raw : List Nat) : List Byte :=
  let nz := raw.filter (· ≠ 0)
  let vals := nz.flatMap (leBytes (elemBytes t))
  let bm := (List.range raw.length).foldl (fun acc i => if raw.getD i 0 = 0 then acc else acc + 2 ^ i) 0
  leBytes 4 nz.length ++ leBytes 4 (zcLength t raw) ++ List.replicate 24 0 ++ leBytes (bitmapBytes raw.length) bm ++
    vals ++ List.replicate (roundUp vals.length 32 - vals.length) 0

/-! ### Input (R241, R242, R246, R247) -/

/-- Input position of an output position and a tap, in one direction; none for padding and for taps that do not land. -/
def tapAt (up : Bool) (out f pad stride n : Nat) : Option Nat :=
  if up then
    if out + pad < f ∨ (out + pad - f) % stride ≠ 0 ∨ (out + pad - f) / stride ≥ n then none
    else some ((out + pad - f) / stride)
  else if out * stride + f < pad ∨ out * stride + f - pad ≥ n then none
  else some (out * stride + f - pad)

/-- Input positions that a range of output positions reads, rising. -/
def tapSet (up : Bool) (outs : List Nat) (f pad stride n : Nat) : List Nat :=
  let hits := outs.flatMap (fun y => (List.range f).filterMap (fun k => tapAt up y k pad stride n))
  (List.range n).filter (hits.contains ·)

/-- Channels of the input positions that are read, by row and column. -/
abbrev Patch := List (Nat × List (Nat × List Fv))

/-- One row of the input: dense, or expanded from its record. -/
def State.inputRow (s : State) (c : Ctx) (d : Desc) (cols : List Nat) (y : Nat) : Except Flt (List (Nat × List Fv)) :=
  let t := tensorOf d.bits
  if isZc c.img d then
    match s.zcRow c t y with
    | .error f => .error f
    | .ok raw => mapE (fun x => match mapE (fun k => match decElem t.fmt (raw.getD (x * t.e 0 + k) 0) with
        | .error e => .error ((0x08, e) : Flt)
        | .ok v => .ok v) (List.range (t.e 0)) with
      | .error f => .error f
      | .ok l => .ok (x, l)) cols
  else
    mapE (fun x => match s.elems c t ((List.range (t.e 0)).map (fun k => t.idx [k, x, y])) with
      | .error f => .error f
      | .ok l => .ok (x, l)) cols

def State.patch (s : State) (c : Ctx) (d : Desc) (rows cols : List Nat) : Except Flt Patch :=
  mapE (fun y => match s.inputRow c d cols y with
    | .error f => .error f
    | .ok l => .ok (y, l)) rows

/-- The element at (y, x, k); +0 outside. -/
def Patch.get (p : Patch) (y x : Option Nat) (k : Nat) : Fv :=
  match y, x with
  | some y, some x =>
    match p.find? (fun r => r.1 = y) with
    | none => .zero
    | some r => match r.2.find? (fun e => e.1 = x) with
      | none => .zero
      | some e => e.2.getD k .zero
  | _, _ => .zero

/-! ### One output element -/

/-- Weights of an output channel along the flattened k (R241). -/
def State.weights (s : State) (c : Ctx) (t : Tensor) (g : Conv) (co : Nat) : Except Flt (List Fv) :=
  s.elems c t ((List.range g.fh).flatMap (fun fy => (List.range g.fw).flatMap (fun fx =>
    (List.range g.cin).map (fun ci => t.idx [ci, fx, fy, co]))))

/-- Input terms of output position (y, x) along the flattened k. -/
def convTerms (o : StripeOps) (g : Conv) (p : Patch) (y x : Nat) : List Fv :=
  let up := decide (o.variant = 3)
  (List.range g.fh).flatMap (fun fy => (List.range g.fw).flatMap (fun fx =>
    let iy := tapAt up y fy o.py g.sy g.h
    let ix := tapAt up x fx o.px g.sx g.w
    (List.range g.cin).map (fun ci => p.get iy ix ci)))

/-- The product of a term that does not land, or of padding, is +0 whatever the weight: terms and weights are
multiplied only where the input lies inside (R242, R246). -/
def convSum (fmt : Nat) (ins ws : List Fv) (inside : List Bool) : Fv :=
  if fmt = 3 then .ofInt (dotInt ins ws)
  else
    let ps := List.zipWith prod ins ws
    groupSum .zero (List.zipWith (fun p b => if b then p else .zero) ps inside)

/-- Where a term counts: for UPCONV only the taps that land; padding of CONV reads as zero and is multiplied (R242,
R246). -/
def termInside (o : StripeOps) (g : Conv) (y x : Nat) : List Bool :=
  (List.range g.fh).flatMap (fun fy => (List.range g.fw).flatMap (fun fx =>
    let lands := o.variant ≠ 3 || ((tapAt true y fy o.py g.sy g.h).isSome && (tapAt true x fx o.px g.sx g.w).isSome)
    List.replicate g.cin lands))

/-- A pooling window of channel k, fy and then fx rising; an average is rounded once, to the output format (R244). -/
def poolValue (o : StripeOps) (g : Conv) (p : Patch) (fmt y x k : Nat) : Fv :=
  let win := (List.range g.fh).flatMap (fun fy => (List.range g.fw).map (fun fx =>
    p.get (tapAt false y fy o.py g.sy g.h) (tapAt false x fx o.px g.sx g.w) k))
  if o.variant = 1 then win.tail.foldl fmaxTree (win.headD .zero)
  else roundFv (fpOf fmt) false (prod (win.foldl fadd .zero) (fdiv one (.ofInt (g.fh * g.fw : Nat))))

/-- Drained value of an output element. -/
def State.stripeCell (s : State) (c : Ctx) (i : Inst) (o : StripeOps) (base2 : Bool) (g : Conv) (p : Patch)
    (ws : List (List Fv)) (y x k : Nat) : Except Flt Fv :=
  let ts := tensors i.descs
  if o.variant = 1 ∨ o.variant = 2 then .ok (poolValue o g p (nth ts 2).fmt y x k)
  else
    let v := convSum (nth ts 0).fmt (convTerms o g p y x) (ws.getD k []) (termInside o g y x)
    match s.drainAux c o.fn (nth ts 3) ((nth ts 3).idx [k, x, y]) k with
    | .error f => .error f
    | .ok a =>
      let v := if (nth ts 2).fmt = 6 then v else roundFv fp32 false v
      .ok (drainFn base2 o.fn v a)

/-- The largest of a pixel's values and its channel (R250). -/
def argmax (vs : List Fv) : Fv × Nat :=
  match vs.findIdx? Fv.isNan with
  | some k => (.nan, k)
  | none =>
    (List.range vs.length).foldl (fun b k =>
      let v := vs.getD k .zero
      if k = 0 then (v, 0)
      else if b.1.lt v || (b.1.isZero && v.isZero && b.1.negative && !v.negative) then (v, k) else b) (.zero, 0)

/-! ### A stripe -/

/-- Output rows of a stripe. -/
def stripeOut (i : Inst) (g : Conv) (t : Nat) : List Nat := bandRows t i.shape.1 g.ho

/-- Input rows that a stripe reads. -/
def stripeIn (i : Inst) (o : StripeOps) (g : Conv) (t : Nat) : List Nat :=
  tapSet (o.variant = 3) (stripeOut i g t) g.fh o.py g.sy g.h

/-- Raw bits of a value in the output format. -/
def rawOut (t : Tensor) (v : Fv) : Except Flt Nat :=
  match convScalar t.fmt false v with
  | .error d => .error (0x08, d)
  | .ok r => .ok r

/-- What one output row leaves. -/
def stripeRow (img : Image) (j : Nat) (i : Inst) (o : StripeOps) (y : Nat) (px : List (List Fv)) (acc : Yield × Nat) :
    Except Flt (Yield × Nat) :=
  let ts := tensors i.descs
  let t := nth ts 2
  let out := acc.1
  if o.argmax then
    foldE (fun a x =>
      match mapE (rawOut t) (px.getD x []) with
      | .error f => .error f
      | .ok raws =>
        let vs := raws.map (fun r => match decElem t.fmt r with
          | .ok v => v
          | .error _ => .nan)
        let p := argmax vs
        match rawOut t p.1 with
        | .error f => .error f
        | .ok r =>
          let st := (a.1.st.elem t (t.idx [0, x, y]) r).elem (nth ts 3) ((nth ts 3).idx [0, x, y]) p.2
          .ok ({ a.1 with st := st }, a.2)) acc (List.range px.length)
  else
    let cells := (List.range px.length).flatMap (fun x =>
      (List.range (px.getD x []).length).map (fun k => (t.idx [k, x, y], (px.getD x []).getD k .zero)))
    match outDest img (i.descs.getD 2 {}).va with
    | .reduce =>
      let raw := fun (v : Fv) => if t.fmt = 6 then ofSigned (roundInt true v) 32 else encFp fp32 v
      let es := cells.map (fun p => (t.base + 4 * p.1, BitVec.ofNat 32 (raw p.2)))
      let rec_ : HeldRec := { inst := j, ord := y, eff := .reduce (if t.fmt = 6 then 0 else 10) es }
      .ok ({ out with held := out.held ++ [rec_] }, acc.2)
    | .accum _ => .ok ({ out with acc := out.acc ++ cells.map (fun p => (t.base + 4 * p.1, p.2)) }, acc.2)
    | .store =>
      match mapE (fun p => rawOut t p.2) cells with
      | .error f => .error f
      | .ok raws =>
        if o.zc then .ok ({ out with st := out.st.bytes (zcSlot t y) (zcRecord t raws) }, acc.2 + zcLength t raws)
        else .ok ({ out with st := (cells.zip raws).foldl (fun u p => u.elem t p.1.1 p.2) out.st }, acc.2)

/-- What a stripe leaves, with the bytes of zero-compressed records that it writes. -/
def State.stripeItem (s : State) (q j : Nat) (i : Inst) (o : StripeOps) (t : Nat) : Except Flt (Yield × Nat) :=
  let c := s.ctx q
  let base2 := (s.run q).base2
  let ts := tensors i.descs
  let g := convOf o ts
  let rows := stripeIn i o g t
  let cols := tapSet (o.variant = 3) (List.range g.wo) g.fw o.px g.sx g.w
  match s.patch c (i.descs.getD 0 {}) rows cols with
  | .error f => .error f
  | .ok p =>
    let pool := o.variant = 1 || o.variant = 2
    let blank := g.h = 0 ∨ g.w = 0
    match (if pool ∨ blank then .ok [] else mapE (s.weights c (nth ts 1) g) (List.range g.co)) with
    | .error f => .error f
    | .ok ws =>
      match foldE (fun acc y =>
          match mapE (fun x => mapE (s.stripeCell c i o base2 g p ws y x) (List.range g.co)) (List.range g.wo) with
          | .error f => .error f
          | .ok px => stripeRow c.img j i o y px acc) (({}, 0) : Yield × Nat) (stripeOut i g t) with
      | .error f => .error f
      | .ok (y, zb) =>
        let tx := nth ts 0
        let tw := nth ts 1
        let ta := nth ts 3
        let ins := if isZc c.img (i.descs.getD 0 {}) then rows.flatMap (s.zcGranules c tx)
          else rows.flatMap (fun r => cols.flatMap (fun x => tx.span (tx.idx [0, x, r]) g.cin))
        let wts := if pool ∨ blank then [] else (List.range g.co).flatMap (fun co =>
          (List.range g.fh).flatMap (fun fy => (List.range g.fw).flatMap (fun fx =>
            tw.span (tw.idx [0, fx, fy, co]) g.cin)))
        let aux := if drainBias o.fn then ta.span 0 g.co
          else if drainSaved o.fn then (stripeOut i g t).flatMap (fun y => (List.range g.wo).flatMap (fun x =>
            ta.span (ta.idx [0, x, y]) g.co))
          else []
        let reads := ins ++ wts ++ aux
        let n := (stripeOut i g t).length * g.wo * g.co
        .ok ({ y with reads := reads, evals := if pool then 0 else n * drainCost base2 o.fn }, zb)

/-- A-cycles of a stripe until the next one starts, 40 before it completes (R255). -/
def stripeCycles (o : StripeOps) (ts : List Tensor) (g : Conv) (hs : Nat) : Nat :=
  let lanes := hs * cdiv g.wo 32 * cdiv g.co 16
  if o.variant = 1 ∨ o.variant = 2 then lanes * (g.fh * g.fw)
  else
    let k := if o.variant = 3 then cdiv g.fh g.sy * cdiv g.fw g.sx * g.cin else g.fh * g.fw * g.cin
    lanes * roundUp k 32 / (if (nth ts 0).fmt = 3 then 2 else 1)

/-- The engine of a stripe that has completed, or that runs or waits. -/
def stripeEngine (i : Inst) (t : Nat) : Option Nat :=
  ((i.engLast.find? (fun p => p.2 = t)).map (·.1)).orElse (fun _ => (i.work.find? (fun v => v.item = t)).map (·.eng))

/-- Input rows that a stripe fetches and that an earlier stripe on another engine fetches too (R254, R260). A stripe that
follows its predecessor on its engine keeps the rows that the two share. -/
def refetched (i : Inst) (o : StripeOps) (g : Conv) (w : Work) : Nat :=
  let follows := w.item ≠ 0 && (i.engLast.find? (fun p => p.1 = w.eng)).map (·.2) = some (w.item - 1)
  let kept := if follows then stripeIn i o g (w.item - 1) else []
  let fetched := (stripeIn i o g w.item).filter (!kept.contains ·)
  let others := (List.range w.item).filter (fun t => (stripeEngine i t).any (· ≠ w.eng))
  (fetched.filter (fun r => others.any (fun t => (stripeIn i o g t).contains r))).length

/-- The tray of an accumulating output; tray 0 where the output does not accumulate. -/
def outTray : OutDest → Nat
  | .accum t => t
  | _ => 0

/-- A Stripe engine completes a stripe (R255). -/
def execStripeDone (cluster : Nat) (end_ : Finish) (s : State) : Res :=
  .next (match runningItem s (clusterRuns s cluster) .stripe cluster with
    | none => s
    | some (q, j, w) =>
      let i := (s.run q).insts.getD j {}
      match i.op with
      | .stripe o =>
        let ts := tensors i.descs
        let g := convOf o ts
        match (List.range 8).findSome? (fun k => s.engineBar q (8 * cluster + k) 8 end_.rx 4) with
        | some f => itemFault q j w f s
        | none =>
        match s.stripeItem q j i o w.item with
        | .error f => itemFault q j w f s
        | .ok (y, zb) =>
          let tray := outTray (outDest (s.ctx q).img (i.descs.getD 2 {}).va)
          match applyYield q j tray y s with
          | .error f => itemFault q j w f s
          | .ok s =>
            let s := s.modCluster cluster (fun c => { c with
              strDone := wrapAdd 64 c.strDone 1
              strRefetch := wrapAdd 64 c.strRefetch (refetched i o g w)
              strZcBytes := wrapAdd 64 c.strZcBytes zb })
            let lead := (sortNat (s.run q).crew).reverse.find? (fun k => clusterOf k = cluster)
            let s := s.modCore (lead.getD 0) (fun c => { c with rweEvals := wrapAdd 64 c.rweEvals y.evals })
            let hs := (stripeOut i g w.item).length
            let s := s.modInst q j (fun x => { x with engLast := (cluster, w.item) :: x.engLast })
            finishCounted q j w .stripe 4 (stripeCycles o ts g hs + end_.stall) 40 s
      | _ => s)

end Sys2Proof.Machine
end

