-- ==== Sys2Proof/Machine/Movement.lean ====
section
/-! DEFINITION. PEEL (03_instructions.md R98, R99, R527, R531; 09_backward.md R230; 16_causeway.md R405) and ATOM
(R100). -/
namespace Sys2Proof.Machine

/-- PEEL (R98). -/
def execPeel (q : Nat) (o : PeelOps) (s : State) : Res := .next (dispatchWork q (.peel o) s)

/-! ### Reading the source -/

/-- A byte that a remote read delivered; poison raises POISON detail 3 (R405, R425). -/
def gotByte (i : Inst) (a : Nat) : Except Flt Byte :=
  match i.got.find? (fun g => decide (g.1 ≤ a) && decide (a < g.1 + g.2.1.length)) with
  | none => .ok 0
  | some g => if g.2.2 then .error (0x04, 3) else .ok (g.2.1.getD (a - g.1) 0)

/-- A byte of a PEEL's source: delivered from another part, a word of an accumulator window (R230), or local. -/
def State.peelByte (s : State) (c : Ctx) (i : Inst) (t : Tensor) (a : Nat) : Except Flt Byte :=
  if t.remote then gotByte i a
  else match c.acc a with
    | some d =>
      let w := (a - d.window) / 4
      match s.accBar d w with
      | some f => .error f
      | none => .ok (s.byteAt c (.acc d w) a)
    | none => s.readByte c readRole a

def State.peelNat (s : State) (c : Ctx) (i : Inst) (t : Tensor) (a n : Nat) : Except Flt Nat :=
  match mapE (fun k => s.peelByte c i t (a + k)) (List.range n) with
  | .error f => .error f
  | .ok bs => .ok (leNat bs)

/-- Raw bits of element e of a PEEL's source, its reserved encodings refused (R108). -/
def State.peelRaw (s : State) (c : Ctx) (i : Inst) (t : Tensor) (e : Nat) : Except Flt Nat :=
  let b := t.base * 8 + e * elemBits t.fmt
  let first := b / 8
  let last := (b + elemBits t.fmt - 1) / 8
  match s.peelNat c i t first (last + 1 - first) with
  | .error f => .error f
  | .ok n =>
    let raw := field n (b % 8) (elemBits t.fmt)
    match decElem t.fmt raw with
    | .error d => .error (0x08, d)
    | .ok _ => .ok raw

/-- Exact value of element e of a PEEL's source. -/
def State.peelElem (s : State) (c : Ctx) (i : Inst) (t : Tensor) (e : Nat) : Except Flt Fv :=
  match s.peelRaw c i t e with
  | .error f => .error f
  | .ok raw =>
    let v := match decElem t.fmt raw with
      | .ok v => v
      | .error _ => .zero
    if isBlock t.fmt then
      match s.peelByte c i t (t.scaleBase + e / 32) with
      | .error f => .error f
      | .ok x => .ok (v.scale (toSigned x.toNat 8))
    else .ok v

/-! ### Moving rows -/

/-- Raw elements of row e0 and the exponents of its blocks. -/
structure RawRow where
  xs : List Nat := []
  ex : List Nat := []
  deriving DecidableEq, Repr

def State.rawRow (s : State) (c : Ctx) (i : Inst) (t : Tensor) (e0 n : Nat) : Except Flt RawRow :=
  match mapE (fun k => s.peelRaw c i t (e0 + k)) (List.range n) with
  | .error f => .error f
  | .ok xs =>
    if isBlock t.fmt then
      match mapE (fun k => s.peelNat c i t (t.scaleBase + e0 / 32 + k) 1) (List.range (cdiv n 32)) with
      | .error f => .error f
      | .ok ex => .ok { xs := xs, ex := ex }
    else .ok { xs := xs }

/-- A raw row stored at index e0. -/
def putRaw (t : Tensor) (e0 : Nat) (r : RawRow) (st : Stores) : Stores :=
  let st := (List.range r.xs.length).foldl (fun u k => u.elem t (e0 + k) (r.xs.getD k 0)) st
  (List.range r.ex.length).foldl (fun u k => u.byte (t.scaleBase + e0 / 32 + k) 255 (r.ex.getD k 0)) st

/-- Indices of R72 of the source elements of row r of the destination, of n elements (R98). -/
def sourceIdx (o : PeelOps) (src dst : Tensor) (r n : Nat) : List Nat :=
  if o.variant = 1 then
    let d1 := dst.e 1
    let i1 := r % d1
    let rest := r / d1
    let i2 := rest % dst.e 2
    let i3 := rest / dst.e 2 % dst.e 3
    let i4 := rest / dst.e 2 / dst.e 3
    (List.range n).map (fun k => src.idx [i1, k, i2, i3, i4])
  else (List.range n).map (· + src.rows.getD r 0)

/-- Raw bits of one element converted (R124 to R127): the value, and whether promotion altered it. A block-scaled value
becomes FP32 through promote. -/
def convElem (srcFmt dstFmt : Nat) (trunc : Bool) (x : Fv) : Except Flt (Nat × Bool) :=
  let p := if isBlock srcFmt && dstFmt = 0 then widen x else (x, false)
  match convScalar dstFmt trunc p.1 with
  | .error d => .error (0x08, d)
  | .ok raw => .ok (raw, p.2)

/-- Values of row r of the destination as they enter its blocks: from a block-scaled format a CONVERT passes through
FP32 (R126). -/
def State.blockRow (s : State) (c : Ctx) (i : Inst) (o : PeelOps) (src dst : Tensor) (r : Nat) :
    Except Flt (List Fv × Bool) :=
  match mapE (s.peelElem c i src) (sourceIdx o src dst r (dst.e 0)) with
  | .error f => .error f
  | .ok xs =>
    if o.variant = 3 && isBlock src.fmt then
      let ps := xs.map widen
      .ok (ps.map (·.1), ps.any (·.2))
    else .ok (xs, false)

/-- Index of a GATHER's row; none outside the source's rows. -/
def State.gatherRow (s : State) (c : Ctx) (ts : List Tensor) (r : Nat) : Except Flt (Option Nat) :=
  match s.rawElem c (nth ts 2) ((nth ts 2).idx [r]) with
  | .error f => .error f
  | .ok raw =>
    let v := toSigned raw 32
    .ok (if v < 0 ∨ v ≥ (nth ts 0).e 1 then none else some v.toNat)

/-- Row r of a COPY, GATHER, TRANSPOSE or CONVERT whose destination is not formed into blocks. -/
def State.moveRow (s : State) (c : Ctx) (i : Inst) (o : PeelOps) (ts : List Tensor) (acc : Stores × Bool) (r : Nat) :
    Except Flt (Stores × Bool) :=
  let src := nth ts 0
  let dst := nth ts 1
  let n := dst.e 0
  let e0 := dst.rows.getD r 0
  match o.variant with
  | 2 =>
    match s.gatherRow c ts r with
    | .error f => .error f
    | .ok none =>
      let z : RawRow := { xs := List.replicate n 0
                          ex := if isBlock dst.fmt then List.replicate (cdiv n 32) 0 else [] }
      .ok (putRaw dst e0 z acc.1, acc.2)
    | .ok (some k) =>
      match s.rawRow { c with narrow := o.narrow } i src (src.idx [0, k]) n with
      | .error f => .error f
      | .ok x => .ok (putRaw dst e0 x acc.1, acc.2)
  | 0 =>
    match s.rawRow c i src (src.rows.getD r 0) n with
    | .error f => .error f
    | .ok x => .ok (putRaw dst e0 x acc.1, acc.2)
  | 1 =>
    match mapE (s.peelRaw c i src) (sourceIdx o src dst r n) with
    | .error f => .error f
    | .ok xs => .ok (putRaw dst e0 { xs := xs } acc.1, acc.2)
  | _ =>
    foldE (fun a k =>
      match s.peelElem c i src ((sourceIdx o src dst r n).getD k 0) with
      | .error f => .error f
      | .ok x => match convElem src.fmt dst.fmt (o.round = 1) x with
        | .error f => .error f
        | .ok p => .ok (a.1.elem dst (e0 + k) p.1, a.2 || p.2)) acc (List.range n)

/-- The spill records of a batch that is not a conversion into blocks (R531): copied, or headers with COUNT 0; and the
F-cycles of writing them (R208). -/
def State.moveSpill (s : State) (c : Ctx) (i : Inst) (o : PeelOps) (ts : List Tensor) (b : Nat) (st : Stores) :
    Except Flt (Stores × Nat) :=
  match spillOf c.img (i.descs.getD 1 {}) with
  | none => .ok (st, 0)
  | some (off, _) =>
    let a := (nth ts 1).scaleBase + off + 512 * b
    match o.variant, spillOf c.img (i.descs.getD 0 {}) with
    | 0, some (so, _) =>
      match mapE (fun k => s.peelByte c i (nth ts 0) ((nth ts 0).scaleBase + so + 512 * b + k)) (List.range 512) with
      | .error f => .error f
      | .ok bs => .ok (st.bytes a bs, 1 + field (leNat (bs.take 8)) 0 6)
    | _, _ => .ok (st.bytes a (leBytes 8 0), 1)

/-- Batch b of a COPY between zero-compressed maps. -/
def State.moveZc (s : State) (c : Ctx) (ts : List Tensor) (b : Nat) : Except Flt Stores :=
  let src := nth ts 0
  let dst := nth ts 1
  foldE (fun st r =>
    match s.zcRow c src r with
    | .error f => .error f
    | .ok raw => .ok (st.bytes (zcSlot dst r) (zcRecord dst raw))) [] (zcMoved dst b)

/-- What batch b would leave: stores, alteration, clamped elements, F-cycles of spill records. -/
def State.peelStores (s : State) (c : Ctx) (i : Inst) (o : PeelOps) (b : Nat) : Except Flt Yield :=
  let ts := tensors i.descs
  let dst := nth ts 1
  let rows := batchRows dst b
  if isZc c.img (i.descs.getD 1 {}) then
    match s.moveZc c ts b with
    | .error f => .error f
    | .ok st => .ok { st := st }
  else if isBlock dst.fmt && (o.variant = 1 || o.variant = 3) then
    match mapE (s.blockRow c i o (nth ts 0) dst) rows with
    | .error f => .error f
    | .ok xs =>
      match storeStrips dst (o.variant = 3 && o.round = 1) (spillOf c.img (i.descs.getD 1 {})) b
          (rows.map (fun r => dst.rows.getD r 0)) (xs.map (·.1)) [] with
      | .error f => .error f
      | .ok p => .ok { st := p.1, alt := p.2.1 || xs.any (·.2), spill := p.2.2.1, records := p.2.2.2 }
  else
    match foldE (s.moveRow c i o ts) ([], false) rows with
    | .error f => .error f
    | .ok p =>
      match s.moveSpill c i o ts b p.1 with
      | .error f => .error f
      | .ok z => .ok { st := z.1, alt := p.2, records := z.2 }

/-! ### Where they go -/

/-- Words that stores put into accumulator windows, and the other stores. -/
def splitWindows (c : Ctx) (st : Stores) : List (AccDecl × Nat × Nat) × Stores :=
  let inWin := st.filter (fun p => (c.acc p.1).isSome)
  let words := (inWin.map (fun p => p.1 / 4)).eraseDups
  (words.filterMap (fun w => (c.acc (4 * w)).map (fun a =>
    (a, (4 * w - a.window) / 4, leNat ((List.range 4).map (fun k => BitVec.ofNat 8 (look (0, 0) st (4 * w + k)).2))))),
   st.filter (fun p => (c.acc p.1).isNone))

/-- What batch b stores; its Peel must reach every word that it puts into an accumulator (R297). -/
def State.peelBatch (s : State) (c : Ctx) (i : Inst) (o : PeelOps) (b : Nat) : Except Flt Yield :=
  match s.peelStores c i o b with
  | .error f => .error f
  | .ok p =>
    match (if (nth (tensors i.descs) 1).remote then [] else (splitWindows c p.st).1).findSome? (fun x => s.accBar x.1 x.2.1) with
    | some f => .error f
    | none => .ok p

/-- Words of an accumulator written by a PEEL (R230). -/
def putWords (c : Ctx) (l : List (AccDecl × Nat × Nat)) (s : State) : State :=
  forEach l (fun p t => t.accWrite c.berth c.queue p.1 p.2.1 p.2.2) s

/-- A byte of a held remote write; the bits that the PEEL does not store are free, and the same in every run (R57;
notes/assumptions/37.md). -/
def heldByte (part : Nat) (st : Stores) (a : Nat) : Byte :=
  let o := look (0, 0) st a
  BitVec.ofNat 8 (o.2 ||| ((Config.padBits part a o.1 o.2).toNat &&& (255 - o.1)))

/-- Bytes at the given addresses, in that order, as remote writes: runs of consecutive bytes of at most 4 KiB. -/
def remoteRuns (part : Nat) (st : Stores) : List Nat → List (Nat × List Byte)
  | [] => []
  | a :: rest =>
    let byte := heldByte part st a
    match remoteRuns part st rest with
    | (b, bs) :: more => if b = a + 1 ∧ bs.length < 4096 then (a, byte :: bs) :: more else (a, [byte]) :: (b, bs) :: more
    | [] => [(a, [byte])]

/-- Addresses of a batch's stores in increasing row order, those of its spill record last. -/
def rowOrder (t : Tensor) (b : Nat) (st : Stores) : List Nat :=
  let rows := ((batchRows t b).flatMap (rowBytes t)).flatMap (fun p => (List.range p.2).map (· + p.1))
  (rows ++ st.map (·.1)).eraseDups.filter (fun a => (look (0, 0) st a).1 ≠ 0)

/-- A batch's data held as remote writes, in row order (R99, R527). -/
def holdRemote (q j b : Nat) (t : Tensor) (st : Stores) (s : State) : State :=
  let runs := remoteRuns t.part st (rowOrder t b st)
  let recs : List HeldRec := (List.range runs.length).map (fun k =>
    let p := runs.getD k (0, [])
    { inst := wordPos (s.run q) j, ord := b * 2 ^ 32 + k, eff := .remoteWrite t.part p.1 p.2 })
  s.modRun q (fun r => { r with held := r.held ++ recs })

/-- Bytes of a batch, for its Peel's time. -/
def batchBytes (t : Tensor) (b : Nat) : Nat :=
  cdiv ((batchRows t b).length * t.e 0 * elemBits t.fmt) 8

/-- Every read of a batch has been answered. -/
def readsDone (c : Ctx) (i : Inst) (b : Nat) : Bool :=
  (batchReads c i b).all (fun p => !i.readsLeft.contains p)

/-- Granules that a batch reads through the Harbour: its source, but for a narrow GATHER, and a GATHER's indices. -/
def peelReads (s : State) (c : Ctx) (i : Inst) (o : PeelOps) (b : Nat) : List Nat :=
  let ts := tensors i.descs
  let src := nth ts 0
  let dst := nth ts 1
  let rows := batchRows dst b
  if src.remote then []
  else if isZc c.img (i.descs.getD 0 {}) then (zcMoved src b).flatMap (s.zcGranules c src)
  else match o.variant with
    | 1 => rows.flatMap (fun r => (sourceIdx o src dst r (dst.e 0)).flatMap (fun e => src.granules e 1))
    | 2 => rows.flatMap (fun r => (nth ts 2).span ((nth ts 2).idx [r]) 1 ++
        (if o.narrow then [] else match s.gatherRow c ts r with
          | .ok (some k) => src.granules (src.idx [0, k]) (src.e 0)
          | _ => []))
    | _ => rows.flatMap (fun r => src.granules (src.rows.getD r 0) (src.e 0))

/-- A fill waits for a core's Peel: a tile of its MXEs has a chunk buffer empty that its next chunks need (R222, R223).
Each of the two buffers of an operand waits from the tile's start. -/
def fillWaits (s : State) (core : Nat) : Bool :=
  (List.range 4).any (fun m => match mxeItem s (4 * core + m) with
    | none => false
    | some (q, j, w) => decide (w.fills < min 4 ((needFills ((s.run q).insts.getD j {})).getD 0)))

/-- A Peel finishes a batch (R527), which moves only while no fill waits (R223). -/
def execPeelBatchDone (core : Nat) (end_ : Finish) (s : State) : Res :=
  .next (match runningItem s ((s.core core).crew).toList .peel core with
    | none => s
    | some (q, j, w) =>
      let c := s.ctx q
      let i := (s.run q).insts.getD j {}
      match i.op with
      | .peel o =>
        let ts := tensors i.descs
        if !readsDone c i w.item || fillWaits s core then s
        else match s.engineBar q core 6 end_.rx (if ts.any (fun t => !t.remote && (c.acc t.base).isSome) then 4 else 5) with
          | some f => itemFault q j w f s
          | none =>
            match s.peelBatch c i o w.item with
            | .error f => itemFault q j w f s
            | .ok y =>
              let src := nth ts 0
              let dst := nth ts 1
              let (words, plain) := splitWindows c y.st
              let z := { y with st := if dst.remote then [] else plain, reads := peelReads s c i o w.item }
              match applyYield q j 0 z s with
              | .error f => itemFault q j w f s
              | .ok s =>
                let s := if dst.remote then holdRemote q j w.item dst y.st s else putWords c words s
                let n := batchBytes (if o.variant = 1 then src else dst) w.item
                finishItem q j w
                  (addCycles c.berth 3 (cdiv n (if o.variant = 1 then 128 else 256) + 2 * y.records + end_.stall) s)
      | _ => s)

/-! ### ATOM (R100) -/

/-- Pairs in increasing order of their first parts; those with equal ones keep their order. -/
def insertPair (a : Nat × Nat) : List (Nat × Nat) → List (Nat × Nat)
  | [] => [a]
  | b :: bs => if a.1 ≤ b.1 then a :: b :: bs else b :: insertPair a bs

/-- Source elements of a reduction, in increasing index of R72 (R312), with the addresses they reduce into. -/
def State.atomElems (s : State) (c : Ctx) (src dst : Tensor) : Except Flt (List (Nat × BitVec 32)) :=
  let pairs := (src.rows.zip dst.rows).flatMap (fun p => (List.range (src.e 0)).map (fun k => (p.1 + k, p.2 + k)))
  mapE (fun p => match s.rawElem c src p.1 with
    | .error f => .error f
    | .ok raw => .ok (dst.base + 4 * p.2, BitVec.ofNat 32 raw)) (pairs.foldr insertPair [])

/-- ATOM is held: variant 0 as one effect, variant 1 as reductions of at most 4 KiB (R77). The places it will reach are
checked while the run may still fault. -/
def execAtom (q : Nat) (o : AtomOps) (s : State) : Res :=
  let r := s.run q
  .next (dispatch q (.atom o) (fun t =>
    let c := t.ctx q
    if o.variant = 0 then
      match (if o.remote then .ok t else t.reachAll c [o.addr]) with
      | .error f => .error f
      | .ok t => hold q r.ip 1 [.atom o] t
    else
      match t.readSlots c r.set (.atom o) with
      | .error f => .error f
      | .ok ds =>
        let ts := tensors ds
        if !opAgree (.atom o) ts then .error (0x0F, 4)
        else if !opAligned ds then .error (0x0F, 5)
        else
          match t.atomElems c (nth ts 0) (nth ts 1) with
          | .error f => .error f
          | .ok es =>
            match t.reachAll c (es.map (·.1)) with
            | .error f => .error f
            | .ok t => hold q r.ip (cdiv (4 * es.length) 4096)
                ((chunksOf 1024 es.length es).map (fun l => .reduce o.op l)) t) s)

end Sys2Proof.Machine
end

