-- ==== Sys2Proof/Machine/Commit.lean ====
section
/-! DEFINITION. Commit (02_kernels_commit.md R42 to R49): atomics (12_trays_harbour.md R311 to R314), remote effects
(16_causeway.md R403), epochs (09_backward.md R234 to R238), soundings (08_soundings.md R215, R220), signals. -/
namespace Sys2Proof.Machine

/-! ### Memory of a berth from outside its kernels -/

/-- Where an address of a berth's range lies now. -/
def State.spot (s : State) (b va : Nat) : Locus :=
  match (s.imageOf b).regions.find? (fun r => r.tiers.contains .harbour && regionHas r va) with
  | some r => .mooring r.home va
  | none => .stack ((s.page b va).phys * 2 ^ 21 + va % 2 ^ 21)

/-- What the unit at a place carries. -/
def State.markAt (s : State) (b : Nat) (l : Locus) : UnitSt :=
  match l with
  | .stack pa => look .good s.units (pa / 32)
  | .mooring _ va => look .good s.moorUnits (moorKey b va / 32)
  | .acc .. => .good

/-- The place cannot be reached (R322). -/
def State.spotDead (s : State) (l : Locus) : Bool :=
  match l with
  | .stack pa => s.unreachable pa
  | .mooring home _ => s.fenced home
  | .acc .. => false

/-- n bytes at a place. -/
def State.spotBytes (s : State) (b : Nat) (l : Locus) (n : Nat) : List Byte :=
  match l with
  | .stack pa => (List.range n).map (fun i => s.memByte (pa + i))
  | .mooring _ va => rdBytes s.moor (moorKey b va) n
  | .acc .. => []

/-- Base of the mooring region that holds an address. -/
def State.moorBase (s : State) (b va : Nat) : Nat :=
  (((s.imageOf b).regions.find? (fun r => r.tiers.contains .harbour && regionHas r va)).map (·.base)).getD 0

/-- Bytes written at a place; a page's Shelf park copy is no longer current (R361). -/
def State.spotWrite (s : State) (b va : Nat) (l : Locus) (bs : List Byte) : State :=
  match l with
  | .stack pa =>
    let s := (s.merged (pa / 32)).merged ((pa + bs.length - 1) / 32)
    ({ s with mem := wrBytes s.mem pa bs }).modPage b (va / 2 ^ 21) (fun p => { p with shelfCopy := false })
  | .mooring home v =>
    let s := s.allot home (lineOf b (s.moorBase b v) v)
    { s with moor := wrBytes s.moor (moorKey b v) bs }
  | .acc .. => s

/-- A unit's mark set. -/
def State.setMark (s : State) (b : Nat) (l : Locus) (m : UnitSt) : State :=
  match l with
  | .stack pa => { s with units := put .good s.units (pa / 32) m }
  | .mooring _ va => { s with moorUnits := put .good s.moorUnits (moorKey b va / 32) m }
  | .acc .. => s

/-- A Harbour lookup for an access of the slices. -/
def State.slotTouch (s : State) (l : Locus) (store : Bool := false) : State :=
  match l with
  | .stack pa => if pa < 0x30000000000 then s.touch pa store else s
  | .mooring home _ => s.modHarbour home (fun h => { h with hits := wrapAdd 64 h.hits 1 })
  | .acc .. => s

/-- Bytes of one unit written from outside a kernel: a whole unit clears a mark; a masked write onto a poisoned unit
writes nothing; one onto an uncorrectable unit is turned away (R336, R424). -/
def State.pokeUnit (s : State) (b va : Nat) (bs : List Byte) : Bool × State :=
  let l := s.spot b va
  if va % 32 = 0 ∧ bs.length = 32 then (true, ((s.setMark b l .good).spotWrite b va l bs).slotTouch l true)
  else match s.markAt b l with
    | .good => (true, (s.spotWrite b va l bs).slotTouch l true)
    | .poison => (true, s)
    | .uncorrectable => (false, s)

/-- Bytes cut at unit borders; the fuel is their number. -/
def unitPieces (va : Nat) : Nat → List Byte → List (Nat × List Byte)
  | 0, _ => []
  | k + 1, bs => if bs = [] then []
    else
      let n := 32 - va % 32
      (va, bs.take n) :: unitPieces (va + n) k (bs.drop n)

/-- Bytes written from outside a kernel; false where some unit was turned away. -/
def State.poke (s : State) (b va : Nat) (bs : List Byte) : Bool × State :=
  (unitPieces va bs.length bs).foldl (fun acc p =>
    let r := acc.2.pokeUnit b p.1 p.2
    (acc.1 && r.1, r.2)) (true, s)

/-! ### Atomics (Table 3.18, R313) -/

/-- A word after an atomic operation, at w bits. -/
def atomWord (op w old operand compare : Nat) : Nat :=
  let x := operand % 2 ^ w
  match op with
  | 0x0 => (old + x) % 2 ^ w
  | 0x1 => if toSigned old w ≤ toSigned x w then old else x
  | 0x2 => if toSigned old w ≥ toSigned x w then old else x
  | 0x3 => min old x
  | 0x4 => max old x
  | 0x5 => old &&& x
  | 0x6 => old ||| x
  | 0x7 => old ^^^ x
  | 0x8 => x
  | 0x9 => if old = compare % 2 ^ w then x else old
  | _ => encFp fp32 (faddHbr (decFp fp32 old) (decFp fp32 x))

/-- The word of an atomic written at its place. -/
def State.atomWrite (s : State) (b va op w operand compare : Nat) : State :=
  let l := s.spot b va
  s.spotWrite b va l (leBytes (w / 8) (atomWord op w (leNat (s.spotBytes b l (w / 8))) operand compare))

/-- One atomic on a word of a berth; false where the unit is marked or out of reach, and nothing is applied (R337). -/
def State.atomAt (s : State) (b va op w operand compare : Nat) : Bool × State :=
  let l := s.spot b va
  if s.spotDead l || s.markAt b l ≠ .good then (false, s)
  else (true, (s.slotTouch l).atomWrite b va op w operand compare)

/-- A write from outside a kernel would allot a mooring line while its half allots none (R315). -/
def State.spotBarred (s : State) (b va : Nat) : Bool :=
  match s.spot b va with
  | .mooring home v => s.lineBarred home (lineOf b (s.moorBase b v) v)
  | _ => false

/-- HBR_ATOMS of the half that holds a place. -/
def State.countAtom (s : State) (l : Locus) : State :=
  let h := match l with
    | .stack pa => s.homeHalf pa
    | .mooring home _ => home
    | .acc .. => 0
  s.modHarbour h (fun x => { x with atoms := wrapAdd 64 x.atoms 1 })

/-! ### Dropped effects (R47, R48, R337) -/

/-- An effect of a commit is dropped: counted, marked, reported. -/
def dropEffect (q part reason : Nat) (s : State) : State :=
  let start := (s.run q).start
  let s := s.modRun q (fun r => { r with drops := r.drops + 1 })
  let s := s.modQueue q (fun c => { c with dropCount := satAdd 16 c.dropCount 1 })
  makeRecord (queueHalf q) 0x21 (s.queue q).berth (payDropped q start part reason) s

/-- A commit's effect that meets an uncorrectable unit of a stack in reach records it with SOURCE 3 (R335). -/
def recordSpot (b va : Nat) (s : State) : State :=
  match s.spot b va with
  | .stack pa =>
    if s.unreachable pa ∨ look .good s.units (pa / 32) ≠ .uncorrectable then s else recordStore (pa / 32) s
  | _ => s

/-! ### The held log in order (R45, R312) -/

/-- a stands before b. -/
def heldBefore (a b : HeldRec) : Bool := decide (a.inst < b.inst) || (a.inst = b.inst && decide (a.ord ≤ b.ord))

def insertHeld (a : HeldRec) : List HeldRec → List HeldRec
  | [] => [a]
  | b :: bs => if heldBefore a b then a :: b :: bs else b :: insertHeld a bs

/-- The held log in issue order. -/
def heldSorted (r : Run) : List HeldRec := r.held.foldr insertHeld []

/-- An atomic or reduction that the home Harbour executes. -/
def isLocalAtom : Held → Bool
  | .atom o => !o.remote
  | .reduce .. => true
  | _ => false

/-- Target part of an effect that goes out in phase 3 (R81). -/
def remotePart (own : Nat) : Held → Option Nat
  | .remoteWrite part _ _ => some part
  | .atom o => if o.remote then some o.part else none
  | .signal v _ part _ _ => if v ≥ 2 ∧ part ≠ own then some part else none
  | _ => none

/-- The packet of a remote effect (Table 16.3). -/
def effectPacket (s : State) (q : Nat) (e : Held) : Packet :=
  let c := s.queue q
  let base : Packet := { vl := 1 + c.vlClass, srcBerth := c.berth, srcPart := s.cwy.partId, srcHalf := queueHalf q }
  let dropped := decide ((s.run q).drops ≠ 0)
  match e with
  | .remoteWrite part addr data => { base with type := 0x1, dstPart := part, addr := addr, length := data.length, data := data }
  | .atom o => { base with
      type := 0x4, dstPart := o.part, addr := o.addr, op := o.op, wide64 := o.wide64, operand := o.operand
      length := if o.op = 9 then 8 else 0, data := if o.op = 9 then leBytes 8 o.compare else [] }
  | .signal v sync part queue value =>
    if v = 4 then { base with type := 0x7, dstPart := part, addr := queue, operand := value % 2 ^ 32 }
    else { base with type := if v = 2 then 0x5 else 0x6, dstPart := part, addr := sync, operand := value, dropped := dropped }
  | _ => base

/-- An effect of this queue to a part is unanswered. -/
def effectOut (s : State) (q part : Nat) : Bool :=
  (s.cwy.outst ++ s.cwy.waiting).any (fun o => o.what = .effect q && o.packet.dstPart = part)

/-- Each remote effect whose part has none unanswered goes out, in issue order (R403); a halted commit sends none. -/
def sendRemote (q : Nat) (s : State) : State :=
  forEach (if (s.run q).halted then [] else heldSorted (s.run q)) (fun h t =>
    match remotePart t.cwy.partId h.eff with
    | none => t
    | some part =>
      if effectOut t q part then t
      else
        let pk := effectPacket t q h.eff
        let t := t.modRun q (fun r => { r with held := r.held.filter (· ≠ h) })
        request (queueHalf q) (.effect q) pk t) s

/-- No remote effect is left to send or to be answered. -/
def remoteDone (s : State) (q : Nat) : Bool :=
  !((s.run q).held.any (fun h => (remotePart s.cwy.partId h.eff).isSome)) &&
    !((s.cwy.outst ++ s.cwy.waiting).any (fun o => o.what = .effect q))

/-! ### Phases 1 to 3 -/

/-- The commit of a queue is in a phase and not halted (R24). -/
def inPhase (s : State) (q n : Nat) : Bool :=
  let r := s.run q
  r.phase = .committing && r.commitPhase = n && !r.halted

/-- The kernel has drained (R45, R216); a collective kernel has landed (R64). -/
def drained (r : Run) : Bool :=
  r.phase = .draining && r.insts.all (·.done) && r.sounds = [] && !r.halted && (r.landed || collGroups r.words = [])

/-- A drained kernel starts its commit (R45, R79). While a part reset waits for begun commits, only a landed kernel
does (R46, R64). -/
def execCommitBegin (q : Nat) (s : State) : Res :=
  if drained (s.run q) && ((s.run q).landed || s.twc.resetWait = 0) then
    let s := s.modRun q (fun r => { r with phase := .committing, commitPhase := 1 })
    .next (s.modQueue q (fun c => { c with state := .committing }))
  else .next s

/-- Working copies of the words that a queue wrote become committed copies (R231). -/
def commitWords (q : Nat) (s : State) : State :=
  let b := (s.queue q).berth
  let mine := (s.berth b).accWritten.filter (fun p => p.1 = q)
  let s := forEach mine (fun p t =>
    let tray := p.2 / 2 ^ 32
    let w := p.2 % 2 ^ 32
    match (t.imageOf b).accs.find? (fun a => a.tray = tray) with
    | none => t
    | some a =>
      let core := a.cores.getD (w / 2 ^ 14) 0
      let off := 4 * (w % 2 ^ 14)
      let bs := rdBytes t.trays (trayKey core tray (off + 65536)) 4
      { t with trays := wrBytes t.trays (trayKey core tray off) bs }) s
  s.modBerth b (fun t => { t with accWritten := t.accWritten.filter (fun p => p.1 ≠ q) })

/-- Phase 1 completes, phase 2 starts. -/
def execCommitStoresAcked (q : Nat) (s : State) : Res :=
  if inPhase s q 1 then .next ((commitWords q s).modRun q (fun r => { r with commitPhase := 2 })) else .next s

/-- Elements of a reduction that lie in the unit of the first. -/
def unitPrefix (es : List (Nat × BitVec 32)) : List (Nat × BitVec 32) :=
  es.takeWhile (fun e => e.1 / 32 = (es.headD (0, 0)).1 / 32)

/-- A Harbour slice applies the next scalar atomic, or the next unit of a reduction (R311, R314). One that would allot a
mooring line waits while its half allots none (R315). -/
def execHarbourOpApply (q : Nat) (s : State) : Res :=
  if inPhase s q 2 then
    let r := s.run q
    let b := (s.queue q).berth
    match (heldSorted r).find? (fun h => isLocalAtom h.eff) with
    | none => .next s
    | some h =>
      let rest := r.held.filter (· ≠ h)
      match h.eff with
      | .atom o =>
        if s.spotBarred b o.addr then .next s
        else
        let s := s.modRun q (fun x => { x with held := rest })
        let l := s.spot b o.addr
        let p := s.atomAt b o.addr o.op (if o.wide64 then 64 else 32) o.operand o.compare
        .next (if p.1 then p.2.countAtom l else dropEffect q s.cwy.partId 7 (recordSpot b o.addr p.2))
      | .reduce op es =>
        let now := unitPrefix es
        let left := es.drop now.length
        let keep : List HeldRec := if left = [] then [] else [{ h with eff := .reduce op left }]
        if s.spotBarred b (now.headD (0, 0)).1 then .next s
        else
        let s := s.modRun q (fun x => { x with held := keep ++ rest })
        let l := s.spot b (now.headD (0, 0)).1
        if now = [] then .next s
        else if s.spotDead l || s.markAt b l ≠ .good then
          .next (dropEffect q s.cwy.partId 7 (recordSpot b (now.headD (0, 0)).1 s))
        else
          .next ((forEach now (fun e t => t.atomWrite b e.1 op 32 e.2.toNat 0) (s.slotTouch l)).countAtom l)
      | _ => .next s
  else .next s

/-- Phase 2 completes: remote effects go out (R403). -/
def execCommitAtomicsDone (q : Nat) (s : State) : Res :=
  if inPhase s q 2 && !((s.run q).held.any (fun h => isLocalAtom h.eff)) then
    .next (sendRemote q (s.modRun q (fun r => { r with commitPhase := 3 })))
  else .next s

/-! ### Phase 4: migrations and bitstreams -/

def tierOf (n : Nat) : Tier := if n = 0 then .crust else if n = 1 then .crumb else .shelf

/-- A held effect of phase 4 applies. A release that an uncorrectable unit turns away is dropped (R337). -/
def applyFour (q : Nat) (e : Held) (s : State) : State :=
  let b := (s.queue q).berth
  match e with
  | .place tier pages => forEach pages (fun p t => requestMig b p (tierOf tier) false q t) s
  | .release addr value =>
    let p := s.poke b addr (leBytes 8 value)
    if p.1 then p.2 else dropEffect q s.cwy.partId 7 (recordSpot b addr p.2)
  | _ => s

/-! ### Phase 5: epochs (R237, R238) -/

def State.wset (s : State) (b k : Nat) : WSet := look {} (s.berth b).epochs.sets k
def State.modEpochs (s : State) (b : Nat) (f : Epochs → Epochs) : State :=
  s.modBerth b (fun t => { t with epochs := f t.epochs })
def State.setWset (s : State) (b k : Nat) (w : WSet) : State :=
  s.modEpochs b (fun e => { e with sets := put {} e.sets k w })

/-- An error bit of TWC_EPOCH_ERR with its set. -/
def epochErr (b k n : Nat) (s : State) : State :=
  s.modEpochs b (fun e => { e with
    notLive := e.notLive || n = 0, notHeld := e.notHeld || n = 1, pubFull := e.pubFull || n = 2
    refsFull := e.refsFull || n = 3, lastSet := k })

/-- Versions of a set that nothing holds any longer are retired (R238). Several that retire at once enter the log in the
order in which they were published (DESIGN CHOICE, notes/assumptions/86.md). -/
def retire (q k : Nat) (s : State) : State :=
  let b := (s.queue q).berth
  let w := s.wset b k
  let gone := w.live.filter (fun v => some v.version ≠ w.current && v.refs = 0 && v.transient = 0)
  let s := s.setWset b k { w with live := w.live.filter (fun v => !gone.contains v) }
  forEach gone (fun v t =>
    let t := t.modEpochs b (fun e => { e with
      log := put (0, 0) e.log (e.retired % 64) (k, v.version), retired := wrapAdd 32 e.retired 1 })
    t.modQueue q (fun c => raiseEvent 0x0A { c with epochRetired := satAdd 32 c.epochRetired 1 })) s

/-- Change one live version's reference count. -/
def modRefs (l : List Version) (ver : Nat) (f : Nat → Nat) : List Version :=
  l.map (fun v => if v.version = ver then { v with refs := f v.refs } else v)

/-- The oldest entry of a queue's acquisition list that matches goes. -/
def dropAcq (q : Nat) (p : Nat × Nat → Bool) (s : State) : State :=
  s.modQueue q (fun c => { c with acq := match c.acq.findIdx? p with
    | some i => c.acq.take i ++ c.acq.drop (i + 1)
    | none => c.acq })

/-- Acquire of a sampled version, if it is live now. -/
def epochAcquire (q k ver : Nat) (s : State) : State :=
  let b := (s.queue q).berth
  let w := s.wset b k
  match w.live.find? (fun v => v.version = ver) with
  | none => epochErr b k 0 s
  | some v =>
    if v.refs ≥ 65535 then epochErr b k 3 s
    else
      let s := s.setWset b k { w with live := modRefs w.live ver (· + 1) }
      s.modQueue q (fun c => { c with acq := (if c.acq.length ≥ 16 then c.acq.drop 1 else c.acq) ++ [(k, ver)] })

/-- Release, of the oldest acquisition (automatic) or of a named version. -/
def epochRelease (q k ver : Nat) (s : State) : State :=
  let b := (s.queue q).berth
  let w := s.wset b k
  let auto := decide (ver = 0xFFFFFFFF)
  let target := if auto then ((s.queue q).acq.find? (fun p => p.1 = k)).map (·.2) else some ver
  match target with
  | none => epochErr b k 1 s
  | some x =>
    let s' := if auto then dropAcq q (fun p => p.1 = k) s else dropAcq q (fun p => p = (k, x)) s
    match w.live.find? (fun v => v.version = x) with
    | some v => if v.refs = 0 then epochErr b k 1 s
      else s'.setWset b k { w with live := modRefs w.live x (· - 1) }
    | none => epochErr b k 1 s

/-- The version of an automatic publish; past 0xFFFF_FFFE it is a free value other than 0xFFFF_FFFF (R235, R237;
notes/assumptions/39.md). -/
def nextVersion (fresh : Nat) (current : Option Nat) : Nat :=
  match current with
  | none => 1
  | some c => if c + 1 < 0xFFFFFFFF then c + 1 else (Config.freeValue fresh).toNat % 0xFFFFFFFF

/-- Publish. -/
def epochPublish (q k ver : Nat) (s : State) : State :=
  let b := (s.queue q).berth
  let w := s.wset b k
  let x := if ver = 0xFFFFFFFF then nextVersion s.fresh w.current else ver
  let s := (s.take).2
  if w.live.any (fun v => v.version = x) then s.setWset b k { w with current := some x }
  else if w.live.length ≥ 8 then epochErr b k 2 s
  else s.setWset b k { current := some x, live := w.live ++ [{ version := x }] }

/-- Acquires take their samples in word order: the sample of the n-th acquire. -/
def applyEpochs (q : Nat) (s : State) : State :=
  let r := s.run q
  let es := (heldSorted r).filterMap (fun h => match h.eff with
    | .epoch v k x => some (v, k, x)
    | _ => none)
  let step := fun (acc : State × List (Nat × Nat × Bool)) (e : Nat × Nat × Nat) =>
    let (v, k, x) := e
    if v = 0 then
      let smp := acc.2.headD (k, 0, false)
      (retire q k (epochAcquire q k smp.2.1 acc.1), acc.2.drop 1)
    else if v = 1 then (retire q k (epochRelease q k x acc.1), acc.2)
    else (retire q k (epochPublish q k x acc.1), acc.2)
  let s := (es.foldl step (s, r.samples)).1
  let s := dropSamples q s
  forEach ((es.map (fun e => e.2.1)).eraseDups) (retire q) s

/-! ### Phase 6: events (R215, R220) -/

/-- The larger drift, a NaN below everything. -/
def driftMax (a b : BitVec 32) : BitVec 32 :=
  if (decFp fp32 a.toNat).lt (decFp fp32 b.toNat) then b else a

/-- One sounding's drift applies to its slot. -/
def applySound (q : Nat) (x : SndRes) (s : State) : State :=
  let b := (s.queue q).berth
  let k := look {} (s.berth b).slots x.slot
  let d := decFp fp32 x.d.toNat
  let base := !k.baseValid && d.isFin
  let beyond := !base && (!d.isFin || (fadd (decFp fp32 k.baseline.toNat) (decFp fp32 x.thr.toNat)).lt d)
  let s := s.modSlot b x.slot (fun t => { t with
    baseline := if base then x.d else t.baseline
    baseValid := t.baseValid || base
    drift := t.drift || beyond
    drifted := if beyond then satAdd 32 t.drifted 1 else t.drifted
    lastDrift := x.d
    maxDrift := driftMax t.maxDrift x.d
    sounded := satAdd 32 t.sounded 1 })
  if beyond then s.modQueue q (fun c => raiseEvent 0x0C { c with sounding := satAdd 32 c.sounding 1 }) else s

def sndBefore (a b : SndRes) : Bool := decide (a.inst < b.inst) || (a.inst = b.inst && decide (a.tile ≤ b.tile))

def insertSnd (a : SndRes) : List SndRes → List SndRes
  | [] => [a]
  | b :: bs => if sndBefore a b then a :: b :: bs else b :: insertSnd a bs

/-- Event flags and counters of the run apply; SEQ of its groups takes its COLLs (R411). -/
def applyEvents (q : Nat) (s : State) : State :=
  let r := s.run q
  let b := (s.queue q).berth
  let altered := (r.insts.filter (·.scale)).length
  let s := s.modQueue q (fun c => { c with
    eventFlags := c.eventFlags ||| r.flags
    spillway := satAdd 32 c.spillway r.spill
    scaleRange := satAdd 32 c.scaleRange altered })
  let s := forEach (r.sndRes.foldr insertSnd []) (applySound q) s
  let s := forEach r.sndCount (fun p t => t.modSlot b p.1 (fun k => { k with seq := wrapAdd 32 k.seq p.2 })) s
  let s := forEach (collGroups r.words) (fun g t => match t.findGroup g with
    | none => t
    | some (gb, i) => t.modGroup gb i (fun x => { x with seq := wrapAdd 32 x.seq (collCountOf r.words g) })) s
  if r.keptGroups = 0 then s
  else s.modBerth b (fun t => { t with
    wideKept := t.wideKept ||| r.keptGroups, wideKeptCount := satAdd 32 t.wideKeptCount 1 })

/-! ### Phases 7 and 8 -/

/-- A SIGNAL applies to a sync object (R36, R37, R47). An object of no admitted image ignores it (R62). -/
def applySignal (add : Bool) (sync value : Nat) (dropped : Bool) (s : State) : State :=
  let k := s.sync sync
  if !k.allocated then s
  else
    let s := s.setSync sync { k with value := if add then satAdd 64 k.value value else value % 2 ^ 64
                                     dropped := k.dropped || dropped }
    if k.irqEn then raiseVector k.vector s else s

/-- A held SIGNAL that applies in phase 7 (R81). -/
def applySeven (dropped : Bool) (e : Held) (s : State) : State :=
  match e with
  | .signal v sync _ queue value =>
    if v = 4 then (if doorbellOpen s queue then setTail queue (value % 2 ^ 32) s else s)
    else applySignal (v = 0 || v = 2) sync value dropped s
  | _ => s

/-- The run's trays go back, its engines leave the crew, its Harbour scratch is freed (R299, R309). -/
def releaseRun (q : Nat) (s : State) : State :=
  let out := (s.run q).crew.flatMap (fun c => (s.runTrays c).map (fun t => (c, t)))
  let s := freeScratch q (stopEngines q s)
  forEach out (fun p t => returnTray p.1 p.2 t) s

/-- Phase 8: HEAD advances, the run ends, VECTOR is raised where KBEGIN asked for it. -/
def finishCommit (q : Nat) (s : State) : State :=
  let r := s.run q
  let b := (s.queue q).berth
  let s := applyClears q (releaseRun q s)
  let s := s.modBerth b (fun t => { t with virt := wrapAdd 64 t.virt r.cycles0 })
  let s := s.setRun q { traysOut := r.traysOut }
  let s := s.modQueue q (fun c => { c with head := (r.start + r.words.length) % 2 ^ 32, state := .idle })
  settle (if r.irq then raiseVector (s.queue q).vector s else s)

/-- A release that would allot a mooring line waits while its half allots none (R315). -/
def releaseBarred (b : Nat) (s : State) (e : Held) : Bool :=
  match e with
  | .release addr _ => s.spotBarred b addr
  | _ => false

/-- Phase 3 completes; phases 4 to 8 apply (R45). -/
def execCommitRemoteDone (q : Nat) (s : State) : Res :=
  let held := (heldSorted (s.run q)).map (·.eff)
  if inPhase s q 3 && remoteDone s q && !held.any (releaseBarred (s.queue q).berth s) then
    let s := forEach held (applyFour q) s
    let dropped := decide ((s.run q).drops ≠ 0)
    let s := applyEpochs q s
    let s := applyEvents q s
    let s := forEach held (applySeven dropped) s
    .next (finishCommit q s)
  else .next s

/-- Software writes a sync object's value (R36, R38); an object of no admitted image, or of a fenced half, ignores it
(R28, R62). -/
def execSynValueWrite (sync value : Nat) (s : State) : Res :=
  if (s.sync sync).allocated && !s.fenced (syncHalf sync) then
    .next (s.modSync sync (fun k => { k with value := value % 2 ^ 64 }))
  else .next s

end Sys2Proof.Machine
end

