-- ==== Sys2Proof/Machine/Stacks.lean ====
section
/-! DEFINITION. The stacks (13_stacks.md R323 to R343), tiers and migration (14_shelf_tiers.md R344 to R352), the Shelf
(R353 to R357). -/
namespace Sys2Proof.Machine

/-! ### The decoder's outcomes (R330, R332) -/

/-- The codeword of a poisoned unit: 32 zero bytes with the check symbols of R424. -/
def poisonWord : BitVec 288 := BitVec.ofNat 288 ((0x50 + 256 * 0x4F + 65536 * 0x49 + 16777216 * 0x53) * 2 ^ 256)

def State.chan (s : State) (k ch : Nat) : Chan := look {} (s.stack k).chans ch

/-- The pin that a channel's decoder takes as marked. -/
def Chan.mark (c : Chan) : Option Nat := if c.valid then some c.pin else none

/-- Where a stack address lies under the splits in force. -/
def State.place (s : State) (pa : Nat) : Place := Machine.place s.glb.crustSplit s.glb.crumbSplit pa

/-- The record of a channel's pin mark (R334). -/
def keepMark (k ch : Nat) (s : State) : State :=
  let c := s.chan k ch
  let v := if c.valid then (c.pin + 1, c.auto) else (0, false)
  s.modTrec (fun t => { t with pinMarks := put (0, false) t.pinMarks (k * 64 + ch) v })

/-- One pin's count rises (R332): at MARK_THRESH the pin is marked, or SECOND is set and reported. -/
def countPin (k ch pin : Nat) (s : State) : State :=
  let c := s.chan k ch
  if c.mark = some pin then s
  else
    let n := satAdd 8 (look 0 c.counts pin) 1
    let s := s.modChan k ch (fun x => { x with counts := put 0 x.counts pin n })
    if n < (s.stack k).markThresh then s
    else if c.valid then
      let s' := s.modChan k ch (fun x => { x with second := true })
      if c.second then s' else makeRecord (k / 16) 0x25 0xFF (payMemory 3 k ch 0) s'
    else keepMark k ch (s.modChan k ch (fun x => { x with valid := true, pin := pin, auto := true, counts := [] }))

/-- A corrected codeword is counted (R332, Table 13.8). -/
def countCorrected (k ch : Nat) (syms : List Nat) (s : State) : State :=
  if syms = [] then s
  else
    let pins := (syms.map (· / 2)).eraseDups
    let last := match pins with
      | [p] => p
      | _ => 31
    let s := s.modChan k ch (fun x => { x with corrected := satAdd 32 x.corrected 1, lastPin := last })
    forEach pins (countPin k ch) s

/-- The channel is the one that holds the unit, and it can be reached (R322). -/
def channelOf (s : State) (k ch pa : Nat) : Bool :=
  decide (pa < 0x30000000000) && (s.place pa).stack = k && (s.place pa).channel = ch && !s.unreachable pa

/-- The data of a unit's read reaches its readers (R330); a scrub writes back what it corrected (R339). -/
def deliver (u source : Nat) (d : List Byte) (corrected : Bool) (s : State) : State :=
  let others := s.delivered.filter (fun x => x.1 ≠ u)
  if corrected && decide (source = 2) && look .good s.units u = .good then
    { s with mem := wrBytes s.mem (32 * u) d, delivered := others }
  else { s with delivered := if d = rdBytes s.mem (32 * u) 32 then others else others ++ [(u, d)] }

/-- A unit that did not decode delivers no data. -/
def undelivered (u : Nat) (s : State) : State := { s with delivered := s.delivered.filter (fun x => x.1 ≠ u) }

/-- A channel returns a codeword (R323, R330, R335): delivered, corrected, or read once more. -/
def channelReturn (k ch pa source : Nat) (rx : BitVec 288) (s : State) : State :=
  if !channelOf s k ch pa ∨ rx = poisonWord then s
  else match decodeWord (s.chan k ch).mark rx with
    | some (d, syms) => deliver (pa / 32) source d (syms ≠ []) (countCorrected k ch syms s)
    | none => (undelivered (pa / 32) s).modChan k ch (fun x => { x with rereads := x.rereads ++ [(pa / 32, source)] })

def execStackReadDone (stack channel pa source : Nat) (rx : BitVec 288) (s : State) : Res :=
  .next (channelReturn stack channel pa source rx s)

/-- Scrub reads a unit and writes it back when it was corrected (R339). -/
def execScrubRead (stack channel pa : Nat) (rx : BitVec 288) (s : State) : Res :=
  .next (channelReturn stack channel pa 2 rx s)

/-! ### Retiring pages (R340, R348) -/

/-- Physical address of a granule from its stack, channel and offset: the inverse of the hash of R321. -/
def granuleAt (s : State) (crust : Bool) (stack channel o : Nat) : Nat :=
  let base := if crust then 0 else 0x8000000000
  let c := if crust then 2 ^ 20 else 5 * 2 ^ 20
  let b := 8192 * (if crust then s.glb.crustSplit else s.glb.crumbSplit)
  if o < b then base + 256 * (o * 2048 + ((stack * 64 + channel) ^^^ foldXor 11 5 o))
  else
    let hi := o - b
    let up := if stack ≥ 16 then 1024 * (c - b) else 0
    base + 256 * (2048 * b + up + hi * 1024 + ((stack % 16 * 64 + channel) ^^^ foldXor 10 5 hi))

/-- The pages with a granule in the bank row of a place. -/
def rowPages (s : State) (p : Place) : List Nat :=
  ([0, 1, 2, 3].map (fun col =>
    granuleAt s (decide (p.layer < 2)) p.stack p.channel (setField p.o 5 2 col) / 2 ^ 21)).eraseDups

/-- Scope of a physical page: 0 part, 1 half 0, 2 half 1 (R321). -/
def pageScope (s : State) (page : Nat) : Nat :=
  match scopeHalf s.glb.crustSplit s.glb.crumbSplit (page * 2 ^ 21) with
  | none => 0
  | some h => h + 1

/-- Tier of a physical page. -/
def pageTier (page : Nat) : Tier :=
  if page < 2 ^ 18 then .crust else if page < 3 * 2 ^ 19 then .crumb else .shelf

/-- The page lies in the offsets that belong to no berth (R347); `spare` for those that are spares. -/
def withheld (s : State) (page : Nat) : Bool :=
  let o := (s.place (page * 2 ^ 21)).o
  match pageTier page with
  | .crust => decide (o ≥ 0xFE000)
  | .crumb => decide (o ≥ 0x4FE000)
  | _ => false

def isSpare (s : State) (page : Nat) : Bool :=
  let o := (s.place (page * 2 ^ 21)).o
  match pageTier page with
  | .crust => decide (0xFE000 ≤ o) && decide (o < 0xFF000)
  | .crumb => decide (o ≥ 0x4FE000)
  | _ => false

/-- Physical pages that some berth's page takes: where it is, its current Shelf copy, where it returns, its copy in a park
record. -/
def pagesUsed (s : State) : List Nat :=
  s.berths.flatMap (fun b => b.2.pages.flatMap (fun p =>
    (if p.2.tier = .harbour then [] else [p.2.phys]) ++ (if p.2.shelfCopy then [p.2.copyAt] else [])) ++
      b.2.retDest.map (·.2) ++ (match b.2.parkRec with
        | some r => r.pages.map (·.2.1)
        | none => []))

/-- A physical page may be mapped in a tier and scope (R344, R348): free, not retired, in the address space, and a
spare exactly where a spare is wanted. -/
def mappable (s : State) (tier : Tier) (scope : Nat) (spare : Bool) (page : Nat) : Bool :=
  decide (page < 2 ^ 24) && (decide (page < 3 * 2 ^ 19) || decide (page ≥ 2 ^ 23)) && pageTier page = tier &&
    (tier = .shelf || (pageScope s page = scope && (if spare then isSpare s page else !withheld s page))) &&
    !s.trec.retired.contains page && !(pagesUsed s).contains page

/-- The spares of a tier and scope, in rising order (R347). -/
def spares (s : State) (tier : Tier) (scope : Nat) : List Nat :=
  let crust := tier = .crust
  let lo := if crust then 0xFE000 else 0x4FE000
  let n := if crust then 0x1000 else 0x2000
  let per := if scope = 0 then 4 else 8
  let stack := if scope = 2 then 16 else 0
  (List.range (n / per)).map (fun i => granuleAt s crust stack 0 (lo + i * per) / 2 ^ 21)

/-- The berth page that a physical page holds. -/
def holderOf (s : State) (page : Nat) : Option (Nat × Nat) :=
  (s.berths.flatMap (fun b => b.2.pages.map (fun p => (b.1, p.1, p.2)))).find?
    (fun x => x.2.2.phys = page && decide (x.2.2.tier ≠ .harbour)) |>.map (fun x => (x.1, x.2.1))

/-- Spares of a tier and scope that may be mapped, beside those that queued moves to spares will take. -/
def freeSpares (s : State) (tier : Tier) (scope : Nat) : List Nat :=
  let moves := [0, 1].flatMap (fun h => (s.half h).migRun.toList ++ (s.half h).migQ)
  let taken := (moves.filter (fun r =>
    let p := s.page r.berth (r.vpage * 2 ^ 21)
    r.tier = p.tier && r.tier = tier && pageScope s p.phys = scope)).length
  ((spares s tier scope).filter (mappable s tier scope true)).drop taken

/-- The berth and virtual page that will return to a physical page. -/
def returnsTo (s : State) (page : Nat) : Option (Nat × Nat) :=
  (s.berths.flatMap (fun b => b.2.retDest.map (fun x => (b.1, x.1, x.2)))).find? (fun x => x.2.2 = page)
    |>.map (fun x => (x.1, x.2.1))

/-- A page is retired (R348): listed, recorded, and its berth page moved to a spare of its tier and scope; a page that was
to return there returns to the spare. -/
def retirePage (page stack : Nat) (s : State) : State :=
  if s.trec.retired.contains page then s
  else
    let half := stack / 16
    let tier := pageTier page
    let spare := (freeSpares s tier (pageScope s page)).head?
    let short := fun (t : State) => makeRecord half 0x25 0xFF (payMemory 4 stack 0xFF (page * 2 ^ 21)) t
    let s := s.modTrec (fun t => { t with retired := t.retired ++ [page] })
    let s := makeRecord half 0x25 0xFF (payMemory 2 stack 0xFF (page * 2 ^ 21)) s
    match returnsTo s page, spare with
    | some (b, v), some x => s.modBerth b (fun t => { t with
        retDest := t.retDest.map (fun d => if d.1 = v then (v, x) else d) })
    | some _, none => short s
    | none, _ => match holderOf s page with
    | none => s
    | some (b, v) =>
      let leaving := [0, 1].any (fun h => ((s.half h).migRun.toList ++ (s.half h).migQ).any (fun r =>
        r.berth = b && r.vpage = v))
      if leaving then s
      else if spare = none then short s
      else
        let h := engineHalf s b v
        let s := s.modBerth b (fun t => { t with migReq := wrapAdd 32 t.migReq 1 })
        startMig h (s.modHalf h (fun x => { x with
          migQ := x.migQ ++ [{ berth := b, vpage := v, tier := tier, fromFault := false, queue := 0 }] }))

/-- Number of a bank row of a stack. -/
def rowNumber (p : Place) : Nat := (((p.channel * 12 + p.layer) * 32) + p.bank) * 4096 + p.row

/-- 24 hours in microseconds. -/
def dayUs : Nat := 86400000000

/-- An uncorrectable unit is recorded and marked; the second unit of a bank row within 24 hours retires the row's pages
(R335, R340). -/
def markUe (pa source : Nat) (s : State) : State :=
  let p := s.place pa
  let known := look .good s.units (pa / 32) = .uncorrectable
  let s := recordUe p.stack p.channel pa source s
  if known then s
  else
    let s := { s with units := put .good s.units (pa / 32) .uncorrectable }
    let now := (s.half (p.stack / 16)).us
    let recent := (s.stack p.stack).ueRows.filter (fun r => decide (now < r.2 + dayUs))
    let again := recent.any (fun r => r.1 = rowNumber p)
    let s := s.modStack p.stack (fun k => { k with ueRows := recent ++ [(rowNumber p, now)] })
    if again then forEach (rowPages s p) (fun g t => retirePage g p.stack t) s else s

/-- The second read of a unit (R335). -/
def execUeRereadDone (stack channel pa : Nat) (rx : BitVec 288) (s : State) : Res :=
  match (s.chan stack channel).rereads.find? (fun r => r.1 = pa / 32) with
  | none => .next s
  | some r =>
    let s := s.modChan stack channel (fun x => { x with rereads := x.rereads.erase r })
    if rx = poisonWord then .next s
    else match decodeWord (s.chan stack channel).mark rx with
      | some (d, syms) =>
        -- a second read that decodes counts as corrected, whatever it decodes as
        let s := if syms = [] then s.modChan stack channel (fun x => { x with corrected := satAdd 32 x.corrected 1 })
          else countCorrected stack channel syms s
        .next (deliver (pa / 32) r.2 d true s)
      | none => .next (markUe (pa / 32 * 32) r.2 s)

/-- The periodic clearing of a channel's counts (R332). -/
def execPinCountClear (stack channel : Nat) (s : State) : Res :=
  .next (s.modChan stack channel (fun x => { x with counts := [] }))

/-- The next row of a channel is refreshed; no bit changes (R325). -/
def execRefresh (stack channel : Nat) (s : State) : Res :=
  .next (s.modChan stack channel (fun x => { x with refreshRow := (x.refreshRow + 1) % (12 * 32 * 4096) }))

/-- A write of STK_PIN_MARK (R333, Table 13.8): a reserved PIN leaves the field as it is. -/
def pinMarkWrite (stack channel value : Nat) (s : State) : State :=
  let pin := field value 1 5
  keepMark stack channel (s.modChan stack channel (fun x => { x with
    valid := bit value 0, pin := if pin < 18 then pin else x.pin, auto := false
    second := x.second && !bit value 7 }))

def execPinMarkWrite (stack channel value : Nat) (s : State) : Res :=
  .next (if s.fenced (stack / 16) then s else pinMarkWrite stack channel value s)

/-! ### The Shelf (R353 to R357) -/

/-- Logical Shelf unit of a physical address. -/
def unitOfPa (pa : Nat) : Nat := (pa - 2 ^ 44) / 65536

/-- Flash stack of a logical unit (R354). -/
def flashOf (lu : Nat) : Nat := (lu % 32 + lu / 32) % 8

/-- Erase blocks of one flash stack (R354). -/
def blocksPerStack : Nat := 81920

/-- An access to a gated flash stack ungates it (Table 19.3). -/
def wakeFlash (f : Nat) (s : State) : State := s.modTwc (fun t => { t with gated := setBit t.gated (368 + f) false })

/-- Units of the park reserve that hold a berth's single parked tray (R361), and its park record with its trays and mooring
lines (R359), beyond the 2^28 units of the logical space (notes/assumptions/42.md). -/
def trayUnits (b core tray : Nat) : List Nat :=
  let k := 2 ^ 28 + 2 ^ 22 + (((b * 256 + core) * 16) + tray) * 2
  [k, k + 1]

def recUnits (b n : Nat) : List Nat := (List.range n).map (· + (2 ^ 28 + b * 2 ^ 16))

/-- Units of the park reserve that a berth has in use beside its pages' copies. -/
def reserveUsed (s : State) (b : Nat) : Nat :=
  (s.shelf.map.filter (fun e => (decide (2 ^ 28 + b * 2 ^ 16 ≤ e.1) && decide (e.1 < 2 ^ 28 + (b + 1) * 2 ^ 16)) ||
    (decide (2 ^ 28 + 2 ^ 22 + b * 8192 ≤ e.1) && decide (e.1 < 2 ^ 28 + 2 ^ 22 + (b + 1) * 8192)))).length

/-- Erased capacity held for a berth, in 2 MiB (R358, Table 14.6): its reserve less what has a current Shelf copy. -/
def parkErased (s : State) (b : Nat) : Nat :=
  let t := s.berth b
  t.layout.parkRes - (t.pages.filter (fun p => p.2.shelfCopy || p.2.tier = .park)).length - cdiv (reserveUsed s b) 32

/-- Raw blocks of the Shelf. -/
def rawBlocks : Nat := 8 * blocksPerStack

/-- Erased blocks outside every park reserve. -/
def spareBlocks (s : State) : Nat :=
  let erased := rawBlocks - (s.shelf.blocks.filter (fun b => b.2.bad || decide (b.2.used ≠ 0))).length
  erased - cdiv (((List.range 32).map (parkErased s)).foldl (· + ·) 0) 16

/-- The block in which a flash stack programs its next unit: the one partly programmed, else the erased block of the
lowest count, the lowest index first (R356; notes/assumptions/42.md). Only parking uses the erased blocks of the park
reserves (R358). -/
def openBlock (s : State) (park : Bool) (f : Nat) : Option Nat :=
  let ids := (List.range blocksPerStack).map (· + f * blocksPerStack)
  match ids.find? (fun i => let b := s.block i; !b.bad && decide (0 < b.used) && decide (b.used < 512)) with
  | some i => some i
  | none => if !park && spareBlocks s = 0 then none else ids.foldl (fun (m : Option Nat) i =>
      let b := s.block i
      if b.bad || decide (b.used ≠ 0) then m
      else match m with
        | none => some i
        | some j => if b.erases < (s.block j).erases then some i else m) none

/-- An entry of the map: both halves' copies, and the journal (R355). -/
def State.mapEntry (s : State) (lu : Nat) (e : Option (Nat × Nat)) : State :=
  s.modShelf (fun h => { h with map := put none h.map lu e, saved := put none h.saved lu e })

/-- The current copy of a logical unit is superseded. -/
def dropCopy (lu : Nat) (s : State) : State :=
  match look none s.shelf.map lu with
  | none => s
  | some (f, u) =>
    let i := f * blocksPerStack + u / 512
    let b := s.block i
    (s.setBlock i { b with valid := b.valid.filter (· ≠ lu) }).mapEntry lu none

/-- A unit is programmed into a block: the map entry, the block's counts, SHF_WRITTEN. -/
def programInto (i lu : Nat) (s : State) : State :=
  let s := dropCopy lu s
  let b := s.block i
  let f := i / blocksPerStack
  let s := s.setBlock i { b with used := b.used + 1, valid := b.valid ++ [lu], reads := 0, since := s.shelf.us }
  (s.mapEntry lu (some (f, i % blocksPerStack * 512 + b.used))).modShelf (fun h => { h with
    written := wrapAdd 64 h.written 1 })

/-- A logical unit is written with new data, by a park or by others. -/
def programUnit (park : Bool) (lu : Nat) (s : State) : State :=
  let s := wakeFlash (flashOf lu) s
  let s := s.modShelf (fun h => { h with lostUnits := h.lostUnits.filter (· ≠ lu) })
  match openBlock s park (flashOf lu) with
  | none => s
  | some i => programInto i lu s

/-- Each unit of a list finds an erased block in its turn. -/
def canProgram (park : Bool) : List Nat → State → Bool
  | [], _ => true
  | lu :: rest, s => (openBlock s park (flashOf lu)).isSome && canProgram park rest (programUnit park lu s)

/-- A logical unit is read. -/
def readUnit (lu : Nat) (s : State) : State :=
  match look none s.shelf.map lu with
  | none => s
  | some (f, u) =>
    let i := f * blocksPerStack + u / 512
    let s := wakeFlash f s
    s.setBlock i { s.block i with reads := (s.block i).reads + 1 }

/-- Units of a Shelf page. -/
def pageUnits (page : Nat) : List Nat := (List.range 32).map (· + (page - 2 ^ 23) * 32)

def badBlocks (s : State) : Nat := (s.shelf.blocks.filter (·.2.bad)).length

def maxErase (s : State) : Nat := s.shelf.blocks.foldl (fun m b => max m b.2.erases) 0

def minErase (s : State) : Nat :=
  if s.shelf.blocks.length < rawBlocks then 0
  else s.shelf.blocks.foldl (fun m b => min m b.2.erases) (maxErase s)

def avgErase (s : State) : Nat := (s.shelf.blocks.foldl (fun n b => n + b.2.erases) 0) / rawBlocks

/-- LOW_SPARE and WEAR_WARN after a change of the map (R357, R362). -/
def shelfFlags (s : State) : State :=
  let low := decide (spareBlocks s * 50 < rawBlocks)
  let warn := decide (avgErase s ≥ 2400)
  let was := s.shelf.wearWarn
  let s := s.modShelf (fun h => { h with lowSpare := h.lowSpare || low, wearWarn := h.wearWarn || warn })
  if warn && !was then makeRecord s.glb.chair 0x25 0xFF (payMemory 5 0xFF 0xFF 0) s else s

/-- A unit of the Shelf reaches the PEEL that reads it (R353, R355). -/
def execShelfReadDone (q inst : Nat) (s : State) : Res :=
  let r := s.run q
  let i := r.insts.getD inst {}
  let c := s.ctx q
  if s.shelf.mapReady ∧ onShelf c (nth (tensors i.descs) 0) then
    match i.readsLeft with
    | [] => .next s
    | p :: rest =>
      let pg := s.page c.berth p.1
      let s := s.modInst q inst (fun x => { x with readsLeft := rest })
      .next (if pg.tier = .shelf then readUnit (unitOfPa (pg.phys * 2 ^ 21 + p.1 % 2 ^ 21)) s else s)
  else .next s

/-- A unit of a park reserve belongs to no parked tray and to no park record: what a reset or a loss of power left there
is discarded (R517). -/
def strayUnit (s : State) (lu : Nat) : Bool :=
  decide (2 ^ 28 ≤ lu) &&
    (if lu < 2 ^ 28 + 2 ^ 22 then (s.berth ((lu - 2 ^ 28) / 2 ^ 16)).parkRec.isNone
     else
      let k := (lu - 2 ^ 28 - 2 ^ 22) / 2
      (s.tray (k / 16 % 256) (k % 16)).parkedBy ≠ some (k / 4096))

/-- The map is rebuilt from its journal and checkpoints. -/
def rebuildMap (s : State) : State :=
  let s := s.modShelf (fun h => { h with map := h.saved, mapReady := true, inService := 0xFF })
  shelfFlags (forEach ((s.shelf.map.map (·.1)).filter (strayUnit s)) dropCopy s)

/-- The valid units of a block are moved to another block of its flash stack. -/
def moveUnits (src : Nat) (dst : Nat → State → Option Nat) (s : State) : State :=
  forEach (s.block src).valid (fun lu t =>
    match dst lu t with
    | none => t
    | some i => (programInto i lu t).modShelf (fun h => { h with refreshed := wrapAdd 64 h.refreshed 1 })) s

/-- The block of a flash stack's choice that is not the one being emptied. -/
def otherBlock (src : Nat) (s : State) : Option Nat :=
  openBlock (s.setBlock src { s.block src with bad := true }) false (src / blocksPerStack)

/-- The first block of the Shelf's lowest count that holds a valid unit. -/
def lowBlock (s : State) : Option Nat :=
  (s.shelf.blocks.find? (fun p => p.2.valid ≠ [] && !p.2.bad && p.2.erases = minErase s)).map (·.1)

/-- The erased block of the highest count in the flash stack of a block. -/
def highBlock (s : State) (src : Nat) : Option Nat :=
  if spareBlocks s = 0 then none else ((List.range blocksPerStack).map (· + src / blocksPerStack * blocksPerStack)).foldl (fun (m : Option Nat) i =>
    let b := s.block i
    if b.bad || decide (b.used ≠ 0) || i = src then m
    else match m with
      | none => some i
      | some j => if b.erases > (s.block j).erases then some i else m) none

/-- Wear levelling (R356): the units of the lowest-count block that holds any move to the highest-count erased
block. -/
def execWearLevel (s : State) : Res :=
  if maxErase s ≤ minErase s + 256 ∨ !s.shelf.mapReady then .next s
  else match lowBlock s with
    | none => .next s
    | some src => .next (shelfFlags (moveUnits src (fun _ _ => highBlock s src) s))

/-- A block whose units are all superseded is erased (R356). -/
def execGarbageCollect (block : Nat) (s : State) : Res :=
  let b := s.block block
  if s.shelf.mapReady ∧ block < rawBlocks ∧ !b.bad ∧ b.used ≠ 0 ∧ b.valid = [] then
    .next (shelfFlags (s.setBlock block { b with erases := b.erases + 1, used := 0, reads := 0 }))
  else .next s

/-- A logical unit is marked lost (R357): counted once, reported. -/
def loseUnit (lu : Nat) (s : State) : State :=
  if s.shelf.lostUnits.contains lu then s
  else
    let s := s.modShelf (fun h => { h with lostUnits := h.lostUnits ++ [lu], lost := satAdd 32 h.lost 1 })
    let a := 2 ^ 44 + lu * 65536
    let units := (List.range 2048).map (· + a / 32)
    let s := { s with mem := zeroBytes s.mem a 65536
                      units := units.foldl (fun t u => put .good t u .poison) s.units }
    makeRecord s.glb.chair 0x25 0xFF (payMemory 6 (flashOf lu) 0xFF a) s

/-- A block is due for relocation: 60,000 reads or 90 powered days since its last program (R357). -/
def relocationDue (s : State) (block : Nat) : Bool :=
  decide ((s.block block).reads ≥ 60000) || decide (s.shelf.us ≥ (s.block block).since + 90 * dayUs)

/-- A block's units are relocated after read disturb, age or a failure (R357); those that cannot be recovered are
lost. -/
def execShelfRelocate (block : Nat) (failed : Bool) (lost : List Nat) (s : State) : Res :=
  if block < rawBlocks ∧ s.shelf.mapReady ∧ (failed ∨ relocationDue s block) then
    let gone := lost.filter (fun lu => (s.block block).valid.contains lu)
    let s := forEach gone (fun lu t => loseUnit lu (dropCopy lu t)) s
    let s := moveUnits block (fun _ t => otherBlock block t) s
    .next (shelfFlags (if failed then s.setBlock block { s.block block with bad := true } else s))
  else .next s

/-! ### Migration (R351) -/

/-- A page's data copied: an uncorrectable unit of a stack is recorded and arrives poisoned, poison stays poison
(R351); what is out of reach arrives poisoned (R360). -/
def copyPage (src dst : Nat) (s : State) : State :=
  let a := src * 2 ^ 21
  let d := dst * 2 ^ 21
  let dead := s.unreachable a
  let marks := s.units.filter (fun u => decide (a / 32 ≤ u.1) && decide (u.1 < a / 32 + 65536))
  let read := (forEach ((s.delivered.map (·.1)).filter (fun u => decide (a / 32 ≤ u) && decide (u < a / 32 + 65536)))
    (fun u t => t.merged u) s).mem
  let bytes := read.filter (fun c => decide (a ≤ c.1) && decide (c.1 < a + 2 ^ 21))
  let s := forEach marks (fun u t =>
    if u.2 = .uncorrectable ∧ !dead then
      recordUe (t.place (u.1 * 32)).stack (t.place (u.1 * 32)).channel (u.1 * 32) 0 t
    else t) s
  let clean := s.units.filter (fun u => !(decide (d / 32 ≤ u.1) && decide (u.1 < d / 32 + 65536)))
  let mem := zeroBytes s.mem d (2 ^ 21)
  let s := { s with delivered := s.delivered.filter (fun x => !(decide (d / 32 ≤ x.1) && decide (x.1 < d / 32 + 65536))) }
  if dead then
    { s with mem := mem
             units := (List.range 65536).foldl (fun t i => put .good t (d / 32 + i) .poison) clean }
  else
    let s := { s with
      mem := bytes.foldl (fun m (c : Nat × Byte) => wrByte m (c.1 - a + d) c.2) mem
      units := marks.foldl (fun t (u : Nat × UnitSt) => put .good t (u.1 - a / 32 + d / 32) .poison) clean }
    -- an uncorrectable unit's bytes are not delivered
    { s with mem := marks.foldl (fun m (u : Nat × UnitSt) => zeroBytes m ((u.1 - a / 32) * 32 + d) 32) s.mem }

/-- What copying does to the Shelf's map and blocks. -/
def shelfSide (src dst : Nat) (s : State) : State :=
  let s := if pageTier src = .shelf then forEach (pageUnits src) readUnit s else s
  let s := if pageTier dst = .shelf then forEach (pageUnits dst) (programUnit false) s else s
  if pageTier src = .shelf then forEach (pageUnits src) dropCopy s else s

/-- Scope of the region that holds a page of a berth. -/
def scopeOf (s : State) (b vpage : Nat) : Nat :=
  ((regionAt (s.imageOf b) (vpage * 2 ^ 21)).map (·.scope)).getD 0

/-- A page copy completes and the mapping switches (R351, R352); `page` is the physical page that the destination
takes. Migrations of the Shelf wait for its map (R355) and for erased blocks outside the park reserves (R358). A page that
is to move to a spare stays where it is once no spare is left, which is reported (R348). -/
def execMigrationDone (half page : Nat) (s : State) : Res :=
  match (s.half half).migRun with
  | none => .next s
  | some r =>
    let p := look {} (s.berth r.berth).pages r.vpage
    let spare := r.tier = p.tier
    let shelf := p.tier = .shelf || r.tier = .shelf
    let scope := pageScope s p.phys
    if spare && !(spares s r.tier scope).any (mappable s r.tier scope true) then
      let s := s.modPage r.berth r.vpage (fun x => { x with migrating := false })
      let s := s.modBerth r.berth (fun t => { t with migDone := wrapAdd 32 t.migDone 1 })
      let stack := (s.place (p.phys * 2 ^ 21)).stack
      let s := makeRecord half 0x25 0xFF (payMemory 4 stack 0xFF (p.phys * 2 ^ 21)) s
      .next (startMig half (s.modHalf half (fun h => { h with migRun := none })))
    else if r.tier = .shelf && !canProgram false (pageUnits page) s then .next s
    else if !mappable s r.tier (scopeOf s r.berth r.vpage) spare page || (shelf && !s.shelf.mapReady) then .next s
    else
      let s := { copyPage p.phys page s with pageLast := put 0 s.pageLast page (r.berth + 1) }
      let s := if shelf then shelfFlags (shelfSide p.phys page s) else s
      let s := s.modPage r.berth r.vpage (fun x => { x with tier := r.tier, phys := page, migrating := false })
      let s := s.modBerth r.berth (fun t => { t with migDone := wrapAdd 32 t.migDone 1 })
      let s := s.modHalf half (fun h => { h with migRun := none })
      .next (startMig half s)

/-! ### Parked trays (R376) -/

/-- Key of the Shelf copy of a berth's pinned tray. -/
def parkKey (b core tray : Nat) : Nat := trayKey (core + 256 * (b + 1)) tray 0

/-- A pinned tray is written to the park reserve (R361) and marked 0x9. -/
def parkTray (core tray : Nat) (s : State) : State :=
  let b := (s.tray core tray).berth
  let bytes := rdBytes s.trays (trayKey core tray 0) 131072
  let s := { s with trays := wrBytes (zeroBytes s.trays (parkKey b core tray) 131072) (parkKey b core tray) bytes }
  let s := s.modTray core tray (fun k => { k with owner := 0x9, parkedBy := some b })
  shelfFlags (forEach (trayUnits b core tray) (programUnit true) s)

/-- Owner of a pinned tray between kernels: the Peel for an accumulator, 0xA for a held tray (R299). -/
def pinnedOwner (s : State) (b core tray : Nat) : Nat :=
  if (s.imageOf b).accs.any (fun a => a.tray = tray && a.cores.contains core) then 0x6 else 0xA

/-- A parked tray returns to its tray number on its core once that is free (R376). -/
def execTrayRestoreDone (core tray : Nat) (s : State) : Res :=
  let y := s.tray core tray
  match y.parkedBy with
  | some b =>
    if y.owner = 0x9 ∧ coreInService s core then
      let bytes := rdBytes s.trays (parkKey b core tray) 131072
      let s := { s with trays := wrBytes (zeroBytes s.trays (trayKey core tray 0) 131072) (trayKey core tray 0) bytes }
      let o := pinnedOwner s b core tray
      let s := forEach (trayUnits b core tray) dropCopy s
      .next (settle (s.modTray core tray (fun k => { k with owner := o, berth := b, parkedBy := none })))
    else .next s
  | none => .next s

end Sys2Proof.Machine
end

