-- ==== Sys2Proof/Machine/Causeway.lean ====
section
/-! DEFINITION. The Causeway (16_causeway.md R388 to R408): port states, the link layer, what a target accepts and does,
answers, resends and drops, transit. A port's draining and its end also serve the gating of its group
(Sys2Proof/Machine/Power.lean). -/
namespace Sys2Proof.Machine

/-! ### Ports (Table 16.1) -/

/-- The power domain of a port's group (R388, Table 19.3). -/
def portDomain (p : Nat) : Nat := 352 + p / 4

/-- A port can train: its half is in service, its group is powered, the SerDes PLLs are locked. -/
def portPowered (s : State) (p : Nat) : Bool :=
  !s.fenced (portHalf p) && !bitOf s.twc.gated (portDomain p) && s.clk.serdes

/-- Packets that leave a port's queue without having been sent are routed again (R407). -/
def reroute (p : Nat) (s : State) : State :=
  let q := (s.port p).txq
  let s := s.modPort p (fun t => { t with txq := [] })
  forEach q (fun pk t => route (portHalf p) { pk with hops := pk.hops - 1 } t) s

/-- A port starts training where it may. -/
def trainPort (p : Nat) (s : State) : State :=
  let t := s.port p
  if t.enable && portPowered s p && (t.state = .off || t.state = .down) then
    s.modPort p (fun x => { x with state := .training, locked := 0 })
  else s

/-- A port goes off; its queued packets take the alternate. -/
def portOff (p : Nat) (s : State) : State :=
  reroute p (s.modPort p (fun t => { t with state := .off, locked := 0, unacked := [] }))

/-- A port drains, or goes off when it carries no flits (R390, R407). -/
def drainPort (p : Nat) (s : State) : State :=
  match (s.port p).state with
  | .up => s.modPort p (fun t => { t with state := .draining })
  | .training => portOff p s
  | .down => portOff p s
  | _ => s

/-- ENABLE written (Table 16.7); a fenced unit ignores it (R28). -/
def writeEnable (p : Nat) (on : Bool) (s : State) : State :=
  if s.fenced (portHalf p) then s
  else
    let s := s.modPort p (fun t => { t with enable := on })
    if on then trainPort p s else drainPort p s

def execPortEnable (port : Nat) (s : State) : Res := .next (writeEnable port true s)

def execPortDisable (port : Nat) (s : State) : Res := .next (writeEnable port false s)

/-- A trained port carries flits (R390): its link starts at number 0 with empty buffers. -/
def execPortTrained (port peerPart peerPort : Nat) (s : State) : Res :=
  if (s.port port).state = .training ∧ portPowered s port then
    let s := s.modPort port (fun t => { t with
      state := .up, locked := 0xFF, peerPart := peerPart, peerPort := peerPort, txNext := 0, unacked := [], rxNext := 0
      sinceAck := 0, rxHold := false, nakNum := 0, nakRun := 0, credit := [], freed := [] })
    .next (sendPort port (s.port port).txq.length s)
  else .next s

/-- An UP port goes DOWN (R394, R407): flits in the retry buffer are lost, queued packets take the alternate, and it
trains again at once (Table 16.1). -/
def goDown (p : Nat) (s : State) : State :=
  if (s.port p).state = .up then
    let s := s.modPort p (fun t => { t with
      state := .down, linkDowns := satAdd 16 t.linkDowns 1, unacked := [], rxHold := false, nakRun := 0 })
    trainPort p (reroute p s)
  else s

/-- Block lock of a lane is lost for 10 µs. -/
def execLaneLockLoss (port lane : Nat) (s : State) : Res :=
  .next (goDown port (s.modPort port (fun t => { t with locked := setBit t.locked lane false })))

/-- No LINK_ACK advances for 100 µs while flits are unacknowledged. -/
def execAckStall (port : Nat) (s : State) : Res :=
  .next (if (s.port port).unacked = [] then s else goDown port s)

/-! ### The link layer (R391 to R396) -/

/-- The port carries flits. -/
def carries (s : State) (p : Nat) : Bool := (s.port p).state = .up || (s.port p).state = .draining

/-- A LINK_ACK leaves: the last number accepted, and the freed 16-flit units of each VL (R392, R396). -/
def sendLinkAck (p : Nat) (s : State) : State :=
  let t := s.port p
  let give := fun vl => min 15 (look 0 t.freed vl / 16)
  let credits := (List.range 8).foldl (fun n vl => n + give vl * 16 ^ vl) 0
  let freed := (List.range 8).foldl (fun f vl => put 0 f vl (look 0 t.freed vl - 16 * give vl)) t.freed
  (s.setPort p { t with freed := freed, sinceAck := 0 }).emit (.link p false ((t.rxNext + 4095) % 4096) credits)

/-- A packet's flits are accepted at the port where it arrived (R392, R393); its buffer is free again. -/
def arrive (pk : Packet) (s : State) : State :=
  match pk.port with
  | none => s
  | some p =>
    let n := flitsOf pk
    let s := s.modPort p (fun t => { t with
      rxHold := false, rxNext := (t.rxNext + n) % 4096, sinceAck := t.sinceAck + n
      freed := put 0 t.freed pk.vl (look 0 t.freed pk.vl + n) })
    if (s.port p).sinceAck ≥ 64 then sendLinkAck p s else s

/-- An uncorrectable codeword: its flits and the later ones are discarded until the retry, after one LINK_NAK. -/
def execCodewordUncorrectable (port : Nat) (s : State) : Res :=
  let s := s.modPort port (fun t => { t with fecUncorr := satAdd 32 t.fecUncorr 1 })
  .next (if carries s port && !(s.port port).rxHold then
      (s.modPort port (fun t => { t with rxHold := true, retries := satAdd 32 t.retries 1 })).emit
        (.link port true (s.port port).rxNext 0)
    else s)

/-- The numbers after the acknowledged one. -/
def afterNumber (l : List (Nat × BitVec 257)) (n : Nat) : List (Nat × BitVec 257) :=
  if l.any (fun f => f.1 = n) then (l.dropWhile (fun f => f.1 ≠ n)).drop 1 else l

/-- A LINK_ACK arrives: retry-buffer flits are freed, credits return, packets may start. -/
def execLinkAck (port number credits : Nat) (s : State) : Res :=
  if carries s port then
    let s := s.modPort port (fun t => { t with
      unacked := afterNumber t.unacked number
      credit := (List.range 8).foldl (fun c vl => put 0 c vl (look 0 c vl - 16 * field credits (4 * vl) 4)) t.credit })
    .next (sendPort port (s.port port).txq.length s)
  else .next s

/-- A LINK_NAK arrives: the flits are sent again from that number, or the 16th in a row takes the port down. -/
def execLinkNak (port number : Nat) (s : State) : Res :=
  if carries s port then
    let t := s.port port
    let run := if t.nakNum = number then t.nakRun + 1 else 1
    let again := t.unacked.dropWhile (fun f => f.1 ≠ number)
    let s := s.modPort port (fun x => { x with
      nakNum := number, nakRun := run, txFlits := wrapAdd 64 x.txFlits again.length })
    .next (if run ≥ 16 then goDown port s else if again = [] then s else s.emit (.flits port (again.map (·.2))))
  else .next s

/-- The receiver acknowledges what it has accepted since its last LINK_ACK. -/
def execLinkAckTimer (port : Nat) (s : State) : Res :=
  .next (if carries s port && decide ((s.port port).sinceAck > 0) then sendLinkAck port s else s)

/-! ### Target checks (Table 16.5) -/

/-- The right that a request's type needs (R400). -/
def needRight (p : Packet) : Right :=
  if p.type = 0x1 then .w else if p.type = 0x2 then .r else if p.type = 0x4 then .a
  else if p.type = 0x7 then .d else .s

/-- Bytes of memory that a request reaches. -/
def reachLen (p : Packet) : Nat := if p.type = 0x4 then (if p.wide64 then 8 else 4) else p.length

/-- An export entry admits a request (check 1). -/
def entryAdmits (p : Packet) (e : ExportEnt) : Bool :=
  decide (e.lo ≤ p.srcPart) && decide (p.srcPart ≤ e.hi) && (e.berth = 32 || e.berth = p.srcBerth) &&
    e.rights.contains (needRight p) &&
    (if p.type = 0x5 || p.type = 0x6 then e.syncs.contains p.addr
     else if p.type = 0x7 then e.queues.contains p.addr
     else decide (e.base ≤ p.addr) && decide (p.addr + reachLen p ≤ e.base + e.pages * 2 ^ 21))

/-- The berth that an accepted request resolves to. -/
def exportBerth (s : State) (p : Packet) : Option Nat :=
  (s.berths.find? (fun b => match b.2.image with
    | some img => img.exports.any (entryAdmits p)
    | none => false)).map (·.1)

/-- Addresses at which a request enters a new page, or a new region. -/
def reachSteps (p : Packet) : List Nat :=
  if p.type = 0x5 || p.type = 0x6 || p.type = 0x7 || reachLen p = 0 then []
  else
    let first := p.addr / 2 ^ 21
    let last := (p.addr + reachLen p - 1) / 2 ^ 21
    p.addr :: (List.range (last - first)).map (fun k => (first + 1 + k) * 2 ^ 21)

/-- An address of an export is placed (check 3). -/
def exportPlaced (s : State) (b va : Nat) : Bool :=
  match s.spot b va with
  | .stack _ =>
    let g := s.page b va
    (g.tier = .crust || g.tier = .crumb) && !g.migrating
  | _ => true

/-- The first check that fails, or the berth (R401). A half in SPLIT answers BERTH_AWAY (R468). -/
def targetCheck (s : State) (half : Nat) (p : Packet) : Except Nat Nat :=
  if (s.half half).chair = .split then .error 0x2
  else match exportBerth s p with
    | none => .error 0x1
    | some b =>
      if (s.berth b).parkState ≠ .live then .error 0x2
      else if !(reachSteps p).all (exportPlaced s b) then .error 0x3
      else if (reachSteps p).any (fun va => s.spotDead (s.spot b va)) then .error 0x4
      else .ok b

/-! ### Answers and the duplicate filter (R404) -/

/-- An answer to a request: ACK, NACK or READ_RESP on VL6. -/
def answerTo (s : State) (p : Packet) (type op : Nat) : Packet :=
  { type := type, vl := 6, srcPart := s.cwy.partId, dstPart := p.srcPart, txn := p.txn, srcHalf := p.srcHalf
    addr := p.addr, op := op }

def filterHit (half : Nat) (p : Packet) (e : FilterEnt) : Bool :=
  e.half = half && e.srcPart = p.srcPart && e.srcHalf = p.srcHalf && e.txn = p.txn

/-- A request at its target: a duplicate is answered again; a full filter leaves it alone; a failed check is answered
with its reason; one whose n stored bytes need a mooring line that may not be allotted now waits (R315;
notes/assumptions/90.md); else it is applied, or turned away by `apply` with NACK 0x7, and answered. Only applied requests
enter the filter. -/
def serve (half : Nat) (p : Packet) (n : Nat) (apply : Nat → State → Bool × State) (s : State) : State :=
  let s := arrive p s
  match s.cwy.filter.find? (filterHit half p) with
  | some e => route half e.answer s
  | none =>
    if (s.cwy.filter.filter (fun e => e.half = half)).length ≥ 65536 then
      s.modCwy (fun c => { c with filterFull := satAdd 32 c.filterFull 1 })
    else match targetCheck s half p with
      | .error reason => route half (answerTo s p 0x9 reason) s
      | .ok b =>
        if (unitPieces p.addr n (List.replicate n 0)).any (fun q => s.spotBarred b q.1) then s
        else
        let (ok, s) := apply b s
        if !ok then route half (answerTo s p 0x9 0x7) s
        else
          let a := answerTo s p 0x8 0
          let e : FilterEnt := { half := half, srcPart := p.srcPart, srcHalf := p.srcHalf, txn := p.txn, answer := a }
          route half a (s.modCwy (fun c => { c with filter := c.filter ++ [e] }))

/-- The units that a range touches get a mark of poison: their bytes are zero (R424). -/
def poisonRange (b va n : Nat) (s : State) : State :=
  let first := va / 32
  let last := (va + n - 1) / 32
  if n = 0 then s
  else forEach ((List.range (last + 1 - first)).map (fun k => (first + k) * 32)) (fun u t =>
    let l := t.spot b u
    (t.spotWrite b u l (List.replicate 32 0)).setMark b l .poison) s

/-- Some unit that a write reaches only in part is uncorrectable (R402). -/
def maskedBad (s : State) (b va : Nat) (bs : List Byte) : Bool :=
  (unitPieces va bs.length bs).any (fun q =>
    !(q.1 % 32 = 0 && q.2.length = 32) && s.markAt b (s.spot b q.1) = .uncorrectable)

/-- A WRITE applies: its stores go through the home Harbour; poisoned data leaves its units poisoned (R391). -/
def applyWrite (p : Packet) (b : Nat) (s : State) : Bool × State :=
  let bs := p.data.take p.length
  if maskedBad s b p.addr bs then (false, s)
  else if p.poison then (true, poisonRange b p.addr bs.length s)
  else (true, (s.poke b p.addr bs).2)

def execWrite (half : Nat) (p : Packet) (s : State) : Res := .next (serve half p p.length (applyWrite p) s)

/-- An atomic that Table 3.18 and R100 give a meaning. -/
def atomicLegal (p : Packet) : Bool :=
  decide (p.op ≤ 0xA) && !(p.op = 0xA && p.wide64) && decide (p.addr % (if p.wide64 then 8 else 4) = 0)

/-- An ATOMIC applies in its home slice. -/
def applyAtomic (p : Packet) (b : Nat) (s : State) : Bool × State :=
  let l := s.spot b p.addr
  let r := s.atomAt b p.addr p.op (if p.wide64 then 64 else 32) p.operand (leNat p.data)
  (r.1, if r.1 then r.2.countAtom l else r.2)

/-- A malformed packet is discarded and counted in RX_BAD of the port where it arrived. -/
def discard (half : Nat) (p : Packet) (s : State) : State := countBad (p.port.getD (32 * half)) (arrive p s)

def execAtomic (half : Nat) (p : Packet) (s : State) : Res :=
  .next (if atomicLegal p then serve half p (if p.wide64 then 8 else 4) (applyAtomic p) s else discard half p s)

def execSignalAdd (half : Nat) (p : Packet) (s : State) : Res :=
  .next (serve half p 0 (fun _ t => (true, applySignal true p.addr p.operand p.dropped t)) s)

def execSignalSet (half : Nat) (p : Packet) (s : State) : Res :=
  .next (serve half p 0 (fun _ t => (true, applySignal false p.addr p.operand p.dropped t)) s)

def execDoorbell (half : Nat) (p : Packet) (s : State) : Res :=
  .next (serve half p 0 (fun _ t =>
    (true, if doorbellOpen t p.addr then setTail p.addr (p.operand % 2 ^ 32) t else t)) s)

/-- A READ is answered by its data; poisoned or uncorrectable units make it poisoned (R391, R402). It takes no filter
entry, and a full filter leaves it alone as it leaves every request that is no duplicate (R404). -/
def execRead (half : Nat) (p : Packet) (s : State) : Res :=
  let s := arrive p s
  if (s.cwy.filter.filter (fun e => e.half = half)).length ≥ 65536 then
    .next (s.modCwy (fun c => { c with filterFull := satAdd 32 c.filterFull 1 }))
  else match targetCheck s half p with
    | .error reason => .next (route half (answerTo s p 0x9 reason) s)
    | .ok b =>
      let ps := unitPieces p.addr p.length (List.replicate p.length 0)
      let bad := ps.any (fun q => s.markAt b (s.spot b q.1) ≠ .good)
      let data := ps.flatMap (fun q => s.spotBytes b (s.spot b q.1) q.2.length)
      let t := forEach ps (fun q u => u.slotTouch (u.spot b q.1)) s
      .next (route half { answerTo s p 0x3 0 with data := data, length := p.length, poison := bad } t)

/-! ### Answers at the source (R403 to R405) -/

/-- The unanswered request of a half with a TXN. -/
def findOutst (s : State) (half txn : Nat) : Option Outst :=
  s.cwy.outst.find? (fun o => o.half = half && o.txn = txn)

def dropOutst (o : Outst) (s : State) : State := s.modCwy (fun c => { c with outst := c.outst.filter (· ≠ o) })

/-- Data of a remote read reaches its instruction (R405). -/
def deliverRead (o : Outst) (q j off : Nat) (data : List Byte) (poison : Bool) (s : State) : State :=
  (dropOutst o s).modInst q j (fun x => { x with
    readsLeft := x.readsLeft.erase (off, o.packet.length)
    got := x.got ++ [(off, data, poison)] })

/-- A range delivered as poisoned units. -/
def deliverPoison (o : Outst) (q j off : Nat) (s : State) : State :=
  deliverRead o q j off (List.replicate o.packet.length 0) true s

/-- An effect that is dropped at the Causeway (R48, R404); the next effect to its part goes out. -/
def dropSent (o : Outst) (q reason : Nat) (s : State) : State :=
  let s := (dropOutst o s).modCwy (fun c => { c with drops := satAdd 32 c.drops 1 })
  sendRemote q (dropEffect q o.packet.dstPart reason s)

def execAck (_half : Nat) (p : Packet) (s : State) : Res :=
  let s := arrive p s
  match findOutst s p.srcHalf p.txn with
  | none => .next s
  | some o => match o.what with
    | .effect q => .next (sendRemote q (dropOutst o s))
    | _ => .next s

def execReadResp (_half : Nat) (p : Packet) (s : State) : Res :=
  let s := arrive p s
  match findOutst s p.srcHalf p.txn with
  | none => .next s
  | some o => match o.what with
    | .readFor q j off => .next (if p.poison then deliverPoison o q j off s
        else deliverRead o q j off (p.data.take o.packet.length) false s)
    | _ => .next s

/-- A NACK drops an effect; a read not exported raises BERTH_BOUNDS detail 3 in its kernel, any other reason delivers
poison. -/
def execNack (_half : Nat) (p : Packet) (s : State) : Res :=
  let s := (arrive p s).modCwy (fun c => { c with lastNack := p.op % 16 })
  match findOutst s p.srcHalf p.txn with
  | none => .next s
  | some o => match o.what with
    | .effect q => .next (dropSent o q (p.op % 16) s)
    | .readFor q j off =>
      if p.op % 16 = 1 then
        let word := ((s.run q).insts.getD j {}).word
        .next (faultRun q 0x0E 3 word none (dropOutst o s))
      else .next (deliverPoison o q j off s)
    | .mgmt => .next (dropOutst o s)

/-- An unanswered request is sent again with its TXN over the route of now, up to RESENDS times (R404). -/
def execResendTimeout (half txn : Nat) (s : State) : Res :=
  match findOutst s half txn with
  | none => .next s
  | some o =>
    if o.sends < s.cwy.resends + 1 then
      let s := s.modCwy (fun c => { c with
        outst := c.outst.map (fun x => if x = o then { x with sends := x.sends + 1 } else x)
        resent := satAdd 28 c.resent 1 })
      .next (route half o.packet s)
    else .next s

/-- No answer within DELIVERY_TIMEOUT: an effect is dropped, a read is delivered as poisoned. -/
def execDeliveryTimeout (half txn : Nat) (s : State) : Res :=
  match findOutst s half txn with
  | none => .next s
  | some o => match o.what with
    | .effect q => .next (dropSent o q 0 s)
    | .readFor q j off => .next (deliverPoison o q j off s)
    | .mgmt => .next (dropOutst o s)

/-- A filter entry of 20 ms ago expires. -/
def execFilterExpiry (half srcPart srcHalf txn : Nat) (s : State) : Res :=
  .next (s.modCwy (fun c => { c with filter := c.filter.filter (fun e =>
    !(e.half = half && e.srcPart = srcPart && e.srcHalf = srcHalf && e.txn = txn)) }))

/-- A TXN first sent 40 ms ago is free; the requests that wait are offered again. -/
def execTxnFree (half txn : Nat) (s : State) : Res :=
  .next (sendWaiting (s.modCwy (fun c => { c with txnBusy := c.txnBusy.filter (· ≠ (half, txn)) })))

/-! ### Transit and routing (R399, R406) -/

/-- A packet that passes through, or is for this part. -/
def execPacketForward (port : Nat) (p : Packet) (s : State) : Res :=
  .next (route (portHalf port) { p with port := none } (arrive { p with port := some port } s))

/-- A packet of a reserved type is discarded and counted. -/
def execReservedPacket (port : Nat) (p : Packet) (s : State) : Res :=
  .next (countBad port (arrive { p with port := some port } s))

/-- A transit packet that has waited 10 ms for credit at the head of its VL queue is discarded. -/
def execHolTimeout (port vl : Nat) (s : State) : Res :=
  let t := s.port port
  match frontOf t.txq vl with
  | none => .next s
  | some p =>
    if p.srcPart ≠ s.cwy.partId ∧ look 0 t.credit vl + flitsOf p > vlBuffer vl then
      let s := (s.setPort port { t with txq := dropFront t.txq vl }).modCwy (fun c => { c with
        holDrops := satAdd 32 c.holDrops 1 })
      .next (sendPort port (s.port port).txq.length s)
    else .next s

/-- CWY_RT_DATA written: the selected entry in the tables of the halves in service (R408). -/
def writeRoute (value : Nat) (s : State) : State :=
  let r : Route := { primary := field value 0 6, priValid := bit value 6, alt := field value 8 6, altValid := bit value 14 }
  s.modCwy (fun c => { c with routes := forEach ([0, 1].filter (fun h => !s.fenced h)) (fun h t =>
    put {} t (routeKey h c.rtVl c.rtDst) r) c.routes })

def execRouteEntryWrite (value : Nat) (s : State) : Res := .next (writeRoute value s)

end Sys2Proof.Machine
end

