-- ==== Sys2Proof/Machine/ProofCheck.lean ====
section
/-! DEFINITION. The proof check (02_kernels_commit.md R61, Table 2.7; the checks that the other chapters add are cited
where they stand). Each reason is a search for its first failure: template first, then word or declaration
(notes/assumptions/43.md). -/
namespace Sys2Proof.Machine

/-! ### Searches -/

/-- Index of the first element that fails. -/
def firstBad {α : Type} (bad : Nat → α → Bool) (l : List α) : Option Nat :=
  (List.range l.length).find? (fun i => match l[i]? with
    | some a => bad i a
    | none => false)

/-- First template with a failing word or item. -/
def firstTempl (img : Image) (f : Nat → Template → Option Nat) : Option (Nat × Nat) :=
  firstSome (fun k => match img.templates[k]? with
    | some t => (f k t).map (fun i => (k, i))
    | none => none) (List.range img.templates.length)

/-- A failing declaration: template index 0. -/
def decl (r : Option Nat) : Option (Nat × Nat) := r.map (fun i => (0, i))

def firstOf (l : List (Option (Nat × Nat))) : Option (Nat × Nat) := l.findSome? id

/-- Operations of a template's words. -/
def opsOf (t : Template) : List Op := t.words.map (fun w => (decodeOp w.toNat).getD .nop)

/-- Ranges (start, length) that share a byte. -/
def rangesMeet (a b : Nat × Nat) : Bool := decide (a.1 < b.1 + b.2) && decide (b.1 < a.1 + a.2)

def regionRange (r : Region) : Nat × Nat := (r.base, r.size)

/-- A range lies inside the regions given, met end to end; the fuel bounds their number. -/
def covered (rs : List (Nat × Nat)) : Nat → Nat → Nat → Bool
  | 0, _, n => n = 0
  | k + 1, a, n =>
    if n = 0 then true
    else match rs.find? (fun r => decide (r.1 ≤ a) && decide (a < r.1 + r.2)) with
      | none => false
      | some r => covered rs k (r.1 + r.2) (a + n - (r.1 + r.2))

/-- Regions of the uses of a role. -/
def useRanges (img : Image) (uses : List Use) (ok : Role → Bool) : List (Nat × Nat) :=
  (uses.filter (fun u => ok u.role)).map (fun u => regionRange (img.regions.getD u.region {}))

def inputRole : Role → Bool
  | .input => true
  | _ => false

/-- A range lies wholly within one region of a role (R68, R100, R204, R268). -/
def insideUses (img : Image) (uses : List Use) (ok : Role → Bool) (a n : Nat) : Bool :=
  n = 0 || (useRanges img uses ok).any (fun r => covered [r] 1 a n)

def outputRole : Role → Bool
  | .output => true
  | _ => false

/-! ### 0x01 STRUCTURE -/

/-- First word out of place (R39): KBEGIN first, COMMIT last and neither elsewhere, WAITs right after KBEGIN. -/
def structureBad (t : Template) : Option Nat :=
  let n := t.words.length
  if n = 0 then some 0
  else
    let code := t.words.map (fun w => opcodeOf w.toNat)
    firstBad (fun i c =>
      if i = 0 then c ≠ 0x01 || n = 1
      else if c = 0x01 then true
      else if decide (c = 0x02) != decide (i = n - 1) then true
      else c = 0x03 && code.getD (i - 1) 0 ≠ 0x03 && i ≠ 1) code

/-! ### 0x02 ENCODING -/

/-- A positive finite FP32 value. -/
def posFinite (b : BitVec 32) : Bool := decide (0 < b.toNat) && decide (b.toNat < 0x7F800000)

def drainAux (f : Nat) : Bool := drainBias f || drainSaved f

/-- A recipe set's reserved encodings (Table 3.8). -/
def setLegal (v : Nat) : Bool := v / 128 = 0 && setRun v ≠ 3

/-- The fields of an operation hold no reserved encoding (R67 and the tables of 03_instructions.md). -/
def opLegal : Op → Bool
  | .kbegin _ r _ pass => decide (r < 4096) && (pass || r = 0)
  | .signal v sync part queue _ =>
    (v ≥ 2 || part = 0) && (v = 4 || queue = 0) && (v ≠ 4 || sync = 0)
  | .recipe v a b _ => setLegal a && (v = 0 || setLegal b)
  | .prob o => decide (o.fn ≤ 0xC) && decide (o.dst ≤ 2) && (o.dst = 2 || o.acc = 0) &&
      decide ((o.aux ≠ 0) = (drainAux o.fn = true))
  | .attn o => posFinite o.scale && !(o.back && o.last)
  | .rowop o =>
    (!o.mask || o.variant = 1) && (!o.stats || o.variant = 1 || o.variant = 2) &&
    (if o.variant = 0 then decide (o.func ≤ 0x0D) else o.func = 0) &&
    (if o.variant = 2 then decide (o.eps.toNat < 0x7F800000) || o.eps = 0x80000000 else o.eps = 0) &&
    (match o.variant with
     | 1 => decide ((o.aux ≠ 0) = (o.mask = true))
     | 2 => true
     | 5 => o.aux ≠ 0
     | 6 => o.aux ≠ 0
     | _ => o.aux = 0) && decide ((o.st ≠ 0) = (o.stats = true))
  | .stripe o =>
    let pool := o.variant = 1 || o.variant = 2
    decide (o.fn ≤ 0xC) && (if pool then o.w = 0 && o.fn = 0 else o.pfh = 0 && o.pfw = 0) &&
    !(o.argmax && (o.zc || drainAux o.fn)) && decide ((o.aux ≠ 0) = ((drainAux o.fn || o.argmax) = true))
  | .peel o => (!o.narrow || o.variant = 2) && decide ((o.idx ≠ 0) = (o.variant = 2)) && decide (o.round ≤ 1) &&
      (o.variant = 3 || o.round = 0)
  | .atom o =>
    if o.variant = 0 then
      decide (o.op ≤ 0xA) && !(o.wide64 && o.op = 0xA) && o.addr % (if o.wide64 then 8 else 4) = 0 &&
      (o.remote || o.part = 0) && (o.op = 9 || o.compare = 0)
    else decide (o.op ≤ 0xA)
  | .coll o =>
    (o.variant = 3 || o.counts = 0) && (o.variant = 4 || o.root = 0) &&
    (if o.variant ≤ 1 then decide (o.redop ≤ 4) else o.redop = 0)
  | .place _ tier => decide (tier ≤ 2)
  | .sound v _ _ thr => v = 0 || posFinite thr
  | _ => true

/-- What the encoding rules ask of an instruction's descriptor images (R98, R257). -/
def opImageLegal (img : Image) : Op → Bool
  | .peel o => !o.narrow || (let t := declared img (o.src * 64); decide (t.e 0 * elemBits t.fmt ≤ 256))
  | .stripe o => ((descOf img (o.out * 64)).map (·.zc)).getD o.zc = o.zc
  | _ => true

/-- A descriptor image's reserved fields and its declarations (R70, R71, R204). -/
def descLegal (d : DescDecl) : Bool :=
  let b := d.bits.toNat
  let t := tensorOf b
  decide (1 ≤ t.rank) && decide (t.rank ≤ 5) && decide (t.fmt ≤ 0xC) && field b 74 6 = 0 && field b 490 22 = 0 &&
  (t.remote || t.part = 0) && (t.hasWide || t.wide = 0) && descReservedOk t &&
  (match d.spill with
   | none => true
   | some (off, limit) => isBlock t.fmt && off % 8 = 0 && posFinite limit)

/-- A QP of a standard and depth (Table 11.3). -/
def qpLegal (av1 deep : Bool) (v : Nat) : Bool :=
  if av1 then true
  else
    let q := toSigned v 8
    decide (q ≤ 51) && decide (q ≥ (if deep then -6 else 0))

/-- Levels up to 6.2 in a standard's own coding (notes/assumptions/44.md). -/
def levelLegal (av1 : Bool) (v : Nat) : Bool :=
  if av1 then [0, 1, 4, 5, 8, 9, 12, 13, 14, 15, 16, 17, 18].contains v
  else [30, 60, 63, 90, 93, 120, 123, 150, 153, 156, 180, 183, 186].contains v

/-- The bits of a job descriptor that Table 11.3 or Table 11.9 leaves unassigned are 0. -/
def jobReserved (variant : Nat) (b : Nat) : Bool :=
  (if variant = 2 then [(72, 56), (390, 58), (640, 384)]
   else [(15, 1), (108, 20), (176, 16), (224, 32), (304, 16), (368, 16), (432, 16), (496, 16), (544, 32), (630, 10),
         (688, 16), (752, 16), (816, 208)]).all (fun p => field b p.1 p.2 = 0)

/-- A job descriptor's fields are in range (R267, R289). -/
def jobLegal (variant : Nat) (b : Nat) : Bool :=
  let av1 := bit b 8
  let deep := bit b 9
  let w := field b 16 16
  let h := field b 32 16
  jobReserved variant b &&
  (match variant with
   | 2 => field b 0 8 = 6 && decide (w ≤ 4096) && decide (h ≤ 2304) && levelLegal (bit b 9) (field b 48 8) &&
      qpLegal (bit b 9) (bit b 10) (field b 64 8) && decide (16 ≤ field b 384 6) && decide (field b 384 6 ≤ 32)
   | 1 =>
     field b 0 8 = 1 && w % 8 = 0 && h % 8 = 0 && decide (64 ≤ w) && decide (w ≤ 8192) && decide (64 ≤ h) &&
     decide (h ≤ 4320) && levelLegal av1 (field b 48 8) && qpLegal av1 deep (field b 64 8) &&
     (if bit b 10 then decide (1 ≤ field b 12 3) && decide (field b 12 3 ≤ 4) else field b 12 3 = 0) &&
     (if bit b 11 then qpLegal av1 deep (field b 72 8) && qpLegal av1 deep (field b 80 8) else field b 192 32 = 0) && field b 512 32 = 0 && decide (16 ≤ field b 624 6) &&
     decide (field b 624 6 ≤ 32)
   | _ =>
     field b 0 8 = 1 && qpLegal av1 deep (field b 64 8) && w % 2 = 0 && h % 2 = 0 && decide (16 ≤ w) && decide (w ≤ 8192) && decide (16 ≤ h) &&
     decide (h ≤ 4320) && field b 10 5 = 0 && field b 624 6 = 0 && field b 192 32 = 0)

/-- Job descriptor at an address. -/
def jobOf (img : Image) (va : Nat) : Option Nat := (img.jobs.find? (fun j => j.va = va)).map (·.bits.toNat)

/-- A word holds no reserved encoding (R67). -/
def wordLegal (img : Image) (w : BitVec 256) : Bool :=
  match decodeOp w.toNat with
  | none => false
  | some op => reservedZero w.toNat && opLegal op && opImageLegal img op &&
      (match op with
       | .codec v job => match jobOf img (job * 64) with
         | some b => jobLegal v b
         | none => true
       | _ => true)

def encodingBad (img : Image) : Option (Nat × Nat) :=
  firstOf [decl (firstBad (fun _ d => !descLegal d) img.descs),
    decl (firstBad (fun _ (q : QueueDecl) => decide (q.vlClass > 4)) img.queues),
    firstTempl img (fun _ t => firstBad (fun _ w => !wordLegal img w) t.words)]

/-! ### 0x03 SIZE -/

def sizeBad (img : Image) : Option (Nat × Nat) :=
  firstOf [decl (firstBad (fun _ (q : QueueDecl) => decide (q.ringLog2 < 6) || decide (q.ringLog2 > 20)) img.queues),
    firstTempl img (fun _ t =>
      let ring := (img.queues.find? (fun q => q.queue = t.queue)).map (·.ringLog2)
      if decide (t.words.length > 65536) || (match ring with
        | some l => decide (t.words.length > 2 ^ l)
        | none => false) then some 0 else none)]

/-! ### 0x04 ALIAS, 0x05 OUTPUT_OVERLAP -/

/-- First use that meets an earlier use in the way given. -/
def usesMeet (img : Image) (t : Template) (bad : Role → Role → Bool) : Option Nat :=
  firstBad (fun i u => (t.uses.take i).any (fun v => bad u.role v.role &&
    rangesMeet (regionRange (img.regions.getD u.region {})) (regionRange (img.regions.getD v.region {})))) t.uses

/-- An output or scratch region meets an input region. -/
def aliasRoles : Role → Role → Bool
  | .input, .output => true
  | .input, .scratch => true
  | .output, .input => true
  | .scratch, .input => true
  | _, _ => false

def outputRoles : Role → Role → Bool
  | .output, .output => true
  | _, _ => false

/-! ### 0x06 UNORDERED: footprints (R76, R224, R232, R268, R349) -/

/-- How a footprint is used. -/
inductive Access where
  | read | write | exact
  deriving DecidableEq, Repr

/-- A piece of a footprint. -/
structure Foot where
  lo : Nat := 0
  len : Nat := 0
  acc : Access := .read
  deriving DecidableEq, Repr

/-- Bytes of a tensor at its declared extents: its rows, block exponents and spill records. -/
def tensorFoot (img : Image) (va : Nat) (acc : Access) : List Foot :=
  match descOf img va with
  | none => []
  | some d =>
    let t := tensorOf d.bits.toNat
    if t.count = 0 ∨ t.remote then []
    else
      let bits := elemBits t.fmt
      let row := fun e => { lo := (t.base * 8 + e * bits) / 8
                            len := cdiv (t.base * 8 + (e + t.e 0) * bits) 8 - (t.base * 8 + e * bits) / 8
                            acc := acc }
      t.rows.map row ++
        (if isBlock t.fmt then t.rows.map (fun e => { lo := t.scaleBase + e / 32, len := cdiv (t.e 0) 32, acc := acc })
         else []) ++
        (if d.zc then [{ lo := t.base, len := t.e 2 * (t.st 2 * bits / 8), acc := acc }] else []) ++
        (match d.spill with
         | some (off, _) => [{ lo := t.scaleBase + off, len := 512 * cdiv t.rowCount 32, acc := acc }]
         | none => [])

/-- Every access to an accumulator's window is a write of the whole window (R232). -/
def windowFoot (img : Image) (f : Foot) : Foot :=
  match img.accs.find? (fun a => rangesMeet (a.window, a.size) (f.lo, f.len)) with
  | some a => { lo := a.window, len := a.size, acc := .write }
  | none => f

/-- Bytes of a frame of a codec job, both planes (R271). -/
def jobFrame (b : Nat) : Nat :=
  let w := field b 16 16
  let h := field b 32 16
  roundUp (2 * w) 256 * h + roundUp w 256 * h

/-- The pool of a codec job, which counts as written whole (R268). -/
def poolFoot (variant b : Nat) : Foot :=
  let bs := roundUp (jobFrame b) (2 ^ 21) + 2 ^ 22
  if variant = 2 then ⟨field b 256 64, (field b 12 4 + 1) * bs, .write⟩
  else ⟨field b 256 48, (field b 104 4 + 1) * bs, .write⟩

/-- The other ranges of a codec job (Tables 11.4 and 11.9). -/
def jobRanges (variant b : Nat) : List Foot :=
  let n := field b 128 32
  if variant = 2 then
    [⟨field b 192 64, field b 160 32, .read⟩, ⟨field b 320 64, 2 ^ field b 384 6, .write⟩,
     ⟨field b 448 64, 8, .write⟩, ⟨field b 512 64, 8, .read⟩, ⟨field b 576 64, 32 * n, .write⟩]
  else
    let both : List Foot := [⟨field b 320 48, 4096, .read⟩, ⟨field b 384 48, 4096, .write⟩,
      ⟨field b 768 48, 32 * n, .write⟩]
    if variant = 0 then both ++ [⟨field b 448 48, field b 512 32, .read⟩]
    else both ++ [⟨field b 448 48, n * roundUp (jobFrame b) 4096, .read⟩,
      ⟨field b 576 48, 2 ^ field b 624 6, .write⟩, ⟨field b 640 48, 8, .write⟩, ⟨field b 704 48, 8, .read⟩]

/-- Footprint of a codec job: every range it names (R268). -/
def jobFoot (variant b : Nat) : List Foot := poolFoot variant b :: jobRanges variant b

/-- Regions that a PLACE's descriptor meets, whole (R349). -/
def placeFoot (img : Image) (va : Nat) : List Foot :=
  let fs := tensorFoot img va .write
  (img.regions.filter (fun r => fs.any (fun f => rangesMeet (regionRange r) (f.lo, f.len)))).map (fun r =>
    ⟨r.base, r.size, .write⟩)

/-- How an instruction uses its slots (the slots of opSlots). -/
def slotAccess (img : Image) (op : Op) : List Access :=
  match op with
  | .prob o =>
    [.read, .read, if o.dst = 1 ∧ (declared img (o.c * 64)).fmt = 6 then .exact else .write, .read]
  | .attn o => (List.range 11).map (fun k =>
      if o.back then (if k = 7 ∨ k = 8 ∨ k = 9 then .write else .read)
      else if k = 3 ∨ k = 4 then .write else .read)
  | .rowop _ => [.read, .write, .read, .write]
  | .stripe o =>
    [.read, .read, if outDest img (o.out * 64) = .reduce ∧ (declared img (o.out * 64)).fmt = 6 then .exact else .write,
     if o.argmax then .write else .read]
  | .peel _ => [.read, .write, .read]
  | .atom o => [.read, if o.op ≤ 2 then .exact else .write]
  | .coll _ => [.read, .write, .read]
  | _ => []

/-- Footprint of an instruction under a recipe set. -/
def opFoot (img : Image) (set : Nat) (op : Op) : List Foot :=
  match op with
  | .atom o =>
    if o.variant = 1 then
      (((declSlots img set op).map (·.va)).zip (slotAccess img op)).flatMap (fun p => tensorFoot img p.1 p.2)
    else if o.remote then []
    else [windowFoot img ⟨o.addr, if o.wide64 then 8 else 4, if o.op ≤ 7 then .exact else .write⟩]
  | .codec v job => match jobOf img (job * 64) with
    | some b => jobFoot v b
    | none => []
  | .place r _ => placeFoot img (r * 64)
  | _ =>
    ((((declSlots img set op).map (·.va)).zip (slotAccess img op)).flatMap (fun p => tensorFoot img p.1 p.2)).map
      (windowFoot img)

/-- Two pieces that need an order: they meet, one writes, and they are not two exact reductions. -/
def clash (a b : Foot) : Bool :=
  rangesMeet (a.lo, a.len) (b.lo, b.len) && !(a.acc = .read && b.acc = .read) && !(a.acc = .exact && b.acc = .exact)

/-- Sets that a word may capture: both of a RECIPE of variant 1 (R86). -/
def setsPossible : List Nat → List Op → List (List Nat)
  | _, [] => []
  | cur, .recipe v a b _ :: ws => cur :: setsPossible (if v = 0 then [a] else [a, b]) ws
  | cur, _ :: ws => cur :: setsPossible cur ws

/-- The same for a run that takes no wide set. -/
def setsNarrow : List Nat → List Op → List (List Nat)
  | _, [] => []
  | cur, .recipe _ a _ _ :: ws => cur :: setsNarrow [a] ws
  | cur, _ :: ws => cur :: setsNarrow cur ws

/-- Footprints of a template's words, with the number of FENCEs before each. -/
def templateFeet (img : Image) (t : Template) : List (Nat × List Foot) :=
  let ops := (opsOf t)
  let sets := setsPossible [8] ops
  (List.range ops.length).map (fun i =>
    (((ops.take i).filter (· = .fence)).length,
     ((sets.getD i []).flatMap (fun s => opFoot img s (ops.getD i .nop))).eraseDups))

/-- Uses of a kernel's narrow and wide footprints. -/
def allUses (t : Template) : List Use := t.uses ++ (match t.wide with
  | some w => w.uses
  | none => [])

/-- The bytes of a kernel that R76 guards: its scratch and output regions, pools, windows. -/
def guarded (img : Image) (t : Template) : List (Nat × Nat) :=
  useRanges img (allUses t) (fun r => !inputRole r) ++ img.accs.map (fun a => (a.window, a.size))

/-- Two words of one kernel need a FENCE between them (R76). -/
def unfenced (img : Image) (t : Template) : Option Nat :=
  let feet := templateFeet img t
  let g := guarded img t
  firstBad (fun i f => (feet.take i).any (fun e => e.1 = f.1 &&
    f.2.any (fun x => e.2.any (fun y => clash x y && g.any (fun r =>
      rangesMeet r (max x.lo y.lo, min (x.lo + x.len) (y.lo + y.len) - max x.lo y.lo)))))) feet

/-- What a word's pointers name, whether the instruction reads them or not. -/
def namedFeet (img : Image) (op : Op) : List Foot :=
  (opPointers op).flatMap (fun va => ⟨va, 64, .read⟩ :: tensorFoot img va .read)

/-- What a kernel touches: its regions by role, regions placed, windows. A region written only by exact reductions
counts as exact. A region that only FROZEN PROBs name is not touched (R224). -/
def kernelFeet (img : Image) (t : Template) : List Foot :=
  let feet := (templateFeet img t).flatMap (·.2)
  let frozen := ((opsOf t).filter opFrozen).flatMap (namedFeet img)
  let named := feet ++ ((opsOf t).filter (fun o => !opFrozen o)).flatMap (namedFeet img)
  let regions := (allUses t).filterMap (fun u =>
    let r := img.regions.getD u.region {}
    let meets := fun (f : Foot) => rangesMeet (regionRange r) (f.lo, f.len)
    let hits := feet.filter (fun f => f.acc ≠ .read && meets f)
    let a := if inputRole u.role then .read
      else if hits ≠ [] ∧ hits.all (·.acc = .exact) then .exact else .write
    if frozen.any meets && !named.any meets then none else some (⟨r.base, r.size, a⟩ : Foot))
  let placed := (opsOf t).flatMap (fun o => match o with
    | .place r _ => placeFoot img (r * 64)
    | _ => [])
  let windows := feet.filter (fun f => img.accs.any (fun a => a.window = f.lo && f.acc = .write))
  regions ++ placed ++ windows

/-- Local sync objects that a template signals, and waits on. -/
def signalled (own : Nat) (t : Template) : List Nat :=
  (opsOf t).filterMap (fun o => match o with
    | .signal v sync part _ _ => if v ≤ 1 ∨ (v ≤ 3 ∧ part = own) then some sync else none
    | _ => none)

def waited (t : Template) : List Nat :=
  (opsOf t).filterMap (fun o => match o with
    | .wait sync _ => some sync
    | _ => none)

/-- Two kernels are ordered: one queue, or a declared object that the earlier signals and the later waits on. -/
def ordered (own : Nat) (img : Image) (i j : Nat) : Bool :=
  let a := img.templates.getD i {}
  let b := img.templates.getD j {}
  a.queue = b.queue || img.orders.any (fun o =>
    ((o.earlier = i && o.later = j) || (o.earlier = j && o.later = i)) &&
      (signalled own (img.templates.getD o.earlier {})).contains o.sync &&
      (waited (img.templates.getD o.later {})).contains o.sync)

def unorderedBad (own : Nat) (img : Image) : Option (Nat × Nat) :=
  firstOf [firstTempl img (fun _ t => unfenced img t),
    firstTempl img (fun j t =>
      if (List.range j).any (fun i => !ordered own img i j &&
          (kernelFeet img (img.templates.getD i {})).any (fun x => (kernelFeet img t).any (clash x))) then some 0
      else none)]

/-! ### 0x08 TRAYS (R135, R138, R158, R185, R227, R251, R300, R372) -/

/-- Trays that one core can give a template: not pinned by another berth, nor pinned by this image without a role that
the template names. -/
def traysFree (s : State) (b : Nat) (img : Image) (t : Template) (c : Nat) : Nat :=
  ((List.range 16).filter (fun k =>
    !((s.tray c k).pinned && (s.tray c k).berth ≠ b) &&
    !(img.accs.any (fun a => a.tray = k && a.cores.contains c)) &&
    !(img.heldTrays.any (fun h => h.tray = k && h.cores.contains c && !t.heldTrays.any (fun x => x.1 = k))))).length

/-- Held trays that a template names on a core of the image's lists (R300). -/
def heldOn (img : Image) (t : Template) (c : Nat) : Nat :=
  (t.heldTrays.filter (fun h => img.heldTrays.any (fun d => d.tray = h.1 && d.cores.contains c))).length

/-- Role trays that one crew core can be required to hold (R135). -/
def roleTrays (img : Image) (t : Template) (cores : List Nat) : Nat :=
  1 + (if usesRows (opsOf t) then t.rowBufs else 0) + (if usesStripe (opsOf t) then t.lineBufs + 1 else 0) +
    (cores.map (heldOn img t)).foldl max 0

def usesMxe (ops : List Op) : Bool := ops.any (fun o => match o with
  | .prob _ => true
  | .attn _ => true
  | _ => false)

/-- Bounds of an instruction under a set. -/
def opBounds (img : Image) (set : Nat) (op : Op) : List Tensor := tensors (declSlots img set op)

/-- A declared bound of Dh or Dv of an ATTN is above 256: dimension 0 of every tensor but statistics and mask (R185). -/
def attnWide (o : AttnOps) (bs : List Tensor) : Bool :=
  (attnSlots o).any (fun k => k ≠ 4 && k ≠ 5 && (o.back || k ≠ 7) && decide ((nth bs k).e 0 > 256))

/-- A word's allotment or width fails (R138, R158, R185, R251). -/
def wordTrayBad (img : Image) (t : Template) (sets : List Nat) (op : Op) : Bool :=
  sets.any (fun s =>
    let bs := opBounds img s op
    !buffersFit t op bs || (match op with
      | .attn o => attnWide o bs
      | _ => false))

/-- Table entries up to and with word i, at the larger set of each word. -/
def entriesTo (img : Image) (t : Template) (i : Nat) : Nat :=
  let sets := setsPossible [8] (opsOf t)
  (List.range (i + 1)).foldl (fun n k =>
    n + ((sets.getD k []).map (fun s => tableEntries ((opsOf t).getD k .nop) (opBounds img s ((opsOf t).getD k .nop)))).foldl max 0) 0

/-- A template's trays fail, at a declared tray count. -/
def templTrayBad (s : State) (b : Nat) (img : Image) (t : Template) : Option Nat :=
  let cores := bitList (s.berth b).layout.cores 256
  let ops := (opsOf t)
  if decide (t.trays > 16) || decide (t.coresMin < 1) || decide (t.coresMin > t.coresMax) || decide (t.coresMax > 256) ||
      decide (t.coresMin > cores.length) ||
      decide ((cores.filter (fun c => decide (traysFree s b img t c ≥ t.trays))).length < t.coresMin) ||
      t.heldTrays.any (fun h => !img.heldTrays.any (fun x => x.tray = h.1)) ||
      (usesRows ops && t.rowBufs ≠ 1 && t.rowBufs ≠ 2) ||
      (usesStripe ops && (decide (t.lineBufs < 1) || decide (t.lineBufs > 8))) ||
      decide (roleTrays img t cores + (if usesMxe ops then 3 else 0) > t.trays ∧ (usesMxe ops ∨ usesRows ops ∨ usesStripe ops)) then
    some 0
  else
    let sets := setsPossible [8] ops
    firstBad (fun i op => wordTrayBad img t (sets.getD i []) op || decide (entriesTo img t i > 16384)) ops

/-- A tray of a core is pinned by another admitted image. -/
def alreadyPinned (s : State) (c k : Nat) : Bool := (s.tray c k).pinned

def accBad (s : State) (b : Nat) (img : Image) (i : Nat) (a : AccDecl) : Bool :=
  decide (a.tray > 13) || a.cores.length ≠ cdiv a.words 16384 ||
  a.cores.any (fun c => decide (c ≥ 256) || !bitOf (s.berth b).layout.cores c || alreadyPinned s c a.tray) ||
  (img.accs.take i).any (fun x => x.tray = a.tray)

def heldBad (s : State) (b : Nat) (img : Image) (i : Nat) (h : HeldTrayDecl) : Bool :=
  decide (h.tray > 13) ||
  h.cores.any (fun c => decide (c ≥ 256) || !bitOf (s.berth b).layout.cores c || alreadyPinned s c h.tray ||
    img.accs.any (fun a => a.tray = h.tray && a.cores.contains c) ||
    (img.heldTrays.take i).any (fun x => x.tray = h.tray && x.cores.contains c))

def traysBad (s : State) (b : Nat) (img : Image) : Option (Nat × Nat) :=
  firstOf [decl (firstBad (accBad s b img) img.accs), decl (firstBad (heldBad s b img) img.heldTrays),
    firstTempl img (fun _ t => templTrayBad s b img t)]

/-! ### 0x09 HARBOUR (R307) -/

/-- Resident charge of an image in a half. -/
def residentCharge (img : Image) (h : Nat) : Nat :=
  (img.regions.filter (fun r => r.tiers.contains .harbour && r.resident && r.home = h)).foldl
    (fun n r => n + cdiv r.size 16384) 0

def harbourShare (s : State) (b h : Nat) : Nat :=
  if h = 0 then (s.berth b).layout.harbour0 else (s.berth b).layout.harbour1

def harbourOver (s : State) (b : Nat) (img : Image) (s0 s1 : Nat) : Bool :=
  decide (residentCharge img 0 + cdiv s0 16384 > harbourShare s b 0) ||
  decide (residentCharge img 1 + cdiv s1 16384 > harbourShare s b 1)

/-! ### 0x0B REGION (R68, R204, R307, R345, R346, R100, R268, R400, R227) -/

def isHarbour (r : Region) : Bool := r.tiers.contains .harbour

/-- Pages that a region's range takes. -/
def regionPages (r : Region) : List Nat :=
  if r.size = 0 then []
  else
    let lo := r.base / 2 ^ 21
    (List.range ((r.base + r.size - 1) / 2 ^ 21 + 1 - lo)).map (· + lo)

/-- Quota index of a tier and scope (Table 19.13). -/
def quotaIndex (t : Tier) (scope : Nat) : Nat :=
  match t with
  | .crust => scope
  | .crumb => 3 + scope
  | _ => 6

/-- Pages of an image's regions whose tier set holds the tier of quota k, in its scope. -/
def quotaUse (img : Image) (k : Nat) : Nat :=
  (img.regions.filter (fun r => !isHarbour r && r.tiers.any (fun t => quotaIndex t r.scope = k))).foldl
    (fun n r => n + (regionPages r).length) 0

def regionBad (img : Image) (_i : Nat) (r : Region) : Bool :=
  decide (r.base + r.size > 2 ^ 48) || r.tiers = [] || r.tiers.contains .park ||
  (if isHarbour r then
    r.tiers ≠ [.harbour] || r.base % 16384 ≠ 0 || decide (r.home > 1) ||
    img.regions.any (fun x => !isHarbour x && rangesMeet (regionRange r) (regionRange x))
   else !r.tiers.contains r.initial || decide (r.scope > 2) || (r.tiers.contains .shelf && r.scope ≠ 0))

/-- Slots that a word may leave empty, or does not use (Tables 3.10 to 3.19). -/
def optionalSlots : Op → List Nat
  | .prob o => if o.aux = 0 then [3] else []
  | .attn o => (List.range 11).filter (fun k => !(attnSlots o).contains k)
  | .rowop o => (if o.aux = 0 then [2] else []) ++ (if o.st = 0 then [3] else [])
  | .stripe o => (if o.variant = 1 ∨ o.variant = 2 then [1] else []) ++ (if o.aux = 0 then [3] else [])
  | .peel o => if o.variant = 2 then [] else [2]
  | .coll o => if o.variant = 3 then [] else [2]
  | _ => []

/-- The descriptors that a word points to, with the wide alternates that replace some of them under a set. -/
def pointedTo (img : Image) (set : Nat) (op : Op) : List Nat :=
  (opPointers op ++ (declPointers img set op).map (·.va)).filter (· ≠ 0)

/-- The block of descriptors that a word points to: those of an ATTN are one block (R68, R93). -/
def pointerBlocks (img : Image) (set : Nat) (op : Op) : List (Nat × Nat) :=
  let one := (pointedTo img set op).map (fun va => (va, 64))
  match op with
  | .attn o => (o.base * 64, 64 * ((attnSlots o).foldl max 0 + 1)) :: one
  | _ => one

/-- A region in use in tier Shelf shares a byte with a range. -/
def usedOnShelf (img : Image) (uses : List Use) (a n : Nat) : Bool :=
  uses.any (fun u => u.tier = .shelf && rangesMeet (regionRange (img.regions.getD u.region {})) (a, n))

/-- The one use of a region in tier Shelf that R346 allows: the source of PEEL variant 0 or 3 with NARROW = 0. -/
def shelfSource (op : Op) (j : Nat) : Bool :=
  match op with
  | .peel o => (o.variant = 0 || o.variant = 3) && j = 0 && !o.narrow
  | _ => false

/-- A word's descriptors fail under a template's uses and a set (R68, R204, R307, R346). -/
def wordDescsBad (img : Image) (uses : List Use) (set : Nat) (op : Op) : Bool :=
  let vas := (declPointers img set op).map (·.va)
  let acc := slotAccess img op
  (pointedTo img set op).any (fun va => decide (va < 64) || (descOf img va).isNone) ||
  (pointerBlocks img set op).any (fun p => !insideUses img uses inputRole p.1 p.2 || usedOnShelf img uses p.1 p.2) ||
  (List.range vas.length).any (fun j =>
    let va := vas.getD j 0
    let feet := tensorFoot img va .read
    let meets := fun (r : Region) => feet.any (fun f => rangesMeet (regionRange r) (f.lo, f.len))
    if va = 0 then !(optionalSlots op).contains j
    else
      (!shelfSource op j && feet.any (fun f => usedOnShelf img uses f.lo f.len)) ||
      (match op with
       | .peel o => o.narrow && j = 0 && img.regions.any (fun r => isHarbour r && meets r)
       | .place _ t => img.regions.any (fun r => meets r && (isHarbour r || !r.tiers.contains (tierOf t)))
       | _ => false) ||
      (match (descOf img va).bind (·.spill), op with
       | _, .place .. => false
       | some (off, _), _ =>
         let t := declared img va
         !opFrozen op && !insideUses img uses (if acc.getD j .read = .read then inputRole else outputRole)
           (t.scaleBase + off) (512 * cdiv t.rowCount 32)
       | none, _ => false))

/-- A codec word's job and ranges fail under a template's uses (R68, R268, R346). -/
def jobRegionBad (img : Image) (uses : List Use) (variant job : Nat) : Bool :=
  match jobOf img (job * 64) with
  | none => true
  | some b =>
    let pool := poolFoot variant b
    !insideUses img uses inputRole (job * 64) 128 || usedOnShelf img uses (job * 64) 128 ||
    !(uses.any (fun u => u.role = .pool && (u.tier = .crust || u.tier = .crumb) &&
      covered [regionRange (img.regions.getD u.region {})] 1 pool.lo pool.len)) ||
    (jobRanges variant b).any (fun f => usedOnShelf img uses f.lo f.len ||
      !insideUses img uses (if f.acc = .read then inputRole else outputRole) f.lo f.len)

/-- A word's accesses fail under a template's uses. -/
def wordRegionBad (img : Image) (uses : List Use) (sets : List Nat) (op : Op) : Bool :=
  sets.any (fun s => wordDescsBad img uses s op) ||
  (match op with
   | .atom o => o.variant = 0 && !o.remote && !insideUses img uses writeRole o.addr (if o.wide64 then 8 else 4)
   | .codec v job => jobRegionBad img uses v job
   | _ => false)

/-- A template's regions fail, under its narrow or its wide footprint. -/
def templRegionBad (img : Image) (uses : List Use) (sets : List (List Nat)) (ops : List Op) : Option Nat :=
  match firstBad (fun _ (u : Use) =>
      let r := img.regions.getD u.region {}
      decide (u.region ≥ img.regions.length) || !r.tiers.contains u.tier ||
        (u.tier = .shelf && !inputRole u.role)) uses with
  | some i => some i
  | none => firstBad (fun i op => wordRegionBad img uses (sets.getD i []) op) ops

/-- An accumulator's window fails (R227). -/
def accWindowBad (img : Image) (a : AccDecl) : Bool :=
  a.window % 2 ^ 21 ≠ 0 || decide (a.size < 4 * a.words) || decide (a.window + a.size > 2 ^ 48) ||
  img.regions.any (fun r => rangesMeet (regionRange r) (a.window, a.size))

/-- An export entry fails (R400). -/
def exportBad (s : State) (b : Nat) (img : Image) (e : ExportEnt) : Bool :=
  let n := e.pages * 2 ^ 21
  e.base % 2 ^ 21 ≠ 0 || decide (e.base + n > 2 ^ 48) ||
  !covered (img.regions.map regionRange) (img.regions.length + 1) e.base n ||
  e.syncs.any (fun x => !img.syncs.any (·.sync = x)) || e.queues.any (fun x => !img.queues.any (·.queue = x)) ||
  s.berths.any (fun p => p.1 ≠ b && (match p.2.image with
    | none => false
    | some o => o.exports.any (fun x => rangesMeet (x.base, x.pages * 2 ^ 21) (e.base, n) &&
        decide (x.lo ≤ e.hi) && decide (e.lo ≤ x.hi) && (x.berth = e.berth || x.berth = 32 || e.berth = 32))))

/-- A quota is exceeded (R345). -/
def quotaBad (s : State) (b : Nat) (img : Image) : Option Nat :=
  (List.range 7).find? (fun k => decide (quotaUse img k > (s.berth b).layout.quotas.getD k 0))

def regionsBad (s : State) (b : Nat) (img : Image) : Option (Nat × Nat) :=
  firstOf [decl (firstBad (regionBad img) img.regions), decl (quotaBad s b img),
    decl (firstBad (fun _ a => accWindowBad img a) img.accs), decl (firstBad (fun _ e => exportBad s b img e) img.exports),
    firstTempl img (fun _ t => templRegionBad img t.uses (setsNarrow [8] (opsOf t)) (opsOf t))]

/-- The wide footprint of a template fails a test of reasons 0x08, 0x09 or 0x0B (R85). -/
def wideBad (s : State) (b : Nat) (img : Image) (t : Template) : Option Nat :=
  match t.wide with
  | none => none
  | some w =>
    match templTrayBad s b img { t with trays := w.trays } with
    | some i => some i
    | none =>
      if harbourOver s b img w.scratch0 w.scratch1 then some 0
      else templRegionBad img w.uses (setsPossible [8] (opsOf t)) (opsOf t)

/-! ### 0x0C SYNC_QUEUE (R80, R211, R451) -/

def vectorBad (l : Layout) (v : Nat) : Bool :=
  decide (v < 32) || decide (v > 2047) || decide (v < l.vbase) || decide (v ≥ l.vbase + l.vcount)

def queueIn (l : Layout) (q : Nat) : Bool := decide (l.qbase ≤ q) && decide (q < l.qbase + l.qcount)
def syncIn (l : Layout) (x : Nat) : Bool := decide (l.sbase ≤ x) && decide (x < l.sbase + l.scount)

/-- Slots that a template names. -/
def templSlots (t : Template) : List Nat := soundSlots (opsOf t)

def syncQueueBad (s : State) (b : Nat) (img : Image) : Option (Nat × Nat) :=
  let l := (s.berth b).layout
  let own := s.cwy.partId
  let has := fun x => img.syncs.any (fun (y : SyncDecl) => y.sync = x)
  firstOf [
    decl (firstBad (fun i (q : QueueDecl) => !queueIn l q.queue || (s.queue q.queue).state ≠ .disabled ||
      vectorBad l q.vector || (img.queues.take i).any (fun x => x.queue = q.queue)) img.queues),
    decl (firstBad (fun i (x : SyncDecl) => !syncIn l x.sync || (s.sync x.sync).allocated ||
      ((x.irqEn || x.vector ≠ 0) && vectorBad l x.vector) ||
      (img.syncs.take i).any (fun y => y.sync = x.sync)) img.syncs),
    decl (firstBad (fun _ (o : OrderDecl) => !has o.sync) img.orders),
    firstTempl img (fun k t =>
      if !img.queues.any (fun q => q.queue = t.queue) then some 0
      else firstBad (fun _ op => match op with
        | .wait x _ => !t.syncs.contains x || !has x
        | .signal v x part q _ =>
          (decide (v ≤ 1) && !has x) || (part = own && ((v = 2 || v = 3) && !has x || v = 4 && !queueIn l q))
        | .sound 1 _ slot _ =>
          (img.templates.take k).any (fun u => u.queue ≠ t.queue && (templSlots u).contains slot)
        | _ => false) (opsOf t))]

/-! ### 0x0D FORMAT (R73, R86, R89, R91, R92, R99, R109 to R111, R128, R155, R184, R186, R226, R229, R240, R245, R250,
R257, R259, Table 3.18) -/

def stridesOk (t : Tensor) : Bool :=
  let m := if isBlock t.fmt then 32 else if t.fmt = 4 then 2 else if t.fmt = 0xC then 8 else 1
  [1, 2, 3, 4].all (fun k => decide (k ≥ t.rank) || t.st k % m = 0)

/-- A declared zero-compressed map has the form of R257. -/
def zcForm (t : Tensor) : Bool :=
  let eb := elemBits t.fmt / 8
  let n := t.e 1 * t.e 0
  [0, 1, 2, 3].contains t.fmt && t.rank = 3 && !t.remote && t.st 1 = t.e 0 &&
    t.st 2 = (32 + cdiv n 256 * 32 + roundUp (n * eb) 32) / eb

/-- Slots whose descriptor may be a zero-compressed map (R259). -/
def zcAllowed (op : Op) (j : Nat) (zcs : List Bool) (ts : List Tensor) : Bool :=
  match op with
  | .stripe _ => j = 0 || j = 2
  | .peel o => o.variant = 0 && j < 2 && zcs.getD 0 false && zcs.getD 1 false && (nth ts 0).sameExt (nth ts 1)
  | _ => false

/-- A descriptor image's strides, or the form of its zero-compressed map, fail (R73, R257). -/
def descFormatBad (d : DescDecl) : Bool :=
  let t := tensorOf d.bits.toNat
  !stridesOk t || (d.zc && !zcForm t)

/-- Formats of C under Table 4.4 for operands of a format under a split. -/
def probC (f split : Nat) : List Nat :=
  match f with
  | 0 => if split = 1 ∨ split = 2 then [0, 1, 2] else []
  | 5 => if split = 3 then [6, 0] else []
  | _ =>
    if split ≠ 0 then []
    else if f = 1 ∨ f = 2 then [0, 1, 2]
    else if f = 3 ∨ f = 4 then [6, 0]
    else if isBlock f then [0, 1, 2, 8] else []

def probFormat (o : ProbOps) (set : Nat) (ts : List Tensor) : Bool :=
  let a := nth ts 0
  let b := nth ts 1
  let c := nth ts 2
  let x := nth ts 3
  a.rank = 2 && b.rank = 2 && c.rank = 2 && a.fmt = b.fmt && (probC a.fmt (setSplit set)).contains c.fmt &&
    (!isBlock a.fmt || (!o.transA && o.transB)) && (c.fmt ≠ 6 || (o.fn = 0 && o.dst ≠ 2)) &&
    (o.dst ≠ 1 || c.fmt = 0 || c.fmt = 6) && (o.dst ≠ 2 || c.fmt = 0) &&
    (!drainBias o.fn || (x.rank = 1 && isFloat x.fmt)) && (!drainSaved o.fn || (x.rank = 2 && isFloat x.fmt))

/-- Key and value formats (Table 7.2). -/
def kvFormat (q f : Nat) : Bool := f = q || f = 3 || f = 4 || (f = 0xB && q = 2)

def attnFormat (o : AttnOps) (ts : List Tensor) : Bool :=
  let f := fun k => (nth ts k).fmt
  let has := (attnSlots o).contains
  let fp32 := fun k => !has k || f k = 0
  (attnSlots o).all (fun k => (nth ts k).rank = 2) && (f 0 = 1 || f 0 = 2) && kvFormat (f 0) (f 1) && kvFormat (f 0) (f 2) &&
    (if o.back || o.last then isFloat (f 3) else f 3 = 0) && f 4 = 0 && (!has 5 || f 5 = 0xC) &&
    (if o.back then f 6 = f 0 else fp32 6) && fp32 7 && fp32 8 && fp32 9 && fp32 10

def rowFormat (o : RowOps) (ts : List Tensor) : Bool :=
  isFloat (nth ts 0).fmt && isFloat (nth ts 1).fmt &&
  (o.aux = 0 || (if o.variant = 1 then (nth ts 2).fmt = 0xC else isFloat (nth ts 2).fmt)) &&
  (o.variant ≠ 2 || o.aux = 0 || (nth ts 2).rank = 1) && (o.st = 0 || (nth ts 3).fmt = 0)

def stripeFormat (img : Image) (o : StripeOps) (ts : List Tensor) : Bool :=
  let x := nth ts 0
  let w := nth ts 1
  let y := nth ts 2
  let z := nth ts 3
  let dest := outDest img (o.out * 64)
  x.rank = 3 && y.rank = 3 &&
  (match o.variant with
   | 1 => [0, 1, 2, 3].contains x.fmt && y.fmt = x.fmt
   | 2 => isFloat x.fmt && isFloat y.fmt
   | _ => w.rank = 4 && w.fmt = x.fmt &&
      (if x.fmt = 1 ∨ x.fmt = 2 then isFloat y.fmt
       else x.fmt = 3 && ((y.fmt = 6 && o.fn = 0) || y.fmt = 0))) &&
  (!drainBias o.fn || (z.rank = 1 && isFloat z.fmt)) && (!drainSaved o.fn || (z.rank = y.rank && isFloat z.fmt)) &&
  (!o.argmax || (z.rank = 3 && z.fmt = 6)) &&
  (match dest with
   | .store => true
   | .reduce => !o.zc && !o.argmax && (y.fmt = 0 || y.fmt = 6)
   | .accum _ => !o.zc && !o.argmax && y.fmt = 0)

def peelFormat (o : PeelOps) (ts : List Tensor) : Bool :=
  let a := nth ts 0
  let b := nth ts 1
  let i := nth ts 2
  (match o.variant with
   | 0 => a.fmt = b.fmt
   | 1 => a.fmt = b.fmt
   | 2 => a.fmt = b.fmt && i.fmt = 6 && i.rank = 1 && a.rank = 2 && !i.remote
   | _ => a.fmt ≠ b.fmt && a.fmt ≠ 0xC && b.fmt ≠ 0xC) &&
  (if o.variant = 0 then !(a.remote && b.remote) else !a.remote && !b.remote)

/-- Format of an element-wise reduction (Table 3.18). -/
def atomFormat (o : AtomOps) (ts : List Tensor) : Bool :=
  o.variant = 0 || (match o.op with
    | 0xA => (nth ts 0).fmt = 0 && (nth ts 1).fmt = 0
    | n => decide (n ≤ 2) && (nth ts 0).fmt = 6 && (nth ts 1).fmt = 6)

/-- A word's formats fail under a set. -/
def wordFormatBad (img : Image) (set : Nat) (op : Op) : Bool :=
  let ds := declPointers img set op
  let ts := tensors ds
  let zcs := ds.map (isZc img)
  let live := (List.range ds.length).filter (fun j => (ds.getD j {}).va ≠ 0)
  live.any (fun j =>
    (zcs.getD j false && !zcAllowed op j zcs ts) || ((nth ts j).remote && (match op with
      | .peel _ => false
      | .coll _ => false
      | _ => true))) ||
  (match op with
   | .prob o => !probFormat o set ts
   | .attn o => !attnFormat o ts
   | .rowop o => !rowFormat o ts
   | .stripe o => !stripeFormat img o ts
   | .peel o => !peelFormat o ts
   | .atom o => !atomFormat o ts
   | _ => false)

def formatBad (img : Image) : Option (Nat × Nat) :=
  firstOf [decl (firstBad (fun _ d => descFormatBad d) img.descs),
    firstTempl img (fun _ t =>
      let sets := setsPossible [8] (opsOf t)
      firstBad (fun i op => (sets.getD i []).any (fun s => wordFormatBad img s op)) (opsOf t))]

/-! ### 0x0E COLLECTIVE (R63, R200, R409, R412, R413) -/

def isColl : Op → Bool
  | .coll _ => true
  | _ => false

/-- Position of the last COLL. -/
def lastColl (ops : List Op) : Option Nat :=
  ((List.range ops.length).filter (fun i => isColl (ops.getD i .nop))).getLast?

def collFormat (o : CollOps) (ts : List Tensor) : Bool :=
  let a := nth ts 0
  let b := nth ts 1
  let c := nth ts 2
  a.rank = 1 && b.rank = 1 && !a.remote && !b.remote && a.fmt = b.fmt &&
  (o.variant ≠ 3 || (c.rank = 1 && !c.remote && c.fmt = 6)) &&
  (decide (o.variant ≥ 2) || (match o.redop with
    | 1 => a.fmt = 6
    | 4 => a.fmt = 2
    | _ => a.fmt = 0))

def collWordBad (img : Image) (t : Template) (i : Nat) (op : Op) : Bool :=
  let after := match lastColl (opsOf t) with
    | some l => decide (i > l)
    | none => false
  match op with
  | .coll o => !t.collective || !img.groups.any (fun g => g.group = o.group) ||
      !collFormat o (tensors (declSlots img 8 op)) || (t.kvLayout = some 1 && o.variant = 5)
  | .signal .. => false
  | .fence => false
  | .nop => false
  | .commit => false
  | .codec .. => t.collective
  | .place .. => t.collective
  | _ => t.collective && after

def groupBad (s : State) (b : Nat) (i : Nat) (img : Image) (g : GroupDecl) : Bool :=
  let n := g.members.length
  s.berths.any (fun p => p.1 ≠ b && (match p.2.image with
    | none => false
    | some o => o.groups.any (fun x => x.group = g.group))) ||
  (img.groups.take i).any (fun x => x.group = g.group) || decide (n = 0) || decide (n > 65536) ||
  decide (g.rank ≥ n) || g.members.getD g.rank 65536 ≠ s.cwy.partId || decide (g.members.eraseDups.length ≠ n) ||
  decide (g.quorum < n / 2 + 1) || decide (g.quorum > n)

def collectiveBad (s : State) (b : Nat) (img : Image) : Option (Nat × Nat) :=
  firstOf [decl (firstBad (fun i g => groupBad s b i img g) img.groups),
    firstTempl img (fun _ t => firstBad (collWordBad img t) (opsOf t))]

/-! ### The check -/

/-- Reason code of Table 2.7, template index, word or declaration index (R61): the first check that fails, in the
table's order. -/
def proofCheck (s : State) (b : Nat) (img : Image) : Nat × Nat × Nat :=
  let l := (s.berth b).layout
  let checks : List (Nat × Option (Nat × Nat)) := [
    (0x01, firstTempl img (fun _ t => structureBad t)),
    (0x02, encodingBad img),
    (0x03, sizeBad img),
    (0x04, firstTempl img (fun _ t => usesMeet img t aliasRoles)),
    (0x05, firstTempl img (fun _ t => usesMeet img t outputRoles)),
    (0x06, unorderedBad s.cwy.partId img),
    (0x07, firstTempl img (fun _ t => if t.heldCount > 16384 then some 0 else none)),
    (0x08, traysBad s b img),
    (0x09, firstTempl img (fun _ t => if harbourOver s b img t.scratch0 t.scratch1 then some 0 else none)),
    (0x0A, firstTempl img (fun _ t => wideBad s b img t)),
    (0x0B, regionsBad s b img),
    (0x0C, syncQueueBad s b img),
    (0x0D, formatBad img),
    (0x0E, collectiveBad s b img),
    (0x0F, if decide (img.queues.length > l.qcount) || decide (img.syncs.length > l.scount) ||
        decide (img.templates.length > l.templates) then some (0, 0) else none)]
  match checks.find? (fun c => c.2.isSome) with
  | some (r, some (t, i)) => (r, t, i)
  | _ => (0, 0, 0)

end Sys2Proof.Machine
end

