-- ==== Sys2Proof/Machine/Longshore.lean ====
section
/-! DEFINITION. Longshore collectives (17_longshore.md R409 to R433): COLL, the greeting, the data of the variants,
completion and landing, poison, lost members and re-forming. -/
namespace Sys2Proof.Machine

/-! ### CRC-32 (IEEE 802.3) -/

def crcBits : Nat → Nat → Nat
  | 0, c => c
  | n + 1, c => crcBits n (if c % 2 = 1 then c / 2 ^^^ 0xEDB88320 else c / 2)

/-- CRC-32 of bytes: reflected polynomial 0xEDB88320, all ones before and complemented after. -/
def crc32 (bs : List Byte) : Nat := bs.foldl (fun c b => crcBits 8 (c ^^^ b.toNat)) 0xFFFFFFFF ^^^ 0xFFFFFFFF

/-! ### Shapes (Table 17.1) -/

/-- What a COLL moves at this member: variant, size and rank of the group, format, elements of SRC and DST, operation,
root, direction, counts sent and received by rank. -/
structure CollDim where
  variant : Nat := 0
  g : Nat := 1
  rank : Nat := 0
  fmt : Nat := 0
  n : Nat := 0
  d : Nat := 0
  redop : Nat := 0
  root : Nat := 0
  dir : Bool := false
  mine : List Nat := []
  theirs : List (Nat × Nat) := []
  deriving DecidableEq, Repr

def collOps : Op → CollOps
  | .coll o => o
  | _ => {}

def collDim (g : Group) (i : Inst) (c : CollSt) : CollDim :=
  let o := collOps i.op
  let ts := tensors i.descs
  { variant := o.variant, g := g.members.length, rank := g.rank, fmt := (nth ts 0).fmt, n := (nth ts 0).e 0
    d := (nth ts 1).e 0, redop := o.redop, root := o.root, dir := o.dir, mine := c.myCounts, theirs := c.counts }

/-- A format whose counts are multiples of 32 (R413). -/
def by32 (f : Nat) : Bool := isBlock f || decide (elemBits f < 8)

/-- Elements of a chunk of at most 4 KiB in a format, block exponents included (R413, R419). -/
def chunkElems (f : Nat) : Nat :=
  if isBlock f then 32 * (4096 / (4 * elemBits f + 1)) else 4096 * 8 / elemBits f

/-- Elements of a chunk on the way up: partial values travel in 4 B. -/
def upElems : Nat := 1024

/-- Elements of one segment of a reduction: all of them, or those of one rank. -/
def CollDim.seg (k : CollDim) : Nat := if k.variant = 1 then k.d else k.n
def CollDim.segs (k : CollDim) : Nat := if k.variant = 1 then k.g else 1
def CollDim.upC (k : CollDim) : Nat := cdiv k.seg upElems
def CollDim.downC (k : CollDim) : Nat := cdiv k.seg (chunkElems k.fmt)

/-- Rank k lies in the subtree of rank r; the fuel exceeds the depth. -/
def inSubtree (r : Nat) : Nat → Nat → Bool
  | 0, k => k = r
  | f + 1, k => if k ≤ r then k = r else inSubtree r f ((k - 1) / 2)

/-- Ranks of the relabelled tree of variant 4 (R414). -/
def CollDim.label (k : CollDim) (r : Nat) : Nat := (r + k.g - k.root) % k.g
def CollDim.unlabel (k : CollDim) (x : Nat) : Nat := (x + k.root) % k.g
def CollDim.castKids (k : CollDim) : List Nat := (treeKids k.g (k.label k.rank)).map k.unlabel

/-- Rank to which the ring passes, and from which it receives. -/
def CollDim.next (k : CollDim) : Nat :=
  if k.variant = 5 && k.dir then (k.rank + k.g - 1) % k.g else (k.rank + 1) % k.g
def CollDim.prev (k : CollDim) : Nat :=
  if k.variant = 5 && k.dir then (k.rank + 1) % k.g else (k.rank + k.g - 1) % k.g

/-- Elements that a rank sends to this member (variant 3). -/
def CollDim.from (k : CollDim) (r : Nat) : Nat :=
  if r = k.rank then k.mine.getD r 0 else ((k.theirs.find? (fun p => p.1 = r)).map (·.2)).getD 0

/-- First element of DST for a source rank (variant 3). -/
def CollDim.offset (k : CollDim) (r : Nat) : Nat := ((List.range r).map k.from).foldl (· + ·) 0

/-- The chunks that this member receives: rank and index. -/
def CollDim.expected (k : CollDim) : List (Nat × Nat) :=
  let all := fun r n => (List.range n).map (fun i => (r, i))
  let c := cdiv k.n (chunkElems k.fmt)
  match k.variant with
  | 0 => (treeKids k.g k.rank).flatMap (fun r => all r k.upC) ++ (treeParent k.rank).toList.flatMap (fun r => all r k.downC)
  | 1 => (treeKids k.g k.rank).flatMap (fun r => all r (k.segs * k.upC)) ++
      (treeParent k.rank).toList.flatMap (fun r =>
        ((List.range k.g).filter (inSubtree k.rank 40)).flatMap (fun sg =>
          (List.range k.downC).map (fun i => (r, sg * k.downC + i))))
  | 2 => if k.g = 1 then [] else ((List.range k.g).filter (· ≠ k.rank)).flatMap (fun sg =>
      (List.range c).map (fun i => (k.prev, sg * c + i)))
  | 3 => ((List.range k.g).filter (· ≠ k.rank)).flatMap (fun r => all r (cdiv (k.from r) (chunkElems k.fmt)))
  | 4 => if k.rank = k.root then []
      else (treeParent (k.label k.rank)).toList.flatMap (fun x => all (k.unlabel x) (cdiv k.d (chunkElems k.fmt)))
  | _ => if k.g = 1 then [] else all k.prev c

/-! ### Finding the instance of a packet -/

/-- The dispatched COLL of a berth with a group and sequence number. -/
def findColl (s : State) (b group seq : Nat) : Option (Nat × Nat) :=
  firstSome (fun q =>
    let r := s.run q
    if r.phase = .running ∨ r.phase = .draining then
      (r.insts.findIdx? (fun i => match i.coll with
        | some c => c.group = group && c.seq = seq
        | none => false)).map (fun j => (q, j))
    else none) (berthQueues s b)

def State.inst (s : State) (q j : Nat) : Inst := (s.run q).insts.getD j {}
def State.collSt (s : State) (q j : Nat) : CollSt := (s.inst q j).coll.getD {}
def State.modColl (s : State) (q j : Nat) (f : CollSt → CollSt) : State :=
  s.modInst q j (fun i => { i with coll := i.coll.map f })

/-- The group record of a COLL. -/
def State.collGroup (s : State) (q j : Nat) : Nat × Nat := (s.findGroup (s.collSt q j).group).getD (0, 0)
def State.dimOf (s : State) (q j : Nat) : CollDim :=
  let bi := s.collGroup q j
  collDim (s.group bi.1 bi.2) (s.inst q j) (s.collSt q j)

/-- A packet to a rank of a COLL's group. -/
def sendColl (q j target kind op turn : Nat) (f : Packet → Packet) (s : State) : State :=
  let bi := s.collGroup q j
  let g := s.group bi.1 bi.2
  sendRank (queueHalf q) g target turn (f (collPacket s bi.1 g kind op (s.collSt q j).seq)) s

/-- The half whose Tidewatch serves a group: that of the queue whose kernels use it. -/
def groupHalf (s : State) (b i : Nat) : Nat :=
  let n := (s.group b i).group
  (((s.imageOf b).templates.find? (fun t => (collGroups (opsOf t)).contains n)).map (fun t => queueHalf t.queue)).getD 0

/-! ### SRC and DST -/

/-- The FORMAT detail of the first reserved element among n in bytes, those at unreadable places apart (R108). -/
def chunkFormat (f n : Nat) (bs : List Byte) (bad : List Nat) : Option Nat :=
  let raw := leNat bs
  let bits := elemBits f
  if f = 10 || f = 11 then
    firstSome (fun e => if bad.contains e then none else
      match decElem f (field raw (e * bits) bits) with
      | .error d => some d
      | .ok _ => none) (List.range n)
  else none

/-- Elements of a tensor of rank 1 as bytes, block exponents last, and the elements that poison or an uncorrectable
unit takes (R426); other faults are the kernel's. -/
def State.readChunk (s : State) (c : Ctx) (t : Tensor) (e0 n : Nat) : Except Flt (List Byte × List Nat) :=
  let bits := elemBits t.fmt
  let get := fun a => match s.locate c readRole a with
    | .error f => Except.error f
    | .ok l => match s.unitFault c l with
      | some _ => .ok ((0 : Byte), true)
      | none => .ok (s.byteAt c l a, false)
  match mapE (fun k => get (t.base + e0 * bits / 8 + k)) (List.range (n * bits / 8)) with
  | .error f => .error f
  | .ok xs =>
    match mapE (fun k => get (t.scaleBase + e0 / 32 + k)) (List.range (if isBlock t.fmt then n / 32 else 0)) with
    | .error f => .error f
    | .ok es =>
      let badX := (List.range xs.length).flatMap (fun k =>
        if (xs.getD k (0, false)).2 then (List.range ((8 * k + 7) / bits + 1 - 8 * k / bits)).map (· + 8 * k / bits) else [])
      let badE := (List.range es.length).flatMap (fun k =>
        if (es.getD k (0, false)).2 then (List.range 32).map (· + 32 * k) else [])
      match chunkFormat t.fmt n (xs.map (·.1)) badX with
      | some d => .error (0x08, d)
      | none => .ok (xs.map (·.1) ++ es.map (·.1), (badX ++ badE).eraseDups)

/-- Elements of SRC read by the engine, with the state after its lookups in the Harbour. -/
def State.takeSrc (s : State) (q : Nat) (t : Tensor) (e0 n : Nat) : Except Flt (List Byte × List Nat × State) :=
  match s.readChunk (s.ctx q) t e0 n with
  | .error f => .error f
  | .ok (bs, bad) =>
    let bits := elemBits t.fmt
    let at_ := (List.range (n * bits / 8)).map (fun k => t.base + e0 * bits / 8 + k)
    let exps := (List.range (if isBlock t.fmt then n / 32 else 0)).map (fun k => t.scaleBase + e0 / 32 + k)
    .ok (bs, bad, s.touchAll (s.ctx q) (at_ ++ exps))

/-- A unit of DST becomes poisoned: its bytes are zero (R424). -/
def poisonUnit (c : Ctx) (va : Nat) (s : State) : State :=
  match s.locate c writeRole va with
  | .ok (.stack pa) =>
    let s := s.merged (pa / 32)
    { s with mem := wrBytes s.mem (pa / 32 * 32) (List.replicate 32 0), units := put .good s.units (pa / 32) .poison }
  | .ok (.mooring _ v) =>
    let k := moorKey c.berth v / 32 * 32
    { s with moor := wrBytes s.moor k (List.replicate 32 0), moorUnits := put .good s.moorUnits (k / 32) .poison }
  | _ => s

/-- DST lies in output regions (R101). -/
def outRole (r : Role) : Bool := r = .output

/-- Elements stored into DST from a chunk's bytes, its poisoned elements as poisoned units (R426). -/
def State.storeChunk (s : State) (q j e0 n : Nat) (bytes : List Byte) (bad : List Nat) : Except Flt State :=
  let c := s.ctx q
  let t := nth (tensors (s.inst q j).descs) 1
  let bits := elemBits t.fmt
  let a := t.base + e0 * bits / 8
  let len := n * bits / 8
  let st := Stores.bytes [] a (bytes.take len)
  let st := if isBlock t.fmt then st.bytes (t.scaleBase + e0 / 32) (bytes.drop len) else st
  match mapE (fun p => s.locate c outRole p.1) st with
  | .error f => .error f
  | .ok _ =>
  match s.store c st with
  | .error f => .error f
  | .ok s =>
    let s := s.touchAll c (st.map (·.1)) true
    if bad = [] then .ok s
    else
      let at_ := bad.flatMap (fun e => [t.base + (e0 + e) * bits / 8, t.base + ((e0 + e + 1) * bits - 1) / 8])
      let units := at_.map (fun v => max (v / 32 * 32) a)
      .ok ((forEach units.eraseDups (poisonUnit c) s).modColl q j (fun x => { x with poison := true }))

/-! ### Sending chunks (R419, R420) -/

/-- A chunk goes out, its bytes counted by the engine. -/
def sendChunk (q j : Nat) (x : Send) (s : State) : State :=
  let turn := (((s.collSt q j).sends.filter (fun y => y.target = x.target && y.sent))).length
  let s := match (s.inst q j).engine with
    | some e => s.modLshEng e (fun l => { l with bytes := wrapAdd 64 l.bytes x.data.length })
    | none => s
  sendColl q j x.target 0x04 0 turn (fun p => { p with
    chunk := x.chunk, data := x.data, length := x.data.length, poison := x.poison }) s

def addSend (q j target chunk : Nat) (data : List Byte) (src : Option (Nat × Nat)) (poison : Bool) (s : State) : State :=
  s.modColl q j (fun c => { c with sends := c.sends ++ [{ target := target, chunk := chunk, data := data, src := src, poison := poison }] })

/-- Change one chunk of the list. -/
def modSend (q j target chunk : Nat) (f : Send → Send) (s : State) : State :=
  s.modColl q j (fun c => { c with sends := c.sends.map (fun x => if x.target = target ∧ x.chunk = chunk then f x else x) })

/-- No chunk goes out before GO (R416) or without an engine. -/
def flushSends (q j : Nat) (s : State) : State :=
  if (s.collSt q j).go && (s.inst q j).engine.isSome then
    forEach ((s.collSt q j).sends.filter (fun x => !x.sent)) (fun x t =>
      modSend q j x.target x.chunk (fun y => { y with sent := true }) (sendChunk q j x t)) s
  else s

/-! ### Reductions (R414) -/

/-- One step of a reduction on 4 B words. -/
def reduceWord (redop a b : Nat) : Nat :=
  match redop with
  | 1 => (a + b) % 2 ^ 32
  | 2 => encFp fp32 (fmaxTree (decFp fp32 a) (decFp fp32 b))
  | 3 => encFp fp32 (fminTree (decFp fp32 a) (decFp fp32 b))
  | _ => encFp fp32 (faddHbr (decFp fp32 a) (decFp fp32 b))

/-- 4 B words of bytes. -/
def wordsOf (bs : List Byte) : List Nat := (chunksOf 4 bs.length bs).map leNat

/-- Own elements widened to 4 B words. -/
def widenWords (redop : Nat) (bs : List Byte) : List Nat :=
  if redop = 4 then (chunksOf 2 bs.length bs).map (fun w => leNat w * 2 ^ 16) else wordsOf bs

/-- Results in the format of DST. -/
def narrowWords (redop : Nat) (ws : List Nat) : List Byte :=
  if redop = 4 then ws.flatMap (fun w => leBytes 2 (match convScalar 2 false (decFp fp32 w) with
    | .ok r => r
    | .error _ => 0))
  else ws.flatMap (leBytes 4)

/-- Own value and the children's, in the order of tree(r). -/
def reduceParts (redop : Nat) (own : List Nat) (kids : List Part) : List Nat :=
  kids.foldl (fun ws p => ((ws.zip (wordsOf p.data)).map (fun x => reduceWord redop x.1 x.2))) own

/-- A result on its way down: stored where it belongs, passed to the children that need it. -/
def downItem (q j sg i : Nat) (data : List Byte) (bad : List Nat) (s : State) : Except Flt State :=
  let k := s.dimOf q j
  let per := chunkElems k.fmt
  let here := k.variant = 0 || sg = k.rank
  let n := min per (k.seg - per * i)
  match (if here then s.storeChunk q j (per * i) n data bad else .ok s) with
  | .error f => .error f
  | .ok s =>
    let kids := (treeKids k.g k.rank).filter (fun c => k.variant = 0 || inSubtree c 40 sg)
    .ok (forEach kids (fun c t => addSend q j c (sg * k.downC + i) data none (!bad.isEmpty) t) s)

/-- A chunk on its way up, once the children's are held: reduced, sent to the parent, or a result at rank 0. -/
def tryUp (q j c : Nat) (s : State) : Except Flt State :=
  let k := s.dimOf q j
  let st := s.collSt q j
  let kids := treeKids k.g k.rank
  let held := kids.filterMap (fun r => st.parts.find? (fun p => p.rank = r && p.chunk = c))
  if !st.began ∨ held.length ≠ kids.length then .ok s
  else
    let sg := c / k.upC
    let i := c % k.upC
    let n := min upElems (k.seg - upElems * i)
    let e0 := sg * k.d + upElems * i
    let t := nth (tensors (s.inst q j).descs) 0
    match s.takeSrc q t e0 n with
    | .error f => .error f
    | .ok (bs, bad0, s) =>
      let ws := reduceParts k.redop (widenWords k.redop bs) held
      let bad := (bad0 ++ held.flatMap (·.bad)).eraseDups
      let s := s.modColl q j (fun x => { x with parts := x.parts.filter (fun p => !held.contains p) })
      match treeParent k.rank with
      | some up => .ok (addSend q j up c (ws.flatMap (leBytes 4)) none (!bad.isEmpty) s)
      | none =>
        let res : Part := { rank := k.rank, chunk := c, data := narrowWords k.redop ws, bad := bad }
        let s := s.modColl q j (fun x => { x with parts := x.parts ++ [res] })
        let ratio := chunkElems k.fmt / upElems
        let di := i / ratio
        let need := ((List.range ratio).map (· + ratio * di)).filter (· < k.upC)
        let have_ := need.filterMap (fun u => (s.collSt q j).parts.find? (fun p =>
          p.rank = k.rank && p.chunk = sg * k.upC + u))
        if have_.length ≠ need.length then .ok s
        else
          let s := s.modColl q j (fun x => { x with parts := x.parts.filter (fun p => !have_.contains p) })
          let bads := (List.range have_.length).flatMap (fun u => ((have_.getD u {}).bad).map (· + upElems * u))
          downItem q j sg di (have_.flatMap (·.data)) bads s

/-! ### Completion and landing (R421, R427) -/

/-- Kernels that carry a sequence number of a group: those that have dispatched that COLL, else every killable kernel
whose COLLs include it (R422). -/
def carriers (s : State) (b i seq : Nat) : List Nat :=
  let g := s.group b i
  let qs := (berthQueues s b).filter (fun q => killable (s.run q))
  let hot := qs.filter (fun q => (s.run q).insts.any (fun x => match x.coll with
    | some c => c.group = g.group && c.seq = seq
    | none => false))
  if hot ≠ [] then hot
  else qs.filter (fun q => decide (ahead 32 seq g.seq < collCountOf (s.run q).words g.group))

/-- Word at which a collective's end shows: its COLL, or the last dispatched word. -/
def collWord (r : Run) (group seq : Nat) : Nat :=
  match r.insts.find? (fun x => match x.coll with
    | some c => c.group = group && c.seq = seq
    | none => false) with
  | some x => x.word
  | none => lastWord r

/-- DST of a kernel holds poison of a COLL. -/
def hasPoison (r : Run) (group seq : Nat) : Bool :=
  r.insts.any (fun x => match x.coll with
    | some c => c.group = group && c.seq = seq && c.poison
    | none => false)

/-- An abort ends this member's kernel (R416, R427, R65): reason 1 mismatch, 2 kill, 3 member lost, 4 poison. -/
def abortHere (b i reason detail seq : Nat) (s : State) : State :=
  let g := s.group b i
  let qs := carriers s b i seq
  let s := s.modGroup b i (fun x => { x with held := x.held.filter (fun p => p.epoch ≠ x.epoch) })
  if qs = [] then s
  else
    let s := s.modGroup b i (fun x => { x with
      aborts := satAdd 16 x.aborts 1
      mismatches := if reason = 1 then satAdd 16 x.mismatches 1 else x.mismatches
      poisoned := if reason = 4 then satAdd 16 x.poisoned 1 else x.poisoned })
    forEach qs (fun q t =>
      let r := t.run q
      let w := collWord r g.group seq
      match reason with
      | 1 => faultRun q 6 detail w (some g.group) t
      | 3 => faultRun q 7 1 w (some g.group) t
      | 4 => if hasPoison r g.group seq then faultRun q 4 2 w (some g.group) t
        else faultRun q 5 6 (lastWord r) (some g.group) t
      | _ => faultRun q 5 6 (lastWord r) (some g.group) t) s

/-- An abort that starts here, or passes: sent on, then applied. -/
def spreadAbort (b i reason detail seq : Nat) (but : Option Nat) (s : State) : State :=
  abortHere b i reason detail seq (sendAbort (groupHalf s b i) b i reason detail seq but s)

/-- LAND is held for a COLL: passed down; the kernel lands with its last COLL. -/
def landHere (q j : Nat) (s : State) : State :=
  let k := s.dimOf q j
  let c := s.collSt q j
  let bi := s.collGroup q j
  let s := forEach (treeKids k.g k.rank) (fun r t => sendColl q j r 0x08 0 0 id t) s
  let s := s.modColl q j (fun x => { x with landed := true })
  let s := s.modGroup bi.1 bi.2 (fun g => { g with landedSeen := (c.seq :: g.landedSeen).take 64 })
  let r := s.run q
  if lastColl r.words = some (wordPos r j) then s.modRun q (fun x => { x with landed := true }) else s

/-- DONE goes up once this member's COLL has completed and its children's DONEs are held; rank 0 decides. -/
def tryDone (q j : Nat) (s : State) : State :=
  let k := s.dimOf q j
  let c := s.collSt q j
  let kids := treeKids k.g k.rank
  if !(s.inst q j).done || c.doneSent || !kids.all (fun r => c.doneKids.any (fun x => x.1 = r)) then s
  else
    let bad := c.poison || c.doneKids.any (·.2)
    let s := s.modColl q j (fun x => { x with doneSent := true })
    match treeParent k.rank with
    | some up => sendColl q j up 0x07 0 0 (fun p => { p with operand := boolNat bad }) s
    | none =>
      let bi := s.collGroup q j
      if bad then spreadAbort bi.1 bi.2 4 0 c.seq none s else landHere q j s

/-- The COLL completes when every chunk it receives and sends has been acknowledged; its engine is free. -/
def finishColl (q j : Nat) (s : State) : State :=
  let i := s.inst q j
  let c := s.collSt q j
  if i.done || !c.began || !c.sends.all (·.acked) || !(s.dimOf q j).expected.all (fun x => c.recvd.contains x) then s
  else
    let s := idleUnit i s
    tryDone q j (s.modInst q j (fun x => { x with done := true, engine := none }))

/-- What a member does after a change of a COLL's data; a fault ends its run at the COLL. -/
def settleColl (q j : Nat) (r : Except Flt State) (s : State) : State :=
  match r with
  | .error f => runFault q (s.inst q j).word f s
  | .ok t => finishColl q j (flushSends q j t)

/-! ### Moving data -/

/-- A segment of SRC is sent to ranks in chunks whose indices start at c0. -/
def sendSegment (q j : Nat) (targets : List Nat) (e0 n c0 : Nat) (s : State) : Except Flt State :=
  let t := nth (tensors (s.inst q j).descs) 0
  let per := chunkElems t.fmt
  foldE (fun s i =>
    let m := min per (n - per * i)
    match s.takeSrc q t (e0 + per * i) m with
    | .error f => .error f
    | .ok (bs, bad, s) =>
      .ok (forEach targets (fun r u => addSend q j r (c0 + i) bs (some (e0 + per * i, m)) (!bad.isEmpty) u) s))
    s (List.range (if targets = [] then 0 else cdiv n per))

/-- Own elements go from SRC to DST. -/
def keepSegment (q j e0 d0 n : Nat) (s : State) : Except Flt State :=
  let t := nth (tensors (s.inst q j).descs) 0
  let per := chunkElems t.fmt
  foldE (fun s i =>
    let m := min per (n - per * i)
    match s.takeSrc q t (e0 + per * i) m with
    | .error f => .error f
    | .ok (bs, bad, s) => s.storeChunk q j (d0 + per * i) m bs bad) s (List.range (cdiv n per))

/-- The member's own part of the data phase. -/
def ownData (q j : Nat) (s : State) : Except Flt State :=
  let k := s.dimOf q j
  let c := cdiv k.n (chunkElems k.fmt)
  match k.variant with
  | 0 => foldE (fun s c => tryUp q j c s) s (List.range k.upC)
  | 1 => foldE (fun s c => tryUp q j c s) s (List.range (k.segs * k.upC))
  | 2 => match keepSegment q j 0 (k.rank * k.n) k.n s with
    | .error f => .error f
    | .ok s => sendSegment q j (if k.g = 1 then [] else [k.next]) 0 k.n (k.rank * c) s
  | 3 => foldE (fun s r =>
      let n := k.mine.getD r 0
      let e0 := ((k.mine.take r)).foldl (· + ·) 0
      if r = k.rank then keepSegment q j e0 (k.offset r) n s else sendSegment q j [r] e0 n 0 s) s (List.range k.g)
  | 4 => if k.rank = k.root then
      match keepSegment q j 0 0 k.n s with
      | .error f => .error f
      | .ok s => sendSegment q j k.castKids 0 k.n 0 s
    else .ok s
  | _ => if k.g = 1 then keepSegment q j 0 0 k.n s else sendSegment q j [k.next] 0 k.n 0 s

/-- The data phase begins when the member holds GO and an engine. -/
def beginData (q j : Nat) (s : State) : State :=
  let c := s.collSt q j
  if c.go && !c.began && (s.inst q j).engine.isSome then
    let s := s.modColl q j (fun x => { x with began := true })
    settleColl q j (ownData q j s) s
  else s

/-- Where a chunk of variants 2 to 5 lies in DST: its first element and its elements (R414, R419). -/
def CollDim.chunkAt (k : CollDim) (rank chunk : Nat) : Nat × Nat :=
  let per := chunkElems k.fmt
  let c := cdiv k.n per
  let (base, total, i) :=
    if k.variant = 2 then (chunk / c * k.n, k.n, chunk % c)
    else if k.variant = 3 then (k.offset rank, k.from rank, chunk)
    else if k.variant = 4 then (0, k.d, chunk)
    else (0, k.n, chunk)
  (base + per * i, min per (total - per * i))

/-- Ranks to which a chunk of variants 2 to 5 goes on (R414). -/
def CollDim.onward (k : CollDim) (chunk : Nat) : List Nat :=
  if k.variant = 2 then (if k.next = chunk / cdiv k.n (chunkElems k.fmt) then [] else [k.next])
  else if k.variant = 4 then k.castKids
  else []

/-- A chunk that has been accepted: reduced, stored, passed on. -/
def takeChunk (q j rank chunk : Nat) (data : List Byte) (poison : Bool) (s : State) : Except Flt State :=
  let k := s.dimOf q j
  let all := fun n => if poison then List.range n else []
  if k.variant ≤ 1 then
    if some rank = treeParent k.rank then
      let per := chunkElems k.fmt
      let n := min per (k.seg - per * (chunk % k.downC))
      downItem q j (chunk / k.downC) (chunk % k.downC) data (all n) s
    else
      let n := min upElems (k.seg - upElems * (chunk % k.upC))
      let p : Part := { rank := rank, chunk := chunk, data := data, bad := all n }
      tryUp q j chunk (s.modColl q j (fun x => { x with parts := x.parts ++ [p] }))
  else
    let at_ := k.chunkAt rank chunk
    match s.storeChunk q j at_.1 at_.2 data (all at_.2) with
    | .error f => .error f
    | .ok s => .ok (forEach (k.onward chunk) (fun r t => addSend q j r chunk data none poison t) s)

/-! ### The greeting (R416) -/

/-- The first difference of Table 17.2, or 0. -/
def greetDiff (a b : Greeting) : Nat :=
  if a.variant ≠ b.variant ∨ (a.variant ≤ 1 ∧ a.redop ≠ b.redop) ∨ (a.variant = 4 ∧ a.root ≠ b.root)
      ∨ (a.variant = 5 ∧ a.dir ≠ b.dir) then 1
  else if a.format ≠ b.format then 2
  else if ((a.variant = 0 ∨ a.variant = 2 ∨ a.variant = 5) ∧ a.n ≠ b.n) ∨ ((a.variant = 1 ∨ a.variant = 4) ∧ a.d ≠ b.d) then 3
  else if a.seq ≠ b.seq then 4
  else if a.crc ≠ b.crc then 5
  else 0

/-- A member's own greeting. -/
def ownGreeting (k : CollDim) (seq : Nat) (members : List Nat) : Greeting :=
  { variant := k.variant, redop := k.redop, root := k.root, dir := k.dir, format := k.fmt, n := k.n, d := k.d, seq := seq
    crc := crc32 (members.flatMap (leBytes 2)) }

/-- GO at a member: passed down, data may move. -/
def takeGo (q j : Nat) (s : State) : State :=
  let k := s.dimOf q j
  let s := s.modColl q j (fun x => { x with go := true })
  beginData q j (forEach (treeKids k.g k.rank) (fun r t => sendColl q j r 0x02 0 0 id t) s)

/-- The member greets once it holds its children's greetings, and the counts of variant 3; rank 0 decides. -/
def tryGreet (q j : Nat) (s : State) : State :=
  let k := s.dimOf q j
  let c := s.collSt q j
  let kids := treeKids k.g k.rank
  let counted := k.variant ≠ 3 ||
    ((List.range k.g).filter (· ≠ k.rank)).all (fun r => c.counts.any (fun x => x.1 = r))
  if c.greeted || !counted || !kids.all (fun r => c.kids.any (fun x => x.1 = r)) then s
  else
    let bi := s.collGroup q j
    let own := ownGreeting k c.seq (s.group bi.1 bi.2).members
    let sums := if k.variant = 3 ∧ k.offset k.g ≠ k.d then 3 else 0
    let found := c.mismatch :: sums :: kids.flatMap (fun r => match c.kids.find? (fun x => x.1 = r) with
      | some x => [x.2.2, greetDiff own x.2.1]
      | none => [])
    let diff := (found.find? (· ≠ 0)).getD 0
    let s := s.modColl q j (fun x => { x with greeted := true, mismatch := diff })
    match treeParent k.rank with
    | some up => sendColl q j up 0x01 0 0 (fun p => { p with greeting := own, operand := diff }) s
    | none => if diff = 0 then takeGo q j s else spreadAbort bi.1 bi.2 1 diff c.seq none s

/-- A packet is held until its COLL dispatches, in place of an earlier one of its kind, rank and number. -/
def holdPacket (b i : Nat) (p : Packet) (s : State) : State :=
  s.modGroup b i (fun g => { g with held := g.held.filter (fun x =>
    !(x.kind = p.kind && x.rank = p.rank && x.seq = p.seq && x.epoch = p.epoch)) ++ [p] })

/-- A child's greeting enters a COLL; a child that greets again after GO gets GO again. -/
def enterGreeting (q j : Nat) (p : Packet) (s : State) : State :=
  if (s.collSt q j).go then sendColl q j p.rank 0x02 0 0 id s
  else tryGreet q j (s.modColl q j (fun x => { x with
    kids := x.kids.filter (fun y => y.1 ≠ p.rank) ++ [(p.rank, p.greeting, p.operand)] }))

/-- A COLL of the group that lacks a rank's greeting. -/
def lacksGreeting (s : State) (b group rank : Nat) : Option (Nat × Nat) :=
  firstSome (fun q =>
    let r := s.run q
    if r.phase = .running ∨ r.phase = .draining then
      (r.insts.findIdx? (fun i => match i.coll with
        | some c => c.group = group && !c.greeted && !c.kids.any (fun x => x.1 = rank)
        | none => false)).map (fun j => (q, j))
    else none) (berthQueues s b)

def takeGreeting (p : Packet) (b i : Nat) (s : State) : State :=
  let g := s.group b i
  if !(treeKids g.members.length g.rank).contains p.rank then s
  else match findColl s b g.group p.seq with
    | some (q, j) => enterGreeting q j p s
    | none => match lacksGreeting s b g.group p.rank with
      | some (q, j) => enterGreeting q j p s
      | none => holdPacket b i p s

def enterCount (q j : Nat) (p : Packet) (s : State) : State :=
  tryGreet q j (s.modColl q j (fun x => { x with
    counts := x.counts.filter (fun y => y.1 ≠ p.rank) ++ [(p.rank, p.operand)] }))

def takeCount (p : Packet) (b i : Nat) (s : State) : State :=
  match findColl s b (s.group b i).group p.seq with
  | some (q, j) => if (s.collSt q j).greeted then s else enterCount q j p s
  | none => holdPacket b i p s

/-! ### COLL (R101, R411, R412, R418) -/

/-- The Longshore engine that a queue's COLL takes: idle, of its own half first, the lowest index. -/
def idleEngineFor (s : State) (q : Nat) : Option Nat :=
  let h := queueHalf q
  ((List.range 4).map (· + 4 * h) ++ (List.range 4).map (· + 4 * (1 - h))).find? (fun e =>
    !(s.lshEng e).busy && !s.fenced (e / 4))

/-- An engine serves a COLL. -/
def giveEngine (q j e : Nat) (s : State) : State :=
  let o := collOps (s.inst q j).op
  let s := s.modLshEng e (fun l => { l with busy := true, variant := o.variant, queue := q, group := o.group })
  beginData q j (s.modInst q j (fun i => { i with engine := some e }))

/-- What a COLL's counts break (Table 17.1): 0 nothing, 1 a requirement of this member, 2 one that depends on the size
of a re-formed group (R431). -/
def collBreak (k : CollDim) (reforms countsLen : Nat) : Nat :=
  let sum := k.mine.foldl (· + ·) 0
  let own : Bool := match k.variant with
    | 0 => decide (k.n = k.d)
    | 3 => decide (k.n = sum)
    | 4 => decide (k.root < k.g) && (decide (k.rank ≠ k.root) || decide (k.n = k.d))
    | 5 => decide (k.n = k.d)
    | _ => true
  let sized : Bool := match k.variant with
    | 1 => decide (k.n = k.g * k.d)
    | 2 => decide (k.d = k.g * k.n)
    | 3 => decide (countsLen = k.g)
    | _ => true
  let whole := !by32 k.fmt || ((decide (k.n % 32 = 0) || (k.variant = 4 && decide (k.rank ≠ k.root))) &&
    decide (k.d % 32 = 0) && k.mine.all (fun c => decide (c % 32 = 0)))
  if !own || !whole then 1 else if sized then 0 else if reforms = 0 then 1 else 2

/-- The counts that a member sends; a negative count breaks its requirement. -/
def readCounts (s : State) (c : Ctx) (t : Tensor) : Except Flt (List Nat) :=
  mapE (fun e => match s.rawElem c t e with
    | .error f => .error f
    | .ok raw => if toSigned raw 32 < 0 then .error (0x0F, 4) else .ok raw) (List.range (t.e 0))

/-- The held greetings and counts that a dispatching COLL takes. -/
def takeHeld (q j b i : Nat) (s : State) : State :=
  let g := s.group b i
  let c := s.collSt q j
  let same := fun (p : Packet) => p.epoch = g.epoch && (p.kind = 9 || p.kind = 1)
  let kids := treeKids g.members.length g.rank
  let pick := kids.filterMap (fun r =>
    match g.held.find? (fun p => same p && p.kind = 1 && p.rank = r && p.seq = c.seq) with
    | some p => some p
    | none => g.held.find? (fun p => same p && p.kind = 1 && p.rank = r))
  let cnts := g.held.filter (fun p => same p && p.kind = 9 && p.seq = c.seq)
  let s := if pick ++ cnts = [] then s
    else s.modGroup b i (fun x => { x with held := x.held.filter (fun p => !(pick ++ cnts).contains p) })
  s.modColl q j (fun x => { x with
    kids := pick.map (fun p => (p.rank, p.greeting, p.operand)), counts := cnts.map (fun p => (p.rank, p.operand)) })

/-- A COLL dispatches: its counts, its engine or its place in the queue, its count packets, its greeting. -/
def startColl (q b i : Nat) (o : CollOps) (ds : List Desc) (mine : List Nat) (mismatch : Nat) (s : State) : State :=
  let r := s.run q
  let g := s.group b i
  let seq := (g.seq + collCountOf (r.words.take r.ip) o.group) % 2 ^ 32
  let c : CollSt := { group := o.group, seq := seq, myCounts := mine, mismatch := mismatch }
  let new : Inst := { word := wordIndex r, op := .coll o, descs := ds, set := r.set, snd := r.snd, planned := true
                      coll := some c }
  let j := r.insts.length
  let s := advance q (s.modRun q (fun x => { x with insts := x.insts ++ [new] }))
  let s := if s.lshQ = [] then (match idleEngineFor s q with
      | some e => giveEngine q j e s
      | none => { s with lshQ := [(q, j)] })
    else { s with lshQ := s.lshQ ++ [(q, j)] }
  let s := if o.variant = 3 then
      forEach ((List.range g.members.length).filter (· ≠ g.rank)) (fun k t =>
        sendColl q j k 0x09 0 0 (fun p => { p with operand := mine.getD k 0 }) t) s
    else s
  tryGreet q j (takeHeld q j b i s)

/-- COLL. -/
def execColl (q : Nat) (o : CollOps) (s : State) : Res :=
  let r := s.run q
  if !nextWord r (.coll o) then .next s
  else
    let c := s.ctx q
    let fault := fun (f : Flt) => faultRun q f.1 f.2 (wordIndex r) none s
    match s.findGroup o.group with
    | none => .next (fault (0x0F, 4))
    | some (b, i) =>
      let g := s.group b i
      match g.state with
      | .excluded => .next (faultRun q 7 2 (wordIndex r) (some o.group) s)
      | .noQuorum => .next (faultRun q 7 3 (wordIndex r) (some o.group) s)
      | .reforming => .next s
      | .active =>
        match s.readSlots c r.set (.coll o) with
        | .error f => .next (fault f)
        | .ok ds =>
          if !opAligned ds then .next (fault (0x0F, 5))
          else match (if o.variant = 3 then readCounts s c (nth (tensors ds) 2) else .ok []) with
            | .error f => .next (fault f)
            | .ok mine =>
              let k := collDim g { op := .coll o, descs := ds } { myCounts := mine }
              match collBreak k g.reforms mine.length with
              | 1 => .next (fault (0x0F, 4))
              | 2 => .next (startColl q b i o ds mine 3 s)
              | _ => .next (startColl q b i o ds mine 0 s)

/-- A waiting COLL takes an idle engine: the oldest. -/
def execLongshoreEngineGrant (s : State) : Res :=
  match s.lshQ with
  | [] => .next s
  | (q, j) :: rest => match idleEngineFor s q with
    | none => .next s
    | some e => .next (giveEngine q j e { s with lshQ := rest })

/-! ### Packets of a collective (R417) -/

/-- A packet of the group's epoch from its member reaches `f`; one of a higher epoch is held, others are discarded. -/
def gatePacket (p : Packet) (f : Nat → Nat → State → State) (s : State) : State :=
  match s.findGroup p.group with
  | none => s
  | some (b, i) =>
    let g := s.group b i
    if p.epoch > g.epoch then holdPacket b i p s
    else if p.epoch < g.epoch ∨ g.members.getD p.rank 65536 ≠ p.srcPart then s
    else f b i s

/-- The verdict to move data comes from the parent. -/
def takeGoPacket (p : Packet) (b i : Nat) (s : State) : State :=
  let g := s.group b i
  match findColl s b g.group p.seq with
  | some (q, j) => if treeParent g.rank = some p.rank ∧ !(s.collSt q j).go then takeGo q j s else s
  | none => s

/-- A data chunk: acknowledged and taken; a duplicate acknowledged again; a poisoned one sent back up to RESENDS
times (R420, R426). -/
def takeData (p : Packet) (b i : Nat) (s : State) : State :=
  match findColl s b (s.group b i).group p.seq with
  | none => s
  | some (q, j) =>
    let c := s.collSt q j
    let key := (p.rank, p.chunk)
    let ack := fun kind t => sendColl q j p.rank kind 0 0 (fun x => { x with chunk := p.chunk }) t
    if c.recvd.contains key then ack 0x05 s
    else if (s.inst q j).engine.isNone || !(s.dimOf q j).expected.contains key then s
    else
      let naks := ((c.chunkNaks.find? (fun x => x.1 = p.rank && x.2.1 = p.chunk)).map (·.2.2)).getD 0
      if p.poison ∧ naks < s.cwy.resends then
        ack 0x06 (s.modColl q j (fun x => { x with
          chunkNaks := x.chunkNaks.filter (fun y => !(y.1 = p.rank && y.2.1 = p.chunk)) ++ [(p.rank, p.chunk, naks + 1)] }))
      else
        let s := ack 0x05 (s.modColl q j (fun x => { x with recvd := x.recvd ++ [key] }))
        settleColl q j (takeChunk q j p.rank p.chunk p.data p.poison s) s

def takeChunkAck (p : Packet) (b i : Nat) (s : State) : State :=
  match findColl s b (s.group b i).group p.seq with
  | none => s
  | some (q, j) => finishColl q j (modSend q j p.rank p.chunk (fun x =>
      if x.sent then { x with acked := true, data := [] } else x) s)

/-- A chunk NAK: its source is read again, and the chunk is sent again. -/
def takeChunkNak (p : Packet) (b i : Nat) (s : State) : State :=
  match findColl s b (s.group b i).group p.seq with
  | none => s
  | some (q, j) =>
    match (s.collSt q j).sends.find? (fun x => x.target = p.rank && x.chunk = p.chunk && x.sent && !x.acked) with
    | none => s
    | some x =>
      match x.src with
      | none => sendChunk q j x s
      | some (e0, n) =>
        match s.takeSrc q (nth (tensors (s.inst q j).descs) 0) e0 n with
        | .error f => runFault q (s.inst q j).word f s
        | .ok (bs, bad, s) =>
          let y := { x with data := bs, poison := !bad.isEmpty }
          sendChunk q j y (modSend q j x.target x.chunk (fun _ => y) s)

/-- A chunk without an acknowledgement is sent again every RESEND_US (R420); `chunk` is target * 2^32 + index. -/
def execChunkResend (q inst chunk : Nat) (s : State) : Res :=
  match (s.collSt q inst).sends.find? (fun x =>
      x.target = chunk / 2 ^ 32 && x.chunk = chunk % 2 ^ 32 && x.sent && !x.acked) with
  | none => .next s
  | some x => .next (sendChunk q inst x s)

def takeDone (p : Packet) (b i : Nat) (s : State) : State :=
  let g := s.group b i
  match findColl s b g.group p.seq with
  | none => s
  | some (q, j) =>
    if !(treeKids g.members.length g.rank).contains p.rank then s
    else tryDone q j (s.modColl q j (fun x => { x with
      doneKids := x.doneKids.filter (fun y => y.1 ≠ p.rank) ++ [(p.rank, decide (p.operand % 2 = 1))] }))

def takeLand (p : Packet) (b i : Nat) (s : State) : State :=
  match findColl s b (s.group b i).group p.seq with
  | none => s
  | some (q, j) =>
    let c := s.collSt q j
    if treeParent (s.group b i).rank = some p.rank ∧ c.doneSent ∧ !c.landed then landHere q j s else s

def takeAbort (p : Packet) (b i : Nat) (s : State) : State :=
  spreadAbort b i p.op (p.operand % 256) p.seq (some p.rank) s

/-- A packet of a collective by its KIND (Table 17.3). -/
def takeColl (p : Packet) (b i : Nat) (s : State) : State :=
  match p.kind with
  | 1 => takeGreeting p b i s
  | 2 => takeGoPacket p b i s
  | 3 => takeAbort p b i s
  | 4 => takeData p b i s
  | 5 => takeChunkAck p b i s
  | 6 => takeChunkNak p b i s
  | 7 => takeDone p b i s
  | 8 => takeLand p b i s
  | 9 => takeCount p b i s
  | _ => s

/-- A packet of one KIND arrives. -/
def collArrive (kind : Nat) (p : Packet) (s : State) : State :=
  let p := { p with kind := kind }
  gatePacket p (takeColl p) (arrive p s)

def execCollGreeting (p : Packet) (s : State) : Res := .next (collArrive 1 p s)
def execCollCount (p : Packet) (s : State) : Res := .next (collArrive 9 p s)
def execGo (p : Packet) (s : State) : Res := .next (collArrive 2 p s)
def execAbort (p : Packet) (s : State) : Res := .next (collArrive 3 p s)
def execCollData (p : Packet) (s : State) : Res := .next (collArrive 4 p s)
def execChunkAck (p : Packet) (s : State) : Res := .next (collArrive 5 p s)
def execChunkNak (p : Packet) (s : State) : Res := .next (collArrive 6 p s)
def execCollDone (p : Packet) (s : State) : Res := .next (collArrive 7 p s)
def execLand (p : Packet) (s : State) : Res := .next (collArrive 8 p s)

/-! ### Group messages (R428 to R430, Table 19.5) -/

/-- A group message to a part. -/
def groupMsg (s : State) (b i part msg : Nat) (f : Packet → Packet) : Packet :=
  let g := s.group b i
  f { mgmtPacket s part msg [] with rank := g.rank, group := g.group, epoch := g.epoch, srcBerth := b }

/-- A group message to ranks of the list, this member apart. -/
def tellRanks (b i msg : Nat) (ranks : List Nat) (f : Packet → Packet) (s : State) : State :=
  let g := s.group b i
  forEach (ranks.filter (· ≠ g.rank)) (fun r t =>
    route (groupHalf t b i) (groupMsg t b i (g.members.getD r 0) msg f) t) s

def allRanks (g : Group) : List Nat := List.range g.members.length

/-- Tree and ring neighbours of a member (R409). -/
def neighbours (g : Group) : List Nat :=
  let n := g.members.length
  ((treeNear n g.rank ++ [(g.rank + 1) % n, (g.rank + n - 1) % n]).eraseDups).filter (· ≠ g.rank)

/-- Every neighbour counts as heard now. -/
def hearAll (b i : Nat) (s : State) : State :=
  let us := (s.half (groupHalf s b i)).us
  s.modGroup b i (fun g => { g with lastHeard := (neighbours g).foldl (fun t r => put 0 t r us) [] })

/-- Group records that a half's Tidewatch serves. -/
def groupsOf (s : State) (half : Nat) : List (Nat × Nat) :=
  (s.berths.flatMap (fun b => b.2.grps.map (fun g => (b.1, g.1)))).filter (fun x => groupHalf s x.1 x.2 = half)

/-- A heartbeat to each neighbour of each group (R428). -/
def execMemberHeartbeatSend (half : Nat) (s : State) : Res :=
  .next (forEach (groupsOf s half) (fun x t => tellRanks x.1 x.2 0x01 (neighbours (t.group x.1 x.2)) id t) s)

/-- A group message of the record's epoch from its member. -/
def gateMsg (p : Packet) (f : Nat → Nat → State → State) (s : State) : State :=
  let s := arrive p s
  match s.findGroup p.group with
  | none => s
  | some (b, i) =>
    let g := s.group b i
    if p.epoch = g.epoch ∧ g.members.getD p.rank 65536 = p.srcPart then f b i s else s

def execMemberHeartbeat (p : Packet) (s : State) : Res :=
  .next (gateMsg p (fun b i t =>
    let us := (t.half (groupHalf t b i)).us
    t.modGroup b i (fun g => { g with lastHeard := put 0 g.lastHeard p.rank us })) s)

/-- The last COLL of a run on this group has completed here and sent DONE (R429). -/
def doneWaits (r : Run) (group : Nat) : Bool :=
  match lastColl r.words with
  | none => false
  | some w => r.insts.any (fun x => ahead 32 x.word r.start = w && (match x.coll with
      | some c => c.group = group && c.doneSent
      | none => false))

/-- The kernels of a group that may still end. -/
def groupRuns (s : State) (b group : Nat) : List Nat :=
  (berthQueues s b).filter (fun q => killable (s.run q) && (collGroups (s.run q).words).contains group)

/-- The group re-forms: survivors' kernels end with COLL_MEMBER_LOST detail 1, those that wait for landing stay. -/
def startReform (b i : Nat) (lost : List Nat) (s : State) : State :=
  let g := s.group b i
  match g.state with
  | .excluded => s
  | .noQuorum => s
  | .reforming => s.modGroup b i (fun x => { x with lostRanks := (x.lostRanks ++ lost).eraseDups })
  | .active =>
    let s := s.modGroup b i (fun x => { x with state := .reforming, lostRanks := lost, answers := [], coordinator := false })
    forEach ((groupRuns s b g.group).filter (fun q => !doneWaits (s.run q) g.group)) (fun q t =>
      faultRun q 7 1 (lastWord (t.run q)) (some g.group) t) s

/-- A neighbour silent for LOST_MS is lost: every member is told. -/
def execMemberLost (group rank : Nat) (s : State) : Res :=
  match s.findGroup group with
  | none => .next s
  | some (b, i) =>
    let g := s.group b i
    let h := s.half (groupHalf s b i)
    let silent := decide (h.us ≥ look 0 g.lastHeard rank + 1000 * h.lostMs)
    if silent && (neighbours g).contains rank && !g.lostRanks.contains rank && (g.state = .active || g.state = .reforming) then
      .next (startReform b i [rank] (tellRanks b i 0x02 (allRanks g) (fun p => { p with operand := rank }) s))
    else .next s

def execLostNotice (p : Packet) (s : State) : Res :=
  .next (gateMsg p (fun b i t => startReform b i [p.operand] t) s)

/-- A leaving member is lost at once (R428). -/
def execLeaveNotice (p : Packet) (s : State) : Res :=
  .next (gateMsg p (fun b i t => startReform b i [p.rank] t) s)

/-- A poll is answered with the sequence numbers that landed here. -/
def execPoll (p : Packet) (s : State) : Res :=
  .next (gateMsg p (fun b i t =>
    let t := startReform b i [] t
    let t := if p.rank < (t.group b i).rank then t.modGroup b i (fun g => { g with coordinator := false }) else t
    if (t.group b i).state = .reforming then
      tellRanks b i 0x05 [p.rank] (fun x => { x with landed := (t.group b i).landedSeen }) t
    else t) s)

/-- Kernels of a record that is excluded or without quorum stop (R430), those that wait to re-run among them. -/
def stopGroup (b i detail : Nat) (s : State) : State :=
  let g := s.group b i
  let s := forEach (groupRuns s b g.group) (fun q t => faultRun q 7 detail (lastWord (t.run q)) (some g.group) t) s
  forEach ((berthQueues s b).filter (fun q => (s.run q).phase = .killed && (s.run q).waitGroup = some g.group &&
      (s.queue q).state = .waiting)) (fun q t =>
    stopQueue q (t.modQueue q (fun c => { c with faultCode := 7, faultDetail := detail }))) s

def excludeHere (b i : Nat) (s : State) : State :=
  stopGroup b i 2 (s.modGroup b i (fun g => { g with state := .excluded, coordinator := false }))

/-- A new epoch is installed on a survivor: its list and ranks; the kernels that wait land or end; packets held for the
epoch are taken (R417, R429). -/
def installHere (b i epoch : Nat) (list landed : List Nat) (s : State) : State :=
  match list.findIdx? (· = s.cwy.partId) with
  | none => excludeHere b i s
  | some rank =>
    let g := s.group b i
    let waits := (groupRuns s b g.group).filter (fun q => doneWaits (s.run q) g.group)
    let s := s.modGroup b i (fun x => { x with
      state := .active, members := list, rank := rank, epoch := epoch, reforms := satAdd 16 x.reforms 1, reformed := true
      lostRanks := [], answers := [], coordinator := false, landedSeen := (landed ++ x.landedSeen).eraseDups.take 64
      held := x.held.filter (fun p => decide (p.epoch ≥ epoch)) })
    let s := hearAll b i s
    let s := forEach waits (fun q t =>
      let r := t.run q
      let seqs := r.insts.filterMap (fun x => match x.coll with
        | some c => if c.group = g.group ∧ c.doneSent then some c.seq else none
        | none => none)
      if landed.contains (seqs.getLast?.getD (2 ^ 32)) then t.modRun q (fun x => { x with landed := true })
      else faultRun q 7 1 (lastWord r) (some g.group) t) s
    let now := (s.group b i).held.filter (fun p => p.epoch = epoch)
    let s := s.modGroup b i (fun x => { x with held := x.held.filter (fun p => p.epoch ≠ epoch) })
    forEach now (fun p t => gatePacket p (takeColl p) t) s

/-- The coordinator decides: the survivors that answered are the new group, or are excluded (Table 17.4). -/
def decideReform (b i : Nat) (s : State) : State :=
  let g := s.group b i
  let alive := (allRanks g).filter (fun r => r = g.rank || g.answers.contains r)
  if alive.length ≥ g.quorum then
    let list := alive.map (fun r => g.members.getD r 0)
    let epoch := g.epoch + 1
    let s := tellRanks b i 0x06 alive (fun p => { p with epoch := epoch, list := list, landed := g.landedSeen }) s
    installHere b i epoch list g.landedSeen s
  else excludeHere b i (tellRanks b i 0x07 alive id s)

/-- An answer joins a member to the survivors; with the last one the coordinator decides. -/
def execPollAnswer (p : Packet) (s : State) : Res :=
  .next (gateMsg p (fun b i t =>
    let g := t.group b i
    if g.coordinator ∧ g.state = .reforming then
      let t := t.modGroup b i (fun x => { x with
        answers := (x.answers ++ [p.rank]).eraseDups, landedSeen := (x.landedSeen ++ p.landed).eraseDups })
      let x := t.group b i
      if (allRanks x).all (fun r => r = x.rank || x.answers.contains r || x.lostRanks.contains r) then decideReform b i t
      else t
    else t) s)

/-- No poll from a lower rank for REFORM_MS: the member polls as coordinator; a coordinator's own REFORM_MS ends step 3. -/
def execCoordinatorTimeout (group : Nat) (s : State) : Res :=
  match s.findGroup group with
  | none => .next s
  | some (b, i) =>
    let g := s.group b i
    if g.state ≠ .reforming then .next s
    else if g.coordinator then .next (decideReform b i s)
    else .next (tellRanks b i 0x04 (allRanks g) id (s.modGroup b i (fun x => { x with coordinator := true, answers := [] })))

def execInstall (p : Packet) (s : State) : Res :=
  let s := arrive p s
  match s.findGroup p.group with
  | none => .next s
  | some (b, i) =>
    let g := s.group b i
    if p.epoch = g.epoch + 1 ∧ g.members.getD p.rank 65536 = p.srcPart ∧ (g.state = .active ∨ g.state = .reforming) then
      .next (installHere b i p.epoch p.list p.landed (startReform b i [] s))
    else .next s

def execExclusion (p : Packet) (s : State) : Res :=
  .next (gateMsg p (fun b i t => if (t.group b i).state = .reforming ∨ (t.group b i).state = .active then excludeHere b i t
    else t) s)

/-- No install LOST_MS after the loss (R430). -/
def execInstallTimeout (group : Nat) (s : State) : Res :=
  match s.findGroup group with
  | none => .next s
  | some (b, i) =>
    if (s.group b i).state = .reforming then
      .next (stopGroup b i 3 (s.modGroup b i (fun g => { g with state := .noQuorum, coordinator := false })))
    else .next s

/-- A taint notice (R427). -/
def execTaint (p : Packet) (s : State) : Res :=
  .next (gateMsg p (fun b i t => t.modGroup b i (fun g => { g with
    tainted := true, poisoned := satAdd 16 g.poisoned 1 })) s)

end Sys2Proof.Machine
end

