-- ==== Sys2Proof/Machine/Power.lean ====
section
/-! DEFINITION. Keeper's reports (22_keeper.md R501), power entry and clocks (01_the_part.md R23, R24; 23_package.md R516,
R517, R521), the control loop (19_tidewatch.md R455 to R459; 13_stacks.md R341, R342), power domains (R460, R461),
telemetry (R528). -/
namespace Sys2Proof.Machine

/-! ### Reports on the Lighthouse line (R500, R501) -/

/-- ASCII text as bytes. -/
def ascii (t : String) : List Byte := t.toList.map (fun c => BitVec.ofNat 8 c.toNat)

/-- A line with its CR LF leaves. -/
def sendLine (t : String) (s : State) : State := s.emit (.line (ascii t ++ [13, 10]))

/-- Decimal digits of a number; the fuel bounds their count. -/
def decDigits : Nat → Nat → List Char
  | 0, _ => []
  | k + 1, n => (if n < 10 then [] else decDigits k (n / 10)) ++ [Char.ofNat (48 + n % 10)]

def dec (n : Nat) : String := String.ofList (decDigits 30 n)

/-- A report: sent at once between commands; while a reply is being sent it waits, at most 64 of them. -/
def report (t : String) (s : State) : State :=
  if s.dbg.inbound = none then sendLine t s
  else if s.dbg.reports.length < 64 then s.modDbg (fun d => { d with reports := d.reports ++ [t] })
  else s.modDbg (fun d => { d with lostReports := d.lostReports + 1 })

/-- The waiting reports leave in order, after !LOST where some were dropped. -/
def flushReports (s : State) : State :=
  let lost := if s.dbg.lostReports = 0 then [] else ["!LOST " ++ dec s.dbg.lostReports]
  let ts := lost ++ s.dbg.reports
  forEach ts sendLine (s.modDbg (fun d => { d with reports := [], lostReports := 0 }))

/-- A report of a half: half 1's reach the line only across the Isthmus. -/
def reportFrom (half : Nat) (t : String) (s : State) : State :=
  if half = 0 || (s.half 0).peerHb then report t s else s

/-! ### Power entry and clocks -/

/-- The always-on domains run on the entry. -/
def State.on (s : State) : Bool := s.clk.power = .alwaysOn

/-- VIN has stayed in its range for 10 ms (R516). -/
def execVinQualified (s : State) : Res :=
  .next (if s.clk.power = .off then s.modClk (fun c => { c with power := .qualified }) else s)

/-- Step 1 of Table 1.6 completes, and with it step 2: the always-on domains run from the crystal. -/
def execRegulatorsGood (s : State) : Res :=
  .next (if s.clk.power = .qualified then s.modClk (fun c => { c with power := .alwaysOn }) else s)

/-- A halted commit goes on where it halted (R24). -/
def resumeCommits (s : State) : State :=
  forEach (s.runs.map (·.1)) (fun q t =>
    if (t.run q).halted then
      let t := t.modRun q (fun r => { r with halted := false, resumed := true })
      if (t.run q).phase = .committing ∧ (t.run q).commitPhase = 3 then sendRemote q t else t
    else t) s

/-- Steps 3 to 7 of Table 1.6; A starts with m = 0 in every cluster. -/
def lockRoot (s : State) : State :=
  let s := s.modGlb (fun g => { g with rootLock := true, sOnRoot := true })
  let s := forEach (List.range 32) (fun k t => t.modCluster k (fun c => { c with mEff := 0 })) s
  s.modClk (fun c => { c with fOn := true, aOn := true, kOn := true })

/-- The root PLL locks: at the start, or after an attempt of R24. -/
def execRootPllLocked (s : State) : Res :=
  .next (if s.on && !s.glb.rootLock && !s.glb.trip && !s.clk.relockFailed then lockRoot s else s)

/-- The SerDes PLLs lock (step 8): ports that are enabled train, and commits that a loss of root lock halted go on. -/
def execSerdesPllLocked (s : State) : Res :=
  if s.on && s.glb.rootLock && !s.clk.serdes then
    .next (resumeCommits (forEach ((s.ports.map (·.1))) trainPort (s.modClk (fun c => { c with serdes := true }))))
  else .next s

/-- The host link is lost (R24, R440). -/
def linkLost (s : State) : State :=
  s.modGlb (fun g => { g with linkWidth := 0, linkRate := 0, cxlCache := false, cxlMem := false, degraded := false
                              lanesHalf1 := false, hostWait := [] })

/-- The clocks of the halves stop. -/
def stopClocks (s : State) : State :=
  let s := s.modGlb (fun g => { g with rootLock := false, sOnRoot := false })
  linkLost (s.modClk (fun c => { c with fOn := false, aOn := false, kOn := false, serdes := false }))

/-- Loss of root lock (R24). -/
def execRootPllLockLoss (s : State) : Res :=
  if s.glb.rootLock then
    let s := stopClocks (s.modGlb (fun g => { g with clkFault := true, relockCount := 0 }))
    let s := raiseVector 1 s
    let s := forEach (s.runs.map (·.1)) (fun q t =>
      if (t.run q).phase = .committing ∨ (t.run q).landed then t.modRun q (fun r => { r with halted := true })
      else killQueue q 5 t) s
    let s := forEach (s.ports.map (·.1)) goDown s
    .next (report ("!CLK " ++ dec s.glb.relockCount) s)
  else .next s

/-- What a journal entry of an interrupted commit holds: queue, KERNEL_START, phase, cause (Table 19.14). -/
def interruptedBy (cause : Nat) (s : State) : List (Nat × Nat × Nat × Nat) :=
  s.runs.filterMap (fun p =>
    if p.2.phase = .committing then some (p.1, p.2.start, p.2.commitPhase, cause) else none)

/-- A relock attempt (R24): at most three, 1 ms apart; the third failure is reported and the halted commits journalled. -/
def execRelockAttempt (locked : Bool) (s : State) : Res :=
  if s.on && s.glb.clkFault && !s.glb.trip && !s.glb.rootLock && !s.clk.relockFailed && decide (s.glb.relockCount < 3) then
    let s := s.modGlb (fun g => { g with relockCount := g.relockCount + 1 })
    if locked then .next (lockRoot s)
    else if s.glb.relockCount < 3 then .next s
    else
      let j := interruptedBy 1 s
      let s := s.modTrec (fun t => { t with interrupted := t.interrupted ++ j })
      .next (report "!CLK FAIL" (s.modClk (fun c => { c with relockFailed := true })))
  else .next s

/-! ### Loss of the rails (R517, R521) -/

/-- A temperature of n °C in quarter degrees. -/
def quarter (n : Nat) : Nat := 4 * n

/-- First key of the trays' and the moorings' copies in park records: those of berth b stand at b + 32. -/
def recKey (b core tray : Nat) : Nat := trayKey (core + 256 * (b + 33)) tray 0

/-- Bytes of park records. -/
def keptTrays (m : Memory) : Memory := m.filter (fun c => decide (c.1 ≥ trayKey (256 * 33) 0 0))
def keptMoor (m : Memory) : Memory := m.filter (fun c => decide (c.1 ≥ 2 ^ 53))
def keptMoorUnits (m : Tbl UnitSt) : Tbl UnitSt := m.filter (fun c => decide (c.1 ≥ 2 ^ 48))

/-- Shelf bytes. -/
def keptMem (m : Memory) : Memory := m.filter (fun c => decide (c.1 ≥ 2 ^ 44))
def keptUnits (m : Tbl UnitSt) : Tbl UnitSt := m.filter (fun c => decide (c.1 ≥ 2 ^ 39))

/-- Page list of a park record as the map of a parked berth. -/
def parkedPages (r : ParkRec) (pages : Tbl Page) : Tbl Page :=
  r.pages.foldl (fun t p =>
    put {} t p.1 { tier := .park, phys := p.2.1, migrating := false, shelfCopy := true, copyAt := p.2.1, home := p.2.2 })
    (pages.filter (fun p => p.2.tier = .shelf))

/-- A berth as a reset leaves it: parked where it holds a park record, empty otherwise. -/
def restBerth (b : Berth) : Berth :=
  match b.parkRec with
  | none => {}
  | some r => { image := b.image, parkRec := some r, parkState := .parked, pages := parkedPages r b.pages
                fenceParked := b.fenceParked }

/-- A table with each element replaced. -/
def mapTbl {α : Type} [DecidableEq α] (d : α) (f : α → α) (t : Tbl α) : Tbl α :=
  t.filterMap (fun p => if f p.2 = d then none else some (p.1, f p.2))

/-- What the halves, the Harbours, the trays and the stacks hold is lost, the sensors' readings apart; every run ends
without further effects. -/
def loseRails (s : State) : State :=
  let s := stopClocks s
  { s with
    queues := [], runs := [], syncs := [], cores := [], hbr := [], ports := []
    clusters := mapTbl {} (fun (c : Cluster) => ({ temp := c.temp } : Cluster)) s.clusters
    stks := mapTbl {} (fun (k : Stack) => ({ temp := k.temp } : Stack)) s.stks
    shelf := { s.shelf with map := [], mapReady := false }
    codecs := [], codecQ := [], lsh := [], lshQ := [], arbs := []
    cwy := { s.cwy with txnBusy := [], outst := [], waiting := [], filter := [] }
    berths := mapTbl {} (fun b => { restBerth b with layout := b.layout, share := b.share }) s.berths
    mem := keptMem s.mem, units := keptUnits s.units, delivered := []
    trays := keptTrays s.trays, moor := keptMoor s.moor, moorUnits := keptMoorUnits s.moorUnits }

/-- VIN below 42.0 V for 100 us (R517). -/
def execUnderVoltage (s : State) : Res :=
  if s.on then
    let j := interruptedBy 2 s
    let s := s.modTrec (fun t => { t with interrupted := t.interrupted ++ j, uvEvents := satAdd 32 t.uvEvents 1 })
    let s := loseRails s
    let s := s.modGlb (fun g => { g with uvEvents := s.trec.uvEvents })
    .next (s.modClk (fun c => { c with power := .holdup }))
  else .next s

/-- The hold-up ends: power goes off, and what power-on keeps is kept (R465, R517). -/
def execHoldupEnd (s : State) : Res :=
  if s.clk.power = .holdup then
    .next { State.reset with
      shelf := { s.shelf with inService := 0, map := [], mapReady := false, lowSpare := false, wearWarn := false, readW := 3, migW := 1
                              window := 4096 }
      sec := { secverMin := s.sec.secverMin }
      trec := s.trec, berths := mapTbl {} restBerth s.berths, mem := s.mem, units := s.units, trays := s.trays, moor := s.moor
      moorUnits := s.moorUnits, pageLast := s.pageLast
      fresh := s.fresh, out := s.out, pending := s.pending }
  else .next s

/-- A sensor at 115 °C trips the comparator (R521). -/
def execThermalTrip (sensor : Nat) (s : State) : Res :=
  if s.on && !s.glb.trip then
    let j := interruptedBy 2 s
    let s := s.modTrec (fun t => { t with interrupted := t.interrupted ++ j, trips := satAdd 32 t.trips 1 })
    let s := loseRails s
    let hot := fun (t : Nat) => max t (quarter 115)
    let s := if sensor < 32 then s.modCluster sensor (fun c => { c with temp := hot c.temp })
      else s.modStack (sensor - 32) (fun k => { k with temp := hot k.temp })
    .next (s.modGlb (fun g => { g with trip := true, tripSensor := sensor % 64, trips := s.trec.trips }))
  else .next s

/-! ### Gating (Table 19.3) -/

/-- Half of a domain; none for the Shelf's. -/
def domainHalf (d : Nat) : Option Nat :=
  if d < 256 then some (d / 128)
  else if d < 288 then some ((d - 256) / 16)
  else if d < 304 then some ((d - 288) / 8)
  else if d < 312 then some ((d - 304) / 4)
  else if d < 320 then some ((d - 312) / 4)
  else if d < 352 then some ((d - 320) / 16)
  else if d < 368 then some ((d - 352) / 8)
  else if d < 376 then none
  else some (d - 376)

def setGated (d : Nat) (on : Bool) (s : State) : State :=
  s.modTwc (fun t => { t with gated := setBit t.gated d on, ungating := t.ungating.filter (· ≠ d) })

/-- Queues whose run has a crew core in a list. -/
def crewQueues (s : State) (cores : List Nat) : List Nat :=
  (s.runs.map (·.1)).filter (fun q => (s.run q).crew.any cores.contains)

/-- A core is gated: its kernels are killed; its pinned trays are then parked one by one. -/
def gateCore (c : Nat) (s : State) : State := setGated c true (killAll (crewQueues s [c]) 2 s)

/-- Pinned trays of a core that are not parked. -/
def unparked (s : State) (c : Nat) : List Nat :=
  (List.range 16).filter (fun k => (s.tray c k).pinned && (s.tray c k).parkedBy = none)

def clusterCores (k : Nat) : List Nat := (List.range 8).map (· + 8 * k)

/-- Cores whose pinned trays a gated domain still waits for. -/
def domainCores (d : Nat) : List Nat := if d < 256 then [d] else if d < 288 then clusterCores (d - 256) else []

/-- The gating of a domain has done its part. -/
def gatingDone (s : State) (d : Nat) : Bool :=
  if 352 ≤ d ∧ d < 368 then (List.range 4).all (fun i => (s.port ((d - 352) * 4 + i)).state = .off)
  else (domainCores d).all (fun c => unparked s c = [])

/-- Kernel whose job runs on a codec engine. -/
def killCodec (e detail : Nat) (s : State) : State :=
  if (s.codecEng e).busy then killQueue (s.codecEng e).queue detail s else s

/-- R315: no allotted line, no commit that applies atomics there, the partner group powered. -/
def mayGateSlices (s : State) (h g : Nat) : Bool :=
  let mine := fun (b : Nat) (va : Nat) => match s.spot b va with
    | .stack pa => (s.cacheSlot pa).1 = h && (s.cacheSlot pa).2 / 512 / 8 = g
    | .mooring home v => home = h && v / 256 % 64 / 8 = g
    | .acc .. => false
  !((s.harbour h).lines.any (fun k => k / 256 % 64 / 8 = g)) &&
    !(s.runs.any (fun p => p.2.phase = .committing && p.2.commitPhase = 2 &&
      p.2.held.any (fun x => match x.eff with
        | .atom o => !o.remote && mine (s.queue p.1).berth o.addr
        | .reduce _ es => es.any (fun e => mine (s.queue p.1).berth e.1)
        | _ => false))) &&
    !bitOf (s.harbour h).gated (g ^^^ 1)

/-- A park, a restore or a migration uses the Shelf. -/
def shelfBusy (s : State) : Bool :=
  s.berths.any (fun b => b.2.parkState = .parking || b.2.parkState = .restoring) ||
    [0, 1].any (fun h => match (s.half h).migRun with
      | some r => r.tier = .shelf || (look {} (s.berth r.berth).pages r.vpage).tier = .shelf
      | none => false)

/-- Why a domain command is refused (Table 19.12), if it is. -/
def domainRefusal (s : State) (d : Nat) (gate : Bool) : Option Nat :=
  let fencedHalf := (domainHalf d).any s.fenced
  let stack := decide (320 ≤ d) && decide (d < 352)
  if d ≥ 376 then some 1
  else if s.glb.split then some 7
  else if fencedHalf && !stack then some 6
  else if !gate && decide (d < 256) && ((s.stack (d / 8)).crit || (s.cluster (d / 8)).held.contains d) then some 5
  else if !gate || bitOf s.twc.gated d then none
  else if 288 ≤ d ∧ d < 304 ∧ !mayGateSlices s ((d - 288) / 8) ((d - 288) % 8) then some 2
  else if stack && !fencedHalf then some 3
  else if 368 ≤ d ∧ shelfBusy s then some 4
  else none

/-- A domain is gated and is not coming back. -/
def staysGated (s : State) (d : Nat) : Bool := bitOf s.twc.gated d && !s.twc.ungating.contains d

/-- Cores that a command gates are no longer for the thermal rule to bring back (notes/assumptions/64.md). -/
def dropHold (cores : List Nat) (s : State) : State :=
  forEach cores (fun c t => t.modCluster (c / 8) (fun k => { k with held := k.held.filter (· ≠ c) })) s

/-- A gating command starts. -/
def startGate (d : Nat) (s : State) : State :=
  let s := dropHold (domainCores d) s
  if staysGated s d then s
  else if d < 256 then gateCore d s
  else if d < 288 then
    setGated d true (forEach (clusterCores (d - 256)) (fun c t => if staysGated t c then t else gateCore c t) s)
  else if d < 304 then
    setGated d true (s.modHarbour ((d - 288) / 8) (fun h => { h with gated := setBit h.gated ((d - 288) % 8) true }))
  else if d < 320 then setGated d true (killCodec ((d - 304) % 8) 2 s)
  else if d < 352 then setGated d true s
  else if d < 368 then forEach ((List.range 4).map (fun i => (d - 352) * 4 + i)) drainPort (setGated d true s)
  else setGated d true s

/-- Domains that an ungating command brings back: a core's gated fabric first. -/
def ungateSet (s : State) (d : Nat) : List Nat :=
  (if d < 256 ∧ bitOf s.twc.gated (256 + d / 8) then [256 + d / 8] else []) ++ [d]

/-- The next domain command starts once the one in progress is done (R460); the fuel bounds their number. -/
def runDomains : Nat → State → State
  | 0, s => s
  | k + 1, s =>
    if s.twc.domBusy ≠ none then s
    else match s.twc.domQ with
      | [] => s
      | (d, gate) :: rest =>
        let s := s.modTwc (fun t => { t with domQ := rest })
        match domainRefusal s d gate with
        | some why => runDomains k (s.modTwc (fun t => { t with
            errDomain := d, errWhy := why, errRefused := satAdd 32 t.errRefused 1 }))
        | none =>
          if gate then
            let s := startGate d s
            if gatingDone s d then runDomains k s else s.modTwc (fun t => { t with domBusy := some d })
          else if bitOf s.twc.gated d then
            s.modTwc (fun t => { t with domBusy := some d, ungating := (t.ungating ++ ungateSet s d).eraseDups })
          else runDomains k s

/-- Progress of a gating command. -/
def checkGating (s : State) : State :=
  match s.twc.domBusy with
  | some d =>
    if bitOf s.twc.gated d && !s.twc.ungating.contains d && gatingDone s d then
      let s := s.modTwc (fun t => { t with domBusy := none })
      settle (runDomains s.twc.domQ.length s)
    else s
  | none => s

/-- A write of TWC_DOMAIN_CMD (R460); reserved indices are ignored (R3). -/
def domainCmd (d : Nat) (gate : Bool) (s : State) : State :=
  if d < 378 then
    let s := s.modTwc (fun t => { t with domQ := t.domQ ++ [(d, gate)] })
    settle (runDomains s.twc.domQ.length s)
  else s

def execDomainGate (domain : Nat) (s : State) : Res := .next (domainCmd domain true s)

def execDomainUngate (domain : Nat) (s : State) : Res := .next (domainCmd domain false s)

/-- One domain is in service again. -/
def ungate (d : Nat) (s : State) : State :=
  let s := setGated d false s
  if 288 ≤ d ∧ d < 304 then
    let h := (d - 288) / 8
    let g := (d - 288) % 8
    let s := s.modHarbour h (fun x => { x with gated := setBit x.gated g false })
    -- lines that the partner slices cached for this group are dropped (R315)
    s.modHarbour h (fun x => { x with cache := x.cache.filterMap (fun p =>
      let keep := p.2.filter (fun line => (s.cacheSlot (line * 256)).2 = p.1)
      if keep = [] then none else some (p.1, keep)) })
  else if 352 ≤ d ∧ d < 368 then forEach ((List.range 4).map (fun i => (d - 352) * 4 + i)) trainPort s
  else s

/-- The ungate time has passed (Table 19.3): for a core also its fabric's. A command to ungate a core that the thermal rule
has gated meanwhile ends without it. -/
def execDomainUngateDone (domain : Nat) (s : State) : Res :=
  if s.twc.ungating.contains domain then
    let fab := 256 + domain / 8
    let s := if domain < 256 ∧ s.twc.ungating.contains fab then ungate fab s else s
    let s := ungate domain s
    let s := if s.twc.domBusy = some domain then s.modTwc (fun t => { t with domBusy := none }) else s
    .next (settle (runDomains s.twc.domQ.length s))
  else if s.twc.domBusy = some domain then .next (checkGating s)
  else .next s

/-- Words of an accumulator in a tray are written and not yet committed: their copy by the tray's Peel is still to come,
so that the tray's handover waits (R231, R298). -/
def accOpen (s : State) (c k : Nat) : Bool :=
  let b := (s.tray c k).berth
  (s.berth b).accWritten.any (fun p => decide (p.2 / 2 ^ 32 = k) &&
    ((s.imageOf b).accs.find? (fun a => a.tray = k)).any (fun a => a.cores.getD (p.2 % 2 ^ 32 / 2 ^ 14) 0 = c))

/-- A pinned tray rests on its core: no kernel holds it, nor is an uncommitted word in it. -/
def restsPinned (s : State) (c k : Nat) : Bool :=
  let y := s.tray c k
  y.pinned && y.parkedBy = none && (y.owner = 0xA || (s.isAcc c k && (s.core c).crew = none && !accOpen s c k)) &&
    !s.runs.any (fun r => r.2.traysOut.contains (c, k))

/-- A ready kernel of another berth lacks cores, on which the tray's berth was the victim (R374). -/
def preemptsTray (s : State) (c k : Nat) : Bool :=
  let b := (s.tray c k).berth
  (s.core c).crew = none && (s.core c).victim = some b &&
    (s.runs.map (·.1)).any (fun q => (s.queue q).berth ≠ b && mayLeave s q && !zeroShape s q &&
      bitOf (s.berth (s.queue q).berth).layout.cores c && !qualifies s q c (wideNow s q) && !crewNow s q)

/-- A pinned tray has been written to the park reserve (R374, R376): for a gated core, or for the kernel that pre-empted
its berth there. -/
def execTrayParkDone (core tray : Nat) (s : State) : Res :=
  if restsPinned s core tray && (bitOf s.twc.gated core || preemptsTray s core tray) then
    .next (settle (checkGating (parkTray core tray s)))
  else .next s

/-- A draining port has sent what it held, or 50 us have passed (R390). -/
def endDrain (p : Nat) (s : State) : State :=
  if (s.port p).state = .draining then checkGating (trainPort p (portOff p s)) else s

/-! ### The control loop (Table 19.1) -/

/-- The highest sensor of a stack and its cluster. -/
def hottest (s : State) (k : Nat) : Nat := max (s.stack k).temp (s.cluster k).temp

/-- The cores that R341 held gated start to come back (20 us). -/
def thermalRelease (k : Nat) (s : State) : State :=
  let held := (s.cluster k).held
  let s := s.modCluster k (fun c => { c with held := [] })
  let s := s.modTwc (fun t => { t with ungating := (t.ungating ++ held).eraseDups })
  makeRecord (k / 16) 0x28 0xFF (payThermal k false) (s.modStack k (fun t => { t with crit := false }))

/-- The cluster's cores are gated at 105 °C. -/
def thermalGate (k : Nat) (s : State) : State :=
  let open_ := (clusterCores k).filter (fun c => !bitOf s.twc.gated c || s.twc.ungating.contains c)
  let s := forEach open_ gateCore s
  let s := s.modCluster k (fun c => { c with held := open_ })
  makeRecord (k / 16) 0x28 0xFF (payThermal k true) (s.modStack k (fun t => { t with crit := true }))

/-- The thermal rule of one stack and its cluster (R341, R342). -/
def thermalRule (k : Nat) (s : State) : State :=
  let t := hottest s k
  let x := s.stack k
  let s := s.modStack k (fun y => { y with doubleRefresh := decide (y.temp > quarter 85) })
  let up := decide (t ≥ quarter x.tHi)
  let down := decide (t ≤ quarter x.tLo)
  let step := fun (m hi : Nat) => if up then min (m + 1) hi else if down then m - 1 else m
  let crit := decide (t ≥ quarter 105)
  let s := s.modCluster k (fun c => { c with mTherm := if crit then 12 else step c.mTherm 12 })
  let s := s.modStack k (fun y => { y with stkM := if crit then 8 else step y.stkM 8 })
  if crit && !x.crit then thermalGate k s
  else if x.crit && down then thermalRelease k s
  else s

/-- The power rule's next value (R458). -/
def powerStep (m p limit hyst : Nat) : Nat :=
  if p > limit then min (m + 1) 12 else if p < limit - hyst then m - 1 else m

/-- A half has only its own m_h: SPLIT without heartbeats. -/
def ownPower (s : State) (h : Nat) : Bool := (s.half h).chair = .split && !(s.half h).peerHb

/-- Step 3. -/
def powerRule (h : Nat) (x : Sensors) (s : State) : State :=
  if ownPower s h then
    s.modHalf h (fun t => { t with
      mH := powerStep t.mH x.rails (s.twc.pwrLimit * 1200 / 4600) (s.twc.pwrHyst / 2) })
  else if h = partHalf s then
    s.modTwc (fun t => { t with power := x.power % 2 ^ 16, mP := powerStep t.mP x.power t.pwrLimit t.pwrHyst })
  else s

/-- Step 4 (R459). -/
def writeStages (h : Nat) (s : State) : State :=
  let m := if ownPower s h then (s.half h).mH else s.twc.mP
  let s := forEach ((List.range 16).map (· + 16 * h)) (fun k t =>
    t.modCluster k (fun c => { c with mEff := max (max c.mTherm m) c.mCap })) s
  let s := forEach ((List.range 4).map (· + 4 * h)) (fun e t =>
    t.modCodecEng e (fun c => { c with mEff := max m (s.half h).kCap })) s
  s.modHalf h (fun t => { t with fEff := t.fCap, sEff := t.sCap })

/-- Step 1: the sensors of a half; the entry's by the half that applies the power rule. -/
def latch (h : Nat) (x : Sensors) (s : State) : State :=
  let s := forEach (List.range 16) (fun cc t =>
    let k := 16 * h + cc
    let t := t.modStack k (fun y => { y with temp := x.stack.getD cc 0 % 1024 })
    t.modCluster k (fun y => { y with temp := x.cluster.getD cc 0 })) s
  if h = partHalf s then s.modGlb (fun g => { g with vin := x.vin % 1024, iin := x.iin % 2048 }) else s

/-- One run of the control loop of a half, or one skipped (R456). -/
def execTidewatchLoop (half : Nat) (overran : Bool) (sensors : Sensors) (s : State) : Res :=
  if !s.on then .next s
  else if overran then .next (s.modHalf half (fun t => { t with overruns := satAdd 16 t.overruns 1 }))
  else
    let s := s.modHalf half (fun t => { t with
      loops := wrapAdd 32 t.loops 1, sinceTelem := t.sinceTelem + 1 })
    let s := latch half sensors s
    let s := if s.fenced half then s
      else forEach ((List.range 16).map (· + 16 * half)) thermalRule s
    .next (settle (writeStages half (powerRule half sensors s)))

/-- A regulator over-current (R458). -/
def execOverCurrent (half : Nat) (s : State) : Res :=
  if !s.on then .next s
  else
    let s := forEach ((List.range 16).map (· + 16 * half)) (fun k t => t.modCluster k (fun c => { c with mEff := 12 })) s
    .next (s.modTwc (fun t => { t with ocTrips := satAdd 32 t.ocTrips 1 }))

/-! ### Telemetry (Table 19.14) -/

/-- The stack of a half with the highest temperature. -/
def hotStack (s : State) (h : Nat) : Nat :=
  (List.range 16).foldl (fun m cc => if (s.stack (16 * h + cc)).temp > (s.stack m).temp then 16 * h + cc else m) (16 * h)

def payHalf (s : State) (h : Nat) : List Byte :=
  let k := hotStack s h
  leBytes 2 s.twc.power ++ leBytes 1 (if ownPower s h then (s.half h).mH else s.twc.mP) ++ leBytes 1 k ++
    leBytes 2 (s.stack k).temp ++ leBytes 2 0 ++
    leBytes 8 ((List.range 16).foldl (fun n cc => n + (s.cluster (16 * h + cc)).mEff % 16 * 16 ^ cc) 0)

def payBerth (s : State) (b : Nat) : List Byte :=
  let t := s.berth b
  let ts := (s.imageOf b).templates
  let count := fun (k : Nat) => (ts.filter (fun x => x.kvLayout = some k)).length
  ((List.range 7).flatMap (fun c =>
    leBytes 5 (ahead 40 (look 0 t.cycles c / 256 % 2 ^ 40) (look 0 t.cyclesSent c % 2 ^ 40)))) ++
    leBytes 8 t.virt ++ leBytes 2 (count 0) ++ leBytes 2 (count 1)

/-- Step 6: half telemetry, and from the half that applies the power rule the berths' (R456). -/
def execTelemetry (half : Nat) (s : State) : Res :=
  if s.on && decide (s.twc.telemMs ≠ 0) && decide ((s.half half).sinceTelem ≥ s.twc.telemMs) then
    let s := s.modHalf half (fun t => { t with sinceTelem := 0 })
    let s := makeRecord half 0x26 0xFF (payHalf s half) s
    .next (if half = partHalf s then
        forEach ((s.berths.filter (fun b => b.2.layout.configured)).map (·.1)) (fun b t =>
          let t := makeRecord half 0x27 b (payBerth t b) t
          t.modBerth b (fun k => { k with cyclesSent := (List.range 7).foldl (fun u c =>
            put 0 u c (look 0 k.cycles c / 256)) [] })) s
      else s)
  else .next s

end Sys2Proof.Machine
end

