-- ==== Sys2Proof/Machine/Boot.lean ====
section
/-! DEFINITION. Resets (19_tidewatch.md R465, R529), the boot chain (20_security.md R471 to R476), heartbeats, agreement and
split (19_tidewatch.md R467, R468). -/
namespace Sys2Proof.Machine

/-! ### Operator commands' common part (R464) -/

/-- The chair half. -/
def State.chairHalf (s : State) : Nat := s.glb.chair

/-- A command is taken: BUSY rises. -/
def beginCmd (op berth : Nat) (s : State) : State :=
  s.modTwc (fun t => { t with cmdBusy := true, lastOp := op, cmdBerth := berth })

/-- A command ends with its result and a command-done record. -/
def finishCmd (result : Nat) (s : State) : State :=
  let op := s.twc.lastOp
  let s := s.modTwc (fun t => { t with cmdBusy := false, result := result, cmdDone := wrapAdd 32 t.cmdDone 1 })
  makeRecord s.chairHalf 0x29 (if op = 6 then 0xFF else s.twc.cmdBerth) (payCommand op result) s

/-- The boot chain runs: the acting chair half has not left BOOT (R529). -/
def booting (s : State) : Bool := (s.half s.chairHalf).chair = .boot

/-- A command that is written while none runs: refused while the boot chain runs, else handled. A command that was
written to TWC_CMD and reads its argument from the host goes on when the argument has come (notes/assumptions/49.md). -/
def operatorCmd (op berth : Nat) (f : State → State) (s : State) : State :=
  if !s.on then s
  else if s.twc.cmdBusy && s.twc.cmdAwait && s.twc.lastOp = op && s.twc.cmdBerth = berth then
    f (s.modTwc (fun t => { t with cmdAwait := false }))
  else if s.twc.cmdBusy then s
  else
    let s := beginCmd op berth s
    if booting s then finishCmd 0xFF s else f s

/-! ### Part reset (R465, R497, R509, R489, R529) -/

/-- What a part reset leaves of one half's controller: its clock, its record count. -/
def resetHalf (h : TwcHalf) : TwcHalf := { us := h.us, recSeq := h.recSeq }

/-- GLB after a part reset: fence state, running clocks, the MSI-X table and the HDM decoders stay. -/
def resetGlb (s : State) (trip : Bool) : Glb :=
  { h0Fenced := s.glb.h0Fenced, h1Fenced := s.glb.h1Fenced, chair := s.glb.chair
    rootLock := s.glb.rootLock, sOnRoot := s.glb.sOnRoot
    trip := trip, tripSensor := if trip then s.glb.tripSensor else 0, uvEvents := s.trec.uvEvents, trips := s.trec.trips
    msix := s.glb.msix, msixEnable := s.glb.msixEnable, msixFmask := s.glb.msixFmask, cxl := s.glb.cxl
    hdm := mapTbl {} (fun (d : Hdm) => { d with bindBerth := 0, bindValid := false, bindVbase := 0 }) s.glb.hdm }

/-- A part reset; `trip` where the trip stays latched (R521). Both halves run the boot chain from stage 1. -/
def partReset (trip : Bool) (s : State) : State :=
  { State.reset with
    glb := resetGlb s trip
    clk := { s.clk with relockFailed := false }
    shelf := s.shelf
    stks := if trip then mapTbl {} (fun (k : Stack) => ({ temp := k.temp } : Stack)) s.stks else []
    clusters := if trip then mapTbl {} (fun (c : Cluster) => ({ temp := c.temp } : Cluster)) s.clusters else []
    twcH := mapTbl {} resetHalf s.twcH
    sec := { secverMin := s.sec.secverMin, seq := s.trec.seq, refused := s.trec.refused, operKeys := s.trec.operKeys
             custKeys := s.trec.custKeys, provisioned := s.trec.operKeys.isSome && s.trec.custKeys.isSome }
    trec := s.trec
    berths := mapTbl {} restBerth s.berths
    mem := keptMem s.mem, units := keptUnits s.units, pageLast := s.pageLast.filter (fun p => decide (p.1 ≥ 2 ^ 23))
    trays := keptTrays s.trays, moor := keptMoor s.moor, moorUnits := keptMoorUnits s.moorUnits
    readySeq := s.readySeq, fresh := s.fresh, out := s.out, pending := s.pending }

/-- Every sensor reads 85 °C or below. -/
def allCool (s : State) : Bool :=
  s.stks.all (fun k => decide (k.2.temp ≤ quarter 85)) && s.clusters.all (fun c => decide (c.2.temp ≤ quarter 85))

/-- A part reset waits: a commit that has begun, or a landed kernel, completes first, unless a relock has failed (R46,
R64; notes/assumptions/84.md). -/
def resetHeld (s : State) : Bool :=
  !s.clk.relockFailed && s.runs.any (fun r => r.2.phase = .committing || r.2.landed)

/-- The part reset of a fundamental reset, and the function's PCI state with it. -/
def fundamental (s : State) : State :=
  (partReset (s.glb.trip && !allCool s) s).modGlb (fun g =>
    { g with msix := [], msixEnable := false, msixFmask := false, hdm := [], cxl := {} })

/-- The operator's RESET: it makes no command-done record. -/
def execReset (s : State) : Res :=
  if !s.on || s.twc.cmdBusy then .next s
  else if booting s || (s.glb.trip && !allCool s) then
    .next (s.modTwc (fun t => { t with lastOp := 7, result := 0xFF, cmdDone := wrapAdd 32 t.cmdDone 1 }))
  else if resetHeld s then .next (s.modTwc (fun t => { t with cmdBusy := true, lastOp := 7, resetWait := 1 }))
  else .next (partReset false s)

/-- A fundamental reset through the XZL-H16. -/
def execFundamentalReset (s : State) : Res :=
  if !s.on then .next s
  else if resetHeld s then .next (s.modTwc (fun t => { t with resetWait := 2 }))
  else .next (fundamental s)

/-- A part reset that waited for commits takes place. -/
def tryReset (s : State) : State :=
  if s.twc.resetWait = 0 ∨ !s.on ∨ resetHeld s then s
  else if s.twc.resetWait = 2 then fundamental s
  else partReset false s

/-! ### The boot chain (Table 20.2) -/

/-- SECVER_MIN of an image type: as shipped, or as raised since. -/
def secverMin (s : State) (type : Nat) : Nat := max (Config.secverFused type).toNat (look 0 s.sec.secverMin type)

/-- Header bytes 0..63 of a firmware image (Table 20.1). -/
def headerBytes (f : Firmware) : List Byte :=
  leBytes 4 f.magic ++ leBytes 1 f.type ++ leBytes 1 f.keysel ++ leBytes 1 (boolNat f.raise) ++ leBytes 1 0 ++
    leBytes 4 f.secver ++ leBytes 4 f.payload.length ++ leBytes 48 f.digest.toNat

/-- An image is accepted (R472). -/
def accepts (s : State) (type : Nat) (f : Firmware) : Bool :=
  f.magic = 0x57465A58 && f.type = type && decide (f.keysel < 4) && !Config.slotRevoked f.keysel &&
    decide (f.secver ≥ secverMin s type) && f.digest = Config.sha384 f.payload &&
    Config.edVerify (Config.vendorEd f.keysel) (headerBytes f) f.sigEd &&
    Config.mlVerify (Config.vendorMl f.keysel) (headerBytes f) f.sigMl []

/-- Copy A, else copy B, with which of them it was. -/
def chooseCopy (s : State) (type : Nat) (a b : Firmware) : Option (Firmware × Bool) :=
  if accepts s type a then some (a, false) else if accepts s type b then some (b, true) else none

/-- Measurement Mi of a half. -/
def State.meas (s : State) (h i : Nat) : BitVec 384 := look 0 s.sec.meas (4 * h + i)

def setMeas (h i : Nat) (v : BitVec 384) (s : State) : State :=
  s.modSec (fun x => { x with meas := put 0 x.meas (4 * h + i) v })

/-- A digest measured into Mi (R473). -/
def measure (h i : Nat) (d : BitVec 384) (s : State) : State :=
  setMeas h i (Config.sha384 (leBytes 48 (s.meas h i).toNat ++ leBytes 48 d.toNat)) s

/-- An accepted image is measured, and its raise noted (R474). -/
def takeImage (h i type : Nat) (f : Firmware) (s : State) : State :=
  let s := measure h i f.digest s
  if f.raise then s.modHalf h (fun t => { t with raise := t.raise ++ [(type, f.secver)] }) else s

/-- Both copies are rejected: the half stays in its ROM. -/
def rejectRom (h : Nat) (s : State) : State :=
  report ("!ROM " ++ dec h ++ " REJECT") (s.modHalf h (fun t => { t with romReject := true }))

/-- The acting chair: half 0 unless it is fenced (Table 1.9). -/
def fencedBy (t : TRec) (h : Nat) : Bool := if h = 0 then t.fence0 else t.fence1

/-- A half claims the chair (R467). -/
def claims (s : State) (h : Nat) : Bool := (h = 0 && !s.fenced 0) || (h = 1 && s.fenced 0 && !s.fenced 1)

/-- The berths' layouts are loaded (R466); a berth newly configured has SHARE at SHARE_MIN (Table 15.7). -/
def loadLayouts (s : State) : State :=
  forEach s.trec.layouts (fun p t => t.modBerth p.1 (fun b =>
    { b with layout := p.2, share := if b.layout.configured then b.share else p.2.shareMin })) s

/-- Harbour shares as HBR_SHARE shows them (R317). -/
def loadShares (h : Nat) (s : State) : State :=
  forEach s.trec.layouts (fun p t => t.modShare h p.1 (fun k =>
    { k with share := if h = 0 then p.2.harbour0 else p.2.harbour1 })) s

/-- Stage 5: fence state, pin marks, splits, mooring ways, layouts and the ticket counters (R466). -/
def loadRecord (h : Nat) (s : State) : State :=
  let t := s.trec
  let s := setGlbHalf h (fun g => { g with
    h0Fenced := t.fence0, h1Fenced := t.fence1, chair := if t.fence0 then 1 else 0, crustSplit := t.crustSplit
    crumbSplit := t.crumbSplit, uvEvents := t.uvEvents, trips := t.trips }) s
  let s := forEach (t.pinMarks.filter (fun p => p.1 / 64 / 16 = h)) (fun p u =>
    u.modChan (p.1 / 64) (p.1 % 64) (fun c => { c with
      valid := decide (p.2.1 ≠ 0), pin := p.2.1 - 1, auto := p.2.2 })) s
  let s := s.modHarbour h (fun x => { x with moorWays := if h = 0 then t.moor0 else t.moor1 })
  let s := loadShares h (loadLayouts s)
  let s := s.modSec (fun x => { x with
    seq := t.seq, refused := t.refused, operKeys := t.operKeys, custKeys := t.custKeys
    provisioned := t.operKeys.isSome && t.custKeys.isSome })
  s.modHalf h (fun x => { x with claim := claims s h })

/-- Where the other half measured the Shelf controller's firmware, its M2 (R473). -/
def takePeerM2 (h : Nat) (s : State) : State :=
  if s.meas h 2 = 0 && (s.half h).peerHb then setMeas h 2 (s.meas (1 - h) 2) s else s

/-- The CDI of a half (R476). -/
def cdiOf (s : State) (h : Nat) : BitVec 384 :=
  Config.hmac384 Config.deviceSecret ((List.range 4).flatMap (fun i => leBytes 48 (s.meas h i).toNat))

/-- The half that loads the Shelf controller firmware in stage 4 (Table 20.2): half 0, or the half in service alone. -/
def loadsShelf (s : State) (h : Nat) : Bool := if s.trec.fence0 then h = 1 else h = 0

/-- The map is rebuilt in stage 4 of the boot chain (R355, R473): before then the Shelf controller does not run. -/
def execShelfMapRebuild (s : State) : Res :=
  .next (if s.on && s.glb.sOnRoot && [0, 1].any (fun h => loadsShelf s h && decide ((s.half h).bootStage ≥ 3)) then rebuildMap s
    else s)

/-- The action of a stage; none where the half stays in its ROM. -/
def stageAction (h n : Nat) (a b ca cb : Firmware) (s : State) : Option State :=
  match n with
  | 1 => some (s.modHalf h (fun t => { t with secretLocked := true, devKeys := true }))
  | 2 =>
    match chooseCopy s 1 a b with
    | none => none
    | some (f, second) =>
      let s := takeImage h 0 1 f s
      some (s.modSec (fun x => if h = 0 then { x with copyH0 := second } else { x with copyH1 := second }))
  | 3 =>
    match chooseCopy s 2 a b, chooseCopy s 4 ca cb with
    | some (f, _), some (g, _) => some (takeImage h 3 4 g (takeImage h 1 2 f s))
    | _, _ => none
  | 4 =>
    if loadsShelf s h then
      match chooseCopy s 3 a b with
      | none => none
      | some (f, _) =>
        some (rebuildMap (takeImage h 2 3 f s))
    else some s
  | 5 => some (loadRecord h s)
  | 6 => some (takePeerM2 h s)
  | _ =>
    some (s.modHalf h (fun t => { t with
      keyClosed := true, aliasKeys := if h = s.chairHalf then some (cdiOf s h) else none }))

/-- Interrupted commits are reported (R24, R517). -/
def reportInterrupted (s : State) : State :=
  let l := s.trec.interrupted
  let s := forEach l (fun x t =>
    makeRecord (if t.fenced (queueHalf x.1) then t.chairHalf else queueHalf x.1) 0x2A 0xFF
      (payInterrupted x.1 x.2.1 x.2.2.1 x.2.2.2) t) s
  s.modTrec (fun t => { t with interrupted := [] })

/-- The SECVER_MIN raises of a half apply (R474). -/
def applyRaises (h : Nat) (s : State) : State :=
  let l := (s.half h).raise
  let s := s.modHalf h (fun t => { t with raise := [] })
  forEach l (fun x t => t.modSec (fun y => { y with
    secverMin := put 0 y.secverMin x.1 (max x.2 (look 0 y.secverMin x.1)) })) s

/-- A half is in service: its bit in GLB_HALF_STATUS, its report. -/
def bringUp (h : Nat) (state : Chair) (s : State) : State :=
  let s := s.modHalf h (fun t => { t with chair := state })
  let s := setGlbHalf h (fun g => if h = 0 then { g with h0Up := true } else { g with h1Up := true }) s
  reportFrom h ("!BOOT " ++ dec h) s

/-- Both halves have booted, hear each other, measured the same firmware, and exactly the entitled half claims (R467). -/
def agree (s : State) : Bool :=
  [0, 1].all (fun h => (s.half h).bootStage = 7 && (s.half h).peerHb && (s.half h).claim = claims s h) &&
    s.meas 0 0 = s.meas 1 0

/-- BOOT is left for AGREED or ALONE where it can be (Table 19.7, R474). -/
def checkAgree (s : State) : State :=
  if s.fenced 0 || s.fenced 1 then
    let live := if s.fenced 0 then 1 else 0
    let s := if (s.half live).chair = .boot ∧ (s.half live).bootStage = 7 then
        settle (applyRaises live (reportInterrupted (bringUp live .alone s)))
      else s
    let dead := 1 - live
    if (s.half dead).chair = .boot ∧ (s.half dead).bootStage = 7 then
      s.modHalf dead (fun t => { t with chair := .alone, claim := false })
    else s
  else if [0, 1].any (fun h => (s.half h).chair = .boot) && [0, 1].all (fun h => (s.half h).chair ≠ .split) && agree s then
    let s := takePeerM2 1 (takePeerM2 0 s)
    let s := s.modSec (fun x => { x with measMatch := true })
    let up := fun (h : Nat) (t : State) =>
      if (t.half h).chair = .boot then bringUp h .agreed t
      else t.modHalf h (fun x => { x with chair := .agreed })
    settle (applyRaises 1 (applyRaises 0 (reportInterrupted (up 1 (up 0 s)))))
  else s

/-- A stage of a half's boot chain completes and the next one starts (R473). Stages from 3 on run on the S clock. -/
def execBootStageDone (half : Nat) (copyA copyB codecA codecB : Firmware) (s : State) : Res :=
  let t := s.half half
  let n := t.bootStage + 1
  if !s.on || t.romReject || decide (n > 7) || (decide (n ≥ 3) && !s.glb.sOnRoot) then .next s
  else match stageAction half n copyA copyB codecA codecB s with
    | none => .next (rejectRom half s)
    | some s => .next (checkAgree (s.modHalf half (fun x => { x with bootStage := n })))

/-! ### Split (R468) -/

/-- A half enters SPLIT. -/
def enterSplit (h cause : Nat) (s : State) : State :=
  let s := s.modHalf h (fun t => { t with
    chair := .split, cause := cause, splits := satAdd 32 t.splits 1, mH := s.twc.mP, migHeld := true })
  let s := killAll ((s.runs.map (·.1)).filter (fun q => queueHalf q = h)) 4 s
  let s := setGlbHalf h (fun g => { g with split := true }) s
  let s := makeRecord h 0x23 0xFF (leBytes 1 cause) s
  reportFrom h ("!SPLIT " ++ dec h ++ " " ++ dec cause) s

/-! ### Heartbeats (R467) -/

/-- Chair state as a heartbeat carries it. -/
def chairCode (c : Chair) : Nat :=
  match c with
  | .boot => 0
  | .agreed => 1
  | .split => 2
  | .alone => 3

/-- A half sends its heartbeat, once its stage 5 is done (R472, R473). -/
def execIsthmusHeartbeatSend (half : Nat) (s : State) : Res :=
  let t := s.half half
  .next (if s.on && decide (t.bootStage ≥ 5) && !t.romReject then
      s.emit (.isthmus half [boolNat t.claim, chairCode t.chair, (s.meas half 0).toNat])
    else s)

/-- A heartbeat arrives at a half. In ALONE it tests nothing, and one of a half in SPLIT is ignored (R484). -/
def execIsthmusHeartbeat (half : Nat) (claim : Bool) (chairState : Nat) (m0 : BitVec 384) (s : State) : Res :=
  let t := s.half half
  if !s.on || t.romReject || decide (t.bootStage < 5) || (t.chair = .alone && decide (chairState = 2)) then .next s
  else
    let first := t.peerM0 = none
    let s := s.modHalf half (fun x => { x with peerHb := true, peerM0 := some m0 })
    let s := if first ∧ m0 ≠ s.meas half 0 then reportFrom half "!MEAS" s else s
    .next (match t.chair with
      | .boot => checkAgree s
      | .agreed =>
        if t.claim ∧ claim then enterSplit half 1 s
        else if !t.claim ∧ !claim then enterSplit half 2 s
        else if chairState = 2 then enterSplit half 5 s
        else s
      | .split => s
      | .alone => s)

/-- No heartbeat for 32,768 S-cycles; m_h starts at the last m_p that the half received (R458). -/
def execIsthmusHeartbeatLost (half : Nat) (s : State) : Res :=
  let t := s.half half
  let s := s.modHalf half (fun x => { x with peerHb := false, mH := if x.peerHb then s.twc.mP else x.mH })
  .next (if t.chair = .agreed then enterSplit half 3 s else s)

/-- No heartbeat within 2 s of the half's boot completing. -/
def execBootHeartbeatTimeout (half : Nat) (s : State) : Res :=
  let t := s.half half
  .next (if t.chair = .boot && decide (t.bootStage = 7) && !t.peerHb && !s.fenced 0 && !s.fenced 1 then
      enterSplit half 4 s
    else s)

end Sys2Proof.Machine
end

