-- ==== Sys2Proof/Machine/Berths.lean ====
section
/-! DEFINITION. Operator commands on berths (19_tidewatch.md R464): admission (02_kernels_commit.md R61, R62), removal,
parking and restoring (14_shelf_tiers.md R358 to R361), kills. -/
namespace Sys2Proof.Machine

/-! ### What a berth uses -/

/-- The image uses something of a half: a queue, a sync object, a region or a mooring homed there, or a part-scope
region (R469). -/
def usesHalf (img : Image) (h : Nat) : Bool :=
  img.queues.any (fun q => queueHalf q.queue = h) || img.syncs.any (fun x => syncHalf x.sync = h) ||
    img.regions.any (fun r => if isHarbour r then r.home = h else r.scope = 0 || r.scope = h + 1)

/-- The image uses a fenced half. -/
def usesFenced (s : State) (img : Image) : Bool := [0, 1].any (fun h => s.fenced h && usesHalf img h)

/-- Trays that an image pins, as (core, tray), with whether each is an accumulator's. -/
def imageTrays (img : Image) : List (Nat × Nat × Bool) :=
  img.accs.flatMap (fun a => a.cores.map (fun c => (c, a.tray, true))) ++
    img.heldTrays.flatMap (fun h => h.cores.map (fun c => (c, h.tray, false)))

/-- Pages that an admission maps: those of the regions outside tier Harbour, and those of the rings that lie in no such
region (notes/assumptions/46.md), with tier and scope. -/
def imagePages (img : Image) : List (Nat × Tier × Nat) :=
  let regs := img.regions.filter (fun r => !isHarbour r)
  let named := regs.flatMap (fun r => (regionPages r).map (fun p => (p, r.initial, r.scope)))
  let rings := (img.queues.flatMap (fun q =>
    regionPages { base := q.ringBase, size := 32 * 2 ^ q.ringLog2 })).filter (fun p =>
      !named.any (fun x => x.1 = p) && !img.regions.any (fun r => isHarbour r && (regionPages r).contains p))
  (named ++ rings.map (fun p => (p, Tier.crumb, 0))).foldl (fun (l : List (Nat × Tier × Nat)) (x : Nat × Tier × Nat) =>
    if l.any (fun y => y.1 = x.1) then l else l ++ [x]) []

/-- Physical pages offered for a list of pages: as many, each mappable, no two equal. -/
def pagesFit (s : State) (want : List (Nat × Tier × Nat)) (pages : List Nat) : Bool :=
  pages.length = want.length && pages.eraseDups.length = pages.length &&
    (want.zip pages).all (fun x => mappable s x.1.2.1 x.1.2.2 false x.2)

/-- A page is mapped; one that last held another berth's data is zero-filled first (R487). -/
def mapPage (b v : Nat) (tier : Tier) (page : Nat) (s : State) : State :=
  let last := look 0 s.pageLast page
  let lo := page * 65536
  let s := if last = 0 ∨ last = b + 1 then s
    else
      let s := if tier = .shelf then forEach (pageUnits page) dropCopy s else s
      { s with mem := zeroBytes s.mem (page * 2 ^ 21) (2 ^ 21)
               delivered := s.delivered.filter (fun d => !(decide (lo ≤ d.1) && decide (d.1 < lo + 65536)))
               units := s.units.filter (fun u => !(decide (lo ≤ u.1) && decide (u.1 < lo + 65536))) }
  let s := { s with pageLast := put 0 s.pageLast page (b + 1) }
  s.modBerth b (fun t => { t with pages := put {} t.pages v { tier := tier, phys := page } })

/-! ### ADMIT -/

/-- What ends an ADMIT with 0xFF (R464, R468, R485). -/
def admitRefused (s : State) (b : Nat) (img : Image) : Bool :=
  let t := s.berth b
  !t.layout.configured || t.image.isSome || t.parkState ≠ .live || s.glb.split || !s.sec.provisioned || usesFenced s img

/-- ADMIT: the image is read, and its proof check starts (R61). -/
def execAdmit (berth : Nat) (image : Image) (s : State) : Res :=
  .next (operatorCmd 1 berth (fun t =>
    if admitRefused t berth image then finishCmd 0xFF t
    else t.modTwc (fun x => { x with pendImage := some image })) s)

/-- An admission record and vector 3. -/
def admissionDone (b reason templ decl : Nat) (s : State) : State :=
  finishCmd reason (raiseVector 3 (makeRecord s.chairHalf 0x20 b (payAdmission reason templ decl)
    (s.modTwc (fun t => { t with pendImage := none, pendPages := none, pendScrub := [] }))))

/-- A tray pinned by an image (R227, R300). -/
def pinTray (b : Nat) (x : Nat × Nat × Bool) (s : State) : State :=
  s.modTray x.1 x.2.1 (fun k => { k with owner := if x.2.2 then 0x6 else 0xA, berth := b, pinned := true, scrubbing := false })

/-- Trays that are scrubbed before an admission: those of accumulators, and held trays that last served another berth
(R300). -/
def admitScrubs (s : State) (b : Nat) (img : Image) : List (Nat × Nat) :=
  ((imageTrays img).filter (fun x => x.2.2 || (s.tray x.1 x.2.1).berth ≠ b)).map (fun x => (x.1, x.2.1))

/-- A tray's scrub for an admission starts. -/
def startScrub (b : Nat) (x : Nat × Nat) (s : State) : State :=
  s.modTray x.1 x.2 (fun k => { k with scrubbing := true, scrubFor := b })

/-- No plan of an earlier image of the berth is reused (R139). -/
def forgetPlans (b : Nat) (s : State) : State :=
  forEach (List.range 32) (fun cl t => t.modCluster cl (fun c =>
    { c with planCache := c.planCache.filter (fun k => k.berth ≠ b) })) s

/-- A declared queue's context (R35). -/
def openQueue (b : Nat) (d : QueueDecl) (s : State) : State :=
  s.setQueue d.queue { ringBase := d.ringBase, ringLog2 := d.ringLog2, berth := b, state := .idle, vector := d.vector
                       vlClass := d.vlClass }

/-- A declared sync object (R62). -/
def openSync (b : Nat) (d : SyncDecl) (s : State) : State :=
  s.setSync d.sync { value := d.initial % 2 ^ 64, berth := b, allocated := true, irqEn := d.irqEn, vector := d.vector }

/-- A declared group's record (R410). -/
def openGroup (b i : Nat) (d : GroupDecl) (s : State) : State :=
  hearAll b i (s.modGroup b i (fun _ => { group := d.group, rank := d.rank, members := d.members, quorum := d.quorum
                                          epoch := d.epoch, links := d.links }))

/-- Resident charges of an image (R307). -/
def chargeResident (b : Nat) (img : Image) (s : State) : State :=
  forEach [0, 1] (fun h t => t.modShare h b (fun k => { k with resident := residentCharge img h })) s

/-- Everything an admission writes (R62). -/
def admitImage (b : Nat) (img : Image) (pages : List Nat) (s : State) : State :=
  let s := s.modBerth b (fun t => { t with image := some img, epochs := {}, grps := [], accWritten := [] })
  let s := forEach img.queues (openQueue b) s
  let s := forEach img.syncs (openSync b) s
  let s := forEach (img.groups.zip (List.range img.groups.length)) (fun g t => openGroup b g.2 g.1 t) s
  let s := forEach ((imagePages img).zip pages) (fun x t => mapPage b x.1.1 x.1.2.1 x.2 t) s
  forgetPlans b (chargeResident b img (forEach (imageTrays img) (pinTray b) s))

/-- The admission ends: everything is written, and the command is done. -/
def finishAdmit (b : Nat) (img : Image) (pages : List Nat) (s : State) : State :=
  settle (admissionDone b 0 0 0 (admitImage b img pages s))

/-- The proof check ends. `pages` are the physical pages that the admission maps; an admission waits for them and for
the trays that it pins. -/
def execProofCheckDone (pages : List Nat) (s : State) : Res :=
  match s.twc.pendImage with
  | none => .next s
  | some img =>
    let b := s.twc.cmdBerth
    let (r, t, i) := proofCheck s b img
    if s.twc.pendScrub ≠ [] then .next s
    else if s.twc.pendPages.isNone ∧ r ≠ 0 then .next (admissionDone b r t i s)
    else if !pagesFit s (imagePages img) pages || !(imageTrays img).all (fun x => (s.tray x.1 x.2.1).owner = 0) then .next s
    else if s.twc.pendPages.isSome ∨ admitScrubs s b img = [] then .next (finishAdmit b img pages s)
    else
      let todo := admitScrubs s b img
      .next (forEach todo (startScrub b) (s.modTwc (fun x => { x with pendPages := some pages, pendScrub := todo })))

/-- A scrub for a waiting admission is done; after the last one the image is admitted (R300). -/
def tryAdmit (core tray : Nat) (s : State) : State :=
  if !s.twc.pendScrub.contains (core, tray) then s
  else
    let s := s.modTwc (fun x => { x with pendScrub := x.pendScrub.filter (· ≠ (core, tray)) })
    match s.twc.pendImage, s.twc.pendPages with
    | some img, some pages =>
      if s.twc.pendScrub = [] ∧ pagesFit s (imagePages img) pages then finishAdmit s.twc.cmdBerth img pages s else s
    | _, _ => s

/-- A tray scrub completes (R300, R301): every row is zero and BERTH names the berth it was scrubbed for; a run's
engines start with the last scrub of its trays, and an admission ends with the last scrub of its own. -/
def execTrayScrubDone (core tray : Nat) (s : State) : Res :=
  if (s.tray core tray).scrubbing then
    let s := s.modTray core tray (fun k => { k with scrubbing := false, scrubFor := 0, berth := k.scrubFor })
    let s := { s with trays := zeroBytes s.trays (trayKey core tray 0) 131072 }
    .next (tryAdmit core tray (match (s.core core).crew with
      | some q => startIdle q s
      | none => s))
  else .next s

/-! ### REMOVE -/

/-- A tray of a berth is released; one that another berth's kernel holds stays with it. -/
def releaseTray (b c k : Nat) (s : State) : State :=
  (forEach (trayUnits b c k) dropCopy s).modTray c k (fun y =>
    if y.parkedBy = some b ∧ y.owner ≠ 0x9 then { y with parkedBy := none, pinned := false }
    else { y with owner := 0, pinned := false, parkedBy := none, scrubbing := false })

/-- Mooring keys of a berth. -/
def moorMine (b : Nat) (k : Nat) : Bool := decide (b * 2 ^ 48 ≤ k) && decide (k < (b + 1) * 2 ^ 48)

/-- The berth's mooring lines are freed. -/
def freeMoorings (b : Nat) (s : State) : State :=
  let s := forEach [0, 1] (fun h t => t.modHarbour h (fun x => { x with lines := x.lines.filter (fun k => !moorMine b k) })) s
  { s with moor := s.moor.filter (fun c => !moorMine b c.1)
           moorUnits := s.moorUnits.filter (fun u => !moorMine b (u.1 * 32)) }

/-- The berth's queues and sync objects go back to no image (R35, R62). -/
def closeUnits (b : Nat) (s : State) : State :=
  let img := s.imageOf b
  let s := forEach img.queues (fun d t =>
    let t := forEach (t.run d.queue).traysOut (fun p u => returnTray p.1 p.2 u) t
    (t.setRun d.queue {}).setQueue d.queue {}) s
  forEach img.syncs (fun d t => t.setSync d.sync {}) s

/-- Queued migrations of a berth go. -/
def dropMigrations (b : Nat) (s : State) : State :=
  forEach [0, 1] (fun h t => t.modHalf h (fun x => { x with migQ := x.migQ.filter (fun r => r.berth ≠ b) })) s

/-- Nothing of the berth is still in progress: no commit, no landed collective, no migration. -/
def berthQuiet (s : State) (b : Nat) : Bool :=
  !((berthQueues s b).any (fun q => (s.run q).phase = .committing || (s.run q).landed)) &&
    !(([0, 1] : List Nat).any (fun h => match (s.half h).migRun with
      | some r => r.berth = b
      | none => false))

/-- Everything the image holds is freed. A restoring berth goes back to its park record. -/
def freeBerth (b : Nat) (s : State) : State :=
  let img := s.imageOf b
  let s := closeUnits b (dropMigrations b s)
  let s := forEach (imageTrays img) (fun x t => releaseTray b x.1 x.2.1 t) s
  let s := freeMoorings b s
  let s := forEach [0, 1] (fun h t => t.modShare h b (fun k => { k with resident := 0, scratch := 0, waiting := false })) s
  let s := s.modBerth b (fun t => { t with
    image := if t.parkRec.isSome then t.image else none
    parkState := if t.parkRec.isSome then .parked else .live
    pages := match t.parkRec with
      | some r => parkedPages r t.pages
      | none => []
    epochs := {}, grps := [], accWritten := [], retQ := [], retDest := [], active := false, removing := 0 })
  settle s

/-- A removal that waits for its commits goes on (R46): the command ends, or a fence's removal is reported (R484). -/
def tryRemove (b : Nat) (s : State) : State :=
  let w := (s.berth b).removing
  if w = 0 ∨ !berthQuiet s b then s
  else
    let s := freeBerth b s
    if w = 1 then finishCmd 0 s else makeRecord s.chairHalf 0x29 b (payCommand 2 0) s

/-- A berth's removal starts: its kernels are killed. -/
def beginRemove (b why detail : Nat) (s : State) : State :=
  let s := s.modBerth b (fun t => { t with removing := why })
  tryRemove b (killAll (berthQueues s b) detail s)

def execRemove (berth : Nat) (s : State) : Res :=
  .next (operatorCmd 2 berth (fun t =>
    if (t.berth berth).image = none ∨ (t.berth berth).parkState ≠ .live ∨ (t.berth berth).removing ≠ 0 then finishCmd 0xFF t
    else beginRemove berth 1 7 t) s)

/-! ### PARK (Table 14.2) -/

/-- Queued migrations of a parking berth are dropped and counted (R359). -/
def parkDrop (b : Nat) (s : State) : State :=
  let n := ([0, 1].map (fun h => ((s.half h).migQ.filter (fun r => r.berth = b)).length)).foldl (· + ·) 0
  dropMigrations b (s.modBerth b (fun t => { t with migDrop := satAdd 32 t.migDrop n }))

/-- Steps 1 and 2: fetching stops, open request slots close, kernels are killed, the members of its groups are told,
queued migrations are dropped. -/
def beginPark (b : Nat) (byFence : Bool) (s : State) : State :=
  let us := (s.half (partHalf s)).us
  let s := parkDrop b (s.modBerth b (fun t => { t with parkState := .parking, parkStart := us, fenceParked := byFence }))
  let s := killAll (berthQueues s b) 3 s
  let s := forEach ((s.berth b).reqs.map (·.1)) (fun k t => closeReq b k true t) s
  forEach ((s.berth b).grps.map (·.1)) (fun i t => tellRanks b i 0x03 (allRanks (t.group b i)) id t) s

/-- The lowest free Shelf page from a page on; the fuel bounds the search. -/
def freeShelfPage (s : State) : Nat → Nat → Option Nat
  | 0, _ => none
  | k + 1, p => if mappable s .shelf 0 false p then some p else freeShelfPage s k (p + 1)

/-- A page is written to the Shelf, or is out of reach and returns lost (R322, R360); its copy's page and the bytes
written. -/
def parkPage (b v : Nat) (s : State) : State × Option (Nat × Nat × Tier) × Nat :=
  let p := look {} (s.berth b).pages v
  let entry := fun (page : Nat) => (v, page, if p.tier = .park then p.home else p.tier)
  if p.tier = .park ∨ p.shelfCopy then (s, some (entry (if p.tier = .park then p.phys else p.copyAt)), 0)
  else
    match freeShelfPage s ((pagesUsed s).length + s.trec.retired.length + 1) (2 ^ 23) with
    | none => (s, none, 0)
    | some page =>
      let dead := s.unreachable (p.phys * 2 ^ 21)
      let s := { copyPage p.phys page s with pageLast := put 0 s.pageLast page (b + 1) }
      let s := if dead then s else forEach (pageUnits page) (programUnit true) s
      let s := s.modPage b v (fun x => { x with shelfCopy := true, copyAt := page })
      (s, some (entry page), if dead then 0 else 2 ^ 21)

/-- Pages that a park writes: those in Crust, then those in Crumb, by virtual address; pages still in the park area keep
their place in the list. -/
def parkOrder (t : Berth) : List Nat :=
  let at_ := fun (x : Tier) => (t.pages.filter (fun p => p.2.tier = x || (p.2.tier = .park && p.2.home = x))).map (·.1)
  at_ .crust ++ at_ .crumb

/-- A pinned tray of the berth as its bytes stand: on its core, or already on the Shelf. -/
def trayBytes (s : State) (b c k : Nat) : List Byte :=
  if (s.tray c k).parkedBy = some b then rdBytes s.trays (parkKey b c k) 131072 else rdBytes s.trays (trayKey c k 0) 131072

/-- Where mooring bytes of a park record stand. -/
def recMoor (b k : Nat) : Nat := k - b * 2 ^ 48 + (b + 32) * 2 ^ 48

/-- The mooring bytes and marks of a berth copied into its park record. -/
def copyMoorings (b : Nat) (s : State) : State :=
  { s with
    moor := (s.moor.filter (fun c => moorMine b c.1)).foldl
      (fun m (c : Nat × Byte) => wrByte m (recMoor b c.1) c.2) (s.moor.filter (fun c => !moorMine (b + 32) c.1))
    moorUnits := (s.moorUnits.filter (fun u => moorMine b (u.1 * 32))).foldl
      (fun m (u : Nat × UnitSt) => put .good m (recMoor b (u.1 * 32) / 32) .poison)
      (s.moorUnits.filter (fun u => !moorMine (b + 32) (u.1 * 32))) }

/-- Allotted mooring lines of a berth, by half. -/
def berthLines (s : State) (b : Nat) : List (Nat × Nat) :=
  [0, 1].flatMap (fun h => ((s.harbour h).lines.filter (moorMine b)).map (fun k => (h, k)))

/-- Pages of a berth that a park writes: those without a current Shelf copy. -/
def parkWrites (s : State) (b : Nat) : List Nat :=
  (parkOrder (s.berth b)).filter (fun v =>
    let p := look {} (s.berth b).pages v
    p.tier ≠ .park && !p.shelfCopy)

/-- Logical pages of the Shelf that nothing takes. -/
def shelfRoom (s : State) : Nat :=
  let taken := (pagesUsed s ++ s.trec.retired).filter (fun p => decide (p ≥ 2 ^ 23))
  2 ^ 23 - taken.eraseDups.length

/-- A park may complete: the Shelf serves (R355) and has room, its kernels' trays have returned, its commits and migrations
have ended. -/
def parkReady (s : State) (b : Nat) : Bool :=
  (s.berth b).parkState = .parking && berthQuiet s b && (berthQueues s b).all (fun q => (s.run q).traysOut = []) &&
    s.shelf.mapReady && decide ((parkWrites s b).length ≤ shelfRoom s)

/-- Shelf units that a park record takes: trays, mooring lines and the record itself (R359; notes/assumptions/42.md). -/
def recSize (trays lines : Nat) : Nat := cdiv (131072 * trays + 256 * lines) 65536 + 1

/-- Steps 3 to 6: trays, mooring lines and pages are written, then the record; everything is released. -/
def finishPark (b : Nat) (s : State) : State :=
  let s := parkDrop b s
  let img := s.imageOf b
  let trays := (imageTrays img).map (fun x => (x.1, x.2.1))
  let lines := berthLines s b
  let s := forEach trays (fun x t =>
    let bs := trayBytes t b x.1 x.2
    { t with trays := wrBytes (zeroBytes t.trays (recKey b x.1 x.2) 131072) (recKey b x.1 x.2) bs }) s
  let s := copyMoorings b s
  let step := fun (acc : State × List (Nat × Nat × Tier) × Nat) (v : Nat) =>
    let r := parkPage b v acc.1
    (r.1, acc.2.1 ++ r.2.1.toList, acc.2.2 + r.2.2)
  let (s, pages, written) := (parkOrder (s.berth b)).foldl step (s, [], 0)
  let s := forEach (recUnits b (recSize trays.length lines.length)) (programUnit true) s
  let t := s.berth b
  let rec_ : ParkRec := {
    queues := img.queues.map (fun d => (d.queue, s.queue d.queue))
    runs := (berthQueues s b).map (fun q => (q, s.run q))
    syncs := img.syncs.map (fun d => (d.sync, s.sync d.sync))
    slots := t.slots, wideKept := t.wideKept, wideKeptCount := t.wideKeptCount, epochs := t.epochs, grps := t.grps
    trays := trays, pages := pages, lines := lines }
  let bytes := 131072 * trays.length + 256 * lines.length + written
  let ms := ((s.half (partHalf s)).us - t.parkStart) / 1000
  let s := forEach trays (fun x u => releaseTray b x.1 x.2 u) s
  let s := freeMoorings b (closeUnits b s)
  let s := forEach [0, 1] (fun h u => u.modShare h b (fun k => { k with resident := 0, scratch := 0, waiting := false })) s
  let s := s.modBerth b (fun u => { u with
    parkState := .parked, parkMs := min ms (2 ^ 32 - 1), parkBytes := bytes, parkRec := some rec_
    pages := parkedPages rec_ u.pages, grps := [], accWritten := [], retQ := [], retDest := [], active := false })
  let s := s.modTrec (fun u => { u with parks := (u.parks ++ [b]).eraseDups })
  settle (shelfFlags (raiseVector 4 (makeRecord s.chairHalf 0x22 b (payPark false bytes ms) s)))

/-- What ends a PARK with 0xFF. -/
def parkRefused (s : State) (b : Nat) : Bool :=
  let t := s.berth b
  t.image = none || t.parkState ≠ .live || t.removing ≠ 0 || s.glb.split || usesFenced s (s.imageOf b)

def execPark (berth : Nat) (s : State) : Res :=
  .next (operatorCmd 3 berth (fun t => if parkRefused t berth then finishCmd 0xFF t else beginPark berth false t) s)

/-! ### RESTORE (R361) -/

/-- Trays of a park record can return: none is pinned by another image. -/
def traysReturn (s : State) (b : Nat) (r : ParkRec) : Bool :=
  r.trays.all (fun x => !((s.tray x.1 x.2).pinned && (s.tray x.1 x.2).berth ≠ b))

/-- Pages that a park record returns, with tier and scope. -/
def returnPages (s : State) (b : Nat) (r : ParkRec) : List (Nat × Tier × Nat) :=
  r.pages.map (fun p => (p.1, p.2.2, scopeOf s b p.1))

/-- What ends a RESTORE with 0xFF whatever pages are offered. -/
def restoreBarred (s : State) (b : Nat) : Bool :=
  let t := s.berth b
  match t.parkRec with
  | none => true
  | some r => t.parkState ≠ .parked || t.fenceParked || s.glb.split || usesFenced s (s.imageOf b) || !traysReturn s b r

/-- What ends a RESTORE with 0xFF. -/
def restoreRefused (s : State) (b : Nat) (pages : List Nat) : Bool :=
  restoreBarred s b || (s.berth b).parkRec.any (fun r => !pagesFit s (returnPages s b r) pages)

/-- A pinned tray comes back: to its core where it is free, else it waits on the Shelf as a parked one (R376). -/
def returnPinned (b c k : Nat) (s : State) : State :=
  let bs := rdBytes s.trays (recKey b c k) 131072
  let y := s.tray c k
  if y.owner = 0 then
    let s := { s with trays := wrBytes (zeroBytes s.trays (trayKey c k 0) 131072) (trayKey c k 0) bs }
    let o := pinnedOwner s b c k
    s.modTray c k (fun z => { z with owner := o, berth := b, pinned := true, parkedBy := none, scrubbing := false })
  else
    let s := { s with trays := wrBytes (zeroBytes s.trays (parkKey b c k) 131072) (parkKey b c k) bs }
    let s := forEach (trayUnits b c k) (programUnit true) s
    s.modTray c k (fun z => { z with pinned := true, parkedBy := some b })

/-- Steps 1 and 2: the tide-plane state, the trays and the mooring lines return; the berth admits kernels. -/
def reload (b : Nat) (r : ParkRec) (pages : List Nat) (s : State) : State :=
  let s := forEach r.queues (fun x t => t.setQueue x.1 x.2) s
  let s := forEach r.runs (fun x t => t.setRun x.1 x.2) s
  let s := forEach r.syncs (fun x t => t.setSync x.1 x.2) s
  let s := forEach r.trays (fun x t => returnPinned b x.1 x.2 t) s
  let s := forEach r.lines (fun x t => t.modHarbour x.1 (fun h => { h with lines := h.lines ++ [x.2] })) s
  let mine := s.moor.filter (fun c => moorMine (b + 32) c.1)
  let marks := s.moorUnits.filter (fun u => moorMine (b + 32) (u.1 * 32))
  let s := { s with
    moor := mine.foldl (fun m (c : Nat × Byte) => wrByte m (c.1 - 32 * 2 ^ 48) c.2) s.moor
    moorUnits := marks.foldl (fun m (u : Nat × UnitSt) => put .good m (u.1 - 2 ^ 48) .poison) s.moorUnits }
  let s := chargeResident b (s.imageOf b) s
  let us := (s.half (partHalf s)).us
  let s := s.modBerth b (fun t => { t with
    parkState := .restoring, parkStart := us, slots := r.slots, wideKept := r.wideKept, wideKeptCount := r.wideKeptCount
    epochs := r.epochs, grps := r.grps, retQ := r.pages.map (·.1)
    retDest := (r.pages.map (·.1)).zip pages })
  forEach ((s.berth b).grps.map (·.1)) (fun i t => hearAll b i t) s

/-- The last page has returned: the record is used up and the command ends. -/
def finishRestore (b : Nat) (s : State) : State :=
  let t := s.berth b
  let bytes := match t.parkRec with
    | some r => 131072 * r.trays.length + 256 * r.lines.length + 2 ^ 21 * r.pages.length
    | none => 0
  let ms := ((s.half (partHalf s)).us - t.parkStart) / 1000
  let s := s.modBerth b (fun u => { u with parkState := .live, parkRec := none, retDest := [] })
  let s := s.modTrec (fun u => { u with parks := u.parks.filter (· ≠ b) })
  let s := match t.parkRec with
    | some r => forEach (recUnits b (recSize r.trays.length r.lines.length)) dropCopy s
    | none => s
  finishCmd 0 (raiseVector 4 (makeRecord s.chairHalf 0x22 b (payPark true bytes ms) s))

def execRestore (berth : Nat) (pages : List Nat) (s : State) : Res :=
  .next (operatorCmd 4 berth (fun t =>
    match (t.berth berth).parkRec with
    | some r =>
      if restoreRefused t berth pages then finishCmd 0xFF t
      else
        let t := reload berth r pages t
        settle (if r.pages = [] then finishRestore berth t else t)
    | none => finishCmd 0xFF t) s)

/-- The next page of a restoring berth returns (R361); its Shelf copy stays current. A page whose place was retired, with
no spare left for it, waits (R348). -/
def execRestorePageReturn (berth vpage : Nat) (s : State) : Res :=
  let t := s.berth berth
  match t.retQ with
  | v :: rest =>
    if t.parkState = .restoring ∧ v = vpage ∧ s.shelf.mapReady then
      let p := look {} t.pages v
      let dest := ((t.retDest.find? (fun x => x.1 = v)).map (·.2)).getD 0
      if s.trec.retired.contains dest then .next s
      else
      let s := { copyPage p.phys dest s with pageLast := put 0 s.pageLast dest (berth + 1) }
      let s := forEach (pageUnits p.phys) readUnit s
      let s := s.modPage berth v (fun x => { x with tier := x.home, phys := dest, shelfCopy := true, copyAt := p.phys })
      let s := s.modBerth berth (fun x => { x with retQ := rest, retDest := x.retDest.filter (fun y => y.1 ≠ v) })
      .next (if rest = [] then finishRestore berth s else s)
    else .next s
  | [] => .next s

/-! ### KILL_QUEUE -/

/-- The operator's kill of a queue's current kernel (R464). -/
def execKillQueue (berth queue : Nat) (s : State) : Res :=
  .next (operatorCmd 5 berth (fun t =>
    if (t.queue queue).berth ≠ berth ∨ (t.queue queue).state = .disabled then finishCmd 0xFF t
    else finishCmd 0 (killQueue queue 7 t)) s)

end Sys2Proof.Machine
end

