-- ==== Sys2Proof/Machine/Fence.lean ====
section
/-! DEFINITION. Fencing and unfencing a half (19_tidewatch.md R469; 20_security.md R484), and the end of a port's draining
(16_causeway.md R390, R407). -/
namespace Sys2Proof.Machine

/-! ### Fencing (R469) -/

/-- A kernel has a crew core, a codec job or a Longshore engine on a half (R469). -/
def worksOn (s : State) (h q : Nat) : Bool :=
  (s.run q).crew.any (fun c => coreHalf c = h) ||
    s.codecs.any (fun e => e.1 / 4 = h && e.2.busy && e.2.queue = q) ||
    s.lsh.any (fun e => e.1 / 4 = h && e.2.busy && e.2.queue = q)

def halfPorts (h : Nat) : List Nat := (List.range 32).map (· + 32 * h)

/-- The chair states after a fence: the half in service alone, the fenced one without claim; a half in SPLIT that hears
nothing stays there until it applies the ticket itself (R484). -/
def aloneChairs (h : Nat) (s : State) : State :=
  let deaf := (s.half h).chair = .split && !(s.half h).peerHb
  let s := if deaf then s else s.modHalf h (fun t => { t with chair := .alone, claim := false })
  s.modHalf (1 - h) (fun t => { t with claim := true, migHeld := false })

/-- Step 4: the half leaves service. -/
def removeHalf (h : Nat) (s : State) : State :=
  let s := s.modTwc (fun t => { t with fencing := none })
  let s := s.modTrec (fun t => if h = 0 then { t with fence0 := true } else { t with fence1 := true })
  let s := setGlbHalf (1 - h) (fun g =>
    if h = 0 then { g with h0Fenced := true, h0Up := false, chair := 1, split := false }
    else { g with h1Fenced := true, h1Up := false, chair := 0, split := false }) s
  let s := reportFrom (1 - h) ("!FENCE " ++ dec h) (linkLost (aloneChairs h s))
  let live := 1 - h
  let s := if (s.half live).chair = .alone then s else applyRaises live (bringUp live .alone s)
  settle (startMig live s)

/-- Some berth still parks, or is still being removed, for the fence. -/
def fenceWaits (s : State) : Bool :=
  s.berths.any (fun b => (b.2.parkState = .parking && b.2.fenceParked) || b.2.removing = 2)

/-- A commit that has begun, or a landed collective, still works on the half. -/
def halfWorks (s : State) (h : Nat) : Bool :=
  s.runs.any (fun p => (p.2.phase = .committing || p.2.landed) && (queueHalf p.1 = h || worksOn s h p.1))

/-- The fence goes on as far as it can: step 2 and 3 after the parks, step 4 after the drains. -/
def fenceStep (s : State) : State :=
  match s.twc.fencing with
  | none => s
  | some (h, draining) =>
    if fenceWaits s then s
    else
      let s := if draining then s
        else
          let s := killAll ((s.runs.map (·.1)).filter (worksOn s h)) 8 s
          let s := s.modTwc (fun t => { t with fencing := some (h, true) })
          forEach (halfPorts h) drainPort s
      if (halfPorts h).all (fun p => (s.port p).state = .off) && !halfWorks s h then removeHalf h s else s

/-- A fence ticket starts; `lost` where the heartbeats are lost, so that what it would park is removed (R484). -/
def beginFence (h : Nat) (lost : Bool) (s : State) : State :=
  let hit := (s.berths.filter (fun b => b.2.parkState ≠ .parked && (match b.2.image with
    | some img => usesHalf img h
    | none => false))).map (·.1)
  let s := s.modTwc (fun t => { t with fencing := some (h, false) })
  let s := if lost then forEach hit (fun b t => beginRemove b 2 8 t) s else forEach hit (fun b t => beginPark b true t) s
  fenceStep s

/-- The half that a fence ticket names takes itself out of service (R484): its kernels have ended with the split. -/
def fenceSelf (h : Nat) (s : State) : State :=
  let s := forEach (halfPorts h) (fun p t => portOff p t) s
  let s := setGlbHalf h (fun g =>
    if h = 0 then { g with h0Fenced := true, h0Up := false, chair := 1 } else { g with h1Fenced := true, h1Up := false }) s
  let s := s.modTrec (fun t => if h = 0 then { t with fence0 := true } else { t with fence1 := true })
  reportFrom h ("!FENCE " ++ dec h) (s.modHalf h (fun t => { t with chair := .alone, claim := false }))

/-! ### Unfencing -/

/-- The half's boot chain starts; its ports train; its routing table takes the other's entries (R408, R469). -/
def unfenceHalf (h : Nat) (s : State) : State :=
  let s := s.modTrec (fun t => if h = 0 then { t with fence0 := false } else { t with fence1 := false })
  let s := setGlbHalf (1 - h) (fun g =>
    if h = 0 then { g with h0Fenced := false, chair := 0 } else { g with h1Fenced := false }) s
  let s := s.modHalf h (fun t => { resetHalf t with peerHb := t.peerHb, keyClosed := t.keyClosed, secretLocked := t.secretLocked
                                                    devKeys := t.devKeys, lostMs := t.lostMs, heartbeatMs := t.heartbeatMs
                                                    reformMs := t.reformMs, fCap := t.fCap, sCap := t.sCap, kCap := t.kCap
                                                    loops := t.loops, overruns := t.overruns, cause := t.cause
                                                    splits := t.splits })
  let s := s.modHalf (1 - h) (fun t => { t with peerM0 := none, claim := claims s (1 - h) })
  let s := forEach (List.range 4) (fun i t => setMeas h i 0 t) s
  let mine := s.cwy.routes.filter (fun r => r.1 / 2 ^ 19 = 1 - h)
  let s := s.modCwy (fun c => { c with routes := mine.foldl (fun t (r : Nat × Route) =>
    put {} t (h * 2 ^ 19 + r.1 % 2 ^ 19) r.2) (c.routes.filter (fun r => r.1 / 2 ^ 19 = 1 - h)) })
  let s := { s with berths := mapTbl {} (fun b => { b with fenceParked := false }) s.berths }
  let s := forEach (halfPorts h) trainPort (linkLost s)
  settle (reportFrom (1 - h) ("!UNFENCE " ++ dec h) s)

/-! ### The end of a drain -/

/-- A draining port has sent what it held, or its 50 us have passed: it goes off, and what waited for it goes on. -/
def execDrainEnd (port : Nat) (s : State) : Res :=
  match s.twc.fencing with
  | some (h, true) =>
    if portHalf port = h ∧ (s.port port).state = .draining then .next (fenceStep (checkGating (portOff port s)))
    else .next (endDrain port s)
  | _ => .next (endDrain port s)

/-- The last step of a park (R359): the command ends, or the fence that ordered it goes on. -/
def execParkComplete (berth : Nat) (s : State) : Res :=
  if parkReady s berth then
    let s := finishPark berth s
    .next (if (s.berth berth).fenceParked then fenceStep s else finishCmd 0 s)
  else .next s

end Sys2Proof.Machine
end

