-- ==== Sys2Proof/Machine/Security.lean ====
section
/-! DEFINITION. Identity and attestation (20_security.md R476 to R478), countersigned change (R479 to R486). -/
namespace Sys2Proof.Machine

/-! ### Tickets as bytes (R479) -/

/-- Body bytes (Table 20.4); reserved bytes are 0. -/
def bodyBytes (b : TicketBody) : List Byte :=
  leBytes 4 b.magic ++ leBytes 1 b.action ++ leBytes 3 0 ++ leBytes 16 b.target.toNat ++ leBytes 8 b.seq ++
    leBytes 4 b.payload.length ++ leBytes 28 0 ++ b.payload

/-- The digest D. -/
def ticketDigest (b : TicketBody) : BitVec 384 := Config.sha384 (bodyBytes b)

/-- SEC_DEV_TAG: the first 16 bytes of SHA-384 of the device Ed25519 public key (R476). -/
def devTag : BitVec 128 :=
  (Config.sha384 (leBytes 32 (Config.edPublic (Config.hmac384 Config.deviceSecret (ascii "devid-ed25519"))).toNat)).truncate 128

/-- Both signatures of a half-ticket under a party's keys (R479). -/
def signedBy (k : KeyPair) (ht : HalfTicket) : Bool :=
  let d := leBytes 48 (ticketDigest ht.body).toNat
  Config.edVerify k.ed (leBytes 1 ht.party ++ d) ht.sigEd &&
    Config.mlVerify k.ml d ht.sigMl (ascii (if ht.party = 1 then "operator" else "custodian"))

/-! ### Payloads (Table 20.5, Table 20.6) -/

/-- Little-endian field of n bytes at a byte offset. -/
def payAt (p : List Byte) (off n : Nat) : Nat := leNat ((p.drop off).take n)

/-- Berths in a LAYOUT's mask. -/
def maskBerths (p : List Byte) : List Nat := (List.range 32).filter (fun b => bit (payAt p 8 4) b)

/-- One berth entry, from its 128 bytes. -/
def entryOf (e : List Byte) : Layout :=
  { configured := payAt e 96 1 = 1, cores := BitVec.ofNat 256 (payAt e 0 32)
    shareMin := payAt e 32 2, shareMax := payAt e 34 2, ration := payAt e 36 2
    harbour0 := payAt e 38 2, harbour1 := payAt e 40 2
    quotas := (List.range 7).map (fun k => payAt e (44 + 4 * k) 4)
    parkRes := payAt e 72 4, qbase := payAt e 76 4, qcount := payAt e 80 4, sbase := payAt e 84 2, scount := payAt e 86 2
    vbase := payAt e 88 2, vcount := payAt e 90 2, templates := payAt e 92 2, reqSlots := payAt e 94 2 }

/-- Every byte of an entry that the table does not name is 0, and Configured is 0 or 1. -/
def entryForm (e : List Byte) : Bool :=
  decide (payAt e 96 1 ≤ 1) && payAt e 42 2 = 0 && payAt e 97 31 = 0

/-- The entries of a LAYOUT with their berths. -/
def layoutEntries (p : List Byte) : List (Nat × List Byte) :=
  (maskBerths p).zip ((List.range (maskBerths p).length).map (fun i => (p.drop (16 + 128 * i)).take 128))

/-- Layouts that a LAYOUT would leave. -/
def resulting (s : State) (p : List Byte) : Tbl Layout :=
  (layoutEntries p).foldl (fun t e => put {} t e.1 (if payAt e.2 96 1 = 1 then entryOf e.2 else {})) s.trec.layouts

/-- Two ranges given by base and count have no number in common. -/
def apart (a n b m : Nat) : Bool := n = 0 || m = 0 || decide (a + n ≤ b) || decide (b + m ≤ a)

/-- Pages of quota k in the stacks and the Shelf under splits (R347; Table 13.5). -/
def tierCapacity (crustSplit crumbSplit k : Nat) : Nat :=
  let cap := fun (size split scope : Nat) =>
    let b := min (8192 * split) (size - 8192)
    if scope = 0 then b / 4 else (size - 8192 - b) / 8
  if k < 3 then cap (2 ^ 20) crustSplit k
  else if k < 6 then cap (5 * 2 ^ 20) crumbSplit (k - 3)
  else 2 ^ 23

/-- Erased blocks of the Shelf. -/
def erasedBlocks (s : State) : Nat :=
  rawBlocks - (s.shelf.blocks.filter (fun b => b.2.bad || decide (b.2.used ≠ 0))).length

def sumOver (l : Tbl Layout) (f : Layout → Nat) : Nat := l.foldl (fun n p => n + f p.2) 0

/-- The resulting layout is valid (R480). -/
def layoutValid (s : State) (p : List Byte) : Bool :=
  let l := resulting s p
  let pairs := fun (f : Layout → Nat) (n : Layout → Nat) =>
    l.all (fun a => l.all (fun b => a.1 = b.1 || apart (f a.2) (n a.2) (f b.2) (n b.2)))
  let crust := payAt p 2 2
  let crumb := payAt p 4 2
  decide (payAt p 0 1 ≤ 12) && decide (payAt p 1 1 ≤ 12) && decide (crust ≤ 128) && decide (crumb ≤ 640) &&
    pairs (·.qbase) (·.qcount) && pairs (·.sbase) (·.scount) && pairs (·.vbase) (·.vcount) &&
    l.all (fun e => decide (e.2.qbase + e.2.qcount ≤ 524288) && decide (e.2.sbase + e.2.scount ≤ 16384) &&
      (e.2.vcount = 0 || (decide (32 ≤ e.2.vbase) && decide (e.2.vbase + e.2.vcount ≤ 2048))) &&
      decide (1 ≤ e.2.shareMin) && decide (e.2.shareMin ≤ e.2.shareMax) && decide (e.2.reqSlots ≤ 4096)) &&
    decide (sumOver l (·.harbour0) ≤ 512 * payAt p 0 1) && decide (sumOver l (·.harbour1) ≤ 512 * payAt p 1 1) &&
    (List.range 7).all (fun k => decide (sumOver l (fun e => e.quotas.getD k 0) ≤ tierCapacity crust crumb k)) &&
    decide (sumOver l (·.parkRes) ≤ 16 * erasedBlocks s)

/-- The payload is well formed (Table 20.5). -/
def payloadForm (b : TicketBody) : Bool :=
  let p := b.payload
  let n := p.length
  decide (n ≤ 8192) && (match b.action with
    | 1 => decide (n ≥ 16) && n = 16 + 128 * (maskBerths p).length && payAt p 6 2 = 0 && payAt p 12 4 = 0 &&
        (layoutEntries p).all (fun e => entryForm e.2)
    | 2 => n = 5 && decide (payAt p 0 1 < 32) && decide (1 ≤ payAt p 1 2) && decide (payAt p 1 2 ≤ payAt p 3 2)
    | 3 => n = 5 && (payAt p 4 1 = 1 || payAt p 4 1 = 2)
    | 4 => n = 1 && decide (payAt p 0 1 ≤ 1)
    | 5 => n = 1 && decide (payAt p 0 1 ≤ 1)
    | 6 => n = 0
    | 7 =>
      let f := payAt p 0 1
      decide (1 ≤ f) && decide (f ≤ 3) && n = 1 + 1984 * (f % 2 + f / 2)
    | _ => false)

/-- Keys of a KEYS payload for a party. -/
def keysIn (p : List Byte) (party : Nat) : Option KeyPair :=
  let f := payAt p 0 1
  if party = 1 then
    (if bit f 0 then some { ed := BitVec.ofNat 256 (payAt p 1 32), ml := (p.drop 33).take 1952 } else none)
  else
    let o := if bit f 0 then 1985 else 1
    (if bit f 1 then some { ed := BitVec.ofNat 256 (payAt p o 32), ml := (p.drop (o + 32)).take 1952 } else none)

/-! ### Checks (R480 to R485) -/

/-- An enrolment: the one ticket that an unprovisioned part accepts (R485). -/
def isEnrolment (b : TicketBody) : Bool := b.action = 7 && b.seq = 1 && payloadForm b && payAt b.payload 0 1 = 3

/-- Keys under which a party's half-ticket is verified. -/
def partyKeys (s : State) (b : TicketBody) (party : Nat) : Option KeyPair :=
  if s.sec.provisioned then (if party = 1 then s.sec.operKeys else s.sec.custKeys)
  else if isEnrolment b then keysIn b.payload party
  else none

/-- The action is allowed in a half's chair state (Table 20.5). -/
def actionAllowed (s : State) (h action : Nat) : Bool :=
  let c := (s.half h).chair
  match action with
  | 1 => c = .agreed || c = .alone
  | 2 => c = .agreed || c = .alone
  | 3 => c ≠ .boot
  | 4 => c = .agreed || c = .split
  | 5 => c = .alone
  | 6 => c = .split && (s.half 0).peerHb && (s.half 1).peerHb
  | 7 => c = .agreed || c = .alone
  | _ => true

/-- A part-wide field of a LAYOUT changes. -/
def partWideChange (s : State) (p : List Byte) : Bool :=
  payAt p 0 1 ≠ s.trec.moor0 || payAt p 1 1 ≠ s.trec.moor1 || payAt p 2 2 ≠ s.trec.crustSplit ||
    payAt p 4 2 ≠ s.trec.crumbSplit

/-- A berth holds no image and is not parked. -/
def berthFree (s : State) (b : Nat) : Bool := (s.berth b).image = none && (s.berth b).parkRec = none

/-- The condition of Table 20.5. -/
def actionApplies (s : State) (h : Nat) (b : TicketBody) : Bool :=
  let p := b.payload
  match b.action with
  | 1 => (maskBerths p).all (berthFree s) && (!partWideChange s p || (List.range 32).all (berthFree s))
  | 2 => (s.berth (payAt p 0 1)).layout.configured
  | 4 => !s.fenced (payAt p 0 1) || (s.half h).chair = .split
  | 5 => s.fenced (payAt p 0 1)
  | _ => true

/-- The other half has applied the same FENCE on its own, and the counter stands at its SEQ (R484). -/
def fencedAlready (s : State) (b : TicketBody) : Bool :=
  b.action = 4 && b.seq = s.sec.seq &&
    (s.fenced (payAt b.payload 0 1) || s.twc.fencing.any (fun f => f.1 = payAt b.payload 0 1))

/-- The checks that a half makes of a paired ticket: the result code, 0 when it accepts. -/
def ticketCode (s : State) (h : Nat) (t : Ticket) : Nat :=
  let b := t.body
  if b.target ≠ devTag then 0x03
  else if b.seq ≠ s.sec.seq + 1 && !((s.half h).chair = .split && fencedAlready s b) then 0x02
  else if !s.sec.provisioned && !isEnrolment b then 0x09
  else if b.magic ≠ 0x4B545A58 || !payloadForm b then 0x05
  else if !actionAllowed s h b.action then 0x04
  else if b.action = 1 && !layoutValid s b.payload then 0x05
  else if !actionApplies s h b then 0x04
  else 0

/-- All four signatures of a paired ticket verify. -/
def fourSigned (s : State) (t : Ticket) : Bool :=
  let ok := fun (ht : Option HalfTicket) => match ht with
    | none => false
    | some x => match partyKeys s t.body x.party with
      | some k => signedBy k x
      | none => false
  ok t.operHt && ok t.custHt

/-- A half checks without the other: a FENCE in SPLIT with the heartbeats lost (R484). -/
def checksAlone (s : State) (t : Ticket) : Bool :=
  t.body.action = 4 && (s.half t.half).chair = .split && !((s.half 0).peerHb && (s.half 1).peerHb)

/-! ### Results (R481, R483) -/

/-- A ticket ends: it leaves the pending ones, and its result goes to the registers, to the host ring and to the
Custodian. -/
def endTicket (t : Ticket) (code : Nat) (s : State) : State :=
  let refused := fun (n : Nat) => if code = 0 then n else satAdd 32 n 1
  let s := s.modSec (fun x => { x with
    pend := x.pend.filter (fun y => !(y.digest = t.digest && y.half = t.half))
    paired := x.paired.filter (· ≠ (t.half, t.digest))
    lastResult := code, lastAction := t.body.action % 256, refused := refused x.refused })
  let s := s.modTrec (fun x => { x with refused := refused x.refused })
  let s := s.modTwc (fun x => { x with result := code })
  let pay := payTicket code (t.body.action % 256) t.body.seq t.digest
  let bytes := recordBytes s t.half 0x11 0xFF pay
  let s := makeRecord t.half 0x11 0xFF pay s
  if t.cust then route t.half (mgmtPacket s t.custPart 0x11 bytes) s else s

/-! ### What an accepted ticket does (Table 20.5) -/

def levelReport (s : State) : State := report ("!LEVEL " ++ dec s.sec.level) s

/-- The debug level changes (R486). -/
def setLevel (level : Nat) (berths : BitVec 32) (s : State) : State :=
  let was := s.sec.level
  let s := s.modSec (fun x => { x with level := level, debugBerths := berths })
  if level = was then s else levelReport s

/-- LAYOUT: the record, then the part-wide fields and the entries. -/
def applyLayout (p : List Byte) (s : State) : State :=
  shelfFlags <|
  let l := resulting s p
  let s := s.modTrec (fun t => { t with
    layouts := l, moor0 := payAt p 0 1, moor1 := payAt p 1 1, crustSplit := payAt p 2 2, crumbSplit := payAt p 4 2 })
  let s := s.modGlb (fun g => { g with crustSplit := payAt p 2 2, crumbSplit := payAt p 4 2 })
  let s := forEach [0, 1] (fun h t => t.modHarbour h (fun x =>
    { x with moorWays := payAt p h 1, cache := mapTbl [] (fun c => c.take (16 - payAt p h 1)) x.cache })) s
  forEach (maskBerths p) (fun b t =>
    let e := look {} l b
    let t := if e.configured then t.modBerth b (fun x => { x with layout := e, share := e.shareMin }) else t.setBerth b {}
    (t.modShare 0 b (fun k => { k with share := e.harbour0 })).modShare 1 b (fun k => { k with share := e.harbour1 })) s

/-- SHARES: limits, and SHARE clamped. -/
def applyShares (p : List Byte) (s : State) : State :=
  let b := payAt p 0 1
  let lo := payAt p 1 2
  let hi := payAt p 3 2
  let f := fun (l : Layout) => { l with shareMin := lo, shareMax := hi }
  let s := s.modTrec (fun t => { t with layouts := put {} t.layouts b (f (look {} t.layouts b)) })
  settle (s.modBerth b (fun x => { x with layout := f x.layout, share := max lo (min hi x.share) }))

/-- CLEAR_SPLIT: both halves agree, admission resumes. -/
def clearSplit (s : State) : State :=
  let s := s.modSec (fun x => { x with measMatch := s.meas 0 0 = s.meas 1 0 })
  let s := forEach [0, 1] (fun h t => t.modHalf h (fun x => { x with migHeld := false })) s
  let s := setGlbHalf s.chairHalf (fun g => { g with split := false }) s
  let s := forEach [0, 1] (fun h t => applyRaises h (bringUp h .agreed t)) s
  settle (startMig 1 (startMig 0 s))

/-- KEYS: enrolled or replaced. -/
def applyKeys (p : List Byte) (s : State) : State :=
  let o := (keysIn p 1).orElse (fun _ => s.sec.operKeys)
  let c := (keysIn p 2).orElse (fun _ => s.sec.custKeys)
  let s := s.modTrec (fun t => { t with operKeys := o, custKeys := c })
  s.modSec (fun x => { x with operKeys := o, custKeys := c, provisioned := o.isSome && c.isSome })

/-- FENCE as the holding half applies it: by both halves, or alone (R484). -/
def applyFence (t : Ticket) (lost : Bool) (s : State) : State :=
  let h := payAt t.body.payload 0 1
  if lost ∧ t.half = h then fenceSelf h s else beginFence h lost s

/-- An accepted ticket is journalled and applied; the counter takes its SEQ (R481). -/
def applyTicket (t : Ticket) (lost : Bool) (s : State) : State :=
  let p := t.body.payload
  let s := s.modTrec (fun x => { x with seq := t.body.seq })
  let s := s.modSec (fun x => { x with seq := t.body.seq })
  let s := match t.body.action with
    | 1 => applyLayout p s
    | 2 => applyShares p s
    | 3 => setLevel (payAt p 4 1) (BitVec.ofNat 32 (payAt p 0 4)) s
    | 4 => applyFence t lost s
    | 5 => unfenceHalf (payAt p 0 1) s
    | 6 => clearSplit s
    | _ => applyKeys p s
  endTicket t 0 s

/-! ### The steps of a ticket (R481) -/

/-- The pending ticket of a half with a digest. -/
def findTicket (s : State) (h : Nat) (d : BitVec 384) : Option Ticket :=
  s.sec.pend.find? (fun t => t.half = h && t.digest = d)

/-- Step 3 for the oldest paired ticket, once no operator command runs (R482): refused, applied alone under R484, or sent
to the other half; the fuel bounds the tickets taken. -/
def sendPaired : Nat → State → State
  | 0, s => s
  | k + 1, s =>
    if s.twc.cmdBusy then s
    else match s.sec.paired with
      | [] => s
      | (h, d) :: _ =>
        match findTicket s h d with
        | none => sendPaired k (s.modSec (fun x => { x with paired := x.paired.drop 1 }))
        | some t =>
          if t.sent then s
          else
            let code := ticketCode s h t
            if code ≠ 0 then sendPaired k (endTicket t code s)
            else if checksAlone s t then sendPaired k (applyTicket t true s)
            else
              let s := s.modSec (fun x => { x with pend := x.pend.map (fun y =>
                if y.half = h && y.digest = d then { y with sent := true } else y) })
              s.emit (.ticketTo (1 - h) t.body)

/-- A half-ticket that came through TWC_CMD has this in place of a SRC_PART. -/
def viaCommand : Nat := 65536

/-- The TICKET command ends when its half-ticket has been verified. -/
def endTicketCmd (src code : Nat) (s : State) : State := if src = viaCommand then finishCmd code s else s

/-- TICKET: the Operator's half-ticket is read (R481). -/
def execTicket (half : HalfTicket) (s : State) : Res :=
  .next (operatorCmd 6 0 (fun t =>
    t.modSec (fun x => { x with arrived := x.arrived ++ [(half, t.chairHalf, viaCommand)] })) s)

/-- A half-ticket arrives on VL7 at a half: forwarded to the chair, kept by a half in SPLIT without heartbeats. An
Operator's is accepted there only in SPLIT (R481, R484). -/
def execCustodianHalfTicket (half srcPart : Nat) (ht : HalfTicket) (s : State) : Res :=
  let split := (s.half half).chair = .split
  let own := split && !((s.half 0).peerHb && (s.half 1).peerHb)
  if !s.on || s.fenced half || !(ht.party = 2 || (ht.party = 1 && split)) then .next s
  else
    let holder := if own then half else s.chairHalf
    .next (s.modSec (fun x => { x with arrived := x.arrived ++ [(ht, holder, srcPart % 65536)] }))

/-- A half-ticket refused before it is pending. -/
def refuseArrived (ht : HalfTicket) (h src code : Nat) (s : State) : State :=
  let t : Ticket := { body := ht.body, digest := ticketDigest ht.body, half := h, cust := ht.party = 2, custPart := src }
  let old := s.sec
  let s := endTicket t code s
  -- a ticket pending under the same digest stays
  endTicketCmd src code (s.modSec (fun x => { x with pend := old.pend, paired := old.paired }))

/-- A half-ticket is verified (steps 1 and 2), and paired where the other party's is there. -/
def takeHalfTicket (ht : HalfTicket) (h src : Nat) (s : State) : State :=
  let d := ticketDigest ht.body
  match partyKeys s ht.body ht.party with
  | none => refuseArrived ht h src 0x09 s
  | some k =>
    if !signedBy k ht then refuseArrived ht h src 0x01 s
    else
      let have_ := findTicket s h d
      if have_ = none ∧ (s.sec.pend.filter (fun t => t.half = h)).length ≥ 4 then refuseArrived ht h src 0x08 s
      else
        let t := have_.getD { body := ht.body, digest := d, half := h }
        if (if ht.party = 1 then t.oper else t.cust) then endTicketCmd src 0 s
        else
          let t := if ht.party = 1 then { t with oper := true, operHt := some ht }
            else { t with cust := true, custHt := some ht, custPart := src }
          let s := s.modSec (fun x => { x with
            pend := (if have_ = none then x.pend ++ [t]
              else x.pend.map (fun y => if y.half = h && y.digest = d then t else y))
            paired := if t.oper && t.cust then x.paired ++ [(h, d)] else x.paired })
          let s := makeRecord h 0x10 0xFF (payTicket ht.party (ht.body.action % 256) ht.body.seq d) s
          endTicketCmd src 0 s

/-- The verification of the oldest arrived half-ticket ends. -/
def execHalfTicketVerified (s : State) : Res :=
  match s.sec.arrived with
  | [] => .next s
  | (ht, h, src) :: rest =>
    let s := s.modSec (fun x => { x with arrived := rest })
    let s := takeHalfTicket ht h src s
    .next (sendPaired (s.sec.paired.length + 1) s)

/-- The other party's half-ticket did not arrive within 60 s. -/
def execTicketTimeout (digest : BitVec 384) (s : State) : Res :=
  match s.sec.pend.find? (fun t => t.digest = digest && !(t.oper && t.cust)) with
  | none => .next s
  | some t => .next (endTicket t 0x06 s)

/-- The ticket that the other half holds for its verdict. -/
def sentTicket (s : State) : Option Ticket :=
  match s.sec.paired with
  | (h, d) :: _ => (findTicket s h d).bind (fun t => if t.sent then some t else none)
  | [] => none

/-- Step 4: the other half verifies and checks, and answers. -/
def execPeerTicketCheck (s : State) : Res :=
  let s := sendPaired (s.sec.paired.length + 1) s
  match sentTicket s with
  | none => .next s
  | some t =>
    let p := 1 - t.half
    let x := s.half p
    if t.peerSays.isSome || decide (x.bootStage < 2) || x.romReject || !x.peerHb then .next s
    else
      let code := if fourSigned s t then ticketCode s p t else 0x01
      .next (s.modSec (fun y => { y with pend := y.pend.map (fun z =>
        if z.half = t.half && z.digest = t.digest then { z with peerSays := some code } else z) }))

/-- Step 5: the verdict arrives. -/
def execPeerVerdict (s : State) : Res :=
  match sentTicket s with
  | none => .next s
  | some t => match t.peerSays with
    | none => .next s
    | some v =>
      let s := if v = 0 then applyTicket t false s else endTicket t (if v = 1 then 0x01 else 0x07) s
      .next (sendPaired (s.sec.paired.length + 1) s)

/-- No verdict within 1 s. -/
def execPeerVerdictTimeout (s : State) : Res :=
  match sentTicket s with
  | none => .next s
  | some t =>
    let s := endTicket t 0x07 s
    .next (sendPaired (s.sec.paired.length + 1) s)

/-- RELOCK (R486): level 0 at once. -/
def execRelock (s : State) : Res := .next (setLevel 0 0 s)

/-! ### Attestation (R476 to R478) -/

/-- Measurements of both halves. -/
def allMeas (s : State) : List (BitVec 384) := (List.range 8).map (fun i => s.meas (i / 4) (i % 4))

/-- CDI of the alias keys in force. -/
def aliasCdi (s : State) : BitVec 384 := ((s.half s.chairHalf).aliasKeys).getD 0

/-- The berth layout as measurement block 9 hashes it: the record's part-wide fields and entries in the form of a LAYOUT
payload. -/
def layoutBytes (s : State) : List Byte :=
  let t := s.trec
  let mask := t.layouts.foldl (fun n p => n + 2 ^ p.1) 0
  leBytes 1 t.moor0 ++ leBytes 1 t.moor1 ++ leBytes 2 t.crustSplit ++ leBytes 2 t.crumbSplit ++ leBytes 2 0 ++
    leBytes 4 mask ++ leBytes 4 0 ++
    t.layouts.flatMap (fun p =>
      let e := p.2
      leBytes 32 e.cores.toNat ++ leBytes 2 e.shareMin ++ leBytes 2 e.shareMax ++ leBytes 2 e.ration ++ leBytes 2 e.harbour0 ++
        leBytes 2 e.harbour1 ++ leBytes 2 0 ++ (List.range 7).flatMap (fun k => leBytes 4 (e.quotas.getD k 0)) ++
        leBytes 4 e.parkRes ++ leBytes 4 e.qbase ++ leBytes 4 e.qcount ++ leBytes 2 e.sbase ++ leBytes 2 e.scount ++
        leBytes 2 e.vbase ++ leBytes 2 e.vcount ++ leBytes 2 e.templates ++ leBytes 2 e.reqSlots ++
        leBytes 1 (boolNat e.configured) ++ leBytes 31 0)

/-- SEC_DEBUG (Table 20.11). -/
def secDebug (s : State) : Nat := s.sec.level + s.sec.debugBerths.toNat * 2 ^ 32

/-- Measurement block i, 1..10 (Table 20.3). -/
def measBlock (s : State) (i : Nat) : List Byte :=
  if 1 ≤ i ∧ i ≤ 8 then leBytes 48 (s.meas ((i - 1) / 4) ((i - 1) % 4)).toNat
  else if i = 9 then leBytes 48 (Config.sha384 (layoutBytes s)).toNat ++ leBytes 8 s.sec.seq
  else if i = 10 then leBytes 8 (secDebug s)
  else []

/-- What the spec names of a response's content: the Ed25519 chain, measurement blocks. -/
def spdmContent (s : State) (r : SpdmReq) : List Byte :=
  let chain := Config.certChain 0 (aliasCdi s) (allMeas s)
  match r with
  | .getDigests => leBytes 48 (Config.sha384 chain).toNat
  | .getCertificate _ off len => (chain.drop off).take len
  | .challenge _ _ => leBytes 48 (Config.sha384 chain).toNat
  | .getMeasurements b _ _ => if b = 0xFF then (List.range 10).flatMap (fun i => measBlock s (i + 1)) else measBlock s b
  | _ => []

/-- The response to a request carries an Ed25519 signature (R478). -/
def spdmSigned (seen : List SpdmReq) (r : SpdmReq) : Bool :=
  let ready := seen.contains .getVersion && seen.contains .getCapabilities && seen.contains .negotiateAlgorithms
  match r with
  | .challenge slot _ => ready && slot = 0
  | .getMeasurements b signed _ => ready && signed && (decide (b ≤ 10) || b = 0xFF)
  | _ => false

/-- An SPDM request through the DOE mailbox (R477). -/
def execSpdmRequest (r : SpdmReq) (s : State) : Res :=
  if !s.linkUp then .next s
  else
    let seen := s.sec.spdmSeen
    let c := spdmContent s r
    let hash := if spdmSigned seen r then some (Config.sha384 (Config.spdmTranscript seen r c)) else none
    let s := s.modSec (fun x => { x with lastHash := hash, spdmSeen := if r = .getVersion then [r] else seen ++ [r] })
    .next (s.emit (.doe (Config.spdmResponse seen r c)))

/-- An SPDM 1.2 ERROR response (notes/assumptions/10.md). -/
def spdmError (code : Nat) : List Byte := [0x12, 0x7F, BitVec.ofNat 8 code, 0]

/-- GET_MLDSA_CERT: a part of the ML-DSA-65 chain, at most 4,096 bytes. -/
def execGetMldsaCert (offset length : Nat) (s : State) : Res :=
  if !s.linkUp then .next s
  else
    let s := s.modSec (fun x => { x with lastHash := none })
    .next (s.emit (.doe (if length > 4096 then spdmError 1
      else ((Config.certChain 1 (aliasCdi s) (allMeas s)).drop offset).take length)))

/-- SIGN_TRANSCRIPT: directly after a signed response, else UnexpectedRequest. -/
def execSignTranscript (s : State) : Res :=
  if !s.linkUp then .next s
  else
    let a := match s.sec.lastHash with
      | some h => Config.mlSign (aliasCdi s) (ascii "xzl-spdm") h
      | none => spdmError 4
    .next ((s.modSec (fun x => { x with lastHash := none })).emit (.doe a))

end Sys2Proof.Machine
end

