-- ==== Sys2Proof/Machine/HostPort.lean ====
section
/-! DEFINITION. The host port (18_host_port.md R434 to R453): the link, host-managed memory, MSI-X configuration, DOE; rations
arbiters at an edge (15_berths_scheduling.md R383); management packets without a row of their own (19_tidewatch.md R462). -/
namespace Sys2Proof.Machine

/-! ### The link -/

/-- The link trains (R435, R439): while a half is fenced at ×8 on the lanes of the half in service. -/
def execHostLinkUp (width rate : Nat) (cache mem lanesHalf1 : Bool) (s : State) : Res :=
  let fenced := s.fenced 0 || s.fenced 1
  if !s.on || !s.clk.serdes || !(width = 8 || width = 16) || decide (rate < 1) || decide (rate > 5) ||
      (fenced && !(width = 8 && lanesHalf1 = s.fenced 0)) || (!fenced && lanesHalf1) then .next s
  else
    let cxl := mem && rate = 5
    let s := s.modGlb (fun g => { g with
      linkWidth := width, linkRate := rate, cxlCache := cache && cxl, cxlMem := cxl, degraded := width = 8
      lanesHalf1 := lanesHalf1, trainings := satAdd 32 g.trainings 1 })
    .next (flushVectors (raiseVector 2 s))

/-- Link-down or hot reset: nothing else changes (R440). -/
def execHostLinkDown (s : State) : Res := .next (linkLost s)

/-- MSI-X Enable and Function Mask are written (R452). -/
def execConfigSpaceWrite (enable fmask : Bool) (s : State) : Res :=
  .next (flushVectors (s.modGlb (fun g => { g with msixEnable := enable, msixFmask := fmask })))

/-- Every snoop is answered RspIHitI (R436). -/
def execSnoop (addr : Nat) (s : State) : Res := .next (if s.linkUp && s.glb.cxlCache then s.emit (.snooped addr) else s)

/-! ### Host-managed device memory (R446 to R448) -/

/-- A decoder is committed under its settings; any interleave setting but one way, encoded 0, is a commit error. -/
def commitDecoder (d : Hdm) : Hdm := { d with committed := decide (d.ways = 0), error := decide (d.ways ≠ 0) }

/-- The encoding of a number of interleave ways. -/
def waysCode (ways : Nat) : Nat := if ways = 1 then 0 else max 1 (Nat.log2 ways % 16)

/-- The host sets a decoder and commits it. In CXL.io-only operation the decoders are absent (R435). -/
def execHdmDecoderCommit (k base size ways : Nat) (s : State) : Res :=
  if !s.glb.cxlMem || decide (k ≥ 4) then .next s
  else
    let d := commitDecoder { look {} s.glb.hdm k with base := base, size := size, ways := waysCode ways }
    .next (s.modGlb (fun g => { g with hdm := put {} g.hdm k d }))

/-! ### CXL component registers (R26, R441), in the layout of CXL 2.0 (notes/assumptions/8.md). Offsets are those of 32-bit
registers from BAR0 offset 0x2_0000: the capability headers stand at 0x1000, the RAS capability at 0x1100, the link
capability at 0x1180, the HDM decoder capability at 0x1200. -/

/-- Register j, in steps of 4 bytes, of a decoder. -/
def readDecoder (d : Hdm) (j : Nat) : Nat :=
  match j with
  | 0 => field d.base 28 4 * 2 ^ 28
  | 1 => field d.base 32 32
  | 2 => field d.size 28 4 * 2 ^ 28
  | 3 => field d.size 32 32
  | 4 => d.grain + d.ways * 2 ^ 4 + boolNat d.lock * 2 ^ 8 + boolNat (d.committed || d.error) * 2 ^ 9 +
      boolNat d.committed * 2 ^ 10 + boolNat d.error * 2 ^ 11
  | 5 => field d.skip 28 4 * 2 ^ 28
  | 6 => field d.skip 32 32
  | _ => 0

/-- A register of the component block. -/
def readComponent (s : State) (o : Nat) : Nat :=
  let c := s.glb.cxl
  let mem := s.glb.cxlMem
  if o = 0x1000 then 1 + 2 ^ 16 + 2 ^ 20 + (if mem then 3 else 2) * 2 ^ 24
  else if o = 0x1004 then 2 + 2 * 2 ^ 16 + 0x100 * 2 ^ 20
  else if o = 0x1008 then 4 + 2 * 2 ^ 16 + 0x180 * 2 ^ 20
  else if o = 0x100C then (if mem then 5 + 2 ^ 16 + 0x200 * 2 ^ 20 else 0)
  else if o = 0x1104 then c.uncMask
  else if o = 0x1108 then c.uncSev
  else if o = 0x1110 then c.corMask
  else if o = 0x1114 then boolNat c.poisonEn * 2 ^ 13
  else if o = 0x1180 then 2
  else if o = 0x1188 then c.linkCtl
  else if o = 0x1190 then c.rxCredit % 2 ^ 32
  else if o = 0x1194 then c.rxCredit / 2 ^ 32
  else if o = 0x11A8 then c.ackTimer
  else if o = 0x11B0 then boolNat c.mdhOff
  else if !mem then 0
  else if o = 0x1200 then 2
  else if o = 0x1204 then c.hdmGlobal
  else if 0x1210 ≤ o ∧ o < 0x1290 then readDecoder (look {} s.glb.hdm ((o - 0x1210) / 32)) ((o - 0x1210) % 32 / 4)
  else 0

/-- A decoder's register written: its settings while it is not committed; its control register commits it, or takes it
back unless it is locked. -/
def writeDecoder (d : Hdm) (j n : Nat) : Hdm :=
  if d.committed then
    (if j = 4 ∧ !d.lock ∧ !bit n 9 then { d with committed := false, grain := field n 0 4, ways := field n 4 4, lock := bit n 8 }
     else d)
  else match j with
    | 0 => { d with base := setField d.base 28 4 (field n 28 4) }
    | 1 => { d with base := setField d.base 32 32 n }
    | 2 => { d with size := setField d.size 28 4 (field n 28 4) }
    | 3 => { d with size := setField d.size 32 32 n }
    | 4 =>
      let d := { d with grain := field n 0 4, ways := field n 4 4, lock := bit n 8, error := false }
      if bit n 9 then commitDecoder d else d
    | 5 => { d with skip := setField d.skip 28 4 (field n 28 4) }
    | 6 => { d with skip := setField d.skip 32 32 n }
    | _ => d

/-- A 32-bit register of the component block written. No rule sets a RAS status bit, so that those read 0. -/
def writeComponent (o n : Nat) (s : State) : State :=
  let cxl := fun (f : CxlRegs → CxlRegs) => s.modGlb (fun g => { g with cxl := f g.cxl })
  if o = 0x1104 then cxl (fun c => { c with uncMask := (BitVec.ofNat 17 n &&& 0x1CFFF).toNat })
  else if o = 0x1108 then cxl (fun c => { c with uncSev := (BitVec.ofNat 17 n &&& 0x1CFFF).toNat })
  else if o = 0x1110 then cxl (fun c => { c with corMask := n % 2 ^ 7 })
  else if o = 0x1114 then cxl (fun c => { c with poisonEn := bit n 13 })
  else if o = 0x1188 then cxl (fun c => { c with linkCtl := n % 8 })
  else if o = 0x1190 then cxl (fun c => { c with rxCredit := setField c.rxCredit 0 32 n })
  else if o = 0x1194 then cxl (fun c => { c with rxCredit := setField c.rxCredit 32 18 n })
  else if o = 0x11A8 then cxl (fun c => { c with ackTimer := n % 2 ^ 18 })
  else if o = 0x11B0 then cxl (fun c => { c with mdhOff := bit n 0 })
  else if !s.glb.cxlMem then s
  else if o = 0x1204 then cxl (fun c => { c with hdmGlobal := n % 4 })
  else if 0x1210 ≤ o ∧ o < 0x1290 then
    let k := (o - 0x1210) / 32
    let d := writeDecoder (look {} s.glb.hdm k) ((o - 0x1210) % 32 / 4) n
    s.modGlb (fun g => { g with hdm := put {} g.hdm k d })
  else s

/-- The committed decoder that covers a host address. -/
def decoderAt (s : State) (addr : Nat) : Option (Nat × Hdm) :=
  s.glb.hdm.find? (fun p => p.2.committed && decide (p.2.base ≤ addr) && decide (addr < p.2.base + p.2.size))

/-- Why an access to a byte of a berth is refused (Table 18.5); Keeper's accesses reach every tier. -/
def accessRefusal (s : State) (b va : Nat) (keeper : Bool) : Option Nat :=
  let t := s.berth b
  let p := s.page b va
  match t.image.bind (fun img => regionAt img va) with
  | none => some 2
  | some r =>
    let hbr := isHarbour r
    if !keeper && (hbr || p.tier = .shelf || p.tier = .harbour) then some 2
    else if t.parkState = .parking || t.parkState = .parked || (!hbr && p.tier = .park) then some 3
    else if s.spotDead (s.spot b va) then some 4
    else none

/-- Why a host access of n bytes is refused: the reason of the first byte that fails. -/
def hostRefusal (s : State) (d : Hdm) (va n : Nat) : Option Nat :=
  if !d.bindValid || !(s.berth d.bindBerth).layout.configured then some 1
  else ((List.range n).filterMap (fun i => accessRefusal s d.bindBerth (va + i) false)).head?

/-- A refusal is recorded. -/
def recordRefusal (k reason : Nat) (s : State) : State :=
  s.modGlb (fun g => { g with errReason := reason, errDecoder := k, errRefused := satAdd 32 g.errRefused 1 })

/-- n free bytes (notes/assumptions/6.md). -/
def freeBytes (n : Nat) (s : State) : List Byte × State :=
  ((List.range n).map (fun i => (Config.freeValue (s.fresh + i)).truncate 8), { s with fresh := s.fresh + n })

/-- Bytes of a berth as a read from outside returns them, with poison: a poisoned or uncorrectable unit's bytes are
free. -/
def outsideRead (b va n : Nat) (s : State) : (List Byte × Bool) × State :=
  (unitPieces va n (List.replicate n 0)).foldl (fun (acc : (List Byte × Bool) × State) q =>
    let l := acc.2.spot b q.1
    if acc.2.markAt b l = .good then
      ((acc.1.1 ++ acc.2.spotBytes b l q.2.length, acc.1.2), acc.2.slotTouch l)
    else
      let (bs, s') := freeBytes q.2.length acc.2
      ((acc.1.1 ++ bs, true), s'.slotTouch l)) (([], false), s)

/-- An access touches a migrating page of its berth, and waits until the switch (R351). -/
def hostWaits (s : State) (d : Hdm) (va n : Nat) : Bool :=
  d.bindValid && (s.berth d.bindBerth).layout.configured &&
    (unitPieces va n (List.replicate n 0)).any (fun q => (s.page d.bindBerth q.1).migrating)

/-- A host read that its decoder covers (R447, R448). -/
def hostRead (k : Nat) (d : Hdm) (va n : Nat) (s : State) : State :=
  match hostRefusal s d va n with
  | some reason =>
    let (bs, s) := freeBytes n (recordRefusal k reason s)
    s.emit (.hostData bs true)
  | none =>
    let r := outsideRead d.bindBerth va n s
    r.2.emit (.hostData r.1.1 r.1.2)

/-- Masked bytes of one unit from outside; false where the unit is uncorrectable and the write cannot merge. -/
def maskedUnit (b u : Nat) (bs : List (Option Byte)) (s : State) : Bool × State :=
  let l := s.spot b u
  if bs.all (·.isSome) && bs.length = 32 then s.pokeUnit b u (bs.map (fun x => x.getD 0))
  else if bs.all (·.isNone) then (true, s)
  else match s.markAt b l with
    | .good =>
      let old := s.spotBytes b l bs.length
      (true, (s.spotWrite b u l ((bs.zip old).map (fun x => x.1.getD x.2))).slotTouch l)
    | .poison => (true, s)
    | .uncorrectable => (false, s)

/-- Pieces of a masked write by unit; the fuel is its length. -/
def maskedPieces (va : Nat) : Nat → List (Option Byte) → List (Nat × List (Option Byte))
  | 0, _ => []
  | k + 1, bs => if bs = [] then []
    else
      let n := 32 - va % 32
      (va, bs.take n) :: maskedPieces (va + n) k (bs.drop n)

/-- What a host write does to the bytes of one unit (R447, R448): poison makes the unit poisoned; a part of an
uncorrectable unit is recorded with SOURCE 3. -/
def hostPiece (b : Nat) (poison : Bool) (q : Nat × List (Option Byte)) (t : State) : State :=
  if poison then (if q.2.all (·.isNone) then t else poisonRange b q.1 q.2.length t)
  else
    let r := maskedUnit b q.1 q.2 t
    if r.1 then r.2
    else match t.spot b q.1 with
      | .stack pa => recordUe (t.place pa).stack (t.place pa).channel pa 3 t
      | _ => t

/-- A host write that its decoder covers: refused with its reason, or done unit by unit. -/
def hostWrite (k : Nat) (d : Hdm) (va : Nat) (data : List (Option Byte)) (poison : Bool) (s : State) : State :=
  match hostRefusal s d va data.length with
  | some reason => recordRefusal k reason s
  | none => forEach (maskedPieces va data.length data) (hostPiece d.bindBerth poison) s

/-- A CXL.mem access: served by the decoder that covers it, or waiting for a migrating page (R351). -/
def hostAccess (a : HostAcc) (s : State) : State :=
  match decoderAt s a.addr with
  | none => s
  | some (k, d) =>
    let va := d.bindVbase + (a.addr - d.base)
    if hostWaits s d va (if a.write then a.data.length else a.n) then
      s.modGlb (fun g => { g with hostWait := g.hostWait ++ [a] })
    else if a.write then hostWrite k d va a.data a.poison s
    else hostRead k d va a.n s

/-- The waiting host accesses are tried again, in order. -/
def retryHost (s : State) : State :=
  forEach s.glb.hostWait hostAccess (s.modGlb (fun g => { g with hostWait := [] }))

/-- A CXL.mem access follows those that waited before it. -/
def execCxlMemRead (addr n : Nat) (s : State) : Res :=
  .next (if s.linkUp && s.glb.cxlMem then hostAccess { addr := addr, n := n } (retryHost s) else s)

def execCxlMemWrite (addr : Nat) (data : List (Option Byte)) (poison : Bool) (s : State) : Res :=
  .next (if s.linkUp && s.glb.cxlMem then hostAccess { write := true, addr := addr, data := data, poison := poison } (retryHost s)
    else s)

/-! ### DOE (R453; notes/assumptions/47.md) -/

/-- DOE discovery: the protocol of an index and the index that follows. -/
def execDoeDiscovery (index : Nat) (s : State) : Res :=
  if !s.linkUp then .next s
  else
    let w := match index with
      | 0 => 0x01000001
      | 1 => 0x02010001
      | 2 => 0x00021E98
      | _ => 0x0000FFFF
    .next (s.emit (.doe (leBytes 4 w)))

/-- One DSLBIS entry: data type, base unit, value. -/
def dslbis (type base value : Nat) : List Byte :=
  leBytes 1 1 ++ leBytes 1 0 ++ leBytes 2 24 ++ leBytes 1 0 ++ leBytes 1 0 ++ leBytes 1 type ++ leBytes 1 0 ++ leBytes 8 base ++
    leBytes 2 value ++ leBytes 2 0 ++ leBytes 2 0 ++ leBytes 2 0

/-- The CDAT (R453): 3 TiB of device capacity, 700 ns, 63 GB/s each way at ×16 and 31 GB/s at ×8. -/
def cdatBytes (width : Nat) : List Byte :=
  let gb := if width = 16 then 63 else 31
  let dsmas := leBytes 1 0 ++ leBytes 1 0 ++ leBytes 2 24 ++ leBytes 1 0 ++ leBytes 1 0 ++ leBytes 2 0 ++ leBytes 8 0 ++
    leBytes 8 (3 * 2 ^ 40)
  let body := dsmas ++ dslbis 1 1000 700 ++ dslbis 4 1000 gb ++ dslbis 5 1000 gb
  let head := fun (sum : Nat) => leBytes 4 (16 + body.length) ++ leBytes 1 1 ++ leBytes 1 sum ++ leBytes 6 0 ++ leBytes 4 0
  let total := ((head 0 ++ body).map (·.toNat)).foldl (· + ·) 0
  head ((256 - total % 256) % 256) ++ body

def execCdatRead (s : State) : Res := .next (if s.linkUp then s.emit (.doe (cdatBytes s.glb.linkWidth)) else s)

/-! ### Rations and management packets -/

/-- One edge of an arbiter's clock with its pending requesters (R383). -/
def execRationsWindow (arbiter edge : Nat) (requests : List Nat) (s : State) : Res :=
  let a := arbEdge (arbWeights s arbiter) (arbWindow s arbiter) (look {} s.arbs arbiter) edge requests
  .next { s with arbs := put {} s.arbs arbiter a }

/-- Message types of Table 19.5. -/
def mgmtKnown (k : Nat) : Bool :=
  (decide (1 ≤ k) && decide (k ≤ 8)) || k = 0x10 || k = 0x11 || (decide (0x20 ≤ k) && decide (k ≤ 0x2A))

/-- A MGMT packet that carries a record is accepted; a reserved type is discarded and counted (R462). -/
def execMgmt (half : Nat) (p : Packet) (s : State) : Res :=
  .next (if mgmtKnown p.kind then arrive p s else discard half p s)

end Sys2Proof.Machine
end

