-- ==== Sys2Proof/Machine/Clockwork.lean ====
section
/-! DEFINITION. What passes while no command waits: a microsecond of the always-on domains, and what the Tidewatch
controllers find ready to go on (notes/assumptions/2.md). -/
namespace Sys2Proof.Machine

/-- The clock of a half counts microseconds from step 2 of Table 1.6 on (R457). -/
def tickHalf (h : Nat) (s : State) : State :=
  match s.clk.power with
  | .alwaysOn => s.modHalf h (fun t => { t with us := t.us + 1 })
  | .holdup => s.modHalf h (fun t => { t with us := t.us + 1 })
  | _ => s

/-- A microsecond of the Shelf, which counts while it is powered (R357). -/
def tickShelf (s : State) : State :=
  match s.clk.power with
  | .alwaysOn => s.modShelf (fun h => { h with us := h.us + 1 })
  | .holdup => s.modShelf (fun h => { h with us := h.us + 1 })
  | _ => s

/-- A-cycles of a core in a microsecond under its cluster's throttle (R21). -/
def coreCycles (s : State) (c : Nat) : Nat := 3000 * (16 - (s.cluster (clusterOf c)).mEff) / 16

/-- Class 0 cycles of a run: one per crew core and cycle (Table 15.2, R369). -/
def serveCrew (q : Nat) (s : State) : State :=
  let n := ((s.run q).crew.map (coreCycles s)).foldl (· + ·) 0
  if n = 0 then s
  else addCycles (s.queue q).berth 0 n (s.modRun q (fun r => { r with cycles0 := r.cycles0 + n }))

/-- Class 6 cycles of a Longshore engine that serves a collective. -/
def serveColl (e : Nat) (s : State) : State :=
  let t := s.lshEng e
  if t.busy then addCycles (s.queue t.queue).berth 6 (1500 * (16 - (s.half (e / 4)).fEff) / 16) s else s

/-- A microsecond of the engines whose work is counted by time; nothing runs while the clocks are stopped (R24). -/
def serveTime (s : State) : State :=
  if s.clk.aOn && s.clk.fOn then forEach (List.range 8) serveColl (forEach (s.runs.map (·.1)) serveCrew s) else s

/-- What waited for a commit or for a command goes on: a reset (R46), removals (R464), a fence (R483), engines that
a run shares with one that ended (R253), host accesses to a migrated page (R351), tickets (R482); LOW_SPARE follows the
erased blocks (R357). -/
def goOn (s : State) : State :=
  let s := tryReset s
  let s := forEach (s.berths.map (·.1)) tryRemove s
  let s := fenceStep s
  let s := forEach (s.runs.map (·.1)) startIdle s
  let s := retryHost s
  let s := if s.shelf.mapReady then shelfFlags s else s
  sendPaired (s.sec.paired.length + 1) s

/-- One microsecond with no command. -/
def idleTick (s : State) : State := goOn (serveTime (tickShelf (tickHalf 1 (tickHalf 0 s))))

end Sys2Proof.Machine
end

