-- ==== Sys2Proof/Machine/Codec.lean ====
section
/-! DEFINITION. Codec engines (11_codec.md R264 to R291). What the HEVC and AV1 standards compute comes from Config
(notes/assumptions/9.md); jobs, pools, stream contexts, rings, records, rate control, reference classes and refresh follow
the chapter. -/
namespace Sys2Proof.Machine

/-! ### The job descriptor (Tables 11.3, 11.9) -/

/-- Run-time bits of a job descriptor that the mask frees (R267, R289). -/
def jobFree (variant : Nat) : List (Nat × Nat) :=
  if variant = 2 then
    [(128, 32), (192, 64), (256, 64), (320, 64), (448, 64), (512, 64), (576, 64)]
  else
    [(128, 32), (160, 16), (256, 48), (320, 48), (384, 48), (448, 48), (512, 32), (576, 48), (640, 48), (704, 48), (768, 48)]

def jobFixed (variant b : Nat) : Nat := (jobFree variant).foldl (fun n p => setField n p.1 p.2 0) b

/-- Addresses with the alignment that the tables ask for. -/
def jobAligned (variant b : Nat) : Bool :=
  let ok := fun (lo a : Nat) => field b lo 48 % a = 0
  if variant = 2 then ok 256 (2 ^ 21)
  else
    ok 256 (2 ^ 21) && ok 320 4096 && ok 384 4096 && ok 768 32 &&
      (variant = 0 || (ok 448 256 && ok 576 4096 && ok 640 8 && ok 704 8))

/-- Luma width and height, bytes of a frame and of a pool buffer (R271, R272). -/
def jobW (b : Nat) : Nat := field b 16 16
def jobH (b : Nat) : Nat := field b 32 16
def lumaPitch (w : Nat) : Nat := roundUp (2 * w) 256
def chromaPitch (w : Nat) : Nat := roundUp w 256
def frameBytes (w h : Nat) : Nat := lumaPitch w * h + chromaPitch w * h
def bufferBytes (w h : Nat) : Nat := roundUp (frameBytes w h) (2 ^ 21) + 2 ^ 22

/-- Bytes of the motion field, at the start of the side area (R272; notes/assumptions/51.md). -/
def motionBytes (w h : Nat) : Nat := 16 * (cdiv w 16 * cdiv h 16)

def jobPoolBase (variant b : Nat) : Nat := if variant = 2 then field b 256 64 else field b 256 48

def jobPool (variant b : Nat) : Nat := (if variant = 2 then field b 12 4 else field b 104 4) + 1
def jobRing (variant b : Nat) : Nat × Nat :=
  if variant = 2 then (field b 320 64, field b 384 6) else (field b 576 48, field b 624 6)
def jobProd (variant b : Nat) : Nat := if variant = 2 then field b 448 64 else field b 640 48
def jobCons (variant b : Nat) : Nat := if variant = 2 then field b 512 64 else field b 704 48
def jobRec (variant b : Nat) : Nat := if variant = 2 then field b 576 64 else field b 768 48

/-! ### A job's progress -/

/-- What a job has done so far: marks of the pool now and as its input context gave them, buffers written, stores to the
pool and to its other regions, the stream's start at a CRA, the carried variables, ring index, sizes of the last pictures, long-term slots (buffer, picture that referenced it last), the
buffer of the previous picture, pictures counted, the counts of the engine, the fault that ended it. -/
structure Job where
  marks : List Nat := []
  first : List Nat := []
  bufs : List (Nat × List Byte) := []
  pool : Stores := []
  st : Stores := []
  cra : Bool := false
  vars : List Byte := []
  prod : Nat := 0
  sizes : List Nat := []
  slots : List (Nat × Nat) := []
  prev : Option Nat := none
  num : Nat := 0
  refresh : Nat := 0
  recs : Nat := 0
  pictures : Nat := 0
  blocks : Nat := 0
  clipped : Nat := 0
  err : Option Flt := none
  deriving DecidableEq, Repr

def Job.fail (x : Job) (f : Flt) : Job := { x with err := some f }

/-- A fault of Table 11.8. -/
def Job.stream (x : Job) (detail : Nat) : Job := x.fail (0x0D, detail)

def Job.mark (x : Job) (b : Nat) : Nat := x.marks.getD b 0
def Job.setMark (x : Job) (b v : Nat) : Job := { x with marks := x.marks.set b v }

/-- Marks with REF and LT, or OUT and GRAIN, cleared. -/
def dropRef (m : Nat) : Nat := m &&& 0xFA
def dropOut (m : Nat) : Nat := m &&& 0xF5

/-- The free buffer of the lowest index (R273), of those that carried no mark in the input context (R269) and hold no
picture still being output (R274). -/
def Job.free (x : Job) (lo n : Nat) (held : Option Nat) : Option Nat :=
  ((List.range n).map (· + lo)).find? (fun b => x.mark b % 4 = 0 && x.first.getD b 0 % 4 = 0 && some b ≠ held)

/-- What a job reads: its context, and the pool's place. -/
structure JobEnv where
  s : State
  c : Ctx
  variant : Nat
  b : Nat

/-- Reads of pool buffers reach codec pool regions, and nothing else does (R269). -/
def poolRole : Role → Bool
  | .pool => true
  | _ => false

/-- Stores to pool buffers reach codec pool regions, and nothing else does (R269). -/
def poolCtx (c : Ctx) : Ctx :=
  { c with uses := (c.uses.filter (fun u => u.role = .pool)).map (fun u => { u with role := .output }) }

def JobEnv.frame (e : JobEnv) : Nat := frameBytes (jobW e.b) (jobH e.b)
def JobEnv.base (e : JobEnv) (k : Nat) : Nat := jobPoolBase e.variant e.b + k * bufferBytes (jobW e.b) (jobH e.b)

/-- Address of a buffer's side area. -/
def JobEnv.side (e : JobEnv) (k : Nat) : Nat := e.base k + roundUp e.frame (2 ^ 21)

/-- Frame and side area of a pool buffer: written by this job, or read from the pool, the motion field over the narrow
path (R272). -/
def JobEnv.buffer (e : JobEnv) (x : Job) (k : Nat) : Except Flt (List Byte) :=
  match x.bufs.find? (fun p => p.1 = k) with
  | some p => .ok p.2
  | none =>
    let m := motionBytes (jobW e.b) (jobH e.b)
    match e.s.readBytes e.c poolRole (e.base k) e.frame, e.s.readBytes { e.c with narrow := true } poolRole (e.side k) m with
    | .error f, _ => .error f
    | _, .error f => .error f
    | .ok a, .ok v => (e.s.readBytes e.c poolRole (e.side k + m) (2 ^ 22 - m)).map (fun r => a ++ v ++ r)

/-- Frame and side area are written in place. -/
def JobEnv.put (e : JobEnv) (x : Job) (k : Nat) (bs : List Byte) : Job :=
  { x with
    bufs := (k, bs) :: x.bufs.filter (fun p => p.1 ≠ k)
    pool := (x.pool.bytes (e.base k) (bs.take e.frame)).bytes (e.side k) (bs.drop e.frame) }

/-- A sample's high byte holds only the bits of its depth (R271); beyond the frame lies the side area. -/
def depthByte (frame : Nat) (deep : Bool) (i : Nat) (v : Byte) : Byte :=
  if i < frame ∧ i % 2 = 1 then v &&& (if deep then 3 else 0) else v

/-! ### Stream contexts (Table 11.6; notes/assumptions/51.md for bytes 64..4095) -/

/-- Header fields of a context that must agree with the job (R276). -/
def ctxAgrees (variant b ctx : Nat) : Bool :=
  bit ctx 1 = bit b 8 && bit ctx 2 = (variant = 1 && bit b 10) && field ctx 3 3 = (if variant = 1 then field b 12 3 else 0) &&
    field ctx 16 16 = jobW b && field ctx 32 16 = jobH b

/-- The job's state from its input context, with RELEASE_MASK applied; a context that is not valid starts a stream. -/
def openCtx (variant b : Nat) (bs : List Byte) : Job :=
  let ctx := leNat (bs.take 64)
  if !bit ctx 0 then
    { marks := List.replicate 16 0, first := List.replicate 16 0
      slots := List.replicate (field b 12 3) (16, 0) }
  else if !ctxAgrees variant b ctx then ({} : Job).stream 8
  else
    let rel := field b 160 16
    let marks := (List.range 16).map (fun k =>
      let m := field ctx (256 + 8 * k) 8
      if bit rel k then dropOut m else m)
    let own := bs.drop 64
    let at8 := fun (o : Nat) => leNat ((own.drop o).take 8)
    { marks := marks, first := marks, vars := own.drop 200, prod := field ctx 128 64, num := field ctx 64 64
      refresh := field ctx 192 8, cra := at8 0 / 65536 % 2 = 1
      prev := if at8 0 % 256 = 0 then none else some (at8 0 % 256 - 1)
      sizes := (List.range (at8 0 / 256 % 256)).map (fun k => at8 (8 + 8 * k))
      slots := (List.range (field b 12 3)).map (fun k => (at8 (136 + 16 * k) % 256, at8 (144 + 16 * k))) }

/-- The 4 KiB that the job writes to CTX_OUT. -/
def closeCtx (variant b : Nat) (x : Job) : List Byte :=
  let head := boolNat true + 2 * boolNat (bit b 8) + 4 * boolNat (variant = 1 && bit b 10) +
    2 ^ 3 * (if variant = 1 then field b 12 3 else 0) + 2 ^ 16 * jobW b + 2 ^ 32 * jobH b
  let prev := match x.prev with
    | some k => k + 1
    | none => 0
  let own := leBytes 8 (prev + 256 * x.sizes.length + 65536 * boolNat x.cra) ++ ((List.range 16).flatMap (fun k => leBytes 8 (x.sizes.getD k 0))) ++
    ((List.range 4).flatMap (fun k => leBytes 8 (x.slots.getD k (16, 0)).1 ++ leBytes 8 (x.slots.getD k (16, 0)).2))
  (leBytes 8 head ++ leBytes 8 x.num ++ leBytes 8 x.prod ++ leBytes 1 x.refresh ++ leBytes 7 0 ++
    x.marks.flatMap (leBytes 1) ++ leBytes 16 0 ++ own ++ x.vars ++ List.replicate 4096 0).take 4096

/-! ### Decoding (R274, R276, R278) -/

/-- Fields of the job that the standards' decoding depends on. -/
def decParams (variant b : Nat) : List Nat :=
  if variant = 2 then [boolNat (bit b 8), 1, jobW b, jobH b]
  else [boolNat (bit b 8), boolNat (bit b 9), jobW b, jobH b]

/-- 64 x 64 areas of a picture. -/
def areas (w h : Nat) : Nat := cdiv w 64 * cdiv h 64

/-- One operation of a unit; `lo` and `n` bound the pool's part for decoding. The outputs come with their buffers. -/
def decOp (e : JobEnv) (lo n : Nat) (unit : List Byte) (refs : List (List Byte)) (u : DecUnit) (vars : List Byte)
    (acc : Job × Option Nat × List (Nat × DecOp)) (p : Nat × DecOp) : Job × Option Nat × List (Nat × DecOp) :=
  let (x, last, outs) := acc
  let o := p.2
  if x.err.isSome then acc
  else
    let fresh := fun (k : Nat) => (List.range (e.frame + 2 ^ 22)).map (fun i =>
      depthByte e.frame u.tenBit i (Config.decByte (decParams e.variant e.b) vars unit refs k i))
    if o.kind = 1 then (if o.buf < 16 then x.setMark o.buf (dropRef (x.mark o.buf)) else x, last, outs)
    else if o.kind = 0 then
      match x.free lo n none with
      | none => (x.stream 4, last, outs)
      | some k =>
        let x := e.put x k (fresh p.1)
        ({ x.setMark k (if o.keep then 1 else 0) with
            num := (x.num + 1) % 2 ^ 64, pictures := x.pictures + 1, blocks := x.blocks + areas u.width u.height },
          some k, outs)
    else
      let k := if o.buf < 16 then some o.buf else last
      match k with
      | none => acc
      | some k =>
        if o.grain then
          match x.free lo n (some k) with
          | none => (x.stream 4, last, outs)
          | some g => ((e.put x g (fresh p.1)).setMark g 0xA, last, outs ++ [(g, o)])
        else (x.setMark k (x.mark k ||| 2), last, outs ++ [(k, o)])

/-- The record of a decoded unit (Table 11.7). -/
def decRecord (av1 : Bool) (off len : Nat) (u : DecUnit) (outs : List (Nat × DecOp)) : List Byte :=
  let intra := match u.ops.find? (fun o => o.kind = 0) with
    | some o => o.intra
    | none => false
  let a := (outs[0]?).getD (0xFF, ({} : DecOp))
  let c := (outs[1]?).getD (0, ({} : DecOp))
  leBytes 8 off ++ leBytes 4 len ++ leBytes 1 (boolNat (!intra)) ++ leBytes 1 a.1 ++ leBytes 1 (boolNat a.2.grain) ++
    leBytes 1 (boolNat (decide (outs.length ≥ 2))) ++ leBytes 1 c.1 ++ leBytes 3 0 ++ leBytes 4 a.2.order ++
    (if av1 then leBytes 2 u.renderW ++ leBytes 2 u.renderH else leBytes 4 0) ++ leBytes 4 0

/-- Contents of buffers, in order. -/
def JobEnv.buffers (e : JobEnv) (x : Job) (ks : List Nat) : Except Flt (List (List Byte)) := mapE (e.buffer x) ks

/-- A profile that the engines decode (Table 11.1): Main and Main 10 of HEVC, Main of AV1. -/
def profileRuns (av1 : Bool) (p : Nat) : Bool := if av1 then p = 0 else p = 1 || p = 2

/-- A unit meets what the engines do not support, or what the descriptor does not accept (R261, R262). -/
def unsupported (e : JobEnv) (u : DecUnit) : Bool :=
  let av1 := bit e.b 8
  (if av1 then decide (u.opPoints > 1) || u.largeScale else u.fieldSeq) || u.chroma ≠ 1 || !profileRuns av1 u.profile ||
    !levelLegal av1 u.level || decide (u.width < 16) || decide (u.height < 16) || u.width % 2 ≠ 0 || u.height % 2 ≠ 0 ||
    (u.tenBit && e.variant ≠ 2 && !bit e.b 9)

/-- Why a unit cannot be decoded (Table 11.8), if it cannot; `first` is the first unit of a stream. -/
def unitFault (e : JobEnv) (x : Job) (u : DecUnit) (first : Bool) : Option Nat :=
  if unsupported e u then some 2
  else if u.width > jobW e.b ∨ u.height > jobH e.b then some 3
  else if (first && !u.start) || u.refs.any (fun k => x.mark k % 2 = 0) then some 5
  else if u.bad then some 1
  else none

/-- What is decoded of a unit: NAL units of other layers and every SEI are discarded (R262). -/
def keptUnit (av1 : Bool) (unit : List Byte) : List Byte :=
  if av1 then unit else ((Config.decNals unit).filter (fun n => n.layer = 0 && !n.sei)).flatMap (·.bytes)

/-- One unit is decoded; its outputs with their buffers. A RASL picture after a CRA that started the stream is discarded
(R276). -/
def decodeUnit (e : JobEnv) (lo n : Nat) (whole : List Byte) (x : Job) : Job × DecUnit × List (Nat × DecOp) :=
  let ps := decParams e.variant e.b
  let unit := keptUnit (bit e.b 8) whole
  let u := Config.decUnit ps x.vars unit x.marks
  let x := if u.start then { x with cra := decide (x.num = 0) && u.cra } else x
  if u.rasl && x.cra then (x, { u with ops := [], renderW := 0, renderH := 0 }, [])
  else match unitFault e x u (x.num = 0) with
  | some d => (x.stream d, u, [])
  | none =>
    match e.buffers x u.refs with
    | .error f => (x.fail f, u, [])
    | .ok refs =>
      let r := ((List.range u.ops.length).zip u.ops).foldl (decOp e lo n unit refs u x.vars) (x, none, [])
      ({ r.1 with vars := (List.range 3832).map (Config.decVars ps x.vars unit) }, u, r.2.2)

/-- The units of a decode job, each with its offset; a count other than PICTURES is detail 6 (R278). -/
def decodeUnits (e : JobEnv) (n : Nat) : Nat → Nat → List Byte → List Nat → Job → Job
  | i, off, stream, lens, x =>
    match lens with
    | [] => if x.err.isNone && (i ≠ field e.b 128 32 || stream ≠ []) then x.stream 6 else x
    | l :: rest =>
      if x.err.isSome then x
      else if i ≥ field e.b 128 32 then x.stream 6
      else
        let r := decodeUnit e 0 n (stream.take l) x
        let y := { r.1 with st := r.1.st.bytes (jobRec e.variant e.b + 32 * i) (decRecord (bit e.b 8) off l r.2.1 r.2.2) }
        decodeUnits e n (i + 1) (off + l) (stream.drop l) rest y

/-! ### Encoding (R279 to R285) -/

/-- Samples of a frame in raster order, luma, Cb, Cr (R271). -/
structure Frame where
  w : Nat := 0
  h : Nat := 0
  y : List Nat := []
  cb : List Nat := []
  cr : List Nat := []
  deriving DecidableEq, Repr

def plane (bs : List Byte) (at0 pitch w h : Nat) : List Nat :=
  (List.range (w * h)).map (fun i => leNat ((bs.drop (at0 + i / w * pitch + i % w * 2)).take 2))

def frameOf (w h : Nat) (bs : List Byte) : Frame :=
  let py := lumaPitch w
  let pc := chromaPitch w
  { w := w, h := h, y := plane bs 0 py w h, cb := plane bs (py * h) pc (w / 2) (h / 2)
    cr := plane bs (py * h + pc * (h / 2)) pc (w / 2) (h / 2) }

def Frame.samples (f : Frame) : List Nat := f.y ++ f.cb ++ f.cr

/-- Samples above the depth's largest value are clipped. -/
def Frame.clip (top : Nat) (f : Frame) : Frame :=
  { f with y := f.y.map (min top), cb := f.cb.map (min top), cr := f.cr.map (min top) }

/-- The mean of each 2 × 2 group, rounded half up (R290). -/
def halvePlane (w h : Nat) (p : List Nat) : List Nat :=
  (List.range (w / 2 * (h / 2))).map (fun i =>
    let a := i / (w / 2) * 2 * w + i % (w / 2) * 2
    (p.getD a 0 + p.getD (a + 1) 0 + p.getD (a + w) 0 + p.getD (a + w + 1) 0 + 2) / 4)

def Frame.halve (f : Frame) : Frame :=
  { w := f.w / 2, h := f.h / 2, y := halvePlane f.w f.h f.y, cb := halvePlane (f.w / 2) (f.h / 2) f.cb
    cr := halvePlane (f.w / 2) (f.h / 2) f.cr }

/-- The thumbnail: mean luma of each 64 × 64 block, rounded down (R284). -/
def Frame.thumb (f : Frame) : List Nat :=
  (List.range (areas f.w f.h)).map (fun i =>
    let bx := i % cdiv f.w 64
    let rows := (List.range 64).map (· + 64 * (i / cdiv f.w 64))
    let s := (rows.filter (· < f.h)).flatMap (fun y =>
      ((List.range 64).map (· + 64 * bx)).filterMap (fun x => if x < f.w then some (f.y.getD (y * f.w + x) 0) else none))
    s.foldl (· + ·) 0 / s.length)

/-- Sum of absolute differences of two thumbnails. -/
def thumbDist (a b : List Nat) : Nat := (a.zip b).foldl (fun n p => n + (p.1 - p.2) + (p.2 - p.1)) 0

/-- The thumbnail that a buffer's side area keeps. -/
def thumbOf (start n : Nat) (buf : List Byte) : List Nat :=
  (List.range n).map (fun i => leNat ((buf.drop (start + 2 * i)).take 2))

/-- Where a buffer's thumbnail starts: behind its frame and its motion field. -/
def JobEnv.thumbAt (e : JobEnv) : Nat := e.frame + motionBytes (jobW e.b) (jobH e.b)

/-- What an encoder is told: standard, depth, class, level, refresh period, QP and its bounds, thresholds, target. -/
structure EncSet where
  av1 : Bool := false
  deep : Bool := false
  classL : Bool := false
  level : Nat := 0
  refreshN : Nat := 0
  rate : Bool := false
  qp : Int := 0
  qpMin : Int := 0
  qpMax : Int := 0
  target : Nat := 0
  cut : Nat := 0
  ltMatch : Nat := 0
  lo : Nat := 0
  n : Nat := 0
  deriving DecidableEq, Repr

def qpOf (av1 : Bool) (v : Nat) : Int := if av1 then v else toSigned v 8

def encSet (variant b : Nat) : EncSet :=
  let n := jobPool variant b
  if variant = 2 then
    { av1 := bit b 9, deep := bit b 10, level := field b 48 8, refreshN := field b 56 8, qp := qpOf (bit b 9) (field b 64 8)
      lo := n / 2, n := n - n / 2 }
  else
    { av1 := bit b 8, deep := bit b 9, classL := bit b 10, level := field b 48 8, refreshN := field b 56 8
      rate := bit b 11, qp := qpOf (bit b 8) (field b 64 8), qpMin := qpOf (bit b 8) (field b 72 8)
      qpMax := qpOf (bit b 8) (field b 80 8), target := field b 192 32, cut := field b 96 8, ltMatch := field b 88 8
      lo := 0, n := n }

/-- The QP of the next picture (R282). -/
def pictureQp (k : EncSet) (x : Job) : Int :=
  if !k.rate then k.qp
  else
    let dev : Int := (x.sizes.foldl (· + ·) 0 : Nat) - (x.sizes.length * k.target : Nat)
    let step := if k.target = 0 then Config.rateFree dev else (8 * dev).fdiv (16 * k.target)
    max k.qpMin (min k.qpMax (k.qp + step))

/-- Block columns, cycle length and index of picture p of the gradual refresh (R285). -/
def refreshCycle (wb n p : Nat) : Nat × Nat × Nat :=
  if n = 0 then (0, 0, 0)
  else
    let c := cdiv wb n
    let cycle := cdiv wb c
    (c, cycle, if p = 0 then 0 else (p - 1) % cycle)

/-- The long-term slot of the least distance to a picture, the lowest slot first. -/
def nearestSlot (d : Nat → Option Nat) (n : Nat) : Option (Nat × Nat) :=
  (List.range n).foldl (fun (m : Option (Nat × Nat)) i =>
    match d i, m with
    | none, _ => m
    | some v, none => some (i, v)
    | some v, some (_, w) => if v < w then some (i, v) else m) none

/-- The slot that a picture fills: an empty one, else the one least recently referenced. -/
def fillSlot (slots : List (Nat × Nat)) : Nat :=
  match slots.findIdx? (fun p => p.1 = 16) with
  | some i => i
  | none => (List.range slots.length).foldl (fun m i =>
      if (slots.getD i (16, 0)).2 < (slots.getD m (16, 0)).2 then i else m) 0

/-- Long-term slots after the next picture references one. -/
def touchSlot (x : Job) (lt : Option Nat) : List (Nat × Nat) :=
  match lt with
  | some j => x.slots.set j ((x.slots.getD j (16, 0)).1, x.num)
  | none => x.slots

/-- The choices of class L for a picture (R284): does it fill a slot; the slot searched as second reference. -/
def classLChoice (e : JobEnv) (k : EncSet) (x : Job) (f : Frame) : Except Flt (Bool × Option Nat) :=
  if !k.classL then .ok (false, none)
  else if x.num = 0 then .ok (true, none)
  else
    let n := areas f.w f.h
    let dist := fun (b : Nat) => (e.buffer x b).map (fun bs => thumbDist f.thumb (thumbOf e.thumbAt n bs))
    match (match x.prev with
      | some b => dist b
      | none => .ok 0) with
    | .error flt => .error flt
    | .ok dp =>
      match mapE (fun (p : Nat × Nat) => if p.1 = 16 then .ok none else (dist p.1).map some) x.slots with
      | .error flt => .error flt
      | .ok ds =>
        let near := nearestSlot (fun i => (ds.getD i none)) x.slots.length
        .ok (decide (dp > k.cut * n), near.bind (fun p => if p.2 ≤ k.ltMatch * n then some p.1 else none))

/-! The tools, columns and vectors that an encoder may use (Table 11.2, R285, R287). -/

/-- Luma samples that motion search of block (bx, by) caches of each reference: left column, top row, width, height. From
block to block it moves by one block column, 64 samples (R287). -/
def searchWindow (bx by_ : Nat) : Int × Int × Int × Int := (64 * (bx : Int) - 288, 64 * (by_ : Int) - 160, 640, 384)

/-- First and last sample that a block of a size at a position reads along one axis, with the eight taps of a fractional
vector. -/
def refSpan (pos size : Nat) (mv : Int) : Int × Int :=
  let a := (pos : Int) + mv.fdiv 4
  let b := a + size - 1
  if mv.fmod 4 = 0 then (a, b) else (a - 3, b + 4)

/-- A reference that the encoder may use for a block: vectors of ±256 by ±128 samples within the search window; in a
column not yet refreshed only clean columns of the previous picture; long-term pictures where one was chosen. -/
def legalRef (p : EncPic) (b : EncBlock) (r : EncRef) : Bool :=
  let col := b.x / 64
  let clean := p.index * p.cols
  let w := searchWindow col (b.y / 64)
  let h := refSpan b.x b.size r.mvx
  let v := refSpan b.y b.size r.mvy
  decide (r.mvx.natAbs ≤ 1024) && decide (r.mvy.natAbs ≤ 512) && decide (w.1 ≤ h.1) && decide (h.2 < w.1 + w.2.2.1) &&
    decide (w.2.1 ≤ v.1) && decide (v.2 < w.2.1 + w.2.2.2) && (!r.lt || (p.golden.isSome && decide (clean ≤ col))) &&
    (decide (clean ≤ col) || decide (h.2 ≤ 64 * (clean : Int) - 5))

/-- Columns that a picture codes as intra: all of its stream's first, else those of its refresh step. -/
def intraColumn (p : EncPic) (col : Nat) : Bool :=
  p.first || (decide (p.index * p.cols ≤ col) && decide (col < min ((p.index + 1) * p.cols) (cdiv p.width 64)))

/-- A coding block in the tools of Table 11.2; one that no legal reference is left to is intra. -/
def legalBlock (p : EncPic) (b : EncBlock) : Option EncBlock :=
  if !([8, 16, 32, 64] : List Nat).contains b.size || b.x % b.size ≠ 0 || b.y % b.size ≠ 0 || decide (b.x ≥ p.width) ||
      decide (b.y ≥ p.height) || decide (b.part > 3) || decide (b.tx < 2) || decide (b.tx > 5) || decide (b.txType > 1) then none
  else
    let refs := if b.intra || intraColumn p (b.x / 64) then [] else (b.refs.filter (legalRef p b)).take 2
    let modes := if refs = [] then (if p.av1 then 13 else 35) else (if p.av1 then 4 else 6)
    some { b with intra := refs = [], refs := refs, mode := b.mode % modes }

/-- The decisions of a picture: tile columns of at most 4,096 samples in AV1, none in HEVC. -/
def legalChoice (p : EncPic) (c : EncChoice) : EncChoice :=
  { tileCols := if p.av1 then max c.tileCols (cdiv p.width 4096) else 1, blocks := c.blocks.filterMap (legalBlock p) }

/-- The record of a coded picture (Table 11.7). -/
def encRecord (at0 len qp num : Nat) (intra cycleStart fills usesLt : Bool) (refs : List Nat) : List Byte :=
  let mask := refs.foldl (fun m b => m ||| 2 ^ b) 0
  leBytes 8 at0 ++ leBytes 4 len ++ leBytes 1 (boolNat (!intra)) ++ leBytes 1 qp ++ leBytes 1 mask ++
    leBytes 1 (boolNat cycleStart + 2 * boolNat fills + 4 * boolNat usesLt) ++ leBytes 8 num ++ leBytes 1 (mask / 256) ++
    leBytes 7 0

/-- Bytes of the bitstream in the ring (R279). -/
def ringStore (ring : Nat × Nat) (prod : Nat) (st : Stores) (bs : List Byte) : Stores :=
  (List.range bs.length).foldl (fun u i =>
    u.bytes (ring.1 + (prod + i) % 2 ^ ring.2) ((bs[i]?).toList)) st

/-- What the next picture is coded as; `c6` is the input's depth for a transcode. -/
def encPicOf (k : EncSet) (x : Job) (f : Frame) (c6 : Option Bool) (fills : Bool) (lt : Option Nat) : EncPic :=
  let r := refreshCycle (cdiv f.w 64) k.refreshN x.num
  { av1 := k.av1, deep := k.deep, classL := k.classL, width := f.w, height := f.h, level := k.level, num := x.num
    qp := (pictureQp k x % 256).toNat, first := x.num = 0
    recovery := if decide (k.refreshN ≠ 0) && decide (x.num ≠ 0) && decide (r.2.2 = 0) then some (r.2.1 - 1) else none
    cols := r.1, index := r.2.2, slots := x.slots
    fills := if fills then some (fillSlot (touchSlot x lt)) else none, golden := lt, c6 := c6 }

/-- Marks after picture b is coded: the previous picture's REF goes unless a long-term slot holds it, and the picture of a
replaced slot goes (R283, R284). -/
def marksAfter (x : Job) (b : Nat) (slots : List (Nat × Nat)) (fills : Bool) : List Nat :=
  (List.range 16).map (fun m =>
    if m = b then 1 + 4 * boolNat fills
    else if slots.any (fun q => q.1 = m) then x.mark m
    else if x.prev = some m ∨ x.slots.any (fun q => q.1 = m) then dropRef (x.mark m)
    else x.mark m)

/-- One picture is coded. -/
def encodePicture (e : JobEnv) (k : EncSet) (cons : Nat) (c6 : Option Bool) (f : Frame) (x : Job) : Job :=
  if x.err.isSome then x
  else match classLChoice e k x f with
    | .error flt => x.fail flt
    | .ok (fills, lt) =>
      let pic := encPicOf k x f c6 fills lt
      let ltBuf := lt.map (fun j => (x.slots.getD j (16, 0)).1)
      let refs := if pic.first then [] else x.prev.toList ++ ltBuf.toList
      match e.buffers x refs, x.free k.lo k.n none with
      | .error flt, _ => x.fail flt
      | .ok _, none => x.stream 4
      | .ok rs, some b =>
        let bytes := f.samples.flatMap (leBytes 2)
        let choice := legalChoice pic (Config.encChoice pic x.vars bytes rs)
        let code := Config.encBytes pic choice x.vars bytes rs
        let ring := jobRing e.variant e.b
        if ahead 64 x.prod cons + code.length > 2 ^ ring.2 then x.stream 7
        else
          let raw := (List.range (e.frame + 2 ^ 22)).map (fun j =>
            depthByte e.frame k.deep j (Config.encByte pic choice x.vars bytes rs j))
          let small := if k.classL then f.thumb.flatMap (leBytes 2) else []
          let buf := raw.take e.thumbAt ++ small ++ raw.drop (e.thumbAt + small.length)
          let slots := match pic.fills with
            | some j => (touchSlot x lt).set j (b, pic.num)
            | none => touchSlot x lt
          let y := e.put x b buf
          { y with
            marks := marksAfter x b slots fills, slots := slots, prev := some b, num := (pic.num + 1) % 2 ^ 64
            refresh := pic.index
            vars := (List.range 3832).map (Config.encVars pic choice x.vars bytes rs)
            prod := (x.prod + code.length) % 2 ^ 64
            sizes := (x.sizes ++ [8 * code.length]).drop (x.sizes.length + 1 - 16)
            st := (ringStore ring x.prod y.st code).bytes (jobRec e.variant e.b + 32 * x.recs)
              (encRecord x.prod code.length pic.qp pic.num pic.first pic.recovery.isSome fills lt.isSome refs)
            recs := x.recs + 1, pictures := x.pictures + 1, blocks := x.blocks + areas f.w f.h }

/-- The input frames of an encode job, in order (R271, R279). -/
def encodeFrames (e : JobEnv) (cons : Nat) (x : Job) : Job :=
  let k := encSet 1 e.b
  let top := if k.deep then 1023 else 255
  (List.range (field e.b 128 32)).foldl (fun y i =>
    if y.err.isSome then y
    else match e.s.readBytes e.c readRole (field e.b 448 48 + i * roundUp e.frame 4096) e.frame with
      | .error f => y.fail f
      | .ok bs =>
        let f := frameOf (jobW e.b) (jobH e.b) bs
        let y := { y with clipped := y.clipped + (f.samples.filter (· > top)).length }
        encodePicture e k cons none (f.clip top) y) x

/-! ### Transcoding (R289, R290) -/

/-- The output pictures of a unit are coded, in order, each from its buffer, halved where the job says so. -/
def codeOutputs (e : JobEnv) (cons : Nat) (deep : Bool) (outs : List (Nat × DecOp)) (x : Job) : Job :=
  outs.foldl (fun y p =>
    if y.err.isSome then y
    else match e.buffer y p.1 with
      | .error f => y.fail f
      | .ok bs =>
        let f := frameOf (jobW e.b) (jobH e.b) bs
        let g := if bit e.b 11 then f.halve else f
        let y := encodePicture e (encSet 2 e.b) cons (some deep) g y
        -- the decoded picture has passed to the encoder
        y.setMark p.1 (dropOut (y.mark p.1))) x

/-- The units of a transcode job: the decoder's carried state and the encoder's are kept apart. -/
def transcodeUnits (e : JobEnv) (cons n : Nat) : Nat → List Byte → List Nat → Job → Job → Job
  | i, stream, lens, d, x =>
    match lens with
    | [] => if x.err.isNone && (i ≠ field e.b 128 32 || stream ≠ []) then x.stream 6 else x
    | l :: rest =>
      if x.err.isSome then x
      else if i ≥ field e.b 128 32 then x.stream 6
      else
        let r := decodeUnit e 0 n (stream.take l) { x with vars := d.vars, num := d.num }
        let y := codeOutputs e cons r.2.1.tenBit r.2.2 { r.1 with vars := x.vars, num := x.num }
        transcodeUnits e cons n (i + 1) (stream.drop l) rest { d with vars := r.1.vars, num := r.1.num } y

/-! ### A job -/

/-- Bytes of the input bitstream. -/
def JobEnv.stream (e : JobEnv) : Except Flt (List Byte) :=
  if e.variant = 2 then e.s.readBytes e.c readRole (field e.b 192 64) (field e.b 160 32)
  else e.s.readBytes e.c readRole (field e.b 448 48) (field e.b 512 32)

/-- All that a job does; `cons` is the value read at CONS_ADDR when it started (R270). -/
def runJob (e : JobEnv) (cons : Nat) : Job :=
  let n := jobPool e.variant e.b
  if e.variant = 2 then
    match e.stream with
    | .error f => ({} : Job).fail f
    | .ok bs =>
      let x : Job := { marks := List.replicate 16 0, first := List.replicate 16 0 }
      transcodeUnits e cons (n / 2) 0 bs (Config.decSplit (decParams 2 e.b) bs) x x
  else
    match e.s.readBytes e.c readRole (field e.b 320 48) 4096 with
    | .error f => ({} : Job).fail f
    | .ok ctx =>
      let x := openCtx e.variant e.b ctx
      let y :=
        if x.err.isSome then x
        else if e.variant = 1 then encodeFrames e cons x
        else match e.stream with
          | .error f => x.fail f
          | .ok bs => decodeUnits e n 0 0 bs (Config.decSplit (decParams 0 e.b) bs) x
      { y with st := y.st.bytes (field e.b 384 48) (closeCtx e.variant e.b y) }

/-- K-cycles of a job's pipelines (R286). -/
def jobCycles (variant b pics : Nat) : Nat :=
  let dec := (field b 128 32 * cdiv (jobH b) 64 + 2) * cdiv (jobW b) 64 * 1520
  let enc := fun (w h : Nat) =>
    let hb := cdiv h 64
    let gap := max hb (min 3 (hb - 1) + 3)
    if pics = 0 then 0 else ((pics - 1) * gap + hb + 3) * cdiv w 64 * 3040
  if variant = 0 then dec
  else if variant = 1 then enc (jobW b) (jobH b)
  else dec + (if bit b 11 then enc (jobW b / 2) (jobH b / 2) else enc (jobW b) (jobH b))

/-! ### Engines (R264, R265) -/

/-- A codec engine in service: its half is not fenced and its two domains are not gated. -/
def codecReady (s : State) (e : Nat) : Bool :=
  !s.fenced (e / 4) && !bitOf s.twc.gated (304 + e) && !bitOf s.twc.gated (312 + e)

/-- The idle engine that a queue's job takes. -/
def idleCodecFor (s : State) (q : Nat) : Option Nat :=
  let h := queueHalf q
  ((List.range 4).map (· + 4 * h) ++ (List.range 4).map (· + 4 * (1 - h))).find? (fun e =>
    codecReady s e && !(s.codecEng e).busy)

def codecVariant : Op → Nat
  | .codec v _ => v
  | _ => 0

/-- A job starts on an engine: CONS_ADDR is read once. -/
def startJob (q j e : Nat) (s : State) : State :=
  let i := s.inst q j
  let v := codecVariant i.op
  let b := (i.descs.getD 0 {}).bits
  match (if v = 0 then .ok [] else s.readBytes (s.ctx q) readRole (jobCons v b) 8) with
  | .error f => runFault q i.word f s
  | .ok bs =>
    (s.modInst q j (fun x => { x with engine := some e })).modCodecEng e (fun t => { t with
      busy := true, variant := v, queue := q, inst := j, cons := leNat bs })

/-- A job descriptor as dispatch reads it: its fixed bits agree with the image's (R70), its addresses are aligned. -/
def State.readJob (s : State) (c : Ctx) (variant va : Nat) : Except Flt Desc :=
  match s.readBytes c readRole va 128 with
  | .error f => .error f
  | .ok bs =>
    let b := leNat bs
    if jobFixed variant b ≠ jobFixed variant ((jobOf c.img va).getD 0) then .error (0x0F, 3)
    else if !jobAligned variant b then .error (0x0F, 5)
    else .ok { va := va, bits := b }

/-- CODEC dispatches (R102, R264): a job of no pictures does nothing (R277). -/
def startCodec (q variant job : Nat) (s : State) : Except Flt State :=
  let r := s.run q
  match s.readJob (s.ctx q) variant (job * 64) with
  | .error f => .error f
  | .ok d =>
    let none_ := decide (field d.bits 128 32 = 0)
    match hold q r.ip (if none_ then 0 else 1) [] s with
    | .error f => .error f
    | .ok s =>
      let new : Inst := { word := wordIndex r, op := .codec variant job, descs := [d], set := r.set, snd := r.snd
                          planned := true, zero := none_, done := none_ }
      let j := r.insts.length
      let s := s.modRun q (fun x => { x with insts := x.insts ++ [new] })
      if none_ then .ok s else .ok { s with codecQ := s.codecQ ++ [(q, j)] }

/-- The jobs that wait first take the idle engines; the fuel bounds their number. -/
def grantCodecs : Nat → State → State
  | 0, s => s
  | k + 1, s =>
    match s.codecQ with
    | [] => s
    | (q, j) :: rest =>
      match idleCodecFor s q with
      | none => s
      | some e => grantCodecs k (startJob q j e { s with codecQ := rest })

/-- CODEC: a job that finds an idle engine, and no job waiting before it, takes it at once. -/
def execCodec (q variant job : Nat) (s : State) : Res :=
  let waits := s.codecQ ≠ []
  let t := dispatch q (.codec variant job) (startCodec q variant job) s
  .next (if waits then t else grantCodecs t.codecQ.length t)

/-- The job that has waited longest takes an idle engine. -/
def execCodecEngineGrant (s : State) : Res := .next (grantCodecs 1 s)

/-- A job ends: its stores, the release that commit phase 4 applies (R280), the engine's counts. -/
def execCodecJobDone (engine : Nat) (s : State) : Res :=
  let t := s.codecEng engine
  if !t.busy then .next s
  else
    let q := t.queue
    let i := s.inst q t.inst
    let b := (i.descs.getD 0 {}).bits
    let c := s.ctx q
    let x := runJob { s := s, c := c, variant := t.variant, b := b } t.cons
    let s := s.modCodecEng engine (fun k => { k with
      busy := false, pictures := wrapAdd 64 k.pictures x.pictures, blocks := wrapAdd 64 k.blocks x.blocks
      clipped := wrapAdd 64 k.clipped x.clipped })
    let s := addCycles c.berth 5 (jobCycles t.variant b x.recs) (s.modInst q t.inst (fun y => { y with engine := none }))
    match x.err with
    | some f => .next (runFault q i.word f s)
    | none =>
      let done : Except Flt State := match s.store (poolCtx c) x.pool with
        | .error f => .error f
        | .ok s => s.store c x.st
      match done with
      | .error f => .next (runFault q i.word f s)
      | .ok s =>
        let rel : List HeldRec := if t.variant = 0 then []
          else [{ inst := wordPos (s.run q) t.inst, ord := 0, eff := .release (jobProd t.variant b) x.prod }]
        let s := s.modRun q (fun r => { r with held := r.held ++ rel })
        .next (s.modInst q t.inst (fun y => { y with done := true }))

end Sys2Proof.Machine
end

