-- ==== Sys2Proof/Machine/Regs.lean ====
section
/-! DEFINITION. Register space (00_scope.md R3 to R7; 01_the_part.md R25 to R29): every register of BAR0 and of the berth
windows of BAR2, read and written, with the register maps of the chapters. -/
namespace Sys2Proof.Machine

/-- A register value from its fields, each with its lowest bit. -/
def pack (l : List (Nat × Nat)) : Nat := l.foldl (fun n p => n + p.2 * 2 ^ p.1) 0

/-! ### Reads of BAR0 -/

/-- GLB (Tables 1.8 to 1.10, 6.8, 15.6 to 15.8, 18.7, 18.8, 23.8), the MSI-X structures and the CXL component registers of
R26. -/
def readGlb (s : State) (o : Nat) : Nat :=
  let g := s.glb
  if o = 0x0000 then pack [(0, 0x9632), (16, 1), (24, 1)]
  else if o = 0x0008 then halfStatus g
  else if o = 0x0010 then
    pack [(0, boolNat g.rootLock), (1, boolNat g.sOnRoot), (2, boolNat g.clkFault), (3, g.relockCount)]
  else if o = 0x0100 then g.base2.toNat
  else if o = 0x0200 then pack [(0, g.preemptGap), (32, boolNat g.preemptEn)]
  else if 0x1000 ≤ o ∧ o < 0x1800 then
    let t := s.berth ((o - 0x1000) / 64)
    let c := (o - 0x1000) % 64 / 8
    if c = 0 then pack [(0, t.share), (16, boolNat t.layout.configured), (32, t.layout.shareMin), (48, t.layout.shareMax)]
    else if t.layout.configured then look 0 t.cycles (c - 1) else 0
  else if 0x1800 ≤ o ∧ o < 0x1A00 then
    let t := s.berth ((o - 0x1800) / 16)
    let on := fun (n : Nat) => if t.layout.configured then n else 0
    if o % 16 = 0 then on t.virt else pack [(0, t.layout.ration), (32, on t.preempted)]
  else if 0x2000 ≤ o ∧ o < 0x2400 then
    field (s.berth ((o - 0x2000) / 32)).layout.cores.toNat (64 * ((o - 0x2000) % 32 / 8)) 64
  else if o = 0x3000 then
    pack [(0, g.linkWidth), (5, g.linkRate), (8, boolNat g.cxlCache), (9, boolNat g.cxlMem), (10, boolNat g.degraded),
      (11, boolNat g.lanesHalf1), (32, g.trainings)]
  else if o = 0x3008 then pack [(0, g.errReason), (4, g.errDecoder), (32, g.errRefused)]
  else if 0x3010 ≤ o ∧ o < 0x3030 then
    let d := look {} g.hdm ((o - 0x3010) / 8)
    pack [(0, d.bindBerth), (5, boolNat d.bindValid), (21, d.bindVbase / 2 ^ 21)]
  else if o = 0x4000 then pack [(0, g.vin), (16, g.iin), (32, boolNat g.trip), (33, g.tripSensor)]
  else if o = 0x4008 then pack [(0, g.uvEvents), (32, g.trips)]
  else if 0x8000 ≤ o ∧ o < 0x10000 then
    let e := look {} g.msix ((o - 0x8000) / 16)
    if o % 16 = 0 then e.addr else pack [(0, e.data), (32, boolNat e.masked)]
  else if 0x10000 ≤ o ∧ o < 0x10100 then
    let v := 8 * (o - 0x10000)
    pack ((List.range 64).map (fun i => (i, boolNat (look {} g.msix (v + i)).pending)))
  else if 0x20000 ≤ o ∧ o < 0x30000 then
    readComponent s (o - 0x20000) + readComponent s (o - 0x20000 + 4) * 2 ^ 32
  else 0

/-- A doorbell (Table 2.1); a queue of no admitted image, or of a fenced half, reads 0 (R28, R35). -/
def readDoorbell (s : State) (q : Nat) : Nat := if doorbellOpen s q then (s.queue q).tail else 0

/-- A sync object's register at offset 0 or 8 (Table 2.3). -/
def readSync (s : State) (i : Nat) (second : Bool) : Nat :=
  let k := s.sync i
  if s.fenced (syncHalf i) then 0
  else if !second then k.value
  else pack [(0, k.berth), (5, boolNat k.allocated), (6, boolNat k.irqEn), (7, k.vector), (18, boolNat k.dropped)]

/-- A core's registers (Tables 5.7, 5.8, 6.9, 6.10, 7.7, 8.3, 12.3, 12.4). -/
def readCore (s : State) (c o : Nat) : Nat :=
  let k := s.core c
  let mx := fun (f : Mxe → Bool) => pack ((List.range 4).map (fun m => (m, boolNat (f (look {} k.mxe m)))))
  if s.fenced (coreHalf c) then 0
  else if 0x200 ≤ o ∧ o < 0x280 then
    let t := look {} k.trays ((o - 0x200) / 8)
    pack [(0, t.owner), (4, t.berth), (9, boolNat t.pinned), (10, boolNat t.scrubbing)]
  else if o = 0x280 then pack [(0, k.tfTray), (4, k.tfFound), (8, k.tfAccessor), (32, k.tfCount)]
  else if o = 0x400 then pack [(0, mx (·.busy)), (4, mx (·.stolen)), (8, mx (·.inCrew))]
  else if 0x408 ≤ o ∧ o < 0x428 then (look {} k.mxe ((o - 0x408) / 8)).tiles
  else if o = 0x428 then k.steals
  else if o = 0x480 then
    let m := k.mxe.map (·.2)
    pack [(0, boolNat (k.rweBusy || m.any (·.stream))), (1, boolNat (k.rweHeirloom || m.any (·.streamHeirloom)))
      , (2, boolNat (k.rweBase2 || m.any (·.streamBase2)))]
  else if o = 0x488 then k.rweRows
  else if o = 0x490 then k.rweEvals
  else if o = 0x4C0 then k.attnChunks
  else if o = 0x4C8 then k.attnWait
  else if o = 0x500 then k.sndTiles
  else 0

/-- A cluster's registers (Tables 5.5, 5.6, 10.4, 10.5). -/
def readClu (s : State) (c o : Nat) : Nat :=
  let k := s.cluster c
  if s.fenced (clusterHalf c) then 0
  else if o = 0x1000 then
    pack [(0, boolNat k.stealEn), (1, boolNat k.stealXEn), (4, k.stealMinX), (8, boolNat k.planReuseEn)]
  else if o = 0x1008 then pack [(0, k.plans), (32, k.reused)]
  else if o = 0x2000 then
    pack [(0, boolNat k.strBusy), (1, boolNat k.strStolen), (2, boolNat k.strZc), (3, k.strHs % 32), (32, k.strStripe)]
  else if o = 0x2008 then k.strDone
  else if o = 0x2010 then k.strRefetch
  else if o = 0x2018 then k.strZcBytes
  else 0

/-- A half's Harbour registers (Tables 12.5 to 12.7, 15.9). -/
def readHbr (s : State) (h o : Nat) : Nat :=
  let k := s.harbour h
  let charged := (List.range 32).foldl (fun n b => n + (look {} k.shares b).resident + (look {} k.shares b).scratch) 0
  if s.fenced h then 0
  else if o = 0x00 then pack [(0, k.moorWays), (8, k.gated.toNat)]
  else if o = 0x08 then pack [(0, k.lines.length), (32, charged)]
  else if o = 0x10 then k.hits
  else if o = 0x18 then k.misses
  else if o = 0x20 then k.atoms
  else if o = 0x80 then pack [(0, k.hostW), (16, k.migW), (32, k.window)]
  else if 0x100 ≤ o ∧ o < 0x200 then
    let t := look {} k.shares ((o - 0x100) / 8)
    pack [(0, t.share), (16, t.resident), (32, t.scratch), (48, boolNat t.waiting)]
  else 0

/-- A stack's registers (Tables 13.5 to 13.8, 15.9). -/
def readStk (s : State) (k o : Nat) : Nat :=
  let t := s.stack k
  if s.fenced (k / 16) then 0
  else if o = 0x00 then pack [(0, s.glb.crustSplit), (8, s.glb.crumbSplit)]
  else if o = 0x08 then
    pack [(0, t.temp), (10, t.stkM), (14, (s.cluster k).mTherm), (18, boolNat t.doubleRefresh), (19, boolNat t.crit)]
  else if o = 0x10 then pack [(0, t.tHi), (8, t.tLo)]
  else if o = 0x18 then t.markThresh
  else if o = 0x20 then t.ueAddr
  else if o = 0x28 then pack [(0, t.ueChan), (6, t.ueSource), (32, t.ueCount)]
  else if o = 0x30 then pack [(0, t.wideW), (16, t.narrowW), (32, t.window)]
  else if 0x100 ≤ o ∧ o < 0x300 then
    let c := look {} t.chans ((o - 0x100) / 8)
    pack [(0, boolNat c.valid), (1, c.pin), (6, boolNat c.auto), (7, boolNat c.second)]
  else if 0x400 ≤ o ∧ o < 0x600 then
    let c := look {} t.chans ((o - 0x400) / 8)
    pack [(0, c.corrected), (32, c.lastPin)]
  else 0

/-- The Shelf's registers (Tables 14.4 to 14.6, 15.9); what the map fills reads 0 until MAP_READY (R363). -/
def readShf (s : State) (o : Nat) : Nat :=
  let k := s.shelf
  let up := fun (n : Nat) => if k.mapReady then n else 0
  if o = 0x00 then
    pack [(0, k.inService.toNat), (8, field s.twc.gated.toNat 368 8), (16, boolNat k.mapReady),
      (17, up (boolNat k.lowSpare)), (18, up (boolNat k.wearWarn))]
  else if o = 0x08 then pack [(0, up (minErase s)), (16, up (maxErase s)), (32, up (avgErase s)), (48, 3000)]
  else if o = 0x10 then pack [(0, up (spareBlocks s)), (32, up (badBlocks s))]
  else if o = 0x18 then up k.written
  else if o = 0x20 then up k.refreshed
  else if o = 0x28 then up k.lost
  else if o = 0x30 then pack [(0, k.readW), (16, k.migW), (32, k.window)]
  else if 0x100 ≤ o ∧ o < 0x200 then
    let b := (o - 0x100) / 8
    pack [(0, (s.berth b).layout.parkRes), (32, up (parkErased s b))]
  else 0

/-- Part-wide Causeway registers (Table 16.9). -/
def readCwy (s : State) (o : Nat) : Nat :=
  let c := s.cwy
  let e := look {} c.routes (routeKey s.glb.chair c.rtVl c.rtDst)
  if o = 0x800 then c.partId
  else if o = 0x808 then pack [(0, c.resendUs), (16, c.resends), (20, c.deliveryTimeout)]
  else if o = 0x810 then pack [(0, c.rtDst), (16, c.rtVl)]
  else if o = 0x818 then pack [(0, e.primary), (6, boolNat e.priValid), (8, e.alt), (14, boolNat e.altValid)]
  else if o = 0x820 then pack [(0, c.drops), (32, c.lastNack), (36, c.resent)]
  else if o = 0x828 then pack [(0, c.holDrops), (32, c.filterFull)]
  else 0

/-- A port's registers (Tables 16.7, 16.8), and the part-wide ones in the units of ports 0 and 32. -/
def readPort (s : State) (p o : Nat) : Nat :=
  let t := s.port p
  let runs := t.state = .up || t.state = .draining
  if s.fenced (portHalf p) then 0
  else if o = 0x00 then boolNat t.enable
  else if o = 0x08 then
    pack [(0, match t.state with | .off => 0 | .training => 1 | .up => 2 | .draining => 3 | .down => 4),
      (3, t.locked.toNat), (11, boolNat (runs && decide (t.unacked.length < 2048))), (32, t.peerPart), (48, t.peerPort)]
  else if o = 0x10 then pack [(0, t.w1), (16, t.w2), (32, t.w3), (48, t.w4)]
  else if o = 0x18 then pack [(0, t.w5), (16, t.w6), (32, t.w7), (48, t.window)]
  else if o = 0x20 then pack [(0, t.fecCorr), (32, t.fecUncorr)]
  else if o = 0x28 then pack [(0, t.retries), (32, t.linkDowns), (48, t.rxBad)]
  else if o = 0x30 then t.txFlits
  else if p % 32 = 0 then readCwy s o
  else 0

/-- A codec engine's registers (Tables 11.10, 11.11). -/
def readCdc (s : State) (e o : Nat) : Nat :=
  let t := s.codecEng e
  let waits := s.codecQ.any (fun w => queueHalf w.1 = e / 4)
  if s.fenced (e / 4) then 0
  else if o = 0x00 then pack [(0, boolNat t.busy), (1, t.variant), (3, t.queue), (22, boolNat waits)]
  else if o = 0x08 then t.pictures
  else if o = 0x10 then t.blocks
  else if o = 0x18 then t.clipped
  else 0

/-- A half's Tidewatch registers (Tables 17.8, 19.10 to 19.13). -/
def readTwc (s : State) (h o : Nat) : Nat :=
  let t := s.half h
  let w := s.twc
  if o = 0x0000 then pack [(0, w.pwrLimit), (16, w.pwrHyst), (32, w.telemMs)]
  else if o = 0x0008 then pack [(0, t.loops), (32, t.overruns)]
  else if o = 0x0010 then pack [(0, w.power), (16, w.mP), (32, w.ocTrips)]
  else if 0x0100 ≤ o ∧ o < 0x0180 then
    let c := s.cluster (16 * h + (o - 0x100) / 8)
    pack [(0, c.mCap), (4, c.mTherm), (8, c.mEff)]
  else if o = 0x0180 then pack [(0, t.fCap), (4, t.sCap), (8, t.kCap)]
  else if o = 0x0308 then pack [(0, w.errDomain), (9, w.errWhy), (32, w.errRefused)]
  else if 0x0310 ≤ o ∧ o < 0x0340 then field w.gated.toNat (8 * (o - 0x310)) 64
  else if o = 0x0400 then w.ringBase
  else if o = 0x0408 then pack [(0, boolNat w.ringEn), (1, w.ringLog2), (32, w.ringDropped)]
  else if o = 0x0410 then pack [(0, w.prod), (32, w.cons)]
  else if o = 0x0418 then pack [(0, w.reportPart), (16, boolNat w.reportValid)]
  else if o = 0x0508 then w.cmdArg
  else if o = 0x0510 then pack [(0, boolNat w.cmdBusy), (8, w.lastOp), (16, w.result), (32, w.cmdDone)]
  else if o = 0x0600 then
    pack [(0, match t.chair with | .boot => 0 | .agreed => 1 | .split => 2 | .alone => 3), (2, t.cause),
      (5, boolNat t.claim), (6, boolNat t.peerHb), (32, t.splits)]
  else if o = 0x3000 then pack [(0, t.lostMs), (16, t.heartbeatMs), (32, t.reformMs)]
  else if 0x3010 ≤ o ∧ o < 0x3030 then
    let e := s.lshEng (4 * h + (o - 0x3010) / 8)
    let waits := s.lshQ.any (fun x => queueHalf x.1 = h)
    pack [(0, boolNat e.busy), (1, e.variant), (4, e.queue), (23, boolNat waits), (32, e.group)]
  else if 0x3030 ≤ o ∧ o < 0x3050 then (s.lshEng (4 * h + (o - 0x3030) / 8)).bytes
  else if 0x4000 ≤ o ∧ o < 0x4800 then
    let t := s.berth ((o - 0x4000) / 64)
    let k := (o - 0x4000) % 64 / 8
    if k = 7 then 0
    else pack [(0, t.layout.quotas.getD k 0), (32, match t.image with | some img => quotaUse img k | none => 0)]
  else 0

/-- The security block (Table 20.11). -/
def readSec (s : State) (o : Nat) : Nat :=
  let x := s.sec
  if o = 0x00 then
    pack [(0, boolNat x.provisioned), (1, boolNat x.measMatch), (2, boolNat x.copyH0), (3, boolNat x.copyH1),
      (4, pack ((List.range 4).map (fun k => (k, boolNat (Config.slotRevoked k))))), (16, secverMin s 1)]
  else if o = 0x08 then field devTag.toNat 0 64
  else if o = 0x10 then field devTag.toNat 64 64
  else if o = 0x18 then pack [(0, x.pend.length), (4, x.lastResult), (12, x.lastAction), (32, x.refused)]
  else if o = 0x20 then x.seq
  else if o = 0x28 then secDebug s
  else if 0x100 ≤ o ∧ o < 0x300 then
    let q := (o - 0x100) % 64 / 8
    if q < 6 then field (look 0 x.meas ((o - 0x100) / 64)).toNat (64 * q) 64 else 0
  else 0

/-- Keeper's registers (Table 22.5). -/
def readDbg (s : State) (o : Nat) : Nat :=
  let d := s.dbg
  if o = 0x00 then pack [(0, d.baudSel), (16, d.framing), (40, d.overruns)]
  else if o = 0x08 then d.halted.toNat
  else if o = 0x10 then pack [(0, d.commands), (32, d.errors)]
  else 0

/-- A register of BAR0 (Table 1.7); what no table defines reads 0 (R27). -/
def readBar0 (s : State) (a : Nat) : Nat :=
  if a < 0x100000 then readGlb s a
  else if a < 0x500000 then readDoorbell s ((a - 0x100000) / 8)
  else if a < 0x540000 then readSync s ((a - 0x500000) / 16) (a % 16 = 8)
  else if a < 0x600000 then 0
  else if a < 0x700000 then readCore s ((a - 0x600000) / 0x1000) (a % 0x1000)
  else if a < 0x780000 then readClu s ((a - 0x700000) / 0x4000) (a % 0x4000)
  else if a < 0x800000 then 0
  else if a < 0x820000 then readHbr s ((a - 0x800000) / 0x10000) (a % 0x10000)
  else if a < 0x900000 then 0
  else if a < 0x980000 then readStk s ((a - 0x900000) / 0x4000) (a % 0x4000)
  else if a < 0xA00000 then 0
  else if a < 0xA10000 then readShf s (a - 0xA00000)
  else if a < 0xB00000 then 0
  else if a < 0xB40000 then readPort s ((a - 0xB00000) / 0x1000) (a % 0x1000)
  else if a = 0xB40100 then pack [(0, s.glb.ismMgmtW), (32, s.glb.ismWindow)]
  else if a < 0xC00000 then 0
  else if a < 0xC20000 then readCdc s ((a - 0xC00000) / 0x4000) (a % 0x4000)
  else if a < 0xD00000 then 0
  else if a < 0xD20000 then readTwc s ((a - 0xD00000) / 0x10000) (a % 0x10000)
  else if a < 0xE00000 then 0
  else if a < 0xE10000 then readSec s (a - 0xE00000)
  else if a < 0xF00000 then 0
  else if a < 0xF10000 then readDbg s (a - 0xF00000)
  else 0

/-! ### Reads of the berth windows -/

def qstateCode : QState → Nat
  | .idle => 0 | .waiting => 1 | .running => 2 | .committing => 3 | .stopped => 4 | .disabled => 5

/-- Quadword w of a queue context (Table 2.2); a disabled queue shows STATE 5 and 0 elsewhere (R35). -/
def readContext (s : State) (q w : Nat) : Nat :=
  let c := s.queue q
  if s.fenced (queueHalf q) then 0
  else if c.state = .disabled then (if w = 0 then pack [(58, 5)] else 0)
  else match w with
    | 0 => pack [(0, c.ringBase), (48, c.ringLog2), (53, c.berth), (58, qstateCode c.state)]
    | 1 => pack [(0, c.vector), (16, c.dropCount), (32, c.head)]
    | 2 => pack [(0, c.tail), (32, c.kernelStart)]
    | 3 => pack [(0, c.faultWord), (32, c.faultCode), (40, c.faultDetail), (48, c.rerunCount)]
    | 4 => pack [(0, c.eventFlags.toNat), (32, c.epochRetired)]
    | 5 => pack [(0, c.spillway), (32, c.sounding)]
    | 6 => pack [(0, c.scaleRange), (32, c.halfbake)]
    | 7 => c.killCount
    | _ => 0

/-- Quadword w of a sounding slot (Table 8.2). -/
def readSlot (x : Slot) (w : Nat) : Nat :=
  match w with
  | 0 => pack [(0, x.baseline.toNat), (32, boolNat x.baseValid), (33, boolNat x.drift)]
  | 1 => pack [(0, x.lastDrift.toNat), (32, x.maxDrift.toNat)]
  | 2 => pack [(0, x.sounded), (32, x.drifted)]
  | 3 => x.seq
  | _ => 0

/-- The selected request slot (Table 15.10). -/
def readReq (t : Berth) (o : Nat) : Nat :=
  let r := look {} t.reqs t.reqSel
  if o = 0xA600 then t.reqSel
  else if o = 0xA608 then pack [(0, r.primary), (20, r.alt), (39, boolNat r.altValid), (40, r.passes)]
  else if o = 0xA610 then r.deadline
  else if o = 0xA618 then pack [(0, r.estFull), (32, r.estCheap)]
  else if o = 0xA620 then
    pack [(0, boolNat r.isOpen), (1, boolNat r.switched), (2, boolNat r.stillLate), (3, boolNat r.late),
      (4, boolNat r.abandoned), (16, r.started), (32, r.switchPass)]
  else if o = 0xA628 then pack [(0, r.predict), (32, r.finish)]
  else 0

/-- The selected group record (Tables 17.6, 17.7). -/
def readGroup (t : Berth) (o : Nat) : Nat :=
  let g := look {} t.grps t.grpSel
  if o = 0xA700 then t.grpSel
  else if o = 0xA708 then
    pack [(0, g.group), (16, match g.state with | .active => 0 | .reforming => 1 | .excluded => 2 | .noQuorum => 3),
      (18, boolNat g.tainted), (19, boolNat g.reformed), (32, g.rank), (48, g.members.length - 1)]
  else if o = 0xA710 then pack [(0, g.epoch), (32, g.seq)]
  else if o = 0xA718 then pack [(0, g.reforms), (16, g.poisoned), (32, g.mismatches), (48, g.aborts)]
  else 0

/-- The epoch registers (Tables 9.1 to 9.3). -/
def readEpoch (e : Epochs) (o : Nat) : Nat :=
  let w := look {} e.sets e.sel
  if o = 0xA100 then
    pack [(0, boolNat e.notLive), (1, boolNat e.notHeld), (2, boolNat e.pubFull), (3, boolNat e.refsFull), (4, e.lastSet)]
  else if o = 0xA108 then e.retired
  else if o = 0xA110 then e.sel
  else if o = 0xA118 then pack [(0, w.current.getD 0), (32, boolNat (w.current ≠ none)), (33, w.live.length)]
  else if 0xA200 ≤ o ∧ o < 0xA400 then
    let x := look (0, 0) e.log ((o - 0xA200) / 8)
    pack [(0, x.1), (16, x.2)]
  else 0

/-- A register of window b (R29, R443). -/
def readWindow (s : State) (b o : Nat) : Nat :=
  let t := s.berth b
  let l := t.layout
  if !l.configured then 0
  else if o < 0x4000 then (if o / 8 < l.qcount then readDoorbell s (l.qbase + o / 8) else 0)
  else if o < 0x6000 then
    let j := (o - 0x4000) / 16
    if j < l.scount then readSync s (l.sbase + j) (o % 16 = 8) else 0
  else if o = 0x7F00 then t.qctxSel
  else if o = 0x7F08 then pack [(0, l.qbase), (20, l.qcount)]
  else if o = 0x7F10 then pack [(0, l.sbase), (16, l.scount), (32, l.vbase), (43, l.vcount)]
  else if 0x7F40 ≤ o ∧ o < 0x7F80 then
    (if t.qctxSel < l.qcount then readContext s (l.qbase + t.qctxSel) ((o - 0x7F40) / 8) else 0)
  else if 0x8000 ≤ o ∧ o < 0xA000 then
    let k := (o - 0x8000) / 32
    (if (slotQueue (s.imageOf b) k).isNone then 0 else readSlot (look {} t.slots k) (o % 32 / 8))
  else if o = 0xA000 then t.wideKept.toNat
  else if o = 0xA008 then t.wideKeptCount
  else if 0xA100 ≤ o ∧ o < 0xA400 then readEpoch t.epochs o
  else if o = 0xA400 then
    pack [(0, match t.parkState with | .live => 0 | .parking => 1 | .parked => 2 | .restoring => 3), (32, t.parkMs)]
  else if o = 0xA408 then t.parkBytes
  else if o = 0xA410 then pack [(0, t.migReq), (32, t.migDone)]
  else if o = 0xA418 then t.migDrop
  else if o = 0xA500 then t.recipeSel.toNat
  else if o < 0xA700 then readReq t o
  else readGroup t o

/-- A register at an 8-byte aligned offset of BAR0 or BAR2. -/
def readReg (s : State) (bar a : Nat) : Nat :=
  if bar = 0 then readBar0 s a
  else if bar = 2 ∧ a < 0x200000 then readWindow s (a / 0x10000) (a % 0x10000)
  else 0

/-- A read of 4 or 8 bytes; any other access, or an unaligned one, reads 0 (R5). -/
def readAccess (s : State) (bar a size : Nat) : Nat :=
  if size = 8 ∧ a % 8 = 0 then readReg s bar a
  else if size = 4 ∧ a % 4 = 0 then field (readReg s bar (a / 8 * 8)) (8 * (a % 8)) 32
  else 0

/-! ### Writes -/

/-- One write of a register: `v` is the register's value with the addressed half replaced, `hit` the bits written, 0 in a
half that the access does not address; `lo` and `hi` say which halves it addresses. -/
structure RegWrite where
  v : Nat := 0
  hit : Nat := 0
  lo : Bool := true
  hi : Bool := true
  deriving DecidableEq, Repr

/-- A field keeps its value where the encoding written is reserved (R3). -/
def keep (ok : Nat → Bool) (old new : Nat) : Nat := if ok new then new else old

def writeGlb (o : Nat) (w : RegWrite) (s : State) : State :=
  let v := w.v
  if o = 0x0010 then s.modGlb (fun g => { g with clkFault := g.clkFault && !bit w.hit 2 })
  else if o = 0x0100 then s.modGlb (fun g => { g with base2 := BitVec.ofNat 32 v })
  else if o = 0x0200 then s.modGlb (fun g => { g with preemptGap := field v 0 32, preemptEn := bit v 32 })
  else if 0x1000 ≤ o ∧ o < 0x1800 ∧ o % 64 = 0 then
    s.modBerth ((o - 0x1000) / 64) (fun t => { t with
      share := keep (fun n => decide (t.layout.shareMin ≤ n) && decide (n ≤ t.layout.shareMax)) t.share (field v 0 16) })
  else if 0x3010 ≤ o ∧ o < 0x3030 then
    s.modGlb (fun g =>
      let k := (o - 0x3010) / 8
      let d := look {} g.hdm k
      if d.committed then g
      else { g with hdm := put {} g.hdm k { d with
        bindBerth := field v 0 5, bindValid := bit v 5, bindVbase := field v 21 27 * 2 ^ 21 } })
  else if 0x8000 ≤ o ∧ o < 0x10000 then
    flushVectors (s.modGlb (fun g =>
      let k := (o - 0x8000) / 16
      let e := look {} g.msix k
      let e := if o % 16 = 0 then { e with addr := v % 2 ^ 64 } else { e with data := field v 0 32, masked := bit v 32 }
      { g with msix := put {} g.msix k e }))
  else if 0x20000 ≤ o ∧ o < 0x30000 then
    let a := o - 0x20000
    let s := if w.lo then writeComponent a (field v 0 32) s else s
    if w.hi then writeComponent (a + 4) (field v 32 32) s else s
  else s

/-- A sync object's registers; IRQ_EN and VECTOR are read-only in a window (Table 18.2). -/
def writeSync (i : Nat) (second window : Bool) (w : RegWrite) (s : State) : State :=
  if s.fenced (syncHalf i) || !(s.sync i).allocated then s
  else s.modSync i (fun k =>
    if !second then { k with value := w.v % 2 ^ 64 }
    else
      let k := { k with dropped := k.dropped && !bit w.hit 18 }
      if window then k else { k with irqEn := bit w.v 6, vector := field w.v 7 11 })

def writeClu (c o : Nat) (w : RegWrite) (s : State) : State :=
  if s.fenced (clusterHalf c) then s
  else if o = 0x1000 then
    s.modCluster c (fun k => { k with
      stealEn := bit w.v 0, stealXEn := bit w.v 1, stealMinX := keep (· ≠ 0) k.stealMinX (field w.v 4 4)
      planReuseEn := bit w.v 8 })
  else s

def writeHbr (h o : Nat) (w : RegWrite) (s : State) : State :=
  if s.fenced h then s
  else if o = 0x80 then
    s.modHarbour h (fun k => { k with
      hostW := field w.v 0 16, migW := field w.v 16 16, window := keep (· ≠ 0) k.window (field w.v 32 16) })
  else s

def writeStk (k o : Nat) (w : RegWrite) (s : State) : State :=
  let v := w.v
  if s.fenced (k / 16) then s
  else if o = 0x10 then
    s.modStack k (fun t =>
      let hi := keep (fun n => decide (60 ≤ n) && decide (n ≤ 95)) t.tHi (field v 0 8)
      let lo := keep (fun n => decide (50 ≤ n) && decide (n ≤ 94)) t.tLo (field v 8 8)
      if lo ≥ hi then t else { t with tHi := hi, tLo := lo })
  else if o = 0x18 then s.modStack k (fun t => { t with markThresh := keep (· ≠ 0) t.markThresh (field v 0 8) })
  else if o = 0x30 then
    s.modStack k (fun t => { t with
      wideW := field v 0 16, narrowW := field v 16 16, window := keep (· ≠ 0) t.window (field v 32 16) })
  else if 0x100 ≤ o ∧ o < 0x300 ∧ w.lo then pinMarkWrite k ((o - 0x100) / 8) (w.hit % 2 ^ 32) s
  else s

def writeShf (o : Nat) (w : RegWrite) (s : State) : State :=
  if o = 0x30 then
    s.modShelf (fun k => { k with
      readW := field w.v 0 16, migW := field w.v 16 16, window := keep (· ≠ 0) k.window (field w.v 32 16) })
  else s

/-- Part-wide Causeway registers (Table 16.9). -/
def writeCwy (o : Nat) (w : RegWrite) (s : State) : State :=
  let v := w.v
  if o = 0x800 then
    (if s.ports.all (fun p => p.2.state = .off) then s.modCwy (fun c => { c with partId := field v 0 16 }) else s)
  else if o = 0x808 then
    s.modCwy (fun c =>
      let r := keep (· ≠ 0) c.resendUs (field v 0 16)
      let n := field v 16 4
      let d := field v 20 28
      if d > 20000 ∨ d < r * (n + 1) then c else { c with resendUs := r, resends := n, deliveryTimeout := d })
  else if o = 0x810 then s.modCwy (fun c => { c with rtDst := field v 0 16, rtVl := field v 16 3 })
  else if o = 0x818 ∧ w.lo then writeRoute (w.hit % 2 ^ 32) s
  else s

def writePort (p o : Nat) (w : RegWrite) (s : State) : State :=
  let v := w.v
  if s.fenced (portHalf p) then s
  else if o = 0x00 then (if w.lo then writeEnable p (bit v 0) s else s)
  else if o = 0x10 then
    s.modPort p (fun t => { t with w1 := field v 0 16, w2 := field v 16 16, w3 := field v 32 16, w4 := field v 48 16 })
  else if o = 0x18 then
    s.modPort p (fun t => { t with
      w5 := field v 0 16, w6 := field v 16 16, w7 := field v 32 16, window := keep (· ≠ 0) t.window (field v 48 16) })
  else if p % 32 = 0 then writeCwy o w s
  else s

/-- A command whose argument the part reads from the host: it is taken, or refused at once, and its argument comes with
the command's own row (notes/assumptions/49.md). -/
def awaitCmd (op berth : Nat) (bad : State → Bool) (s : State) : State :=
  operatorCmd op berth (fun t => if bad t then finishCmd 0xFF t else t.modTwc (fun x => { x with cmdAwait := true })) s

/-- TWC_CMD of the chair half's unit (R464); a write while BUSY is 1 is ignored. -/
def writeCmd (op berth : Nat) (s : State) : State :=
  let after := fun (r : Res) => match r with
    | .next t => t
    | _ => s
  if s.twc.cmdBusy then s
  else if op = 1 then awaitCmd 1 berth (fun t => admitRefused t berth {}) s
  else if op = 4 then awaitCmd 4 berth (fun t => restoreBarred t berth) s
  else if op = 6 then awaitCmd 6 0 (fun _ => false) s
  else if op = 2 then after (execRemove berth s)
  else if op = 3 then after (execPark berth s)
  else if op = 5 then after (execKillQueue berth (s.twc.cmdArg % 2 ^ 19) s)
  else if op = 7 then after (execReset s)
  else s

/-- The registers of a half's Tidewatch unit. Table 19.11 gives F_CAP and K_CAP the range 0..12 and the ring base a
multiple of 4 KiB, and does not say what another value does: a cap outside the range keeps its old value, and bits [11:0]
of the base are taken as 0 (DESIGN CHOICE, notes/assumptions/83.md). -/
def writeTwc (h o : Nat) (w : RegWrite) (s : State) : State :=
  let v := w.v
  if o = 0x0000 then
    s.modTwc (fun t => { t with
      pwrLimit := keep (fun n => decide (1000 ≤ n) && decide (n ≤ 4600)) t.pwrLimit (field v 0 16)
      pwrHyst := keep (fun n => decide (n ≤ 1000)) t.pwrHyst (field v 16 16), telemMs := field v 32 16 })
  else if 0x0100 ≤ o ∧ o < 0x0180 then
    s.modCluster (16 * h + (o - 0x100) / 8) (fun c => { c with mCap := keep (fun n => decide (n ≤ 12)) c.mCap (field v 0 4) })
  else if o = 0x0180 then
    s.modHalf h (fun t => { t with
      fCap := keep (fun n => decide (n ≤ 12)) t.fCap (field v 0 4)
      sCap := keep (fun n => decide (n ≤ 8)) t.sCap (field v 4 4)
      kCap := keep (fun n => decide (n ≤ 12)) t.kCap (field v 8 4) })
  else if o = 0x0300 then (if w.lo then domainCmd (field w.hit 0 9) (bit w.hit 9) s else s)
  else if o = 0x0400 then s.modTwc (fun t => { t with ringBase := field v 12 36 * 2 ^ 12 })
  else if o = 0x0408 then
    s.modTwc (fun t => { t with
      ringEn := bit v 0, ringLog2 := keep (fun n => decide (6 ≤ n) && decide (n ≤ 16)) t.ringLog2 (field v 1 5) })
  else if o = 0x0410 then s.modTwc (fun t => { t with cons := field v 32 32 })
  else if o = 0x0418 then s.modTwc (fun t => { t with reportPart := field v 0 16, reportValid := bit v 16 })
  else if o = 0x0500 then (if w.lo && h = s.chairHalf then writeCmd (field w.hit 0 8) (field w.hit 8 5) s else s)
  else if o = 0x0508 then s.modTwc (fun t => { t with cmdArg := v % 2 ^ 64 })
  else if o = 0x3000 then
    s.modHalf h (fun t =>
      let lost := field v 0 16
      let hb := keep (· ≠ 0) t.heartbeatMs (field v 16 16)
      let re := keep (· ≠ 0) t.reformMs (field v 32 16)
      if lost < 3 * hb then t else { t with lostMs := lost, heartbeatMs := hb, reformMs := re })
  else s

/-- A register of BAR0. -/
def writeBar0 (a : Nat) (w : RegWrite) (s : State) : State :=
  if a < 0x100000 then writeGlb a w s
  else if a < 0x500000 then ringDoorbell ((a - 0x100000) / 8) w.hit w.lo s
  else if a < 0x540000 then writeSync ((a - 0x500000) / 16) (a % 16 = 8) false w s
  else if a < 0x700000 then s
  else if a < 0x780000 then writeClu ((a - 0x700000) / 0x4000) (a % 0x4000) w s
  else if a < 0x800000 then s
  else if a < 0x820000 then writeHbr ((a - 0x800000) / 0x10000) (a % 0x10000) w s
  else if a < 0x900000 then s
  else if a < 0x980000 then writeStk ((a - 0x900000) / 0x4000) (a % 0x4000) w s
  else if a < 0xA00000 then s
  else if a < 0xA10000 then writeShf (a - 0xA00000) w s
  else if a < 0xB00000 then s
  else if a < 0xB40000 then writePort ((a - 0xB00000) / 0x1000) (a % 0x1000) w s
  else if a = 0xB40100 then
    s.modGlb (fun g => { g with ismMgmtW := field w.v 0 16, ismWindow := keep (· ≠ 0) g.ismWindow (field w.v 32 16) })
  else if a < 0xD00000 then s
  else if a < 0xD20000 then writeTwc ((a - 0xD00000) / 0x10000) (a % 0x10000) w s
  else if a = 0xE00028 then (if bit w.hit 2 then setLevel 0 0 s else s)
  else s

/-- TWC_REQ_CFG of the selected slot (R377, R382): CLOSE of an open slot, else OPEN, else its fields. PASSES of 0 written
without OPEN is outside the range of Table 15.10 and keeps the old value (DESIGN CHOICE, notes/assumptions/83.md). -/
def writeReqCfg (b : Nat) (w : RegWrite) (s : State) : State :=
  let k := (s.berth b).reqSel
  let v := w.v
  if (look {} (s.berth b).reqs k).isOpen then (if bit w.hit 62 then closeReq b k false s else s)
  else if bit w.hit 63 then doOpen b (field v 0 19) (field v 20 19) (bit v 39) (field v 40 16) s
  else s.modReq b k (fun r => { r with
    primary := field v 0 19, alt := field v 20 19, altValid := bit v 39
    passes := keep (· ≠ 0) r.passes (field v 40 16) })

/-- A register of window b. -/
def writeWindow (b o : Nat) (w : RegWrite) (s : State) : State :=
  let t := s.berth b
  let l := t.layout
  let v := w.v
  let closed := !(look {} t.reqs t.reqSel).isOpen
  if !l.configured then s
  else if o < 0x4000 then (if o / 8 < l.qcount then ringDoorbell (l.qbase + o / 8) w.hit w.lo s else s)
  else if o < 0x6000 then
    let j := (o - 0x4000) / 16
    if j < l.scount then writeSync (l.sbase + j) (o % 16 = 8) true w s else s
  else if o = 0x7F00 then s.modBerth b (fun t => { t with qctxSel := field v 0 20 })
  else if 0x8000 ≤ o ∧ o < 0xA000 then
    let k := (o - 0x8000) / 32
    if o % 32 ≠ 0 ∨ (slotQueue (s.imageOf b) k).isNone then s
    else
      let s := s.modSlot b k (fun x => { x with drift := x.drift && !bit w.hit 33 })
      if bit w.hit 34 then doClear b k s else s
  else if o = 0xA000 then s.modBerth b (fun t => { t with wideKept := t.wideKept &&& ~~~ BitVec.ofNat 64 w.hit })
  else if o = 0xA100 then
    s.modEpochs b (fun e => { e with
      notLive := e.notLive && !bit w.hit 0, notHeld := e.notHeld && !bit w.hit 1
      pubFull := e.pubFull && !bit w.hit 2, refsFull := e.refsFull && !bit w.hit 3 })
  else if o = 0xA110 then s.modEpochs b (fun e => { e with sel := field v 0 12 })
  else if o = 0xA500 then s.modBerth b (fun t => { t with recipeSel := BitVec.ofNat 64 v })
  else if o = 0xA600 then s.modBerth b (fun t => { t with reqSel := field v 0 12 })
  else if o = 0xA608 then writeReqCfg b w s
  else if o = 0xA610 then (if closed then s.modReq b t.reqSel (fun r => { r with deadline := field v 0 32 }) else s)
  else if o = 0xA618 then
    (if closed then s.modReq b t.reqSel (fun r => { r with estFull := field v 0 32, estCheap := field v 32 32 }) else s)
  else if o = 0xA700 then s.modBerth b (fun t => { t with grpSel := field v 0 6 })
  else if o = 0xA708 then
    s.modGroup b t.grpSel (fun g => { g with
      tainted := g.tainted && !bit w.hit 18, reformed := g.reformed && !bit w.hit 19 })
  else s

/-- One write at an aligned register. -/
def writeReg (bar a : Nat) (w : RegWrite) (s : State) : State :=
  if bar = 0 then writeBar0 a w s
  else if bar = 2 ∧ a < 0x200000 then writeWindow (a / 0x10000) (a % 0x10000) w s
  else s

/-- What an access of 4 or 8 bytes writes; any other access, or an unaligned one, writes nothing (R5). -/
def writeAccess (bar a size value : Nat) (s : State) : State :=
  if size = 8 ∧ a % 8 = 0 then
    writeReg bar a { v := value % 2 ^ 64, hit := value % 2 ^ 64 } s
  else if size = 4 ∧ a % 4 = 0 then
    let r := a / 8 * 8
    let old := readReg s bar r
    let n := value % 2 ^ 32
    if a % 8 = 0 then writeReg bar r { v := setField old 0 32 n, hit := n, lo := true, hi := false } s
    else writeReg bar r { v := setField old 32 32 n, hit := n * 2 ^ 32, lo := false, hi := true } s
  else s

/-- A register write from the host, under the access codes of Table 0.3. -/
def execRegisterWrite (bar offset size value : Nat) (s : State) : Res := .next (writeAccess bar offset size value s)

end Sys2Proof.Machine
end

