-- ==== Sys2Proof/Machine/Keeper.lean ====
section
/-! DEFINITION. Keeper and the Lighthouse line (22_keeper.md R496 to R509; 21_mode_matrix.md R491). A command of Keeper is a
whole command line: the one that waits first, when its characters came one by one, else one of its own
(notes/assumptions/50.md). -/
namespace Sys2Proof.Machine

/-! ### Text (R499, R500) -/

def chars (l : List Char) : List Byte := l.map (fun c => BitVec.ofNat 8 c.toNat)

def hexChar (n : Nat) : Char := if n < 10 then Char.ofNat (48 + n) else Char.ofNat (55 + n)

/-- The k hexadecimal digits of a number. -/
def hexChars : Nat → Nat → List Char
  | 0, _ => []
  | k + 1, n => hexChars k (n / 16) ++ [hexChar (n % 16)]

/-- An underscore every four digits, counted from the right; `left` digits remain. -/
def grouped : List Char → List Char
  | [] => []
  | c :: cs => if cs.length % 4 = 0 ∧ cs ≠ [] then c :: '_' :: grouped cs else c :: grouped cs

/-- A value in the width of its field, k digits. -/
def hex (k n : Nat) : String := String.ofList ('0' :: 'x' :: grouped (hexChars k n))

def plainHex (k n : Nat) : String := String.ofList (hexChars k n)

/-- Words separated by spaces. -/
def splitWords : List Byte → List (List Byte)
  | [] => [[]]
  | c :: cs =>
    match splitWords cs with
    | w :: ws => if c = 32 then [] :: w :: ws else (c :: w) :: ws
    | [] => [[c]]

def lineWords (l : List Byte) : List (List Byte) := (splitWords l).filter (· ≠ [])

def upper (c : Byte) : Byte := if 97 ≤ c.toNat ∧ c.toNat ≤ 122 then c - 32 else c

def digitOf (base : Nat) (c : Byte) : Option Nat :=
  let n := (upper c).toNat
  if 48 ≤ n ∧ n ≤ 57 then some (n - 48) else if base = 16 ∧ 65 ≤ n ∧ n ≤ 70 then some (n - 55) else none

def digits (base : Nat) (l : List Byte) : Option Nat :=
  let l := l.filter (· ≠ 95)
  if l = [] then none
  else l.foldl (fun acc c => acc.bind (fun n => (digitOf base c).map (fun d => base * n + d))) (some 0)

/-- A number: decimal, or hexadecimal after 0x. -/
def numberOf : List Byte → Option Nat
  | [] => none
  | c :: cs =>
    match cs with
    | x :: ds => if c = 48 ∧ upper x = 88 then digits 16 ds else digits 10 (c :: cs)
    | [] => digits 10 [c]

def allSome {α : Type} : List (Option α) → Option (List α)
  | [] => some []
  | none :: _ => none
  | some a :: t => (allSome t).map (a :: ·)

/-- A command word with its numbers (Table 22.3). -/
def spell (w : List Byte) (args : List Nat) : Option Instr :=
  match args with
  | [] =>
    if w = chars ['I', 'D'] then some .keeperId
    else if w = chars ['T', 'E', 'M', 'P'] then some .temp
    else if w = chars ['L', 'O', 'C', 'K'] then some .lock
    else if w = chars ['S', 'T', 'A', 'T'] then some .stat
    else none
  | [a] =>
    if w = chars ['B', 'A', 'U', 'D'] then some (.baud a)
    else if w = chars ['R', 'D'] then some (.rd a 1)
    else if w = chars ['H', 'A', 'L', 'T'] then some (.halt a)
    else if w = chars ['R', 'E', 'L', 'E', 'A', 'S', 'E'] then some (.release a)
    else if w = chars ['K', 'I', 'L', 'L'] then some (.keeperKill a)
    else none
  | [a, b] =>
    if w = chars ['R', 'D'] then some (.rd a b)
    else if w = chars ['W', 'R'] then some (.wr a b)
    else if w = chars ['W', 'R', 'D'] then some (.wrd a b 1)
    else none
  | [a, b, c] =>
    if w = chars ['W', 'R', 'D'] then some (.wrd a b c)
    else if w = chars ['W', 'W', 'R'] then some (.wwr a b c)
    else if w = chars ['M', 'R', 'D'] then some (.mrd a b c)
    else if w = chars ['M', 'W', 'R'] then some (.mwr a b c)
    else none
  | _ => none

/-- The command that a line of printable characters spells. -/
def parseLine (l : List Byte) : Option Instr :=
  if l.all (fun c => decide (32 ≤ c.toNat) && decide (c.toNat ≤ 126)) then
    match lineWords l with
    | w :: args => (allSome (args.map numberOf)).bind (spell (w.map upper))
    | [] => none
  else none

/-! ### Replies -/

/-- Keeper runs: half 0's Tidewatch has its firmware (R471, Table 20.2). -/
def keeperUp (s : State) : Bool := s.on && decide ((s.half 0).bootStage ≥ 2) && !(s.half 0).romReject

/-- Names of Table 22.4. -/
def errName : Nat → String
  | 1 => "SYNTAX" | 2 => "LEVEL" | 3 => "BERTH" | 4 => "RANGE" | 5 => "CRC" | 6 => "LONG" | 7 => "NOHALF"
  | 8 => "REFUSED" | _ => "TIMEOUT"

/-- A reply's final line, the prompt, the counts; then the reports that waited. -/
def endReply (final : String) (err : Bool) (s : State) : State :=
  let s := (sendLine final s).emit (.line (ascii "K> "))
  flushReports (s.modDbg (fun d => { d with
    commands := wrapAdd 32 d.commands 1, errors := if err then satAdd 32 d.errors 1 else d.errors, inbound := none }))

def endOk (s : State) : State := endReply "OK" false s

def endErr (code : Nat) (s : State) : State := endReply ("ERR 0" ++ dec code ++ " " ++ errName code) true s

/-- ERR 08 with the reason of Table 18.5. -/
def endRefused (reason : Nat) (s : State) : State := endReply ("ERR 08 REFUSED " ++ hex 1 reason) true s

/-- Lines at the front that spell no command are answered; the fuel bounds their number. -/
def answerBad : Nat → State → State
  | 0, s => s
  | k + 1, s =>
    if !keeperUp s || s.dbg.inbound.isSome then s
    else match s.dbg.lines with
      | [] => s
      | (kind, l) :: rest =>
        if kind = 0 && (parseLine l).isSome then s
        else
          let s := s.modDbg (fun d => { d with lines := rest })
          answerBad k (endErr (if kind = 2 then 6 else 1) s)

def answerLines (s : State) : State := answerBad s.dbg.lines.length s

/-- A command runs in its turn, when none runs; a good line ends the trial of a new rate (R500, R505). -/
def runLine (c : Instr) (f : State → State) (s : State) : Res :=
  if !keeperUp s then .next s
  else
    let s := answerLines s
    if s.dbg.inbound.isSome then .next s
    else match s.dbg.lines with
      | [] => .next (answerLines (f (s.modDbg (fun d => { d with baudTrial := false }))))
      | (_, l) :: rest =>
        if parseLine l = some c then
          .next (answerLines (f (s.modDbg (fun d => { d with lines := rest, baudTrial := false }))))
        else .next s

/-! ### The line (R498, R499) -/

/-- Characters in the receive buffer: those of the waiting lines and of the line that arrives. -/
def buffered (d : Dbg) : Nat := d.lines.foldl (fun n l => n + l.2.length + 1) d.rx.length

/-- CR or LF ends a line; an empty one is ignored. -/
def endLine (d : Dbg) : Dbg :=
  if d.rx = [] ∧ !d.badLine ∧ !d.longLine then d
  else
    let kind := if d.longLine then 2 else if d.badLine then 1 else 0
    { d with
      lines := d.lines ++ [(kind, d.rx)], rx := [], badLine := false, longLine := false, lineLen := 0
      baudTrial := d.baudTrial && !(kind = 0 && (parseLine d.rx).isSome) }

def takeChar (c : Byte) (framingError : Bool) (d : Dbg) : Dbg :=
  if framingError then { d with framing := satAdd 24 d.framing 1, badLine := true }
  else if buffered d ≥ 1024 then { d with overruns := satAdd 24 d.overruns 1, badLine := true }
  else if c = 13 ∨ c = 10 then endLine d
  else if d.longLine then d
  else if d.lineLen ≥ 255 then { d with longLine := true, rx := [], lineLen := 0 }
  else { d with rx := d.rx ++ [c], lineLen := d.lineLen + 1 }

def execLhCharacter (c : Byte) (framingError : Bool) (s : State) : Res :=
  .next (if s.on then answerLines (s.modDbg (takeChar c framingError)) else s)

/-- 10 s have passed at a new rate without a good command line (R505). -/
def execBaudRevert (s : State) : Res :=
  .next (if s.on && s.dbg.baudTrial then
    report ("!LEVEL " ++ dec s.sec.level) (s.modDbg (fun d => { d with baudSel := 0, baudTrial := false }))
  else s)

/-! ### Access (R502, R503, R508) -/

/-- The error of the lowest code. -/
def leastErr (l : List (Option Nat)) : Option Nat :=
  l.foldl (fun m e => match m, e with
    | some a, some b => some (min a b)
    | none, x => x
    | x, none => x) none

def errIf (bad : Bool) (code : Nat) : Option Nat := if bad then some code else none

def levelErr (s : State) (n : Nat) : Option Nat := errIf (decide (s.sec.level < n)) 2

/-- The unlock covers a configured berth. -/
def berthErr (s : State) (b : Nat) : Option Nat :=
  errIf (!(decide (b < 32) && (s.berth b).layout.configured && bitOf s.sec.debugBerths b)) 3

def ownerErr (s : State) (o : Option Nat) : Option Nat :=
  match o with
  | some b => berthErr s b
  | none => some 3

def allCovered (s : State) : Bool :=
  (List.range 32).all (fun b => !(s.berth b).layout.configured || bitOf s.sec.debugBerths b)

/-- The berth whose range holds a queue, and a sync object (R443). -/
def queueOwner (s : State) (q : Nat) : Option Nat :=
  (List.range 32).find? (fun b =>
    let l := (s.berth b).layout
    l.configured && decide (l.qbase ≤ q) && decide (q < l.qbase + l.qcount))

def syncOwner (s : State) (i : Nat) : Option Nat :=
  (List.range 32).find? (fun b =>
    let l := (s.berth b).layout
    l.configured && decide (l.sbase ≤ i) && decide (i < l.sbase + l.scount))

/-- Half 1 cannot be reached over the Isthmus. -/
def noHalf1 (s : State) : Bool := !(s.half 0).peerHb

def within (a lo hi : Nat) : Bool := decide (lo ≤ a) && decide (a < hi)

/-- A BAR0 offset holds a register that the chapters lay out. -/
def definedBar0 (a : Nat) : Bool :=
  a % 8 = 0 &&
  (if a < 0x100000 then
    a < 0x18 || a = 0x100 || a = 0x200 || within a 0x1000 0x1A00 || within a 0x2000 0x2400 || within a 0x3000 0x3030 ||
      within a 0x4000 0x4010 || within a 0x8000 0x10100 || within a 0x21000 0x21010 || within a 0x21100 0x21158 ||
      within a 0x21180 0x211B8 || within a 0x21200 0x21290
  else if a < 0x540000 then true
  else if a < 0x600000 then false
  else if a < 0x700000 then
    let o := a % 0x1000
    within o 0x200 0x288 || within o 0x400 0x430 || within o 0x480 0x498 || within o 0x4C0 0x4D0 || o = 0x500
  else if a < 0x780000 then
    let o := a % 0x4000
    within o 0x1000 0x1010 || within o 0x2000 0x2020
  else if a < 0x800000 then false
  else if a < 0x820000 then
    let o := a % 0x10000
    o < 0x28 || o = 0x80 || within o 0x100 0x200
  else if a < 0x900000 then false
  else if a < 0x980000 then
    let o := a % 0x4000
    o < 0x38 || within o 0x100 0x300 || within o 0x400 0x600
  else if a < 0xA00000 then false
  else if a < 0xA10000 then
    let o := a % 0x10000
    o < 0x38 || within o 0x100 0x200
  else if a < 0xB00000 then false
  else if a < 0xB40000 then
    let o := a % 0x1000
    o < 0x38 || (within o 0x800 0x830 && (a - 0xB00000) / 0x1000 % 32 = 0)
  else if a < 0xC00000 then a = 0xB40100
  else if a < 0xC20000 then decide (a % 0x4000 < 0x20)
  else if a < 0xD00000 then false
  else if a < 0xD20000 then
    let o := a % 0x10000
    o < 0x18 || within o 0x100 0x188 || within o 0x300 0x340 || within o 0x400 0x420 || within o 0x500 0x518 || o = 0x600 ||
      o = 0x3000 || within o 0x3010 0x3050 || (within o 0x4000 0x4800 && o % 64 < 56)
  else if a < 0xE00000 then false
  else if a < 0xE10000 then
    let o := a % 0x10000
    o < 0x30 || (within o 0x100 0x300 && o % 64 < 48)
  else if a < 0xF00000 then false
  else decide (a < 0xF00018))

/-- A window offset holds a register of the berth (Table 18.2). -/
def definedWindow (l : Layout) (o : Nat) : Bool :=
  o % 8 = 0 &&
  (if o < 0x4000 then decide (o / 8 < l.qcount)
  else if o < 0x6000 then decide ((o - 0x4000) / 16 < l.scount)
  else within o 0x7F00 0x7F18 || within o 0x7F40 0x7F80 || within o 0x8000 0xA010 || within o 0xA100 0xA120 ||
    within o 0xA200 0xA420 || o = 0xA500 || within o 0xA600 0xA630 || within o 0xA700 0xA720)

/-- A register of half 1's units. -/
def half1Bar0 (a : Nat) : Bool :=
  within a 0x300000 0x500000 || within a 0x520000 0x540000 || within a 0x680000 0x700000 || within a 0x740000 0x780000 ||
    within a 0x810000 0x820000 || within a 0x940000 0x980000 || within a 0xB20000 0xB40000 || within a 0xC10000 0xC20000 ||
    within a 0xD10000 0xD20000

def half1Window (t : Berth) (o : Nat) : Bool :=
  let l := t.layout
  if o < 0x4000 then queueHalf (l.qbase + o / 8) = 1
  else if o < 0x6000 then syncHalf (l.sbase + (o - 0x4000) / 16) = 1
  else within o 0x7F40 0x7F80 && queueHalf (l.qbase + t.qctxSel) = 1

/-- Level and coverage that a BAR0 register needs: a queue's and a sync object's belong to a berth. -/
def bar0Err (s : State) (level a : Nat) (write : Bool) : Option Nat :=
  if 0x100000 ≤ a ∧ a < 0x500000 then
    leastErr [levelErr s level, ownerErr s (queueOwner s ((a - 0x100000) / 8))]
  else if 0x500000 ≤ a ∧ a < 0x540000 then
    leastErr [levelErr s level, ownerErr s (syncOwner s ((a - 0x500000) / 16))]
  else if write then leastErr [levelErr s level, errIf (!allCovered s) 3]
  else none

def rdErr (s : State) (a n : Nat) : Option Nat :=
  if n = 0 ∨ n > 16 then some 4
  else leastErr ((List.range n).map (fun i =>
    let r := a + 8 * i
    leastErr [bar0Err s 1 r false, errIf (!definedBar0 r) 4, errIf (half1Bar0 r && noHalf1 s) 7]))

def wrErr (s : State) (a v : Nat) : Option Nat :=
  leastErr [errIf (decide (v ≥ 2 ^ 64)) 1, bar0Err s 2 a true, errIf (!definedBar0 a) 4, errIf (half1Bar0 a && noHalf1 s) 7]

def windowErr (s : State) (level b o : Nat) : Option Nat :=
  leastErr [levelErr s level, berthErr s b, errIf (!definedWindow (s.berth b).layout o) 4,
    errIf (half1Window (s.berth b) o && noHalf1 s) 7]

def wrdErr (s : State) (b o n : Nat) : Option Nat :=
  if n = 0 ∨ n > 16 then leastErr [levelErr s 1, berthErr s b, some 4]
  else leastErr ((List.range n).map (fun i => windowErr s 1 b (o + 8 * i)))

/-- A command that may run, or its error. -/
def orErr (e : Option Nat) (f : State → State) (s : State) : State :=
  match e with
  | some code => endErr code s
  | none => f s

/-! ### Commands on registers (Table 22.3) -/

def execKeeperId (s : State) : Res :=
  runLine .keeperId (fun s => orErr (errIf (noHalf1 s) 7) (fun s =>
    let chair := fun (h : Nat) => hex 1 (readTwc s h 0x600 % 4)
    endOk (sendLine (hex 16 (readGlb s 0) ++ " " ++ hex 16 (readSec s 8) ++ " " ++ hex 16 (readSec s 0x10) ++ " " ++ chair 0 ++
      " " ++ chair 1 ++ " " ++ hex 16 (secDebug s)) s)) s) s

/-- BAUD answers at the old rate; the new one is on trial for 10 s (R505). -/
def execBaud (r : Nat) (s : State) : Res :=
  runLine (.baud r) (fun s => orErr (errIf (decide (r > 5)) 4) (fun s =>
    (endOk s).modDbg (fun d => { d with baudSel := r, baudTrial := true })) s) s

def execRd (addr n : Nat) (s : State) : Res :=
  runLine (.rd addr n) (fun s => orErr (rdErr s addr n) (fun s =>
    endOk (forEach (List.range n) (fun i t =>
      let r := addr + 8 * i
      sendLine (hex 6 r ++ " " ++ hex 16 (readReg s 0 r)) t) s)) s) s

/-- A write is answered, then applied: a report that it raises follows the reply (R501). -/
def execWr (addr value : Nat) (s : State) : Res :=
  runLine (.wr addr value) (fun s => orErr (wrErr s addr value) (fun s => writeAccess 0 addr 8 value (endOk s)) s) s

def execWrd (berth offset n : Nat) (s : State) : Res :=
  runLine (.wrd berth offset n) (fun s => orErr (wrdErr s berth offset n) (fun s =>
    endOk (forEach (List.range n) (fun i t =>
      let r := offset + 8 * i
      sendLine (hex 4 r ++ " " ++ hex 16 (readWindow s berth r)) t) s)) s) s

def execWwr (berth offset value : Nat) (s : State) : Res :=
  runLine (.wwr berth offset value) (fun s =>
    orErr (leastErr [errIf (decide (value ≥ 2 ^ 64)) 1, windowErr s 2 berth offset]) (fun s =>
      writeAccess 2 (berth * 0x10000 + offset) 8 value (endOk s)) s) s

def twoDigits (n : Nat) : String := String.ofList [Char.ofNat (48 + n / 10 % 10), Char.ofNat (48 + n % 10)]

/-- A temperature in °C to 0.25. -/
def degrees (t : Nat) : String := dec (t / 4) ++ "." ++ twoDigits (25 * (t % 4))

def tempLine (s : State) (k : Nat) : String :=
  dec (k / 16) ++ "." ++ twoDigits (k % 16) ++ " " ++ degrees (s.stack k).temp ++ " " ++ hex 1 (s.cluster k).mTherm ++ " " ++
    hex 1 (s.stack k).stkM

def powerLine (s : State) (h : Nat) : String :=
  hex 4 s.twc.power ++ " " ++ hex 1 (if ownPower s h then (s.half h).mH else s.twc.mP)

def execTemp (s : State) : Res :=
  runLine .temp (fun s => orErr (errIf (noHalf1 s) 7) (fun s =>
    let s' := forEach (List.range 32) (fun k t => sendLine (tempLine s k) t) s
    endOk (forEach [0, 1] (fun h t => sendLine (powerLine s h) t) s')) s) s

def execStat (s : State) : Res :=
  runLine .stat (fun s => endOk (sendLine (hex 16 (readDbg s 0x10)) (sendLine (hex 16 (readDbg s 0)) s))) s

/-- LOCK needs no level; its report follows the reply. -/
def execLock (s : State) : Res := runLine .lock (fun s => setLevel 0 0 (endOk s)) s

/-! ### Halts and kills (R491) -/

def setHalt (b : Nat) (on : Bool) (s : State) : State :=
  settle (s.modDbg (fun d => { d with halted := setBit d.halted b on }))

def execHalt (berth : Nat) (s : State) : Res :=
  runLine (.halt berth) (fun s => orErr (leastErr [levelErr s 1, berthErr s berth]) (fun s =>
    endOk (setHalt berth true s)) s) s

def execRelease (berth : Nat) (s : State) : Res :=
  runLine (.release berth) (fun s => orErr (leastErr [levelErr s 1, berthErr s berth]) (fun s =>
    endOk (setHalt berth false s)) s) s

def execKeeperKill (queue : Nat) (s : State) : Res :=
  runLine (.keeperKill queue) (fun s =>
    let e := if queue ≥ 524288 then leastErr [levelErr s 2, some 4]
      else leastErr [levelErr s 2, ownerErr s (queueOwner s queue), errIf (queueHalf queue = 1 && noHalf1 s) 7]
    orErr e (fun s => endOk (killQueue queue 7 s)) s) s

/-! ### Memory (R504 to R507) -/

/-- The place lies in half 1. -/
def placeHalf1 (s : State) (l : Locus) : Bool :=
  match l with
  | .stack pa => decide (pa < 2 ^ 44) && decide ((s.place pa).stack ≥ 16)
  | .mooring home _ => home = 1
  | .acc .. => false

/-- What turns an access of n bytes of a berth away: an error, and the reason of Table 18.5 of ERR 08. -/
def memErr (s : State) (level b va n : Nat) : Option (Nat × Nat) :=
  match leastErr [levelErr s level, berthErr s b] with
  | some e => some (e, 0)
  | none =>
    if n = 0 ∨ n > 65536 then some (4, 0)
    else
      let ps := (List.range n).map (va + ·)
      if ps.any (fun a => ((s.berth b).image.bind (fun img => regionAt img a)).isNone) then some (4, 0)
      else if ps.any (fun a => placeHalf1 s (s.spot b a)) && noHalf1 s then some (7, 0)
      else ((ps.filterMap (fun a => accessRefusal s b a true)).head?).map (fun r => (8, r))

/-- Logical Shelf units that an access touches. -/
def shelfUnits (s : State) (b va n : Nat) : List Nat :=
  ((unitPieces va n (List.replicate n 0)).filterMap (fun q => match s.spot b q.1 with
    | .stack pa => if pa ≥ 2 ^ 44 then some (unitOfPa pa) else none
    | _ => none)).eraseDups

/-- An access waits: in the Shelf for its map (R355), on a migrating page for the switch (R351, R504). -/
def keeperWaits (s : State) (b va n : Nat) : Bool :=
  (!s.shelf.mapReady && decide (shelfUnits s b va n ≠ [])) ||
    (unitPieces va n (List.replicate n 0)).any (fun q => (s.page b q.1).migrating)

def orMemErr (e : Option (Nat × Nat)) (f : State → State) (s : State) : State :=
  match e with
  | some (8, r) => endRefused r s
  | some (code, _) => endErr code s
  | none => f s

/-- One block of an outbound transfer (R506). -/
def sendBlock (b va n : Nat) (s : State) : State :=
  let r := (unitPieces va n (List.replicate n 0)).foldl (fun (acc : List Byte × State) q =>
    let t := acc.2
    let l := t.spot b q.1
    let off := plainHex 4 (q.1 - va)
    match t.markAt b l with
    | .good =>
      let bs := t.spotBytes b l q.2.length
      let text := "D " ++ off ++ " " ++ String.ofList (bs.flatMap (fun x => hexChars 2 x.toNat))
      (acc.1 ++ bs, sendLine text (t.slotTouch l))
    | .poison => (acc.1 ++ List.replicate 32 0, sendLine ("X " ++ off ++ " P") (t.slotTouch l))
    | .uncorrectable => (acc.1 ++ List.replicate 32 0, sendLine ("X " ++ off ++ " U") (t.slotTouch l))) ([], s)
  sendLine ("C " ++ hex 8 (crc32 r.1)) r.2

/-- Whether a command on memory has to wait. -/
def memWait (level b va n : Nat) (s : State) : Bool := memErr s level b va n = none && keeperWaits s b va n

def execMrd (berth va n : Nat) (s : State) : Res :=
  if memWait 1 berth va n s then .next s
  else runLine (.mrd berth va n) (fun s => orMemErr (memErr s 1 berth va n) (fun s =>
    let s := forEach (shelfUnits s berth va n) readUnit s
    endOk (forEach (List.range (cdiv n 4096)) (fun k t =>
      sendBlock berth (va + 4096 * k) (min 4096 (n - 4096 * k)) t) s)) s) s

/-- READY starts an inbound transfer (R507). -/
def execMwr (berth va n : Nat) (s : State) : Res :=
  runLine (.mwr berth va n) (fun s => orMemErr (memErr s 2 berth va n) (fun s =>
    (sendLine "READY" s).modDbg (fun d => { d with inbound := some { berth := berth, va := va, len := n } })) s) s

/-- Bytes of a D line whose offset is the one expected. -/
def dataLine (off : Nat) (l : List Byte) : Option (List Byte) :=
  match lineWords l with
  | [w, o, h] =>
    if w.map upper = chars ['D'] ∧ o.length = 4 ∧ digits 16 o = some off ∧ h.length % 2 = 0 ∧ h.length ≤ 64 then
      allSome ((List.range (h.length / 2)).map (fun i => (digits 16 ((h.drop (2 * i)).take 2)).map (BitVec.ofNat 8)))
    else none
  | _ => none

/-- The check of a C line. -/
def checkLine (l : List Byte) : Option (Option Nat) :=
  match lineWords l with
  | w :: args =>
    if w.map upper = chars ['C'] then
      some (match args with
        | [a] => numberOf a
        | _ => none)
    else none
  | [] => none

/-- The waiting lines of a block up to its check line: its data, its check where every line is well formed, and the lines
that follow. -/
def blockLines : List (Nat × List Byte) → List Byte → Bool → Option (List Byte × Option Nat × List (Nat × List Byte))
  | [], _, _ => none
  | (kind, l) :: rest, data, ok =>
    match checkLine l with
    | some c => some (data, if ok && kind = 0 then c else none, rest)
    | none =>
      match dataLine data.length l with
      | some bs => blockLines rest (data ++ bs) (ok && kind = 0)
      | none => blockLines rest data false

/-- A checked block is written whole; partial units merge as masked writes (R302), and what cannot merge is recorded. -/
def writeBlock (b va : Nat) (data : List Byte) (s : State) : State :=
  let s := forEach (shelfUnits s b va data.length) (programUnit false) s
  forEach (maskedPieces va data.length (data.map some)) (fun q t =>
    let r := maskedUnit b q.1 q.2 t
    if r.1 then r.2
    else match t.spot b q.1 with
      | .stack pa => if pa < 2 ^ 44 then recordUe (t.place pa).stack (t.place pa).channel pa 3 t else t
      | _ => t) s

/-- The check line of an inbound block is there: the block is written and acknowledged, or refused. -/
def takeBlock (ib : Inbound) (good : Bool) (data : List Byte) (s : State) : State :=
  let va := ib.va + 4096 * ib.block
  let n := min 4096 (ib.len - 4096 * ib.block)
  if good && data.length = n then
    match memErr s 2 ib.berth va n with
    | some e => orMemErr (some e) id s
    | none =>
      let s := sendLine ("ACK " ++ dec ib.block) (writeBlock ib.berth va data s)
      if 4096 * (ib.block + 1) ≥ ib.len then endOk s
      else s.modDbg (fun d => { d with inbound := some { ib with block := ib.block + 1, naks := 0 } })
  else
    let s := sendLine ("NAK " ++ dec ib.block) s
    if ib.naks + 1 ≥ 3 then endErr 5 s
    else s.modDbg (fun d => { d with inbound := some { ib with naks := ib.naks + 1 } })

def execKeeperBlock (data : List Byte) (crc : BitVec 32) (s : State) : Res :=
  match s.dbg.inbound with
  | none => .next s
  | some ib =>
    let good := decide (crc32 data = crc.toNat)
    let va := ib.va + 4096 * ib.block
    if !keeperUp s || keeperWaits s ib.berth va data.length || !canProgram false (shelfUnits s ib.berth va data.length) s then
      .next s
    else if s.dbg.lines = [] then .next (answerLines (takeBlock ib good data s))
    else match blockLines s.dbg.lines [] true with
      | some (d, c, rest) =>
        if d = data && (c = some crc.toNat || (c = none && !good)) then
          .next (answerLines (takeBlock ib good data (s.modDbg (fun x => { x with lines := rest }))))
        else .next s
      | none => .next s

/-- A block was not completed within 10 s (R507). -/
def execKeeperBlockTimeout (s : State) : Res :=
  .next (if keeperUp s && s.dbg.inbound.isSome then answerLines (endErr 9 s) else s)

end Sys2Proof.Machine
end

