-- ==== Sys2Proof/Machine/Dispatch.lean ====
section
/-! DEFINITION. One arm per command (spec/opcode_table.json). -/
namespace Sys2Proof.Machine

/-- The effect of a command on everything but the queue of waiting commands. -/
def exec (i : Instr) (s : State) : Host.Outcome State Fault Refusal :=
  match i with
  | .nop q => Sys2Proof.Machine.execNop q s
  | .kbegin q templ request irq pass => Sys2Proof.Machine.execKbegin q templ request irq pass s
  | .commit q => Sys2Proof.Machine.execCommit q s
  | .wait q sync threshold => Sys2Proof.Machine.execWait q sync threshold s
  | .signal q variant sync part queue value => Sys2Proof.Machine.execSignal q variant sync part queue value s
  | .fence q => Sys2Proof.Machine.execFence q s
  | .recipe q variant set wide group => Sys2Proof.Machine.execRecipe q variant set wide group s
  | .prob q o => Sys2Proof.Machine.execProb q o s
  | .attn q o => Sys2Proof.Machine.execAttn q o s
  | .rowop q o => Sys2Proof.Machine.execRowop q o s
  | .stripe q o => Sys2Proof.Machine.execStripe q o s
  | .peel q o => Sys2Proof.Machine.execPeel q o s
  | .atom q o => Sys2Proof.Machine.execAtom q o s
  | .coll q o => Sys2Proof.Machine.execColl q o s
  | .codec q variant job => Sys2Proof.Machine.execCodec q variant job s
  | .place q region tier => Sys2Proof.Machine.execPlace q region tier s
  | .epoch q variant set version => Sys2Proof.Machine.execEpoch q variant set version s
  | .sound q variant period slot threshold => Sys2Proof.Machine.execSound q variant period slot threshold s
  | .tail q v => Sys2Proof.Machine.execTail q v s
  | .resume q => Sys2Proof.Machine.execResume q s
  | .skip q => Sys2Proof.Machine.execSkip q s
  | .clrEvents q => Sys2Proof.Machine.execClrEvents q s
  | .synValueWrite sync value => Sys2Proof.Machine.execSynValueWrite sync value s
  | .registerWrite bar offset size value => Sys2Proof.Machine.execRegisterWrite bar offset size value s
  | .kernelFetch q => Sys2Proof.Machine.execKernelFetch q s
  | .crewGrant q => Sys2Proof.Machine.execCrewGrant q s
  | .trayScrubDone core tray => Sys2Proof.Machine.execTrayScrubDone core tray s
  | .killTraysReturned q => Sys2Proof.Machine.execKillTraysReturned q s
  | .crewCoreJoin q core => Sys2Proof.Machine.execCrewCoreJoin q core s
  | .planReady q => Sys2Proof.Machine.execPlanReady q s
  | .chunkFillDone mxe isB rx => Sys2Proof.Machine.execChunkFillDone mxe isB rx s
  | .tileDone mxe stall rx => Sys2Proof.Machine.execTileDone mxe stall rx s
  | .tileSteal mxe => Sys2Proof.Machine.execTileSteal mxe s
  | .batchSteal core peel => Sys2Proof.Machine.execBatchSteal core peel s
  | .rowDone core f => Sys2Proof.Machine.execRowDone core f s
  | .attnShareDone mxe wait => Sys2Proof.Machine.execAttnShareDone mxe wait s
  | .peelBatchDone core f => Sys2Proof.Machine.execPeelBatchDone core f s
  | .stripeDone cluster f => Sys2Proof.Machine.execStripeDone cluster f s
  | .stripeSteal cluster => Sys2Proof.Machine.execStripeSteal cluster s
  | .soundingCompare q mxe => Sys2Proof.Machine.execSoundingCompare q mxe s
  | .commitBegin q => Sys2Proof.Machine.execCommitBegin q s
  | .commitStoresAcked q => Sys2Proof.Machine.execCommitStoresAcked q s
  | .commitAtomicsDone q => Sys2Proof.Machine.execCommitAtomicsDone q s
  | .commitRemoteDone q => Sys2Proof.Machine.execCommitRemoteDone q s
  | .kernelRerun q => Sys2Proof.Machine.execKernelRerun q s
  | .harbourOpApply q => Sys2Proof.Machine.execHarbourOpApply q s
  | .stackReadDone stack channel pa source rx => Sys2Proof.Machine.execStackReadDone stack channel pa source rx s
  | .ueRereadDone stack channel pa rx => Sys2Proof.Machine.execUeRereadDone stack channel pa rx s
  | .pinCountClear stack channel => Sys2Proof.Machine.execPinCountClear stack channel s
  | .refresh stack channel => Sys2Proof.Machine.execRefresh stack channel s
  | .scrubRead stack channel pa rx => Sys2Proof.Machine.execScrubRead stack channel pa rx s
  | .migrationDone half page => Sys2Proof.Machine.execMigrationDone half page s
  | .shelfReadDone q inst => Sys2Proof.Machine.execShelfReadDone q inst s
  | .shelfMapRebuild => Sys2Proof.Machine.execShelfMapRebuild s
  | .wearLevel => Sys2Proof.Machine.execWearLevel s
  | .garbageCollect block => Sys2Proof.Machine.execGarbageCollect block s
  | .shelfRelocate block failed lost => Sys2Proof.Machine.execShelfRelocate block failed lost s
  | .tidewatchLoop half overran sensors => Sys2Proof.Machine.execTidewatchLoop half overran sensors s
  | .deadlineEval half => Sys2Proof.Machine.execDeadlineEval half s
  | .telemetry half => Sys2Proof.Machine.execTelemetry half s
  | .overCurrent half => Sys2Proof.Machine.execOverCurrent half s
  | .admission berth image => Sys2Proof.Machine.execAdmit berth image s
  | .proofCheckDone pages => Sys2Proof.Machine.execProofCheckDone pages s
  | .remove berth => Sys2Proof.Machine.execRemove berth s
  | .park berth => Sys2Proof.Machine.execPark berth s
  | .parkComplete berth => Sys2Proof.Machine.execParkComplete berth s
  | .restore berth pages => Sys2Proof.Machine.execRestore berth pages s
  | .restorePageReturn berth vpage => Sys2Proof.Machine.execRestorePageReturn berth vpage s
  | .killQueue berth queue => Sys2Proof.Machine.execKillQueue berth queue s
  | .ticket half => Sys2Proof.Machine.execTicket half s
  | .reset => Sys2Proof.Machine.execReset s
  | .fundamentalReset => Sys2Proof.Machine.execFundamentalReset s
  | .trayParkDone core tray => Sys2Proof.Machine.execTrayParkDone core tray s
  | .trayRestoreDone core tray => Sys2Proof.Machine.execTrayRestoreDone core tray s
  | .domainGate domain => Sys2Proof.Machine.execDomainGate domain s
  | .domainUngate domain => Sys2Proof.Machine.execDomainUngate domain s
  | .domainUngateDone domain => Sys2Proof.Machine.execDomainUngateDone domain s
  | .openSlot berth primary alt altValid passes => Sys2Proof.Machine.execOpenSlot berth primary alt altValid passes s
  | .closeSlot berth => Sys2Proof.Machine.execCloseSlot berth s
  | .clearSlot berth slot => Sys2Proof.Machine.execClearSlot berth slot s
  | .relock => Sys2Proof.Machine.execRelock s
  | .portEnable port => Sys2Proof.Machine.execPortEnable port s
  | .portDisable port => Sys2Proof.Machine.execPortDisable port s
  | .routeEntryWrite value => Sys2Proof.Machine.execRouteEntryWrite value s
  | .pinMarkWrite stack channel value => Sys2Proof.Machine.execPinMarkWrite stack channel value s
  | .hdmDecoderCommit k base size ways => Sys2Proof.Machine.execHdmDecoderCommit k base size ways s
  | .halfTicketVerified => Sys2Proof.Machine.execHalfTicketVerified s
  | .custodianHalfTicket half srcPart ht => Sys2Proof.Machine.execCustodianHalfTicket half srcPart ht s
  | .ticketTimeout digest => Sys2Proof.Machine.execTicketTimeout digest s
  | .peerTicketCheck => Sys2Proof.Machine.execPeerTicketCheck s
  | .peerVerdict => Sys2Proof.Machine.execPeerVerdict s
  | .peerVerdictTimeout => Sys2Proof.Machine.execPeerVerdictTimeout s
  | .isthmusHeartbeatSend half => Sys2Proof.Machine.execIsthmusHeartbeatSend half s
  | .isthmusHeartbeat half claim chairState m0 => Sys2Proof.Machine.execIsthmusHeartbeat half claim chairState m0 s
  | .isthmusHeartbeatLost half => Sys2Proof.Machine.execIsthmusHeartbeatLost half s
  | .bootHeartbeatTimeout half => Sys2Proof.Machine.execBootHeartbeatTimeout half s
  | .vinQualified => Sys2Proof.Machine.execVinQualified s
  | .rootPllLocked => Sys2Proof.Machine.execRootPllLocked s
  | .serdesPllLocked => Sys2Proof.Machine.execSerdesPllLocked s
  | .bootStageDone half copyA copyB codecA codecB => Sys2Proof.Machine.execBootStageDone half copyA copyB codecA codecB s
  | .rootPllLockLoss => Sys2Proof.Machine.execRootPllLockLoss s
  | .relockAttempt locked => Sys2Proof.Machine.execRelockAttempt locked s
  | .underVoltage => Sys2Proof.Machine.execUnderVoltage s
  | .holdupEnd => Sys2Proof.Machine.execHoldupEnd s
  | .thermalTrip sensor => Sys2Proof.Machine.execThermalTrip sensor s
  | .portTrained port peerPart peerPort => Sys2Proof.Machine.execPortTrained port peerPart peerPort s
  | .laneLockLoss port lane => Sys2Proof.Machine.execLaneLockLoss port lane s
  | .ackStall port => Sys2Proof.Machine.execAckStall port s
  | .drainEnd port => Sys2Proof.Machine.execDrainEnd port s
  | .codewordUncorrectable port => Sys2Proof.Machine.execCodewordUncorrectable port s
  | .linkAck port number credits => Sys2Proof.Machine.execLinkAck port number credits s
  | .linkNak port number => Sys2Proof.Machine.execLinkNak port number s
  | .linkAckTimer port => Sys2Proof.Machine.execLinkAckTimer port s
  | .write half p => Sys2Proof.Machine.execWrite half p s
  | .read half p => Sys2Proof.Machine.execRead half p s
  | .readResp half p => Sys2Proof.Machine.execReadResp half p s
  | .atomic half p => Sys2Proof.Machine.execAtomic half p s
  | .signalAdd half p => Sys2Proof.Machine.execSignalAdd half p s
  | .signalSet half p => Sys2Proof.Machine.execSignalSet half p s
  | .doorbell half p => Sys2Proof.Machine.execDoorbell half p s
  | .ack half p => Sys2Proof.Machine.execAck half p s
  | .nack half p => Sys2Proof.Machine.execNack half p s
  | .packetForward port p => Sys2Proof.Machine.execPacketForward port p s
  | .reservedPacket port p => Sys2Proof.Machine.execReservedPacket port p s
  | .resendTimeout half txn => Sys2Proof.Machine.execResendTimeout half txn s
  | .deliveryTimeout half txn => Sys2Proof.Machine.execDeliveryTimeout half txn s
  | .filterExpiry half srcPart srcHalf txn => Sys2Proof.Machine.execFilterExpiry half srcPart srcHalf txn s
  | .txnFree half txn => Sys2Proof.Machine.execTxnFree half txn s
  | .holTimeout port vl => Sys2Proof.Machine.execHolTimeout port vl s
  | .longshoreEngineGrant => Sys2Proof.Machine.execLongshoreEngineGrant s
  | .collGreeting p => Sys2Proof.Machine.execCollGreeting p s
  | .collCount p => Sys2Proof.Machine.execCollCount p s
  | .go p => Sys2Proof.Machine.execGo p s
  | .abort p => Sys2Proof.Machine.execAbort p s
  | .collData p => Sys2Proof.Machine.execCollData p s
  | .chunkAck p => Sys2Proof.Machine.execChunkAck p s
  | .chunkNak p => Sys2Proof.Machine.execChunkNak p s
  | .chunkResend q inst chunk => Sys2Proof.Machine.execChunkResend q inst chunk s
  | .collDone p => Sys2Proof.Machine.execCollDone p s
  | .land p => Sys2Proof.Machine.execLand p s
  | .memberHeartbeatSend half => Sys2Proof.Machine.execMemberHeartbeatSend half s
  | .memberHeartbeat p => Sys2Proof.Machine.execMemberHeartbeat p s
  | .memberLost group rank => Sys2Proof.Machine.execMemberLost group rank s
  | .lostNotice p => Sys2Proof.Machine.execLostNotice p s
  | .leaveNotice p => Sys2Proof.Machine.execLeaveNotice p s
  | .poll p => Sys2Proof.Machine.execPoll p s
  | .pollAnswer p => Sys2Proof.Machine.execPollAnswer p s
  | .coordinatorTimeout group => Sys2Proof.Machine.execCoordinatorTimeout group s
  | .install p => Sys2Proof.Machine.execInstall p s
  | .exclusion p => Sys2Proof.Machine.execExclusion p s
  | .installTimeout group => Sys2Proof.Machine.execInstallTimeout group s
  | .taint p => Sys2Proof.Machine.execTaint p s
  | .codecEngineGrant => Sys2Proof.Machine.execCodecEngineGrant s
  | .codecJobDone engine => Sys2Proof.Machine.execCodecJobDone engine s
  | .hostLinkUp width rate cache mem lanesHalf1 => Sys2Proof.Machine.execHostLinkUp width rate cache mem lanesHalf1 s
  | .hostLinkDown => Sys2Proof.Machine.execHostLinkDown s
  | .cxlMemRead addr n => Sys2Proof.Machine.execCxlMemRead addr n s
  | .cxlMemWrite addr data poison => Sys2Proof.Machine.execCxlMemWrite addr data poison s
  | .doeDiscovery index => Sys2Proof.Machine.execDoeDiscovery index s
  | .cdatRead => Sys2Proof.Machine.execCdatRead s
  | .spdmRequest r => Sys2Proof.Machine.execSpdmRequest r s
  | .getMldsaCert offset length => Sys2Proof.Machine.execGetMldsaCert offset length s
  | .signTranscript => Sys2Proof.Machine.execSignTranscript s
  | .rationsWindow arbiter edge requests => Sys2Proof.Machine.execRationsWindow arbiter edge requests s
  | .lhCharacter c framingError => Sys2Proof.Machine.execLhCharacter c framingError s
  | .keeperId => Sys2Proof.Machine.execKeeperId s
  | .baud rate => Sys2Proof.Machine.execBaud rate s
  | .baudRevert => Sys2Proof.Machine.execBaudRevert s
  | .rd addr n => Sys2Proof.Machine.execRd addr n s
  | .wr addr value => Sys2Proof.Machine.execWr addr value s
  | .wrd berth offset n => Sys2Proof.Machine.execWrd berth offset n s
  | .wwr berth offset value => Sys2Proof.Machine.execWwr berth offset value s
  | .temp => Sys2Proof.Machine.execTemp s
  | .mrd berth va n => Sys2Proof.Machine.execMrd berth va n s
  | .mwr berth va n => Sys2Proof.Machine.execMwr berth va n s
  | .keeperBlock data crc => Sys2Proof.Machine.execKeeperBlock data crc s
  | .keeperBlockTimeout => Sys2Proof.Machine.execKeeperBlockTimeout s
  | .halt berth => Sys2Proof.Machine.execHalt berth s
  | .release berth => Sys2Proof.Machine.execRelease berth s
  | .keeperKill queue => Sys2Proof.Machine.execKeeperKill queue s
  | .lock => Sys2Proof.Machine.execLock s
  | .stat => Sys2Proof.Machine.execStat s
  | .snoop addr => Sys2Proof.Machine.execSnoop addr s
  | .configSpaceWrite enable fmask => Sys2Proof.Machine.execConfigSpaceWrite enable fmask s
  | .mgmt half p => Sys2Proof.Machine.execMgmt half p s
  | .regulatorsGood => Sys2Proof.Machine.execRegulatorsGood s

end Sys2Proof.Machine
end

