-- ==== Sys2Proof/Safety.lean ====
section
/-! DEFINITION. What a sound state is: memories and the marks of their units in canonical form, and the buffers that the
spec bounds within their bounds. Every command keeps it, from every state that has it. Then the words in which
statements speak of a command: that it answers a next state, and which part of the state alone it changes. -/
namespace Sys2Proof.Machine

/-- Memories, and the marks of their units, are in canonical form. -/
def State.memWf (s : State) : Bool :=
  Memory.wf s.mem && Memory.wf s.moor && Memory.wf s.trays && tblWf .good s.units && tblWf .good s.moorUnits

/-- What the receive buffer and the report queue of Keeper can hold (R498, R501). -/
def Dbg.fits (d : Dbg) : Prop := buffered d ≤ 1024 ∧ d.reports.length ≤ 64

/-- A half holds at most four ticket bodies pending (R481). -/
def Sec.fits (x : Sec) : Prop := ∀ h, (x.pend.filter (fun t => t.half = h)).length ≤ 4

/-- A sound state. -/
def State.Sound (s : State) : Prop := s.memWf = true ∧ s.dbg.fits ∧ s.sec.fits

/-! ### What a command answers, and what it leaves alone -/

/-- The command answers a next state, of which P holds. -/
def Yields (c : Instr) (s : State) (P : State → Prop) : Prop := ∃ t, exec c s = .next t ∧ P t

/-- Of the whole state, only the current kernel of queue q may differ. -/
def State.onlyRun (s : State) (q : Nat) (t : State) : Prop :=
  t = { s with runs := t.runs } ∧ ∀ p, p ≠ q → t.run p = s.run p

/-- Of the whole state, only the context of queue i may differ. -/
def State.onlyQueue (s : State) (i : Nat) (t : State) : Prop :=
  t = { s with queues := t.queues } ∧ ∀ j, j ≠ i → t.queue j = s.queue j

/-- Of the whole state, only sync object i may differ. -/
def State.onlySync (s : State) (i : Nat) (t : State) : Prop :=
  t = { s with syncs := t.syncs } ∧ ∀ j, j ≠ i → t.sync j = s.sync j

/-- Of the whole state, only core i may differ. -/
def State.onlyCore (s : State) (i : Nat) (t : State) : Prop :=
  t = { s with cores := t.cores } ∧ ∀ j, j ≠ i → t.core j = s.core j

/-- Of the whole state, only cluster i may differ. -/
def State.onlyCluster (s : State) (i : Nat) (t : State) : Prop :=
  t = { s with clusters := t.clusters } ∧ ∀ j, j ≠ i → t.cluster j = s.cluster j

/-- Of the whole state, only the Harbour of half i may differ. -/
def State.onlyHarbour (s : State) (i : Nat) (t : State) : Prop :=
  t = { s with hbr := t.hbr } ∧ ∀ j, j ≠ i → t.harbour j = s.harbour j

/-- Of the whole state, only stack i may differ. -/
def State.onlyStack (s : State) (i : Nat) (t : State) : Prop :=
  t = { s with stks := t.stks } ∧ ∀ j, j ≠ i → t.stack j = s.stack j

/-- Of the whole state, only port i may differ. -/
def State.onlyPort (s : State) (i : Nat) (t : State) : Prop :=
  t = { s with ports := t.ports } ∧ ∀ j, j ≠ i → t.port j = s.port j

/-- Of the whole state, only the Tidewatch registers of half i may differ. -/
def State.onlyHalf (s : State) (i : Nat) (t : State) : Prop :=
  t = { s with twcH := t.twcH } ∧ ∀ j, j ≠ i → t.half j = s.half j

/-- Of the whole state, only berth i may differ. -/
def State.onlyBerth (s : State) (i : Nat) (t : State) : Prop :=
  t = { s with berths := t.berths } ∧ ∀ j, j ≠ i → t.berth j = s.berth j

/-- A run after the word that it dispatches has entered one effect in the held log (R44, R45): the log's order is that of
the words, and within a word that of its effects. -/
def Run.holding (r : Run) (eff : Held) : Run :=
  { r with
    held := r.held ++ [{ inst := r.ip, ord := (r.held.filter (fun h => h.inst = r.ip)).length, eff := eff }]
    entries := r.entries + 1
    ip := r.ip + 1 }

/-- From s to t only what follows from the readiness of kernels may differ: their places in time (R371), the activity and
virtual time of berths (R369, R370), WAITING of Harbour shares (Table 12.6). -/
def State.sameButReadiness (s t : State) : Prop :=
  t = { s with runs := t.runs, berths := t.berths, hbr := t.hbr, readySeq := t.readySeq } ∧
    (∀ q, t.run q = { s.run q with readyAt := (t.run q).readyAt }) ∧
    (∀ b, t.berth b = { s.berth b with active := (t.berth b).active, virt := (t.berth b).virt }) ∧
    (∀ h, t.harbour h = { s.harbour h with shares := (t.harbour h).shares }) ∧
    ∀ h b, look {} (t.harbour h).shares b =
      { look {} (s.harbour h).shares b with waiting := (look {} (t.harbour h).shares b).waiting }

/-- From s to t only what follows from idle engines starting work may differ (R144, R145): the work lists of dispatched
instructions, of which no item is lost, the status of engines, the reads that a PEEL sends out. -/
def State.sameButStarts (s t : State) : Prop :=
  t = { s with runs := t.runs, cores := t.cores, clusters := t.clusters, ports := t.ports, cwy := t.cwy, arbs := t.arbs
               out := t.out } ∧
    (∀ q, t.run q = { s.run q with insts := (t.run q).insts }) ∧
    (∀ q, (t.run q).insts.length = (s.run q).insts.length) ∧
    (∀ q j, t.inst q j =
      { s.inst q j with work := (t.inst q j).work, readsLeft := (t.inst q j).readsLeft }) ∧
    (∀ q j, (t.inst q j).work.map (·.item) = (s.inst q j).work.map (·.item)) ∧
    (∀ c, t.core c = { s.core c with
      mxe := (t.core c).mxe, rweBusy := (t.core c).rweBusy, rweHeirloom := (t.core c).rweHeirloom
      rweBase2 := (t.core c).rweBase2 }) ∧
    (∀ m, t.mxe m = { s.mxe m with
      busy := (t.mxe m).busy, stolen := (t.mxe m).stolen, stream := (t.mxe m).stream
      streamHeirloom := (t.mxe m).streamHeirloom, streamBase2 := (t.mxe m).streamBase2 }) ∧
    ∀ c, t.cluster c = { s.cluster c with
      strBusy := (t.cluster c).strBusy, strStolen := (t.cluster c).strStolen, strZc := (t.cluster c).strZc
      strHs := (t.cluster c).strHs, strStripe := (t.cluster c).strStripe }

/-- t is u after an item of instruction j of queue q left the work list and its engine went idle (R144, R151): the
instruction, x before, holds the items that are left, and completes with its last; then idle engines start. Of berths,
engine-time counters alone may differ (R368). -/
def State.itemDone (u : State) (q j : Nat) (w : Work) (x : Inst) (t : State) : Prop :=
  (∀ b, t.berth b = { u.berth b with cycles := (t.berth b).cycles }) ∧
  ∃ v : State, v.sameButStarts { t with berths := v.berths } ∧
    v = { u with runs := v.runs, cores := v.cores, clusters := v.clusters, berths := v.berths } ∧
    (∀ p, p ≠ q → v.run p = u.run p) ∧ (∀ k, k ≠ j → v.inst q k = u.inst q k) ∧
    v.run q = { u.run q with insts := (v.run q).insts, sounds := (v.run q).sounds } ∧
    v.inst q j = { x with
      work := x.work.filter (fun a => a.item ≠ w.item), doneItems := x.doneItems ++ [w.item]
      done := (x.work.filter (fun a => a.item ≠ w.item)).isEmpty }

/-- t is s after the run of queue q ended in a fault or a kill (R50, R52, R56): the fault is recorded, the queue stops or
awaits a re-run, the held log, the dispatched instructions, the crew and the event counts are gone, and no stored byte
of the stacks or the trays is undone (R53). -/
def State.endedRun (s : State) (q code detail word : Nat) (stop : Bool) (t : State) : Prop :=
  t.queue q = { s.queue q with
    state := if stop then .stopped else .waiting, skipWaiting := !stop && (s.queue q).skipWaiting
    kernelStart := (s.run q).start, faultWord := word, faultCode := code, faultDetail := detail
    rerunCount := if stop || code = 5 then (s.queue q).rerunCount else (s.queue q).rerunCount + 1
    killCount := wrapAdd 64 (s.queue q).killCount 1 } ∧
  (∀ p, p ≠ q → t.queue p = s.queue p ∧ t.run p = { s.run p with readyAt := (t.run p).readyAt }) ∧
  (t.run q).phase = .killed ∧ (t.run q).held = [] ∧ (t.run q).entries = 0 ∧ (t.run q).insts = [] ∧
  (t.run q).crew = [] ∧ (t.run q).flags = 0 ∧ (t.run q).spill = 0 ∧ (t.run q).words = (s.run q).words ∧
  t.mem = s.mem ∧ t.units = s.units ∧ t.trays = s.trays ∧ t.syncs = s.syncs

/-- A held effect that writes memory when it applies: the release of a COLL's sequence word. -/
def Held.isRelease : Held → Bool
  | .release .. => true
  | _ => false

/-- t is s after an operator command on a berth ended with its result (R464): BUSY is clear, the record is made; nothing but
that record, and what makes it known, differs. -/
def State.commandDone (s : State) (op berth result : Nat) (t : State) : Prop :=
  t = { s with twcH := t.twcH, twc := t.twc, glb := t.glb, ports := t.ports, cwy := t.cwy, arbs := t.arbs, out := t.out } ∧
  t.twc.cmdBusy = false ∧ t.twc.lastOp = op ∧ t.twc.result = result ∧ t.twc.cmdBerth = berth ∧
  t.twc.cmdDone = wrapAdd 32 s.twc.cmdDone 1 ∧
  Out.record s.glb.chair (recordBytes s s.glb.chair 0x29 (if op = 6 then 0xFF else berth) (payCommand op result)) ∈ t.out

/-- t is s after a ticket ended with its result code (R481, R483): it is pending no more, the registers and the record
of the part hold its result, the record is made; nothing but those, and what makes the record known, differs. -/
def State.ticketEnded (s : State) (k : Ticket) (code : Nat) (t : State) : Prop :=
  t = { s with sec := t.sec, trec := t.trec, twcH := t.twcH, twc := t.twc, glb := t.glb, ports := t.ports, cwy := t.cwy
               arbs := t.arbs, out := t.out } ∧
  t.sec = { s.sec with
    pend := s.sec.pend.filter (fun y => !(y.digest = k.digest && y.half = k.half))
    paired := s.sec.paired.filter (· ≠ (k.half, k.digest)), lastResult := code, lastAction := k.body.action % 256
    refused := if code = 0 then s.sec.refused else satAdd 32 s.sec.refused 1 } ∧
  t.trec = { s.trec with refused := if code = 0 then s.trec.refused else satAdd 32 s.trec.refused 1 } ∧
  t.twc.result = code ∧
  Out.record k.half (recordBytes s k.half 0x11 0xFF (payTicket code (k.body.action % 256) k.body.seq k.digest)) ∈ t.out

/-- t is s after a part reset (R465, R529): the halves start their boot chains again, no command, kernel, queue context,
sync object or packet is left, and the stacks hold nothing. The record of the part and the Shelf stay, with the fences,
the enrolled keys, the ticket counter and the bytes of the Shelf (below 2^44 lie those of the stacks). -/
def State.partWasReset (s t : State) : Prop :=
  t.trec = s.trec ∧ t.shelf = s.shelf ∧ t.queues = [] ∧ t.runs = [] ∧ t.syncs = [] ∧ t.cores = [] ∧ t.ports = [] ∧
  (∀ h, t.half h = { us := (t.half h).us, recSeq := (t.half h).recSeq }) ∧ t.twc.cmdBusy = false ∧ t.sec.level = 0 ∧ t.sec.pend = [] ∧
  t.sec.seq = s.trec.seq ∧ t.sec.operKeys = s.trec.operKeys ∧ t.sec.custKeys = s.trec.custKeys ∧
  t.glb.h0Fenced = s.glb.h0Fenced ∧ t.glb.h1Fenced = s.glb.h1Fenced ∧ t.glb.chair = s.glb.chair ∧
  t.glb.rootLock = s.glb.rootLock ∧ (∀ b, (t.berth b).parkRec = none → t.berth b = {}) ∧
  (∀ a, rdByte t.mem a = if 2 ^ 44 ≤ a then rdByte s.mem a else 0)

/-- t is s after a half entered SPLIT for a cause (R468): it counts the split, takes the half's own power level from the
part's, holds its migrations back, and ends its kernels that can still be killed. -/
def State.splitBy (s : State) (half cause : Nat) (t : State) : Prop :=
  t.half half = { s.half half with
    chair := .split, cause := cause, splits := satAdd 32 (s.half half).splits 1, mH := s.twc.mP, migHeld := true
    recSeq := (t.half half).recSeq } ∧
  t.glb.split = true ∧ t.mem = s.mem ∧ t.sec = s.sec ∧ t.trec = s.trec ∧
  ∀ q, queueHalf q = half → killable (s.run q) = true → (t.run q).phase = .killed ∧ (t.run q).held = []

/-- A port that was UP and went DOWN (R394): its retry buffer is lost; it trains again at once where it may. -/
def Port.downed (x : Port) (train : Bool) : Port :=
  { x with state := if train then .training else .down, linkDowns := satAdd 16 x.linkDowns 1, unacked := [], rxHold := false
           nakRun := 0, locked := if train then 0 else x.locked }

/-- A request that w has applied is answered with ACK, and its duplicates will be (R404). -/
def State.acked (w : State) (half : Nat) (p : Packet) : State :=
  let a := answerTo w p 0x8 0
  route half a { w with cwy := { w.cwy with filter := w.cwy.filter ++
    [{ half := half, srcPart := p.srcPart, srcHalf := p.srcHalf, txn := p.txn, answer := a }] } }

/-- A request that reaches a half for the first time, while the half's filter has room (R404). -/
def State.isNew (v : State) (half : Nat) (p : Packet) : Prop :=
  v.cwy.filter.find? (filterHit half p) = none ∧ (v.cwy.filter.filter (fun e => e.half = half)).length < 65536

/-- Keeper runs, no transfer is in progress, and neither lines nor reports wait (R500, R501). -/
def State.keeperIdle (s : State) : Prop :=
  keeperUp s = true ∧ s.dbg.inbound = none ∧ s.dbg.lines = [] ∧ s.dbg.reports = [] ∧ s.dbg.lostReports = 0

/-- t is u after Keeper's reply of these lines and the prompt (R499, R500, newest message first): the command is counted,
and as an error where it is one. -/
def State.replied (u : State) (lines : List String) (err : Bool) (t : State) : Prop :=
  t = { u with dbg := t.dbg, out := t.out } ∧
  t.out = Out.line (ascii "K> ") :: ((lines.map (fun l => Out.line (ascii l ++ [13, 10]))).reverse ++ u.out) ∧
  t.dbg = { u.dbg with
    commands := wrapAdd 32 u.dbg.commands 1, errors := if err then satAdd 32 u.dbg.errors 1 else u.dbg.errors
    inbound := none }

end Sys2Proof.Machine
end

