-- ==== Sys2Proof/WellFormed.lean ====
section
/-! DEFINITION. Well-formed commands: operands inside the part's numbering (01_the_part.md R10) and the widths of their
fields. The meanings are total; this says which terms stand for commands that can occur. -/
namespace Sys2Proof

def fits (w n : Nat) : Bool := decide (n < 2 ^ w)

/-! ### Numbering (R10) -/

def isHalf (h : Nat) : Bool := decide (h < 2)
def isQueue (q : Nat) : Bool := decide (q < 524288)
def isSync (i : Nat) : Bool := decide (i < 16384)
def isCore (c : Nat) : Bool := decide (c < 256)
def isTray (t : Nat) : Bool := decide (t < 16)
def isMxe (m : Nat) : Bool := decide (m < 1024)
def isCluster (c : Nat) : Bool := decide (c < 32)
def isStack (k : Nat) : Bool := decide (k < 32)
def isChannel (c : Nat) : Bool := decide (c < 64)
def isPort (p : Nat) : Bool := decide (p < 64)
def isEngine (e : Nat) : Bool := decide (e < 8)
def isBerth (b : Nat) : Bool := decide (b < 32)
def isDomain (d : Nat) : Bool := decide (d < 378)
def isBar (b : Nat) : Bool := b = 0 || b = 2

/-- A physical page of 2 MiB: of the stacks or of the Shelf (13_stacks.md R318). -/
def isPage (p : Nat) : Bool := decide (p < 3 * 2 ^ 19) || (decide (2 ^ 23 ≤ p) && decide (p < 2 ^ 24))

/-- A 32 B unit of the stacks. -/
def isStackAddr (a : Nat) : Bool := decide (a < 0x30000000000) && a % 32 = 0

/-- An erase block of the Shelf (14_shelf_tiers.md R354). -/
def isBlock (b : Nat) : Bool := decide (b < 655360)

/-- A rations arbiter, by the numbers of Sys2Proof/Machine/Fabric.lean. -/
def isArbiter (a : Nat) : Bool :=
  decide (a < 128) || (decide (0x1000 ≤ a) && decide (a < 0x1800)) || a = 0x2000 || a = 0x2001 || a = 0x3000 ||
    (decide (0x4000 ≤ a) && decide (a < 0x4040))

/-! ### Operands of words (03_instructions.md) -/

def probWf (o : ProbOps) : Bool :=
  fits 42 o.a && fits 42 o.b && fits 42 o.c && fits 42 o.aux && fits 4 o.fn && fits 2 o.dst && fits 4 o.acc
def attnWf (o : AttnOps) : Bool := fits 42 o.base && fits 32 o.qpos && fits 32 o.kpos
def rowWf (o : RowOps) : Bool :=
  fits 4 o.variant && fits 42 o.x && fits 42 o.y && fits 42 o.aux && fits 42 o.st && fits 5 o.func
def stripeWf (o : StripeOps) : Bool :=
  fits 4 o.variant && fits 42 o.inp && fits 42 o.w && fits 42 o.out && fits 42 o.aux && fits 4 o.fn && fits 4 o.sy &&
    fits 4 o.sx && fits 4 o.py && fits 4 o.px && fits 4 o.pfh && fits 4 o.pfw
def peelWf (o : PeelOps) : Bool :=
  fits 4 o.variant && fits 42 o.src && fits 42 o.dst && fits 42 o.idx && fits 2 o.round
def atomWf (o : AtomOps) : Bool :=
  fits 4 o.variant && fits 48 o.addr && fits 16 o.part && fits 64 o.operand && fits 64 o.compare && fits 42 o.src &&
    fits 42 o.dst && fits 4 o.op
def collWf (o : CollOps) : Bool :=
  fits 4 o.variant && fits 42 o.src && fits 42 o.dst && fits 42 o.counts && fits 16 o.group && fits 16 o.root &&
    fits 4 o.redop

/-- An operation that a word can spell: fields inside their widths, a variant that the tables give, and 0 in what the
variant does not carry (Tables 3.6 to 3.19). -/
def Op.wf : Op → Bool
  | .nop => true
  | .kbegin t r _ _ => fits 16 t && fits 16 r
  | .commit => true
  | .wait s t => fits 14 s && fits 64 t
  | .signal v s p q x => decide (v ≤ 4) && fits 14 s && fits 16 p && fits 19 q && fits 64 x
  | .fence => true
  | .recipe v s w g => fits 16 s && fits 16 w && fits 6 g && (v = 1 || (v = 0 && w = 0 && g = 0))
  | .prob o => probWf o
  | .attn o => attnWf o
  | .rowop o => rowWf o && decide (o.variant ≤ 6)
  | .stripe o => stripeWf o && decide (o.variant ≤ 3)
  | .peel o => peelWf o && decide (o.variant ≤ 3)
  | .atom o => atomWf o && ((o.variant = 0 && o.src = 0 && o.dst = 0) ||
      (o.variant = 1 && !o.wide64 && !o.remote && o.addr = 0 && o.part = 0 && o.operand = 0 && o.compare = 0))
  | .coll o => collWf o && decide (o.variant ≤ 5)
  | .codec v j => decide (v ≤ 2) && fits 42 j
  | .place r t => fits 42 r && fits 2 t
  | .epoch v s x => decide (v ≤ 2) && fits 12 s && fits 32 x
  | .sound v p s t => fits 4 p && fits 8 s && (v = 1 || (v = 0 && p = 0 && s = 0 && t = 0))

/-! ### What commands carry -/

/-- A packet's fields (Table 16.3). -/
def packetWf (p : Packet) : Bool :=
  fits 4 p.type && fits 3 p.vl && fits 16 p.srcPart && fits 16 p.dstPart && fits 5 p.srcBerth && fits 24 p.txn &&
    fits 48 p.addr && decide (p.length ≤ 4096) && fits 4 p.op && isHalf p.srcHalf && fits 64 p.operand &&
    decide (p.data.length ≤ 4096) && fits 16 p.rank && fits 16 p.group && fits 32 p.epoch && fits 32 p.seq &&
    (match p.port with
     | some n => isPort n
     | none => true)

/-- A half-ticket's fields (Table 20.4). -/
def ticketWf (t : HalfTicket) : Bool :=
  fits 32 t.body.magic && fits 8 t.body.action && fits 64 t.body.seq && fits 8 t.party

/-- Sixteen readings of each kind for a half (Table 19.2). -/
def sensorsWf (x : Sensors) : Bool := x.stack.length = 16 && x.cluster.length = 16

/-- An image has at most 65,536 templates, 64 export entries and 64 group records, and regions inside a berth's 2^48
bytes. -/
def imageWf (i : Image) : Bool :=
  decide (i.templates.length ≤ 65536) && decide (i.exports.length ≤ 64) && decide (i.groups.length ≤ 64) &&
    i.regions.all (fun r => decide (r.base + r.size ≤ 2 ^ 48))

/-- A command is well formed. -/
def Instr.wf : Instr → Bool
  | .nop q => isQueue q
  | .kbegin q templ request _ _ => isQueue q && fits 16 templ && fits 12 request
  | .commit q => isQueue q
  | .wait q sync threshold => isQueue q && isSync sync && fits 64 threshold
  | .signal q variant sync part queue value => isQueue q && fits 4 variant && isSync sync && fits 16 part && isQueue queue && fits 64 value
  | .fence q => isQueue q
  | .recipe q variant set wide group => isQueue q && fits 4 variant && fits 16 set && fits 16 wide && fits 6 group
  | .prob q o => isQueue q && probWf o
  | .attn q o => isQueue q && attnWf o
  | .rowop q o => isQueue q && rowWf o
  | .stripe q o => isQueue q && stripeWf o
  | .peel q o => isQueue q && peelWf o
  | .atom q o => isQueue q && atomWf o
  | .coll q o => isQueue q && collWf o
  | .codec q variant job => isQueue q && fits 4 variant && fits 42 job
  | .place q region tier => isQueue q && fits 42 region && fits 2 tier
  | .epoch q variant set version => isQueue q && fits 4 variant && fits 12 set && fits 32 version
  | .sound q variant period slot _ => isQueue q && fits 4 variant && fits 4 period && fits 8 slot
  | .tail q v => isQueue q && fits 32 v
  | .resume q => isQueue q
  | .skip q => isQueue q
  | .clrEvents q => isQueue q
  | .synValueWrite sync value => isSync sync && fits 64 value
  | .registerWrite bar _ _ value => isBar bar && fits 64 value
  | .kernelFetch q => isQueue q
  | .crewGrant q => isQueue q
  | .trayScrubDone core tray => isCore core && isTray tray
  | .killTraysReturned q => isQueue q
  | .crewCoreJoin q core => isQueue q && isCore core
  | .planReady q => isQueue q
  | .chunkFillDone mxe _ _ => isMxe mxe
  | .tileDone mxe _ _ => isMxe mxe
  | .tileSteal mxe => isMxe mxe
  | .batchSteal core _ => isCore core
  | .rowDone core _ => isCore core
  | .attnShareDone mxe _ => isMxe mxe
  | .peelBatchDone core _ => isCore core
  | .stripeDone cluster _ => isCluster cluster
  | .stripeSteal cluster => isCluster cluster
  | .soundingCompare q mxe => isQueue q && isMxe mxe
  | .commitBegin q => isQueue q
  | .commitStoresAcked q => isQueue q
  | .commitAtomicsDone q => isQueue q
  | .commitRemoteDone q => isQueue q
  | .kernelRerun q => isQueue q
  | .harbourOpApply q => isQueue q
  | .stackReadDone stack channel pa source _ => isStack stack && isChannel channel && isStackAddr pa && fits 2 source
  | .ueRereadDone stack channel pa _ => isStack stack && isChannel channel && isStackAddr pa
  | .pinCountClear stack channel => isStack stack && isChannel channel
  | .refresh stack channel => isStack stack && isChannel channel
  | .scrubRead stack channel pa _ => isStack stack && isChannel channel && isStackAddr pa
  | .migrationDone half page => isHalf half && isPage page
  | .shelfReadDone q _ => isQueue q
  | .shelfMapRebuild => true
  | .wearLevel => true
  | .garbageCollect block => isBlock block
  | .shelfRelocate block _ _ => isBlock block
  | .tidewatchLoop half _ sensors => isHalf half && sensorsWf sensors
  | .deadlineEval half => isHalf half
  | .telemetry half => isHalf half
  | .overCurrent half => isHalf half
  | .admission berth image => isBerth berth && imageWf image
  | .proofCheckDone _ => true
  | .remove berth => isBerth berth
  | .park berth => isBerth berth
  | .parkComplete berth => isBerth berth
  | .restore berth _ => isBerth berth
  | .restorePageReturn berth vpage => isBerth berth && fits 27 vpage
  | .killQueue berth _ => isBerth berth
  | .ticket half => ticketWf half
  | .reset => true
  | .fundamentalReset => true
  | .trayParkDone core tray => isCore core && isTray tray
  | .trayRestoreDone core tray => isCore core && isTray tray
  | .domainGate domain => isDomain domain
  | .domainUngate domain => isDomain domain
  | .domainUngateDone domain => isDomain domain
  | .openSlot berth primary alt _ passes => isBerth berth && isQueue primary && isQueue alt && fits 16 passes
  | .closeSlot berth => isBerth berth
  | .clearSlot berth slot => isBerth berth && fits 8 slot
  | .relock => true
  | .portEnable port => isPort port
  | .portDisable port => isPort port
  | .routeEntryWrite value => fits 64 value
  | .pinMarkWrite stack channel value => isStack stack && isChannel channel && fits 64 value
  | .hdmDecoderCommit k base size _ => fits 2 k && fits 64 base && fits 64 size
  | .halfTicketVerified => true
  | .custodianHalfTicket half srcPart ht => isHalf half && fits 16 srcPart && ticketWf ht
  | .ticketTimeout _ => true
  | .peerTicketCheck => true
  | .peerVerdict => true
  | .peerVerdictTimeout => true
  | .isthmusHeartbeatSend half => isHalf half
  | .isthmusHeartbeat half _ chairState _ => isHalf half && fits 2 chairState
  | .isthmusHeartbeatLost half => isHalf half
  | .bootHeartbeatTimeout half => isHalf half
  | .vinQualified => true
  | .rootPllLocked => true
  | .serdesPllLocked => true
  | .bootStageDone half _ _ _ _ => isHalf half
  | .rootPllLockLoss => true
  | .relockAttempt _ => true
  | .underVoltage => true
  | .holdupEnd => true
  | .thermalTrip sensor => fits 6 sensor
  | .portTrained port peerPart peerPort => isPort port && fits 16 peerPart && fits 6 peerPort
  | .laneLockLoss port lane => isPort port && fits 3 lane
  | .ackStall port => isPort port
  | .drainEnd port => isPort port
  | .codewordUncorrectable port => isPort port
  | .linkAck port number credits => isPort port && fits 12 number && fits 32 credits
  | .linkNak port number => isPort port && fits 12 number
  | .linkAckTimer port => isPort port
  | .write half p => isHalf half && packetWf p
  | .read half p => isHalf half && packetWf p
  | .readResp half p => isHalf half && packetWf p
  | .atomic half p => isHalf half && packetWf p
  | .signalAdd half p => isHalf half && packetWf p
  | .signalSet half p => isHalf half && packetWf p
  | .doorbell half p => isHalf half && packetWf p
  | .ack half p => isHalf half && packetWf p
  | .nack half p => isHalf half && packetWf p
  | .packetForward port p => isPort port && packetWf p
  | .reservedPacket port p => isPort port && packetWf p
  | .resendTimeout half txn => isHalf half && fits 24 txn
  | .deliveryTimeout half txn => isHalf half && fits 24 txn
  | .filterExpiry half srcPart srcHalf txn => isHalf half && fits 16 srcPart && isHalf srcHalf && fits 24 txn
  | .txnFree half txn => isHalf half && fits 24 txn
  | .holTimeout port vl => isPort port && fits 3 vl
  | .longshoreEngineGrant => true
  | .collGreeting p => packetWf p
  | .collCount p => packetWf p
  | .go p => packetWf p
  | .abort p => packetWf p
  | .collData p => packetWf p
  | .chunkAck p => packetWf p
  | .chunkNak p => packetWf p
  | .chunkResend q _ chunk => isQueue q && fits 32 chunk
  | .collDone p => packetWf p
  | .land p => packetWf p
  | .memberHeartbeatSend half => isHalf half
  | .memberHeartbeat p => packetWf p
  | .memberLost group rank => fits 16 group && fits 16 rank
  | .lostNotice p => packetWf p
  | .leaveNotice p => packetWf p
  | .poll p => packetWf p
  | .pollAnswer p => packetWf p
  | .coordinatorTimeout group => fits 16 group
  | .install p => packetWf p
  | .exclusion p => packetWf p
  | .installTimeout group => fits 16 group
  | .taint p => packetWf p
  | .codecEngineGrant => true
  | .codecJobDone engine => isEngine engine
  | .hostLinkUp width rate _ _ _ => fits 5 width && fits 3 rate
  | .hostLinkDown => true
  | .cxlMemRead addr _ => fits 64 addr
  | .cxlMemWrite addr _ _ => fits 64 addr
  | .doeDiscovery _ => true
  | .cdatRead => true
  | .spdmRequest _ => true
  | .getMldsaCert _ _ => true
  | .signTranscript => true
  | .rationsWindow arbiter _ _ => isArbiter arbiter
  | .lhCharacter _ _ => true
  | .keeperId => true
  | .baud _ => true
  | .baudRevert => true
  | .rd _ _ => true
  | .wr _ _ => true
  | .wrd _ _ _ => true
  | .wwr _ _ _ => true
  | .temp => true
  | .mrd _ _ _ => true
  | .mwr _ _ _ => true
  | .keeperBlock _ _ => true
  | .keeperBlockTimeout => true
  | .halt _ => true
  | .release _ => true
  | .keeperKill _ => true
  | .lock => true
  | .stat => true
  | .snoop _ => true
  | .configSpaceWrite _ _ => true
  | .mgmt half p => isHalf half && packetWf p
  | .regulatorsGood => true

end Sys2Proof
end

