-- ==== Sys2Proof/Certificates/Slice0/Obligations.lean ====
section
/-! DEFINITION. Statements about the part, for the provers: for every command where it takes effect and what it then
leaves, the frames of the plain ones, and what no command undoes. -/
open Sys2Proof Sys2Proof.Machine

/-! ### The whole part -/

/-- A step takes the command at the front of the queue and answers what its meaning answers on the state with the queue's
rest; on an empty queue it answers a microsecond's passing, the model's choice (notes/assumptions/2.md). -/
def Obligations.StepRunsTheFrontCommand : Prop :=
  (∀ (c : Instr) (rest : List Instr) (s : State), s.pending = c :: rest →
      step s = exec c { s with pending := rest }) ∧
    ∀ s : State, s.pending = [] → step s = .next (idleTick s)

/-- Every command, in every state, answers a next state, and leaves the commands that wait as they are. -/
def Obligations.EveryCommandAnswersAndKeepsTheQueue : Prop :=
  ∀ (c : Instr) (s : State), ∃ t, exec c s = .next t ∧ t.pending = s.pending

/-- Every step from a sound state answers a sound state: memories and marks stay in canonical form, Keeper's receive
buffer holds at most 1,024 characters and 64 reports wait at most (R498, R501), and no half holds more than four ticket
bodies (R481). -/
def Obligations.EveryStepKeepsSoundness : Prop :=
  ∀ s t : State, s.Sound → step s = .next t → t.Sound

/-- The part after a power-on reset is sound, and no command waits. -/
def Obligations.ResetIsSound : Prop := State.reset.Sound ∧ State.reset.pending = []

/-- SECVER_MIN of no image type falls in any step, a reset, a power loss and a ticket among them (R474: fuses only
rise). -/
def Obligations.SecverMinNeverFalls : Prop :=
  ∀ s t : State, step s = .next t → ∀ type : Nat, secverMin s type ≤ secverMin t type

/-- No step takes a page off the retired-page list (R348) or a block off the bad-block list (R357). -/
def Obligations.RetiredPagesAndBadBlocksStay : Prop :=
  ∀ s t : State, step s = .next t →
    (∀ page ∈ s.trec.retired, page ∈ t.trec.retired) ∧ ∀ i : Nat, (s.block i).bad = true → (t.block i).bad = true

/-- No step takes a free value that an earlier one took. -/
def Obligations.FreeValuesAreFresh : Prop := ∀ s t : State, step s = .next t → s.fresh ≤ t.fresh

/-! ### The words of a kernel -/

/-- The next word of a running kernel dispatches when it is a NOP (R76), a FENCE behind completed instructions (R82), a
RECIPE (R84, R85, R220), a SOUND (R87) or a COMMIT (R79), and changes its kernel's state alone. -/
def Obligations.PlainWordsDispatch : Prop :=
  ∀ (s : State) (q : Nat),
    (nextWord (s.run q) .nop = true →
      Yields (.nop q) s fun t => s.onlyRun q t ∧ t.run q = { s.run q with ip := (s.run q).ip + 1 }) ∧
    (nextWord (s.run q) .fence = true → (∀ i ∈ (s.run q).insts, i.done = true) →
      Yields (.fence q) s fun t => s.onlyRun q t ∧ t.run q = { s.run q with ip := (s.run q).ip + 1 }) ∧
    (nextWord (s.run q) .commit = true →
      Yields (.commit q) s fun t => s.onlyRun q t ∧
        t.run q = { s.run q with ip := (s.run q).ip + 1, phase := .draining }) ∧
    (∀ (period slot : Nat) (thr : BitVec 32),
      (nextWord (s.run q) (.sound 0 period slot thr) = true →
        Yields (.sound q 0 period slot thr) s fun t => s.onlyRun q t ∧
          t.run q = { s.run q with ip := (s.run q).ip + 1, snd := none }) ∧
      (nextWord (s.run q) (.sound 1 period slot thr) = true →
        Yields (.sound q 1 period slot thr) s fun t => s.onlyRun q t ∧
          t.run q = { s.run q with ip := (s.run q).ip + 1, snd := some { period := period, slot := slot, thr := thr } })) ∧
    ∀ set wide group : Nat,
      (nextWord (s.run q) (.recipe 0 set wide group) = true →
        Yields (.recipe q 0 set wide group) s fun t => s.onlyRun q t ∧
          t.run q = { s.run q with ip := (s.run q).ip + 1, set := set }) ∧
      (nextWord (s.run q) (.recipe 1 set wide group) = true →
        Yields (.recipe q 1 set wide group) s fun t => s.onlyRun q t ∧
          t.run q =
            if bitOf (s.run q).recSample group = true then
              if (s.template q).wide.isSome then { s.run q with ip := (s.run q).ip + 1, set := wide }
              else { s.run q with ip := (s.run q).ip + 1, set := set, keptGroups := setBit (s.run q).keptGroups group true }
            else { s.run q with ip := (s.run q).ip + 1, set := set })

/-- SIGNAL (R81), EPOCH (R104), PLACE (R103) and ATOM (R100) enter the held log with one entry, if the declared count
leaves room; nothing else than their kernel's state changes before its commit. -/
def Obligations.HeldWordsEnterTheLog : Prop :=
  ∀ (s : State) (q : Nat), (s.run q).entries + 1 ≤ (s.template q).heldCount →
    (∀ variant sync part queue value : Nat, nextWord (s.run q) (.signal variant sync part queue value) = true →
      Yields (.signal q variant sync part queue value) s fun t => s.onlyRun q t ∧
        t.run q = (s.run q).holding (.signal variant sync part queue value)) ∧
    (∀ variant set version : Nat, nextWord (s.run q) (.epoch variant set version) = true →
      Yields (.epoch q variant set version) s fun t => s.onlyRun q t ∧
        t.run q = (s.run q).holding (.epoch variant set version)) ∧
    (∀ (region tier : Nat) (d : Desc), nextWord (s.run q) (.place region tier) = true →
      s.readDesc (s.ctx q) (region * 64) = .ok d → opAligned [d] = true →
      Yields (.place q region tier) s fun t => s.onlyRun q t ∧
        t.run q = (s.run q).holding (.place tier (tensorPages (tensorOf d.bits)))) ∧
    ∀ o : AtomOps, nextWord (s.run q) (.atom o) = true → o.variant = 0 →
      (o.remote = true ∨ ∃ p, s.locate (s.ctx q) writeRole o.addr = .ok p) →
      Yields (.atom q o) s fun t => s.onlyRun q t ∧ t.run q = (s.run q).holding (.atom o)

/-- A reducing ATOM takes one held-log entry for each 4 KiB of its data, or part of it (R77). -/
def Obligations.ReductionsEnterTheLog : Prop :=
  ∀ (s : State) (q : Nat) (o : AtomOps) (ds : List Desc) (es : List (Nat × BitVec 32)),
    nextWord (s.run q) (.atom o) = true → o.variant = 1 → s.readSlots (s.ctx q) (s.run q).set (.atom o) = .ok ds →
    opAgree (.atom o) (tensors ds) = true → opAligned ds = true →
    s.atomElems (s.ctx q) (nth (tensors ds) 0) (nth (tensors ds) 1) = .ok es →
    (∀ e ∈ es, ∃ p, s.locate (s.ctx q) writeRole e.1 = .ok p) →
    (s.run q).entries + cdiv (4 * es.length) 4096 ≤ (s.template q).heldCount →
    Yields (.atom q o) s fun t => s.onlyRun q t ∧ (t.run q).ip = (s.run q).ip + 1 ∧
      (t.run q).entries = (s.run q).entries + cdiv (4 * es.length) 4096 ∧
      (t.run q).held.map (·.eff) =
        (s.run q).held.map (·.eff) ++ (chunksOf 1024 es.length es).map (.reduce o.op)

/-- PROB, ATTN, ROWOP, STRIPE and PEEL whose descriptors agree join the dispatched instructions of their kernel (R136),
complete at once where an output extent is 0 (R59); nothing else changes. -/
def Obligations.InstructionsJoinTheirKernel : Prop :=
  ∀ (s : State) (q : Nat) (c : Instr) (op : Op) (ds : List Desc),
    ((∃ o, c = .prob q o ∧ op = .prob o) ∨ (∃ o, c = .attn q o ∧ op = .attn o) ∨ (∃ o, c = .rowop q o ∧ op = .rowop o) ∨
      (∃ o, c = .stripe q o ∧ op = .stripe o) ∨ ∃ o, c = .peel q o ∧ op = .peel o) →
    nextWord (s.run q) op = true → s.readSlots (s.ctx q) (s.run q).set op = .ok ds →
    opAgree op (tensors ds) = true → opAligned ds = true →
    (opZero op (tensors ds) = true →
      Yields c s fun t => s.onlyRun q t ∧ t.run q = { s.run q with
        ip := (s.run q).ip + 1
        insts := (s.run q).insts ++ [{ word := wordIndex (s.run q), op := op, descs := ds, set := (s.run q).set
                                       snd := (s.run q).snd, zero := true, done := true }] }) ∧
    ∀ refs : List Desc, opZero op (tensors ds) = false →
      firstOver op (tensors ds) (runBounds (s.ctx q).img ds (s.run q).retileDims (s.run q).ip) = none →
      (s.run q).entries + heldEntries (s.ctx q).img op (tensors ds) ≤ (s.template q).heldCount →
      readRefs s (s.ctx q) (s.run q) op ds = .ok refs → opAligned refs = true →
      Yields c s fun t => s.onlyRun q t ∧ t.run q = { s.run q with
        ip := (s.run q).ip + 1
        entries := (s.run q).entries + heldEntries (s.ctx q).img op (tensors ds)
        insts := (s.run q).insts ++ [{ word := wordIndex (s.run q), op := op, descs := ds ++ refs
                                       set := (s.run q).set, snd := (s.run q).snd }] }

/-- A word that is not the next of its running kernel changes nothing: the model's choice for a command that is not due
(notes/assumptions/1.md). -/
def Obligations.OtherWordsWait : Prop :=
  ∀ (s : State) (q : Nat) (c : Instr) (op : Op),
    ((c = .nop q ∧ op = .nop) ∨ (c = .fence q ∧ op = .fence) ∨ (c = .commit q ∧ op = .commit) ∨
      (∃ v a p k x, c = .signal q v a p k x ∧ op = .signal v a p k x) ∨
      (∃ v a w g, c = .recipe q v a w g ∧ op = .recipe v a w g) ∨ (∃ o, c = .prob q o ∧ op = .prob o) ∨
      (∃ o, c = .attn q o ∧ op = .attn o) ∨ (∃ o, c = .rowop q o ∧ op = .rowop o) ∨
      (∃ o, c = .stripe q o ∧ op = .stripe o) ∨ (∃ o, c = .peel q o ∧ op = .peel o) ∨
      (∃ o, c = .atom q o ∧ op = .atom o) ∨ (∃ o, c = .coll q o ∧ op = .coll o) ∨
      (∃ r k, c = .place q r k ∧ op = .place r k) ∨ (∃ v a x, c = .epoch q v a x ∧ op = .epoch v a x) ∨
      ∃ v p k x, c = .sound q v p k x ∧ op = .sound v p k x) →
    nextWord (s.run q) op = false → exec c s = .next s

/-- KBEGIN of a fetched kernel is taken once, and numeric state is at its default: recipe set 8, soundings off (R78). A
WAIT is passed when its sync object has reached the threshold (R37, R80); until then nothing changes. Only readiness
follows. -/
def Obligations.KernelsBeginAndWait : Prop :=
  ∀ (s : State) (q : Nat),
    (∀ (templ request : Nat) (irq pass : Bool), (s.run q).phase = .waiting → (s.run q).fetched = true →
      (s.run q).ip = 0 → (s.run q).words[0]? = some (.kbegin templ request irq pass) →
      Yields (.kbegin q templ request irq pass) s fun t => ∃ u, s.onlyRun q u ∧ u.sameButReadiness t ∧
        u.run q = { s.run q with
          opened := true, ip := 1, irq := irq, pass := pass, request := request, set := 8, snd := none }) ∧
    ∀ sync threshold : Nat, (s.run q).phase = .waiting → (s.run q).opened = true →
      (s.run q).words[(s.run q).ip]? = some (.wait sync threshold) →
      (threshold ≤ (s.sync sync).value →
        Yields (.wait q sync threshold) s fun t => ∃ u, s.onlyRun q u ∧ u.sameButReadiness t ∧
          u.run q = { s.run q with ip := (s.run q).ip + 1 }) ∧
      ((s.sync sync).value < threshold → exec (.wait q sync threshold) s = .next s)

/-! ### Doorbells -/

/-- R34, over the doorbell of an admitted queue of a half in service: which writes of TAIL the part ignores; that one it
accepts leaves no fewer words pending; that TAIL comes before RESUME and SKIP of the same write, and SKIP before RESUME;
that RESUME and SKIP do nothing to a queue that is not stopped. A TAIL that lets a waiting SKIP complete does so (R58).
`ahead 32 a b` is (a - b) mod 2^32. -/
def Obligations.DoorbellsFollowR34 : Prop :=
  ∀ (s : State) (q v : Nat), doorbellOpen s q = true → q < 524288 → v < 2 ^ 32 →
    (2 ^ (s.queue q).ringLog2 < ahead 32 v (s.queue q).head ∨
        ahead 32 v (s.queue q).head < ahead 32 (s.queue q).tail (s.queue q).head →
      exec (.tail q v) s = .next s ∧ (exec (.registerWrite 0 (0x100000 + 8 * q) 8 v) s = .next s)) ∧
    (ahead 32 v (s.queue q).head ≤ 2 ^ (s.queue q).ringLog2 →
      ahead 32 (s.queue q).tail (s.queue q).head ≤ ahead 32 v (s.queue q).head →
      ∃ u, s.onlyQueue q u ∧ u.queue q = { s.queue q with tail := v } ∧
        pendingFrom (s.queue q) (s.queue q).head ≤ pendingFrom (u.queue q) (u.queue q).head ∧
        ((s.queue q).state ≠ .stopped ∨ (s.queue q).skipWaiting = false → exec (.tail q v) s = .next u) ∧
        ((s.queue q).state = .stopped → (s.queue q).skipWaiting = true → exec (.tail q v) s = exec (.skip q) u)) ∧
    (∀ r k : Bool, Yields (.tail q v) s fun u =>
      exec (.registerWrite 0 (0x100000 + 8 * q) 8 (v + 2 ^ 32 * boolNat r + 2 ^ 33 * boolNat k)) s =
        if k then exec (.skip q) u else if r then exec (.resume q) u else .next u) ∧
    ((s.queue q).state ≠ .stopped → exec (.resume q) s = .next s ∧ exec (.skip q) s = .next s)

/-- RESUME lets a stopped queue's kernel re-run with RERUN_COUNT 0 and replaces a waiting SKIP; SKIP takes HEAD past the
first pending COMMIT at or after KERNEL_START and drops the kernel without effects, and waits while there is none (R58).
CLR_EVENTS clears EVENT_FLAGS (R33). The doorbell of a queue of no admitted image, or of a fenced half, does nothing (R28,
R35). -/
def Obligations.StoppedQueuesRestart : Prop :=
  (∀ (s : State) (q : Nat), doorbellOpen s q = true →
    Yields (.clrEvents q) s (fun t => s.onlyQueue q t ∧ t.queue q = { s.queue q with eventFlags := 0 }) ∧
    ((s.queue q).state = .stopped →
      Yields (.resume q) s (fun t => s.onlyQueue q t ∧
        t.queue q = { s.queue q with state := .waiting, rerunCount := 0, skipWaiting := false }) ∧
      (∀ i, i < pendingFrom (s.queue q) (s.queue q).kernelStart →
        decodeOp (s.ringWord q (((s.queue q).kernelStart + i) % 2 ^ 32)) = some .commit →
        (∀ j < i, decodeOp (s.ringWord q (((s.queue q).kernelStart + j) % 2 ^ 32)) ≠ some .commit) →
        Yields (.skip q) s fun t =>
          t.queue q = { s.queue q with
            head := ((s.queue q).kernelStart + i + 1) % 2 ^ 32, state := .idle, skipWaiting := false } ∧
          (∀ p, p ≠ q → t.queue p = s.queue p ∧ t.run p = s.run p) ∧ t.run q = { traysOut := (s.run q).traysOut } ∧
          t.mem = s.mem ∧ t.trays = s.trays ∧ t.moor = s.moor ∧ t.syncs = s.syncs ∧ t.cores = s.cores) ∧
      ((∀ i < pendingFrom (s.queue q) (s.queue q).kernelStart,
          decodeOp (s.ringWord q (((s.queue q).kernelStart + i) % 2 ^ 32)) ≠ some .commit) →
        Yields (.skip q) s fun t => s.onlyQueue q t ∧ t.queue q = { s.queue q with skipWaiting := true }))) ∧
  ∀ (s : State) (q v : Nat), (s.queue q).state = .disabled ∨ s.fenced (queueHalf q) = true →
    exec (.tail q v) s = .next s ∧ exec (.resume q) s = .next s ∧ exec (.skip q) s = .next s ∧
      exec (.clrEvents q) s = .next s ∧ readDoorbell s q = 0

/-! ### Registers -/

/-- R37: a SIGNAL adds its amount to SYN_VALUE, saturating at 2^64 - 1, or sets it; a WAIT that stands next in its kernel is
passed when SYN_VALUE is at least its threshold, and only then; once passed it stays passed for that run, whatever
SYN_VALUE becomes. Software's write of SYN_VALUE sets the object's value alone, and only of an object of an admitted image
in a half in service (R28, R36, R62). -/
def Obligations.SyncValuesAndWaitsFollowR37 : Prop :=
  (∀ (s : State) (i v : Nat) (dropped : Bool), (s.sync i).allocated = true → v < 2 ^ 64 →
    ((applySignal true i v dropped s).sync i).value = min ((s.sync i).value + v) (2 ^ 64 - 1) ∧
    ((applySignal false i v dropped s).sync i).value = v) ∧
  (∀ (s : State) (q i threshold : Nat), (s.run q).phase = .waiting → (s.run q).opened = true →
    (s.run q).words[(s.run q).ip]? = some (.wait i threshold) →
    (threshold ≤ (s.sync i).value → Yields (.wait q i threshold) s fun t => (t.run q).ip = (s.run q).ip + 1 ∧
      ∀ j v add dropped, (Yields (.synValueWrite j v) t fun u => u.run q = t.run q) ∧
        (applySignal add j v dropped t).run q = t.run q) ∧
    ((s.sync i).value < threshold → exec (.wait q i threshold) s = .next s)) ∧
  ∀ (s : State) (i v : Nat),
    ((s.sync i).allocated = true → s.fenced (syncHalf i) = false →
      Yields (.synValueWrite i v) s fun t => s.onlySync i t ∧ t.sync i = { s.sync i with value := v % 2 ^ 64 }) ∧
    ((s.sync i).allocated = false ∨ s.fenced (syncHalf i) = true → exec (.synValueWrite i v) s = .next s)

/-- An access that is neither of 8 nor of 4 bytes, or is unaligned, reads 0 and writes nothing; a 4-byte access reads
the addressed half (R5). -/
def Obligations.OddAccessesDoNothing : Prop :=
  ∀ (s : State) (bar a size v : Nat),
    (¬ (size = 8 ∧ a % 8 = 0) → ¬ (size = 4 ∧ a % 4 = 0) →
      readAccess s bar a size = 0 ∧ exec (.registerWrite bar a size v) s = .next s) ∧
    (a % 8 = 0 → readAccess s bar a 4 = readAccess s bar a 8 % 2 ^ 32) ∧
    (a % 8 = 4 → readAccess s bar a 4 = readAccess s bar (a - 4) 8 / 2 ^ 32 % 2 ^ 32)

/-- R28: the units of a fenced half in BAR0, and its queues and sync objects wherever they show, read as 0 and ignore
writes; the half's TWC unit is as in a half in service. -/
def Obligations.FencedUnitsAreSilent : Prop :=
  ∀ (s : State) (a size v : Nat),
    ((0x100000 ≤ a ∧ a < 0x500000 ∧ s.fenced (queueHalf ((a - 0x100000) / 8)) = true) ∨
      (0x500000 ≤ a ∧ a < 0x540000 ∧ s.fenced (syncHalf ((a - 0x500000) / 16)) = true) ∨
      (0x600000 ≤ a ∧ a < 0x700000 ∧ s.fenced (coreHalf ((a - 0x600000) / 0x1000)) = true) ∨
      (0x700000 ≤ a ∧ a < 0x780000 ∧ s.fenced (clusterHalf ((a - 0x700000) / 0x4000)) = true) ∨
      (0x800000 ≤ a ∧ a < 0x820000 ∧ s.fenced ((a - 0x800000) / 0x10000) = true) ∨
      (0x900000 ≤ a ∧ a < 0x980000 ∧ s.fenced ((a - 0x900000) / 0x4000 / 16) = true) ∨
      (0xB00000 ≤ a ∧ a < 0xB40000 ∧ s.fenced (portHalf ((a - 0xB00000) / 0x1000)) = true) ∨
      (0xC00000 ≤ a ∧ a < 0xC20000 ∧ s.fenced ((a - 0xC00000) / 0x4000 / 4) = true) →
      readAccess s 0 a size = 0 ∧ exec (.registerWrite 0 a size v) s = .next s) ∧
    (∀ q, s.fenced (queueHalf q) = true →
      readDoorbell s q = 0 ∧ (∀ w, readContext s q w = 0) ∧ ∀ low, ringDoorbell q v low s = s) ∧
    (∀ i, s.fenced (syncHalf i) = true → ∀ (second window : Bool) (w : RegWrite),
      readSync s i second = 0 ∧ writeSync i second window w s = s) ∧
    ∀ h o, h < 2 → o < 0x10000 → o % 8 = 0 → readAccess s 0 (0xD00000 + 0x10000 * h + o) 8 = readTwc s h o ∧
      exec (.registerWrite 0 (0xD00000 + 0x10000 * h + o) 8 v) s =
        .next (writeTwc h o { v := v % 2 ^ 64, hit := v % 2 ^ 64 } s)

/-- Writes by the access codes of Table 0.3, at registers of several blocks: RW registers take the value, in whole or in
the half addressed (R5: GLB BASE2 and PREEMPT); a field keeps its value where the encoding written is reserved (R3: the
power limit, the Harbour window); each 1 written to a W1C bit clears it and each 0 leaves it (R6: CLK_FAULT, the DRIFT
of a slot that the berth's image names, the epoch errors). -/
def Obligations.RegisterWritesFollowTheirCodes : Prop :=
  ∀ (s : State) (v : Nat), v < 2 ^ 64 →
    Yields (.registerWrite 0 0x100 8 v) s (fun t =>
      t = { s with glb := { s.glb with base2 := BitVec.ofNat 32 v } }) ∧
    Yields (.registerWrite 0 0x200 8 v) s (fun t =>
      t = { s with glb := { s.glb with preemptGap := v % 2 ^ 32, preemptEn := bit v 32 } }) ∧
    (s.glb.preemptGap < 2 ^ 32 → Yields (.registerWrite 0 0x204 4 v) s (fun t =>
      t = { s with glb := { s.glb with preemptEn := bit v 0 } })) ∧
    Yields (.registerWrite 0 0x10 8 v) s (fun t =>
      t = { s with glb := { s.glb with clkFault := s.glb.clkFault && !bit v 2 } }) ∧
    Yields (.registerWrite 0 0xD00000 8 v) s (fun t => t = { s with twc := { s.twc with
      pwrLimit := if 1000 ≤ v % 2 ^ 16 ∧ v % 2 ^ 16 ≤ 4600 then v % 2 ^ 16 else s.twc.pwrLimit
      pwrHyst := if field v 16 16 ≤ 1000 then field v 16 16 else s.twc.pwrHyst, telemMs := field v 32 16 } }) ∧
    (s.fenced 0 = false → Yields (.registerWrite 0 0x800080 8 v) s (fun t => s.onlyHarbour 0 t ∧
      t.harbour 0 = { s.harbour 0 with
        hostW := field v 0 16, migW := field v 16 16
        window := if field v 32 16 = 0 then (s.harbour 0).window else field v 32 16 })) ∧
    ∀ b, b < 32 → (s.berth b).layout.configured = true →
      Yields (.registerWrite 2 (0x10000 * b + 0xA500) 8 v) s (fun t => s.onlyBerth b t ∧
        t.berth b = { s.berth b with recipeSel := BitVec.ofNat 64 v }) ∧
      (bit v 34 = false → ∀ k, k < 256 → (slotQueue (s.imageOf b) k).isSome = true →
        Yields (.registerWrite 2 (0x10000 * b + 0x8000 + 32 * k) 8 v) s (fun t => s.onlyBerth b t ∧
          (∃ l, t.berth b = { s.berth b with slots := l }) ∧ look {} (t.berth b).slots k =
            { look {} (s.berth b).slots k with drift := (look {} (s.berth b).slots k).drift && !bit v 33 } ∧
          ∀ j, j ≠ k → look {} (t.berth b).slots j = look {} (s.berth b).slots j)) ∧
      Yields (.registerWrite 2 (0x10000 * b + 0xA100) 8 v) s (fun t => s.onlyBerth b t ∧
        t.berth b = { s.berth b with epochs := { (s.berth b).epochs with
          notLive := (s.berth b).epochs.notLive && !bit v 0, notHeld := (s.berth b).epochs.notHeld && !bit v 1
          pubFull := (s.berth b).epochs.pubFull && !bit v 2, refsFull := (s.berth b).epochs.refsFull && !bit v 3 } })

/-! ### The life of a kernel -/

/-- A word that may not dispatch as it stands ends its run with INSTRUCTION and stops the queue: detail 2 where the held
log would overflow (R44), 4 where extents disagree, 5 where a BASE is not aligned (R73); a descriptor that faults ends
it with that fault; an extent above its bound ends it with TILE_OVERFLOW where the template does not allow re-tiling
(R141, R142). The run leaves no effect (R50, R52). A kernel that has landed is past every fault (R64). -/
def Obligations.FaultingWordsEndTheirRun : Prop :=
  ∀ (s : State) (q : Nat), (s.run q).landed = false →
    ((s.template q).heldCount < (s.run q).entries + 1 →
      (∀ v a p k x : Nat, nextWord (s.run q) (.signal v a p k x) = true →
        Yields (.signal q v a p k x) s (s.endedRun q 0x0F 2 (wordIndex (s.run q)) true)) ∧
      ∀ v a x : Nat, nextWord (s.run q) (.epoch v a x) = true →
        Yields (.epoch q v a x) s (s.endedRun q 0x0F 2 (wordIndex (s.run q)) true)) ∧
    (∀ (c : Instr) (op : Op),
      ((∃ o, c = .prob q o ∧ op = .prob o) ∨ (∃ o, c = .attn q o ∧ op = .attn o) ∨
        (∃ o, c = .rowop q o ∧ op = .rowop o) ∨ (∃ o, c = .stripe q o ∧ op = .stripe o) ∨
        ∃ o, c = .peel q o ∧ op = .peel o) → nextWord (s.run q) op = true →
      (∀ f, s.readSlots (s.ctx q) (s.run q).set op = .error f →
        Yields c s (s.endedRun q f.1 (f.2 % 256) (wordIndex (s.run q))
          (stopCode f.1 (f.2 % 256) || (f.1 ≠ 5 && decide ((s.queue q).rerunCount ≥ 15))))) ∧
      ∀ ds, s.readSlots (s.ctx q) (s.run q).set op = .ok ds →
        (opAgree op (tensors ds) = false → Yields c s (s.endedRun q 0x0F 4 (wordIndex (s.run q)) true)) ∧
        (opAgree op (tensors ds) = true → opAligned ds = false →
          Yields c s (s.endedRun q 0x0F 5 (wordIndex (s.run q)) true)) ∧
        ∀ d, opAgree op (tensors ds) = true → opAligned ds = true → opZero op (tensors ds) = false →
          firstOver op (tensors ds) (runBounds (s.ctx q).img ds (s.run q).retileDims (s.run q).ip) = some d →
          (s.template q).retile = false → Yields c s (s.endedRun q 1 (d % 256) (wordIndex (s.run q)) true))

/-- Words that a fetch takes are those of the template that the KBEGIN at the index names, a template of this queue, all
pending and equal to the template's words but in their free fields (R40). -/
def Obligations.FetchedKernelsMatchTheirTemplate : Prop :=
  ∀ (s : State) (q start templ : Nat) (ops : List Op), fetchAt s q start = .good templ ops →
    ∃ k, (s.imageOf (s.queue q).berth).templates[templ]? = some k ∧ k.queue = q ∧ ops.length = k.words.length ∧
      (∃ req irq pass, decodeOp (s.ringWord q start) = some (.kbegin templ req irq pass)) ∧
      ∀ i w, k.words[i]? = some w → i < pendingFrom (s.queue q) start ∧
        matchesTemplate w.toNat (s.ringWord q ((start + i) % 2 ^ 32)) = true ∧
        ops[i]? = some ((decodeOp (s.ringWord q ((start + i) % 2 ^ 32))).getD .nop)

/-- An idle queue whose next kernel is pending fetches it and goes to STATE 1 (R32, R40); a killed kernel whose trays have
returned and whose fault has been handled restarts at its KBEGIN (R55); a word that differs from its template is
INSTRUCTION detail 1 at that word, and the queue stops (R40); a ring word that cannot be read ends the fetch with its fault
at that word (R335). The hypotheses leave out queues that an open request
slot serves, of which R381 speaks. -/
def Obligations.KernelsAreFetched : Prop :=
  ∀ (s : State) (q : Nat), mayFetch s q = true → openSlotOf s q = none →
    ((s.queue q).state = .idle → pendingFrom (s.queue q) (s.queue q).head ≠ 0 →
      (∀ templ ops k req irq pass, fetchAt s q (s.queue q).head = .good templ ops →
        ops.headD .nop = .kbegin k req irq pass →
        Yields (.kernelFetch q) s fun t => ∃ u : State, u.sameButReadiness t ∧ u = { s with queues := u.queues, runs := u.runs } ∧
          (∀ p, p ≠ q → u.queue p = s.queue p ∧ u.run p = s.run p) ∧
          u.queue q = { s.queue q with state := .waiting, kernelStart := (s.queue q).head, rerunCount := 0 } ∧
          u.run q = { words := ops, start := (s.queue q).head, templ := templ, fetched := true, request := req, irq := irq
                      pass := pass, traysOut := (s.run q).traysOut }) ∧
      (∀ i k, fetchAt s q (s.queue q).head = .bad i k →
        Yields (.kernelFetch q) s fun t => t.mem = s.mem ∧ t.syncs = s.syncs ∧ (t.run q).phase = .killed ∧
          t.queue q = { s.queue q with
            state := .stopped, skipWaiting := false, kernelStart := (s.queue q).head, rerunCount := 0, faultCode := 0x0F
            faultDetail := 1, faultWord := ((s.queue q).head + i) % 2 ^ 32
            killCount := wrapAdd 64 (s.queue q).killCount 1 }) ∧
      ∀ i f, fetchAt s q (s.queue q).head = .fault i f →
        Yields (.kernelFetch q) s fun t => t.mem = s.mem ∧ t.syncs = s.syncs ∧ (t.run q).phase = .killed ∧
          (t.queue q).faultCode = f.1 ∧ (t.queue q).faultDetail = f.2 % 256 ∧
          (t.queue q).faultWord = ((s.queue q).head + i) % 2 ^ 32 ∧ (t.queue q).kernelStart = (s.queue q).head) ∧
    ((s.queue q).state = .waiting → (s.run q).phase = .killed → (s.run q).traysOut = [] →
      ((s.run q).waitMig = true → footprintBusy s (s.ctx q) = false) → groupSettled s (s.run q).waitGroup = true →
      ∀ templ ops k req irq pass, fetchAt s q (s.queue q).kernelStart = .good templ ops →
        ops.headD .nop = .kbegin k req irq pass →
        Yields (.kernelRerun q) s fun t => ∃ u : State, u.sameButReadiness t ∧ u = { s with queues := u.queues, runs := u.runs } ∧
          (∀ p, p ≠ q → u.queue p = s.queue p ∧ u.run p = s.run p) ∧ u.queue q = s.queue q ∧
          u.run q = { s.run q with
            words := ops, start := (s.queue q).kernelStart, templ := templ, fetched := true, opened := false, ip := 0
            phase := .waiting, waitMig := false, waitGroup := none, wide := false, request := req, irq := irq, pass := pass })

/-- The trays of a killed run return to the scheduler (R52, R299): free, held where they are pinned, or marked 0x9 again
where they hold another berth's parked tray. The scrub of a tray leaves it all zero, its owner as it was, and its berth that
for which it was scrubbed (R301); then engines of its crew may start, and an admission that waited for its last scrub
completes (R300). -/
def Obligations.TraysReturnAndAreScrubbed : Prop :=
  (∀ (s : State) (q : Nat),
    Yields (.killTraysReturned q) s fun t => ∃ u : State, u.sameButReadiness t ∧
      u = { s with cores := u.cores, runs := u.runs } ∧
      (∀ p, p ≠ q → u.run p = s.run p) ∧ u.run q = { s.run q with traysOut := [] } ∧
      ∀ c k, t.tray c k = if (c, k) ∈ (s.run q).traysOut then
          { s.tray c k with
            scrubbing := false, scrubFor := 0
            owner := if (s.tray c k).parkedBy.isSome then 0x9 else if (s.tray c k).pinned then 0xA else 0 }
        else s.tray c k) ∧
  ∀ (s : State) (core tray : Nat), (s.tray core tray).scrubbing = true →
    Yields (.trayScrubDone core tray) s fun t => ∃ u v : State, u.sameButStarts v ∧
      u = { s with cores := u.cores, trays := u.trays } ∧ t = tryAdmit core tray v ∧
      (s.twc.pendScrub.contains (core, tray) = false → t = v) ∧
      (∀ a, rdByte v.trays a =
        if trayKey core tray 0 ≤ a ∧ a < trayKey core tray 0 + 131072 then 0 else rdByte s.trays a) ∧
      ∀ c k, v.tray c k = if c = core ∧ k = tray then
        { s.tray c k with scrubbing := false, scrubFor := 0, berth := (s.tray c k).scrubFor } else s.tray c k

/-- A zero-shape kernel runs without a crew (R59); a kernel first in the order that can have its crew takes the cores
that qualify, at most as many as its template allows (R134, R372), and what it samples when it leaves STATE 1 is what
the registers then say: recipe select, function set (R85, R161). Memory and sync objects are untouched. -/
def Obligations.ReadyKernelsTakeTheirCrew : Prop :=
  ∀ (s : State) (q : Nat), openSlotOf s q = none → mayLeave s q = true →
    (zeroShape s q = true → Yields (.crewGrant q) s fun t =>
      t.queue q = { s.queue q with state := .running } ∧ (∀ p, p ≠ q → t.queue p = s.queue p) ∧
      (t.run q).phase = .running ∧ (t.run q).zeroShape = true ∧ (t.run q).crew = (s.run q).crew ∧
      (t.run q).recSample = (s.berth (s.queue q).berth).recipeSel ∧
      (t.run q).base2 = bitOf s.glb.base2 (s.queue q).berth ∧ t.cores = s.cores ∧ t.mem = s.mem ∧ t.syncs = s.syncs) ∧
    (zeroShape s q = false → aheadNow s q = false → crewNow s q = true → Yields (.crewGrant q) s fun t =>
      t.queue q = { s.queue q with state := .running } ∧ (∀ p, p ≠ q → t.queue p = s.queue p) ∧
      (t.run q).phase = .running ∧
      (t.run q).crew = sortNat ((qualifying s q (wideNow s q)).take (s.template q).coresMax) ∧
      (t.run q).recSample = (s.berth (s.queue q).berth).recipeSel ∧
      (t.run q).base2 = bitOf s.glb.base2 (s.queue q).berth ∧
      (∀ c ∈ (t.run q).crew, (t.core c).crew = some q) ∧
      (∀ c, c ∉ (t.run q).crew → t.core c = s.core c) ∧ t.mem = s.mem ∧ t.trays = s.trays ∧ t.syncs = s.syncs)

/-- A core that comes to qualify joins the crew of a running kernel that has not yet all its cores, unless a kernel ahead
in the order could take it (R147, R372). -/
def Obligations.CoresJoinLater : Prop :=
  ∀ (s : State) (q core : Nat), (s.run q).phase = .running → (s.run q).zeroShape = false →
    (s.run q).crew.length < (s.template q).coresMax → qualifies s q core (s.run q).wide = true →
    (∀ p ∈ s.runs.map (·.1), p ≠ q → before s p q = true → mayLeave s p = true → zeroShape s p = false →
      qualifies s p core (wideNow s p) = false) →
    Yields (.crewCoreJoin q core) s fun t => ∃ u : State, u.sameButStarts t ∧ u = { s with cores := u.cores, runs := u.runs } ∧
      u.run q = { s.run q with crew := (s.run q).crew ++ [core], trayMap := (u.run q).trayMap } ∧ (∀ p, p ≠ q → u.run p = s.run p) ∧
      (t.core core).crew = some q ∧ ∀ c, c ≠ core → u.core c = s.core c

/-- The plan of the oldest instruction that has none: its shape and its items are those that R137 and R144 give it, and
the plan counters of the lead core's cluster count it (R136, R139, R152), where the Baker core's tray is its own (R296). -/
def Obligations.PlansDealTheirWork : Prop :=
  ∀ (s : State) (q j : Nat), (s.run q).phase = .running ∨ (s.run q).phase = .draining →
    (s.run q).insts.findIdx? (fun i => (engKind i.op).isSome && !i.planned && !i.zero && !i.done) = some j →
    s.trayBar q ((s.run q).crew.headD 0) 7 = none →
    Yields (.planReady q) s fun t => ∃ u : State, u.sameButStarts t ∧ u = { s with clusters := u.clusters, runs := u.runs } ∧
      u.inst q j = { s.inst q j with
        planned := true, shape := (planOf s q (s.inst q j)).1, work := (planOf s q (s.inst q j)).2.1 } ∧
      (∀ k, k ≠ j → u.inst q k = s.inst q k) ∧ (∀ p, p ≠ q → u.run p = s.run p) ∧
      (∀ c, c ≠ clusterOf ((s.run q).crew.headD 0) → u.cluster c = s.cluster c) ∧
      (u.cluster (clusterOf ((s.run q).crew.headD 0))).plans =
        wrapAdd 32 (s.cluster (clusterOf ((s.run q).crew.headD 0))).plans 1 ∧
      (bit (runCtrl (s.run q) (clusterOf ((s.run q).crew.headD 0))) 8 = false →
        (u.cluster (clusterOf ((s.run q).crew.headD 0))).reused =
          (s.cluster (clusterOf ((s.run q).crew.headD 0))).reused)

/-! ### Work items -/

/-- A tile of a PROB or an ATTN that completes is stored, reduced or accumulated with what it computed, and leaves its
instruction's list; its MXE counts the tile, its core the evaluations and key chunks, class 1 the A-cycles, the 39 of a
PROB's drain where no further tile follows at once (R150, R151, R199, R368). A PROB's tile needs its slot fills (R222), an
ATTN's its shares (R198). The hypotheses name the item's results; without them the item ends its run in a fault, of
which one is stated: an accumulator tray that its core's Peel no longer owns raises TRAY_OWNER, noted in the core (R297). -/
def Obligations.TilesComplete : Prop :=
  ∀ (s : State) (m stall : Nat) (rx : BitVec 288) (q j : Nat) (w : Work) (u : State),
    mxeItem s m = some (q, j, w) → s.engineBar q (m / 4) (m % 4 + 1) rx 4 = none → j < (u.run q).insts.length →
    (∀ o y a n, (s.inst q j).op = .prob o → (needFills (s.inst q j)).getD 0 ≤ w.fills →
      s.probTile q j w.item = .ok (y, a) → applyYield q j o.acc y s = .ok u →
      n = wrapAdd 64 (look 0 (u.berth (u.queue q).berth).cycles 1)
        (probCycles (u.ctx q).img (s.inst q j) o a y.records + stall) →
      Yields (.tileDone m stall rx) s fun t => u.itemDone q j w (u.inst q j) t ∧
        (t.mxe m).tiles = wrapAdd 64 (u.mxe m).tiles 1 ∧
        (t.core (m / 4)).rweEvals = wrapAdd 64 (u.core (m / 4)).rweEvals y.evals ∧
        look 0 (t.berth (u.queue q).berth).cycles 1 = if (t.mxe m).busy then n else wrapAdd 64 n 39) ∧
    (∀ o y a core tray, (s.inst q j).op = .prob o → (needFills (s.inst q j)).getD 0 ≤ w.fills → (s.run q).landed = false →
      s.probTile q j w.item = .ok (y, a) → core < 256 → tray < 16 → (s.tray core tray).owner < 16 →
      applyYield q j o.acc y s = .error (s.trayOwnerFault core tray 6) →
      Yields (.tileDone m stall rx) s fun t =>
        s.endedRun q 0x03 (tray + 16 * (s.tray core tray).owner) (s.inst q j).word true t ∧
        ((t.core core).tfTray, (t.core core).tfFound, (t.core core).tfAccessor, (t.core core).tfCount) =
          (tray, (s.tray core tray).owner, 6, satAdd 32 (s.core core).tfCount 1)) ∧
    ∀ o st n, (s.inst q j).op = .attn o → n = attnChunks (s.inst q j) o w.item → (o.back = false → n ≤ w.shares) →
      s.attnItem q (s.inst q j) o w.item = .ok st →
      applyYield q j 0 { st := st, reads := attnReads s (s.ctx q) (s.inst q j) o w.item } s = .ok u →
      Yields (.tileDone m stall rx) s fun t => u.itemDone q j w (u.inst q j) t ∧
        (t.mxe m).tiles = wrapAdd 64 (u.mxe m).tiles 1 ∧
        (t.core (m / 4)).attnChunks = wrapAdd 64 (u.core (m / 4)).attnChunks (if o.back then n else min n 2) ∧
        (t.core (m / 4)).rweEvals = wrapAdd 64 (u.core (m / 4)).rweEvals
          (endEvals s (s.ctx q) (s.inst q j) o w.item (s.run q).base2) ∧
        look 0 (t.berth (u.queue q).berth).cycles 1 =
          wrapAdd 64 (look 0 (u.berth (u.queue q).berth).cycles 1) (attnCycles (s.inst q j) o w.item + stall)

/-- A batch of rows of a ROWOP, a batch that a Peel moves and a stripe that complete are stored with what they computed and
leave their instruction's list, where the engine's trays are its own and no fault arises: the RWE counts its rows and
evaluations and class 2 its A-cycles (R154, R182); a Peel's data enters the held log where its destination is on another
part (R99), else memory and the accumulators, and class 3 its F-cycles (R208, R222); the Stripe engine counts its stripe,
its refetched rows and its records' bytes, and class 4 its A-cycles (R255, R260). A latency that no further item of the
engine overlaps counts once. -/
def Obligations.BatchesAndStripesComplete : Prop :=
  ∀ (s : State) (e stall : Nat) (rx : BitVec 288) (q j : Nat) (w : Work) (u : State), j < (u.run q).insts.length →
    (∀ o y rows n, runningItem s ((s.core e).crew).toList .rwe e = some (q, j, w) → (s.inst q j).op = .rowop o →
      s.engineBar q e 5 rx 4 = none → rows = min 32 ((nth (tensors (s.inst q j).descs) 0).rowCount - 32 * w.item) →
      foldE (s.rowStep (s.ctx q) { base2 := (s.run q).base2, heirloom := setHeirloom (s.inst q j).set } o
        (tensors (s.inst q j).descs)) {} ((List.range rows).map (· + 32 * w.item)) = .ok y →
      applyYield q j 0 y s = .ok u →
      n = wrapAdd 64 (look 0 (u.berth (u.queue q).berth).cycles 2)
        (rowCycles (s.run q).base2 o ((nth (tensors (s.inst q j).descs) 0).e 0) rows + stall) →
      Yields (.rowDone e ⟨stall, rx⟩) s fun t => u.itemDone q j w (u.inst q j) t ∧
        (t.core e).rweRows = wrapAdd 64 (u.core e).rweRows rows ∧
        (t.core e).rweEvals = wrapAdd 64 (u.core e).rweEvals y.evals ∧
        look 0 (t.berth (u.queue q).berth).cycles 2 =
          if (t.core e).rweBusy then n else wrapAdd 64 n (rowTail (s.run q).base2 o)) ∧
    (∀ o y v src dst, runningItem s ((s.core e).crew).toList .peel e = some (q, j, w) → (s.inst q j).op = .peel o →
      src = nth (tensors (s.inst q j).descs) 0 → dst = nth (tensors (s.inst q j).descs) 1 →
      readsDone (s.ctx q) (s.inst q j) w.item = true → fillWaits s e = false →
      s.engineBar q e 6 rx
        (if (tensors (s.inst q j).descs).any (fun t => !t.remote && ((s.ctx q).acc t.base).isSome) then 4 else 5) = none →
      s.peelBatch (s.ctx q) (s.inst q j) o w.item = .ok y →
      applyYield q j 0 { y with
        st := if dst.remote then [] else (splitWindows (s.ctx q) y.st).2
        reads := peelReads s (s.ctx q) (s.inst q j) o w.item } s = .ok u →
      v = (if dst.remote then holdRemote q j w.item dst y.st u else putWords (s.ctx q) (splitWindows (s.ctx q) y.st).1 u) →
      Yields (.peelBatchDone e ⟨stall, rx⟩) s fun t => v.itemDone q j w (v.inst q j) t ∧
        look 0 (t.berth (s.queue q).berth).cycles 3 = wrapAdd 64 (look 0 (v.berth (s.queue q).berth).cycles 3)
          (cdiv (batchBytes (if o.variant = 1 then src else dst) w.item) (if o.variant = 1 then 128 else 256) +
            2 * y.records + stall)) ∧
    ∀ o y zb g n lead, runningItem s (clusterRuns s e) .stripe e = some (q, j, w) → (s.inst q j).op = .stripe o →
      (∀ k < 8, s.engineBar q (8 * e + k) 8 rx 4 = none) → g = convOf o (tensors (s.inst q j).descs) →
      s.stripeItem q j (s.inst q j) o w.item = .ok (y, zb) →
      applyYield q j (outTray (outDest (s.ctx q).img ((s.inst q j).descs.getD 2 {}).va)) y s = .ok u →
      ((sortNat (u.run q).crew).reverse.find? (fun k => clusterOf k = e)).getD 0 = lead →
      n = wrapAdd 64 (look 0 (u.berth (u.queue q).berth).cycles 4)
        (stripeCycles o (tensors (s.inst q j).descs) g (stripeOut (s.inst q j) g w.item).length + stall) →
      Yields (.stripeDone e ⟨stall, rx⟩) s fun t =>
        u.itemDone q j w { u.inst q j with engLast := (e, w.item) :: (u.inst q j).engLast } t ∧
        (t.cluster e).strDone = wrapAdd 64 (u.cluster e).strDone 1 ∧
        (t.cluster e).strZcBytes = wrapAdd 64 (u.cluster e).strZcBytes zb ∧
        (t.cluster e).strRefetch = wrapAdd 64 (u.cluster e).strRefetch (refetched (s.inst q j) o g w) ∧
        (t.core lead).rweEvals = wrapAdd 64 (u.core lead).rweEvals y.evals ∧
        look 0 (t.berth (u.queue q).berth).cycles 4 = if (t.cluster e).strBusy then n else wrapAdd 64 n 40

/-- An idle engine of a crew whose own items have all started takes the victim's last untaken item, and an MXE's core
counts the steal (R145, R154, R253, R527). -/
def Obligations.IdleEnginesSteal : Prop :=
  ∀ (s : State) (q e j v : Nat) (k : EngKind) (w : Work) (c : Instr),
    ((c = .tileSteal e ∧ k = .mxe ∧ (s.core (e / 4)).crew = some q) ∨
      (c = .batchSteal e false ∧ k = .rwe ∧ (s.core e).crew = some q) ∨
      (c = .batchSteal e true ∧ k = .peel ∧ (s.core e).crew = some q) ∨
      (c = .stripeSteal e ∧ k = .stripe ∧ (clusterRuns s e).head? = some q)) →
    engBusy s (s.run q) k e = false → crewScrubbing s (s.run q) = false → e ∈ crewEngines s (s.run q) k →
    findWork s (s.run q) k e = some (j, some v) → (untaken (s.inst q j) v).getLast? = some w →
    Yields c s fun t => ∃ u a : State, s.sameButStarts u ∧ a = { u with cores := a.cores } ∧ a.sameButStarts t ∧
      (∀ x, a.core x = { u.core x with
        steals := if k = .mxe ∧ x = e / 4 then wrapAdd 64 (s.core x).steals 1 else (s.core x).steals }) ∧
      (a.inst q j).work = (s.inst q j).work.map (fun x =>
        if x.item = w.item then { x with eng := e, started := true, stolen := true } else x)

/-- The fill of an MXE slot that is due and an RWE's share of a chunk count (R198, R222, R223, R368). Where an engine finds a
tray of its own in other hands its run ends with TRAY_OWNER, noted in the core (R296, R297); a tray codeword that cannot be
corrected ends it with MEM_UNCORRECTABLE, detail 4 (R294, R302), or 5 where the Peel reads a Harbour line (R331). A pool MXE
completes the oldest sounding whose tile has completed and keeps its drift (R213 to R217). -/
def Obligations.FillsSharesAndSoundingsCount : Prop :=
  (∀ (s : State) (m q j : Nat) (w : Work), mxeItem s m = some (q, j, w) →
    (∀ isB rx, nextFill (s.inst q j) w isB = true → s.engineBar q (m / 4) (m % 4 + 1) rx 5 = none →
      Yields (.chunkFillDone m isB rx) s fun t =>
        t = { s with runs := t.runs, berths := t.berths } ∧
        (t.inst q j).work = (s.inst q j).work.map (fun x =>
          if x.item = w.item then { x with fills := x.fills + 1 } else x) ∧
        look 0 (t.berth (s.queue q).berth).cycles 3 = wrapAdd 64 (look 0 (s.berth (s.queue q).berth).cycles 3)
          (cdiv (fillBytes (s.inst q j) isB (w.fills / 2)) (if fillTransposes (s.inst q j) isB then 128 else 256))) ∧
      ∀ o wait, (s.inst q j).op = .attn o → o.back = false → w.shares < attnChunks (s.inst q j) o w.item →
        s.trayBar q (m / 4) (m % 4 + 1) = none →
        Yields (.attnShareDone m wait) s fun t => t = { s with runs := t.runs, berths := t.berths, cores := t.cores } ∧
          (t.inst q j).work = (s.inst q j).work.map (fun x =>
            if x.item = w.item then { x with shares := x.shares + 1 } else x) ∧
          (t.core (m / 4)).attnWait = wrapAdd 64 (s.core (m / 4)).attnWait wait ∧
          (t.core (m / 4)).attnChunks = (if 2 ≤ w.shares then wrapAdd 64 (s.core (m / 4)).attnChunks 1
            else (s.core (m / 4)).attnChunks) ∧
          (t.core (m / 4)).rweEvals = wrapAdd 64 (s.core (m / 4)).rweEvals
            (shareEvals s (s.ctx q) (s.inst q j) o w.item w.shares) ∧
          look 0 (t.berth (s.queue q).berth).cycles 2 =
            wrapAdd 64 (look 0 (s.berth (s.queue q).berth).cycles 2) (2 * (s.inst q j).shape.1 + 46)) ∧
  (∀ (s : State) (c : Instr) (q j core owner detail : Nat) (w : Work) (rx : BitVec 288),
    ((∃ m stall, c = .tileDone m stall rx ∧ mxeItem s m = some (q, j, w) ∧ core = m / 4 ∧ owner = m % 4 + 1 ∧ detail = 4) ∨
      (∃ m isB, c = .chunkFillDone m isB rx ∧ mxeItem s m = some (q, j, w) ∧ nextFill (s.inst q j) w isB = true ∧
        core = m / 4 ∧ owner = m % 4 + 1 ∧ detail = 5) ∨
      (∃ stall o, c = .rowDone core ⟨stall, rx⟩ ∧ runningItem s ((s.core core).crew).toList .rwe core = some (q, j, w) ∧
        (s.inst q j).op = .rowop o ∧ owner = 5 ∧ detail = 4) ∨
      (∃ stall o, c = .peelBatchDone core ⟨stall, rx⟩ ∧ runningItem s ((s.core core).crew).toList .peel core = some (q, j, w) ∧
        (s.inst q j).op = .peel o ∧ readsDone (s.ctx q) (s.inst q j) w.item = true ∧ fillWaits s core = false ∧ owner = 6 ∧
        detail = if (tensors (s.inst q j).descs).any (fun t => !t.remote && ((s.ctx q).acc t.base).isSome) then 4 else 5) ∨
      ∃ e k stall o, c = .stripeDone e ⟨stall, rx⟩ ∧ runningItem s (clusterRuns s e) .stripe e = some (q, j, w) ∧
        (s.inst q j).op = .stripe o ∧ k < 8 ∧ core = 8 * e + k ∧ (∀ i < k, s.engineBar q (8 * e + i) 8 rx 4 = none) ∧
        owner = 8 ∧ detail = 4) →
    (s.run q).landed = false →
    (s.trayBar q core owner = none → trayBad rx = true → Yields c s (s.endedRun q 0x09 detail (s.inst q j).word true)) ∧
    ∀ tray, s.trayBar q core owner = some (s.trayOwnerFault core tray owner) → core < 256 → tray < 16 →
      (s.tray core tray).owner < 16 → Yields c s fun t =>
        s.endedRun q 0x03 (tray + 16 * (s.tray core tray).owner) (s.inst q j).word true t ∧
        ((t.core core).tfTray, (t.core core).tfFound, (t.core core).tfAccessor, (t.core core).tfCount) =
          (tray, (s.tray core tray).owner, owner, satAdd 32 (s.core core).tfCount 1)) ∧
  ∀ (s : State) (m q : Nat) (o : ProbOps) (k : SndCfg) (refs : List Fv) (x : SndWork),
    (s.run q).phase = .running ∨ (s.run q).phase = .draining → poolMxe s (s.run q) m = true →
    (s.run q).sounds.find? (·.ready) = some x → (s.inst q x.inst).op = .prob o → (s.inst q x.inst).snd = some k →
    refAccs s (s.ctx q) (s.inst q x.inst) o x.tile = .ok refs →
    Yields (.soundingCompare q m) s fun t => t = { s with runs := t.runs, berths := t.berths, cores := t.cores } ∧
      (∀ p, p ≠ q → t.run p = s.run p) ∧
      t.run q = { s.run q with
        sounds := (s.run q).sounds.filter (· ≠ x)
        sndRes := (s.run q).sndRes ++ [{
          inst := x.inst, tile := x.tile, slot := k.slot, thr := k.thr
          d := BitVec.ofNat 32 (encFp fp32 (driftOf ((x.acc.map (fun b => decFp fp32 b.toNat)).zip refs))) }] } ∧
      (t.core (m / 4)).sndTiles = wrapAdd 64 (s.core (m / 4)).sndTiles 1

/-! ### Commit -/

/-- A drained kernel starts its commit (R45, R79, R216), unless a reset of the part waits for the commits that have begun and
this kernel has not landed (R46, the model's reading, notes/assumptions/84.md); phase 1 makes the working copies of the accumulator words that
its queue wrote the committed ones (R231), changing no other byte. -/
def Obligations.CommitsStartAndPublishAccumulators : Prop :=
  ∀ (s : State) (q : Nat),
    (drained (s.run q) = true → (s.run q).landed = true ∨ s.twc.resetWait = 0 → Yields (.commitBegin q) s fun t => t = { s with runs := t.runs, queues := t.queues } ∧
      (∀ p, p ≠ q → t.run p = s.run p ∧ t.queue p = s.queue p) ∧
      t.run q = { s.run q with phase := .committing, commitPhase := 1 } ∧
      t.queue q = { s.queue q with state := .committing }) ∧
    (drained (s.run q) = false ∨ (s.run q).landed = false ∧ s.twc.resetWait ≠ 0 → exec (.commitBegin q) s = .next s) ∧
    (inPhase s q 1 = true → Yields (.commitStoresAcked q) s fun t =>
      t = { s with runs := t.runs, berths := t.berths, trays := t.trays } ∧ (∀ p, p ≠ q → t.run p = s.run p) ∧
      t.run q = { s.run q with commitPhase := 2 } ∧
      (t.berth (s.queue q).berth).accWritten =
        (s.berth (s.queue q).berth).accWritten.filter (fun p => p.1 ≠ q) ∧
      (∀ a, rdByte t.trays a = rdByte s.trays a ∨
        a % 2 ^ 17 < 2 ^ 16 ∧ rdByte t.trays a = rdByte s.trays (a + 2 ^ 16)) ∧
      ∀ p ∈ (s.berth (s.queue q).berth).accWritten, p.1 = q → ∀ d,
        (s.imageOf (s.queue q).berth).accs.find? (fun a => a.tray = p.2 / 2 ^ 32) = some d → ∀ i < 4,
        let at_ := trayKey (d.cores.getD (p.2 % 2 ^ 32 / 2 ^ 14) 0) (p.2 / 2 ^ 32) (4 * (p.2 % 2 ^ 32 % 2 ^ 14)) + i
        rdByte t.trays at_ = rdByte s.trays (at_ + 2 ^ 16))

/-- Phase 2 applies the atomics of the held log in its order, each once: the word becomes what Table 3.18 says and no
other byte changes, and the home Harbour counts it (R45, R311, R313); a reduction's elements that lie in one unit apply
one after another and count as one (R312). One onto a poisoned or uncorrectable unit, or onto a unit out of reach, is
dropped, counted and reported (R47, R337). Bytes are those that a reader sees. While the atomic would allot a line in a
half that allots none, nothing happens (R315). -/
def Obligations.AtomicsApplyInOrder : Prop :=
  ∀ (s : State) (q : Nat) (h : HeldRec), inPhase s q 2 = true →
    (heldSorted (s.run q)).find? (fun h => isLocalAtom h.eff) = some h →
    (∀ o, h.eff = .atom o → s.spotBarred (s.queue q).berth o.addr = false →
      s.spotDead (s.spot (s.queue q).berth o.addr) = false →
      s.markAt (s.queue q).berth (s.spot (s.queue q).berth o.addr) = .good →
      Yields (.harbourOpApply q) s fun t => t.queues = s.queues ∧
        t.run q = { s.run q with held := (s.run q).held.filter (· ≠ h) } ∧ (∀ p, p ≠ q → t.run p = s.run p) ∧
        t.units = s.units ∧ t.trays = s.trays ∧ t.syncs = s.syncs ∧
        (∀ pa, s.spot (s.queue q).berth o.addr = .stack pa → t.moor = s.moor ∧
          (∀ a, t.memByte a =
            if pa ≤ a ∧ a < pa + (if o.wide64 then 8 else 4) then
              (leBytes (if o.wide64 then 8 else 4) (atomWord o.op (if o.wide64 then 64 else 32)
                (leNat ((List.range (if o.wide64 then 8 else 4)).map (fun i => s.memByte (pa + i)))) o.operand
                o.compare)).getD (a - pa) 0
            else s.memByte a) ∧
          (t.harbour (s.homeHalf pa)).atoms = wrapAdd 64 (s.harbour (s.homeHalf pa)).atoms 1) ∧
        ∀ home v, s.spot (s.queue q).berth o.addr = .mooring home v → t.mem = s.mem ∧
          (∀ a, rdByte t.moor a =
            if moorKey (s.queue q).berth v ≤ a ∧ a < moorKey (s.queue q).berth v + (if o.wide64 then 8 else 4) then
              (leBytes (if o.wide64 then 8 else 4) (atomWord o.op (if o.wide64 then 64 else 32)
                (leNat (rdBytes s.moor (moorKey (s.queue q).berth v) (if o.wide64 then 8 else 4))) o.operand
                o.compare)).getD (a - moorKey (s.queue q).berth v) 0
            else rdByte s.moor a) ∧
          (t.harbour home).atoms = wrapAdd 64 (s.harbour home).atoms 1) ∧
    (∀ op es, h.eff = .reduce op es → es ≠ [] → s.spotBarred (s.queue q).berth (es.headD (0, 0)).1 = false →
      s.spotDead (s.spot (s.queue q).berth (es.headD (0, 0)).1) = false →
      s.markAt (s.queue q).berth (s.spot (s.queue q).berth (es.headD (0, 0)).1) = .good →
      Yields (.harbourOpApply q) s fun t => t.queues = s.queues ∧ (∀ p, p ≠ q → t.run p = s.run p) ∧
        (t.run q).held = (if es.drop (unitPrefix es).length = [] then []
          else [{ h with eff := .reduce op (es.drop (unitPrefix es).length) }]) ++ (s.run q).held.filter (· ≠ h) ∧
        t.units = s.units ∧ t.trays = s.trays ∧ t.syncs = s.syncs ∧
        (∀ a, t.memByte a = (forEach (unitPrefix es) (fun e t =>
          t.atomWrite (s.queue q).berth e.1 op 32 e.2.toNat 0) s).memByte a) ∧
        t.moor = (forEach (unitPrefix es) (fun e t => t.atomWrite (s.queue q).berth e.1 op 32 e.2.toNat 0) s).moor ∧
        ∀ half, (match s.spot (s.queue q).berth (es.headD (0, 0)).1 with
            | .stack pa => half = s.homeHalf pa
            | .mooring home _ => half = home
            | .acc .. => False) →
          (t.harbour half).atoms = wrapAdd 64 (s.harbour half).atoms 1) ∧
    ∀ va, ((∃ o, h.eff = .atom o ∧ va = o.addr) ∨ ∃ op es, h.eff = .reduce op es ∧ es ≠ [] ∧ va = (es.headD (0, 0)).1) →
      (s.spotBarred (s.queue q).berth va = true → exec (.harbourOpApply q) s = .next s) ∧
      (s.spotBarred (s.queue q).berth va = false →
        s.spotDead (s.spot (s.queue q).berth va) = true ∨ s.markAt (s.queue q).berth (s.spot (s.queue q).berth va) ≠ .good →
        Yields (.harbourOpApply q) s fun t => t.mem = s.mem ∧ t.units = s.units ∧ t.trays = s.trays ∧ t.syncs = s.syncs ∧
          (t.run q).drops = (s.run q).drops + 1 ∧ h ∉ (t.run q).held ∧
          t.queue q = { s.queue q with dropCount := satAdd 16 (s.queue q).dropCount 1 } ∧
          ∀ p, p ≠ q → t.run p = s.run p ∧ t.queue p = s.queue p)

/-- Phase 3 sends the remote effects (R45, R403): of each part to which no effect of the queue is out yet, the log's first
effect leaves the log as a request to that part, sent or waiting for a TXN; every other effect stays in the log. Where
the log holds none, nothing is sent and phase 3 can end. -/
def Obligations.RemoteEffectsGoOut : Prop :=
  ∀ (s : State) (q : Nat), inPhase s q 2 = true → (s.run q).held.any (fun h => isLocalAtom h.eff) = false →
    Yields (.commitAtomicsDone q) s fun t =>
      t = { s with runs := t.runs, ports := t.ports, cwy := t.cwy, arbs := t.arbs, out := t.out } ∧
      (∀ p, p ≠ q → t.run p = s.run p) ∧
      t.run q = { s.run q with commitPhase := 3, held := (t.run q).held } ∧
      (∀ h, h ∈ (t.run q).held ↔ h ∈ (s.run q).held ∧ ∀ part, effectOut s q part = false →
        (heldSorted (s.run q)).find? (fun x => remotePart s.cwy.partId x.eff = some part) ≠ some h) ∧
      (∀ h part, effectOut s q part = false →
        (heldSorted (s.run q)).find? (fun x => remotePart s.cwy.partId x.eff = some part) = some h →
        ∃ o ∈ t.cwy.outst ++ t.cwy.waiting, o.what = .effect q ∧ o.half = queueHalf q ∧
          o.packet = { effectPacket s q h.eff with txn := o.packet.txn }) ∧
      ((∀ h ∈ (s.run q).held, remotePart s.cwy.partId h.eff = none) → t.cwy = s.cwy ∧ t.ports = s.ports)

/-- A commit ends (R45) when its remote effects are answered and no release waits for a mooring slot: signals have applied
to the sync objects in the order of the log, with DROPPED where an effect of the kernel was dropped (R36, R47), HEAD is
past the kernel, the queue is idle and the run is gone; sync objects and trays are else as before, and so is memory but
for the log's release writes. Another queue's STATE stays, but that of a stopped one, which a held doorbell can let go on
(R58). -/
def Obligations.CommitsEnd : Prop :=
  ∀ (s u : State) (q : Nat), inPhase s q 3 = true → remoteDone s q = true → (s.queue q).state = .committing →
    ((heldSorted (s.run q)).map (·.eff)).any (releaseBarred (s.queue q).berth s) = false →
    u = forEach ((heldSorted (s.run q)).map (·.eff)) (applyFour q) s →
    Yields (.commitRemoteDone q) s fun t =>
      (t.queue q).state = .idle ∧ (t.queue q).head = ((s.run q).start + (s.run q).words.length) % 2 ^ 32 ∧
      t.run q = { readyAt := (t.run q).readyAt, traysOut := (t.run q).traysOut } ∧
      t.syncs = (forEach ((heldSorted (s.run q)).map (·.eff)) (applySeven (decide ((u.run q).drops ≠ 0))) s).syncs ∧
      t.trays = s.trays ∧
      (∀ p, p ≠ q → (s.queue p).state ≠ .stopped → (t.queue p).state = (s.queue p).state) ∧
      ((∀ h ∈ (s.run q).held, h.eff.isRelease = false) → t.mem = s.mem ∧ t.units = s.units)

/-! ### Codec jobs and collectives -/

/-- A CODEC whose job descriptor can be read joins its kernel, completed and without a held-log entry where it counts no
pictures (R277), and else takes a place in the queue of jobs (R262, R264); the job that has waited longest takes an idle
engine, or faults where its consumer pointer cannot be read; a job that ends without a fault stores its output, completes
its instruction, frees its engine and holds the release of its producer pointer for the commit (R280), and one with a fault
ends its kernel with it. -/
def Obligations.CodecJobsRun : Prop :=
  (∀ (s : State) (q v job : Nat) (d : Desc), nextWord (s.run q) (.codec v job) = true →
    s.readJob (s.ctx q) v (job * 64) = .ok d →
    (s.run q).entries + (if field d.bits 128 32 = 0 then 0 else 1) ≤ (s.template q).heldCount →
    ∃ u : State, u = { s with runs := u.runs, codecQ := u.codecQ } ∧ (∀ p, p ≠ q → u.run p = s.run p) ∧
      u.run q = { s.run q with
        ip := (s.run q).ip + 1, entries := (s.run q).entries + (if field d.bits 128 32 = 0 then 0 else 1)
        insts := (s.run q).insts ++ [{
          word := wordIndex (s.run q), op := .codec v job, descs := [d], set := (s.run q).set, snd := (s.run q).snd
          planned := true, zero := field d.bits 128 32 = 0, done := field d.bits 128 32 = 0 }] } ∧
      u.codecQ = (if field d.bits 128 32 = 0 then s.codecQ else s.codecQ ++ [(q, (s.run q).insts.length)]) ∧
      exec (.codec q v job) s = if s.codecQ = [] ∧ field d.bits 128 32 ≠ 0 then exec .codecEngineGrant u else .next u) ∧
  (∀ (s : State) (q j e : Nat) (rest : List (Nat × Nat)), s.codecQ = (q, j) :: rest → idleCodecFor s q = some e →
    (∀ bs, (if codecVariant (s.inst q j).op = 0 then .ok [] else ({ s with codecQ := rest } : State).readBytes (s.ctx q)
        readRole (jobCons (codecVariant (s.inst q j).op) ((s.inst q j).descs.getD 0 {}).bits) 8) = .ok bs →
      Yields .codecEngineGrant s fun t => t = { s with runs := t.runs, codecs := t.codecs, codecQ := rest } ∧
        t.codecEng e = { s.codecEng e with
          busy := true, variant := codecVariant (s.inst q j).op, queue := q, inst := j, cons := leNat bs } ∧
        (∀ k, k ≠ e → t.codecEng k = s.codecEng k) ∧ (∀ p, p ≠ q → t.run p = s.run p) ∧
        (t.run q).insts.map (fun i => { i with engine := none }) =
          (s.run q).insts.map (fun i => { i with engine := none }) ∧
        (j < (s.run q).insts.length → (t.inst q j).engine = some e)) ∧
    ∀ f, codecVariant (s.inst q j).op ≠ 0 → ({ s with codecQ := rest } : State).readBytes (s.ctx q) readRole
        (jobCons (codecVariant (s.inst q j).op) ((s.inst q j).descs.getD 0 {}).bits) 8 = .error f →
      exec .codecEngineGrant s = .next (runFault q (s.inst q j).word f { s with codecQ := rest })) ∧
  (∀ (s : State), s.codecQ = [] ∨ (∀ q j rest, s.codecQ = (q, j) :: rest → idleCodecFor s q = none) →
    exec .codecEngineGrant s = .next s) ∧
  (∀ (s : State) (e : Nat), (s.codecEng e).busy = false → exec (.codecJobDone e) s = .next s) ∧
  ∀ (s : State) (e : Nat) (x : Job) (v : State), (s.codecEng e).busy = true →
    x = runJob { s := s, c := s.ctx (s.codecEng e).queue, variant := (s.codecEng e).variant
                 b := ((s.inst (s.codecEng e).queue (s.codecEng e).inst).descs.getD 0 {}).bits } (s.codecEng e).cons →
    v = addCycles (s.ctx (s.codecEng e).queue).berth 5 (jobCycles (s.codecEng e).variant
        ((s.inst (s.codecEng e).queue (s.codecEng e).inst).descs.getD 0 {}).bits x.recs)
      ((s.modCodecEng e (fun k => { k with
        busy := false, pictures := wrapAdd 64 k.pictures x.pictures, blocks := wrapAdd 64 k.blocks x.blocks
        clipped := wrapAdd 64 k.clipped x.clipped })).modInst (s.codecEng e).queue (s.codecEng e).inst
          (fun y => { y with engine := none })) →
    (∀ f, x.err = some f → exec (.codecJobDone e) s =
      .next (runFault (s.codecEng e).queue (s.inst (s.codecEng e).queue (s.codecEng e).inst).word f v)) ∧
    (∀ f, x.err = none → v.store (poolCtx (s.ctx (s.codecEng e).queue)) x.pool = .error f → exec (.codecJobDone e) s =
      .next (runFault (s.codecEng e).queue (s.inst (s.codecEng e).queue (s.codecEng e).inst).word f v)) ∧
    ∀ w, x.err = none → v.store (poolCtx (s.ctx (s.codecEng e).queue)) x.pool = .ok w →
      (∀ f, w.store (s.ctx (s.codecEng e).queue) x.st = .error f → exec (.codecJobDone e) s =
        .next (runFault (s.codecEng e).queue (s.inst (s.codecEng e).queue (s.codecEng e).inst).word f v)) ∧
      ∀ u, w.store (s.ctx (s.codecEng e).queue) x.st = .ok u →
        (s.codecEng e).inst < (u.run (s.codecEng e).queue).insts.length →
        Yields (.codecJobDone e) s fun t => u.onlyRun (s.codecEng e).queue t ∧
          t.inst (s.codecEng e).queue (s.codecEng e).inst =
            { u.inst (s.codecEng e).queue (s.codecEng e).inst with done := true } ∧
          (t.run (s.codecEng e).queue).held.map (·.eff) = (u.run (s.codecEng e).queue).held.map (·.eff) ++
            (if (s.codecEng e).variant = 0 then [] else [.release (jobProd (s.codecEng e).variant
              ((s.inst (s.codecEng e).queue (s.codecEng e).inst).descs.getD 0 {}).bits) x.prod])

/-- A COLL of an active group whose counts agree joins its kernel with its number in the group's sequence and takes an
engine, or its place in the queue (R101, R411, R418); its counts go to every other member (variant 3), and it greets when
it holds what it waits for: a member that holds no greeting of its children in the tree sends nothing (R416). One of an
excluded group, or of a group without quorum, ends its kernel with COLL_MEMBER_LOST (R430); one of a re-forming group does
not dispatch yet (R429). The longest-waiting COLL takes an idle engine; without GO no data moves. -/
def Obligations.CollectivesDispatch : Prop :=
  (∀ (s : State) (q b i : Nat) (o : CollOps), nextWord (s.run q) (.coll o) = true →
    s.findGroup o.group = some (b, i) →
    ((s.group b i).state = .excluded → (s.run q).landed = false → Yields (.coll q o) s fun t =>
      (t.run q).phase = .killed ∧
      (t.queue q).faultCode = 7 ∧ (t.queue q).faultDetail = 2 ∧ (t.queue q).state = .stopped) ∧
    ((s.group b i).state = .noQuorum → (s.run q).landed = false → Yields (.coll q o) s fun t =>
      (t.run q).phase = .killed ∧
      (t.queue q).faultCode = 7 ∧ (t.queue q).faultDetail = 3 ∧ (t.queue q).state = .stopped) ∧
    ((s.group b i).state = .reforming → exec (.coll q o) s = .next s) ∧
    ∀ ds mine (c : CollSt), (s.group b i).state = .active → s.readSlots (s.ctx q) (s.run q).set (.coll o) = .ok ds →
      opAligned ds = true →
      (if o.variant = 3 then readCounts s (s.ctx q) (nth (tensors ds) 2) else .ok []) = .ok mine →
      collBreak (collDim (s.group b i) { op := .coll o, descs := ds } { myCounts := mine }) (s.group b i).reforms
        mine.length ≠ 1 →
      c = {
        group := o.group
        seq := ((s.group b i).seq + collCountOf ((s.run q).words.take (s.run q).ip) o.group) % 2 ^ 32
        myCounts := mine
        mismatch := if collBreak (collDim (s.group b i) { op := .coll o, descs := ds } { myCounts := mine })
          (s.group b i).reforms mine.length = 2 then 3 else 0 } →
      ∃ u : State, u = { s with runs := u.runs, lsh := u.lsh, lshQ := u.lshQ } ∧ (∀ p, p ≠ q → u.run p = s.run p) ∧
        u.run q = { s.run q with
          ip := (s.run q).ip + 1
          insts := (s.run q).insts ++ [{
            word := wordIndex (s.run q), op := .coll o, descs := ds, set := (s.run q).set, snd := (s.run q).snd
            planned := true, engine := if s.lshQ = [] then idleEngineFor s q else none
            coll := some c }] } ∧
        u.lshQ = (if s.lshQ = [] ∧ (idleEngineFor s q).isSome then [] else s.lshQ ++ [(q, (s.run q).insts.length)]) ∧
        (∀ e, u.lshEng e = if s.lshQ = [] ∧ idleEngineFor s q = some e then
          { s.lshEng e with busy := true, variant := o.variant, queue := q, group := o.group } else s.lshEng e) ∧
        exec (.coll q o) s = .next (tryGreet q (s.run q).insts.length (takeHeld q (s.run q).insts.length b i
          (if o.variant = 3 then forEach ((List.range (s.group b i).members.length).filter (· ≠ (s.group b i).rank))
            (fun k t => sendColl q (s.run q).insts.length k 0x09 0 0 (fun p => { p with operand := mine.getD k 0 }) t) u
          else u))) ∧
        (o.variant ≠ 3 → treeKids (s.group b i).members.length (s.group b i).rank ≠ [] → (s.group b i).held = [] →
          Yields (.coll q o) s fun t => t = { u with runs := t.runs } ∧ ∀ p, t.run p = u.run p)) ∧
  ∀ (s : State), (s.lshQ = [] → exec .longshoreEngineGrant s = .next s) ∧
    ∀ (q j : Nat) (rest : List (Nat × Nat)), s.lshQ = (q, j) :: rest →
    (idleEngineFor s q = none → exec .longshoreEngineGrant s = .next s) ∧
    ∀ e, idleEngineFor s q = some e → j < (s.run q).insts.length →
      ∃ u : State, u = { s with runs := u.runs, lsh := u.lsh, lshQ := rest } ∧
        u.inst q j = { s.inst q j with engine := some e } ∧ (∀ k, k ≠ j → u.inst q k = s.inst q k) ∧
        (∀ p, p ≠ q → u.run p = s.run p) ∧ (∀ k, k ≠ e → u.lshEng k = s.lshEng k) ∧
        u.lshEng e = { s.lshEng e with
          busy := true, variant := (collOps (s.inst q j).op).variant, queue := q
          group := (collOps (s.inst q j).op).group } ∧
        exec .longshoreEngineGrant s = .next (beginData q j u) ∧
        ((s.collSt q j).go = false → exec .longshoreEngineGrant s = .next u)

/-- Packets of a collective: one of a later epoch of its group is held (R417), one of an earlier epoch, or of a part that
is not the member it names, or of no group here, is discarded; one of the group's epoch reaches the COLL that its number
names. What each then does: a child's greeting, a count of variant 3, a GO from the parent, an abort, a chunk (acknowledged
again where it is a duplicate, turned back where it is poisoned and may be sent again, else acknowledged and taken: of
variants 2 to 5 its elements are stored in DST), its acknowledgement, its NAK, a DONE, a LAND (R416, R419 to R421, R426).
`u` is the state in which the packet's flits have been accepted (R392). -/
def Obligations.CollectivePacketsAct : Prop :=
  ∀ (s u : State) (p : Packet) (k : Nat) (c : Instr),
    ((k = 1 ∧ c = .collGreeting p) ∨ (k = 2 ∧ c = .go p) ∨ (k = 3 ∧ c = .abort p) ∨ (k = 4 ∧ c = .collData p) ∨
      (k = 5 ∧ c = .chunkAck p) ∨ (k = 6 ∧ c = .chunkNak p) ∨ (k = 7 ∧ c = .collDone p) ∨ (k = 8 ∧ c = .land p) ∨
      (k = 9 ∧ c = .collCount p)) →
    u = arrive { p with kind := k } s →
    (u.findGroup p.group = none → exec c s = .next u) ∧
    ∀ b i, u.findGroup p.group = some (b, i) →
    ((u.group b i).epoch < p.epoch → Yields c s fun t => u.onlyBerth b t ∧
      t.group b i = { u.group b i with held := (u.group b i).held.filter (fun x =>
        !(x.kind = k && x.rank = p.rank && x.seq = p.seq && x.epoch = p.epoch)) ++ [{ p with kind := k }] }) ∧
    (p.epoch < (u.group b i).epoch ∨ p.epoch = (u.group b i).epoch ∧ (u.group b i).members.getD p.rank 65536 ≠ p.srcPart →
      exec c s = .next u) ∧
    (p.epoch = (u.group b i).epoch → (u.group b i).members.getD p.rank 65536 = p.srcPart →
      (k = 3 → exec c s = .next (spreadAbort b i p.op (p.operand % 256) p.seq (some p.rank) u) ∧
        ∀ q, carriers u b i p.seq = [q] → (u.run q).landed = false →
        (p.op = 1 → Yields c s (u.endedRun q 6 (p.operand % 256) (collWord (u.run q) (u.group b i).group p.seq) true)) ∧
        (p.op = 2 → Yields c s (u.endedRun q 5 6 (lastWord (u.run q)) false))) ∧
      (k = 1 → p.rank ∉ treeKids (u.group b i).members.length (u.group b i).rank → exec c s = .next u) ∧
      (findColl u b (u.group b i).group p.seq = none →
        (k = 2 ∨ k = 4 ∨ k = 5 ∨ k = 6 ∨ k = 7 ∨ k = 8 → exec c s = .next u) ∧
        (k = 9 ∨ k = 1 ∧ p.rank ∈ treeKids (u.group b i).members.length (u.group b i).rank ∧
            lacksGreeting u b (u.group b i).group p.rank = none →
          exec c s = .next (holdPacket b i { p with kind := k } u)) ∧
        ∀ q j, k = 1 → p.rank ∈ treeKids (u.group b i).members.length (u.group b i).rank →
          lacksGreeting u b (u.group b i).group p.rank = some (q, j) →
          exec c s = .next (enterGreeting q j { p with kind := 1 } u)) ∧
      ∀ q j, findColl u b (u.group b i).group p.seq = some (q, j) →
        (k = 1 → p.rank ∈ treeKids (u.group b i).members.length (u.group b i).rank →
          ((u.collSt q j).go = true → exec c s = .next (sendColl q j p.rank 0x02 0 0 id u)) ∧
          ((u.collSt q j).go = false → exec c s = .next (tryGreet q j (u.modColl q j (fun x => { x with
            kids := x.kids.filter (fun y => y.1 ≠ p.rank) ++ [(p.rank, p.greeting, p.operand)] })))) ∧
          ((u.collSt q j).go = false → (u.collSt q j).greeted = true ∨
              (∃ r ∈ treeKids (u.dimOf q j).g (u.dimOf q j).rank, r ≠ p.rank ∧ ∀ x ∈ (u.collSt q j).kids, x.1 ≠ r) →
            Yields c s fun t => u.onlyRun q t ∧ t.collSt q j = { u.collSt q j with
              kids := (u.collSt q j).kids.filter (fun y => y.1 ≠ p.rank) ++ [(p.rank, p.greeting, p.operand)] })) ∧
        (k = 9 → ((u.collSt q j).greeted = true → exec c s = .next u) ∧
          ((u.collSt q j).greeted = false → exec c s = .next (tryGreet q j (u.modColl q j (fun x => { x with
            counts := x.counts.filter (fun y => y.1 ≠ p.rank) ++ [(p.rank, p.operand)] }))) ∧
            ((∃ r ∈ treeKids (u.dimOf q j).g (u.dimOf q j).rank, ∀ x ∈ (u.collSt q j).kids, x.1 ≠ r) →
              Yields c s fun t => u.onlyRun q t ∧ t.collSt q j = { u.collSt q j with
                counts := (u.collSt q j).counts.filter (fun y => y.1 ≠ p.rank) ++ [(p.rank, p.operand)] }))) ∧
        (k = 2 → (treeParent (u.group b i).rank ≠ some p.rank ∨ (u.collSt q j).go = true → exec c s = .next u) ∧
          (treeParent (u.group b i).rank = some p.rank → (u.collSt q j).go = false →
            exec c s = .next (takeGo q j u) ∧
            ((u.inst q j).engine = none → Yields c s fun t =>
              t = { u with runs := t.runs, ports := t.ports, cwy := t.cwy, arbs := t.arbs, out := t.out } ∧
              t.collSt q j = { u.collSt q j with go := true }))) ∧
        (k = 4 → (u.collSt q j).recvd.contains (p.rank, p.chunk) = true →
          exec c s = .next (sendColl q j p.rank 0x05 0 0 (fun x => { x with chunk := p.chunk }) u) ∧
          Yields c s fun t => t = { u with ports := t.ports, cwy := t.cwy, arbs := t.arbs, out := t.out }) ∧
        (k = 4 → (u.collSt q j).recvd.contains (p.rank, p.chunk) = false →
          (u.inst q j).engine.isNone = true ∨ (u.dimOf q j).expected.contains (p.rank, p.chunk) = false →
          exec c s = .next u) ∧
        (∀ n, k = 4 → (u.collSt q j).recvd.contains (p.rank, p.chunk) = false → (u.inst q j).engine.isSome = true →
          (u.dimOf q j).expected.contains (p.rank, p.chunk) = true →
          n = (((u.collSt q j).chunkNaks.find? (fun x => x.1 = p.rank && x.2.1 = p.chunk)).map (·.2.2)).getD 0 →
          (p.poison = true → n < u.cwy.resends →
            (∃ v, u.onlyRun q v ∧
              exec c s = .next (sendColl q j p.rank 0x06 0 0 (fun x => { x with chunk := p.chunk }) v)) ∧
            Yields c s fun t => t = { u with runs := t.runs, ports := t.ports, cwy := t.cwy, arbs := t.arbs, out := t.out } ∧
              t.collSt q j = { u.collSt q j with chunkNaks := (u.collSt q j).chunkNaks.filter (fun y =>
                !(y.1 = p.rank && y.2.1 = p.chunk)) ++ [(p.rank, p.chunk, n + 1)] }) ∧
          (p.poison = false ∨ u.cwy.resends ≤ n → ∃ v,
            v = sendColl q j p.rank 0x05 0 0 (fun x => { x with chunk := p.chunk })
              (u.modColl q j (fun x => { x with recvd := x.recvd ++ [(p.rank, p.chunk)] })) ∧
            v.collSt q j = { u.collSt q j with recvd := (u.collSt q j).recvd ++ [(p.rank, p.chunk)] } ∧
            exec c s = .next (settleColl q j (takeChunk q j p.rank p.chunk p.data p.poison v) v) ∧
            ∀ w, 2 ≤ (u.dimOf q j).variant →
              v.storeChunk q j ((u.dimOf q j).chunkAt p.rank p.chunk).1 ((u.dimOf q j).chunkAt p.rank p.chunk).2 p.data
                (if p.poison then List.range ((u.dimOf q j).chunkAt p.rank p.chunk).2 else []) = .ok w →
              Yields c s fun t => t.mem = w.mem ∧ t.units = w.units)) ∧
        (k = 5 → exec c s = .next (finishColl q j (modSend q j p.rank p.chunk (fun x =>
            if x.sent then { x with acked := true, data := [] } else x) u)) ∧
          ((u.collSt q j).began = true →
            (∃ x ∈ (u.collSt q j).sends, x.acked = false ∧ ¬ (x.target = p.rank ∧ x.chunk = p.chunk)) →
            Yields c s fun t => u.onlyRun q t ∧ t.collSt q j = { u.collSt q j with
              sends := (u.collSt q j).sends.map (fun x => if x.target = p.rank ∧ x.chunk = p.chunk then
                (if x.sent then { x with acked := true, data := [] } else x) else x) })) ∧
        (k = 6 → ((u.collSt q j).sends.find? (fun x => x.target = p.rank && x.chunk = p.chunk && x.sent && !x.acked) =
            none → exec c s = .next u) ∧
          ∀ x, (u.collSt q j).sends.find? (fun x => x.target = p.rank && x.chunk = p.chunk && x.sent && !x.acked) =
            some x →
          (x.src = none → exec c s = .next (sendChunk q j x u) ∧ Yields c s fun t =>
            t = { u with lsh := t.lsh, ports := t.ports, cwy := t.cwy, arbs := t.arbs, out := t.out } ∧
            ∀ e, (u.inst q j).engine = some e → (t.lshEng e).bytes = wrapAdd 64 (u.lshEng e).bytes x.data.length) ∧
          ∀ e0 n, x.src = some (e0, n) →
            (∀ f, u.takeSrc q (nth (tensors (u.inst q j).descs) 0) e0 n = .error f →
              exec c s = .next (runFault q (u.inst q j).word f u)) ∧
            ∀ bs bad v, u.takeSrc q (nth (tensors (u.inst q j).descs) 0) e0 n = .ok (bs, bad, v) →
              exec c s = .next (sendChunk q j { x with data := bs, poison := !bad.isEmpty }
                (modSend q j x.target x.chunk (fun _ => { x with data := bs, poison := !bad.isEmpty }) v))) ∧
        (k = 7 → (p.rank ∉ treeKids (u.group b i).members.length (u.group b i).rank → exec c s = .next u) ∧
          (p.rank ∈ treeKids (u.group b i).members.length (u.group b i).rank →
            exec c s = .next (tryDone q j (u.modColl q j (fun x => { x with
              doneKids := x.doneKids.filter (fun y => y.1 ≠ p.rank) ++ [(p.rank, decide (p.operand % 2 = 1))] }))) ∧
            ((u.inst q j).done = false →
              Yields c s fun t => u.onlyRun q t ∧ t.collSt q j = { u.collSt q j with
                doneKids := (u.collSt q j).doneKids.filter (fun y => y.1 ≠ p.rank) ++
                  [(p.rank, decide (p.operand % 2 = 1))] }))) ∧
        (k = 8 → (treeParent (u.group b i).rank ≠ some p.rank ∨ (u.collSt q j).doneSent = false ∨
            (u.collSt q j).landed = true → exec c s = .next u) ∧
          (treeParent (u.group b i).rank = some p.rank → (u.collSt q j).doneSent = true →
            (u.collSt q j).landed = false → Yields c s fun t =>
              t.collSt q j = { u.collSt q j with landed := true } ∧
              (lastColl (u.run q).words = some (wordPos (u.run q) j) → (t.run q).landed = true) ∧
              t = { u with runs := t.runs, berths := t.berths, ports := t.ports, cwy := t.cwy, arbs := t.arbs
                           out := t.out })))

/-- A chunk that nobody acknowledged goes out again (R420): its engine counts its bytes again, and messages alone
differ. One that is acknowledged, or that never went out, does not. -/
def Obligations.ChunksAreResent : Prop :=
  ∀ (s : State) (q j target n : Nat), n < 2 ^ 32 →
    ((s.collSt q j).sends.find? (fun x => x.target = target && x.chunk = n && x.sent && !x.acked) = none →
      exec (.chunkResend q j (target * 2 ^ 32 + n)) s = .next s) ∧
    ∀ x, (s.collSt q j).sends.find? (fun x => x.target = target && x.chunk = n && x.sent && !x.acked) = some x →
    exec (.chunkResend q j (target * 2 ^ 32 + n)) s = .next (sendChunk q j x s) ∧
    Yields (.chunkResend q j (target * 2 ^ 32 + n)) s fun t =>
      t = { s with lsh := t.lsh, ports := t.ports, cwy := t.cwy, arbs := t.arbs, out := t.out } ∧
      (∀ e, (s.inst q j).engine = some e → (t.lshEng e).bytes = wrapAdd 64 (s.lshEng e).bytes x.data.length) ∧
      ∀ e, (s.inst q j).engine ≠ some e → t.lshEng e = s.lshEng e

/-- Messages between the members of a group (R428 to R430, R427): heartbeats go to the neighbours and are remembered; a
member that is lost, says so, or leaves, takes the group into re-forming and ends the kernels that use it; polls are
answered, answers counted, a coordinator stands up after REFORM_MS and decides when all have answered or its time is up; an
install gives the group its new list, ranks and epoch; an exclusion, or no install in time, stops it; a taint notice taints
it. A message of another epoch, of no member, or of no group here is discarded. `u` is the state in which the message's
flits have been accepted. -/
def Obligations.GroupMessagesAct : Prop :=
  (∀ (s : State) (half : Nat), Yields (.memberHeartbeatSend half) s fun t =>
    t = { s with ports := t.ports, cwy := t.cwy, arbs := t.arbs, out := t.out } ∧
    t = forEach (groupsOf s half) (fun x v => tellRanks x.1 x.2 0x01 (neighbours (v.group x.1 x.2)) id v) s) ∧
  (∀ (s : State) (group : Nat) (c : Instr), s.findGroup group = none →
    (c = .installTimeout group ∨ c = .coordinatorTimeout group ∨ ∃ rank, c = .memberLost group rank) →
    exec c s = .next s) ∧
  (∀ (s : State) (group b i : Nat), s.findGroup group = some (b, i) →
    (∀ rank, (s.group b i).state = .active ∨ (s.group b i).state = .reforming →
      (neighbours (s.group b i)).contains rank = true → (s.group b i).lostRanks.contains rank = false →
      look 0 (s.group b i).lastHeard rank + 1000 * (s.half (groupHalf s b i)).lostMs ≤ (s.half (groupHalf s b i)).us →
      exec (.memberLost group rank) s = .next (startReform b i [rank] (tellRanks b i 0x02 (allRanks (s.group b i))
        (fun p => { p with operand := rank }) s)) ∧
      Yields (.memberLost group rank) s fun t =>
        ((s.group b i).state = .active → t.group b i = { s.group b i with
          state := .reforming, lostRanks := [rank], answers := [], coordinator := false, aborts := (t.group b i).aborts }) ∧
        ((s.group b i).state = .reforming → t.group b i = { s.group b i with
          lostRanks := ((s.group b i).lostRanks ++ [rank]).eraseDups }) ∧
        t.mem = s.mem ∧ t.units = s.units ∧ t.trays = s.trays ∧ t.syncs = s.syncs) ∧
    (∀ rank, (s.half (groupHalf s b i)).us <
        look 0 (s.group b i).lastHeard rank + 1000 * (s.half (groupHalf s b i)).lostMs →
      exec (.memberLost group rank) s = .next s) ∧
    ((s.group b i).state = .reforming → (s.group b i).coordinator = false →
      Yields (.coordinatorTimeout group) s fun t => t = { s with
          berths := t.berths, ports := t.ports, cwy := t.cwy, arbs := t.arbs, out := t.out } ∧
        t = tellRanks b i 0x04 (allRanks (s.group b i)) id
          (s.modGroup b i (fun x => { x with coordinator := true, answers := [] })) ∧
        t.group b i = { s.group b i with coordinator := true, answers := [] }) ∧
    ((s.group b i).state = .reforming → (s.group b i).coordinator = true →
      exec (.coordinatorTimeout group) s = .next (decideReform b i s)) ∧
    ((s.group b i).state ≠ .reforming → exec (.coordinatorTimeout group) s = .next s) ∧
    ((s.group b i).state = .reforming → Yields (.installTimeout group) s fun t =>
      t.group b i = { s.group b i with state := .noQuorum, coordinator := false, aborts := (t.group b i).aborts }) ∧
    ((s.group b i).state ≠ .reforming → exec (.installTimeout group) s = .next s)) ∧
  (∀ (s u : State) (p : Packet) (c : Instr),
    c ∈ [.memberHeartbeat p, .taint p, .lostNotice p, .leaveNotice p, .exclusion p, .poll p, .pollAnswer p] →
    u = arrive p s →
    (u.findGroup p.group = none ∨ ∃ b i, u.findGroup p.group = some (b, i) ∧ (p.epoch ≠ (u.group b i).epoch ∨
      (u.group b i).members.getD p.rank 65536 ≠ p.srcPart)) → exec c s = .next u) ∧
  ∀ (s u : State) (p : Packet) (b i : Nat), u = arrive p s → u.findGroup p.group = some (b, i) →
    (u.group b i).members.getD p.rank 65536 = p.srcPart →
    (p.epoch = (u.group b i).epoch →
      Yields (.memberHeartbeat p) s (fun t => u.onlyBerth b t ∧ t.group b i = { u.group b i with
        lastHeard := put 0 (u.group b i).lastHeard p.rank (u.half (groupHalf u b i)).us }) ∧
      Yields (.taint p) s (fun t => u.onlyBerth b t ∧ t.group b i = { u.group b i with
        tainted := true, poisoned := satAdd 16 (u.group b i).poisoned 1 }) ∧
      exec (.lostNotice p) s = .next (startReform b i [p.operand] u) ∧
      exec (.leaveNotice p) s = .next (startReform b i [p.rank] u) ∧
      ((u.group b i).state = .active →
        Yields (.lostNotice p) s (fun t => t.group b i = { u.group b i with
          state := .reforming, lostRanks := [p.operand], answers := [], coordinator := false
          aborts := (t.group b i).aborts }) ∧
        Yields (.leaveNotice p) s (fun t => t.group b i = { u.group b i with
          state := .reforming, lostRanks := [p.rank], answers := [], coordinator := false
          aborts := (t.group b i).aborts })) ∧
      ((u.group b i).state = .reforming ∨ (u.group b i).state = .active →
        Yields (.exclusion p) s fun t => t.group b i = { u.group b i with
          state := .excluded, coordinator := false, aborts := (t.group b i).aborts }) ∧
      ((u.group b i).state = .noQuorum ∨ (u.group b i).state = .excluded → exec (.exclusion p) s = .next u ∧
        exec (.lostNotice p) s = .next u ∧ exec (.leaveNotice p) s = .next u) ∧
      ((u.group b i).state = .reforming → Yields (.poll p) s fun t =>
        t = { u with berths := t.berths, ports := t.ports, cwy := t.cwy, arbs := t.arbs, out := t.out } ∧
        t.group b i = { u.group b i with
          lostRanks := (u.group b i).lostRanks.eraseDups
          coordinator := (u.group b i).coordinator && decide ((u.group b i).rank ≤ p.rank) } ∧
        ∃ v, u.onlyBerth b v ∧
          t = tellRanks b i 0x05 [p.rank] (fun x => { x with landed := (u.group b i).landedSeen }) v) ∧
      ((u.group b i).state = .active → Yields (.poll p) s fun t => t.group b i = { u.group b i with
        state := .reforming, lostRanks := [], answers := [], coordinator := false, aborts := (t.group b i).aborts }) ∧
      ((u.group b i).coordinator = false ∨ (u.group b i).state ≠ .reforming → exec (.pollAnswer p) s = .next u) ∧
      ((u.group b i).state = .reforming → (u.group b i).coordinator = true → ∃ v, u.onlyBerth b v ∧
        v.group b i = { u.group b i with
          answers := ((u.group b i).answers ++ [p.rank]).eraseDups
          landedSeen := ((u.group b i).landedSeen ++ p.landed).eraseDups } ∧
        exec (.pollAnswer p) s = .next (if (List.range (u.group b i).members.length).all (fun r =>
          r = (u.group b i).rank || ((u.group b i).answers ++ [p.rank]).eraseDups.contains r ||
            (u.group b i).lostRanks.contains r) then decideReform b i v else v))) ∧
    (p.epoch ≠ (u.group b i).epoch + 1 ∨ (u.group b i).state = .noQuorum ∨ (u.group b i).state = .excluded →
      exec (.install p) s = .next u) ∧
    (p.epoch = (u.group b i).epoch + 1 → (u.group b i).state = .reforming ∨ (u.group b i).state = .active →
      exec (.install p) s = .next (installHere b i p.epoch p.list p.landed (startReform b i [] u))) ∧
    (p.epoch = (u.group b i).epoch + 1 → (u.group b i).state = .reforming →
      ∀ rank, p.list.findIdx? (· = u.cwy.partId) = some rank → (u.group b i).held = [] →
        groupRuns u b (u.group b i).group = [] →
        Yields (.install p) s fun t => t = { u with berths := t.berths } ∧
          (t.group b i).state = .active ∧ (t.group b i).members = p.list ∧ (t.group b i).rank = rank ∧
          (t.group b i).epoch = p.epoch ∧ (t.group b i).reforms = satAdd 16 (u.group b i).reforms 1 ∧
          (t.group b i).reformed = true ∧ (t.group b i).lostRanks = [] ∧ (t.group b i).group = (u.group b i).group)

/-- A codeword comes from a stack, for a read or a scrub (R323, R330, R332, R333, R339): the poison codeword changes nothing;
one that decodes delivers its data, which is what a reader of the unit then sees, and a scrub writes what it corrected back;
one that the decoder cannot correct delivers none and is read once more (R335). A corrected codeword is counted once, with
the pin of its symbols where they share one; a single corrected symbol is counted against its pin unless the pin is marked
already; the count that reaches MARK_THRESH marks the pin, or sets SECOND where another is marked. A codeword of a unit that
is not the channel's, or out of reach, is ignored. -/
def Obligations.StackCodewordsAreCounted : Prop :=
  ∀ (s : State) (k ch pa source : Nat) (rx : BitVec 288) (c : Instr),
    c = .stackReadDone k ch pa source rx ∨ source = 2 ∧ c = .scrubRead k ch pa rx →
    (channelOf s k ch pa = false ∨ rx = poisonWord → exec c s = .next s) ∧
    (channelOf s k ch pa = true → rx ≠ poisonWord →
      (decodeWord (s.chan k ch).mark rx = none → Yields c s fun t =>
        t = { s with stks := t.stks, delivered := s.delivered.filter (fun x => x.1 ≠ pa / 32) } ∧
        (∀ j, j ≠ k → t.stack j = s.stack j) ∧
        t.chan k ch = { s.chan k ch with rereads := (s.chan k ch).rereads ++ [(pa / 32, source)] }) ∧
      ∀ d syms, decodeWord (s.chan k ch).mark rx = some (d, syms) →
        (Yields c s fun t => t.units = s.units ∧ t.trays = s.trays ∧ t.syncs = s.syncs ∧ t.runs = s.runs ∧
          t.queues = s.queues ∧
          (∀ x, t.memByte x = if x / 32 = pa / 32 then d.getD (x % 32) 0 else s.memByte x) ∧
          (∀ x, rdByte t.mem x = if source = 2 ∧ syms ≠ [] ∧ look .good s.units (pa / 32) = .good ∧ x / 32 = pa / 32
            then d.getD (x % 32) 0 else rdByte s.mem x) ∧
          (syms = [] → t.stks = s.stks ∧ t.trec = s.trec) ∧
          (syms ≠ [] → (t.chan k ch).corrected = satAdd 32 (s.chan k ch).corrected 1 ∧
            (t.chan k ch).lastPin = if (syms.map (· / 2)).eraseDups.length = 1 then syms.headD 0 / 2 else 31)) ∧
        ∀ x n, syms = [x] → n = satAdd 8 (look 0 (s.chan k ch).counts (x / 2)) 1 → Yields c s fun t =>
          ((s.chan k ch).mark = some (x / 2) → t.trec = s.trec ∧
            t.chan k ch = { s.chan k ch with corrected := satAdd 32 (s.chan k ch).corrected 1, lastPin := x / 2 }) ∧
          ((s.chan k ch).mark ≠ some (x / 2) → n < (s.stack k).markThresh → t.trec = s.trec ∧
            t.chan k ch = { s.chan k ch with
              corrected := satAdd 32 (s.chan k ch).corrected 1, lastPin := x / 2
              counts := put 0 (s.chan k ch).counts (x / 2) n }) ∧
          ((s.chan k ch).mark ≠ some (x / 2) → (s.chan k ch).valid = true → (s.stack k).markThresh ≤ n →
            t.chan k ch = { s.chan k ch with
              corrected := satAdd 32 (s.chan k ch).corrected 1, lastPin := x / 2
              counts := put 0 (s.chan k ch).counts (x / 2) n, second := true }) ∧
          ((s.chan k ch).valid = false → (s.stack k).markThresh ≤ n →
            t.trec = { s.trec with pinMarks := put (0, false) s.trec.pinMarks (k * 64 + ch) (x / 2 + 1, true) } ∧
            t.chan k ch = { s.chan k ch with
              corrected := satAdd 32 (s.chan k ch).corrected 1, lastPin := x / 2
              valid := true, pin := x / 2, auto := true, counts := [] }))

/-- The second read of a unit (R335, R340), where one is due: one that decodes delivers its data and counts as corrected, and
nothing is marked; uncorrectable again, the unit is marked and reported, and with a second one of its bank row within 24
hours the row's pages are retired. Refresh moves on to the next row (R325), the pin counts are cleared (R332), a write of
STK_PIN_MARK sets the mark, clears SECOND where it says so, and is recorded (R333, R334); a fenced half ignores it (R28). -/
def Obligations.StackRowsAct : Prop :=
  (∀ (s : State) (k ch pa : Nat) (rx : BitVec 288), (s.chan k ch).rereads.find? (fun r => r.1 = pa / 32) = none →
    exec (.ueRereadDone k ch pa rx) s = .next s) ∧
  (∀ (s : State) (k ch pa : Nat) (rx : BitVec 288) (r : Nat × Nat),
    (s.chan k ch).rereads.find? (fun r => r.1 = pa / 32) = some r →
    (rx = poisonWord → Yields (.ueRereadDone k ch pa rx) s fun t => s.onlyStack k t ∧
      t.chan k ch = { s.chan k ch with rereads := (s.chan k ch).rereads.erase r }) ∧
    (∀ d syms, rx ≠ poisonWord → decodeWord (s.chan k ch).mark rx = some (d, syms) →
      Yields (.ueRereadDone k ch pa rx) s fun t => t.units = s.units ∧ t.runs = s.runs ∧ t.queues = s.queues ∧
        (t.chan k ch).rereads = (s.chan k ch).rereads.erase r ∧
        (t.chan k ch).corrected = satAdd 32 (s.chan k ch).corrected 1 ∧
        (∀ x, t.memByte x = if x / 32 = pa / 32 then d.getD (x % 32) 0 else s.memByte x) ∧
        ∀ x, rdByte t.mem x = if r.2 = 2 ∧ look .good s.units (pa / 32) = .good ∧ x / 32 = pa / 32
          then d.getD (x % 32) 0 else rdByte s.mem x) ∧
    (rx ≠ poisonWord → decodeWord (s.chan k ch).mark rx = none →
      Yields (.ueRereadDone k ch pa rx) s fun t =>
        t.mem = s.mem ∧ t.runs = s.runs ∧ t.queues = s.queues ∧ t.syncs = s.syncs ∧ t.trays = s.trays ∧
        look .good t.units (pa / 32) = .uncorrectable ∧
        (∀ i, i ≠ pa / 32 → look .good t.units i = look .good s.units i) ∧
        (look .good s.units (pa / 32) ≠ .uncorrectable →
          (∃ u ∈ (s.stack (s.place (pa / 32 * 32)).stack).ueRows, u.1 = rowNumber (s.place (pa / 32 * 32)) ∧
            (s.half ((s.place (pa / 32 * 32)).stack / 16)).us < u.2 + dayUs) →
          ∀ g ∈ rowPages s (s.place (pa / 32 * 32)), g ∈ t.trec.retired))) ∧
  ∀ (s : State) (k ch v : Nat),
    Yields (.pinCountClear k ch) s (fun t => s.onlyStack k t ∧ t.chan k ch = { s.chan k ch with counts := [] }) ∧
    Yields (.refresh k ch) s (fun t => s.onlyStack k t ∧
      t.chan k ch = { s.chan k ch with refreshRow := ((s.chan k ch).refreshRow + 1) % 1572864 }) ∧
    (s.fenced (k / 16) = true → exec (.pinMarkWrite k ch v) s = .next s) ∧
    (s.fenced (k / 16) = false → Yields (.pinMarkWrite k ch v) s fun t =>
      t = { s with stks := t.stks, trec := { s.trec with pinMarks := t.trec.pinMarks } } ∧
      look (0, false) t.trec.pinMarks (k * 64 + ch) =
        (if bit v 0 then ((t.chan k ch).pin + 1, false) else (0, false)) ∧
      t.chan k ch = { s.chan k ch with
        valid := bit v 0, pin := if field v 1 5 < 18 then field v 1 5 else (s.chan k ch).pin, auto := false
        second := (s.chan k ch).second && !bit v 7 })

/-- A migration completes (R351): the destination page holds the bytes of the source as a reader saw them, but for its bad
units, which arrive as zeros marked poison, and for a source out of reach, which arrives as poison (R360); no byte of any
other page changes; the berth's page is mapped there and the half's migration engine goes on. Without a migration nothing
happens, and one whose page may not be mapped, or of the Shelf before its map is built, waits (R355). A move to a spare when
none is left ends where it is (R348). -/
def Obligations.MigrationsCopyPages : Prop :=
  ∀ (s : State) (half page : Nat), ((s.half half).migRun = none → exec (.migrationDone half page) s = .next s) ∧
    ∀ (r : MigReq) (p : Page), s.Sound → (s.half half).migRun = some r →
    p = look {} (s.berth r.berth).pages r.vpage →
    (r.tier = p.tier → (spares s r.tier (pageScope s p.phys)).any
        (mappable s r.tier (pageScope s p.phys) true) = false → Yields (.migrationDone half page) s fun t =>
      t.mem = s.mem ∧ t.units = s.units ∧
      look {} (t.berth r.berth).pages r.vpage = { p with migrating := (look {} (t.berth r.berth).pages r.vpage).migrating } ∧
      (t.berth r.berth).migDone = wrapAdd 32 (s.berth r.berth).migDone 1) ∧
    ((r.tier = p.tier → (spares s r.tier (pageScope s p.phys)).any
        (mappable s r.tier (pageScope s p.phys) true) = true) →
      mappable s r.tier (scopeOf s r.berth r.vpage) (decide (r.tier = p.tier)) page = false ∨
        (r.tier = .shelf ∨ p.tier = .shelf) ∧ s.shelf.mapReady = false ∨
        r.tier = .shelf ∧ canProgram false (pageUnits page) s = false →
      exec (.migrationDone half page) s = .next s) ∧
    ((r.tier = p.tier → (spares s r.tier (pageScope s p.phys)).any
        (mappable s r.tier (pageScope s p.phys) true) = true) →
    mappable s r.tier (scopeOf s r.berth r.vpage) (decide (r.tier = p.tier)) page = true →
    (r.tier = .shelf ∨ p.tier = .shelf → s.shelf.mapReady = true) →
    (r.tier = .shelf → canProgram false (pageUnits page) s = true) →
    Yields (.migrationDone half page) s fun t =>
      (s.unreachable (p.phys * 2 ^ 21) = false →
        (∀ o < 2 ^ 21, rdByte t.mem (page * 2 ^ 21 + o) =
          if look .good s.units (p.phys * 65536 + o / 32) = .good then s.memByte (p.phys * 2 ^ 21 + o) else 0) ∧
        ∀ o < 65536, look .good t.units (page * 65536 + o) =
          if look .good s.units (p.phys * 65536 + o) = .good then .good else .poison) ∧
      (s.unreachable (p.phys * 2 ^ 21) = true →
        (∀ o < 2 ^ 21, rdByte t.mem (page * 2 ^ 21 + o) = 0) ∧
        ∀ o < 65536, look .good t.units (page * 65536 + o) = .poison) ∧
      (∀ a, a / 2 ^ 21 ≠ page → rdByte t.mem a = rdByte s.mem a) ∧
      (∀ i, i / 65536 ≠ page → look .good t.units i = look .good s.units i) ∧
      (∀ d, d ∈ t.delivered ↔ d ∈ s.delivered ∧ d.1 / 65536 ≠ page) ∧
      (look {} (t.berth r.berth).pages r.vpage).tier = r.tier ∧
      (look {} (t.berth r.berth).pages r.vpage).phys = page ∧
      (t.berth r.berth).migDone = wrapAdd 32 (s.berth r.berth).migDone 1 ∧
      ((s.half half).migQ = [] → (t.half half).migRun = none) ∧
      t.runs = s.runs ∧ t.queues = s.queues ∧ t.trays = s.trays)

/-- The Shelf (R354 to R357): reads are counted on their block, the map is rebuilt from its journal where the boot chain has
reached the Shelf, blocks of superseded units are erased, the units of the Shelf's lowest-count block move to the erased
block of the highest count of its flash stack once the counts differ by more than 256, those of a worn or failing block move
to another block, those that are lost become poisoned. -/
def Obligations.ShelfBlocksTurnOver : Prop :=
  (∀ (s : State) (q j : Nat),
    (s.shelf.mapReady = false ∨ onShelf (s.ctx q) (nth (tensors ((s.run q).insts.getD j {}).descs) 0) = false ∨
      ((s.run q).insts.getD j {}).readsLeft = [] → exec (.shelfReadDone q j) s = .next s) ∧
    ∀ (p : Nat × Nat) (rest : List (Nat × Nat)), s.shelf.mapReady = true →
    onShelf (s.ctx q) (nth (tensors ((s.run q).insts.getD j {}).descs) 0) = true →
    ((s.run q).insts.getD j {}).readsLeft = p :: rest → Yields (.shelfReadDone q j) s fun t =>
      t = { s with runs := t.runs, twc := t.twc, shelf := t.shelf } ∧ (t.inst q j).readsLeft = rest ∧
      ((s.page (s.ctx q).berth p.1).tier ≠ .shelf → t.shelf = s.shelf) ∧
      ∀ f u, (s.page (s.ctx q).berth p.1).tier = .shelf →
        look none s.shelf.map (unitOfPa ((s.page (s.ctx q).berth p.1).phys * 2 ^ 21 + p.1 % 2 ^ 21)) = some (f, u) →
        t.block (f * blocksPerStack + u / 512) = { s.block (f * blocksPerStack + u / 512) with
          reads := (s.block (f * blocksPerStack + u / 512)).reads + 1 } ∧
        ∀ i, i ≠ f * blocksPerStack + u / 512 → t.block i = s.block i) ∧
  (∀ s : State,
    ((s.on && s.glb.sOnRoot && [0, 1].any (fun h => loadsShelf s h && decide ((s.half h).bootStage ≥ 3))) = false →
      exec .shelfMapRebuild s = .next s) ∧
    ((s.on && s.glb.sOnRoot && [0, 1].any (fun h => loadsShelf s h && decide ((s.half h).bootStage ≥ 3))) = true →
      Yields .shelfMapRebuild s fun t => t.shelf.mapReady = true ∧ t.shelf.inService = 0xFF ∧
        (∀ lu, strayUnit s lu = false → look none t.shelf.map lu = look none s.shelf.saved lu) ∧
        t.mem = s.mem ∧ t.units = s.units)) ∧
  ∀ (s : State) (i : Nat),
    (s.shelf.mapReady = false → exec (.garbageCollect i) s = .next s ∧ exec .wearLevel s = .next s ∧
      ∀ failed lost, exec (.shelfRelocate i failed lost) s = .next s) ∧
    ((s.block i).valid ≠ [] ∨ (s.block i).used = 0 ∨ (s.block i).bad = true ∨ rawBlocks ≤ i →
      exec (.garbageCollect i) s = .next s) ∧
    (maxErase s ≤ minErase s + 256 → exec .wearLevel s = .next s) ∧
    (∀ lost, relocationDue s i = false → exec (.shelfRelocate i false lost) s = .next s) ∧
    (s.shelf.mapReady = true →
    (i < rawBlocks → (s.block i).bad = false → (s.block i).used ≠ 0 → (s.block i).valid = [] →
      Yields (.garbageCollect i) s fun t =>
        t.block i = { s.block i with erases := (s.block i).erases + 1, used := 0, reads := 0 } ∧
        (∀ j, j ≠ i → t.block j = s.block j) ∧ t.shelf.map = s.shelf.map ∧ t.mem = s.mem ∧ t.units = s.units) ∧
    (∀ d, minErase s + 256 < maxErase s → lowBlock s = some i → highBlock s i = some d → d ≠ i →
      (s.block i).valid.Nodup →
      (∀ lu ∈ (s.block i).valid, ∃ f u, look none s.shelf.map lu = some (f, u) ∧ f * blocksPerStack + u / 512 = i) →
      Yields .wearLevel s fun t =>
        (t.block i).valid = [] ∧ (t.block d).valid = (s.block d).valid ++ (s.block i).valid ∧
        (t.block d).used = (s.block d).used + (s.block i).valid.length ∧
        (∀ n < (s.block i).valid.length, look none t.shelf.map ((s.block i).valid.getD n 0) =
          some (d / blocksPerStack, d % blocksPerStack * 512 + (s.block d).used + n)) ∧
        (∀ lu, lu ∉ (s.block i).valid → look none t.shelf.map lu = look none s.shelf.map lu) ∧
        t.mem = s.mem ∧ t.units = s.units) ∧
    (minErase s + 256 < maxErase s → lowBlock s = some i → highBlock s i = none →
      Yields .wearLevel s fun t => t.shelf.map = s.shelf.map ∧ (∀ j, t.block j = s.block j) ∧ t.mem = s.mem) ∧
    (∀ failed lu d f u, i < rawBlocks → (failed = true ∨ relocationDue s i = true) → (s.block i).valid = [lu] →
      look none s.shelf.map lu = some (f, u) → f * blocksPerStack + u / 512 = i → otherBlock i s = some d → d ≠ i →
      Yields (.shelfRelocate i failed []) s fun t =>
        look none t.shelf.map lu = some (d / blocksPerStack, d % blocksPerStack * 512 + (s.block d).used) ∧
        (t.block i).valid = [] ∧ (t.block i).bad = ((s.block i).bad || failed) ∧
        (t.block d).valid = (s.block d).valid ++ [lu] ∧ t.mem = s.mem ∧ t.units = s.units) ∧
    (∀ failed lu f u, i < rawBlocks → (failed = true ∨ relocationDue s i = true) → (s.block i).valid = [lu] →
      look none s.shelf.map lu = some (f, u) →
      f * blocksPerStack + u / 512 = i → s.shelf.lostUnits.contains lu = false →
      Yields (.shelfRelocate i failed [lu]) s fun t =>
        t.shelf.lostUnits = s.shelf.lostUnits ++ [lu] ∧ t.shelf.lost = satAdd 32 s.shelf.lost 1 ∧
        look none t.shelf.map lu = none ∧ (t.block i).valid = [] ∧ (t.block i).bad = ((s.block i).bad || failed) ∧
        (∀ o < 2048, look .good t.units (2 ^ 39 + lu * 2048 + o) = .poison) ∧
        (∀ a, a < 2 ^ 44 + lu * 65536 ∨ 2 ^ 44 + lu * 65536 + 65536 ≤ a → rdByte t.mem a = rdByte s.mem a)))

/-- The control loop of a half (R455, R456, R458, R459, R341): without the part's power it does not run; a run that does
not fit is skipped and counted; one that runs latches the sensors, steps the thermal values of each stack and cluster of a
half that is not fenced, applies the power rule where the half does so, and writes the clock stages. A stack or cluster that
reaches 105 °C has its cluster at stage 12 and its cores gated; at or below T_LO the cores that this held gated start to
come back. Below 105 °C nothing but those values, the codec engines' stages and the half's counts differ. A regulator's
over-current puts every cluster of the half at stage 12 (R458). -/
def Obligations.TidewatchSetsTheStages : Prop :=
  ∀ (s : State) (half : Nat) (x : Sensors),
    (s.on = false → (∀ o, exec (.tidewatchLoop half o x) s = .next s) ∧ exec (.overCurrent half) s = .next s) ∧
    (s.on = true → half < 2 →
    Yields (.tidewatchLoop half true x) s (fun t => s.onlyHalf half t ∧
      t.half half = { s.half half with overruns := satAdd 16 (s.half half).overruns 1 }) ∧
    (Yields (.tidewatchLoop half false x) s fun t =>
      (t.half half).loops = wrapAdd 32 (s.half half).loops 1 ∧
      (half = partHalf s → ownPower s half = false →
        t.twc.power = x.power % 2 ^ 16 ∧ t.twc.mP = powerStep s.twc.mP x.power s.twc.pwrLimit s.twc.pwrHyst) ∧
      (half = partHalf s → t.glb.vin = x.vin % 1024 ∧ t.glb.iin = x.iin % 2048) ∧
      ∀ cc < 16, ∀ k hot, k = 16 * half + cc → hot = max (x.stack.getD cc 0 % 1024) (x.cluster.getD cc 0) →
        (t.stack k).temp = x.stack.getD cc 0 % 1024 ∧ (t.cluster k).temp = x.cluster.getD cc 0 ∧
        (t.cluster k).mEff = max (max (t.cluster k).mTherm (if ownPower s half then (t.half half).mH else t.twc.mP))
          (s.cluster k).mCap ∧
        (s.fenced half = true → (t.cluster k).mTherm = (s.cluster k).mTherm ∧ (t.stack k).crit = (s.stack k).crit) ∧
        (s.fenced half = false →
          (t.stack k).doubleRefresh = decide (x.stack.getD cc 0 % 1024 > 340) ∧
          (t.cluster k).mTherm = (if hot ≥ 420 then 12 else if hot ≥ 4 * (s.stack k).tHi then
              min ((s.cluster k).mTherm + 1) 12
            else if hot ≤ 4 * (s.stack k).tLo then (s.cluster k).mTherm - 1 else (s.cluster k).mTherm) ∧
          (t.stack k).stkM = (if hot ≥ 420 then 8 else if hot ≥ 4 * (s.stack k).tHi then min ((s.stack k).stkM + 1) 8
            else if hot ≤ 4 * (s.stack k).tLo then (s.stack k).stkM - 1 else (s.stack k).stkM) ∧
          (t.stack k).crit = (if (s.stack k).crit then decide (4 * (s.stack k).tLo < hot) else decide (420 ≤ hot)) ∧
          (hot ≥ 420 → (s.stack k).crit = false → ∀ c, c / 8 = k → bitOf t.twc.gated c = true) ∧
          (hot ≤ 4 * (s.stack k).tLo → (s.stack k).crit = true → ∀ c ∈ (s.cluster k).held, c / 8 = k →
            c ∈ t.twc.ungating))) ∧
    (s.fenced half = false →
      (∀ cc < 16, x.stack.getD cc 0 < 420 ∧ x.cluster.getD cc 0 < 420 ∧ (s.stack (16 * half + cc)).crit = false) →
      Yields (.tidewatchLoop half false x) s fun t => ∃ v : State, v.sameButReadiness t ∧ v = { s with
          glb := v.glb, clusters := v.clusters, stks := v.stks, codecs := v.codecs, twcH := v.twcH, twc := v.twc }) ∧
    Yields (.overCurrent half) s fun t => t = { s with clusters := t.clusters, twc := t.twc } ∧
      t.twc = { s.twc with ocTrips := satAdd 32 s.twc.ocTrips 1 } ∧
      (∀ cc < 16, t.cluster (16 * half + cc) = { s.cluster (16 * half + cc) with mEff := 12 }) ∧
      ∀ k, k / 16 ≠ half → t.cluster k = s.cluster k)

/-- Telemetry of a half goes out every TELEM_MS, and from the half that keeps the part's registers that of each configured
berth, with the cycles it has used (R456, R528). The deadline monitor predicts the finish of each open slot of its half that
has not switched (R379, R380): in time, it notes the prediction; late, with passes to come and an alternate template, the
slot switches, the queue counts HALFBAKE and its vector is raised (R50). Other slots stay. -/
def Obligations.MonitorsReport : Prop :=
  (∀ (s : State) (half : Nat),
    (s.on = false ∨ s.twc.telemMs = 0 ∨ (s.half half).sinceTelem < s.twc.telemMs → exec (.telemetry half) s = .next s) ∧
    (s.on = true → s.twc.telemMs ≠ 0 → s.twc.telemMs ≤ (s.half half).sinceTelem → Yields (.telemetry half) s fun t =>
      t = { s with twcH := t.twcH, twc := t.twc, glb := t.glb, ports := t.ports, cwy := t.cwy, arbs := t.arbs
                   out := t.out, berths := t.berths } ∧
      (half ≠ partHalf s → t.berths = s.berths) ∧
      (t.half half).sinceTelem = 0 ∧
      .record half (recordBytes s half 0x26 0xFF (payHalf s half)) ∈ t.out ∧
      (half = partHalf s → ∀ b, (∃ y, (b, y) ∈ s.berths ∧ y.layout.configured = true) →
        (∃ v : State, .record half (recordBytes v half 0x27 b (payBerth v b)) ∈ t.out ∧ v.queues = s.queues) ∧
        ((s.berth b).layout.configured = true → ∀ c < 7,
          look 0 (t.berth b).cyclesSent c = look 0 (s.berth b).cycles c / 256)))) ∧
  (∀ (s : State) (half : Nat), (∀ b k, (look {} (s.berth b).reqs k).isOpen = false ∨
      (look {} (s.berth b).reqs k).switched = true ∨ queueHalf (look {} (s.berth b).reqs k).primary ≠ half) →
    exec (.deadlineEval half) s = .next s) ∧
  ∀ (s : State) (half b k p m : Nat) (r : Req), b ∈ s.berths.map (·.1) → (s.berths.map (·.1)).Nodup →
    k ∈ (s.berth b).reqs.map (·.1) → ((s.berth b).reqs.map (·.1)).Nodup →
    r = look {} (s.berth b).reqs k → predictReq r (slotNow s r) = (p, m) →
    (r.isOpen = false ∨ r.switched = true ∨ queueHalf r.primary ≠ half → Yields (.deadlineEval half) s fun t =>
      look {} (t.berth b).reqs k = r) ∧
    (r.isOpen = true → r.switched = false → queueHalf r.primary = half →
      (p ≤ r.deadline ∨ r.passes ≤ r.started ∨ r.altValid = false → Yields (.deadlineEval half) s fun t =>
        look {} (t.berth b).reqs k = { r with predict := min p (2 ^ 32 - 1) }) ∧
      (r.deadline < p → r.started < r.passes → r.altValid = true →
        Yields (.deadlineEval half) s fun t =>
          t = { s with berths := t.berths, queues := t.queues, glb := t.glb, out := t.out } ∧
          look {} (t.berth b).reqs k = { r with
            predict := min p (2 ^ 32 - 1), switched := true, switchPass := r.started
            stillLate := decide (r.deadline < if r.started = 0 then slotNow s r + r.passes * r.estCheap
              else r.ts + m + (r.passes - r.started) * r.estCheap) } ∧
          ((∀ c j, (c, j) ≠ (b, k) → (look {} (s.berth c).reqs j).isOpen = true →
              (look {} (s.berth c).reqs j).primary ≠ r.primary) →
            t.queue r.primary = raiseEvent 0x11 { s.queue r.primary with
              halfbake := satAdd 32 (s.queue r.primary).halfbake 1 })))

/-- Domain commands (R460, Table 19.12): one that arrives while another is in progress waits; one that may not be done is
refused and counted; gating takes the domain out of service, is done at once for a codec engine that is idle, a stack or a
domain already gated, and is else in progress until what the domain held is gone; an ungating is in progress until the
domain is back, a core's gated fabric with it. A command to ungate a core that the thermal rule has gated meanwhile ends
without it (the model's choice, log entry 64). Indices past the last domain are ignored (R3). -/
def Obligations.DomainsGateAndUngate : Prop :=
  ∀ (s : State) (d : Nat) (gate : Bool) (c : Instr), c = (if gate then .domainGate d else .domainUngate d) →
    (378 ≤ d → exec c s = .next s) ∧
    (d < 378 → (∃ e, s.twc.domBusy = some e) → Yields c s fun t =>
      ∃ v : State, v.sameButReadiness t ∧ v = { s with twc := { s.twc with domQ := s.twc.domQ ++ [(d, gate)] } }) ∧
    (∀ why, d < 378 → s.twc.domBusy = none → s.twc.domQ = [] → domainRefusal s d gate = some why → Yields c s fun t =>
      ∃ v : State, v.sameButReadiness t ∧ v = { s with twc := { s.twc with
        errDomain := d, errWhy := why, errRefused := satAdd 32 s.twc.errRefused 1 } }) ∧
    (s.twc.domBusy = none → s.twc.domQ = [] → domainRefusal s d gate = none →
      (gate = true → d < 378 → Yields c s fun t => ∃ v : State, v.sameButReadiness t ∧
        v = (if gatingDone (startGate d s) d then startGate d s
          else (startGate d s).modTwc (fun x => { x with domBusy := some d })) ∧
        bitOf t.twc.gated d = true ∧ t.mem = s.mem ∧ t.units = s.units) ∧
      (gate = true → 304 ≤ d → d < 352 → bitOf s.twc.gated d = false →
        (d < 320 → (s.codecEng ((d - 304) % 8)).busy = false) → Yields c s fun t =>
        ∃ v : State, v.sameButReadiness t ∧ v = { s with twc := { s.twc with
          gated := setBit s.twc.gated d true, ungating := s.twc.ungating.filter (· ≠ d) } }) ∧
      (gate = false → d < 378 → bitOf s.twc.gated d = true → Yields c s fun t =>
        ∃ v : State, v.sameButReadiness t ∧ v = { s with twc := { s.twc with
          domBusy := some d, ungating := (s.twc.ungating ++ ungateSet s d).eraseDups } }) ∧
      (gate = false → d < 378 → bitOf s.twc.gated d = false → Yields c s fun t => s.sameButReadiness t)) ∧
    (s.twc.ungating.contains d = false → s.twc.domBusy ≠ some d → exec (.domainUngateDone d) s = .next s) ∧
    (s.twc.ungating.contains d = false → s.twc.domBusy = some d →
      (bitOf s.twc.gated d = true → gatingDone s d = true → s.twc.domQ = [] → Yields (.domainUngateDone d) s fun t =>
        ∃ v : State, v.sameButReadiness t ∧ v = { s with twc := { s.twc with domBusy := none } }) ∧
      (bitOf s.twc.gated d = false ∨ gatingDone s d = false → exec (.domainUngateDone d) s = .next s)) ∧
    (s.twc.ungating.contains d = true → s.twc.domQ = [] → Yields (.domainUngateDone d) s fun t =>
      bitOf t.twc.gated d = false ∧ d ∉ t.twc.ungating ∧
      (d < 256 → s.twc.ungating.contains (256 + d / 8) = true → bitOf t.twc.gated (256 + d / 8) = false) ∧
      (∀ e, e ≠ d → e ≠ 256 + d / 8 → bitOf t.twc.gated e = bitOf s.twc.gated e) ∧
      (t.twc.domBusy = if s.twc.domBusy = some d then none else s.twc.domBusy) ∧ t.mem = s.mem ∧ t.units = s.units) ∧
    (304 ≤ d → d < 352 → s.twc.ungating.contains d = true → s.twc.domBusy = some d → s.twc.domQ = [] →
      Yields (.domainUngateDone d) s fun t => ∃ v : State, v.sameButReadiness t ∧ v = { s with twc := { s.twc with
        gated := setBit s.twc.gated d false, ungating := s.twc.ungating.filter (· ≠ d), domBusy := none } })

/-- Pinned trays that are parked and come back (R374, R376, R299): parking copies the tray's bytes to the berth's park
reserve and marks it 0x9, and a gating that waits for it goes on; its return copies them back and gives the tray to the owner
that its berth's image names; no byte of another tray differs. A tray that a kernel holds, or that nobody displaces, is not
parked, and none returns to a core that is not in service. -/
def Obligations.ParkedTraysKeepTheirBytes : Prop :=
  ∀ (s : State) (core tray b : Nat),
    (restsPinned s core tray = false ∨ bitOf s.twc.gated core = false ∧ preemptsTray s core tray = false →
      exec (.trayParkDone core tray) s = .next s) ∧
    (restsPinned s core tray = true → bitOf s.twc.gated core = true ∨ preemptsTray s core tray = true →
      exec (.trayParkDone core tray) s = .next (settle (checkGating (parkTray core tray s)))) ∧
    (b = (s.tray core tray).berth → restsPinned s core tray = true →
      bitOf s.twc.gated core = true ∨ preemptsTray s core tray = true → s.twc.domBusy = none →
      Yields (.trayParkDone core tray) s fun t =>
        t.tray core tray = { s.tray core tray with owner := 0x9, parkedBy := some b } ∧
        (∀ o < 131072, rdByte t.trays (parkKey b core tray + o) = rdByte s.trays (trayKey core tray 0 + o)) ∧
        (∀ a, a < parkKey b core tray ∨ parkKey b core tray + 131072 ≤ a → rdByte t.trays a = rdByte s.trays a) ∧
        t.mem = s.mem ∧ t.units = s.units ∧ t.queues = s.queues) ∧
    ((s.tray core tray).parkedBy = none ∨ (s.tray core tray).owner ≠ 0x9 ∨ coreInService s core = false →
      exec (.trayRestoreDone core tray) s = .next s) ∧
    ((s.tray core tray).parkedBy = some b → (s.tray core tray).owner = 0x9 → coreInService s core = true →
      Yields (.trayRestoreDone core tray) s fun t =>
        t.tray core tray = { s.tray core tray with
          owner := pinnedOwner s b core tray, berth := b, parkedBy := none } ∧
        (∀ o < 131072, rdByte t.trays (trayKey core tray 0 + o) = rdByte s.trays (parkKey b core tray + o)) ∧
        (∀ a, a < trayKey core tray 0 ∨ trayKey core tray 0 + 131072 ≤ a → rdByte t.trays a = rdByte s.trays a) ∧
        t.mem = s.mem ∧ t.units = s.units ∧ t.queues = s.queues)

/-- Operator commands on berths (R464, R61, R62, R358 to R361). One that arrives while another runs is not taken, but for
the argument that a command written to TWC_CMD waits for; all are refused while the boot chain runs. An admission starts a
proof check, whose verdict refuses the image with its reason or has the trays it pins scrubbed (R300) and then admits it. A
removal kills what the berth runs and frees it once nothing of it commits or migrates. A park kills, drops the pending
migrations, and leaves the berth parked with its record. A restore brings it back page by page. A kill ends the queue's
kernel with KILLED detail 7. -/
def Obligations.BerthCommandsAnswer : Prop :=
  (∀ (s : State) (b op : Nat) (c : Instr),
    (op = 1 ∧ (∃ img, c = .admission b img) ∨ op = 2 ∧ c = .remove b ∨ op = 3 ∧ c = .park b ∨
      op = 4 ∧ (∃ ps, c = .restore b ps) ∨ op = 5 ∧ ∃ q, c = .killQueue b q) →
    (s.on = false → exec c s = .next s) ∧
    (s.on = true → s.twc.cmdBusy = true →
      (s.twc.cmdAwait = false ∨ s.twc.lastOp ≠ op ∨ s.twc.cmdBerth ≠ b → exec c s = .next s) ∧
      (s.twc.cmdAwait = true → s.twc.lastOp = op → s.twc.cmdBerth = b → booting s = false →
        exec c s = exec c (s.modTwc (fun t => { t with cmdBusy := false, cmdAwait := false })))) ∧
    (s.on = true → s.twc.cmdBusy = false → booting s = true → Yields c s (s.commandDone op b 0xFF))) ∧
  (∀ (s : State) (b : Nat), s.on = true → s.twc.cmdBusy = false → booting s = false →
    (∀ img, (admitRefused s b img = true → Yields (.admission b img) s (s.commandDone 1 b 0xFF)) ∧
      (admitRefused s b img = false → Yields (.admission b img) s fun t => t = { s with twc := { s.twc with
        cmdBusy := true, lastOp := 1, cmdBerth := b, pendImage := some img } })) ∧
    ((s.berth b).image = none ∨ (s.berth b).parkState ≠ .live ∨ (s.berth b).removing ≠ 0 →
      Yields (.remove b) s (s.commandDone 2 b 0xFF)) ∧
    ((s.berth b).image ≠ none → (s.berth b).parkState = .live → (s.berth b).removing = 0 →
      exec (.remove b) s = .next (beginRemove b 1 7 (beginCmd 2 b s)) ∧
      ((∀ q ∈ berthQueues s b, killable (s.run q) = false) →
      (berthQuiet s b = false → Yields (.remove b) s fun t =>
        t = { s with berths := t.berths, twc := { s.twc with cmdBusy := true, lastOp := 2, cmdBerth := b } } ∧
        t.berth b = { s.berth b with removing := 1 }) ∧
      (berthQuiet s b = true → (s.berth b).parkRec = none → Yields (.remove b) s fun t =>
        (t.berth b).image = none ∧ (t.berth b).pages = [] ∧ (t.berth b).parkState = .live ∧
        (∀ d ∈ (s.imageOf b).queues, t.queue d.queue = {}) ∧ t.twc.cmdBusy = false ∧ t.twc.result = 0 ∧
        t.mem = s.mem ∧ t.units = s.units))) ∧
    (parkRefused s b = true → Yields (.park b) s (s.commandDone 3 b 0xFF)) ∧
    (parkRefused s b = false → exec (.park b) s = .next (beginPark b false (beginCmd 3 b s)) ∧
      ((∀ q ∈ berthQueues s b, killable (s.run q) = false) → (s.berth b).reqs = [] → (s.berth b).grps = [] →
        Yields (.park b) s fun t =>
        t = { s with berths := t.berths, twcH := t.twcH
                     twc := { s.twc with cmdBusy := true, lastOp := 3, cmdBerth := b } } ∧
        (t.berth b).parkState = .parking ∧ (t.berth b).image = (s.berth b).image ∧ (t.berth b).fenceParked = false)) ∧
    (∀ ps, restoreRefused s b ps = true → Yields (.restore b ps) s (s.commandDone 4 b 0xFF)) ∧
    (∀ ps r, restoreRefused s b ps = false → (s.berth b).parkRec = some r →
      (r.pages = [] → exec (.restore b ps) s = .next (settle (finishRestore b (reload b r ps (beginCmd 4 b s))))) ∧
      (r.pages ≠ [] → Yields (.restore b ps) s fun t => (t.berth b).parkState = .restoring ∧
        (t.berth b).parkRec = some r ∧ (t.berth b).retQ = r.pages.map (·.1) ∧ (t.berth b).slots = r.slots ∧
        t.twc.cmdBusy = true ∧ t.mem = s.mem)) ∧
    (∀ q, (s.queue q).berth ≠ b ∨ (s.queue q).state = .disabled → Yields (.killQueue b q) s (s.commandDone 5 b 0xFF)) ∧
    (∀ q, (s.queue q).berth = b → (s.queue q).state ≠ .disabled →
      (killable (s.run q) = false → Yields (.killQueue b q) s (s.commandDone 5 b 0)) ∧
      (killable (s.run q) = true → Yields (.killQueue b q) s fun t =>
        ∃ v : State, s.endedRun q 5 7 (lastWord (s.run q)) false v ∧ v.commandDone 5 b 0 t))) ∧
  (∀ (s : State) (pages : List Nat), s.twc.pendImage = none ∨ s.twc.pendScrub ≠ [] →
    exec (.proofCheckDone pages) s = .next s) ∧
  (∀ (s : State) (img : Image) (r p i : Nat) (pages : List Nat) (free : Bool), s.twc.pendImage = some img →
    s.twc.pendScrub = [] → proofCheck s s.twc.cmdBerth img = (r, p, i) →
    free = (pagesFit s (imagePages img) pages && (imageTrays img).all (fun x => (s.tray x.1 x.2.1).owner = 0)) →
    (s.twc.pendPages = none → r ≠ 0 → Yields (.proofCheckDone pages) s fun t =>
      t = { s with twcH := t.twcH, twc := t.twc, glb := t.glb, ports := t.ports, cwy := t.cwy, arbs := t.arbs
                   out := t.out } ∧
      t.twc.pendImage = none ∧ t.twc.cmdBusy = false ∧ t.twc.result = r ∧
      .record s.glb.chair (recordBytes s s.glb.chair 0x20 s.twc.cmdBerth (payAdmission r p i)) ∈ t.out) ∧
    (s.twc.pendPages.isSome = true ∨ r = 0 →
      (free = false → exec (.proofCheckDone pages) s = .next s) ∧
      (free = true → s.twc.pendPages = none → admitScrubs s s.twc.cmdBerth img ≠ [] →
        Yields (.proofCheckDone pages) s fun t => t = { s with cores := t.cores, twc := { s.twc with
          pendPages := some pages, pendScrub := admitScrubs s s.twc.cmdBerth img } } ∧
        ∀ c k, t.tray c k = if (c, k) ∈ admitScrubs s s.twc.cmdBerth img then
          { s.tray c k with scrubbing := true, scrubFor := s.twc.cmdBerth } else s.tray c k) ∧
      (free = true → s.twc.pendPages.isSome = true ∨ admitScrubs s s.twc.cmdBerth img = [] →
        Yields (.proofCheckDone pages) s fun t => t = finishAdmit s.twc.cmdBerth img pages s ∧
        (t.berth s.twc.cmdBerth).image = some img ∧ t.twc.pendImage = none ∧ t.twc.cmdBusy = false ∧
        t.twc.result = 0 ∧
        (∀ d ∈ img.queues, (t.queue d.queue).state = .idle ∧ (t.queue d.queue).berth = s.twc.cmdBerth) ∧
        ∀ d ∈ img.syncs, (t.sync d.sync).allocated = true ∧ (t.sync d.sync).berth = s.twc.cmdBerth))) ∧
  ∀ (s : State) (b : Nat),
    (parkReady s b = false → exec (.parkComplete b) s = .next s) ∧
    (parkReady s b = true → (s.berth b).fenceParked = true →
      exec (.parkComplete b) s = .next (fenceStep (finishPark b s))) ∧
    (parkReady s b = true → (s.berth b).fenceParked = false → Yields (.parkComplete b) s fun t =>
      t = finishCmd 0 (finishPark b s) ∧
      (t.berth b).parkState = .parked ∧ (t.berth b).parkRec.isSome = true ∧ (t.berth b).image = (s.berth b).image ∧
      (∀ d ∈ (s.imageOf b).queues, t.queue d.queue = {}) ∧ b ∈ t.trec.parks ∧ t.twc.cmdBusy = false ∧
      t.twc.result = 0) ∧
    ∀ v, ((s.berth b).retQ.head? ≠ some v ∨ (s.berth b).parkState ≠ .restoring ∨ s.shelf.mapReady = false →
        exec (.restorePageReturn b v) s = .next s) ∧
      ∀ rest dest, (s.berth b).retQ = v :: rest → (s.berth b).parkState = .restoring → s.shelf.mapReady = true →
      dest = (((s.berth b).retDest.find? (fun x => x.1 = v)).map (·.2)).getD 0 →
      (dest ∈ s.trec.retired → exec (.restorePageReturn b v) s = .next s) ∧
      (dest ∉ s.trec.retired → Yields (.restorePageReturn b v) s fun t =>
        (look {} (t.berth b).pages v).tier = (look {} (s.berth b).pages v).home ∧
        (look {} (t.berth b).pages v).phys = dest ∧
        (t.berth b).retQ = rest ∧ (rest ≠ [] → (t.berth b).parkState = .restoring) ∧
        (rest = [] → (t.berth b).parkState = .live ∧ (t.berth b).parkRec = none ∧ t.twc.cmdBusy = false ∧
          t.twc.result = 0))

/-- Countersigned change (R479 to R486). A half-ticket waits for its verification: the Operator's comes by the TICKET command,
or on VL7 to a half in SPLIT, the Custodian's on VL7. It is refused where the part holds no key for its party, where a
signature fails, and as the fifth of its half; a second one of the same party changes nothing; else it is pending, and with
the other party's the ticket goes to the other half once no operator command runs, or is refused with the code of the
first check that fails. The other half answers with its own verdict; what both accept is applied, and its SEQ taken. -/
def Obligations.TicketsAreCountersigned : Prop :=
  (∀ (s : State) (x : HalfTicket),
    (s.on = false → exec (.ticket x) s = .next s) ∧
    (s.on = true → s.twc.cmdBusy = true →
      (s.twc.cmdAwait = false ∨ s.twc.lastOp ≠ 6 ∨ s.twc.cmdBerth ≠ 0 → exec (.ticket x) s = .next s) ∧
      (s.twc.cmdAwait = true → s.twc.lastOp = 6 → s.twc.cmdBerth = 0 → Yields (.ticket x) s fun t => t = { s with
        twc := { s.twc with cmdAwait := false }
        sec := { s.sec with arrived := s.sec.arrived ++ [(x, s.glb.chair, viaCommand)] } })) ∧
    (s.on = true → s.twc.cmdBusy = false → booting s = true → Yields (.ticket x) s (s.commandDone 6 0 0xFF)) ∧
    (s.on = true → s.twc.cmdBusy = false → booting s = false → Yields (.ticket x) s fun t => t = { s with
      twc := { s.twc with cmdBusy := true, lastOp := 6, cmdBerth := 0 }
      sec := { s.sec with arrived := s.sec.arrived ++ [(x, s.glb.chair, viaCommand)] } }) ∧
    ∀ half src,
      (s.on = false ∨ s.fenced half = true ∨ x.party ≠ 2 ∧ (x.party ≠ 1 ∨ (s.half half).chair ≠ .split) →
        exec (.custodianHalfTicket half src x) s = .next s) ∧
      (s.on = true → s.fenced half = false → x.party = 2 ∨ x.party = 1 ∧ (s.half half).chair = .split →
        Yields (.custodianHalfTicket half src x) s fun t => t = { s with
        sec := { s.sec with arrived := s.sec.arrived ++ [(x, if (s.half half).chair = .split &&
          !((s.half 0).peerHb && (s.half 1).peerHb) then half else s.glb.chair, src % 65536)] } })) ∧
  (∀ s : State, s.sec.arrived = [] → exec .halfTicketVerified s = .next s) ∧
  (∀ (s : State) (x : HalfTicket) (h src : Nat) (rest : List (HalfTicket × Nat × Nat)) (v w : State),
    s.sec.arrived = (x, h, src) :: rest → v = { s with sec := { s.sec with arrived := rest } } →
    w = takeHalfTicket x h src v →
    exec .halfTicketVerified s = .next (sendPaired (w.sec.paired.length + 1) w) ∧
    (s.sec.paired = [] →
    (∀ code, code = (match partyKeys s x.body x.party with
        | none => 0x09
        | some k => if signedBy k x then 0x08 else 0x01) →
      (code = 8 → findTicket s h (ticketDigest x.body) = none ∧ 4 ≤ (s.sec.pend.filter (fun t => t.half = h)).length) →
      Yields .halfTicketVerified s fun t =>
        t.sec = { v.sec with lastResult := code, lastAction := x.body.action % 256
                             refused := satAdd 32 s.sec.refused 1 } ∧ t.twc.result = code) ∧
    ∀ k, partyKeys s x.body x.party = some k → signedBy k x = true →
      (findTicket s h (ticketDigest x.body) = none → (s.sec.pend.filter (fun t => t.half = h)).length < 4 →
        Yields .halfTicketVerified s fun t =>
          t.sec = { v.sec with pend := s.sec.pend ++ [{
            body := x.body, digest := ticketDigest x.body, half := h, oper := decide (x.party = 1)
            cust := decide (x.party ≠ 1), operHt := if x.party = 1 then some x else none
            custHt := if x.party = 1 then none else some x, custPart := if x.party = 1 then 0 else src }] } ∧
          .record h (recordBytes s h 0x10 0xFF (payTicket x.party (x.body.action % 256) x.body.seq (ticketDigest x.body))) ∈
            t.out) ∧
      ∀ p, findTicket s h (ticketDigest x.body) = some p →
        ((if x.party = 1 then p.oper else p.cust) = true → exec .halfTicketVerified s = .next (endTicketCmd src 0 v)) ∧
        ((if x.party = 1 then p.oper else p.cust) = false → (if x.party = 1 then p.cust else p.oper) = true →
          p.sent = false → s.twc.cmdBusy = false ∨ src = viaCommand →
        (ticketCode s h p ≠ 0 → Yields .halfTicketVerified s fun t => t.sec.lastResult = ticketCode s h p ∧
          t.sec.refused = satAdd 32 s.sec.refused 1 ∧ t.sec.seq = s.sec.seq ∧ t.sec.paired = [] ∧ t.berths = s.berths) ∧
        (ticketCode s h p = 0 → checksAlone s p = false → Yields .halfTicketVerified s fun t =>
          t.sec.paired = [(h, ticketDigest x.body)] ∧ .ticketTo (1 - h) p.body ∈ t.out ∧
          t.sec.pend = s.sec.pend.map (fun y => if y.half = h && y.digest = ticketDigest x.body then
            (if x.party = 1 then { p with oper := true, operHt := some x, sent := true }
              else { p with cust := true, custHt := some x, custPart := src, sent := true }) else y))))) ∧
  (∀ (s : State) (d : BitVec 384) (k : Ticket), s.sec.pend.find? (fun t => t.digest = d && !(t.oper && t.cust)) = some k →
    Yields (.ticketTimeout d) s (s.ticketEnded k 0x06)) ∧
  (∀ (s : State) (d : BitVec 384), s.sec.pend.find? (fun t => t.digest = d && !(t.oper && t.cust)) = none →
    exec (.ticketTimeout d) s = .next s) ∧
  (∀ s v : State, v = sendPaired (s.sec.paired.length + 1) s →
    (sentTicket v = none → exec .peerTicketCheck s = .next v) ∧
    (∀ k, sentTicket v = some k → k.peerSays.isSome = true ∨ (v.half (1 - k.half)).bootStage < 2 ∨
      (v.half (1 - k.half)).romReject = true ∨ (v.half (1 - k.half)).peerHb = false →
      exec .peerTicketCheck s = .next v) ∧
    (sentTicket s = none → exec .peerVerdict s = .next s ∧ exec .peerVerdictTimeout s = .next s) ∧
    ∀ k, sentTicket s = some k →
      (k.peerSays = none → exec .peerVerdict s = .next s) ∧
      (∀ u, u = endTicket k 0x07 s → exec .peerVerdictTimeout s = .next (sendPaired (u.sec.paired.length + 1) u)) ∧
      ∀ n u, k.peerSays = some n → u = (if n = 0 then applyTicket k false s
          else endTicket k (if n = 1 then 0x01 else 0x07) s) →
        exec .peerVerdict s = .next (sendPaired (u.sec.paired.length + 1) u)) ∧
  (∀ (s : State) (k : Ticket), s.sec.paired = [(k.half, k.digest)] → findTicket s k.half k.digest = some k →
    k.sent = true →
    (k.peerSays = none → (s.half (1 - k.half)).peerHb = true → (s.half (1 - k.half)).romReject = false →
      2 ≤ (s.half (1 - k.half)).bootStage → Yields .peerTicketCheck s fun t => t = { s with sec := { s.sec with
        pend := s.sec.pend.map (fun z => if z.half = k.half && z.digest = k.digest then { z with
          peerSays := some (if fourSigned s k then ticketCode s (1 - k.half) k else 0x01) } else z) } }) ∧
    Yields .peerVerdictTimeout s (s.ticketEnded k 0x07) ∧
    (∀ n, k.peerSays = some n → n ≠ 0 → Yields .peerVerdict s (s.ticketEnded k (if n = 1 then 0x01 else 0x07))) ∧
    (k.peerSays = some 0 → Yields .peerVerdict s fun t =>
      t.sec.seq = k.body.seq ∧ t.trec.seq = k.body.seq ∧ t.sec.lastResult = 0 ∧ t.sec.refused = s.sec.refused ∧
      t.sec.paired = [] ∧
      (k.body.action = 1 → t.trec.layouts = resulting s k.body.payload ∧ t.glb.crustSplit = payAt k.body.payload 2 2 ∧
        t.glb.crumbSplit = payAt k.body.payload 4 2) ∧
      (k.body.action = 2 → ∀ b, b = payAt k.body.payload 0 1 →
        (t.berth b).layout = { (s.berth b).layout with
          shareMin := payAt k.body.payload 1 2, shareMax := payAt k.body.payload 3 2 } ∧
        (t.berth b).share = max (payAt k.body.payload 1 2) (min (payAt k.body.payload 3 2) (s.berth b).share)) ∧
      (k.body.action = 3 → t.sec.level = payAt k.body.payload 4 1 ∧
        t.sec.debugBerths = BitVec.ofNat 32 (payAt k.body.payload 0 4)) ∧
      (k.body.action = 5 → payAt k.body.payload 0 1 = 0 → t.trec.fence0 = false ∧ (t.half 0).bootStage = 0 ∧
        (t.half 0).chair = .boot) ∧
      (k.body.action = 6 → (t.half 0).chair = .agreed ∧ (t.half 1).chair = .agreed) ∧
      (k.body.action = 7 → t.sec.operKeys = (keysIn k.body.payload 1).orElse (fun _ => s.sec.operKeys) ∧
        t.sec.custKeys = (keysIn k.body.payload 2).orElse (fun _ => s.sec.custKeys)))) ∧
  ∀ s : State, Yields .relock s fun t => t = { s with sec := t.sec, dbg := t.dbg, out := t.out } ∧
    t.sec = { s.sec with level := 0, debugBerths := 0 } ∧ (s.sec.level = 0 → t.dbg = s.dbg ∧ t.out = s.out)

/-- Power and clocks (R23, R24, R516, R517, R521): each stage of the power entry follows the one before it and none comes
out of turn; loss of root lock stops the clocks, halts the commits and landed kernels, kills the rest and takes the ports
down; at most three attempts follow; a lock starts the clocks unthrottled, and the halted commits go on with the SerDes
lock. Under-voltage and a thermal trip lose all but the Shelf, the record and what is parked, after the commits cut short
are journalled. Resets (R46, R465, R529): RESET is refused, with LAST_OP and RESULT, while the boot chain runs and while the
part is too hot after a trip; it waits for a commit that has begun, and resets the part otherwise; a fundamental reset
through the host link resets it too, and the function's MSI-X table and HDM decoders with it. -/
def Obligations.PowerAndResetsFollowTheirSequence : Prop :=
  (∀ s : State,
    (s.clk.power = .off → Yields .vinQualified s fun t => t = { s with clk := { s.clk with power := .qualified } }) ∧
    (s.clk.power ≠ .off → exec .vinQualified s = .next s) ∧
    (s.clk.power = .qualified → Yields .regulatorsGood s fun t =>
      t = { s with clk := { s.clk with power := .alwaysOn } }) ∧
    (s.clk.power ≠ .qualified → exec .regulatorsGood s = .next s) ∧
    (s.on = true → s.glb.rootLock = false → s.glb.trip = false → s.clk.relockFailed = false →
      Yields .rootPllLocked s fun t => t = { s with
        glb := { s.glb with rootLock := true, sOnRoot := true }
        clk := { s.clk with fOn := true, aOn := true, kOn := true }
        clusters := t.clusters } ∧
        ∀ k, t.cluster k = if k < 32 then { s.cluster k with mEff := 0 } else s.cluster k) ∧
    (s.on = false ∨ s.glb.rootLock = true ∨ s.glb.trip = true ∨ s.clk.relockFailed = true →
      exec .rootPllLocked s = .next s) ∧
    (s.on = true → s.glb.rootLock = true → s.clk.serdes = false → Yields .serdesPllLocked s fun t =>
      ∃ u : State, t = resumeCommits u ∧ ((∀ q, (s.run q).halted = false) → t = u) ∧
      u = { s with clk := { s.clk with serdes := true }, ports := u.ports } ∧
      (∀ p, (s.port p).enable = true → s.fenced (portHalf p) = false → bitOf s.twc.gated (portDomain p) = false →
        (s.port p).state = .off ∨ (s.port p).state = .down →
        u.port p = { s.port p with state := .training, locked := 0 }) ∧
      ∀ p, (s.port p).enable = false → u.port p = s.port p) ∧
    (s.on = false ∨ s.glb.rootLock = false ∨ s.clk.serdes = true → exec .serdesPllLocked s = .next s) ∧
    (s.glb.rootLock = true → Yields .rootPllLockLoss s fun t =>
      t.glb.rootLock = false ∧ t.glb.sOnRoot = false ∧ t.glb.clkFault = true ∧ t.glb.relockCount = 0 ∧
      t.glb.linkWidth = 0 ∧ t.clk = { s.clk with fOn := false, aOn := false, kOn := false, serdes := false } ∧
      t.mem = s.mem ∧ t.units = s.units ∧
      (∀ q, (s.run q).phase = .committing ∨ (s.run q).landed = true → (t.run q).halted = true ∧
        (t.run q).phase = (s.run q).phase ∧ (t.run q).held = (s.run q).held) ∧
      ∀ p, (t.port p).state ≠ .up) ∧
    (s.glb.rootLock = false → exec .rootPllLockLoss s = .next s) ∧
    (∀ locked, s.on = true → s.glb.clkFault = true → s.glb.rootLock = false → s.clk.relockFailed = false →
      s.glb.trip = false → s.glb.relockCount < 3 → Yields (.relockAttempt locked) s fun t =>
        t.glb.relockCount = s.glb.relockCount + 1 ∧ t.glb.rootLock = locked ∧ t.clk.fOn = (locked || s.clk.fOn) ∧
        (locked = true → ∀ k < 32, (t.cluster k).mEff = 0) ∧
        t.clk.relockFailed = (!locked && decide (s.glb.relockCount = 2)) ∧
        t.trec.interrupted = s.trec.interrupted ++
          (if locked = false ∧ s.glb.relockCount = 2 then interruptedBy 1 s else [])) ∧
    (∀ locked, s.on = false ∨ s.glb.clkFault = false ∨ s.glb.rootLock = true ∨ s.clk.relockFailed = true ∨
      s.glb.trip = true ∨ 3 ≤ s.glb.relockCount → exec (.relockAttempt locked) s = .next s) ∧
    (∀ c trip sensor, (c = .underVoltage ∧ trip = false ∨ c = .thermalTrip sensor ∧ trip = true) →
      (s.on = false ∨ trip = true ∧ s.glb.trip = true → exec c s = .next s) ∧
      (s.on = true → (trip = true → s.glb.trip = false) → Yields c s fun t =>
        t.trec = { s.trec with
          interrupted := s.trec.interrupted ++ interruptedBy 2 s, uvEvents := t.trec.uvEvents, trips := t.trec.trips } ∧
        (if trip then t.trec.trips = satAdd 32 s.trec.trips 1 ∧ t.glb.trip = true ∧ t.glb.tripSensor = sensor % 64
          else t.trec.uvEvents = satAdd 32 s.trec.uvEvents 1 ∧ t.clk.power = .holdup) ∧
        t.queues = [] ∧ t.runs = [] ∧ t.syncs = [] ∧ t.cores = [] ∧ t.hbr = [] ∧ t.ports = [] ∧
        t.shelf = { s.shelf with map := [], mapReady := false } ∧
        t.glb.rootLock = false ∧ t.clk.fOn = false ∧ t.clk.aOn = false ∧ t.clk.kOn = false ∧
        ∀ a, rdByte t.mem a = if 2 ^ 44 ≤ a then rdByte s.mem a else 0)) ∧
    (s.clk.power = .holdup → Yields .holdupEnd s fun t =>
      t.clk = {} ∧ t.glb = {} ∧ t.twc = {} ∧ t.queues = [] ∧ t.runs = [] ∧ t.trec = s.trec ∧ t.mem = s.mem ∧
      t.units = s.units ∧ t.trays = s.trays ∧ t.sec = { secverMin := s.sec.secverMin } ∧
      t.shelf.blocks = s.shelf.blocks ∧ t.shelf.mapReady = false) ∧
    (s.clk.power ≠ .holdup → exec .holdupEnd s = .next s)) ∧
  (∀ s : State, s.on = false → exec .reset s = .next s ∧ exec .fundamentalReset s = .next s) ∧
  ∀ s : State, s.on = true →
    (s.twc.cmdBusy = true → exec .reset s = .next s) ∧
    (s.twc.cmdBusy = false → booting s = true ∨ s.glb.trip = true ∧ allCool s = false → Yields .reset s fun t =>
      t = { s with twc := { s.twc with
        lastOp := 7, result := 0xFF, cmdDone := wrapAdd 32 s.twc.cmdDone 1 } }) ∧
    (s.twc.cmdBusy = false → booting s = false → s.glb.trip = false ∨ allCool s = true →
      (resetHeld s = true → Yields .reset s fun t => t = { s with twc := { s.twc with
        cmdBusy := true, lastOp := 7, resetWait := 1 } }) ∧
      (resetHeld s = false → Yields .reset s fun t =>
        s.partWasReset t ∧ t.glb.trip = false ∧ t.glb.msix = s.glb.msix ∧ t.glb.msixEnable = s.glb.msixEnable)) ∧
    (resetHeld s = true → Yields .fundamentalReset s fun t => t = { s with twc := { s.twc with resetWait := 2 } }) ∧
    (resetHeld s = false → Yields .fundamentalReset s fun t => s.partWasReset t ∧
      t.glb.trip = (s.glb.trip && !allCool s) ∧ t.glb.msix = [] ∧ t.glb.msixEnable = false ∧ t.glb.hdm = [])

/-- The boot chain of a half (R471 to R476, R466): a stage that takes images takes copy A, else copy B, and measures what it
takes; where neither is accepted the half stays in its ROM, unmeasured. Stage 5 loads the record; stage 7 closes the keys.
Once both halves are through it, hear each other, measured the same and claim the chair rightly, both enter AGREED and
the interrupted commits are reported (R467, R517). -/
def Obligations.BootStagesMeasureAndLoad : Prop :=
  (∀ (s : State) (h : Nat) (a b ca cb : Firmware), s.on = false ∨ (s.half h).romReject = true ∨
    7 ≤ (s.half h).bootStage ∨ 2 ≤ (s.half h).bootStage ∧ s.glb.sOnRoot = false →
    exec (.bootStageDone h a b ca cb) s = .next s) ∧
  (∀ (s : State) (h n : Nat) (a b ca cb : Firmware), h < 2 → s.on = true → (s.half h).romReject = false →
    n = (s.half h).bootStage + 1 → (3 ≤ n → s.glb.sOnRoot = true) →
    (n = 1 → Yields (.bootStageDone h a b ca cb) s fun t =>
      (t.half h).bootStage = 1 ∧ (t.half h).secretLocked = true ∧ (t.half h).devKeys = true) ∧
    (∀ f g sec sec', n = 2 ∧ chooseCopy s 1 a b = some (f, sec) ∧ g = f ∧ sec' = sec ∨
        n = 3 ∧ chooseCopy s 2 a b = some (f, sec) ∧ chooseCopy s 4 ca cb = some (g, sec') ∨
        n = 4 ∧ loadsShelf s h = true ∧ chooseCopy s 3 a b = some (f, sec) ∧ g = f ∧ sec' = sec →
      Yields (.bootStageDone h a b ca cb) s fun t => (t.half h).bootStage = n ∧ (t.half h).romReject = false ∧
        t.meas h (n - 2) = Config.sha384 (leBytes 48 (s.meas h (n - 2)).toNat ++ leBytes 48 f.digest.toNat) ∧
        (n = 3 → t.meas h 3 = Config.sha384 (leBytes 48 (s.meas h 3).toNat ++ leBytes 48 g.digest.toNat)) ∧
        (n = 2 → (t.half h).raise = (s.half h).raise ++ if f.raise then [(1, f.secver)] else []) ∧
        (n = 4 → t.shelf.mapReady = true)) ∧
    (n = 2 ∧ chooseCopy s 1 a b = none ∨
        n = 3 ∧ (chooseCopy s 2 a b = none ∨ chooseCopy s 4 ca cb = none) ∨
        n = 4 ∧ loadsShelf s h = true ∧ chooseCopy s 3 a b = none →
      Yields (.bootStageDone h a b ca cb) s fun t => t = { s with twcH := t.twcH, dbg := t.dbg, out := t.out } ∧
        t.half h = { s.half h with romReject := true }) ∧
    (n = 4 ∧ loadsShelf s h = false ∨ n = 6 → Yields (.bootStageDone h a b ca cb) s fun t =>
      (t.half h).bootStage = n ∧ t.shelf = s.shelf) ∧
    (n = 5 → Yields (.bootStageDone h a b ca cb) s fun t =>
      (t.half h).bootStage = 5 ∧ t.glb.h0Fenced = s.trec.fence0 ∧ t.glb.h1Fenced = s.trec.fence1 ∧
      t.glb.crustSplit = s.trec.crustSplit ∧ t.glb.crumbSplit = s.trec.crumbSplit ∧ t.sec.seq = s.trec.seq ∧
      t.sec.operKeys = s.trec.operKeys ∧ t.sec.custKeys = s.trec.custKeys) ∧
    (n = 7 → Yields (.bootStageDone h a b ca cb) s fun t =>
      (t.half h).bootStage = 7 ∧ (t.half h).keyClosed = true ∧
      (t.half h).aliasKeys = if h = s.glb.chair then some (cdiOf s h) else none) ∧
    (n = 7 → (s.half (1 - h)).bootStage = 7 →
      (∀ i < 2, (s.half i).peerHb = true ∧ (s.half i).chair = .boot ∧ (s.half i).claim = claims s i) →
      s.meas 0 0 = s.meas 1 0 → s.fenced 0 = false → s.fenced 1 = false → Yields (.bootStageDone h a b ca cb) s fun t =>
        (∀ i < 2, (t.half i).chair = .agreed) ∧ t.glb.h0Up = true ∧ t.glb.h1Up = true ∧ t.sec.measMatch = true ∧
        t.trec.interrupted = [])) ∧
  ∀ (s : State) (h : Nat) (claim : Bool) (st : Nat) (m : BitVec 384),
    (s.on = false ∨ (s.half h).romReject = true ∨ (s.half h).bootStage < 5 →
      exec (.isthmusHeartbeatSend h) s = .next s ∧ exec (.isthmusHeartbeat h claim st m) s = .next s) ∧
    (s.on = true → (s.half h).romReject = false → 5 ≤ (s.half h).bootStage →
      (Yields (.isthmusHeartbeatSend h) s fun t => t = { s with out := Out.isthmus h [boolNat (s.half h).claim,
        chairCode (s.half h).chair, (s.meas h 0).toNat] :: s.out }) ∧
      ((s.half h).chair = .alone → st = 2 → exec (.isthmusHeartbeat h claim st m) s = .next s) ∧
      (∀ v w, v = s.setHalf h { s.half h with peerHb := true, peerM0 := some m } →
        w = (if (s.half h).peerM0 = none ∧ m ≠ s.meas h 0 then reportFrom h "!MEAS" v else v) →
        ((s.half h).chair = .boot → exec (.isthmusHeartbeat h claim st m) s = .next (checkAgree w)) ∧
        ((s.half h).chair = .split ∨ (s.half h).chair = .alone ∧ st ≠ 2 ∨
          (s.half h).chair = .agreed ∧ claim = !(s.half h).claim ∧ st ≠ 2 →
          exec (.isthmusHeartbeat h claim st m) s = .next w) ∧
        ∀ cause, (s.half h).chair = .agreed →
          cause = (if (s.half h).claim = claim then (if claim then 1 else 2) else 5) → (cause = 5 → st = 2) →
          exec (.isthmusHeartbeat h claim st m) s = .next (enterSplit h cause w) ∧
          Yields (.isthmusHeartbeat h claim st m) s (v.splitBy h cause))) ∧
    (∀ v, v = s.setHalf h { s.half h with
        peerHb := false, mH := if (s.half h).peerHb then s.twc.mP else (s.half h).mH } →
      ((s.half h).chair = .agreed → Yields (.isthmusHeartbeatLost h) s (v.splitBy h 3)) ∧
      ((s.half h).chair ≠ .agreed → Yields (.isthmusHeartbeatLost h) s (· = v))) ∧
    ((s.half h).chair = .boot → (s.half h).bootStage = 7 → (s.half h).peerHb = false → s.fenced 0 = false →
      s.fenced 1 = false → Yields (.bootHeartbeatTimeout h) s (s.splitBy h 4)) ∧
    ((s.half h).chair ≠ .boot ∨ (s.half h).bootStage ≠ 7 ∨ (s.half h).peerHb = true ∨ s.fenced 0 = true ∨
      s.fenced 1 = true → exec (.bootHeartbeatTimeout h) s = .next s)

/-- Ports (R390, R407, R408, R28): ENABLE starts the training of a port that can train, or its draining; the fenced half's
ports stay. A trained port starts its link at number 0 and sends what waits; a drained one goes off, its queued packets
take other routes, and it trains again where it is enabled; a drain that a fence waits for moves the fence on. A write of a
route reaches the tables of the halves in service. -/
def Obligations.PortsFollowTheirStates : Prop :=
  ∀ (s : State) (p : Nat),
    (s.fenced (portHalf p) = true → exec (.portEnable p) s = .next s ∧ exec (.portDisable p) s = .next s) ∧
    (s.fenced (portHalf p) = false →
      (Yields (.portEnable p) s fun t => s.onlyPort p t ∧ t.port p =
        if portPowered s p ∧ ((s.port p).state = .off ∨ (s.port p).state = .down)
        then { s.port p with enable := true, state := .training, locked := 0 } else { s.port p with enable := true }) ∧
      exec (.portDisable p) s = .next (drainPort p (s.setPort p { s.port p with enable := false })) ∧
      ((s.port p).state = .off ∨ (s.port p).state = .draining → Yields (.portDisable p) s fun t => s.onlyPort p t ∧
        t.port p = { s.port p with enable := false }) ∧
      ((s.port p).state = .up → Yields (.portDisable p) s fun t => s.onlyPort p t ∧
        t.port p = { s.port p with enable := false, state := .draining }) ∧
      ((s.port p).state = .training ∨ (s.port p).state = .down → (s.port p).txq = [] → Yields (.portDisable p) s fun t =>
        s.onlyPort p t ∧ t.port p = { s.port p with enable := false, state := .off, locked := 0, unacked := [] })) ∧
    (∀ peer pp x, x = { s.port p with
        state := .up, locked := 0xFF, peerPart := peer, peerPort := pp, txNext := 0, unacked := [], rxNext := 0
        sinceAck := 0, rxHold := false, nakNum := 0, nakRun := 0, credit := [], freed := [] } →
      (s.port p).state = .training → portPowered s p = true →
      exec (.portTrained p peer pp) s = .next (sendPort p (s.port p).txq.length (s.setPort p x)) ∧
      ((s.port p).txq = [] → Yields (.portTrained p peer pp) s fun t => s.onlyPort p t ∧ t.port p = x)) ∧
    (∀ peer pp, (s.port p).state ≠ .training ∨ portPowered s p = false → exec (.portTrained p peer pp) s = .next s) ∧
    ((s.port p).state = .draining →
      (s.twc.fencing = some (portHalf p, true) →
        exec (.drainEnd p) s = .next (fenceStep (checkGating (portOff p s)))) ∧
      (s.twc.fencing ≠ some (portHalf p, true) →
        exec (.drainEnd p) s = .next (checkGating (trainPort p (portOff p s))) ∧
        (s.twc.domBusy = none → (s.port p).txq = [] → Yields (.drainEnd p) s fun t => s.onlyPort p t ∧
          t.port p = { s.port p with locked := 0, unacked := []
                                     state := if (s.port p).enable && portPowered s p then .training else .off }))) ∧
    ((s.port p).state ≠ .draining → exec (.drainEnd p) s = .next s) ∧
    ∀ v, Yields (.routeEntryWrite v) s fun t => t = { s with cwy := { s.cwy with routes := t.cwy.routes } } ∧
      ∀ k, ((∃ h < 2, s.fenced h = false ∧ k = routeKey h s.cwy.rtVl s.cwy.rtDst) → look {} t.cwy.routes k =
          { primary := field v 0 6, priValid := bit v 6, alt := field v 8 6, altValid := bit v 14 }) ∧
        ((∀ h < 2, s.fenced h = false → k ≠ routeKey h s.cwy.rtVl s.cwy.rtDst) →
          look {} t.cwy.routes k = look {} s.cwy.routes k)

/-- The link layer (R391 to R396): loss of a lane's lock, a stalled acknowledgement and the 16th LINK_NAK in a row take an UP
port down, whose queued packets take other routes; an uncorrectable codeword is answered by one LINK_NAK until the retry;
LINK_ACK frees the retry buffer and returns credit, with which what waits goes out; LINK_NAK sends flits again, each with
its number and block; what is accepted is acknowledged. A port that carries nothing takes neither. -/
def Obligations.LinksAcknowledgeAndRetry : Prop :=
  ∀ (s : State) (p : Nat),
    (∀ lane x, x = { s.port p with locked := setBit (s.port p).locked lane false } →
      exec (.laneLockLoss p lane) s = .next (goDown p (s.setPort p x)) ∧
      ((s.port p).state ≠ .up → Yields (.laneLockLoss p lane) s fun t => s.onlyPort p t ∧ t.port p = x)) ∧
    ((s.port p).unacked = [] → exec (.ackStall p) s = .next s) ∧
    ((s.port p).unacked ≠ [] → exec (.ackStall p) s = .next (goDown p s)) ∧
    (∀ n again run x, again = (s.port p).unacked.dropWhile (·.1 ≠ n) →
      run = (if (s.port p).nakNum = n then (s.port p).nakRun + 1 else 1) → carries s p = true →
      x = { s.port p with nakNum := n, nakRun := run, txFlits := wrapAdd 64 (s.port p).txFlits again.length } →
      (16 ≤ run → exec (.linkNak p n) s = .next (goDown p (s.setPort p x))) ∧
      (run < 16 → Yields (.linkNak p n) s fun t =>
        t = { s with ports := t.ports, out := if again = [] then s.out else Out.flits p (again.map (·.2)) :: s.out } ∧
        (∀ j, j ≠ p → t.port j = s.port j) ∧ t.port p = x)) ∧
    (∀ x train, train = ((s.port p).enable && portPowered s p) → (s.port p).state = .up → (s.port p).txq = [] →
      (∀ lane, x = { s.port p with locked := setBit (s.port p).locked lane false } →
        Yields (.laneLockLoss p lane) s fun t => s.onlyPort p t ∧ t.port p = x.downed train) ∧
      (x = s.port p → (s.port p).unacked ≠ [] →
        Yields (.ackStall p) s fun t => s.onlyPort p t ∧ t.port p = x.downed train) ∧
      (∀ n again, again = (s.port p).unacked.dropWhile (·.1 ≠ n) → n = (s.port p).nakNum → 15 ≤ (s.port p).nakRun →
        x = { s.port p with txFlits := wrapAdd 64 (s.port p).txFlits again.length } →
        Yields (.linkNak p n) s fun t => s.onlyPort p t ∧ t.port p = x.downed train)) ∧
    (Yields (.codewordUncorrectable p) s fun t => t = { s with ports := t.ports, out := t.out } ∧
      (∀ j, j ≠ p → t.port j = s.port j) ∧
      (carries s p = true ∧ (s.port p).rxHold = false → t.out = Out.link p true (s.port p).rxNext 0 :: s.out ∧
        t.port p = { s.port p with rxHold := true, retries := satAdd 32 (s.port p).retries 1
                                   fecUncorr := satAdd 32 (s.port p).fecUncorr 1 }) ∧
      (¬(carries s p = true ∧ (s.port p).rxHold = false) → t.out = s.out ∧
        t.port p = { s.port p with fecUncorr := satAdd 32 (s.port p).fecUncorr 1 })) ∧
    (carries s p = false → ∀ n c, exec (.linkAck p n c) s = .next s ∧ exec (.linkNak p n) s = .next s ∧
      exec (.linkAckTimer p) s = .next s) ∧
    ((s.port p).sinceAck = 0 → exec (.linkAckTimer p) s = .next s) ∧
    (carries s p = true →
      (∀ n c, ∃ x : Port, exec (.linkAck p n c) s = .next (sendPort p (s.port p).txq.length (s.setPort p x)) ∧
        ((s.port p).txq = [] → exec (.linkAck p n c) s = .next (s.setPort p x)) ∧
        x = { s.port p with unacked := afterNumber (s.port p).unacked n, credit := x.credit } ∧
        ∀ vl < 8, look 0 x.credit vl = look 0 (s.port p).credit vl - 16 * field c (4 * vl) 4) ∧
      (0 < (s.port p).sinceAck → Yields (.linkAckTimer p) s fun t => t = { s with ports := t.ports, out := t.out } ∧
        (∀ j, j ≠ p → t.port j = s.port j) ∧
        (∃ c, t.out = Out.link p false (((s.port p).rxNext + 4095) % 4096) c :: s.out) ∧
        t.port p = { s.port p with sinceAck := 0, freed := (t.port p).freed }))

/-- Requests at their target (R399 to R404, Table 16.5). A duplicate is answered as before; a full filter leaves the request
alone, counted; the first check that fails is answered with its reason; a request that applies is answered with ACK. A
WRITE changes the bytes that it names and no others, clears no mark but of units it covers, marks units where its data is
poisoned, and is turned away where it would change part of an uncorrectable unit; an ATOMIC changes one word, and is
turned away from a marked or unreachable unit; a signal changes its sync object, a doorbell its queue's TAIL; a READ is
answered with the bytes that a reader sees, poisoned where a unit is marked. A masked write into a poisoned unit leaves it
(R424). Two points are the model's reading: that a full filter leaves a READ alone too (notes/assumptions/55.md), and that
a request which would allot a Harbour line where none may be allotted is left unanswered (notes/assumptions/90.md). -/
def Obligations.RequestsAreServed : Prop :=
  ∀ (s : State) (half : Nat) (p : Packet) (v : State), v = arrive p s →
    (∀ c, c = .write half p ∨ c = .signalAdd half p ∨ c = .signalSet half p ∨ c = .doorbell half p ∨
        c = .atomic half p ∧ atomicLegal p = true →
      (∀ e, v.cwy.filter.find? (filterHit half p) = some e → Yields c s (· = route half e.answer v)) ∧
      (v.cwy.filter.find? (filterHit half p) = none →
        65536 ≤ (v.cwy.filter.filter (fun e => e.half = half)).length → Yields c s fun t =>
          t = { v with cwy := { v.cwy with filterFull := satAdd 32 v.cwy.filterFull 1 } }) ∧
      ∀ r, v.isNew half p → targetCheck v half p = .error r →
        Yields c s (· = route half (answerTo v p 0x9 r) v)) ∧
    (atomicLegal p = false → Yields (.atomic half p) s (· = countBad (p.port.getD (32 * half)) v)) ∧
    (65536 ≤ (v.cwy.filter.filter (fun e => e.half = half)).length → Yields (.read half p) s fun t =>
      t = { v with cwy := { v.cwy with filterFull := satAdd 32 v.cwy.filterFull 1 } }) ∧
    (∀ r, (v.cwy.filter.filter (fun e => e.half = half)).length < 65536 → targetCheck v half p = .error r →
      Yields (.read half p) s (· = route half (answerTo v p 0x9 r) v)) ∧
    ∀ b, targetCheck v half p = .ok b →
      (∀ ps, ps = unitPieces p.addr p.length (List.replicate p.length 0) →
        (v.cwy.filter.filter (fun e => e.half = half)).length < 65536 → Yields (.read half p) s fun t =>
        ∃ w, w = { v with hbr := w.hbr } ∧ t = route half { answerTo v p 0x3 0 with
          data := ps.flatMap (fun q => v.spotBytes b (v.spot b q.1) q.2.length), length := p.length
          poison := ps.any (fun q => v.markAt b (v.spot b q.1) ≠ .good) } w) ∧
      (v.isNew half p →
        (∀ c n, c = .write half p ∧ n = p.length ∨ c = .atomic half p ∧ atomicLegal p = true ∧
            n = (if p.wide64 then 8 else 4) →
          (unitPieces p.addr n (List.replicate n 0)).any (fun q => v.spotBarred b q.1) = true → exec c s = .next v) ∧
        (∀ bs, bs = p.data.take p.length →
          (unitPieces p.addr p.length (List.replicate p.length 0)).any (fun q => v.spotBarred b q.1) = false →
          (maskedBad v b p.addr bs = true → Yields (.write half p) s (· = route half (answerTo v p 0x9 0x7) v)) ∧
          (maskedBad v b p.addr bs = false →
            (p.poison = true →
              Yields (.write half p) s (· = (poisonRange b p.addr bs.length v).acked half p)) ∧
            (p.poison = false → Yields (.write half p) s (· = (v.poke b p.addr bs).2.acked half p)) ∧
            (∀ pa, v.spot b p.addr = .stack pa → 0 < p.length → p.addr % 32 + p.length ≤ 32 →
              p.length ≤ p.data.length →
              (p.poison = false → (look .good v.units (pa / 32) = .good ∨ p.length = 32) →
                Yields (.write half p) s fun t => ∃ w : State, t = w.acked half p ∧
                w = { v with mem := w.mem, delivered := w.delivered, units := w.units, berths := w.berths, hbr := w.hbr } ∧
                (∀ a, w.memByte a = if pa ≤ a ∧ a < pa + p.length then p.data.getD (a - pa) 0 else v.memByte a) ∧
                look .good w.units (pa / 32) = .good ∧
                ∀ u, u ≠ pa / 32 → look .good w.units u = look .good v.units u) ∧
              (p.poison = false → look .good v.units (pa / 32) = .poison → p.length < 32 →
                Yields (.write half p) s (· = v.acked half p)) ∧
              (p.poison = true → p.addr % 32 = 0 → Yields (.write half p) s fun t => ∃ w : State, t = w.acked half p ∧
                look .good w.units (pa / 32) = .poison ∧ (∀ a, pa ≤ a ∧ a < pa + 32 → w.memByte a = 0) ∧
                ∀ u, u ≠ pa / 32 → look .good w.units u = look .good v.units u)) ∧
            ∀ home va, v.spot b p.addr = .mooring home va → 0 < p.length → p.addr % 32 + p.length ≤ 32 →
              p.length ≤ p.data.length → p.poison = false →
              v.markAt b (.mooring home va) = .good ∨ p.length = 32 → Yields (.write half p) s fun t =>
              ∃ w : State, t = w.acked half p ∧ w.mem = v.mem ∧ w.markAt b (.mooring home va) = .good ∧
                ∀ a, rdByte w.moor a = if moorKey b va ≤ a ∧ a < moorKey b va + p.length then
                  p.data.getD (a - moorKey b va) 0 else rdByte v.moor a)) ∧
        (∀ l n, l = v.spot b p.addr → n = (if p.wide64 then 8 else 4) → atomicLegal p = true →
          (unitPieces p.addr n (List.replicate n 0)).any (fun q => v.spotBarred b q.1) = false →
          (v.spotDead l = true ∨ v.markAt b l ≠ .good →
            Yields (.atomic half p) s (· = route half (answerTo v p 0x9 0x7) v)) ∧
          (v.spotDead l = false → v.markAt b l = .good → Yields (.atomic half p) s fun t => ∃ w : State,
            t = w.acked half p ∧
            w = { v with mem := w.mem, delivered := w.delivered, moor := w.moor, berths := w.berths, hbr := w.hbr } ∧
            (∀ pa, l = .stack pa → w.moor = v.moor ∧ ∀ a, w.memByte a = if pa ≤ a ∧ a < pa + n then
                (leBytes n (atomWord p.op (8 * n) (leNat (v.spotBytes b l n)) p.operand (leNat p.data))).getD (a - pa) 0
              else v.memByte a) ∧
            ∀ home va, l = .mooring home va → w.mem = v.mem ∧ ∀ a, rdByte w.moor a =
              if moorKey b va ≤ a ∧ a < moorKey b va + n then
                (leBytes n (atomWord p.op (8 * n) (leNat (v.spotBytes b l n)) p.operand (leNat p.data))).getD
                  (a - moorKey b va) 0
              else rdByte v.moor a)) ∧
        (∀ c (add : Bool), c = (if add then .signalAdd half p else .signalSet half p) →
          ((v.sync p.addr).allocated = false → Yields c s (· = v.acked half p)) ∧
          ((v.sync p.addr).allocated = true → Yields c s fun t => ∃ w : State, t = w.acked half p ∧
            w = { v with syncs := w.syncs, glb := w.glb, out := w.out } ∧ (∀ i, i ≠ p.addr → w.sync i = v.sync i) ∧
            w.sync p.addr = { v.sync p.addr with
              value := if add then satAdd 64 (v.sync p.addr).value p.operand else p.operand % 2 ^ 64
              dropped := (v.sync p.addr).dropped || p.dropped } ∧
            ((v.sync p.addr).irqEn = false → w.glb = v.glb ∧ w.out = v.out))) ∧
        (doorbellOpen v p.addr = false → Yields (.doorbell half p) s (· = v.acked half p)) ∧
        (∀ n, n = ahead 32 (p.operand % 2 ^ 32) (v.queue p.addr).head → doorbellOpen v p.addr = true →
          Yields (.doorbell half p) s (· = (setTail p.addr (p.operand % 2 ^ 32) v).acked half p) ∧
          (2 ^ (v.queue p.addr).ringLog2 < n ∨ n < ahead 32 (v.queue p.addr).tail (v.queue p.addr).head →
            Yields (.doorbell half p) s (· = v.acked half p)) ∧
          (n ≤ 2 ^ (v.queue p.addr).ringLog2 → ahead 32 (v.queue p.addr).tail (v.queue p.addr).head ≤ n →
            (v.queue p.addr).skipWaiting = false → Yields (.doorbell half p) s fun t => ∃ w : State,
              t = w.acked half p ∧ v.onlyQueue p.addr w ∧
              w.queue p.addr = { v.queue p.addr with tail := p.operand % 2 ^ 32 })))

/-- Answers and time-outs at the source (R403 to R405, R48, R47): an ACK ends its request, and the next effect to that part
goes out; READ_RESP gives its instruction the data; a NACK, or no answer in time, drops an effect, counted, or delivers a
read as poison, but one that was not exported ends its kernel with BERTH_BOUNDS detail 3; an unanswered request is sent
again, up to RESENDS times. An answer without a request, or to a request of another kind, does nothing; a kernel that has
landed is not ended (R64). -/
def Obligations.AnswersEndTheirRequests : Prop :=
  (∀ (s : State) (half : Nat) (p : Packet) (v w : State), v = arrive p s →
    w = { v with cwy := { v.cwy with lastNack := p.op % 16 } } →
    (findOutst v p.srcHalf p.txn = none → Yields (.ack half p) s (· = v) ∧ Yields (.readResp half p) s (· = v) ∧
      Yields (.nack half p) s (· = w)) ∧
    ∀ o, findOutst v p.srcHalf p.txn = some o →
      (∀ q u x, o.what = .effect q → u = { v with cwy := { v.cwy with outst := v.cwy.outst.filter (· ≠ o) } } →
        x = { w with cwy := { w.cwy with
          outst := v.cwy.outst.filter (· ≠ o), drops := satAdd 32 v.cwy.drops 1 } } →
        Yields (.ack half p) s (· = sendRemote q u) ∧
        Yields (.nack half p) s (· = sendRemote q (dropEffect q o.packet.dstPart (p.op % 16) x)) ∧
        ((∀ h ∈ (v.run q).held, remotePart v.cwy.partId h.eff = none) → Yields (.ack half p) s (· = u))) ∧
      (o.what = .mgmt → Yields (.ack half p) s (· = v) ∧ Yields (.readResp half p) s (· = v) ∧
        Yields (.nack half p) s (· = { w with cwy := { w.cwy with outst := v.cwy.outst.filter (· ≠ o) } })) ∧
      (∀ q, o.what = .effect q → Yields (.readResp half p) s (· = v)) ∧
      (∀ q j off, o.what = .readFor q j off → Yields (.ack half p) s (· = v) ∧
        (Yields (.readResp half p) s fun t =>
          t = { v with runs := t.runs, cwy := { v.cwy with outst := v.cwy.outst.filter (· ≠ o) } } ∧
          (∀ r, r ≠ q → t.run r = v.run r) ∧
          (j < (v.run q).insts.length → t.inst q j = { v.inst q j with
            readsLeft := (v.inst q j).readsLeft.erase (off, o.packet.length)
            got := (v.inst q j).got ++ [(off,
              if p.poison then List.replicate o.packet.length 0 else p.data.take o.packet.length, p.poison)] })) ∧
        (p.op % 16 = 1 → (v.run q).landed = true → Yields (.nack half p) s
          (· = { w with cwy := { w.cwy with outst := v.cwy.outst.filter (· ≠ o) } })) ∧
        (p.op % 16 = 1 → (v.run q).landed = false → Yields (.nack half p) s
          (State.endedRun { w with cwy := { w.cwy with outst := v.cwy.outst.filter (· ≠ o) } } q 0x0E 3
            ((v.run q).insts.getD j {}).word true)) ∧
        (p.op % 16 ≠ 1 → Yields (.nack half p) s fun t =>
          t = { w with runs := t.runs, cwy := { w.cwy with outst := v.cwy.outst.filter (· ≠ o) } } ∧
          (j < (v.run q).insts.length → t.inst q j = { v.inst q j with
            readsLeft := (v.inst q j).readsLeft.erase (off, o.packet.length)
            got := (v.inst q j).got ++ [(off, List.replicate o.packet.length 0, true)] })))) ∧
  ∀ (s : State) (half txn : Nat),
    (findOutst s half txn = none → exec (.resendTimeout half txn) s = .next s ∧
      exec (.deliveryTimeout half txn) s = .next s) ∧
    (∀ o, findOutst s half txn = some o →
      (o.sends < s.cwy.resends + 1 → Yields (.resendTimeout half txn) s (· = route half o.packet { s with cwy := { s.cwy with
        outst := s.cwy.outst.map (fun x => if x = o then { x with sends := x.sends + 1 } else x)
        resent := satAdd 28 s.cwy.resent 1 } })) ∧
      (s.cwy.resends + 1 ≤ o.sends → exec (.resendTimeout half txn) s = .next s) ∧
      (o.what = .mgmt → Yields (.deliveryTimeout half txn) s (· = { s with cwy := { s.cwy with
        outst := s.cwy.outst.filter (· ≠ o) } })) ∧
      (∀ q, o.what = .effect q → Yields (.deliveryTimeout half txn) s (· = sendRemote q
        (dropEffect q o.packet.dstPart 0 { s with cwy := { s.cwy with
          outst := s.cwy.outst.filter (· ≠ o), drops := satAdd 32 s.cwy.drops 1 } }))) ∧
      (∀ q j off, o.what = .readFor q j off → Yields (.deliveryTimeout half txn) s fun t =>
        t = { s with runs := t.runs, cwy := { s.cwy with outst := s.cwy.outst.filter (· ≠ o) } } ∧
        (j < (s.run q).insts.length → t.inst q j = { s.inst q j with
          readsLeft := (s.inst q j).readsLeft.erase (off, o.packet.length)
          got := (s.inst q j).got ++ [(off, List.replicate o.packet.length 0, true)] }))) ∧
    (∀ part h, Yields (.filterExpiry half part h txn) s fun t =>
      t = { s with cwy := { s.cwy with filter := t.cwy.filter } } ∧
      ∀ e, e ∈ t.cwy.filter ↔ e ∈ s.cwy.filter ∧
        ¬(e.half = half ∧ e.srcPart = part ∧ e.srcHalf = h ∧ e.txn = txn)) ∧
    Yields (.txnFree half txn) s (· = sendWaiting { s with cwy := { s.cwy with
      txnBusy := s.cwy.txnBusy.filter (· ≠ (half, txn)) } }) ∧
    (s.cwy.waiting = [] → Yields (.txnFree half txn) s (· = { s with cwy := { s.cwy with
      txnBusy := s.cwy.txnBusy.filter (· ≠ (half, txn)) } }))

/-- Packets that pass through (R399, R406, R391, R398, R462): one for this part is taken; another takes its route; one that
has none is answered with NACK 5, one of 63 hops with NACK 6, but an answer is discarded then; what is reserved is
discarded and counted; a packet that has waited too long for credit at the head of its queue is discarded. -/
def Obligations.PacketsPassThrough : Prop :=
  ∀ (s : State) (p : Packet) (port half : Nat) (v : State) (k : Packet), half = portHalf port →
    v = arrive { p with port := some port } s → k = { p with port := none } →
    exec (.packetForward port p) s = .next (route half k v) ∧
    (p.dstPart = v.cwy.partId → Yields (.packetForward port p) s (· = { v with out := Out.packet none k :: v.out })) ∧
    (∀ r, p.dstPart ≠ v.cwy.partId → routePort v half p.vl p.dstPart = some r →
      (p.hops < 63 → Yields (.packetForward port p) s (· = enqueue r k v)) ∧
      (63 ≤ p.hops → isAnswer p = true → Yields (.packetForward port p) s (· = countBad r v)) ∧
      (∀ r', 63 ≤ p.hops → isAnswer p = false → p.srcPart ≠ v.cwy.partId → routePort v half 6 p.srcPart = some r' →
        Yields (.packetForward port p) s (· = enqueue r' (nackTo v k 0x6) v)) ∧
      (63 ≤ p.hops → isAnswer p = false → p.srcPart ≠ v.cwy.partId → routePort v half 6 p.srcPart = none →
        Yields (.packetForward port p) s (· = countBad r v))) ∧
    (p.dstPart ≠ v.cwy.partId → routePort v half p.vl p.dstPart = none →
      (isAnswer p = true → Yields (.packetForward port p) s (· = countBad (32 * half) v)) ∧
      (∀ r, isAnswer p = false → p.srcPart ≠ v.cwy.partId → routePort v half 6 p.srcPart = some r →
        Yields (.packetForward port p) s (· = enqueue r (nackTo v k 0x5) v)) ∧
      (isAnswer p = false → p.srcPart ≠ v.cwy.partId → routePort v half 6 p.srcPart = none →
        Yields (.packetForward port p) s (· = countBad (32 * half) v))) ∧
    (∀ n, n = nackTo v k (if (routePort v half p.vl p.dstPart).isSome then 0x6 else 0x5) →
      p.dstPart ≠ v.cwy.partId → isAnswer p = false → p.srcPart = v.cwy.partId →
      ((routePort v half p.vl p.dstPart).isSome = true → 63 ≤ p.hops) →
      Yields (.packetForward port p) s (· = { v with out := Out.packet none n :: v.out })) ∧
    (Yields (.reservedPacket port p) s fun t => v.onlyPort port t ∧
      t.port port = { v.port port with rxBad := satAdd 16 (v.port port).rxBad 1 }) ∧
    (∀ h, (mgmtKnown p.kind = true → Yields (.mgmt h p) s (· = arrive p s)) ∧
      (mgmtKnown p.kind = false → Yields (.mgmt h p) s (· = countBad (p.port.getD (32 * h)) (arrive p s)))) ∧
    (∀ vl, frontOf (s.port port).txq vl = none → exec (.holTimeout port vl) s = .next s) ∧
    ∀ vl x y u, x = (s.port port).txq → frontOf x vl = some y →
      u = { s.setPort port { s.port port with txq := dropFront x vl } with
        cwy := { s.cwy with holDrops := satAdd 32 s.cwy.holDrops 1 } } →
      (y.srcPart = s.cwy.partId ∨ look 0 (s.port port).credit vl + flitsOf y ≤ vlBuffer vl →
        exec (.holTimeout port vl) s = .next s) ∧
      (y.srcPart ≠ s.cwy.partId → vlBuffer vl < look 0 (s.port port).credit vl + flitsOf y →
        exec (.holTimeout port vl) s = .next (sendPort port (dropFront x vl).length u) ∧
        (dropFront x vl = [] → Yields (.holTimeout port vl) s fun t =>
          t = { s with ports := t.ports, cwy := { s.cwy with holDrops := satAdd 32 s.cwy.holDrops 1 } } ∧
          (∀ j, j ≠ port → t.port j = s.port j) ∧ t.port port = { s.port port with txq := [] }))

/-- Request slots and sounding slots (R377, R382, R387, R218), the host link (R435 to R440), its decoders and vectors (R446,
R452), accesses to host-managed memory (R447, R448), rations (R383, R384): what each command does, and where it does
nothing. An access to a page that migrates waits (R351); a refused access is recorded with its reason and reads poison; a
write within a good unit changes its bytes alone, one into a poisoned unit nothing, and one that cannot merge into an
uncorrectable unit is recorded with SOURCE 3. -/
def Obligations.SlotsAndHostAccessesAct : Prop :=
  (∀ (s : State) (b k : Nat) (r : Req), k = (s.berth b).reqSel → r = look {} (s.berth b).reqs k →
    (∀ (pri alt n : Nat) (av : Bool) (refused : Prop), (refused ↔ r.isOpen = true ∨ n = 0 ∨ ownsQueue s b pri = false ∨
        av = true ∧ (ownsQueue s b alt = false ∨ queueHalf pri ≠ queueHalf alt) ∨ (s.berth b).layout.configured = false) →
      (refused → exec (.openSlot b pri alt av n) s = .next s) ∧
      (¬refused → Yields (.openSlot b pri alt av n) s fun t => s.onlyBerth b t ∧ look {} (t.berth b).reqs k = {
        primary := pri, alt := alt, altValid := av, passes := n, deadline := r.deadline, estFull := r.estFull
        estCheap := r.estCheap, isOpen := true, openedAt := (s.half (queueHalf pri)).us })) ∧
    (r.isOpen = false → exec (.closeSlot b) s = .next s) ∧
    (∀ x : Req, r.isOpen = true → x = { r with
        isOpen := false, finish := min (slotNow s r) (2 ^ 32 - 1), late := decide (r.deadline < slotNow s r)
        abandoned := false } →
      (r.altValid = false ∨ r.switched = true → Yields (.closeSlot b) s fun t => s.onlyBerth b t ∧
        look {} (t.berth b).reqs k = x) ∧
      (r.altValid = true → r.switched = false → (s.queue r.alt).state = .disabled ∨ (s.run r.alt).phase = .committing ∨
        (s.run r.alt).landed = true → Yields (.closeSlot b) s fun t => s.onlyBerth b t ∧
        look {} (t.berth b).reqs k = x) ∧
      (r.altValid = true → r.switched = false → (s.queue r.alt).state ≠ .disabled → (s.run r.alt).phase ≠ .committing →
        (s.run r.alt).landed = false → Yields (.closeSlot b) s fun t => look {} (t.berth b).reqs k = x ∧
          (t.queue r.alt).state = .idle ∧ (t.queue r.alt).head = (s.queue r.alt).tail ∧ t.mem = s.mem)) ∧
    ∀ i, (slotQueue (s.imageOf b) i = none → exec (.clearSlot b i) s = .next s) ∧
      ∀ q, slotQueue (s.imageOf b) i = some q → Yields (.clearSlot b i) s fun t => s.onlyBerth b t ∧
        look {} (t.berth b).slots i = if (s.queue q).state = .idle ∨ (s.queue q).state = .disabled then {}
          else { look {} (s.berth b).slots i with clearPend := true }) ∧
  (∀ s : State,
    (∀ (w r : Nat) (cache mem h1 : Bool), s.on = true → s.clk.serdes = true → w = 8 ∨ w = 16 → 1 ≤ r ∧ r ≤ 5 →
      ((s.fenced 0 || s.fenced 1) = true → w = 8 ∧ h1 = s.fenced 0) → ((s.fenced 0 || s.fenced 1) = false → h1 = false) →
      Yields (.hostLinkUp w r cache mem h1) s fun t => t = { s with glb := t.glb, out := t.out } ∧
        t.glb = { s.glb with
          linkWidth := w, linkRate := r, cxlCache := cache && mem && decide (r = 5), cxlMem := mem && decide (r = 5)
          degraded := decide (w = 8), lanesHalf1 := h1, trainings := satAdd 32 s.glb.trainings 1
          msix := t.glb.msix }) ∧
    (Yields .hostLinkDown s (· = { s with glb := { s.glb with
      linkWidth := 0, linkRate := 0, cxlCache := false, cxlMem := false, degraded := false, lanesHalf1 := false
      hostWait := [] } })) ∧
    (∀ (w r : Nat) (cache mem h1 : Bool), s.on = false ∨ s.clk.serdes = false ∨ (w ≠ 8 ∧ w ≠ 16) ∨ r = 0 ∨ 5 < r ∨
      (s.fenced 0 || s.fenced 1) = true ∧ (w ≠ 8 ∨ h1 ≠ s.fenced 0) ∨ (s.fenced 0 || s.fenced 1) = false ∧ h1 = true →
      exec (.hostLinkUp w r cache mem h1) s = .next s) ∧
    (∀ en mask, Yields (.configSpaceWrite en mask) s fun t => t = { s with glb := t.glb, out := t.out } ∧
      t.glb = { s.glb with msixEnable := en, msixFmask := mask, msix := t.glb.msix } ∧
      (∀ v, vectorOpen t v = true → (look {} t.glb.msix v).pending = false) ∧
      (∀ v, vectorOpen t v = true → (look {} s.glb.msix v).pending = true →
        Out.msix v (look {} s.glb.msix v).addr (look {} s.glb.msix v).data ∈ t.out) ∧
      ∀ v, vectorOpen t v = false → look {} t.glb.msix v = look {} s.glb.msix v) ∧
    (∀ a, (s.linkUp = true → s.glb.cxlCache = true → Yields (.snoop a) s (· = { s with out := Out.snooped a :: s.out })) ∧
      (s.linkUp = false ∨ s.glb.cxlCache = false → exec (.snoop a) s = .next s)) ∧
    (∀ k base size ways, (s.glb.cxlMem = false ∨ 4 ≤ k → exec (.hdmDecoderCommit k base size ways) s = .next s) ∧
      (s.glb.cxlMem = true → k < 4 → Yields (.hdmDecoderCommit k base size ways) s fun t =>
        t = { s with glb := { s.glb with hdm := t.glb.hdm } } ∧
        (∀ j, j ≠ k → look {} t.glb.hdm j = look {} s.glb.hdm j) ∧
        look {} t.glb.hdm k = { look {} s.glb.hdm k with
          base := base, size := size, ways := waysCode ways
          committed := decide (ways = 1), error := decide (ways ≠ 1) })) ∧
    ∀ a e rs, Yields (.rationsWindow a e rs) s fun t => t = { s with arbs := t.arbs } ∧
      (∀ j, j ≠ a → look {} t.arbs j = look {} s.arbs j) ∧
      ∀ x y, x = look {} s.arbs a → y = look {} t.arbs a → y.started = true ∧
        (x.started = false ∨ e - x.wstart = arbWindow s a ∨ arbExhausted (arbWeights s a) x.credit rs = true →
          y.wstart = e ∧ y.chosen = arbChoose (arbWeights s a) (arbFull (arbWeights s a)) rs) ∧
        (x.started = true → e - x.wstart ≠ arbWindow s a → arbExhausted (arbWeights s a) x.credit rs = false →
          y.wstart = x.wstart ∧ y.chosen = arbChoose (arbWeights s a) x.credit rs)) ∧
  ∀ (s : State) (addr : Nat),
    (s.linkUp = false ∨ s.glb.cxlMem = false → ∀ n bs x,
      exec (.cxlMemRead addr n) s = .next s ∧ exec (.cxlMemWrite addr bs x) s = .next s) ∧
    (s.linkUp = true → s.glb.cxlMem = true → ∀ n bs x,
      exec (.cxlMemRead addr n) s = .next (hostAccess { addr := addr, n := n } (retryHost s)) ∧
      exec (.cxlMemWrite addr bs x) s = .next (hostAccess { write := true, addr := addr, data := bs, poison := x }
        (retryHost s))) ∧
    (s.linkUp = true → s.glb.cxlMem = true → s.glb.hostWait = [] → decoderAt s addr = none → ∀ n bs x,
      exec (.cxlMemRead addr n) s = .next s ∧ exec (.cxlMemWrite addr bs x) s = .next s) ∧
    ∀ k d va, s.linkUp = true → s.glb.cxlMem = true → s.glb.hostWait = [] → decoderAt s addr = some (k, d) →
      va = d.bindVbase + (addr - d.base) → ∀ n (bs : List (Option (BitVec 8))) x, bs.length = n →
      (hostWaits s d va n = true →
        Yields (.cxlMemRead addr n) s (· = { s with glb := { s.glb with hostWait := [{ addr := addr, n := n }] } }) ∧
        Yields (.cxlMemWrite addr bs x) s (· = { s with glb := { s.glb with
          hostWait := [{ write := true, addr := addr, data := bs, poison := x }] } })) ∧
      (hostWaits s d va n = false →
        (∀ why, hostRefusal s d va n = some why →
          (Yields (.cxlMemRead addr n) s fun t => ∃ l, l.length = n ∧ t = { s with
            glb := { s.glb with errReason := why, errDecoder := k, errRefused := satAdd 32 s.glb.errRefused 1 }
            fresh := s.fresh + n, out := Out.hostData l true :: s.out }) ∧
          Yields (.cxlMemWrite addr bs x) s fun t => t = { s with
            glb := { s.glb with errReason := why, errDecoder := k, errRefused := satAdd 32 s.glb.errRefused 1 } }) ∧
        (hostRefusal s d va n = none →
          (∀ r, r = outsideRead d.bindBerth va n s →
            exec (.cxlMemRead addr n) s = .next (r.2.emit (.hostData r.1.1 r.1.2))) ∧
          exec (.cxlMemWrite addr bs x) s =
            .next (forEach (maskedPieces va n bs) (hostPiece d.bindBerth x) s) ∧
          ((∀ i ∈ bs, i = none) → exec (.cxlMemWrite addr bs x) s = .next s) ∧
          ∀ pa, 0 < n → va % 32 + n ≤ 32 → s.spot d.bindBerth va = .stack pa →
            (look .good s.units (pa / 32) = .good → Yields (.cxlMemRead addr n) s fun t =>
              t = { s with
                hbr := t.hbr, out := Out.hostData ((List.range n).map (fun i => s.memByte (pa + i))) false :: s.out }) ∧
            (look .good s.units (pa / 32) ≠ .good → Yields (.cxlMemRead addr n) s fun t => ∃ l, l.length = n ∧
              t = { s with hbr := t.hbr, fresh := s.fresh + n, out := Out.hostData l true :: s.out }) ∧
            ((∃ i ∈ bs, i ≠ none) → (x = false → ∀ whole : Bool, whole = (n = 32 && bs.all (·.isSome)) →
              (whole = true ∨ look .good s.units (pa / 32) = .good → Yields (.cxlMemWrite addr bs x) s fun t =>
                t = { s with
                  mem := t.mem, delivered := t.delivered, units := t.units, berths := t.berths, hbr := t.hbr } ∧
                look .good t.units (pa / 32) = .good ∧
                (∀ u, u ≠ pa / 32 → look .good t.units u = look .good s.units u) ∧
                ∀ a, t.memByte a = if pa ≤ a ∧ a < pa + n then (bs.getD (a - pa) none).getD (s.memByte a)
                  else s.memByte a) ∧
              (whole = false → look .good s.units (pa / 32) = .poison → exec (.cxlMemWrite addr bs x) s = .next s) ∧
              (whole = false → look .good s.units (pa / 32) = .uncorrectable →
                Yields (.cxlMemWrite addr bs x) s fun t => t.mem = s.mem ∧ t.units = s.units ∧
                  t = recordUe (s.place pa).stack (s.place pa).channel pa 3 s)) ∧
              (x = true → va % 32 = 0 → Yields (.cxlMemWrite addr bs x) s fun t =>
                look .good t.units (pa / 32) = .poison ∧
                ∀ u, u ≠ pa / 32 → look .good t.units u = look .good s.units u))))

/-- DOE (R453, R476 to R478): discovery and the CDAT answer while the link is up. An SPDM request is answered from the
requests before it, of which GET_VERSION starts anew, and from what the part holds; a signed response leaves its
transcript's hash, which SIGN_TRANSCRIPT signs once with ML-DSA-65, directly after it; a part of the ML-DSA-65 chain is at
most 4,096 bytes. The layouts of discovery, of the CDAT and of the SPDM messages are the model's choice (notes/assumptions/10.md,
notes/assumptions/47.md). -/
def Obligations.MailboxRequestsAreAnswered : Prop :=
  ∀ (s : State) (answer : List (BitVec 8) → State), (∀ bs, answer bs = { s with out := Out.doe bs :: s.out }) →
    (s.linkUp = false → (∀ i, exec (.doeDiscovery i) s = .next s) ∧ exec .cdatRead s = .next s ∧
      (∀ r, exec (.spdmRequest r) s = .next s) ∧ (∀ off len, exec (.getMldsaCert off len) s = .next s) ∧
      exec .signTranscript s = .next s) ∧
    (s.linkUp = true →
      Yields (.doeDiscovery 0) s (· = answer (leBytes 4 0x01000001)) ∧
      Yields (.doeDiscovery 1) s (· = answer (leBytes 4 0x02010001)) ∧
      Yields (.doeDiscovery 2) s (· = answer (leBytes 4 0x00021E98)) ∧
      (∀ i, 3 ≤ i → Yields (.doeDiscovery i) s (· = answer (leBytes 4 0xFFFF))) ∧
      Yields .cdatRead s (· = answer (cdatBytes s.glb.linkWidth)) ∧
      (∀ r seen c, seen = s.sec.spdmSeen → c = spdmContent s r → Yields (.spdmRequest r) s (· = { answer
          (Config.spdmResponse seen r c) with sec := { s.sec with
        lastHash := if spdmSigned seen r then some (Config.sha384 (Config.spdmTranscript seen r c)) else none
        spdmSeen := if r = .getVersion then [r] else seen ++ [r] } })) ∧
      (∀ off len, Yields (.getMldsaCert off len) s fun t =>
        t = { s with sec := { s.sec with lastHash := none }, out := t.out } ∧
        (len ≤ 4096 → t.out =
          Out.doe (((Config.certChain 1 (aliasCdi s) (allMeas s)).drop off).take len) :: s.out) ∧
        (4096 < len → t.out = Out.doe (spdmError 1) :: s.out)) ∧
      Yields .signTranscript s fun t => t = { s with sec := { s.sec with lastHash := none }, out := t.out } ∧
        (s.sec.lastHash = none → t.out = Out.doe (spdmError 4) :: s.out) ∧
        ∀ h, s.sec.lastHash = some h → t.out = Out.doe (Config.mlSign (aliasCdi s) (ascii "xzl-spdm") h) :: s.out) ∧
    ∀ nonce slot, spdmSigned [] (.challenge slot nonce) = false ∧
      (spdmSigned [.getVersion, .getCapabilities, .negotiateAlgorithms] (.challenge slot nonce) = decide (slot = 0))

/-- Keeper (R496 to R509, R491). A command that runs is answered by its lines and OK, or by the error of the lowest code, and
does what it says; one that is not in its turn waits, as does an access to memory that waits for the Shelf or for a page
that migrates. Characters gather in the receive buffer; a new rate is on trial
until a good line; an inbound transfer takes its blocks by check, and ends after three bad ones or without one in time.
That command lines are commands of their own, and the texts of numbers, are the model's choice (notes/assumptions/50.md). -/
def Obligations.KeeperAnswersItsLines : Prop :=
  (∀ (s : State) (c : Instr) (e : State → Option Nat),
    (c = .keeperId ∧ e = (fun v => errIf (noHalf1 v) 7) ∨ c = .temp ∧ e = (fun v => errIf (noHalf1 v) 7) ∨
      c = .stat ∧ e = (fun _ => none) ∨ c = .lock ∧ e = (fun _ => none) ∨
      (∃ r, c = .baud r ∧ e = fun _ => errIf (decide (r > 5)) 4) ∨ (∃ a n, c = .rd a n ∧ e = fun v => rdErr v a n) ∨
      (∃ a x, c = .wr a x ∧ e = fun v => wrErr v a x) ∨ (∃ b o n, c = .wrd b o n ∧ e = fun v => wrdErr v b o n) ∨
      (∃ b o x, c = .wwr b o x ∧ e = fun v => leastErr [errIf (decide (x ≥ 2 ^ 64)) 1, windowErr v 2 b o]) ∨
      (∃ b, (c = .halt b ∨ c = .release b) ∧ e = fun v => leastErr [levelErr v 1, berthErr v b]) ∨
      (∃ q, c = .keeperKill q ∧ 524288 ≤ q ∧ e = fun v => leastErr [levelErr v 2, some 4]) ∨
      ∃ q, c = .keeperKill q ∧ q < 524288 ∧ e = fun v => leastErr [levelErr v 2, ownerErr v (queueOwner v q),
        errIf (queueHalf q = 1 && noHalf1 v) 7]) →
    (keeperUp s = false → exec c s = .next s) ∧
    (∀ l rest x, s.dbg.lines = (0, l) :: rest → parseLine l = some x → x ≠ c → exec c s = .next s) ∧
    ∀ v : State, s.keeperIdle → v = { s with dbg := { s.dbg with baudTrial := false } } → ∀ code, e v = some code →
      Yields c s (v.replied ["ERR 0" ++ dec code ++ " " ++ errName code] true)) ∧
  (∀ (s v : State), s.keeperIdle → v = { s with dbg := { s.dbg with baudTrial := false } } →
    (noHalf1 v = false → Yields .keeperId s (v.replied [hex 16 (readGlb v 0) ++ " " ++ hex 16 (readSec v 8) ++ " " ++
        hex 16 (readSec v 0x10) ++ " " ++ hex 1 (readTwc v 0 0x600 % 4) ++ " " ++ hex 1 (readTwc v 1 0x600 % 4) ++ " " ++
        hex 16 (secDebug v), "OK"] false) ∧
      Yields .temp s (v.replied ((List.range 32).map (tempLine v) ++ [powerLine v 0, powerLine v 1, "OK"]) false)) ∧
    Yields .stat s (v.replied [hex 16 (readDbg v 0), hex 16 (readDbg v 0x10), "OK"] false) ∧
    (Yields .lock s fun t => t.sec = { s.sec with level := 0, debugBerths := 0 } ∧
      ∃ u, v.replied ["OK"] false u ∧ t = { u with sec := t.sec, dbg := t.dbg, out := t.out } ∧
        (s.sec.level = 0 → t.out = u.out) ∧
        (s.sec.level ≠ 0 → t.out = Out.line (ascii "!LEVEL 0" ++ [13, 10]) :: u.out)) ∧
    (∀ r ≤ 5, Yields (.baud r) s fun t => ∃ u, v.replied ["OK"] false u ∧
      t = { u with dbg := { u.dbg with baudSel := r, baudTrial := true } }) ∧
    (∀ a n, rdErr v a n = none → Yields (.rd a n) s (v.replied ((List.range n).map (fun i =>
      hex 6 (a + 8 * i) ++ " " ++ hex 16 (readReg v 0 (a + 8 * i))) ++ ["OK"]) false)) ∧
    (∀ b o n, wrdErr v b o n = none → Yields (.wrd b o n) s (v.replied ((List.range n).map (fun i =>
      hex 4 (o + 8 * i) ++ " " ++ hex 16 (readWindow v b (o + 8 * i))) ++ ["OK"]) false)) ∧
    (∀ a x, wrErr v a x = none → Yields (.wr a x) s fun t =>
      ∃ u, v.replied ["OK"] false u ∧ t = writeAccess 0 a 8 x u) ∧
    (∀ b o x, leastErr [errIf (decide (x ≥ 2 ^ 64)) 1, windowErr v 2 b o] = none → Yields (.wwr b o x) s fun t =>
      ∃ u, v.replied ["OK"] false u ∧ t = writeAccess 2 (b * 0x10000 + o) 8 x u) ∧
    (∀ b (on : Bool) c, c = (if on then .halt b else .release b) → leastErr [levelErr v 1, berthErr v b] = none →
      Yields c s fun t => ∃ w : State, ({ v with dbg := { v.dbg with halted := setBit s.dbg.halted b on } } :
        State).sameButReadiness w ∧ w.replied ["OK"] false t) ∧
    (∀ q, q < 524288 → leastErr [levelErr v 2, ownerErr v (queueOwner v q), errIf (queueHalf q = 1 && noHalf1 v) 7] =
        none →
      (killable (s.run q) = false → Yields (.keeperKill q) s (v.replied ["OK"] false)) ∧
      (killable (s.run q) = true → Yields (.keeperKill q) s fun t =>
        ∃ w : State, v.endedRun q 5 7 (lastWord (s.run q)) false w ∧ w.replied ["OK"] false t)) ∧
    ∀ b va n, (∀ level, level = 1 ∨ level = 2 → ∀ code why, memErr v level b va n = some (code, why) →
        Yields (if level = 1 then .mrd b va n else .mwr b va n) s (v.replied
          [if code = 8 then "ERR 08 REFUSED " ++ hex 1 why else "ERR 0" ++ dec code ++ " " ++ errName code] true)) ∧
      (memErr v 2 b va n = none → Yields (.mwr b va n) s fun t => t = { s with
        dbg := { s.dbg with baudTrial := false, inbound := some { berth := b, va := va, len := n } }
        out := Out.line (ascii "READY" ++ [13, 10]) :: s.out }) ∧
      (memErr v 1 b va n = none → keeperWaits s b va n = true → exec (.mrd b va n) s = .next s) ∧
      (memErr v 1 b va n = none → keeperWaits s b va n = false →
        exec (.mrd b va n) s = .next (endOk (forEach (List.range (cdiv n 4096))
          (fun k t => sendBlock b (va + 4096 * k) (min 4096 (n - 4096 * k)) t)
          (forEach (shelfUnits v b va n) readUnit v))) ∧
        ∀ pa bs, s.spot b va = .stack pa → pa < 2 ^ 44 → va % 32 + n ≤ 32 → look .good s.units (pa / 32) = .good →
          bs = (List.range n).map (fun i => s.memByte (pa + i)) →
          Yields (.mrd b va n) s fun t => ∃ w : State, w = { v with hbr := w.hbr } ∧
          w.replied ["D 0000 " ++ String.ofList (bs.flatMap (fun x => hexChars 2 x.toNat)), "C " ++ hex 8 (crc32 bs),
            "OK"] false t)) ∧
  (∀ (s : State) (data : List (BitVec 8)) (crc : BitVec 32),
    (s.dbg.inbound = none → exec (.keeperBlock data crc) s = .next s ∧ exec .keeperBlockTimeout s = .next s) ∧
    (keeperUp s = false → exec (.keeperBlock data crc) s = .next s ∧ exec .keeperBlockTimeout s = .next s) ∧
    (∀ ib go, s.dbg.inbound = some ib → keeperUp s = true →
      go = (!keeperWaits s ib.berth (ib.va + 4096 * ib.block) data.length &&
        canProgram false (shelfUnits s ib.berth (ib.va + 4096 * ib.block) data.length) s) →
      (go = false → exec (.keeperBlock data crc) s = .next s) ∧
      (go = true → s.dbg.lines = [] → exec (.keeperBlock data crc) s =
        .next (answerLines (takeBlock ib (decide (crc32 data = crc.toNat)) data s))) ∧
      (go = true → s.dbg.lines ≠ [] → blockLines s.dbg.lines [] true = none → exec (.keeperBlock data crc) s = .next s) ∧
      ∀ d c rest, go = true → s.dbg.lines ≠ [] → blockLines s.dbg.lines [] true = some (d, c, rest) →
        (d = data → c = some crc.toNat ∨ c = none ∧ crc32 data ≠ crc.toNat → exec (.keeperBlock data crc) s =
          .next (answerLines (takeBlock ib (decide (crc32 data = crc.toNat)) data
            { s with dbg := { s.dbg with lines := rest } }))) ∧
        (d ≠ data ∨ c ≠ some crc.toNat ∧ (c ≠ none ∨ crc32 data = crc.toNat) →
          exec (.keeperBlock data crc) s = .next s)) ∧
    ∀ ib, s.dbg.inbound = some ib → keeperUp s = true → s.dbg.lines = [] →
      keeperWaits s ib.berth (ib.va + 4096 * ib.block) data.length = false →
      canProgram false (shelfUnits s ib.berth (ib.va + 4096 * ib.block) data.length) s = true →
      (s.dbg.reports = [] → s.dbg.lostReports = 0 → Yields .keeperBlockTimeout s (s.replied ["ERR 09 TIMEOUT"] true)) ∧
      (crc32 data ≠ crc.toNat ∨ data.length ≠ min 4096 (ib.len - 4096 * ib.block) →
        (ib.naks < 2 → Yields (.keeperBlock data crc) s fun t => t = { s with
          dbg := { s.dbg with inbound := some { ib with naks := ib.naks + 1 } }
          out := Out.line (ascii ("NAK " ++ dec ib.block) ++ [13, 10]) :: s.out }) ∧
        (2 ≤ ib.naks → s.dbg.reports = [] → s.dbg.lostReports = 0 → Yields (.keeperBlock data crc) s
          (s.replied ["NAK " ++ dec ib.block, "ERR 05 CRC"] true))) ∧
      ∀ pa va, va = ib.va + 4096 * ib.block → crc32 data = crc.toNat → 0 < data.length →
        data.length = min 4096 (ib.len - 4096 * ib.block) → memErr s 2 ib.berth va data.length = none →
        s.spot ib.berth va = .stack pa → pa < 2 ^ 44 → va % 32 + data.length ≤ 32 →
        look .good s.units (pa / 32) = .good → ib.len ≤ 4096 * (ib.block + 1) → s.dbg.reports = [] →
        s.dbg.lostReports = 0 → Yields (.keeperBlock data crc) s fun t => ∃ w : State,
          w.replied ["ACK " ++ dec ib.block, "OK"] false t ∧
          w = { s with mem := w.mem, delivered := w.delivered, units := w.units, berths := w.berths, hbr := w.hbr } ∧
          (∀ u, look .good w.units u = look .good s.units u) ∧
          ∀ a, w.memByte a = if pa ≤ a ∧ a < pa + data.length then data.getD (a - pa) 0 else s.memByte a) ∧
  ∀ s : State,
    (s.on = true → s.dbg.baudTrial = true → Yields .baudRevert s fun t =>
      t = { s with dbg := t.dbg, out := t.out } ∧ t.dbg.baudSel = 0 ∧ t.dbg.baudTrial = false) ∧
    (s.on = false ∨ s.dbg.baudTrial = false → exec .baudRevert s = .next s) ∧
    ∀ ch fe, (s.on = false → exec (.lhCharacter ch fe) s = .next s) ∧
      (s.on = true → exec (.lhCharacter ch fe) s = .next (answerLines (s.modDbg (takeChar ch fe)))) ∧
      (s.on = true → s.dbg.lines = [] →
        (fe = true → Yields (.lhCharacter ch fe) s fun t => t = { s with
          dbg := { s.dbg with framing := satAdd 24 s.dbg.framing 1, badLine := true } }) ∧
        (fe = false → 1024 ≤ buffered s.dbg → Yields (.lhCharacter ch fe) s fun t => t = { s with
          dbg := { s.dbg with overruns := satAdd 24 s.dbg.overruns 1, badLine := true } }) ∧
        (fe = false → buffered s.dbg < 1024 → ch ≠ 13 → ch ≠ 10 → s.dbg.longLine = false → s.dbg.lineLen < 255 →
          Yields (.lhCharacter ch fe) s fun t => t = { s with
            dbg := { s.dbg with rx := s.dbg.rx ++ [ch], lineLen := s.dbg.lineLen + 1 } }) ∧
        (fe = false → buffered s.dbg < 1024 → ch = 13 ∨ ch = 10 → s.dbg.rx ≠ [] → s.dbg.badLine = false →
          s.dbg.longLine = false → (parseLine s.dbg.rx).isSome = true → Yields (.lhCharacter ch fe) s fun t =>
            t = { s with dbg := { s.dbg with
              lines := [(0, s.dbg.rx)], rx := [], lineLen := 0, badLine := false, longLine := false
              baudTrial := false } }))

/-- Instruction words (R66 to R104): the word of a well-formed operation has 256 bits, its unassigned operand bits are 0, and
it decodes to that operation, with every operand at every value that the tables admit. A word of 256 bits whose
unassigned operand bits are 0 and that decodes is the word of what it decodes to. A reserved opcode, variant or flag
decodes to nothing (R67). -/
def Obligations.WordsDecodeToWhatTheySpell : Prop :=
  (∀ op : Op, op.wf = true →
    encodeOp op < 2 ^ 256 ∧ reservedZero (encodeOp op) = true ∧ decodeOp (encodeOp op) = some op) ∧
  (∀ (w : Nat) (op : Op), w < 2 ^ 256 → reservedZero w = true → decodeOp w = some op →
    op.wf = true ∧ encodeOp op = w) ∧
  ∀ w : Nat, opcodeOf w ∉ [0x00, 0x01, 0x02, 0x03, 0x04, 0x05, 0x08, 0x10, 0x11, 0x12, 0x13, 0x14, 0x18, 0x19, 0x1A,
    0x1C, 0x1D, 0x1E] ∨
    opcodeOf w ∈ [0x00, 0x01, 0x02, 0x03, 0x05, 0x10, 0x1C] ∧ variantOf w ≠ 0 ∨ opcodeOf w = 0x04 ∧ 5 ≤ variantOf w ∨
    opcodeOf w ∈ [0x08, 0x11, 0x18, 0x1E] ∧ 2 ≤ variantOf w ∨ opcodeOf w = 0x12 ∧ 7 ≤ variantOf w ∨
    opcodeOf w ∈ [0x13, 0x14] ∧ 4 ≤ variantOf w ∨ opcodeOf w = 0x19 ∧ 6 ≤ variantOf w ∨
    opcodeOf w ∈ [0x1A, 0x1D] ∧ 3 ≤ variantOf w ∨
    opcodeOf w ∈ [0x00, 0x02, 0x03, 0x04, 0x05, 0x08, 0x1A, 0x1C, 0x1D, 0x1E] ∧ flagsOf w ≠ 0 ∨
    opcodeOf w = 0x10 ∧ 8 ≤ flagsOf w ∨ opcodeOf w ∈ [0x01, 0x12, 0x13, 0x18] ∧ 4 ≤ flagsOf w ∨
    opcodeOf w ∈ [0x14, 0x19] ∧ 2 ≤ flagsOf w ∨ opcodeOf w = 0x18 ∧ variantOf w = 1 ∧ flagsOf w ≠ 0 →
    decodeOp w = none
end

