-- ==== Sys2Proof/Laws/Tables.lean ====
section
/-! SUPPORT. Laws of sparse tables and memories: what reads after a write, and that every operation keeps the
canonical form. -/
namespace Sys2Proof.Machine

variable {α : Type}

/-! ### Reading after setting one element -/

theorem look_setEntry (d v : α) (t : Tbl α) (k k' : Nat) :
    look d (setEntry t k v) k' = if k' = k then v else look d t k' := by
  induction t with
  | nil => simp [setEntry, look]
  | cons c t ih =>
    obtain ⟨j, w⟩ := c
    simp only [setEntry]
    split
    · simp [look]
    · split
      · subst k; by_cases h : k' = j <;> simp [look, h]
      · by_cases h : k' = j
        · subst h; simp [look]; intro h2; omega
        · simp [look, h, ih]

theorem look_drop (d : α) (t : Tbl α) (k k' : Nat) :
    look d (t.filter (fun c => c.1 ≠ k)) k' = if k' = k then d else look d t k' := by
  induction t with
  | nil => simp [look]
  | cons c t ih =>
    obtain ⟨j, w⟩ := c
    by_cases hj : j = k
    · subst hj
      simp only [ne_eq, not_true_eq_false, decide_false, Bool.false_eq_true, not_false_eq_true,
        List.filter_cons_of_neg, look]
      rw [ih]; by_cases h : k' = j <;> simp [h]
    · rw [List.filter_cons_of_pos (by simpa using hj)]
      simp only [look]
      rw [ih]
      by_cases h : k' = j
      · subst h; simp [hj]
      · simp [h]

/-- The element that was set reads as set; every other reads as before. -/
@[simp] theorem look_put [DecidableEq α] (d v : α) (t : Tbl α) (k k' : Nat) :
    look d (put d t k v) k' = if k' = k then v else look d t k' := by
  unfold put
  split
  · rename_i h; subst h; exact look_drop _ t k k'
  · exact look_setEntry d v t k k'

theorem look_put_self [DecidableEq α] (d v : α) (t : Tbl α) (k : Nat) : look d (put d t k v) k = v := by simp

theorem look_put_ne [DecidableEq α] (d v : α) (t : Tbl α) {k k' : Nat} (h : k' ≠ k) :
    look d (put d t k v) k' = look d t k' := by simp [h]

/-- A filter by index leaves the elements that it keeps, and the others read as the reset value. -/
theorem look_filter (d : α) (t : Tbl α) (p : Nat → Bool) (k : Nat) :
    look d (t.filter (fun c => p c.1)) k = if p k then look d t k else d := by
  induction t with
  | nil => simp [look]
  | cons c t ih =>
    obtain ⟨j, w⟩ := c
    by_cases hj : p j
    · rw [List.filter_cons_of_pos (by simpa using hj)]
      simp only [look]
      by_cases h : k = j
      · subst h; simp [hj]
      · simp [h, ih]
    · rw [List.filter_cons_of_neg (by simpa using hj), ih]
      by_cases h : k = j
      · subst h; simp [hj]
      · simp [look, h]

/-! ### The canonical form -/

theorem tblWf_filter [DecidableEq α] (d : α) (p : Nat × α → Bool) :
    ∀ (t : Tbl α) (lo lo' : Option Nat), (∀ b', lo' = some b' → ∃ b, lo = some b ∧ b' ≤ b) →
      tblWfFrom d lo t = true → tblWfFrom d lo' (t.filter p) = true := by
  intro t
  induction t with
  | nil => intros; simp [tblWfFrom]
  | cons c t ih =>
    obtain ⟨j, w⟩ := c
    intro lo lo' hb h
    simp only [tblWfFrom, Bool.and_eq_true, decide_eq_true_eq] at h
    obtain ⟨⟨h1, h2⟩, h3⟩ := h
    have hlt : ∀ b', lo' = some b' → b' < j := by
      intro b' hb'
      obtain ⟨b, rfl, hle⟩ := hb b' hb'
      have : b < j := by simpa using h1
      omega
    by_cases hp : p (j, w)
    · rw [List.filter_cons_of_pos hp]
      simp only [tblWfFrom, Bool.and_eq_true, decide_eq_true_eq]
      refine ⟨⟨?_, h2⟩, ih _ _ (fun b' hb' => ⟨b', hb', Nat.le_refl _⟩) h3⟩
      cases lo' with
      | none => rfl
      | some b' => simpa using hlt b' rfl
    · rw [List.filter_cons_of_neg (by simpa using hp)]
      exact ih _ _ (fun b' hb' => ⟨j, rfl, Nat.le_of_lt (hlt b' hb')⟩) h3

theorem tblWf_setEntry [DecidableEq α] (d v : α) (hv : v ≠ d) (k : Nat) :
    ∀ (t : Tbl α) (lo : Option Nat), (∀ b, lo = some b → b < k) →
      tblWfFrom d lo t = true → tblWfFrom d lo (setEntry t k v) = true := by
  intro t
  induction t with
  | nil =>
    intro lo hb _
    cases lo with
    | none => simp [setEntry, tblWfFrom, hv]
    | some b => simp [setEntry, tblWfFrom, hv, hb b rfl]
  | cons c t ih =>
    obtain ⟨j, w⟩ := c
    intro lo hb h
    have h' := h
    simp only [tblWfFrom, Bool.and_eq_true, decide_eq_true_eq] at h
    obtain ⟨⟨h1, h2⟩, h3⟩ := h
    simp only [setEntry]
    split
    · rename_i hlt
      simp only [tblWfFrom, Bool.and_eq_true, decide_eq_true_eq]
      exact ⟨⟨by cases lo with
        | none => rfl
        | some b => simpa using hb b rfl, hv⟩, ⟨hlt, h2⟩, h3⟩
    · split
      · subst k
        simp only [tblWfFrom, Bool.and_eq_true, decide_eq_true_eq]
        exact ⟨⟨h1, hv⟩, h3⟩
      · simp only [tblWfFrom, Bool.and_eq_true, decide_eq_true_eq]
        exact ⟨⟨h1, h2⟩, ih _ (fun b hb' => by cases hb'; omega) h3⟩

/-- Setting one element keeps the canonical form. -/
theorem tblWf_put [DecidableEq α] (d v : α) (t : Tbl α) (k : Nat) (h : tblWf d t = true) :
    tblWf d (put d t k v) = true := by
  unfold put
  split
  · exact tblWf_filter d _ t none none (by simp) h
  · rename_i hv; exact tblWf_setEntry d v hv k t none (by simp) h

/-- Dropping elements keeps the canonical form. -/
theorem tblWf_drop [DecidableEq α] (d : α) (t : Tbl α) (p : Nat × α → Bool) (h : tblWf d t = true) :
    tblWf d (t.filter p) = true := tblWf_filter d p t none none (by simp) h

/-- Setting elements one after the other keeps the canonical form. -/
theorem tblWf_foldl [DecidableEq α] {β : Type} (d : α) (f : Tbl α → β → Tbl α)
    (hf : ∀ t b, tblWf d t = true → tblWf d (f t b) = true) (l : List β) (t : Tbl α) (h : tblWf d t = true) :
    tblWf d (l.foldl f t) = true := by
  induction l generalizing t with
  | nil => exact h
  | cons b l ih => exact ih _ (hf t b h)

/-! ### Memories -/

/-- A byte reads as it was written; every other byte reads as before. -/
@[simp] theorem rdByte_wrByte (m : Memory) (a b : Nat) (v : Byte) :
    rdByte (wrByte m a v) b = if b = a then v else rdByte m b := look_put 0 v m a b

/-- A store of bytes: what every byte reads as after it. -/
theorem rdByte_wrBytes (bs : List Byte) (m : Memory) (a b : Nat) :
    rdByte (wrBytes m a bs) b = if a ≤ b ∧ b < a + bs.length then bs.getD (b - a) 0 else rdByte m b := by
  induction bs generalizing m a with
  | nil => rw [if_neg (by simp only [List.length_nil]; omega)]; rfl
  | cons v bs ih =>
    simp only [wrBytes, ih, List.length_cons, rdByte_wrByte]
    by_cases h1 : b = a
    · subst h1; rw [if_neg (by omega), if_pos rfl, if_pos (by omega), Nat.sub_self]; rfl
    · by_cases h2 : a + 1 ≤ b ∧ b < a + 1 + bs.length
      · have e : b - a = (b - (a + 1)) + 1 := by omega
        rw [if_pos h2, if_pos (by omega), e]
        simp
      · rw [if_neg h2, if_neg h1, if_neg (by omega)]

/-- What bytes read as after a fill with zeros. -/
theorem rdByte_zeroBytes (m : Memory) (a n b : Nat) :
    rdByte (zeroBytes m a n) b = if a ≤ b ∧ b < a + n then 0 else rdByte m b := by
  have h := look_filter (0 : Byte) m (fun i => decide (i < a) || decide (a + n ≤ i)) b
  simp only [rdByte, zeroBytes]
  rw [h]
  by_cases hb : a ≤ b ∧ b < a + n
  · rw [if_neg (by simp; omega), if_pos hb]
  · rw [if_pos (by simp; omega), if_neg hb]

theorem Memory.wf_wrByte {m : Memory} (h : Memory.wf m = true) (a : Nat) (v : Byte) : Memory.wf (wrByte m a v) = true :=
  tblWf_put 0 v m a h

theorem Memory.wf_wrBytes {m : Memory} (h : Memory.wf m = true) (a : Nat) (bs : List Byte) :
    Memory.wf (wrBytes m a bs) = true := by
  induction bs generalizing m a with
  | nil => exact h
  | cons b bs ih => exact ih (Memory.wf_wrByte h a b) (a + 1)

theorem Memory.wf_zeroBytes {m : Memory} (h : Memory.wf m = true) (a n : Nat) : Memory.wf (zeroBytes m a n) = true :=
  tblWf_drop 0 m _ h

theorem Memory.wf_filter {m : Memory} (h : Memory.wf m = true) (p : Nat × Byte → Bool) :
    Memory.wf (m.filter p) = true := tblWf_drop 0 m p h

/-- Every operation that changes a memory keeps its canonical form. -/
theorem Memory.wf_ops {m : Memory} (h : Memory.wf m = true) (a n : Nat) (v : Byte) (bs : List Byte)
    (p : Nat × Byte → Bool) :
    Memory.wf (wrByte m a v) = true ∧ Memory.wf (wrBytes m a bs) = true ∧ Memory.wf (zeroBytes m a n) = true ∧
      Memory.wf (m.filter p) = true :=
  ⟨Memory.wf_wrByte h a v, Memory.wf_wrBytes h a bs, Memory.wf_zeroBytes h a n, Memory.wf_filter h p⟩

/-! ### Numbers -/

theorem leBytes_length (n v : Nat) : (leBytes n v).length = n := by
  induction n generalizing v with
  | zero => rfl
  | succ n ih => simp [leBytes, ih]

/-- Little-endian bytes spell the number back (R2). -/
theorem leNat_leBytes (n v : Nat) : leNat (leBytes n v) = v % 2 ^ (8 * n) := by
  induction n generalizing v with
  | zero => simp [leBytes, leNat, Nat.mod_one]
  | succ n ih =>
    have e : 2 ^ (8 * (n + 1)) = 256 * 2 ^ (8 * n) := by rw [Nat.mul_add, Nat.pow_add]; omega
    simp only [leBytes, leNat, ih, BitVec.toNat_ofNat, e]
    rw [Nat.mod_mul]

theorem forEach_nil {β σ : Type} (f : β → σ → σ) (s : σ) : forEach [] f s = s := rfl

theorem forEach_cons {β σ : Type} (a : β) (l : List β) (f : β → σ → σ) (s : σ) :
    forEach (a :: l) f s = forEach l f (f a s) := rfl

/-- A relation that holds over nothing and over every pass of a loop holds over the loop. -/
theorem forEach_rel {β σ : Type} {R : σ → σ → Prop} (refl : ∀ s, R s s) (trans : ∀ s t u, R s t → R t u → R s u)
    (f : β → σ → σ) (hf : ∀ a s, R s (f a s)) (l : List β) (s : σ) : R s (forEach l f s) := by
  induction l generalizing s with
  | nil => exact refl s
  | cons a l ih => exact trans _ _ _ (hf a s) (ih (f a s))

/-- A loop whose passes leave a part of the state alone leaves it alone. -/
theorem forEach_same {β σ τ : Type} (g : σ → τ) (f : β → σ → σ) (hf : ∀ a s, g (f a s) = g s) (l : List β) (s : σ) :
    g (forEach l f s) = g s := by
  induction l generalizing s with
  | nil => rfl
  | cons a l ih => rw [forEach_cons, ih, hf]

end Sys2Proof.Machine
end

