-- ==== Sys2Proof/Laws/State.lean ====
section
/-! SUPPORT. What every update of the state leaves in every field: one law per field and update, true by unfolding; a
change of one unit is a setting of it. -/
namespace Sys2Proof.Machine

/-! ### State.setQueue -/

@[simp] theorem modQueue_eq (s : State) (i : Nat) (g : QCtx → QCtx) : s.modQueue i g = s.setQueue i (g (s.queue i)) := rfl
@[simp] theorem setQueue_queue (s : State) (i j : Nat) (v : QCtx) : (s.setQueue i v).queue j = if j = i then v else s.queue j :=
  look_put _ v _ i j
@[simp] theorem setQueue_glb (s : State) (i : Nat) (v : QCtx) : (s.setQueue i v).glb = s.glb := rfl
@[simp] theorem setQueue_clk (s : State) (i : Nat) (v : QCtx) : (s.setQueue i v).clk = s.clk := rfl
@[simp] theorem setQueue_queues (s : State) (i : Nat) (v : QCtx) : (s.setQueue i v).queues = put ({} : QCtx) s.queues i v := rfl
@[simp] theorem setQueue_runs (s : State) (i : Nat) (v : QCtx) : (s.setQueue i v).runs = s.runs := rfl
@[simp] theorem setQueue_syncs (s : State) (i : Nat) (v : QCtx) : (s.setQueue i v).syncs = s.syncs := rfl
@[simp] theorem setQueue_cores (s : State) (i : Nat) (v : QCtx) : (s.setQueue i v).cores = s.cores := rfl
@[simp] theorem setQueue_clusters (s : State) (i : Nat) (v : QCtx) : (s.setQueue i v).clusters = s.clusters := rfl
@[simp] theorem setQueue_hbr (s : State) (i : Nat) (v : QCtx) : (s.setQueue i v).hbr = s.hbr := rfl
@[simp] theorem setQueue_stks (s : State) (i : Nat) (v : QCtx) : (s.setQueue i v).stks = s.stks := rfl
@[simp] theorem setQueue_shelf (s : State) (i : Nat) (v : QCtx) : (s.setQueue i v).shelf = s.shelf := rfl
@[simp] theorem setQueue_ports (s : State) (i : Nat) (v : QCtx) : (s.setQueue i v).ports = s.ports := rfl
@[simp] theorem setQueue_cwy (s : State) (i : Nat) (v : QCtx) : (s.setQueue i v).cwy = s.cwy := rfl
@[simp] theorem setQueue_codecs (s : State) (i : Nat) (v : QCtx) : (s.setQueue i v).codecs = s.codecs := rfl
@[simp] theorem setQueue_codecQ (s : State) (i : Nat) (v : QCtx) : (s.setQueue i v).codecQ = s.codecQ := rfl
@[simp] theorem setQueue_lsh (s : State) (i : Nat) (v : QCtx) : (s.setQueue i v).lsh = s.lsh := rfl
@[simp] theorem setQueue_lshQ (s : State) (i : Nat) (v : QCtx) : (s.setQueue i v).lshQ = s.lshQ := rfl
@[simp] theorem setQueue_twcH (s : State) (i : Nat) (v : QCtx) : (s.setQueue i v).twcH = s.twcH := rfl
@[simp] theorem setQueue_twc (s : State) (i : Nat) (v : QCtx) : (s.setQueue i v).twc = s.twc := rfl
@[simp] theorem setQueue_sec (s : State) (i : Nat) (v : QCtx) : (s.setQueue i v).sec = s.sec := rfl
@[simp] theorem setQueue_dbg (s : State) (i : Nat) (v : QCtx) : (s.setQueue i v).dbg = s.dbg := rfl
@[simp] theorem setQueue_trec (s : State) (i : Nat) (v : QCtx) : (s.setQueue i v).trec = s.trec := rfl
@[simp] theorem setQueue_berths (s : State) (i : Nat) (v : QCtx) : (s.setQueue i v).berths = s.berths := rfl
@[simp] theorem setQueue_arbs (s : State) (i : Nat) (v : QCtx) : (s.setQueue i v).arbs = s.arbs := rfl
@[simp] theorem setQueue_mem (s : State) (i : Nat) (v : QCtx) : (s.setQueue i v).mem = s.mem := rfl
@[simp] theorem setQueue_moor (s : State) (i : Nat) (v : QCtx) : (s.setQueue i v).moor = s.moor := rfl
@[simp] theorem setQueue_trays (s : State) (i : Nat) (v : QCtx) : (s.setQueue i v).trays = s.trays := rfl
@[simp] theorem setQueue_units (s : State) (i : Nat) (v : QCtx) : (s.setQueue i v).units = s.units := rfl
@[simp] theorem setQueue_delivered (s : State) (i : Nat) (v : QCtx) : (s.setQueue i v).delivered = s.delivered := rfl
@[simp] theorem setQueue_pageLast (s : State) (i : Nat) (v : QCtx) : (s.setQueue i v).pageLast = s.pageLast := rfl
@[simp] theorem setQueue_moorUnits (s : State) (i : Nat) (v : QCtx) : (s.setQueue i v).moorUnits = s.moorUnits := rfl
@[simp] theorem setQueue_readySeq (s : State) (i : Nat) (v : QCtx) : (s.setQueue i v).readySeq = s.readySeq := rfl
@[simp] theorem setQueue_fresh (s : State) (i : Nat) (v : QCtx) : (s.setQueue i v).fresh = s.fresh := rfl
@[simp] theorem setQueue_out (s : State) (i : Nat) (v : QCtx) : (s.setQueue i v).out = s.out := rfl
@[simp] theorem setQueue_pending (s : State) (i : Nat) (v : QCtx) : (s.setQueue i v).pending = s.pending := rfl
@[simp] theorem setQueue_run (s : State) (i j : Nat) (v : QCtx) : (s.setQueue i v).run j = s.run j := rfl
@[simp] theorem setQueue_sync (s : State) (i j : Nat) (v : QCtx) : (s.setQueue i v).sync j = s.sync j := rfl
@[simp] theorem setQueue_core (s : State) (i j : Nat) (v : QCtx) : (s.setQueue i v).core j = s.core j := rfl
@[simp] theorem setQueue_cluster (s : State) (i j : Nat) (v : QCtx) : (s.setQueue i v).cluster j = s.cluster j := rfl
@[simp] theorem setQueue_harbour (s : State) (i j : Nat) (v : QCtx) : (s.setQueue i v).harbour j = s.harbour j := rfl
@[simp] theorem setQueue_stack (s : State) (i j : Nat) (v : QCtx) : (s.setQueue i v).stack j = s.stack j := rfl
@[simp] theorem setQueue_port (s : State) (i j : Nat) (v : QCtx) : (s.setQueue i v).port j = s.port j := rfl
@[simp] theorem setQueue_codecEng (s : State) (i j : Nat) (v : QCtx) : (s.setQueue i v).codecEng j = s.codecEng j := rfl
@[simp] theorem setQueue_lshEng (s : State) (i j : Nat) (v : QCtx) : (s.setQueue i v).lshEng j = s.lshEng j := rfl
@[simp] theorem setQueue_half (s : State) (i j : Nat) (v : QCtx) : (s.setQueue i v).half j = s.half j := rfl
@[simp] theorem setQueue_berth (s : State) (i j : Nat) (v : QCtx) : (s.setQueue i v).berth j = s.berth j := rfl

/-! ### State.setRun -/

@[simp] theorem modRun_eq (s : State) (i : Nat) (g : Run → Run) : s.modRun i g = s.setRun i (g (s.run i)) := rfl
@[simp] theorem setRun_run (s : State) (i j : Nat) (v : Run) : (s.setRun i v).run j = if j = i then v else s.run j :=
  look_put _ v _ i j
@[simp] theorem setRun_glb (s : State) (i : Nat) (v : Run) : (s.setRun i v).glb = s.glb := rfl
@[simp] theorem setRun_clk (s : State) (i : Nat) (v : Run) : (s.setRun i v).clk = s.clk := rfl
@[simp] theorem setRun_queues (s : State) (i : Nat) (v : Run) : (s.setRun i v).queues = s.queues := rfl
@[simp] theorem setRun_runs (s : State) (i : Nat) (v : Run) : (s.setRun i v).runs = put ({} : Run) s.runs i v := rfl
@[simp] theorem setRun_syncs (s : State) (i : Nat) (v : Run) : (s.setRun i v).syncs = s.syncs := rfl
@[simp] theorem setRun_cores (s : State) (i : Nat) (v : Run) : (s.setRun i v).cores = s.cores := rfl
@[simp] theorem setRun_clusters (s : State) (i : Nat) (v : Run) : (s.setRun i v).clusters = s.clusters := rfl
@[simp] theorem setRun_hbr (s : State) (i : Nat) (v : Run) : (s.setRun i v).hbr = s.hbr := rfl
@[simp] theorem setRun_stks (s : State) (i : Nat) (v : Run) : (s.setRun i v).stks = s.stks := rfl
@[simp] theorem setRun_shelf (s : State) (i : Nat) (v : Run) : (s.setRun i v).shelf = s.shelf := rfl
@[simp] theorem setRun_ports (s : State) (i : Nat) (v : Run) : (s.setRun i v).ports = s.ports := rfl
@[simp] theorem setRun_cwy (s : State) (i : Nat) (v : Run) : (s.setRun i v).cwy = s.cwy := rfl
@[simp] theorem setRun_codecs (s : State) (i : Nat) (v : Run) : (s.setRun i v).codecs = s.codecs := rfl
@[simp] theorem setRun_codecQ (s : State) (i : Nat) (v : Run) : (s.setRun i v).codecQ = s.codecQ := rfl
@[simp] theorem setRun_lsh (s : State) (i : Nat) (v : Run) : (s.setRun i v).lsh = s.lsh := rfl
@[simp] theorem setRun_lshQ (s : State) (i : Nat) (v : Run) : (s.setRun i v).lshQ = s.lshQ := rfl
@[simp] theorem setRun_twcH (s : State) (i : Nat) (v : Run) : (s.setRun i v).twcH = s.twcH := rfl
@[simp] theorem setRun_twc (s : State) (i : Nat) (v : Run) : (s.setRun i v).twc = s.twc := rfl
@[simp] theorem setRun_sec (s : State) (i : Nat) (v : Run) : (s.setRun i v).sec = s.sec := rfl
@[simp] theorem setRun_dbg (s : State) (i : Nat) (v : Run) : (s.setRun i v).dbg = s.dbg := rfl
@[simp] theorem setRun_trec (s : State) (i : Nat) (v : Run) : (s.setRun i v).trec = s.trec := rfl
@[simp] theorem setRun_berths (s : State) (i : Nat) (v : Run) : (s.setRun i v).berths = s.berths := rfl
@[simp] theorem setRun_arbs (s : State) (i : Nat) (v : Run) : (s.setRun i v).arbs = s.arbs := rfl
@[simp] theorem setRun_mem (s : State) (i : Nat) (v : Run) : (s.setRun i v).mem = s.mem := rfl
@[simp] theorem setRun_moor (s : State) (i : Nat) (v : Run) : (s.setRun i v).moor = s.moor := rfl
@[simp] theorem setRun_trays (s : State) (i : Nat) (v : Run) : (s.setRun i v).trays = s.trays := rfl
@[simp] theorem setRun_units (s : State) (i : Nat) (v : Run) : (s.setRun i v).units = s.units := rfl
@[simp] theorem setRun_delivered (s : State) (i : Nat) (v : Run) : (s.setRun i v).delivered = s.delivered := rfl
@[simp] theorem setRun_pageLast (s : State) (i : Nat) (v : Run) : (s.setRun i v).pageLast = s.pageLast := rfl
@[simp] theorem setRun_moorUnits (s : State) (i : Nat) (v : Run) : (s.setRun i v).moorUnits = s.moorUnits := rfl
@[simp] theorem setRun_readySeq (s : State) (i : Nat) (v : Run) : (s.setRun i v).readySeq = s.readySeq := rfl
@[simp] theorem setRun_fresh (s : State) (i : Nat) (v : Run) : (s.setRun i v).fresh = s.fresh := rfl
@[simp] theorem setRun_out (s : State) (i : Nat) (v : Run) : (s.setRun i v).out = s.out := rfl
@[simp] theorem setRun_pending (s : State) (i : Nat) (v : Run) : (s.setRun i v).pending = s.pending := rfl
@[simp] theorem setRun_queue (s : State) (i j : Nat) (v : Run) : (s.setRun i v).queue j = s.queue j := rfl
@[simp] theorem setRun_sync (s : State) (i j : Nat) (v : Run) : (s.setRun i v).sync j = s.sync j := rfl
@[simp] theorem setRun_core (s : State) (i j : Nat) (v : Run) : (s.setRun i v).core j = s.core j := rfl
@[simp] theorem setRun_cluster (s : State) (i j : Nat) (v : Run) : (s.setRun i v).cluster j = s.cluster j := rfl
@[simp] theorem setRun_harbour (s : State) (i j : Nat) (v : Run) : (s.setRun i v).harbour j = s.harbour j := rfl
@[simp] theorem setRun_stack (s : State) (i j : Nat) (v : Run) : (s.setRun i v).stack j = s.stack j := rfl
@[simp] theorem setRun_port (s : State) (i j : Nat) (v : Run) : (s.setRun i v).port j = s.port j := rfl
@[simp] theorem setRun_codecEng (s : State) (i j : Nat) (v : Run) : (s.setRun i v).codecEng j = s.codecEng j := rfl
@[simp] theorem setRun_lshEng (s : State) (i j : Nat) (v : Run) : (s.setRun i v).lshEng j = s.lshEng j := rfl
@[simp] theorem setRun_half (s : State) (i j : Nat) (v : Run) : (s.setRun i v).half j = s.half j := rfl
@[simp] theorem setRun_berth (s : State) (i j : Nat) (v : Run) : (s.setRun i v).berth j = s.berth j := rfl

/-! ### State.setSync -/

@[simp] theorem modSync_eq (s : State) (i : Nat) (g : Sync → Sync) : s.modSync i g = s.setSync i (g (s.sync i)) := rfl
@[simp] theorem setSync_sync (s : State) (i j : Nat) (v : Sync) : (s.setSync i v).sync j = if j = i then v else s.sync j :=
  look_put _ v _ i j
@[simp] theorem setSync_glb (s : State) (i : Nat) (v : Sync) : (s.setSync i v).glb = s.glb := rfl
@[simp] theorem setSync_clk (s : State) (i : Nat) (v : Sync) : (s.setSync i v).clk = s.clk := rfl
@[simp] theorem setSync_queues (s : State) (i : Nat) (v : Sync) : (s.setSync i v).queues = s.queues := rfl
@[simp] theorem setSync_runs (s : State) (i : Nat) (v : Sync) : (s.setSync i v).runs = s.runs := rfl
@[simp] theorem setSync_syncs (s : State) (i : Nat) (v : Sync) : (s.setSync i v).syncs = put ({} : Sync) s.syncs i v := rfl
@[simp] theorem setSync_cores (s : State) (i : Nat) (v : Sync) : (s.setSync i v).cores = s.cores := rfl
@[simp] theorem setSync_clusters (s : State) (i : Nat) (v : Sync) : (s.setSync i v).clusters = s.clusters := rfl
@[simp] theorem setSync_hbr (s : State) (i : Nat) (v : Sync) : (s.setSync i v).hbr = s.hbr := rfl
@[simp] theorem setSync_stks (s : State) (i : Nat) (v : Sync) : (s.setSync i v).stks = s.stks := rfl
@[simp] theorem setSync_shelf (s : State) (i : Nat) (v : Sync) : (s.setSync i v).shelf = s.shelf := rfl
@[simp] theorem setSync_ports (s : State) (i : Nat) (v : Sync) : (s.setSync i v).ports = s.ports := rfl
@[simp] theorem setSync_cwy (s : State) (i : Nat) (v : Sync) : (s.setSync i v).cwy = s.cwy := rfl
@[simp] theorem setSync_codecs (s : State) (i : Nat) (v : Sync) : (s.setSync i v).codecs = s.codecs := rfl
@[simp] theorem setSync_codecQ (s : State) (i : Nat) (v : Sync) : (s.setSync i v).codecQ = s.codecQ := rfl
@[simp] theorem setSync_lsh (s : State) (i : Nat) (v : Sync) : (s.setSync i v).lsh = s.lsh := rfl
@[simp] theorem setSync_lshQ (s : State) (i : Nat) (v : Sync) : (s.setSync i v).lshQ = s.lshQ := rfl
@[simp] theorem setSync_twcH (s : State) (i : Nat) (v : Sync) : (s.setSync i v).twcH = s.twcH := rfl
@[simp] theorem setSync_twc (s : State) (i : Nat) (v : Sync) : (s.setSync i v).twc = s.twc := rfl
@[simp] theorem setSync_sec (s : State) (i : Nat) (v : Sync) : (s.setSync i v).sec = s.sec := rfl
@[simp] theorem setSync_dbg (s : State) (i : Nat) (v : Sync) : (s.setSync i v).dbg = s.dbg := rfl
@[simp] theorem setSync_trec (s : State) (i : Nat) (v : Sync) : (s.setSync i v).trec = s.trec := rfl
@[simp] theorem setSync_berths (s : State) (i : Nat) (v : Sync) : (s.setSync i v).berths = s.berths := rfl
@[simp] theorem setSync_arbs (s : State) (i : Nat) (v : Sync) : (s.setSync i v).arbs = s.arbs := rfl
@[simp] theorem setSync_mem (s : State) (i : Nat) (v : Sync) : (s.setSync i v).mem = s.mem := rfl
@[simp] theorem setSync_moor (s : State) (i : Nat) (v : Sync) : (s.setSync i v).moor = s.moor := rfl
@[simp] theorem setSync_trays (s : State) (i : Nat) (v : Sync) : (s.setSync i v).trays = s.trays := rfl
@[simp] theorem setSync_units (s : State) (i : Nat) (v : Sync) : (s.setSync i v).units = s.units := rfl
@[simp] theorem setSync_delivered (s : State) (i : Nat) (v : Sync) : (s.setSync i v).delivered = s.delivered := rfl
@[simp] theorem setSync_pageLast (s : State) (i : Nat) (v : Sync) : (s.setSync i v).pageLast = s.pageLast := rfl
@[simp] theorem setSync_moorUnits (s : State) (i : Nat) (v : Sync) : (s.setSync i v).moorUnits = s.moorUnits := rfl
@[simp] theorem setSync_readySeq (s : State) (i : Nat) (v : Sync) : (s.setSync i v).readySeq = s.readySeq := rfl
@[simp] theorem setSync_fresh (s : State) (i : Nat) (v : Sync) : (s.setSync i v).fresh = s.fresh := rfl
@[simp] theorem setSync_out (s : State) (i : Nat) (v : Sync) : (s.setSync i v).out = s.out := rfl
@[simp] theorem setSync_pending (s : State) (i : Nat) (v : Sync) : (s.setSync i v).pending = s.pending := rfl
@[simp] theorem setSync_queue (s : State) (i j : Nat) (v : Sync) : (s.setSync i v).queue j = s.queue j := rfl
@[simp] theorem setSync_run (s : State) (i j : Nat) (v : Sync) : (s.setSync i v).run j = s.run j := rfl
@[simp] theorem setSync_core (s : State) (i j : Nat) (v : Sync) : (s.setSync i v).core j = s.core j := rfl
@[simp] theorem setSync_cluster (s : State) (i j : Nat) (v : Sync) : (s.setSync i v).cluster j = s.cluster j := rfl
@[simp] theorem setSync_harbour (s : State) (i j : Nat) (v : Sync) : (s.setSync i v).harbour j = s.harbour j := rfl
@[simp] theorem setSync_stack (s : State) (i j : Nat) (v : Sync) : (s.setSync i v).stack j = s.stack j := rfl
@[simp] theorem setSync_port (s : State) (i j : Nat) (v : Sync) : (s.setSync i v).port j = s.port j := rfl
@[simp] theorem setSync_codecEng (s : State) (i j : Nat) (v : Sync) : (s.setSync i v).codecEng j = s.codecEng j := rfl
@[simp] theorem setSync_lshEng (s : State) (i j : Nat) (v : Sync) : (s.setSync i v).lshEng j = s.lshEng j := rfl
@[simp] theorem setSync_half (s : State) (i j : Nat) (v : Sync) : (s.setSync i v).half j = s.half j := rfl
@[simp] theorem setSync_berth (s : State) (i j : Nat) (v : Sync) : (s.setSync i v).berth j = s.berth j := rfl

/-! ### State.setCore -/

@[simp] theorem modCore_eq (s : State) (i : Nat) (g : Core → Core) : s.modCore i g = s.setCore i (g (s.core i)) := rfl
@[simp] theorem setCore_core (s : State) (i j : Nat) (v : Core) : (s.setCore i v).core j = if j = i then v else s.core j :=
  look_put _ v _ i j
@[simp] theorem setCore_glb (s : State) (i : Nat) (v : Core) : (s.setCore i v).glb = s.glb := rfl
@[simp] theorem setCore_clk (s : State) (i : Nat) (v : Core) : (s.setCore i v).clk = s.clk := rfl
@[simp] theorem setCore_queues (s : State) (i : Nat) (v : Core) : (s.setCore i v).queues = s.queues := rfl
@[simp] theorem setCore_runs (s : State) (i : Nat) (v : Core) : (s.setCore i v).runs = s.runs := rfl
@[simp] theorem setCore_syncs (s : State) (i : Nat) (v : Core) : (s.setCore i v).syncs = s.syncs := rfl
@[simp] theorem setCore_cores (s : State) (i : Nat) (v : Core) : (s.setCore i v).cores = put ({} : Core) s.cores i v := rfl
@[simp] theorem setCore_clusters (s : State) (i : Nat) (v : Core) : (s.setCore i v).clusters = s.clusters := rfl
@[simp] theorem setCore_hbr (s : State) (i : Nat) (v : Core) : (s.setCore i v).hbr = s.hbr := rfl
@[simp] theorem setCore_stks (s : State) (i : Nat) (v : Core) : (s.setCore i v).stks = s.stks := rfl
@[simp] theorem setCore_shelf (s : State) (i : Nat) (v : Core) : (s.setCore i v).shelf = s.shelf := rfl
@[simp] theorem setCore_ports (s : State) (i : Nat) (v : Core) : (s.setCore i v).ports = s.ports := rfl
@[simp] theorem setCore_cwy (s : State) (i : Nat) (v : Core) : (s.setCore i v).cwy = s.cwy := rfl
@[simp] theorem setCore_codecs (s : State) (i : Nat) (v : Core) : (s.setCore i v).codecs = s.codecs := rfl
@[simp] theorem setCore_codecQ (s : State) (i : Nat) (v : Core) : (s.setCore i v).codecQ = s.codecQ := rfl
@[simp] theorem setCore_lsh (s : State) (i : Nat) (v : Core) : (s.setCore i v).lsh = s.lsh := rfl
@[simp] theorem setCore_lshQ (s : State) (i : Nat) (v : Core) : (s.setCore i v).lshQ = s.lshQ := rfl
@[simp] theorem setCore_twcH (s : State) (i : Nat) (v : Core) : (s.setCore i v).twcH = s.twcH := rfl
@[simp] theorem setCore_twc (s : State) (i : Nat) (v : Core) : (s.setCore i v).twc = s.twc := rfl
@[simp] theorem setCore_sec (s : State) (i : Nat) (v : Core) : (s.setCore i v).sec = s.sec := rfl
@[simp] theorem setCore_dbg (s : State) (i : Nat) (v : Core) : (s.setCore i v).dbg = s.dbg := rfl
@[simp] theorem setCore_trec (s : State) (i : Nat) (v : Core) : (s.setCore i v).trec = s.trec := rfl
@[simp] theorem setCore_berths (s : State) (i : Nat) (v : Core) : (s.setCore i v).berths = s.berths := rfl
@[simp] theorem setCore_arbs (s : State) (i : Nat) (v : Core) : (s.setCore i v).arbs = s.arbs := rfl
@[simp] theorem setCore_mem (s : State) (i : Nat) (v : Core) : (s.setCore i v).mem = s.mem := rfl
@[simp] theorem setCore_moor (s : State) (i : Nat) (v : Core) : (s.setCore i v).moor = s.moor := rfl
@[simp] theorem setCore_trays (s : State) (i : Nat) (v : Core) : (s.setCore i v).trays = s.trays := rfl
@[simp] theorem setCore_units (s : State) (i : Nat) (v : Core) : (s.setCore i v).units = s.units := rfl
@[simp] theorem setCore_delivered (s : State) (i : Nat) (v : Core) : (s.setCore i v).delivered = s.delivered := rfl
@[simp] theorem setCore_pageLast (s : State) (i : Nat) (v : Core) : (s.setCore i v).pageLast = s.pageLast := rfl
@[simp] theorem setCore_moorUnits (s : State) (i : Nat) (v : Core) : (s.setCore i v).moorUnits = s.moorUnits := rfl
@[simp] theorem setCore_readySeq (s : State) (i : Nat) (v : Core) : (s.setCore i v).readySeq = s.readySeq := rfl
@[simp] theorem setCore_fresh (s : State) (i : Nat) (v : Core) : (s.setCore i v).fresh = s.fresh := rfl
@[simp] theorem setCore_out (s : State) (i : Nat) (v : Core) : (s.setCore i v).out = s.out := rfl
@[simp] theorem setCore_pending (s : State) (i : Nat) (v : Core) : (s.setCore i v).pending = s.pending := rfl
@[simp] theorem setCore_queue (s : State) (i j : Nat) (v : Core) : (s.setCore i v).queue j = s.queue j := rfl
@[simp] theorem setCore_run (s : State) (i j : Nat) (v : Core) : (s.setCore i v).run j = s.run j := rfl
@[simp] theorem setCore_sync (s : State) (i j : Nat) (v : Core) : (s.setCore i v).sync j = s.sync j := rfl
@[simp] theorem setCore_cluster (s : State) (i j : Nat) (v : Core) : (s.setCore i v).cluster j = s.cluster j := rfl
@[simp] theorem setCore_harbour (s : State) (i j : Nat) (v : Core) : (s.setCore i v).harbour j = s.harbour j := rfl
@[simp] theorem setCore_stack (s : State) (i j : Nat) (v : Core) : (s.setCore i v).stack j = s.stack j := rfl
@[simp] theorem setCore_port (s : State) (i j : Nat) (v : Core) : (s.setCore i v).port j = s.port j := rfl
@[simp] theorem setCore_codecEng (s : State) (i j : Nat) (v : Core) : (s.setCore i v).codecEng j = s.codecEng j := rfl
@[simp] theorem setCore_lshEng (s : State) (i j : Nat) (v : Core) : (s.setCore i v).lshEng j = s.lshEng j := rfl
@[simp] theorem setCore_half (s : State) (i j : Nat) (v : Core) : (s.setCore i v).half j = s.half j := rfl
@[simp] theorem setCore_berth (s : State) (i j : Nat) (v : Core) : (s.setCore i v).berth j = s.berth j := rfl

/-! ### State.setCluster -/

@[simp] theorem modCluster_eq (s : State) (i : Nat) (g : Cluster → Cluster) : s.modCluster i g = s.setCluster i (g (s.cluster i)) := rfl
@[simp] theorem setCluster_cluster (s : State) (i j : Nat) (v : Cluster) : (s.setCluster i v).cluster j = if j = i then v else s.cluster j :=
  look_put _ v _ i j
@[simp] theorem setCluster_glb (s : State) (i : Nat) (v : Cluster) : (s.setCluster i v).glb = s.glb := rfl
@[simp] theorem setCluster_clk (s : State) (i : Nat) (v : Cluster) : (s.setCluster i v).clk = s.clk := rfl
@[simp] theorem setCluster_queues (s : State) (i : Nat) (v : Cluster) : (s.setCluster i v).queues = s.queues := rfl
@[simp] theorem setCluster_runs (s : State) (i : Nat) (v : Cluster) : (s.setCluster i v).runs = s.runs := rfl
@[simp] theorem setCluster_syncs (s : State) (i : Nat) (v : Cluster) : (s.setCluster i v).syncs = s.syncs := rfl
@[simp] theorem setCluster_cores (s : State) (i : Nat) (v : Cluster) : (s.setCluster i v).cores = s.cores := rfl
@[simp] theorem setCluster_clusters (s : State) (i : Nat) (v : Cluster) : (s.setCluster i v).clusters = put ({} : Cluster) s.clusters i v := rfl
@[simp] theorem setCluster_hbr (s : State) (i : Nat) (v : Cluster) : (s.setCluster i v).hbr = s.hbr := rfl
@[simp] theorem setCluster_stks (s : State) (i : Nat) (v : Cluster) : (s.setCluster i v).stks = s.stks := rfl
@[simp] theorem setCluster_shelf (s : State) (i : Nat) (v : Cluster) : (s.setCluster i v).shelf = s.shelf := rfl
@[simp] theorem setCluster_ports (s : State) (i : Nat) (v : Cluster) : (s.setCluster i v).ports = s.ports := rfl
@[simp] theorem setCluster_cwy (s : State) (i : Nat) (v : Cluster) : (s.setCluster i v).cwy = s.cwy := rfl
@[simp] theorem setCluster_codecs (s : State) (i : Nat) (v : Cluster) : (s.setCluster i v).codecs = s.codecs := rfl
@[simp] theorem setCluster_codecQ (s : State) (i : Nat) (v : Cluster) : (s.setCluster i v).codecQ = s.codecQ := rfl
@[simp] theorem setCluster_lsh (s : State) (i : Nat) (v : Cluster) : (s.setCluster i v).lsh = s.lsh := rfl
@[simp] theorem setCluster_lshQ (s : State) (i : Nat) (v : Cluster) : (s.setCluster i v).lshQ = s.lshQ := rfl
@[simp] theorem setCluster_twcH (s : State) (i : Nat) (v : Cluster) : (s.setCluster i v).twcH = s.twcH := rfl
@[simp] theorem setCluster_twc (s : State) (i : Nat) (v : Cluster) : (s.setCluster i v).twc = s.twc := rfl
@[simp] theorem setCluster_sec (s : State) (i : Nat) (v : Cluster) : (s.setCluster i v).sec = s.sec := rfl
@[simp] theorem setCluster_dbg (s : State) (i : Nat) (v : Cluster) : (s.setCluster i v).dbg = s.dbg := rfl
@[simp] theorem setCluster_trec (s : State) (i : Nat) (v : Cluster) : (s.setCluster i v).trec = s.trec := rfl
@[simp] theorem setCluster_berths (s : State) (i : Nat) (v : Cluster) : (s.setCluster i v).berths = s.berths := rfl
@[simp] theorem setCluster_arbs (s : State) (i : Nat) (v : Cluster) : (s.setCluster i v).arbs = s.arbs := rfl
@[simp] theorem setCluster_mem (s : State) (i : Nat) (v : Cluster) : (s.setCluster i v).mem = s.mem := rfl
@[simp] theorem setCluster_moor (s : State) (i : Nat) (v : Cluster) : (s.setCluster i v).moor = s.moor := rfl
@[simp] theorem setCluster_trays (s : State) (i : Nat) (v : Cluster) : (s.setCluster i v).trays = s.trays := rfl
@[simp] theorem setCluster_units (s : State) (i : Nat) (v : Cluster) : (s.setCluster i v).units = s.units := rfl
@[simp] theorem setCluster_delivered (s : State) (i : Nat) (v : Cluster) : (s.setCluster i v).delivered = s.delivered := rfl
@[simp] theorem setCluster_pageLast (s : State) (i : Nat) (v : Cluster) : (s.setCluster i v).pageLast = s.pageLast := rfl
@[simp] theorem setCluster_moorUnits (s : State) (i : Nat) (v : Cluster) : (s.setCluster i v).moorUnits = s.moorUnits := rfl
@[simp] theorem setCluster_readySeq (s : State) (i : Nat) (v : Cluster) : (s.setCluster i v).readySeq = s.readySeq := rfl
@[simp] theorem setCluster_fresh (s : State) (i : Nat) (v : Cluster) : (s.setCluster i v).fresh = s.fresh := rfl
@[simp] theorem setCluster_out (s : State) (i : Nat) (v : Cluster) : (s.setCluster i v).out = s.out := rfl
@[simp] theorem setCluster_pending (s : State) (i : Nat) (v : Cluster) : (s.setCluster i v).pending = s.pending := rfl
@[simp] theorem setCluster_queue (s : State) (i j : Nat) (v : Cluster) : (s.setCluster i v).queue j = s.queue j := rfl
@[simp] theorem setCluster_run (s : State) (i j : Nat) (v : Cluster) : (s.setCluster i v).run j = s.run j := rfl
@[simp] theorem setCluster_sync (s : State) (i j : Nat) (v : Cluster) : (s.setCluster i v).sync j = s.sync j := rfl
@[simp] theorem setCluster_core (s : State) (i j : Nat) (v : Cluster) : (s.setCluster i v).core j = s.core j := rfl
@[simp] theorem setCluster_harbour (s : State) (i j : Nat) (v : Cluster) : (s.setCluster i v).harbour j = s.harbour j := rfl
@[simp] theorem setCluster_stack (s : State) (i j : Nat) (v : Cluster) : (s.setCluster i v).stack j = s.stack j := rfl
@[simp] theorem setCluster_port (s : State) (i j : Nat) (v : Cluster) : (s.setCluster i v).port j = s.port j := rfl
@[simp] theorem setCluster_codecEng (s : State) (i j : Nat) (v : Cluster) : (s.setCluster i v).codecEng j = s.codecEng j := rfl
@[simp] theorem setCluster_lshEng (s : State) (i j : Nat) (v : Cluster) : (s.setCluster i v).lshEng j = s.lshEng j := rfl
@[simp] theorem setCluster_half (s : State) (i j : Nat) (v : Cluster) : (s.setCluster i v).half j = s.half j := rfl
@[simp] theorem setCluster_berth (s : State) (i j : Nat) (v : Cluster) : (s.setCluster i v).berth j = s.berth j := rfl

/-! ### State.setHarbour -/

@[simp] theorem modHarbour_eq (s : State) (i : Nat) (g : Hbr → Hbr) : s.modHarbour i g = s.setHarbour i (g (s.harbour i)) := rfl
@[simp] theorem setHarbour_harbour (s : State) (i j : Nat) (v : Hbr) : (s.setHarbour i v).harbour j = if j = i then v else s.harbour j :=
  look_put _ v _ i j
@[simp] theorem setHarbour_glb (s : State) (i : Nat) (v : Hbr) : (s.setHarbour i v).glb = s.glb := rfl
@[simp] theorem setHarbour_clk (s : State) (i : Nat) (v : Hbr) : (s.setHarbour i v).clk = s.clk := rfl
@[simp] theorem setHarbour_queues (s : State) (i : Nat) (v : Hbr) : (s.setHarbour i v).queues = s.queues := rfl
@[simp] theorem setHarbour_runs (s : State) (i : Nat) (v : Hbr) : (s.setHarbour i v).runs = s.runs := rfl
@[simp] theorem setHarbour_syncs (s : State) (i : Nat) (v : Hbr) : (s.setHarbour i v).syncs = s.syncs := rfl
@[simp] theorem setHarbour_cores (s : State) (i : Nat) (v : Hbr) : (s.setHarbour i v).cores = s.cores := rfl
@[simp] theorem setHarbour_clusters (s : State) (i : Nat) (v : Hbr) : (s.setHarbour i v).clusters = s.clusters := rfl
@[simp] theorem setHarbour_hbr (s : State) (i : Nat) (v : Hbr) : (s.setHarbour i v).hbr = put ({} : Hbr) s.hbr i v := rfl
@[simp] theorem setHarbour_stks (s : State) (i : Nat) (v : Hbr) : (s.setHarbour i v).stks = s.stks := rfl
@[simp] theorem setHarbour_shelf (s : State) (i : Nat) (v : Hbr) : (s.setHarbour i v).shelf = s.shelf := rfl
@[simp] theorem setHarbour_ports (s : State) (i : Nat) (v : Hbr) : (s.setHarbour i v).ports = s.ports := rfl
@[simp] theorem setHarbour_cwy (s : State) (i : Nat) (v : Hbr) : (s.setHarbour i v).cwy = s.cwy := rfl
@[simp] theorem setHarbour_codecs (s : State) (i : Nat) (v : Hbr) : (s.setHarbour i v).codecs = s.codecs := rfl
@[simp] theorem setHarbour_codecQ (s : State) (i : Nat) (v : Hbr) : (s.setHarbour i v).codecQ = s.codecQ := rfl
@[simp] theorem setHarbour_lsh (s : State) (i : Nat) (v : Hbr) : (s.setHarbour i v).lsh = s.lsh := rfl
@[simp] theorem setHarbour_lshQ (s : State) (i : Nat) (v : Hbr) : (s.setHarbour i v).lshQ = s.lshQ := rfl
@[simp] theorem setHarbour_twcH (s : State) (i : Nat) (v : Hbr) : (s.setHarbour i v).twcH = s.twcH := rfl
@[simp] theorem setHarbour_twc (s : State) (i : Nat) (v : Hbr) : (s.setHarbour i v).twc = s.twc := rfl
@[simp] theorem setHarbour_sec (s : State) (i : Nat) (v : Hbr) : (s.setHarbour i v).sec = s.sec := rfl
@[simp] theorem setHarbour_dbg (s : State) (i : Nat) (v : Hbr) : (s.setHarbour i v).dbg = s.dbg := rfl
@[simp] theorem setHarbour_trec (s : State) (i : Nat) (v : Hbr) : (s.setHarbour i v).trec = s.trec := rfl
@[simp] theorem setHarbour_berths (s : State) (i : Nat) (v : Hbr) : (s.setHarbour i v).berths = s.berths := rfl
@[simp] theorem setHarbour_arbs (s : State) (i : Nat) (v : Hbr) : (s.setHarbour i v).arbs = s.arbs := rfl
@[simp] theorem setHarbour_mem (s : State) (i : Nat) (v : Hbr) : (s.setHarbour i v).mem = s.mem := rfl
@[simp] theorem setHarbour_moor (s : State) (i : Nat) (v : Hbr) : (s.setHarbour i v).moor = s.moor := rfl
@[simp] theorem setHarbour_trays (s : State) (i : Nat) (v : Hbr) : (s.setHarbour i v).trays = s.trays := rfl
@[simp] theorem setHarbour_units (s : State) (i : Nat) (v : Hbr) : (s.setHarbour i v).units = s.units := rfl
@[simp] theorem setHarbour_delivered (s : State) (i : Nat) (v : Hbr) : (s.setHarbour i v).delivered = s.delivered := rfl
@[simp] theorem setHarbour_pageLast (s : State) (i : Nat) (v : Hbr) : (s.setHarbour i v).pageLast = s.pageLast := rfl
@[simp] theorem setHarbour_moorUnits (s : State) (i : Nat) (v : Hbr) : (s.setHarbour i v).moorUnits = s.moorUnits := rfl
@[simp] theorem setHarbour_readySeq (s : State) (i : Nat) (v : Hbr) : (s.setHarbour i v).readySeq = s.readySeq := rfl
@[simp] theorem setHarbour_fresh (s : State) (i : Nat) (v : Hbr) : (s.setHarbour i v).fresh = s.fresh := rfl
@[simp] theorem setHarbour_out (s : State) (i : Nat) (v : Hbr) : (s.setHarbour i v).out = s.out := rfl
@[simp] theorem setHarbour_pending (s : State) (i : Nat) (v : Hbr) : (s.setHarbour i v).pending = s.pending := rfl
@[simp] theorem setHarbour_queue (s : State) (i j : Nat) (v : Hbr) : (s.setHarbour i v).queue j = s.queue j := rfl
@[simp] theorem setHarbour_run (s : State) (i j : Nat) (v : Hbr) : (s.setHarbour i v).run j = s.run j := rfl
@[simp] theorem setHarbour_sync (s : State) (i j : Nat) (v : Hbr) : (s.setHarbour i v).sync j = s.sync j := rfl
@[simp] theorem setHarbour_core (s : State) (i j : Nat) (v : Hbr) : (s.setHarbour i v).core j = s.core j := rfl
@[simp] theorem setHarbour_cluster (s : State) (i j : Nat) (v : Hbr) : (s.setHarbour i v).cluster j = s.cluster j := rfl
@[simp] theorem setHarbour_stack (s : State) (i j : Nat) (v : Hbr) : (s.setHarbour i v).stack j = s.stack j := rfl
@[simp] theorem setHarbour_port (s : State) (i j : Nat) (v : Hbr) : (s.setHarbour i v).port j = s.port j := rfl
@[simp] theorem setHarbour_codecEng (s : State) (i j : Nat) (v : Hbr) : (s.setHarbour i v).codecEng j = s.codecEng j := rfl
@[simp] theorem setHarbour_lshEng (s : State) (i j : Nat) (v : Hbr) : (s.setHarbour i v).lshEng j = s.lshEng j := rfl
@[simp] theorem setHarbour_half (s : State) (i j : Nat) (v : Hbr) : (s.setHarbour i v).half j = s.half j := rfl
@[simp] theorem setHarbour_berth (s : State) (i j : Nat) (v : Hbr) : (s.setHarbour i v).berth j = s.berth j := rfl

/-! ### State.setStack -/

@[simp] theorem modStack_eq (s : State) (i : Nat) (g : Stack → Stack) : s.modStack i g = s.setStack i (g (s.stack i)) := rfl
@[simp] theorem setStack_stack (s : State) (i j : Nat) (v : Stack) : (s.setStack i v).stack j = if j = i then v else s.stack j :=
  look_put _ v _ i j
@[simp] theorem setStack_glb (s : State) (i : Nat) (v : Stack) : (s.setStack i v).glb = s.glb := rfl
@[simp] theorem setStack_clk (s : State) (i : Nat) (v : Stack) : (s.setStack i v).clk = s.clk := rfl
@[simp] theorem setStack_queues (s : State) (i : Nat) (v : Stack) : (s.setStack i v).queues = s.queues := rfl
@[simp] theorem setStack_runs (s : State) (i : Nat) (v : Stack) : (s.setStack i v).runs = s.runs := rfl
@[simp] theorem setStack_syncs (s : State) (i : Nat) (v : Stack) : (s.setStack i v).syncs = s.syncs := rfl
@[simp] theorem setStack_cores (s : State) (i : Nat) (v : Stack) : (s.setStack i v).cores = s.cores := rfl
@[simp] theorem setStack_clusters (s : State) (i : Nat) (v : Stack) : (s.setStack i v).clusters = s.clusters := rfl
@[simp] theorem setStack_hbr (s : State) (i : Nat) (v : Stack) : (s.setStack i v).hbr = s.hbr := rfl
@[simp] theorem setStack_stks (s : State) (i : Nat) (v : Stack) : (s.setStack i v).stks = put ({} : Stack) s.stks i v := rfl
@[simp] theorem setStack_shelf (s : State) (i : Nat) (v : Stack) : (s.setStack i v).shelf = s.shelf := rfl
@[simp] theorem setStack_ports (s : State) (i : Nat) (v : Stack) : (s.setStack i v).ports = s.ports := rfl
@[simp] theorem setStack_cwy (s : State) (i : Nat) (v : Stack) : (s.setStack i v).cwy = s.cwy := rfl
@[simp] theorem setStack_codecs (s : State) (i : Nat) (v : Stack) : (s.setStack i v).codecs = s.codecs := rfl
@[simp] theorem setStack_codecQ (s : State) (i : Nat) (v : Stack) : (s.setStack i v).codecQ = s.codecQ := rfl
@[simp] theorem setStack_lsh (s : State) (i : Nat) (v : Stack) : (s.setStack i v).lsh = s.lsh := rfl
@[simp] theorem setStack_lshQ (s : State) (i : Nat) (v : Stack) : (s.setStack i v).lshQ = s.lshQ := rfl
@[simp] theorem setStack_twcH (s : State) (i : Nat) (v : Stack) : (s.setStack i v).twcH = s.twcH := rfl
@[simp] theorem setStack_twc (s : State) (i : Nat) (v : Stack) : (s.setStack i v).twc = s.twc := rfl
@[simp] theorem setStack_sec (s : State) (i : Nat) (v : Stack) : (s.setStack i v).sec = s.sec := rfl
@[simp] theorem setStack_dbg (s : State) (i : Nat) (v : Stack) : (s.setStack i v).dbg = s.dbg := rfl
@[simp] theorem setStack_trec (s : State) (i : Nat) (v : Stack) : (s.setStack i v).trec = s.trec := rfl
@[simp] theorem setStack_berths (s : State) (i : Nat) (v : Stack) : (s.setStack i v).berths = s.berths := rfl
@[simp] theorem setStack_arbs (s : State) (i : Nat) (v : Stack) : (s.setStack i v).arbs = s.arbs := rfl
@[simp] theorem setStack_mem (s : State) (i : Nat) (v : Stack) : (s.setStack i v).mem = s.mem := rfl
@[simp] theorem setStack_moor (s : State) (i : Nat) (v : Stack) : (s.setStack i v).moor = s.moor := rfl
@[simp] theorem setStack_trays (s : State) (i : Nat) (v : Stack) : (s.setStack i v).trays = s.trays := rfl
@[simp] theorem setStack_units (s : State) (i : Nat) (v : Stack) : (s.setStack i v).units = s.units := rfl
@[simp] theorem setStack_delivered (s : State) (i : Nat) (v : Stack) : (s.setStack i v).delivered = s.delivered := rfl
@[simp] theorem setStack_pageLast (s : State) (i : Nat) (v : Stack) : (s.setStack i v).pageLast = s.pageLast := rfl
@[simp] theorem setStack_moorUnits (s : State) (i : Nat) (v : Stack) : (s.setStack i v).moorUnits = s.moorUnits := rfl
@[simp] theorem setStack_readySeq (s : State) (i : Nat) (v : Stack) : (s.setStack i v).readySeq = s.readySeq := rfl
@[simp] theorem setStack_fresh (s : State) (i : Nat) (v : Stack) : (s.setStack i v).fresh = s.fresh := rfl
@[simp] theorem setStack_out (s : State) (i : Nat) (v : Stack) : (s.setStack i v).out = s.out := rfl
@[simp] theorem setStack_pending (s : State) (i : Nat) (v : Stack) : (s.setStack i v).pending = s.pending := rfl
@[simp] theorem setStack_queue (s : State) (i j : Nat) (v : Stack) : (s.setStack i v).queue j = s.queue j := rfl
@[simp] theorem setStack_run (s : State) (i j : Nat) (v : Stack) : (s.setStack i v).run j = s.run j := rfl
@[simp] theorem setStack_sync (s : State) (i j : Nat) (v : Stack) : (s.setStack i v).sync j = s.sync j := rfl
@[simp] theorem setStack_core (s : State) (i j : Nat) (v : Stack) : (s.setStack i v).core j = s.core j := rfl
@[simp] theorem setStack_cluster (s : State) (i j : Nat) (v : Stack) : (s.setStack i v).cluster j = s.cluster j := rfl
@[simp] theorem setStack_harbour (s : State) (i j : Nat) (v : Stack) : (s.setStack i v).harbour j = s.harbour j := rfl
@[simp] theorem setStack_port (s : State) (i j : Nat) (v : Stack) : (s.setStack i v).port j = s.port j := rfl
@[simp] theorem setStack_codecEng (s : State) (i j : Nat) (v : Stack) : (s.setStack i v).codecEng j = s.codecEng j := rfl
@[simp] theorem setStack_lshEng (s : State) (i j : Nat) (v : Stack) : (s.setStack i v).lshEng j = s.lshEng j := rfl
@[simp] theorem setStack_half (s : State) (i j : Nat) (v : Stack) : (s.setStack i v).half j = s.half j := rfl
@[simp] theorem setStack_berth (s : State) (i j : Nat) (v : Stack) : (s.setStack i v).berth j = s.berth j := rfl

/-! ### State.setPort -/

@[simp] theorem modPort_eq (s : State) (i : Nat) (g : Port → Port) : s.modPort i g = s.setPort i (g (s.port i)) := rfl
@[simp] theorem setPort_port (s : State) (i j : Nat) (v : Port) : (s.setPort i v).port j = if j = i then v else s.port j :=
  look_put _ v _ i j
@[simp] theorem setPort_glb (s : State) (i : Nat) (v : Port) : (s.setPort i v).glb = s.glb := rfl
@[simp] theorem setPort_clk (s : State) (i : Nat) (v : Port) : (s.setPort i v).clk = s.clk := rfl
@[simp] theorem setPort_queues (s : State) (i : Nat) (v : Port) : (s.setPort i v).queues = s.queues := rfl
@[simp] theorem setPort_runs (s : State) (i : Nat) (v : Port) : (s.setPort i v).runs = s.runs := rfl
@[simp] theorem setPort_syncs (s : State) (i : Nat) (v : Port) : (s.setPort i v).syncs = s.syncs := rfl
@[simp] theorem setPort_cores (s : State) (i : Nat) (v : Port) : (s.setPort i v).cores = s.cores := rfl
@[simp] theorem setPort_clusters (s : State) (i : Nat) (v : Port) : (s.setPort i v).clusters = s.clusters := rfl
@[simp] theorem setPort_hbr (s : State) (i : Nat) (v : Port) : (s.setPort i v).hbr = s.hbr := rfl
@[simp] theorem setPort_stks (s : State) (i : Nat) (v : Port) : (s.setPort i v).stks = s.stks := rfl
@[simp] theorem setPort_shelf (s : State) (i : Nat) (v : Port) : (s.setPort i v).shelf = s.shelf := rfl
@[simp] theorem setPort_ports (s : State) (i : Nat) (v : Port) : (s.setPort i v).ports = put ({} : Port) s.ports i v := rfl
@[simp] theorem setPort_cwy (s : State) (i : Nat) (v : Port) : (s.setPort i v).cwy = s.cwy := rfl
@[simp] theorem setPort_codecs (s : State) (i : Nat) (v : Port) : (s.setPort i v).codecs = s.codecs := rfl
@[simp] theorem setPort_codecQ (s : State) (i : Nat) (v : Port) : (s.setPort i v).codecQ = s.codecQ := rfl
@[simp] theorem setPort_lsh (s : State) (i : Nat) (v : Port) : (s.setPort i v).lsh = s.lsh := rfl
@[simp] theorem setPort_lshQ (s : State) (i : Nat) (v : Port) : (s.setPort i v).lshQ = s.lshQ := rfl
@[simp] theorem setPort_twcH (s : State) (i : Nat) (v : Port) : (s.setPort i v).twcH = s.twcH := rfl
@[simp] theorem setPort_twc (s : State) (i : Nat) (v : Port) : (s.setPort i v).twc = s.twc := rfl
@[simp] theorem setPort_sec (s : State) (i : Nat) (v : Port) : (s.setPort i v).sec = s.sec := rfl
@[simp] theorem setPort_dbg (s : State) (i : Nat) (v : Port) : (s.setPort i v).dbg = s.dbg := rfl
@[simp] theorem setPort_trec (s : State) (i : Nat) (v : Port) : (s.setPort i v).trec = s.trec := rfl
@[simp] theorem setPort_berths (s : State) (i : Nat) (v : Port) : (s.setPort i v).berths = s.berths := rfl
@[simp] theorem setPort_arbs (s : State) (i : Nat) (v : Port) : (s.setPort i v).arbs = s.arbs := rfl
@[simp] theorem setPort_mem (s : State) (i : Nat) (v : Port) : (s.setPort i v).mem = s.mem := rfl
@[simp] theorem setPort_moor (s : State) (i : Nat) (v : Port) : (s.setPort i v).moor = s.moor := rfl
@[simp] theorem setPort_trays (s : State) (i : Nat) (v : Port) : (s.setPort i v).trays = s.trays := rfl
@[simp] theorem setPort_units (s : State) (i : Nat) (v : Port) : (s.setPort i v).units = s.units := rfl
@[simp] theorem setPort_delivered (s : State) (i : Nat) (v : Port) : (s.setPort i v).delivered = s.delivered := rfl
@[simp] theorem setPort_pageLast (s : State) (i : Nat) (v : Port) : (s.setPort i v).pageLast = s.pageLast := rfl
@[simp] theorem setPort_moorUnits (s : State) (i : Nat) (v : Port) : (s.setPort i v).moorUnits = s.moorUnits := rfl
@[simp] theorem setPort_readySeq (s : State) (i : Nat) (v : Port) : (s.setPort i v).readySeq = s.readySeq := rfl
@[simp] theorem setPort_fresh (s : State) (i : Nat) (v : Port) : (s.setPort i v).fresh = s.fresh := rfl
@[simp] theorem setPort_out (s : State) (i : Nat) (v : Port) : (s.setPort i v).out = s.out := rfl
@[simp] theorem setPort_pending (s : State) (i : Nat) (v : Port) : (s.setPort i v).pending = s.pending := rfl
@[simp] theorem setPort_queue (s : State) (i j : Nat) (v : Port) : (s.setPort i v).queue j = s.queue j := rfl
@[simp] theorem setPort_run (s : State) (i j : Nat) (v : Port) : (s.setPort i v).run j = s.run j := rfl
@[simp] theorem setPort_sync (s : State) (i j : Nat) (v : Port) : (s.setPort i v).sync j = s.sync j := rfl
@[simp] theorem setPort_core (s : State) (i j : Nat) (v : Port) : (s.setPort i v).core j = s.core j := rfl
@[simp] theorem setPort_cluster (s : State) (i j : Nat) (v : Port) : (s.setPort i v).cluster j = s.cluster j := rfl
@[simp] theorem setPort_harbour (s : State) (i j : Nat) (v : Port) : (s.setPort i v).harbour j = s.harbour j := rfl
@[simp] theorem setPort_stack (s : State) (i j : Nat) (v : Port) : (s.setPort i v).stack j = s.stack j := rfl
@[simp] theorem setPort_codecEng (s : State) (i j : Nat) (v : Port) : (s.setPort i v).codecEng j = s.codecEng j := rfl
@[simp] theorem setPort_lshEng (s : State) (i j : Nat) (v : Port) : (s.setPort i v).lshEng j = s.lshEng j := rfl
@[simp] theorem setPort_half (s : State) (i j : Nat) (v : Port) : (s.setPort i v).half j = s.half j := rfl
@[simp] theorem setPort_berth (s : State) (i j : Nat) (v : Port) : (s.setPort i v).berth j = s.berth j := rfl

/-! ### State.setCodecEng -/

@[simp] theorem modCodecEng_eq (s : State) (i : Nat) (g : CodecEng → CodecEng) : s.modCodecEng i g = s.setCodecEng i (g (s.codecEng i)) := rfl
@[simp] theorem setCodecEng_codecEng (s : State) (i j : Nat) (v : CodecEng) : (s.setCodecEng i v).codecEng j = if j = i then v else s.codecEng j :=
  look_put _ v _ i j
@[simp] theorem setCodecEng_glb (s : State) (i : Nat) (v : CodecEng) : (s.setCodecEng i v).glb = s.glb := rfl
@[simp] theorem setCodecEng_clk (s : State) (i : Nat) (v : CodecEng) : (s.setCodecEng i v).clk = s.clk := rfl
@[simp] theorem setCodecEng_queues (s : State) (i : Nat) (v : CodecEng) : (s.setCodecEng i v).queues = s.queues := rfl
@[simp] theorem setCodecEng_runs (s : State) (i : Nat) (v : CodecEng) : (s.setCodecEng i v).runs = s.runs := rfl
@[simp] theorem setCodecEng_syncs (s : State) (i : Nat) (v : CodecEng) : (s.setCodecEng i v).syncs = s.syncs := rfl
@[simp] theorem setCodecEng_cores (s : State) (i : Nat) (v : CodecEng) : (s.setCodecEng i v).cores = s.cores := rfl
@[simp] theorem setCodecEng_clusters (s : State) (i : Nat) (v : CodecEng) : (s.setCodecEng i v).clusters = s.clusters := rfl
@[simp] theorem setCodecEng_hbr (s : State) (i : Nat) (v : CodecEng) : (s.setCodecEng i v).hbr = s.hbr := rfl
@[simp] theorem setCodecEng_stks (s : State) (i : Nat) (v : CodecEng) : (s.setCodecEng i v).stks = s.stks := rfl
@[simp] theorem setCodecEng_shelf (s : State) (i : Nat) (v : CodecEng) : (s.setCodecEng i v).shelf = s.shelf := rfl
@[simp] theorem setCodecEng_ports (s : State) (i : Nat) (v : CodecEng) : (s.setCodecEng i v).ports = s.ports := rfl
@[simp] theorem setCodecEng_cwy (s : State) (i : Nat) (v : CodecEng) : (s.setCodecEng i v).cwy = s.cwy := rfl
@[simp] theorem setCodecEng_codecs (s : State) (i : Nat) (v : CodecEng) : (s.setCodecEng i v).codecs = put ({} : CodecEng) s.codecs i v := rfl
@[simp] theorem setCodecEng_codecQ (s : State) (i : Nat) (v : CodecEng) : (s.setCodecEng i v).codecQ = s.codecQ := rfl
@[simp] theorem setCodecEng_lsh (s : State) (i : Nat) (v : CodecEng) : (s.setCodecEng i v).lsh = s.lsh := rfl
@[simp] theorem setCodecEng_lshQ (s : State) (i : Nat) (v : CodecEng) : (s.setCodecEng i v).lshQ = s.lshQ := rfl
@[simp] theorem setCodecEng_twcH (s : State) (i : Nat) (v : CodecEng) : (s.setCodecEng i v).twcH = s.twcH := rfl
@[simp] theorem setCodecEng_twc (s : State) (i : Nat) (v : CodecEng) : (s.setCodecEng i v).twc = s.twc := rfl
@[simp] theorem setCodecEng_sec (s : State) (i : Nat) (v : CodecEng) : (s.setCodecEng i v).sec = s.sec := rfl
@[simp] theorem setCodecEng_dbg (s : State) (i : Nat) (v : CodecEng) : (s.setCodecEng i v).dbg = s.dbg := rfl
@[simp] theorem setCodecEng_trec (s : State) (i : Nat) (v : CodecEng) : (s.setCodecEng i v).trec = s.trec := rfl
@[simp] theorem setCodecEng_berths (s : State) (i : Nat) (v : CodecEng) : (s.setCodecEng i v).berths = s.berths := rfl
@[simp] theorem setCodecEng_arbs (s : State) (i : Nat) (v : CodecEng) : (s.setCodecEng i v).arbs = s.arbs := rfl
@[simp] theorem setCodecEng_mem (s : State) (i : Nat) (v : CodecEng) : (s.setCodecEng i v).mem = s.mem := rfl
@[simp] theorem setCodecEng_moor (s : State) (i : Nat) (v : CodecEng) : (s.setCodecEng i v).moor = s.moor := rfl
@[simp] theorem setCodecEng_trays (s : State) (i : Nat) (v : CodecEng) : (s.setCodecEng i v).trays = s.trays := rfl
@[simp] theorem setCodecEng_units (s : State) (i : Nat) (v : CodecEng) : (s.setCodecEng i v).units = s.units := rfl
@[simp] theorem setCodecEng_delivered (s : State) (i : Nat) (v : CodecEng) : (s.setCodecEng i v).delivered = s.delivered := rfl
@[simp] theorem setCodecEng_pageLast (s : State) (i : Nat) (v : CodecEng) : (s.setCodecEng i v).pageLast = s.pageLast := rfl
@[simp] theorem setCodecEng_moorUnits (s : State) (i : Nat) (v : CodecEng) : (s.setCodecEng i v).moorUnits = s.moorUnits := rfl
@[simp] theorem setCodecEng_readySeq (s : State) (i : Nat) (v : CodecEng) : (s.setCodecEng i v).readySeq = s.readySeq := rfl
@[simp] theorem setCodecEng_fresh (s : State) (i : Nat) (v : CodecEng) : (s.setCodecEng i v).fresh = s.fresh := rfl
@[simp] theorem setCodecEng_out (s : State) (i : Nat) (v : CodecEng) : (s.setCodecEng i v).out = s.out := rfl
@[simp] theorem setCodecEng_pending (s : State) (i : Nat) (v : CodecEng) : (s.setCodecEng i v).pending = s.pending := rfl
@[simp] theorem setCodecEng_queue (s : State) (i j : Nat) (v : CodecEng) : (s.setCodecEng i v).queue j = s.queue j := rfl
@[simp] theorem setCodecEng_run (s : State) (i j : Nat) (v : CodecEng) : (s.setCodecEng i v).run j = s.run j := rfl
@[simp] theorem setCodecEng_sync (s : State) (i j : Nat) (v : CodecEng) : (s.setCodecEng i v).sync j = s.sync j := rfl
@[simp] theorem setCodecEng_core (s : State) (i j : Nat) (v : CodecEng) : (s.setCodecEng i v).core j = s.core j := rfl
@[simp] theorem setCodecEng_cluster (s : State) (i j : Nat) (v : CodecEng) : (s.setCodecEng i v).cluster j = s.cluster j := rfl
@[simp] theorem setCodecEng_harbour (s : State) (i j : Nat) (v : CodecEng) : (s.setCodecEng i v).harbour j = s.harbour j := rfl
@[simp] theorem setCodecEng_stack (s : State) (i j : Nat) (v : CodecEng) : (s.setCodecEng i v).stack j = s.stack j := rfl
@[simp] theorem setCodecEng_port (s : State) (i j : Nat) (v : CodecEng) : (s.setCodecEng i v).port j = s.port j := rfl
@[simp] theorem setCodecEng_lshEng (s : State) (i j : Nat) (v : CodecEng) : (s.setCodecEng i v).lshEng j = s.lshEng j := rfl
@[simp] theorem setCodecEng_half (s : State) (i j : Nat) (v : CodecEng) : (s.setCodecEng i v).half j = s.half j := rfl
@[simp] theorem setCodecEng_berth (s : State) (i j : Nat) (v : CodecEng) : (s.setCodecEng i v).berth j = s.berth j := rfl

/-! ### State.setLshEng -/

@[simp] theorem modLshEng_eq (s : State) (i : Nat) (g : LshEng → LshEng) : s.modLshEng i g = s.setLshEng i (g (s.lshEng i)) := rfl
@[simp] theorem setLshEng_lshEng (s : State) (i j : Nat) (v : LshEng) : (s.setLshEng i v).lshEng j = if j = i then v else s.lshEng j :=
  look_put _ v _ i j
@[simp] theorem setLshEng_glb (s : State) (i : Nat) (v : LshEng) : (s.setLshEng i v).glb = s.glb := rfl
@[simp] theorem setLshEng_clk (s : State) (i : Nat) (v : LshEng) : (s.setLshEng i v).clk = s.clk := rfl
@[simp] theorem setLshEng_queues (s : State) (i : Nat) (v : LshEng) : (s.setLshEng i v).queues = s.queues := rfl
@[simp] theorem setLshEng_runs (s : State) (i : Nat) (v : LshEng) : (s.setLshEng i v).runs = s.runs := rfl
@[simp] theorem setLshEng_syncs (s : State) (i : Nat) (v : LshEng) : (s.setLshEng i v).syncs = s.syncs := rfl
@[simp] theorem setLshEng_cores (s : State) (i : Nat) (v : LshEng) : (s.setLshEng i v).cores = s.cores := rfl
@[simp] theorem setLshEng_clusters (s : State) (i : Nat) (v : LshEng) : (s.setLshEng i v).clusters = s.clusters := rfl
@[simp] theorem setLshEng_hbr (s : State) (i : Nat) (v : LshEng) : (s.setLshEng i v).hbr = s.hbr := rfl
@[simp] theorem setLshEng_stks (s : State) (i : Nat) (v : LshEng) : (s.setLshEng i v).stks = s.stks := rfl
@[simp] theorem setLshEng_shelf (s : State) (i : Nat) (v : LshEng) : (s.setLshEng i v).shelf = s.shelf := rfl
@[simp] theorem setLshEng_ports (s : State) (i : Nat) (v : LshEng) : (s.setLshEng i v).ports = s.ports := rfl
@[simp] theorem setLshEng_cwy (s : State) (i : Nat) (v : LshEng) : (s.setLshEng i v).cwy = s.cwy := rfl
@[simp] theorem setLshEng_codecs (s : State) (i : Nat) (v : LshEng) : (s.setLshEng i v).codecs = s.codecs := rfl
@[simp] theorem setLshEng_codecQ (s : State) (i : Nat) (v : LshEng) : (s.setLshEng i v).codecQ = s.codecQ := rfl
@[simp] theorem setLshEng_lsh (s : State) (i : Nat) (v : LshEng) : (s.setLshEng i v).lsh = put ({} : LshEng) s.lsh i v := rfl
@[simp] theorem setLshEng_lshQ (s : State) (i : Nat) (v : LshEng) : (s.setLshEng i v).lshQ = s.lshQ := rfl
@[simp] theorem setLshEng_twcH (s : State) (i : Nat) (v : LshEng) : (s.setLshEng i v).twcH = s.twcH := rfl
@[simp] theorem setLshEng_twc (s : State) (i : Nat) (v : LshEng) : (s.setLshEng i v).twc = s.twc := rfl
@[simp] theorem setLshEng_sec (s : State) (i : Nat) (v : LshEng) : (s.setLshEng i v).sec = s.sec := rfl
@[simp] theorem setLshEng_dbg (s : State) (i : Nat) (v : LshEng) : (s.setLshEng i v).dbg = s.dbg := rfl
@[simp] theorem setLshEng_trec (s : State) (i : Nat) (v : LshEng) : (s.setLshEng i v).trec = s.trec := rfl
@[simp] theorem setLshEng_berths (s : State) (i : Nat) (v : LshEng) : (s.setLshEng i v).berths = s.berths := rfl
@[simp] theorem setLshEng_arbs (s : State) (i : Nat) (v : LshEng) : (s.setLshEng i v).arbs = s.arbs := rfl
@[simp] theorem setLshEng_mem (s : State) (i : Nat) (v : LshEng) : (s.setLshEng i v).mem = s.mem := rfl
@[simp] theorem setLshEng_moor (s : State) (i : Nat) (v : LshEng) : (s.setLshEng i v).moor = s.moor := rfl
@[simp] theorem setLshEng_trays (s : State) (i : Nat) (v : LshEng) : (s.setLshEng i v).trays = s.trays := rfl
@[simp] theorem setLshEng_units (s : State) (i : Nat) (v : LshEng) : (s.setLshEng i v).units = s.units := rfl
@[simp] theorem setLshEng_delivered (s : State) (i : Nat) (v : LshEng) : (s.setLshEng i v).delivered = s.delivered := rfl
@[simp] theorem setLshEng_pageLast (s : State) (i : Nat) (v : LshEng) : (s.setLshEng i v).pageLast = s.pageLast := rfl
@[simp] theorem setLshEng_moorUnits (s : State) (i : Nat) (v : LshEng) : (s.setLshEng i v).moorUnits = s.moorUnits := rfl
@[simp] theorem setLshEng_readySeq (s : State) (i : Nat) (v : LshEng) : (s.setLshEng i v).readySeq = s.readySeq := rfl
@[simp] theorem setLshEng_fresh (s : State) (i : Nat) (v : LshEng) : (s.setLshEng i v).fresh = s.fresh := rfl
@[simp] theorem setLshEng_out (s : State) (i : Nat) (v : LshEng) : (s.setLshEng i v).out = s.out := rfl
@[simp] theorem setLshEng_pending (s : State) (i : Nat) (v : LshEng) : (s.setLshEng i v).pending = s.pending := rfl
@[simp] theorem setLshEng_queue (s : State) (i j : Nat) (v : LshEng) : (s.setLshEng i v).queue j = s.queue j := rfl
@[simp] theorem setLshEng_run (s : State) (i j : Nat) (v : LshEng) : (s.setLshEng i v).run j = s.run j := rfl
@[simp] theorem setLshEng_sync (s : State) (i j : Nat) (v : LshEng) : (s.setLshEng i v).sync j = s.sync j := rfl
@[simp] theorem setLshEng_core (s : State) (i j : Nat) (v : LshEng) : (s.setLshEng i v).core j = s.core j := rfl
@[simp] theorem setLshEng_cluster (s : State) (i j : Nat) (v : LshEng) : (s.setLshEng i v).cluster j = s.cluster j := rfl
@[simp] theorem setLshEng_harbour (s : State) (i j : Nat) (v : LshEng) : (s.setLshEng i v).harbour j = s.harbour j := rfl
@[simp] theorem setLshEng_stack (s : State) (i j : Nat) (v : LshEng) : (s.setLshEng i v).stack j = s.stack j := rfl
@[simp] theorem setLshEng_port (s : State) (i j : Nat) (v : LshEng) : (s.setLshEng i v).port j = s.port j := rfl
@[simp] theorem setLshEng_codecEng (s : State) (i j : Nat) (v : LshEng) : (s.setLshEng i v).codecEng j = s.codecEng j := rfl
@[simp] theorem setLshEng_half (s : State) (i j : Nat) (v : LshEng) : (s.setLshEng i v).half j = s.half j := rfl
@[simp] theorem setLshEng_berth (s : State) (i j : Nat) (v : LshEng) : (s.setLshEng i v).berth j = s.berth j := rfl

/-! ### State.setHalf -/

@[simp] theorem modHalf_eq (s : State) (i : Nat) (g : TwcHalf → TwcHalf) : s.modHalf i g = s.setHalf i (g (s.half i)) := rfl
@[simp] theorem setHalf_half (s : State) (i j : Nat) (v : TwcHalf) : (s.setHalf i v).half j = if j = i then v else s.half j :=
  look_put _ v _ i j
@[simp] theorem setHalf_glb (s : State) (i : Nat) (v : TwcHalf) : (s.setHalf i v).glb = s.glb := rfl
@[simp] theorem setHalf_clk (s : State) (i : Nat) (v : TwcHalf) : (s.setHalf i v).clk = s.clk := rfl
@[simp] theorem setHalf_queues (s : State) (i : Nat) (v : TwcHalf) : (s.setHalf i v).queues = s.queues := rfl
@[simp] theorem setHalf_runs (s : State) (i : Nat) (v : TwcHalf) : (s.setHalf i v).runs = s.runs := rfl
@[simp] theorem setHalf_syncs (s : State) (i : Nat) (v : TwcHalf) : (s.setHalf i v).syncs = s.syncs := rfl
@[simp] theorem setHalf_cores (s : State) (i : Nat) (v : TwcHalf) : (s.setHalf i v).cores = s.cores := rfl
@[simp] theorem setHalf_clusters (s : State) (i : Nat) (v : TwcHalf) : (s.setHalf i v).clusters = s.clusters := rfl
@[simp] theorem setHalf_hbr (s : State) (i : Nat) (v : TwcHalf) : (s.setHalf i v).hbr = s.hbr := rfl
@[simp] theorem setHalf_stks (s : State) (i : Nat) (v : TwcHalf) : (s.setHalf i v).stks = s.stks := rfl
@[simp] theorem setHalf_shelf (s : State) (i : Nat) (v : TwcHalf) : (s.setHalf i v).shelf = s.shelf := rfl
@[simp] theorem setHalf_ports (s : State) (i : Nat) (v : TwcHalf) : (s.setHalf i v).ports = s.ports := rfl
@[simp] theorem setHalf_cwy (s : State) (i : Nat) (v : TwcHalf) : (s.setHalf i v).cwy = s.cwy := rfl
@[simp] theorem setHalf_codecs (s : State) (i : Nat) (v : TwcHalf) : (s.setHalf i v).codecs = s.codecs := rfl
@[simp] theorem setHalf_codecQ (s : State) (i : Nat) (v : TwcHalf) : (s.setHalf i v).codecQ = s.codecQ := rfl
@[simp] theorem setHalf_lsh (s : State) (i : Nat) (v : TwcHalf) : (s.setHalf i v).lsh = s.lsh := rfl
@[simp] theorem setHalf_lshQ (s : State) (i : Nat) (v : TwcHalf) : (s.setHalf i v).lshQ = s.lshQ := rfl
@[simp] theorem setHalf_twcH (s : State) (i : Nat) (v : TwcHalf) : (s.setHalf i v).twcH = put ({} : TwcHalf) s.twcH i v := rfl
@[simp] theorem setHalf_twc (s : State) (i : Nat) (v : TwcHalf) : (s.setHalf i v).twc = s.twc := rfl
@[simp] theorem setHalf_sec (s : State) (i : Nat) (v : TwcHalf) : (s.setHalf i v).sec = s.sec := rfl
@[simp] theorem setHalf_dbg (s : State) (i : Nat) (v : TwcHalf) : (s.setHalf i v).dbg = s.dbg := rfl
@[simp] theorem setHalf_trec (s : State) (i : Nat) (v : TwcHalf) : (s.setHalf i v).trec = s.trec := rfl
@[simp] theorem setHalf_berths (s : State) (i : Nat) (v : TwcHalf) : (s.setHalf i v).berths = s.berths := rfl
@[simp] theorem setHalf_arbs (s : State) (i : Nat) (v : TwcHalf) : (s.setHalf i v).arbs = s.arbs := rfl
@[simp] theorem setHalf_mem (s : State) (i : Nat) (v : TwcHalf) : (s.setHalf i v).mem = s.mem := rfl
@[simp] theorem setHalf_moor (s : State) (i : Nat) (v : TwcHalf) : (s.setHalf i v).moor = s.moor := rfl
@[simp] theorem setHalf_trays (s : State) (i : Nat) (v : TwcHalf) : (s.setHalf i v).trays = s.trays := rfl
@[simp] theorem setHalf_units (s : State) (i : Nat) (v : TwcHalf) : (s.setHalf i v).units = s.units := rfl
@[simp] theorem setHalf_delivered (s : State) (i : Nat) (v : TwcHalf) : (s.setHalf i v).delivered = s.delivered := rfl
@[simp] theorem setHalf_pageLast (s : State) (i : Nat) (v : TwcHalf) : (s.setHalf i v).pageLast = s.pageLast := rfl
@[simp] theorem setHalf_moorUnits (s : State) (i : Nat) (v : TwcHalf) : (s.setHalf i v).moorUnits = s.moorUnits := rfl
@[simp] theorem setHalf_readySeq (s : State) (i : Nat) (v : TwcHalf) : (s.setHalf i v).readySeq = s.readySeq := rfl
@[simp] theorem setHalf_fresh (s : State) (i : Nat) (v : TwcHalf) : (s.setHalf i v).fresh = s.fresh := rfl
@[simp] theorem setHalf_out (s : State) (i : Nat) (v : TwcHalf) : (s.setHalf i v).out = s.out := rfl
@[simp] theorem setHalf_pending (s : State) (i : Nat) (v : TwcHalf) : (s.setHalf i v).pending = s.pending := rfl
@[simp] theorem setHalf_queue (s : State) (i j : Nat) (v : TwcHalf) : (s.setHalf i v).queue j = s.queue j := rfl
@[simp] theorem setHalf_run (s : State) (i j : Nat) (v : TwcHalf) : (s.setHalf i v).run j = s.run j := rfl
@[simp] theorem setHalf_sync (s : State) (i j : Nat) (v : TwcHalf) : (s.setHalf i v).sync j = s.sync j := rfl
@[simp] theorem setHalf_core (s : State) (i j : Nat) (v : TwcHalf) : (s.setHalf i v).core j = s.core j := rfl
@[simp] theorem setHalf_cluster (s : State) (i j : Nat) (v : TwcHalf) : (s.setHalf i v).cluster j = s.cluster j := rfl
@[simp] theorem setHalf_harbour (s : State) (i j : Nat) (v : TwcHalf) : (s.setHalf i v).harbour j = s.harbour j := rfl
@[simp] theorem setHalf_stack (s : State) (i j : Nat) (v : TwcHalf) : (s.setHalf i v).stack j = s.stack j := rfl
@[simp] theorem setHalf_port (s : State) (i j : Nat) (v : TwcHalf) : (s.setHalf i v).port j = s.port j := rfl
@[simp] theorem setHalf_codecEng (s : State) (i j : Nat) (v : TwcHalf) : (s.setHalf i v).codecEng j = s.codecEng j := rfl
@[simp] theorem setHalf_lshEng (s : State) (i j : Nat) (v : TwcHalf) : (s.setHalf i v).lshEng j = s.lshEng j := rfl
@[simp] theorem setHalf_berth (s : State) (i j : Nat) (v : TwcHalf) : (s.setHalf i v).berth j = s.berth j := rfl

/-! ### State.setBerth -/

@[simp] theorem modBerth_eq (s : State) (i : Nat) (g : Berth → Berth) : s.modBerth i g = s.setBerth i (g (s.berth i)) := rfl
@[simp] theorem setBerth_berth (s : State) (i j : Nat) (v : Berth) : (s.setBerth i v).berth j = if j = i then v else s.berth j :=
  look_put _ v _ i j
@[simp] theorem setBerth_glb (s : State) (i : Nat) (v : Berth) : (s.setBerth i v).glb = s.glb := rfl
@[simp] theorem setBerth_clk (s : State) (i : Nat) (v : Berth) : (s.setBerth i v).clk = s.clk := rfl
@[simp] theorem setBerth_queues (s : State) (i : Nat) (v : Berth) : (s.setBerth i v).queues = s.queues := rfl
@[simp] theorem setBerth_runs (s : State) (i : Nat) (v : Berth) : (s.setBerth i v).runs = s.runs := rfl
@[simp] theorem setBerth_syncs (s : State) (i : Nat) (v : Berth) : (s.setBerth i v).syncs = s.syncs := rfl
@[simp] theorem setBerth_cores (s : State) (i : Nat) (v : Berth) : (s.setBerth i v).cores = s.cores := rfl
@[simp] theorem setBerth_clusters (s : State) (i : Nat) (v : Berth) : (s.setBerth i v).clusters = s.clusters := rfl
@[simp] theorem setBerth_hbr (s : State) (i : Nat) (v : Berth) : (s.setBerth i v).hbr = s.hbr := rfl
@[simp] theorem setBerth_stks (s : State) (i : Nat) (v : Berth) : (s.setBerth i v).stks = s.stks := rfl
@[simp] theorem setBerth_shelf (s : State) (i : Nat) (v : Berth) : (s.setBerth i v).shelf = s.shelf := rfl
@[simp] theorem setBerth_ports (s : State) (i : Nat) (v : Berth) : (s.setBerth i v).ports = s.ports := rfl
@[simp] theorem setBerth_cwy (s : State) (i : Nat) (v : Berth) : (s.setBerth i v).cwy = s.cwy := rfl
@[simp] theorem setBerth_codecs (s : State) (i : Nat) (v : Berth) : (s.setBerth i v).codecs = s.codecs := rfl
@[simp] theorem setBerth_codecQ (s : State) (i : Nat) (v : Berth) : (s.setBerth i v).codecQ = s.codecQ := rfl
@[simp] theorem setBerth_lsh (s : State) (i : Nat) (v : Berth) : (s.setBerth i v).lsh = s.lsh := rfl
@[simp] theorem setBerth_lshQ (s : State) (i : Nat) (v : Berth) : (s.setBerth i v).lshQ = s.lshQ := rfl
@[simp] theorem setBerth_twcH (s : State) (i : Nat) (v : Berth) : (s.setBerth i v).twcH = s.twcH := rfl
@[simp] theorem setBerth_twc (s : State) (i : Nat) (v : Berth) : (s.setBerth i v).twc = s.twc := rfl
@[simp] theorem setBerth_sec (s : State) (i : Nat) (v : Berth) : (s.setBerth i v).sec = s.sec := rfl
@[simp] theorem setBerth_dbg (s : State) (i : Nat) (v : Berth) : (s.setBerth i v).dbg = s.dbg := rfl
@[simp] theorem setBerth_trec (s : State) (i : Nat) (v : Berth) : (s.setBerth i v).trec = s.trec := rfl
@[simp] theorem setBerth_berths (s : State) (i : Nat) (v : Berth) : (s.setBerth i v).berths = put ({} : Berth) s.berths i v := rfl
@[simp] theorem setBerth_arbs (s : State) (i : Nat) (v : Berth) : (s.setBerth i v).arbs = s.arbs := rfl
@[simp] theorem setBerth_mem (s : State) (i : Nat) (v : Berth) : (s.setBerth i v).mem = s.mem := rfl
@[simp] theorem setBerth_moor (s : State) (i : Nat) (v : Berth) : (s.setBerth i v).moor = s.moor := rfl
@[simp] theorem setBerth_trays (s : State) (i : Nat) (v : Berth) : (s.setBerth i v).trays = s.trays := rfl
@[simp] theorem setBerth_units (s : State) (i : Nat) (v : Berth) : (s.setBerth i v).units = s.units := rfl
@[simp] theorem setBerth_delivered (s : State) (i : Nat) (v : Berth) : (s.setBerth i v).delivered = s.delivered := rfl
@[simp] theorem setBerth_pageLast (s : State) (i : Nat) (v : Berth) : (s.setBerth i v).pageLast = s.pageLast := rfl
@[simp] theorem setBerth_moorUnits (s : State) (i : Nat) (v : Berth) : (s.setBerth i v).moorUnits = s.moorUnits := rfl
@[simp] theorem setBerth_readySeq (s : State) (i : Nat) (v : Berth) : (s.setBerth i v).readySeq = s.readySeq := rfl
@[simp] theorem setBerth_fresh (s : State) (i : Nat) (v : Berth) : (s.setBerth i v).fresh = s.fresh := rfl
@[simp] theorem setBerth_out (s : State) (i : Nat) (v : Berth) : (s.setBerth i v).out = s.out := rfl
@[simp] theorem setBerth_pending (s : State) (i : Nat) (v : Berth) : (s.setBerth i v).pending = s.pending := rfl
@[simp] theorem setBerth_queue (s : State) (i j : Nat) (v : Berth) : (s.setBerth i v).queue j = s.queue j := rfl
@[simp] theorem setBerth_run (s : State) (i j : Nat) (v : Berth) : (s.setBerth i v).run j = s.run j := rfl
@[simp] theorem setBerth_sync (s : State) (i j : Nat) (v : Berth) : (s.setBerth i v).sync j = s.sync j := rfl
@[simp] theorem setBerth_core (s : State) (i j : Nat) (v : Berth) : (s.setBerth i v).core j = s.core j := rfl
@[simp] theorem setBerth_cluster (s : State) (i j : Nat) (v : Berth) : (s.setBerth i v).cluster j = s.cluster j := rfl
@[simp] theorem setBerth_harbour (s : State) (i j : Nat) (v : Berth) : (s.setBerth i v).harbour j = s.harbour j := rfl
@[simp] theorem setBerth_stack (s : State) (i j : Nat) (v : Berth) : (s.setBerth i v).stack j = s.stack j := rfl
@[simp] theorem setBerth_port (s : State) (i j : Nat) (v : Berth) : (s.setBerth i v).port j = s.port j := rfl
@[simp] theorem setBerth_codecEng (s : State) (i j : Nat) (v : Berth) : (s.setBerth i v).codecEng j = s.codecEng j := rfl
@[simp] theorem setBerth_lshEng (s : State) (i j : Nat) (v : Berth) : (s.setBerth i v).lshEng j = s.lshEng j := rfl
@[simp] theorem setBerth_half (s : State) (i j : Nat) (v : Berth) : (s.setBerth i v).half j = s.half j := rfl

/-! ### State.modGlb -/

@[simp] theorem modGlb_glb (s : State) (h : Glb → Glb) : (s.modGlb h).glb = h s.glb := rfl
@[simp] theorem modGlb_clk (s : State) (h : Glb → Glb) : (s.modGlb h).clk = s.clk := rfl
@[simp] theorem modGlb_queues (s : State) (h : Glb → Glb) : (s.modGlb h).queues = s.queues := rfl
@[simp] theorem modGlb_runs (s : State) (h : Glb → Glb) : (s.modGlb h).runs = s.runs := rfl
@[simp] theorem modGlb_syncs (s : State) (h : Glb → Glb) : (s.modGlb h).syncs = s.syncs := rfl
@[simp] theorem modGlb_cores (s : State) (h : Glb → Glb) : (s.modGlb h).cores = s.cores := rfl
@[simp] theorem modGlb_clusters (s : State) (h : Glb → Glb) : (s.modGlb h).clusters = s.clusters := rfl
@[simp] theorem modGlb_hbr (s : State) (h : Glb → Glb) : (s.modGlb h).hbr = s.hbr := rfl
@[simp] theorem modGlb_stks (s : State) (h : Glb → Glb) : (s.modGlb h).stks = s.stks := rfl
@[simp] theorem modGlb_shelf (s : State) (h : Glb → Glb) : (s.modGlb h).shelf = s.shelf := rfl
@[simp] theorem modGlb_ports (s : State) (h : Glb → Glb) : (s.modGlb h).ports = s.ports := rfl
@[simp] theorem modGlb_cwy (s : State) (h : Glb → Glb) : (s.modGlb h).cwy = s.cwy := rfl
@[simp] theorem modGlb_codecs (s : State) (h : Glb → Glb) : (s.modGlb h).codecs = s.codecs := rfl
@[simp] theorem modGlb_codecQ (s : State) (h : Glb → Glb) : (s.modGlb h).codecQ = s.codecQ := rfl
@[simp] theorem modGlb_lsh (s : State) (h : Glb → Glb) : (s.modGlb h).lsh = s.lsh := rfl
@[simp] theorem modGlb_lshQ (s : State) (h : Glb → Glb) : (s.modGlb h).lshQ = s.lshQ := rfl
@[simp] theorem modGlb_twcH (s : State) (h : Glb → Glb) : (s.modGlb h).twcH = s.twcH := rfl
@[simp] theorem modGlb_twc (s : State) (h : Glb → Glb) : (s.modGlb h).twc = s.twc := rfl
@[simp] theorem modGlb_sec (s : State) (h : Glb → Glb) : (s.modGlb h).sec = s.sec := rfl
@[simp] theorem modGlb_dbg (s : State) (h : Glb → Glb) : (s.modGlb h).dbg = s.dbg := rfl
@[simp] theorem modGlb_trec (s : State) (h : Glb → Glb) : (s.modGlb h).trec = s.trec := rfl
@[simp] theorem modGlb_berths (s : State) (h : Glb → Glb) : (s.modGlb h).berths = s.berths := rfl
@[simp] theorem modGlb_arbs (s : State) (h : Glb → Glb) : (s.modGlb h).arbs = s.arbs := rfl
@[simp] theorem modGlb_mem (s : State) (h : Glb → Glb) : (s.modGlb h).mem = s.mem := rfl
@[simp] theorem modGlb_moor (s : State) (h : Glb → Glb) : (s.modGlb h).moor = s.moor := rfl
@[simp] theorem modGlb_trays (s : State) (h : Glb → Glb) : (s.modGlb h).trays = s.trays := rfl
@[simp] theorem modGlb_units (s : State) (h : Glb → Glb) : (s.modGlb h).units = s.units := rfl
@[simp] theorem modGlb_delivered (s : State) (h : Glb → Glb) : (s.modGlb h).delivered = s.delivered := rfl
@[simp] theorem modGlb_pageLast (s : State) (h : Glb → Glb) : (s.modGlb h).pageLast = s.pageLast := rfl
@[simp] theorem modGlb_moorUnits (s : State) (h : Glb → Glb) : (s.modGlb h).moorUnits = s.moorUnits := rfl
@[simp] theorem modGlb_readySeq (s : State) (h : Glb → Glb) : (s.modGlb h).readySeq = s.readySeq := rfl
@[simp] theorem modGlb_fresh (s : State) (h : Glb → Glb) : (s.modGlb h).fresh = s.fresh := rfl
@[simp] theorem modGlb_out (s : State) (h : Glb → Glb) : (s.modGlb h).out = s.out := rfl
@[simp] theorem modGlb_pending (s : State) (h : Glb → Glb) : (s.modGlb h).pending = s.pending := rfl
@[simp] theorem modGlb_queue (s : State) (j : Nat) (h : Glb → Glb) : (s.modGlb h).queue j = s.queue j := rfl
@[simp] theorem modGlb_run (s : State) (j : Nat) (h : Glb → Glb) : (s.modGlb h).run j = s.run j := rfl
@[simp] theorem modGlb_sync (s : State) (j : Nat) (h : Glb → Glb) : (s.modGlb h).sync j = s.sync j := rfl
@[simp] theorem modGlb_core (s : State) (j : Nat) (h : Glb → Glb) : (s.modGlb h).core j = s.core j := rfl
@[simp] theorem modGlb_cluster (s : State) (j : Nat) (h : Glb → Glb) : (s.modGlb h).cluster j = s.cluster j := rfl
@[simp] theorem modGlb_harbour (s : State) (j : Nat) (h : Glb → Glb) : (s.modGlb h).harbour j = s.harbour j := rfl
@[simp] theorem modGlb_stack (s : State) (j : Nat) (h : Glb → Glb) : (s.modGlb h).stack j = s.stack j := rfl
@[simp] theorem modGlb_port (s : State) (j : Nat) (h : Glb → Glb) : (s.modGlb h).port j = s.port j := rfl
@[simp] theorem modGlb_codecEng (s : State) (j : Nat) (h : Glb → Glb) : (s.modGlb h).codecEng j = s.codecEng j := rfl
@[simp] theorem modGlb_lshEng (s : State) (j : Nat) (h : Glb → Glb) : (s.modGlb h).lshEng j = s.lshEng j := rfl
@[simp] theorem modGlb_half (s : State) (j : Nat) (h : Glb → Glb) : (s.modGlb h).half j = s.half j := rfl
@[simp] theorem modGlb_berth (s : State) (j : Nat) (h : Glb → Glb) : (s.modGlb h).berth j = s.berth j := rfl

/-! ### State.modClk -/

@[simp] theorem modClk_glb (s : State) (h : Clk → Clk) : (s.modClk h).glb = s.glb := rfl
@[simp] theorem modClk_clk (s : State) (h : Clk → Clk) : (s.modClk h).clk = h s.clk := rfl
@[simp] theorem modClk_queues (s : State) (h : Clk → Clk) : (s.modClk h).queues = s.queues := rfl
@[simp] theorem modClk_runs (s : State) (h : Clk → Clk) : (s.modClk h).runs = s.runs := rfl
@[simp] theorem modClk_syncs (s : State) (h : Clk → Clk) : (s.modClk h).syncs = s.syncs := rfl
@[simp] theorem modClk_cores (s : State) (h : Clk → Clk) : (s.modClk h).cores = s.cores := rfl
@[simp] theorem modClk_clusters (s : State) (h : Clk → Clk) : (s.modClk h).clusters = s.clusters := rfl
@[simp] theorem modClk_hbr (s : State) (h : Clk → Clk) : (s.modClk h).hbr = s.hbr := rfl
@[simp] theorem modClk_stks (s : State) (h : Clk → Clk) : (s.modClk h).stks = s.stks := rfl
@[simp] theorem modClk_shelf (s : State) (h : Clk → Clk) : (s.modClk h).shelf = s.shelf := rfl
@[simp] theorem modClk_ports (s : State) (h : Clk → Clk) : (s.modClk h).ports = s.ports := rfl
@[simp] theorem modClk_cwy (s : State) (h : Clk → Clk) : (s.modClk h).cwy = s.cwy := rfl
@[simp] theorem modClk_codecs (s : State) (h : Clk → Clk) : (s.modClk h).codecs = s.codecs := rfl
@[simp] theorem modClk_codecQ (s : State) (h : Clk → Clk) : (s.modClk h).codecQ = s.codecQ := rfl
@[simp] theorem modClk_lsh (s : State) (h : Clk → Clk) : (s.modClk h).lsh = s.lsh := rfl
@[simp] theorem modClk_lshQ (s : State) (h : Clk → Clk) : (s.modClk h).lshQ = s.lshQ := rfl
@[simp] theorem modClk_twcH (s : State) (h : Clk → Clk) : (s.modClk h).twcH = s.twcH := rfl
@[simp] theorem modClk_twc (s : State) (h : Clk → Clk) : (s.modClk h).twc = s.twc := rfl
@[simp] theorem modClk_sec (s : State) (h : Clk → Clk) : (s.modClk h).sec = s.sec := rfl
@[simp] theorem modClk_dbg (s : State) (h : Clk → Clk) : (s.modClk h).dbg = s.dbg := rfl
@[simp] theorem modClk_trec (s : State) (h : Clk → Clk) : (s.modClk h).trec = s.trec := rfl
@[simp] theorem modClk_berths (s : State) (h : Clk → Clk) : (s.modClk h).berths = s.berths := rfl
@[simp] theorem modClk_arbs (s : State) (h : Clk → Clk) : (s.modClk h).arbs = s.arbs := rfl
@[simp] theorem modClk_mem (s : State) (h : Clk → Clk) : (s.modClk h).mem = s.mem := rfl
@[simp] theorem modClk_moor (s : State) (h : Clk → Clk) : (s.modClk h).moor = s.moor := rfl
@[simp] theorem modClk_trays (s : State) (h : Clk → Clk) : (s.modClk h).trays = s.trays := rfl
@[simp] theorem modClk_units (s : State) (h : Clk → Clk) : (s.modClk h).units = s.units := rfl
@[simp] theorem modClk_delivered (s : State) (h : Clk → Clk) : (s.modClk h).delivered = s.delivered := rfl
@[simp] theorem modClk_pageLast (s : State) (h : Clk → Clk) : (s.modClk h).pageLast = s.pageLast := rfl
@[simp] theorem modClk_moorUnits (s : State) (h : Clk → Clk) : (s.modClk h).moorUnits = s.moorUnits := rfl
@[simp] theorem modClk_readySeq (s : State) (h : Clk → Clk) : (s.modClk h).readySeq = s.readySeq := rfl
@[simp] theorem modClk_fresh (s : State) (h : Clk → Clk) : (s.modClk h).fresh = s.fresh := rfl
@[simp] theorem modClk_out (s : State) (h : Clk → Clk) : (s.modClk h).out = s.out := rfl
@[simp] theorem modClk_pending (s : State) (h : Clk → Clk) : (s.modClk h).pending = s.pending := rfl
@[simp] theorem modClk_queue (s : State) (j : Nat) (h : Clk → Clk) : (s.modClk h).queue j = s.queue j := rfl
@[simp] theorem modClk_run (s : State) (j : Nat) (h : Clk → Clk) : (s.modClk h).run j = s.run j := rfl
@[simp] theorem modClk_sync (s : State) (j : Nat) (h : Clk → Clk) : (s.modClk h).sync j = s.sync j := rfl
@[simp] theorem modClk_core (s : State) (j : Nat) (h : Clk → Clk) : (s.modClk h).core j = s.core j := rfl
@[simp] theorem modClk_cluster (s : State) (j : Nat) (h : Clk → Clk) : (s.modClk h).cluster j = s.cluster j := rfl
@[simp] theorem modClk_harbour (s : State) (j : Nat) (h : Clk → Clk) : (s.modClk h).harbour j = s.harbour j := rfl
@[simp] theorem modClk_stack (s : State) (j : Nat) (h : Clk → Clk) : (s.modClk h).stack j = s.stack j := rfl
@[simp] theorem modClk_port (s : State) (j : Nat) (h : Clk → Clk) : (s.modClk h).port j = s.port j := rfl
@[simp] theorem modClk_codecEng (s : State) (j : Nat) (h : Clk → Clk) : (s.modClk h).codecEng j = s.codecEng j := rfl
@[simp] theorem modClk_lshEng (s : State) (j : Nat) (h : Clk → Clk) : (s.modClk h).lshEng j = s.lshEng j := rfl
@[simp] theorem modClk_half (s : State) (j : Nat) (h : Clk → Clk) : (s.modClk h).half j = s.half j := rfl
@[simp] theorem modClk_berth (s : State) (j : Nat) (h : Clk → Clk) : (s.modClk h).berth j = s.berth j := rfl

/-! ### State.modShelf -/

@[simp] theorem modShelf_glb (s : State) (h : Shelf → Shelf) : (s.modShelf h).glb = s.glb := rfl
@[simp] theorem modShelf_clk (s : State) (h : Shelf → Shelf) : (s.modShelf h).clk = s.clk := rfl
@[simp] theorem modShelf_queues (s : State) (h : Shelf → Shelf) : (s.modShelf h).queues = s.queues := rfl
@[simp] theorem modShelf_runs (s : State) (h : Shelf → Shelf) : (s.modShelf h).runs = s.runs := rfl
@[simp] theorem modShelf_syncs (s : State) (h : Shelf → Shelf) : (s.modShelf h).syncs = s.syncs := rfl
@[simp] theorem modShelf_cores (s : State) (h : Shelf → Shelf) : (s.modShelf h).cores = s.cores := rfl
@[simp] theorem modShelf_clusters (s : State) (h : Shelf → Shelf) : (s.modShelf h).clusters = s.clusters := rfl
@[simp] theorem modShelf_hbr (s : State) (h : Shelf → Shelf) : (s.modShelf h).hbr = s.hbr := rfl
@[simp] theorem modShelf_stks (s : State) (h : Shelf → Shelf) : (s.modShelf h).stks = s.stks := rfl
@[simp] theorem modShelf_shelf (s : State) (h : Shelf → Shelf) : (s.modShelf h).shelf = h s.shelf := rfl
@[simp] theorem modShelf_ports (s : State) (h : Shelf → Shelf) : (s.modShelf h).ports = s.ports := rfl
@[simp] theorem modShelf_cwy (s : State) (h : Shelf → Shelf) : (s.modShelf h).cwy = s.cwy := rfl
@[simp] theorem modShelf_codecs (s : State) (h : Shelf → Shelf) : (s.modShelf h).codecs = s.codecs := rfl
@[simp] theorem modShelf_codecQ (s : State) (h : Shelf → Shelf) : (s.modShelf h).codecQ = s.codecQ := rfl
@[simp] theorem modShelf_lsh (s : State) (h : Shelf → Shelf) : (s.modShelf h).lsh = s.lsh := rfl
@[simp] theorem modShelf_lshQ (s : State) (h : Shelf → Shelf) : (s.modShelf h).lshQ = s.lshQ := rfl
@[simp] theorem modShelf_twcH (s : State) (h : Shelf → Shelf) : (s.modShelf h).twcH = s.twcH := rfl
@[simp] theorem modShelf_twc (s : State) (h : Shelf → Shelf) : (s.modShelf h).twc = s.twc := rfl
@[simp] theorem modShelf_sec (s : State) (h : Shelf → Shelf) : (s.modShelf h).sec = s.sec := rfl
@[simp] theorem modShelf_dbg (s : State) (h : Shelf → Shelf) : (s.modShelf h).dbg = s.dbg := rfl
@[simp] theorem modShelf_trec (s : State) (h : Shelf → Shelf) : (s.modShelf h).trec = s.trec := rfl
@[simp] theorem modShelf_berths (s : State) (h : Shelf → Shelf) : (s.modShelf h).berths = s.berths := rfl
@[simp] theorem modShelf_arbs (s : State) (h : Shelf → Shelf) : (s.modShelf h).arbs = s.arbs := rfl
@[simp] theorem modShelf_mem (s : State) (h : Shelf → Shelf) : (s.modShelf h).mem = s.mem := rfl
@[simp] theorem modShelf_moor (s : State) (h : Shelf → Shelf) : (s.modShelf h).moor = s.moor := rfl
@[simp] theorem modShelf_trays (s : State) (h : Shelf → Shelf) : (s.modShelf h).trays = s.trays := rfl
@[simp] theorem modShelf_units (s : State) (h : Shelf → Shelf) : (s.modShelf h).units = s.units := rfl
@[simp] theorem modShelf_delivered (s : State) (h : Shelf → Shelf) : (s.modShelf h).delivered = s.delivered := rfl
@[simp] theorem modShelf_pageLast (s : State) (h : Shelf → Shelf) : (s.modShelf h).pageLast = s.pageLast := rfl
@[simp] theorem modShelf_moorUnits (s : State) (h : Shelf → Shelf) : (s.modShelf h).moorUnits = s.moorUnits := rfl
@[simp] theorem modShelf_readySeq (s : State) (h : Shelf → Shelf) : (s.modShelf h).readySeq = s.readySeq := rfl
@[simp] theorem modShelf_fresh (s : State) (h : Shelf → Shelf) : (s.modShelf h).fresh = s.fresh := rfl
@[simp] theorem modShelf_out (s : State) (h : Shelf → Shelf) : (s.modShelf h).out = s.out := rfl
@[simp] theorem modShelf_pending (s : State) (h : Shelf → Shelf) : (s.modShelf h).pending = s.pending := rfl
@[simp] theorem modShelf_queue (s : State) (j : Nat) (h : Shelf → Shelf) : (s.modShelf h).queue j = s.queue j := rfl
@[simp] theorem modShelf_run (s : State) (j : Nat) (h : Shelf → Shelf) : (s.modShelf h).run j = s.run j := rfl
@[simp] theorem modShelf_sync (s : State) (j : Nat) (h : Shelf → Shelf) : (s.modShelf h).sync j = s.sync j := rfl
@[simp] theorem modShelf_core (s : State) (j : Nat) (h : Shelf → Shelf) : (s.modShelf h).core j = s.core j := rfl
@[simp] theorem modShelf_cluster (s : State) (j : Nat) (h : Shelf → Shelf) : (s.modShelf h).cluster j = s.cluster j := rfl
@[simp] theorem modShelf_harbour (s : State) (j : Nat) (h : Shelf → Shelf) : (s.modShelf h).harbour j = s.harbour j := rfl
@[simp] theorem modShelf_stack (s : State) (j : Nat) (h : Shelf → Shelf) : (s.modShelf h).stack j = s.stack j := rfl
@[simp] theorem modShelf_port (s : State) (j : Nat) (h : Shelf → Shelf) : (s.modShelf h).port j = s.port j := rfl
@[simp] theorem modShelf_codecEng (s : State) (j : Nat) (h : Shelf → Shelf) : (s.modShelf h).codecEng j = s.codecEng j := rfl
@[simp] theorem modShelf_lshEng (s : State) (j : Nat) (h : Shelf → Shelf) : (s.modShelf h).lshEng j = s.lshEng j := rfl
@[simp] theorem modShelf_half (s : State) (j : Nat) (h : Shelf → Shelf) : (s.modShelf h).half j = s.half j := rfl
@[simp] theorem modShelf_berth (s : State) (j : Nat) (h : Shelf → Shelf) : (s.modShelf h).berth j = s.berth j := rfl

/-! ### State.modCwy -/

@[simp] theorem modCwy_glb (s : State) (h : Cwy → Cwy) : (s.modCwy h).glb = s.glb := rfl
@[simp] theorem modCwy_clk (s : State) (h : Cwy → Cwy) : (s.modCwy h).clk = s.clk := rfl
@[simp] theorem modCwy_queues (s : State) (h : Cwy → Cwy) : (s.modCwy h).queues = s.queues := rfl
@[simp] theorem modCwy_runs (s : State) (h : Cwy → Cwy) : (s.modCwy h).runs = s.runs := rfl
@[simp] theorem modCwy_syncs (s : State) (h : Cwy → Cwy) : (s.modCwy h).syncs = s.syncs := rfl
@[simp] theorem modCwy_cores (s : State) (h : Cwy → Cwy) : (s.modCwy h).cores = s.cores := rfl
@[simp] theorem modCwy_clusters (s : State) (h : Cwy → Cwy) : (s.modCwy h).clusters = s.clusters := rfl
@[simp] theorem modCwy_hbr (s : State) (h : Cwy → Cwy) : (s.modCwy h).hbr = s.hbr := rfl
@[simp] theorem modCwy_stks (s : State) (h : Cwy → Cwy) : (s.modCwy h).stks = s.stks := rfl
@[simp] theorem modCwy_shelf (s : State) (h : Cwy → Cwy) : (s.modCwy h).shelf = s.shelf := rfl
@[simp] theorem modCwy_ports (s : State) (h : Cwy → Cwy) : (s.modCwy h).ports = s.ports := rfl
@[simp] theorem modCwy_cwy (s : State) (h : Cwy → Cwy) : (s.modCwy h).cwy = h s.cwy := rfl
@[simp] theorem modCwy_codecs (s : State) (h : Cwy → Cwy) : (s.modCwy h).codecs = s.codecs := rfl
@[simp] theorem modCwy_codecQ (s : State) (h : Cwy → Cwy) : (s.modCwy h).codecQ = s.codecQ := rfl
@[simp] theorem modCwy_lsh (s : State) (h : Cwy → Cwy) : (s.modCwy h).lsh = s.lsh := rfl
@[simp] theorem modCwy_lshQ (s : State) (h : Cwy → Cwy) : (s.modCwy h).lshQ = s.lshQ := rfl
@[simp] theorem modCwy_twcH (s : State) (h : Cwy → Cwy) : (s.modCwy h).twcH = s.twcH := rfl
@[simp] theorem modCwy_twc (s : State) (h : Cwy → Cwy) : (s.modCwy h).twc = s.twc := rfl
@[simp] theorem modCwy_sec (s : State) (h : Cwy → Cwy) : (s.modCwy h).sec = s.sec := rfl
@[simp] theorem modCwy_dbg (s : State) (h : Cwy → Cwy) : (s.modCwy h).dbg = s.dbg := rfl
@[simp] theorem modCwy_trec (s : State) (h : Cwy → Cwy) : (s.modCwy h).trec = s.trec := rfl
@[simp] theorem modCwy_berths (s : State) (h : Cwy → Cwy) : (s.modCwy h).berths = s.berths := rfl
@[simp] theorem modCwy_arbs (s : State) (h : Cwy → Cwy) : (s.modCwy h).arbs = s.arbs := rfl
@[simp] theorem modCwy_mem (s : State) (h : Cwy → Cwy) : (s.modCwy h).mem = s.mem := rfl
@[simp] theorem modCwy_moor (s : State) (h : Cwy → Cwy) : (s.modCwy h).moor = s.moor := rfl
@[simp] theorem modCwy_trays (s : State) (h : Cwy → Cwy) : (s.modCwy h).trays = s.trays := rfl
@[simp] theorem modCwy_units (s : State) (h : Cwy → Cwy) : (s.modCwy h).units = s.units := rfl
@[simp] theorem modCwy_delivered (s : State) (h : Cwy → Cwy) : (s.modCwy h).delivered = s.delivered := rfl
@[simp] theorem modCwy_pageLast (s : State) (h : Cwy → Cwy) : (s.modCwy h).pageLast = s.pageLast := rfl
@[simp] theorem modCwy_moorUnits (s : State) (h : Cwy → Cwy) : (s.modCwy h).moorUnits = s.moorUnits := rfl
@[simp] theorem modCwy_readySeq (s : State) (h : Cwy → Cwy) : (s.modCwy h).readySeq = s.readySeq := rfl
@[simp] theorem modCwy_fresh (s : State) (h : Cwy → Cwy) : (s.modCwy h).fresh = s.fresh := rfl
@[simp] theorem modCwy_out (s : State) (h : Cwy → Cwy) : (s.modCwy h).out = s.out := rfl
@[simp] theorem modCwy_pending (s : State) (h : Cwy → Cwy) : (s.modCwy h).pending = s.pending := rfl
@[simp] theorem modCwy_queue (s : State) (j : Nat) (h : Cwy → Cwy) : (s.modCwy h).queue j = s.queue j := rfl
@[simp] theorem modCwy_run (s : State) (j : Nat) (h : Cwy → Cwy) : (s.modCwy h).run j = s.run j := rfl
@[simp] theorem modCwy_sync (s : State) (j : Nat) (h : Cwy → Cwy) : (s.modCwy h).sync j = s.sync j := rfl
@[simp] theorem modCwy_core (s : State) (j : Nat) (h : Cwy → Cwy) : (s.modCwy h).core j = s.core j := rfl
@[simp] theorem modCwy_cluster (s : State) (j : Nat) (h : Cwy → Cwy) : (s.modCwy h).cluster j = s.cluster j := rfl
@[simp] theorem modCwy_harbour (s : State) (j : Nat) (h : Cwy → Cwy) : (s.modCwy h).harbour j = s.harbour j := rfl
@[simp] theorem modCwy_stack (s : State) (j : Nat) (h : Cwy → Cwy) : (s.modCwy h).stack j = s.stack j := rfl
@[simp] theorem modCwy_port (s : State) (j : Nat) (h : Cwy → Cwy) : (s.modCwy h).port j = s.port j := rfl
@[simp] theorem modCwy_codecEng (s : State) (j : Nat) (h : Cwy → Cwy) : (s.modCwy h).codecEng j = s.codecEng j := rfl
@[simp] theorem modCwy_lshEng (s : State) (j : Nat) (h : Cwy → Cwy) : (s.modCwy h).lshEng j = s.lshEng j := rfl
@[simp] theorem modCwy_half (s : State) (j : Nat) (h : Cwy → Cwy) : (s.modCwy h).half j = s.half j := rfl
@[simp] theorem modCwy_berth (s : State) (j : Nat) (h : Cwy → Cwy) : (s.modCwy h).berth j = s.berth j := rfl

/-! ### State.modTwc -/

@[simp] theorem modTwc_glb (s : State) (h : Twc → Twc) : (s.modTwc h).glb = s.glb := rfl
@[simp] theorem modTwc_clk (s : State) (h : Twc → Twc) : (s.modTwc h).clk = s.clk := rfl
@[simp] theorem modTwc_queues (s : State) (h : Twc → Twc) : (s.modTwc h).queues = s.queues := rfl
@[simp] theorem modTwc_runs (s : State) (h : Twc → Twc) : (s.modTwc h).runs = s.runs := rfl
@[simp] theorem modTwc_syncs (s : State) (h : Twc → Twc) : (s.modTwc h).syncs = s.syncs := rfl
@[simp] theorem modTwc_cores (s : State) (h : Twc → Twc) : (s.modTwc h).cores = s.cores := rfl
@[simp] theorem modTwc_clusters (s : State) (h : Twc → Twc) : (s.modTwc h).clusters = s.clusters := rfl
@[simp] theorem modTwc_hbr (s : State) (h : Twc → Twc) : (s.modTwc h).hbr = s.hbr := rfl
@[simp] theorem modTwc_stks (s : State) (h : Twc → Twc) : (s.modTwc h).stks = s.stks := rfl
@[simp] theorem modTwc_shelf (s : State) (h : Twc → Twc) : (s.modTwc h).shelf = s.shelf := rfl
@[simp] theorem modTwc_ports (s : State) (h : Twc → Twc) : (s.modTwc h).ports = s.ports := rfl
@[simp] theorem modTwc_cwy (s : State) (h : Twc → Twc) : (s.modTwc h).cwy = s.cwy := rfl
@[simp] theorem modTwc_codecs (s : State) (h : Twc → Twc) : (s.modTwc h).codecs = s.codecs := rfl
@[simp] theorem modTwc_codecQ (s : State) (h : Twc → Twc) : (s.modTwc h).codecQ = s.codecQ := rfl
@[simp] theorem modTwc_lsh (s : State) (h : Twc → Twc) : (s.modTwc h).lsh = s.lsh := rfl
@[simp] theorem modTwc_lshQ (s : State) (h : Twc → Twc) : (s.modTwc h).lshQ = s.lshQ := rfl
@[simp] theorem modTwc_twcH (s : State) (h : Twc → Twc) : (s.modTwc h).twcH = s.twcH := rfl
@[simp] theorem modTwc_twc (s : State) (h : Twc → Twc) : (s.modTwc h).twc = h s.twc := rfl
@[simp] theorem modTwc_sec (s : State) (h : Twc → Twc) : (s.modTwc h).sec = s.sec := rfl
@[simp] theorem modTwc_dbg (s : State) (h : Twc → Twc) : (s.modTwc h).dbg = s.dbg := rfl
@[simp] theorem modTwc_trec (s : State) (h : Twc → Twc) : (s.modTwc h).trec = s.trec := rfl
@[simp] theorem modTwc_berths (s : State) (h : Twc → Twc) : (s.modTwc h).berths = s.berths := rfl
@[simp] theorem modTwc_arbs (s : State) (h : Twc → Twc) : (s.modTwc h).arbs = s.arbs := rfl
@[simp] theorem modTwc_mem (s : State) (h : Twc → Twc) : (s.modTwc h).mem = s.mem := rfl
@[simp] theorem modTwc_moor (s : State) (h : Twc → Twc) : (s.modTwc h).moor = s.moor := rfl
@[simp] theorem modTwc_trays (s : State) (h : Twc → Twc) : (s.modTwc h).trays = s.trays := rfl
@[simp] theorem modTwc_units (s : State) (h : Twc → Twc) : (s.modTwc h).units = s.units := rfl
@[simp] theorem modTwc_delivered (s : State) (h : Twc → Twc) : (s.modTwc h).delivered = s.delivered := rfl
@[simp] theorem modTwc_pageLast (s : State) (h : Twc → Twc) : (s.modTwc h).pageLast = s.pageLast := rfl
@[simp] theorem modTwc_moorUnits (s : State) (h : Twc → Twc) : (s.modTwc h).moorUnits = s.moorUnits := rfl
@[simp] theorem modTwc_readySeq (s : State) (h : Twc → Twc) : (s.modTwc h).readySeq = s.readySeq := rfl
@[simp] theorem modTwc_fresh (s : State) (h : Twc → Twc) : (s.modTwc h).fresh = s.fresh := rfl
@[simp] theorem modTwc_out (s : State) (h : Twc → Twc) : (s.modTwc h).out = s.out := rfl
@[simp] theorem modTwc_pending (s : State) (h : Twc → Twc) : (s.modTwc h).pending = s.pending := rfl
@[simp] theorem modTwc_queue (s : State) (j : Nat) (h : Twc → Twc) : (s.modTwc h).queue j = s.queue j := rfl
@[simp] theorem modTwc_run (s : State) (j : Nat) (h : Twc → Twc) : (s.modTwc h).run j = s.run j := rfl
@[simp] theorem modTwc_sync (s : State) (j : Nat) (h : Twc → Twc) : (s.modTwc h).sync j = s.sync j := rfl
@[simp] theorem modTwc_core (s : State) (j : Nat) (h : Twc → Twc) : (s.modTwc h).core j = s.core j := rfl
@[simp] theorem modTwc_cluster (s : State) (j : Nat) (h : Twc → Twc) : (s.modTwc h).cluster j = s.cluster j := rfl
@[simp] theorem modTwc_harbour (s : State) (j : Nat) (h : Twc → Twc) : (s.modTwc h).harbour j = s.harbour j := rfl
@[simp] theorem modTwc_stack (s : State) (j : Nat) (h : Twc → Twc) : (s.modTwc h).stack j = s.stack j := rfl
@[simp] theorem modTwc_port (s : State) (j : Nat) (h : Twc → Twc) : (s.modTwc h).port j = s.port j := rfl
@[simp] theorem modTwc_codecEng (s : State) (j : Nat) (h : Twc → Twc) : (s.modTwc h).codecEng j = s.codecEng j := rfl
@[simp] theorem modTwc_lshEng (s : State) (j : Nat) (h : Twc → Twc) : (s.modTwc h).lshEng j = s.lshEng j := rfl
@[simp] theorem modTwc_half (s : State) (j : Nat) (h : Twc → Twc) : (s.modTwc h).half j = s.half j := rfl
@[simp] theorem modTwc_berth (s : State) (j : Nat) (h : Twc → Twc) : (s.modTwc h).berth j = s.berth j := rfl

/-! ### State.modSec -/

@[simp] theorem modSec_glb (s : State) (h : Sec → Sec) : (s.modSec h).glb = s.glb := rfl
@[simp] theorem modSec_clk (s : State) (h : Sec → Sec) : (s.modSec h).clk = s.clk := rfl
@[simp] theorem modSec_queues (s : State) (h : Sec → Sec) : (s.modSec h).queues = s.queues := rfl
@[simp] theorem modSec_runs (s : State) (h : Sec → Sec) : (s.modSec h).runs = s.runs := rfl
@[simp] theorem modSec_syncs (s : State) (h : Sec → Sec) : (s.modSec h).syncs = s.syncs := rfl
@[simp] theorem modSec_cores (s : State) (h : Sec → Sec) : (s.modSec h).cores = s.cores := rfl
@[simp] theorem modSec_clusters (s : State) (h : Sec → Sec) : (s.modSec h).clusters = s.clusters := rfl
@[simp] theorem modSec_hbr (s : State) (h : Sec → Sec) : (s.modSec h).hbr = s.hbr := rfl
@[simp] theorem modSec_stks (s : State) (h : Sec → Sec) : (s.modSec h).stks = s.stks := rfl
@[simp] theorem modSec_shelf (s : State) (h : Sec → Sec) : (s.modSec h).shelf = s.shelf := rfl
@[simp] theorem modSec_ports (s : State) (h : Sec → Sec) : (s.modSec h).ports = s.ports := rfl
@[simp] theorem modSec_cwy (s : State) (h : Sec → Sec) : (s.modSec h).cwy = s.cwy := rfl
@[simp] theorem modSec_codecs (s : State) (h : Sec → Sec) : (s.modSec h).codecs = s.codecs := rfl
@[simp] theorem modSec_codecQ (s : State) (h : Sec → Sec) : (s.modSec h).codecQ = s.codecQ := rfl
@[simp] theorem modSec_lsh (s : State) (h : Sec → Sec) : (s.modSec h).lsh = s.lsh := rfl
@[simp] theorem modSec_lshQ (s : State) (h : Sec → Sec) : (s.modSec h).lshQ = s.lshQ := rfl
@[simp] theorem modSec_twcH (s : State) (h : Sec → Sec) : (s.modSec h).twcH = s.twcH := rfl
@[simp] theorem modSec_twc (s : State) (h : Sec → Sec) : (s.modSec h).twc = s.twc := rfl
@[simp] theorem modSec_sec (s : State) (h : Sec → Sec) : (s.modSec h).sec = h s.sec := rfl
@[simp] theorem modSec_dbg (s : State) (h : Sec → Sec) : (s.modSec h).dbg = s.dbg := rfl
@[simp] theorem modSec_trec (s : State) (h : Sec → Sec) : (s.modSec h).trec = s.trec := rfl
@[simp] theorem modSec_berths (s : State) (h : Sec → Sec) : (s.modSec h).berths = s.berths := rfl
@[simp] theorem modSec_arbs (s : State) (h : Sec → Sec) : (s.modSec h).arbs = s.arbs := rfl
@[simp] theorem modSec_mem (s : State) (h : Sec → Sec) : (s.modSec h).mem = s.mem := rfl
@[simp] theorem modSec_moor (s : State) (h : Sec → Sec) : (s.modSec h).moor = s.moor := rfl
@[simp] theorem modSec_trays (s : State) (h : Sec → Sec) : (s.modSec h).trays = s.trays := rfl
@[simp] theorem modSec_units (s : State) (h : Sec → Sec) : (s.modSec h).units = s.units := rfl
@[simp] theorem modSec_delivered (s : State) (h : Sec → Sec) : (s.modSec h).delivered = s.delivered := rfl
@[simp] theorem modSec_pageLast (s : State) (h : Sec → Sec) : (s.modSec h).pageLast = s.pageLast := rfl
@[simp] theorem modSec_moorUnits (s : State) (h : Sec → Sec) : (s.modSec h).moorUnits = s.moorUnits := rfl
@[simp] theorem modSec_readySeq (s : State) (h : Sec → Sec) : (s.modSec h).readySeq = s.readySeq := rfl
@[simp] theorem modSec_fresh (s : State) (h : Sec → Sec) : (s.modSec h).fresh = s.fresh := rfl
@[simp] theorem modSec_out (s : State) (h : Sec → Sec) : (s.modSec h).out = s.out := rfl
@[simp] theorem modSec_pending (s : State) (h : Sec → Sec) : (s.modSec h).pending = s.pending := rfl
@[simp] theorem modSec_queue (s : State) (j : Nat) (h : Sec → Sec) : (s.modSec h).queue j = s.queue j := rfl
@[simp] theorem modSec_run (s : State) (j : Nat) (h : Sec → Sec) : (s.modSec h).run j = s.run j := rfl
@[simp] theorem modSec_sync (s : State) (j : Nat) (h : Sec → Sec) : (s.modSec h).sync j = s.sync j := rfl
@[simp] theorem modSec_core (s : State) (j : Nat) (h : Sec → Sec) : (s.modSec h).core j = s.core j := rfl
@[simp] theorem modSec_cluster (s : State) (j : Nat) (h : Sec → Sec) : (s.modSec h).cluster j = s.cluster j := rfl
@[simp] theorem modSec_harbour (s : State) (j : Nat) (h : Sec → Sec) : (s.modSec h).harbour j = s.harbour j := rfl
@[simp] theorem modSec_stack (s : State) (j : Nat) (h : Sec → Sec) : (s.modSec h).stack j = s.stack j := rfl
@[simp] theorem modSec_port (s : State) (j : Nat) (h : Sec → Sec) : (s.modSec h).port j = s.port j := rfl
@[simp] theorem modSec_codecEng (s : State) (j : Nat) (h : Sec → Sec) : (s.modSec h).codecEng j = s.codecEng j := rfl
@[simp] theorem modSec_lshEng (s : State) (j : Nat) (h : Sec → Sec) : (s.modSec h).lshEng j = s.lshEng j := rfl
@[simp] theorem modSec_half (s : State) (j : Nat) (h : Sec → Sec) : (s.modSec h).half j = s.half j := rfl
@[simp] theorem modSec_berth (s : State) (j : Nat) (h : Sec → Sec) : (s.modSec h).berth j = s.berth j := rfl

/-! ### State.modDbg -/

@[simp] theorem modDbg_glb (s : State) (h : Dbg → Dbg) : (s.modDbg h).glb = s.glb := rfl
@[simp] theorem modDbg_clk (s : State) (h : Dbg → Dbg) : (s.modDbg h).clk = s.clk := rfl
@[simp] theorem modDbg_queues (s : State) (h : Dbg → Dbg) : (s.modDbg h).queues = s.queues := rfl
@[simp] theorem modDbg_runs (s : State) (h : Dbg → Dbg) : (s.modDbg h).runs = s.runs := rfl
@[simp] theorem modDbg_syncs (s : State) (h : Dbg → Dbg) : (s.modDbg h).syncs = s.syncs := rfl
@[simp] theorem modDbg_cores (s : State) (h : Dbg → Dbg) : (s.modDbg h).cores = s.cores := rfl
@[simp] theorem modDbg_clusters (s : State) (h : Dbg → Dbg) : (s.modDbg h).clusters = s.clusters := rfl
@[simp] theorem modDbg_hbr (s : State) (h : Dbg → Dbg) : (s.modDbg h).hbr = s.hbr := rfl
@[simp] theorem modDbg_stks (s : State) (h : Dbg → Dbg) : (s.modDbg h).stks = s.stks := rfl
@[simp] theorem modDbg_shelf (s : State) (h : Dbg → Dbg) : (s.modDbg h).shelf = s.shelf := rfl
@[simp] theorem modDbg_ports (s : State) (h : Dbg → Dbg) : (s.modDbg h).ports = s.ports := rfl
@[simp] theorem modDbg_cwy (s : State) (h : Dbg → Dbg) : (s.modDbg h).cwy = s.cwy := rfl
@[simp] theorem modDbg_codecs (s : State) (h : Dbg → Dbg) : (s.modDbg h).codecs = s.codecs := rfl
@[simp] theorem modDbg_codecQ (s : State) (h : Dbg → Dbg) : (s.modDbg h).codecQ = s.codecQ := rfl
@[simp] theorem modDbg_lsh (s : State) (h : Dbg → Dbg) : (s.modDbg h).lsh = s.lsh := rfl
@[simp] theorem modDbg_lshQ (s : State) (h : Dbg → Dbg) : (s.modDbg h).lshQ = s.lshQ := rfl
@[simp] theorem modDbg_twcH (s : State) (h : Dbg → Dbg) : (s.modDbg h).twcH = s.twcH := rfl
@[simp] theorem modDbg_twc (s : State) (h : Dbg → Dbg) : (s.modDbg h).twc = s.twc := rfl
@[simp] theorem modDbg_sec (s : State) (h : Dbg → Dbg) : (s.modDbg h).sec = s.sec := rfl
@[simp] theorem modDbg_dbg (s : State) (h : Dbg → Dbg) : (s.modDbg h).dbg = h s.dbg := rfl
@[simp] theorem modDbg_trec (s : State) (h : Dbg → Dbg) : (s.modDbg h).trec = s.trec := rfl
@[simp] theorem modDbg_berths (s : State) (h : Dbg → Dbg) : (s.modDbg h).berths = s.berths := rfl
@[simp] theorem modDbg_arbs (s : State) (h : Dbg → Dbg) : (s.modDbg h).arbs = s.arbs := rfl
@[simp] theorem modDbg_mem (s : State) (h : Dbg → Dbg) : (s.modDbg h).mem = s.mem := rfl
@[simp] theorem modDbg_moor (s : State) (h : Dbg → Dbg) : (s.modDbg h).moor = s.moor := rfl
@[simp] theorem modDbg_trays (s : State) (h : Dbg → Dbg) : (s.modDbg h).trays = s.trays := rfl
@[simp] theorem modDbg_units (s : State) (h : Dbg → Dbg) : (s.modDbg h).units = s.units := rfl
@[simp] theorem modDbg_delivered (s : State) (h : Dbg → Dbg) : (s.modDbg h).delivered = s.delivered := rfl
@[simp] theorem modDbg_pageLast (s : State) (h : Dbg → Dbg) : (s.modDbg h).pageLast = s.pageLast := rfl
@[simp] theorem modDbg_moorUnits (s : State) (h : Dbg → Dbg) : (s.modDbg h).moorUnits = s.moorUnits := rfl
@[simp] theorem modDbg_readySeq (s : State) (h : Dbg → Dbg) : (s.modDbg h).readySeq = s.readySeq := rfl
@[simp] theorem modDbg_fresh (s : State) (h : Dbg → Dbg) : (s.modDbg h).fresh = s.fresh := rfl
@[simp] theorem modDbg_out (s : State) (h : Dbg → Dbg) : (s.modDbg h).out = s.out := rfl
@[simp] theorem modDbg_pending (s : State) (h : Dbg → Dbg) : (s.modDbg h).pending = s.pending := rfl
@[simp] theorem modDbg_queue (s : State) (j : Nat) (h : Dbg → Dbg) : (s.modDbg h).queue j = s.queue j := rfl
@[simp] theorem modDbg_run (s : State) (j : Nat) (h : Dbg → Dbg) : (s.modDbg h).run j = s.run j := rfl
@[simp] theorem modDbg_sync (s : State) (j : Nat) (h : Dbg → Dbg) : (s.modDbg h).sync j = s.sync j := rfl
@[simp] theorem modDbg_core (s : State) (j : Nat) (h : Dbg → Dbg) : (s.modDbg h).core j = s.core j := rfl
@[simp] theorem modDbg_cluster (s : State) (j : Nat) (h : Dbg → Dbg) : (s.modDbg h).cluster j = s.cluster j := rfl
@[simp] theorem modDbg_harbour (s : State) (j : Nat) (h : Dbg → Dbg) : (s.modDbg h).harbour j = s.harbour j := rfl
@[simp] theorem modDbg_stack (s : State) (j : Nat) (h : Dbg → Dbg) : (s.modDbg h).stack j = s.stack j := rfl
@[simp] theorem modDbg_port (s : State) (j : Nat) (h : Dbg → Dbg) : (s.modDbg h).port j = s.port j := rfl
@[simp] theorem modDbg_codecEng (s : State) (j : Nat) (h : Dbg → Dbg) : (s.modDbg h).codecEng j = s.codecEng j := rfl
@[simp] theorem modDbg_lshEng (s : State) (j : Nat) (h : Dbg → Dbg) : (s.modDbg h).lshEng j = s.lshEng j := rfl
@[simp] theorem modDbg_half (s : State) (j : Nat) (h : Dbg → Dbg) : (s.modDbg h).half j = s.half j := rfl
@[simp] theorem modDbg_berth (s : State) (j : Nat) (h : Dbg → Dbg) : (s.modDbg h).berth j = s.berth j := rfl

/-! ### State.modTrec -/

@[simp] theorem modTrec_glb (s : State) (h : TRec → TRec) : (s.modTrec h).glb = s.glb := rfl
@[simp] theorem modTrec_clk (s : State) (h : TRec → TRec) : (s.modTrec h).clk = s.clk := rfl
@[simp] theorem modTrec_queues (s : State) (h : TRec → TRec) : (s.modTrec h).queues = s.queues := rfl
@[simp] theorem modTrec_runs (s : State) (h : TRec → TRec) : (s.modTrec h).runs = s.runs := rfl
@[simp] theorem modTrec_syncs (s : State) (h : TRec → TRec) : (s.modTrec h).syncs = s.syncs := rfl
@[simp] theorem modTrec_cores (s : State) (h : TRec → TRec) : (s.modTrec h).cores = s.cores := rfl
@[simp] theorem modTrec_clusters (s : State) (h : TRec → TRec) : (s.modTrec h).clusters = s.clusters := rfl
@[simp] theorem modTrec_hbr (s : State) (h : TRec → TRec) : (s.modTrec h).hbr = s.hbr := rfl
@[simp] theorem modTrec_stks (s : State) (h : TRec → TRec) : (s.modTrec h).stks = s.stks := rfl
@[simp] theorem modTrec_shelf (s : State) (h : TRec → TRec) : (s.modTrec h).shelf = s.shelf := rfl
@[simp] theorem modTrec_ports (s : State) (h : TRec → TRec) : (s.modTrec h).ports = s.ports := rfl
@[simp] theorem modTrec_cwy (s : State) (h : TRec → TRec) : (s.modTrec h).cwy = s.cwy := rfl
@[simp] theorem modTrec_codecs (s : State) (h : TRec → TRec) : (s.modTrec h).codecs = s.codecs := rfl
@[simp] theorem modTrec_codecQ (s : State) (h : TRec → TRec) : (s.modTrec h).codecQ = s.codecQ := rfl
@[simp] theorem modTrec_lsh (s : State) (h : TRec → TRec) : (s.modTrec h).lsh = s.lsh := rfl
@[simp] theorem modTrec_lshQ (s : State) (h : TRec → TRec) : (s.modTrec h).lshQ = s.lshQ := rfl
@[simp] theorem modTrec_twcH (s : State) (h : TRec → TRec) : (s.modTrec h).twcH = s.twcH := rfl
@[simp] theorem modTrec_twc (s : State) (h : TRec → TRec) : (s.modTrec h).twc = s.twc := rfl
@[simp] theorem modTrec_sec (s : State) (h : TRec → TRec) : (s.modTrec h).sec = s.sec := rfl
@[simp] theorem modTrec_dbg (s : State) (h : TRec → TRec) : (s.modTrec h).dbg = s.dbg := rfl
@[simp] theorem modTrec_trec (s : State) (h : TRec → TRec) : (s.modTrec h).trec = h s.trec := rfl
@[simp] theorem modTrec_berths (s : State) (h : TRec → TRec) : (s.modTrec h).berths = s.berths := rfl
@[simp] theorem modTrec_arbs (s : State) (h : TRec → TRec) : (s.modTrec h).arbs = s.arbs := rfl
@[simp] theorem modTrec_mem (s : State) (h : TRec → TRec) : (s.modTrec h).mem = s.mem := rfl
@[simp] theorem modTrec_moor (s : State) (h : TRec → TRec) : (s.modTrec h).moor = s.moor := rfl
@[simp] theorem modTrec_trays (s : State) (h : TRec → TRec) : (s.modTrec h).trays = s.trays := rfl
@[simp] theorem modTrec_units (s : State) (h : TRec → TRec) : (s.modTrec h).units = s.units := rfl
@[simp] theorem modTrec_delivered (s : State) (h : TRec → TRec) : (s.modTrec h).delivered = s.delivered := rfl
@[simp] theorem modTrec_pageLast (s : State) (h : TRec → TRec) : (s.modTrec h).pageLast = s.pageLast := rfl
@[simp] theorem modTrec_moorUnits (s : State) (h : TRec → TRec) : (s.modTrec h).moorUnits = s.moorUnits := rfl
@[simp] theorem modTrec_readySeq (s : State) (h : TRec → TRec) : (s.modTrec h).readySeq = s.readySeq := rfl
@[simp] theorem modTrec_fresh (s : State) (h : TRec → TRec) : (s.modTrec h).fresh = s.fresh := rfl
@[simp] theorem modTrec_out (s : State) (h : TRec → TRec) : (s.modTrec h).out = s.out := rfl
@[simp] theorem modTrec_pending (s : State) (h : TRec → TRec) : (s.modTrec h).pending = s.pending := rfl
@[simp] theorem modTrec_queue (s : State) (j : Nat) (h : TRec → TRec) : (s.modTrec h).queue j = s.queue j := rfl
@[simp] theorem modTrec_run (s : State) (j : Nat) (h : TRec → TRec) : (s.modTrec h).run j = s.run j := rfl
@[simp] theorem modTrec_sync (s : State) (j : Nat) (h : TRec → TRec) : (s.modTrec h).sync j = s.sync j := rfl
@[simp] theorem modTrec_core (s : State) (j : Nat) (h : TRec → TRec) : (s.modTrec h).core j = s.core j := rfl
@[simp] theorem modTrec_cluster (s : State) (j : Nat) (h : TRec → TRec) : (s.modTrec h).cluster j = s.cluster j := rfl
@[simp] theorem modTrec_harbour (s : State) (j : Nat) (h : TRec → TRec) : (s.modTrec h).harbour j = s.harbour j := rfl
@[simp] theorem modTrec_stack (s : State) (j : Nat) (h : TRec → TRec) : (s.modTrec h).stack j = s.stack j := rfl
@[simp] theorem modTrec_port (s : State) (j : Nat) (h : TRec → TRec) : (s.modTrec h).port j = s.port j := rfl
@[simp] theorem modTrec_codecEng (s : State) (j : Nat) (h : TRec → TRec) : (s.modTrec h).codecEng j = s.codecEng j := rfl
@[simp] theorem modTrec_lshEng (s : State) (j : Nat) (h : TRec → TRec) : (s.modTrec h).lshEng j = s.lshEng j := rfl
@[simp] theorem modTrec_half (s : State) (j : Nat) (h : TRec → TRec) : (s.modTrec h).half j = s.half j := rfl
@[simp] theorem modTrec_berth (s : State) (j : Nat) (h : TRec → TRec) : (s.modTrec h).berth j = s.berth j := rfl

/-! ### State.emit, State.take, State.setBlock -/

@[simp] theorem emit_glb (s : State) (o : Out) : (s.emit o).glb = s.glb := rfl
@[simp] theorem emit_clk (s : State) (o : Out) : (s.emit o).clk = s.clk := rfl
@[simp] theorem emit_queues (s : State) (o : Out) : (s.emit o).queues = s.queues := rfl
@[simp] theorem emit_runs (s : State) (o : Out) : (s.emit o).runs = s.runs := rfl
@[simp] theorem emit_syncs (s : State) (o : Out) : (s.emit o).syncs = s.syncs := rfl
@[simp] theorem emit_cores (s : State) (o : Out) : (s.emit o).cores = s.cores := rfl
@[simp] theorem emit_clusters (s : State) (o : Out) : (s.emit o).clusters = s.clusters := rfl
@[simp] theorem emit_hbr (s : State) (o : Out) : (s.emit o).hbr = s.hbr := rfl
@[simp] theorem emit_stks (s : State) (o : Out) : (s.emit o).stks = s.stks := rfl
@[simp] theorem emit_shelf (s : State) (o : Out) : (s.emit o).shelf = s.shelf := rfl
@[simp] theorem emit_ports (s : State) (o : Out) : (s.emit o).ports = s.ports := rfl
@[simp] theorem emit_cwy (s : State) (o : Out) : (s.emit o).cwy = s.cwy := rfl
@[simp] theorem emit_codecs (s : State) (o : Out) : (s.emit o).codecs = s.codecs := rfl
@[simp] theorem emit_codecQ (s : State) (o : Out) : (s.emit o).codecQ = s.codecQ := rfl
@[simp] theorem emit_lsh (s : State) (o : Out) : (s.emit o).lsh = s.lsh := rfl
@[simp] theorem emit_lshQ (s : State) (o : Out) : (s.emit o).lshQ = s.lshQ := rfl
@[simp] theorem emit_twcH (s : State) (o : Out) : (s.emit o).twcH = s.twcH := rfl
@[simp] theorem emit_twc (s : State) (o : Out) : (s.emit o).twc = s.twc := rfl
@[simp] theorem emit_sec (s : State) (o : Out) : (s.emit o).sec = s.sec := rfl
@[simp] theorem emit_dbg (s : State) (o : Out) : (s.emit o).dbg = s.dbg := rfl
@[simp] theorem emit_trec (s : State) (o : Out) : (s.emit o).trec = s.trec := rfl
@[simp] theorem emit_berths (s : State) (o : Out) : (s.emit o).berths = s.berths := rfl
@[simp] theorem emit_arbs (s : State) (o : Out) : (s.emit o).arbs = s.arbs := rfl
@[simp] theorem emit_mem (s : State) (o : Out) : (s.emit o).mem = s.mem := rfl
@[simp] theorem emit_moor (s : State) (o : Out) : (s.emit o).moor = s.moor := rfl
@[simp] theorem emit_trays (s : State) (o : Out) : (s.emit o).trays = s.trays := rfl
@[simp] theorem emit_units (s : State) (o : Out) : (s.emit o).units = s.units := rfl
@[simp] theorem emit_delivered (s : State) (o : Out) : (s.emit o).delivered = s.delivered := rfl
@[simp] theorem emit_pageLast (s : State) (o : Out) : (s.emit o).pageLast = s.pageLast := rfl
@[simp] theorem emit_moorUnits (s : State) (o : Out) : (s.emit o).moorUnits = s.moorUnits := rfl
@[simp] theorem emit_readySeq (s : State) (o : Out) : (s.emit o).readySeq = s.readySeq := rfl
@[simp] theorem emit_fresh (s : State) (o : Out) : (s.emit o).fresh = s.fresh := rfl
@[simp] theorem emit_out (s : State) (o : Out) : (s.emit o).out = o :: s.out := rfl
@[simp] theorem emit_pending (s : State) (o : Out) : (s.emit o).pending = s.pending := rfl
@[simp] theorem emit_queue (s : State) (o : Out) (j : Nat) : (s.emit o).queue j = s.queue j := rfl
@[simp] theorem emit_run (s : State) (o : Out) (j : Nat) : (s.emit o).run j = s.run j := rfl
@[simp] theorem emit_sync (s : State) (o : Out) (j : Nat) : (s.emit o).sync j = s.sync j := rfl
@[simp] theorem emit_core (s : State) (o : Out) (j : Nat) : (s.emit o).core j = s.core j := rfl
@[simp] theorem emit_cluster (s : State) (o : Out) (j : Nat) : (s.emit o).cluster j = s.cluster j := rfl
@[simp] theorem emit_harbour (s : State) (o : Out) (j : Nat) : (s.emit o).harbour j = s.harbour j := rfl
@[simp] theorem emit_stack (s : State) (o : Out) (j : Nat) : (s.emit o).stack j = s.stack j := rfl
@[simp] theorem emit_port (s : State) (o : Out) (j : Nat) : (s.emit o).port j = s.port j := rfl
@[simp] theorem emit_codecEng (s : State) (o : Out) (j : Nat) : (s.emit o).codecEng j = s.codecEng j := rfl
@[simp] theorem emit_lshEng (s : State) (o : Out) (j : Nat) : (s.emit o).lshEng j = s.lshEng j := rfl
@[simp] theorem emit_half (s : State) (o : Out) (j : Nat) : (s.emit o).half j = s.half j := rfl
@[simp] theorem emit_berth (s : State) (o : Out) (j : Nat) : (s.emit o).berth j = s.berth j := rfl
@[simp] theorem take_fst (s : State) : s.take.1 = s.fresh := rfl
@[simp] theorem take_glb (s : State) : s.take.2.glb = s.glb := rfl
@[simp] theorem take_clk (s : State) : s.take.2.clk = s.clk := rfl
@[simp] theorem take_queues (s : State) : s.take.2.queues = s.queues := rfl
@[simp] theorem take_runs (s : State) : s.take.2.runs = s.runs := rfl
@[simp] theorem take_syncs (s : State) : s.take.2.syncs = s.syncs := rfl
@[simp] theorem take_cores (s : State) : s.take.2.cores = s.cores := rfl
@[simp] theorem take_clusters (s : State) : s.take.2.clusters = s.clusters := rfl
@[simp] theorem take_hbr (s : State) : s.take.2.hbr = s.hbr := rfl
@[simp] theorem take_stks (s : State) : s.take.2.stks = s.stks := rfl
@[simp] theorem take_shelf (s : State) : s.take.2.shelf = s.shelf := rfl
@[simp] theorem take_ports (s : State) : s.take.2.ports = s.ports := rfl
@[simp] theorem take_cwy (s : State) : s.take.2.cwy = s.cwy := rfl
@[simp] theorem take_codecs (s : State) : s.take.2.codecs = s.codecs := rfl
@[simp] theorem take_codecQ (s : State) : s.take.2.codecQ = s.codecQ := rfl
@[simp] theorem take_lsh (s : State) : s.take.2.lsh = s.lsh := rfl
@[simp] theorem take_lshQ (s : State) : s.take.2.lshQ = s.lshQ := rfl
@[simp] theorem take_twcH (s : State) : s.take.2.twcH = s.twcH := rfl
@[simp] theorem take_twc (s : State) : s.take.2.twc = s.twc := rfl
@[simp] theorem take_sec (s : State) : s.take.2.sec = s.sec := rfl
@[simp] theorem take_dbg (s : State) : s.take.2.dbg = s.dbg := rfl
@[simp] theorem take_trec (s : State) : s.take.2.trec = s.trec := rfl
@[simp] theorem take_berths (s : State) : s.take.2.berths = s.berths := rfl
@[simp] theorem take_arbs (s : State) : s.take.2.arbs = s.arbs := rfl
@[simp] theorem take_mem (s : State) : s.take.2.mem = s.mem := rfl
@[simp] theorem take_moor (s : State) : s.take.2.moor = s.moor := rfl
@[simp] theorem take_trays (s : State) : s.take.2.trays = s.trays := rfl
@[simp] theorem take_units (s : State) : s.take.2.units = s.units := rfl
@[simp] theorem take_delivered (s : State) : s.take.2.delivered = s.delivered := rfl
@[simp] theorem take_pageLast (s : State) : s.take.2.pageLast = s.pageLast := rfl
@[simp] theorem take_moorUnits (s : State) : s.take.2.moorUnits = s.moorUnits := rfl
@[simp] theorem take_readySeq (s : State) : s.take.2.readySeq = s.readySeq := rfl
@[simp] theorem take_fresh (s : State) : s.take.2.fresh = s.fresh + 1 := rfl
@[simp] theorem take_out (s : State) : s.take.2.out = s.out := rfl
@[simp] theorem take_pending (s : State) : s.take.2.pending = s.pending := rfl
@[simp] theorem setBlock_glb (s : State) (i : Nat) (v : Block) : (s.setBlock i v).glb = s.glb := rfl
@[simp] theorem setBlock_clk (s : State) (i : Nat) (v : Block) : (s.setBlock i v).clk = s.clk := rfl
@[simp] theorem setBlock_queues (s : State) (i : Nat) (v : Block) : (s.setBlock i v).queues = s.queues := rfl
@[simp] theorem setBlock_runs (s : State) (i : Nat) (v : Block) : (s.setBlock i v).runs = s.runs := rfl
@[simp] theorem setBlock_syncs (s : State) (i : Nat) (v : Block) : (s.setBlock i v).syncs = s.syncs := rfl
@[simp] theorem setBlock_cores (s : State) (i : Nat) (v : Block) : (s.setBlock i v).cores = s.cores := rfl
@[simp] theorem setBlock_clusters (s : State) (i : Nat) (v : Block) : (s.setBlock i v).clusters = s.clusters := rfl
@[simp] theorem setBlock_hbr (s : State) (i : Nat) (v : Block) : (s.setBlock i v).hbr = s.hbr := rfl
@[simp] theorem setBlock_stks (s : State) (i : Nat) (v : Block) : (s.setBlock i v).stks = s.stks := rfl
@[simp] theorem setBlock_ports (s : State) (i : Nat) (v : Block) : (s.setBlock i v).ports = s.ports := rfl
@[simp] theorem setBlock_cwy (s : State) (i : Nat) (v : Block) : (s.setBlock i v).cwy = s.cwy := rfl
@[simp] theorem setBlock_codecs (s : State) (i : Nat) (v : Block) : (s.setBlock i v).codecs = s.codecs := rfl
@[simp] theorem setBlock_codecQ (s : State) (i : Nat) (v : Block) : (s.setBlock i v).codecQ = s.codecQ := rfl
@[simp] theorem setBlock_lsh (s : State) (i : Nat) (v : Block) : (s.setBlock i v).lsh = s.lsh := rfl
@[simp] theorem setBlock_lshQ (s : State) (i : Nat) (v : Block) : (s.setBlock i v).lshQ = s.lshQ := rfl
@[simp] theorem setBlock_twcH (s : State) (i : Nat) (v : Block) : (s.setBlock i v).twcH = s.twcH := rfl
@[simp] theorem setBlock_twc (s : State) (i : Nat) (v : Block) : (s.setBlock i v).twc = s.twc := rfl
@[simp] theorem setBlock_sec (s : State) (i : Nat) (v : Block) : (s.setBlock i v).sec = s.sec := rfl
@[simp] theorem setBlock_dbg (s : State) (i : Nat) (v : Block) : (s.setBlock i v).dbg = s.dbg := rfl
@[simp] theorem setBlock_trec (s : State) (i : Nat) (v : Block) : (s.setBlock i v).trec = s.trec := rfl
@[simp] theorem setBlock_berths (s : State) (i : Nat) (v : Block) : (s.setBlock i v).berths = s.berths := rfl
@[simp] theorem setBlock_arbs (s : State) (i : Nat) (v : Block) : (s.setBlock i v).arbs = s.arbs := rfl
@[simp] theorem setBlock_mem (s : State) (i : Nat) (v : Block) : (s.setBlock i v).mem = s.mem := rfl
@[simp] theorem setBlock_moor (s : State) (i : Nat) (v : Block) : (s.setBlock i v).moor = s.moor := rfl
@[simp] theorem setBlock_trays (s : State) (i : Nat) (v : Block) : (s.setBlock i v).trays = s.trays := rfl
@[simp] theorem setBlock_units (s : State) (i : Nat) (v : Block) : (s.setBlock i v).units = s.units := rfl
@[simp] theorem setBlock_delivered (s : State) (i : Nat) (v : Block) : (s.setBlock i v).delivered = s.delivered := rfl
@[simp] theorem setBlock_pageLast (s : State) (i : Nat) (v : Block) : (s.setBlock i v).pageLast = s.pageLast := rfl
@[simp] theorem setBlock_moorUnits (s : State) (i : Nat) (v : Block) : (s.setBlock i v).moorUnits = s.moorUnits := rfl
@[simp] theorem setBlock_readySeq (s : State) (i : Nat) (v : Block) : (s.setBlock i v).readySeq = s.readySeq := rfl
@[simp] theorem setBlock_fresh (s : State) (i : Nat) (v : Block) : (s.setBlock i v).fresh = s.fresh := rfl
@[simp] theorem setBlock_out (s : State) (i : Nat) (v : Block) : (s.setBlock i v).out = s.out := rfl
@[simp] theorem setBlock_pending (s : State) (i : Nat) (v : Block) : (s.setBlock i v).pending = s.pending := rfl
@[simp] theorem setBlock_block (s : State) (i j : Nat) (v : Block) : (s.setBlock i v).block j = if j = i then v else s.block j :=
  look_put _ v _ i j

end Sys2Proof.Machine
end

