-- ==== Sys2Proof/Laws/Keeps.lean ====
section
/-! SUPPORT. What no command of the part undoes: the relation that every operation keeps, between the state before and
the state after, with its laws of composition. -/
namespace Sys2Proof.Machine

theorem Dbg.fits_reset : Dbg.fits {} := ⟨Nat.zero_le _, Nat.zero_le _⟩

/-- From s to t the queue of commands is the same, memories stay in canonical form, Keeper's buffers and the pending
tickets stay within their bounds; SECVER_MIN never falls (R474), a retired page stays retired (R348), a bad block stays
bad (R357), and no free value is taken twice. -/
structure Keeps (s t : State) : Prop where
  pending : t.pending = s.pending
  memWf : s.memWf = true → t.memWf = true
  keeper : s.dbg.fits → t.dbg.fits
  tickets : s.sec.fits → t.sec.fits
  secver : ∀ i, look 0 s.sec.secverMin i ≤ look 0 t.sec.secverMin i
  retired : ∀ p, p ∈ s.trec.retired → p ∈ t.trec.retired
  bad : ∀ i, (s.block i).bad = true → (t.block i).bad = true
  fresh : s.fresh ≤ t.fresh

theorem Keeps.refl (s : State) : Keeps s s :=
  ⟨rfl, id, id, id, fun _ => Nat.le_refl _, fun _ => id, fun _ => id, Nat.le_refl _⟩

theorem Keeps.trans {s t u : State} (h : Keeps s t) (k : Keeps t u) : Keeps s u :=
  ⟨k.pending.trans h.pending, k.memWf ∘ h.memWf, k.keeper ∘ h.keeper, k.tickets ∘ h.tickets,
    fun i => Nat.le_trans (h.secver i) (k.secver i), fun p hp => k.retired p (h.retired p hp),
    fun i hi => k.bad i (h.bad i hi), Nat.le_trans h.fresh k.fresh⟩

/-- An update that leaves all of these parts alone. -/
theorem Keeps.same {s t : State} (h1 : t.pending = s.pending) (h2 : t.mem = s.mem) (h3 : t.moor = s.moor)
    (h4 : t.trays = s.trays) (h5 : t.units = s.units) (h6 : t.moorUnits = s.moorUnits) (h7 : t.dbg = s.dbg)
    (h8 : t.sec = s.sec) (h9 : t.trec = s.trec) (h10 : t.shelf = s.shelf) (h11 : t.fresh = s.fresh) : Keeps s t := by
  refine ⟨h1, ?_, ?_, ?_, ?_, ?_, ?_, ?_⟩
  · simp [State.memWf, h2, h3, h4, h5, h6]
  · rw [h7]; exact id
  · rw [h8]; exact id
  · intro i; exact Nat.le_of_eq (by rw [h8])
  · intro p; rw [h9]; exact id
  · intro i; simp only [State.block, h10]; exact id
  · exact Nat.le_of_eq h11.symm

/-- An update of fields that carry none of these parts. -/
theorem Keeps.with (s : State) (g : Glb) (c : Clk) (qs : Tbl QCtx) (rs : Tbl Run) (ys : Tbl Sync) (cs : Tbl Core)
    (cl : Tbl Cluster) (hb : Tbl Hbr) (ks : Tbl Stack) (ps : Tbl Port) (cw : Cwy) (ce : Tbl CodecEng)
    (cq : List (Nat × Nat)) (le : Tbl LshEng) (lq : List (Nat × Nat)) (th : Tbl TwcHalf) (tw : Twc) (bs : Tbl Berth)
    (ar : Tbl Arb) (pl : Tbl Nat) (rq : Nat) (o : List Out) :
    Keeps s { s with
      glb := g, clk := c, queues := qs, runs := rs, syncs := ys, cores := cs, clusters := cl, hbr := hb, stks := ks
      ports := ps, cwy := cw, codecs := ce, codecQ := cq, lsh := le, lshQ := lq, twcH := th, twc := tw, berths := bs
      arbs := ar, pageLast := pl, readySeq := rq, out := o } :=
  .same rfl rfl rfl rfl rfl rfl rfl rfl rfl rfl rfl

theorem Keeps.ite {s a b : State} {c : Prop} [Decidable c] (ha : Keeps s a) (hb : Keeps s b) :
    Keeps s (if c then a else b) := by split <;> assumption

theorem Keeps.forEach {α : Type} {f : α → State → State} (hf : ∀ a t, Keeps t (f a t)) (l : List α) (s : State) :
    Keeps s (forEach l f s) :=
  forEach_rel (R := Keeps) Keeps.refl (fun _ _ _ => Keeps.trans) f hf l s

theorem Keeps.foldl {α β : Type} (g : β → State) {f : β → α → β} (hf : ∀ b a, Keeps (g b) (g (f b a))) (l : List α)
    (b : β) : Keeps (g b) (g (l.foldl f b)) := by
  induction l generalizing b with
  | nil => exact .refl _
  | cons a l ih => exact (hf b a).trans (ih _)

theorem Keeps.foldE {α : Type} {f : State → α → Except Flt State} (hf : ∀ t a u, f t a = .ok u → Keeps t u)
    (l : List α) (s t : State) (h : foldE f s l = .ok t) : Keeps s t := by
  induction l generalizing s with
  | nil => cases h; exact .refl _
  | cons a l ih =>
    simp only [Machine.foldE] at h
    split at h
    · cases h
    · rename_i u hu; exact (hf _ _ _ hu).trans (ih _ h)

/-- A meaning answers a next state, which keeps what no command undoes. -/
def Answers (s : State) (o : Host.Outcome State Fault Refusal) : Prop := ∃ t, o = .next t ∧ Keeps s t

theorem Answers.next {s t : State} (h : Keeps s t) : Answers s (.next t) := ⟨t, rfl, h⟩

/-! ### The updates of Machine/Ops.lean -/

section
variable (s : State) (i : Nat)

theorem State.setQueue_keeps (v : QCtx) : Keeps s (s.setQueue i v) := .same rfl rfl rfl rfl rfl rfl rfl rfl rfl rfl rfl
theorem State.setRun_keeps (v : Run) : Keeps s (s.setRun i v) := .same rfl rfl rfl rfl rfl rfl rfl rfl rfl rfl rfl
theorem State.setSync_keeps (v : Sync) : Keeps s (s.setSync i v) := .same rfl rfl rfl rfl rfl rfl rfl rfl rfl rfl rfl
theorem State.setCore_keeps (v : Core) : Keeps s (s.setCore i v) := .same rfl rfl rfl rfl rfl rfl rfl rfl rfl rfl rfl
theorem State.setCluster_keeps (v : Cluster) : Keeps s (s.setCluster i v) :=
  .same rfl rfl rfl rfl rfl rfl rfl rfl rfl rfl rfl
theorem State.setHarbour_keeps (v : Hbr) : Keeps s (s.setHarbour i v) :=
  .same rfl rfl rfl rfl rfl rfl rfl rfl rfl rfl rfl
theorem State.setStack_keeps (v : Stack) : Keeps s (s.setStack i v) := .same rfl rfl rfl rfl rfl rfl rfl rfl rfl rfl rfl
theorem State.setPort_keeps (v : Port) : Keeps s (s.setPort i v) := .same rfl rfl rfl rfl rfl rfl rfl rfl rfl rfl rfl
theorem State.setCodecEng_keeps (v : CodecEng) : Keeps s (s.setCodecEng i v) :=
  .same rfl rfl rfl rfl rfl rfl rfl rfl rfl rfl rfl
theorem State.setLshEng_keeps (v : LshEng) : Keeps s (s.setLshEng i v) :=
  .same rfl rfl rfl rfl rfl rfl rfl rfl rfl rfl rfl
theorem State.setHalf_keeps (v : TwcHalf) : Keeps s (s.setHalf i v) := .same rfl rfl rfl rfl rfl rfl rfl rfl rfl rfl rfl
theorem State.setBerth_keeps (v : Berth) : Keeps s (s.setBerth i v) := .same rfl rfl rfl rfl rfl rfl rfl rfl rfl rfl rfl
theorem State.modQueue_keeps (f : QCtx → QCtx) : Keeps s (s.modQueue i f) := s.setQueue_keeps i _
theorem State.modRun_keeps (f : Run → Run) : Keeps s (s.modRun i f) := s.setRun_keeps i _
theorem State.modSync_keeps (f : Sync → Sync) : Keeps s (s.modSync i f) := s.setSync_keeps i _
theorem State.modCore_keeps (f : Core → Core) : Keeps s (s.modCore i f) := s.setCore_keeps i _
theorem State.modCluster_keeps (f : Cluster → Cluster) : Keeps s (s.modCluster i f) := s.setCluster_keeps i _
theorem State.modHarbour_keeps (f : Hbr → Hbr) : Keeps s (s.modHarbour i f) := s.setHarbour_keeps i _
theorem State.modStack_keeps (f : Stack → Stack) : Keeps s (s.modStack i f) := s.setStack_keeps i _
theorem State.modChan_keeps (c : Nat) (f : Chan → Chan) : Keeps s (s.modChan i c f) := s.modStack_keeps i _
theorem State.modPort_keeps (f : Port → Port) : Keeps s (s.modPort i f) := s.setPort_keeps i _
theorem State.modCodecEng_keeps (f : CodecEng → CodecEng) : Keeps s (s.modCodecEng i f) := s.setCodecEng_keeps i _
theorem State.modLshEng_keeps (f : LshEng → LshEng) : Keeps s (s.modLshEng i f) := s.setLshEng_keeps i _
theorem State.modHalf_keeps (f : TwcHalf → TwcHalf) : Keeps s (s.modHalf i f) := s.setHalf_keeps i _
theorem State.modBerth_keeps (f : Berth → Berth) : Keeps s (s.modBerth i f) := s.setBerth_keeps i _
theorem State.modGlb_keeps (f : Glb → Glb) : Keeps s (s.modGlb f) := .same rfl rfl rfl rfl rfl rfl rfl rfl rfl rfl rfl
theorem State.modClk_keeps (f : Clk → Clk) : Keeps s (s.modClk f) := .same rfl rfl rfl rfl rfl rfl rfl rfl rfl rfl rfl
theorem State.modCwy_keeps (f : Cwy → Cwy) : Keeps s (s.modCwy f) := .same rfl rfl rfl rfl rfl rfl rfl rfl rfl rfl rfl
theorem State.modTwc_keeps (f : Twc → Twc) : Keeps s (s.modTwc f) := .same rfl rfl rfl rfl rfl rfl rfl rfl rfl rfl rfl
theorem State.emit_keeps (o : Out) : Keeps s (s.emit o) := .same rfl rfl rfl rfl rfl rfl rfl rfl rfl rfl rfl

theorem State.take_keeps : Keeps s s.take.2 where
  pending := rfl
  memWf := id
  keeper := id
  tickets := id
  secver _ := Nat.le_refl _
  retired _ := id
  bad _ := id
  fresh := Nat.le_succ _

theorem State.setBlock_keeps (v : Block) (h : (s.block i).bad = true → v.bad = true) : Keeps s (s.setBlock i v) where
  pending := rfl
  memWf := id
  keeper := id
  tickets := id
  secver _ := Nat.le_refl _
  retired _ := id
  bad j hj := by
    rw [setBlock_block]; split
    · subst j; exact h hj
    · exact hj
  fresh := Nat.le_refl _

theorem State.modShelf_keeps (f : Shelf → Shelf) (h : ∀ x, (f x).blocks = x.blocks) : Keeps s (s.modShelf f) where
  pending := rfl
  memWf := id
  keeper := id
  tickets := id
  secver _ := Nat.le_refl _
  retired _ := id
  bad j hj := by simp only [State.block, State.modShelf, h]; exact hj
  fresh := Nat.le_refl _

theorem State.modSec_keeps (f : Sec → Sec) (h1 : ∀ x j, look 0 x.secverMin j ≤ look 0 (f x).secverMin j)
    (h2 : ∀ x, x.fits → (f x).fits) : Keeps s (s.modSec f) where
  pending := rfl
  memWf := id
  keeper := id
  tickets := h2 _
  secver := h1 _
  retired _ := id
  bad _ := id
  fresh := Nat.le_refl _

theorem State.modDbg_keeps (f : Dbg → Dbg) (h : ∀ x, x.fits → (f x).fits) : Keeps s (s.modDbg f) where
  pending := rfl
  memWf := id
  keeper := h _
  tickets := id
  secver _ := Nat.le_refl _
  retired _ := id
  bad _ := id
  fresh := Nat.le_refl _

theorem State.modTrec_keeps (f : TRec → TRec) (h : ∀ x p, p ∈ x.retired → p ∈ (f x).retired) : Keeps s (s.modTrec f) where
  pending := rfl
  memWf := id
  keeper := id
  tickets := id
  secver _ := Nat.le_refl _
  retired := h _
  bad _ := id
  fresh := Nat.le_refl _

theorem State.modSec_same (f : Sec → Sec) (h1 : (f s.sec).secverMin = s.sec.secverMin)
    (h2 : (f s.sec).pend = s.sec.pend) : Keeps s (s.modSec f) where
  pending := rfl
  memWf := id
  keeper := id
  tickets h := by simpa [Sec.fits, State.modSec, h2] using h
  secver _ := by simp [State.modSec, h1]
  retired _ := id
  bad _ := id
  fresh := Nat.le_refl _

theorem State.modDbg_same (f : Dbg → Dbg) (h1 : (f s.dbg).lines = s.dbg.lines) (h2 : (f s.dbg).rx = s.dbg.rx)
    (h3 : (f s.dbg).reports = s.dbg.reports) : Keeps s (s.modDbg f) where
  pending := rfl
  memWf := id
  keeper h := by simpa [Dbg.fits, State.modDbg, buffered, h1, h2, h3] using h
  tickets := id
  secver _ := Nat.le_refl _
  retired _ := id
  bad _ := id
  fresh := Nat.le_refl _

theorem State.modTrec_same (f : TRec → TRec) (h : (f s.trec).retired = s.trec.retired) : Keeps s (s.modTrec f) where
  pending := rfl
  memWf := id
  keeper := id
  tickets := id
  secver _ := Nat.le_refl _
  retired p hp := by simpa [State.modTrec, h] using hp
  bad _ := id
  fresh := Nat.le_refl _

theorem State.modShelf_same (f : Shelf → Shelf) (h : (f s.shelf).blocks = s.shelf.blocks) : Keeps s (s.modShelf f) where
  pending := rfl
  memWf := id
  keeper := id
  tickets := id
  secver _ := Nat.le_refl _
  retired _ := id
  bad j hj := by simp only [State.block, State.modShelf, h]; exact hj
  fresh := Nat.le_refl _

/-- An update of the memories and their marks that keeps them canonical. -/
theorem Keeps.memories {s : State} {m o y : Memory} {u v : Tbl UnitSt}
    (h : s.memWf = true → Memory.wf m = true ∧ Memory.wf o = true ∧ Memory.wf y = true ∧ tblWf .good u = true ∧
      tblWf .good v = true) :
    Keeps s { s with mem := m, moor := o, trays := y, units := u, moorUnits := v } where
  pending := rfl
  memWf hs := by obtain ⟨h1, h2, h3, h4, h5⟩ := h hs; simp [State.memWf, h1, h2, h3, h4, h5]
  keeper := id
  tickets := id
  secver _ := Nat.le_refl _
  retired _ := id
  bad _ := id
  fresh := Nat.le_refl _

theorem Keeps.setMem (m : Memory) (h : Memory.wf s.mem = true → Memory.wf m = true) : Keeps s { s with mem := m } :=
  .memories fun hs => by simp only [State.memWf, Bool.and_eq_true] at hs; simp_all

theorem Keeps.setMoor (m : Memory) (h : Memory.wf s.moor = true → Memory.wf m = true) : Keeps s { s with moor := m } :=
  .memories fun hs => by simp only [State.memWf, Bool.and_eq_true] at hs; simp_all

theorem Keeps.setTrays (m : Memory) (h : Memory.wf s.trays = true → Memory.wf m = true) :
    Keeps s { s with trays := m } :=
  .memories fun hs => by simp only [State.memWf, Bool.and_eq_true] at hs; simp_all

theorem Keeps.setUnits (u : Tbl UnitSt) (h : tblWf .good s.units = true → tblWf .good u = true) :
    Keeps s { s with units := u } :=
  .memories fun hs => by simp only [State.memWf, Bool.and_eq_true] at hs; simp_all

theorem Keeps.setMoorUnits (u : Tbl UnitSt) (h : tblWf .good s.moorUnits = true → tblWf .good u = true) :
    Keeps s { s with moorUnits := u } :=
  .memories fun hs => by simp only [State.memWf, Bool.and_eq_true] at hs; simp_all

theorem Keeps.setMemUnits (m : Memory) (u : Tbl UnitSt) (h : Memory.wf s.mem = true → Memory.wf m = true)
    (k : tblWf .good s.units = true → tblWf .good u = true) : Keeps s { s with mem := m, units := u } :=
  (Keeps.setMem s m h).trans (Keeps.setUnits { s with mem := m } u k)

theorem Keeps.setMoorBoth (m : Memory) (u : Tbl UnitSt) (h : Memory.wf s.moor = true → Memory.wf m = true)
    (k : tblWf .good s.moorUnits = true → tblWf .good u = true) : Keeps s { s with moor := m, moorUnits := u } :=
  (Keeps.setMoor s m h).trans (Keeps.setMoorUnits { s with moor := m } u k)

theorem Keeps.setPageLast (p : Tbl Nat) : Keeps s { s with pageLast := p } :=
  .same rfl rfl rfl rfl rfl rfl rfl rfl rfl rfl rfl

theorem Keeps.setBerths (p : Tbl Berth) : Keeps s { s with berths := p } :=
  .same rfl rfl rfl rfl rfl rfl rfl rfl rfl rfl rfl

theorem Keeps.setCodecQ (p : List (Nat × Nat)) : Keeps s { s with codecQ := p } :=
  .same rfl rfl rfl rfl rfl rfl rfl rfl rfl rfl rfl

theorem State.memWf_iff (s : State) : s.memWf = true ↔ Memory.wf s.mem = true ∧ Memory.wf s.moor = true ∧
    Memory.wf s.trays = true ∧ tblWf .good s.units = true ∧ tblWf .good s.moorUnits = true := by
  simp [State.memWf, and_assoc]

end

end Sys2Proof.Machine
end

