-- ==== Sys2Proof/Laws/Settle.lean ====
section
/-! SUPPORT. What bringing readiness up to date can change. -/
namespace Sys2Proof.Machine

theorem State.sameButReadiness.refl (s : State) : s.sameButReadiness s :=
  ⟨rfl, fun _ => rfl, fun _ => rfl, fun _ => rfl, fun _ _ => rfl⟩

theorem State.sameButReadiness.trans {s t u : State} (h : s.sameButReadiness t) (k : t.sameButReadiness u) :
    s.sameButReadiness u := by
  obtain ⟨h1, h2, h3, h4, h5⟩ := h
  obtain ⟨k1, k2, k3, k4, k5⟩ := k
  refine ⟨?_, fun q => ?_, fun b => ?_, fun a => ?_, fun a b => ?_⟩
  · rw [k1, h1]
  · rw [k2 q, h2 q]
  · rw [k3 b, h3 b]
  · rw [k4 a, h4 a]
  · rw [k5 a b, h5 a b]

theorem refreshReady_readiness (q : Nat) (s : State) : s.sameButReadiness (refreshReady q s) := by
  have key : ∀ n m : Nat, s.sameButReadiness { s.setRun q { s.run q with readyAt := n } with readySeq := m } := by
    intro n m
    refine ⟨rfl, fun p => ?_, fun _ => rfl, fun _ => rfl, fun _ _ => rfl⟩
    have e : State.run { s.setRun q { s.run q with readyAt := n } with readySeq := m } p =
        if p = q then { s.run q with readyAt := n } else s.run p := look_put ..
    rw [e]
    by_cases h : p = q
    · subst h; simp
    · simp [h]
  unfold refreshReady
  dsimp only
  split
  · split
    · exact key _ _
    · exact .refl s
  · split
    · exact .refl s
    · exact key 0 s.readySeq

theorem refreshActive_readiness (b : Nat) (s : State) : s.sameButReadiness (refreshActive b s) := by
  have key : ∀ (x : Bool) (v : Nat), s.sameButReadiness (s.setBerth b { s.berth b with active := x, virt := v }) :=
    fun x v => ⟨rfl, fun _ => rfl, fun p => by
      simp only [setBerth_berth]; split
      · next h => subst h; rfl
      · rfl, fun _ => rfl, fun _ _ => rfl⟩
  unfold refreshActive
  dsimp only
  split
  · exact .refl s
  · split
    · split
      · exact key true (s.berth b).virt
      · exact key true _
    · exact key false (s.berth b).virt

theorem modShare_readiness (h b : Nat) (w : Share → Bool) (s : State) :
    s.sameButReadiness (s.modShare h b (fun k => { k with waiting := w k })) := by
  refine ⟨rfl, fun _ => rfl, fun _ => rfl, fun a => ?_, fun a c => ?_⟩ <;>
    simp only [State.modShare, modHarbour_eq, setHarbour_harbour]
  · split
    · next e => subst e; rfl
    · rfl
  · split
    · next e =>
      subst e
      simp only [look_put]; split
      · next e => subst e; rfl
      · rfl
    · rfl

theorem refreshWaiting_readiness (b : Nat) (s : State) : s.sameButReadiness (refreshWaiting b s) :=
  forEach_rel State.sameButReadiness.refl (fun _ _ _ => State.sameButReadiness.trans) _
    (fun a t => modShare_readiness a b _ t) _ s

/-- Bringing readiness up to date changes readiness alone. -/
theorem settle_readiness (s : State) : s.sameButReadiness (settle s) :=
  ((forEach_rel State.sameButReadiness.refl (fun _ _ _ => State.sameButReadiness.trans) _
    (fun a t => refreshReady_readiness a t) _ s).trans
  (forEach_rel State.sameButReadiness.refl (fun _ _ _ => State.sameButReadiness.trans) _
    (fun a t => refreshActive_readiness a t) _ _)).trans
  (forEach_rel State.sameButReadiness.refl (fun _ _ _ => State.sameButReadiness.trans) _
    (fun a t => refreshWaiting_readiness a t) _ _)

end Sys2Proof.Machine
end

