-- ==== Sys2Proof/Laws/Frames.lean ====
section
/-! SUPPORT. What stopping a kernel's engines, and sending messages, leaves alone. -/
namespace Sys2Proof.Machine

/-- The parts of the state that ending a run, or sending a message, does not reach: queues and runs, sync objects,
stacks, the Shelf, the security block, Keeper, the Tidewatch record, memory, trays. A stopped job may take free values
(Machine/Kernel.lean: idleUnit), so their counter is not among them. -/
def State.kept (s : State) : State :=
  { s with
    glb := {}, cores := [], clusters := [], hbr := [], ports := [], cwy := {}, codecs := [], codecQ := [], lsh := []
    lshQ := [], twcH := [], twc := {}, berths := [], arbs := [], moor := [], moorUnits := [], readySeq := 0, fresh := 0
    out := [] }

section
variable (s : State) (i : Nat)
@[simp] theorem setCore_kept (v : Core) : (s.setCore i v).kept = s.kept := rfl
@[simp] theorem setCluster_kept (v : Cluster) : (s.setCluster i v).kept = s.kept := rfl
@[simp] theorem setHarbour_kept (v : Hbr) : (s.setHarbour i v).kept = s.kept := rfl
@[simp] theorem setPort_kept (v : Port) : (s.setPort i v).kept = s.kept := rfl
@[simp] theorem setCodecEng_kept (v : CodecEng) : (s.setCodecEng i v).kept = s.kept := rfl
@[simp] theorem setLshEng_kept (v : LshEng) : (s.setLshEng i v).kept = s.kept := rfl
@[simp] theorem setHalf_kept (v : TwcHalf) : (s.setHalf i v).kept = s.kept := rfl
@[simp] theorem setBerth_kept (v : Berth) : (s.setBerth i v).kept = s.kept := rfl
@[simp] theorem emit_kept (o : Out) : (s.emit o).kept = s.kept := rfl
@[simp] theorem modGlb_kept (f : Glb → Glb) : (s.modGlb f).kept = s.kept := rfl
@[simp] theorem modCwy_kept (f : Cwy → Cwy) : (s.modCwy f).kept = s.kept := rfl
@[simp] theorem modTwc_kept (f : Twc → Twc) : (s.modTwc f).kept = s.kept := rfl
end

@[simp] theorem modShare_kept (h b : Nat) (f : Share → Share) (s : State) : (s.modShare h b f).kept = s.kept := rfl
@[simp] theorem modGroup_kept (b i : Nat) (f : Group → Group) (s : State) : (s.modGroup b i f).kept = s.kept := rfl
@[simp] theorem modPage_kept (b i : Nat) (f : Page → Page) (s : State) : (s.modPage b i f).kept = s.kept := rfl
@[simp] theorem modTray_kept (c t : Nat) (f : Tray → Tray) (s : State) : (s.modTray c t f).kept = s.kept := rfl
@[simp] theorem modMxe_kept (m : Nat) (f : Mxe → Mxe) (s : State) : (s.modMxe m f).kept = s.kept := rfl

theorem forEach_kept {α : Type} {f : α → State → State} (h : ∀ a s, (f a s).kept = s.kept) (l : List α) (s : State) :
    (forEach l f s).kept = s.kept := forEach_same State.kept f h l s

/-! ### Messages -/

theorem chargeVl_kept (s : State) (p vl n : Nat) : (chargeVl s p vl n).kept = s.kept := by
  unfold chargeVl; split <;> rfl

theorem sendPort_kept (p n : Nat) (s : State) : (sendPort p n s).kept = s.kept := by
  induction n generalizing s with
  | zero => rfl
  | succ n ih =>
    unfold sendPort
    dsimp only
    split
    · split
      · rfl
      · split
        · rfl
        · rw [ih]; simp [chargeVl_kept]
    · rfl

theorem enqueue_kept (p : Nat) (k : Packet) (s : State) : (enqueue p k s).kept = s.kept := by
  simp [enqueue, sendPort_kept]

theorem countBad_kept (p : Nat) (s : State) : (countBad p s).kept = s.kept := rfl

theorem route_kept (h : Nat) (k : Packet) (s : State) : (route h k s).kept = s.kept := by
  unfold route routeTo
  dsimp only
  repeat' split
  all_goals simp [enqueue_kept, countBad_kept]

theorem sendRank_kept (h : Nat) (g : Group) (r n : Nat) (k : Packet) (s : State) :
    (sendRank h g r n k s).kept = s.kept := by
  unfold sendRank
  dsimp only
  split <;> simp [route_kept, enqueue_kept]

theorem sendAbort_kept (h b i c d n : Nat) (o : Option Nat) (s : State) : (sendAbort h b i c d n o s).kept = s.kept :=
  forEach_kept (fun _ _ => sendRank_kept ..) _ _

theorem raiseVector_kept (v : Nat) (s : State) : (raiseVector v s).kept = s.kept := by
  unfold raiseVector; dsimp only; split <;> rfl

theorem makeRecord_kept (h t b : Nat) (p : List Byte) (s : State) : (makeRecord h t b p s).kept = s.kept := by
  unfold makeRecord
  dsimp only
  repeat' split
  all_goals simp [route_kept, raiseVector_kept]

/-! ### Ending a run -/

theorem idleEngine_kept (o : Op) (w : Work) (s : State) : (idleEngine o w s).kept = s.kept := by
  unfold idleEngine; split
  · rfl
  · split <;> simp

theorem idleUnit_kept (i : Inst) (s : State) : (idleUnit i s).kept = s.kept := by
  unfold idleUnit; split <;> rfl

theorem stopEngines_kept (q : Nat) (s : State) : (stopEngines q s).kept = s.kept := by
  unfold stopEngines
  dsimp only
  refine Eq.trans (b := State.kept (forEach (s.run q).crew (fun c t => t.modCore c (fun k => { k with
    crew := none, mxe := k.mxe.filterMap (fun p =>
      let m := { idleMxe p.2 with inCrew := false }
      if m = {} then none else some (p.1, m)) }))
    (forEach (s.run q).insts (fun i t => idleUnit i (forEach i.work (idleEngine i.op) t)) s))) rfl ?_
  rw [forEach_kept (fun _ _ => by simp), forEach_kept]
  intro i s
  rw [idleUnit_kept, forEach_kept (fun _ _ => idleEngine_kept ..)]

theorem freeLines_kept (b : Nat) (r : Region) (s : State) : (freeLines b r s).kept = s.kept := rfl

theorem freeScratch_kept (q : Nat) (s : State) : (freeScratch q s).kept = s.kept := by
  unfold freeScratch
  dsimp only
  split
  · simp
  · rw [forEach_kept]
    · simp
    · intro u s; split
      · exact freeLines_kept ..
      · rfl

theorem returnTray_kept (c t : Nat) (s : State) : (returnTray c t s).kept = s.kept := rfl

/-- A kill touches, of what `kept` shows, the one run and the one queue's context. -/
theorem killRun_kept (q code detail word : Nat) (g : Option Nat) (s : State) :
    (killRun q code detail word g s).kept =
      { s.kept with
        runs := put {} s.runs q
          { words := (s.run q).words, start := (s.run q).start, templ := (s.run q).templ, fetched := (s.run q).fetched
            irq := (s.run q).irq, pass := (s.run q).pass, request := (s.run q).request, phase := .killed
            samples := (s.run q).samples, sampled := (s.run q).sampled, passStarted := (s.run q).passStarted
            retiled := (s.run q).retiled, retileDims := (s.run q).retileDims, wide := (s.run q).wide
            traysOut := (s.run q).traysOut ++ (s.run q).crew.flatMap (fun c => (s.runTrays c).map (fun t => (c, t))) }
        queues := put {} s.queues q
          { s.queue q with
            kernelStart := (s.run q).start, faultWord := word, faultCode := code, faultDetail := detail
            killCount := wrapAdd 64 (s.queue q).killCount 1 } } := by
  unfold killRun
  dsimp only
  rw [forEach_kept]
  · have h := (freeScratch_kept q (stopEngines q s)).trans (stopEngines_kept q s)
    generalize freeScratch q (stopEngines q s) = u at h ⊢
    simp only [State.kept, State.mk.injEq] at h
    obtain ⟨-, h2, h3, h4, h5, -, -, -, h6, h7, -, -, -, -, -, -, -, -, h8, h9, h10, -, -, h11, -, h12, h13, h14, h15, -, -, -, -, h16⟩ := h
    simp [State.kept, State.setQueue, State.queue, *]
  · intro g s
    split
    · rfl
    · rw [sendAbort_kept]; simp

theorem settle_kept (s : State) : (settle s).kept = { s.kept with runs := (settle s).runs } := by
  rw [(settle_readiness s).1]; rfl

end Sys2Proof.Machine
end

