-- ==== Sys2Proof/Laws/Ends.lean ====
section
/-! SUPPORT. What a fault or a kill does to the queue and the run that it ends. -/
namespace Sys2Proof.Machine

theorem nextMig_kept (h n : Nat) (s : State) : (nextMig h n s).kept = s.kept := by
  induction n generalizing s with
  | zero => rfl
  | succ n ih =>
    unfold nextMig
    dsimp only
    split
    · split
      · rfl
      · split
        · rw [ih]; rfl
        · rfl
    · rfl

theorem startMig_kept (h : Nat) (s : State) : (startMig h s).kept = s.kept := nextMig_kept ..

theorem requestMig_kept (b v : Nat) (t : Tier) (f : Bool) (q : Nat) (s : State) :
    (requestMig b v t f q s).kept = s.kept := by
  unfold requestMig
  dsimp only
  split
  · rfl
  · rw [startMig_kept, modHalf_eq, setHalf_kept, forEach_kept (fun _ _ => by simp)]
    simp

theorem requestFootprint_kept (q n : Nat) (s : State) : (requestFootprint q n s).kept = s.kept := by
  unfold requestFootprint
  dsimp only
  rw [forEach_kept]
  · simp
  · intro m s; split
    · rfl
    · exact requestMig_kept ..

theorem kept_queue {s t : State} (h : t.kept = s.kept) (q : Nat) : t.queue q = s.queue q := by
  show t.kept.queue q = s.kept.queue q
  rw [h]
theorem kept_run {s t : State} (h : t.kept = s.kept) (q : Nat) : t.run q = s.run q := by
  show t.kept.run q = s.kept.run q
  rw [h]

/-- The stored bytes and the sync objects, which ending a run does not reach. -/
def State.stored (s : State) : Memory × Tbl UnitSt × Memory × Tbl Sync := (s.mem, s.units, s.trays, s.syncs)

theorem kept_stored {s t : State} (h : t.kept = s.kept) : t.stored = s.stored := by
  show t.kept.stored = s.kept.stored
  rw [h]

theorem killRun_queue (q code detail word : Nat) (g : Option Nat) (s : State) (p : Nat) :
    (killRun q code detail word g s).queue p = if p = q then { s.queue q with
      kernelStart := (s.run q).start, faultWord := word, faultCode := code, faultDetail := detail
      killCount := wrapAdd 64 (s.queue q).killCount 1 } else s.queue p := by
  show (killRun q code detail word g s).kept.queue p = _
  rw [killRun_kept]
  exact look_put ..

theorem killRun_run_ne (q code detail word : Nat) (g : Option Nat) (s : State) (p : Nat) (h : p ≠ q) :
    (killRun q code detail word g s).run p = s.run p := by
  show (killRun q code detail word g s).kept.run p = _
  rw [killRun_kept]
  exact look_put_ne _ _ _ h

theorem killRun_run (q code detail word : Nat) (g : Option Nat) (s : State) :
    (killRun q code detail word g s).run q =
      { words := (s.run q).words, start := (s.run q).start, templ := (s.run q).templ, fetched := (s.run q).fetched
        irq := (s.run q).irq, pass := (s.run q).pass, request := (s.run q).request, phase := .killed
        samples := (s.run q).samples, sampled := (s.run q).sampled, passStarted := (s.run q).passStarted
        retiled := (s.run q).retiled, retileDims := (s.run q).retileDims, wide := (s.run q).wide
        traysOut := (s.run q).traysOut ++ (s.run q).crew.flatMap (fun c => (s.runTrays c).map (fun t => (c, t))) } := by
  show (killRun q code detail word g s).kept.run q = _
  rw [killRun_kept]
  exact look_put_self ..

theorem killRun_stored (q code detail word : Nat) (g : Option Nat) (s : State) :
    (killRun q code detail word g s).stored = s.stored := by
  show (killRun q code detail word g s).kept.stored = _
  rw [killRun_kept]
  rfl

theorem settle_queue (s : State) (p : Nat) : (settle s).queue p = s.queue p := by
  rw [(settle_readiness s).1]; rfl

theorem settle_stored (s : State) : (settle s).stored = s.stored := by
  rw [(settle_readiness s).1]; rfl

/-- The queues, the runs and the stored bytes are the same. -/
def State.sameRuns (s t : State) : Prop := (∀ q, t.queue q = s.queue q) ∧ (∀ q, t.run q = s.run q) ∧ t.stored = s.stored

theorem State.sameRuns.trans {s t u : State} (h : s.sameRuns t) (k : t.sameRuns u) : s.sameRuns u :=
  ⟨fun q => (k.1 q).trans (h.1 q), fun q => (k.2.1 q).trans (h.2.1 q), k.2.2.trans h.2.2⟩

theorem kept_sameRuns {s t : State} (h : t.kept = s.kept) : s.sameRuns t :=
  ⟨kept_queue h, kept_run h, kept_stored h⟩

theorem recordStore_sameRuns (u : Nat) (s : State) : s.sameRuns (recordStore u s) := by
  unfold recordStore recordUe
  dsimp only
  have h : ∀ i f, s.sameRuns (s.modStack i f) := fun _ _ => ⟨fun _ => rfl, fun _ => rfl, rfl⟩
  have k : ∀ a b c d e v, s.sameRuns v → s.sameRuns (raiseVector a (makeRecord b c d e v)) := fun a b c d e v hv =>
    hv.trans (kept_sameRuns (by rw [raiseVector_kept, makeRecord_kept]))
  exact k _ _ _ _ _ _ (h _ _)

theorem endedRun_congr {s s' t : State} {q code detail word : Nat} {stop : Bool} (h : s.sameRuns s')
    (k : s'.endedRun q code detail word stop t) : s.endedRun q code detail word stop t := by
  obtain ⟨h1, h2, h3⟩ := h
  simp only [State.stored, Prod.mk.injEq] at h3
  simpa only [State.endedRun, h1, h2, h3] using k

/-- A killed run's queue, taken to its next state, and readiness brought up to date. -/
theorem ended_settle {s t : State} {q code detail word : Nat} {g : Option Nat} {stop : Bool}
    (hq : ∀ p, t.queue p = if p = q then { (killRun q code detail word g s).queue q with
      state := if stop then .stopped else .waiting
      skipWaiting := !stop && ((killRun q code detail word g s).queue q).skipWaiting
      rerunCount := if stop || code = 5 then ((killRun q code detail word g s).queue q).rerunCount
        else ((killRun q code detail word g s).queue q).rerunCount + 1 }
      else (killRun q code detail word g s).queue p)
    (hr : ∃ a b, ∀ p, t.run p = if p = q then { (killRun q code detail word g s).run q with waitMig := a, waitGroup := b }
      else (killRun q code detail word g s).run p)
    (hs : t.stored = (killRun q code detail word g s).stored) : s.endedRun q code detail word stop (settle t) := by
  obtain ⟨a, b, hr⟩ := hr
  have sr := (settle_readiness t).2.1
  have rq := sr q
  rw [hr q, if_pos rfl, killRun_run] at rq
  have hm := (settle_stored t).trans (hs.trans (killRun_stored ..))
  simp only [State.stored, Prod.mk.injEq] at hm
  refine ⟨?_, fun p hp => ⟨?_, ?_⟩, ?_, ?_, ?_, ?_, ?_, ?_, ?_, ?_, hm.1, hm.2.1, hm.2.2.1, hm.2.2.2⟩
  · rw [settle_queue, hq, if_pos rfl, killRun_queue, if_pos rfl]
  · rw [settle_queue, hq, if_neg hp, killRun_queue, if_neg hp]
  · have := sr p
    rw [hr, if_neg hp, killRun_run_ne _ _ _ _ _ _ _ hp] at this
    exact this
  all_goals rw [rq]

theorem stopQueue_kept (q : Nat) (s : State) : (stopQueue q s).kept =
    (s.setQueue q { s.queue q with state := .stopped, skipWaiting := false }).kept := by
  unfold stopQueue
  rw [raiseVector_kept]
  rfl

/-- A fault ends the run of a kernel that has not landed; the queue stops, or awaits a re-run, as Table 2.5 says (R50,
R56, R64). -/
theorem faultRun_ends (q code detail word : Nat) (g : Option Nat) (s : State) (hl : (s.run q).landed = false) :
    s.endedRun q code (detail % 256) word
      (stopCode code (detail % 256) || (code ≠ 5 && decide ((s.queue q).rerunCount ≥ 15)))
      (faultRun q code detail word g s) := by
  unfold faultRun
  dsimp only
  have e : (decide (code ≠ 5)) = (code ≠ 5 : Bool) := rfl
  generalize hst : (stopCode code (detail % 256) || (decide (code ≠ 5) && decide ((s.queue q).rerunCount ≥ 15))) = stop
  rw [if_neg (by simp [hl])]
  generalize hu : (if code = 2 then requestFootprint q (detail / 256) s else s) = u
  have hk : s.sameRuns u := by
    rw [← hu]; split
    · exact kept_sameRuns (requestFootprint_kept ..)
    · exact ⟨fun _ => rfl, fun _ => rfl, rfl⟩
  generalize hw : (if code = 9 ∧ detail % 256 = 7 ∧ detail / 256 ≠ 0 then recordStore (detail / 256 - 1) u else u) = w
  have hv : s.sameRuns w := by
    rw [← hw]; split
    · exact hk.trans (recordStore_sameRuns ..)
    · exact hk
  clear hu hk hw
  refine endedRun_congr hv (ended_settle (g := g) ?_ ?_ ?_)
  · intro p
    cases stop
    · simp only [Bool.false_eq_true, if_false, awaitRerun, modQueue_eq, modRun_eq, setQueue_queue, setRun_queue,
        Bool.not_false, Bool.true_and, Bool.false_or]
      by_cases hp : p = q
      · subst hp
        by_cases h5 : code = 5 <;> simp [h5]
      · simp [hp]
    · simp only [if_true, Bool.not_true, Bool.false_and, Bool.true_or]
      rw [kept_queue (stopQueue_kept ..), setQueue_queue]
  · cases stop
    · refine ⟨decide (code = 2), if code = 7 then g else none, fun p => ?_⟩
      simp [awaitRerun]
    · refine ⟨false, none, fun p => ?_⟩
      simp only [if_true]
      rw [kept_run (stopQueue_kept ..), setQueue_run]
      split
      · next h => subst h; rw [killRun_run]
      · rfl
  · cases stop
    · rfl
    · simp only [if_true]
      rw [kept_stored (stopQueue_kept ..)]
      rfl

end Sys2Proof.Machine
end

