-- ==== Sys2Proof/Laws/Commits.lean ====
section
/-! SUPPORT. What the phases of a commit change. -/
namespace Sys2Proof.Machine

/-! ### Memory that outside accesses write -/

theorem touch_shape (s : State) (pa : Nat) (st : Bool) : s.touch pa st = { s with hbr := (s.touch pa st).hbr } := rfl

theorem touch_atoms (s : State) (pa h : Nat) (st : Bool) : ((s.touch pa st).harbour h).atoms = (s.harbour h).atoms := by
  simp only [State.touch, modHarbour_eq, setHarbour_harbour]
  split
  · next e => subst e; rfl
  · rfl

theorem slotTouch_shape (s : State) (l : Locus) (st : Bool) :
    s.slotTouch l st = { s with hbr := (s.slotTouch l st).hbr } := by
  unfold State.slotTouch
  repeat' split
  all_goals rfl

theorem slotTouch_atoms (s : State) (l : Locus) (st : Bool) (h : Nat) : ((s.slotTouch l st).harbour h).atoms = (s.harbour h).atoms := by
  unfold State.slotTouch
  split
  · split
    · exact touch_atoms ..
    · rfl
  · simp only [modHarbour_eq, setHarbour_harbour]
    split
    · next e => subst e; rfl
    · rfl
  · rfl

/-! ### Parts that no phase but the seventh reaches -/

/-- What `kept` shows, without queues, runs and free values. -/
def State.deep (s : State) : State := { s.kept with runs := [], queues := [], fresh := 0 }

theorem deep_of_kept {s t : State} (h : t.kept = s.kept) : t.deep = s.deep := by
  unfold State.deep; rw [h]

@[simp] theorem setQueue_deep (s : State) (i : Nat) (v : QCtx) : (s.setQueue i v).deep = s.deep := rfl
@[simp] theorem setRun_deep (s : State) (i : Nat) (v : Run) : (s.setRun i v).deep = s.deep := rfl
@[simp] theorem setBerth_deep (s : State) (i : Nat) (v : Berth) : (s.setBerth i v).deep = s.deep := rfl

/-- What a queue's commit must find again: its run and its STATE. -/
def State.own (s : State) (q : Nat) : Run × QState := (s.run q, (s.queue q).state)

theorem own_of_kept {s t : State} (h : t.kept = s.kept) (q : Nat) : t.own q = s.own q := by
  simp only [State.own, kept_run h, kept_queue h]

@[simp] theorem setBerth_own (s : State) (i : Nat) (v : Berth) (q : Nat) : (s.setBerth i v).own q = s.own q := rfl

theorem setQueue_own (s : State) (i : Nat) (v : QCtx) (q : Nat) (h : v.state = (s.queue i).state) :
    (s.setQueue i v).own q = s.own q := by
  simp only [State.own, setQueue_run, setQueue_queue]
  split
  · next e => subst e; rw [h]
  · rfl

/-- Both projections, as one. -/
def State.deepOwn (s : State) (q : Nat) : State × Run × QState := (s.deep, s.own q)

theorem deepOwn_of_kept {s t : State} (h : t.kept = s.kept) (q : Nat) : t.deepOwn q = s.deepOwn q := by
  simp only [State.deepOwn, deep_of_kept h, own_of_kept h]

@[simp] theorem setBerth_deepOwn (s : State) (i : Nat) (v : Berth) (q : Nat) : (s.setBerth i v).deepOwn q = s.deepOwn q := rfl

theorem setQueue_deepOwn (s : State) (i : Nat) (v : QCtx) (q : Nat) (h : v.state = (s.queue i).state) :
    (s.setQueue i v).deepOwn q = s.deepOwn q := by
  simp only [State.deepOwn, setQueue_deep, setQueue_own _ _ _ _ h]

theorem modQueue_deepOwn (s : State) (i : Nat) (f : QCtx → QCtx) (q : Nat) (h : ∀ c, (f c).state = c.state) :
    (s.modQueue i f).deepOwn q = s.deepOwn q := setQueue_deepOwn _ _ _ _ (h _)

theorem forEach_deepOwn {α : Type} {f : α → State → State} {q : Nat} (h : ∀ a s, (f a s).deepOwn q = s.deepOwn q)
    (l : List α) (s : State) : (forEach l f s).deepOwn q = s.deepOwn q := forEach_same (fun s => s.deepOwn q) f h l s

/-! ### Phase 5 -/

theorem dropSamples_deepOwn (p q : Nat) (s : State) : (dropSamples p s).deepOwn q = s.deepOwn q := by
  unfold dropSamples
  apply forEach_deepOwn
  intro x t
  split <;> rfl

theorem epochErr_deepOwn (b k n q : Nat) (s : State) : (epochErr b k n s).deepOwn q = s.deepOwn q := rfl

theorem setWset_deepOwn (b k q : Nat) (w : WSet) (s : State) : (s.setWset b k w).deepOwn q = s.deepOwn q := rfl

theorem retire_deepOwn (p k q : Nat) (s : State) : (retire p k s).deepOwn q = s.deepOwn q := by
  unfold retire
  dsimp only
  rw [forEach_deepOwn]
  · rfl
  · intro v t
    rw [modQueue_deepOwn _ _ _ _ (by intro; rfl)]
    rfl

theorem dropAcq_deepOwn (p q : Nat) (f : Nat × Nat → Bool) (s : State) : (dropAcq p f s).deepOwn q = s.deepOwn q := by
  unfold dropAcq
  exact modQueue_deepOwn _ _ _ _ (fun _ => rfl)

theorem epochAcquire_deepOwn (p k v q : Nat) (s : State) :
    (epochAcquire p k v s).deepOwn q = s.deepOwn q := by
  unfold epochAcquire
  dsimp only
  split
  · rfl
  · split
    · rfl
    · rw [modQueue_deepOwn _ _ _ _ (by intro; rfl)]
      rfl

theorem epochRelease_deepOwn (p k v q : Nat) (s : State) : (epochRelease p k v s).deepOwn q = s.deepOwn q := by
  unfold epochRelease
  dsimp only
  split
  · rfl
  · split
    · split
      · rfl
      · rw [setWset_deepOwn]
        split <;> exact dropAcq_deepOwn ..
    · rfl

theorem epochPublish_deepOwn (p k v q : Nat) (s : State) : (epochPublish p k v s).deepOwn q = s.deepOwn q := by
  unfold epochPublish
  dsimp only
  generalize (if v = 0xFFFFFFFF then nextVersion s.fresh (s.wset (s.queue p).berth k).current else v) = x
  split
  · rfl
  · split <;> rfl

theorem foldl_same {α σ τ : Type} (g : σ → τ) (f : σ → α → σ) (hf : ∀ s a, g (f s a) = g s) (l : List α) (s : σ) :
    g (l.foldl f s) = g s := by
  induction l generalizing s with
  | nil => rfl
  | cons a l ih => rw [List.foldl_cons, ih, hf]

theorem applyEpochs_deepOwn (p q : Nat) (s : State) : (applyEpochs p s).deepOwn q = s.deepOwn q := by
  unfold applyEpochs
  dsimp only
  rw [forEach_deepOwn (fun _ _ => retire_deepOwn ..), dropSamples_deepOwn]
  refine foldl_same (fun (a : State × List (Nat × Nat × Bool)) => a.1.deepOwn q) _ (fun a e => ?_) _ _
  repeat' split
  · rw [retire_deepOwn, epochAcquire_deepOwn]
  · rw [retire_deepOwn, epochRelease_deepOwn]
  · rw [retire_deepOwn, epochPublish_deepOwn]

/-! ### Phase 6 -/

theorem modSlot_deepOwn (b i q : Nat) (f : Slot → Slot) (s : State) : (s.modSlot b i f).deepOwn q = s.deepOwn q := rfl

theorem applySound_deepOwn (p q : Nat) (x : SndRes) (s : State) : (applySound p x s).deepOwn q = s.deepOwn q := by
  unfold applySound
  dsimp only
  split
  · rw [modQueue_deepOwn _ _ _ _ (by intro; rfl)]
    rfl
  · rfl

theorem applyEvents_deepOwn (p q : Nat) (s : State) : (applyEvents p s).deepOwn q = s.deepOwn q := by
  unfold applyEvents
  dsimp only
  have h : ∀ u : State, u.deepOwn q = s.deepOwn q → (if (s.run p).keptGroups = 0 then u else
      u.modBerth (s.queue p).berth (fun t => { t with
        wideKept := t.wideKept ||| (s.run p).keptGroups, wideKeptCount := satAdd 32 t.wideKeptCount 1 })).deepOwn q =
        s.deepOwn q := fun u hu => by
    split
    · exact hu
    · exact hu
  refine h _ ?_
  rw [forEach_deepOwn, forEach_deepOwn (fun _ _ => modSlot_deepOwn ..), forEach_deepOwn (fun _ _ => applySound_deepOwn ..)]
  · exact modQueue_deepOwn _ _ _ _ (fun _ => rfl)
  · intro g t
    split <;> rfl

/-! ### Phase 4 -/

theorem requestMig_deepOwn (b v q : Nat) (t : Tier) (f : Bool) (p : Nat) (s : State) :
    (requestMig b v t f p s).deepOwn q = s.deepOwn q := deepOwn_of_kept (requestMig_kept ..) q

theorem applyFour_deepOwn (p q : Nat) (e : Held) (s : State) (h : e.isRelease = false) :
    (applyFour p e s).deepOwn q = s.deepOwn q := by
  unfold applyFour
  split
  · exact forEach_deepOwn (fun _ _ => requestMig_deepOwn ..) _ _
  · cases h
  · rfl

/-- What a write from outside leaves alone. -/
theorem spotWrite_shape (s : State) (b va : Nat) (l : Locus) (bs : List Byte) : s.spotWrite b va l bs =
    { s with mem := (s.spotWrite b va l bs).mem, delivered := (s.spotWrite b va l bs).delivered
             moor := (s.spotWrite b va l bs).moor, berths := (s.spotWrite b va l bs).berths, hbr := (s.spotWrite b va l bs).hbr } := by
  unfold State.spotWrite
  split
  · rfl
  · rfl
  · rfl

theorem pokeUnit_shape (s : State) (b va : Nat) (bs : List Byte) : (s.pokeUnit b va bs).2 =
    { s with mem := (s.pokeUnit b va bs).2.mem, delivered := (s.pokeUnit b va bs).2.delivered
             moor := (s.pokeUnit b va bs).2.moor
             units := (s.pokeUnit b va bs).2.units, moorUnits := (s.pokeUnit b va bs).2.moorUnits
             berths := (s.pokeUnit b va bs).2.berths, hbr := (s.pokeUnit b va bs).2.hbr } := by
  unfold State.pokeUnit
  dsimp only
  have hm : ∀ l m, s.setMark b l m = { s with units := (s.setMark b l m).units, moorUnits := (s.setMark b l m).moorUnits } :=
    fun l m => by unfold State.setMark; split <;> rfl
  split
  · dsimp only; rw [slotTouch_shape, spotWrite_shape, hm]
  · split
    · dsimp only; rw [slotTouch_shape, spotWrite_shape]
    · rfl
    · rfl

theorem poke_shape (s : State) (b va : Nat) (bs : List Byte) : (s.poke b va bs).2 =
    { s with mem := (s.poke b va bs).2.mem, delivered := (s.poke b va bs).2.delivered
             moor := (s.poke b va bs).2.moor
             units := (s.poke b va bs).2.units, moorUnits := (s.poke b va bs).2.moorUnits
             berths := (s.poke b va bs).2.berths, hbr := (s.poke b va bs).2.hbr } := by
  unfold State.poke
  suffices h : ∀ (l : List (Nat × List Byte)) (a : Bool × State), (l.foldl (fun acc p =>
      let r := acc.2.pokeUnit b p.1 p.2
      (acc.1 && r.1, r.2)) a).2 = { a.2 with
        mem := (l.foldl (fun acc p =>
          let r := acc.2.pokeUnit b p.1 p.2
          (acc.1 && r.1, r.2)) a).2.mem
        delivered := (l.foldl (fun acc p =>
          let r := acc.2.pokeUnit b p.1 p.2
          (acc.1 && r.1, r.2)) a).2.delivered
        moor := (l.foldl (fun acc p =>
          let r := acc.2.pokeUnit b p.1 p.2
          (acc.1 && r.1, r.2)) a).2.moor
        units := (l.foldl (fun acc p =>
          let r := acc.2.pokeUnit b p.1 p.2
          (acc.1 && r.1, r.2)) a).2.units
        moorUnits := (l.foldl (fun acc p =>
          let r := acc.2.pokeUnit b p.1 p.2
          (acc.1 && r.1, r.2)) a).2.moorUnits
        berths := (l.foldl (fun acc p =>
          let r := acc.2.pokeUnit b p.1 p.2
          (acc.1 && r.1, r.2)) a).2.berths
        hbr := (l.foldl (fun acc p =>
          let r := acc.2.pokeUnit b p.1 p.2
          (acc.1 && r.1, r.2)) a).2.hbr } from h _ (true, s)
  intro l
  induction l with
  | nil => intro a; rfl
  | cons p l ih =>
    intro a
    rw [List.foldl_cons, ih]
    conv_lhs => rw [pokeUnit_shape]

/-! ### Phase 7 -/

/-- What phase 7 reads of the sync objects is the sync objects. -/
theorem passOver_shape (q h : Nat) (s : State) : passOver q h s = { s with
    berths := (passOver q h s).berths, queues := (passOver q h s).queues, runs := (passOver q h s).runs } := by
  have h1 : ∀ (l : List Nat) (u : State) (f : Nat → State → State),
      (∀ k t, f k t = { t with berths := (f k t).berths }) → forEach l f u = { u with berths := (forEach l f u).berths } := by
    intro l u f hf
    induction l generalizing u with
    | nil => rfl
    | cons a l ih => rw [forEach_cons, ih, hf]
  have h2 : ∀ u : State, applyClears q u = { u with berths := (applyClears q u).berths } := fun u => by
    unfold applyClears
    exact h1 _ _ _ (fun k t => by split <;> rfl)
  have h3 : ∀ u : State, dropSamples q u = { u with berths := (dropSamples q u).berths } := fun u => by
    unfold dropSamples
    dsimp only
    generalize (u.run q).samples = l
    generalize (u.queue q).berth = b
    induction l generalizing u with
    | nil => rfl
    | cons a l ih =>
      rw [forEach_cons, ih]
      split <;> rfl
  unfold passOver
  dsimp only
  rw [modBerth_eq, h2, h3]
  rfl

/-- A write of TAIL changes queues, runs and berths alone; of the queue itself its STATE and its run only where it is
stopped. -/
theorem setTail_shape (q v : Nat) (s : State) : setTail q v s = { s with
    berths := (setTail q v s).berths, queues := (setTail q v s).queues, runs := (setTail q v s).runs } := by
  unfold setTail
  dsimp only
  split
  · rfl
  · split
    · unfold trySkip
      dsimp only
      split
      · rfl
      · rw [passOver_shape]; rfl
    · rfl

theorem setTail_own (q v p : Nat) (s : State) (h : (s.queue p).state ≠ .stopped) :
    (setTail q v s).own p = s.own p := by
  unfold setTail
  dsimp only
  split
  · rfl
  · have hm : (s.modQueue q (fun k => { k with tail := v % 2 ^ 32 })).own p = s.own p :=
      setQueue_own _ _ _ _ rfl
    split
    · next hs =>
      have e : p ≠ q := by rintro rfl; exact h hs.1
      rw [← hm]
      generalize s.modQueue q _ = u
      unfold trySkip
      dsimp only
      split
      · exact setQueue_own _ _ _ _ rfl
      · have h1 : ∀ (l : List Nat) (u : State) (f : Nat → State → State), (∀ k t, (f k t).own p = t.own p) →
            (forEach l f u).own p = u.own p := fun l u f hf => forEach_same (fun s => s.own p) f hf l u
        unfold passOver
        dsimp only
        have h2 : ∀ u : State, (applyClears q u).own p = u.own p := fun u => by
          unfold applyClears
          exact h1 _ _ _ (fun k t => by split <;> rfl)
        have h3 : ∀ u : State, (dropSamples q u).own p = u.own p := fun u => by
          have := dropSamples_deepOwn q p u
          simp only [State.deepOwn, Prod.mk.injEq] at this
          exact this.2
        refine Eq.trans ?_ ((h2 _).trans (h3 u))
        simp only [State.own, modQueue_eq, setQueue_run, setQueue_queue, setRun_run, setRun_queue, if_neg e]
        rfl
    · exact hm

theorem raiseVector_own (v p : Nat) (s : State) : (raiseVector v s).own p = s.own p := own_of_kept (raiseVector_kept v s) p

theorem applySignal_own (a d : Bool) (i v p : Nat) (s : State) : (applySignal a i v d s).own p = s.own p := by
  unfold applySignal
  dsimp only
  repeat' split
  all_goals first
    | rfl
    | rw [raiseVector_own]; rfl

/-- Stored bytes without the sync objects. -/
def State.stored3 (s : State) : Memory × Tbl UnitSt × Memory := (s.mem, s.units, s.trays)

theorem applySignal_stored3 (a d : Bool) (i v : Nat) (s : State) : (applySignal a i v d s).stored3 = s.stored3 := by
  unfold applySignal
  dsimp only
  have h : ∀ (u : State) v, (raiseVector v u).stored3 = u.stored3 := fun u v => by
    have := kept_stored (raiseVector_kept v u)
    simp only [State.stored, Prod.mk.injEq] at this
    simp only [State.stored3, this]
  repeat' split
  all_goals first
    | rfl
    | rw [h]; rfl

/-- Sync objects after a SIGNAL depend on the sync objects before it. -/
theorem applySignal_syncs (a d : Bool) (i v : Nat) (s t : State) (h : s.syncs = t.syncs) :
    (applySignal a i v d s).syncs = (applySignal a i v d t).syncs := by
  have hr : ∀ (u : State) v, (raiseVector v u).syncs = u.syncs := fun u v => by
    have := kept_stored (raiseVector_kept v u)
    simp only [State.stored, Prod.mk.injEq] at this
    exact this.2.2.2
  unfold applySignal
  have e : ∀ i, s.sync i = t.sync i := fun i => by simp only [State.sync, h]
  dsimp only
  rw [e]
  split
  · exact h
  · split
    · rw [hr, hr]; simp only [State.setSync, h]
    · simp only [State.setSync, h]

theorem applySeven_syncs (d : Bool) (e : Held) (s t : State) (h : s.syncs = t.syncs) :
    (applySeven d e s).syncs = (applySeven d e t).syncs := by
  have hs : ∀ q v (u : State), (setTail q v u).syncs = u.syncs := fun q v u => by rw [setTail_shape]
  unfold applySeven
  split
  · split
    · split <;> split <;> simp only [hs, h]
    · exact applySignal_syncs _ _ _ _ _ _ h
  · exact h

theorem applySeven_own (d : Bool) (e : Held) (p : Nat) (s : State) (h : (s.queue p).state ≠ .stopped) :
    (applySeven d e s).own p = s.own p := by
  unfold applySeven
  split
  · split
    · split
      · exact setTail_own _ _ _ _ h
      · rfl
    · exact applySignal_own ..
  · rfl

theorem applySeven_stored3 (d : Bool) (e : Held) (s : State) : (applySeven d e s).stored3 = s.stored3 := by
  unfold applySeven
  split
  · split
    · split
      · rw [setTail_shape]; rfl
      · rfl
    · exact applySignal_stored3 ..
  · rfl

/-! ### Phase 8 -/

theorem forEach_own {α : Type} {f : α → State → State} {q : Nat} (h : ∀ a (s : State), (f a s).own q = s.own q)
    (l : List α) (s : State) : (forEach l f s).own q = s.own q := forEach_same (fun s => s.own q) f h l s

theorem releaseRun_kept (q : Nat) (s : State) : (releaseRun q s).kept = s.kept := by
  unfold releaseRun
  dsimp only
  rw [forEach_kept (fun _ _ => returnTray_kept ..), freeScratch_kept, stopEngines_kept]

theorem applyClears_shape (q : Nat) (s : State) : applyClears q s = { s with berths := (applyClears q s).berths } := by
  unfold applyClears
  dsimp only
  generalize ((s.berth (s.queue q).berth).slots.map (·.1)) = l
  generalize (s.queue q).berth = b
  induction l generalizing s with
  | nil => rfl
  | cons a l ih =>
    rw [forEach_cons, ih]
    split <;> rfl

/-- What the end of a commit leaves of queues, runs and stored bytes. -/
theorem finishCommit_facts (q : Nat) (s : State) :
    (∀ p, (finishCommit q s).queue p = if p = q then { s.queue q with
      head := ((s.run q).start + (s.run q).words.length) % 2 ^ 32, state := .idle } else s.queue p) ∧
    (finishCommit q s).run q = { readyAt := ((finishCommit q s).run q).readyAt, traysOut := (s.run q).traysOut } ∧
    (∀ p, p ≠ q → (finishCommit q s).run p = { s.run p with readyAt := ((finishCommit q s).run p).readyAt }) ∧
    (finishCommit q s).stored = s.stored := by
  unfold finishCommit
  dsimp only
  have h1 := releaseRun_kept q s
  generalize releaseRun q s = a at h1
  have h2 := applyClears_shape q a
  generalize applyClears q a = b at h2
  generalize hc : ((b.modBerth (s.queue q).berth fun t => { t with virt := wrapAdd 64 t.virt (s.run q).cycles0 }).setRun q { traysOut := (s.run q).traysOut }).modQueue q
    (fun c => { c with head := ((s.run q).start + (s.run q).words.length) % 2 ^ 32, state := .idle }) = c
  have m1 : ∀ p, ((b.modBerth (s.queue q).berth fun t =>
      { t with virt := wrapAdd 64 t.virt (s.run q).cycles0 }).setRun q { traysOut := (s.run q).traysOut }).queue p = s.queue p := fun p => by
    rw [h2]; exact kept_queue h1 p
  have c1 : ∀ p, c.queue p = if p = q then { s.queue q with
      head := ((s.run q).start + (s.run q).words.length) % 2 ^ 32, state := .idle } else s.queue p := fun p => by
    rw [← hc, modQueue_eq, setQueue_queue, m1, m1]
  have c2 : ∀ p, c.run p = if p = q then { traysOut := (s.run q).traysOut } else s.run p := fun p => by
    rw [← hc, h2]
    simp only [modQueue_eq, setQueue_run, setRun_run]
    split
    · rfl
    · rw [← kept_run h1 p]; rfl
  have c3 : c.stored = s.stored := by
    rw [← hc, h2, ← kept_stored h1]; rfl
  generalize hd : (if (s.run q).irq = true then raiseVector (c.queue q).vector c else c) = d
  have hk : d.kept = c.kept := by
    rw [← hd]; split
    · exact raiseVector_kept ..
    · rfl
  have sr := (settle_readiness d).2.1
  refine ⟨fun p => ?_, ?_, fun p hp => ?_, ?_⟩
  · rw [settle_queue, kept_queue hk, c1]
  · have := sr q
    rw [kept_run hk, c2, if_pos rfl] at this
    exact this
  · have := sr p
    rw [kept_run hk, c2, if_neg hp] at this
    exact this
  · rw [settle_stored, kept_stored hk, c3]

end Sys2Proof.Machine
end

