-- ==== Sys2Proof/Laws/Starts.lean ====
section
/-! SUPPORT. What idle engines that start work change. -/
namespace Sys2Proof.Machine

theorem State.sameButStarts.refl (s : State) : s.sameButStarts s :=
  ⟨rfl, fun _ => rfl, fun _ => rfl, fun _ _ => rfl, fun _ _ => rfl, fun _ => rfl, fun _ => rfl, fun _ => rfl⟩

theorem State.sameButStarts.trans {s t u : State} (h : s.sameButStarts t) (k : t.sameButStarts u) :
    s.sameButStarts u := by
  obtain ⟨h1, h2, h3, h4, h5, h6, h7, h8⟩ := h
  obtain ⟨k1, k2, k3, k4, k5, k6, k7, k8⟩ := k
  refine ⟨?_, fun q => ?_, fun q => (k3 q).trans (h3 q), fun q j => ?_, fun q j => (k5 q j).trans (h5 q j),
    fun c => ?_, fun m => ?_, fun c => ?_⟩
  · rw [k1, h1]
  · rw [k2 q, h2 q]
  · rw [k4 q j, h4 q j]
  · rw [k6 c, h6 c]
  · rw [k7 m, h7 m]
  · rw [k8 c, h8 c]

/-- An instruction of a run with one instruction changed. -/
theorem modInst_inst (s : State) (q i : Nat) (f : Inst → Inst) (p j : Nat) :
    (s.modInst q i f).inst p j =
      if p = q ∧ j = i ∧ j < (s.run q).insts.length then f (s.inst q i) else s.inst p j := by
  simp only [State.inst, State.modInst, modRun_eq, setRun_run]
  by_cases hp : p = q
  · subst hp
    simp only [if_true, true_and]
    by_cases hj : j < (s.run p).insts.length
    · by_cases e : j = i
      · subst e; simp [hj, List.getD]
      · simp [hj, List.getD, e]
    · simp [hj, List.getD]
  · simp [hp]

theorem modInst_starts (s : State) (q i : Nat) (f : Inst → Inst)
    (h : ∀ x, f x = { x with work := (f x).work, readsLeft := (f x).readsLeft })
    (hw : ∀ x, (f x).work.map (·.item) = x.work.map (·.item)) : s.sameButStarts (s.modInst q i f) := by
  refine ⟨rfl, fun p => ?_, fun p => ?_, fun p j => ?_, fun p j => ?_, fun _ => rfl, fun _ => rfl, fun _ => rfl⟩
  · simp only [State.modInst, modRun_eq, setRun_run]
    by_cases e : p = q
    · subst e; simp
    · simp [e]
  · simp only [State.modInst, modRun_eq, setRun_run]
    by_cases e : p = q
    · subst e; simp
    · simp [e]
  · rw [modInst_inst]
    split
    · next e => obtain ⟨rfl, rfl, -⟩ := e; exact h _
    · rfl
  · rw [modInst_inst]
    split
    · next e => obtain ⟨rfl, rfl, -⟩ := e; exact hw _
    · rfl

/-- Messages of the Causeway. -/
theorem fabric_starts {s t : State}
    (h : t = { s with ports := t.ports, cwy := t.cwy, arbs := t.arbs, out := t.out }) : s.sameButStarts t := by
  rw [h]
  exact ⟨rfl, fun _ => rfl, fun _ => rfl, fun _ _ => rfl, fun _ _ => rfl, fun _ => rfl, fun _ => rfl, fun _ => rfl⟩

/-- Only ports, part-wide Causeway state, arbiters and messages differ. -/
def State.sent (s t : State) : Prop := t = { s with ports := t.ports, cwy := t.cwy, arbs := t.arbs, out := t.out }

theorem State.sent.trans {s t u : State} (h : s.sent t) (k : t.sent u) : s.sent u := by
  unfold State.sent at *; rw [k, h]

theorem chargeVl_sent (s : State) (p vl n : Nat) : s.sent (chargeVl s p vl n) := by
  unfold chargeVl; split <;> rfl

theorem sendPort_sent (p n : Nat) (s : State) : s.sent (sendPort p n s) := by
  induction n generalizing s with
  | zero => rfl
  | succ n ih =>
    unfold sendPort
    dsimp only
    split
    · split
      · rfl
      · split
        · rfl
        · refine State.sent.trans ?_ (ih _)
          refine State.sent.trans (t := s.setPort p _) rfl (State.sent.trans (chargeVl_sent _ _ _ _) rfl)
    · rfl

theorem enqueue_sent (p : Nat) (k : Packet) (s : State) : s.sent (enqueue p k s) :=
  State.sent.trans (t := s.modPort p _) rfl (sendPort_sent ..)

theorem route_sent (h : Nat) (k : Packet) (s : State) : s.sent (route h k s) := by
  unfold route routeTo
  dsimp only
  repeat' split
  all_goals first | exact enqueue_sent .. | rfl

theorem request_sent (h : Nat) (w : OutstFor) (k : Packet) (s : State) : s.sent (request h w k s) := by
  unfold request
  dsimp only
  split
  · rfl
  · exact State.sent.trans (t := s.modCwy _) rfl (route_sent ..)

theorem sendReads_starts (q j item : Nat) (s : State) : s.sameButStarts (sendReads q j item s) := by
  unfold sendReads
  dsimp only
  have h := fun l : List (Nat × Nat) => modInst_starts s q j (fun x => { x with readsLeft := x.readsLeft ++ l })
    (fun _ => rfl) (fun _ => rfl)
  split
  · exact h _
  · refine (h _).trans (fabric_starts (forEach_rel (R := State.sent) (fun _ => rfl) (fun _ _ _ => State.sent.trans) _
      (fun p t => request_sent ..) _ _))

theorem engineOn_starts (q : Nat) (i : Inst) (item eng : Nat) (b : Bool) (s : State) :
    s.sameButStarts (engineOn q i item eng b s) := by
  unfold engineOn
  dsimp only
  split
  · refine ⟨rfl, fun _ => rfl, fun _ => rfl, fun _ _ => rfl, fun _ _ => rfl, fun c => ?_, fun m => ?_, fun _ => rfl⟩
    · simp only [State.modMxe, modCore_eq, setCore_core]
      split
      · next e => subst e; rfl
      · rfl
    · simp only [State.mxe, State.modMxe, modCore_eq, setCore_core]
      split
      · next e =>
        simp only [look_put]
        split
        · next e2 => rw [e, e2]
        · simp only [e]
      · rfl
  · refine ⟨rfl, fun _ => rfl, fun _ => rfl, fun _ _ => rfl, fun _ _ => rfl, fun c => ?_, fun m => ?_, fun _ => rfl⟩
    · simp only [modCore_eq, setCore_core]
      split
      · next e => subst e; rfl
      · rfl
    · simp only [State.mxe, modCore_eq, setCore_core]
      split
      · next e => simp only [e]
      · rfl
  · refine ⟨rfl, fun _ => rfl, fun _ => rfl, fun _ _ => rfl, fun _ _ => rfl, fun _ => rfl, fun _ => rfl, fun c => ?_⟩
    simp only [modCluster_eq, setCluster_cluster]
    split
    · next e => subst e; rfl
    · rfl
  · exact .refl s

theorem startItem_starts (q j item eng : Nat) (b : Bool) (s : State) : s.sameButStarts (startItem q j item eng b s) := by
  unfold startItem
  dsimp only
  have h := modInst_starts s q j (fun x => { x with work := x.work.map (fun w =>
    if w.item = item then { w with eng := eng, started := true, stolen := b } else w) }) (fun _ => rfl) (fun x => by
      simp only [List.map_map]
      congr 1
      funext w
      simp only [Function.comp]
      split <;> rfl)
  refine State.sameButStarts.trans ?_ (engineOn_starts ..)
  split
  · exact h.trans (sendReads_starts ..)
  · exact h

theorem startOwn_starts (q : Nat) (k : EngKind) (e : Nat) (s : State) : s.sameButStarts (startOwn q k e s) := by
  unfold startOwn
  dsimp only
  split
  · exact .refl s
  · split
    · split
      · exact startItem_starts ..
      · exact .refl s
    · exact .refl s

/-- Starts one after another. -/
theorem startsEach {α : Type} {f : α → State → State} (h : ∀ a (t : State), t.sameButStarts (f a t)) (l : List α) (s : State) :
    s.sameButStarts (forEach l f s) := forEach_rel State.sameButStarts.refl (fun _ _ _ => State.sameButStarts.trans) f h l s

/-- Idle engines that start work change nothing else. -/
theorem startIdle_starts (q : Nat) (s : State) : s.sameButStarts (startIdle q s) := by
  unfold startIdle
  dsimp only
  split
  · exact .refl s
  · exact startsEach (fun _ t => startsEach (fun _ t => startsEach (fun _ _ => startOwn_starts ..) _ t) _ t) _ s

end Sys2Proof.Machine
end

