-- ==== Sys2Proof/Laws/Crews.lean ====
section
/-! SUPPORT. What a core that joins a crew, and a run that leaves STATE 1, change. -/
namespace Sys2Proof.Machine

theorem State.onlyCore.refl (s : State) (c : Nat) : s.onlyCore c s := ⟨rfl, fun _ _ => rfl⟩

theorem State.onlyCore.trans {s t u : State} {c : Nat} (h : s.onlyCore c t) (k : t.onlyCore c u) : s.onlyCore c u :=
  ⟨by rw [k.1, h.1], fun d hd => (k.2 d hd).trans (h.2 d hd)⟩

theorem modCore_only (s : State) (c : Nat) (f : Core → Core) : s.onlyCore c (s.modCore c f) :=
  ⟨rfl, fun d hd => by simp [hd]⟩

/-- Of the whole state only core c differs, and not its crew. -/
def State.sameCrew (s : State) (c : Nat) (t : State) : Prop := s.onlyCore c t ∧ (t.core c).crew = (s.core c).crew

theorem State.sameCrew.refl (s : State) (c : Nat) : s.sameCrew c s := ⟨.refl s c, rfl⟩
theorem State.sameCrew.trans {s t u : State} {c : Nat} (h : s.sameCrew c t) (k : t.sameCrew c u) : s.sameCrew c u :=
  ⟨h.1.trans k.1, k.2.trans h.2⟩

theorem modCore_sameCrew (s : State) (c : Nat) (f : Core → Core) (hf : ∀ k, (f k).crew = k.crew) :
    s.sameCrew c (s.modCore c f) := ⟨modCore_only s c f, by simp [hf]⟩

theorem handTray_sameCrew (b c t o : Nat) (s : State) : s.sameCrew c (handTray b c t o s) := by
  unfold handTray State.modTray
  exact modCore_sameCrew s c _ (fun _ => rfl)

theorem modMxe_sameCrew (c m : Nat) (f : Mxe → Mxe) (s : State) (h : m < 4) :
    s.sameCrew c (s.modMxe (4 * c + m) f) := by
  have e : (4 * c + m) / 4 = c := by omega
  unfold State.modMxe
  rw [e]
  exact modCore_sameCrew s c _ (fun _ => rfl)

/-- Of the whole state only core c and the tray map of run q differ. -/
def State.joining (s : State) (q c : Nat) (t : State) : Prop :=
  t = { s with cores := t.cores, runs := t.runs } ∧ (∀ d, d ≠ c → t.core d = s.core d) ∧
    (∀ p, p ≠ q → t.run p = s.run p) ∧ ∃ m, t.run q = { s.run q with trayMap := m }

theorem State.onlyCore.joining {s t : State} {c : Nat} (q : Nat) (h : s.onlyCore c t) : s.joining q c t :=
  ⟨by rw [h.1], h.2, fun p _ => by rw [h.1]; rfl, (s.run q).trayMap, by rw [h.1]; rfl⟩

theorem State.joining.trans {s t u : State} {q c : Nat} (h : s.joining q c t) (k : t.joining q c u) : s.joining q c u := by
  obtain ⟨h1, h2, h3, m, h4⟩ := h
  obtain ⟨k1, k2, k3, n, k4⟩ := k
  exact ⟨by rw [k1, h1], fun d hd => (k2 d hd).trans (h2 d hd), fun p hp => (k3 p hp).trans (h3 p hp), n, by rw [k4, h4]⟩

theorem trayMap_joining (s : State) (q c : Nat) (l : List (Nat × Nat × Nat)) :
    s.joining q c (s.modRun q (fun x => { x with trayMap := x.trayMap ++ l })) :=
  ⟨rfl, fun _ _ => rfl, fun p hp => by simp [hp], _, by simp; rfl⟩

theorem roleOwners_slots (t : Template) (lead stripes rows : Bool) (held hand : List Nat) :
    (roleOwners t lead stripes rows held hand).2 ≤ 4 := Nat.min_le_left ..

/-- Of a core that joins a crew and of its run only the run's tray map differs besides, and the core's crew is the run's. -/
theorem joinCore_only (q c : Nat) (lead stripes : Bool) (s : State) :
    s.joining q c (joinCore q c lead stripes s) ∧ ((joinCore q c lead stripes s).core c).crew = some q := by
  unfold joinCore
  dsimp only
  have h4 := roleOwners_slots (s.template q) lead stripes (usesRows (s.run q).words)
    (((handOrder s (s.queue q).berth (s.template q) c).take (s.run q).trayCount).filter (isHeld s (s.queue q).berth c))
    ((handOrder s (s.queue q).berth (s.template q) c).take (s.run q).trayCount)
  generalize roleOwners _ _ _ _ _ _ = p at h4 ⊢
  obtain ⟨owners, slots⟩ := p
  dsimp only at h4 ⊢
  have hm : ∀ (l : List Nat) (u : State), (∀ m ∈ l, m < 4) →
      u.sameCrew c (forEach l (fun m u => u.modMxe (4 * c + m) (fun x => { x with inCrew := true })) u) := by
    intro l
    induction l with
    | nil => exact fun u _ => .refl u c
    | cons m l ih =>
      intro u h
      rw [forEach_cons]
      exact (modMxe_sameCrew c m _ u (h m (by simp))).trans (ih _ (fun m hm => h m (by simp [hm])))
  have h1 := forEach_rel (R := fun u v => u.sameCrew c v) (fun u => .refl u c) (fun _ _ _ => State.sameCrew.trans)
    (fun (p : Nat × Nat) u => handTray (s.queue q).berth c p.1 p.2 u) (fun p u => handTray_sameCrew ..) owners s
  generalize forEach owners _ s = v at h1 ⊢
  have h2 := trayMap_joining v q c (owners.map (fun p => (c, p.1, p.2)))
  generalize v.modRun q _ = w at h2 ⊢
  have h3 := hm (List.range slots) (w.modCore c (fun k => { k with crew := some q, victim := none })) (by
    intro m h
    rw [List.mem_range] at h
    omega)
  exact ⟨((h1.1.joining q).trans h2).trans (((modCore_only w c _).joining q).trans (h3.1.joining q)), h3.2.trans (by simp)⟩

/-- A crew joins: its cores have the run for crew, others are unchanged, and so is the rest of the state but the tray
map of the run. -/
theorem joinAll (q : Nat) (f : Nat → State → Bool × Bool) (l : List Nat) (s : State) :
    forEach l (fun c t => joinCore q c (f c t).1 (f c t).2 t) s =
        { s with
          cores := (forEach l (fun c t => joinCore q c (f c t).1 (f c t).2 t) s).cores
          runs := (forEach l (fun c t => joinCore q c (f c t).1 (f c t).2 t) s).runs } ∧
      (∀ p, p ≠ q → (forEach l (fun c t => joinCore q c (f c t).1 (f c t).2 t) s).run p = s.run p) ∧
      (∃ m, (forEach l (fun c t => joinCore q c (f c t).1 (f c t).2 t) s).run q = { s.run q with trayMap := m }) ∧
      ∀ c, if c ∈ l then ((forEach l (fun c t => joinCore q c (f c t).1 (f c t).2 t) s).core c).crew = some q
        else (forEach l (fun c t => joinCore q c (f c t).1 (f c t).2 t) s).core c = s.core c := by
  induction l generalizing s with
  | nil => exact ⟨rfl, fun _ _ => rfl, ⟨_, rfl⟩, fun c => by simp [forEach_nil]⟩
  | cons a l ih =>
    rw [forEach_cons]
    obtain ⟨⟨h1, h2, h3, m, h4⟩, h5⟩ := joinCore_only q a (f a s).1 (f a s).2 s
    generalize joinCore q a (f a s).1 (f a s).2 s = v at h1 h2 h3 h4 h5 ⊢
    obtain ⟨i1, i2, ⟨n, i3⟩, i4⟩ := ih v
    refine ⟨by rw [i1, h1], fun p hp => (i2 p hp).trans (h3 p hp), ⟨n, by rw [i3, h4]⟩, fun c => ?_⟩
    have := i4 c
    by_cases hl : c ∈ l
    · simpa [hl] using this
    · rw [if_neg hl] at this
      by_cases ha : c = a
      · subst ha; simp [this, h5]
      · simp [ha, hl, this, h2 c ha]

/-- What sampling epochs and starting a pass may change: the run's own samples and its mark of a started pass, berths. -/
def State.sampling (s : State) (q : Nat) (t : State) : Prop :=
  t = { s with runs := t.runs, berths := t.berths } ∧ (∀ p, p ≠ q → t.run p = s.run p) ∧
    ∃ a b c, t.run q = { s.run q with sampled := a, samples := b, passStarted := c }

theorem State.sampling.refl (s : State) (q : Nat) : s.sampling q s := ⟨rfl, fun _ _ => rfl, _, _, _, rfl⟩

theorem State.sampling.trans {s t u : State} {q : Nat} (h : s.sampling q t) (k : t.sampling q u) : s.sampling q u := by
  obtain ⟨h1, h2, a, b, c, h3⟩ := h
  obtain ⟨k1, k2, a', b', c', k3⟩ := k
  exact ⟨by rw [k1, h1], fun p hp => (k2 p hp).trans (h2 p hp), a', b', c', by rw [k3, h3]⟩

theorem setRun_sampling (s : State) (q : Nat) (r : Run)
    (h : ∃ a b c, r = { s.run q with sampled := a, samples := b, passStarted := c }) : s.sampling q (s.setRun q r) := by
  obtain ⟨a, b, c, rfl⟩ := h
  exact ⟨rfl, fun p hp => by simp [hp], a, b, c, by simp⟩

theorem setBerth_sampling (s : State) (q b : Nat) (v : Berth) : s.sampling q (s.setBerth b v) :=
  ⟨rfl, fun _ _ => rfl, _, _, _, rfl⟩

theorem sampleEpochs_sampling (q : Nat) (s : State) : s.sampling q (sampleEpochs q s) := by
  unfold sampleEpochs
  dsimp only
  split
  · exact .refl s q
  · refine (setRun_sampling s q { s.run q with sampled := true, samples := [] } ⟨_, _, _, rfl⟩).trans ?_
    refine forEach_rel (R := fun (u v : State) => u.sampling q v) (fun u => .refl u q) (fun _ _ _ => State.sampling.trans) _
      (fun o t => ?_) _ _
    split
    · repeat' split
      all_goals first
        | exact (setRun_sampling t q _ ⟨_, _, _, rfl⟩).trans (setBerth_sampling ..)
        | exact setRun_sampling t q _ ⟨_, _, _, rfl⟩
    · exact .refl t q

theorem startPass_sampling (q : Nat) (s : State) : s.sampling q (startPass q s) := by
  unfold startPass
  dsimp only
  split
  · exact .refl s q
  · have h := setRun_sampling s q { s.run q with passStarted := true } ⟨_, _, _, rfl⟩
    split
    · exact h
    · split
      · exact h
      · exact h.trans (setBerth_sampling ..)

/-- What a run that leaves STATE 1 has sampled, and what it has left alone. -/
theorem leaveState1_facts (q : Nat) (s : State) :
    leaveState1 q s = { s with
      runs := (leaveState1 q s).runs, berths := (leaveState1 q s).berths, hbr := (leaveState1 q s).hbr
      queues := (leaveState1 q s).queues } ∧
    (leaveState1 q s).queue q = { s.queue q with state := .running } ∧
    (∀ p, p ≠ q → (leaveState1 q s).queue p = s.queue p ∧ (leaveState1 q s).run p = s.run p) ∧
    ∃ a b c, (leaveState1 q s).run q = { s.run q with
      recSample := (s.berth (s.queue q).berth).recipeSel, base2 := bitOf s.glb.base2 (s.queue q).berth
      tileCtrl := (List.range 32).filterMap (fun k =>
        if tileCtrlOf (s.cluster k) = 0x143 then none else some (k, tileCtrlOf (s.cluster k)))
      sndSeq := (soundSlots (s.run q).words).foldl
        (fun t k => put 0 t k (look {} (s.berth (s.queue q).berth).slots k).seq) []
      sndCount := [], wide := wideNow s q, zeroShape := zeroShape s q, scratch0 := needScratch s q 0
      scratch1 := needScratch s q 1, trayCount := trayCountOf s q (wideNow s q), phase := .running
      sampled := a, samples := b, passStarted := c } := by
  unfold leaveState1
  dsimp only
  generalize hv : State.modShare _ 1 _ _ = v
  obtain ⟨h1, h2, a, b, c, h3⟩ := (sampleEpochs_sampling q v).trans (startPass_sampling q _)
  generalize startPass q (sampleEpochs q v) = w at h1 h2 h3 ⊢
  have hq : ∀ p, w.queue p = s.queue p := fun p => by rw [h1, ← hv]; rfl
  refine ⟨?_, ?_, fun p hp => ⟨?_, ?_⟩, a, b, c, ?_⟩
  · rw [h1, ← hv]; rfl
  · simp [hq]
  · simp [hq, hp]
  · rw [modQueue_eq, setQueue_run, h2 p hp, ← hv]
    simp [State.modShare, hp]
  · rw [modQueue_eq, setQueue_run, h3, ← hv]
    simp [State.modShare]

end Sys2Proof.Machine
end

