-- ==== Sys2Proof/Laws/Groups.lean ====
section
/-! SUPPORT. Messages of groups, and what a fault leaves of group records. -/
namespace Sys2Proof.Machine

theorem State.sent.refl (s : State) : s.sent s := rfl

theorem forEach_sent {α : Type} {f : α → State → State} (h : ∀ a (s : State), s.sent (f a s)) (l : List α) (s : State) :
    s.sent (forEach l f s) := forEach_rel (R := State.sent) (fun _ => rfl) (fun _ _ _ => State.sent.trans) f h l s

theorem sendRank_sent (h : Nat) (g : Group) (r n : Nat) (k : Packet) (s : State) : s.sent (sendRank h g r n k s) := by
  unfold sendRank
  dsimp only
  split
  · exact route_sent ..
  · exact enqueue_sent ..

theorem sendAbort_sent (h b i c d n : Nat) (o : Option Nat) (s : State) : s.sent (sendAbort h b i c d n o s) :=
  forEach_sent (fun _ _ => sendRank_sent ..) _ _

theorem sendColl_sent (q j r k o n : Nat) (f : Packet → Packet) (s : State) : s.sent (sendColl q j r k o n f s) :=
  sendRank_sent ..

theorem tellRanks_sent (b i m : Nat) (l : List Nat) (f : Packet → Packet) (s : State) : s.sent (tellRanks b i m l f s) :=
  forEach_sent (fun _ _ => route_sent ..) _ _

theorem sendLinkAck_sent (p : Nat) (s : State) : s.sent (sendLinkAck p s) := rfl

theorem arrive_sent (k : Packet) (s : State) : s.sent (arrive k s) := by
  unfold arrive
  split
  · rfl
  · dsimp only
    split
    · exact State.sent.trans (t := s.modPort _ _) rfl (sendLinkAck_sent ..)
    · rfl

theorem raiseVector_glb (v : Nat) (s : State) : raiseVector v s = { s with
    glb := (raiseVector v s).glb, out := (raiseVector v s).out } := by
  unfold raiseVector
  dsimp only
  split <;> rfl

/-- Group records are as before but for their counts of aborts. -/
structure State.sameGroups (s t : State) : Prop where
  same : ∀ b i, t.group b i = { s.group b i with aborts := (t.group b i).aborts }

theorem sameGroups_of_berths {s t : State} (h : ∀ b, (t.berth b).grps = (s.berth b).grps) : s.sameGroups t := ⟨fun b i => by
  simp only [State.group, h]⟩

theorem State.sameGroups.refl (s : State) : s.sameGroups s := ⟨fun _ _ => rfl⟩

theorem State.sameGroups.trans {s t u : State} (h : s.sameGroups t) (k : t.sameGroups u) : s.sameGroups u := ⟨fun b i => by
  rw [k.same b i, h.same b i]⟩

theorem sent_groups {s t : State} (h : s.sent t) : s.sameGroups t := sameGroups_of_berths (fun b => by rw [h]; rfl)

theorem forEach_groups {α : Type} {f : α → State → State} (h : ∀ a (s : State), s.sameGroups (f a s)) (l : List α)
    (s : State) : s.sameGroups (forEach l f s) :=
  forEach_rel (R := State.sameGroups) .refl (fun _ _ _ => State.sameGroups.trans) f h l s

/-- Only berths differ, and not their groups. -/
theorem modBerth_groups (s : State) (b : Nat) (f : Berth → Berth) (h : ∀ t, (f t).grps = t.grps) :
    s.sameGroups (s.modBerth b f) := sameGroups_of_berths (fun c => by
  simp only [modBerth_eq, setBerth_berth]
  split
  · next e => subst e; exact h _
  · rfl)

theorem modGroup_group (s : State) (b i : Nat) (f : Group → Group) (c j : Nat) :
    (s.modGroup b i f).group c j = if c = b ∧ j = i then f (s.group b i) else s.group c j := by
  simp only [State.group, State.modGroup, modBerth_eq, setBerth_berth]
  by_cases e : c = b
  · subst e
    simp only [if_true, look_put, true_and]
  · simp [e]

theorem forEach_berths {α : Type} {f : α → State → State} (h : ∀ a (s : State), (f a s).berths = s.berths) (l : List α)
    (s : State) : (forEach l f s).berths = s.berths := forEach_same State.berths f h l s

theorem stopEngines_berths (q : Nat) (s : State) : (stopEngines q s).berths = s.berths := by
  have h1 : ∀ (i : Inst) (u : State), (idleUnit i u).berths = u.berths := fun i u => by unfold idleUnit; split <;> rfl
  have h2 : ∀ (o : Op) (w : Work) (u : State), (idleEngine o w u).berths = u.berths := fun o w u => by
    unfold idleEngine; repeat' split
    all_goals rfl
  unfold stopEngines
  dsimp only
  refine (forEach_berths ?_ _ _).trans
    (forEach_berths (f := fun i t => idleUnit i (forEach i.work (idleEngine i.op) t)) (fun i t => ?_) _ _)
  · intro _ _; rfl
  · exact (h1 _ _).trans (forEach_berths (fun _ _ => h2 _ _ _) _ _)

theorem freeScratch_berths (q : Nat) (s : State) : (freeScratch q s).berths = s.berths := by
  unfold freeScratch
  dsimp only
  split
  · rfl
  · refine (forEach_berths (fun u t => ?_) _ _).trans rfl
    split <;> rfl

theorem setRun_groups (s : State) (q : Nat) (r : Run) : s.sameGroups (s.setRun q r) := ⟨fun _ _ => rfl⟩
theorem modRun_groups (s : State) (q : Nat) (f : Run → Run) : s.sameGroups (s.modRun q f) := ⟨fun _ _ => rfl⟩
theorem modQueue_groups (s : State) (q : Nat) (f : QCtx → QCtx) : s.sameGroups (s.modQueue q f) := ⟨fun _ _ => rfl⟩

theorem countAbort_groups (s : State) (b i : Nat) :
    s.sameGroups (s.modGroup b i (fun x => { x with aborts := satAdd 16 x.aborts 1 })) := ⟨fun c j => by
  rw [modGroup_group]
  split
  · next e => rw [e.1, e.2]
  · rfl⟩

theorem killRun_groups (q code detail word : Nat) (g : Option Nat) (s : State) :
    s.sameGroups (killRun q code detail word g s) := by
  unfold killRun
  dsimp only
  have h1 : s.sameGroups (freeScratch q (stopEngines q s)) := sameGroups_of_berths (fun b => by
    simp only [State.berth, freeScratch_berths, stopEngines_berths])
  generalize freeScratch q (stopEngines q s) = u at h1
  have h2 : ∀ (l : List Nat) (v : State), v.sameGroups (forEach l (fun g t =>
      match t.findGroup g with
      | none => t
      | some (gb, i) =>
        sendAbort (queueHalf q) gb i 2 0 ((t.modGroup gb i (fun x => { x with aborts := satAdd 16 x.aborts 1 })).group gb i).seq
          none (t.modGroup gb i (fun x => { x with aborts := satAdd 16 x.aborts 1 }))) v) := fun l v =>
    forEach_groups (fun n t => by
      split
      · exact .refl t
      · exact (countAbort_groups t _ _).trans (sent_groups (sendAbort_sent ..))) l v
  refine State.sameGroups.trans ?_ (h2 _ _)
  refine State.sameGroups.trans ?_ (modQueue_groups _ _ _)
  refine State.sameGroups.trans ?_ (setRun_groups _ _ _)
  refine h1.trans ?_
  exact modBerth_groups _ _ _ (by intro _; rfl)

theorem settle_groups (s : State) : s.sameGroups (settle s) := sameGroups_of_berths (fun b => by
  rw [(settle_readiness s).2.2.1 b])

theorem modHalf_groups (s : State) (h : Nat) (f : TwcHalf → TwcHalf) : s.sameGroups (s.modHalf h f) := ⟨fun _ _ => rfl⟩

theorem nextMig_groups (h n : Nat) (s : State) : s.sameGroups (nextMig h n s) := by
  induction n generalizing s with
  | zero => exact .refl s
  | succ n ih =>
    unfold nextMig
    dsimp only
    split
    · split
      · exact .refl s
      · split
        · exact ((modHalf_groups _ _ _).trans (modBerth_groups _ _ _ (by intro _; rfl))).trans (ih _)
        · exact (modHalf_groups _ _ _).trans (modBerth_groups _ _ _ (by intro _; rfl))
    · exact .refl s

theorem startMig_groups (h : Nat) (s : State) : s.sameGroups (startMig h s) := nextMig_groups ..

theorem requestMig_groups (b v : Nat) (t : Tier) (f : Bool) (q : Nat) (s : State) :
    s.sameGroups (requestMig b v t f q s) := by
  unfold requestMig
  dsimp only
  split
  · exact .refl s
  · refine State.sameGroups.trans ?_ (startMig_groups _ _)
    refine State.sameGroups.trans ?_ (modHalf_groups _ _ _)
    refine State.sameGroups.trans ?_ (forEach_groups (by intro _ _; exact modHalf_groups _ _ _) _ _)
    exact modBerth_groups _ _ _ (by intro _; rfl)

theorem requestFootprint_groups (q n : Nat) (s : State) : s.sameGroups (requestFootprint q n s) := by
  unfold requestFootprint
  dsimp only
  refine State.sameGroups.trans (modBerth_groups _ _ _ (by intro _; rfl)) (forEach_groups ?_ _ _)
  intro m t
  split
  · exact .refl t
  · exact requestMig_groups _ _ _ _ _ _

theorem stopQueue_groups (q : Nat) (s : State) : s.sameGroups (stopQueue q s) := ⟨fun b i => by
  unfold stopQueue
  rw [raiseVector_glb]
  rfl⟩

theorem makeRecord_berths (h t b : Nat) (pl : List Byte) (s : State) : (makeRecord h t b pl s).berths = s.berths := by
  unfold makeRecord
  extract_lets x t full u v
  have hr : ∀ (n : Nat) (w : State), (raiseVector n w).berths = w.berths := fun n w => by rw [raiseVector_glb]
  have hs : ∀ (n : Nat) (k : Packet) (w : State), (route n k w).berths = w.berths := fun n k w => by rw [route_sent]
  have ht : t.berths = s.berths := rfl
  clear_value t
  have hu : u.berths = s.berths := by
    unfold u
    split
    · exact ht
    · exact ht
  clear_value u
  have hv : v.berths = s.berths := by
    unfold v
    split
    · exact (hr _ _).trans hu
    · exact ht
  clear_value v
  split
  · exact (hs _ _ _).trans hv
  · exact hv

theorem recordStore_groups (u : Nat) (s : State) : s.sameGroups (recordStore u s) := sameGroups_of_berths fun b => by
  have h : (recordStore u s).berths = s.berths := by
    unfold recordStore recordUe
    dsimp only
    rw [raiseVector_glb]
    exact makeRecord_berths ..
  simp only [State.berth, h]

/-- A fault leaves group records as they are, but for their counts of aborts. -/
theorem faultRun_groups (q code detail word : Nat) (g : Option Nat) (s : State) :
    s.sameGroups (faultRun q code detail word g s) := by
  unfold faultRun
  dsimp only
  split
  · exact .refl s
  refine State.sameGroups.trans ?_ (settle_groups _)
  generalize (stopCode code (detail % 256) || (decide (code ≠ 5) && decide ((s.queue q).rerunCount ≥ 15))) = stop
  generalize hv : (if code = 2 then requestFootprint q (detail / 256) s else s) = v
  have h0 : s.sameGroups v := by
    rw [← hv]; split
    · exact requestFootprint_groups _ _ _
    · exact .refl s
  generalize hu : (if code = 9 ∧ detail % 256 = 7 ∧ detail / 256 ≠ 0 then recordStore (detail / 256 - 1) v else v) = u
  have h1 : s.sameGroups u := by
    rw [← hu]; split
    · exact h0.trans (recordStore_groups _ _)
    · exact h0
  have h2 := h1.trans (killRun_groups q code (detail % 256) word g u)
  split
  · exact h2.trans (stopQueue_groups _ _)
  · exact (h2.trans (modRun_groups _ _ _)).trans (modQueue_groups _ _ _)

/-- Kernels that stop with their group leave its record as it is, but for its count of aborts. -/
theorem stopGroup_groups (b i detail : Nat) (s : State) : s.sameGroups (stopGroup b i detail s) := by
  unfold stopGroup
  dsimp only
  exact (forEach_groups (fun _ _ => faultRun_groups _ _ _ _ _ _) _ _).trans
    (forEach_groups (fun q t => (modQueue_groups t q _).trans (stopQueue_groups _ _)) _ _)

end Sys2Proof.Machine
end

