-- ==== Sys2Proof/Laws/Items.lean ====
section
/-! SUPPORT. What an item that completes, or that an idle engine steals, changes. -/
namespace Sys2Proof.Machine

theorem idleEngine_starts (op : Op) (w : Work) (s : State) : s.sameButStarts (idleEngine op w s) := by
  unfold idleEngine
  split
  · exact .refl s
  · split
    all_goals try exact .refl s
    · refine ⟨rfl, fun _ => rfl, fun _ => rfl, fun _ _ => rfl, fun _ _ => rfl, fun c => ?_, fun m => ?_, fun _ => rfl⟩
      · simp only [State.modMxe, modCore_eq, setCore_core]
        split
        · next e => subst e; rfl
        · rfl
      · simp only [State.mxe, State.modMxe, modCore_eq, setCore_core]
        split
        · next e =>
          simp only [look_put]
          split
          · next e2 => rw [e, e2]; rfl
          · simp only [e]
        · rfl
    · refine ⟨rfl, fun _ => rfl, fun _ => rfl, fun _ _ => rfl, fun _ _ => rfl, fun c => ?_, fun m => ?_, fun _ => rfl⟩
      · simp only [State.modMxe, modCore_eq, setCore_core]
        split
        · next e => subst e; rfl
        · rfl
      · simp only [State.mxe, State.modMxe, modCore_eq, setCore_core]
        split
        · next e =>
          simp only [look_put]
          split
          · next e2 => rw [e, e2]; rfl
          · simp only [e]
        · rfl
    · refine ⟨rfl, fun _ => rfl, fun _ => rfl, fun _ _ => rfl, fun _ _ => rfl, fun c => ?_, fun m => ?_, fun _ => rfl⟩
      · simp only [modCore_eq, setCore_core]
        split
        · next e => subst e; rfl
        · rfl
      · simp only [State.mxe, modCore_eq, setCore_core]
        split
        · next e => simp only [e]
        · rfl
    · refine ⟨rfl, fun _ => rfl, fun _ => rfl, fun _ _ => rfl, fun _ _ => rfl, fun _ => rfl, fun _ => rfl, fun c => ?_⟩
      simp only [modCluster_eq, setCluster_cluster]
      split
      · next e => subst e; rfl
      · rfl

theorem idleEngine_shape (op : Op) (w : Work) (s : State) :
    idleEngine op w s = { s with cores := (idleEngine op w s).cores, clusters := (idleEngine op w s).clusters } := by
  unfold idleEngine
  repeat' split
  all_goals rfl

/-- An instruction's list after an item left it. -/
def leftItem (w : Work) (x : Inst) : Inst :=
  { x with
    work := x.work.filter (fun a => a.item ≠ w.item), doneItems := x.doneItems ++ [w.item]
    done := (x.work.filter (fun a => a.item ≠ w.item)).isEmpty }

/-- A completed item leaves its list, its engine goes idle, idle engines start. -/
theorem finishItem_facts (q j : Nat) (w : Work) (s : State) (hj : j < (s.run q).insts.length) :
    ∃ v : State, v.sameButStarts (finishItem q j w s) ∧ s.sameButStarts (idleEngine (s.inst q j).op w s) ∧
      v = (idleEngine (s.inst q j).op w s).modInst q j (leftItem w) ∧
      (∀ p, p ≠ q → v.run p = s.run p) ∧ (∀ k, k ≠ j → v.inst q k = s.inst q k) ∧
      v.run q = { s.run q with insts := (v.run q).insts } ∧ v.inst q j = leftItem w (s.inst q j) := by
  have hr : ∀ o p, (idleEngine o w s).run p = s.run p := fun o p => by rw [idleEngine_shape]; rfl
  refine ⟨_, (startIdle_starts q _).trans ?_, idleEngine_starts .., rfl, fun p hp => ?_, fun k hk => ?_, ?_, ?_⟩
  · unfold finishItem
    dsimp only
    split
    · exact startsEach startIdle_starts _ _
    · exact .refl _
  · simp [State.modInst, hp, hr]
  · rw [modInst_inst]
    simp [hk, State.inst, hr]
  · simp [State.modInst, hr]
  · rw [modInst_inst]
    simp [State.inst, hr, hj, leftItem]

/-- What a completed item keeps of cores, clusters and berths. -/
theorem finishItem_counts (q j : Nat) (w : Work) (s : State) (hj : j < (s.run q).insts.length) :
    (∀ c, (finishItem q j w s).core c = { s.core c with
        mxe := ((finishItem q j w s).core c).mxe, rweBusy := ((finishItem q j w s).core c).rweBusy
        rweHeirloom := ((finishItem q j w s).core c).rweHeirloom, rweBase2 := ((finishItem q j w s).core c).rweBase2 }) ∧
      (∀ m, ((finishItem q j w s).mxe m).tiles = (s.mxe m).tiles) ∧
      (∀ c, ((finishItem q j w s).cluster c).strDone = (s.cluster c).strDone ∧
        ((finishItem q j w s).cluster c).strZcBytes = (s.cluster c).strZcBytes ∧
        ((finishItem q j w s).cluster c).strRefetch = (s.cluster c).strRefetch) ∧
      ∀ b, (finishItem q j w s).berth b = s.berth b := by
  obtain ⟨v, h1, h2, h3, -⟩ := finishItem_facts q j w s hj
  obtain ⟨a1, -, -, -, -, a6, a7, a8⟩ := h1
  obtain ⟨b1, -, -, -, -, b6, b7, b8⟩ := h2
  generalize finishItem q j w s = t at a1 a6 a7 a8 ⊢
  have hc : v.cores = (idleEngine (s.inst q j).op w s).cores := by rw [h3]; rfl
  have hl : v.clusters = (idleEngine (s.inst q j).op w s).clusters := by rw [h3]; rfl
  have hb : v.berths = s.berths := by rw [h3, State.modInst, modRun_eq, idleEngine_shape]; rfl
  generalize idleEngine (s.inst q j).op w s = i at *
  have e1 : ∀ c, v.core c = i.core c := fun c => by simp only [State.core, hc]
  have e2 : ∀ m, v.mxe m = i.mxe m := fun m => by simp only [State.mxe, e1]
  have e3 : ∀ c, v.cluster c = i.cluster c := fun c => by simp only [State.cluster, hl]
  refine ⟨fun c => ?_, fun m => ?_, fun c => ?_, fun b => ?_⟩
  · rw [a6 c, e1 c, b6 c]
  · rw [a7 m, e2 m, b7 m]
  · rw [a8 c, e3 c, b8 c]; exact ⟨rfl, rfl, rfl⟩
  · rw [a1]; simp only [State.berth, hb]

/-- An item is done, from a state that differs in the engines' counters and engine time only. -/
theorem finishItem_done {u s : State} (q j : Nat) (w : Work) (hj : j < (s.run q).insts.length)
    (h : s = { u with runs := s.runs, cores := s.cores, clusters := s.clusters, berths := s.berths })
    (hp : ∀ p, p ≠ q → s.run p = u.run p) (hi : ∀ k, k ≠ j → s.inst q k = u.inst q k)
    (hq : s.run q = { u.run q with insts := (s.run q).insts, sounds := (s.run q).sounds })
    (hb : ∀ b, s.berth b = { u.berth b with cycles := (s.berth b).cycles }) :
    u.itemDone q j w (s.inst q j) (finishItem q j w s) := by
  have hk := (finishItem_counts q j w s hj).2.2.2
  obtain ⟨v, h1, -, h3, h4, h5, h6, h7⟩ := finishItem_facts q j w s hj
  have hv : v.berths = (finishItem q j w s).berths := by rw [h1.1]
  refine ⟨fun b => ?_, v, by rw [hv]; exact h1, ?_, fun p e => (h4 p e).trans (hp p e),
    fun k e => (h5 k e).trans (hi k e), ?_, h7⟩
  · rw [hk b]; exact hb b
  · rw [h3, State.modInst, modRun_eq, idleEngine_shape, h]
    rfl
  · rw [h6, hq]

/-- More engine time leaves an item done. -/
theorem addCycles_done {u t : State} {q j : Nat} {w : Work} {x : Inst} (b c n : Nat) (h : u.itemDone q j w x t) :
    u.itemDone q j w x (addCycles b c n t) := by
  obtain ⟨h1, v, h2, h3⟩ := h
  refine ⟨fun a => ?_, v, h2, h3⟩
  simp only [addCycles, modBerth_eq, setBerth_berth]
  split
  · next e => subst e; rw [h1 a]
  · exact h1 a

/-- An item is done whose engine's time is counted. -/
theorem finishCounted_done {u s : State} (q j : Nat) (w : Work) (k : EngKind) (c n tail : Nat)
    (hj : j < (s.run q).insts.length)
    (h : s = { u with runs := s.runs, cores := s.cores, clusters := s.clusters, berths := s.berths })
    (hp : ∀ p, p ≠ q → s.run p = u.run p) (hi : ∀ k, k ≠ j → s.inst q k = u.inst q k)
    (hq : s.run q = { u.run q with insts := (s.run q).insts, sounds := (s.run q).sounds })
    (hb : ∀ b, s.berth b = { u.berth b with cycles := (s.berth b).cycles }) :
    u.itemDone q j w (s.inst q j) (finishCounted q j w k c n tail s) := by
  have key := finishItem_done (u := u) (s := addCycles (s.queue q).berth c n s) q j w hj
    (by rw [addCycles, modBerth_eq, h]; rfl) hp hi hq (fun b => by
      simp only [addCycles, modBerth_eq, setBerth_berth]
      split
      · next e => subst e; rw [hb (s.queue q).berth]
      · exact hb b)
  unfold finishCounted
  dsimp only
  split
  · exact key
  · exact addCycles_done _ _ _ key

theorem firstSome_mem {α : Type} {f : Nat → Option α} {l : List Nat} {x : α} (h : firstSome f l = some x) :
    ∃ a ∈ l, f a = some x := by
  induction l with
  | nil => cases h
  | cons a l ih =>
    unfold firstSome at h
    split at h
    · next y e => cases h; exact ⟨a, by simp, e⟩
    · obtain ⟨b, hb, e⟩ := ih h
      exact ⟨b, by simp [hb], e⟩

/-- What a counted item keeps of cores, clusters and berths: the class counts n, and the latency after it where its engine has no
further item. -/
theorem finishCounted_counts (q j : Nat) (w : Work) (k : EngKind) (cls n tail : Nat) (s : State)
    (hj : j < (s.run q).insts.length) :
    (∀ c, (finishCounted q j w k cls n tail s).core c = { s.core c with
        mxe := ((finishCounted q j w k cls n tail s).core c).mxe
        rweBusy := ((finishCounted q j w k cls n tail s).core c).rweBusy
        rweHeirloom := ((finishCounted q j w k cls n tail s).core c).rweHeirloom
        rweBase2 := ((finishCounted q j w k cls n tail s).core c).rweBase2 }) ∧
      (∀ m, ((finishCounted q j w k cls n tail s).mxe m).tiles = (s.mxe m).tiles) ∧
      (∀ c, ((finishCounted q j w k cls n tail s).cluster c).strDone = (s.cluster c).strDone ∧
        ((finishCounted q j w k cls n tail s).cluster c).strZcBytes = (s.cluster c).strZcBytes ∧
        ((finishCounted q j w k cls n tail s).cluster c).strRefetch = (s.cluster c).strRefetch) ∧
      look 0 ((finishCounted q j w k cls n tail s).berth (s.queue q).berth).cycles cls =
        if engBusy (finishCounted q j w k cls n tail s) ((finishCounted q j w k cls n tail s).run q) k w.eng then
          wrapAdd 64 (look 0 (s.berth (s.queue q).berth).cycles cls) n
        else wrapAdd 64 (wrapAdd 64 (look 0 (s.berth (s.queue q).berth).cycles cls) n) tail := by
  obtain ⟨h1, h2, h3, h4⟩ := finishItem_counts q j w (addCycles (s.queue q).berth cls n s) hj
  have hb : look 0 ((finishItem q j w (addCycles (s.queue q).berth cls n s)).berth (s.queue q).berth).cycles cls =
      wrapAdd 64 (look 0 (s.berth (s.queue q).berth).cycles cls) n := by
    rw [h4]; simp [addCycles]
  by_cases e : engBusy (finishItem q j w (addCycles (s.queue q).berth cls n s))
      ((finishItem q j w (addCycles (s.queue q).berth cls n s)).run q) k w.eng = true
  · have hf : finishCounted q j w k cls n tail s = finishItem q j w (addCycles (s.queue q).berth cls n s) := if_pos e
    rw [hf]
    exact ⟨h1, h2, h3, by rw [if_pos e, hb]⟩
  · have hf : finishCounted q j w k cls n tail s =
        addCycles (s.queue q).berth cls tail (finishItem q j w (addCycles (s.queue q).berth cls n s)) := if_neg e
    rw [hf]
    refine ⟨h1, h2, h3, ?_⟩
    rw [if_neg (by exact e), ← hb]
    simp [addCycles]

/-- An item that runs is held by the engine. -/
theorem runningItem_eng {s : State} {qs : List Nat} {k : EngKind} {e q j : Nat} {w : Work}
    (h : runningItem s qs k e = some (q, j, w)) : w.eng = e := by
  obtain ⟨p, -, h⟩ := firstSome_mem h
  obtain ⟨i, -, h⟩ := firstSome_mem h
  dsimp only at h
  split at h
  · simp only [Option.map_eq_some_iff, Prod.mk.injEq] at h
    obtain ⟨v, hv, -, -, rfl⟩ := h
    have := List.find?_some hv
    simp only [Bool.and_eq_true, decide_eq_true_eq] at this
    exact this.1
  · cases h

/-- An item that runs is of an instruction of its run. -/
theorem runningItem_lt {s : State} {qs : List Nat} {k : EngKind} {e q j : Nat} {w : Work}
    (h : runningItem s qs k e = some (q, j, w)) : j < (s.run q).insts.length := by
  obtain ⟨p, -, h⟩ := firstSome_mem h
  obtain ⟨i, hi, h⟩ := firstSome_mem h
  dsimp only at h
  split at h
  · simp only [Option.map_eq_some_iff, Prod.mk.injEq] at h
    obtain ⟨v, -, rfl, rfl, rfl⟩ := h
    exact List.mem_range.mp hi
  · cases h

/-- The list of an instruction of which an item starts. -/
theorem startItem_work (q j item e : Nat) (b : Bool) (s : State) (hj : j < (s.run q).insts.length) :
    ((startItem q j item e b s).inst q j).work = (s.inst q j).work.map (fun x =>
      if x.item = item then { x with eng := e, started := true, stolen := b } else x) := by
  have hm := modInst_inst s q j (fun x => { x with work := x.work.map (fun w =>
    if w.item = item then { w with eng := e, started := true, stolen := b } else w) }) q j
  rw [if_pos ⟨rfl, rfl, hj⟩] at hm
  have he : ∀ (i : Inst) (t : State), (engineOn q i item e b t).runs = t.runs := fun i t => by
    unfold engineOn
    split <;> rfl
  have hs : ∀ t : State, ((sendReads q j item t).inst q j).work = (t.inst q j).work := fun t => by
    have h1 : ∀ l : List (Nat × Nat),
        ((t.modInst q j (fun x => { x with readsLeft := x.readsLeft ++ l })).inst q j).work = (t.inst q j).work :=
      fun l => by
        rw [modInst_inst]
        split
        · rfl
        · rfl
    have h2 : ∀ (l : List (Nat × Nat)) (f : Nat × Nat → State → State) (u : State), (∀ p (v : State), v.sent (f p v)) →
        (forEach l f u).runs = u.runs := fun l f u hf => by
      have := forEach_rel (R := State.sent) (fun _ => rfl) (fun _ _ _ => State.sent.trans) f hf l u
      rw [this]
    unfold sendReads
    dsimp only
    split
    · exact h1 _
    · have h3 := fun l f u hf => h2 l f u hf
      simp only [State.inst, State.run, h3 _ _ _ (fun p u => request_sent ..)]
      exact h1 _
  unfold startItem
  dsimp only
  have hi : ∀ (i : Inst) (t : State), (engineOn q i item e b t).inst q j = t.inst q j := fun i t => by
    simp only [State.inst, State.run, he]
  rw [hi]
  split
  · rw [hs, hm]
  · rw [hm]

end Sys2Proof.Machine
end

