-- ==== Sys2Proof/Laws/KeepsKernel.lean ====
section
/-! SUPPORT. What no command undoes (Laws/Keeps.lean), for every operation on kernels, their crews, their work and
their commits: one lemma per operation; for a meaning, that it answers a next state as well. -/
namespace Sys2Proof.Machine

/-! ### Machine/Fabric.lean -/

theorem chargeVl_keeps (s : State) (a1 : Nat) (a2 : Nat) (a3 : Nat) : Keeps s (chargeVl s a1 a2 a3) := by
  unfold chargeVl
  grind only [Keeps.trans, Keeps.refl, Keeps.with, Keeps.forEach]

theorem sendPort_keeps (a0 : Nat) (a1 : Nat) (s : State) : Keeps s (sendPort a0 a1 s) := by
  induction a1 generalizing s with
  | zero => exact .refl _
  | succ k ih =>
    unfold sendPort
    extract_lets t
    split
    · split
      · exact .refl _
      · split
        · exact .refl _
        · exact (((State.setPort_keeps _ _ _).trans (chargeVl_keeps _ _ _ _)).trans (State.emit_keeps _ _)).trans
            (ih _)
    · exact .refl _

theorem enqueue_keeps (a0 : Nat) (a1 : Packet) (s : State) : Keeps s (enqueue a0 a1 s) := by
  unfold enqueue
  grind only [Keeps.trans, Keeps.refl, State.modPort_keeps, sendPort_keeps, Keeps.forEach]

theorem countBad_keeps (a0 : Nat) (s : State) : Keeps s (countBad a0 s) := by
  unfold countBad
  grind only [Keeps.trans, Keeps.refl, State.modPort_keeps, Keeps.forEach]

theorem routeTo_keeps (a0 : Nat) (a1 : Packet) (a2 : Bool) (s : State) : Keeps s (routeTo a0 a1 a2 s) := by
  unfold routeTo
  grind only [Keeps.trans, Keeps.refl, State.emit_keeps, countBad_keeps, enqueue_keeps, Keeps.forEach]

theorem route_keeps (a0 : Nat) (a1 : Packet) (s : State) : Keeps s (route a0 a1 s) := by
  unfold route
  grind only [Keeps.trans, Keeps.refl, routeTo_keeps, Keeps.forEach]

theorem request_keeps (a0 : Nat) (a1 : OutstFor) (a2 : Packet) (s : State) : Keeps s (request a0 a1 a2 s) := by
  unfold request
  grind only [Keeps.trans, Keeps.refl, State.modCwy_keeps, route_keeps, Keeps.forEach]

theorem sendWaiting_keeps (s : State) : Keeps s (sendWaiting s) := by
  unfold sendWaiting
  grind only [Keeps.trans, Keeps.refl, request_keeps, State.modCwy_keeps, Keeps.forEach]

/-! ### Machine/Flags.lean -/

theorem raiseVector_keeps (a0 : Nat) (s : State) : Keeps s (raiseVector a0 s) := by
  unfold raiseVector
  grind only [Keeps.trans, Keeps.refl, State.emit_keeps, State.modGlb_keeps, Keeps.forEach]

theorem makeRecord_keeps (a0 : Nat) (a1 : Nat) (a2 : Nat) (a3 : List Byte) (s : State) : Keeps s (makeRecord a0 a1
    a2 a3 s) := by
  unfold makeRecord
  extract_lets b t full u v
  have h0 : Keeps s t := (s.modHalf_keeps _ _).trans (State.emit_keeps _ _)
  have hu : Keeps t u := by
    unfold u
    split
    · exact State.modTwc_keeps _ _
    · exact (State.modTwc_keeps _ _).trans (State.emit_keeps _ _)
  have hv : Keeps t v := by
    unfold v
    split
    · exact hu.trans (raiseVector_keeps _ _)
    · exact .refl _
  split
  · exact (h0.trans hv).trans (route_keeps _ _ _)
  · exact h0.trans hv

theorem recordUe_keeps (a0 : Nat) (a1 : Nat) (a2 : Nat) (a3 : Nat) (s : State) : Keeps s (recordUe a0 a1 a2 a3 s) :=
    by
  unfold recordUe
  grind only [Keeps.trans, Keeps.refl, State.modStack_keeps, raiseVector_keeps, makeRecord_keeps, Keeps.forEach]

theorem flushVectors_keeps (s : State) : Keeps s (flushVectors s) := by
  unfold flushVectors
  grind only [Keeps.trans, Keeps.refl, raiseVector_keeps, Keeps.forEach]

theorem setGlbHalf_keeps (a0 : Nat) (a1 : Glb → Glb) (s : State) : Keeps s (setGlbHalf a0 a1 s) := by
  unfold setGlbHalf
  grind only [Keeps.trans, Keeps.refl, State.modGlb_keeps, makeRecord_keeps, raiseVector_keeps, Keeps.forEach]

/-! ### Machine/Operands.lean -/

theorem State.allot_keeps (s : State) (a1 : Nat) (a2 : Nat) : Keeps s (State.allot s a1 a2) := by
  unfold State.allot
  grind only [Keeps.trans, Keeps.refl, State.modHarbour_keeps, Keeps.forEach]

theorem State.merged_keeps (s : State) (u : Nat) : Keeps s (s.merged u) :=
  (Keeps.setMem s _ (fun h => Memory.wf_wrBytes h _ _)).trans (.same rfl rfl rfl rfl rfl rfl rfl rfl rfl rfl rfl)

theorem State.touch_keeps (s : State) (pa : Nat) (store : Bool) : Keeps s (s.touch pa store) := by
  unfold State.touch
  exact State.modHarbour_keeps _ _ _

theorem State.touchAll_keeps (s : State) (c : Ctx) (vas : List Nat) (store : Bool) : Keeps s (s.touchAll c vas
    store) := by
  unfold State.touchAll
  grind only [Keeps.trans, Keeps.refl, State.touch_keeps, State.modHarbour_keeps, Keeps.forEach]

theorem State.storeMoor_keeps (s : State) (c : Ctx) (st : Stores) (u : Nat) (lines : List (Nat × Nat)) {t : State}
    (h : s.storeMoor c st u lines = .ok t) : Keeps s t := by
  unfold State.storeMoor at h
  extract_lets k m bytes at h
  have hm : Keeps s m := Keeps.forEach (fun l t => State.allot_keeps _ _ _) _ _
  split at h
  · injection h
  · split at h
    · injection h with h; subst h
      exact hm.trans (Keeps.setMoorBoth m _ _ (fun h => Memory.wf_wrBytes h _ _) (fun h => tblWf_put _ _ _ _ h))
    · split at h
      · injection h with h; subst h
        exact hm.trans (Keeps.setMoor m _ (fun h => Memory.wf_wrBytes h _ _))
      · injection h with h; subst h; exact hm
      · injection h

theorem State.storeStack_keeps (s : State) (c : Ctx) (st : Stores) (u pa : Nat) {t : State}
    (h : s.storeStack c st u pa = .ok t) : Keeps s t := by
  unfold State.storeStack at h
  extract_lets page bytes clearCopy m at h
  have hm : Keeps s m := s.merged_keeps pa
  have hc : ∀ x, Keeps x (clearCopy x) := fun x => State.modBerth_keeps _ _ _
  split at h
  · injection h with h; subst h
    exact hm.trans ((Keeps.setMemUnits m _ _ (fun h => Memory.wf_wrBytes h _ _) (fun h => tblWf_put _ _ _ _
        h)).trans
      (hc _))
  · split at h
    · injection h with h; subst h
      exact hm.trans ((Keeps.setMem m _ (fun h => Memory.wf_wrBytes h _ _)).trans (hc _))
    · injection h with h; subst h; exact .refl _
    · injection h

theorem State.storeUnit_keeps (s : State) (a1 : Ctx) (a2 : Stores) (a3 : Nat) {t : State}
    (h : s.storeUnit a1 a2 a3 = .ok t) : Keeps s t := by
  unfold State.storeUnit at h
  dsimp only at h
  split at h
  · injection h
  · split at h
    · injection h
    · rename_i u hu
      have hs : Keeps s u := by
        split at hu
        · injection hu with hu; subst hu; exact .refl _
        · exact State.storeStack_keeps _ _ _ _ _ hu
      split at h
      · injection h with h; subst h; exact hs
      · exact hs.trans (State.storeMoor_keeps _ _ _ _ _ h)

theorem State.store_keeps (s : State) (a1 : Ctx) (a2 : Stores) {t : State} (h : State.store s a1 a2 = .ok t) :
    Keeps s t := by
  exact Keeps.foldE (fun t u _ h => State.storeUnit_keeps t _ _ u h) _ _ _ h

theorem State.accWrite_keeps (s : State) (a1 : Nat) (a2 : Nat) (a3 : AccDecl) (a4 : Nat) (a5 : Nat) : Keeps s
    (State.accWrite s a1 a2 a3 a4 a5) := by
  unfold State.accWrite
  exact (Keeps.setTrays s _ (fun h => Memory.wf_wrBytes h _ _)).trans (State.modBerth_keeps _ _ _)

/-! ### Machine/Kernel.lean -/

theorem State.modGroup_keeps (s : State) (a1 : Nat) (a2 : Nat) (a3 : Group → Group) : Keeps s (State.modGroup s a1
    a2 a3) := by
  unfold State.modGroup
  grind only [Keeps.trans, Keeps.refl, State.modBerth_keeps, Keeps.forEach]

theorem State.modReq_keeps (s : State) (a1 : Nat) (a2 : Nat) (a3 : Req → Req) : Keeps s (State.modReq s a1 a2 a3) :=
    by
  unfold State.modReq
  grind only [Keeps.trans, Keeps.refl, State.modBerth_keeps, Keeps.forEach]

theorem dropSamples_keeps (a0 : Nat) (s : State) : Keeps s (dropSamples a0 s) := by
  unfold dropSamples
  grind only [Keeps.trans, Keeps.refl, State.modBerth_keeps, Keeps.forEach]

theorem State.modSlot_keeps (s : State) (a1 : Nat) (a2 : Nat) (a3 : Slot → Slot) : Keeps s (State.modSlot s a1 a2
    a3) := by
  unfold State.modSlot
  grind only [Keeps.trans, Keeps.refl, State.modBerth_keeps, Keeps.forEach]

theorem applyClears_keeps (a0 : Nat) (s : State) : Keeps s (applyClears a0 s) := by
  unfold applyClears
  grind only [Keeps.trans, Keeps.refl, State.modSlot_keeps, Keeps.forEach]

theorem passOver_keeps (a0 : Nat) (a1 : Nat) (s : State) : Keeps s (passOver a0 a1 s) := by
  unfold passOver
  grind only [Keeps.trans, Keeps.refl, applyClears_keeps, dropSamples_keeps, State.modBerth_keeps,
      State.setRun_keeps, State.modQueue_keeps, Keeps.forEach]

theorem State.modShare_keeps (s : State) (a1 : Nat) (a2 : Nat) (a3 : Share → Share) : Keeps s (State.modShare s a1
    a2 a3) := by
  unfold State.modShare
  grind only [Keeps.trans, Keeps.refl, State.modHarbour_keeps, Keeps.forEach]

theorem refreshWaiting_keeps (a0 : Nat) (s : State) : Keeps s (refreshWaiting a0 s) := by
  unfold refreshWaiting
  grind only [Keeps.trans, Keeps.refl, State.modShare_keeps, Keeps.forEach]

theorem refreshActive_keeps (a0 : Nat) (s : State) : Keeps s (refreshActive a0 s) := by
  unfold refreshActive
  grind only [Keeps.trans, Keeps.refl, State.modBerth_keeps, Keeps.forEach]

theorem refreshReady_keeps (a0 : Nat) (s : State) : Keeps s (refreshReady a0 s) := by
  unfold refreshReady
  grind only [Keeps.trans, Keeps.refl, State.modRun_keeps, Keeps.with, Keeps.forEach]

theorem settle_keeps (s : State) : Keeps s (settle s) := by
  unfold settle
  grind only [Keeps.trans, Keeps.refl, refreshReady_keeps, refreshActive_keeps, refreshWaiting_keeps, Keeps.forEach]

theorem State.modMxe_keeps (s : State) (a1 : Nat) (a2 : Mxe → Mxe) : Keeps s (State.modMxe s a1 a2) := by
  unfold State.modMxe
  grind only [Keeps.trans, Keeps.refl, State.modCore_keeps, Keeps.forEach]

theorem idleEngine_keeps (a0 : Op) (a1 : Work) (s : State) : Keeps s (idleEngine a0 a1 s) := by
  unfold idleEngine
  grind only [Keeps.trans, Keeps.refl, State.modMxe_keeps, State.modCore_keeps, State.modCluster_keeps,
      Keeps.forEach]

theorem idleUnit_keeps (i : Inst) (s : State) : Keeps s (idleUnit i s) := by
  unfold idleUnit
  split
  · dsimp only
    refine Keeps.trans (t := { s with fresh := s.fresh + 2 }) ?_ (State.modCodecEng_keeps _ _ _)
    exact ⟨rfl, id, id, id, fun _ => Nat.le_refl _, fun _ => id, fun _ => id, Nat.le_add_right _ _⟩
  · exact State.modLshEng_keeps _ _ _
  · exact .refl _

theorem stopEngines_keeps (a0 : Nat) (s : State) : Keeps s (stopEngines a0 s) := by
  unfold stopEngines
  grind only [Keeps.trans, Keeps.refl, idleUnit_keeps, idleEngine_keeps, State.modCore_keeps, Keeps.with,
      Keeps.forEach]

theorem freeLines_keeps (a0 : Nat) (a1 : Region) (s : State) : Keeps s (freeLines a0 a1 s) := by
  unfold freeLines
  extract_lets k mine t
  exact (State.modHarbour_keeps s _ _).trans ((Keeps.setMoor t _ (fun h => Memory.wf_zeroBytes h _ _)).trans
    (Keeps.setMoorUnits _ (t.moorUnits.filter _) (fun h => tblWf_drop _ _ _ h)))

theorem freeScratch_keeps (a0 : Nat) (s : State) : Keeps s (freeScratch a0 s) := by
  unfold freeScratch
  grind only [Keeps.trans, Keeps.refl, State.modShare_keeps, freeLines_keeps, Keeps.forEach]

theorem doResume_keeps (a0 : Nat) (s : State) : Keeps s (doResume a0 s) := by
  unfold doResume
  grind only [Keeps.trans, Keeps.refl, State.modQueue_keeps, Keeps.forEach]

theorem trySkip_keeps (a0 : Nat) (s : State) : Keeps s (trySkip a0 s) := by
  unfold trySkip
  dsimp only
  split
  · exact State.modQueue_keeps _ _ _
  · exact passOver_keeps _ _ _

theorem doSkip_keeps (a0 : Nat) (s : State) : Keeps s (doSkip a0 s) := by
  unfold doSkip
  grind only [Keeps.trans, Keeps.refl, trySkip_keeps, Keeps.forEach]

theorem setTail_keeps (a0 : Nat) (a1 : Nat) (s : State) : Keeps s (setTail a0 a1 s) := by
  unfold setTail
  dsimp only
  split
  · exact .refl _
  · split
    · exact (State.modQueue_keeps _ _ _).trans (trySkip_keeps _ _)
    · exact State.modQueue_keeps _ _ _

theorem ringDoorbell_keeps (a0 : Nat) (a1 : Nat) (a2 : Bool) (s : State) : Keeps s (ringDoorbell a0 a1 a2 s) := by
  unfold ringDoorbell
  grind only [Keeps.trans, Keeps.refl, setTail_keeps, State.modQueue_keeps, doSkip_keeps, doResume_keeps,
      Keeps.forEach]

theorem awaitRerun_keeps (a0 : Nat) (a1 : Bool) (s : State) : Keeps s (awaitRerun a0 a1 s) := by
  unfold awaitRerun
  grind only [Keeps.trans, Keeps.refl, State.modQueue_keeps, Keeps.forEach]

theorem stopQueue_keeps (a0 : Nat) (s : State) : Keeps s (stopQueue a0 s) := by
  unfold stopQueue
  grind only [Keeps.trans, Keeps.refl, raiseVector_keeps, State.modQueue_keeps, Keeps.forEach]

theorem sendRank_keeps (a0 : Nat) (a1 : Group) (a2 : Nat) (a3 : Nat) (a4 : Packet) (s : State) : Keeps s (sendRank
    a0 a1 a2 a3 a4 s) := by
  unfold sendRank
  grind only [Keeps.trans, Keeps.refl, route_keeps, enqueue_keeps, Keeps.forEach]

theorem sendAbort_keeps (a0 : Nat) (a1 : Nat) (a2 : Nat) (a3 : Nat) (a4 : Nat) (a5 : Nat) (a6 : Option Nat) (s :
    State) : Keeps s (sendAbort a0 a1 a2 a3 a4 a5 a6 s) := by
  unfold sendAbort
  grind only [Keeps.trans, Keeps.refl, sendRank_keeps, Keeps.forEach]

theorem killRun_keeps (a0 : Nat) (a1 : Nat) (a2 : Nat) (a3 : Nat) (a4 : Option Nat) (s : State) : Keeps s (killRun
    a0 a1 a2 a3 a4 s) := by
  unfold killRun
  grind only [Keeps.trans, Keeps.refl, freeScratch_keeps, stopEngines_keeps, State.modBerth_keeps,
      State.setRun_keeps, State.modQueue_keeps, State.modGroup_keeps, sendAbort_keeps, Keeps.forEach]

theorem recordStore_keeps (a0 : Nat) (s : State) : Keeps s (recordStore a0 s) := by
  unfold recordStore
  grind only [Keeps.trans, Keeps.refl, recordUe_keeps, Keeps.forEach]

theorem State.modPage_keeps (s : State) (a1 : Nat) (a2 : Nat) (a3 : Page → Page) : Keeps s (State.modPage s a1 a2
    a3) := by
  unfold State.modPage
  grind only [Keeps.trans, Keeps.refl, State.modBerth_keeps, Keeps.forEach]

theorem nextMig_keeps (h n : Nat) (s : State) : Keeps s (nextMig h n s) := by
  induction n generalizing s with
  | zero => exact .refl _
  | succ k ih =>
    unfold nextMig
    dsimp only
    split
    · split
      · exact .refl _
      · split
        · exact ((State.modHalf_keeps _ _ _).trans (State.modBerth_keeps _ _ _)).trans (ih _)
        · exact (State.modHalf_keeps _ _ _).trans (State.modPage_keeps _ _ _ _)
    · exact .refl _

theorem startMig_keeps (a0 : Nat) (s : State) : Keeps s (startMig a0 s) := by
  unfold startMig
  grind only [Keeps.trans, Keeps.refl, nextMig_keeps, Keeps.forEach]

theorem requestMig_keeps (a0 : Nat) (a1 : Nat) (a2 : Tier) (a3 : Bool) (a4 : Nat) (s : State) : Keeps s (requestMig
    a0 a1 a2 a3 a4 s) := by
  unfold requestMig
  grind only [Keeps.trans, Keeps.refl, State.modBerth_keeps, State.modHalf_keeps, startMig_keeps, Keeps.forEach]

theorem requestFootprint_keeps (a0 : Nat) (a1 : Nat) (s : State) : Keeps s (requestFootprint a0 a1 s) := by
  unfold requestFootprint
  grind only [Keeps.trans, Keeps.refl, State.modBerth_keeps, requestMig_keeps, Keeps.forEach]

theorem faultRun_keeps (a0 : Nat) (a1 : Nat) (a2 : Nat) (a3 : Nat) (a4 : Option Nat) (s : State) : Keeps s (faultRun a0 a1 a2
    a3 a4 s) := by
  unfold faultRun
  grind only [Keeps.trans, Keeps.refl, requestFootprint_keeps, recordStore_keeps, killRun_keeps, settle_keeps,
      stopQueue_keeps, State.modRun_keeps, awaitRerun_keeps, Keeps.forEach]

theorem killQueue_keeps (a0 : Nat) (a1 : Nat) (s : State) : Keeps s (killQueue a0 a1 s) := by
  unfold killQueue
  grind only [Keeps.trans, Keeps.refl, faultRun_keeps, Keeps.forEach]

theorem killAll_keeps (a0 : List Nat) (a1 : Nat) (s : State) : Keeps s (killAll a0 a1 s) := by
  unfold killAll
  grind only [Keeps.trans, Keeps.refl, killQueue_keeps, Keeps.forEach]

theorem State.modTray_keeps (s : State) (a1 : Nat) (a2 : Nat) (a3 : Tray → Tray) : Keeps s (State.modTray s a1 a2
    a3) := by
  unfold State.modTray
  grind only [Keeps.trans, Keeps.refl, State.modCore_keeps, Keeps.forEach]

theorem returnTray_keeps (a0 : Nat) (a1 : Nat) (s : State) : Keeps s (returnTray a0 a1 s) := by
  unfold returnTray
  grind only [Keeps.trans, Keeps.refl, State.modTray_keeps, Keeps.forEach]

theorem State.modInst_keeps (s : State) (a1 : Nat) (a2 : Nat) (a3 : Inst → Inst) : Keeps s (State.modInst s a1 a2
    a3) := by
  unfold State.modInst
  grind only [Keeps.trans, Keeps.refl, State.modRun_keeps, Keeps.forEach]

theorem runFault_keeps (a0 : Nat) (a1 : Nat) (a2 : Flt) (s : State) : Keeps s (runFault a0 a1 a2 s) := by
  unfold runFault
  grind only [Keeps.trans, Keeps.refl, faultRun_keeps, Keeps.forEach]

theorem installRun_keeps (a0 : Nat) (a1 : Nat) (a2 : Nat) (a3 : List Op) (s : State) : Keeps s (installRun a0 a1 a2
    a3 s) := by
  unfold installRun
  grind only [Keeps.trans, Keeps.refl, State.modQueue_keeps, State.setRun_keeps, Keeps.forEach]

theorem fetchFault_keeps (a0 : Nat) (a1 : Nat) (a2 : Nat) (a3 : Flt) (s : State) : Keeps s (fetchFault a0 a1 a2 a3 s) :=
    by
  unfold fetchFault
  grind only [Keeps.trans, Keeps.refl, State.modRun_keeps, State.modQueue_keeps, faultRun_keeps, Keeps.forEach]

theorem execKernelRerun_answers (a0 : Nat) (s : State) : Answers s (execKernelRerun a0 s) := by
  unfold execKernelRerun
  grind only [Keeps.trans, Keeps.refl, fetchFault_keeps, settle_keeps, installRun_keeps, Answers.next,
      Keeps.forEach]

theorem execKillTraysReturned_answers (a0 : Nat) (s : State) : Answers s (execKillTraysReturned a0 s) := by
  unfold execKillTraysReturned
  grind only [Keeps.trans, Keeps.refl, returnTray_keeps, settle_keeps, State.modRun_keeps, Answers.next,
      Keeps.forEach]

theorem applyBake_keeps (a0 : Nat) (a1 : Nat) (a2 : BakeSkip) (s : State) {t : State} (h : applyBake a0 a1 a2 s =
    some t) : Keeps s t := by
  unfold applyBake at h
  dsimp only at h
  split at h
  · cases h
  · cases h; exact (passOver_keeps _ _ _).trans (State.modReq_keeps _ _ _ _)
  · split at h
    · cases h; exact .refl _
    · cases h; exact (passOver_keeps _ _ _).trans (State.modReq_keeps _ _ _ _)

theorem execKernelFetch_answers (a0 : Nat) (s : State) : Answers s (execKernelFetch a0 s) := by
  unfold execKernelFetch
  dsimp only
  split
  · split
    · rename_i t ht; exact .next ((applyBake_keeps _ _ _ _ ht).trans (settle_keeps _))
    · have h0 := (s.modQueue_keeps a0 (fun x => { x with rerunCount := 0 })).trans
        (State.setRun_keeps _ a0 { traysOut := (s.run a0).traysOut })
      split
      · exact .next (.refl _)
      · exact .next (h0.trans (fetchFault_keeps _ _ _ _ _))
      · exact .next (h0.trans (fetchFault_keeps _ _ _ _ _))
      · exact .next (h0.trans ((installRun_keeps _ _ _ _ _).trans (settle_keeps _)))
  · exact .next (.refl _)

theorem execClrEvents_answers (a0 : Nat) (s : State) : Answers s (execClrEvents a0 s) := by
  unfold execClrEvents
  grind only [Keeps.trans, Keeps.refl, ringDoorbell_keeps, Answers.next, Keeps.forEach]

theorem execSkip_answers (a0 : Nat) (s : State) : Answers s (execSkip a0 s) := by
  unfold execSkip
  grind only [Keeps.trans, Keeps.refl, ringDoorbell_keeps, Answers.next, Keeps.forEach]

theorem execResume_answers (a0 : Nat) (s : State) : Answers s (execResume a0 s) := by
  unfold execResume
  grind only [Keeps.trans, Keeps.refl, ringDoorbell_keeps, Answers.next, Keeps.forEach]

theorem execTail_answers (a0 : Nat) (a1 : Nat) (s : State) : Answers s (execTail a0 a1 s) := by
  unfold execTail
  grind only [Keeps.trans, Keeps.refl, setTail_keeps, Answers.next, Keeps.forEach]

theorem advance_keeps (a0 : Nat) (s : State) : Keeps s (advance a0 s) := by
  unfold advance
  grind only [Keeps.trans, Keeps.refl, State.modRun_keeps, Keeps.forEach]

theorem dispatch_keeps (q : Nat) (op : Op) (f : State → Except Flt State) (hf : ∀ t u, f t = .ok u → Keeps t u)
    (s : State) : Keeps s (dispatch q op f s) := by
  unfold dispatch
  dsimp only
  split
  · split
    · exact Keeps.ite (advance_keeps _ _) (faultRun_keeps _ _ _ _ _ _)
    · rename_i t ht; exact (hf _ _ ht).trans (advance_keeps _ _)
  · exact .refl _

theorem execSound_answers (a0 : Nat) (a1 : Nat) (a2 : Nat) (a3 : Nat) (a4 : BitVec 32) (s : State) : Answers s
    (execSound a0 a1 a2 a3 a4 s) := by
  unfold execSound
  grind only [Keeps.trans, Keeps.refl, dispatch_keeps, State.modRun_keeps, Answers.next, Keeps.forEach]

theorem hold_keeps (a0 : Nat) (a1 : Nat) (a2 : Nat) (a3 : List Held) (s : State) {t : State} (h : hold a0 a1 a2 a3 s
    = .ok t) : Keeps s t := by
  unfold hold at h
  grind only [Keeps.trans, Keeps.refl, State.modRun_keeps, Keeps.forEach]

theorem execEpoch_answers (a0 : Nat) (a1 : Nat) (a2 : Nat) (a3 : Nat) (s : State) : Answers s (execEpoch a0 a1 a2 a3
    s) := by
  unfold execEpoch
  grind only [Keeps.trans, Keeps.refl, dispatch_keeps, hold_keeps, Answers.next, Keeps.forEach]

theorem execPlace_answers (a0 : Nat) (a1 : Nat) (a2 : Nat) (s : State) : Answers s (execPlace a0 a1 a2 s) := by
  unfold execPlace
  grind only [Keeps.trans, Keeps.refl, dispatch_keeps, hold_keeps, Answers.next, Keeps.forEach]

theorem execRecipe_answers (a0 : Nat) (a1 : Nat) (a2 : Nat) (a3 : Nat) (a4 : Nat) (s : State) : Answers s
    (execRecipe a0 a1 a2 a3 a4 s) := by
  unfold execRecipe
  grind only [Keeps.trans, Keeps.refl, dispatch_keeps, State.modRun_keeps, Answers.next, Keeps.forEach]

theorem execFence_answers (a0 : Nat) (s : State) : Answers s (execFence a0 s) := by
  unfold execFence
  grind only [Keeps.trans, Keeps.refl, dispatch_keeps, Answers.next, Keeps.forEach]

theorem execSignal_answers (a0 : Nat) (a1 : Nat) (a2 : Nat) (a3 : Nat) (a4 : Nat) (a5 : Nat) (s : State) : Answers s
    (execSignal a0 a1 a2 a3 a4 a5 s) := by
  unfold execSignal
  grind only [Keeps.trans, Keeps.refl, dispatch_keeps, hold_keeps, Answers.next, Keeps.forEach]

theorem execWait_answers (a0 : Nat) (a1 : Nat) (a2 : Nat) (s : State) : Answers s (execWait a0 a1 a2 s) := by
  unfold execWait
  grind only [Keeps.trans, Keeps.refl, settle_keeps, State.modRun_keeps, Answers.next, Keeps.forEach]

theorem execCommit_answers (a0 : Nat) (s : State) : Answers s (execCommit a0 s) := by
  unfold execCommit
  grind only [Keeps.trans, Keeps.refl, State.modRun_keeps, advance_keeps, Answers.next, Keeps.forEach]

theorem execKbegin_answers (a0 : Nat) (a1 : Nat) (a2 : Nat) (a3 : Bool) (a4 : Bool) (s : State) : Answers s
    (execKbegin a0 a1 a2 a3 a4 s) := by
  unfold execKbegin
  grind only [Keeps.trans, Keeps.refl, settle_keeps, State.modRun_keeps, Answers.next, Keeps.forEach]

theorem execNop_answers (a0 : Nat) (s : State) : Answers s (execNop a0 s) := by
  unfold execNop
  grind only [Keeps.trans, Keeps.refl, dispatch_keeps, Answers.next, Keeps.forEach]

/-! ### Machine/Work.lean -/

theorem noteTrayFault_keeps (a0 : Nat) (s : State) : Keeps s (noteTrayFault a0 s) := by
  unfold noteTrayFault
  grind only [Keeps.trans, Keeps.refl, State.modCore_keeps, Keeps.forEach]

theorem trayFault_keeps (a0 : Nat) (a1 : Nat) (a2 : Flt) (s : State) : Keeps s (trayFault a0 a1 a2 s) := by
  unfold trayFault
  grind only [Keeps.trans, Keeps.refl, runFault_keeps, noteTrayFault_keeps, Keeps.forEach]

theorem addCycles_keeps (a0 : Nat) (a1 : Nat) (a2 : Nat) (s : State) : Keeps s (addCycles a0 a1 a2 s) := by
  unfold addCycles
  grind only [Keeps.trans, Keeps.refl, State.modBerth_keeps, Keeps.forEach]

theorem engineOn_keeps (a0 : Nat) (a1 : Inst) (a2 : Nat) (a3 : Nat) (a4 : Bool) (s : State) : Keeps s (engineOn a0
    a1 a2 a3 a4 s) := by
  unfold engineOn
  grind only [Keeps.trans, Keeps.refl, State.modMxe_keeps, State.modCore_keeps, State.modCluster_keeps,
      Keeps.forEach]

theorem sendReads_keeps (a0 : Nat) (a1 : Nat) (a2 : Nat) (s : State) : Keeps s (sendReads a0 a1 a2 s) := by
  unfold sendReads
  grind only [Keeps.trans, Keeps.refl, State.modInst_keeps, request_keeps, Keeps.forEach]

theorem startItem_keeps (a0 : Nat) (a1 : Nat) (a2 : Nat) (a3 : Nat) (a4 : Bool) (s : State) : Keeps s (startItem a0
    a1 a2 a3 a4 s) := by
  unfold startItem
  grind only [Keeps.trans, Keeps.refl, State.modInst_keeps, sendReads_keeps, engineOn_keeps, Keeps.forEach]

theorem startOwn_keeps (a0 : Nat) (a1 : EngKind) (a2 : Nat) (s : State) : Keeps s (startOwn a0 a1 a2 s) := by
  unfold startOwn
  grind only [Keeps.trans, Keeps.refl, startItem_keeps, Keeps.forEach]

theorem startIdle_keeps (a0 : Nat) (s : State) : Keeps s (startIdle a0 s) := by
  unfold startIdle
  grind only [Keeps.trans, Keeps.refl, startOwn_keeps, Keeps.forEach]

theorem steal_keeps (a0 : Nat) (a1 : EngKind) (a2 : Nat) (s : State) : Keeps s (steal a0 a1 a2 s) := by
  unfold steal
  grind only [Keeps.trans, Keeps.refl, startItem_keeps, State.modCore_keeps, startIdle_keeps, Keeps.forEach]

theorem execStripeSteal_answers (a0 : Nat) (s : State) : Answers s (execStripeSteal a0 s) := by
  unfold execStripeSteal
  grind only [Keeps.trans, Keeps.refl, steal_keeps, Answers.next, Keeps.forEach]

theorem finishItem_keeps (a0 : Nat) (a1 : Nat) (a2 : Work) (s : State) : Keeps s (finishItem a0 a1 a2 s) := by
  unfold finishItem
  grind only [Keeps.trans, Keeps.refl, idleEngine_keeps, State.modInst_keeps, startIdle_keeps, Keeps.forEach]

theorem finishCounted_keeps (a0 : Nat) (a1 : Nat) (a2 : Work) (a3 : EngKind) (a4 : Nat) (a5 : Nat) (a6 : Nat) (s : State) :
    Keeps s (finishCounted a0 a1 a2 a3 a4 a5 a6 s) := by
  unfold finishCounted
  grind only [Keeps.trans, Keeps.refl, finishItem_keeps, addCycles_keeps, Keeps.forEach]

theorem itemFault_keeps (a0 : Nat) (a1 : Nat) (a2 : Work) (a3 : Flt) (s : State) : Keeps s (itemFault a0 a1 a2 a3 s) :=
    by
  unfold itemFault
  grind only [Keeps.trans, Keeps.refl, finishItem_keeps, trayFault_keeps, Keeps.forEach]

theorem execBatchSteal_answers (a0 : Nat) (a1 : Bool) (s : State) : Answers s (execBatchSteal a0 a1 s) := by
  unfold execBatchSteal
  grind only [Keeps.trans, Keeps.refl, steal_keeps, Answers.next, Keeps.forEach]

theorem execTileSteal_answers (a0 : Nat) (s : State) : Answers s (execTileSteal a0 s) := by
  unfold execTileSteal
  grind only [Keeps.trans, Keeps.refl, steal_keeps, Answers.next, Keeps.forEach]

theorem execPlanReady_answers (a0 : Nat) (s : State) : Answers s (execPlanReady a0 s) := by
  unfold execPlanReady
  grind only [Keeps.trans, Keeps.refl, trayFault_keeps, State.modCluster_keeps, State.modInst_keeps,
      State.modRun_keeps, startIdle_keeps, Answers.next, Keeps.forEach]

/-! ### Machine/Sched.lean -/

theorem doOpen_keeps (a0 : Nat) (a1 : Nat) (a2 : Nat) (a3 : Bool) (a4 : Nat) (s : State) : Keeps s (doOpen a0 a1 a2
    a3 a4 s) := by
  unfold doOpen
  grind only [Keeps.trans, Keeps.refl, State.modReq_keeps, Keeps.forEach]

theorem idleAtTail_keeps (a0 : Nat) (s : State) : Keeps s (idleAtTail a0 s) := by
  unfold idleAtTail
  grind only [Keeps.trans, Keeps.refl, freeScratch_keeps, stopEngines_keeps, State.modRun_keeps, settle_keeps,
      passOver_keeps, Keeps.forEach]

theorem closeReq_keeps (a0 : Nat) (a1 : Nat) (a2 : Bool) (s : State) : Keeps s (closeReq a0 a1 a2 s) := by
  unfold closeReq
  grind only [Keeps.trans, Keeps.refl, State.modReq_keeps, idleAtTail_keeps, Keeps.forEach]

theorem doClear_keeps (a0 : Nat) (a1 : Nat) (s : State) : Keeps s (doClear a0 a1 s) := by
  unfold doClear
  grind only [Keeps.trans, Keeps.refl, State.modSlot_keeps, Keeps.forEach]

theorem handTray_keeps (a0 : Nat) (a1 : Nat) (a2 : Nat) (a3 : Nat) (s : State) : Keeps s (handTray a0 a1 a2 a3 s) :=
    by
  unfold handTray
  grind only [Keeps.trans, Keeps.refl, State.modTray_keeps, Keeps.forEach]

theorem joinCore_keeps (a0 : Nat) (a1 : Nat) (a2 : Bool) (a3 : Bool) (s : State) : Keeps s (joinCore a0 a1 a2 a3 s) :=
    by
  unfold joinCore
  grind only [Keeps.trans, Keeps.refl, handTray_keeps, State.modRun_keeps, State.modCore_keeps, State.modMxe_keeps,
      Keeps.forEach]

theorem takeCrew_keeps (a0 : Nat) (a1 : List Nat) (s : State) : Keeps s (takeCrew a0 a1 s) := by
  unfold takeCrew
  grind only [Keeps.trans, Keeps.refl, State.modRun_keeps, joinCore_keeps, Keeps.forEach]

theorem execClearSlot_answers (a0 : Nat) (a1 : Nat) (s : State) : Answers s (execClearSlot a0 a1 s) := by
  unfold execClearSlot
  grind only [Keeps.trans, Keeps.refl, doClear_keeps, Answers.next, Keeps.forEach]

theorem execCloseSlot_answers (a0 : Nat) (s : State) : Answers s (execCloseSlot a0 s) := by
  unfold execCloseSlot
  grind only [Keeps.trans, Keeps.refl, closeReq_keeps, Answers.next, Keeps.forEach]

theorem execOpenSlot_answers (a0 : Nat) (a1 : Nat) (a2 : Nat) (a3 : Bool) (a4 : Nat) (s : State) : Answers s
    (execOpenSlot a0 a1 a2 a3 a4 s) := by
  unfold execOpenSlot
  grind only [Keeps.trans, Keeps.refl, doOpen_keeps, Answers.next, Keeps.forEach]

theorem evalReq_keeps (a0 : Nat) (a1 : Nat) (s : State) : Keeps s (evalReq a0 a1 s) := by
  unfold evalReq
  grind only [Keeps.trans, Keeps.refl, State.modReq_keeps, State.modQueue_keeps, raiseVector_keeps, Keeps.forEach]

theorem deadlineEval_keeps (a0 : Nat) (s : State) : Keeps s (deadlineEval a0 s) := by
  unfold deadlineEval
  grind only [Keeps.trans, Keeps.refl, evalReq_keeps, Keeps.forEach]

theorem execDeadlineEval_answers (a0 : Nat) (s : State) : Answers s (execDeadlineEval a0 s) := by
  unfold execDeadlineEval
  grind only [Keeps.trans, Keeps.refl, deadlineEval_keeps, Answers.next, Keeps.forEach]

theorem execCrewCoreJoin_answers (a0 : Nat) (a1 : Nat) (s : State) : Answers s (execCrewCoreJoin a0 a1 s) := by
  unfold execCrewCoreJoin
  grind only [Keeps.trans, Keeps.refl, State.modRun_keeps, startIdle_keeps, joinCore_keeps, Answers.next,
      Keeps.forEach]

theorem preempt_keeps (a0 : Nat) (s : State) : Keeps s (preempt a0 s) := by
  unfold preempt
  grind only [Keeps.trans, Keeps.refl, State.modCore_keeps, killQueue_keeps, Keeps.forEach]

theorem preemptFor_keeps (a0 : Nat) (a1 : Nat) (s : State) : Keeps s (preemptFor a0 a1 s) := by
  induction a1 generalizing s with
  | zero => exact .refl _
  | succ k ih =>
    unfold preemptFor
    split
    · exact .refl _
    · extract_lets vs pool
      split
      · exact .refl _
      · exact (preempt_keeps _ _).trans (ih _)

theorem sampleEpochs_keeps (a0 : Nat) (s : State) : Keeps s (sampleEpochs a0 s) := by
  unfold sampleEpochs
  grind only [Keeps.trans, Keeps.refl, State.modRun_keeps, State.modBerth_keeps, Keeps.forEach]

theorem startPass_keeps (a0 : Nat) (s : State) : Keeps s (startPass a0 s) := by
  unfold startPass
  grind only [Keeps.trans, Keeps.refl, State.modRun_keeps, State.modReq_keeps, Keeps.forEach]

theorem leaveState1_keeps (a0 : Nat) (s : State) : Keeps s (leaveState1 a0 s) := by
  unfold leaveState1
  grind only [Keeps.trans, Keeps.refl, State.modRun_keeps, State.modShare_keeps, State.modQueue_keeps,
      startPass_keeps, sampleEpochs_keeps, Keeps.forEach]

theorem execCrewGrant_answers (a0 : Nat) (s : State) : Answers s (execCrewGrant a0 s) := by
  unfold execCrewGrant
  extract_lets r bake
  split
  · rename_i t ht; exact .next ((applyBake_keeps _ _ _ _ ht).trans (settle_keeps _))
  · split
    · exact .next (.refl _)
    · split
      · exact .next ((leaveState1_keeps _ _).trans (settle_keeps _))
      · split
        · exact .next (.refl _)
        · split
          · exact .next ((leaveState1_keeps _ _).trans ((takeCrew_keeps _ _ _).trans (settle_keeps _)))
          · exact .next ((preemptFor_keeps _ _ _).trans (settle_keeps _))

theorem overflowRun_keeps (a0 : Nat) (a1 : Nat) (a2 : Nat) (a3 : List Tensor) (s : State) : Keeps s (overflowRun a0
    a1 a2 a3 s) := by
  unfold overflowRun
  grind only [Keeps.trans, Keeps.refl, faultRun_keeps, killRun_keeps, State.modRun_keeps, settle_keeps,
      awaitRerun_keeps, Keeps.forEach]

/-! ### Machine/Compute.lean -/

theorem execSoundingCompare_answers (a0 : Nat) (a1 : Nat) (s : State) : Answers s (execSoundingCompare a0 a1 s) :=
    by
  unfold execSoundingCompare
  extract_lets r c
  split
  · split
    · exact .next (.refl _)
    · extract_lets i
      split
      · split
        · exact .next (Keeps.ite (State.modRun_keeps _ _ _) (trayFault_keeps _ _ _ _))
        · exact .next (((State.modCore_keeps _ _ _).trans (addCycles_keeps _ _ _ _)).trans
            (State.modRun_keeps _ _ _))
      · exact .next (.refl _)
  · exact .next (.refl _)

theorem State.accumulate_keeps (s : State) (a1 : Ctx) (a2 : Nat) (a3 : Nat) (a4 : Fv) {t : State} (h :
    State.accumulate s a1 a2 a3 a4 = .ok t) : Keeps s t := by
  unfold State.accumulate at h
  grind only [Keeps.trans, Keeps.refl, State.accWrite_keeps, Keeps.forEach]

theorem State.reachAll_keeps (s : State) (a1 : Ctx) (a2 : List Nat) {t : State} (h : State.reachAll s a1 a2 = .ok t)
    : Keeps s t := by
  refine Keeps.foldE (fun t a u h => ?_) _ _ _ h
  split at h
  · injection h
  · injection h with h; subst h; exact .refl _

theorem applyYield_keeps (a0 : Nat) (a1 : Nat) (a2 : Nat) (a3 : Yield) (s : State) {t : State} (h : applyYield a0 a1
    a2 a3 s = .ok t) : Keeps s t := by
  unfold applyYield at h
  extract_lets c at h
  split at h
  · injection h
  · rename_i s1 h1
    split at h
    · injection h
    · rename_i s2 h2
      split at h
      · injection h
      · rename_i s3 h3
        injection h with h; subst h
        have k3 : Keeps s2 s3 := Keeps.foldE (fun t p u hu => State.accumulate_keeps _ _ _ _ _ hu) _ _ _ h3
        exact ((State.reachAll_keeps _ _ _ h1).trans ((State.store_keeps _ _ _ h2).trans k3)).trans
          (((State.touchAll_keeps _ _ _ _).trans (State.touchAll_keeps _ _ _ _)).trans
            ((State.modRun_keeps _ _ _).trans (State.modInst_keeps _ _ _ _)))

theorem readySound_keeps (a0 : Nat) (a1 : Nat) (a2 : Nat) (a3 : Accs) (s : State) : Keeps s (readySound a0 a1 a2 a3
    s) := by
  unfold readySound
  grind only [Keeps.trans, Keeps.refl, State.modRun_keeps, Keeps.forEach]

theorem finishProb_keeps (a0 : Nat) (a1 : Nat) (a2 : Nat) (a3 : Nat) (a4 : ProbOps) (a5 : Work) (s : State) : Keeps
    s (finishProb a0 a1 a2 a3 a4 a5 s) := by
  unfold finishProb
  extract_lets i
  split
  · exact .refl _
  · split
    · exact itemFault_keeps _ _ _ _ _
    · split
      · exact itemFault_keeps _ _ _ _ _
      · rename_i h
        exact (applyYield_keeps _ _ _ _ _ h).trans (((State.modCore_keeps _ _ _).trans
          (State.modMxe_keeps _ _ _)).trans ((readySound_keeps _ _ _ _ _).trans (finishCounted_keeps _ _ _ _ _ _ _
              _)))

theorem execChunkFillDone_answers (a0 : Nat) (a1 : Bool) (a2 : BitVec 288) (s : State) : Answers s
    (execChunkFillDone a0 a1 a2 s) := by
  unfold execChunkFillDone
  grind only [Keeps.trans, Keeps.refl, addCycles_keeps, itemFault_keeps, State.modInst_keeps, Answers.next,
      Keeps.forEach]

theorem dispatchWork_keeps (a0 : Nat) (a1 : Op) (s : State) : Keeps s (dispatchWork a0 a1 s) := by
  unfold dispatchWork
  grind only [Keeps.trans, Keeps.refl, faultRun_keeps, advance_keeps, State.modRun_keeps, overflowRun_keeps,
      Keeps.forEach]

theorem execProb_answers (a0 : Nat) (a1 : ProbOps) (s : State) : Answers s (execProb a0 a1 s) := by
  unfold execProb
  grind only [Keeps.trans, Keeps.refl, dispatchWork_keeps, Answers.next, Keeps.forEach]

/-! ### Machine/Rows.lean -/

theorem execRowDone_answers (a0 : Nat) (a1 : Finish) (s : State) : Answers s (execRowDone a0 a1 s)
    := by
  unfold execRowDone
  refine .next ?_
  split
  · exact .refl _
  · extract_lets
    split
    · split
      · exact itemFault_keeps _ _ _ _ _
      · split
        · exact itemFault_keeps _ _ _ _ _
        · split
          · exact itemFault_keeps _ _ _ _ _
          · rename_i h
            exact (applyYield_keeps _ _ _ _ _ h).trans ((State.modCore_keeps _ _ _).trans
              (finishCounted_keeps _ _ _ _ _ _ _ _))
    · exact .refl _

theorem execRowop_answers (a0 : Nat) (a1 : RowOps) (s : State) : Answers s (execRowop a0 a1 s) := by
  unfold execRowop
  grind only [Keeps.trans, Keeps.refl, dispatchWork_keeps, Answers.next, Keeps.forEach]

/-! ### Machine/Attention.lean -/

theorem execAttnShareDone_answers (a0 : Nat) (a1 : Nat) (s : State) : Answers s (execAttnShareDone a0 a1 s) := by
  unfold execAttnShareDone
  refine .next ?_
  split
  · exact .refl _
  · extract_lets i
    split
    · split
      · exact .refl _
      · split
        · exact itemFault_keeps _ _ _ _ _
        · exact ((State.modCore_keeps _ _ _).trans (addCycles_keeps _ _ _ _)).trans
            ((State.modMxe_keeps _ _ _).trans (State.modInst_keeps _ _ _ _))
    · exact .refl _

theorem finishAttn_keeps (a0 : Nat) (a1 : Nat) (a2 : Nat) (a3 : Nat) (a4 : AttnOps) (a5 : Work) (s : State) : Keeps
    s (finishAttn a0 a1 a2 a3 a4 a5 s) := by
  unfold finishAttn
  extract_lets i
  split
  · exact .refl _
  · split
    · exact itemFault_keeps _ _ _ _ _
    · dsimp only
      split
      · exact itemFault_keeps _ _ _ _ _
      · rename_i h
        exact (applyYield_keeps _ _ _ _ _ h).trans (((State.modCore_keeps _ _ _).trans
          (addCycles_keeps _ _ _ _)).trans ((State.modMxe_keeps _ _ _).trans (finishItem_keeps _ _ _ _)))

theorem execTileDone_answers (a0 : Nat) (a1 : Nat) (a2 : BitVec 288) (s : State) : Answers s (execTileDone a0 a1 a2
    s) := by
  unfold execTileDone
  grind only [Keeps.trans, Keeps.refl, itemFault_keeps, finishProb_keeps, finishAttn_keeps, Answers.next,
      Keeps.forEach]

theorem execAttn_answers (a0 : Nat) (a1 : AttnOps) (s : State) : Answers s (execAttn a0 a1 s) := by
  unfold execAttn
  grind only [Keeps.trans, Keeps.refl, dispatchWork_keeps, Answers.next, Keeps.forEach]

/-! ### Machine/Stripes.lean -/

theorem execStripeDone_answers (a0 : Nat) (a1 : Finish) (s : State) :
    Answers s (execStripeDone a0 a1 s) := by
  unfold execStripeDone
  refine .next ?_
  split
  · exact .refl _
  · extract_lets i
    split
    · extract_lets
      split
      · exact itemFault_keeps _ _ _ _ _
      · split
        · exact itemFault_keeps _ _ _ _ _
        · split
          · exact itemFault_keeps _ _ _ _ _
          · rename_i h
            exact (applyYield_keeps _ _ _ _ _ h).trans (((State.modCluster_keeps _ _ _).trans
              (State.modCore_keeps _ _ _)).trans
              ((State.modInst_keeps _ _ _ _).trans (finishCounted_keeps _ _ _ _ _ _ _ _)))
    · exact .refl _

theorem execStripe_answers (a0 : Nat) (a1 : StripeOps) (s : State) : Answers s (execStripe a0 a1 s) := by
  unfold execStripe
  grind only [Keeps.trans, Keeps.refl, dispatchWork_keeps, Answers.next, Keeps.forEach]

/-! ### Machine/Movement.lean -/

theorem putWords_keeps (a0 : Ctx) (a1 : List (AccDecl × Nat × Nat)) (s : State) : Keeps s (putWords a0 a1 s) := by
  unfold putWords
  grind only [Keeps.trans, Keeps.refl, State.accWrite_keeps, Keeps.forEach]

theorem holdRemote_keeps (a0 : Nat) (a1 : Nat) (a2 : Nat) (a3 : Tensor) (a4 : Stores) (s : State) : Keeps s (holdRemote a0
    a1 a2 a3 a4 s) := by
  unfold holdRemote
  grind only [Keeps.trans, Keeps.refl, State.modRun_keeps, Keeps.forEach]

theorem execPeelBatchDone_answers (a0 : Nat) (a1 : Finish) (s : State) :
    Answers s (execPeelBatchDone a0 a1 s) := by
  unfold execPeelBatchDone
  refine .next ?_
  split
  · exact .refl _
  · extract_lets
    split
    · extract_lets
      split
      · exact .refl _
      · split
        · exact itemFault_keeps _ _ _ _ _
        · split
          · exact itemFault_keeps _ _ _ _ _
          · dsimp only
            split
            · exact itemFault_keeps _ _ _ _ _
            · rename_i h
              refine (applyYield_keeps _ _ _ _ _ h).trans ?_
              refine Keeps.trans ?_ ((addCycles_keeps _ _ _ _).trans (finishItem_keeps _ _ _ _))
              split
              · exact holdRemote_keeps _ _ _ _ _ _
              · exact putWords_keeps _ _ _
    · exact .refl _

theorem execAtom_answers (a0 : Nat) (a1 : AtomOps) (s : State) : Answers s (execAtom a0 a1 s) := by
  unfold execAtom
  extract_lets r
  refine .next (dispatch_keeps _ _ _ (fun t u h => ?_) _)
  extract_lets c at h
  split at h
  · split at h
    · injection h
    · rename_i v hv
      refine Keeps.trans (t := v) ?_ (hold_keeps _ _ _ _ _ h)
      split at hv
      · injection hv with hv; subst hv; exact .refl _
      · exact State.reachAll_keeps _ _ _ hv
  · split at h
    · injection h
    · extract_lets at h
      split at h
      · injection h
      · split at h
        · injection h
        · split at h
          · injection h
          · split at h
            · injection h
            · rename_i hv
              exact (State.reachAll_keeps _ _ _ hv).trans (hold_keeps _ _ _ _ _ h)

theorem execPeel_answers (a0 : Nat) (a1 : PeelOps) (s : State) : Answers s (execPeel a0 a1 s) := by
  unfold execPeel
  grind only [Keeps.trans, Keeps.refl, dispatchWork_keeps, Answers.next, Keeps.forEach]

/-! ### Machine/Commit.lean -/

theorem State.modEpochs_keeps (s : State) (a1 : Nat) (a2 : Epochs → Epochs) : Keeps s (State.modEpochs s a1 a2) :=
    by
  unfold State.modEpochs
  grind only [Keeps.trans, Keeps.refl, State.modBerth_keeps, Keeps.forEach]

theorem State.spotWrite_keeps (s : State) (a1 : Nat) (a2 : Nat) (a3 : Locus) (a4 : List Byte) : Keeps s
    (State.spotWrite s a1 a2 a3 a4) := by
  unfold State.spotWrite
  dsimp only
  split
  · exact ((State.merged_keeps _ _).trans (State.merged_keeps _ _)).trans ((Keeps.setMem _ _ (fun h => Memory.wf_wrBytes h _ _)).trans
      (State.modPage_keeps _ _ _ _))
  · exact (State.allot_keeps _ _ _).trans (Keeps.setMoor _ _ (fun h => Memory.wf_wrBytes h _ _))
  · exact .refl _

theorem State.slotTouch_keeps (s : State) (l : Locus) (store : Bool) : Keeps s (s.slotTouch l store) := by
  unfold State.slotTouch
  grind only [Keeps.trans, Keeps.refl, State.touch_keeps, State.modHarbour_keeps, Keeps.forEach]

theorem State.setMark_keeps (s : State) (a1 : Nat) (a2 : Locus) (a3 : UnitSt) : Keeps s (State.setMark s a1 a2 a3)
    := by
  unfold State.setMark
  split
  · exact Keeps.setUnits _ _ (fun h => tblWf_put _ _ _ _ h)
  · exact Keeps.setMoorUnits _ _ (fun h => tblWf_put _ _ _ _ h)
  · exact .refl _

theorem State.pokeUnit_keeps (s : State) (a1 : Nat) (a2 : Nat) (a3 : List Byte) : Keeps s (State.pokeUnit s a1 a2
    a3).2 := by
  unfold State.pokeUnit
  dsimp only
  split
  · exact ((State.setMark_keeps _ _ _ _).trans (State.spotWrite_keeps _ _ _ _ _)).trans (State.slotTouch_keeps _ _
      _)
  · split
    · exact (State.spotWrite_keeps _ _ _ _ _).trans (State.slotTouch_keeps _ _ _)
    · exact .refl _
    · exact .refl _

theorem dropEffect_keeps (a0 : Nat) (a1 : Nat) (a2 : Nat) (s : State) : Keeps s (dropEffect a0 a1 a2 s) := by
  unfold dropEffect
  grind only [Keeps.trans, Keeps.refl, State.modRun_keeps, State.modQueue_keeps, makeRecord_keeps, Keeps.forEach]

theorem sendRemote_keeps (a0 : Nat) (s : State) : Keeps s (sendRemote a0 s) := by
  unfold sendRemote
  grind only [Keeps.trans, Keeps.refl, State.modRun_keeps, request_keeps, Keeps.forEach]

theorem applySignal_keeps (a0 : Bool) (a1 : Nat) (a2 : Nat) (a3 : Bool) (s : State) : Keeps s (applySignal a0 a1 a2
    a3 s) := by
  unfold applySignal
  grind only [Keeps.trans, Keeps.refl, State.setSync_keeps, raiseVector_keeps, Keeps.forEach]

theorem State.countAtom_keeps (s : State) (a1 : Locus) : Keeps s (State.countAtom s a1) := by
  unfold State.countAtom
  grind only [Keeps.trans, Keeps.refl, State.modHarbour_keeps, Keeps.forEach]

theorem State.atomWrite_keeps (s : State) (a1 : Nat) (a2 : Nat) (a3 : Nat) (a4 : Nat) (a5 : Nat) (a6 : Nat) : Keeps s
    (State.atomWrite s a1 a2 a3 a4 a5 a6) := by
  unfold State.atomWrite
  grind only [Keeps.trans, Keeps.refl, State.spotWrite_keeps, Keeps.forEach]

theorem State.atomAt_keeps (s : State) (a1 : Nat) (a2 : Nat) (a3 : Nat) (a4 : Nat) (a5 : Nat) (a6 : Nat) : Keeps s (State.atomAt
    s a1 a2 a3 a4 a5 a6).2 := by
  unfold State.atomAt
  grind only [Keeps.trans, Keeps.refl, State.atomWrite_keeps, State.slotTouch_keeps, Keeps.forEach]

theorem State.poke_keeps (s : State) (a1 : Nat) (a2 : Nat) (a3 : List Byte) : Keeps s (State.poke s a1 a2 a3).2 :=
    by
  unfold State.poke
  exact Keeps.foldl (fun acc : Bool × State => acc.2)
    (f := fun acc (p : Nat × List Byte) => let r := acc.2.pokeUnit a1 p.1 p.2; (acc.1 && r.1, r.2))
    (fun acc p => State.pokeUnit_keeps acc.2 a1 p.1 p.2) _ (true, s)

theorem recordSpot_keeps (a0 : Nat) (a1 : Nat) (s : State) : Keeps s (recordSpot a0 a1 s) := by
  unfold recordSpot
  grind only [Keeps.trans, Keeps.refl, recordStore_keeps, Keeps.forEach]

theorem execHarbourOpApply_answers (a0 : Nat) (s : State) : Answers s (execHarbourOpApply a0 s) := by
  unfold execHarbourOpApply
  grind only [Keeps.trans, Keeps.refl, State.modRun_keeps, State.atomAt_keeps, State.countAtom_keeps,
      dropEffect_keeps, recordSpot_keeps, State.atomWrite_keeps, State.slotTouch_keeps, Answers.next, Keeps.forEach]

theorem releaseRun_keeps (a0 : Nat) (s : State) : Keeps s (releaseRun a0 s) := by
  unfold releaseRun
  grind only [Keeps.trans, Keeps.refl, freeScratch_keeps, stopEngines_keeps, returnTray_keeps, Keeps.forEach]

theorem finishCommit_keeps (a0 : Nat) (s : State) : Keeps s (finishCommit a0 s) := by
  unfold finishCommit
  grind only [Keeps.trans, Keeps.refl, applyClears_keeps, releaseRun_keeps, State.modBerth_keeps,
      State.setRun_keeps, State.modQueue_keeps, settle_keeps, raiseVector_keeps, Keeps.forEach]

theorem applySeven_keeps (a0 : Bool) (a1 : Held) (s : State) : Keeps s (applySeven a0 a1 s) := by
  unfold applySeven
  grind only [Keeps.trans, Keeps.refl, setTail_keeps, applySignal_keeps, Keeps.forEach]

theorem applySound_keeps (a0 : Nat) (a1 : SndRes) (s : State) : Keeps s (applySound a0 a1 s) := by
  unfold applySound
  grind only [Keeps.trans, Keeps.refl, State.modSlot_keeps, State.modQueue_keeps, Keeps.forEach]

theorem applyEvents_keeps (a0 : Nat) (s : State) : Keeps s (applyEvents a0 s) := by
  unfold applyEvents
  grind only [Keeps.trans, Keeps.refl, State.modQueue_keeps, applySound_keeps, State.modSlot_keeps,
      State.modGroup_keeps, State.modBerth_keeps, Keeps.forEach]

theorem epochErr_keeps (a0 : Nat) (a1 : Nat) (a2 : Nat) (s : State) : Keeps s (epochErr a0 a1 a2 s) := by
  unfold epochErr
  grind only [Keeps.trans, Keeps.refl, State.modEpochs_keeps, Keeps.forEach]

theorem State.setWset_keeps (s : State) (a1 : Nat) (a2 : Nat) (a3 : WSet) : Keeps s (State.setWset s a1 a2 a3) := by
  unfold State.setWset
  grind only [Keeps.trans, Keeps.refl, State.modEpochs_keeps, Keeps.forEach]

theorem epochPublish_keeps (a0 : Nat) (a1 : Nat) (a2 : Nat) (s : State) : Keeps s (epochPublish a0 a1 a2 s) := by
  unfold epochPublish
  grind only [Keeps.trans, Keeps.refl, State.take_keeps, State.setWset_keeps, epochErr_keeps, Keeps.forEach]

theorem dropAcq_keeps (a0 : Nat) (a1 : Nat × Nat → Bool) (s : State) : Keeps s (dropAcq a0 a1 s) := by
  unfold dropAcq
  grind only [Keeps.trans, Keeps.refl, State.modQueue_keeps, Keeps.forEach]

theorem epochRelease_keeps (a0 : Nat) (a1 : Nat) (a2 : Nat) (s : State) : Keeps s (epochRelease a0 a1 a2 s) := by
  unfold epochRelease
  grind only [Keeps.trans, Keeps.refl, epochErr_keeps, dropAcq_keeps, State.setWset_keeps, Keeps.forEach]

theorem epochAcquire_keeps (a0 : Nat) (a1 : Nat) (a2 : Nat) (s : State) : Keeps s (epochAcquire a0 a1 a2 s) := by
  unfold epochAcquire
  grind only [Keeps.trans, Keeps.refl, epochErr_keeps, State.setWset_keeps, State.modQueue_keeps, Keeps.forEach]

theorem retire_keeps (a0 : Nat) (a1 : Nat) (s : State) : Keeps s (retire a0 a1 s) := by
  unfold retire
  grind only [Keeps.trans, Keeps.refl, State.setWset_keeps, State.modEpochs_keeps, State.modQueue_keeps,
      Keeps.forEach]

theorem applyEpochs_keeps (a0 : Nat) (s : State) : Keeps s (applyEpochs a0 s) := by
  unfold applyEpochs
  extract_lets r es step t u
  have hs : ∀ acc e, Keeps acc.1 (step acc e).1 := by
    intro acc e
    unfold step
    dsimp only
    split
    · exact (epochAcquire_keeps _ _ _ _).trans (retire_keeps _ _ _)
    · split
      · exact (epochRelease_keeps _ _ _ _).trans (retire_keeps _ _ _)
      · exact (epochPublish_keeps _ _ _ _).trans (retire_keeps _ _ _)
  have ht : Keeps s t := Keeps.foldl (fun acc : State × List (Nat × Nat × Bool) => acc.1) hs es (s, r.samples)
  exact (ht.trans (dropSamples_keeps _ _)).trans (Keeps.forEach (fun k x => retire_keeps _ _ _) _ _)

theorem applyFour_keeps (a0 : Nat) (a1 : Held) (s : State) : Keeps s (applyFour a0 a1 s) := by
  unfold applyFour
  grind only [Keeps.trans, Keeps.refl, requestMig_keeps, State.poke_keeps, dropEffect_keeps, recordSpot_keeps,
      Keeps.forEach]

theorem execCommitRemoteDone_answers (a0 : Nat) (s : State) : Answers s (execCommitRemoteDone a0 s) := by
  unfold execCommitRemoteDone
  grind only [Keeps.trans, Keeps.refl, applyFour_keeps, applyEpochs_keeps, applyEvents_keeps, applySeven_keeps,
      finishCommit_keeps, Answers.next, Keeps.forEach]

theorem execCommitAtomicsDone_answers (a0 : Nat) (s : State) : Answers s (execCommitAtomicsDone a0 s) := by
  unfold execCommitAtomicsDone
  grind only [Keeps.trans, Keeps.refl, sendRemote_keeps, State.modRun_keeps, Answers.next, Keeps.forEach]

theorem commitWords_keeps (a0 : Nat) (s : State) : Keeps s (commitWords a0 s) := by
  unfold commitWords
  extract_lets b mine t
  have ht : Keeps s t := by
    refine Keeps.forEach (fun p x => ?_) _ _
    dsimp only
    split
    · exact .refl _
    · exact Keeps.setTrays _ _ (fun h => Memory.wf_wrBytes h _ _)
  exact ht.trans (State.modBerth_keeps _ _ _)

theorem execCommitStoresAcked_answers (a0 : Nat) (s : State) : Answers s (execCommitStoresAcked a0 s) := by
  unfold execCommitStoresAcked
  grind only [Keeps.trans, Keeps.refl, State.modRun_keeps, commitWords_keeps, Answers.next, Keeps.forEach]

theorem execCommitBegin_answers (a0 : Nat) (s : State) : Answers s (execCommitBegin a0 s) := by
  unfold execCommitBegin
  grind only [Keeps.trans, Keeps.refl, State.modRun_keeps, State.modQueue_keeps, Answers.next, Keeps.forEach]

theorem execSynValueWrite_answers (a0 : Nat) (a1 : Nat) (s : State) : Answers s (execSynValueWrite a0 a1 s) := by
  unfold execSynValueWrite
  grind only [Keeps.trans, Keeps.refl, State.modSync_keeps, Answers.next, Keeps.forEach]

end Sys2Proof.Machine
end

