-- ==== Sys2Proof/Laws/KeepsPart.lean ====
section
/-! SUPPORT. What no command undoes (Laws/Keeps.lean), for every operation on memories, the Causeway, Longshore,
codec jobs, power, boot, berths and fences: one lemma per operation; for a meaning, that it answers a next state as
well. -/
namespace Sys2Proof.Machine

/-! ### Machine/Stacks.lean -/

theorem State.mapEntry_keeps (s : State) (a1 : Nat) (a2 : Option (Nat × Nat)) : Keeps s (State.mapEntry s a1 a2) := by
  unfold State.mapEntry
  grind only [Keeps.trans, Keeps.refl, State.modShelf_same, Keeps.forEach]

theorem dropCopy_keeps (a0 : Nat) (s : State) : Keeps s (dropCopy a0 s) := by
  unfold dropCopy
  grind only [Keeps.trans, Keeps.refl, State.mapEntry_keeps, State.setBlock_keeps, Keeps.forEach]

theorem keepMark_keeps (a0 : Nat) (a1 : Nat) (s : State) : Keeps s (keepMark a0 a1 s) := by
  unfold keepMark
  grind only [Keeps.trans, Keeps.refl, State.modTrec_same, Keeps.forEach]

theorem pinMarkWrite_keeps (a0 : Nat) (a1 : Nat) (a2 : Nat) (s : State) : Keeps s (pinMarkWrite a0 a1 a2 s) := by
  unfold pinMarkWrite
  grind only [Keeps.trans, Keeps.refl, keepMark_keeps, State.modChan_keeps, Keeps.forEach]

theorem programInto_keeps (a0 : Nat) (a1 : Nat) (s : State) : Keeps s (programInto a0 a1 s) := by
  unfold programInto
  grind only [Keeps.trans, Keeps.refl, dropCopy_keeps, State.setBlock_keeps, State.modShelf_same,
      State.mapEntry_keeps, Keeps.forEach]

theorem wakeFlash_keeps (a0 : Nat) (s : State) : Keeps s (wakeFlash a0 s) := by
  unfold wakeFlash
  grind only [Keeps.trans, Keeps.refl, State.modTwc_keeps, Keeps.forEach]

theorem programUnit_keeps (a0 : Bool) (a1 : Nat) (s : State) : Keeps s (programUnit a0 a1 s) := by
  unfold programUnit
  grind only [Keeps.trans, Keeps.refl, wakeFlash_keeps, State.modShelf_same, programInto_keeps, Keeps.forEach]

theorem undelivered_keeps (u : Nat) (s : State) : Keeps s (undelivered u s) :=
  .same rfl rfl rfl rfl rfl rfl rfl rfl rfl rfl rfl

theorem readUnit_keeps (a0 : Nat) (s : State) : Keeps s (readUnit a0 s) := by
  unfold readUnit
  grind only [Keeps.trans, Keeps.refl, wakeFlash_keeps, State.setBlock_keeps, Keeps.forEach]

theorem shelfFlags_keeps (s : State) : Keeps s (shelfFlags s) := by
  unfold shelfFlags
  grind only [Keeps.trans, Keeps.refl, State.modShelf_same, makeRecord_keeps, Keeps.forEach]

theorem rebuildMap_keeps (s : State) : Keeps s (rebuildMap s) := by
  unfold rebuildMap
  grind only [Keeps.trans, Keeps.refl, State.modShelf_same, shelfFlags_keeps, dropCopy_keeps, Keeps.forEach]

theorem execPinMarkWrite_answers (a0 : Nat) (a1 : Nat) (a2 : Nat) (s : State) : Answers s (execPinMarkWrite a0 a1 a2
    s) := by
  unfold execPinMarkWrite
  grind only [Keeps.trans, Keeps.refl, pinMarkWrite_keeps, Answers.next, Keeps.forEach]

theorem execTrayRestoreDone_answers (a0 : Nat) (a1 : Nat) (s : State) : Answers s (execTrayRestoreDone a0 a1 s) :=
    by
  unfold execTrayRestoreDone
  extract_lets y
  split
  · split
    · exact .next ((Keeps.setTrays s _ (fun h => Memory.wf_wrBytes (Memory.wf_zeroBytes h _ _) _ _)).trans
        ((Keeps.forEach (fun _ _ => dropCopy_keeps _ _) _ _).trans
          ((State.modTray_keeps _ _ _ _).trans (settle_keeps _))))
    · exact .next (.refl _)
  · exact .next (.refl _)

theorem parkTray_keeps (a0 : Nat) (a1 : Nat) (s : State) : Keeps s (parkTray a0 a1 s) := by
  unfold parkTray
  exact (Keeps.setTrays s _ (fun h => Memory.wf_wrBytes (Memory.wf_zeroBytes h _ _) _ _)).trans
    ((State.modTray_keeps _ _ _ _).trans
      ((Keeps.forEach (fun _ _ => programUnit_keeps _ _ _) _ _).trans (shelfFlags_keeps _)))

theorem copyPage_keeps (a0 : Nat) (a1 : Nat) (s : State) : Keeps s (copyPage a0 a1 s) := by
  unfold copyPage
  extract_lets a d dead marks read bytes t clean mem u w
  have h0 : Keeps s t := by
    refine Keeps.forEach (fun x y => ?_) _ _
    exact Keeps.ite (recordUe_keeps _ _ _ _ _) (.refl _)
  have hu : Keeps t u := .same rfl rfl rfl rfl rfl rfl rfl rfl rfl rfl rfl
  have hc : tblWf .good u.units = true → tblWf .good clean = true := fun h => tblWf_drop _ _ _ h
  have hm : Memory.wf u.mem = true → Memory.wf mem = true := fun h => Memory.wf_zeroBytes h _ _
  refine (h0.trans hu).trans ?_
  split
  · exact Keeps.setMemUnits _ _ _ hm (fun h => tblWf_foldl _ _ (fun _ _ h => tblWf_put _ _ _ _ h) _ _ (hc h))
  · have h1 : Keeps u w := Keeps.setMemUnits _ _ _
      (fun h => tblWf_foldl _ _ (fun _ _ h => Memory.wf_wrByte h _ _) _ _ (hm h))
      (fun h => tblWf_foldl _ _ (fun _ _ h => tblWf_put _ _ _ _ h) _ _ (hc h))
    exact h1.trans (Keeps.setMem w _
      (fun h => tblWf_foldl _ _ (fun _ _ h => Memory.wf_zeroBytes h _ _) _ _ h))

theorem moveUnits_keeps (a0 : Nat) (a1 : Nat → State → Option Nat) (s : State) : Keeps s (moveUnits a0 a1 s) := by
  unfold moveUnits
  grind only [Keeps.trans, Keeps.refl, State.modShelf_same, programInto_keeps, Keeps.forEach]

theorem loseUnit_keeps (a0 : Nat) (s : State) : Keeps s (loseUnit a0 s) := by
  unfold loseUnit
  split
  · exact .refl _
  · extract_lets t a units u
    have h1 : Keeps s t := State.modShelf_same _ _ rfl
    have h2 : Keeps t u := Keeps.setMemUnits _ _ _ (fun h => Memory.wf_zeroBytes h _ _)
      (fun h => tblWf_foldl _ _ (fun _ _ h => tblWf_put _ _ _ _ h) _ _ h)
    exact (h1.trans h2).trans (makeRecord_keeps _ _ _ _ _)

theorem execShelfRelocate_answers (a0 : Nat) (a1 : Bool) (a2 : List Nat) (s : State) : Answers s (execShelfRelocate
    a0 a1 a2 s) := by
  unfold execShelfRelocate
  grind only [Keeps.trans, Keeps.refl, loseUnit_keeps, dropCopy_keeps, moveUnits_keeps, shelfFlags_keeps,
      State.setBlock_keeps, Answers.next, Keeps.forEach]

theorem execGarbageCollect_answers (a0 : Nat) (s : State) : Answers s (execGarbageCollect a0 s) := by
  unfold execGarbageCollect
  grind only [Keeps.trans, Keeps.refl, shelfFlags_keeps, State.setBlock_keeps, Answers.next, Keeps.forEach]

theorem execWearLevel_answers (s : State) : Answers s (execWearLevel s) := by
  unfold execWearLevel
  grind only [Keeps.trans, Keeps.refl, shelfFlags_keeps, moveUnits_keeps, Answers.next, Keeps.forEach]

theorem execShelfReadDone_answers (a0 : Nat) (a1 : Nat) (s : State) : Answers s (execShelfReadDone a0 a1 s) := by
  unfold execShelfReadDone
  grind only [Keeps.trans, Keeps.refl, State.modInst_keeps, readUnit_keeps, Answers.next, Keeps.forEach]

theorem shelfSide_keeps (a0 : Nat) (a1 : Nat) (s : State) : Keeps s (shelfSide a0 a1 s) := by
  unfold shelfSide
  grind only [Keeps.trans, Keeps.refl, readUnit_keeps, programUnit_keeps, dropCopy_keeps, Keeps.forEach]

theorem execMigrationDone_answers (a0 : Nat) (a1 : Nat) (s : State) : Answers s (execMigrationDone a0 a1 s) := by
  unfold execMigrationDone
  grind only [Keeps.trans, Keeps.refl, State.modPage_keeps, State.modBerth_keeps, makeRecord_keeps, startMig_keeps,
      State.modHalf_keeps, copyPage_keeps, shelfFlags_keeps, shelfSide_keeps, Keeps.with, Answers.next,
      Keeps.forEach]

theorem countPin_keeps (a0 : Nat) (a1 : Nat) (a2 : Nat) (s : State) : Keeps s (countPin a0 a1 a2 s) := by
  unfold countPin
  grind only [Keeps.trans, Keeps.refl, State.modChan_keeps, makeRecord_keeps, keepMark_keeps, Keeps.forEach]

theorem countCorrected_keeps (a0 : Nat) (a1 : Nat) (a2 : List Nat) (s : State) : Keeps s (countCorrected a0 a1 a2 s)
    := by
  unfold countCorrected
  grind only [Keeps.trans, Keeps.refl, State.modChan_keeps, countPin_keeps, Keeps.forEach]

theorem deliver_keeps (u source : Nat) (d : List Byte) (corrected : Bool) (s : State) :
    Keeps s (deliver u source d corrected s) := by
  unfold deliver
  dsimp only
  split
  · exact (Keeps.setMem s _ (fun h => Memory.wf_wrBytes h _ _)).trans
      (.same rfl rfl rfl rfl rfl rfl rfl rfl rfl rfl rfl)
  · exact .same rfl rfl rfl rfl rfl rfl rfl rfl rfl rfl rfl

theorem channelReturn_keeps (a0 : Nat) (a1 : Nat) (a2 : Nat) (a3 : Nat) (a4 : BitVec 288) (s : State) : Keeps s
    (channelReturn a0 a1 a2 a3 a4 s) := by
  unfold channelReturn
  grind only [Keeps.trans, Keeps.refl, deliver_keeps, countCorrected_keeps, State.modChan_keeps, undelivered_keeps,
      Keeps.forEach]

theorem execScrubRead_answers (a0 : Nat) (a1 : Nat) (a2 : Nat) (a3 : BitVec 288) (s : State) : Answers s
    (execScrubRead a0 a1 a2 a3 s) := by
  unfold execScrubRead
  grind only [Keeps.trans, Keeps.refl, channelReturn_keeps, Answers.next, Keeps.forEach]

theorem execRefresh_answers (a0 : Nat) (a1 : Nat) (s : State) : Answers s (execRefresh a0 a1 s) := by
  unfold execRefresh
  grind only [Keeps.trans, Keeps.refl, State.modChan_keeps, Answers.next, Keeps.forEach]

theorem execPinCountClear_answers (a0 : Nat) (a1 : Nat) (s : State) : Answers s (execPinCountClear a0 a1 s) := by
  unfold execPinCountClear
  grind only [Keeps.trans, Keeps.refl, State.modChan_keeps, Answers.next, Keeps.forEach]

theorem retirePage_keeps (a0 : Nat) (a1 : Nat) (s : State) : Keeps s (retirePage a0 a1 s) := by
  unfold retirePage
  split
  · exact .refl _
  · extract_lets half tier spare short t u
    have h0 : Keeps s u :=
      (State.modTrec_keeps s _ (fun x p hp => List.mem_append_left _ hp)).trans (makeRecord_keeps _ _ _ _ _)
    have hs : ∀ x, Keeps x (short x) := fun x => makeRecord_keeps _ _ _ _ _
    split
    · exact h0.trans (State.modBerth_keeps _ _ _)
    · exact h0.trans (hs _)
    · split
      · exact h0
      · extract_lets leaving h w
        split
        · exact h0
        · split
          · exact h0.trans (hs _)
          · exact h0.trans ((State.modBerth_keeps _ _ _).trans ((State.modHalf_keeps _ _ _).trans
              (startMig_keeps _ _)))

theorem markUe_keeps (a0 : Nat) (a1 : Nat) (s : State) : Keeps s (markUe a0 a1 s) := by
  unfold markUe
  extract_lets p known t u now recent again v
  have h0 : Keeps s t := recordUe_keeps _ _ _ _ _
  split
  · exact h0
  · have hu : Keeps t u := Keeps.setUnits _ _ (fun h => tblWf_put _ _ _ _ h)
    have hv : Keeps s v := (h0.trans hu).trans (State.modStack_keeps _ _ _)
    split
    · exact hv.trans (Keeps.forEach (fun x y => retirePage_keeps _ _ _) _ _)
    · exact hv

theorem execUeRereadDone_answers (a0 : Nat) (a1 : Nat) (a2 : Nat) (a3 : BitVec 288) (s : State) : Answers s
    (execUeRereadDone a0 a1 a2 a3 s) := by
  unfold execUeRereadDone
  grind only [Keeps.trans, Keeps.refl, State.modChan_keeps, countCorrected_keeps, deliver_keeps, markUe_keeps,
      Answers.next, Keeps.forEach]

theorem execStackReadDone_answers (a0 : Nat) (a1 : Nat) (a2 : Nat) (a3 : Nat) (a4 : BitVec 288) (s : State) :
    Answers s (execStackReadDone a0 a1 a2 a3 a4 s) := by
  unfold execStackReadDone
  grind only [Keeps.trans, Keeps.refl, channelReturn_keeps, Answers.next, Keeps.forEach]

/-! ### Machine/Causeway.lean -/

theorem reroute_keeps (a0 : Nat) (s : State) : Keeps s (reroute a0 s) := by
  unfold reroute
  grind only [Keeps.trans, Keeps.refl, State.modPort_keeps, route_keeps, Keeps.forEach]

theorem portOff_keeps (a0 : Nat) (s : State) : Keeps s (portOff a0 s) := by
  unfold portOff
  grind only [Keeps.trans, Keeps.refl, reroute_keeps, State.modPort_keeps, Keeps.forEach]

theorem drainPort_keeps (a0 : Nat) (s : State) : Keeps s (drainPort a0 s) := by
  unfold drainPort
  grind only [Keeps.trans, Keeps.refl, State.modPort_keeps, portOff_keeps, Keeps.forEach]

theorem writeRoute_keeps (a0 : Nat) (s : State) : Keeps s (writeRoute a0 s) := by
  unfold writeRoute
  grind only [Keeps.trans, Keeps.refl, State.modCwy_keeps, Keeps.forEach]

theorem trainPort_keeps (a0 : Nat) (s : State) : Keeps s (trainPort a0 s) := by
  unfold trainPort
  grind only [Keeps.trans, Keeps.refl, State.modPort_keeps, Keeps.forEach]

theorem writeEnable_keeps (a0 : Nat) (a1 : Bool) (s : State) : Keeps s (writeEnable a0 a1 s) := by
  unfold writeEnable
  grind only [Keeps.trans, Keeps.refl, State.modPort_keeps, trainPort_keeps, drainPort_keeps, Keeps.forEach]

theorem sendLinkAck_keeps (a0 : Nat) (s : State) : Keeps s (sendLinkAck a0 s) := by
  unfold sendLinkAck
  grind only [Keeps.trans, Keeps.refl, State.emit_keeps, State.setPort_keeps, Keeps.forEach]

theorem arrive_keeps (a0 : Packet) (s : State) : Keeps s (arrive a0 s) := by
  unfold arrive
  grind only [Keeps.trans, Keeps.refl, State.modPort_keeps, sendLinkAck_keeps, Keeps.forEach]

theorem discard_keeps (a0 : Nat) (a1 : Packet) (s : State) : Keeps s (discard a0 a1 s) := by
  unfold discard
  grind only [Keeps.trans, Keeps.refl, countBad_keeps, arrive_keeps, Keeps.forEach]

theorem poisonRange_keeps (a0 : Nat) (a1 : Nat) (a2 : Nat) (s : State) : Keeps s (poisonRange a0 a1 a2 s) := by
  unfold poisonRange
  grind only [Keeps.trans, Keeps.refl, State.setMark_keeps, State.spotWrite_keeps, Keeps.forEach]

theorem execHolTimeout_answers (a0 : Nat) (a1 : Nat) (s : State) : Answers s (execHolTimeout a0 a1 s) := by
  unfold execHolTimeout
  grind only [Keeps.trans, Keeps.refl, State.modCwy_keeps, State.setPort_keeps, sendPort_keeps, Answers.next,
      Keeps.forEach]

theorem execTxnFree_answers (a0 : Nat) (a1 : Nat) (s : State) : Answers s (execTxnFree a0 a1 s) := by
  unfold execTxnFree
  grind only [Keeps.trans, Keeps.refl, sendWaiting_keeps, State.modCwy_keeps, Answers.next, Keeps.forEach]

theorem execFilterExpiry_answers (a0 : Nat) (a1 : Nat) (a2 : Nat) (a3 : Nat) (s : State) : Answers s
    (execFilterExpiry a0 a1 a2 a3 s) := by
  unfold execFilterExpiry
  grind only [Keeps.trans, Keeps.refl, State.modCwy_keeps, Answers.next, Keeps.forEach]

theorem dropOutst_keeps (a0 : Outst) (s : State) : Keeps s (dropOutst a0 s) := by
  unfold dropOutst
  grind only [Keeps.trans, Keeps.refl, State.modCwy_keeps, Keeps.forEach]

theorem deliverRead_keeps (a0 : Outst) (a1 : Nat) (a2 : Nat) (a3 : Nat) (a4 : List Byte) (a5 : Bool) (s : State) :
    Keeps s (deliverRead a0 a1 a2 a3 a4 a5 s) := by
  unfold deliverRead
  grind only [Keeps.trans, Keeps.refl, State.modInst_keeps, dropOutst_keeps, Keeps.forEach]

theorem deliverPoison_keeps (a0 : Outst) (a1 : Nat) (a2 : Nat) (a3 : Nat) (s : State) : Keeps s (deliverPoison a0 a1
    a2 a3 s) := by
  unfold deliverPoison
  grind only [Keeps.trans, Keeps.refl, deliverRead_keeps, Keeps.forEach]

theorem dropSent_keeps (a0 : Outst) (a1 : Nat) (a2 : Nat) (s : State) : Keeps s (dropSent a0 a1 a2 s) := by
  unfold dropSent
  grind only [Keeps.trans, Keeps.refl, State.modCwy_keeps, dropOutst_keeps, sendRemote_keeps, dropEffect_keeps,
      Keeps.forEach]

theorem execDeliveryTimeout_answers (a0 : Nat) (a1 : Nat) (s : State) : Answers s (execDeliveryTimeout a0 a1 s) :=
    by
  unfold execDeliveryTimeout
  grind only [Keeps.trans, Keeps.refl, dropSent_keeps, deliverPoison_keeps, dropOutst_keeps, Answers.next,
      Keeps.forEach]

theorem execResendTimeout_answers (a0 : Nat) (a1 : Nat) (s : State) : Answers s (execResendTimeout a0 a1 s) := by
  unfold execResendTimeout
  grind only [Keeps.trans, Keeps.refl, State.modCwy_keeps, route_keeps, Answers.next, Keeps.forEach]

theorem execReservedPacket_answers (a0 : Nat) (a1 : Packet) (s : State) : Answers s (execReservedPacket a0 a1 s) :=
    by
  unfold execReservedPacket
  grind only [Keeps.trans, Keeps.refl, countBad_keeps, arrive_keeps, Answers.next, Keeps.forEach]

theorem execPacketForward_answers (a0 : Nat) (a1 : Packet) (s : State) : Answers s (execPacketForward a0 a1 s) := by
  unfold execPacketForward
  grind only [Keeps.trans, Keeps.refl, route_keeps, arrive_keeps, Answers.next, Keeps.forEach]

theorem execNack_answers (a0 : Nat) (a1 : Packet) (s : State) : Answers s (execNack a0 a1 s) := by
  unfold execNack
  grind only [Keeps.trans, Keeps.refl, State.modCwy_keeps, arrive_keeps, dropSent_keeps, faultRun_keeps,
      dropOutst_keeps, deliverPoison_keeps, Answers.next, Keeps.forEach]

theorem execAck_answers (a0 : Nat) (a1 : Packet) (s : State) : Answers s (execAck a0 a1 s) := by
  unfold execAck
  grind only [Keeps.trans, Keeps.refl, arrive_keeps, sendRemote_keeps, dropOutst_keeps, Answers.next, Keeps.forEach]

theorem serve_keeps (half : Nat) (p : Packet) (n : Nat) (apply : Nat → State → Bool × State)
    (ha : ∀ b t, Keeps t (apply b t).2) (s : State) : Keeps s (serve half p n apply s) := by
  unfold serve
  extract_lets t
  have h0 : Keeps s t := arrive_keeps _ _
  refine h0.trans ?_
  split
  · exact route_keeps _ _ _
  · split
    · exact State.modCwy_keeps _ _
    · split
      · exact route_keeps _ _ _
      · rename_i b _
        have hb := ha b t
        split
        · exact .refl _
        · split
          rename_i ok u hu
          rw [hu] at hb
          split
          · exact hb.trans (route_keeps _ _ _)
          · exact hb.trans ((State.modCwy_keeps _ _).trans (route_keeps _ _ _))

theorem execDoorbell_answers (a0 : Nat) (a1 : Packet) (s : State) : Answers s (execDoorbell a0 a1 s) := by
  unfold execDoorbell
  grind only [Keeps.trans, Keeps.refl, serve_keeps, setTail_keeps, Answers.next, Keeps.forEach]

theorem execSignalSet_answers (a0 : Nat) (a1 : Packet) (s : State) : Answers s (execSignalSet a0 a1 s) := by
  unfold execSignalSet
  grind only [Keeps.trans, Keeps.refl, serve_keeps, applySignal_keeps, Answers.next, Keeps.forEach]

theorem execSignalAdd_answers (a0 : Nat) (a1 : Packet) (s : State) : Answers s (execSignalAdd a0 a1 s) := by
  unfold execSignalAdd
  grind only [Keeps.trans, Keeps.refl, serve_keeps, applySignal_keeps, Answers.next, Keeps.forEach]

theorem applyAtomic_keeps (a0 : Packet) (a1 : Nat) (s : State) : Keeps s (applyAtomic a0 a1 s).2 := by
  unfold applyAtomic
  grind only [Keeps.trans, Keeps.refl, State.atomAt_keeps, State.countAtom_keeps, Keeps.forEach]

theorem execAtomic_answers (a0 : Nat) (a1 : Packet) (s : State) : Answers s (execAtomic a0 a1 s) := by
  unfold execAtomic
  grind only [Keeps.trans, Keeps.refl, serve_keeps, applyAtomic_keeps, discard_keeps, Answers.next, Keeps.forEach]

theorem execReadResp_answers (a0 : Nat) (a1 : Packet) (s : State) : Answers s (execReadResp a0 a1 s) := by
  unfold execReadResp
  grind only [Keeps.trans, Keeps.refl, arrive_keeps, deliverPoison_keeps, deliverRead_keeps, Answers.next,
      Keeps.forEach]

theorem execRead_answers (a0 : Nat) (a1 : Packet) (s : State) : Answers s (execRead a0 a1 s) := by
  unfold execRead
  grind only [Keeps.trans, Keeps.refl, arrive_keeps, route_keeps, State.slotTouch_keeps, State.modCwy_keeps,
      Answers.next,
      Keeps.forEach]

theorem applyWrite_keeps (a0 : Packet) (a1 : Nat) (s : State) : Keeps s (applyWrite a0 a1 s).2 := by
  unfold applyWrite
  grind only [Keeps.trans, Keeps.refl, poisonRange_keeps, State.poke_keeps, Keeps.forEach]

theorem execWrite_answers (a0 : Nat) (a1 : Packet) (s : State) : Answers s (execWrite a0 a1 s) := by
  unfold execWrite
  grind only [Keeps.trans, Keeps.refl, serve_keeps, applyWrite_keeps, Answers.next, Keeps.forEach]

theorem execLinkAckTimer_answers (a0 : Nat) (s : State) : Answers s (execLinkAckTimer a0 s) := by
  unfold execLinkAckTimer
  grind only [Keeps.trans, Keeps.refl, sendLinkAck_keeps, Answers.next, Keeps.forEach]

theorem goDown_keeps (a0 : Nat) (s : State) : Keeps s (goDown a0 s) := by
  unfold goDown
  grind only [Keeps.trans, Keeps.refl, State.modPort_keeps, trainPort_keeps, reroute_keeps, Keeps.forEach]

theorem execLinkNak_answers (a0 : Nat) (a1 : Nat) (s : State) : Answers s (execLinkNak a0 a1 s) := by
  unfold execLinkNak
  grind only [Keeps.trans, Keeps.refl, State.modPort_keeps, goDown_keeps, State.emit_keeps, Answers.next,
      Keeps.forEach]

theorem execLinkAck_answers (a0 : Nat) (a1 : Nat) (a2 : Nat) (s : State) : Answers s (execLinkAck a0 a1 a2 s) := by
  unfold execLinkAck
  grind only [Keeps.trans, Keeps.refl, State.modPort_keeps, sendPort_keeps, Answers.next, Keeps.forEach]

theorem execCodewordUncorrectable_answers (a0 : Nat) (s : State) : Answers s (execCodewordUncorrectable a0 s) := by
  unfold execCodewordUncorrectable
  grind only [Keeps.trans, Keeps.refl, State.modPort_keeps, State.emit_keeps, Answers.next, Keeps.forEach]

theorem execAckStall_answers (a0 : Nat) (s : State) : Answers s (execAckStall a0 s) := by
  unfold execAckStall
  grind only [Keeps.trans, Keeps.refl, goDown_keeps, Answers.next, Keeps.forEach]

theorem execLaneLockLoss_answers (a0 : Nat) (a1 : Nat) (s : State) : Answers s (execLaneLockLoss a0 a1 s) := by
  unfold execLaneLockLoss
  grind only [Keeps.trans, Keeps.refl, goDown_keeps, State.modPort_keeps, Answers.next, Keeps.forEach]

theorem execPortTrained_answers (a0 : Nat) (a1 : Nat) (a2 : Nat) (s : State) : Answers s (execPortTrained a0 a1 a2
    s) := by
  unfold execPortTrained
  grind only [Keeps.trans, Keeps.refl, State.modPort_keeps, sendPort_keeps, Answers.next, Keeps.forEach]

theorem execRouteEntryWrite_answers (a0 : Nat) (s : State) : Answers s (execRouteEntryWrite a0 s) := by
  unfold execRouteEntryWrite
  grind only [Keeps.trans, Keeps.refl, writeRoute_keeps, Answers.next, Keeps.forEach]

theorem execPortDisable_answers (a0 : Nat) (s : State) : Answers s (execPortDisable a0 s) := by
  unfold execPortDisable
  grind only [Keeps.trans, Keeps.refl, writeEnable_keeps, Answers.next, Keeps.forEach]

theorem execPortEnable_answers (a0 : Nat) (s : State) : Answers s (execPortEnable a0 s) := by
  unfold execPortEnable
  grind only [Keeps.trans, Keeps.refl, writeEnable_keeps, Answers.next, Keeps.forEach]

/-! ### Machine/Longshore.lean -/

theorem tellRanks_keeps (a0 : Nat) (a1 : Nat) (a2 : Nat) (a3 : List Nat) (a4 : Packet → Packet) (s : State) : Keeps
    s (tellRanks a0 a1 a2 a3 a4 s) := by
  unfold tellRanks
  grind only [Keeps.trans, Keeps.refl, route_keeps, Keeps.forEach]

theorem State.modColl_keeps (s : State) (a1 : Nat) (a2 : Nat) (a3 : CollSt → CollSt) : Keeps s (State.modColl s a1
    a2 a3) := by
  unfold State.modColl
  grind only [Keeps.trans, Keeps.refl, State.modInst_keeps, Keeps.forEach]

theorem addSend_keeps (a0 : Nat) (a1 : Nat) (a2 : Nat) (a3 : Nat) (a4 : List Byte) (a5 : Option (Nat × Nat)) (a6 :
    Bool) (s : State) : Keeps s (addSend a0 a1 a2 a3 a4 a5 a6 s) := by
  unfold addSend
  grind only [Keeps.trans, Keeps.refl, State.modColl_keeps, Keeps.forEach]

theorem poisonUnit_keeps (a0 : Ctx) (a1 : Nat) (s : State) : Keeps s (poisonUnit a0 a1 s) := by
  unfold poisonUnit
  split
  · exact (State.merged_keeps _ _).trans
      (Keeps.setMemUnits _ _ _ (fun h => Memory.wf_wrBytes h _ _) (fun h => tblWf_put _ _ _ _ h))
  · exact Keeps.setMoorBoth _ _ _ (fun h => Memory.wf_wrBytes h _ _) (fun h => tblWf_put _ _ _ _ h)
  · exact .refl _

theorem State.takeSrc_keeps (s : State) (q : Nat) (t : Tensor) (e0 n : Nat) {r : List Byte × List Nat × State}
    (h : s.takeSrc q t e0 n = .ok r) : Keeps s r.2.2 := by
  unfold State.takeSrc at h
  split at h
  · injection h
  · extract_lets at h
    injection h with h; subst h
    exact State.touchAll_keeps _ _ _ _

theorem State.storeChunk_keeps (s : State) (a1 : Nat) (a2 : Nat) (a3 : Nat) (a4 : Nat) (a5 : List Byte) (a6 : List
    Nat) {t : State} (h : State.storeChunk s a1 a2 a3 a4 a5 a6 = .ok t) : Keeps s t := by
  unfold State.storeChunk at h
  extract_lets at h
  split at h
  · injection h
  · split at h
    · injection h
    · rename_i u hu
      have h0 : Keeps s u := State.store_keeps _ _ _ hu
      extract_lets at h
      split at h
      · injection h with h; subst h
        exact h0.trans (State.touchAll_keeps _ _ _ _)
      · injection h with h; subst h
        exact (h0.trans (State.touchAll_keeps _ _ _ _)).trans
          ((Keeps.forEach (fun _ _ => poisonUnit_keeps _ _ _) _ _).trans (State.modColl_keeps _ _ _ _))

theorem downItem_keeps (a0 : Nat) (a1 : Nat) (a2 : Nat) (a3 : Nat) (a4 : List Byte) (a5 : List Nat) (s : State) {t :
    State} (h : downItem a0 a1 a2 a3 a4 a5 s = .ok t) : Keeps s t := by
  unfold downItem at h
  extract_lets k per here n kids at h
  split at h
  · injection h
  · rename_i u hu
    injection h with h; subst h
    have h0 : Keeps s u := by
      split at hu
      · exact State.storeChunk_keeps _ _ _ _ _ _ _ hu
      · injection hu with hu; subst hu; exact .refl _
    exact h0.trans (Keeps.forEach (fun _ _ => addSend_keeps _ _ _ _ _ _ _ _) _ _)

theorem tryUp_keeps (a0 : Nat) (a1 : Nat) (a2 : Nat) (s : State) {t : State} (h : tryUp a0 a1 a2 s = .ok t) : Keeps
    s t := by
  unfold tryUp at h
  extract_lets at h
  split at h
  · injection h with h; subst h; exact .refl _
  · split at h
    · injection h
    · rename_i bs bad0 u hu
      have h0 : Keeps s u := State.takeSrc_keeps _ _ _ _ _ hu
      dsimp only at h
      split at h
      · injection h with h; subst h
        exact h0.trans ((State.modColl_keeps _ _ _ _).trans (addSend_keeps _ _ _ _ _ _ _ _))
      · split at h
        · injection h with h; subst h
          exact h0.trans ((State.modColl_keeps _ _ _ _).trans (State.modColl_keeps _ _ _ _))
        · exact (h0.trans ((State.modColl_keeps _ _ _ _).trans (State.modColl_keeps _ _ _ _))).trans
            ((State.modColl_keeps _ _ _ _).trans (downItem_keeps _ _ _ _ _ _ _ h))

theorem abortHere_keeps (a0 : Nat) (a1 : Nat) (a2 : Nat) (a3 : Nat) (a4 : Nat) (s : State) : Keeps s (abortHere a0
    a1 a2 a3 a4 s) := by
  unfold abortHere
  grind only [Keeps.trans, Keeps.refl, State.modGroup_keeps, faultRun_keeps, Keeps.forEach]

theorem spreadAbort_keeps (a0 : Nat) (a1 : Nat) (a2 : Nat) (a3 : Nat) (a4 : Nat) (a5 : Option Nat) (s : State) :
    Keeps s (spreadAbort a0 a1 a2 a3 a4 a5 s) := by
  unfold spreadAbort
  grind only [Keeps.trans, Keeps.refl, abortHere_keeps, sendAbort_keeps, Keeps.forEach]

theorem sendColl_keeps (a0 : Nat) (a1 : Nat) (a2 : Nat) (a3 : Nat) (a4 : Nat) (a5 : Nat) (a6 : Packet → Packet) (s :
    State) : Keeps s (sendColl a0 a1 a2 a3 a4 a5 a6 s) := by
  unfold sendColl
  grind only [Keeps.trans, Keeps.refl, sendRank_keeps, Keeps.forEach]

theorem sendSegment_keeps (a0 : Nat) (a1 : Nat) (a2 : List Nat) (a3 : Nat) (a4 : Nat) (a5 : Nat) (s : State) {t :
    State} (h : sendSegment a0 a1 a2 a3 a4 a5 s = .ok t) : Keeps s t := by
  unfold sendSegment at h
  refine Keeps.foldE (fun t a u hu => ?_) _ _ _ h
  extract_lets at hu
  split at hu
  · injection hu
  · rename_i bs bad w hw
    injection hu with hu; subst hu
    exact (State.takeSrc_keeps _ _ _ _ _ hw).trans (Keeps.forEach (fun _ _ => addSend_keeps _ _ _ _ _ _ _ _) _ _)

theorem keepSegment_keeps (a0 : Nat) (a1 : Nat) (a2 : Nat) (a3 : Nat) (a4 : Nat) (s : State) {t : State} (h :
    keepSegment a0 a1 a2 a3 a4 s = .ok t) : Keeps s t := by
  unfold keepSegment at h
  refine Keeps.foldE (fun t a u hu => ?_) _ _ _ h
  extract_lets at hu
  split at hu
  · injection hu
  · rename_i bs bad w hw
    exact (State.takeSrc_keeps _ _ _ _ _ hw).trans (State.storeChunk_keeps _ _ _ _ _ _ _ hu)

theorem ownData_keeps (a0 : Nat) (a1 : Nat) (s : State) {t : State} (h : ownData a0 a1 s = .ok t) : Keeps s t := by
  unfold ownData at h
  extract_lets k c at h
  split at h
  · exact Keeps.foldE (fun t a u hu => tryUp_keeps _ _ _ _ hu) _ _ _ h
  · exact Keeps.foldE (fun t a u hu => tryUp_keeps _ _ _ _ hu) _ _ _ h
  · split at h
    · injection h
    · rename_i hu
      exact (keepSegment_keeps _ _ _ _ _ _ hu).trans (sendSegment_keeps _ _ _ _ _ _ _ h)
  · refine Keeps.foldE (fun t a u hu => ?_) _ _ _ h
    extract_lets at hu
    split at hu
    · exact keepSegment_keeps _ _ _ _ _ _ hu
    · exact sendSegment_keeps _ _ _ _ _ _ _ hu
  · split at h
    · split at h
      · injection h
      · rename_i hu
        exact (keepSegment_keeps _ _ _ _ _ _ hu).trans (sendSegment_keeps _ _ _ _ _ _ _ h)
    · injection h with h; subst h; exact .refl _
  · split at h
    · exact keepSegment_keeps _ _ _ _ _ _ h
    · exact sendSegment_keeps _ _ _ _ _ _ _ h

theorem sendChunk_keeps (a0 : Nat) (a1 : Nat) (a2 : Send) (s : State) : Keeps s (sendChunk a0 a1 a2 s) := by
  unfold sendChunk
  grind only [Keeps.trans, Keeps.refl, State.modLshEng_keeps, sendColl_keeps, Keeps.forEach]

theorem modSend_keeps (a0 : Nat) (a1 : Nat) (a2 : Nat) (a3 : Nat) (a4 : Send → Send) (s : State) : Keeps s (modSend
    a0 a1 a2 a3 a4 s) := by
  unfold modSend
  grind only [Keeps.trans, Keeps.refl, State.modColl_keeps, Keeps.forEach]

theorem flushSends_keeps (a0 : Nat) (a1 : Nat) (s : State) : Keeps s (flushSends a0 a1 s) := by
  unfold flushSends
  grind only [Keeps.trans, Keeps.refl, modSend_keeps, sendChunk_keeps, Keeps.forEach]

theorem landHere_keeps (a0 : Nat) (a1 : Nat) (s : State) : Keeps s (landHere a0 a1 s) := by
  unfold landHere
  grind only [Keeps.trans, Keeps.refl, sendColl_keeps, State.modColl_keeps, State.modGroup_keeps,
      State.modRun_keeps, Keeps.forEach]

theorem tryDone_keeps (a0 : Nat) (a1 : Nat) (s : State) : Keeps s (tryDone a0 a1 s) := by
  unfold tryDone
  grind only [Keeps.trans, Keeps.refl, State.modColl_keeps, sendColl_keeps, spreadAbort_keeps, landHere_keeps,
      Keeps.forEach]

theorem finishColl_keeps (a0 : Nat) (a1 : Nat) (s : State) : Keeps s (finishColl a0 a1 s) := by
  unfold finishColl
  grind only [Keeps.trans, Keeps.refl, idleUnit_keeps, tryDone_keeps, State.modInst_keeps, Keeps.forEach]

theorem settleColl_keeps (q j : Nat) (r : Except Flt State) (s : State) (hr : ∀ t, r = .ok t → Keeps s t) :
    Keeps s (settleColl q j r s) := by
  unfold settleColl
  split
  · exact runFault_keeps _ _ _ _
  · exact ((hr _ rfl).trans (flushSends_keeps _ _ _)).trans (finishColl_keeps _ _ _)

theorem beginData_keeps (a0 : Nat) (a1 : Nat) (s : State) : Keeps s (beginData a0 a1 s) := by
  unfold beginData
  grind only [Keeps.trans, Keeps.refl, State.modColl_keeps, settleColl_keeps, ownData_keeps, Keeps.forEach]

theorem takeGo_keeps (a0 : Nat) (a1 : Nat) (s : State) : Keeps s (takeGo a0 a1 s) := by
  unfold takeGo
  grind only [Keeps.trans, Keeps.refl, State.modColl_keeps, beginData_keeps, sendColl_keeps, Keeps.forEach]

theorem tryGreet_keeps (a0 : Nat) (a1 : Nat) (s : State) : Keeps s (tryGreet a0 a1 s) := by
  unfold tryGreet
  grind only [Keeps.trans, Keeps.refl, State.modColl_keeps, sendColl_keeps, takeGo_keeps, spreadAbort_keeps,
      Keeps.forEach]

theorem hearAll_keeps (a0 : Nat) (a1 : Nat) (s : State) : Keeps s (hearAll a0 a1 s) := by
  unfold hearAll
  grind only [Keeps.trans, Keeps.refl, State.modGroup_keeps, Keeps.forEach]

theorem takeLand_keeps (a0 : Packet) (a1 : Nat) (a2 : Nat) (s : State) : Keeps s (takeLand a0 a1 a2 s) := by
  unfold takeLand
  grind only [Keeps.trans, Keeps.refl, landHere_keeps, Keeps.forEach]

theorem takeHeld_keeps (a0 : Nat) (a1 : Nat) (a2 : Nat) (a3 : Nat) (s : State) : Keeps s (takeHeld a0 a1 a2 a3 s) :=
    by
  unfold takeHeld
  grind only [Keeps.trans, Keeps.refl, State.modGroup_keeps, State.modColl_keeps, Keeps.forEach]

theorem holdPacket_keeps (a0 : Nat) (a1 : Nat) (a2 : Packet) (s : State) : Keeps s (holdPacket a0 a1 a2 s) := by
  unfold holdPacket
  grind only [Keeps.trans, Keeps.refl, State.modGroup_keeps, Keeps.forEach]

theorem enterGreeting_keeps (a0 : Nat) (a1 : Nat) (a2 : Packet) (s : State) : Keeps s (enterGreeting a0 a1 a2 s) :=
    by
  unfold enterGreeting
  grind only [Keeps.trans, Keeps.refl, sendColl_keeps, tryGreet_keeps, State.modColl_keeps, Keeps.forEach]

theorem takeGreeting_keeps (a0 : Packet) (a1 : Nat) (a2 : Nat) (s : State) : Keeps s (takeGreeting a0 a1 a2 s) := by
  unfold takeGreeting
  grind only [Keeps.trans, Keeps.refl, enterGreeting_keeps, holdPacket_keeps, Keeps.forEach]

theorem takeGoPacket_keeps (a0 : Packet) (a1 : Nat) (a2 : Nat) (s : State) : Keeps s (takeGoPacket a0 a1 a2 s) := by
  unfold takeGoPacket
  grind only [Keeps.trans, Keeps.refl, takeGo_keeps, Keeps.forEach]

theorem takeDone_keeps (a0 : Packet) (a1 : Nat) (a2 : Nat) (s : State) : Keeps s (takeDone a0 a1 a2 s) := by
  unfold takeDone
  grind only [Keeps.trans, Keeps.refl, tryDone_keeps, State.modColl_keeps, Keeps.forEach]

theorem takeChunk_keeps (a0 : Nat) (a1 : Nat) (a2 : Nat) (a3 : Nat) (a4 : List Byte) (a5 : Bool) (s : State) {t :
    State} (h : takeChunk a0 a1 a2 a3 a4 a5 s = .ok t) : Keeps s t := by
  unfold takeChunk at h
  extract_lets k per all c at h
  split at h
  · split at h
    · exact downItem_keeps _ _ _ _ _ _ _ h
    · exact (State.modColl_keeps _ _ _ _).trans (tryUp_keeps _ _ _ _ h)
  · split at h
    · injection h
    · rename_i hu
      injection h with h; subst h
      exact (State.storeChunk_keeps _ _ _ _ _ _ _ hu).trans (Keeps.forEach (fun _ _ => addSend_keeps _ _ _ _ _ _ _
          _) _ _)

theorem takeData_keeps (a0 : Packet) (a1 : Nat) (a2 : Nat) (s : State) : Keeps s (takeData a0 a1 a2 s) := by
  unfold takeData
  grind only [Keeps.trans, Keeps.refl, sendColl_keeps, State.modColl_keeps, settleColl_keeps, takeChunk_keeps,
      Keeps.forEach]

theorem enterCount_keeps (a0 : Nat) (a1 : Nat) (a2 : Packet) (s : State) : Keeps s (enterCount a0 a1 a2 s) := by
  unfold enterCount
  grind only [Keeps.trans, Keeps.refl, tryGreet_keeps, State.modColl_keeps, Keeps.forEach]

theorem takeCount_keeps (a0 : Packet) (a1 : Nat) (a2 : Nat) (s : State) : Keeps s (takeCount a0 a1 a2 s) := by
  unfold takeCount
  grind only [Keeps.trans, Keeps.refl, enterCount_keeps, holdPacket_keeps, Keeps.forEach]

theorem takeChunkNak_keeps (a0 : Packet) (a1 : Nat) (a2 : Nat) (s : State) : Keeps s (takeChunkNak a0 a1 a2 s) := by
  unfold takeChunkNak
  split
  · exact .refl _
  · split
    · exact .refl _
    · split
      · exact sendChunk_keeps _ _ _ _
      · split
        · exact runFault_keeps _ _ _ _
        · rename_i bs bad u hu
          exact (State.takeSrc_keeps _ _ _ _ _ hu).trans ((modSend_keeps _ _ _ _ _ _).trans (sendChunk_keeps _ _ _
              _))

theorem takeChunkAck_keeps (a0 : Packet) (a1 : Nat) (a2 : Nat) (s : State) : Keeps s (takeChunkAck a0 a1 a2 s) := by
  unfold takeChunkAck
  grind only [Keeps.trans, Keeps.refl, finishColl_keeps, modSend_keeps, Keeps.forEach]

theorem takeAbort_keeps (a0 : Packet) (a1 : Nat) (a2 : Nat) (s : State) : Keeps s (takeAbort a0 a1 a2 s) := by
  unfold takeAbort
  grind only [Keeps.trans, Keeps.refl, spreadAbort_keeps, Keeps.forEach]

theorem takeColl_keeps (a0 : Packet) (a1 : Nat) (a2 : Nat) (s : State) : Keeps s (takeColl a0 a1 a2 s) := by
  unfold takeColl
  grind only [Keeps.trans, Keeps.refl, takeGreeting_keeps, takeGoPacket_keeps, takeAbort_keeps, takeData_keeps,
      takeChunkAck_keeps, takeChunkNak_keeps, takeDone_keeps, takeLand_keeps, takeCount_keeps, Keeps.forEach]

theorem stopGroup_keeps (a0 : Nat) (a1 : Nat) (a2 : Nat) (s : State) : Keeps s (stopGroup a0 a1 a2 s) := by
  unfold stopGroup
  grind only [Keeps.trans, Keeps.refl, faultRun_keeps, stopQueue_keeps, State.modQueue_keeps, Keeps.forEach]

theorem gateMsg_keeps (p : Packet) (f : Nat → Nat → State → State) (hf : ∀ b i t, Keeps t (f b i t)) (s : State) :
    Keeps s (gateMsg p f s) := by
  unfold gateMsg
  extract_lets t
  refine (arrive_keeps p s).trans ?_
  split
  · exact .refl _
  · exact Keeps.ite (hf _ _ _) (.refl _)

theorem execTaint_answers (a0 : Packet) (s : State) : Answers s (execTaint a0 s) := by
  unfold execTaint
  grind only [Keeps.trans, Keeps.refl, gateMsg_keeps, State.modGroup_keeps, Answers.next, Keeps.forEach]

theorem execInstallTimeout_answers (a0 : Nat) (s : State) : Answers s (execInstallTimeout a0 s) := by
  unfold execInstallTimeout
  grind only [Keeps.trans, Keeps.refl, stopGroup_keeps, State.modGroup_keeps, Answers.next, Keeps.forEach]

theorem excludeHere_keeps (a0 : Nat) (a1 : Nat) (s : State) : Keeps s (excludeHere a0 a1 s) := by
  unfold excludeHere
  grind only [Keeps.trans, Keeps.refl, stopGroup_keeps, State.modGroup_keeps, Keeps.forEach]

theorem execExclusion_answers (a0 : Packet) (s : State) : Answers s (execExclusion a0 s) := by
  unfold execExclusion
  grind only [Keeps.trans, Keeps.refl, gateMsg_keeps, excludeHere_keeps, Answers.next, Keeps.forEach]

theorem startReform_keeps (a0 : Nat) (a1 : Nat) (a2 : List Nat) (s : State) : Keeps s (startReform a0 a1 a2 s) := by
  unfold startReform
  grind only [Keeps.trans, Keeps.refl, State.modGroup_keeps, faultRun_keeps, Keeps.forEach]

theorem gatePacket_keeps (p : Packet) (f : Nat → Nat → State → State) (hf : ∀ b i t, Keeps t (f b i t)) (s : State)
    :
    Keeps s (gatePacket p f s) := by
  unfold gatePacket
  split
  · exact .refl _
  · exact Keeps.ite (holdPacket_keeps _ _ _ _) (Keeps.ite (.refl _) (hf _ _ _))

theorem installHere_keeps (a0 : Nat) (a1 : Nat) (a2 : Nat) (a3 : List Nat) (a4 : List Nat) (s : State) : Keeps s
    (installHere a0 a1 a2 a3 a4 s) := by
  unfold installHere
  grind only [Keeps.trans, Keeps.refl, excludeHere_keeps, State.modGroup_keeps, hearAll_keeps, State.modRun_keeps,
      faultRun_keeps, gatePacket_keeps, takeColl_keeps, Keeps.forEach]

theorem execInstall_answers (a0 : Packet) (s : State) : Answers s (execInstall a0 s) := by
  unfold execInstall
  grind only [Keeps.trans, Keeps.refl, arrive_keeps, installHere_keeps, startReform_keeps, Answers.next,
      Keeps.forEach]

theorem decideReform_keeps (a0 : Nat) (a1 : Nat) (s : State) : Keeps s (decideReform a0 a1 s) := by
  unfold decideReform
  grind only [Keeps.trans, Keeps.refl, tellRanks_keeps, installHere_keeps, excludeHere_keeps, Keeps.forEach]

theorem execCoordinatorTimeout_answers (a0 : Nat) (s : State) : Answers s (execCoordinatorTimeout a0 s) := by
  unfold execCoordinatorTimeout
  grind only [Keeps.trans, Keeps.refl, decideReform_keeps, tellRanks_keeps, State.modGroup_keeps, Answers.next,
      Keeps.forEach]

theorem execPollAnswer_answers (a0 : Packet) (s : State) : Answers s (execPollAnswer a0 s) := by
  unfold execPollAnswer
  grind only [Keeps.trans, Keeps.refl, gateMsg_keeps, State.modGroup_keeps, decideReform_keeps, Answers.next,
      Keeps.forEach]

theorem execPoll_answers (a0 : Packet) (s : State) : Answers s (execPoll a0 s) := by
  unfold execPoll
  grind only [Keeps.trans, Keeps.refl, gateMsg_keeps, startReform_keeps, State.modGroup_keeps, tellRanks_keeps,
      Answers.next, Keeps.forEach]

theorem execLeaveNotice_answers (a0 : Packet) (s : State) : Answers s (execLeaveNotice a0 s) := by
  unfold execLeaveNotice
  grind only [Keeps.trans, Keeps.refl, gateMsg_keeps, startReform_keeps, Answers.next, Keeps.forEach]

theorem execLostNotice_answers (a0 : Packet) (s : State) : Answers s (execLostNotice a0 s) := by
  unfold execLostNotice
  grind only [Keeps.trans, Keeps.refl, gateMsg_keeps, startReform_keeps, Answers.next, Keeps.forEach]

theorem execMemberLost_answers (a0 : Nat) (a1 : Nat) (s : State) : Answers s (execMemberLost a0 a1 s) := by
  unfold execMemberLost
  grind only [Keeps.trans, Keeps.refl, startReform_keeps, tellRanks_keeps, Answers.next, Keeps.forEach]

theorem execMemberHeartbeat_answers (a0 : Packet) (s : State) : Answers s (execMemberHeartbeat a0 s) := by
  unfold execMemberHeartbeat
  grind only [Keeps.trans, Keeps.refl, gateMsg_keeps, State.modGroup_keeps, Answers.next, Keeps.forEach]

theorem execMemberHeartbeatSend_answers (a0 : Nat) (s : State) : Answers s (execMemberHeartbeatSend a0 s) := by
  unfold execMemberHeartbeatSend
  grind only [Keeps.trans, Keeps.refl, tellRanks_keeps, Answers.next, Keeps.forEach]

theorem collArrive_keeps (a0 : Nat) (a1 : Packet) (s : State) : Keeps s (collArrive a0 a1 s) := by
  unfold collArrive
  grind only [Keeps.trans, Keeps.refl, gatePacket_keeps, takeColl_keeps, arrive_keeps, Keeps.forEach]

theorem execLand_answers (a0 : Packet) (s : State) : Answers s (execLand a0 s) := by
  unfold execLand
  grind only [Keeps.trans, Keeps.refl, collArrive_keeps, Answers.next, Keeps.forEach]

theorem execCollDone_answers (a0 : Packet) (s : State) : Answers s (execCollDone a0 s) := by
  unfold execCollDone
  grind only [Keeps.trans, Keeps.refl, collArrive_keeps, Answers.next, Keeps.forEach]

theorem execChunkResend_answers (a0 : Nat) (a1 : Nat) (a2 : Nat) (s : State) : Answers s (execChunkResend a0 a1 a2
    s) := by
  unfold execChunkResend
  grind only [Keeps.trans, Keeps.refl, sendChunk_keeps, Answers.next, Keeps.forEach]

theorem execChunkNak_answers (a0 : Packet) (s : State) : Answers s (execChunkNak a0 s) := by
  unfold execChunkNak
  grind only [Keeps.trans, Keeps.refl, collArrive_keeps, Answers.next, Keeps.forEach]

theorem execChunkAck_answers (a0 : Packet) (s : State) : Answers s (execChunkAck a0 s) := by
  unfold execChunkAck
  grind only [Keeps.trans, Keeps.refl, collArrive_keeps, Answers.next, Keeps.forEach]

theorem execCollData_answers (a0 : Packet) (s : State) : Answers s (execCollData a0 s) := by
  unfold execCollData
  grind only [Keeps.trans, Keeps.refl, collArrive_keeps, Answers.next, Keeps.forEach]

theorem execAbort_answers (a0 : Packet) (s : State) : Answers s (execAbort a0 s) := by
  unfold execAbort
  grind only [Keeps.trans, Keeps.refl, collArrive_keeps, Answers.next, Keeps.forEach]

theorem execGo_answers (a0 : Packet) (s : State) : Answers s (execGo a0 s) := by
  unfold execGo
  grind only [Keeps.trans, Keeps.refl, collArrive_keeps, Answers.next, Keeps.forEach]

theorem execCollCount_answers (a0 : Packet) (s : State) : Answers s (execCollCount a0 s) := by
  unfold execCollCount
  grind only [Keeps.trans, Keeps.refl, collArrive_keeps, Answers.next, Keeps.forEach]

theorem execCollGreeting_answers (a0 : Packet) (s : State) : Answers s (execCollGreeting a0 s) := by
  unfold execCollGreeting
  grind only [Keeps.trans, Keeps.refl, collArrive_keeps, Answers.next, Keeps.forEach]

theorem giveEngine_keeps (a0 : Nat) (a1 : Nat) (a2 : Nat) (s : State) : Keeps s (giveEngine a0 a1 a2 s) := by
  unfold giveEngine
  grind only [Keeps.trans, Keeps.refl, State.modLshEng_keeps, beginData_keeps, State.modInst_keeps, Keeps.forEach]

theorem execLongshoreEngineGrant_answers (s : State) : Answers s (execLongshoreEngineGrant s) := by
  unfold execLongshoreEngineGrant
  grind only [Keeps.trans, Keeps.refl, giveEngine_keeps, Keeps.with, Answers.next, Keeps.forEach]

theorem startColl_keeps (a0 : Nat) (a1 : Nat) (a2 : Nat) (a3 : CollOps) (a4 : List Desc) (a5 : List Nat) (a6 : Nat)
    (s : State) : Keeps s (startColl a0 a1 a2 a3 a4 a5 a6 s) := by
  unfold startColl
  grind only [Keeps.trans, Keeps.refl, advance_keeps, State.modRun_keeps, giveEngine_keeps, sendColl_keeps,
      tryGreet_keeps, takeHeld_keeps, Keeps.with, Keeps.forEach]

theorem execColl_answers (a0 : Nat) (a1 : CollOps) (s : State) : Answers s (execColl a0 a1 s) := by
  unfold execColl
  extract_lets r c fault
  have hf : ∀ e, Answers s (.next (fault e)) := fun e => .next (faultRun_keeps _ _ _ _ _ _)
  split
  · exact .next (.refl _)
  · split
    · exact hf _
    · extract_lets g
      split
      · exact .next (faultRun_keeps _ _ _ _ _ _)
      · exact .next (faultRun_keeps _ _ _ _ _ _)
      · exact .next (.refl _)
      · split
        · exact hf _
        · split
          · exact hf _
          · split
            · exact hf _
            · extract_lets k
              split
              · exact hf _
              · exact .next (startColl_keeps _ _ _ _ _ _ _ _)
              · exact .next (startColl_keeps _ _ _ _ _ _ _ _)

/-! ### Machine/Codec.lean -/

theorem execCodecJobDone_answers (a0 : Nat) (s : State) : Answers s (execCodecJobDone a0 s) := by
  unfold execCodecJobDone
  extract_lets t q i b c x s1 s2 done
  have h0 : Keeps s s2 :=
    ((State.modCodecEng_keeps _ _ _).trans (State.modInst_keeps _ _ _ _)).trans (addCycles_keeps _ _ _ _)
  have hd : ∀ u, done = .ok u → Keeps s2 u := by
    intro u hu
    unfold done at hu
    split at hu
    · injection hu
    · rename_i e
      exact (State.store_keeps _ _ _ e).trans (State.store_keeps _ _ _ hu)
  clear_value done s2
  split
  · exact .next (.refl _)
  · split
    · exact .next (h0.trans (runFault_keeps _ _ _ _))
    · split
      · exact .next (h0.trans (runFault_keeps _ _ _ _))
      · exact .next ((h0.trans (hd _ rfl)).trans ((State.modRun_keeps _ _ _).trans (State.modInst_keeps _ _ _ _)))

theorem startJob_keeps (a0 : Nat) (a1 : Nat) (a2 : Nat) (s : State) : Keeps s (startJob a0 a1 a2 s) := by
  unfold startJob
  grind only [Keeps.trans, Keeps.refl, runFault_keeps, State.modCodecEng_keeps, State.modInst_keeps, Keeps.forEach]

theorem grantCodecs_keeps (a0 : Nat) (s : State) : Keeps s (grantCodecs a0 s) := by
  induction a0 generalizing s with
  | zero => exact .refl _
  | succ k ih =>
    unfold grantCodecs
    split
    · exact .refl _
    · split
      · exact .refl _
      · exact ((Keeps.setCodecQ _ _).trans (startJob_keeps _ _ _ _)).trans (ih _)

theorem execCodecEngineGrant_answers (s : State) : Answers s (execCodecEngineGrant s) := by
  unfold execCodecEngineGrant
  grind only [Keeps.trans, Keeps.refl, grantCodecs_keeps, Answers.next, Keeps.forEach]

theorem startCodec_keeps (a0 : Nat) (a1 : Nat) (a2 : Nat) (s : State) {t : State} (h : startCodec a0 a1 a2 s = .ok
    t) : Keeps s t := by
  unfold startCodec at h
  extract_lets r at h
  split at h
  · injection h
  · extract_lets none_ at h
    split at h
    · injection h
    · rename_i e
      extract_lets at h
      have h0 := hold_keeps _ _ _ _ _ e
      split at h
      · injection h with h; subst h; exact h0.trans (State.modRun_keeps _ _ _)
      · injection h with h; subst h
        exact (h0.trans (State.modRun_keeps _ _ _)).trans (Keeps.setCodecQ _ _)

theorem execCodec_answers (a0 : Nat) (a1 : Nat) (a2 : Nat) (s : State) : Answers s (execCodec a0 a1 a2 s) := by
  unfold execCodec
  grind only [Keeps.trans, Keeps.refl, dispatch_keeps, startCodec_keeps, grantCodecs_keeps, Answers.next,
      Keeps.forEach]

/-! ### Machine/Power.lean -/

theorem killCodec_keeps (a0 : Nat) (a1 : Nat) (s : State) : Keeps s (killCodec a0 a1 s) := by
  unfold killCodec
  grind only [Keeps.trans, Keeps.refl, killQueue_keeps, Keeps.forEach]

theorem setGated_keeps (a0 : Nat) (a1 : Bool) (s : State) : Keeps s (setGated a0 a1 s) := by
  unfold setGated
  grind only [Keeps.trans, Keeps.refl, State.modTwc_keeps, Keeps.forEach]

theorem gateCore_keeps (a0 : Nat) (s : State) : Keeps s (gateCore a0 s) := by
  unfold gateCore
  grind only [Keeps.trans, Keeps.refl, setGated_keeps, killAll_keeps, Keeps.forEach]

theorem dropHold_keeps (a0 : List Nat) (s : State) : Keeps s (dropHold a0 s) := by
  unfold dropHold
  grind only [Keeps.trans, Keeps.refl, State.modCluster_keeps, Keeps.forEach]

theorem startGate_keeps (a0 : Nat) (s : State) : Keeps s (startGate a0 s) := by
  unfold startGate
  grind only [Keeps.trans, Keeps.refl, dropHold_keeps, gateCore_keeps, setGated_keeps, State.modHarbour_keeps, killCodec_keeps,
      drainPort_keeps, Keeps.forEach]

theorem runDomains_keeps (a0 : Nat) (s : State) : Keeps s (runDomains a0 s) := by
  induction a0 generalizing s with
  | zero => exact .refl _
  | succ k ih =>
    unfold runDomains
    grind only [Keeps.trans, Keeps.refl, State.modTwc_keeps, startGate_keeps]

theorem domainCmd_keeps (a0 : Nat) (a1 : Bool) (s : State) : Keeps s (domainCmd a0 a1 s) := by
  unfold domainCmd
  grind only [Keeps.trans, Keeps.refl, State.modTwc_keeps, settle_keeps, runDomains_keeps, Keeps.forEach]

theorem writeStages_keeps (a0 : Nat) (s : State) : Keeps s (writeStages a0 s) := by
  unfold writeStages
  grind only [Keeps.trans, Keeps.refl, State.modCluster_keeps, State.modCodecEng_keeps, State.modHalf_keeps,
      Keeps.forEach]

theorem sendLine_keeps (a0 : String) (s : State) : Keeps s (sendLine a0 s) := by
  unfold sendLine
  grind only [Keeps.trans, Keeps.refl, State.emit_keeps, Keeps.forEach]

theorem report_keeps (a0 : String) (s : State) : Keeps s (report a0 s) := by
  unfold report
  split
  · exact sendLine_keeps _ _
  · split
    · rename_i h
      refine { pending := rfl, memWf := id, keeper := fun k => ⟨k.1, ?_⟩, tickets := id, secver := fun _ =>
          Nat.le_refl _
               retired := fun _ => id, bad := fun _ => id, fresh := Nat.le_refl _ }
      simp [State.modDbg]; omega
    · exact State.modDbg_same _ _ rfl rfl rfl

theorem ungate_keeps (a0 : Nat) (s : State) : Keeps s (ungate a0 s) := by
  unfold ungate
  grind only [Keeps.trans, Keeps.refl, setGated_keeps, State.modHarbour_keeps, trainPort_keeps, Keeps.forEach]

theorem reportFrom_keeps (a0 : Nat) (a1 : String) (s : State) : Keeps s (reportFrom a0 a1 s) := by
  unfold reportFrom
  grind only [Keeps.trans, Keeps.refl, report_keeps, Keeps.forEach]

theorem linkLost_keeps (s : State) : Keeps s (linkLost s) := by
  unfold linkLost
  grind only [Keeps.trans, Keeps.refl, State.modGlb_keeps, Keeps.forEach]

theorem thermalRelease_keeps (a0 : Nat) (s : State) : Keeps s (thermalRelease a0 s) := by
  unfold thermalRelease
  grind only [Keeps.trans, Keeps.refl, State.modCluster_keeps, State.modTwc_keeps, makeRecord_keeps,
      State.modStack_keeps, Keeps.forEach]

theorem thermalGate_keeps (a0 : Nat) (s : State) : Keeps s (thermalGate a0 s) := by
  unfold thermalGate
  grind only [Keeps.trans, Keeps.refl, gateCore_keeps, State.modCluster_keeps, makeRecord_keeps,
      State.modStack_keeps, Keeps.forEach]

theorem thermalRule_keeps (a0 : Nat) (s : State) : Keeps s (thermalRule a0 s) := by
  unfold thermalRule
  grind only [Keeps.trans, Keeps.refl, State.modStack_keeps, State.modCluster_keeps, thermalGate_keeps,
      thermalRelease_keeps, Keeps.forEach]

theorem flushReports_keeps (s : State) : Keeps s (flushReports s) := by
  unfold flushReports
  extract_lets lost ts
  refine Keeps.trans ?_ (Keeps.forEach (fun x y => sendLine_keeps _ _) _ _)
  exact State.modDbg_keeps _ _ (fun x h => ⟨h.1, Nat.zero_le _⟩)

theorem stopClocks_keeps (s : State) : Keeps s (stopClocks s) := by
  unfold stopClocks
  grind only [Keeps.trans, Keeps.refl, State.modGlb_keeps, linkLost_keeps, State.modClk_keeps, Keeps.forEach]

theorem execRegulatorsGood_answers (s : State) : Answers s (execRegulatorsGood s) := by
  unfold execRegulatorsGood
  grind only [Keeps.trans, Keeps.refl, State.modClk_keeps, Answers.next, Keeps.forEach]

theorem checkGating_keeps (s : State) : Keeps s (checkGating s) := by
  unfold checkGating
  grind only [Keeps.trans, Keeps.refl, State.modTwc_keeps, settle_keeps, runDomains_keeps, Keeps.forEach]

theorem endDrain_keeps (a0 : Nat) (s : State) : Keeps s (endDrain a0 s) := by
  unfold endDrain
  grind only [Keeps.trans, Keeps.refl, checkGating_keeps, trainPort_keeps, portOff_keeps, Keeps.forEach]

theorem loseRails_keeps (s : State) : Keeps s (loseRails s) := by
  unfold loseRails
  extract_lets t
  have h0 : Keeps s t := stopClocks_keeps _
  exact h0.trans
    { pending := rfl
      memWf := fun h => by
        obtain ⟨h1, h2, h3, h4, h5⟩ := (State.memWf_iff t).1 h
        exact (State.memWf_iff _).2 ⟨tblWf_drop _ _ _ h1, tblWf_drop _ _ _ h2, tblWf_drop _ _ _ h3, tblWf_drop _ _ _
            h4,
          tblWf_drop _ _ _ h5⟩
      keeper := id
      tickets := id
      secver := fun _ => Nat.le_refl _
      retired := fun _ => id
      bad := fun _ => id
      fresh := Nat.le_refl _ }

theorem execThermalTrip_answers (a0 : Nat) (s : State) : Answers s (execThermalTrip a0 s) := by
  unfold execThermalTrip
  grind only [Keeps.trans, Keeps.refl, State.modTrec_same, loseRails_keeps, State.modCluster_keeps,
      State.modStack_keeps, State.modGlb_keeps, Answers.next, Keeps.forEach]

theorem execHoldupEnd_answers (s : State) : Answers s (execHoldupEnd s) := by
  unfold execHoldupEnd
  split
  · refine .next ?_
    exact
      { pending := rfl, memWf := id, keeper := fun _ => Dbg.fits_reset, tickets := fun _ h => by simp
        secver := fun _ => Nat.le_refl _, retired := fun _ => id, bad := fun _ => id, fresh := Nat.le_refl _ }
  · exact .next (.refl _)

theorem execUnderVoltage_answers (s : State) : Answers s (execUnderVoltage s) := by
  unfold execUnderVoltage
  grind only [Keeps.trans, Keeps.refl, State.modTrec_same, loseRails_keeps, State.modGlb_keeps, State.modClk_keeps,
      Answers.next, Keeps.forEach]

theorem lockRoot_keeps (s : State) : Keeps s (lockRoot s) := by
  unfold lockRoot
  grind only [Keeps.trans, Keeps.refl, State.modGlb_keeps, State.modCluster_keeps, State.modClk_keeps,
      Keeps.forEach]

theorem execRelockAttempt_answers (a0 : Bool) (s : State) : Answers s (execRelockAttempt a0 s) := by
  unfold execRelockAttempt
  grind only [Keeps.trans, Keeps.refl, State.modGlb_keeps, lockRoot_keeps, State.modTrec_same, report_keeps,
      State.modClk_keeps, Answers.next, Keeps.forEach]

theorem execRootPllLockLoss_answers (s : State) : Answers s (execRootPllLockLoss s) := by
  unfold execRootPllLockLoss
  grind only [Keeps.trans, Keeps.refl, stopClocks_keeps, State.modGlb_keeps, raiseVector_keeps, State.modRun_keeps,
      killQueue_keeps, goDown_keeps, report_keeps, Answers.next, Keeps.forEach]

theorem resumeCommits_keeps (s : State) : Keeps s (resumeCommits s) := by
  unfold resumeCommits
  grind only [Keeps.trans, Keeps.refl, State.modRun_keeps, sendRemote_keeps, Keeps.forEach]

theorem execSerdesPllLocked_answers (s : State) : Answers s (execSerdesPllLocked s) := by
  unfold execSerdesPllLocked
  grind only [Keeps.trans, Keeps.refl, resumeCommits_keeps, trainPort_keeps, State.modClk_keeps, Answers.next,
      Keeps.forEach]

theorem execRootPllLocked_answers (s : State) : Answers s (execRootPllLocked s) := by
  unfold execRootPllLocked
  grind only [Keeps.trans, Keeps.refl, lockRoot_keeps, Answers.next, Keeps.forEach]

theorem execVinQualified_answers (s : State) : Answers s (execVinQualified s) := by
  unfold execVinQualified
  grind only [Keeps.trans, Keeps.refl, State.modClk_keeps, Answers.next, Keeps.forEach]

theorem execDomainUngateDone_answers (a0 : Nat) (s : State) : Answers s (execDomainUngateDone a0 s) := by
  unfold execDomainUngateDone
  grind only [Keeps.trans, Keeps.refl, checkGating_keeps, ungate_keeps, State.modTwc_keeps, settle_keeps, runDomains_keeps,
      Answers.next, Keeps.forEach]

theorem execDomainUngate_answers (a0 : Nat) (s : State) : Answers s (execDomainUngate a0 s) := by
  unfold execDomainUngate
  grind only [Keeps.trans, Keeps.refl, domainCmd_keeps, Answers.next, Keeps.forEach]

theorem execDomainGate_answers (a0 : Nat) (s : State) : Answers s (execDomainGate a0 s) := by
  unfold execDomainGate
  grind only [Keeps.trans, Keeps.refl, domainCmd_keeps, Answers.next, Keeps.forEach]

theorem execTrayParkDone_answers (a0 : Nat) (a1 : Nat) (s : State) : Answers s (execTrayParkDone a0 a1 s) := by
  unfold execTrayParkDone
  grind only [Keeps.trans, Keeps.refl, settle_keeps, checkGating_keeps, parkTray_keeps, Answers.next, Keeps.forEach]

theorem execOverCurrent_answers (a0 : Nat) (s : State) : Answers s (execOverCurrent a0 s) := by
  unfold execOverCurrent
  grind only [Keeps.trans, Keeps.refl, State.modCluster_keeps, State.modTwc_keeps, Answers.next, Keeps.forEach]

theorem execTelemetry_answers (a0 : Nat) (s : State) : Answers s (execTelemetry a0 s) := by
  unfold execTelemetry
  grind only [Keeps.trans, Keeps.refl, State.modHalf_keeps, makeRecord_keeps, State.modBerth_keeps, Answers.next,
      Keeps.forEach]

theorem powerRule_keeps (a0 : Nat) (a1 : Sensors) (s : State) : Keeps s (powerRule a0 a1 s) := by
  unfold powerRule
  grind only [Keeps.trans, Keeps.refl, State.modHalf_keeps, State.modTwc_keeps, Keeps.forEach]

theorem latch_keeps (a0 : Nat) (a1 : Sensors) (s : State) : Keeps s (latch a0 a1 s) := by
  unfold latch
  grind only [Keeps.trans, Keeps.refl, State.modStack_keeps, State.modCluster_keeps, State.modGlb_keeps,
      Keeps.forEach]

theorem execTidewatchLoop_answers (a0 : Nat) (a1 : Bool) (a2 : Sensors) (s : State) : Answers s (execTidewatchLoop
    a0 a1 a2 s) := by
  unfold execTidewatchLoop
  grind only [Keeps.trans, Keeps.refl, State.modHalf_keeps, latch_keeps, thermalRule_keeps, settle_keeps,
      writeStages_keeps, powerRule_keeps, Answers.next, Keeps.forEach]

/-! ### Machine/Boot.lean -/

theorem memWf_keptMem {m : Memory} (h : Memory.wf m = true) : Memory.wf (keptMem m) = true := tblWf_drop _ _ _ h
theorem memWf_keptTrays {m : Memory} (h : Memory.wf m = true) : Memory.wf (keptTrays m) = true := tblWf_drop _ _ _ h
theorem memWf_keptMoor {m : Memory} (h : Memory.wf m = true) : Memory.wf (keptMoor m) = true := tblWf_drop _ _ _ h
theorem tblWf_keptUnits {t : Tbl UnitSt} (h : tblWf .good t = true) : tblWf .good (keptUnits t) = true :=
      tblWf_drop _ _ _ h
theorem tblWf_keptMoorUnits {t : Tbl UnitSt} (h : tblWf .good t = true) : tblWf .good (keptMoorUnits t) = true :=
      tblWf_drop _ _ _ h

theorem partReset_keeps (a0 : Bool) (s : State) : Keeps s (partReset a0 s) := by
  exact
    { pending := rfl
      memWf := fun h => by
        obtain ⟨h1, h2, h3, h4, h5⟩ := (State.memWf_iff s).1 h
        exact (State.memWf_iff _).2 ⟨memWf_keptMem h1, memWf_keptMoor h2, memWf_keptTrays h3, tblWf_keptUnits h4,
          tblWf_keptMoorUnits h5⟩
      keeper := fun _ => Dbg.fits_reset
      tickets := fun _ h => by simp [partReset]
      secver := fun _ => Nat.le_refl _
      retired := fun _ => id
      bad := fun _ => id
      fresh := Nat.le_refl _ }

theorem execReset_answers (s : State) : Answers s (execReset s) := by
  unfold execReset
  grind only [Keeps.trans, Keeps.refl, State.modTwc_keeps, partReset_keeps, Answers.next, Keeps.forEach]

theorem finishCmd_keeps (a0 : Nat) (s : State) : Keeps s (finishCmd a0 s) := by
  unfold finishCmd
  grind only [Keeps.trans, Keeps.refl, State.modTwc_keeps, makeRecord_keeps, Keeps.forEach]

theorem beginCmd_keeps (a0 : Nat) (a1 : Nat) (s : State) : Keeps s (beginCmd a0 a1 s) := by
  unfold beginCmd
  grind only [Keeps.trans, Keeps.refl, State.modTwc_keeps, Keeps.forEach]

theorem operatorCmd_keeps (op berth : Nat) (f : State → State) (hf : ∀ t, Keeps t (f t)) (s : State) :
    Keeps s (operatorCmd op berth f s) := by
  unfold operatorCmd
  split
  · exact .refl _
  · split
    · exact (State.modTwc_keeps _ _).trans (hf _)
    · split
      · exact .refl _
      · exact (beginCmd_keeps op berth s).trans (Keeps.ite (finishCmd_keeps _ _) (hf _))

theorem setMeas_keeps (a0 : Nat) (a1 : Nat) (a2 : BitVec 384) (s : State) : Keeps s (setMeas a0 a1 a2 s) := by
  unfold setMeas
  grind only [Keeps.trans, Keeps.refl, State.modSec_same, Keeps.forEach]

theorem fundamental_keeps (s : State) : Keeps s (fundamental s) := by
  unfold fundamental
  grind only [Keeps.trans, Keeps.refl, State.modGlb_keeps, partReset_keeps, Keeps.forEach]

theorem tryReset_keeps (s : State) : Keeps s (tryReset s) := by
  unfold tryReset
  grind only [Keeps.trans, Keeps.refl, fundamental_keeps, partReset_keeps, Keeps.forEach]

theorem takePeerM2_keeps (a0 : Nat) (s : State) : Keeps s (takePeerM2 a0 s) := by
  unfold takePeerM2
  grind only [Keeps.trans, Keeps.refl, setMeas_keeps, Keeps.forEach]

theorem measure_keeps (a0 : Nat) (a1 : Nat) (a2 : BitVec 384) (s : State) : Keeps s (measure a0 a1 a2 s) := by
  unfold measure
  grind only [Keeps.trans, Keeps.refl, setMeas_keeps, Keeps.forEach]

theorem takeImage_keeps (a0 : Nat) (a1 : Nat) (a2 : Nat) (a3 : Firmware) (s : State) : Keeps s (takeImage a0 a1 a2
    a3 s) := by
  unfold takeImage
  grind only [Keeps.trans, Keeps.refl, measure_keeps, State.modHalf_keeps, Keeps.forEach]

theorem bringUp_keeps (a0 : Nat) (a1 : Chair) (s : State) : Keeps s (bringUp a0 a1 s) := by
  unfold bringUp
  grind only [Keeps.trans, Keeps.refl, State.modHalf_keeps, setGlbHalf_keeps, reportFrom_keeps, Keeps.forEach]

theorem applyRaises_keeps (a0 : Nat) (s : State) : Keeps s (applyRaises a0 s) := by
  unfold applyRaises
  extract_lets l t
  refine (State.modHalf_keeps s a0 _).trans (Keeps.forEach (fun x y => ?_) _ _)
  refine State.modSec_keeps _ _ (fun z j => ?_) (fun _ h => h)
  dsimp only
  rw [look_put]
  split
  · subst j; exact Nat.le_max_right _ _
  · exact Nat.le_refl _

theorem reportInterrupted_keeps (s : State) : Keeps s (reportInterrupted s) := by
  unfold reportInterrupted
  grind only [Keeps.trans, Keeps.refl, makeRecord_keeps, State.modTrec_same, Keeps.forEach]

theorem checkAgree_keeps (s : State) : Keeps s (checkAgree s) := by
  unfold checkAgree
  grind only [Keeps.trans, Keeps.refl, settle_keeps, applyRaises_keeps, reportInterrupted_keeps, bringUp_keeps,
      State.modHalf_keeps, takePeerM2_keeps, State.modSec_same, Keeps.forEach]

theorem rejectRom_keeps (a0 : Nat) (s : State) : Keeps s (rejectRom a0 s) := by
  unfold rejectRom
  grind only [Keeps.trans, Keeps.refl, report_keeps, State.modHalf_keeps, Keeps.forEach]

theorem loadLayouts_keeps (s : State) : Keeps s (loadLayouts s) := by
  unfold loadLayouts
  grind only [Keeps.trans, Keeps.refl, State.modBerth_keeps, Keeps.forEach]

theorem loadShares_keeps (a0 : Nat) (s : State) : Keeps s (loadShares a0 s) := by
  unfold loadShares
  grind only [Keeps.trans, Keeps.refl, State.modShare_keeps, Keeps.forEach]

theorem loadRecord_keeps (a0 : Nat) (s : State) : Keeps s (loadRecord a0 s) := by
  unfold loadRecord
  grind only [Keeps.trans, Keeps.refl, setGlbHalf_keeps, State.modChan_keeps, State.modHarbour_keeps,
      loadShares_keeps, loadLayouts_keeps, State.modSec_same, State.modHalf_keeps, Keeps.forEach]

theorem stageAction_keeps (a0 : Nat) (a1 : Nat) (a2 : Firmware) (a3 : Firmware) (a4 : Firmware) (a5 : Firmware) (s :
    State) {t : State} (h : stageAction a0 a1 a2 a3 a4 a5 s = some t) : Keeps s t := by
  unfold stageAction at h
  grind only [Keeps.trans, Keeps.refl, State.modHalf_keeps, takeImage_keeps, State.modSec_same, rebuildMap_keeps,
      loadRecord_keeps, takePeerM2_keeps, Keeps.forEach]

theorem execBootStageDone_answers (a0 : Nat) (a1 : Firmware) (a2 : Firmware) (a3 : Firmware) (a4 : Firmware) (s :
    State) : Answers s (execBootStageDone a0 a1 a2 a3 a4 s) := by
  unfold execBootStageDone
  extract_lets t n
  split
  · exact .next (.refl _)
  · split
    · exact .next (rejectRom_keeps _ _)
    · rename_i h
      exact .next ((stageAction_keeps _ _ _ _ _ _ _ h).trans ((State.modHalf_keeps _ _ _).trans (checkAgree_keeps
          _)))

theorem enterSplit_keeps (a0 : Nat) (a1 : Nat) (s : State) : Keeps s (enterSplit a0 a1 s) := by
  unfold enterSplit
  grind only [Keeps.trans, Keeps.refl, State.modHalf_keeps, killAll_keeps, setGlbHalf_keeps, makeRecord_keeps,
      reportFrom_keeps, Keeps.forEach]

theorem execBootHeartbeatTimeout_answers (a0 : Nat) (s : State) : Answers s (execBootHeartbeatTimeout a0 s) := by
  unfold execBootHeartbeatTimeout
  grind only [Keeps.trans, Keeps.refl, enterSplit_keeps, Answers.next, Keeps.forEach]

theorem execIsthmusHeartbeatLost_answers (a0 : Nat) (s : State) : Answers s (execIsthmusHeartbeatLost a0 s) := by
  unfold execIsthmusHeartbeatLost
  grind only [Keeps.trans, Keeps.refl, State.modHalf_keeps, enterSplit_keeps, Answers.next, Keeps.forEach]

theorem execIsthmusHeartbeat_answers (a0 : Nat) (a1 : Bool) (a2 : Nat) (a3 : BitVec 384) (s : State) : Answers s
    (execIsthmusHeartbeat a0 a1 a2 a3 s) := by
  unfold execIsthmusHeartbeat
  grind only [Keeps.trans, Keeps.refl, State.modHalf_keeps, reportFrom_keeps, checkAgree_keeps, enterSplit_keeps,
      Answers.next, Keeps.forEach]

theorem execIsthmusHeartbeatSend_answers (a0 : Nat) (s : State) : Answers s (execIsthmusHeartbeatSend a0 s) := by
  unfold execIsthmusHeartbeatSend
  grind only [Keeps.trans, Keeps.refl, State.emit_keeps, Answers.next, Keeps.forEach]

theorem execFundamentalReset_answers (s : State) : Answers s (execFundamentalReset s) := by
  unfold execFundamentalReset
  grind only [Keeps.trans, Keeps.refl, State.modTwc_keeps, fundamental_keeps, Answers.next, Keeps.forEach]

theorem execShelfMapRebuild_answers (s : State) : Answers s (execShelfMapRebuild s) := by
  unfold execShelfMapRebuild
  grind only [Keeps.trans, Keeps.refl, rebuildMap_keeps, Answers.next, Keeps.forEach]

/-! ### Machine/Berths.lean -/

theorem execKillQueue_answers (a0 : Nat) (a1 : Nat) (s : State) : Answers s (execKillQueue a0 a1 s) := by
  unfold execKillQueue
  grind only [Keeps.trans, Keeps.refl, operatorCmd_keeps, finishCmd_keeps, killQueue_keeps, Answers.next,
      Keeps.forEach]

theorem dropMigrations_keeps (a0 : Nat) (s : State) : Keeps s (dropMigrations a0 s) := by
  unfold dropMigrations
  grind only [Keeps.trans, Keeps.refl, State.modHalf_keeps, Keeps.forEach]

theorem parkDrop_keeps (a0 : Nat) (s : State) : Keeps s (parkDrop a0 s) := by
  unfold parkDrop
  grind only [Keeps.trans, Keeps.refl, dropMigrations_keeps, State.modBerth_keeps, Keeps.forEach]

theorem beginPark_keeps (a0 : Nat) (a1 : Bool) (s : State) : Keeps s (beginPark a0 a1 s) := by
  unfold beginPark
  grind only [Keeps.trans, Keeps.refl, parkDrop_keeps, State.modBerth_keeps, killAll_keeps, closeReq_keeps,
      tellRanks_keeps, Keeps.forEach]

theorem execPark_answers (a0 : Nat) (s : State) : Answers s (execPark a0 s) := by
  unfold execPark
  grind only [Keeps.trans, Keeps.refl, operatorCmd_keeps, finishCmd_keeps, beginPark_keeps, Answers.next,
      Keeps.forEach]

theorem freeMoorings_keeps (a0 : Nat) (s : State) : Keeps s (freeMoorings a0 s) := by
  unfold freeMoorings
  extract_lets t
  have h0 : Keeps s t := Keeps.forEach (fun x y => State.modHarbour_keeps _ _ _) _ _
  exact h0.trans (Keeps.setMoorBoth _ _ _ (fun h => tblWf_drop _ _ _ h) (fun h => tblWf_drop _ _ _ h))

theorem releaseTray_keeps (a0 : Nat) (a1 : Nat) (a2 : Nat) (s : State) : Keeps s (releaseTray a0 a1 a2 s) := by
  unfold releaseTray
  grind only [Keeps.trans, Keeps.refl, State.modTray_keeps, dropCopy_keeps, Keeps.forEach]

theorem closeUnits_keeps (a0 : Nat) (s : State) : Keeps s (closeUnits a0 s) := by
  unfold closeUnits
  grind only [Keeps.trans, Keeps.refl, returnTray_keeps, State.setQueue_keeps, State.setRun_keeps,
      State.setSync_keeps, Keeps.forEach]

theorem freeBerth_keeps (a0 : Nat) (s : State) : Keeps s (freeBerth a0 s) := by
  unfold freeBerth
  grind only [Keeps.trans, Keeps.refl, closeUnits_keeps, dropMigrations_keeps, releaseTray_keeps,
      freeMoorings_keeps, State.modShare_keeps, State.modBerth_keeps, settle_keeps, Keeps.forEach]

theorem tryRemove_keeps (a0 : Nat) (s : State) : Keeps s (tryRemove a0 s) := by
  unfold tryRemove
  grind only [Keeps.trans, Keeps.refl, freeBerth_keeps, finishCmd_keeps, makeRecord_keeps, Keeps.forEach]

theorem beginRemove_keeps (a0 : Nat) (a1 : Nat) (a2 : Nat) (s : State) : Keeps s (beginRemove a0 a1 a2 s) := by
  unfold beginRemove
  grind only [Keeps.trans, Keeps.refl, State.modBerth_keeps, tryRemove_keeps, killAll_keeps, Keeps.forEach]

theorem execRemove_answers (a0 : Nat) (s : State) : Answers s (execRemove a0 s) := by
  unfold execRemove
  grind only [Keeps.trans, Keeps.refl, operatorCmd_keeps, finishCmd_keeps, beginRemove_keeps, Answers.next,
      Keeps.forEach]

theorem pinTray_keeps (a0 : Nat) (a1 : Nat × Nat × Bool) (s : State) : Keeps s (pinTray a0 a1 s) := by
  unfold pinTray
  grind only [Keeps.trans, Keeps.refl, State.modTray_keeps, Keeps.forEach]

theorem chargeResident_keeps (a0 : Nat) (a1 : Image) (s : State) : Keeps s (chargeResident a0 a1 s) := by
  unfold chargeResident
  grind only [Keeps.trans, Keeps.refl, State.modShare_keeps, Keeps.forEach]

theorem forgetPlans_keeps (a0 : Nat) (s : State) : Keeps s (forgetPlans a0 s) := by
  unfold forgetPlans
  grind only [Keeps.trans, Keeps.refl, State.modCluster_keeps, Keeps.forEach]

theorem mapPage_keeps (a0 : Nat) (a1 : Nat) (a2 : Tier) (a3 : Nat) (s : State) :
    Keeps s (mapPage a0 a1 a2 a3 s) := by
  unfold mapPage
  extract_lets last lo t u v
  have ht : Keeps s t := Keeps.ite (Keeps.forEach (fun _ _ => dropCopy_keeps _ _) _ _) (.refl _)
  have hu : Keeps s u := by
    refine Keeps.ite (.refl _) (ht.trans ?_)
    exact (Keeps.setMemUnits _ _ _ (fun h => Memory.wf_zeroBytes h _ _) (fun h => tblWf_drop _ _ _ h)).trans
      (.same rfl rfl rfl rfl rfl rfl rfl rfl rfl rfl rfl)
  exact (hu.trans (Keeps.setPageLast _ _)).trans (State.modBerth_keeps _ _ _)

theorem openGroup_keeps (a0 : Nat) (a1 : Nat) (a2 : GroupDecl) (s : State) : Keeps s (openGroup a0 a1 a2 s) := by
  unfold openGroup
  grind only [Keeps.trans, Keeps.refl, hearAll_keeps, State.modGroup_keeps, Keeps.forEach]

theorem openSync_keeps (a0 : Nat) (a1 : SyncDecl) (s : State) : Keeps s (openSync a0 a1 s) := by
  unfold openSync
  grind only [Keeps.trans, Keeps.refl, State.setSync_keeps, Keeps.forEach]

theorem openQueue_keeps (a0 : Nat) (a1 : QueueDecl) (s : State) : Keeps s (openQueue a0 a1 s) := by
  unfold openQueue
  grind only [Keeps.trans, Keeps.refl, State.setQueue_keeps, Keeps.forEach]

theorem admitImage_keeps (a0 : Nat) (a1 : Image) (a2 : List Nat) (s : State) : Keeps s (admitImage a0 a1 a2 s) := by
  unfold admitImage
  grind only [Keeps.trans, Keeps.refl, State.modBerth_keeps, openQueue_keeps, openSync_keeps, openGroup_keeps,
      mapPage_keeps, forgetPlans_keeps, chargeResident_keeps, pinTray_keeps, Keeps.forEach]

theorem admissionDone_keeps (a0 : Nat) (a1 : Nat) (a2 : Nat) (a3 : Nat) (s : State) : Keeps s (admissionDone a0 a1
    a2 a3 s) := by
  unfold admissionDone
  grind only [Keeps.trans, Keeps.refl, finishCmd_keeps, raiseVector_keeps, makeRecord_keeps, State.modTwc_keeps,
      Keeps.forEach]

theorem finishAdmit_keeps (a0 : Nat) (a1 : Image) (a2 : List Nat) (s : State) : Keeps s (finishAdmit a0 a1 a2 s) := by
  unfold finishAdmit
  grind only [Keeps.trans, Keeps.refl, settle_keeps, admissionDone_keeps, admitImage_keeps, Keeps.forEach]

theorem tryAdmit_keeps (a0 : Nat) (a1 : Nat) (s : State) : Keeps s (tryAdmit a0 a1 s) := by
  unfold tryAdmit
  grind only [Keeps.trans, Keeps.refl, State.modTwc_keeps, finishAdmit_keeps, Keeps.forEach]

theorem finishRestore_keeps (a0 : Nat) (s : State) : Keeps s (finishRestore a0 s) := by
  unfold finishRestore
  grind only [Keeps.trans, Keeps.refl, State.modBerth_keeps, State.modTrec_same, dropCopy_keeps, finishCmd_keeps,
      raiseVector_keeps, makeRecord_keeps, Keeps.forEach]

theorem execRestorePageReturn_answers (a0 : Nat) (a1 : Nat) (s : State) : Answers s (execRestorePageReturn a0 a1 s) :=
    by
  unfold execRestorePageReturn
  grind only [Keeps.trans, Keeps.refl, copyPage_keeps, readUnit_keeps, State.modPage_keeps, State.modBerth_keeps,
      finishRestore_keeps, Keeps.with, Answers.next, Keeps.forEach]

theorem returnPinned_keeps (a0 : Nat) (a1 : Nat) (a2 : Nat) (s : State) : Keeps s (returnPinned a0 a1 a2 s) := by
  unfold returnPinned
  extract_lets bs y t o u
  split
  · exact (Keeps.setTrays s _ (fun h => Memory.wf_wrBytes (Memory.wf_zeroBytes h _ _) _ _)).trans
      (State.modTray_keeps _ _ _ _)
  · exact ((Keeps.setTrays s _ (fun h => Memory.wf_wrBytes (Memory.wf_zeroBytes h _ _) _ _)).trans
      (Keeps.forEach (fun _ _ => programUnit_keeps _ _ _) _ _)).trans (State.modTray_keeps _ _ _ _)

theorem reload_keeps (a0 : Nat) (a1 : ParkRec) (a2 : List Nat) (s : State) : Keeps s (reload a0 a1 a2 s) := by
  unfold reload
  extract_lets s1 s2 s3 s4 s5 mine marks s6 s7 us s8
  have h1 : Keeps s s1 := Keeps.forEach (fun _ _ => State.setQueue_keeps _ _ _) _ _
  have h2 : Keeps s1 s2 := Keeps.forEach (fun _ _ => State.setRun_keeps _ _ _) _ _
  have h3 : Keeps s2 s3 := Keeps.forEach (fun _ _ => State.setSync_keeps _ _ _) _ _
  have h4 : Keeps s3 s4 := Keeps.forEach (fun _ _ => returnPinned_keeps _ _ _ _) _ _
  have h5 : Keeps s4 s5 := Keeps.forEach (fun _ _ => State.modHarbour_keeps _ _ _) _ _
  have h6 : Keeps s5 s6 := Keeps.setMoorBoth _ _ _
    (fun h => tblWf_foldl _ _ (fun _ _ h => Memory.wf_wrByte h _ _) _ _ h)
    (fun h => tblWf_foldl _ _ (fun _ _ h => tblWf_put _ _ _ _ h) _ _ h)
  have h8 : Keeps s6 s8 := (chargeResident_keeps _ _ _).trans (State.modBerth_keeps _ _ _)
  exact ((((h1.trans h2).trans (h3.trans h4)).trans (h5.trans h6)).trans h8).trans
    (Keeps.forEach (fun _ _ => hearAll_keeps _ _ _) _ _)

theorem execRestore_answers (a0 : Nat) (a1 : List Nat) (s : State) : Answers s (execRestore a0 a1 s) := by
  unfold execRestore
  grind only [Keeps.trans, Keeps.refl, operatorCmd_keeps, finishCmd_keeps, reload_keeps, settle_keeps,
      finishRestore_keeps, Answers.next, Keeps.forEach]

theorem copyMoorings_keeps (a0 : Nat) (s : State) : Keeps s (copyMoorings a0 s) := Keeps.setMoorBoth _ _ _
    (fun h => tblWf_foldl _ _ (fun _ _ h => Memory.wf_wrByte h _ _) _ _ (tblWf_drop _ _ _ h))
    (fun h => tblWf_foldl _ _ (fun _ _ h => tblWf_put _ _ _ _ h) _ _ (tblWf_drop _ _ _ h))

theorem parkPage_keeps (b v : Nat) (s : State) : Keeps s (parkPage b v s).1 := by
  unfold parkPage
  extract_lets p entry
  split
  · exact .refl _
  · generalize freeShelfPage s _ _ = o
    cases o with
    | none => exact .refl _
    | some page =>
      dsimp only
      have hc := copyPage_keeps p.phys page s
      generalize copyPage p.phys page s = y at hc ⊢
      generalize s.unreachable (p.phys * 2 ^ 21) = dead
      exact (hc.trans ((Keeps.setPageLast y _).trans (Keeps.ite (.refl _)
        (Keeps.forEach (fun _ _ => programUnit_keeps _ _ _) _ _)))).trans (State.modPage_keeps _ _ _ _)

theorem finishPark_keeps (a0 : Nat) (s : State) : Keeps s (finishPark a0 s) := by
  unfold finishPark
  extract_lets s1 img trays lines s2 s3 step
  have h1 : Keeps s s1 := parkDrop_keeps _ _
  have h2 : Keeps s1 s2 :=
    Keeps.forEach (fun _ _ => Keeps.setTrays _ _ (fun h => Memory.wf_wrBytes (Memory.wf_zeroBytes h _ _) _ _)) _ _
  have h3 : Keeps s2 s3 := copyMoorings_keeps _ _
  have h4 : Keeps s3 ((parkOrder (s3.berth a0)).foldl step (s3, [], 0)).1 :=
    Keeps.foldl (fun acc : State × List (Nat × Nat × Tier) × Nat => acc.1) (f := step)
      (fun acc v => parkPage_keeps _ _ _) _ (s3, [], 0)
  refine ((h1.trans h2).trans h3).trans ?_
  split
  rename_i s4 pages written e
  rw [e] at h4
  extract_lets p4 t rec_ bytes ms s5 s6 s7 s8 s9
  have hp : Keeps s4 p4 := Keeps.forEach (fun _ _ => programUnit_keeps _ _ _) _ _
  have h5 : Keeps p4 s5 := Keeps.forEach (fun _ _ => releaseTray_keeps _ _ _ _) _ _
  have h6 : Keeps s5 s6 := (closeUnits_keeps a0 _).trans (freeMoorings_keeps a0 _)
  have h7 : Keeps s6 s7 := Keeps.forEach (fun _ _ => State.modShare_keeps _ _ _ _) _ _
  have h9 : Keeps s7 s9 := (State.modBerth_keeps _ _ _).trans (State.modTrec_same _ _ rfl)
  exact ((h4.trans hp).trans ((h5.trans h6).trans (h7.trans h9))).trans ((makeRecord_keeps _ _ _ _ _).trans
    ((raiseVector_keeps _ _).trans ((shelfFlags_keeps _).trans (settle_keeps _))))

theorem startScrub_keeps (a0 : Nat) (a1 : Nat × Nat) (s : State) : Keeps s (startScrub a0 a1 s) := by
  unfold startScrub
  grind only [Keeps.trans, Keeps.refl, State.modTray_keeps, Keeps.forEach]

theorem execProofCheckDone_answers (a0 : List Nat) (s : State) : Answers s (execProofCheckDone a0 s) := by
  unfold execProofCheckDone
  grind only [Keeps.trans, Keeps.refl, admissionDone_keeps, finishAdmit_keeps, startScrub_keeps, State.modTwc_keeps,
      Answers.next, Keeps.forEach]

theorem execAdmit_answers (a0 : Nat) (a1 : Image) (s : State) : Answers s (execAdmit a0 a1 s) := by
  unfold execAdmit
  grind only [Keeps.trans, Keeps.refl, operatorCmd_keeps, finishCmd_keeps, State.modTwc_keeps, Answers.next,
      Keeps.forEach]

theorem execTrayScrubDone_answers (a0 : Nat) (a1 : Nat) (s : State) : Answers s (execTrayScrubDone a0 a1 s) := by
  unfold execTrayScrubDone
  split
  · extract_lets t u
    have hu : Keeps s u :=
      (State.modTray_keeps _ _ _ _).trans (Keeps.setTrays t _ (fun h => Memory.wf_zeroBytes h _ _))
    refine .next (hu.trans (Keeps.trans ?_ (tryAdmit_keeps _ _ _)))
    split
    · exact startIdle_keeps _ _
    · exact .refl _
  · exact .next (.refl _)

/-! ### Machine/Fence.lean -/

theorem unfenceHalf_keeps (a0 : Nat) (s : State) : Keeps s (unfenceHalf a0 s) := by
  unfold unfenceHalf
  extract_lets s1 s2 s3 s4 s5 mine s6 s7 s8
  have h1 : Keeps s s1 := by
    refine State.modTrec_same _ _ ?_
    split <;> rfl
  have h3 : Keeps s1 s4 := ((setGlbHalf_keeps _ _ _).trans (State.modHalf_keeps _ _ _)).trans (State.modHalf_keeps _
      _ _)
  have h5 : Keeps s4 s5 := Keeps.forEach (fun _ _ => setMeas_keeps _ _ _ _) _ _
  have h7 : Keeps s5 s7 := (State.modCwy_keeps _ _).trans (Keeps.setBerths _ _)
  have h8 : Keeps s7 s8 := (linkLost_keeps _).trans (Keeps.forEach (fun _ _ => trainPort_keeps _ _) _ _)
  exact ((h1.trans h3).trans (h5.trans (h7.trans h8))).trans ((reportFrom_keeps _ _ _).trans (settle_keeps _))

theorem aloneChairs_keeps (a0 : Nat) (s : State) : Keeps s (aloneChairs a0 s) := by
  unfold aloneChairs
  exact (Keeps.ite (.refl _) (State.modHalf_keeps _ _ _)).trans (State.modHalf_keeps _ _ _)

theorem removeHalf_keeps (a0 : Nat) (s : State) : Keeps s (removeHalf a0 s) := by
  unfold removeHalf
  extract_lets s1 s2 s3 s4 live s5
  have h2 : Keeps s1 s2 := by
    refine State.modTrec_same _ _ ?_
    split <;> rfl
  have h4 : Keeps s2 s4 := (setGlbHalf_keeps _ _ _).trans
    ((aloneChairs_keeps _ _).trans ((linkLost_keeps _).trans (reportFrom_keeps _ _ _)))
  have h5 : Keeps s4 s5 := Keeps.ite (.refl _) ((bringUp_keeps _ _ _).trans (applyRaises_keeps _ _))
  exact (((State.modTwc_keeps s _).trans h2).trans (h4.trans h5)).trans ((startMig_keeps _ _).trans (settle_keeps
      _))

theorem fenceStep_keeps (s : State) : Keeps s (fenceStep s) := by
  unfold fenceStep
  split
  · exact .refl _
  · split
    · exact .refl _
    · rename_i h draining _ _
      extract_lets s1 s2 s3
      have h3 : Keeps s s3 := Keeps.ite (.refl _) (((killAll_keeps _ _ _).trans (State.modTwc_keeps _ _)).trans
        (Keeps.forEach (fun _ _ => drainPort_keeps _ _) _ _))
      exact Keeps.ite (h3.trans (removeHalf_keeps _ _)) h3

theorem execDrainEnd_answers (a0 : Nat) (s : State) : Answers s (execDrainEnd a0 s) := by
  unfold execDrainEnd
  grind only [Keeps.trans, Keeps.refl, fenceStep_keeps, checkGating_keeps, portOff_keeps, endDrain_keeps,
      Answers.next, Keeps.forEach]

theorem beginFence_keeps (a0 : Nat) (a1 : Bool) (s : State) : Keeps s (beginFence a0 a1 s) := by
  unfold beginFence
  extract_lets hit s1 s2
  have h2 : Keeps s1 s2 := Keeps.ite (Keeps.forEach (fun _ _ => beginRemove_keeps _ _ _ _) _ _)
    (Keeps.forEach (fun _ _ => beginPark_keeps _ _ _) _ _)
  exact ((State.modTwc_keeps s _).trans h2).trans (fenceStep_keeps _)

theorem fenceSelf_keeps (a0 : Nat) (s : State) : Keeps s (fenceSelf a0 s) := by
  unfold fenceSelf
  extract_lets s1 s2 s3
  have h3 : Keeps s2 s3 := by
    refine State.modTrec_same _ _ ?_
    split <;> rfl
  exact ((Keeps.forEach (fun _ _ => portOff_keeps _ _) _ s).trans (setGlbHalf_keeps _ _ _)).trans
    (h3.trans ((State.modHalf_keeps _ _ _).trans (reportFrom_keeps _ _ _)))

theorem execParkComplete_answers (a0 : Nat) (s : State) : Answers s (execParkComplete a0 s) := by
  unfold execParkComplete
  grind only [Keeps.trans, Keeps.refl, finishPark_keeps, fenceStep_keeps, finishCmd_keeps, Answers.next,
      Keeps.forEach]

end Sys2Proof.Machine
end

