-- ==== Sys2Proof/Laws/KeepsOutside.lean ====
section
/-! SUPPORT. What no command undoes (Laws/Keeps.lean), for every operation on tickets, the host port, registers,
Keeper and the clocks: one lemma per operation; for a meaning, that it answers a next state as well. -/
namespace Sys2Proof.Machine

/-! ### Machine/Security.lean -/

theorem levelReport_keeps (s : State) : Keeps s (levelReport s) := by
  unfold levelReport
  grind only [Keeps.trans, Keeps.refl, report_keeps, Keeps.forEach]

theorem setLevel_keeps (a0 : Nat) (a1 : BitVec 32) (s : State) : Keeps s (setLevel a0 a1 s) := by
  unfold setLevel
  grind only [Keeps.trans, Keeps.refl, State.modSec_same, levelReport_keeps, Keeps.forEach]

theorem endTicketCmd_keeps (a0 : Nat) (a1 : Nat) (s : State) : Keeps s (endTicketCmd a0 a1 s) := by
  unfold endTicketCmd
  grind only [Keeps.trans, Keeps.refl, finishCmd_keeps, Keeps.forEach]

theorem Sec.fits_filter {x : Sec} (h : x.fits) (p : Ticket → Bool) : ∀ k,
    (((x.pend.filter p).filter (fun t => t.half = k))).length ≤ 4 := fun k =>
  Nat.le_trans (List.Sublist.length_le (List.Sublist.filter _ List.filter_sublist)) (h k)

theorem Sec.fits_map {x : Sec} (h : x.fits) (f : Ticket → Ticket) (hf : ∀ t, (f t).half = t.half) : ∀ k,
    ((x.pend.map f).filter (fun t => t.half = k)).length ≤ 4 := fun k => by
  rw [List.filter_map, List.length_map]
  simpa [Function.comp_def, hf] using h k

theorem endTicket_keeps (a0 : Ticket) (a1 : Nat) (s : State) : Keeps s (endTicket a0 a1 s) := by
  unfold endTicket
  extract_lets refused s1 s2 s3 pay bytes s4
  have h1 : Keeps s s1 := State.modSec_keeps _ _ (fun _ _ => Nat.le_refl _) (fun _ h => Sec.fits_filter h _)
  have h2 : Keeps s s4 := ((h1.trans (State.modTrec_same _ _ rfl)).trans (State.modTwc_keeps _ _)).trans
    (makeRecord_keeps _ _ _ _ _)
  exact Keeps.ite (h2.trans (route_keeps _ _ _)) h2

theorem refuseArrived_keeps (a0 : HalfTicket) (a1 : Nat) (a2 : Nat) (a3 : Nat) (s : State) : Keeps s (refuseArrived
    a0 a1 a2 a3 s) := by
  unfold refuseArrived
  extract_lets t old u
  have hu : Keeps s u := endTicket_keeps _ _ _
  have hv : Keeps s (u.modSec (fun x => { x with pend := old.pend, paired := old.paired })) :=
    { pending := hu.pending, memWf := hu.memWf, keeper := hu.keeper, tickets := id, secver := hu.secver
      retired := hu.retired, bad := hu.bad, fresh := hu.fresh }
  exact hv.trans (endTicketCmd_keeps _ _ _)

theorem findTicket_half {s : State} {h : Nat} {d : BitVec 384} {t : Ticket} (e : findTicket s h d = some t) :
    t.half = h := by
  have := List.find?_some e
  simp at this
  exact this.1

theorem takeHalfTicket_keeps (a0 : HalfTicket) (a1 : Nat) (a2 : Nat) (s : State) : Keeps s (takeHalfTicket a0 a1 a2
    s) := by
  unfold takeHalfTicket
  extract_lets d have_ t u v w
  split
  · exact refuseArrived_keeps _ _ _ _ _
  · split
    · exact refuseArrived_keeps _ _ _ _ _
    · split
      · exact refuseArrived_keeps _ _ _ _ _
      · rename_i hlt
        refine Keeps.ite (endTicketCmd_keeps _ _ _) ?_
        · have ht : t.half = a1 := by
            unfold t
            cases e : have_ with
            | none => rfl
            | some x => exact findTicket_half e
          have hu : u.half = a1 := by
            unfold u; split <;> exact ht
          have hv : Keeps s v := by
            refine { pending := rfl, memWf := id, keeper := id, tickets := fun h k => ?_, secver := fun _ =>
                Nat.le_refl _
                     retired := fun _ => id, bad := fun _ => id, fresh := Nat.le_refl _ }
            simp only [v, State.modSec]
            by_cases e : have_ = none
            · simp only [e, if_true]
              rw [List.filter_append, List.length_append]
              by_cases hk : k = a1
              · subst hk
                simp only [e, true_and, Nat.not_le] at hlt
                simp [hu]; omega
              · have := h k
                have hne : ¬ u.half = k := fun e => hk (e.symm.trans hu)
                simpa [hne] using this
            · simp only [e, if_false]
              refine Sec.fits_map h _ (fun y => ?_) k
              split
              · rename_i hy; simp at hy; exact hu.trans hy.1.symm
              · rfl
          exact (hv.trans (makeRecord_keeps _ _ _ _ _)).trans (endTicketCmd_keeps _ _ _)

theorem execSignTranscript_answers (s : State) : Answers s (execSignTranscript s) := by
  unfold execSignTranscript
  grind only [Keeps.trans, Keeps.refl, State.emit_keeps, State.modSec_same, Answers.next, Keeps.forEach]

theorem execGetMldsaCert_answers (a0 : Nat) (a1 : Nat) (s : State) : Answers s (execGetMldsaCert a0 a1 s) := by
  unfold execGetMldsaCert
  grind only [Keeps.trans, Keeps.refl, State.modSec_same, State.emit_keeps, Answers.next, Keeps.forEach]

theorem execSpdmRequest_answers (a0 : SpdmReq) (s : State) : Answers s (execSpdmRequest a0 s) := by
  unfold execSpdmRequest
  grind only [Keeps.trans, Keeps.refl, State.modSec_same, State.emit_keeps, Answers.next, Keeps.forEach]

theorem applyKeys_keeps (a0 : List Byte) (s : State) : Keeps s (applyKeys a0 s) := by
  unfold applyKeys
  grind only [Keeps.trans, Keeps.refl, State.modTrec_same, State.modSec_same, Keeps.forEach]

theorem clearSplit_keeps (s : State) : Keeps s (clearSplit s) := by
  unfold clearSplit
  grind only [Keeps.trans, Keeps.refl, State.modSec_same, State.modHalf_keeps, setGlbHalf_keeps, applyRaises_keeps,
      bringUp_keeps, settle_keeps, startMig_keeps, Keeps.forEach]

theorem applyFence_keeps (a0 : Ticket) (a1 : Bool) (s : State) : Keeps s (applyFence a0 a1 s) := by
  unfold applyFence
  grind only [Keeps.trans, Keeps.refl, fenceSelf_keeps, beginFence_keeps, Keeps.forEach]

theorem applyShares_keeps (a0 : List Byte) (s : State) : Keeps s (applyShares a0 s) := by
  unfold applyShares
  grind only [Keeps.trans, Keeps.refl, State.modTrec_same, settle_keeps, State.modBerth_keeps, Keeps.forEach]

theorem applyLayout_keeps (a0 : List Byte) (s : State) : Keeps s (applyLayout a0 s) := by
  unfold applyLayout
  grind only [Keeps.trans, Keeps.refl, shelfFlags_keeps, State.modTrec_same, State.modGlb_keeps,
      State.modHarbour_keeps, State.modBerth_keeps, State.setBerth_keeps, State.modShare_keeps, Keeps.forEach]

theorem applyTicket_keeps (a0 : Ticket) (a1 : Bool) (s : State) : Keeps s (applyTicket a0 a1 s) := by
  unfold applyTicket
  grind only [Keeps.trans, Keeps.refl, State.modTrec_same, State.modSec_same, applyLayout_keeps, applyShares_keeps,
      setLevel_keeps, applyFence_keeps, unfenceHalf_keeps, clearSplit_keeps, applyKeys_keeps, endTicket_keeps,
      Keeps.forEach]

theorem sendPaired_keeps (a0 : Nat) (s : State) : Keeps s (sendPaired a0 s) := by
  induction a0 generalizing s with
  | zero => exact .refl _
  | succ k ih =>
    unfold sendPaired
    split
    · exact .refl _
    · split
      · exact .refl _
      · split
        · exact (State.modSec_same _ _ rfl rfl).trans (ih _)
        · split
          · exact .refl _
          · extract_lets code t
            split
            · exact (endTicket_keeps _ _ _).trans (ih _)
            · split
              · exact (applyTicket_keeps _ _ _).trans (ih _)
              · have ht : Keeps s t := by
                  refine State.modSec_keeps _ _ (fun _ _ => Nat.le_refl _) (fun _ h => Sec.fits_map h _ (fun y =>
                      ?_))
                  split <;> rfl
                exact ht.trans (State.emit_keeps _ _)

theorem execPeerVerdictTimeout_answers (s : State) : Answers s (execPeerVerdictTimeout s) := by
  unfold execPeerVerdictTimeout
  grind only [Keeps.trans, Keeps.refl, endTicket_keeps, sendPaired_keeps, Answers.next, Keeps.forEach]

theorem execPeerVerdict_answers (s : State) : Answers s (execPeerVerdict s) := by
  unfold execPeerVerdict
  grind only [Keeps.trans, Keeps.refl, applyTicket_keeps, endTicket_keeps, sendPaired_keeps, Answers.next,
      Keeps.forEach]

theorem execPeerTicketCheck_answers (s : State) : Answers s (execPeerTicketCheck s) := by
  unfold execPeerTicketCheck
  extract_lets t
  have h0 : Keeps s t := sendPaired_keeps _ _
  split
  · exact .next h0
  · extract_lets p x code
    split
    · exact .next h0
    · refine .next (h0.trans (State.modSec_keeps _ _ (fun _ _ => Nat.le_refl _) (fun _ h k => Sec.fits_map h _ ?_
        k)))
      intro y; split <;> rfl

theorem execTicketTimeout_answers (a0 : BitVec 384) (s : State) : Answers s (execTicketTimeout a0 s) := by
  unfold execTicketTimeout
  grind only [Keeps.trans, Keeps.refl, endTicket_keeps, Answers.next, Keeps.forEach]

theorem execCustodianHalfTicket_answers (a0 : Nat) (a1 : Nat) (a2 : HalfTicket) (s : State) : Answers s
    (execCustodianHalfTicket a0 a1 a2 s) := by
  unfold execCustodianHalfTicket
  grind only [Keeps.trans, Keeps.refl, State.modSec_same, Answers.next, Keeps.forEach]

theorem execHalfTicketVerified_answers (s : State) : Answers s (execHalfTicketVerified s) := by
  unfold execHalfTicketVerified
  grind only [Keeps.trans, Keeps.refl, State.modSec_same, takeHalfTicket_keeps, sendPaired_keeps, Answers.next,
      Keeps.forEach]

theorem execRelock_answers (s : State) : Answers s (execRelock s) := by
  unfold execRelock
  grind only [Keeps.trans, Keeps.refl, setLevel_keeps, Answers.next, Keeps.forEach]

theorem execTicket_answers (a0 : HalfTicket) (s : State) : Answers s (execTicket a0 s) := by
  unfold execTicket
  grind only [Keeps.trans, Keeps.refl, operatorCmd_keeps, State.modSec_same, Answers.next, Keeps.forEach]

/-! ### Machine/HostPort.lean -/

theorem writeComponent_keeps (o n : Nat) (s : State) : Keeps s (writeComponent o n s) := by
  unfold writeComponent
  have hg : ∀ f, Keeps s (s.modGlb f) := fun _ => State.modGlb_keeps _ _
  dsimp only
  repeat' first | exact Keeps.refl s | exact hg _ | apply Keeps.ite

theorem maskedUnit_keeps (a0 : Nat) (a1 : Nat) (a2 : List (Option Byte)) (s : State) : Keeps s (maskedUnit a0 a1 a2
    s).2 := by
  unfold maskedUnit
  grind only [Keeps.trans, Keeps.refl, State.pokeUnit_keeps, State.slotTouch_keeps, State.spotWrite_keeps,
      Keeps.forEach]

theorem execMgmt_answers (a0 : Nat) (a1 : Packet) (s : State) : Answers s (execMgmt a0 a1 s) := by
  unfold execMgmt
  grind only [Keeps.trans, Keeps.refl, arrive_keeps, discard_keeps, Answers.next, Keeps.forEach]

theorem execConfigSpaceWrite_answers (a0 : Bool) (a1 : Bool) (s : State) : Answers s (execConfigSpaceWrite a0 a1 s)
    := by
  unfold execConfigSpaceWrite
  grind only [Keeps.trans, Keeps.refl, flushVectors_keeps, State.modGlb_keeps, Answers.next, Keeps.forEach]

theorem execSnoop_answers (a0 : Nat) (s : State) : Answers s (execSnoop a0 s) := by
  unfold execSnoop
  grind only [Keeps.trans, Keeps.refl, State.emit_keeps, Answers.next, Keeps.forEach]

theorem execRationsWindow_answers (a0 : Nat) (a1 : Nat) (a2 : List Nat) (s : State) : Answers s (execRationsWindow
    a0 a1 a2 s) := by
  unfold execRationsWindow
  grind only [Keeps.trans, Keeps.refl, Keeps.with, Answers.next, Keeps.forEach]

theorem execCdatRead_answers (s : State) : Answers s (execCdatRead s) := by
  unfold execCdatRead
  grind only [Keeps.trans, Keeps.refl, State.emit_keeps, Answers.next, Keeps.forEach]

theorem execDoeDiscovery_answers (a0 : Nat) (s : State) : Answers s (execDoeDiscovery a0 s) := by
  unfold execDoeDiscovery
  grind only [Keeps.trans, Keeps.refl, State.emit_keeps, Answers.next, Keeps.forEach]

theorem freeBytes_keeps (a0 : Nat) (s : State) : Keeps s (freeBytes a0 s).2 := by
  exact { pending := rfl, memWf := id, keeper := id, tickets := id, secver := fun _ => Nat.le_refl _
          retired := fun _ => id, bad := fun _ => id, fresh := Nat.le_add_right _ _ }

theorem outsideRead_keeps (a0 : Nat) (a1 : Nat) (a2 : Nat) (s : State) : Keeps s (outsideRead a0 a1 a2 s).2 := by
  unfold outsideRead
  refine Keeps.foldl (fun acc : (List Byte × Bool) × State => acc.2) (fun acc q => ?_) _ (([], false), s)
  extract_lets l
  split
  · exact State.slotTouch_keeps _ _ _
  · have h := freeBytes_keeps q.2.length acc.2
    split
    rename_i e
    rw [e] at h
    exact h.trans (State.slotTouch_keeps _ _ _)

theorem recordRefusal_keeps (a0 : Nat) (a1 : Nat) (s : State) : Keeps s (recordRefusal a0 a1 s) := by
  unfold recordRefusal
  grind only [Keeps.trans, Keeps.refl, State.modGlb_keeps, Keeps.forEach]

theorem hostRead_keeps (a0 : Nat) (a1 : Hdm) (a2 : Nat) (a3 : Nat) (s : State) : Keeps s (hostRead a0 a1 a2 a3 s) := by
  unfold hostRead
  grind only [Keeps.trans, Keeps.refl, freeBytes_keeps, recordRefusal_keeps, State.emit_keeps, outsideRead_keeps,
      Keeps.forEach]

theorem hostPiece_keeps (a0 : Nat) (a1 : Bool) (a2 : Nat × List (Option Byte)) (s : State) : Keeps s
    (hostPiece a0 a1 a2 s) := by
  unfold hostPiece
  grind only [Keeps.trans, Keeps.refl, poisonRange_keeps, maskedUnit_keeps, recordUe_keeps]

theorem hostWrite_keeps (a0 : Nat) (a1 : Hdm) (a2 : Nat) (a3 : List (Option Byte)) (a4 : Bool) (s : State) : Keeps s
    (hostWrite a0 a1 a2 a3 a4 s) := by
  unfold hostWrite
  grind only [Keeps.trans, Keeps.refl, recordRefusal_keeps, hostPiece_keeps, Keeps.forEach]

theorem hostAccess_keeps (a0 : HostAcc) (s : State) : Keeps s (hostAccess a0 s) := by
  unfold hostAccess
  grind only [Keeps.trans, Keeps.refl, State.modGlb_keeps, hostWrite_keeps, hostRead_keeps, Keeps.forEach]

theorem retryHost_keeps (s : State) : Keeps s (retryHost s) := by
  unfold retryHost
  grind only [Keeps.trans, Keeps.refl, hostAccess_keeps, State.modGlb_keeps, Keeps.forEach]

theorem execCxlMemWrite_answers (a0 : Nat) (a1 : List (Option Byte)) (a2 : Bool) (s : State) : Answers s
    (execCxlMemWrite a0 a1 a2 s) := by
  unfold execCxlMemWrite
  grind only [Keeps.trans, Keeps.refl, hostAccess_keeps, retryHost_keeps, Answers.next, Keeps.forEach]

theorem execCxlMemRead_answers (a0 : Nat) (a1 : Nat) (s : State) : Answers s (execCxlMemRead a0 a1 s) := by
  unfold execCxlMemRead
  grind only [Keeps.trans, Keeps.refl, hostAccess_keeps, retryHost_keeps, Answers.next, Keeps.forEach]

theorem execHostLinkDown_answers (s : State) : Answers s (execHostLinkDown s) := by
  unfold execHostLinkDown
  grind only [Keeps.trans, Keeps.refl, linkLost_keeps, Answers.next, Keeps.forEach]

theorem execHostLinkUp_answers (a0 : Nat) (a1 : Nat) (a2 : Bool) (a3 : Bool) (a4 : Bool) (s : State) : Answers s
    (execHostLinkUp a0 a1 a2 a3 a4 s) := by
  unfold execHostLinkUp
  grind only [Keeps.trans, Keeps.refl, State.modGlb_keeps, flushVectors_keeps, raiseVector_keeps, Answers.next,
      Keeps.forEach]

theorem execHdmDecoderCommit_answers (a0 : Nat) (a1 : Nat) (a2 : Nat) (a3 : Nat) (s : State) : Answers s
    (execHdmDecoderCommit a0 a1 a2 a3 s) := by
  unfold execHdmDecoderCommit
  grind only [Keeps.trans, Keeps.refl, State.modGlb_keeps, Answers.next, Keeps.forEach]

/-! ### Machine/Regs.lean -/

theorem writeReqCfg_keeps (a0 : Nat) (a1 : RegWrite) (s : State) : Keeps s (writeReqCfg a0 a1 s) := by
  unfold writeReqCfg
  grind only [Keeps.trans, Keeps.refl, closeReq_keeps, doOpen_keeps, State.modReq_keeps, Keeps.forEach]

theorem writeSync_keeps (a0 : Nat) (a1 : Bool) (a2 : Bool) (a3 : RegWrite) (s : State) : Keeps s (writeSync a0 a1 a2
    a3 s) := by
  unfold writeSync
  grind only [Keeps.trans, Keeps.refl, State.modSync_keeps, Keeps.forEach]

theorem writeWindow_keeps (a0 : Nat) (a1 : Nat) (a2 : RegWrite) (s : State) : Keeps s (writeWindow a0 a1 a2 s) := by
  unfold writeWindow
  extract_lets
  repeat' with_reducible first
    | apply Keeps.ite
    | exact .refl _
    | exact ringDoorbell_keeps _ _ _ _
    | exact writeSync_keeps _ _ _ _ _
    | exact State.modBerth_keeps _ _ _
    | exact State.modSlot_keeps _ _ _ _
    | exact (State.modSlot_keeps _ _ _ _).trans (doClear_keeps _ _ _)
    | exact State.modEpochs_keeps _ _ _
    | exact writeReqCfg_keeps _ _ _
    | exact State.modReq_keeps _ _ _ _
    | exact State.modGroup_keeps _ _ _ _

theorem awaitCmd_keeps (a0 : Nat) (a1 : Nat) (a2 : State → Bool) (s : State) : Keeps s (awaitCmd a0 a1 a2 s) := by
  unfold awaitCmd
  grind only [Keeps.trans, Keeps.refl, operatorCmd_keeps, finishCmd_keeps, State.modTwc_keeps, Keeps.forEach]

theorem Answers.keeps {s t : State} {o : Host.Outcome State Fault Refusal} (h : Answers s o) (e : o = .next t) :
    Keeps s t := by
  obtain ⟨u, rfl, hu⟩ := h
  cases e; exact hu

theorem writeCmd_keeps (a0 : Nat) (a1 : Nat) (s : State) : Keeps s (writeCmd a0 a1 s) := by
  unfold writeCmd
  extract_lets after
  have h : ∀ o, Answers s o → Keeps s (after o) := by
    intro o ho
    obtain ⟨t, rfl, ht⟩ := ho
    exact ht
  split
  · exact .refl _
  · split
    · exact awaitCmd_keeps _ _ _ _
    · split
      · exact awaitCmd_keeps _ _ _ _
      · split
        · exact awaitCmd_keeps _ _ _ _
        · split
          · exact h _ (execRemove_answers _ _)
          · split
            · exact h _ (execPark_answers _ _)
            · split
              · exact h _ (execKillQueue_answers _ _ _)
              · split
                · exact h _ (execReset_answers _)
                · exact .refl _

theorem writeTwc_keeps (a0 : Nat) (a1 : Nat) (a2 : RegWrite) (s : State) : Keeps s (writeTwc a0 a1 a2 s) := by
  unfold writeTwc
  extract_lets
  repeat' with_reducible first
    | apply Keeps.ite
    | exact .refl _
    | exact State.modTwc_keeps _ _
    | exact State.modCluster_keeps _ _ _
    | exact State.modHalf_keeps _ _ _
    | exact domainCmd_keeps _ _ _
    | exact writeCmd_keeps _ _ _

theorem writeStk_keeps (a0 : Nat) (a1 : Nat) (a2 : RegWrite) (s : State) : Keeps s (writeStk a0 a1 a2 s) := by
  unfold writeStk
  grind only [Keeps.trans, Keeps.refl, State.modStack_keeps, pinMarkWrite_keeps, Keeps.forEach]

theorem writeShf_keeps (a0 : Nat) (a1 : RegWrite) (s : State) : Keeps s (writeShf a0 a1 s) := by
  unfold writeShf
  grind only [Keeps.trans, Keeps.refl, State.modShelf_same, Keeps.forEach]

theorem writeCwy_keeps (a0 : Nat) (a1 : RegWrite) (s : State) : Keeps s (writeCwy a0 a1 s) := by
  unfold writeCwy
  grind only [Keeps.trans, Keeps.refl, State.modCwy_keeps, writeRoute_keeps, Keeps.forEach]

theorem writePort_keeps (a0 : Nat) (a1 : Nat) (a2 : RegWrite) (s : State) : Keeps s (writePort a0 a1 a2 s) := by
  unfold writePort
  grind only [Keeps.trans, Keeps.refl, writeEnable_keeps, State.modPort_keeps, writeCwy_keeps, Keeps.forEach]

theorem writeHbr_keeps (a0 : Nat) (a1 : Nat) (a2 : RegWrite) (s : State) : Keeps s (writeHbr a0 a1 a2 s) := by
  unfold writeHbr
  grind only [Keeps.trans, Keeps.refl, State.modHarbour_keeps, Keeps.forEach]

theorem writeClu_keeps (a0 : Nat) (a1 : Nat) (a2 : RegWrite) (s : State) : Keeps s (writeClu a0 a1 a2 s) := by
  unfold writeClu
  grind only [Keeps.trans, Keeps.refl, State.modCluster_keeps, Keeps.forEach]

theorem writeGlb_keeps (a0 : Nat) (a1 : RegWrite) (s : State) : Keeps s (writeGlb a0 a1 s) := by
  unfold writeGlb
  grind only [Keeps.trans, Keeps.refl, State.modGlb_keeps, State.modBerth_keeps, flushVectors_keeps,
      writeComponent_keeps, Keeps.forEach]

theorem writeBar0_keeps (a0 : Nat) (a1 : RegWrite) (s : State) : Keeps s (writeBar0 a0 a1 s) := by
  unfold writeBar0
  repeat' with_reducible first
    | apply Keeps.ite
    | exact .refl _
    | exact writeGlb_keeps _ _ _
    | exact ringDoorbell_keeps _ _ _ _
    | exact writeSync_keeps _ _ _ _ _
    | exact writeClu_keeps _ _ _ _
    | exact writeHbr_keeps _ _ _ _
    | exact writeStk_keeps _ _ _ _
    | exact writeShf_keeps _ _ _
    | exact writePort_keeps _ _ _ _
    | exact State.modGlb_keeps _ _
    | exact writeTwc_keeps _ _ _ _
    | exact setLevel_keeps _ _ _

theorem writeReg_keeps (a0 : Nat) (a1 : Nat) (a2 : RegWrite) (s : State) : Keeps s (writeReg a0 a1 a2 s) := by
  unfold writeReg
  grind only [Keeps.trans, Keeps.refl, writeBar0_keeps, writeWindow_keeps, Keeps.forEach]

theorem writeAccess_keeps (a0 : Nat) (a1 : Nat) (a2 : Nat) (a3 : Nat) (s : State) : Keeps s (writeAccess a0 a1 a2 a3
    s) := by
  unfold writeAccess
  grind only [Keeps.trans, Keeps.refl, writeReg_keeps, Keeps.forEach]

theorem execRegisterWrite_answers (a0 : Nat) (a1 : Nat) (a2 : Nat) (a3 : Nat) (s : State) : Answers s
    (execRegisterWrite a0 a1 a2 a3 s) := by
  unfold execRegisterWrite
  grind only [Keeps.trans, Keeps.refl, writeAccess_keeps, Answers.next, Keeps.forEach]

/-! ### Machine/Keeper.lean -/

theorem writeBlock_keeps (a0 : Nat) (a1 : Nat) (a2 : List Byte) (s : State) : Keeps s (writeBlock a0 a1 a2 s) := by
  unfold writeBlock
  grind only [Keeps.trans, Keeps.refl, programUnit_keeps, maskedUnit_keeps, recordUe_keeps, Keeps.forEach]

theorem endReply_keeps (a0 : String) (a1 : Bool) (s : State) : Keeps s (endReply a0 a1 s) := by
  unfold endReply
  grind only [Keeps.trans, Keeps.refl, State.emit_keeps, sendLine_keeps, flushReports_keeps, State.modDbg_same,
      Keeps.forEach]

theorem endErr_keeps (a0 : Nat) (s : State) : Keeps s (endErr a0 s) := by
  unfold endErr
  grind only [Keeps.trans, Keeps.refl, endReply_keeps, Keeps.forEach]

theorem endOk_keeps (s : State) : Keeps s (endOk s) := by
  unfold endOk
  grind only [Keeps.trans, Keeps.refl, endReply_keeps, Keeps.forEach]

theorem endRefused_keeps (a0 : Nat) (s : State) : Keeps s (endRefused a0 s) := by
  unfold endRefused
  grind only [Keeps.trans, Keeps.refl, endReply_keeps, Keeps.forEach]

theorem orMemErr_keeps (e : Option (Nat × Nat)) (f : State → State) (hf : ∀ t, Keeps t (f t)) (s : State) :
    Keeps s (orMemErr e f s) := by
  unfold orMemErr
  split
  · exact endRefused_keeps _ _
  · exact endErr_keeps _ _
  · exact hf _

theorem takeBlock_keeps (a0 : Inbound) (a1 : Bool) (a2 : List Byte) (s : State) : Keeps s (takeBlock a0 a1 a2 s) :=
    by
  unfold takeBlock
  extract_lets va n t u
  split
  · split
    · exact orMemErr_keeps _ _ (fun _ => .refl _) _
    · have ht : Keeps s t := (writeBlock_keeps _ _ _ _).trans (sendLine_keeps _ _)
      exact Keeps.ite (ht.trans (endOk_keeps _)) (ht.trans (State.modDbg_same _ _ rfl rfl rfl))
  · have ht : Keeps s u := sendLine_keeps _ _
    exact Keeps.ite (ht.trans (endErr_keeps _ _)) (ht.trans (State.modDbg_same _ _ rfl rfl rfl))

theorem buffered_eq (d : Dbg) : buffered d = d.rx.length + (d.lines.map (fun l => l.2.length + 1)).sum := by
  have h : ∀ (l : List (Nat × List (BitVec 8))) (n : Nat),
      l.foldl (fun n l => n + l.2.length + 1) n = n + (l.map (fun l => l.2.length + 1)).sum := by
    intro l
    induction l with
    | nil => intro n; simp
    | cons a l ih => intro n; simp only [List.foldl_cons, ih, List.map_cons, List.sum_cons]; omega
  exact h _ _

/-- Fewer waiting lines take less of the receive buffer. -/
theorem Dbg.fits_lines {d e : Dbg} (h : d.fits) (hl : (e.lines.map (fun l => l.2.length + 1)).sum ≤
    (d.lines.map (fun l => l.2.length + 1)).sum) (hx : e.rx = d.rx) (hr : e.reports = d.reports) : e.fits := by
  refine ⟨?_, by rw [hr]; exact h.2⟩
  have := h.1
  rw [buffered_eq] at this ⊢
  rw [hx]; omega

theorem dropLine_keeps (s : State) (l : Nat × List (BitVec 8)) (rest : List (Nat × List (BitVec 8)))
    (e : s.dbg.lines = l :: rest) (g : Dbg → Dbg) (h1 : ∀ d, (g d).lines = rest) (h2 : ∀ d, (g d).rx = d.rx)
    (h3 : ∀ d, (g d).reports = d.reports) : Keeps s (s.modDbg g) where
  pending := rfl
  memWf := id
  keeper h := Dbg.fits_lines h (by simp [State.modDbg, h1, e]) (h2 _) (h3 _)
  tickets := id
  secver _ := Nat.le_refl _
  retired _ := id
  bad _ := id
  fresh := Nat.le_refl _

theorem answerBad_keeps (a0 : Nat) (s : State) : Keeps s (answerBad a0 s) := by
  induction a0 generalizing s with
  | zero => exact .refl _
  | succ k ih =>
    unfold answerBad
    split
    · exact .refl _
    · split
      · exact .refl _
      · rename_i kind l rest e
        have h0 : Keeps s (s.modDbg (fun d => { d with lines := rest })) :=
          dropLine_keeps s _ _ e _ (fun _ => rfl) (fun _ => rfl) (fun _ => rfl)
        exact Keeps.ite (.refl _) (h0.trans ((endErr_keeps _ _).trans (ih _)))

theorem answerLines_keeps (s : State) : Keeps s (answerLines s) := by
  unfold answerLines
  grind only [Keeps.trans, Keeps.refl, answerBad_keeps, Keeps.forEach]

theorem runLine_answers (c : Instr) (f : State → State) (hf : ∀ t, Keeps t (f t)) (s : State) :
    Answers s (runLine c f s) := by
  unfold runLine
  extract_lets t
  have h0 : Keeps s t := answerLines_keeps _
  split
  · exact .next (.refl _)
  · split
    · exact .next h0
    · split
      · have h1 : Keeps t (t.modDbg (fun d => { d with baudTrial := false })) := State.modDbg_same _ _ rfl rfl rfl
        exact .next ((h0.trans h1).trans ((hf _).trans (answerLines_keeps _)))
      · rename_i l rest e
        have h1 : Keeps t (t.modDbg (fun d => { d with lines := rest, baudTrial := false })) :=
          dropLine_keeps t _ _ e _ (fun _ => rfl) (fun _ => rfl) (fun _ => rfl)
        split
        · exact .next ((h0.trans h1).trans ((hf _).trans (answerLines_keeps _)))
        · exact .next h0

theorem execStat_answers (s : State) : Answers s (execStat s) := by
  unfold execStat
  grind only [Keeps.trans, Keeps.refl, runLine_answers, endOk_keeps, sendLine_keeps, Answers.next, Keeps.forEach]

theorem execLock_answers (s : State) : Answers s (execLock s) := by
  unfold execLock
  grind only [Keeps.trans, Keeps.refl, runLine_answers, setLevel_keeps, endOk_keeps, Answers.next, Keeps.forEach]

theorem orErr_keeps (e : Option Nat) (f : State → State) (hf : ∀ t, Keeps t (f t)) (s : State) :
    Keeps s (orErr e f s) := by
  unfold orErr
  split
  · exact endErr_keeps _ _
  · exact hf _

theorem execKeeperKill_answers (a0 : Nat) (s : State) : Answers s (execKeeperKill a0 s) := by
  unfold execKeeperKill
  grind only [Keeps.trans, Keeps.refl, runLine_answers, orErr_keeps, endOk_keeps, killQueue_keeps, Answers.next,
      Keeps.forEach]

theorem setHalt_keeps (a0 : Nat) (a1 : Bool) (s : State) : Keeps s (setHalt a0 a1 s) := by
  unfold setHalt
  grind only [Keeps.trans, Keeps.refl, settle_keeps, State.modDbg_same, Keeps.forEach]

theorem execRelease_answers (a0 : Nat) (s : State) : Answers s (execRelease a0 s) := by
  unfold execRelease
  grind only [Keeps.trans, Keeps.refl, runLine_answers, orErr_keeps, endOk_keeps, setHalt_keeps, Answers.next,
      Keeps.forEach]

theorem execHalt_answers (a0 : Nat) (s : State) : Answers s (execHalt a0 s) := by
  unfold execHalt
  grind only [Keeps.trans, Keeps.refl, runLine_answers, orErr_keeps, endOk_keeps, setHalt_keeps, Answers.next,
      Keeps.forEach]

theorem execKeeperBlockTimeout_answers (s : State) : Answers s (execKeeperBlockTimeout s) := by
  unfold execKeeperBlockTimeout
  grind only [Keeps.trans, Keeps.refl, answerLines_keeps, endErr_keeps, Answers.next, Keeps.forEach]

theorem blockLines_sum : ∀ (l : List (Nat × List Byte)) (bs : List Byte) (ok : Bool) {d c r},
    blockLines l bs ok = some (d, c, r) →
      (r.map (fun x => x.2.length + 1)).sum ≤ (l.map (fun x => x.2.length + 1)).sum := by
  intro l
  induction l with
  | nil => intro _ _ _ _ _ h; simp [blockLines] at h
  | cons a l ih =>
    obtain ⟨kind, x⟩ := a
    intro bs ok d c r h
    simp only [blockLines] at h
    simp only [List.map_cons, List.sum_cons]
    split at h
    · simp only [Option.some.injEq, Prod.mk.injEq] at h
      obtain ⟨-, -, rfl⟩ := h
      omega
    · split at h
      · have := ih _ _ h; omega
      · have := ih _ _ h; omega

theorem execKeeperBlock_answers (a0 : List Byte) (a1 : BitVec 32) (s : State) : Answers s (execKeeperBlock a0 a1 s)
    := by
  unfold execKeeperBlock
  split
  · exact .next (.refl _)
  · extract_lets good
    split
    · exact .next (.refl _)
    · split
      · exact .next ((takeBlock_keeps _ _ _ _).trans (answerLines_keeps _))
      · split
        · rename_i d c rest e
          have h1 : Keeps s (s.modDbg (fun x => { x with lines := rest })) :=
            { pending := rfl, memWf := id, keeper := fun h => Dbg.fits_lines h (blockLines_sum _ _ _ e) rfl rfl
              tickets := id, secver := fun _ => Nat.le_refl _, retired := fun _ => id, bad := fun _ => id
              fresh := Nat.le_refl _ }
          split
          · exact .next (h1.trans ((takeBlock_keeps _ _ _ _).trans (answerLines_keeps _)))
          · exact .next (.refl _)
        · exact .next (.refl _)

theorem execMwr_answers (a0 : Nat) (a1 : Nat) (a2 : Nat) (s : State) : Answers s (execMwr a0 a1 a2 s) := by
  unfold execMwr
  grind only [Keeps.trans, Keeps.refl, runLine_answers, orMemErr_keeps, State.modDbg_same, sendLine_keeps,
      Answers.next, Keeps.forEach]

theorem sendBlock_keeps (a0 : Nat) (a1 : Nat) (a2 : Nat) (s : State) : Keeps s (sendBlock a0 a1 a2 s) := by
  unfold sendBlock
  extract_lets r
  refine Keeps.trans ?_ (sendLine_keeps _ _)
  refine Keeps.foldl (fun acc : List Byte × State => acc.2) (fun acc q => ?_) _ ([], s)
  extract_lets t l off
  split
  · exact (State.slotTouch_keeps _ _ _).trans (sendLine_keeps _ _)
  · exact (State.slotTouch_keeps _ _ _).trans (sendLine_keeps _ _)
  · exact (State.slotTouch_keeps _ _ _).trans (sendLine_keeps _ _)

theorem execMrd_answers (a0 : Nat) (a1 : Nat) (a2 : Nat) (s : State) : Answers s (execMrd a0 a1 a2 s) := by
  unfold execMrd
  grind only [Keeps.trans, Keeps.refl, runLine_answers, orMemErr_keeps, readUnit_keeps, endOk_keeps,
      sendBlock_keeps, Answers.next, Keeps.forEach]

theorem execTemp_answers (s : State) : Answers s (execTemp s) := by
  unfold execTemp
  grind only [Keeps.trans, Keeps.refl, runLine_answers, orErr_keeps, sendLine_keeps, endOk_keeps, Answers.next,
      Keeps.forEach]

theorem execWwr_answers (a0 : Nat) (a1 : Nat) (a2 : Nat) (s : State) : Answers s (execWwr a0 a1 a2 s) := by
  unfold execWwr
  grind only [Keeps.trans, Keeps.refl, runLine_answers, orErr_keeps, writeAccess_keeps, endOk_keeps, Answers.next,
      Keeps.forEach]

theorem execWrd_answers (a0 : Nat) (a1 : Nat) (a2 : Nat) (s : State) : Answers s (execWrd a0 a1 a2 s) := by
  unfold execWrd
  grind only [Keeps.trans, Keeps.refl, runLine_answers, orErr_keeps, endOk_keeps, sendLine_keeps, Answers.next,
      Keeps.forEach]

theorem execWr_answers (a0 : Nat) (a1 : Nat) (s : State) : Answers s (execWr a0 a1 s) := by
  unfold execWr
  grind only [Keeps.trans, Keeps.refl, runLine_answers, orErr_keeps, writeAccess_keeps, endOk_keeps, Answers.next,
      Keeps.forEach]

theorem execRd_answers (a0 : Nat) (a1 : Nat) (s : State) : Answers s (execRd a0 a1 s) := by
  unfold execRd
  grind only [Keeps.trans, Keeps.refl, runLine_answers, orErr_keeps, endOk_keeps, sendLine_keeps, Answers.next,
      Keeps.forEach]

theorem execBaudRevert_answers (s : State) : Answers s (execBaudRevert s) := by
  unfold execBaudRevert
  grind only [Keeps.trans, Keeps.refl, report_keeps, State.modDbg_same, Answers.next, Keeps.forEach]

theorem execBaud_answers (a0 : Nat) (s : State) : Answers s (execBaud a0 s) := by
  unfold execBaud
  grind only [Keeps.trans, Keeps.refl, runLine_answers, orErr_keeps, State.modDbg_same, endOk_keeps, Answers.next,
      Keeps.forEach]

theorem execKeeperId_answers (s : State) : Answers s (execKeeperId s) := by
  unfold execKeeperId
  grind only [Keeps.trans, Keeps.refl, runLine_answers, orErr_keeps, endOk_keeps, sendLine_keeps, Answers.next,
      Keeps.forEach]

theorem endLine_fits {d : Dbg} (h : d.reports.length ≤ 64) (hb : buffered d < 1024) : (endLine d).fits := by
  unfold endLine
  rw [buffered_eq] at hb
  split
  · exact ⟨by rw [buffered_eq]; omega, h⟩
  · refine ⟨?_, h⟩
    rw [buffered_eq]
    simp only [List.map_append, List.sum_append, List.map_cons, List.map_nil, List.sum_cons, List.sum_nil,
      List.length_nil]
    omega

/-- A character fits in the receive buffer, or is discarded (R498, R499). -/
theorem takeChar_fits (c : Byte) (fe : Bool) {d : Dbg} (h : d.fits) : (takeChar c fe d).fits := by
  have h1 := h.1
  unfold takeChar
  split
  · exact h
  · split
    · exact h
    · rename_i hb
      split
      · exact endLine_fits h.2 (by omega)
      · split
        · exact h
        · split
          · refine ⟨?_, h.2⟩
            rw [buffered_eq] at h1 ⊢; simp only [List.length_nil]; omega
          · refine ⟨?_, h.2⟩
            rw [buffered_eq] at hb ⊢; simp only [List.length_append, List.length_cons, List.length_nil]; omega

theorem execLhCharacter_answers (a0 : Byte) (a1 : Bool) (s : State) : Answers s (execLhCharacter a0 a1 s) := by
  unfold execLhCharacter
  refine .next (Keeps.ite ?_ (.refl _))
  exact (State.modDbg_keeps _ _ (fun _ h => takeChar_fits _ _ h)).trans (answerLines_keeps _)

/-! ### Machine/Clockwork.lean -/

theorem tickShelf_keeps (s : State) : Keeps s (tickShelf s) := by
  unfold tickShelf
  grind only [Keeps.trans, Keeps.refl, State.modShelf_same, Keeps.forEach]

theorem tickHalf_keeps (a0 : Nat) (s : State) : Keeps s (tickHalf a0 s) := by
  unfold tickHalf
  grind only [Keeps.trans, Keeps.refl, State.modHalf_keeps, Keeps.forEach]

theorem serveCrew_keeps (a0 : Nat) (s : State) : Keeps s (serveCrew a0 s) := by
  unfold serveCrew
  grind only [Keeps.trans, Keeps.refl, addCycles_keeps, State.modRun_keeps, Keeps.forEach]

theorem serveColl_keeps (a0 : Nat) (s : State) : Keeps s (serveColl a0 s) := by
  unfold serveColl
  grind only [Keeps.trans, Keeps.refl, addCycles_keeps, Keeps.forEach]

theorem serveTime_keeps (s : State) : Keeps s (serveTime s) := by
  unfold serveTime
  grind only [Keeps.trans, Keeps.refl, serveColl_keeps, serveCrew_keeps, Keeps.forEach]

theorem goOn_keeps (s : State) : Keeps s (goOn s) := by
  unfold goOn
  grind only [Keeps.trans, Keeps.refl, tryReset_keeps, tryRemove_keeps, fenceStep_keeps, startIdle_keeps,
      retryHost_keeps, shelfFlags_keeps, sendPaired_keeps, Keeps.forEach]

theorem idleTick_keeps (s : State) : Keeps s (idleTick s) := by
  unfold idleTick
  grind only [Keeps.trans, Keeps.refl, goOn_keeps, serveTime_keeps, tickShelf_keeps, tickHalf_keeps, Keeps.forEach]

end Sys2Proof.Machine
end

