-- ==== Sys2Proof/Laws/Records.lean ====
section
/-! SUPPORT. What a management record and a vector leave of the state (R463, R452): a half's count of records, the ring's
indices, pending vectors, messages; and that messages are only added. -/
namespace Sys2Proof.Machine

/-- Of GLB, raising a vector changes the MSI-X table alone. -/
theorem raiseVector_msix (v : Nat) (s : State) : (raiseVector v s).glb = { s.glb with msix := (raiseVector v s).glb.msix } := by
  unfold raiseVector
  dsimp only
  split <;> rfl

theorem emitted_half (s : State) (o : Out) (i : Nat) : (s.emit o).half i = s.half i := rfl

/-- The record as it is sent, before the ring takes it. -/
theorem makeRecord_first (h t b : Nat) (pl : List Byte) (s v : State)
    (hv : (s.modHalf h (fun x => { x with recSeq := wrapAdd 32 x.recSeq 1 })).emit (.record h (recordBytes s h t b pl)) = v) :
    v = { s with twcH := v.twcH, out := v.out } ∧
    ∀ i, v.half i = { s.half i with recSeq := (v.half i).recSeq } := by
  subst hv
  refine ⟨rfl, fun i => ?_⟩
  rw [emitted_half]
  simp only [modHalf_eq, setHalf_half]
  split
  · next e => rw [e]
  · rfl

/-- The ring takes a record. -/
theorem makeRecord_ring (v w : State) (bytes : List Byte) (h : Nat)
    (hw : (if v.twc.ringEn && reachesChair v h then
      let full := ahead 32 v.twc.prod v.twc.cons = 2 ^ v.twc.ringLog2
      raiseVector 5 (if full then v.modTwc (fun t => { t with ringDropped := satAdd 32 t.ringDropped 1 })
        else (v.modTwc (fun t => { t with prod := wrapAdd 32 t.prod 1 })).emit
          (.hostWrite (v.twc.ringBase + 64 * (v.twc.prod % 2 ^ v.twc.ringLog2)) bytes))
      else v) = w) :
    w = { v with twc := w.twc, glb := w.glb, out := w.out } ∧ w.glb = { v.glb with msix := w.glb.msix } ∧
    w.twc = { v.twc with prod := w.twc.prod, ringDropped := w.twc.ringDropped } := by
  subst hw
  split
  · dsimp only
    split
    · refine ⟨?_, raiseVector_msix .., ?_⟩
      · rw [raiseVector_glb]; rfl
      · rw [raiseVector_glb]; rfl
    · refine ⟨?_, raiseVector_msix .., ?_⟩
      · rw [raiseVector_glb]; rfl
      · rw [raiseVector_glb]; rfl
  · exact ⟨rfl, rfl, rfl⟩

/-- What a record leaves alone: all but the halves' counts of records, the ring, the MSI-X table and messages. -/
structure State.recorded (s t : State) : Prop where
  shape : t = { s with twcH := t.twcH, twc := t.twc, glb := t.glb, ports := t.ports, cwy := t.cwy, arbs := t.arbs, out := t.out }
  half : ∀ i, t.half i = { s.half i with recSeq := (t.half i).recSeq }
  glb : t.glb = { s.glb with msix := t.glb.msix }
  twc : t.twc = { s.twc with prod := t.twc.prod, ringDropped := t.twc.ringDropped }

theorem State.recorded.refl (s : State) : s.recorded s := ⟨rfl, fun _ => rfl, rfl, rfl⟩

theorem State.recorded.trans {s t u : State} (h : s.recorded t) (k : t.recorded u) : s.recorded u :=
  ⟨by rw [k.shape, h.shape], fun i => by rw [k.half, h.half], by rw [k.glb, h.glb], by rw [k.twc, h.twc]⟩

theorem recorded_sent {s t u : State} (h : s.recorded t) (k : t.sent u) : s.recorded u := by
  refine ⟨?_, fun i => ?_, ?_, ?_⟩
  · rw [k, h.shape]
  · have : u.half i = t.half i := by rw [k]; rfl
    rw [this]; exact h.half i
  · have : u.glb = t.glb := by rw [k]
    rw [this]; exact h.glb
  · have : u.twc = t.twc := by rw [k]
    rw [this]; exact h.twc

theorem recorded_of {s v w : State} (h1 : v = { s with twcH := v.twcH, out := v.out })
    (h2 : ∀ i, v.half i = { s.half i with recSeq := (v.half i).recSeq })
    (h3 : w = { v with twc := w.twc, glb := w.glb, out := w.out }) (h4 : w.glb = { v.glb with msix := w.glb.msix })
    (h5 : w.twc = { v.twc with prod := w.twc.prod, ringDropped := w.twc.ringDropped }) : s.recorded w := by
  have g : v.glb = s.glb := by rw [h1]
  have t : v.twc = s.twc := by rw [h1]
  refine ⟨by rw [h3, h1], fun i => ?_, by rw [← g]; exact h4, by rw [← t]; exact h5⟩
  have : w.half i = v.half i := by rw [h3]; rfl
  rw [this]; exact h2 i

theorem makeRecord_recorded (h t b : Nat) (pl : List Byte) (s : State) : s.recorded (makeRecord h t b pl s) := by
  unfold makeRecord
  dsimp only
  generalize hv : (s.modHalf h (fun x => { x with recSeq := wrapAdd 32 x.recSeq 1 })).emit (.record h (recordBytes s h t b pl)) = v
  obtain ⟨v1, v2⟩ := makeRecord_first h t b pl s v hv
  generalize hw : (if (v.twc.ringEn && reachesChair v h) = true then _ else v : State) = w
  obtain ⟨w1, w2, w3⟩ := makeRecord_ring v w _ h hw
  have r := recorded_of v1 v2 w1 w2 w3
  split
  · exact recorded_sent r (route_sent ..)
  · exact r

theorem raiseVector_recorded (v : Nat) (s : State) : s.recorded (raiseVector v s) := by
  refine ⟨?_, fun i => ?_, raiseVector_msix .., ?_⟩
  · rw [raiseVector_glb]
  · rw [raiseVector_glb]; rfl
  · rw [raiseVector_glb]

/-- Messages are only added (newest first). -/
def State.grows (s t : State) : Prop := ∃ l, t.out = l ++ s.out

theorem State.grows.refl (s : State) : s.grows s := ⟨[], rfl⟩
theorem State.grows.same {s t : State} (h : t.out = s.out) : s.grows t := ⟨[], h⟩
theorem State.grows.trans {s t u : State} (h : s.grows t) (k : t.grows u) : s.grows u := by
  obtain ⟨l, h⟩ := h
  obtain ⟨m, k⟩ := k
  exact ⟨m ++ l, by rw [k, h, List.append_assoc]⟩
theorem emit_grows (s : State) (o : Out) : s.grows (s.emit o) := ⟨[o], rfl⟩

theorem State.grows.mem {s t : State} (h : s.grows t) {o : Out} (k : o ∈ s.out) : o ∈ t.out := by
  obtain ⟨l, h⟩ := h
  rw [h]
  exact List.mem_append_right _ k

theorem raiseVector_grows (v : Nat) (s : State) : s.grows (raiseVector v s) := by
  unfold raiseVector
  dsimp only
  split
  · exact ⟨[_], rfl⟩
  · exact .same rfl

theorem sendPort_grows (p n : Nat) (s : State) : s.grows (sendPort p n s) := by
  induction n generalizing s with
  | zero => exact .refl s
  | succ k ih =>
    unfold sendPort
    dsimp only
    split
    · split
      · exact .refl s
      · split
        · exact .refl s
        · refine State.grows.trans (State.grows.trans ?_ (emit_grows _ _)) (ih _)
          unfold chargeVl
          split <;> exact .same rfl
    · exact .refl s

theorem enqueue_grows (p : Nat) (pk : Packet) (s : State) : s.grows (enqueue p pk s) :=
  State.grows.trans (.same rfl) (sendPort_grows ..)

theorem countBad_grows (p : Nat) (s : State) : s.grows (countBad p s) := .same rfl

theorem route_grows (h : Nat) (pk : Packet) (s : State) : s.grows (route h pk s) := by
  unfold route routeTo
  dsimp only
  repeat' split
  all_goals first | exact emit_grows .. | exact enqueue_grows .. | exact countBad_grows ..

/-- A record leaves as a message. -/
theorem makeRecord_out (h t b : Nat) (pl : List Byte) (s : State) :
    Out.record h (recordBytes s h t b pl) ∈ (makeRecord h t b pl s).out ∧ s.grows (makeRecord h t b pl s) := by
  have key : ∀ w : State, ((s.modHalf h (fun x => { x with recSeq := wrapAdd 32 x.recSeq 1 })).emit
      (.record h (recordBytes s h t b pl))).grows w → Out.record h (recordBytes s h t b pl) ∈ w.out ∧ s.grows w :=
    fun w hw => ⟨hw.mem (List.mem_cons_self ..), State.grows.trans ⟨[_], rfl⟩ hw⟩
  unfold makeRecord
  dsimp only
  generalize (s.modHalf h (fun x => { x with recSeq := wrapAdd 32 x.recSeq 1 })).emit (.record h (recordBytes s h t b pl)) = v at key ⊢
  generalize hw : (if (v.twc.ringEn && reachesChair v h) = true then _ else v : State) = w
  have hw' : v.grows w := by
    rw [← hw]
    split
    · refine State.grows.trans ?_ (raiseVector_grows ..)
      split
      · exact .same rfl
      · exact State.grows.trans (.same rfl) (emit_grows _ _)
    · exact .refl v
  split
  · exact key _ (hw'.trans (route_grows ..))
  · exact key _ hw'

end Sys2Proof.Machine
end

