-- ==== Sys2Proof/Laws/Shelves.lean ====
section
/-! SUPPORT. Page copies and the Shelf's map (R351, R354 to R357): what copying a page does to memory and to the marks of its
units, and that the Shelf's operations change the Shelf's records and its gated domains alone. -/
namespace Sys2Proof.Machine

/-! ### Canonical tables -/

theorem tblWf_gt {α : Type} [DecidableEq α] (d : α) (b : Nat) : ∀ t : Tbl α, tblWfFrom d (some b) t = true → ∀ u ∈ t, b < u.1
  | [], _, _, h => by cases h
  | (j, v) :: t, h, u, hu => by
    simp only [tblWfFrom, Bool.and_eq_true, decide_eq_true_eq] at h
    rcases List.mem_cons.mp hu with rfl | hu
    · exact h.1.1
    · have := tblWf_gt d j t h.2 u hu
      omega

theorem look_absent {α : Type} (d : α) (k : Nat) : ∀ t : Tbl α, (∀ u ∈ t, u.1 ≠ k) → look d t k = d
  | [], _ => rfl
  | (j, v) :: t, h => by
    have h1 : k ≠ j := fun e => h _ (List.mem_cons_self ..) e.symm
    simp only [look, if_neg h1]
    exact look_absent d k t (fun u hu => h u (List.mem_cons_of_mem _ hu))

theorem look_present {α : Type} [DecidableEq α] (d : α) (k : Nat) (lo : Option Nat) : ∀ t : Tbl α, tblWfFrom d lo t = true →
    (∃ u ∈ t, u.1 = k) → look d t k ≠ d
  | [], _, h => by obtain ⟨u, h, -⟩ := h; cases h
  | (j, v) :: t, h, ⟨u, hu, e⟩ => by
    simp only [tblWfFrom, Bool.and_eq_true, decide_eq_true_eq] at h
    simp only [look]
    split
    · exact h.1.2
    · next hne =>
      refine look_present d k (some j) t h.2 ⟨u, ?_, e⟩
      rcases List.mem_cons.mp hu with rfl | hu
      · exact absurd e.symm hne
      · exact hu

theorem look_listed {α : Type} [DecidableEq α] (d : α) (t : Tbl α) (h : tblWf d t = true) (k : Nat) : look d t k ≠ d ↔ ∃ u ∈ t, u.1 = k := by
  constructor
  · intro hl
    by_contra hc
    exact hl (look_absent d k t (fun u hu e => hc ⟨u, hu, e⟩))
  · exact look_present d k none t h

theorem rdByte_copied (a d x : Nat) (lo : Option Nat) : ∀ (l : Memory) (m : Memory), tblWfFrom 0 lo l = true → (∀ c ∈ l, a ≤ c.1) →
    rdByte (l.foldl (fun m (c : Nat × Byte) => wrByte m (c.1 - a + d) c.2) m) x =
      if d ≤ x ∧ look 0 l (x - d + a) ≠ 0 then look 0 l (x - d + a) else rdByte m x
  | [], m, _, _ => by simp [look]
  | (j, v) :: t, m, h, ha => by
    simp only [tblWfFrom, Bool.and_eq_true, decide_eq_true_eq] at h
    have hj : a ≤ j := ha _ (List.mem_cons_self ..)
    simp only [List.foldl_cons]
    rw [rdByte_copied a d x (some j) t _ h.2 (fun c hc => ha c (List.mem_cons_of_mem _ hc)), rdByte_wrByte]
    have hl : look 0 ((j, v) :: t) (x - d + a) = if x - d + a = j then v else look 0 t (x - d + a) := rfl
    generalize look 0 ((j, v) :: t) (x - d + a) = y at hl
    by_cases e : d ≤ x ∧ x - d + a = j
    · have e1 : x = j - a + d := by omega
      have e2 : look 0 t (x - d + a) = 0 := look_absent _ _ _ (fun u hu => by have := tblWf_gt 0 j t h.2 u hu; omega)
      rw [if_pos e.2] at hl
      rw [hl, if_neg (fun h => h.2 e2), if_pos e1, if_pos ⟨e.1, h.1.2⟩]
    · have e1 : ¬ x = j - a + d := by omega
      rw [if_neg e1]
      by_cases hd : d ≤ x
      · have e2 : ¬ (x - d + a = j) := fun h => e ⟨hd, h⟩
        rw [if_neg e2] at hl
        rw [hl]
      · simp [hd]

theorem rdByte_zeroed (g : Nat → Nat) (x : Nat) : ∀ (l : Tbl UnitSt) (m : Memory),
    rdByte (l.foldl (fun m (u : Nat × UnitSt) => zeroBytes m (g u.1) 32) m) x =
      if ∃ u ∈ l, g u.1 ≤ x ∧ x < g u.1 + 32 then 0 else rdByte m x
  | [], m => by simp
  | u :: l, m => by
    simp only [List.foldl_cons]
    rw [rdByte_zeroed g x l, rdByte_zeroBytes]
    by_cases h : ∃ u ∈ l, g u.1 ≤ x ∧ x < g u.1 + 32
    · obtain ⟨w, hw, e⟩ := h
      rw [if_pos ⟨w, hw, e⟩, if_pos ⟨w, List.mem_cons_of_mem _ hw, e⟩]
    · rw [if_neg h]
      by_cases k : g u.1 ≤ x ∧ x < g u.1 + 32
      · rw [if_pos k, if_pos ⟨u, List.mem_cons_self .., k⟩]
      · rw [if_neg k, if_neg]
        rintro ⟨w, hw, e⟩
        rcases List.mem_cons.mp hw with rfl | hw
        · exact k e
        · exact h ⟨w, hw, e⟩

theorem look_poisoned (g : Nat → Nat) (x : Nat) : ∀ (l : Tbl UnitSt) (t : Tbl UnitSt),
    look .good (l.foldl (fun t (u : Nat × UnitSt) => put .good t (g u.1) .poison) t) x =
      if ∃ u ∈ l, x = g u.1 then .poison else look .good t x
  | [], m => by simp
  | u :: l, m => by
    simp only [List.foldl_cons]
    rw [look_poisoned g x l, look_put]
    by_cases h : ∃ u ∈ l, x = g u.1
    · obtain ⟨w, hw, e⟩ := h
      rw [if_pos ⟨w, hw, e⟩, if_pos ⟨w, List.mem_cons_of_mem _ hw, e⟩]
    · rw [if_neg h]
      by_cases k : x = g u.1
      · rw [if_pos k, if_pos ⟨u, List.mem_cons_self .., k⟩]
      · rw [if_neg k, if_neg]
        rintro ⟨w, hw, e⟩
        rcases List.mem_cons.mp hw with rfl | hw
        · exact k e
        · exact h ⟨w, hw, e⟩

/-! ### The Shelf's operations -/

/-- Only the Shelf's records and the gated domains differ. -/
def State.shelfOnly (s t : State) : Prop := t = { s with shelf := t.shelf, twc := t.twc }

theorem State.shelfOnly.trans {s t u : State} (h : State.shelfOnly s t) (k : State.shelfOnly t u) : State.shelfOnly s u := by
  unfold State.shelfOnly at *; rw [k, h]

theorem modShelf_only (f : Shelf → Shelf) (s : State) : State.shelfOnly s (s.modShelf f) := rfl

theorem setBlock_only (i : Nat) (b : Block) (s : State) : State.shelfOnly s (s.setBlock i b) := rfl

theorem mapEntry_only (lu : Nat) (e : Option (Nat × Nat)) (s : State) : State.shelfOnly s (s.mapEntry lu e) := rfl

theorem dropCopy_only (lu : Nat) (s : State) : State.shelfOnly s (dropCopy lu s) := by
  unfold dropCopy; split <;> rfl

theorem programInto_only (i lu : Nat) (s : State) : State.shelfOnly s (programInto i lu s) := by
  unfold programInto
  exact (((dropCopy_only lu s).trans (setBlock_only ..)).trans (mapEntry_only ..)).trans (modShelf_only ..)

theorem programUnit_only (park : Bool) (lu : Nat) (s : State) : State.shelfOnly s (programUnit park lu s) := by
  unfold programUnit
  dsimp only
  split
  · rfl
  · next i _ => exact State.shelfOnly.trans (t := (wakeFlash (flashOf lu) s).modShelf _) rfl (programInto_only ..)

theorem readUnit_only (lu : Nat) (s : State) : State.shelfOnly s (readUnit lu s) := by
  unfold readUnit; split <;> rfl

theorem forEach_only {α : Type} {f : α → State → State} (h : ∀ a (s : State), State.shelfOnly s (f a s)) (l : List α)
    (s : State) : State.shelfOnly s (forEach l f s) :=
  forEach_rel (R := State.shelfOnly) (fun _ => rfl) (fun _ _ _ => State.shelfOnly.trans) f h l s

theorem shelfSide_only (a b : Nat) (s : State) : State.shelfOnly s (shelfSide a b s) := by
  unfold shelfSide
  dsimp only
  have h1 : ∀ l u, State.shelfOnly u (forEach l readUnit u) := fun l u => forEach_only readUnit_only l u
  have h2 : ∀ l u, State.shelfOnly u (forEach l (programUnit false) u) := fun l u =>
    forEach_only (programUnit_only false) l u
  have h3 : ∀ l u, State.shelfOnly u (forEach l dropCopy u) := fun l u => forEach_only dropCopy_only l u
  generalize hv : (if pageTier a = .shelf then forEach (pageUnits a) readUnit s else s) = v
  have k1 : State.shelfOnly s v := by rw [← hv]; split; exacts [h1 _ _, rfl]
  generalize hw : (if pageTier b = .shelf then forEach (pageUnits b) (programUnit false) v else v) = w
  have k2 : State.shelfOnly v w := by rw [← hw]; split; exacts [h2 _ _, rfl]
  split
  · exact (k1.trans k2).trans (h3 _ _)
  · exact k1.trans k2

/-- The Shelf's flags, and the record of a warning. -/
theorem shelfFlags_facts (s : State) : ∃ v : State, s.shelfOnly v ∧ v.recorded (shelfFlags s) := by
  unfold shelfFlags
  dsimp only
  split
  · exact ⟨_, by unfold State.shelfOnly; rfl, makeRecord_recorded ..⟩
  · exact ⟨_, by unfold State.shelfOnly; rfl, .refl _⟩

/-! ### Copying a page -/

/-- What recording uncorrectable units leaves alone: all but the stacks and what a record changes. -/
structure State.ueRecorded (s t : State) : Prop where
  shape : t = { s with stks := t.stks, twcH := t.twcH, twc := t.twc, glb := t.glb, ports := t.ports, cwy := t.cwy
                       arbs := t.arbs, out := t.out }
  half : ∀ i, t.half i = { s.half i with recSeq := (t.half i).recSeq }
  glb : t.glb = { s.glb with msix := t.glb.msix }
  twc : t.twc = { s.twc with prod := t.twc.prod, ringDropped := t.twc.ringDropped }

theorem State.ueRecorded.refl (s : State) : s.ueRecorded s := ⟨rfl, fun _ => rfl, rfl, rfl⟩

theorem State.ueRecorded.trans {s t u : State} (h : s.ueRecorded t) (k : t.ueRecorded u) : s.ueRecorded u :=
  ⟨by rw [k.shape, h.shape], fun i => by rw [k.half, h.half], by rw [k.glb, h.glb], by rw [k.twc, h.twc]⟩

theorem ueRecorded_of {s t u : State} {k : Tbl Stack} (h : t = { s with stks := k }) (r : t.recorded u) : s.ueRecorded u := by
  have hh : t.half = s.half := by rw [h]; rfl
  have hg : t.glb = s.glb := by rw [h]
  have ht : t.twc = s.twc := by rw [h]
  refine ⟨?_, fun i => ?_, by rw [← hg]; exact r.glb, by rw [← ht]; exact r.twc⟩
  · have : u.stks = k := by rw [r.shape, h]
    rw [r.shape, h]
  · rw [← hh]; exact r.half i

theorem recordUe_recorded (st ch pa so : Nat) (s : State) : s.ueRecorded (recordUe st ch pa so s) := by
  unfold recordUe
  dsimp only
  generalize hv : s.modStack st _ = v
  have h : v = { s with stks := v.stks } := by rw [← hv]; rfl
  exact ueRecorded_of h ((makeRecord_recorded ..).trans (raiseVector_recorded ..))

theorem copy_outside (d S P a : Nat) (h : d ≤ a) (k : ¬ (d ≤ a ∧ a < d + P)) : ¬ (S ≤ a - d + S ∧ a - d + S < S + P) := by omega

/-! ### Delivered units -/

theorem State.merged_eq (s : State) (u : Nat) :
    s.merged u = { s with mem := (s.merged u).mem, delivered := (s.merged u).delivered } := rfl

theorem find_other {α : Type} (u k : Nat) (h : k ≠ u) (l : List (Nat × α)) :
    (l.filter (fun d => d.1 ≠ u)).find? (fun d => d.1 = k) = l.find? (fun d => d.1 = k) := by
  rw [List.find?_filter]
  congr 1
  funext d
  by_cases e : d.1 = k <;> simp [e, h]

theorem find_same {α : Type} (u : Nat) (l : List (Nat × α)) :
    (l.filter (fun d => d.1 ≠ u)).find? (fun d => d.1 = u) = none := by
  simp [List.find?_filter]

/-- Writing a delivered unit into memory changes no byte that a reader sees (R330, R339). -/
theorem State.merged_memByte (s : State) (u x : Nat) : (s.merged u).memByte x = s.memByte x := by
  have hm : rdByte (s.merged u).mem x = if 32 * u ≤ x ∧ x < 32 * u + 32 then s.memByte x else rdByte s.mem x := by
    show rdByte (wrBytes s.mem (32 * u) ((List.range 32).map (fun i => s.memByte (32 * u + i)))) x = _
    rw [rdByte_wrBytes]
    simp only [List.length_map, List.length_range]
    split
    · next h =>
      rw [List.getD_eq_getElem?_getD, List.getElem?_map, List.getElem?_range (by omega)]
      simp only [Option.map_some, Option.getD_some]
      congr 1
      omega
    · rfl
  by_cases h : x / 32 = u
  · have e : (s.merged u).memByte x = rdByte (s.merged u).mem x := by
      unfold State.memByte
      have : (s.merged u).delivered.find? (fun d => d.1 = x / 32) = none := by rw [h]; exact find_same u s.delivered
      rw [this]
    rw [e, hm, if_pos (by omega)]
  · unfold State.memByte
    have : (s.merged u).delivered.find? (fun d => d.1 = x / 32) = s.delivered.find? (fun d => d.1 = x / 32) :=
      find_other u (x / 32) h s.delivered
    rw [this, hm, if_neg (by omega)]

/-- All delivered units of a range written into memory: each byte of the range is then the one that a reader saw. -/
theorem mergeAll_facts : ∀ (l : List Nat) (s : State), Memory.wf s.mem = true →
    Memory.wf (forEach l (fun u t => t.merged u) s).mem = true ∧
      (∀ x, (forEach l (fun u t => t.merged u) s).memByte x = s.memByte x) ∧
      ∀ d ∈ (forEach l (fun u t => t.merged u) s).delivered, d ∈ s.delivered ∧ d.1 ∉ l
  | [], s, h => ⟨h, fun _ => rfl, fun d hd => ⟨hd, by simp⟩⟩
  | a :: l, s, h => by
    rw [forEach_cons]
    obtain ⟨h1, h2, h3⟩ := mergeAll_facts l (s.merged a) (Memory.wf_wrBytes h _ _)
    refine ⟨h1, fun x => (h2 x).trans (s.merged_memByte a x), fun d hd => ?_⟩
    obtain ⟨k1, k2⟩ := h3 d hd
    have k3 : d ∈ s.delivered.filter (fun d => d.1 ≠ a) := k1
    simp only [List.mem_filter, decide_eq_true_eq] at k3
    exact ⟨k3.1, by simp [k3.2, k2]⟩

theorem memByte_undelivered (s : State) (x : Nat) (h : ∀ d ∈ s.delivered, d.1 ≠ x / 32) : s.memByte x = rdByte s.mem x := by
  unfold State.memByte
  have : s.delivered.find? (fun d => d.1 = x / 32) = none := by
    rw [List.find?_eq_none]
    intro d hd
    simpa using h d hd
  rw [this]

theorem stored_shape (v : State) (m : Memory) (u : Tbl UnitSt) (d : List (Nat × List Byte)) :
    ({ v with mem := m, units := u, delivered := d } : State) =
    { v with mem := ({ v with mem := m, units := u, delivered := d } : State).mem
             units := ({ v with mem := m, units := u, delivered := d } : State).units
             delivered := ({ v with mem := m, units := u, delivered := d } : State).delivered } :=
  rfl

/-- A page copy reaches memory, units, and what a record reaches (R351, R360). -/
theorem copyPage_shape (src dst : Nat) (s : State) :
    ∃ v : State, s.ueRecorded v ∧ copyPage src dst s = { v with
      mem := (copyPage src dst s).mem, units := (copyPage src dst s).units, delivered := (copyPage src dst s).delivered } := by
  unfold copyPage
  extract_lets a d dead marks read bytes t
  have hm : s.ueRecorded t := by
    refine forEach_rel (R := State.ueRecorded) State.ueRecorded.refl (fun _ _ _ => State.ueRecorded.trans) _ ?_ _ _
    intro u t
    split
    · exact recordUe_recorded ..
    · exact .refl _
  clear_value t
  split
  · exact ⟨t, hm, stored_shape t _ _ _⟩
  · exact ⟨t, hm, stored_shape t _ _ _⟩

/-- What a page copy does (R351, R360): of the state, memory and units apart, it changes what records change. The copy
holds what a reader of the page sees. -/
theorem copyPage_facts (src dst : Nat) (s : State) (hs : s.Sound) (hd : s.unreachable (src * 2 ^ 21) = false) :
    ∃ v, s.ueRecorded v ∧ copyPage src dst s = { v with
      mem := (copyPage src dst s).mem, units := (copyPage src dst s).units, delivered := (copyPage src dst s).delivered } ∧
    (∀ o < 2 ^ 21, rdByte (copyPage src dst s).mem (dst * 2 ^ 21 + o) =
        if look .good s.units (src * 65536 + o / 32) = .good then s.memByte (src * 2 ^ 21 + o) else 0) ∧
      (∀ o < 65536, look .good (copyPage src dst s).units (dst * 65536 + o) =
        if look .good s.units (src * 65536 + o) = .good then .good else .poison) ∧
      (∀ a, a / 2 ^ 21 ≠ dst → rdByte (copyPage src dst s).mem a = rdByte s.mem a) ∧
      (∀ i, i / 65536 ≠ dst → look .good (copyPage src dst s).units i = look .good s.units i) ∧
      ∀ d, d ∈ (copyPage src dst s).delivered ↔ d ∈ s.delivered ∧ d.1 / 65536 ≠ dst := by
  obtain ⟨hwf, -, -⟩ := hs
  simp only [State.memWf, Bool.and_eq_true] at hwf
  obtain ⟨⟨⟨⟨wm, -⟩, -⟩, wu⟩, -⟩ := hwf
  unfold copyPage
  simp only [hd, Bool.false_eq_true, if_false]
  have e0 : ∀ n : Nat, n * 2 ^ 21 / 32 = n * 65536 := fun n => by
    rw [show (2 : Nat) ^ 21 = 65536 * 32 from by norm_num, ← Nat.mul_assoc]
    exact Nat.mul_div_cancel _ (by decide)
  have e1 := e0 src
  have e2 := e0 dst
  rw [e1, e2]
  obtain ⟨r1, r2, r3⟩ := mergeAll_facts ((s.delivered.map (·.1)).filter (fun u =>
    decide (src * 65536 ≤ u) && decide (u < src * 65536 + 65536))) s wm
  generalize forEach ((s.delivered.map (·.1)).filter _) (fun u t => t.merged u) s = r at r1 r2 r3 ⊢
  have hread : ∀ o < 2 ^ 21, rdByte r.mem (src * 2 ^ 21 + o) = s.memByte (src * 2 ^ 21 + o) := fun o ho => by
    rw [← r2, memByte_undelivered]
    intro d hd e
    obtain ⟨k1, k2⟩ := r3 d hd
    apply k2
    simp only [List.mem_filter, List.mem_map, Bool.and_eq_true, decide_eq_true_eq]
    exact ⟨⟨d, k1, rfl⟩, by omega, by omega⟩
  generalize hv : forEach _ _ s = v
  have hm : s.ueRecorded v := by
    rw [← hv]
    refine forEach_rel (R := State.ueRecorded) State.ueRecorded.refl (fun _ _ _ => State.ueRecorded.trans) _ ?_ _ _
    intro u t
    split
    · exact recordUe_recorded ..
    · exact .refl _
  refine ⟨v, hm, stored_shape v _ _ _, ?_⟩
  have hmd : v.delivered = s.delivered := by rw [hm.shape]
  have hmm : v.mem = s.mem := by rw [hm.shape]
  have hmu : v.units = s.units := by rw [hm.shape]
  rw [hmm, hmu, hmd]
  have hmark : ∀ k, (∃ u ∈ s.units.filter (fun u => decide (src * 65536 ≤ u.1) && decide (u.1 < src * 65536 + 65536)), u.1 = k) ↔
      src * 65536 ≤ k ∧ k < src * 65536 + 65536 ∧ look .good s.units k ≠ .good := fun k => by
    rw [look_listed _ _ wu]
    constructor
    · rintro ⟨u, hu, rfl⟩
      simp only [List.mem_filter, Bool.and_eq_true, decide_eq_true_eq] at hu
      exact ⟨hu.2.1, hu.2.2, u, hu.1, rfl⟩
    · rintro ⟨h1, h2, u, hu, rfl⟩
      exact ⟨u, List.mem_filter.mpr ⟨hu, by simp [h1, h2]⟩, rfl⟩
  have hge : ∀ u ∈ s.units.filter (fun u => decide (src * 65536 ≤ u.1) && decide (u.1 < src * 65536 + 65536)), src * 65536 ≤ u.1 ∧ u.1 < src * 65536 + 65536 := fun u hu => by
    simp only [List.mem_filter, Bool.and_eq_true, decide_eq_true_eq] at hu
    exact hu.2
  generalize s.units.filter (fun u => decide (src * 65536 ≤ u.1) && decide (u.1 < src * 65536 + 65536)) = marks at hmark hge
  have hb : tblWfFrom 0 none (r.mem.filter (fun c => decide (src * 2 ^ 21 ≤ c.1) && decide (c.1 < src * 2 ^ 21 + 2 ^ 21))) = true :=
    tblWf_filter _ _ _ none none (by simp) r1
  have hba : ∀ c ∈ r.mem.filter (fun c => decide (src * 2 ^ 21 ≤ c.1) && decide (c.1 < src * 2 ^ 21 + 2 ^ 21)), src * 2 ^ 21 ≤ c.1 := fun c hc => by
    simp only [List.mem_filter, Bool.and_eq_true, decide_eq_true_eq] at hc
    exact hc.2.1
  have hbl : ∀ y, look 0 (r.mem.filter (fun c => decide (src * 2 ^ 21 ≤ c.1) && decide (c.1 < src * 2 ^ 21 + 2 ^ 21))) y =
      if src * 2 ^ 21 ≤ y ∧ y < src * 2 ^ 21 + 2 ^ 21 then rdByte r.mem y else 0 := fun y => by
    rw [look_filter 0 r.mem (fun k => decide (src * 2 ^ 21 ≤ k) && decide (k < src * 2 ^ 21 + 2 ^ 21)) y]
    simp [rdByte]
  generalize r.mem.filter (fun c => decide (src * 2 ^ 21 ≤ c.1) && decide (c.1 < src * 2 ^ 21 + 2 ^ 21)) = bytes at hb hba hbl
  have hmem : ∀ x, rdByte (marks.foldl (fun m (u : Nat × UnitSt) => zeroBytes m ((u.1 - src * 65536) * 32 + dst * 2 ^ 21) 32)
      (bytes.foldl (fun m (c : Nat × Byte) => wrByte m (c.1 - src * 2 ^ 21 + dst * 2 ^ 21) c.2) (zeroBytes s.mem (dst * 2 ^ 21) (2 ^ 21)))) x =
      if ∃ u ∈ marks, (u.1 - src * 65536) * 32 + dst * 2 ^ 21 ≤ x ∧ x < (u.1 - src * 65536) * 32 + dst * 2 ^ 21 + 32 then 0
      else if dst * 2 ^ 21 ≤ x ∧ look 0 bytes (x - dst * 2 ^ 21 + src * 2 ^ 21) ≠ 0 then look 0 bytes (x - dst * 2 ^ 21 + src * 2 ^ 21)
      else if dst * 2 ^ 21 ≤ x ∧ x < dst * 2 ^ 21 + 2 ^ 21 then 0 else rdByte s.mem x := fun x => by
    rw [rdByte_zeroed (fun k => (k - src * 65536) * 32 + dst * 2 ^ 21) x marks, rdByte_copied (src * 2 ^ 21) (dst * 2 ^ 21) x none bytes _ hb hba, rdByte_zeroBytes]
  have hun : ∀ x, look .good (marks.foldl (fun t (u : Nat × UnitSt) => put .good t (u.1 - src * 65536 + dst * 65536) .poison)
      (s.units.filter (fun u => !(decide (dst * 65536 ≤ u.1) && decide (u.1 < dst * 65536 + 65536))))) x =
      if ∃ u ∈ marks, x = u.1 - src * 65536 + dst * 65536 then .poison
      else if ¬ (dst * 65536 ≤ x ∧ x < dst * 65536 + 65536) then look .good s.units x else .good := fun x => by
    rw [look_poisoned (fun k => k - src * 65536 + dst * 65536) x marks, look_filter .good s.units (fun k => !(decide (dst * 65536 ≤ k) && decide (k < dst * 65536 + 65536))) x]
    have : (!(decide (dst * 65536 ≤ x) && decide (x < dst * 65536 + 65536))) = true ↔ ¬ (dst * 65536 ≤ x ∧ x < dst * 65536 + 65536) := by simp; omega
    simp only [this]
  refine ⟨fun o ho => ?_, fun o ho => ?_, fun a ha => ?_, fun i hi => ?_, fun d => ?_⟩
  · rw [hmem]
    have e : dst * 2 ^ 21 + o - dst * 2 ^ 21 + src * 2 ^ 21 = src * 2 ^ 21 + o := by omega
    have ex : (∃ u ∈ marks, (u.1 - src * 65536) * 32 + dst * 2 ^ 21 ≤ dst * 2 ^ 21 + o ∧ dst * 2 ^ 21 + o < (u.1 - src * 65536) * 32 + dst * 2 ^ 21 + 32) ↔
        look .good s.units (src * 65536 + o / 32) ≠ .good := by
      constructor
      · rintro ⟨u, hu, h1, h2⟩
        have := hge u hu
        exact ((hmark _).mp ⟨u, hu, by omega⟩).2.2
      · intro h
        obtain ⟨u, hu, hk⟩ := (hmark _).mpr ⟨by omega, by omega, h⟩
        exact ⟨u, hu, by omega, by omega⟩
    rw [e, hbl, if_pos (show src * 2 ^ 21 ≤ src * 2 ^ 21 + o ∧ src * 2 ^ 21 + o < src * 2 ^ 21 + 2 ^ 21 from ⟨by omega, by omega⟩)]
    rw [← hread o ho]
    by_cases hg : look .good s.units (src * 65536 + o / 32) = .good
    · rw [if_neg (fun h => ex.mp h hg), if_pos hg]
      by_cases hz : rdByte r.mem (src * 2 ^ 21 + o) = 0
      · rw [if_neg (fun h => h.2 hz), if_pos ⟨by omega, by omega⟩, hz]
      · rw [if_pos ⟨by omega, hz⟩]
    · rw [if_pos (ex.mpr hg), if_neg hg]
  · rw [hun]
    have ex : (∃ u ∈ marks, dst * 65536 + o = u.1 - src * 65536 + dst * 65536) ↔ look .good s.units (src * 65536 + o) ≠ .good := by
      constructor
      · rintro ⟨u, hu, h1⟩
        have := hge u hu
        exact ((hmark _).mp ⟨u, hu, by omega⟩).2.2
      · intro h
        obtain ⟨u, hu, hk⟩ := (hmark _).mpr ⟨by omega, by omega, h⟩
        exact ⟨u, hu, by omega⟩
    by_cases hg : look .good s.units (src * 65536 + o) = .good
    · rw [if_neg (fun h => ex.mp h hg), if_pos hg, if_neg (by omega)]
    · rw [if_pos (ex.mpr hg), if_neg hg]
  · rw [hmem]
    have hout : ¬ (dst * 2 ^ 21 ≤ a ∧ a < dst * 2 ^ 21 + 2 ^ 21) := by omega
    rw [if_neg (by rintro ⟨u, hu, h1, h2⟩; have := hge u hu; omega), if_neg, if_neg hout]
    rintro ⟨h1, h2⟩
    rw [hbl, if_neg (copy_outside _ _ _ _ h1 hout)] at h2
    exact h2 rfl
  · rw [hun, if_neg (by rintro ⟨u, hu, h1⟩; have := hge u hu; omega), if_pos (by omega)]
  · simp only [List.mem_filter, Bool.not_eq_true', Bool.and_eq_false_iff, decide_eq_false_iff_not]
    exact and_congr_right fun _ => by omega

end Sys2Proof.Machine
end

