-- ==== Sys2Proof/Laws/TrayFaults.lean ====
section
/-! SUPPORT. The register CORE_TRAY_FAULT: a fault ends a run without touching it, and TRAY_OWNER is noted in it first. -/
namespace Sys2Proof.Machine

/-- What CORE_TRAY_FAULT of a core shows. -/
def State.trayFault (s : State) (c : Nat) : Nat × Nat × Nat × Nat :=
  ((s.core c).tfTray, (s.core c).tfFound, (s.core c).tfAccessor, (s.core c).tfCount)

theorem trayFault_of_cores {s t : State} (h : t.cores = s.cores) (c : Nat) : t.trayFault c = s.trayFault c := by
  simp only [State.trayFault, State.core, h]

theorem forEach_trayFault {α : Type} {f : α → State → State} {c : Nat} (h : ∀ a s, (f a s).trayFault c = s.trayFault c)
    (l : List α) (s : State) : (forEach l f s).trayFault c = s.trayFault c := forEach_same (State.trayFault · c) f h l s

theorem modCore_trayFault (s : State) (k c : Nat) (f : Core → Core)
    (h : ∀ x, (f x).tfTray = x.tfTray ∧ (f x).tfFound = x.tfFound ∧ (f x).tfAccessor = x.tfAccessor ∧ (f x).tfCount = x.tfCount) :
    (s.modCore k f).trayFault c = s.trayFault c := by
  simp only [State.trayFault, modCore_eq, setCore_core]
  split
  · next e => subst e; simp only [h]
  · rfl

theorem idleEngine_trayFault (o : Op) (w : Work) (c : Nat) (s : State) : (idleEngine o w s).trayFault c = s.trayFault c := by
  unfold idleEngine
  repeat' split
  all_goals first | rfl | exact modCore_trayFault _ _ _ _ (fun _ => ⟨rfl, rfl, rfl, rfl⟩)

theorem idleUnit_trayFault (i : Inst) (c : Nat) (s : State) : (idleUnit i s).trayFault c = s.trayFault c := by
  unfold idleUnit
  split <;> rfl

theorem stopEngines_trayFault (q c : Nat) (s : State) : (stopEngines q s).trayFault c = s.trayFault c := by
  unfold stopEngines
  dsimp only
  refine (trayFault_of_cores (s := forEach (s.run q).crew _ (forEach (s.run q).insts _ s)) rfl c).trans ?_
  refine (forEach_trayFault ?_ _ _).trans
    (forEach_trayFault (f := fun i t => idleUnit i (forEach i.work (idleEngine i.op) t)) (fun i t => ?_) _ _)
  · intro _ _; exact modCore_trayFault _ _ _ _ (fun _ => ⟨rfl, rfl, rfl, rfl⟩)
  · exact (idleUnit_trayFault ..).trans (forEach_trayFault (fun _ _ => idleEngine_trayFault ..) _ _)

theorem freeScratch_trayFault (q c : Nat) (s : State) : (freeScratch q s).trayFault c = s.trayFault c := by
  unfold freeScratch
  dsimp only
  split
  · rfl
  · refine (forEach_trayFault (fun u t => ?_) _ _).trans rfl
    split <;> rfl

theorem killRun_trayFault (q code detail word c : Nat) (g : Option Nat) (s : State) :
    (killRun q code detail word g s).trayFault c = s.trayFault c := by
  unfold killRun
  dsimp only
  have h := (freeScratch_trayFault q c (stopEngines q s)).trans (stopEngines_trayFault q c s)
  generalize freeScratch q (stopEngines q s) = u at h
  rw [← h]
  refine (forEach_trayFault (fun n t => ?_) _ _).trans (trayFault_of_cores rfl c)
  split
  · rfl
  · exact trayFault_of_cores (by rw [sendAbort_sent]; rfl) c

theorem settle_trayFault (c : Nat) (s : State) : (settle s).trayFault c = s.trayFault c := by
  refine trayFault_of_cores ?_ c
  rw [(settle_readiness s).1]

/-- A fault but PLACEMENT and a masked write's leaves CORE_TRAY_FAULT of every core as it is. -/
theorem faultRun_trayFault (q code detail word c : Nat) (g : Option Nat) (s : State) (hc : code ≠ 2) (h9 : code ≠ 9) :
    (faultRun q code detail word g s).trayFault c = s.trayFault c := by
  unfold faultRun
  dsimp only
  split
  · rfl
  rw [settle_trayFault]
  generalize (stopCode code (detail % 256) || (decide (code ≠ 5) && decide ((s.queue q).rerunCount ≥ 15))) = stop
  simp only [hc, h9, false_and, if_false]
  split
  · refine (trayFault_of_cores ?_ c).trans (killRun_trayFault q code (detail % 256) word c g s)
    unfold stopQueue
    rw [raiseVector_glb]
    rfl
  · exact (trayFault_of_cores rfl c).trans (killRun_trayFault q code (detail % 256) word c g s)

/-- TRAY_OWNER as an access finds it: the tray and its owner in the detail, the core and the accessor beside them. -/
def trayFlt (core tray owner accessor : Nat) : Flt := (0x03, tray + 16 * owner + 256 * core + 2 ^ 16 * accessor)

/-- A fault of an item of a kernel that has not landed ends the run with its code and detail; a TRAY_OWNER is noted in
the core, with the owner found and the accessor, that it carries. -/
theorem itemFault_ends (q j : Nat) (w : Work) (core tray owner accessor : Nat) (s : State) (hl : (s.run q).landed = false)
    (ht : tray < 16) (ho : owner < 16) (hc : core < 256) :
    s.endedRun q 0x03 (tray + 16 * owner) (s.inst q j).word true (itemFault q j w (trayFlt core tray owner accessor) s) ∧
    (itemFault q j w (trayFlt core tray owner accessor) s).trayFault core =
      (tray, owner, accessor, satAdd 32 (s.core core).tfCount 1) := by
  have h1 : (tray + 16 * owner + 256 * core + 2 ^ 16 * accessor) % 256 = tray + 16 * owner := by omega
  have h2 : (tray + 16 * owner + 256 * core + 2 ^ 16 * accessor) / 256 % 256 = core := by omega
  have h3 : (tray + 16 * owner + 256 * core + 2 ^ 16 * accessor) % 16 = tray := by omega
  have h4 : (tray + 16 * owner + 256 * core + 2 ^ 16 * accessor) / 16 % 16 = owner := by omega
  have h5 : (tray + 16 * owner + 256 * core + 2 ^ 16 * accessor) / 2 ^ 16 = accessor := by omega
  have e : itemFault q j w (trayFlt core tray owner accessor) s =
      faultRun q 0x03 (tray + 16 * owner + 256 * core + 2 ^ 16 * accessor) (s.inst q j).word none
        (noteTrayFault (tray + 16 * owner + 256 * core + 2 ^ 16 * accessor) s) := by
    simp [itemFault, trayFault, runFault, trayFlt, stalled, hl, State.inst]
  rw [e]
  generalize hn : tray + 16 * owner + 256 * core + 2 ^ 16 * accessor = n at *
  constructor
  · have h := faultRun_ends q 0x03 n (s.inst q j).word none (noteTrayFault n s) hl
    rw [h1] at h
    have e : (stopCode 3 (tray + 16 * owner)) = true := by simp [stopCode]
    rw [e] at h
    exact h
  · rw [faultRun_trayFault _ _ _ _ _ _ _ (by decide) (by decide)]
    simp only [State.trayFault, noteTrayFault, modCore_eq, h2, h3, h4, h5, setCore_core, if_true]

end Sys2Proof.Machine
end

