-- ==== Sys2Proof/Machine/Package.lean ====
section
/-! DEFINITION. Figures of the package (23_package.md R510 to R523): outline, receptacles, lanes, supply, power budget,
cooling. Lengths are in units of 0.01 mm, voltages and currents in 0.1 V and 0.1 A, powers in W. -/
namespace Sys2Proof.Machine.Package

/-- Width, depth and height of the package (R510). -/
def outline : Nat × Nat × Nat := (15000, 13000, 1150)

/-- The half at a distance from the west edge (R510). -/
def halfAt (x : Nat) : Nat := if x < 7500 then 0 else 1

/-- The lid's contact area: x, then y. -/
def lidX : Nat × Nat := (1000, 14000)
def lidY : Nat × Nat := (2200, 10800)

/-- Where the centre of a port's receptacle stands (R511): from the west edge, and from the south edge. -/
def portAt (p : Nat) : Nat × Nat :=
  let q := p % 32
  let inset := if q % 16 < 8 then 400 else 1400
  (1125 + 850 * (8 * (p / 32) + q % 8), if q < 16 then 13000 - inset else inset)

/-- Positions of an MPO-16 receptacle that transmit and receive lane i (R512). -/
def txPosition (i : Nat) : Nat := i + 1
def rxPosition (i : Nat) : Nat := 16 - i

/-- A trunk that reverses positions (R512). -/
def trunk (n : Nat) : Nat := 17 - n

/-- Host lane of a receptacle's lane: HP0 is 0, HP1 is 1 (R512, Table 23.1). -/
def hostLane (hp i : Nat) : Nat := 8 * hp + i

/-- Other contacts (Table 23.1): from the west edge, from the south edge. -/
inductive Contact where
  | hp0 | hp1 | lh | vin | vrtn
  deriving DecidableEq, Repr

def contactAt : Contact → Nat × Nat
  | .hp0 => (0, 7500)
  | .hp1 => (15000, 6500)
  | .lh => (0, 5500)
  | .vin => (15000, 4500)
  | .vrtn => (15000, 8500)

/-- VIN in its operating range (Table 23.3): the part starts after 10 ms of it (R516). -/
def vinGood (v : Nat) : Bool := decide (440 ≤ v) && decide (v ≤ 560)

/-- VIN so low that 100 us of it end the power (R517). -/
def vinLow (v : Nat) : Bool := decide (v < 420)

/-- Continuous power (Table 23.3). -/
def continuousPower : Nat := 4600

/-- Consumers with their design and idle power (Table 23.4). -/
def budget : List (Nat × Nat) := [(2400, 420), (1150, 190), (650, 520), (80, 20), (320, 90)]

/-- What gating optical port groups saves. -/
def portGroupSaving (groups : Nat) : Nat := 40 * groups

/-- Rise of the lid over the coolant inlet, in 0.0001 K: power times a thermal resistance in 0.0001 K/W (R520). -/
def lidRise (power resistance : Nat) : Nat := power * resistance

end Sys2Proof.Machine.Package
end

