-- ==== Sys2Proof/Tests/Slice0.lean ====
section
/-! SUPPORT. Tests: ill-formed commands are refused by each check of WellFormed.lean; words of the spec's tables decode to
what they stand for; and for each statement with hypotheses a small state and operands that meet them, clause by clause. -/
namespace Sys2Proof.Tests

open Sys2Proof Sys2Proof.Machine

set_option Elab.async false

/-! ### Ill-formed commands are refused -/

theorem test_wf_numbers :
    (Instr.nop 524288).wf = false ∧ (Instr.synValueWrite 16384 0).wf = false ∧ (Instr.trayScrubDone 256 0).wf = false ∧
    (Instr.trayScrubDone 0 16).wf = false ∧ (Instr.tileSteal 1024).wf = false ∧ (Instr.stripeSteal 32).wf = false ∧
    (Instr.refresh 32 0).wf = false ∧ (Instr.refresh 0 64).wf = false ∧ (Instr.portEnable 64).wf = false ∧
    (Instr.codecJobDone 8).wf = false ∧ (Instr.park 32).wf = false ∧ (Instr.domainGate 378).wf = false ∧
    (Instr.telemetry 2).wf = false ∧ (Instr.registerWrite 1 0 8 0).wf = false ∧
    (Instr.migrationDone 0 (3 * 2 ^ 19)).wf = false ∧ (Instr.scrubRead 0 0 16 0).wf = false ∧
    (Instr.scrubRead 0 0 0x30000000000 0).wf = false ∧ (Instr.garbageCollect 655360).wf = false ∧
    (Instr.rationsWindow 0x2002 0 []).wf = false ∧ (Instr.wait 0 0 (2 ^ 64)).wf = false := by decide

theorem test_wf_operands :
    probWf { fn := 16 } = false ∧ attnWf { qpos := 2 ^ 32 } = false ∧ rowWf { func := 32 } = false ∧
    stripeWf { pfw := 16 } = false ∧ peelWf { round := 4 } = false ∧ atomWf { addr := 2 ^ 48 } = false ∧
    collWf { redop := 16 } = false ∧ packetWf { length := 4097 } = false ∧ packetWf { port := some 64 } = false ∧
    ticketWf { party := 256 } = false ∧ sensorsWf {} = false ∧
    imageWf { regions := [{ base := 2 ^ 48, size := 1 }] } = false := by decide

theorem test_wf_words :
    (Op.kbegin 65536 0 false false).wf = false ∧ (Op.wait 16384 0).wf = false ∧ (Op.signal 5 0 0 0 0).wf = false ∧
    (Op.recipe 0 0 1 0).wf = false ∧ (Op.rowop { variant := 7 }).wf = false ∧ (Op.stripe { variant := 4 }).wf = false ∧
    (Op.peel { variant := 4 }).wf = false ∧ (Op.atom { variant := 1, addr := 1 }).wf = false ∧
    (Op.coll { variant := 6 }).wf = false ∧ (Op.codec 3 0).wf = false ∧ (Op.place 0 4).wf = false ∧
    (Op.epoch 3 0 0).wf = false ∧ (Op.sound 0 1 0 0).wf = false := by decide

/-! ### Words of the spec's example (Table 3.20), as Q3, Q2, Q1, Q0 -/

def quad (q3 q2 q1 q0 : Nat) : Nat := q0 + 2 ^ 64 * q1 + 2 ^ 128 * q2 + 2 ^ 192 * q3

theorem test_head_projection_words :
    decodeOp (quad 0x0101000000000000 0 0 0x0C) = some (.kbegin 12 0 true false) ∧
    decodeOp (quad 0x0300000000000000 0 1 0xC8) = some (.wait 200 1) ∧
    decodeOp (quad 0x1000000000000000 0x0000010000400000 0xC000100000200004 0x0000040001000000) =
      some (.prob { a := 0x1000000, b := 0x1000001, c := 0x1000002, aux := 0x1000003, fn := 1 }) ∧
    decodeOp (quad 0x1000000000000000 0x0000010000400001 0xC000100000600004 0x0000140001000004) =
      some (.prob { a := 0x1000004, b := 0x1000005, c := 0x1000006, aux := 0x1000007, fn := 1 }) ∧
    decodeOp (quad 0x0400000000000000 0 1 0xC9) = some (.signal 0 201 0 0 1) ∧
    decodeOp (quad 0x0200000000000000 0 0 0) = some .commit := by decide

/-- The descriptor of A for head 0, of the same example. -/
theorem test_head_projection_descriptor :
    let t := tensorOf (quad 0x0100000000000000 0 0x1000000000400012 0x20000000)
    t.base = 0x20000000 ∧ t.rank = 2 ∧ t.fmt = 2 ∧ t.e 0 = 64 ∧ t.e 1 = 4096 ∧ t.st 1 = 256 := by decide

/-! ### Small states -/

/-- Numbers laid in memory, by rising address: address, bytes, value. -/
def lay (l : List (Nat × Nat × Nat)) : Memory :=
  l.flatMap (fun p => (List.range p.2.1).filterMap (fun k =>
    if p.2.2 / 256 ^ k % 256 = 0 then none else some (p.1 + k, BitVec.ofNat 8 (p.2.2 / 256 ^ k))))

/-- A half in service. -/
def half (claim : Bool) : TwcHalf :=
  { chair := .agreed, claim := claim, peerHb := true, bootStage := 7, us := 10000000 }

/-- A part in service. -/
def live : State where
  glb := { h0Up := true, h1Up := true, rootLock := true, sOnRoot := true, linkWidth := 16, linkRate := 5
           cxlCache := true, cxlMem := true }
  clk := { power := .alwaysOn, fOn := true, aOn := true, kOn := true, serdes := true }
  twcH := [(0, half true), (1, half false)]

/-- A descriptor: base, format, extents, strides of the dimensions from 1 on. -/
def dsc (base fmt : Nat) (ext stride : List Nat) (scale : Nat := 0) : Nat :=
  let at_ := fun (l : List Nat) (lo w : Nat) => ((List.range l.length).map (fun k => l.getD k 0 * 2 ^ (lo + w * k))).sum
  base + ext.length * 2 ^ 64 + fmt * 2 ^ 67 + at_ ext 80 32 + at_ stride 240 40 + scale * 2 ^ 400

/-- Descriptor k lies at virtual address 64 * k; physical page 3 holds virtual page 0. -/
def pa (va : Nat) : Nat := 3 * 2 ^ 21 + va

def img (t : Template) (ds : List Nat) : Image where
  templates := [{ t with queue := 5, uses := [{ region := 0, role := .output, tier := .crust }] }]
  regions := [{ size := 2 ^ 21, tiers := [.crust], initial := .crust }]
  queues := [{ queue := 5 }]
  syncs := [{ sync := 9 }]
  descs := (List.range ds.length).map (fun k => { va := 64 * (k + 1), bits := BitVec.ofNat 512 (ds.getD k 0) })

/-- Queue 5 of berth 0, on core 0, runs a kernel of words `ws`, with descriptors 1, 2, ... in memory. -/
def kernel (ws : List Op) (ds : List Nat) (r : Run := {}) (t : Template := {}) : State :=
  { live with
    queues := [(5, { state := .running, tail := 8 })]
    runs := [(5, { r with words := ws, fetched := true, opened := true, phase := .running, crew := [0] })]
    syncs := [(9, { value := 3, allocated := true })]
    cores := [(0, { crew := some 5, mxe := [(0, { inCrew := true }), (1, { inCrew := true })] })]
    berths := [(0, { layout := { configured := true, cores := 3 }, share := 1
                     image := some (img { heldCount := 2, coresMax := 2, trays := 5, words := ws.map (BitVec.ofNat 256 <| encodeOp ·), wide := t.wide } ds)
                     pages := [(0, { tier := .crust, phys := 3 })] })]
    mem := lay ((List.range ds.length).map (fun k => (pa (64 * (k + 1)), 64, ds.getD k 0))) }

/-! ### Hypotheses are met: the whole part -/

def slack : State :=
  { live with trec := { retired := [7] }, shelf := { blocks := [(3, { bad := true })] }, pending := [.nop 5] }

theorem test_StepRunsTheFrontCommand : slack.pending = .nop 5 :: [] ∧ live.pending = [] := by decide

/-- Of EveryStepKeepsSoundness, SecverMinNeverFalls, RetiredPagesAndBadBlocksStay and FreeValuesAreFresh. -/
theorem test_EveryStepKeepsSoundness :
    slack.memWf = true ∧ buffered slack.dbg ≤ 1024 ∧ slack.dbg.reports.length ≤ 64 ∧ slack.sec.pend = [] ∧
    (∃ t, step slack = .next t) ∧ 7 ∈ slack.trec.retired ∧ (slack.block 3).bad = true :=
  ⟨by decide, by decide, by decide, by decide, ⟨_, rfl⟩, by decide, by decide⟩

/-! ### Hypotheses are met: the words of a kernel -/

def row1 : Nat := dsc 0x2000 0 [1, 1] [1]

theorem test_PlainWordsDispatch :
    (∀ op ∈ [Op.nop, .fence, .commit, .sound 0 0 0 0, .sound 1 3 2 7, .recipe 0 8 0 0, .recipe 1 8 9 2],
      nextWord ((kernel [op] []).run 5) op = true) ∧
    ∀ i ∈ ((kernel [.fence] []).run 5).insts, i.done = true := by decide

def placed0 : State := kernel [.place 1 0] [row1]

def atom0 (remote : Bool) : State := kernel [.atom { addr := 0x40, remote := remote }] [row1]

theorem test_HeldWordsEnterTheLog :
    ((kernel [.signal 0 9 0 0 1] []).run 5).entries + 1 ≤ ((kernel [.signal 0 9 0 0 1] []).template 5).heldCount ∧
    nextWord ((kernel [.signal 0 9 0 0 1] []).run 5) (.signal 0 9 0 0 1) = true ∧
    nextWord ((kernel [.epoch 1 2 3] []).run 5) (.epoch 1 2 3) = true ∧
    nextWord (placed0.run 5) (.place 1 0) = true ∧
    placed0.readDesc (placed0.ctx 5) 64 = .ok { va := 64, bits := row1 } ∧ opAligned [{ va := 64, bits := row1 }] = true ∧
    (∀ remote, nextWord ((atom0 remote).run 5) (.atom { addr := 0x40, remote := remote }) = true) ∧
    (atom0 false).locate ((atom0 false).ctx 5) writeRole 0x40 = .ok (.stack (pa 0x40)) := by decide +kernel

def okAnd {α : Type} (x : Except Flt α) (f : α → Bool) : Bool := match x with
  | .ok a => f a
  | .error _ => false

def reduce1 : State :=
  kernel [.atom { variant := 1, src := 1, dst := 2 }] [dsc 0x2000 6 [1] [], dsc 0x3000 6 [1] []]

theorem test_ReductionsEnterTheLog :
    let o : AtomOps := { variant := 1, src := 1, dst := 2 }
    let ds : List Desc := [{ va := 64, bits := dsc 0x2000 6 [1] [] }, { va := 128, bits := dsc 0x3000 6 [1] [] }]
    nextWord (reduce1.run 5) (.atom o) = true ∧
    reduce1.readSlots (reduce1.ctx 5) (reduce1.run 5).set (.atom o) = .ok ds ∧ opAgree (.atom o) (tensors ds) = true ∧
    opAligned ds = true ∧
    reduce1.atomElems (reduce1.ctx 5) (nth (tensors ds) 0) (nth (tensors ds) 1) = .ok [(0x3000, 0)] ∧
    reduce1.locate (reduce1.ctx 5) writeRole 0x3000 = .ok (.stack (pa 0x3000)) ∧
    (reduce1.run 5).entries + cdiv (4 * 1) 4096 ≤ (reduce1.template 5).heldCount := by decide +kernel

/-- Descriptors of n rows, five of an ATTN, of which others take some, and one of one element. -/
def five (n : Nat) : List Nat :=
  [dsc 0x2000 0 [1, n] [1], dsc 0x3000 0 [1, n] [1], dsc 0x4000 0 [1, n] [1], dsc 0x5000 0 [1, n] [1],
    dsc 0x6000 0 [3, n] [3], dsc 0x7000 0 [1, 1] [1]]

def maps (n : Nat) : List Nat := [dsc 0x2000 0 [1, 1, n] [1, 1], dsc 0x3000 0 [1, 1, n] [1, 1]]

/-- The five instructions that are planned, with n rows. -/
def planned (n : Nat) : List (Op × List Nat) :=
  [(.prob { a := 1, b := 6, c := 3 }, five n), (.attn { base := 1, first := true, last := true }, five n),
    (.rowop { x := 1, y := 2 }, five n), (.stripe { variant := 1, inp := 1, out := 2 }, maps n),
    (.peel { src := 1, dst := 2 }, five n)]

/-- The hypotheses of InstructionsJoinTheirKernel, where the instruction is the kernel's next word. -/
def joins (s : State) (op : Op) (zero : Bool) : Bool :=
  nextWord (s.run 5) op && match s.readSlots (s.ctx 5) (s.run 5).set op with
    | .error _ => false
    | .ok ds => opAgree op (tensors ds) && opAligned ds && (opZero op (tensors ds) = zero) && (zero ||
        ((firstOver op (tensors ds) (runBounds (s.ctx 5).img ds (s.run 5).retileDims (s.run 5).ip) = none) &&
          decide ((s.run 5).entries + heldEntries (s.ctx 5).img op (tensors ds) ≤ (s.template 5).heldCount) &&
          okAnd (readRefs s (s.ctx 5) (s.run 5) op ds) opAligned))

theorem test_InstructionsJoinTheirKernel :
    (∀ p ∈ planned 0, joins (kernel [p.1] p.2) p.1 true = true) ∧
    ∀ p ∈ planned 1, joins (kernel [p.1] p.2) p.1 false = true := by decide +kernel

theorem test_OtherWordsWait :
    nextWord ((kernel [.fence] []).run 5) .nop = false ∧
    ∀ op ∈ [Op.fence, .commit, .signal 0 0 0 0 0, .recipe 0 8 0 0, .prob {}, .attn {}, .rowop {}, .stripe {}, .peel {},
      .atom {}, .coll {}, .place 0 0, .epoch 0 0 0, .sound 0 0 0 0], nextWord ((kernel [.nop] []).run 5) op = false := by
  decide

/-- The kernel in STATE 1, at word i, its KBEGIN taken or not. -/
def still (ws : List Op) (i : Nat) (opened : Bool) (t : Template := {}) : State :=
  (kernel ws [] {} t).modRun 5 (fun r => { r with phase := .waiting, opened := opened, ip := i, crew := [] })

theorem test_KernelsBeginAndWait :
    let a := (still [.kbegin 0 4 true false] 0 false).run 5
    a.phase = .waiting ∧ a.fetched = true ∧ a.ip = 0 ∧ a.words[0]? = some (.kbegin 0 4 true false) ∧
    ∀ threshold ∈ [3, 4], let s := still [.kbegin 0 4 true false, .wait 9 threshold] 1 true
      (s.run 5).phase = .waiting ∧ (s.run 5).opened = true ∧ (s.run 5).words[(s.run 5).ip]? = some (.wait 9 threshold) ∧
      (if threshold = 3 then threshold ≤ (s.sync 9).value else (s.sync 9).value < threshold) := by decide

/-! ### Hypotheses are met: doorbells and registers -/

def door (st : QState) (skip : Bool := false) (tail : Nat := 8) : State :=
  { live with queues := [(5, { state := st, ringLog2 := 6, tail := tail, skipWaiting := skip })] }

theorem test_DoorbellsFollowR34 :
    (∀ skip, doorbellOpen (door .stopped skip) 5 = true) ∧ doorbellOpen (door .running) 5 = true ∧
    2 ^ ((door .running).queue 5).ringLog2 < ahead 32 65 ((door .running).queue 5).head ∧
    ahead 32 7 ((door .running).queue 5).head < ahead 32 ((door .running).queue 5).tail ((door .running).queue 5).head ∧
    (∀ v ∈ [8, 64], ahead 32 v ((door .running).queue 5).head ≤ 2 ^ ((door .running).queue 5).ringLog2 ∧
      ahead 32 ((door .running).queue 5).tail ((door .running).queue 5).head ≤ ahead 32 v ((door .running).queue 5).head) ∧
    ((door .running).queue 5).state ≠ .stopped ∧ ((door .stopped true).queue 5).state = .stopped ∧
    ((door .stopped true).queue 5).skipWaiting = true := by decide

/-- A stopped queue whose ring holds NOP, NOP, COMMIT, its TAIL at n. -/
def stopped (n : Nat) : State :=
  { kernel [.nop] [] with
    queues := [(5, { state := .stopped, ringBase := 0x8000, ringLog2 := 6, tail := n })]
    mem := lay [(pa 0x8040, 32, encodeOp .commit)] }

theorem test_StoppedQueuesRestart :
    doorbellOpen (stopped 3) 5 = true ∧ ((stopped 3).queue 5).state = .stopped ∧
    2 < pendingFrom ((stopped 3).queue 5) ((stopped 3).queue 5).kernelStart ∧
    decodeOp ((stopped 3).ringWord 5 2) = some .commit ∧
    (∀ j < 2, decodeOp ((stopped 3).ringWord 5 j) ≠ some .commit) ∧
    doorbellOpen (stopped 2) 5 = true ∧ pendingFrom ((stopped 2).queue 5) ((stopped 2).queue 5).kernelStart = 2 ∧
    (∀ j < 2, decodeOp ((stopped 2).ringWord 5 j) ≠ some .commit) ∧
    (live.queue 5).state = .disabled ∧ ({ live with glb := { h0Fenced := true } } : State).fenced (queueHalf 5) = true := by
  decide +kernel

theorem test_SyncValuesAndWaitsFollowR37 :
    ((kernel [] []).sync 9).allocated = true ∧ (kernel [] []).fenced (syncHalf 9) = false ∧
    (live.sync 9).allocated = false ∧ ({ live with glb := { h0Fenced := true } } : State).fenced (syncHalf 9) = true ∧
    ∀ threshold ∈ [3, 4], let s := still [.wait 9 threshold] 0 true
      (s.run 5).phase = .waiting ∧ (s.run 5).opened = true ∧ (s.run 5).words[(s.run 5).ip]? = some (.wait 9 threshold) ∧
      (if threshold = 3 then threshold ≤ (s.sync 9).value else (s.sync 9).value < threshold) := by decide

theorem test_OddAccessesDoNothing :
    (¬ (8 = 8 ∧ 4 % 8 = 0) ∧ ¬ (8 = 4 ∧ 4 % 4 = 0)) ∧ (¬ (2 = 8 ∧ 0 % 8 = 0) ∧ ¬ (2 = 4 ∧ 0 % 4 = 0)) ∧
    0x100 % 8 = 0 ∧ 0x104 % 8 = 4 := by decide

def dark : State := { live with glb := { h0Fenced := true, h1Fenced := true } }

theorem test_FencedUnitsAreSilent :
    (∀ a ∈ [0x100000, 0x4FFFFF], dark.fenced (queueHalf ((a - 0x100000) / 8)) = true) ∧
    (∀ a ∈ [0x500000, 0x53FFFF], dark.fenced (syncHalf ((a - 0x500000) / 16)) = true) ∧
    (∀ a ∈ [0x600000, 0x6FFFFF], dark.fenced (coreHalf ((a - 0x600000) / 0x1000)) = true) ∧
    (∀ a ∈ [0x700000, 0x77FFFF], dark.fenced (clusterHalf ((a - 0x700000) / 0x4000)) = true) ∧
    (∀ a ∈ [0x800000, 0x81FFFF], dark.fenced ((a - 0x800000) / 0x10000) = true) ∧
    (∀ a ∈ [0x900000, 0x97FFFF], dark.fenced ((a - 0x900000) / 0x4000 / 16) = true) ∧
    (∀ a ∈ [0xB00000, 0xB3FFFF], dark.fenced (portHalf ((a - 0xB00000) / 0x1000)) = true) ∧
    (∀ a ∈ [0xC00000, 0xC1FFFF], dark.fenced ((a - 0xC00000) / 0x4000 / 4) = true) ∧
    dark.fenced (queueHalf 5) = true ∧ dark.fenced (syncHalf 16383) = true ∧ 0xFFF8 < 0x10000 ∧ 0xFFF8 % 8 = 0 := by
  decide

theorem test_RegisterWritesFollowTheirCodes :
    live.glb.preemptGap < 2 ^ 32 ∧ live.fenced 0 = false ∧ ((kernel [] []).berth 0).layout.configured = true ∧
    bit 0 34 = false ∧ 1000 ≤ 4600 % 2 ^ 16 ∧ 4600 % 2 ^ 16 ≤ 4600 := by decide

/-! ### Hypotheses are met: the life of a kernel -/

/-- The kernel of a PROB, with A of the given descriptor in memory. -/
def product (a : Nat) : State :=
  { kernel [.prob { a := 1, b := 2, c := 3, transB := true }] (five 1) with
    mem := lay [(pa 64, 64, a), (pa 128, 64, (five 1).getD 1 0), (pa 192, 64, (five 1).getD 2 0)] }

def probOp : Op := .prob { a := 1, b := 2, c := 3, transB := true }

/-- What the slots of the PROB give. -/
def slots (s : State) : Except Flt (List Desc) := s.readSlots (s.ctx 5) (s.run 5).set probOp

theorem test_FaultingWordsEndTheirRun :
    (∀ op ∈ [Op.signal 0 9 0 0 1, .epoch 1 2 3], let s := kernel [op] [] { entries := 2 }
      (s.template 5).heldCount < (s.run 5).entries + 1 ∧ (s.run 5).landed = false ∧ nextWord (s.run 5) op = true) ∧
    (∀ op ∈ [Op.prob { a := 2 ^ 20 }, .attn { base := 2 ^ 20 }, .rowop { x := 2 ^ 20 }, .stripe { inp := 2 ^ 20 },
        .peel { src := 2 ^ 20 }], let s := kernel [op] []
      nextWord (s.run 5) op = true ∧ s.readSlots (s.ctx 5) (s.run 5).set op = .error (0x0E, 1)) ∧
    (∀ a ∈ [dsc 0x2000 0 [1, 2] [1], dsc 0x2001 0 [1, 1] [1], dsc 0x2000 0 [1, 1] [1]],
      nextWord ((product a).run 5) probOp = true) ∧
    okAnd (slots (product (dsc 0x2000 0 [1, 2] [1]))) (fun ds => !opAgree probOp (tensors ds)) = true ∧
    okAnd (slots (product (dsc 0x2001 0 [1, 1] [1]))) (fun ds => opAgree probOp (tensors ds) && !opAligned ds) = true ∧
    let s := { product (dsc 0x2000 0 [2, 1] [1]) with
      mem := lay [(pa 64, 64, dsc 0x2000 0 [2, 1] [1]), (pa 128, 64, dsc 0x3000 0 [2, 1] [1]), (pa 192, 64, (five 1).getD 2 0)] }
    (s.template 5).retile = false ∧ okAnd (slots s) (fun ds => opAgree probOp (tensors ds) && opAligned ds &&
      !opZero probOp (tensors ds) &&
      (firstOver probOp (tensors ds) (runBounds (s.ctx 5).img ds (s.run 5).retileDims (s.run 5).ip) = some 3)) = true := by
  decide +kernel

/-- KBEGIN and COMMIT in the ring of queue 5, as its template has them; `w` is the second word there. -/
def fetching (st : QState) (w : Op) (r : Run := {}) : State :=
  { kernel [.kbegin 0 4 true false, .commit] [] with
    queues := [(5, { state := st, ringBase := 0x8000, ringLog2 := 6, tail := 2 })]
    runs := [(5, r)]
    mem := lay [(pa 0x8000, 32, encodeOp (.kbegin 0 4 true false)), (pa 0x8020, 32, encodeOp w)] }

theorem test_FetchedKernelsMatchTheirTemplate :
    fetchAt (fetching .idle .commit) 5 0 = .good 0 [.kbegin 0 4 true false, .commit] := by decide +kernel

theorem test_KernelsAreFetched :
    let a := fetching .idle .commit
    let c := fetching .waiting .commit { phase := .killed, traysOut := [] }
    mayFetch a 5 = true ∧ openSlotOf a 5 = none ∧ (a.queue 5).state = .idle ∧
    pendingFrom (a.queue 5) (a.queue 5).head ≠ 0 ∧
    fetchAt a 5 (a.queue 5).head = .good 0 [.kbegin 0 4 true false, .commit] ∧
    fetchAt (fetching .idle .nop) 5 0 = .bad 1 0 ∧
    fetchAt { a with units := [(pa 0x8020 / 32, .uncorrectable)] } 5 0 = .fault 1 (0x09, 1) ∧
    mayFetch c 5 = true ∧ openSlotOf c 5 = none ∧ (c.queue 5).state = .waiting ∧ (c.run 5).phase = .killed ∧
    (c.run 5).traysOut = [] ∧ (c.run 5).waitMig = false ∧ groupSettled c (c.run 5).waitGroup = true ∧
    fetchAt c 5 (c.queue 5).kernelStart = .good 0 [.kbegin 0 4 true false, .commit] := by decide +kernel

theorem test_TraysReturnAndAreScrubbed :
    let s := { live with cores := [(3, { trays := [(2, { scrubbing := true, scrubFor := 7 })] })] }
    (s.tray 3 2).scrubbing = true ∧ s.twc.pendScrub.contains (3, 2) = false := by decide

theorem test_ReadyKernelsTakeTheirCrew :
    let a := (still [.kbegin 0 4 true false] 1 true).setCore 0 {}
    let c := { (kernel [probOp] (five 1)).setCore 0 {} with
      runs := [(5, { words := [probOp], fetched := true, opened := true })] }
    openSlotOf a 5 = none ∧ mayLeave a 5 = true ∧ zeroShape a 5 = true ∧
    openSlotOf c 5 = none ∧ mayLeave c 5 = true ∧ zeroShape c 5 = false ∧ aheadNow c 5 = false ∧ crewNow c 5 = true := by
  decide +kernel

theorem test_CoresJoinLater :
    let s := kernel [probOp] (five 1)
    (s.run 5).phase = .running ∧ (s.run 5).zeroShape = false ∧ (s.run 5).crew.length < (s.template 5).coresMax ∧
    qualifies s 5 1 (s.run 5).wide = true ∧ s.runs.map (·.1) = [5] := by decide +kernel

/-! ### Hypotheses are met: work items, commits -/

/-- Queue 5 works on one instruction with its five crew cores' engines; descriptors are 1, 2, ... -/
def working (op : Op) (ds : List Nat) (w : List Work) (i : Inst := {}) (img? : List Nat := []) : State :=
  let s := kernel [op] img? { insts := [{ i with
    op := op, planned := true, shape := (32, 32), work := w
    descs := (List.range ds.length).map (fun k => { va := if ds.getD k 0 = 0 then 0 else 64 * (k + 1), bits := ds.getD k 0 }) }] }
  let crew : Core := { crew := some 5, mxe := [(0, { inCrew := true }), (1, { inCrew := true })] }
  { s with
    cores := [(0, crew), (1, crew), (8, crew)]
    runs := [(5, { s.run 5 with crew := [0, 1, 8] })] }

/-- The one item, under way on an engine, with the slot fills and the shares it has had. -/
def on (e : Nat) (fills : Nat := 0) (shares : Nat := 0) : List Work :=
  [{ eng := e, started := true, fills := fills, shares := shares }]

/-- The crew's trays as its engines take them: tray k of core 0, and its owner. -/
def seats (s : State) (k owner found : Nat) : State :=
  (s.modRun 5 (fun r => { r with trayMap := [(0, k, owner)] })).setCore 0 { s.core 0 with trays := [(k, { owner := found })] }

def off : List Work := [{}, { item := 1 }]

/-- The item's yield enters the state. -/
def enters (s : State) (tray : Nat) (y : Yield) : Bool :=
  okAnd (applyYield 5 0 tray y s) (fun u => decide (0 < (u.run 5).insts.length))

theorem test_PlansDealTheirWork :
    let s := (kernel [probOp] []).modRun 5 (fun r => { r with insts := [{ op := probOp }] })
    (s.run 5).phase = .running ∧
    (s.run 5).insts.findIdx? (fun i => (engKind i.op).isSome && !i.planned && !i.zero && !i.done) = some 0 ∧
    s.trayBar 5 ((s.run 5).crew.headD 0) 7 = none := by decide

def product1 : List Nat := [dsc 0x2000 0 [1, 1] [1], dsc 0x3000 0 [1, 1] [1], dsc 0x4000 0 [1, 1] [1], 0]

/-- An ATTN of one query row without keys. -/
def attn1 (nk : Nat) : List Nat :=
  [dsc 0x2000 0 [1, 1] [1], dsc 0x3000 0 [1, nk] [1], dsc 0x4000 0 [1, nk] [1], dsc 0x5000 0 [1, 1] [1],
    dsc 0x6000 0 [3, 1] [3]]

def attnOp : Op := .attn { base := 1, first := true, last := true }

theorem test_TilesComplete :
    (let s := working probOp product1 (on 0 2)
     mxeItem s 0 = some (5, 0, { eng := 0, started := true, fills := 2 }) ∧ needFills (s.inst 5 0) = some 2 ∧
     s.engineBar 5 0 1 0 4 = none ∧ okAnd (s.probTile 5 0 0) (fun p => enters s 0 p.1) = true) ∧
    (∀ nk ∈ [0, 1], let s := working attnOp (attn1 nk) (on 0 0 nk)
     let o : AttnOps := { base := 1, first := true, last := true }
     mxeItem s 0 = some (5, 0, { eng := 0, started := true, shares := nk }) ∧ s.engineBar 5 0 1 0 4 = none ∧
     attnChunks (s.inst 5 0) o 0 = nk ∧
     okAnd (s.attnItem 5 (s.inst 5 0) o 0) (fun st =>
       enters s 0 { st := st, reads := attnReads s (s.ctx 5) (s.inst 5 0) o 0 }) = true) := by decide +kernel

/-- C, or the destination, is an accumulator of core 0 in a tray that no Peel owns. -/
def lost (op : Op) (ds : List Nat) : State :=
  (working op ds (on 0 2)).modBerth 0 (fun b => { b with image := b.image.map (fun i => { i with
    descs := [{ va := 192, dest := .accum 2 }], accs := [{ tray := 2, words := 4, cores := [0], window := 0x10000 }] }) })

/-- Of TilesComplete and FillsSharesAndSoundingsCount. -/
theorem test_TraysInOtherHands :
    (let s := lost (.prob { a := 1, b := 2, c := 3, transB := true, dst := 2, acc := 2 })
      [dsc 0x2000 0 [1, 1] [1], dsc 0x3000 0 [1, 1] [1], dsc 0x10000 6 [1, 1] [1], 0]
     mxeItem s 0 = some (5, 0, { eng := 0, started := true, fills := 2 }) ∧ s.engineBar 5 0 1 0 4 = none ∧
     (s.run 5).landed = false ∧ (s.tray 0 2).owner < 16 ∧ okAnd (s.probTile 5 0 0) (fun p => match applyYield 5 0 2 p.1 s with
       | .ok _ => false
       | .error f => f = s.trayOwnerFault 0 2 6) = true) ∧
    (∀ p ∈ [(probOp, 1), (.rowop { x := 1, y := 2 }, 5), (.peel { src := 1, dst := 2 }, 6), (.stripe { variant := 1 }, 8)],
      ∀ found ∈ [p.2, 9], let s := seats (working p.1 [row1, dsc 0x3000 0 [1, 1] [1]] (on 0)) 2 p.2 found
      (if p.2 = 1 then mxeItem s 0
        else if p.2 = 8 then runningItem s (clusterRuns s 0) .stripe 0
        else runningItem s ((s.core 0).crew).toList (if p.2 = 5 then .rwe else .peel) 0) =
          some (5, 0, { eng := 0, started := true }) ∧
      (p.2 = 6 → readsDone (s.ctx 5) (s.inst 5 0) 0 = true ∧ fillWaits s 0 = false) ∧ (s.run 5).landed = false ∧
      (s.tray 0 2).owner < 16 ∧ s.trayBar 5 0 p.2 = if found = p.2 then none else some (s.trayOwnerFault 0 2 p.2)) ∧
    trayBad 0x1C000 = true := by decide +kernel

def far (d : Nat) : Nat := d + 2 ^ 72

theorem test_BatchesAndStripesComplete :
    (let o : RowOps := { x := 1, y := 2 }
     let s := working (.rowop o) [row1, dsc 0x3000 0 [1, 1] [1]] (on 0)
     runningItem s ((s.core 0).crew).toList .rwe 0 = some (5, 0, { eng := 0, started := true }) ∧
     s.engineBar 5 0 5 0 4 = none ∧ min 32 ((nth (tensors (s.inst 5 0).descs) 0).rowCount - 32 * 0) = 1 ∧
     okAnd (foldE (s.rowStep (s.ctx 5) { base2 := (s.run 5).base2, heirloom := setHeirloom (s.inst 5 0).set } o
       (tensors (s.inst 5 0).descs)) {} [0]) (enters s 0) = true) ∧
    (∀ remote, let o : PeelOps := { src := 1, dst := 2 }
     let s := working (.peel o) (if remote then [far row1, far (dsc 0x3000 0 [1, 1] [1])]
       else [row1, dsc 0x3000 0 [1, 1] [1]]) (on 0)
     runningItem s ((s.core 0).crew).toList .peel 0 = some (5, 0, { eng := 0, started := true }) ∧
     readsDone (s.ctx 5) (s.inst 5 0) 0 = true ∧ fillWaits s 0 = false ∧ s.engineBar 5 0 6 0 5 = none ∧
     (nth (tensors (s.inst 5 0).descs) 1).remote = remote ∧
     (nth (tensors (s.inst 5 0).descs) 0).remote = remote ∧
     okAnd (s.peelBatch (s.ctx 5) (s.inst 5 0) o 0) (fun p =>
       enters s 0 { p with
         st := if remote then [] else (splitWindows (s.ctx 5) p.st).2
         reads := peelReads s (s.ctx 5) (s.inst 5 0) o 0 }) = true) ∧
    (let o : StripeOps := { variant := 1, inp := 1, out := 2 }
     let s := working (.stripe o) [dsc 0x2000 0 [1, 1, 1] [1, 1], 0, dsc 0x3000 0 [1, 1, 1] [1, 1]] (on 0)
     runningItem s (clusterRuns s 0) .stripe 0 = some (5, 0, { eng := 0, started := true }) ∧
     (∀ k < 8, s.engineBar 5 (8 * 0 + k) 8 0 4 = none) ∧
     okAnd (s.stripeItem 5 0 (s.inst 5 0) o 0) (fun p =>
       enters s (outTray (outDest (s.ctx 5).img ((s.inst 5 0).descs.getD 2 {}).va)) p.1) = true) := by decide +kernel

theorem test_IdleEnginesSteal :
    ∀ p ∈ [(EngKind.mxe, probOp), (.rwe, .rowop { x := 1, y := 2 }), (.peel, .peel { src := 1, dst := 2 }),
      (.stripe, .stripe { variant := 1 })],
      let s := working p.2 [] off
      (if p.1 = .stripe then (clusterRuns s 1).head? = some 5
        else (s.core (if p.1 = .mxe then 0 else 1)).crew = some 5) ∧
      engBusy s (s.run 5) p.1 1 = false ∧ crewScrubbing s (s.run 5) = false ∧ 1 ∈ crewEngines s (s.run 5) p.1 ∧
      findWork s (s.run 5) p.1 1 = some (0, some 0) ∧ (untaken (s.inst 5 0) 0).getLast? = some { item := 1 } := by
  decide

/-- A PROB of block-scaled operands whose K is 0, its tile sounded. -/
def sounded : State :=
  let s := working probOp [dsc 0x2000 8 [0, 1] [1] 0x8000, dsc 0x3000 8 [0, 1] [1] 0x9000, dsc 0x4000 0 [1, 1] [1], 0] []
    { snd := some {} }
  s.modRun 5 (fun r => { r with sounds := [{ ready := true, acc := [0] }] })

theorem test_FillsSharesAndSoundingsCount :
    (∀ n ∈ [0, 1], let s := working probOp product1 (on 0 n)
     mxeItem s 0 = some (5, 0, { eng := 0, started := true, fills := n }) ∧
     nextFill (s.inst 5 0) { eng := 0, started := true, fills := n } (n = 1) = true ∧ s.engineBar 5 0 1 0 5 = none) ∧
    (∀ n ∈ [1, 2], let s := working attnOp (attn1 1024) (on 0 0 n)
     mxeItem s 0 = some (5, 0, { eng := 0, started := true, shares := n }) ∧ s.trayBar 5 0 1 = none ∧
     n < attnChunks (s.inst 5 0) { base := 1, first := true, last := true } 0) ∧
    (sounded.run 5).phase = .running ∧ poolMxe sounded (sounded.run 5) 3 = true ∧
    (sounded.run 5).sounds.find? (·.ready) = some { ready := true, acc := [0] } ∧ (sounded.inst 5 0).op = probOp ∧
    (sounded.inst 5 0).snd = some {} ∧
    refAccs sounded (sounded.ctx 5) (sounded.inst 5 0) { a := 1, b := 2, c := 3, transB := true } 0 = .ok [.zero] := by
  decide +kernel

/-- The kernel in a phase of its run, with its held log. -/
def ending (phase : RPhase) (n : Nat) (held : List HeldRec := []) : State :=
  let s := (kernel [.commit] []).modRun 5 (fun r => { r with phase := phase, commitPhase := n, held := held })
  (s.modQueue 5 (fun c => { c with state := .committing })).modBerth 0 (fun b => { b with
    accWritten := [(5, 2 * 2 ^ 32 + 1)]
    image := b.image.map (fun i => { i with accs := [{ tray := 2, words := 4, cores := [0], window := 0x10000 }] }) })

def adding : AtomOps := { addr := 0x40, operand := 1 }

theorem test_CommitsStartAndPublishAccumulators :
    drained ((ending .draining 0).run 5) = true ∧ (ending .draining 0).twc.resetWait = 0 ∧
    ((ending .draining 0).run 5).landed = false ∧ ({ ending .draining 0 with twc := { resetWait := 1 } } : State).twc.resetWait ≠ 0 ∧
    drained ((ending .running 0).run 5) = false ∧
    inPhase (ending .committing 1) 5 1 = true ∧
    (5, 2 * 2 ^ 32 + 1) ∈ ((ending .committing 1).berth ((ending .committing 1).queue 5).berth).accWritten ∧
    ((ending .committing 1).imageOf 0).accs.find? (fun a => a.tray = (2 * 2 ^ 32 + 1) / 2 ^ 32) =
      some { tray := 2, words := 4, cores := [0], window := 0x10000 } := by decide

/-- The berth's one region is a mooring of half 0. -/
def moored (s : State) (g : Nat := 0) : State :=
  { s.modBerth 0 (fun b => { b with image := b.image.map (fun i => { i with
      regions := [{ size := 2 ^ 21, tiers := [.harbour], initial := .harbour }] }) }) with hbr := [(0, { gated := g })] }

theorem test_AtomicsApplyInOrder :
    (∀ eff ∈ [Held.atom adding, .reduce 0 [(0x40, 1), (0x44, 2), (0x60, 3)]],
     let s := ending .committing 2 [{ eff := eff }]
     inPhase s 5 2 = true ∧ (heldSorted (s.run 5)).find? (fun h => isLocalAtom h.eff) = some { eff := eff } ∧
     s.spotBarred (s.queue 5).berth 0x40 = false ∧ s.spot (s.queue 5).berth 0x40 = .stack (pa 0x40) ∧
     s.spotDead (s.spot 0 0x40) = false ∧ s.markAt 0 (s.spot 0 0x40) = .good ∧
     ({ s with units := [(pa 0x40 / 32, .poison)] } : State).markAt 0 (.stack (pa 0x40)) ≠ .good ∧
     ({ s with glb := { s.glb with h0Fenced := true } } : State).spotDead (.stack (pa 0x40)) = true ∧
     ∀ g ∈ [0, 1], (moored s g).spot 0 0x40 = .mooring 0 0x40 ∧ (moored s g).spotBarred 0 0x40 = decide (g = 1) ∧
       (moored s g).spotDead (.mooring 0 0x40) = false ∧ (moored s g).markAt 0 (.mooring 0 0x40) = .good) := by
  decide +kernel

theorem test_RemoteEffectsGoOut :
    ∀ held ∈ [[], [({ eff := .signal 2 9 1 0 1 } : HeldRec)]], let s := ending .committing 2 held
      inPhase s 5 2 = true ∧ (s.run 5).held.any (fun h => isLocalAtom h.eff) = false ∧
      (held = [] → ∀ h ∈ (s.run 5).held, remotePart s.cwy.partId h.eff = none) := by decide

theorem test_CommitsEnd :
    let s := ending .committing 3 [{ eff := .signal 0 9 0 0 1 }]
    inPhase s 5 3 = true ∧ remoteDone s 5 = true ∧ (s.queue 5).state = .committing ∧
    ((heldSorted (s.run 5)).map (·.eff)).any (releaseBarred (s.queue 5).berth s) = false ∧
    ∀ h ∈ (s.run 5).held, h.eff.isRelease = false := by decide

/-! ### Hypotheses are met: codec jobs and collectives -/

/-- A CODEC word whose job descriptor counts n elements, at pointer 64. -/
def codec (n : Nat) : State :=
  let b := n * 2 ^ 128
  let s := kernel [.codec 0 64] []
  { s.modBerth 0 (fun x => { x with image := x.image.map (fun i => { i with
      jobs := [{ va := 4096, bits := BitVec.ofNat 1024 b }] }) }) with
    mem := lay [(pa 4096, 128, b)] }

theorem test_CodecJobsRun_dispatch :
    ∀ n ∈ [0, 1], nextWord ((codec n).run 5) (.codec 0 64) = true ∧
      (codec n).readJob ((codec n).ctx 5) 0 4096 = .ok { va := 4096, bits := n * 2 ^ 128 } ∧
      ((codec n).run 5).entries + 1 ≤ ((codec n).template 5).heldCount := by decide +kernel

def job (v : Nat) : State :=
  let s := kernel [.codec v 64] [] { insts := [{ op := .codec v 64, descs := [{}], planned := true }] }
  { s with codecQ := [(5, 0)], codecs := [(1, { busy := true, variant := 2, queue := 5 })] }

/-- Nothing of the berth is mapped. -/
def unmapped (s : State) : State := s.modBerth 0 (fun b => { b with pages := [] })

theorem test_CodecJobsRun_grant :
    live.codecQ = [] ∧ (live.codecEng 1).busy = false ∧
    idleCodecFor { job 0 with glb := { live.glb with h0Fenced := true, h1Fenced := true } } 5 = none ∧
    (match (unmapped { job 1 with codecQ := [] }).readBytes ((unmapped (job 1)).ctx 5) readRole 0 8 with
      | .ok _ => false
      | .error f => f.1 = 2) = true ∧
    (runJob { s := unmapped (job 0), c := (unmapped (job 0)).ctx 5, variant := 0, b := 0 } 0).err.isSome = true ∧
    (∀ v ∈ [0, 1], idleCodecFor (job v) 5 = some 0 ∧ codecVariant ((job v).inst 5 0).op = v) ∧
    ({ job 1 with codecQ := [] } : State).readBytes ((job 1).ctx 5) readRole
      (jobCons 1 (((job 1).inst 5 0).descs.getD 0 {}).bits) 8 = .ok (List.replicate 8 0) := by decide +kernel

/-- How a stream falls into units is the standard's: a transcode of no bytes ends without a fault when it falls into none. -/
theorem test_CodecJobsRun_done
    (h : Config.decSplit (decParams 2 (((job 2).inst 5 0).descs.getD 0 {}).bits) [] = []) :
    let x := runJob { s := job 2, c := (job 2).ctx 5, variant := 2, b := (((job 2).inst 5 0).descs.getD 0 {}).bits } 0
    ((job 2).codecEng 1).busy = true ∧ x.err = none ∧
    (∀ v : State, v.store (poolCtx ((job 2).ctx 5)) x.pool = .ok v ∧ v.store ((job 2).ctx 5) x.st = .ok v) ∧
    0 < ((job 2).run 5).insts.length := by
  have e : ∀ y : JobEnv, y.b = 0 → y.variant = 2 → Config.decSplit (decParams 2 y.b) [] = [] →
      (runJob y 0).err = none ∧ (runJob y 0).pool = [] ∧ (runJob y 0).st = [] := by
    intro y hb hv hs
    have h0 : y.stream = .ok [] := by simp [JobEnv.stream, hv, hb, field, State.readBytes]
    unfold runJob
    rw [if_pos hv, h0]
    simp only [hs]
    simp [transcodeUnits, hb, field]
  have k := e { s := job 2, c := (job 2).ctx 5, variant := 2, b := (((job 2).inst 5 0).descs.getD 0 {}).bits } rfl rfl h
  exact ⟨by decide, k.1, fun v => ⟨by rw [k.2.1]; rfl, by rw [k.2.2]; rfl⟩, by decide⟩

/-- Rank 1 of five members: its parent is rank 0, its children are ranks 3 and 4. -/
def member (st : GState) : Group := { group := 7, state := st, members := [10, 11, 12, 13, 14], rank := 1, quorum := 3, epoch := 2 }

def floats : List Nat := [dsc 0x2000 0 [4] [], dsc 0x3000 0 [4] []]

/-- The kernel of an all-reduce of group 7, not dispatched, or dispatched with the given state. -/
def coll (st : GState) (is : List Inst := []) : State :=
  let o : Op := .coll { src := 1, dst := 2, group := 7 }
  let s := (kernel [o] floats { insts := is, ip := is.length }).modBerth 0 (fun b => { b with grps := [(0, member st)] })
  { s with cwy := { partId := 11 } }

def collDescs : List Desc :=
  [{ va := 64, bits := floats.getD 0 0 }, { va := 128, bits := floats.getD 1 0 }, { va := 0, bits := 0 }]

theorem test_CollectivesDispatch :
    (∀ st, nextWord ((coll st).run 5) (.coll { src := 1, dst := 2, group := 7 }) = true ∧
      (coll st).findGroup 7 = some (0, 0) ∧ ((coll st).group 0 0).state = st ∧ ((coll st).run 5).landed = false) ∧
    (coll .active).readSlots ((coll .active).ctx 5) ((coll .active).run 5).set (.coll { src := 1, dst := 2, group := 7 }) =
      .ok (collDescs) ∧ opAligned (collDescs) = true ∧
    collBreak (collDim ((coll .active).group 0 0) { op := .coll { src := 1, dst := 2, group := 7 }, descs := collDescs }
      { myCounts := [] }) 0 0 = 0 ∧
    treeKids ((coll .active).group 0 0).members.length ((coll .active).group 0 0).rank ≠ [] ∧
    ((coll .active).group 0 0).held = [] ∧
    (let s := { coll .active [{ op := .coll { group := 7 }, coll := some { group := 7 } }] with lshQ := [(5, 0)] }
     idleEngineFor s 5 = some 0 ∧ (s.collSt 5 0).go = false ∧ 0 < (s.run 5).insts.length ∧
     idleEngineFor { s with glb := { live.glb with h0Fenced := true, h1Fenced := true } } 5 = none) ∧ live.lshQ = [] := by
  refine ⟨fun st => by cases st <;> decide, ?_⟩
  decide +kernel

/-- The all-reduce under way. -/
def running (c : CollSt) (engine : Option Nat := some 0) : State :=
  coll .active [{ op := .coll { src := 1, dst := 2, group := 7 }, descs := collDescs, planned := true, engine := engine
                  coll := some { c with group := 7 } }]

def chunk : Send := { target := 0, chunk := 2, sent := true, data := [1] }

theorem test_CollectivePacketsAct :
    let s := running {}
    arrive { group := 7, epoch := 2 } s = s ∧ live.findGroup 7 = none ∧ s.findGroup 7 = some (0, 0) ∧
    (s.group 0 0).epoch < 3 ∧ 1 < (s.group 0 0).epoch ∧ (s.group 0 0).members.getD 3 65536 ≠ 10 ∧
    (∀ r < 5, (s.group 0 0).members.getD r 65536 = 10 + r) ∧ carriers s 0 0 0 = [5] ∧ (s.run 5).landed = false ∧
    2 ∉ treeKids (s.group 0 0).members.length (s.group 0 0).rank ∧
    3 ∈ treeKids (s.group 0 0).members.length (s.group 0 0).rank ∧
    findColl s 0 7 0 = some (5, 0) ∧ findColl s 0 7 1 = none ∧ lacksGreeting s 0 7 3 = some (5, 0) ∧
    lacksGreeting (running { greeted := true }) 0 7 3 = none ∧
    (∀ go, ((running { go := go }).collSt 5 0).go = go) ∧ (∀ x, ((running { greeted := x }).collSt 5 0).greeted = x) ∧
    (∃ r ∈ treeKids (s.dimOf 5 0).g (s.dimOf 5 0).rank, r ≠ 3 ∧ ∀ x ∈ (s.collSt 5 0).kids, x.1 ≠ r) ∧
    treeParent (s.group 0 0).rank = some 0 ∧ treeParent (s.group 0 0).rank ≠ some 3 ∧
    ((running {} none).inst 5 0).engine = none := by decide +kernel

theorem test_CollectivePacketsAct_chunks :
    let s := running {}
    let c : Send := { chunk with src := some (0, 4) }
    let t := running { began := true, sends := [chunk] }
    ((running { recvd := [(3, 0)] }).collSt 5 0).recvd.contains (3, 0) = true ∧
    (s.collSt 5 0).recvd.contains (3, 0) = false ∧ (s.inst 5 0).engine.isSome = true ∧
    (s.dimOf 5 0).expected.contains (3, 0) = true ∧ (s.dimOf 5 0).expected.contains (2, 9) = false ∧
    (∀ n ∈ [0, s.cwy.resends], let v := running { chunkNaks := [(3, 0, n)] }
      (((v.collSt 5 0).chunkNaks.find? (fun x => x.1 = 3 && x.2.1 = 0)).map (·.2.2)).getD 0 = n) ∧ 0 < s.cwy.resends ∧
    (t.collSt 5 0).began = true ∧ (∃ x ∈ (t.collSt 5 0).sends, x.acked = false ∧ ¬ (x.target = 3 ∧ x.chunk = 0)) ∧
    (t.collSt 5 0).sends.find? (fun x => x.target = 0 && x.chunk = 2 && x.sent && !x.acked) = some chunk ∧ chunk.src = none ∧
    (t.collSt 5 0).sends.find? (fun x => x.target = 0 && x.chunk = 3 && x.sent && !x.acked) = none ∧
    ((running { sends := [c] }).collSt 5 0).sends.find? (fun x => x.target = 0 && x.chunk = 2 && x.sent && !x.acked) =
      some c ∧
    okAnd (s.takeSrc 5 (nth (tensors (s.inst 5 0).descs) 0) 0 4) (fun p => p.1.length = 16) = true ∧
    (match (unmapped s).takeSrc 5 (nth (tensors (s.inst 5 0).descs) 0) 0 4 with
      | .ok _ => false
      | .error f => f.1 = 2) = true ∧
    (s.inst 5 0).done = false ∧
    ∀ landed, let v := running { doneSent := true, landed := landed }
      (v.collSt 5 0).doneSent = true ∧ (v.collSt 5 0).landed = landed ∧
      lastColl (v.run 5).words = some (wordPos (v.run 5) 0) := by decide +kernel

/-- An all-gather of group 7, each of whose five members gives four elements. -/
def gather : State :=
  let ds := [dsc 0x2000 0 [4] [], dsc 0x3000 0 [20] []]
  let o : Op := .coll { variant := 2, src := 1, dst := 2, group := 7 }
  (running {}).modRun 5 (fun r => { r with words := [o], insts := r.insts.map (fun i => { i with
    op := o, descs := ds.map (fun d => { va := 64, bits := d }) }) })

theorem test_CollectivePacketsAct_stores :
    2 ≤ (gather.dimOf 5 0).variant ∧ (gather.dimOf 5 0).expected.contains (0, 3) = true ∧
    (gather.dimOf 5 0).chunkAt 0 3 = (12, 4) ∧
    ∀ bad ∈ [[], [0, 1, 2, 3]], okAnd (gather.storeChunk 5 0 12 4 (List.replicate 16 1) bad) (fun t => t.memByte (pa 0x3030) = 1 || bad ≠ []) =
      true := by decide +kernel

theorem test_ChunksAreResent :
    2 < 2 ^ 32 ∧ ((running { sends := [chunk] }).collSt 5 0).sends.find? (fun x =>
      x.target = 0 && x.chunk = 2 && x.sent && !x.acked) = some chunk ∧
    ((running { sends := [chunk] }).inst 5 0).engine = some 0 ∧ ((running {}).inst 5 0).engine ≠ some 1 := by decide

/-- A group without kernels, its member list rising from part 10. -/
def quiet (g : Group) : State := { live with berths := [(0, { grps := [(0, g)] })], cwy := { partId := 11 } }

theorem test_GroupMessagesAct :
    let a := quiet (member .active)
    let r := quiet { member .reforming with lostRanks := [4] }
    let h := quiet { member .active with lastHeard := [(3, 10000000)] }
    live.findGroup 7 = none ∧ a.findGroup 7 = some (0, 0) ∧
    (∀ st, ((quiet (member st)).group 0 0).state = st) ∧ (neighbours (a.group 0 0)).contains 3 = true ∧
    (∀ v ∈ [a, r], (v.group 0 0).lostRanks.contains 3 = false ∧
      look 0 (v.group 0 0).lastHeard 3 + 1000 * (v.half (groupHalf v 0 0)).lostMs ≤ (v.half (groupHalf v 0 0)).us) ∧
    (h.half (groupHalf h 0 0)).us < look 0 (h.group 0 0).lastHeard 3 + 1000 * (h.half (groupHalf h 0 0)).lostMs ∧
    (∀ c, ((quiet { member .reforming with coordinator := c }).group 0 0).coordinator = c) ∧
    arrive { group := 7, rank := 3, srcPart := 13 } a = a ∧ (a.group 0 0).members.getD 3 65536 = 13 ∧
    (∀ e ∈ [1, 2], e ≠ (a.group 0 0).epoch + 1) ∧ 3 = (r.group 0 0).epoch + 1 ∧ 1 ≠ (a.group 0 0).epoch ∧
    (a.group 0 0).members.getD 3 65536 ≠ 12 ∧
    [10, 11, 13].findIdx? (· = r.cwy.partId) = some 1 ∧ (r.group 0 0).held = [] ∧ groupRuns r 0 7 = [] := by
  refine ⟨by decide, by decide, fun st => by cases st <;> rfl, ?_⟩
  decide +kernel

/-! ### Hypotheses are met: memory -/

/-- A good word, one with one wrong symbol, one that cannot be corrected. -/
theorem test_StackCodewordsAreCounted :
    let m := { live with stks := [(0, { markThresh := 1, chans := [(1, { valid := true })] })] }
    channelOf live 0 1 0 = false ∧ channelOf live 0 0 0 = true ∧ (0x1C000 : BitVec 288) ≠ poisonWord ∧
    (∃ d, decodeWord (live.chan 0 0).mark 0 = some (d, [])) ∧ decodeWord (live.chan 0 0).mark 0x1C000 = none ∧
    (∃ d, decodeWord (live.chan 0 0).mark 1 = some (d, [0])) ∧ (m.chan 0 1).mark = some (0 / 2) ∧
    (∃ d, decodeWord (m.chan 0 1).mark 1 = some (d, [0])) ∧ (live.chan 0 0).mark ≠ some (0 / 2) ∧
    satAdd 8 (look 0 (live.chan 0 0).counts 0) 1 < (live.stack 0).markThresh ∧ (m.chan 0 0).valid = false ∧
    (m.stack 0).markThresh ≤ satAdd 8 (look 0 (m.chan 0 0).counts 0) 1 := by
  refine ⟨by decide +kernel, by decide +kernel, by decide +kernel, ⟨List.replicate 32 0, by decide +kernel⟩,
    by decide +kernel, ⟨List.replicate 32 0, by decide +kernel⟩, by decide, ⟨List.replicate 32 0, by decide +kernel⟩,
    by decide, by decide, by decide, by decide⟩

theorem test_StackRowsAct :
    let s := { live with stks := [(0, { chans := [(0, { rereads := [(0, 0)] })], ueRows := [(0, 9000000)] })] }
    (live.chan 0 0).rereads.find? (fun r => r.1 = 0 / 32) = none ∧
    (s.chan 0 0).rereads.find? (fun r => r.1 = 0 / 32) = some (0, 0) ∧
    decodeWord (s.chan 0 0).mark 0x1C000 = none ∧ (∃ d, decodeWord (s.chan 0 0).mark 0 = some (d, [])) ∧
    (0x1C000 : BitVec 288) ≠ poisonWord ∧ look .good s.units (0 / 32) ≠ .uncorrectable ∧
    (∃ u ∈ (s.stack (s.place (0 / 32 * 32)).stack).ueRows, u.1 = rowNumber (s.place (0 / 32 * 32)) ∧
      (s.half ((s.place (0 / 32 * 32)).stack / 16)).us < u.2 + dayUs) ∧
    (rowPages s (s.place (0 / 32 * 32))).length = 4 ∧ s.fenced (0 / 16) = false := by
  refine ⟨by decide, by decide, by decide +kernel, ⟨List.replicate 32 0, by decide +kernel⟩, by decide +kernel, by decide, by decide +kernel,
    by decide +kernel, by decide⟩

/-- Half 0 moves page 0 of berth 0 to a tier; every flash stack has an open block. -/
def moving (tier : Tier) (ready : Bool := true) : State :=
  { kernel [] [] with
    twcH := [(0, { half true with migRun := some { tier := tier } }), (1, half false)]
    shelf := { mapReady := ready, blocks := (List.range 8).map (fun f => (f * blocksPerStack, { used := 1 })) } }

theorem test_MigrationsCopyPages :
    (live.half 0).migRun = none ∧ ∀ tier ∈ [Tier.crumb, .shelf], let s := moving tier
      let page := if tier = .shelf then 2 ^ 23 else 0x40000
      let p : Page := { tier := .crust, phys := 3 }
      s.memWf = true ∧ buffered s.dbg ≤ 1024 ∧ s.dbg.reports.length ≤ 64 ∧ s.sec.pend = [] ∧
      (s.half 0).migRun = some { tier := tier } ∧ p = look {} (s.berth 0).pages 0 ∧ tier ≠ p.tier ∧ p.phys ≠ page ∧
      s.unreachable (p.phys * 2 ^ 21) = false ∧
      ({ s with glb := { s.glb with h1Fenced := true } } : State).unreachable (p.phys * 2 ^ 21) = true ∧
      mappable s tier (scopeOf s 0 0) (decide (tier = p.tier)) page = true ∧
      mappable s tier (scopeOf s 0 0) (decide (tier = p.tier)) 3 = false ∧
      s.shelf.mapReady = true ∧ (moving tier false).shelf.mapReady = false ∧ (s.half 0).migQ = [] := by decide +kernel

theorem test_MigrationsCopyPages_room : canProgram false (pageUnits (2 ^ 23)) (moving .shelf) = true := by decide +kernel

/-- A page of Crust that goes to a spare, where each spare has been retired already. -/
def spent : State := { moving .crust with trec := { retired := spares live .crust 0 } }

theorem spares_glb (s u : State) (h : s.glb = u.glb) (tier : Tier) (k : Nat) : spares s tier k = spares u tier k := by
  simp only [spares, granuleAt, h]

theorem test_MigrationsCopyPages_spares :
    spent.Sound ∧ (spent.half 0).migRun = some { tier := .crust } ∧
    look {} (spent.berth 0).pages 0 = { tier := .crust, phys := 3 } ∧ pageScope spent 3 = 0 ∧
    (spares spent .crust (pageScope spent 3)).any (mappable spent .crust (pageScope spent 3) true) = false := by
  have e : pageScope spent 3 = 0 := rfl
  have g : spent.trec.retired = spares spent .crust 0 := by
    rw [spares_glb spent live rfl]
    unfold spent
    dsimp only
  refine ⟨⟨by decide, ⟨by decide, by decide⟩, fun h => Nat.zero_le _⟩, rfl, rfl, e, ?_⟩
  rw [e]
  refine List.any_eq_false.2 (fun x hx => ?_)
  have k : spent.trec.retired.contains x = true := List.contains_iff_mem.2 (g ▸ hx)
  unfold mappable
  rw [k]
  simp

/-- A PEEL whose source lies on the Shelf, logical unit 0 in unit 600 of flash stack 0. -/
def shelved : State :=
  let s := kernel [.peel {}] [] { insts := [{ op := .peel {}, descs := [{ va := 64, bits := row1 }], readsLeft := [(0, 65536)] }] }
  { s.modBerth 0 (fun b => { b with
      pages := [(0, { tier := .shelf, phys := 2 ^ 23 })]
      image := b.image.map (fun i => { i with
        regions := [{ size := 2 ^ 21, tiers := [.shelf] }]
        templates := i.templates.map (fun t => { t with uses := [{ tier := .shelf }] }) }) }) with
    shelf := { mapReady := true, map := [(0, some (0, 600))] } }

/-- Block 0 holds logical unit 0, block 1 has been erased 300 times. -/
def worn : State :=
  { live with shelf := {
      mapReady := true, map := [(0, some (0, 0))]
      blocks := [(0, { used := 1, valid := [0] }), (1, { erases := 300 }), (2, { used := 512 })] } }

/-- Block 0 has been read too often; block 1 is open. -/
def tired : State :=
  { live with shelf := {
      mapReady := true, map := [(0, some (0, 0))]
      blocks := [(0, { used := 1, valid := [0], reads := 60000 }), (1, { used := 5 })] } }

theorem foldl_keeps {α β : Type} (f : Option β → α → Option β) (u v : Option β) (a b : α) (l : List α)
    (ha : f u a = u) (hb : f u b = v) (h : ∀ x ∈ l, f v x = v) : (a :: b :: l).foldl f u = v := by
  rw [List.foldl_cons, List.foldl_cons, ha, hb]
  clear ha hb
  induction l with
  | nil => rfl
  | cons a l ih =>
    rw [List.foldl_cons, h a (by simp), ih (fun x hx => h x (by simp [hx]))]

theorem range_two (n : Nat) : List.range (n + 1 + 1) = 0 :: 1 :: List.range' 2 n := by
  rw [List.range_eq_range', List.range'_succ, List.range'_succ]

theorem worn_block (x : Nat) (h : 3 ≤ x) : worn.block x = {} := by
  simp only [worn, State.block, look]
  rw [if_neg (by omega), if_neg (by omega), if_neg (by omega)]

theorem test_worn_highBlock : highBlock worn 0 = some 1 := by
  unfold highBlock
  rw [show blocksPerStack = 81918 + 1 + 1 from rfl, range_two, List.map_cons, List.map_cons]
  refine foldl_keeps _ none (some 1) _ _ _ (by decide) (by decide) ?_
  generalize 81918 = n
  intro x hx
  obtain ⟨y, hy, rfl⟩ := List.mem_map.mp hx
  have h2 : 2 ≤ y := (List.mem_range'_1.mp hy).1
  simp only [Nat.zero_div, Nat.zero_mul, Nat.add_zero]
  by_cases h : y = 2
  · subst h; decide
  · rw [worn_block y (by omega)]
    simp

theorem test_worn_otherBlock : otherBlock 0 tired = some 1 := by
  unfold otherBlock openBlock
  rw [show blocksPerStack = 81918 + 1 + 1 from rfl, range_two, List.map_cons, List.map_cons]
  generalize (List.range' 2 81918).map (· + 0 / (81918 + 1 + 1) * (81918 + 1 + 1)) = l
  rfl

/-- The park reserves take every erased block. -/
def reserved : State := { worn with berths := [(0, { layout := { parkRes := 16 * rawBlocks } })] }

theorem test_reserved_highBlock :
    reserved.shelf.mapReady = true ∧ minErase reserved + 256 < maxErase reserved ∧ lowBlock reserved = some 0 ∧
    highBlock reserved 0 = none := by
  refine ⟨by decide, by decide +kernel, by decide +kernel, ?_⟩
  unfold highBlock
  rw [if_pos (by decide +kernel)]

theorem test_ShelfBlocksTurnOver :
    (live.shelf.mapReady = false ∧ onShelf ((kernel [] []).ctx 5) (nth [] 0) = false ∧
      (shelved.on && shelved.glb.sOnRoot && [0, 1].any (fun h => loadsShelf shelved h &&
        decide ((shelved.half h).bootStage ≥ 3))) = true ∧ dark.shelf.mapReady = false ∧
      (let s := { live with clk := {} }
       (s.on && s.glb.sOnRoot && [0, 1].any (fun h => loadsShelf s h && decide ((s.half h).bootStage ≥ 3))) = false)) ∧
    maxErase live ≤ minErase live + 256 ∧ relocationDue worn 0 = false ∧ (worn.block 0).valid.Nodup ∧
    relocationDue tired 0 = true ∧ (tired.block 0).valid = [0] ∧ look none tired.shelf.map 0 = some (0, 0) ∧
    (shelved.shelf.mapReady = true ∧
      onShelf (shelved.ctx 5) (nth (tensors ((shelved.run 5).insts.getD 0 {}).descs) 0) = true ∧
      ((shelved.run 5).insts.getD 0 {}).readsLeft = [(0, 65536)] ∧ (shelved.page (shelved.ctx 5).berth 0).tier = .shelf ∧
      look none shelved.shelf.map (unitOfPa ((shelved.page (shelved.ctx 5).berth 0).phys * 2 ^ 21 + 0)) = some (0, 600)) ∧
    worn.shelf.mapReady = true ∧ 2 < rawBlocks ∧ (worn.block 2).bad = false ∧ (worn.block 2).used ≠ 0 ∧
    (worn.block 2).valid = [] ∧ minErase worn + 256 < maxErase worn ∧ lowBlock worn = some 0 ∧
    (worn.block 0).valid = [0] ∧ look none worn.shelf.map 0 = some (0, 0) ∧ 0 * blocksPerStack + 0 / 512 = 0 ∧
    worn.shelf.lostUnits.contains 0 = false := by decide +kernel

/-! ### Hypotheses are met: Tidewatch and the berths -/

def warm (n : Nat) : Sensors := { stack := List.replicate 16 n, cluster := List.replicate 16 n }

/-- The always-on domain has no power. -/
def unlit : State := { live with clk := {} }

theorem test_TidewatchSetsTheStages :
    unlit.on = false ∧ live.on = true ∧ live.fenced 0 = false ∧ dark.fenced 0 = true ∧
    (∀ cc < 16, (warm 419).stack.getD cc 0 < 420 ∧ (warm 419).cluster.getD cc 0 < 420 ∧
      (live.stack (16 * 0 + cc)).crit = false) ∧
    (∀ cc < 16, max ((warm 420).stack.getD cc 0 % 1024) ((warm 420).cluster.getD cc 0) ≥ 420) ∧
    (let s := { live with stks := [(0, { crit := true })], clusters := [(0, { held := [3] })] }
     max ((warm 0).stack.getD 0 0 % 1024) ((warm 0).cluster.getD 0 0) ≤ 4 * (s.stack 0).tLo ∧ (s.stack 0).crit = true ∧
     3 ∈ (s.cluster 0).held ∧ 3 / 8 = 0) ∧
    0 = partHalf live ∧ ownPower live 0 = false := by decide

/-- A slot that opened `ago` microseconds before now. -/
def slotted (r : Req) (ago : Nat) : State :=
  { live with berths := [(3, { reqs := [(2, { r with openedAt := 10000000 - ago })] })] }

def openReq : Req := { isOpen := true, altValid := true, passes := 2, estFull := 5, estCheap := 1, deadline := 10 }

theorem test_MonitorsReport :
    (let s := { live with twc := { telemMs := 10 }, twcH := [(0, half true), (1, { half false with sinceTelem := 10 })] }
     s.on = true ∧ s.twc.telemMs ≠ 0 ∧ s.twc.telemMs ≤ (s.half 1).sinceTelem ∧ 1 ≠ partHalf s ∧
     (s.half 0).sinceTelem < s.twc.telemMs) ∧
    (let s := { live with
       twc := { telemMs := 10 }, twcH := [(0, { half true with sinceTelem := 10 }), (1, half false)]
       berths := [(3, { layout := { configured := true } })] }
     s.twc.telemMs ≤ (s.half 0).sinceTelem ∧ 0 = partHalf s ∧ (3, { layout := { configured := true } }) ∈ s.berths ∧
     (s.berth 3).layout.configured = true) ∧
    (∀ r ∈ [{}, { openReq with switched := true }, openReq], ∀ ago ∈ [0, 1], let s := slotted r ago
      s.berths.map (·.1) = [3] ∧ (s.berth 3).reqs.map (·.1) = [2]) ∧ [3].Nodup ∧ [2].Nodup ∧
    queueHalf openReq.primary = 0 ∧
    (predictReq openReq (slotNow (slotted openReq 0) (look {} ((slotted openReq 0).berth 3).reqs 2))).1 = 10 ∧
    (predictReq openReq (slotNow (slotted openReq 1) (look {} ((slotted openReq 1).berth 3).reqs 2))).1 = 11 ∧
    openReq.started < openReq.passes := by decide

/-- The slot is the part's only one. -/
theorem test_MonitorsReport_one (r : Req) (ago c j : Nat) (h : (c, j) ≠ (3, 2)) :
    (look {} ((slotted r ago).berth c).reqs j).isOpen = false := by
  simp only [slotted, State.berth, look]
  split
  · next e =>
    subst e
    simp only [look]
    rw [if_neg (fun e => h (by rw [e]))]
  · rfl

def gating (t : Twc) : State := { live with twc := t }

theorem test_DomainsGateAndUngate :
    (gating { domBusy := some 3 }).twc.domBusy = some 3 ∧ live.twc.domBusy = none ∧ live.twc.domQ = [] ∧
    domainRefusal live 377 true = some 1 ∧ domainRefusal live 376 false = some 1 ∧
    (∀ d ∈ [304, 319, 351], bitOf live.twc.gated d = false ∧ (d < 320 → (live.codecEng ((d - 304) % 8)).busy = false)) ∧
    domainRefusal live 0 true = none ∧ live.twc.ungating.contains 0 = false ∧
    (gating { ungating := [0, 256], gated := 1 + 2 ^ 256 }).twc.ungating.contains (256 + 0 / 8) = true ∧
    domainRefusal live 304 true = none ∧ domainRefusal live 319 true = none ∧
    domainRefusal { live with glb := { live.glb with h1Fenced := true } } 351 true = none ∧
    (∀ d ∈ [0, 375], let s := gating { gated := setBit 0 d true }
      domainRefusal s d false = none ∧ bitOf s.twc.gated d = true ∧ domainRefusal live d false = none) ∧
    (let s := gating { gated := setBit 0 304 true, ungating := [304], domBusy := some 304 }
     s.twc.ungating.contains 304 = true ∧ s.twc.domBusy = some 304 ∧ s.twc.domQ = []) ∧
    live.twc.domBusy ≠ some 0 ∧
    (let s := gating { gated := 1, domBusy := some 0 }
     s.twc.ungating.contains 0 = false ∧ s.twc.domBusy = some 0 ∧ bitOf s.twc.gated 0 = true ∧ gatingDone s 0 = true ∧
     s.twc.domQ = []) ∧
    (let s := gating { domBusy := some 0 }
     s.twc.ungating.contains 0 = false ∧ s.twc.domBusy = some 0 ∧ bitOf s.twc.gated 0 = false) := by decide +kernel

/-- A core that the thermal rule holds gated stays gated when a command gates it. -/
theorem test_command_takes_over_held_core :
    let s := (gating { gated := 1 }).modCluster 0 (fun c => { c with held := [0, 1] })
    ((startGate 0 s).cluster 0).held = [1] ∧ bitOf (startGate 0 s).twc.gated 0 = true := by decide +kernel

theorem test_ParkedTraysKeepTheirBytes :
    (let s := { gating { gated := setBit 0 5 true } with
        cores := [(5, { trays := [(2, { owner := 0xA, berth := 7, pinned := true })] })] }
     7 = (s.tray 5 2).berth ∧ restsPinned s 5 2 = true ∧ bitOf s.twc.gated 5 = true ∧ s.twc.domBusy = none) ∧
    restsPinned live 5 2 = false ∧ (live.tray 5 2).parkedBy = none ∧
    let s := { live with cores := [(5, { trays := [(2, { owner := 0x9, berth := 7, pinned := true, parkedBy := some 7 })] })] }
    (s.tray 5 2).parkedBy = some 7 ∧ (s.tray 5 2).owner = 0x9 ∧ coreInService s 5 = true := by decide +kernel

/-- Operator commands find no other one, and the boot chain at its end. -/
def admitting (b : Berth) (img : Image) : State :=
  { live with sec := { provisioned := true }, berths := [(0, b)]
              twc := { cmdBusy := true, lastOp := 1, cmdBerth := 0, pendImage := some img } }

def place0 : Layout := { configured := true, cores := 3, shareMin := 1, shareMax := 1 }

/-- An image that pins tray 2 of core 0. -/
def pinning : Image := { accs := [{ tray := 2, words := 4, cores := [0], window := 2 ^ 21, size := 16 }] }

/-- A template without words is refused. -/
theorem test_BerthCommandsAnswer_admission :
    unlit.on = false ∧
    (∀ aw, let s := gating { cmdBusy := true, cmdAwait := aw, lastOp := 3, cmdBerth := 7 }
      s.on = true ∧ s.twc.cmdBusy = true ∧ s.twc.cmdAwait = aw ∧ s.twc.lastOp = 3 ∧ s.twc.cmdBerth = 7 ∧ booting s = false) ∧
    live.twc.cmdBusy = false ∧
    booting { live with twcH := [(0, { half true with chair := .boot }), (1, half false)] } = true ∧
    admitRefused live 0 {} = true ∧ admitRefused { admitting { layout := place0 } {} with twc := {} } 0 {} = false ∧
    live.twc.pendImage = none ∧ (gating { pendScrub := [(0, 2)] }).twc.pendScrub ≠ [] ∧
    (let s := admitting { layout := place0 } {}
     s.twc.pendImage = some {} ∧ s.twc.pendScrub = [] ∧ s.twc.pendPages = none ∧ proofCheck s 0 {} = (0, 0, 0) ∧
     pagesFit s (imagePages {}) [] = true ∧ pagesFit s (imagePages {}) [1] = false ∧
     (∀ x ∈ imageTrays {}, (s.tray x.1 x.2.1).owner = 0) ∧ admitScrubs s 0 {} = []) ∧
    (let s := admitting { layout := place0 } pinning
     s.twc.pendImage = some pinning ∧ (proofCheck s 0 pinning).1 = 0 ∧ pagesFit s (imagePages pinning) [] = true ∧
     (∀ x ∈ imageTrays pinning, (s.tray x.1 x.2.1).owner = 0) ∧ admitScrubs s 0 pinning = [(0, 2)]) ∧
    (proofCheck (admitting { layout := place0 } { templates := [{}] }) 0 { templates := [{}] }).1 ≠ 0 := by decide +kernel

def oneQueue (b : Berth) (run : Run) : State :=
  { live with queues := [(5, { state := .idle })], runs := [(5, run)], berths := [(0, { b with image := some { queues := [{ queue := 5 }] } })] }

/-- A berth that is parked with virtual pages 4 and 9 on the Shelf. -/
def parked : State := { live with berths := [(0, {
  image := some { regions := [{ base := 4 * 2 ^ 21, size := 2 ^ 21, tiers := [.crust] }, { base := 9 * 2 ^ 21, size := 2 ^ 21, tiers := [.crust] }] }
  parkState := .parked, parkRec := some { pages := [(4, 2 ^ 23, .crust), (9, 2 ^ 23 + 1, .crust)] } })] }

theorem test_BerthCommandsAnswer_others :
    (live.berth 0).image = none ∧
    (let s := oneQueue {} {}
     (s.berth 0).image ≠ none ∧ (s.berth 0).parkState = .live ∧ (s.berth 0).removing = 0 ∧
     (∀ q ∈ berthQueues s 0, killable (s.run q) = false) ∧ berthQuiet s 0 = true ∧ (s.berth 0).parkRec = none ∧
     parkRefused s 0 = false ∧ (s.berth 0).reqs = [] ∧ (s.berth 0).grps = [] ∧
     (s.queue 5).berth = 0 ∧ (s.queue 5).state ≠ .disabled ∧ killable (s.run 5) = false) ∧
    (let s := { parked with berths := [(0, { (parked.berth 0) with image := some {}, parkRec := some {} })] }
     restoreRefused s 0 [] = false ∧ (s.berth 0).parkRec = some {}) ∧
    (let s := oneQueue {} { phase := .committing }
     (∀ q ∈ berthQueues s 0, killable (s.run q) = false) ∧ berthQuiet s 0 = false) ∧
    parkRefused live 0 = true ∧ restoreRefused live 0 [] = true ∧ restoreRefused parked 0 [1, 2] = false ∧
    ((parked.berth 0).parkRec.map (·.pages.length)) = some 2 ∧
    (live.queue 5).state = .disabled ∧ killable ((oneQueue {} { phase := .running }).run 5) = true ∧
    (∀ fp ready, let s := { oneQueue { parkState := .parking, fenceParked := fp } {} with shelf := { mapReady := ready } }
      parkReady s 0 = ready ∧ (s.berth 0).fenceParked = fp) ∧
    ∀ rest ∈ [[], [9]], ∀ dest ∈ [7, 8], let s := { live with
        berths := [(0, { retQ := 4 :: rest, retDest := [(4, dest)], parkState := .restoring })]
        shelf := { mapReady := true }, trec := { retired := [7] } }
      (s.berth 0).retQ = 4 :: rest ∧ (s.berth 0).retQ.head? ≠ some 5 ∧ (s.berth 0).parkState = .restoring ∧
      s.shelf.mapReady = true ∧ (((s.berth 0).retDest.find? (fun x => x.1 = 4)).map (·.2)).getD 0 = dest ∧
      (dest ∈ s.trec.retired ↔ dest = 7) := by decide +kernel

/-! ### Hypotheses are met: tickets -/

/-- A SHARE for berth 0, from 1 to 1, as the first ticket of a provisioned part. -/
def share : TicketBody := { magic := 0x4B545A58, action := 2, target := devTag, seq := 1, payload := [0, 1, 0, 1, 0] }

def halfOf (b : TicketBody) : HalfTicket := { body := b, party := 1 }

/-- The Operator's half-ticket has arrived at half 0; the Custodian's is pending there where `cust` says so. -/
def tickets (b : TicketBody) (cust : Bool) : State :=
  { live with
    berths := [(0, { layout := place0 })]
    sec := { provisioned := true, operKeys := some {}, custKeys := some {}, arrived := [(halfOf b, 0, 3)]
             pend := if cust then [{ body := b, digest := ticketDigest b, cust := true, custPart := 3 }] else [] } }

/-- A half without keys for the party; the commands of the chair. -/
theorem test_TicketsAreCountersigned_unkeyed :
    (let s := { live with sec := { arrived := [(halfOf {}, 0, 3)] } }
     s.sec.arrived = (halfOf {}, 0, 3) :: [] ∧ s.sec.paired = [] ∧ 3 < viaCommand ∧ s.twc.cmdBusy = false ∧
     partyKeys s {} 1 = none) ∧ live.fenced 0 = false ∧ ({ party := 2 } : HalfTicket).party = 2 ∧
    ({ party := 1 } : HalfTicket).party = 1 ∧ (live.half 0).chair ≠ .split ∧
    (({ live with twcH := [(0, { half true with chair := .split })] } : State).half 0).chair = .split ∧
    dark.fenced 0 = true ∧ live.sec.arrived = [] ∧
    ∀ aw, let s := gating { cmdBusy := true, cmdAwait := aw, lastOp := 6 }
      s.on = true ∧ s.twc.cmdBusy = true ∧ s.twc.cmdAwait = aw ∧ s.twc.lastOp = 6 ∧ s.twc.cmdBerth = 0 := by decide +kernel

/-- Four bodies are pending, and a fifth arrives. -/
theorem test_TicketsAreCountersigned_fifth :
    let s := { tickets share false with
      sec := { (tickets share false).sec with pend := [{ digest := ~~~ ticketDigest share }, { digest := ~~~ ticketDigest share },
        { digest := ~~~ ticketDigest share }, { digest := ~~~ ticketDigest share }] } }
    findTicket s 0 (ticketDigest share) = none ∧ 4 ≤ (s.sec.pend.filter (fun t => t.half = 0)).length ∧ s.sec.paired = [] := by
  have k : ∀ d : BitVec 384, ~~~ d ≠ d := fun d e => by
    have := congrArg (fun x : BitVec 384 => x.getLsbD 0) e
    simp at this
  simp [findTicket, k, tickets]

/-- Whether a signature verifies is the standards': under either answer the clauses that rest on it are met. -/
theorem test_TicketsAreCountersigned_signed :
    (tickets share true).sec.arrived = (halfOf share, 0, 3) :: [] ∧
    partyKeys (tickets share true) share 1 = some {} ∧
    findTicket (tickets share false) 0 (ticketDigest share) = none ∧
    ((tickets share false).sec.pend.filter (fun t => t.half = 0)).length = 0 ∧
    (let s := { tickets share true with sec := { (tickets share true).sec with pend := [
       { body := share, digest := ticketDigest share, oper := true }] } }
     (findTicket s 0 (ticketDigest share)).map (·.oper) = some true ∧
       (findTicket s 0 (ticketDigest share)).map (·.cust) = some false) ∧
    findTicket (tickets share true) 0 (ticketDigest share) =
      some { body := share, digest := ticketDigest share, cust := true, custPart := 3 } := by
  simp [tickets, halfOf, partyKeys, findTicket]

theorem test_ticket_accepted (t : Ticket) (h : t.body = share) :
    ticketCode (tickets share true) 0 t = 0 ∧ checksAlone (tickets share true) t = false := by
  have hp : payloadForm share = true := by decide +kernel
  have ha : actionAllowed (tickets share true) 0 2 = true := by decide
  have hc : actionApplies (tickets share true) 0 share = true := by decide +kernel
  constructor
  · unfold ticketCode
    rw [h]
    simp [share, tickets] at *
    simp [hp, ha, hc]
  · simp [checksAlone, h, share]

theorem test_ticket_refused (t : Ticket) (h : t.body = { share with seq := 2 }) :
    ticketCode (tickets share true) 0 t ≠ 0 := by
  simp [ticketCode, h, share, tickets, live, half, State.half, look, fencedAlready]

/-- A body that is pending, and one that is paired and sent. -/
def pendingOne (k : Ticket) : State := { live with sec := { pend := [k], paired := [(0, 0)] } }

theorem test_TicketsAreCountersigned_waiting :
    (pendingOne {}).sec.pend.find? (fun t => t.digest = 0 && !(t.oper && t.cust)) = some {} ∧
    live.sec.pend.find? (fun t => t.digest = 0 && !(t.oper && t.cust)) = none ∧ sentTicket live = none ∧
    (∀ v ∈ [none, some 0, some 1, some 2], let k : Ticket := { oper := true, cust := true, sent := true, peerSays := v }
      (pendingOne k).sec.paired = [(k.half, k.digest)] ∧ findTicket (pendingOne k) k.half k.digest = some k ∧
      sentTicket (sendPaired ((pendingOne k).sec.paired.length + 1) (pendingOne k)) = some k ∧ sentTicket (pendingOne k) = some k ∧
      ((pendingOne k).half (1 - k.half)).peerHb = true ∧ ((pendingOne k).half (1 - k.half)).romReject = false ∧
      2 ≤ ((pendingOne k).half (1 - k.half)).bootStage) ∧
    let k : Ticket := { oper := true, cust := true, sent := true }
    let s := { pendingOne k with twcH := [(0, half true), (1, { peerHb := true, bootStage := 1 })] }
    (s.half (1 - k.half)).bootStage < 2 ∧ sentTicket s = some k := by decide +kernel

/-! ### Hypotheses are met: power, the boot chain, ports and links -/

def clocked (c : Clk) (g : Glb := live.glb) (t : Twc := {}) : State := { live with clk := c, glb := g, twc := t }

theorem test_PowerAndResetsFollowTheirSequence :
    (clocked {}).clk.power = .off ∧ (clocked { power := .qualified }).clk.power = .qualified ∧
    (let s := clocked { power := .alwaysOn } {}
     s.on = true ∧ s.glb.rootLock = false ∧ s.glb.trip = false ∧ s.clk.relockFailed = false ∧
     ∀ q, (s.run q).halted = false) ∧
    (let s := clocked { power := .alwaysOn }
     s.on = true ∧ s.glb.rootLock = true ∧ s.clk.serdes = false) ∧
    (∀ n ∈ [0, 2], let s := clocked { power := .alwaysOn } { clkFault := true, relockCount := n }
      s.on = true ∧ s.glb.clkFault = true ∧ s.glb.rootLock = false ∧ s.clk.relockFailed = false ∧ s.glb.trip = false ∧
      s.glb.relockCount < 3) ∧
    live.on = true ∧ unlit.on = false ∧ live.glb.trip = false ∧ (clocked { power := .holdup }).clk.power = .holdup ∧
    live.glb.rootLock = true ∧ live.clk.power ≠ .off ∧ live.clk.power ≠ .qualified ∧ live.clk.power ≠ .holdup ∧
    live.clk.serdes = true ∧ live.glb.clkFault = false ∧ (live.port 0).enable = false ∧ resetHeld live = false ∧
    resetHeld (ending .committing 1) = true ∧ booting (ending .committing 1) = false ∧
    (clocked live.clk live.glb { cmdBusy := true }).twc.cmdBusy = true ∧ live.twc.cmdBusy = false ∧ booting live = false ∧
    (let s := { clocked live.clk { live.glb with trip := true } with stks := [(0, { temp := 341 })] }
     s.glb.trip = true ∧ allCool s = false) ∧
    allCool { live with stks := [(0, { temp := 340 })] } = true := by
  refine ⟨by decide, by decide, ⟨by decide, by decide, by decide, by decide, fun q => rfl⟩, ?_⟩
  decide

/-- Half 0 before stage n; half 1 hears it. -/
def starting (n : Nat) (fence0 : Bool := false) : State :=
  { live with
    trec := { fence0 := fence0 }
    twcH := [(0, { bootStage := n - 1, claim := true, peerHb := true }), (1, { bootStage := 7, peerHb := true })] }

/-- An image of the vendor's form; whether it is accepted rests on its signatures, its key slot and SECVER_MIN. -/
def firmware (type : Nat) : Firmware := { magic := 0x57465A58, type := type, digest := Config.sha384 [] }

theorem test_BootStagesMeasureAndLoad_accepted (type : Nat) (s : State)
    (h : Config.slotRevoked 0 = false ∧ secverMin s type = 0 ∧
      Config.edVerify (Config.vendorEd 0) (headerBytes (firmware type)) 0 = true ∧
      Config.mlVerify (Config.vendorMl 0) (headerBytes (firmware type)) [] [] = true) :
    chooseCopy s type (firmware type) {} = some (firmware type, false) := by
  obtain ⟨h1, h2, h3, h4⟩ := h
  have e : accepts s type (firmware type) = true := by
    simp only [accepts, firmware] at *
    simp [h1, h2]
    exact ⟨h3, h4⟩
  simp [chooseCopy, e]

theorem test_BootStagesMeasureAndLoad :
    (∀ n ∈ [1, 2, 3, 4, 5, 6, 7], (starting n).on = true ∧ ((starting n).half 0).romReject = false ∧
      n = ((starting n).half 0).bootStage + 1 ∧ (starting n).glb.sOnRoot = true) ∧
    (∀ type ∈ [1, 2, 3, 4], chooseCopy live type {} {} = none) ∧ unlit.on = false ∧ 7 ≤ (live.half 0).bootStage ∧
    (let s := { live with twcH := [(0, { romReject := true, bootStage := 1 })] }
     (s.half 0).romReject = true ∧ (s.half 0).bootStage < 5) ∧
    (let s := { starting 3 with glb := {} }
     2 ≤ (s.half 0).bootStage ∧ s.glb.sOnRoot = false) ∧
    loadsShelf (starting 4) 0 = true ∧ loadsShelf (starting 4 true) 0 = false ∧
    (let s := starting 7
     (s.half (1 - 0)).bootStage = 7 ∧
     (∀ i < 2, (s.half i).peerHb = true ∧ (s.half i).chair = .boot ∧ (s.half i).claim = claims s i) ∧
     s.meas 0 0 = s.meas 1 0 ∧ s.fenced 0 = false ∧ s.fenced 1 = false) := by decide +kernel

/-- Half 0 in a chair state. -/
def seated (c : Chair) (peer : Bool := true) : State :=
  { live with twcH := [(0, { half true with chair := c, peerHb := peer }), (1, half false)] }

theorem test_Heartbeats :
    (∀ c, (seated c).on = true ∧ ((seated c).half 0).romReject = false ∧ 5 ≤ ((seated c).half 0).bootStage ∧
      ((seated c).half 0).chair = c) ∧ ((seated .agreed).half 0).claim = true ∧ ((seated .agreed).half 0).peerM0 = none ∧
    (∀ x ∈ [(0, true), (2, false)],
      (if ((seated .agreed).half 0).claim = x.2 then (if x.2 then 1 else 2) else 5) = 5 → x.1 = 2) ∧
    dark.fenced 0 = true ∧ (seated .split).meas 0 0 = 0 ∧
    ((seated .boot false).half 0).bootStage = 7 ∧ ((seated .boot false).half 0).peerHb = false ∧
    (seated .boot false).fenced 0 = false ∧ (seated .boot false).fenced 1 = false := by
  refine ⟨fun c => by cases c <;> decide +kernel, ?_⟩
  decide +kernel

/-- Port 2 alone. -/
def wired (t : Port) : State := { live with ports := [(2, t)] }

theorem test_PortsFollowTheirStates :
    dark.fenced (portHalf 63) = true ∧ (∀ st, (wired { state := st }).fenced (portHalf 2) = false ∧
      ((wired { state := st }).port 2).state = st ∧ ((wired { state := st }).port 2).txq = [] ∧
      portPowered (wired { state := st }) 2 = true ∧ (wired { state := st }).twc.fencing = none ∧
      (wired { state := st }).twc.domBusy = none) ∧ portPowered dark 2 = false ∧
    (gating { fencing := some (portHalf 2, true) }).twc.fencing = some (portHalf 2, true) ∧
    (∃ h < 2, live.fenced h = false) ∧ ∀ h < 2, (2 : Nat) ^ 40 ≠ routeKey h live.cwy.rtVl live.cwy.rtDst := by
  refine ⟨by decide +kernel, fun st => by cases st <;> decide +kernel, by decide +kernel⟩

theorem test_LinksAcknowledgeAndRetry :
    (∀ st, ((wired { state := st }).port 2).txq = [] ∧ ((wired { state := st }).port 2).unacked = [] ∧
      carries (wired { state := st }) 2 = (st = .up || st = .draining)) ∧
    (∀ run ∈ [14, 15], let s := wired { state := .up, unacked := [(7, 0)], nakNum := 7, nakRun := run, sinceAck := 1 }
      (s.port 2).state = .up ∧ (s.port 2).unacked ≠ [] ∧ 7 = (s.port 2).nakNum ∧ (15 ≤ (s.port 2).nakRun ↔ run = 15) ∧
      ((if (s.port 2).nakNum = 7 then (s.port 2).nakRun + 1 else 1) < 16 ↔ run = 14) ∧ 0 < (s.port 2).sinceAck) ∧
    (live.port 2).sinceAck = 0 ∧
    (∀ hold, ((wired { state := .up, rxHold := hold }).port 2).rxHold = hold) := by
  refine ⟨fun st => by cases st <;> decide, by decide, by decide, fun hold => by cases hold <;> decide⟩

/-! ### Hypotheses are met: requests, answers, packets -/

/-- A berth that exports its first page and unit marks as given; the filter of this part. -/
def serving (u : Tbl UnitSt := []) (f : List FilterEnt := []) (tail : Nat := 8) : State :=
  let s := kernel [] []
  { s.modBerth 0 (fun b => { b with image := b.image.map (fun i => { i with exports := [{
      hi := 65535, berth := 32, rights := [.w, .r, .a, .s, .d], pages := 1, queues := [5], syncs := [9, 10] }] }) }) with
    units := u, cwy := { filter := f }, queues := [(5, { state := .running, ringLog2 := 6, tail := tail })] }

/-- A request of part 7. -/
def ask (type addr length : Nat) (poison : Bool := false) : Packet :=
  { type := type, srcPart := 7, addr := addr, length := length, data := List.replicate length 1, poison := poison, operand := 9 }

def checks (x : Except Nat Nat) (f : Nat → Bool) : Bool := match x with
  | .ok b => f b
  | .error _ => false

def refuses (x : Except Nat Nat) (r : Nat) : Bool := match x with
  | .ok _ => false
  | .error e => e = r

theorem test_RequestsAreServed_checks :
    (∀ t ∈ [1, 2, 4, 5, 6, 7], let p := ask t (if t = 5 ∨ t = 6 then 9 else if t = 7 then 5 else 0x40) 8
      arrive p serving = serving ∧ checks (targetCheck serving 0 p) (· = 0) = true ∧
      refuses (targetCheck live 0 p) 1 = true ∧
      serving.isNew 0 p ∧ live.isNew 0 p) ∧
    atomicLegal (ask 4 0x40 8) = true ∧ atomicLegal (ask 4 0x41 8) = false ∧
    (let e : FilterEnt := { srcPart := 7 }
     ({ live with cwy := { filter := [e] } } : State).cwy.filter.find? (filterHit 0 (ask 1 0x40 8)) = some e) ∧
    live.cwy.filter.find? (filterHit 0 (ask 1 0x40 8)) = none ∧
    (live.cwy.filter.filter (fun e => e.half = 0)).length < 65536 := by
  unfold State.isNew
  decide +kernel

theorem test_RequestsAreServed_full :
    let f : List FilterEnt := List.replicate 65536 {}
    f.find? (filterHit 0 (ask 1 0x40 8)) = none ∧ 65536 ≤ (f.filter (fun e => e.half = 0)).length := by
  generalize 65536 = n
  constructor
  · simp [filterHit, ask]
  · simp

theorem test_RequestsAreServed_units :
    (∀ u ∈ [[], [(pa 0x40 / 32, UnitSt.poison)], [(pa 0x40 / 32, UnitSt.uncorrectable)]], let v := serving u
      v.spot 0 0x40 = .stack (pa 0x40) ∧ checks (targetCheck v 0 (ask 1 0x40 32)) (· = 0) = true ∧
     (unitPieces 0x40 32 (List.replicate 32 0)).any (fun q => v.spotBarred 0 q.1) = false) ∧
    (∀ g ∈ [0, 1], let v := moored serving g
     v.spot 0 0x40 = .mooring 0 0x40 ∧ v.markAt 0 (.mooring 0 0x40) = .good ∧
     checks (targetCheck v 0 (ask 1 0x40 8)) (· = 0) = true ∧
     (unitPieces 0x40 8 (List.replicate 8 0)).any (fun q => v.spotBarred 0 q.1) = decide (g = 1)) ∧
    (let v := serving [(pa 0x40 / 32, .poison)]
     look .good v.units (pa 0x40 / 32) = .poison ∧ maskedBad v 0 0x40 ((ask 1 0x40 8).data.take 8) = false) ∧
    (let v := serving [(pa 0x40 / 32, .uncorrectable)]
     maskedBad v 0 0x40 ((ask 1 0x40 8).data.take 8) = true ∧
     maskedBad v 0 0x40 ((ask 1 0x40 32).data.take 32) = false ∧ v.markAt 0 (v.spot 0 0x40) ≠ .good) ∧
    (let v := serving
     maskedBad v 0 0x40 ((ask 1 0x40 8).data.take 8) = false ∧ look .good v.units (pa 0x40 / 32) = .good ∧
     v.unreachable (pa 0x40) = false ∧ (v.sync 9).allocated = true ∧ (v.sync 10).allocated = false ∧
     (v.sync 9).irqEn = false ∧ doorbellOpen v 5 = true ∧ ahead 32 (9 % 2 ^ 32) (v.queue 5).head ≤ 2 ^ (v.queue 5).ringLog2 ∧
     ahead 32 (v.queue 5).tail (v.queue 5).head ≤ ahead 32 (9 % 2 ^ 32) (v.queue 5).head ∧
     (v.queue 5).skipWaiting = false) ∧
    ahead 32 (9 % 2 ^ 32) ((serving [] [] 10).queue 5).head <
      ahead 32 ((serving [] [] 10).queue 5).tail ((serving [] [] 10).queue 5).head ∧
    doorbellOpen live 5 = false ∧ 0x40 % 32 + 32 ≤ 32 := by decide +kernel

/-- A request of half 0 under number 3 awaits its answer. -/
def asked (w : OutstFor) (sends : Nat) : State :=
  let s := kernel [.fence] [] { insts := [{ readsLeft := [(0, 64)] }] }
  { s with cwy := { outst := [{ txn := 3, what := w, packet := { length := 64 }, sends := sends }] } }

theorem test_AnswersEndTheirRequests :
    (∀ w ∈ [OutstFor.effect 5, .readFor 5 0 0, .mgmt], ∀ sends ∈ [live.cwy.resends, live.cwy.resends + 1],
      findOutst (asked w sends) 0 3 = some { txn := 3, what := w, packet := { length := 64 }, sends := sends } ∧
      arrive { txn := 3 } (asked w sends) = asked w sends ∧
      (∀ h ∈ ((asked w sends).run 5).held, remotePart 0 h.eff = none) ∧ ((asked w sends).run 5).landed = false ∧
      0 < ((asked w sends).run 5).insts.length) ∧
    (let s := (asked (.readFor 5 0 0) 1).modRun 5 (fun r => { r with landed := true })
     (s.run 5).landed = true ∧ (findOutst s 0 3).map (·.what) = some (.readFor 5 0 0)) ∧
    findOutst live 0 3 = none ∧ live.cwy.resends < live.cwy.resends + 1 ∧ live.cwy.waiting = [] := by decide +kernel

/-- Part 4 lies beyond port 2, for each half and VL 0, and part 7 for VL 6. -/
def routed (q : List Packet) (c : Nat) : State :=
  { wired { state := .up, txq := q, credit := [(0, c)] } with
    cwy := { routes := [(routeKey 0 0 4, { primary := 2, priValid := true }), (routeKey 0 6 7, { primary := 2, priValid := true })] } }

theorem test_PacketsPassThrough :
    (let s := routed [] 0
     let v := arrive { srcPart := 7, port := some 2 } s
     0 = portHalf 2 ∧ (0 = v.cwy.partId ∧ 4 ≠ v.cwy.partId ∧ 5 ≠ v.cwy.partId) ∧ routePort v 0 0 4 = some 2 ∧
     routePort v 0 0 5 = none ∧ 7 ≠ v.cwy.partId ∧ routePort v 0 6 7 = some 2 ∧ routePort v 0 6 8 = none) ∧
    frontOf (live.port 2).txq 0 = none ∧
    isAnswer { type := 8 } = true ∧ isAnswer { type := 1 } = false ∧ mgmtKnown 0x2A = true ∧ mgmtKnown 0x2B = false ∧
    ∀ c ∈ [1024, 1025 - flitsOf { srcPart := 7 }, 1024 - flitsOf { srcPart := 7 }], let s := routed [{ srcPart := 7 }] c
      frontOf (s.port 2).txq 0 = some { srcPart := 7 } ∧ 7 ≠ s.cwy.partId ∧ dropFront (s.port 2).txq 0 = [] ∧
      (vlBuffer 0 < look 0 (s.port 2).credit 0 + flitsOf { srcPart := 7 } ↔ c ≠ 1024 - flitsOf { srcPart := 7 }) := by
  decide +kernel

/-! ### Hypotheses are met: slots, the host, Keeper, words -/

/-- Berth 0 with an admitted queue 5, a sounding slot that its kernel clears, and its selected request slot. -/
def slotting (r : Req) : State :=
  let s := kernel [.sound 1 3 2 7] []
  { s.modBerth 0 (fun b => { b with reqs := [(0, r)] }) with queues := [(5, { state := .idle }), (6, { state := .running })] }

theorem test_SlotsAct :
    (∀ r ∈ [{}, { isOpen := true }, { isOpen := true, alt := 6, altValid := true },
        { isOpen := true, alt := 7, altValid := true }], let s := slotting r
      0 = (s.berth 0).reqSel ∧ r = look {} (s.berth 0).reqs 0 ∧ (s.queue 6).state ≠ .disabled ∧
      (s.queue 7).state = .disabled ∧ (s.run 6).phase ≠ .committing ∧ (s.run 6).landed = false) ∧
    (let s := slotting {}
     (¬((look {} (s.berth 0).reqs 0).isOpen = true ∨ 1 = 0 ∨ ownsQueue s 0 5 = false ∨
        true = true ∧ (ownsQueue s 0 6 = false ∨ queueHalf 5 ≠ queueHalf 6) ∨ (s.berth 0).layout.configured = false)) ∧
     ownsQueue s 0 7 = false) ∧
    slotQueue ((slotting {}).imageOf 0) 2 = some 5 ∧ slotQueue ((slotting {}).imageOf 0) 3 = none := by decide +kernel

/-- One decoder, at 2^40, bound to berth 0 from address 0. -/
def bound (u : Tbl UnitSt := []) (va : Nat := 0) : State :=
  let s := kernel [] []
  { s with units := u
           glb := { live.glb with hdm := [(0, { base := 2 ^ 40, size := 2 ^ 30, committed := true, bindValid := true, bindVbase := va })] } }

theorem test_HostAccessesAct :
    live.on = true ∧ unlit.on = false ∧ live.clk.serdes = true ∧ (live.fenced 0 || live.fenced 1) = false ∧
    ({ live with glb := { live.glb with h0Fenced := true } } : State).fenced 0 = true ∧
    live.linkUp = true ∧ dark.linkUp = false ∧ live.glb.cxlCache = true ∧ dark.glb.cxlCache = false ∧
    live.glb.cxlMem = true ∧ dark.glb.cxlMem = false ∧ live.glb.hostWait = [] ∧ decoderAt live (2 ^ 40) = none ∧
    (∀ u ∈ [[], [(pa 0x40 / 32, UnitSt.uncorrectable)], [(pa 0x40 / 32, UnitSt.poison)]], let s := bound u
      s.linkUp = true ∧ s.glb.cxlMem = true ∧ s.glb.hostWait = [] ∧
      (decoderAt s (2 ^ 40 + 0x40)).map (·.1) = some 0 ∧
      0x40 = (look {} s.glb.hdm 0).bindVbase + (2 ^ 40 + 0x40 - (look {} s.glb.hdm 0).base) ∧
      hostWaits s (look {} s.glb.hdm 0) 0x40 32 = false ∧ hostWaits s (look {} s.glb.hdm 0) (2 ^ 21) 32 = false ∧
      hostRefusal s (look {} s.glb.hdm 0) 0x40 32 = none ∧ hostRefusal s (look {} s.glb.hdm 0) (2 ^ 21) 32 = some 2 ∧
      s.spot (look {} s.glb.hdm 0).bindBerth 0x40 = .stack (pa 0x40) ∧ look .good s.units (pa 0x40 / 32) = look .good u (pa 0x40 / 32)) ∧
    0x40 % 32 = 0 ∧
    let s := bound.modBerth 0 (fun b => { b with pages := [(0, { tier := .crust, phys := 3, migrating := true })] })
    s.linkUp = true ∧ hostWaits s (look {} s.glb.hdm 0) 0x40 32 = true := by decide +kernel

/-- A write of 32 bytes is whole where every byte is written. -/
theorem test_HostAccessesAct_masks :
    ∀ b : Option (BitVec 8), (32 = 32 && (b :: List.replicate 31 (some 0)).all (·.isSome)) = b.isSome := by
  intro b; cases b <;> rfl

theorem test_MailboxRequestsAreAnswered :
    live.linkUp = true ∧ dark.linkUp = false ∧ live.sec.lastHash = none ∧
    ({ live with sec := { lastHash := some 0 } } : State).sec.lastHash = some 0 := by decide +kernel

/-- The part unlocked to level 2 for berth 0. -/
def unlocked (phase : RPhase := .running) (d : Dbg := {}) : State :=
  let s := (kernel [] []).modRun 5 (fun r => { r with phase := phase })
  { s.modBerth 0 (fun b => { b with layout := { b.layout with qcount := 8 } }) with
    sec := { level := 2, debugBerths := 1 }, dbg := d }

theorem test_KeeperAnswersItsLines_commands :
    keeperUp dark = true ∧ keeperUp unlit = false ∧ leastErr [levelErr (unlocked) 2, some 4] = some 4 ∧
    (live.keeperIdle ∧ noHalf1 live = false ∧ noHalf1 (seated .agreed false) = true) ∧
    (∀ c ∈ [levelErr live 1, levelErr live 2], c = some 2) ∧ (unlocked).keeperIdle ∧
    rdErr (unlocked) 0x100000 1 = none ∧ rdErr (unlocked) 0x100000 17 = some 4 ∧ wrdErr (unlocked) 0 0 1 = none ∧
    wrErr (unlocked) 0x100000 0 = none ∧ wrErr (unlocked) 0x100000 (2 ^ 64) = some 1 ∧
    leastErr [errIf (decide (0 ≥ 2 ^ 64)) 1, windowErr (unlocked) 2 0 0] = none ∧
    leastErr [levelErr (unlocked) 1, berthErr (unlocked) 0] = none ∧ berthErr (unlocked) 1 = some 3 ∧
    leastErr [levelErr (unlocked) 2, ownerErr (unlocked) (queueOwner (unlocked) 5), errIf (queueHalf 5 = 1 && noHalf1 (unlocked)) 7] = none ∧
    killable ((unlocked .killed).run 5) = false ∧ killable ((unlocked).run 5) = true := by
  unfold State.keeperIdle
  decide +kernel

/-- The whole line "STAT". -/
def statLine : List (BitVec 8) := ascii "STAT"

theorem test_KeeperAnswersItsLines_lines :
    parseLine statLine = some .stat ∧ .stat ≠ Instr.temp ∧ statLine ≠ [] ∧
    (unlocked .running { lines := [(0, statLine)] }).dbg.lines = (0, statLine) :: [] ∧ live.on = true ∧ live.dbg.lines = [] ∧
    ({ live with clk := {} } : State).on = false ∧ ({ live with dbg := { baudTrial := true } } : State).dbg.baudTrial = true ∧
    buffered { rx := List.replicate 1023 (0 : BitVec 8) } < 1024 ∧ 1024 ≤ buffered { rx := List.replicate 1024 (0 : BitVec 8) } ∧
    (0x41 : BitVec 8) ≠ 13 ∧ (0x41 : BitVec 8) ≠ 10 ∧ ({ lineLen := 254 } : Dbg).lineLen < 255 := by decide +kernel

theorem test_KeeperAnswersItsLines_memory :
    memErr live 1 0 0x40 8 = some (2, 0) ∧ memErr (unlocked) 2 0 0x40 0 = some (4, 0) ∧ memErr (unlocked) 2 0 0x40 8 = none ∧
    memErr (unlocked) 1 0 0x40 32 = none ∧ (unlocked).spot 0 0x40 = .stack (pa 0x40) ∧ pa 0x40 < 2 ^ 44 ∧
    look .good (unlocked).units (pa 0x40 / 32) = .good ∧ live.dbg.inbound = none ∧
    ∀ naks ∈ [1, 2], let ib : Inbound := { va := 0x40, len := 4, naks := naks }
      let s := unlocked .running { inbound := some ib }
      s.dbg.inbound = some ib ∧ keeperUp s = true ∧ s.dbg.lines = [] ∧ s.dbg.reports = [] ∧ s.dbg.lostReports = 0 ∧
      keeperWaits s ib.berth (ib.va + 4096 * ib.block) 4 = false ∧
      canProgram false (shelfUnits s ib.berth (ib.va + 4096 * ib.block) 4) s = true ∧
      crc32 [1, 2, 3, 4] ≠ (0 : BitVec 32).toNat ∧
      crc32 [1, 2, 3, 4] = (BitVec.ofNat 32 (crc32 [1, 2, 3, 4])).toNat ∧ 4 = min 4096 (ib.len - 4096 * ib.block) ∧
      memErr s 2 ib.berth 0x40 4 = none ∧ s.spot ib.berth 0x40 = .stack (pa 0x40) ∧ 0x40 % 32 + 4 ≤ 32 ∧
      look .good s.units (pa 0x40 / 32) = .good ∧ ib.len ≤ 4096 * (ib.block + 1) := by decide +kernel

/-- Lines that wait, a block of one byte with its check among them, and a page that migrates. -/
theorem test_KeeperAnswersItsLines_blocks :
    blockLines [(0, ascii "D 0000 01"), (0, ascii "C 0xA505_DF1B")] [] true = some ([1], some 0xA505DF1B, []) ∧
    crc32 [1] = 0xA505DF1B ∧
    blockLines [(1, ascii "D 0000 01"), (0, ascii "C 0xA505_DF1B")] [] true = some ([1], none, []) ∧
    blockLines [(0, ascii "D 0000 01")] [] true = none ∧
    keeperWaits ((kernel [] []).modBerth 0 (fun b => { b with pages := [(0, { tier := .crust, phys := 3, migrating := true })] }))
      0 0x40 4 = true ∧
    memErr (unlocked) 1 0 0x40 4 = none := by
  refine ⟨?_, ?_, ?_, ?_, ?_, ?_⟩ <;> decide +kernel

theorem test_WordsDecodeToWhatTheySpell :
    (Op.stripe { variant := 3, inp := 2 ^ 20 - 1 }).wf = true ∧
    encodeOp (.wait 16383 (2 ^ 64 - 1)) < 2 ^ 256 ∧ reservedZero (encodeOp (.wait 16383 (2 ^ 64 - 1))) = true ∧
    decodeOp (encodeOp (.wait 16383 (2 ^ 64 - 1))) = some (.wait 16383 (2 ^ 64 - 1)) ∧
    opcodeOf (quad (0x06 * 2 ^ 56) 0 0 0) = 0x06 ∧ variantOf (quad (0x0310 * 2 ^ 48) 0 0 0) = 1 ∧ decodeOp (quad (0x0310 * 2 ^ 48) 0 0 0) = none ∧
    decodeOp (quad (0x06 * 2 ^ 56) 0 0 0) = none := by decide +kernel

end Sys2Proof.Tests
end

section
/-! SUPPORT. Register accesses (00_scope.md R3, R5, R6): which register an access reaches, and what a write of one leaves. -/
namespace Sys2Proof.Machine

/-! ### Accesses (R5) -/

theorem readAccess_quad (s : State) (bar : Nat) {a : Nat} (ha : a % 8 = 0) : readAccess s bar a 8 = readReg s bar a :=
  if_pos ⟨rfl, ha⟩

theorem readAccess_half (s : State) (bar : Nat) {a : Nat} (ha : a % 4 = 0) :
    readAccess s bar a 4 = field (readReg s bar (a / 8 * 8)) (8 * (a % 8)) 32 := by
  simp [readAccess, ha]

theorem readAccess_odd (s : State) (bar : Nat) {a size : Nat} (h8 : ¬ (size = 8 ∧ a % 8 = 0))
    (h4 : ¬ (size = 4 ∧ a % 4 = 0)) : readAccess s bar a size = 0 := by
  rw [readAccess, if_neg h8, if_neg h4]

theorem writeAccess_odd (s : State) (bar v : Nat) {a size : Nat} (h8 : ¬ (size = 8 ∧ a % 8 = 0))
    (h4 : ¬ (size = 4 ∧ a % 4 = 0)) : writeAccess bar a size v s = s := by
  rw [writeAccess, if_neg h8, if_neg h4]

/-- Settles O17: an odd access falls through both guards of the read and of the write; a 4-byte access is a field of the
register that holds its half. -/
theorem oddAccessesDoNothing : Obligations.OddAccessesDoNothing := by
  unfold Obligations.OddAccessesDoNothing
  intro s bar a size v
  refine ⟨fun h8 h4 => ⟨readAccess_odd s bar h8 h4, ?_⟩, fun ha => ?_, fun ha => ?_⟩
  · exact congrArg Host.Outcome.next (writeAccess_odd s bar v h8 h4)
  · have reg : a / 8 * 8 = a := by omega
    rw [readAccess_half s bar (by omega), readAccess_quad s bar ha, reg, ha]
    simp [field]
  · have reg : a / 8 * 8 = a - 4 := by omega
    rw [readAccess_half s bar (by omega), readAccess_quad s bar (by omega), reg, ha]
    simp [field]

/-! ### Writes of 8 bytes and of the upper half -/

/-- An aligned write of 8 bytes writes the whole register, every bit of it addressed. -/
theorem registerWrite_quad {s : State} {bar a v : Nat} {P : State → Prop} (ha : a % 8 = 0) (hv : v < 2 ^ 64)
    (h : P (writeReg bar a { v := v, hit := v } s)) : Yields (.registerWrite bar a 8 v) s P := by
  refine ⟨_, rfl, ?_⟩
  rw [writeAccess, if_pos ⟨rfl, ha⟩, Nat.mod_eq_of_lt hv]
  exact h

/-- A write of 4 bytes at the upper half of a register keeps the lower half (R5). -/
theorem registerWrite_upper {s : State} {bar a v : Nat} {P : State → Prop} (ha : a % 8 = 4)
    (h : P (writeReg bar (a - 4) { v := setField (readReg s bar (a - 4)) 32 32 (v % 2 ^ 32), hit := v % 2 ^ 32 * 2 ^ 32,
                                   lo := false, hi := true } s)) : Yields (.registerWrite bar a 4 v) s P := by
  refine ⟨_, rfl, ?_⟩
  have reg : a / 8 * 8 = a - 4 := by omega
  rw [writeAccess, if_neg (by omega), if_pos (by omega)]
  simp only [reg, if_neg (show ¬ a % 8 = 0 by omega)]
  exact h

theorem field_setField_upper (old x : Nat) : field (setField old 32 32 x) 0 32 = field old 0 32 := by
  simp only [field, setField]; omega

theorem bit_setField_upper (old x : Nat) : bit (setField old 32 32 (x % 2 ^ 32)) 32 = bit x 0 := by
  have h : setField old 32 32 (x % 2 ^ 32) / 2 ^ 32 % 2 = x / 2 ^ 0 % 2 := by simp only [setField, field]; omega
  simp only [bit, h]

theorem pack_pair (i a j b : Nat) : pack [(i, a), (j, b)] = a * 2 ^ i + b * 2 ^ j := by
  simp only [pack, List.foldl_cons, List.foldl_nil, Nat.zero_add]

/-- PREEMPT_GAP reads back from its register (Table 15.6). -/
theorem readReg_preempt (s : State) (h : s.glb.preemptGap < 2 ^ 32) :
    field (readReg s 0 0x200) 0 32 = s.glb.preemptGap := by
  have reg : readReg s 0 0x200 = s.glb.preemptGap + boolNat s.glb.preemptEn * 2 ^ 32 := by
    simp [readReg, readBar0, readGlb, pack_pair]
  rw [reg, field]
  omega

theorem writeReg_preempt (w : RegWrite) (s : State) : writeReg 0 0x200 w s =
    { s with glb := { s.glb with preemptGap := field w.v 0 32, preemptEn := bit w.v 32 } } := rfl

/-- A limit outside 1000..4600 W and a hysteresis above 1000 W are reserved (Table 19.10). -/
theorem writeReg_power (w : RegWrite) (s : State) : writeReg 0 0xD00000 w s = { s with twc := { s.twc with
    pwrLimit := if 1000 ≤ field w.v 0 16 ∧ field w.v 0 16 ≤ 4600 then field w.v 0 16 else s.twc.pwrLimit
    pwrHyst := if field w.v 16 16 ≤ 1000 then field w.v 16 16 else s.twc.pwrHyst, telemMs := field w.v 32 16 } } := by
  have limit : ∀ old new, keep (fun n => decide (1000 ≤ n) && decide (n ≤ 4600)) old new =
      if 1000 ≤ new ∧ new ≤ 4600 then new else old := by simp [keep]
  have hyst : ∀ old new, keep (fun n => decide (n ≤ 1000)) old new = if new ≤ 1000 then new else old := by simp [keep]
  rw [← limit, ← hyst]
  rfl

/-- A window of 0 is reserved (Table 15.9). -/
theorem writeReg_harbour {s : State} (hf : s.fenced 0 = false) (w : RegWrite) : writeReg 0 0x800080 w s =
    s.modHarbour 0 (fun k => { k with
      hostW := field w.v 0 16, migW := field w.v 16 16
      window := if field w.v 32 16 = 0 then k.window else field w.v 32 16 }) := by
  simp [writeReg, writeBar0, writeHbr, keep, hf]

/-- A register of window b. -/
theorem writeReg_window {b o : Nat} (hb : b < 32) (ho : o < 0x10000) (w : RegWrite) (s : State) :
    writeReg 2 (0x10000 * b + o) w s = writeWindow b o w s := by
  have hq : (0x10000 * b + o) / 0x10000 = b := by omega
  have hr : (0x10000 * b + o) % 0x10000 = o := by omega
  rw [writeReg, if_neg (by decide), if_pos ⟨rfl, by omega⟩, hq, hr]

/-! ### Changes of one unit -/

theorem modBerth_onlyBerth (s : State) (b : Nat) (f : Berth → Berth) : s.onlyBerth b (s.modBerth b f) :=
  ⟨rfl, fun j hj => by simp [hj]⟩

theorem modBerth_berth_self (s : State) (b : Nat) (f : Berth → Berth) : (s.modBerth b f).berth b = f (s.berth b) := by
  simp

theorem modHarbour_onlyHarbour (s : State) (h : Nat) (f : Hbr → Hbr) : s.onlyHarbour h (s.modHarbour h f) :=
  ⟨rfl, fun j hj => by simp [hj]⟩

/-! ### Registers of the berth windows -/

/-- A write at quadword 0 of a sounding slot that the berth's image names clears DRIFT where bit 33 is 1; without CLEAR
(bit 34) it leaves all else (Table 8.2). -/
theorem writeWindow_slot {s : State} {b k : Nat} {w : RegWrite} (hc : (s.berth b).layout.configured = true) (hk : k < 256)
    (hq : (slotQueue (s.imageOf b) k).isSome = true) (hclear : bit w.hit 34 = false) :
    writeWindow b (0x8000 + 32 * k) w s = s.modSlot b k (fun x => { x with drift := x.drift && !bit w.hit 33 }) := by
  have slot : (0x8000 + 32 * k - 0x8000) / 32 = k := by omega
  have named : ¬ ((0x8000 + 32 * k) % 32 ≠ 0 ∨ (slotQueue (s.imageOf b) k).isNone = true) := by
    rw [Option.isNone_eq_false_iff.mpr hq]
    have : (0x8000 + 32 * k) % 32 = 0 := by omega
    simp [this]
  unfold writeWindow
  simp only [hc, slot, hclear, if_neg named, if_pos (show 0x8000 ≤ 0x8000 + 32 * k ∧ 0x8000 + 32 * k < 0xA000 by omega),
    if_neg (show ¬ 0x8000 + 32 * k < 0x4000 by omega), if_neg (show ¬ 0x8000 + 32 * k < 0x6000 by omega),
    if_neg (show ¬ 0x8000 + 32 * k = 0x7F00 by omega), Bool.not_true, Bool.false_eq_true, if_false]

theorem writeWindow_recipeSel {s : State} {b : Nat} (hc : (s.berth b).layout.configured = true) (w : RegWrite) :
    writeWindow b 0xA500 w s = s.modBerth b (fun t => { t with recipeSel := BitVec.ofNat 64 w.v }) := by
  simp [writeWindow, hc]

theorem writeWindow_epochErr {s : State} {b : Nat} (hc : (s.berth b).layout.configured = true) (w : RegWrite) :
    writeWindow b 0xA100 w s = s.modEpochs b (fun e => { e with
      notLive := e.notLive && !bit w.hit 0, notHeld := e.notHeld && !bit w.hit 1
      pubFull := e.pubFull && !bit w.hit 2, refsFull := e.refsFull && !bit w.hit 3 }) := by
  simp [writeWindow, hc]

theorem modSlot_slot (s : State) (b k j : Nat) (f : Slot → Slot) :
    look {} ((s.modSlot b k f).berth b).slots j =
      if j = k then f (look {} (s.berth b).slots k) else look {} (s.berth b).slots j := by
  simp [State.modSlot]

/-- Settles O19: each register in turn, through the arm of the register map that its offset selects. -/
theorem registerWritesFollowTheirCodes : Obligations.RegisterWritesFollowTheirCodes := by
  unfold Obligations.RegisterWritesFollowTheirCodes
  intro s v hv
  refine ⟨registerWrite_quad rfl hv ?base2, registerWrite_quad rfl hv ?preempt,
    fun hgap => registerWrite_upper rfl ?preemptUpper, registerWrite_quad rfl hv ?clkFault,
    registerWrite_quad rfl hv ?powerLimit, fun hf => registerWrite_quad rfl hv ?harbour,
    fun b hb hc => ⟨registerWrite_quad (by omega) hv ?recipeSel,
      fun hclear k hk hq => registerWrite_quad (by omega) hv ?drift, registerWrite_quad (by omega) hv ?epochErrors⟩⟩
  case base2 => rfl
  case preempt => simp [writeReg_preempt, field]
  case preemptUpper =>
    rw [writeReg_preempt, field_setField_upper, readReg_preempt s hgap, bit_setField_upper]
  case clkFault => rfl
  case powerLimit => simp [writeReg_power, field]
  case harbour =>
    rw [writeReg_harbour hf]
    exact ⟨modHarbour_onlyHarbour .., by simp⟩
  case recipeSel =>
    rw [writeReg_window hb (by omega), writeWindow_recipeSel hc]
    exact ⟨modBerth_onlyBerth .., modBerth_berth_self ..⟩
  case drift =>
    rw [show 0x10000 * b + 0x8000 + 32 * k = 0x10000 * b + (0x8000 + 32 * k) by omega,
      writeReg_window hb (by omega), writeWindow_slot hc hk hq hclear]
    refine ⟨modBerth_onlyBerth .., ⟨_, modBerth_berth_self ..⟩, ?_, fun j hj => ?_⟩
    · rw [modSlot_slot, if_pos rfl]
    · rw [modSlot_slot, if_neg hj]
  case epochErrors =>
    rw [writeReg_window hb (by omega), writeWindow_epochErr hc]
    exact ⟨modBerth_onlyBerth .., modBerth_berth_self ..⟩

end Sys2Proof.Machine
end

section
/-! SUPPORT. Domain commands (19_tidewatch.md R460, Tables 19.3, 19.12): what gating and ungating a domain changes, and how a
command runs where none waits. -/
namespace Sys2Proof.Machine

/-! ### Bits of a bit vector -/

/-- A bit reads as it was set, where the vector has it; every other bit reads as before. -/
theorem bitOf_setBit {w : Nat} (v : BitVec w) (i j : Nat) (on : Bool) :
    bitOf (setBit v i on) j = if j = i then on && decide (i < w) else bitOf v j := by
  have pow : (BitVec.ofNat w (2 ^ i)).getLsbD j = (decide (j < w) && decide (i = j)) := by
    rw [BitVec.getLsbD_ofNat, Nat.testBit_two_pow]
  have out : v.getLsbD j = (v.getLsbD j && decide (j < w)) := by
    by_cases hj : j < w
    · simp [hj]
    · simp [BitVec.getLsbD_of_ge v j (by omega)]
  cases on with
  | true =>
    simp only [bitOf, setBit, if_true, BitVec.getLsbD_or, pow, Bool.true_and]
    by_cases h : j = i
    · subst h; rw [out]; cases v.getLsbD j <;> simp
    · simp [h, Ne.symm h]
  | false =>
    simp only [bitOf, setBit, Bool.false_eq_true, if_false, BitVec.getLsbD_and, BitVec.getLsbD_not, pow, Bool.false_and]
    by_cases h : j = i
    · subst h; simp
    · rw [if_neg h, out]; simp [Ne.symm h]

/-! ### What a kill and a port leave alone -/

theorem settle_twc (s : State) : (settle s).twc = s.twc := by
  rw [(settle_readiness s).1]

theorem sent_twc {s t : State} (h : s.sent t) : t.twc = s.twc := by rw [h]

theorem sent_stored {s t : State} (h : s.sent t) : t.stored = s.stored := by rw [h]; rfl

theorem stored_mem_units {s t : State} (h : t.stored = s.stored) : t.mem = s.mem ∧ t.units = s.units := by
  simp only [State.stored, Prod.mk.injEq] at h
  exact ⟨h.1, h.2.1⟩

theorem endedRun_stored {s t : State} {q code detail word : Nat} {stop : Bool} (h : s.endedRun q code detail word stop t) :
    t.stored = s.stored := by
  obtain ⟨-, -, -, -, -, -, -, -, -, -, hmem, hunits, htrays, hsyncs⟩ := h
  simp only [State.stored, hmem, hunits, htrays, hsyncs]

/-- A kill undoes no stored byte (R53). -/
theorem killQueue_stored (q detail : Nat) (s : State) : (killQueue q detail s).stored = s.stored := by
  unfold killQueue
  dsimp only
  split
  · cases hl : (s.run q).landed with
    | true => simp [faultRun, hl]
    | false => exact endedRun_stored (faultRun_ends _ _ _ _ _ _ hl)
  · rfl

theorem killAll_stored (qs : List Nat) (detail : Nat) (s : State) : (killAll qs detail s).stored = s.stored :=
  forEach_same State.stored _ (fun q t => killQueue_stored q detail t) qs s

theorem trainPort_sent (p : Nat) (s : State) : s.sent (trainPort p s) := by
  unfold trainPort
  dsimp only
  split <;> rfl

theorem portOff_sent (p : Nat) (s : State) : s.sent (portOff p s) :=
  State.sent.trans (t := s.setPort p _) rfl
    (State.sent.trans (t := (s.setPort p _).setPort p _) rfl (forEach_sent (fun _ _ => route_sent ..) _ _))

theorem drainPort_sent (p : Nat) (s : State) : s.sent (drainPort p s) := by
  unfold drainPort
  split
  · rfl
  · exact portOff_sent p s
  · exact portOff_sent p s
  · rfl

/-! ### Gating -/

theorem setGated_stored (d : Nat) (on : Bool) (s : State) : (setGated d on s).stored = s.stored := rfl

theorem setGated_gates {d : Nat} (hd : d < 384) (s : State) : bitOf (setGated d true s).twc.gated d = true := by
  simp [setGated, bitOf_setBit, hd]

theorem dropHold_stored (cores : List Nat) (s : State) : (dropHold cores s).stored = s.stored :=
  forEach_same State.stored (fun c t => t.modCluster (c / 8) (fun k => { k with held := k.held.filter (· ≠ c) }))
    (fun _ _ => rfl) cores s

theorem dropHold_outside {d : Nat} (hd : 288 ≤ d) (s : State) : dropHold (domainCores d) s = s := by
  rw [domainCores, if_neg (by omega), if_neg (by omega)]
  rfl

theorem gateCore_stored (c : Nat) (s : State) : (gateCore c s).stored = s.stored :=
  (setGated_stored c true _).trans (killAll_stored ..)

theorem killCodec_stored (e detail : Nat) (s : State) : (killCodec e detail s).stored = s.stored := by
  unfold killCodec
  split
  · exact killQueue_stored ..
  · rfl

theorem killCodec_idle {e : Nat} {s : State} (h : (s.codecEng e).busy = false) (detail : Nat) : killCodec e detail s = s := by
  simp [killCodec, h]

/-- Gating a domain undoes no stored byte. -/
theorem startGate_stored (d : Nat) (s : State) : (startGate d s).stored = s.stored := by
  have hold := dropHold_stored (domainCores d) s
  unfold startGate
  dsimp only
  generalize dropHold (domainCores d) s = u at hold
  rw [← hold]
  split_ifs
  · rfl
  · exact gateCore_stored d u
  · refine (setGated_stored d true _).trans (forEach_same State.stored _ (fun c t => ?_) _ u)
    split
    · rfl
    · exact gateCore_stored c t
  · rfl
  · exact (setGated_stored d true _).trans (killCodec_stored ..)
  · rfl
  · exact (sent_stored (forEach_sent drainPort_sent _ _)).trans (setGated_stored d true u)
  · rfl

/-- A domain that a command gates is out of service from then on. -/
theorem startGate_gates {d : Nat} (hd : d < 384) (s : State) : bitOf (startGate d s).twc.gated d = true := by
  unfold startGate
  dsimp only
  generalize dropHold (domainCores d) s = u
  split_ifs with hstays
  · exact (Bool.and_eq_true_iff.mp hstays).1
  · exact setGated_gates hd _
  · exact setGated_gates hd _
  · exact setGated_gates hd _
  · exact setGated_gates hd _
  · exact setGated_gates hd _
  · rw [sent_twc (forEach_sent drainPort_sent _ _)]
    exact setGated_gates hd u
  · exact setGated_gates hd _

/-- Of a codec engine that is idle, and of a stack, gating changes the domain's bits alone. -/
theorem startGate_plain {d : Nat} {s : State} (h1 : 304 ≤ d) (h2 : d < 352) (hg : bitOf s.twc.gated d = false)
    (idle : d < 320 → (s.codecEng ((d - 304) % 8)).busy = false) : startGate d s = setGated d true s := by
  have stays : staysGated s d = false := by simp [staysGated, hg]
  simp only [startGate, dropHold_outside (show 288 ≤ d by omega), stays, Bool.false_eq_true, if_false,
    if_neg (show ¬ d < 256 by omega), if_neg (show ¬ d < 288 by omega), if_neg (show ¬ d < 304 by omega)]
  by_cases hc : d < 320
  · rw [if_pos hc, killCodec_idle (idle hc)]
  · rw [if_neg hc, if_pos h2]

theorem gatingDone_plain {d : Nat} (h1 : 304 ≤ d) (h2 : d < 352) (s : State) : gatingDone s d = true := by
  rw [gatingDone, if_neg (by omega), domainCores, if_neg (by omega), if_neg (by omega)]
  rfl

/-! ### Ungating -/

/-- Of Tidewatch's registers, a domain that is back in service changes its own bits alone. -/
theorem ungate_twc (d : Nat) (s : State) : (ungate d s).twc = { s.twc with
    gated := setBit s.twc.gated d false, ungating := s.twc.ungating.filter (· ≠ d) } := by
  unfold ungate
  dsimp only
  split_ifs
  · rfl
  · rw [sent_twc (forEach_sent trainPort_sent _ _)]; rfl
  · rfl

theorem ungate_stored (d : Nat) (s : State) : (ungate d s).stored = s.stored := by
  unfold ungate
  dsimp only
  split_ifs
  · rfl
  · exact (sent_stored (forEach_sent trainPort_sent _ _)).trans (setGated_stored d false s)
  · rfl

/-- The fabric of a core is back in service with it (Table 19.3). -/
def ungateFabric (d : Nat) (s : State) : State :=
  if d < 256 ∧ s.twc.ungating.contains (256 + d / 8) then ungate (256 + d / 8) s else s

theorem ungateFabric_twc (d : Nat) (s : State) : (ungateFabric d s).twc = { s.twc with
    gated := (ungateFabric d s).twc.gated, ungating := (ungateFabric d s).twc.ungating } := by
  unfold ungateFabric
  split
  · rw [ungate_twc]
  · rfl

theorem ungateFabric_gated (d e : Nat) (s : State) : bitOf (ungateFabric d s).twc.gated e =
    if (d < 256 ∧ s.twc.ungating.contains (256 + d / 8)) ∧ e = 256 + d / 8 then false else bitOf s.twc.gated e := by
  unfold ungateFabric
  split
  · next h => simp only [ungate_twc, bitOf_setBit, Bool.false_and, and_iff_right h]
  · next h => rw [if_neg (fun k => h k.1)]

theorem ungateFabric_stored (d : Nat) (s : State) : (ungateFabric d s).stored = s.stored := by
  unfold ungateFabric
  split
  · exact ungate_stored ..
  · rfl

/-- A command on a domain that is done is no longer in progress (R460). -/
def endCommand (d : Nat) (s : State) : State :=
  if s.twc.domBusy = some d then s.modTwc (fun t => { t with domBusy := none }) else s

theorem endCommand_twc (d : Nat) (s : State) : (endCommand d s).twc = { s.twc with
    domBusy := if s.twc.domBusy = some d then none else s.twc.domBusy } := by
  unfold endCommand
  split <;> rfl

theorem endCommand_stored (d : Nat) (s : State) : (endCommand d s).stored = s.stored := by
  unfold endCommand
  split <;> rfl

/-- The state when an ungate time has passed: the domain is back, and the command that waited for it is done. -/
def bringBack (d : Nat) (s : State) : State := endCommand d (ungate d (ungateFabric d s))

theorem bringBack_twc (d : Nat) (s : State) : (bringBack d s).twc = { s.twc with
    gated := setBit (ungateFabric d s).twc.gated d false, ungating := (ungateFabric d s).twc.ungating.filter (· ≠ d)
    domBusy := if s.twc.domBusy = some d then none else s.twc.domBusy } := by
  rw [bringBack, endCommand_twc, ungate_twc, ungateFabric_twc]

/-- A returning domain takes itself off the gated domains, and its fabric where that returns with it. -/
theorem bringBack_gated (d e : Nat) (s : State) : bitOf (bringBack d s).twc.gated e =
    if e = d then false else bitOf (ungateFabric d s).twc.gated e := by
  simp only [bringBack_twc, bitOf_setBit, Bool.false_and]

theorem bringBack_ungating (d : Nat) (s : State) : d ∉ (bringBack d s).twc.ungating := by
  rw [bringBack_twc]
  simp

theorem bringBack_stored (d : Nat) (s : State) : (bringBack d s).stored = s.stored :=
  (endCommand_stored d _).trans ((ungate_stored d _).trans (ungateFabric_stored d s))

/-- A codec engine's return, or a stack's, changes the domain's bits and ends its command. -/
theorem bringBack_plain {d : Nat} {s : State} (h1 : 304 ≤ d) (h2 : d < 352) (hb : s.twc.domBusy = some d) :
    bringBack d s = (setGated d false s).modTwc (fun t => { t with domBusy := none }) := by
  have fabric : ungateFabric d s = s := if_neg (by omega)
  have plain : ungate d s = setGated d false s := by
    simp only [ungate, if_neg (show ¬ (288 ≤ d ∧ d < 304) by omega), if_neg (show ¬ (352 ≤ d ∧ d < 368) by omega)]
  rw [bringBack, fabric, plain]
  exact if_pos hb

/-! ### Commands -/

theorem runDomains_busy {s : State} (h : s.twc.domBusy ≠ none) (k : Nat) : runDomains k s = s := by
  cases k with
  | zero => rfl
  | succ k => rw [runDomains, if_pos h]

/-- With no command waiting, none starts. -/
theorem runDomains_empty {s : State} (h : s.twc.domQ = []) (k : Nat) : runDomains k s = s := by
  cases k with
  | zero => rfl
  | succ k => simp [runDomains, h]

theorem execDomainUngateDone_notDue {d : Nat} {s : State} (hu : s.twc.ungating.contains d = false)
    (hb : s.twc.domBusy ≠ some d) : exec (.domainUngateDone d) s = .next s := by
  change execDomainUngateDone d s = _
  rw [execDomainUngateDone, if_neg (Bool.eq_false_iff.mp hu), if_neg hb]

theorem execDomainUngateDone_gating {d : Nat} {s : State} (hu : s.twc.ungating.contains d = false)
    (hb : s.twc.domBusy = some d) : exec (.domainUngateDone d) s = .next (checkGating s) := by
  change execDomainUngateDone d s = _
  rw [execDomainUngateDone, if_neg (Bool.eq_false_iff.mp hu), if_pos hb]

/-- With no command waiting, the passing of an ungate time brings the domain back. -/
theorem execDomainUngateDone_due {d : Nat} {s : State} (h : s.twc.ungating.contains d = true) (hq : s.twc.domQ = []) :
    exec (.domainUngateDone d) s = .next (settle (bringBack d s)) := by
  have empty : (bringBack d s).twc.domQ = [] := by rw [bringBack_twc, hq]
  change execDomainUngateDone d s = _
  rw [execDomainUngateDone, if_pos h]
  change Host.Outcome.next (settle (runDomains (bringBack d s).twc.domQ.length (bringBack d s))) = _
  rw [runDomains_empty empty]

/-- A command that waits alone is taken from the queue and leaves the state as it was before it was written. -/
theorem domQ_taken {s : State} (hq : s.twc.domQ = []) (x : Nat × Bool) :
    (s.modTwc (fun t => { t with domQ := t.domQ ++ [x] })).modTwc (fun t => { t with domQ := [] }) = s := by
  simp only [State.modTwc, ← hq]

theorem domainCmd_ignored {d : Nat} (hd : 378 ≤ d) (gate : Bool) (s : State) : domainCmd d gate s = s :=
  if_neg (by omega)

theorem domainCmd_waits {d e : Nat} {s : State} (hd : d < 378) (hb : s.twc.domBusy = some e) (gate : Bool) :
    domainCmd d gate s = settle (s.modTwc (fun t => { t with domQ := t.domQ ++ [(d, gate)] })) := by
  unfold domainCmd
  dsimp only
  rw [if_pos hd, runDomains_busy (by simp [hb])]

theorem domainCmd_refused {d why : Nat} {gate : Bool} {s : State} (hd : d < 378) (hb : s.twc.domBusy = none)
    (hq : s.twc.domQ = []) (hr : domainRefusal s d gate = some why) :
    domainCmd d gate s =
      settle (s.modTwc (fun t => { t with errDomain := d, errWhy := why, errRefused := satAdd 32 t.errRefused 1 })) := by
  have taken := domQ_taken hq (d, gate)
  unfold domainCmd
  rw [if_pos hd]
  simp only [modTwc_twc, hq, List.nil_append, List.length_singleton, runDomains, hb, taken, hr, ne_eq,
    not_true_eq_false, if_false]

/-- A command that finds none in progress or waiting, and may be done, starts as soon as it is written. -/
theorem domainCmd_starts {d : Nat} {gate : Bool} {s : State} (hd : d < 378) (hb : s.twc.domBusy = none)
    (hq : s.twc.domQ = []) (hr : domainRefusal s d gate = none) :
    domainCmd d gate s = settle (
      if gate then
        if gatingDone (startGate d s) d then startGate d s else (startGate d s).modTwc (fun t => { t with domBusy := some d })
      else if bitOf s.twc.gated d then
        s.modTwc (fun t => { t with domBusy := some d, ungating := (t.ungating ++ ungateSet s d).eraseDups })
      else s) := by
  have taken := domQ_taken hq (d, gate)
  unfold domainCmd
  rw [if_pos hd]
  simp only [modTwc_twc, hq, List.nil_append, List.length_singleton, runDomains, hb, taken, hr, ne_eq,
    not_true_eq_false, if_false]

/-- A gating that has done its part ends its command. -/
theorem checkGating_done {d : Nat} {s : State} (hb : s.twc.domBusy = some d) (hu : s.twc.ungating.contains d = false)
    (hg : bitOf s.twc.gated d = true) (hdone : gatingDone s d = true) (hq : s.twc.domQ = []) :
    checkGating s = settle (s.modTwc (fun t => { t with domBusy := none })) := by
  simp [checkGating, hb, hg, hdone, show d ∉ s.twc.ungating by simpa using hu, runDomains_empty, hq]

theorem checkGating_waits {d : Nat} {s : State} (hb : s.twc.domBusy = some d)
    (h : bitOf s.twc.gated d = false ∨ gatingDone s d = false) : checkGating s = s := by
  rcases h with h | h <;> simp [checkGating, hb, h]

theorem exec_domainCmd (s : State) (d : Nat) (gate : Bool) :
    exec (if gate then .domainGate d else .domainUngate d) s = .next (domainCmd d gate s) := by
  cases gate with
  | true => rfl
  | false => rfl

/-- A command that answers a state with its readiness brought up to date. -/
theorem yields_settled {c : Instr} {s u : State} (h : exec c s = .next (settle u)) :
    Yields c s (fun t => ∃ v : State, v.sameButReadiness t ∧ v = u) :=
  ⟨_, h, u, settle_readiness u, rfl⟩

/-- Settles O46: a command waits, is refused, or starts; a gating that starts leaves the domain's bit set and every stored
byte as it was, and the passing of an ungate time clears the bits of the domain and of its fabric alone. -/
theorem domainsGateAndUngate : Obligations.DomainsGateAndUngate := by
  unfold Obligations.DomainsGateAndUngate
  rintro s d gate c rfl
  have cmd := exec_domainCmd s d gate
  refine ⟨fun hd => ?ignored, fun hd ⟨e, hb⟩ => ?waits, fun why hd hb hq hr => ?refused, fun hb hq hr =>
    ⟨fun hgate hd => ?gates, fun hgate h1 h2 hg idle => ?gatesPlain, fun hgate hd hg => ?ungates, fun hgate hd hg => ?inService⟩,
    fun hu hb => ?notDue, fun hu hb => ⟨fun hg hdone hq => ?gatingEnds, fun h => ?gatingWaits⟩, fun hu hq => ?returns,
    fun h1 h2 hu hb hq => ?returnsPlain⟩
  case ignored => rw [cmd, domainCmd_ignored hd]
  case waits => exact yields_settled (cmd.trans (congrArg _ (domainCmd_waits hd hb gate)))
  case refused => exact yields_settled (cmd.trans (congrArg _ (domainCmd_refused hd hb hq hr)))
  case gates =>
    subst hgate
    have run := domainCmd_starts hd hb hq hr
    rw [if_pos rfl] at run
    refine ⟨_, cmd.trans (congrArg _ run), _, settle_readiness _, rfl, ?_, ?_⟩
    · rw [settle_twc]
      split <;> exact startGate_gates (by omega) s
    · have stored : (if gatingDone (startGate d s) d then startGate d s
          else (startGate d s).modTwc (fun t => { t with domBusy := some d })).stored = s.stored := by
        split <;> exact startGate_stored d s
      exact stored_mem_units ((settle_stored _).trans stored)
  case gatesPlain =>
    subst hgate
    have run := domainCmd_starts (by omega) hb hq hr
    rw [if_pos rfl, startGate_plain h1 h2 hg idle, if_pos (gatingDone_plain h1 h2 _)] at run
    exact yields_settled (cmd.trans (congrArg _ run))
  case ungates =>
    subst hgate
    have run := domainCmd_starts hd hb hq hr
    rw [if_neg Bool.false_ne_true, if_pos hg] at run
    exact yields_settled (cmd.trans (congrArg _ run))
  case inService =>
    subst hgate
    have run := domainCmd_starts hd hb hq hr
    rw [if_neg Bool.false_ne_true, if_neg (Bool.eq_false_iff.mp hg)] at run
    exact ⟨_, cmd.trans (congrArg _ run), settle_readiness s⟩
  case notDue => exact execDomainUngateDone_notDue hu hb
  case gatingEnds =>
    exact yields_settled ((execDomainUngateDone_gating hu hb).trans (congrArg _ (checkGating_done hb hu hg hdone hq)))
  case gatingWaits => rw [execDomainUngateDone_gating hu hb, checkGating_waits hb h]
  case returns =>
    refine ⟨_, execDomainUngateDone_due hu hq, ?_⟩
    simp only [settle_twc]
    refine ⟨?_, bringBack_ungating d s, fun hd hf => ?_, fun e hed hef => ?_, ?_, ?_⟩
    · rw [bringBack_gated, if_pos rfl]
    · rw [bringBack_gated, if_neg (by omega), ungateFabric_gated, if_pos ⟨⟨hd, hf⟩, rfl⟩]
    · rw [bringBack_gated, if_neg hed, ungateFabric_gated, if_neg (fun h => hef h.2)]
    · rw [bringBack_twc]
    · exact stored_mem_units ((settle_stored _).trans (bringBack_stored d s))
  case returnsPlain =>
    exact yields_settled ((execDomainUngateDone_due hu hq).trans
      (congrArg (fun u => Host.Outcome.next (settle u)) (bringBack_plain h1 h2 hb)))

end Sys2Proof.Machine
end

section
/-! SUPPORT. The units of a fenced half (01_the_part.md R28): what their registers read, and that no write of one changes
anything. -/
namespace Sys2Proof.Machine

/-! ### Each unit -/

theorem doorbellOpen_closed {s : State} {q : Nat} (h : (s.queue q).state = .disabled ∨ s.fenced (queueHalf q) = true) :
    doorbellOpen s q = false := by
  rcases h with h | h <;> simp [doorbellOpen, h]

theorem readDoorbell_closed {s : State} {q : Nat} (h : doorbellOpen s q = false) : readDoorbell s q = 0 :=
  if_neg (Bool.eq_false_iff.mp h)

theorem ringDoorbell_closed {s : State} {q : Nat} (h : doorbellOpen s q = false) (v : Nat) (low : Bool) :
    ringDoorbell q v low s = s := if_neg (Bool.eq_false_iff.mp h)

theorem readContext_fenced {s : State} {q : Nat} (h : s.fenced (queueHalf q) = true) (w : Nat) : readContext s q w = 0 :=
  if_pos h

theorem readSync_fenced {s : State} {i : Nat} (h : s.fenced (syncHalf i) = true) (second : Bool) :
    readSync s i second = 0 := if_pos h

theorem writeSync_fenced {s : State} {i : Nat} (h : s.fenced (syncHalf i) = true) (second window : Bool) (w : RegWrite) :
    writeSync i second window w s = s := if_pos (by simp [h])

/-! ### Where the units stand in BAR0 (Table 1.7) -/

/-- The address is that of a unit of a fenced half. -/
def inFencedUnit (s : State) (a : Nat) : Prop :=
  (0x100000 ≤ a ∧ a < 0x500000 ∧ s.fenced (queueHalf ((a - 0x100000) / 8)) = true) ∨
    (0x500000 ≤ a ∧ a < 0x540000 ∧ s.fenced (syncHalf ((a - 0x500000) / 16)) = true) ∨
    (0x600000 ≤ a ∧ a < 0x700000 ∧ s.fenced (coreHalf ((a - 0x600000) / 0x1000)) = true) ∨
    (0x700000 ≤ a ∧ a < 0x780000 ∧ s.fenced (clusterHalf ((a - 0x700000) / 0x4000)) = true) ∨
    (0x800000 ≤ a ∧ a < 0x820000 ∧ s.fenced ((a - 0x800000) / 0x10000) = true) ∨
    (0x900000 ≤ a ∧ a < 0x980000 ∧ s.fenced ((a - 0x900000) / 0x4000 / 16) = true) ∨
    (0xB00000 ≤ a ∧ a < 0xB40000 ∧ s.fenced (portHalf ((a - 0xB00000) / 0x1000)) = true) ∨
    (0xC00000 ≤ a ∧ a < 0xC20000 ∧ s.fenced ((a - 0xC00000) / 0x4000 / 4) = true)

/-- A register stands in the same unit as each of its bytes. -/
theorem inFencedUnit_register (s : State) (a : Nat) : inFencedUnit s (a / 8 * 8) ↔ inFencedUnit s a := by
  have above : ∀ b, b % 8 = 0 → (b ≤ a / 8 * 8 ↔ b ≤ a) := by omega
  have below : ∀ b, b % 8 = 0 → (a / 8 * 8 < b ↔ a < b) := by omega
  have unit : ∀ b k, b % 8 = 0 → k % 8 = 0 → (a / 8 * 8 - b) / k = (a - b) / k := fun b k hb hk => by
    obtain ⟨j, rfl⟩ := Nat.dvd_of_mod_eq_zero hk
    rw [← Nat.div_div_eq_div_mul, ← Nat.div_div_eq_div_mul, show (a / 8 * 8 - b) / 8 = (a - b) / 8 by omega]
  unfold inFencedUnit
  simp (disch := decide) only [above, below, unit]

theorem readBar0_fenced {s : State} {a : Nat} (h : inFencedUnit s a) : readBar0 s a = 0 := by
  unfold inFencedUnit at h
  rcases h with ⟨h1, h2, hf⟩ | ⟨h1, h2, hf⟩ | ⟨h1, h2, hf⟩ | ⟨h1, h2, hf⟩ | ⟨h1, h2, hf⟩ | ⟨h1, h2, hf⟩ | ⟨h1, h2, hf⟩ |
    ⟨h1, h2, hf⟩
  all_goals simp (disch := omega) only [readBar0, if_neg, if_pos]
  case inl => exact readDoorbell_closed (doorbellOpen_closed (.inr hf))
  case inr.inl => exact readSync_fenced hf _
  case inr.inr.inl => exact if_pos hf
  case inr.inr.inr.inl => exact if_pos hf
  case inr.inr.inr.inr.inl => exact if_pos hf
  case inr.inr.inr.inr.inr.inl => exact if_pos hf
  case inr.inr.inr.inr.inr.inr.inl => exact if_pos hf
  case inr.inr.inr.inr.inr.inr.inr => exact if_pos hf

theorem writeBar0_fenced {s : State} {a : Nat} (h : inFencedUnit s a) (w : RegWrite) : writeBar0 a w s = s := by
  unfold inFencedUnit at h
  rcases h with ⟨h1, h2, hf⟩ | ⟨h1, h2, hf⟩ | ⟨h1, h2, hf⟩ | ⟨h1, h2, hf⟩ | ⟨h1, h2, hf⟩ | ⟨h1, h2, hf⟩ | ⟨h1, h2, hf⟩ |
    ⟨h1, h2, hf⟩
  all_goals simp (disch := omega) only [writeBar0, if_neg, if_pos]
  case inl => exact ringDoorbell_closed (doorbellOpen_closed (.inr hf)) _ _
  case inr.inl => exact writeSync_fenced hf _ _ _
  case inr.inr.inr.inl => exact if_pos hf
  case inr.inr.inr.inr.inl => exact if_pos hf
  case inr.inr.inr.inr.inr.inl => exact if_pos hf
  case inr.inr.inr.inr.inr.inr.inl => exact if_pos hf

/-! ### Accesses -/

theorem readAccess_fenced {s : State} {a : Nat} (h : inFencedUnit s a) (size : Nat) : readAccess s 0 a size = 0 := by
  have reg : readReg s 0 (a / 8 * 8) = 0 := readBar0_fenced ((inFencedUnit_register s a).mpr h)
  have quad : readReg s 0 a = 0 := readBar0_fenced h
  simp only [readAccess, reg, quad, field, Nat.zero_div, Nat.zero_mod, ite_self]

theorem writeAccess_fenced {s : State} {a : Nat} (h : inFencedUnit s a) (size v : Nat) : writeAccess 0 a size v s = s := by
  have reg : ∀ w, writeReg 0 (a / 8 * 8) w s = s := writeBar0_fenced ((inFencedUnit_register s a).mpr h)
  have quad : ∀ w, writeReg 0 a w s = s := writeBar0_fenced h
  simp only [writeAccess, reg, quad, ite_self]

/-- The Tidewatch unit of half h (Table 1.7). -/
theorem twcUnit {h o : Nat} (hh : h < 2) (ho : o < 0x10000) (s : State) :
    readReg s 0 (0xD00000 + 0x10000 * h + o) = readTwc s h o ∧
      ∀ w, writeReg 0 (0xD00000 + 0x10000 * h + o) w s = writeTwc h o w s := by
  have half : (0xD00000 + 0x10000 * h + o - 0xD00000) / 0x10000 = h := by omega
  have offset : (0xD00000 + 0x10000 * h + o) % 0x10000 = o := by omega
  refine ⟨?_, fun w => ?_⟩
  · change readBar0 s _ = _
    simp (disch := omega) only [readBar0, if_neg, if_pos, half, offset]
  · change writeBar0 _ w s = _
    simp (disch := omega) only [writeBar0, if_neg, if_pos, half, offset]

/-- Settles O18: an access to a fenced unit reaches, in every arm of the register map, the unit's own check of the fence. -/
theorem fencedUnitsAreSilent : Obligations.FencedUnitsAreSilent := by
  unfold Obligations.FencedUnitsAreSilent
  intro s a size v
  refine ⟨fun h => ?units, fun q hq => ?queues, fun i hi second window w => ?syncs, fun h o hh ho h8 => ?twc⟩
  case units => exact ⟨readAccess_fenced h size, congrArg Host.Outcome.next (writeAccess_fenced h size v)⟩
  case queues =>
    have closed := doorbellOpen_closed (.inr hq)
    exact ⟨readDoorbell_closed closed, readContext_fenced hq, ringDoorbell_closed closed v⟩
  case syncs => exact ⟨readSync_fenced hi second, writeSync_fenced hi second window w⟩
  case twc =>
    obtain ⟨reads, writes⟩ := twcUnit hh ho s
    have aligned : (0xD00000 + 0x10000 * h + o) % 8 = 0 := by omega
    refine ⟨(readAccess_quad s 0 aligned).trans reads, congrArg Host.Outcome.next ?_⟩
    rw [writeAccess, if_pos ⟨rfl, aligned⟩, writes]

end Sys2Proof.Machine
end

section
/-! SUPPORT. Stopped queues (02_kernels_commit.md R33, R58): RESUME, SKIP and CLR_EVENTS, and what passing a kernel over
leaves. -/
namespace Sys2Proof.Machine

/-! ### The first pending COMMIT -/

/-- Word i of the ring, from an index on, is a COMMIT. -/
def commitAt (s : State) (q start i : Nat) : Bool := decodeOp (s.ringWord q ((start + i) % 2 ^ 32)) = some .commit

theorem commitOffset_eq_find (s : State) (q start n i : Nat) :
    commitOffset s q start n i = (List.range' i n).find? (commitAt s q start) := by
  induction n generalizing i with
  | zero => rfl
  | succ n ih =>
    rw [commitOffset, List.range'_succ, List.find?_cons, ih]
    by_cases h : commitAt s q start i = true
    · rw [if_pos (by simpa [commitAt] using h), h]
    · rw [if_neg (by simpa [commitAt] using h), Bool.eq_false_iff.mpr h]

/-! ### Passing a kernel over -/

theorem forEach_onlyBerths {α : Type} {f : α → State → State} (h : ∀ a t, f a t = { t with berths := (f a t).berths })
    (l : List α) (s : State) : forEach l f s = { s with berths := (forEach l f s).berths } :=
  forEach_rel (R := fun s t => t = { s with berths := t.berths }) (fun _ => rfl)
    (fun s t u hst htu => by rw [htu, hst]) f h l s

theorem dropSamples_shape (q : Nat) (s : State) : dropSamples q s = { s with berths := (dropSamples q s).berths } :=
  forEach_onlyBerths (fun x t => by
    split
    · rfl
    · rfl) _ s

/-- The pending CLEARs and the transient references of a kernel end in its berth (R218, R236). -/
theorem endReferences_queue (q p : Nat) (s : State) : (applyClears q (dropSamples q s)).queue p = s.queue p := by
  rw [applyClears_shape, dropSamples_shape]
  rfl

theorem endReferences_run (q p : Nat) (s : State) : (applyClears q (dropSamples q s)).run p = s.run p := by
  rw [applyClears_shape, dropSamples_shape]
  rfl

theorem passOver_queue (q head p : Nat) (s : State) : (passOver q head s).queue p =
    if p = q then { s.queue q with head := head, state := .idle, skipWaiting := false } else s.queue p := by
  simp only [passOver, modQueue_eq, modBerth_eq, setQueue_queue, setRun_queue, setBerth_queue, endReferences_queue]

theorem passOver_run (q head p : Nat) (s : State) : (passOver q head s).run p =
    if p = q then { traysOut := (s.run q).traysOut } else s.run p := by
  simp only [passOver, modQueue_eq, modBerth_eq, setQueue_run, setRun_run, setBerth_run, endReferences_run]

theorem trySkip_first {s : State} {q i : Nat} (hi : i < pendingFrom (s.queue q) (s.queue q).kernelStart)
    (here : decodeOp (s.ringWord q (((s.queue q).kernelStart + i) % 2 ^ 32)) = some .commit)
    (first : ∀ j < i, decodeOp (s.ringWord q (((s.queue q).kernelStart + j) % 2 ^ 32)) ≠ some .commit) :
    trySkip q s = passOver q (((s.queue q).kernelStart + i + 1) % 2 ^ 32) s := by
  have found : commitOffset s q (s.queue q).kernelStart (pendingFrom (s.queue q) (s.queue q).kernelStart) 0 = some i := by
    rw [commitOffset_eq_find, ← List.range_eq_range', List.find?_range_eq_some]
    exact ⟨by simpa [commitAt] using here, by simpa using hi, fun j hj => by simpa [commitAt] using first j hj⟩
  unfold trySkip
  dsimp only
  rw [found]

theorem trySkip_none {s : State} {q : Nat}
    (h : ∀ i < pendingFrom (s.queue q) (s.queue q).kernelStart,
      decodeOp (s.ringWord q (((s.queue q).kernelStart + i) % 2 ^ 32)) ≠ some .commit) :
    trySkip q s = s.modQueue q (fun k => { k with skipWaiting := true }) := by
  have none_found : commitOffset s q (s.queue q).kernelStart (pendingFrom (s.queue q) (s.queue q).kernelStart) 0 = none := by
    rw [commitOffset_eq_find, ← List.range_eq_range', List.find?_range_eq_none]
    exact fun i hi => by simpa [commitAt] using h i hi
  unfold trySkip
  dsimp only
  rw [none_found]

/-! ### The doorbell's commands (R33) -/

theorem setQueue_only (s : State) (q : Nat) (v : QCtx) : s.onlyQueue q (s.setQueue q v) :=
  ⟨rfl, fun j hj => by simp [hj]⟩

theorem ringDoorbell_resume {s : State} {q : Nat} (h : doorbellOpen s q = true) :
    ringDoorbell q (2 ^ 32) false s = doResume q s := by
  rw [ringDoorbell, if_pos h]
  rfl

theorem ringDoorbell_skip {s : State} {q : Nat} (h : doorbellOpen s q = true) :
    ringDoorbell q (2 ^ 33) false s = doSkip q s := by
  rw [ringDoorbell, if_pos h]
  rfl

theorem ringDoorbell_clrEvents {s : State} {q : Nat} (h : doorbellOpen s q = true) :
    ringDoorbell q (2 ^ 34) false s = s.setQueue q { s.queue q with eventFlags := 0 } := by
  rw [ringDoorbell, if_pos h]
  rfl

theorem execTail_closed {s : State} {q : Nat} (h : doorbellOpen s q = false) (v : Nat) : exec (.tail q v) s = .next s := by
  change execTail q v s = _
  rw [execTail, if_neg (Bool.eq_false_iff.mp h)]

theorem doSkip_stopped {s : State} {q : Nat} (h : (s.queue q).state = .stopped) : doSkip q s = trySkip q s := if_pos h

theorem doResume_stopped {s : State} {q : Nat} (h : (s.queue q).state = .stopped) :
    doResume q s = s.setQueue q { s.queue q with state := .waiting, rerunCount := 0, skipWaiting := false } := if_pos h

/-- Settles O15: each command is one bit of a doorbell write; a SKIP finds the first pending COMMIT or waits. -/
theorem stoppedQueuesRestart : Obligations.StoppedQueuesRestart := by
  unfold Obligations.StoppedQueuesRestart
  refine ⟨fun s q ho => ⟨?clears, fun hs => ⟨?resumes, fun i hi here first => ?skips, fun none_pending => ?skipWaits⟩⟩,
    fun s q v hc => ?closed⟩
  case clears =>
    exact ⟨_, congrArg Host.Outcome.next (ringDoorbell_clrEvents ho), setQueue_only .., by simp⟩
  case resumes =>
    exact ⟨_, congrArg Host.Outcome.next ((ringDoorbell_resume ho).trans (doResume_stopped hs)), setQueue_only .., by simp⟩
  case skips =>
    have skip := (ringDoorbell_skip ho).trans ((doSkip_stopped hs).trans (trySkip_first hi here first))
    refine ⟨_, congrArg Host.Outcome.next skip, ?_, fun p hp => ⟨?_, ?_⟩, ?_, ?_⟩
    · rw [passOver_queue, if_pos rfl]
    · rw [passOver_queue, if_neg hp]
    · rw [passOver_run, if_neg hp]
    · rw [passOver_run, if_pos rfl]
    · rw [passOver_shape]
      exact ⟨rfl, rfl, rfl, rfl, rfl⟩
  case skipWaits =>
    have waits := (ringDoorbell_skip ho).trans ((doSkip_stopped hs).trans (trySkip_none none_pending))
    exact ⟨_, congrArg Host.Outcome.next waits, setQueue_only .., by simp⟩
  case closed =>
    have closed := doorbellOpen_closed hc
    exact ⟨execTail_closed closed v, congrArg Host.Outcome.next (ringDoorbell_closed closed _ _),
      congrArg Host.Outcome.next (ringDoorbell_closed closed _ _), congrArg Host.Outcome.next (ringDoorbell_closed closed _ _),
      readDoorbell_closed closed⟩

end Sys2Proof.Machine
end

section
/-! SUPPORT. Ports and routes (16_causeway.md R390, R407, R408): what ENABLE, the end of training and the end of a drain
change of a port, and what a write of a route changes of the tables. -/
namespace Sys2Proof.Machine

/-! ### States of one port -/

theorem State.onlyPort.refl (s : State) (p : Nat) : s.onlyPort p s := ⟨rfl, fun _ _ => rfl⟩

theorem setPort_only (s : State) (p : Nat) (v : Port) : s.onlyPort p (s.setPort p v) :=
  ⟨rfl, fun j hj => by simp [hj]⟩

theorem State.onlyPort.trans {s t u : State} {p : Nat} (h : s.onlyPort p t) (k : t.onlyPort p u) : s.onlyPort p u :=
  ⟨by rw [k.1, h.1], fun j hj => (k.2 j hj).trans (h.2 j hj)⟩

theorem portPowered_setPort (s : State) (p q : Nat) (v : Port) : portPowered (s.setPort q v) p = portPowered s p := rfl

theorem trainPort_only (p : Nat) (s : State) : s.onlyPort p (trainPort p s) := by
  unfold trainPort
  dsimp only
  split
  · exact setPort_only ..
  · exact .refl s p

/-- A port that is enabled and powered trains from OFF and from DOWN; in any other state it stays as it is. -/
theorem trainPort_port (p : Nat) (s : State) : (trainPort p s).port p =
    if (s.port p).enable = true ∧ portPowered s p = true ∧ ((s.port p).state = .off ∨ (s.port p).state = .down)
    then { s.port p with state := .training, locked := 0 } else s.port p := by
  simp only [trainPort, Bool.and_eq_true, Bool.or_eq_true, decide_eq_true_eq, and_assoc]
  split
  · simp
  · rfl

/-- A port without queued packets goes off alone. -/
theorem portOff_only {p : Nat} {s : State} (h : (s.port p).txq = []) : s.onlyPort p (portOff p s) := by
  have none_queued : ((s.modPort p (fun t => { t with state := .off, locked := 0, unacked := [] })).port p).txq = [] := by
    simpa using h
  unfold portOff reroute
  dsimp only
  rw [none_queued, forEach_nil]
  exact (setPort_only ..).trans (setPort_only ..)

theorem portOff_port {p : Nat} {s : State} (h : (s.port p).txq = []) : (portOff p s).port p =
    { s.port p with state := .off, locked := 0, unacked := [] } := by
  have none_queued : ((s.modPort p (fun t => { t with state := .off, locked := 0, unacked := [] })).port p).txq = [] := by
    simpa using h
  unfold portOff reroute
  dsimp only
  rw [none_queued, forEach_nil]
  simp [h]

theorem portPowered_sent {s t : State} (h : s.sent t) (p : Nat) : portPowered t p = portPowered s p := by rw [h]; rfl

/-! ### ENABLE (Table 16.7) -/

theorem writeEnable_fenced {p : Nat} {s : State} (h : s.fenced (portHalf p) = true) (on : Bool) : writeEnable p on s = s :=
  if_pos h

theorem writeEnable_on {p : Nat} {s : State} (h : s.fenced (portHalf p) = false) :
    writeEnable p true s = trainPort p (s.setPort p { s.port p with enable := true }) := by
  rw [writeEnable, if_neg (Bool.eq_false_iff.mp h)]
  rfl

theorem writeEnable_off {p : Nat} {s : State} (h : s.fenced (portHalf p) = false) :
    writeEnable p false s = drainPort p (s.setPort p { s.port p with enable := false }) := by
  rw [writeEnable, if_neg (Bool.eq_false_iff.mp h)]
  rfl

theorem drainPort_idle {p : Nat} {s : State} (h : (s.port p).state = .off ∨ (s.port p).state = .draining) :
    drainPort p s = s := by
  rcases h with h | h <;> simp [drainPort, h]

theorem drainPort_up {p : Nat} {s : State} (h : (s.port p).state = .up) :
    drainPort p s = s.setPort p { s.port p with state := .draining } := by
  simp [drainPort, h]

theorem drainPort_dark {p : Nat} {s : State} (h : (s.port p).state = .training ∨ (s.port p).state = .down) :
    drainPort p s = portOff p s := by
  rcases h with h | h <;> simp [drainPort, h]

/-! ### The end of training and of a drain (R390) -/

theorem sendPort_empty {p : Nat} {s : State} (h : (s.port p).txq = []) : sendPort p (s.port p).txq.length s = s := by
  rw [h]
  rfl

theorem execPortTrained_notDue {p : Nat} {s : State} (h : (s.port p).state ≠ .training ∨ portPowered s p = false)
    (peer pp : Nat) : exec (.portTrained p peer pp) s = .next s := by
  have notDue : ¬ ((s.port p).state = .training ∧ portPowered s p = true) := by
    rcases h with h | h <;> simp [h]
  change execPortTrained p peer pp s = _
  rw [execPortTrained, if_neg notDue]

theorem checkGating_idle {s : State} (h : s.twc.domBusy = none) : checkGating s = s := by
  simp [checkGating, h]

theorem endDrain_due {p : Nat} {s : State} (h : (s.port p).state = .draining) :
    endDrain p s = checkGating (trainPort p (portOff p s)) := if_pos h

theorem endDrain_notDue {p : Nat} {s : State} (h : (s.port p).state ≠ .draining) : endDrain p s = s := if_neg h

theorem execDrainEnd_fencing {p : Nat} {s : State} (hf : s.twc.fencing = some (portHalf p, true))
    (hs : (s.port p).state = .draining) : exec (.drainEnd p) s = .next (fenceStep (checkGating (portOff p s))) := by
  change execDrainEnd p s = _
  rw [execDrainEnd, hf]
  exact if_pos ⟨rfl, hs⟩

/-- Where no fence waits for the port's drain, the drain ends alone. -/
theorem execDrainEnd_alone {p : Nat} {s : State}
    (h : s.twc.fencing ≠ some (portHalf p, true) ∨ (s.port p).state ≠ .draining) :
    exec (.drainEnd p) s = .next (endDrain p s) := by
  change execDrainEnd p s = _
  unfold execDrainEnd
  split
  · next x hf =>
    refine if_neg fun ⟨half, draining⟩ => ?_
    rcases h with h | h
    · exact h (half ▸ hf)
    · exact h draining
  · rfl

/-! ### Routes (R408) -/

/-- An entry written at several keys reads as written there, and every other entry reads as before. -/
theorem look_forEach_put {α β : Type} [DecidableEq α] (d v : α) (key : β → Nat) (l : List β) (t : Tbl α) (k : Nat) :
    look d (forEach l (fun a u => put d u (key a) v) t) k = if ∃ a ∈ l, k = key a then v else look d t k := by
  induction l generalizing t with
  | nil => simp [forEach_nil]
  | cons a l ih =>
    rw [forEach_cons, ih, look_put]
    by_cases tail : ∃ b ∈ l, k = key b
    · rw [if_pos tail, if_pos (by simp [tail])]
    · rw [if_neg tail]
      exact if_congr (by simp [tail]) rfl rfl

theorem mem_halvesInService (s : State) (h : Nat) :
    h ∈ [0, 1].filter (fun h => !s.fenced h) ↔ h < 2 ∧ s.fenced h = false := by
  have two : h = 0 ∨ h = 1 ↔ h < 2 := by omega
  simp [two]

/-- A write of a route reaches the table of every half in service. -/
theorem writeRoute_written {s : State} {h : Nat} (lt : h < 2) (hf : s.fenced h = false) (v : Nat) :
    look {} (writeRoute v s).cwy.routes (routeKey h s.cwy.rtVl s.cwy.rtDst) =
      { primary := field v 0 6, priValid := bit v 6, alt := field v 8 6, altValid := bit v 14 } :=
  (look_forEach_put ..).trans (if_pos ⟨h, (mem_halvesInService s h).mpr ⟨lt, hf⟩, rfl⟩)

theorem writeRoute_others {s : State} {k : Nat}
    (hk : ∀ h < 2, s.fenced h = false → k ≠ routeKey h s.cwy.rtVl s.cwy.rtDst) (v : Nat) :
    look {} (writeRoute v s).cwy.routes k = look {} s.cwy.routes k :=
  (look_forEach_put ..).trans (if_neg fun ⟨h, mem, e⟩ =>
    hk h ((mem_halvesInService s h).mp mem).1 ((mem_halvesInService s h).mp mem).2 e)

/-- Settles O52: ENABLE sets its bit and then trains or drains the port; training and a drain end where they are due. -/
theorem portsFollowTheirStates : Obligations.PortsFollowTheirStates := by
  unfold Obligations.PortsFollowTheirStates
  intro s p
  refine ⟨fun hf => ?fenced, fun hf => ⟨?enable, ?disable, fun hs => ?idle, fun hs => ?up, fun hs hq => ?dark⟩,
    fun peer pp x hx hs hp => ?trained, fun peer pp h => execPortTrained_notDue h peer pp,
    fun hs => ⟨fun hfc => execDrainEnd_fencing hfc hs, fun hfc => ?drained⟩, fun hs => ?notDraining, fun v => ?route⟩
  case fenced =>
    exact ⟨congrArg Host.Outcome.next (writeEnable_fenced hf true), congrArg Host.Outcome.next (writeEnable_fenced hf false)⟩
  case enable =>
    refine ⟨_, congrArg Host.Outcome.next (writeEnable_on hf), (setPort_only ..).trans (trainPort_only p _), ?_⟩
    rw [trainPort_port, portPowered_setPort]
    simp
  case disable => exact congrArg Host.Outcome.next (writeEnable_off hf)
  case idle =>
    exact ⟨_, congrArg Host.Outcome.next ((writeEnable_off hf).trans (drainPort_idle (by simpa using hs))),
      setPort_only .., by simp⟩
  case up =>
    exact ⟨_, congrArg Host.Outcome.next ((writeEnable_off hf).trans (drainPort_up (by simpa using hs))),
      (setPort_only ..).trans (setPort_only ..), by simp⟩
  case dark =>
    have none_queued : ((s.setPort p { s.port p with enable := false }).port p).txq = [] := by simpa using hq
    refine ⟨_, congrArg Host.Outcome.next ((writeEnable_off hf).trans (drainPort_dark (by simpa using hs))),
      (setPort_only ..).trans (portOff_only none_queued), ?_⟩
    rw [portOff_port none_queued]
    simp
  case trained =>
    have sends : exec (.portTrained p peer pp) s = .next (sendPort p (s.port p).txq.length (s.setPort p x)) := by
      change execPortTrained p peer pp s = _
      rw [execPortTrained, if_pos ⟨hs, hp⟩, hx]
      simp
    refine ⟨sends, fun hq => ⟨_, sends, ?_⟩⟩
    rw [hq, List.length_nil, sendPort]
    exact ⟨setPort_only .., by simp⟩
  case drained =>
    have ends := (execDrainEnd_alone (.inl hfc)).trans (congrArg Host.Outcome.next (endDrain_due hs))
    refine ⟨ends, fun hb hq => ⟨_, ends, ?_⟩⟩
    have off := portOff_port hq
    have only := (portOff_only hq).trans (trainPort_only p _)
    rw [checkGating_idle (by rw [only.1]; exact hb)]
    refine ⟨only, ?_⟩
    rw [trainPort_port, portPowered_sent (portOff_sent p s), off]
    cases (s.port p).enable <;> cases portPowered s p <;> rfl
  case notDraining => exact (execDrainEnd_alone (.inr hs)).trans (congrArg Host.Outcome.next (endDrain_notDue hs))
  case route =>
    refine ⟨writeRoute v s, rfl, rfl, fun k => ⟨?_, fun hk => writeRoute_others hk v⟩⟩
    rintro ⟨h, lt, hf, rfl⟩
    exact writeRoute_written lt hf v

end Sys2Proof.Machine
end

section
/-! SUPPORT. Rows of the stacks' controllers (13_stacks.md R325, R332 to R335, R340): one channel's registers, the counting
of a corrected codeword, the delivery of a unit, its mark, and the pages that are retired with it. -/
namespace Sys2Proof.Machine

/-! ### One channel -/

theorem modChan_only (s : State) (k ch : Nat) (f : Chan → Chan) : s.onlyStack k (s.modChan k ch f) :=
  ⟨rfl, fun j hj => by simp [State.modChan, hj]⟩

@[simp] theorem modChan_chan (s : State) (k ch : Nat) (f : Chan → Chan) : (s.modChan k ch f).chan k ch = f (s.chan k ch) := by
  simp [State.chan, State.modChan]

/-! ### What a stack's work leaves alone -/

/-- What the memories hold, and what the queues run. -/
def State.contents (s : State) :
    Memory × Tbl UnitSt × List (Nat × List Byte) × Memory × Tbl Sync × Tbl Run × Tbl QCtx :=
  (s.mem, s.units, s.delivered, s.trays, s.syncs, s.runs, s.queues)

/-- The contents, with the units of a channel that await their second read and its count of corrected codewords. -/
def State.channelContents (s : State) (k ch : Nat) :=
  (s.contents, (s.chan k ch).rereads, (s.chan k ch).corrected)

theorem kept_contents {s t : State} (h : t.kept = s.kept) : t.contents = s.contents := by
  change t.kept.contents = s.kept.contents
  rw [h]

theorem kept_channelContents {s t : State} (h : t.kept = s.kept) (k ch : Nat) :
    t.channelContents k ch = s.channelContents k ch := by
  change t.kept.channelContents k ch = s.kept.channelContents k ch
  rw [h]

theorem modChan_channelContents (s : State) (k ch : Nat) (f : Chan → Chan) (h1 : ∀ c, (f c).rereads = c.rereads)
    (h2 : ∀ c, (f c).corrected = c.corrected) : (s.modChan k ch f).channelContents k ch = s.channelContents k ch := by
  simp only [State.channelContents, modChan_chan, h1, h2]
  rfl

theorem keepMark_channelContents (k ch : Nat) (s : State) :
    (keepMark k ch s).channelContents k ch = s.channelContents k ch := rfl

/-! ### Corrected codewords (R332) -/

/-- A pin's count and its mark reach the count's own channel and the record alone. -/
theorem countPin_channelContents (k ch pin : Nat) (s : State) :
    (countPin k ch pin s).channelContents k ch = s.channelContents k ch := by
  unfold countPin
  extract_lets c n t second
  have counted : t.channelContents k ch = s.channelContents k ch :=
    modChan_channelContents s k ch _ (by intro; rfl) (by intro; rfl)
  have seconded : second.channelContents k ch = s.channelContents k ch :=
    (modChan_channelContents t k ch _ (by intro; rfl) (by intro; rfl)).trans counted
  split
  · rfl
  · split
    · exact counted
    · split
      · split
        · exact seconded
        · exact (kept_channelContents (makeRecord_kept ..) k ch).trans seconded
      · exact (keepMark_channelContents k ch _).trans
          ((modChan_channelContents t k ch _ (by intro; rfl) (by intro; rfl)).trans counted)

theorem countCorrected_counts {syms : List Nat} (h : syms ≠ []) (k ch : Nat) (s : State) :
    (countCorrected k ch syms s).channelContents k ch =
      (s.contents, (s.chan k ch).rereads, satAdd 32 (s.chan k ch).corrected 1) := by
  unfold countCorrected
  rw [if_neg h]
  extract_lets pins last t
  rw [forEach_same (fun u => u.channelContents k ch) _ (countPin_channelContents k ch) pins t]
  simp only [t, State.channelContents, modChan_chan]
  rfl

/-! ### Delivery of a unit (R330, R339) -/

theorem decodeWord_length {mark : Option Nat} {rx : BitVec 288} {d : List Byte} {syms : List Nat}
    (h : decodeWord mark rx = some (d, syms)) : d.length = 32 := by
  have symbols : ∀ (es : List (Nat × Nat)) (l : List Nat),
      (es.foldl (fun l e => l.set e.1 (l.getD e.1 0 ^^^ e.2)) l).length = l.length := fun es l =>
    foldl_same List.length _ (fun l e => List.length_set ..) es l
  unfold decodeWord at h
  dsimp only at h
  split at h
  · cases h
    simp [symbolsOf]
  · split at h
    · cases h
    · cases h
      simp only [List.length_map, List.length_take, symbols, symbolsOf, List.length_range]
      rfl

theorem rdBytes_getD (m : Memory) (n a i : Nat) (hi : i < n) : (rdBytes m a n).getD i 0 = rdByte m (a + i) := by
  induction n generalizing a i with
  | zero => omega
  | succ n ih =>
    cases i with
    | zero => rfl
    | succ i =>
      rw [rdBytes, List.getD_cons_succ, ih (a + 1) i (by omega), Nat.add_assoc, Nat.add_comm 1 i]

/-- A reader sees what was delivered, where that differs from the stored bits. -/
theorem memByte_found {s : State} {x : Nat} {e : Nat × List Byte}
    (h : s.delivered.find? (fun d => d.1 = x / 32) = some e) : s.memByte x = e.2.getD (x % 32) 0 := by
  rw [State.memByte, h]

theorem memByte_stored {s : State} {x : Nat} (h : s.delivered.find? (fun d => d.1 = x / 32) = none) :
    s.memByte x = rdByte s.mem x := by
  rw [State.memByte, h]

theorem memByte_congr {s t : State} {x : Nat}
    (h1 : t.delivered.find? (fun d => d.1 = x / 32) = s.delivered.find? (fun d => d.1 = x / 32))
    (h2 : rdByte t.mem x = rdByte s.mem x) : t.memByte x = s.memByte x := by
  rw [State.memByte, State.memByte, h1, h2]

/-- The delivery corrects the unit in memory. -/
def writesBack (s : State) (u source : Nat) (corrected : Bool) : Prop :=
  corrected = true ∧ source = 2 ∧ look .good s.units u = .good

section
variable {s : State} {u source : Nat} {corrected : Bool} {d : List Byte}

theorem deliver_written (h : writesBack s u source corrected) (d : List Byte) : deliver u source d corrected s =
    { s with mem := wrBytes s.mem (32 * u) d, delivered := s.delivered.filter (fun x => x.1 ≠ u) } := by
  obtain ⟨hc, hs, hg⟩ := h
  simp only [deliver, hc, hs, hg, decide_true, Bool.and_self, if_true]

theorem deliver_held (h : ¬ writesBack s u source corrected) (d : List Byte) : deliver u source d corrected s =
    { s with delivered := if d = rdBytes s.mem (32 * u) 32 then s.delivered.filter (fun x => x.1 ≠ u)
                          else s.delivered.filter (fun x => x.1 ≠ u) ++ [(u, d)] } := by
  refine if_neg fun k => h ?_
  simpa only [writesBack, Bool.and_eq_true, decide_eq_true_eq, and_assoc] using k

theorem rdByte_unit (hd : d.length = 32) (m : Memory) (x : Nat) : rdByte (wrBytes m (32 * u) d) x =
    if x / 32 = u then d.getD (x % 32) 0 else rdByte m x := by
  rw [rdByte_wrBytes, hd]
  by_cases hx : x / 32 = u
  · rw [if_pos hx, if_pos (by omega), show x - 32 * u = x % 32 by omega]
  · rw [if_neg hx, if_neg (by omega)]

/-- What a delivery writes back into memory. -/
theorem deliver_mem (hd : d.length = 32) (x : Nat) : rdByte (deliver u source d corrected s).mem x =
    if corrected = true ∧ source = 2 ∧ look .good s.units u = .good ∧ x / 32 = u then d.getD (x % 32) 0
    else rdByte s.mem x := by
  by_cases h : writesBack s u source corrected
  · rw [deliver_written h]
    refine (rdByte_unit hd s.mem x).trans (if_congr ?_ rfl rfl)
    simp only [h.1, h.2.1, h.2.2, true_and]
  · rw [deliver_held h]
    exact (if_neg fun k => h ⟨k.1, k.2.1, k.2.2.1⟩).symm

/-- A reader then sees the data delivered, and of every other unit what it saw before. -/
theorem deliver_memByte (hd : d.length = 32) (x : Nat) : (deliver u source d corrected s).memByte x =
    if x / 32 = u then d.getD (x % 32) 0 else s.memByte x := by
  have dropped : x / 32 = u → (s.delivered.filter (fun y => y.1 ≠ u)).find? (fun y => y.1 = x / 32) = none := by
    rintro rfl
    exact find_same ..
  have others : x / 32 ≠ u → (s.delivered.filter (fun y => y.1 ≠ u)).find? (fun y => y.1 = x / 32) =
      s.delivered.find? (fun y => y.1 = x / 32) := fun hx => find_other u _ hx _
  by_cases h : writesBack s u source corrected
  · rw [deliver_written h]
    split
    · next hx => exact (memByte_stored (dropped hx)).trans ((rdByte_unit hd s.mem x).trans (if_pos hx))
    · next hx => exact memByte_congr (others hx) ((rdByte_unit hd s.mem x).trans (if_neg hx))
  · rw [deliver_held h]
    by_cases hb : d = rdBytes s.mem (32 * u) 32
    · rw [if_pos hb]
      split
      · next hx =>
        refine (memByte_stored (dropped hx)).trans ?_
        rw [hb, rdBytes_getD _ _ _ _ (Nat.mod_lt _ (by omega)), ← hx, Nat.div_add_mod]
      · next hx => exact memByte_congr (others hx) rfl
    · rw [if_neg hb]
      split
      · next hx =>
        refine memByte_found (e := (u, d)) ?_
        rw [List.find?_append, dropped hx]
        simp [hx]
      · next hx =>
        refine memByte_congr ?_ rfl
        rw [List.find?_append, others hx]
        simp [Ne.symm hx]

end

theorem deliver_shape (u source : Nat) (d : List Byte) (corrected : Bool) (s : State) : deliver u source d corrected s =
    { s with mem := (deliver u source d corrected s).mem, delivered := (deliver u source d corrected s).delivered } := by
  unfold deliver
  dsimp only
  split
  · rfl
  · rfl

/-! ### Marks and retirements (R335, R340, R348) -/

/-- Retiring a page lists it; what `kept` shows beside is as before. -/
theorem retirePage_kept (page stack : Nat) (s : State) : (retirePage page stack s).kept =
    (if s.trec.retired.contains page then s
      else s.modTrec (fun t => { t with retired := t.retired ++ [page] })).kept := by
  unfold retirePage
  split
  · rfl
  · extract_lets half tier spare short t u
    have listed : u.kept = t.kept := makeRecord_kept ..
    have shorted : (short u).kept = t.kept := (makeRecord_kept ..).trans listed
    split
    · exact listed
    · exact shorted
    · split
      · exact listed
      · extract_lets leaving h w
        split
        · exact listed
        · split
          · exact shorted
          · rw [startMig_kept, modHalf_eq, setHalf_kept]
            exact listed

theorem retirePage_contents (page stack : Nat) (s : State) : (retirePage page stack s).contents = s.contents := by
  change (retirePage page stack s).kept.contents = _
  rw [retirePage_kept]
  split
  · rfl
  · rfl

theorem retirePage_retires (page stack : Nat) (s : State) : page ∈ (retirePage page stack s).trec.retired := by
  change page ∈ (retirePage page stack s).kept.trec.retired
  rw [retirePage_kept]
  split
  · next h =>
    change page ∈ s.trec.retired
    simpa using h
  · exact List.mem_append_right _ (List.mem_singleton_self page)

/-- Each page of a list is retired when all of them have been. -/
theorem forEach_retires (stack : Nat) (l : List Nat) (s : State) :
    ∀ g ∈ l, g ∈ (forEach l (fun g t => retirePage g stack t) s).trec.retired := by
  induction l generalizing s with
  | nil => simp
  | cons a l ih =>
    intro g hg
    rw [forEach_cons]
    rcases List.mem_cons.mp hg with rfl | hg
    · exact (Keeps.forEach (fun x y => retirePage_keeps _ _ _) l _).retired g (retirePage_retires g stack s)
    · exact ih _ g hg

theorem recordUe_kept (st ch pa so : Nat) (s : State) : (recordUe st ch pa so s).kept =
    (s.modStack st (fun k => { k with
      ueAddr := pa / 32 * 32, ueChan := ch, ueSource := so, ueCount := satAdd 32 k.ueCount 1 })).kept := by
  unfold recordUe
  dsimp only
  rw [raiseVector_kept, makeRecord_kept]

theorem recordUe_contents (st ch pa so : Nat) (s : State) : (recordUe st ch pa so s).contents = s.contents := by
  change (recordUe st ch pa so s).kept.contents = _
  rw [recordUe_kept]
  rfl

theorem kept_stack (s : State) (j : Nat) : s.kept.stack j = s.stack j := rfl

theorem recordUe_ueRows (st ch pa so j : Nat) (s : State) :
    ((recordUe st ch pa so s).stack j).ueRows = (s.stack j).ueRows := by
  change ((recordUe st ch pa so s).kept.stack j).ueRows = _
  rw [recordUe_kept, kept_stack]
  simp only [modStack_eq, setStack_stack]
  split
  · next h => rw [h]
  · rfl

/-- The pages of a bank row depend on the splits in force alone (R321). -/
theorem rowPages_congr {s t : State} (h1 : t.glb.crustSplit = s.glb.crustSplit) (h2 : t.glb.crumbSplit = s.glb.crumbSplit)
    (p : Place) : rowPages t p = rowPages s p := by
  simp only [rowPages, granuleAt, h1, h2]

/-- A unit that is uncorrectable twice is marked; the marks of all others, and what the memories hold, stay. -/
theorem markUe_marks (pa source : Nat) (s : State) : (markUe pa source s).contents =
    { s with units := (markUe pa source s).units }.contents ∧
    ∀ i, look .good (markUe pa source s).units i = if i = pa / 32 then .uncorrectable else look .good s.units i := by
  unfold markUe
  extract_lets p known t u now recent again v
  have recorded : t.contents = s.contents := recordUe_contents ..
  have sameUnits : t.units = s.units := congrArg (fun c => c.2.1) recorded
  split
  · next hk =>
    refine ⟨recorded.trans (by rw [sameUnits]), fun i => ?_⟩
    rw [sameUnits]
    split
    · next hi => rw [hi]; exact hk
    · rfl
  · have marked : ∀ w : State, w.contents = v.contents → w.contents = { s with units := w.units }.contents ∧
        ∀ i, look .good w.units i = if i = pa / 32 then .uncorrectable else look .good s.units i := by
      intro w hw
      have hu : w.units = put .good t.units (pa / 32) .uncorrectable := congrArg (fun c => c.2.1) hw
      refine ⟨?_, fun i => by rw [hu, look_put, sameUnits]⟩
      rw [hw, hu]
      simp only [State.contents, Prod.mk.injEq] at recorded ⊢
      obtain ⟨hmem, -, hdel, htrays, hsyncs, hruns, hqueues⟩ := recorded
      exact ⟨hmem, rfl, hdel, htrays, hsyncs, hruns, hqueues⟩
    split
    · exact marked _ (forEach_same State.contents _ (fun g w => retirePage_contents g p.stack w) _ v)
    · exact marked v rfl

/-- A second uncorrectable unit of a bank row within 24 hours retires the pages with a granule in it. -/
theorem markUe_retires {pa : Nat} {s : State} (source : Nat) (hu : look .good s.units (pa / 32) ≠ .uncorrectable)
    (again : ∃ u ∈ (s.stack (s.place pa).stack).ueRows, u.1 = rowNumber (s.place pa) ∧
      (s.half ((s.place pa).stack / 16)).us < u.2 + dayUs) :
    ∀ g ∈ rowPages s (s.place pa), g ∈ (markUe pa source s).trec.retired := by
  obtain ⟨x, mem, row, recently⟩ := again
  unfold markUe
  extract_lets p known t u now recent again v
  have recorded : s.ueRecorded t := recordUe_recorded ..
  have glb := recorded.glb
  have rows : (t.stack p.stack).ueRows = (s.stack p.stack).ueRows := recordUe_ueRows ..
  have clock : now = (s.half (p.stack / 16)).us := by
    change (t.half (p.stack / 16)).us = _
    rw [recorded.half]
  have found : again := by
    refine List.any_eq_true.mpr ⟨x, List.mem_filter.mpr ⟨?_, ?_⟩, by simpa using row⟩
    · change x ∈ (t.stack p.stack).ueRows
      rw [rows]
      exact mem
    · rw [clock]
      exact decide_eq_true recently
  have pages : rowPages v p = rowPages s p := rowPages_congr (congrArg (·.crustSplit) glb) (congrArg (·.crumbSplit) glb) p
  rw [if_neg (by simpa [known] using hu), if_pos found, pages]
  exact forEach_retires p.stack _ v

/-! ### The second read (R335) -/

theorem execUeRereadDone_notDue {k ch pa : Nat} {s : State}
    (h : (s.chan k ch).rereads.find? (fun r => r.1 = pa / 32) = none) (rx : BitVec 288) :
    exec (.ueRereadDone k ch pa rx) s = .next s := by
  change execUeRereadDone k ch pa rx s = _
  rw [execUeRereadDone, h]

/-- The unit no longer awaits its second read. -/
def rereadTaken (k ch : Nat) (r : Nat × Nat) (s : State) : State :=
  s.modChan k ch (fun x => { x with rereads := x.rereads.erase r })

/-- A second read that decodes counts as corrected, whatever it decodes as. -/
def rereadCounted (k ch : Nat) (syms : List Nat) (s : State) : State :=
  if syms = [] then s.modChan k ch (fun x => { x with corrected := satAdd 32 x.corrected 1 }) else countCorrected k ch syms s

theorem rereadCounted_counts (k ch : Nat) (syms : List Nat) (s : State) : (rereadCounted k ch syms s).channelContents k ch =
    (s.contents, (s.chan k ch).rereads, satAdd 32 (s.chan k ch).corrected 1) := by
  unfold rereadCounted
  split
  · simp only [State.channelContents, modChan_chan]
    rfl
  · next h => exact countCorrected_counts h k ch s

theorem secondRead_counts (k ch : Nat) (r : Nat × Nat) (syms : List Nat) (s : State) :
    (rereadCounted k ch syms (rereadTaken k ch r s)).channelContents k ch =
      (s.contents, (s.chan k ch).rereads.erase r, satAdd 32 (s.chan k ch).corrected 1) := by
  rw [rereadCounted_counts, rereadTaken, modChan_chan]
  rfl

section
variable {k ch pa : Nat} {s : State} {r : Nat × Nat} {rx : BitVec 288}

theorem execUeRereadDone_poison (h : (s.chan k ch).rereads.find? (fun r => r.1 = pa / 32) = some r) (hp : rx = poisonWord) :
    exec (.ueRereadDone k ch pa rx) s = .next (rereadTaken k ch r s) := by
  change execUeRereadDone k ch pa rx s = _
  rw [execUeRereadDone, h]
  exact if_pos hp

theorem rereadTaken_mark : ((rereadTaken k ch r s).chan k ch).mark = (s.chan k ch).mark := by
  rw [rereadTaken, modChan_chan]
  rfl

theorem execUeRereadDone_decoded {d : List Byte} {syms : List Nat}
    (h : (s.chan k ch).rereads.find? (fun r => r.1 = pa / 32) = some r) (hp : rx ≠ poisonWord)
    (hd : decodeWord (s.chan k ch).mark rx = some (d, syms)) : exec (.ueRereadDone k ch pa rx) s =
      .next (deliver (pa / 32) r.2 d true (rereadCounted k ch syms (rereadTaken k ch r s))) := by
  have decoded := (congrArg (decodeWord · rx) (rereadTaken_mark (k := k) (ch := ch) (r := r) (s := s))).trans hd
  unfold rereadTaken at decoded
  change execUeRereadDone k ch pa rx s = _
  unfold execUeRereadDone
  rw [h]
  dsimp only
  rw [if_neg hp]
  rw [decoded]
  rfl

theorem execUeRereadDone_uncorrectable (h : (s.chan k ch).rereads.find? (fun r => r.1 = pa / 32) = some r)
    (hp : rx ≠ poisonWord) (hd : decodeWord (s.chan k ch).mark rx = none) :
    exec (.ueRereadDone k ch pa rx) s = .next (markUe (pa / 32 * 32) r.2 (rereadTaken k ch r s)) := by
  have decoded := (congrArg (decodeWord · rx) (rereadTaken_mark (k := k) (ch := ch) (r := r) (s := s))).trans hd
  unfold rereadTaken at decoded
  change execUeRereadDone k ch pa rx s = _
  unfold execUeRereadDone
  rw [h]
  dsimp only
  rw [if_neg hp]
  rw [decoded]
  rfl

end

theorem rereadTaken_ueRows (k ch j : Nat) (r : Nat × Nat) (s : State) :
    ((rereadTaken k ch r s).stack j).ueRows = (s.stack j).ueRows := by
  simp only [rereadTaken, State.modChan, modStack_eq, setStack_stack]
  split
  · next h => rw [h]
  · rfl

/-- Of the pin marks, a write of STK_PIN_MARK records that of its channel (R334). -/
theorem pinMarkWrite_mark (k ch v : Nat) (s : State) :
    look (0, false) (pinMarkWrite k ch v s).trec.pinMarks (k * 64 + ch) =
      if bit v 0 then (((pinMarkWrite k ch v s).chan k ch).pin + 1, false) else (0, false) := by
  have recorded : ∀ t : State, look (0, false) (keepMark k ch t).trec.pinMarks (k * 64 + ch) =
      if (t.chan k ch).valid then ((t.chan k ch).pin + 1, (t.chan k ch).auto) else (0, false) := fun t =>
    look_put_self ..
  have same : ∀ t : State, (keepMark k ch t).chan k ch = t.chan k ch := fun _ => rfl
  unfold pinMarkWrite
  dsimp only
  rw [recorded, same, modChan_chan]

theorem pinMarkWrite_chan (k ch v : Nat) (s : State) : (pinMarkWrite k ch v s).chan k ch = { s.chan k ch with
    valid := bit v 0, pin := if field v 1 5 < 18 then field v 1 5 else (s.chan k ch).pin, auto := false
    second := (s.chan k ch).second && !bit v 7 } :=
  (modChan_chan s k ch (fun x => { x with
    valid := bit v 0, pin := if field v 1 5 < 18 then field v 1 5 else x.pin, auto := false
    second := x.second && !bit v 7 }))

/-- Settles O41: a second read that decodes is counted and delivered, one that does not is marked. -/
theorem stackRowsAct : Obligations.StackRowsAct := by
  unfold Obligations.StackRowsAct
  refine ⟨fun s k ch pa rx h => execUeRereadDone_notDue h rx,
    fun s k ch pa rx r h => ⟨fun hp => ?poison, fun d syms hp hd => ?decoded, fun hp hd => ?uncorrectable⟩,
    fun s k ch v => ⟨?clear, ?refresh, fun hf => ?fenced, fun hf => ?mark⟩⟩
  case poison => exact ⟨_, execUeRereadDone_poison h hp, modChan_only .., modChan_chan ..⟩
  case decoded =>
    refine ⟨_, execUeRereadDone_decoded h hp hd, ?_⟩
    have counts := secondRead_counts k ch r syms s
    generalize rereadCounted k ch syms (rereadTaken k ch r s) = t at counts ⊢
    simp only [State.channelContents, Prod.mk.injEq] at counts
    obtain ⟨contents, rereads, corrected⟩ := counts
    simp only [State.contents, Prod.mk.injEq] at contents
    obtain ⟨hmem, hunits, hdel, -, -, hruns, hqueues⟩ := contents
    have len := decodeWord_length hd
    have shape := deliver_shape (pa / 32) r.2 d true t
    have chan : (deliver (pa / 32) r.2 d true t).chan k ch = t.chan k ch := by rw [shape]; rfl
    refine ⟨?_, ?_, ?_, by rw [chan]; exact rereads, by rw [chan]; exact corrected, fun x => ?_, fun x => ?_⟩
    · rw [shape]; exact hunits
    · rw [shape]; exact hruns
    · rw [shape]; exact hqueues
    · rw [deliver_memByte len]
      exact if_congr Iff.rfl rfl (memByte_congr (congrArg _ hdel) (congrArg (rdByte · x) hmem))
    · rw [deliver_mem len, hunits, hmem]
      exact if_congr (by simp) rfl rfl
  case uncorrectable =>
    have unit : pa / 32 * 32 / 32 = pa / 32 := by omega
    obtain ⟨contents, marks⟩ := markUe_marks (pa / 32 * 32) r.2 (rereadTaken k ch r s)
    rw [unit] at marks
    simp only [State.contents, Prod.mk.injEq] at contents
    obtain ⟨hmem, -, -, htrays, hsyncs, hruns, hqueues⟩ := contents
    refine ⟨_, execUeRereadDone_uncorrectable h hp hd, hmem, hruns, hqueues, hsyncs, htrays, (marks _).trans (if_pos rfl),
      fun i hi => (marks i).trans (if_neg hi), fun hu again => ?_⟩
    refine markUe_retires (s := rereadTaken k ch r s) r.2 (by rwa [unit]) ?_
    obtain ⟨u, mem, row, recent⟩ := again
    refine ⟨u, ?_, row, recent⟩
    rw [rereadTaken_ueRows]
    exact mem
  case clear => exact ⟨_, rfl, modChan_only .., modChan_chan ..⟩
  case refresh => exact ⟨_, rfl, modChan_only .., modChan_chan ..⟩
  case fenced => exact congrArg Host.Outcome.next (if_pos hf)
  case mark =>
    exact ⟨_, congrArg Host.Outcome.next (if_neg (Bool.eq_false_iff.mp hf)), rfl, pinMarkWrite_mark k ch v s,
      pinMarkWrite_chan k ch v s⟩

end Sys2Proof.Machine
end

section
/-! SUPPORT. Power entry and clocks (01_the_part.md R23, R24; 23_package.md R516): what locking the root PLL, the SerDes PLLs
and the loss of root lock change of clusters, ports and runs. -/
namespace Sys2Proof.Machine

/-- An element that differs from the reset value is listed. -/
theorem mem_keys_of_look {α : Type} {d : α} {t : Tbl α} {k : Nat} (h : look d t k ≠ d) : k ∈ t.map (·.1) := by
  induction t with
  | nil => exact absurd rfl h
  | cons c t ih =>
    rw [List.map_cons, List.mem_cons]
    by_cases hk : k = c.1
    · exact .inl hk
    · exact .inr (ih (by rwa [look, if_neg hk] at h))

/-! ### Locks (Table 1.6) -/

theorem forEach_onlyClusters (f : Cluster → Cluster) (l : List Nat) (s : State) :
    forEach l (fun k t => t.modCluster k f) s =
      { s with clusters := (forEach l (fun k t => t.modCluster k f) s).clusters } :=
  forEach_rel (R := fun s t => t = { s with clusters := t.clusters }) (fun _ => rfl)
    (fun s t u hst htu => by rw [htu, hst]) _ (fun _ _ => rfl) l s

/-- A change that is the same the second time, made to every cluster of a list. -/
theorem forEach_modCluster {f : Cluster → Cluster} (hf : ∀ c, f (f c) = f c) (l : List Nat) (s : State) (k : Nat) :
    (forEach l (fun k t => t.modCluster k f) s).cluster k = if k ∈ l then f (s.cluster k) else s.cluster k := by
  induction l generalizing s with
  | nil => simp [forEach_nil]
  | cons a l ih =>
    rw [forEach_cons, ih, modCluster_eq, setCluster_cluster]
    by_cases ha : k = a
    · subst ha
      simp [hf]
    · simp [ha]

theorem lockRoot_shape (s : State) : lockRoot s = { s with
    glb := { s.glb with rootLock := true, sOnRoot := true }, clk := { s.clk with fOn := true, aOn := true, kOn := true }
    clusters := (lockRoot s).clusters } := by
  unfold lockRoot
  generalize List.range 32 = l
  dsimp only
  rw [forEach_onlyClusters]
  rfl

/-- The A clocks start unthrottled. -/
theorem lockRoot_cluster (s : State) (k : Nat) :
    (lockRoot s).cluster k = if k < 32 then { s.cluster k with mEff := 0 } else s.cluster k := by
  have listed : k < 32 ↔ k ∈ List.range 32 := List.mem_range.symm
  simp only [listed]
  unfold lockRoot
  generalize List.range 32 = l
  dsimp only
  rw [modClk_cluster, forEach_modCluster (f := fun c => { c with mEff := 0 }) (fun _ => rfl)]
  rfl

/-- A port may start training. -/
def canTrain (s : State) (p : Nat) : Prop :=
  (s.port p).enable = true ∧ portPowered s p = true ∧ ((s.port p).state = .off ∨ (s.port p).state = .down)

theorem trainPort_other {p q : Nat} (h : q ≠ p) (s : State) : (trainPort p s).port q = s.port q := (trainPort_only p s).2 q h

theorem forEach_trainPort_stays {p : Nat} {s : State} (h : ¬ canTrain s p) (l : List Nat) :
    (forEach l trainPort s).port p = s.port p := by
  induction l generalizing s with
  | nil => rfl
  | cons a l ih =>
    have same : (trainPort a s).port p = s.port p := by
      by_cases ha : p = a
      · subst ha
        exact (trainPort_port p s).trans (if_neg h)
      · exact trainPort_other ha s
    rw [forEach_cons, ih ?_, same]
    rwa [canTrain, same, portPowered_sent (trainPort_sent a s)]

theorem forEach_trainPort_trains {p : Nat} {s : State} (h : canTrain s p) {l : List Nat} (hp : p ∈ l) :
    (forEach l trainPort s).port p = { s.port p with state := .training, locked := 0 } := by
  induction l generalizing s with
  | nil => cases hp
  | cons a l ih =>
    rw [forEach_cons]
    by_cases ha : p = a
    · subst ha
      have trained : (trainPort p s).port p = { s.port p with state := .training, locked := 0 } :=
        (trainPort_port p s).trans (if_pos h)
      rw [forEach_trainPort_stays ?_, trained]
      rintro ⟨-, -, hs⟩
      simp [trained] at hs
    · have same := trainPort_other ha s
      rw [ih ?_ ((List.mem_cons.mp hp).resolve_left ha), same]
      rwa [canTrain, same, portPowered_sent (trainPort_sent a s)]

/-- Without a halted commit none goes on. -/
theorem resumeCommits_none {s : State} (h : ∀ q, (s.run q).halted = false) : resumeCommits s = s := by
  unfold resumeCommits
  generalize s.runs.map (·.1) = l
  induction l with
  | nil => rfl
  | cons a l ih =>
    rw [forEach_cons, if_neg (Bool.eq_false_iff.mp (h a))]
    exact ih

/-! ### What a kill and a report leave of GLB and the clocks -/

def State.powerRegs (s : State) : Glb × Clk := (s.glb, s.clk)

theorem awaitRerun_powerRegs (q : Nat) (counted : Bool) (s : State) : (awaitRerun q counted s).powerRegs = s.powerRegs := rfl
theorem modRun_powerRegs (s : State) (q : Nat) (f : Run → Run) : (s.modRun q f).powerRegs = s.powerRegs := rfl

theorem modGroup_powerRegs (s : State) (b i : Nat) (f : Group → Group) : (s.modGroup b i f).powerRegs = s.powerRegs := rfl

theorem sent_powerRegs {s t : State} (h : s.sent t) : t.powerRegs = s.powerRegs := by rw [h]; rfl

theorem settle_powerRegs (s : State) : (settle s).powerRegs = s.powerRegs := by
  rw [(settle_readiness s).1]; rfl

theorem forEach_powerRegs {α : Type} {f : α → State → State} (h : ∀ a (s : State), (f a s).powerRegs = s.powerRegs)
    (l : List α) (s : State) : (forEach l f s).powerRegs = s.powerRegs := forEach_same State.powerRegs f h l s

theorem idleEngine_powerRegs (o : Op) (w : Work) (s : State) : (idleEngine o w s).powerRegs = s.powerRegs := by
  unfold idleEngine
  split
  · rfl
  · split <;> rfl

theorem idleUnit_powerRegs (i : Inst) (s : State) : (idleUnit i s).powerRegs = s.powerRegs := by
  unfold idleUnit
  split <;> rfl

theorem stopEngines_powerRegs (q : Nat) (s : State) : (stopEngines q s).powerRegs = s.powerRegs := by
  unfold stopEngines
  dsimp only
  refine (forEach_powerRegs ?_ _ _).trans
    (forEach_powerRegs (f := fun i t => idleUnit i (forEach i.work (idleEngine i.op) t)) (fun i t => ?_) _ _)
  · intro _ _; rfl
  · exact (idleUnit_powerRegs _ _).trans (forEach_powerRegs (idleEngine_powerRegs i.op) _ _)

theorem freeScratch_powerRegs (q : Nat) (s : State) : (freeScratch q s).powerRegs = s.powerRegs := by
  unfold freeScratch
  dsimp only
  split
  · rfl
  · refine (forEach_powerRegs (fun u t => ?_) _ _).trans rfl
    split <;> rfl

theorem killRun_powerRegs (q code detail word : Nat) (g : Option Nat) (s : State) :
    (killRun q code detail word g s).powerRegs = s.powerRegs := by
  unfold killRun
  dsimp only
  have stopped : (freeScratch q (stopEngines q s)).powerRegs = s.powerRegs :=
    (freeScratch_powerRegs q _).trans (stopEngines_powerRegs q s)
  generalize freeScratch q (stopEngines q s) = u at stopped
  refine (forEach_powerRegs (fun g t => ?_) _ _).trans stopped
  split
  · rfl
  · exact (sent_powerRegs (sendAbort_sent ..)).trans (modGroup_powerRegs ..)

/-- A kill leaves its queue waiting to re-run its kernel (R56). -/
theorem faultRun_kill {q : Nat} {s : State} (hl : (s.run q).landed = false) (detail word : Nat) :
    faultRun q 5 detail word none s = settle (awaitRerun q false
      ((killRun q 5 (detail % 256) word none s).modRun q (fun r => { r with waitMig := false, waitGroup := none }))) := by
  simp [faultRun, hl, stopCode]

theorem killQueue_powerRegs (q detail : Nat) (s : State) : (killQueue q detail s).powerRegs = s.powerRegs := by
  unfold killQueue
  dsimp only
  split
  · cases hl : (s.run q).landed with
    | true => simp [faultRun, hl]
    | false =>
      rw [faultRun_kill hl]
      exact (settle_powerRegs _).trans ((awaitRerun_powerRegs ..).trans ((modRun_powerRegs ..).trans (killRun_powerRegs ..)))
  · rfl

/-- A kill of one queue leaves the runs of the others but for their places in time. -/
theorem killQueue_run_ne {p q : Nat} (h : p ≠ q) (detail : Nat) (s : State) :
    (killQueue q detail s).run p = { s.run p with readyAt := ((killQueue q detail s).run p).readyAt } := by
  unfold killQueue
  dsimp only
  split
  · cases hl : (s.run q).landed with
    | true => simp [faultRun, hl]
    | false =>
      obtain ⟨-, others, -⟩ := faultRun_ends q 5 detail (lastWord (s.run q)) none s hl
      exact (others p h).2
  · rfl

theorem report_shape (x : String) (s : State) :
    report x s = { s with dbg := (report x s).dbg, out := (report x s).out } := by
  unfold report
  split_ifs
  · rfl
  · rfl
  · rfl

/-! ### Loss of root lock: commits halt, the other kernels end (R24) -/

/-- The run's commit has begun, or its kernel has landed: it can no longer be killed (R46, R64). -/
def Run.mustEnd (r : Run) : Prop := r.phase = .committing ∨ r.landed = true

/-- What the loss of root lock does to one queue. -/
def haltOrKill (q : Nat) (s : State) : State :=
  if (s.run q).phase = .committing ∨ (s.run q).landed then s.modRun q (fun r => { r with halted := true })
  else killQueue q 5 s

theorem haltOrKill_powerRegs (q : Nat) (s : State) : (haltOrKill q s).powerRegs = s.powerRegs := by
  unfold haltOrKill
  split
  · rfl
  · exact killQueue_powerRegs q 5 s

theorem haltOrKill_stored (q : Nat) (s : State) : (haltOrKill q s).stored = s.stored := by
  unfold haltOrKill
  split
  · rfl
  · exact killQueue_stored q 5 s

/-- A run that must end is what it was, but for its halt and its place in time. -/
def Run.haltOf (r x : Run) : Prop :=
  x = { r with halted := x.halted, readyAt := x.readyAt } ∧ (r.halted = true → x.halted = true)

theorem Run.haltOf.trans {r x y : Run} (h : r.haltOf x) (k : x.haltOf y) : r.haltOf y :=
  ⟨by rw [k.1, h.1], fun hr => k.2 (h.2 hr)⟩

theorem Run.haltOf.mustEnd {r x : Run} (h : r.haltOf x) (hr : r.mustEnd) : x.mustEnd := by
  rw [h.1]
  exact hr

theorem haltOrKill_self {q : Nat} {s : State} (h : (s.run q).mustEnd) :
    (haltOrKill q s).run q = { s.run q with halted := true } := by
  have halts : haltOrKill q s = s.modRun q (fun r => { r with halted := true }) := if_pos h
  rw [halts]
  simp

theorem haltOrKill_haltOf {q : Nat} {s : State} (h : (s.run q).mustEnd) (p : Nat) :
    (s.run q).haltOf ((haltOrKill p s).run q) := by
  by_cases hp : q = p
  · subst hp
    rw [haltOrKill_self h]
    exact ⟨rfl, fun _ => rfl⟩
  · unfold haltOrKill
    split
    · simp [Run.haltOf, hp]
    · have killed := killQueue_run_ne hp 5 s
      exact ⟨by rw [killed], fun hh => by rw [killed]; exact hh⟩

theorem forEach_haltOf {q : Nat} {s : State} (h : (s.run q).mustEnd) (l : List Nat) :
    (s.run q).haltOf ((forEach l haltOrKill s).run q) := by
  induction l generalizing s with
  | nil => exact ⟨rfl, id⟩
  | cons a l ih =>
    have first := haltOrKill_haltOf h a
    exact first.trans (ih (first.mustEnd h))

/-- Of the runs of a list, those that must end are halted. -/
theorem forEach_halts {q : Nat} {s : State} (h : (s.run q).mustEnd) {l : List Nat} (hq : q ∈ l) :
    ((forEach l haltOrKill s).run q).halted = true := by
  induction l generalizing s with
  | nil => cases hq
  | cons a l ih =>
    have first := haltOrKill_haltOf h a
    rw [forEach_cons]
    by_cases ha : q = a
    · subst ha
      exact (forEach_haltOf (first.mustEnd h) l).2 (by rw [haltOrKill_self h])
    · exact ih (first.mustEnd h) ((List.mem_cons.mp hq).resolve_left ha)

/-! ### Loss of root lock: the ports go down (R394) -/

def State.portStates (s : State) (p : Nat) : PState := (s.port p).state

theorem setPort_portStates {s : State} {p : Nat} {v : Port} (h : v.state = (s.port p).state) :
    (s.setPort p v).portStates = s.portStates := by
  funext x
  simp only [State.portStates, setPort_port]
  split
  · next e => rw [e, h]
  · rfl

theorem chargeVl_portStates (s : State) (p vl n : Nat) : (chargeVl s p vl n).portStates = s.portStates := by
  unfold chargeVl
  split <;> rfl

theorem sendPort_portStates (p n : Nat) (s : State) : (sendPort p n s).portStates = s.portStates := by
  induction n generalizing s with
  | zero => rfl
  | succ n ih =>
    unfold sendPort
    dsimp only
    split
    · split
      · rfl
      · split
        · rfl
        · rw [ih]
          exact (chargeVl_portStates ..).trans (setPort_portStates rfl)
    · rfl

theorem enqueue_portStates (p : Nat) (pk : Packet) (s : State) : (enqueue p pk s).portStates = s.portStates :=
  (sendPort_portStates ..).trans (setPort_portStates rfl)

theorem countBad_portStates (p : Nat) (s : State) : (countBad p s).portStates = s.portStates := setPort_portStates rfl

theorem emit_portStates (s : State) (o : Out) : (s.emit o).portStates = s.portStates := rfl

/-- Routing a packet changes no port's state. -/
theorem route_portStates (h : Nat) (pk : Packet) (s : State) : (route h pk s).portStates = s.portStates := by
  unfold route routeTo
  dsimp only
  repeat' split
  all_goals simp only [enqueue_portStates, countBad_portStates, emit_portStates]

theorem reroute_portStates (p : Nat) (s : State) : (reroute p s).portStates = s.portStates :=
  (forEach_same State.portStates _ (fun _ _ => route_portStates ..) _ _).trans (setPort_portStates rfl)

theorem reroute_sent (p : Nat) (s : State) : s.sent (reroute p s) :=
  State.sent.trans (t := s.setPort p _) rfl (forEach_sent (fun _ _ => route_sent ..) _ _)

theorem goDown_sent (p : Nat) (s : State) : s.sent (goDown p s) := by
  unfold goDown
  dsimp only
  split
  · exact State.sent.trans (t := s.setPort p _) rfl ((reroute_sent p _).trans (trainPort_sent p _))
  · exact .refl s

theorem portPowered_dark {s : State} (h : s.clk.serdes = false) (p : Nat) : portPowered s p = false := by
  simp [portPowered, h]

/-- Without SerDes clocks a port that goes down stays down. -/
theorem goDown_dark {s : State} (h : s.clk.serdes = false) (p x : Nat) : (goDown p s).portStates x =
    if x = p ∧ s.portStates p = .up then .down else s.portStates x := by
  unfold goDown
  split
  · next up =>
    extract_lets t
    have dark : portPowered (reroute p t) p = false := by
      rw [portPowered_sent (reroute_sent p t)]
      exact portPowered_dark h p
    have stays : trainPort p (reroute p t) = reroute p t := by simp [trainPort, dark]
    rw [stays, reroute_portStates]
    simp only [t, State.portStates, modPort_eq, setPort_port, up, and_true]
    split
    · rfl
    · rfl
  · next down =>
    exact (if_neg fun k => down k.2).symm

/-- After a pass over a list of ports, none of them is UP, and no other has come UP. -/
theorem forEach_goDown {s : State} (h : s.clk.serdes = false) (l : List Nat) (x : Nat)
    (up : (forEach l goDown s).portStates x = .up) : s.portStates x = .up ∧ x ∉ l := by
  induction l generalizing s with
  | nil => exact ⟨up, by simp⟩
  | cons a l ih =>
    have dark : (goDown a s).clk.serdes = false := by
      rw [goDown_sent a s]
      exact h
    obtain ⟨before, rest⟩ := ih dark up
    rw [goDown_dark h] at before
    split at before
    · cases before
    · next ha =>
      refine ⟨before, fun mem => ?_⟩
      rcases List.mem_cons.mp mem with rfl | mem
      · exact ha ⟨rfl, before⟩
      · exact rest mem

theorem forEach_goDown_down {s : State} (h : s.clk.serdes = false) (x : Nat) :
    ((forEach (s.ports.map (·.1)) goDown s).port x).state ≠ .up := by
  intro up
  obtain ⟨before, unlisted⟩ := forEach_goDown h _ x (show (forEach _ goDown s).portStates x = .up from up)
  refine unlisted (mem_keys_of_look (d := {}) fun reset => ?_)
  have off : s.portStates x = .off := congrArg Port.state reset
  rw [before] at off
  cases off

end Sys2Proof.Machine
end

section
/-! SUPPORT. Loss of lock and of the rails (01_the_part.md R24; 23_package.md R517, R521) and the part's resets
(19_tidewatch.md R465, R529; 01_the_part.md R46): what each leaves of the state. -/
namespace Sys2Proof.Machine

/-! ### The SerDes PLLs lock (Table 1.6, step 8) -/

/-- The ports after the SerDes PLLs locked. -/
def portsLit (s : State) : State := forEach (s.ports.map (·.1)) trainPort (s.modClk (fun c => { c with serdes := true }))

theorem portsLit_only (s : State) :
    portsLit s = { s with clk := { s.clk with serdes := true }, ports := (portsLit s).ports } := by
  have trained : ∀ p (t : State), trainPort p t = { t with ports := (trainPort p t).ports } :=
    fun p t => (trainPort_only p t).1
  exact forEach_rel (R := fun s t : State => t = { s with ports := t.ports }) (fun _ => rfl)
    (fun s t u hst htu => by rw [htu, hst]) trainPort trained _ (s.modClk (fun c => { c with serdes := true }))

theorem portsLit_trains {s : State} {p : Nat} (he : (s.port p).enable = true) (hf : s.fenced (portHalf p) = false)
    (hg : bitOf s.twc.gated (portDomain p) = false) (hs : (s.port p).state = .off ∨ (s.port p).state = .down) :
    (portsLit s).port p = { s.port p with state := .training, locked := 0 } := by
  have powered : portPowered (s.modClk (fun c => { c with serdes := true })) p = true := by
    show (!s.fenced (portHalf p) && !bitOf s.twc.gated (portDomain p) && true) = true
    rw [hf, hg]
    rfl
  refine forEach_trainPort_trains (s := s.modClk _) ⟨he, powered, hs⟩ (mem_keys_of_look (d := {}) fun reset => ?_)
  have disabled : (s.port p).enable = false := congrArg Port.enable reset
  rw [he] at disabled
  cases disabled

theorem portsLit_stays {s : State} {p : Nat} (he : (s.port p).enable = false) : (portsLit s).port p = s.port p := by
  refine forEach_trainPort_stays (s := s.modClk _) (fun h => ?_) _
  obtain ⟨enabled, -, -⟩ := h
  exact absurd (he.symm.trans enabled) Bool.false_ne_true

theorem execSerdesPllLocked_due {s : State} (ho : s.on = true) (hr : s.glb.rootLock = true) (hs : s.clk.serdes = false) :
    exec .serdesPllLocked s = .next (resumeCommits (portsLit s)) := if_pos (by rw [ho, hr, hs]; rfl)

/-! ### Loss of root lock (R24) -/

/-- The clocks of the halves have stopped, and the host is told. -/
def clocksStopped (s : State) : State :=
  raiseVector 1 (stopClocks (s.modGlb (fun g => { g with clkFault := true, relockCount := 0 })))

def kernelsEnded (s : State) : State := forEach (s.runs.map (·.1)) haltOrKill s

def portsDown (s : State) : State := forEach (s.ports.map (·.1)) goDown s

theorem execRootPllLockLoss_locked {s : State} (h : s.glb.rootLock = true) : ∃ text,
    exec .rootPllLockLoss s = .next (report text (portsDown (kernelsEnded (clocksStopped s)))) := ⟨_, if_pos h⟩

theorem clocksStopped_run (s : State) (q : Nat) : (clocksStopped s).run q = s.run q := by
  unfold clocksStopped
  rw [raiseVector_glb]
  rfl

theorem clocksStopped_stored (s : State) : (clocksStopped s).stored = s.stored := by
  unfold clocksStopped
  rw [raiseVector_glb]
  rfl

theorem clocksStopped_clk (s : State) :
    (clocksStopped s).clk = { s.clk with fOn := false, aOn := false, kOn := false, serdes := false } := by
  unfold clocksStopped
  rw [raiseVector_glb]
  rfl

theorem clocksStopped_glb (s : State) :
    (clocksStopped s).glb.rootLock = false ∧ (clocksStopped s).glb.sOnRoot = false ∧ (clocksStopped s).glb.clkFault = true ∧
    (clocksStopped s).glb.relockCount = 0 ∧ (clocksStopped s).glb.linkWidth = 0 := by
  unfold clocksStopped
  rw [raiseVector_msix]
  exact ⟨rfl, rfl, rfl, rfl, rfl⟩

theorem kernelsEnded_powerRegs (s : State) : (kernelsEnded s).powerRegs = s.powerRegs :=
  forEach_powerRegs haltOrKill_powerRegs _ s

theorem kernelsEnded_stored (s : State) : (kernelsEnded s).stored = s.stored :=
  forEach_same State.stored haltOrKill haltOrKill_stored _ s

/-- A commit that has begun, and a landed kernel, is halted and otherwise as it was, but for its place in time. -/
theorem kernelsEnded_run {s : State} {q : Nat} (h : (s.run q).mustEnd) :
    (kernelsEnded s).run q = { s.run q with halted := true, readyAt := ((kernelsEnded s).run q).readyAt } := by
  have listed : q ∈ s.runs.map (·.1) := mem_keys_of_look (d := {}) fun reset => by
    have idle : s.run q = {} := reset
    rw [idle] at h
    rcases h with committing | landed
    · cases committing
    · cases landed
  have halts : ((kernelsEnded s).run q).halted = true := forEach_halts h listed
  rw [← halts]
  exact (forEach_haltOf h _).1

theorem portsDown_sent (s : State) : s.sent (portsDown s) := forEach_sent goDown_sent _ s

theorem report_same {α : Type} (f : State → α) (h : ∀ (s : State) d o, f { s with dbg := d, out := o } = f s)
    (x : String) (s : State) : f (report x s) = f s := by
  rw [report_shape, h]

/-- Loss of root lock: the clocks stop, the commits halt, the ports go down, and the memories stay. -/
theorem lossOfLock_effect (s : State) (x : String) {t : State}
    (ht : t = report x (portsDown (kernelsEnded (clocksStopped s)))) :
    t.powerRegs = (clocksStopped s).powerRegs ∧ t.stored = s.stored ∧
    (∀ q, (s.run q).mustEnd → t.run q = { s.run q with halted := true, readyAt := (t.run q).readyAt }) ∧
    ∀ p, (t.port p).state ≠ .up := by
  have ended := kernelsEnded_powerRegs (clocksStopped s)
  have regs := (sent_powerRegs (portsDown_sent (kernelsEnded (clocksStopped s)))).trans ended
  have dark : (kernelsEnded (clocksStopped s)).clk.serdes = false := by
    have clk : (kernelsEnded (clocksStopped s)).clk = (clocksStopped s).clk := congrArg Prod.snd ended
    rw [clk, clocksStopped_clk]
  subst ht
  refine ⟨?regs, ?stored, fun q hq => ?run, fun p => ?port⟩
  case regs =>
    rw [report_same State.powerRegs fun _ _ _ => rfl]
    exact regs
  case stored =>
    rw [report_same State.stored fun _ _ _ => rfl]
    exact (sent_stored (portsDown_sent _)).trans ((kernelsEnded_stored _).trans (clocksStopped_stored s))
  case run =>
    have same : (report x (portsDown (kernelsEnded (clocksStopped s)))).run q = (kernelsEnded (clocksStopped s)).run q := by
      rw [report_same (State.run · q) fun _ _ _ => rfl, portsDown_sent]
      rfl
    have began := clocksStopped_run s q
    rw [same, kernelsEnded_run (by rwa [began]), began]
  case port =>
    rw [report_same (State.port · p) fun _ _ _ => rfl]
    exact forEach_goDown_down dark p

/-! ### Attempts to lock again (R24) -/

/-- An attempt has been counted. -/
def attempted (s : State) : State := s.modGlb (fun g => { g with relockCount := g.relockCount + 1 })

theorem execRelockAttempt_due {s : State} (ho : s.on = true) (hc : s.glb.clkFault = true) (hr : s.glb.rootLock = false)
    (hf : s.clk.relockFailed = false) (ht : s.glb.trip = false) (hn : s.glb.relockCount < 3) (locked : Bool) :
    exec (.relockAttempt locked) s =
      if locked = true then .next (lockRoot (attempted s))
      else if s.glb.relockCount + 1 < 3 then .next (attempted s)
      else .next (report "!CLK FAIL" (((attempted s).modTrec (fun t =>
        { t with interrupted := t.interrupted ++ interruptedBy 1 (attempted s) })).modClk (fun c =>
          { c with relockFailed := true }))) :=
  if_pos (by simp [ho, hc, hr, hf, ht, hn])

theorem execRelockAttempt_notDue {s : State} (h : s.on = false ∨ s.glb.clkFault = false ∨ s.glb.rootLock = true ∨
    s.clk.relockFailed = true ∨ s.glb.trip = true ∨ 3 ≤ s.glb.relockCount) (locked : Bool) :
    exec (.relockAttempt locked) s = .next s := by
  refine if_neg fun due => ?_
  simp only [Bool.and_eq_true, Bool.not_eq_true', decide_eq_true_eq] at due
  obtain ⟨⟨⟨⟨⟨on, fault⟩, trip⟩, root⟩, failed⟩, few⟩ := due
  simp only [on, fault, trip, root, failed, Bool.true_eq_false, Bool.false_eq_true, false_or] at h
  omega

/-! ### Loss of the rails (R517, R521) -/

/-- What a loss of the rails leaves of a state: the Shelf keeps its bytes; queues, runs, sync objects, cores, Harbours and
ports keep nothing, and the clocks stand. -/
def State.lostRails (s t : State) : Prop :=
  t.queues = [] ∧ t.runs = [] ∧ t.syncs = [] ∧ t.cores = [] ∧ t.hbr = [] ∧ t.ports = [] ∧
  t.shelf = { s.shelf with map := [], mapReady := false } ∧
  t.glb.rootLock = false ∧ t.clk.fOn = false ∧ t.clk.aOn = false ∧ t.clk.kOn = false ∧
  ∀ a, rdByte t.mem a = if 2 ^ 44 ≤ a then rdByte s.mem a else 0

theorem rdByte_keptMem (m : Memory) (a : Nat) : rdByte (keptMem m) a = if 2 ^ 44 ≤ a then rdByte m a else 0 := by
  unfold rdByte keptMem
  rw [look_filter 0 m (fun i => decide (i ≥ 2 ^ 44))]
  simp only [decide_eq_true_eq, ge_iff_le]

theorem loseRails_lost (s : State) : s.lostRails (loseRails s) :=
  ⟨rfl, rfl, rfl, rfl, rfl, rfl, rfl, rfl, rfl, rfl, rfl, rdByte_keptMem s.mem⟩

/-- The commits cut short are journalled and the under-voltage event is counted. -/
def underVoltageSeen (s : State) : State := s.modTrec (fun t =>
  { t with interrupted := t.interrupted ++ interruptedBy 2 s, uvEvents := satAdd 32 t.uvEvents 1 })

/-- The commits cut short are journalled and the trip is counted. -/
def tripSeen (s : State) : State := s.modTrec (fun t =>
  { t with interrupted := t.interrupted ++ interruptedBy 2 s, trips := satAdd 32 t.trips 1 })

theorem execUnderVoltage_on {s : State} (h : s.on = true) : exec .underVoltage s = .next
    (((loseRails (underVoltageSeen s)).modGlb (fun g => { g with
      uvEvents := (loseRails (underVoltageSeen s)).trec.uvEvents })).modClk (fun c => { c with power := .holdup })) :=
  if_pos h

/-- The sensor that trips reads 115 °C or more. -/
def sensorTrips (sensor : Nat) (s : State) : State :=
  if sensor < 32 then s.modCluster sensor (fun c => { c with temp := max c.temp (quarter 115) })
  else s.modStack (sensor - 32) (fun k => { k with temp := max k.temp (quarter 115) })

theorem sensorTrips_only (sensor : Nat) (s : State) : sensorTrips sensor s =
    { s with clusters := (sensorTrips sensor s).clusters, stks := (sensorTrips sensor s).stks } := by
  unfold sensorTrips
  split <;> rfl

theorem execThermalTrip_on {s : State} (h : s.on = true) (ht : s.glb.trip = false) (sensor : Nat) :
    exec (.thermalTrip sensor) s = .next ((sensorTrips sensor (loseRails (tripSeen s))).modGlb (fun g => { g with
      trip := true, tripSensor := sensor % 64
      trips := (sensorTrips sensor (loseRails (tripSeen s))).trec.trips })) := if_pos (by rw [h, ht]; rfl)

/-! ### Resets (R465, R529) -/

/-- An element of a table with each element replaced: the reset value, or the replacement of an element. -/
theorem look_mapTbl {α : Type} [DecidableEq α] (d : α) (f : α → α) (t : Tbl α) (k : Nat) :
    look d (mapTbl d f t) k = d ∨ ∃ v, look d (mapTbl d f t) k = f v := by
  induction t with
  | nil => exact .inl rfl
  | cons c t ih =>
    have unfolds : mapTbl d f (c :: t) = if f c.2 = d then mapTbl d f t else (c.1, f c.2) :: mapTbl d f t := by
      simp only [mapTbl, List.filterMap_cons]
      split_ifs <;> rfl
    rw [unfolds]
    split
    · exact ih
    · rw [look]
      split
      · exact .inr ⟨c.2, rfl⟩
      · exact ih

theorem resetHalf_shape (h : TwcHalf) : resetHalf h = { us := (resetHalf h).us, recSeq := (resetHalf h).recSeq } := rfl

theorem restBerth_unparked {b : Berth} (h : (restBerth b).parkRec = none) : restBerth b = {} := by
  unfold restBerth at h ⊢
  split
  · rfl
  · next r held =>
    rw [held] at h
    cases h

theorem partReset_half (trip : Bool) (s : State) (h : Nat) : (partReset trip s).half h =
    { us := ((partReset trip s).half h).us, recSeq := ((partReset trip s).half h).recSeq } := by
  show look {} (mapTbl {} resetHalf s.twcH) h = _
  rcases look_mapTbl {} resetHalf s.twcH h with reset | ⟨v, kept⟩
  · rw [show (partReset trip s).half h = {} from reset, reset]
  · rw [show (partReset trip s).half h = resetHalf v from kept, kept]
    exact resetHalf_shape v

theorem partReset_berth (trip : Bool) (s : State) (b : Nat) (h : ((partReset trip s).berth b).parkRec = none) :
    (partReset trip s).berth b = {} := by
  rcases look_mapTbl {} restBerth s.berths b with reset | ⟨v, kept⟩
  · exact reset
  · have rests : (partReset trip s).berth b = restBerth v := kept
    rw [rests] at h ⊢
    exact restBerth_unparked h

theorem partReset_resets (trip : Bool) (s : State) : s.partWasReset (partReset trip s) :=
  ⟨rfl, rfl, rfl, rfl, rfl, rfl, rfl, partReset_half trip s, rfl, rfl, rfl, rfl, rfl, rfl, rfl, rfl, rfl, rfl,
    partReset_berth trip s, rdByte_keptMem s.mem⟩

theorem execReset_ready {s : State} (ho : s.on = true) (hb : s.twc.cmdBusy = false) : exec .reset s =
    if (booting s || (s.glb.trip && !allCool s)) = true then
      .next { s with twc := { s.twc with lastOp := 7, result := 0xFF, cmdDone := wrapAdd 32 s.twc.cmdDone 1 } }
    else if resetHeld s = true then .next { s with twc := { s.twc with cmdBusy := true, lastOp := 7, resetWait := 1 } }
    else .next (partReset false s) := if_neg (by rw [ho, hb]; decide)

theorem execFundamentalReset_on {s : State} (ho : s.on = true) : exec .fundamentalReset s =
    if resetHeld s = true then .next { s with twc := { s.twc with resetWait := 2 } } else .next (fundamental s) :=
  if_neg (by rw [ho]; decide)

/-! ### What each command does in its turn and out of it -/

/-- The root PLL is locked in its turn only. -/
theorem execRootPllLocked_notDue {s : State} (h : s.on = false ∨ s.glb.rootLock = true ∨ s.glb.trip = true ∨
    s.clk.relockFailed = true) : exec .rootPllLocked s = .next s := by
  refine congrArg Host.Outcome.next (if_neg fun due => ?_)
  simp only [Bool.and_eq_true, Bool.not_eq_true'] at due
  obtain ⟨⟨⟨on, root⟩, trip⟩, failed⟩ := due
  simp [on, root, trip, failed] at h

theorem execRootPllLocked_due {s : State} (ho : s.on = true) (hr : s.glb.rootLock = false) (ht : s.glb.trip = false)
    (hf : s.clk.relockFailed = false) : exec .rootPllLocked s = .next (lockRoot s) :=
  congrArg Host.Outcome.next (if_pos (by rw [ho, hr, ht, hf]; rfl))

theorem execSerdesPllLocked_notDue {s : State} (h : s.on = false ∨ s.glb.rootLock = false ∨ s.clk.serdes = true) :
    exec .serdesPllLocked s = .next s := by
  refine if_neg fun due => ?_
  simp only [Bool.and_eq_true, Bool.not_eq_true'] at due
  obtain ⟨⟨on, root⟩, serdes⟩ := due
  simp [on, root, serdes] at h

/-- The third attempt that fails is the last. -/
theorem relockAttempt_effect {s : State} (ho : s.on = true) (hc : s.glb.clkFault = true) (hr : s.glb.rootLock = false)
    (hf : s.clk.relockFailed = false) (ht : s.glb.trip = false) (hn : s.glb.relockCount < 3) (locked : Bool) :
    Yields (.relockAttempt locked) s fun t =>
      t.glb.relockCount = s.glb.relockCount + 1 ∧ t.glb.rootLock = locked ∧ t.clk.fOn = (locked || s.clk.fOn) ∧
      (locked = true → ∀ k < 32, (t.cluster k).mEff = 0) ∧
      t.clk.relockFailed = (!locked && decide (s.glb.relockCount = 2)) ∧
      t.trec.interrupted = s.trec.interrupted ++
        (if locked = false ∧ s.glb.relockCount = 2 then interruptedBy 1 s else []) := by
  have due := execRelockAttempt_due ho hc hr hf ht hn locked
  cases locked with
  | true =>
    refine ⟨_, due.trans (if_pos rfl), ?_⟩
    have starts : ∀ k < 32, ((lockRoot (attempted s)).cluster k).mEff = 0 := fun k hk => by
      rw [lockRoot_cluster, if_pos hk]
    rw [lockRoot_shape] at starts ⊢
    exact ⟨rfl, rfl, rfl, fun _ => starts, hf, by simp [attempted, State.modGlb]⟩
  | false =>
    have fails := due.trans (if_neg Bool.false_ne_true)
    by_cases last : s.glb.relockCount = 2
    · refine ⟨_, fails.trans (if_neg (by omega)), ?_⟩
      rw [report_shape]
      exact ⟨rfl, hr, rfl, nofun, by simp [last, State.modClk], by simp [last, State.modClk, State.modTrec]; rfl⟩
    · refine ⟨_, fails.trans (if_pos (by omega)), rfl, hr, rfl, nofun, ?_, ?_⟩
      · exact hf.trans (by simp [last])
      · simp [last, attempted, State.modGlb]

/-- Without power nothing is lost a second time; a trip that is latched trips no more. -/
theorem lossOfRails_notDue {s : State} {c : Instr} {trip : Bool} {sensor : Nat}
    (hc : c = .underVoltage ∧ trip = false ∨ c = .thermalTrip sensor ∧ trip = true)
    (h : s.on = false ∨ trip = true ∧ s.glb.trip = true) : exec c s = .next s := by
  rcases hc with ⟨rfl, rfl⟩ | ⟨rfl, rfl⟩
  · have off : s.on = false := h.resolve_right fun k => Bool.false_ne_true k.1
    exact if_neg (by rw [off]; decide)
  · refine if_neg fun due => ?_
    simp only [Bool.and_eq_true, Bool.not_eq_true'] at due
    obtain ⟨on, trip⟩ := due
    simp [on, trip] at h

theorem underVoltage_effect {s : State} (h : s.on = true) : Yields .underVoltage s fun t =>
    t.trec = { s.trec with
      interrupted := s.trec.interrupted ++ interruptedBy 2 s, uvEvents := t.trec.uvEvents, trips := t.trec.trips } ∧
    (t.trec.uvEvents = satAdd 32 s.trec.uvEvents 1 ∧ t.clk.power = .holdup) ∧ s.lostRails t := by
  refine ⟨_, execUnderVoltage_on h, ?_⟩
  exact ⟨rfl, ⟨rfl, rfl⟩, loseRails_lost (underVoltageSeen s)⟩

theorem thermalTrip_effect {s : State} (h : s.on = true) (ht : s.glb.trip = false) (sensor : Nat) :
    Yields (.thermalTrip sensor) s fun t =>
      t.trec = { s.trec with
        interrupted := s.trec.interrupted ++ interruptedBy 2 s, uvEvents := t.trec.uvEvents, trips := t.trec.trips } ∧
      (t.trec.trips = satAdd 32 s.trec.trips 1 ∧ t.glb.trip = true ∧ t.glb.tripSensor = sensor % 64) ∧ s.lostRails t := by
  refine ⟨_, execThermalTrip_on h ht sensor, ?_⟩
  rw [sensorTrips_only]
  exact ⟨rfl, ⟨rfl, rfl, rfl⟩, loseRails_lost (tripSeen s)⟩

theorem execReset_refused {s : State} (ho : s.on = true) (hb : s.twc.cmdBusy = false)
    (h : booting s = true ∨ s.glb.trip = true ∧ allCool s = false) : exec .reset s =
      .next { s with twc := { s.twc with lastOp := 7, result := 0xFF, cmdDone := wrapAdd 32 s.twc.cmdDone 1 } } :=
  (execReset_ready ho hb).trans (if_pos (by simpa using h))

theorem execReset_taken {s : State} (ho : s.on = true) (hb : s.twc.cmdBusy = false) (h : booting s = false)
    (hc : s.glb.trip = false ∨ allCool s = true) : exec .reset s =
      if resetHeld s = true then .next { s with twc := { s.twc with cmdBusy := true, lastOp := 7, resetWait := 1 } }
      else .next (partReset false s) := by
  refine (execReset_ready ho hb).trans (if_neg fun refused => ?_)
  simp only [h, Bool.false_or, Bool.and_eq_true, Bool.not_eq_true'] at refused
  obtain ⟨trip, hot⟩ := refused
  simp [trip, hot] at hc

/-- Settles O50: every command of power, clocks and resets acts in its turn and does nothing out of it. -/
theorem powerAndResetsFollowTheirSequence : Obligations.PowerAndResetsFollowTheirSequence := by
  unfold Obligations.PowerAndResetsFollowTheirSequence
  refine ⟨fun s => ⟨fun h => ?qualified, fun h => ?notOff, fun h => ?regulators, fun h => ?notQualified,
    fun ho hr ht hf => ?rootLocked, fun h => execRootPllLocked_notDue h, fun ho hr hs => ?serdesLocked,
    fun h => execSerdesPllLocked_notDue h, fun hr => ?lockLost, fun hr => ?noLock,
    fun locked ho hc hr hf ht hn => relockAttempt_effect ho hc hr hf ht hn locked,
    fun locked h => execRelockAttempt_notDue h locked, fun c trip sensor hc => ⟨lossOfRails_notDue hc, ?railsLost⟩,
    fun h => ?holdupEnds, fun h => ?noHoldup⟩, fun s h => ?off, fun s ho => ⟨fun hb => ?busy,
    fun hb h => ?refused, fun hb h hc => ⟨fun held => ?held, fun free => ?reset⟩, fun held => ?fundamentalHeld,
    fun free => ?fundamentalReset⟩⟩
  case qualified => exact ⟨_, congrArg Host.Outcome.next (if_pos h), rfl⟩
  case notOff => exact congrArg Host.Outcome.next (if_neg h)
  case regulators => exact ⟨_, congrArg Host.Outcome.next (if_pos h), rfl⟩
  case notQualified => exact congrArg Host.Outcome.next (if_neg h)
  case rootLocked => exact ⟨_, execRootPllLocked_due ho hr ht hf, lockRoot_shape s, lockRoot_cluster s⟩
  case serdesLocked =>
    refine ⟨_, execSerdesPllLocked_due ho hr hs, portsLit s, rfl, fun halted => resumeCommits_none fun q => ?_,
      portsLit_only s, fun p he hf hg hs => portsLit_trains he hf hg hs, fun p he => portsLit_stays he⟩
    rw [portsLit_only]
    exact halted q
  case lockLost =>
    obtain ⟨text, loses⟩ := execRootPllLockLoss_locked hr
    refine ⟨_, loses, ?_⟩
    generalize ht : report text _ = t
    obtain ⟨regs, stored, run, down⟩ := lossOfLock_effect s text ht.symm
    obtain ⟨rootLock, sOnRoot, clkFault, relockCount, linkWidth⟩ := clocksStopped_glb s
    have glb : t.glb = (clocksStopped s).glb := congrArg Prod.fst regs
    have clk : t.clk = (clocksStopped s).clk := congrArg Prod.snd regs
    obtain ⟨mem, units⟩ := stored_mem_units stored
    rw [glb, clk]
    refine ⟨rootLock, sOnRoot, clkFault, relockCount, linkWidth, clocksStopped_clk s, mem, units, fun q hq => ?_, down⟩
    rw [run q hq]
    exact ⟨rfl, rfl, rfl⟩
  case noLock => exact if_neg (by rw [hr]; decide)
  case railsLost =>
    intro ho ht
    rcases hc with ⟨rfl, rfl⟩ | ⟨rfl, rfl⟩
    · exact underVoltage_effect ho
    · exact thermalTrip_effect ho (ht rfl) sensor
  case holdupEnds => exact ⟨_, if_pos h, rfl, rfl, rfl, rfl, rfl, rfl, rfl, rfl, rfl, rfl, rfl, rfl⟩
  case noHoldup => exact if_neg h
  case off => exact ⟨if_pos (by rw [h]; rfl), if_pos (by rw [h]; rfl)⟩
  case busy => exact if_pos (by rw [hb, Bool.or_true])
  case refused => exact ⟨_, execReset_refused ho hb h, rfl⟩
  case held => exact ⟨_, (execReset_taken ho hb h hc).trans (if_pos held), rfl⟩
  case reset =>
    exact ⟨_, (execReset_taken ho hb h hc).trans (if_neg (Bool.eq_false_iff.mp free)), partReset_resets false s,
      rfl, rfl, rfl⟩
  case fundamentalHeld => exact ⟨_, (execFundamentalReset_on ho).trans (if_pos held), rfl⟩
  case fundamentalReset =>
    exact ⟨_, (execFundamentalReset_on ho).trans (if_neg (Bool.eq_false_iff.mp free)),
      partReset_resets (s.glb.trip && !allCool s) s, rfl, rfl, rfl, rfl⟩

end Sys2Proof.Machine
end

section
/-! SUPPORT. Words of a kernel (03_instructions.md R75 to R80, R136): what KBEGIN and WAIT change, and where the dispatch of
an instruction for the engines leads. -/
namespace Sys2Proof.Machine

theorem setRun_only (s : State) (q : Nat) (r : Run) : s.onlyRun q (s.setRun q r) :=
  ⟨rfl, fun p hp => by simp [hp]⟩

theorem setRun_run_self (s : State) (q : Nat) (r : Run) : (s.setRun q r).run q = r := by simp

/-! ### Words in STATE 1 -/

/-- A change of one run, and the readiness that follows from it. -/
theorem yields_settledRun {c : Instr} {s : State} {q : Nat} {r : Run} (h : exec c s = .next (settle (s.setRun q r))) :
    Yields c s fun t => ∃ u, s.onlyRun q u ∧ u.sameButReadiness t ∧ u.run q = r :=
  ⟨_, h, _, setRun_only s q r, settle_readiness _, setRun_run_self s q r⟩

theorem execKbegin_due {s : State} {q templ request : Nat} {irq pass : Bool} (hp : (s.run q).phase = .waiting)
    (hf : (s.run q).fetched = true) (hi : (s.run q).ip = 0)
    (hw : (s.run q).words[0]? = some (.kbegin templ request irq pass)) :
    exec (.kbegin q templ request irq pass) s = .next (settle (s.setRun q { s.run q with
      opened := true, ip := 1, irq := irq, pass := pass, request := request, set := 8, snd := none })) :=
  if_pos ⟨hp, hf, hi, hw⟩

theorem execWait_due {s : State} {q sync threshold : Nat} (hp : (s.run q).phase = .waiting)
    (ho : (s.run q).opened = true) (hw : (s.run q).words[(s.run q).ip]? = some (.wait sync threshold))
    (h : threshold ≤ (s.sync sync).value) :
    exec (.wait q sync threshold) s = .next (settle (s.setRun q { s.run q with ip := (s.run q).ip + 1 })) :=
  if_pos ⟨hp, ho, hw, h⟩

theorem execWait_early {s : State} {sync threshold : Nat} (h : (s.sync sync).value < threshold) (q : Nat) :
    exec (.wait q sync threshold) s = .next s :=
  if_neg fun due => Nat.not_le.mpr h due.2.2.2

/-- Settles O13: KBEGIN and a WAIT at its threshold each change the run alone, before readiness is brought up to date. -/
theorem kernelsBeginAndWait : Obligations.KernelsBeginAndWait := by
  unfold Obligations.KernelsBeginAndWait
  intro s q
  refine ⟨fun templ request irq pass hp hf hi hw => ?begins, fun sync threshold hp ho hw => ⟨fun h => ?passes, fun h => ?waits⟩⟩
  case begins => exact yields_settledRun (execKbegin_due hp hf hi hw)
  case passes => exact yields_settledRun (execWait_due hp ho hw h)
  case waits => exact execWait_early h q

/-! ### Instructions for the engines (R136) -/

/-- The command is an instruction for the engines, of queue q, with the word that spells it. -/
def isWork (q : Nat) (c : Instr) (op : Op) : Prop :=
  (∃ o, c = .prob q o ∧ op = .prob o) ∨ (∃ o, c = .attn q o ∧ op = .attn o) ∨ (∃ o, c = .rowop q o ∧ op = .rowop o) ∨
    (∃ o, c = .stripe q o ∧ op = .stripe o) ∨ ∃ o, c = .peel q o ∧ op = .peel o

theorem exec_work {q : Nat} {c : Instr} {op : Op} (h : isWork q c op) (s : State) :
    exec c s = .next (dispatchWork q op s) := by
  rcases h with ⟨o, rfl, rfl⟩ | ⟨o, rfl, rfl⟩ | ⟨o, rfl, rfl⟩ | ⟨o, rfl, rfl⟩ | ⟨o, rfl, rfl⟩ <;> rfl

/-- What a dispatched instruction has captured (R75, R84, R87). -/
def capturedInst (r : Run) (op : Op) (ds : List Desc) : Inst :=
  { word := wordIndex r, op := op, descs := ds, set := r.set, snd := r.snd }

/-- An instruction joins its run with n entries of the held log, and its word has dispatched. -/
def joinInst (q : Nat) (i : Inst) (n : Nat) (s : State) : State :=
  advance q (s.modRun q (fun x => { x with insts := x.insts ++ [i], entries := x.entries + n }))

theorem joinInst_only (q : Nat) (i : Inst) (n : Nat) (s : State) : s.onlyRun q (joinInst q i n s) :=
  ⟨rfl, fun p hp => by simp [joinInst, advance, hp]⟩

theorem joinInst_run (q : Nat) (i : Inst) (n : Nat) (s : State) : (joinInst q i n s).run q = { s.run q with
    ip := (s.run q).ip + 1, entries := (s.run q).entries + n, insts := (s.run q).insts ++ [i] } := by
  simp [joinInst, advance]

section
variable {s : State} {q : Nat} {op : Op} (next : nextWord (s.run q) op = true)
include next

theorem dispatchWork_unread {f : Flt} (unread : s.readSlots (s.ctx q) (s.run q).set op = .error f) :
    dispatchWork q op s = faultRun q f.1 f.2 (wordIndex (s.run q)) none s := by
  simp [dispatchWork, next, unread]

variable {ds : List Desc} (read : s.readSlots (s.ctx q) (s.run q).set op = .ok ds)
include read

theorem dispatchWork_disagreeing (disagree : opAgree op (tensors ds) = false) :
    dispatchWork q op s = faultRun q 0x0F 4 (wordIndex (s.run q)) none s := by
  simp [dispatchWork, next, read, disagree]

variable (agree : opAgree op (tensors ds) = true)
include agree

theorem dispatchWork_unaligned (unaligned : opAligned ds = false) :
    dispatchWork q op s = faultRun q 0x0F 5 (wordIndex (s.run q)) none s := by
  simp [dispatchWork, next, read, agree, unaligned]

variable (aligned : opAligned ds = true)
include aligned

theorem dispatchWork_zero (zero : opZero op (tensors ds) = true) : dispatchWork q op s =
    joinInst q { capturedInst (s.run q) op ds with zero := true, done := true } 0 s := by
  simp [dispatchWork, next, read, agree, aligned, zero, joinInst, capturedInst]

variable (extents : opZero op (tensors ds) = false)
include extents

theorem dispatchWork_over {d : Nat} (beyond :
    firstOver op (tensors ds) (runBounds (s.ctx q).img ds (s.run q).retileDims (s.run q).ip) = some d) :
    dispatchWork q op s = overflowRun q (s.run q).ip d (tensors ds) s := by
  simp [dispatchWork, next, read, agree, aligned, extents, beyond]

theorem dispatchWork_joins {refs : List Desc} (within :
    firstOver op (tensors ds) (runBounds (s.ctx q).img ds (s.run q).retileDims (s.run q).ip) = none)
    (room : (s.run q).entries + heldEntries (s.ctx q).img op (tensors ds) ≤ (s.template q).heldCount)
    (alternates : readRefs s (s.ctx q) (s.run q) op ds = .ok refs) (refsAligned : opAligned refs = true) :
    dispatchWork q op s = joinInst q { capturedInst (s.run q) op ds with descs := ds ++ refs }
      (heldEntries (s.ctx q).img op (tensors ds)) s := by
  simp [dispatchWork, next, read, agree, aligned, extents, within, Nat.not_lt.mpr room, alternates, refsAligned, joinInst,
    capturedInst]

end

/-- Settles O11: the dispatch of an instruction whose descriptors agree ends in one of its two joining branches. -/
theorem instructionsJoinTheirKernel : Obligations.InstructionsJoinTheirKernel := by
  unfold Obligations.InstructionsJoinTheirKernel
  intro s q c op ds work next read agree aligned
  refine ⟨fun zero => ?zero, fun refs extents within room alternates refsAligned => ?joins⟩
  case zero =>
    exact ⟨_, (exec_work work s).trans (congrArg _ (dispatchWork_zero next read agree aligned zero)),
      joinInst_only .., joinInst_run ..⟩
  case joins =>
    exact ⟨_, (exec_work work s).trans (congrArg _
      (dispatchWork_joins next read agree aligned extents within room alternates refsAligned)),
      joinInst_only .., joinInst_run ..⟩

/-! ### Words that may not dispatch -/

/-- A fault of a kernel that has not landed, of a code whose handling is to stop. -/
theorem faultRun_stops {s : State} {q code detail : Nat} (hl : (s.run q).landed = false) (hs : stopCode code (detail % 256) = true)
    (hd : detail % 256 = detail) (word : Nat) (g : Option Nat) :
    s.endedRun q code detail word true (faultRun q code detail word g s) := by
  have ends := faultRun_ends q code detail word g s hl
  rwa [hs, hd, Bool.true_or] at ends

theorem dispatch_faulted {s : State} {q : Nat} {op : Op} {f : State → Except Flt State} {e : Flt}
    (hl : (s.run q).landed = false) (next : nextWord (s.run q) op = true) (he : f s = .error e) :
    dispatch q op f s = faultRun q e.1 e.2 (wordIndex (s.run q)) none s := by
  simp [dispatch, next, he, hl]

/-- The declared held log has no room for the effects of a word (R44). -/
theorem hold_overflow {s : State} {q n : Nat} (h : (s.template q).heldCount < (s.run q).entries + n) (i : Nat)
    (effs : List Held) : hold q i n effs s = .error (0x0F, 2) := if_pos h

/-- A word whose effect the held log cannot take ends its run with INSTRUCTION detail 2. -/
theorem dispatch_overflow {s : State} {q : Nat} {op : Op} (hl : (s.run q).landed = false)
    (h : (s.template q).heldCount < (s.run q).entries + 1) (next : nextWord (s.run q) op = true) (i : Nat) (eff : Held) :
    s.endedRun q 0x0F 2 (wordIndex (s.run q)) true (dispatch q op (hold q i 1 [eff]) s) := by
  rw [dispatch_faulted hl next (hold_overflow h i [eff])]
  exact faultRun_stops hl rfl rfl _ _

theorem stopCode_overflow (detail : Nat) : stopCode 1 detail = true := by simp [stopCode]

/-- An extent above its bound, where the template does not allow re-tiling (R142). -/
theorem overflowRun_ends {s : State} {q : Nat} (hl : (s.run q).landed = false) (ht : (s.template q).retile = false)
    (d : Nat) (ts : List Tensor) :
    s.endedRun q 1 (d % 256) (wordIndex (s.run q)) true (overflowRun q (s.run q).ip d ts s) := by
  have ends := faultRun_ends q 1 d (wordIndex (s.run q)) none s hl
  rw [stopCode_overflow, Bool.true_or] at ends
  unfold overflowRun
  dsimp only
  rwa [if_pos (by rw [ht]; rfl)]

/-- Settles O20: each faulting branch of a dispatch is a fault of the run at that word, whose code tells whether the queue
stops. -/
theorem faultingWordsEndTheirRun : Obligations.FaultingWordsEndTheirRun := by
  unfold Obligations.FaultingWordsEndTheirRun
  intro s q hl
  refine ⟨fun full => ⟨fun v a p k x next => ?signal, fun v a x next => ?epoch⟩, fun c op work next =>
    ⟨fun f unread => ?unread, fun ds read => ⟨fun disagree => ?disagree, fun agree unaligned => ?unaligned,
      fun d agree aligned extents beyond ht => ?beyond⟩⟩⟩
  case signal => exact ⟨_, rfl, dispatch_overflow hl full next _ _⟩
  case epoch => exact ⟨_, rfl, dispatch_overflow hl full next _ _⟩
  case unread =>
    refine ⟨_, exec_work work s, ?_⟩
    rw [dispatchWork_unread next unread]
    exact faultRun_ends q f.1 f.2 _ none s hl
  case disagree =>
    refine ⟨_, exec_work work s, ?_⟩
    rw [dispatchWork_disagreeing next read disagree]
    exact faultRun_stops hl rfl rfl _ _
  case unaligned =>
    refine ⟨_, exec_work work s, ?_⟩
    rw [dispatchWork_unaligned next read agree unaligned]
    exact faultRun_stops hl rfl rfl _ _
  case beyond =>
    refine ⟨_, exec_work work s, ?_⟩
    rw [dispatchWork_over next read agree aligned extents beyond]
    exact overflowRun_ends hl ht d _

end Sys2Proof.Machine
end

section
/-! SUPPORT. Doorbells (02_kernels_commit.md R34): the writes of TAIL that the part ignores, what one that it accepts does, and
the order of TAIL, SKIP and RESUME in one write. -/
namespace Sys2Proof.Machine

/-! ### A write of TAIL -/

/-- The part ignores a TAIL too far ahead of HEAD, or behind the pending words (R34). -/
def tailIgnored (c : QCtx) (v : Nat) : Prop :=
  2 ^ c.ringLog2 < ahead 32 v c.head ∨ ahead 32 v c.head < ahead 32 c.tail c.head

/-- The state once TAIL is taken. -/
def tailTaken (q v : Nat) (s : State) : State := s.modQueue q (fun k => { k with tail := v })

theorem tailTaken_queue (q v : Nat) (s : State) : (tailTaken q v s).queue q = { s.queue q with tail := v } := by
  simp [tailTaken]

section
variable {s : State} {q v : Nat} (hv : v < 2 ^ 32)
include hv

theorem setTail_ignored (h : tailIgnored (s.queue q) v) : setTail q v s = s := by
  unfold setTail
  dsimp only
  rw [Nat.mod_eq_of_lt hv]
  exact if_pos h

theorem setTail_accepted (h : ¬ tailIgnored (s.queue q) v) : setTail q v s =
    if (s.queue q).state = .stopped ∧ (s.queue q).skipWaiting then trySkip q (tailTaken q v s) else tailTaken q v s := by
  unfold setTail
  dsimp only
  rw [Nat.mod_eq_of_lt hv]
  exact if_neg h

end

/-- A SKIP that completes leaves its queue idle, one that waits leaves it as it is. -/
theorem trySkip_state (q : Nat) (s : State) :
    ((trySkip q s).queue q).state = (s.queue q).state ∨ ((trySkip q s).queue q).state = .idle := by
  unfold trySkip
  dsimp only
  split
  · exact .inl (by simp)
  · exact .inr (by rw [passOver_queue, if_pos rfl])

theorem setTail_state (q v : Nat) (s : State) :
    ((setTail q v s).queue q).state = (s.queue q).state ∨ ((setTail q v s).queue q).state = .idle := by
  unfold setTail
  dsimp only
  split
  · exact .inl rfl
  · have taken : ((s.modQueue q (fun k => { k with tail := v % 2 ^ 32 })).queue q).state = (s.queue q).state := by simp
    split
    · rw [← taken]
      exact trySkip_state ..
    · exact .inl taken

/-- A doorbell that answers still does after a write of TAIL. -/
theorem setTail_open {s : State} {q : Nat} (h : doorbellOpen s q = true) (v : Nat) : doorbellOpen (setTail q v s) q = true := by
  simp only [doorbellOpen, Bool.and_eq_true, decide_eq_true_eq] at h ⊢
  obtain ⟨admitted, inService⟩ := h
  refine ⟨?_, ?_⟩
  · rcases setTail_state q v s with same | idle
    · rwa [same]
    · rw [idle]; decide
  · rw [setTail_shape]
    exact inService

/-! ### Commands of a doorbell -/

section
variable {s : State} {q : Nat} (h : doorbellOpen s q = true)
include h

theorem execTail_open {v : Nat} (hv : v < 2 ^ 32) : exec (.tail q v) s = .next (setTail q v s) := by
  change execTail q v s = _
  rw [execTail, if_pos h, Nat.mod_eq_of_lt hv]

theorem execSkip_open : exec (.skip q) s = .next (doSkip q s) := congrArg Host.Outcome.next (ringDoorbell_skip h)

theorem execResume_open : exec (.resume q) s = .next (doResume q s) := congrArg Host.Outcome.next (ringDoorbell_resume h)

end

/-- The write of a doorbell with a TAIL, and with RESUME and SKIP where r and k say so. -/
def doorbellWord (v : Nat) (r k : Bool) : Nat := v + 2 ^ 32 * boolNat r + 2 ^ 33 * boolNat k

/-- Its fields (Table 2.1). -/
theorem doorbellWord_fields {v : Nat} (hv : v < 2 ^ 32) (r k : Bool) :
    doorbellWord v r k < 2 ^ 64 ∧ doorbellWord v r k % 2 ^ 32 = v ∧ bit (doorbellWord v r k) 32 = r ∧
      bit (doorbellWord v r k) 33 = k ∧ bit (doorbellWord v r k) 34 = false := by
  cases r <;> cases k <;>
    simp only [doorbellWord, bit, boolNat, if_true, if_false, Bool.false_eq_true, decide_eq_true_eq, decide_eq_false_iff_not] <;>
    omega

/-- A write of the register of a queue's doorbell in BAR0 (Table 1.7). -/
theorem writeReg_doorbell {q : Nat} (hq : q < 524288) (w : RegWrite) (s : State) :
    writeReg 0 (0x100000 + 8 * q) w s = ringDoorbell q w.hit w.lo s := by
  have number : (0x100000 + 8 * q - 0x100000) / 8 = q := by omega
  rw [writeReg, if_pos rfl, writeBar0, if_neg (by omega), if_pos (by omega), number]

/-- TAIL comes before SKIP and RESUME of the same write, and SKIP before RESUME. -/
theorem registerWrite_doorbell {s : State} {q v : Nat} (h : doorbellOpen s q = true) (hq : q < 524288) (hv : v < 2 ^ 32)
    (r k : Bool) : exec (.registerWrite 0 (0x100000 + 8 * q) 8 (doorbellWord v r k)) s =
      if k then exec (.skip q) (setTail q v s) else if r then exec (.resume q) (setTail q v s) else .next (setTail q v s) := by
  obtain ⟨small, tail, resume, skip, clear⟩ := doorbellWord_fields hv r k
  have answers := setTail_open h v
  have rings : exec (.registerWrite 0 (0x100000 + 8 * q) 8 (doorbellWord v r k)) s =
      .next (ringDoorbell q (doorbellWord v r k) true s) := by
    refine congrArg Host.Outcome.next ?_
    rw [writeAccess, if_pos ⟨rfl, by omega⟩, Nat.mod_eq_of_lt small, writeReg_doorbell hq]
  rw [rings, ringDoorbell, if_pos h, execSkip_open answers, execResume_open answers, tail, resume, skip, clear]
  cases k <;> cases r <;> rfl

/-- Settles O14: a write of the register is one of TAIL and then the commands that its bits name; TAIL is ignored, taken, or
taken and lets a waiting SKIP try again. -/
theorem doorbellsFollowR34 : Obligations.DoorbellsFollowR34 := by
  unfold Obligations.DoorbellsFollowR34
  intro s q v ho hq hv
  have plain := registerWrite_doorbell ho hq hv false false
  refine ⟨fun ignored => ⟨?ignoredTail, ?ignoredWrite⟩, fun near fresh => ?accepted, fun r k => ?order,
    fun running => ⟨?noResume, ?noSkip⟩⟩
  case ignoredTail => rw [execTail_open ho hv, setTail_ignored hv ignored]
  case ignoredWrite => rwa [setTail_ignored hv ignored] at plain
  case accepted =>
    have taken : setTail q v s = _ := setTail_accepted hv (fun k : tailIgnored (s.queue q) v => by
      unfold tailIgnored at k; omega)
    refine ⟨tailTaken q v s, setQueue_only .., tailTaken_queue .., ?_, fun none_waits => ?_, fun stopped waits => ?_⟩
    · rw [tailTaken_queue]
      exact fresh
    · rw [execTail_open ho hv, taken, if_neg fun both => ?_]
      obtain ⟨stopped, waits⟩ := both
      rcases none_waits with running | still
      · exact running stopped
      · rw [still] at waits
        cases waits
    · have answers : doorbellOpen (tailTaken q v s) q = true := by
        rw [← ho, doorbellOpen, doorbellOpen, tailTaken_queue]
        rfl
      have halted : ((tailTaken q v s).queue q).state = .stopped := by rw [tailTaken_queue]; exact stopped
      rw [execTail_open ho hv, taken, if_pos ⟨stopped, waits⟩, execSkip_open answers, doSkip_stopped halted]
  case order => exact ⟨_, execTail_open ho hv, registerWrite_doorbell ho hq hv r k⟩
  case noResume => rw [execResume_open ho, doResume, if_neg running]
  case noSkip => rw [execSkip_open ho, doSkip, if_neg running]

end Sys2Proof.Machine
end

section
/-! SUPPORT. Sync objects (02_kernels_commit.md R36, R37): what a SIGNAL and software's write change. -/
namespace Sys2Proof.Machine

theorem raiseVector_sync (n i : Nat) (s : State) : (raiseVector n s).sync i = s.sync i := by
  rw [raiseVector_glb]
  rfl

theorem applySignal_value {s : State} {i : Nat} (h : (s.sync i).allocated = true) (add dropped : Bool) (v : Nat) :
    ((applySignal add i v dropped s).sync i).value = if add then satAdd 64 (s.sync i).value v else v % 2 ^ 64 := by
  unfold applySignal
  dsimp only
  rw [if_neg (by rw [h]; decide)]
  split
  · rw [raiseVector_sync, setSync_sync, if_pos rfl]
  · rw [setSync_sync, if_pos rfl]

/-- A SIGNAL reaches no run. -/
theorem applySignal_run (add dropped : Bool) (i v q : Nat) (s : State) : (applySignal add i v dropped s).run q = s.run q :=
  congrArg Prod.fst (applySignal_own add dropped i v q s)

theorem execSynValueWrite_due {s : State} {i : Nat} (ha : (s.sync i).allocated = true) (hf : s.fenced (syncHalf i) = false)
    (v : Nat) : exec (.synValueWrite i v) s = .next (s.setSync i { s.sync i with value := v % 2 ^ 64 }) :=
  if_pos (by rw [ha, hf]; rfl)

theorem execSynValueWrite_ignored {s : State} {i : Nat} (h : (s.sync i).allocated = false ∨ s.fenced (syncHalf i) = true)
    (v : Nat) : exec (.synValueWrite i v) s = .next s := by
  refine if_neg fun due => ?_
  simp only [Bool.and_eq_true, Bool.not_eq_true'] at due
  obtain ⟨allocated, inService⟩ := due
  simp [allocated, inService] at h

/-- Software's write of SYN_VALUE reaches no run. -/
theorem synValueWrite_run (s : State) (i v q : Nat) : Yields (.synValueWrite i v) s fun t => t.run q = s.run q := by
  by_cases h : (s.sync i).allocated = false ∨ s.fenced (syncHalf i) = true
  · exact ⟨s, execSynValueWrite_ignored h v, rfl⟩
  · simp only [not_or, Bool.not_eq_false, Bool.not_eq_true] at h
    exact ⟨_, execSynValueWrite_due h.1 h.2 v, rfl⟩

theorem setSync_only (s : State) (i : Nat) (v : Sync) : s.onlySync i (s.setSync i v) :=
  ⟨rfl, fun j hj => by simp [hj]⟩

theorem settle_ip (s : State) (q : Nat) : ((settle s).run q).ip = (s.run q).ip := by
  rw [(settle_readiness s).2.1 q]

/-- Settles O16: a SIGNAL and software's write each set one sync object, and a passed WAIT is a step of the run, which
neither of them reaches. -/
theorem syncValuesAndWaitsFollowR37 : Obligations.SyncValuesAndWaitsFollowR37 := by
  unfold Obligations.SyncValuesAndWaitsFollowR37
  refine ⟨fun s i v dropped ha hv => ⟨?adds, ?sets⟩, fun s q i threshold hp ho hw => ⟨fun h => ?passes, fun h => ?waits⟩,
    fun s i v => ⟨fun ha hf => ?writes, fun h => ?ignores⟩⟩
  case adds => rw [applySignal_value ha, if_pos rfl, satAdd]
  case sets => rw [applySignal_value ha, if_neg Bool.false_ne_true, Nat.mod_eq_of_lt hv]
  case passes =>
    refine ⟨_, execWait_due hp ho hw h, ?_, fun j v add dropped => ⟨synValueWrite_run .., applySignal_run ..⟩⟩
    rw [settle_ip, setRun_run_self]
  case waits => exact execWait_early h q
  case writes => exact ⟨_, execSynValueWrite_due ha hf v, setSync_only .., by simp⟩
  case ignores => exact execSynValueWrite_ignored h v

end Sys2Proof.Machine
end

section
/-! SUPPORT. Fetching (02_kernels_commit.md R40): which words a fetch takes. -/
namespace Sys2Proof.Machine

/-- Word i of the ring from an index on is pending and matches a template word (R40). -/
def wordMatches (s : State) (q start i : Nat) (w : BitVec 256) : Prop :=
  i < pendingFrom (s.queue q) start ∧ matchesTemplate w.toNat (s.ringWord q ((start + i) % 2 ^ 32)) = true

/-- Word i of the ring from an index on, decoded. -/
def fetchedOp (s : State) (q start i : Nat) : Op := (decodeOp (s.ringWord q ((start + i) % 2 ^ 32))).getD .nop

/-- A fetch that goes through has taken each word that it compared, in order. -/
theorem fetchAlong_good {s : State} {q start templ t : Nat} {ws : List (BitVec 256)} {i : Nat} {acc ops : List Op}
    (h : fetchAlong s q start templ ws i acc = .good t ops) :
    t = templ ∧ ops = acc.reverse ++ (List.range' i ws.length).map (fetchedOp s q start) ∧
      ∀ j w, ws[j]? = some w → wordMatches s q start (i + j) w := by
  induction ws generalizing i acc with
  | nil =>
    rw [fetchAlong, Fetched.good.injEq] at h
    obtain ⟨rfl, rfl⟩ := h
    exact ⟨rfl, by simp, by simp⟩
  | cons w ws ih =>
    rw [fetchAlong] at h
    by_cases pending : i ≥ pendingFrom (s.queue q) start
    · rw [if_pos pending] at h
      cases h
    rw [if_neg pending] at h
    split at h
    · cases h
    · by_cases same : matchesTemplate w.toNat (s.ringWord q ((start + i) % 2 ^ 32)) = true
      · rw [if_pos same] at h
        obtain ⟨ht, hops, rest⟩ := ih h
        refine ⟨ht, ?_, fun j x hx => ?_⟩
        · rw [hops, List.length_cons, List.range'_succ, List.map_cons, List.reverse_cons, List.append_assoc]
          rfl
        · cases j with
          | zero =>
            rw [List.getElem?_cons_zero, Option.some.injEq] at hx
            subst hx
            exact ⟨by omega, same⟩
          | succ j =>
            rw [List.getElem?_cons_succ] at hx
            rw [show i + (j + 1) = i + 1 + j by omega]
            exact rest j x hx
      · rw [if_neg same] at h
        cases h

/-- A fetch that goes through follows the template that its KBEGIN names, one of this queue. -/
theorem fetchAt_good {s : State} {q start templ : Nat} {ops : List Op} (h : fetchAt s q start = .good templ ops) :
    ∃ k req irq pass, decodeOp (s.ringWord q start) = some (.kbegin templ req irq pass) ∧
      (s.imageOf (s.queue q).berth).templates[templ]? = some k ∧ k.queue = q ∧
      fetchAlong s q start templ k.words 0 [] = .good templ ops := by
  unfold fetchAt at h
  split at h
  · cases h
  split at h
  · cases h
  · next t req irq pass readable word =>
    split at h
    · cases h
    · next k found =>
      split at h
      · next mine =>
        have named := (fetchAlong_good h).1
        subst named
        exact ⟨k, req, irq, pass, word, found, mine, h⟩
      · cases h
  · cases h

/-- Settles O21: a fetch that goes through is a comparison, word by word, with the template that its KBEGIN names. -/
theorem fetchedKernelsMatchTheirTemplate : Obligations.FetchedKernelsMatchTheirTemplate := by
  unfold Obligations.FetchedKernelsMatchTheirTemplate
  intro s q start templ ops h
  obtain ⟨k, req, irq, pass, word, found, mine, along⟩ := fetchAt_good h
  obtain ⟨-, hops, matched⟩ := fetchAlong_good along
  rw [List.reverse_nil, List.nil_append, ← List.range_eq_range'] at hops
  refine ⟨k, found, mine, by simp [hops], ⟨req, irq, pass, word⟩, fun i w hw => ?_⟩
  obtain ⟨pending, same⟩ := matched i w hw
  rw [Nat.zero_add] at pending same
  refine ⟨pending, same, ?_⟩
  have inside : i < k.words.length := (List.getElem?_eq_some_iff.mp hw).1
  rw [hops, List.getElem?_map, List.getElem?_range inside]
  rfl

/-! ### The fetched kernel -/

theorem installRun_shape (q start templ : Nat) (ops : List Op) (s : State) : installRun q start templ ops s =
    { s with queues := (installRun q start templ ops s).queues, runs := (installRun q start templ ops s).runs } := rfl

theorem installRun_queue (q start templ p : Nat) (ops : List Op) (s : State) : (installRun q start templ ops s).queue p =
    if p = q then { s.queue q with state := .waiting, kernelStart := start } else s.queue p := by
  simp [installRun]

theorem installRun_run_ne {p q : Nat} (h : p ≠ q) (start templ : Nat) (ops : List Op) (s : State) :
    (installRun q start templ ops s).run p = s.run p := by
  simp [installRun, h]

theorem installRun_run {ops : List Op} {k req : Nat} {irq pass : Bool} (h : ops.headD .nop = .kbegin k req irq pass)
    (q start templ : Nat) (s : State) : (installRun q start templ ops s).run q = { s.run q with
      words := ops, start := start, templ := templ, fetched := true, opened := false, ip := 0, phase := .waiting
      waitMig := false, waitGroup := none, wide := false, request := req, irq := irq, pass := pass } := by
  unfold installRun
  rw [h]
  simp

/-- The queue before a fetch: no re-run has counted, and of the last kernel only trays on their way back are left. -/
def readyToFetch (q : Nat) (s : State) : State :=
  (s.modQueue q (fun x => { x with rerunCount := 0 })).setRun q { traysOut := (s.run q).traysOut }

theorem readyToFetch_queue (q p : Nat) (s : State) : (readyToFetch q s).queue p =
    if p = q then { s.queue q with rerunCount := 0 } else s.queue p := by
  simp [readyToFetch]

theorem readyToFetch_run (q p : Nat) (s : State) : (readyToFetch q s).run p =
    if p = q then { traysOut := (s.run q).traysOut } else s.run p := by
  simp [readyToFetch]

/-- No switch turns the kernel of a queue away that no open slot serves (R381). -/
theorem bakeSkip_unserved {s : State} {q : Nat} (h : openSlotOf s q = none) (req : Option Nat) (started : Bool) :
    bakeSkip s q req started = .none := by
  simp [bakeSkip, h]

/-- A due fetch is one of the kernel at HEAD. -/
theorem execKernelFetch_due {s : State} {q : Nat} (hm : mayFetch s q = true) (ho : openSlotOf s q = none)
    (hs : (s.queue q).state = .idle) (hp : pendingFrom (s.queue q) (s.queue q).head ≠ 0) : exec (.kernelFetch q) s =
      match fetchAt s q (s.queue q).head with
      | .short => .next s
      | .bad i _ => .next (fetchFault q (s.queue q).head i (0x0F, 1) (readyToFetch q s))
      | .fault i f => .next (fetchFault q (s.queue q).head i f (readyToFetch q s))
      | .good t ops => .next (settle (installRun q (s.queue q).head t ops (readyToFetch q s))) := by
  change execKernelFetch q s = _
  unfold execKernelFetch
  dsimp only
  rw [if_pos ⟨hs, hp, hm⟩, bakeSkip_unserved ho]
  rfl

theorem execKernelRerun_due {s : State} {q : Nat} (hm : mayFetch s q = true) (hs : (s.queue q).state = .waiting)
    (hk : (s.run q).phase = .killed) (ht : (s.run q).traysOut = [])
    (hf : (s.run q).waitMig = true → footprintBusy s (s.ctx q) = false) (hg : groupSettled s (s.run q).waitGroup = true)
    {templ : Nat} {ops : List Op} (h : fetchAt s q (s.queue q).kernelStart = .good templ ops) :
    exec (.kernelRerun q) s = .next (settle (installRun q (s.queue q).kernelStart templ ops s)) := by
  have placed : (!((s.run q).waitMig && footprintBusy s (s.ctx q))) = true := by
    cases hw : (s.run q).waitMig
    · rfl
    · rw [hf hw]; rfl
  change execKernelRerun q s = _
  unfold execKernelRerun
  dsimp only
  rw [if_pos ⟨hs, hk, ht, hm, placed, hg⟩, h]

/-- A fetch that fails ends the run at the word that it could not take. -/
theorem fetchFault_ends {s : State} {q : Nat} (hl : (s.run q).landed = false) (start i : Nat) (f : Flt) :
    State.endedRun ((s.modRun q (fun r => { r with start := start, fetched := true, phase := .waiting })).modQueue q
      (fun c => { c with kernelStart := start })) q f.1 (f.2 % 256) ((start + i) % 2 ^ 32)
      (stopCode f.1 (f.2 % 256) || (f.1 ≠ 5 && decide ((s.queue q).rerunCount ≥ 15))) (fetchFault q start i f s) := by
  have ends := faultRun_ends q f.1 f.2 ((start + i) % 2 ^ 32) none
    ((s.modRun q (fun r => { r with start := start, fetched := true, phase := .waiting })).modQueue q
      (fun c => { c with kernelStart := start })) (by simpa using hl)
  have count : (((s.modRun q (fun r => { r with start := start, fetched := true, phase := .waiting })).modQueue q
      (fun c => { c with kernelStart := start })).queue q).rerunCount = (s.queue q).rerunCount := by simp
  rwa [count] at ends

/-- What a failed fetch of the kernel at HEAD leaves of the queue, its run and the stored bytes. -/
theorem fetchFault_effect (q i : Nat) (f : Flt) (s : State) {t : State}
    (h : t = fetchFault q (s.queue q).head i f (readyToFetch q s)) :
    t.mem = s.mem ∧ t.syncs = s.syncs ∧ (t.run q).phase = .killed ∧
      t.queue q = { s.queue q with
        state := if stopCode f.1 (f.2 % 256) then .stopped else .waiting
        skipWaiting := !stopCode f.1 (f.2 % 256) && (s.queue q).skipWaiting
        kernelStart := (s.queue q).head, faultWord := ((s.queue q).head + i) % 2 ^ 32, faultCode := f.1
        faultDetail := f.2 % 256, rerunCount := if stopCode f.1 (f.2 % 256) || f.1 = 5 then 0 else 1
        killCount := wrapAdd 64 (s.queue q).killCount 1 } := by
  subst h
  have landed : ((readyToFetch q s).run q).landed = false := by rw [readyToFetch_run, if_pos rfl]
  obtain ⟨queue, -, phase, -, -, -, -, -, -, -, mem, -, -, syncs⟩ := fetchFault_ends landed (s.queue q).head i f
  refine ⟨mem, syncs, phase, ?_⟩
  simpa [readyToFetch_queue, wrapAdd] using queue

/-- What a fetch that goes through leaves, before readiness is brought up to date. -/
theorem installRun_fetched {ops : List Op} {k req : Nat} {irq pass : Bool} (h : ops.headD .nop = .kbegin k req irq pass)
    (q start templ : Nat) (s : State) {u : State} (hu : u = installRun q start templ ops (readyToFetch q s)) :
    u = { s with queues := u.queues, runs := u.runs } ∧ (∀ p, p ≠ q → u.queue p = s.queue p ∧ u.run p = s.run p) ∧
      u.queue q = { s.queue q with state := .waiting, kernelStart := start, rerunCount := 0 } ∧
      u.run q = { words := ops, start := start, templ := templ, fetched := true, request := req, irq := irq, pass := pass
                  traysOut := (s.run q).traysOut } := by
  subst hu
  refine ⟨rfl, fun p hp => ⟨?_, ?_⟩, ?_, ?_⟩
  · rw [installRun_queue, if_neg hp, readyToFetch_queue, if_neg hp]
  · rw [installRun_run_ne hp, readyToFetch_run, if_neg hp]
  · rw [installRun_queue, if_pos rfl, readyToFetch_queue, if_pos rfl]
  · rw [installRun_run h, readyToFetch_run, if_pos rfl]

/-- Settles O22: a due fetch installs the kernel, or ends in a fault at the word that it could not take. -/
theorem kernelsAreFetched : Obligations.KernelsAreFetched := by
  unfold Obligations.KernelsAreFetched
  intro s q hm ho
  refine ⟨fun hs hp => ⟨fun templ ops k req irq pass good head => ?fetched, fun i k bad => ?differs, fun i f fault => ?unreadable⟩,
    fun hs hk ht hf hg templ ops k req irq pass good head => ?restarts⟩
  case fetched =>
    have due := execKernelFetch_due hm ho hs hp
    rw [good] at due
    exact ⟨_, due, _, settle_readiness _, installRun_fetched head q _ templ s rfl⟩
  case differs =>
    have due := execKernelFetch_due hm ho hs hp
    rw [bad] at due
    exact ⟨_, due, fetchFault_effect q i (0x0F, 1) s rfl⟩
  case unreadable =>
    have due := execKernelFetch_due hm ho hs hp
    rw [fault] at due
    obtain ⟨mem, syncs, phase, queue⟩ := fetchFault_effect q i f s rfl
    refine ⟨_, due, mem, syncs, phase, ?_⟩
    rw [queue]
    exact ⟨rfl, rfl, rfl, rfl⟩
  case restarts =>
    refine ⟨_, execKernelRerun_due hm hs hk ht hf hg good, _, settle_readiness _, installRun_shape .., fun p hp => ⟨?_, ?_⟩,
      ?_, installRun_run head ..⟩
    · rw [installRun_queue, if_neg hp]
    · rw [installRun_run_ne hp]
    · rw [installRun_queue, if_pos rfl, ← hs]

end Sys2Proof.Machine
end

section
/-! SUPPORT. Trays (12_trays_harbour.md R299 to R301): what the return of a killed run's trays and the scrub of a tray leave. -/
namespace Sys2Proof.Machine

theorem modTray_shape (s : State) (c k : Nat) (f : Tray → Tray) :
    s.modTray c k f = { s with cores := (s.modTray c k f).cores } := rfl

theorem modTray_tray (s : State) (c k : Nat) (f : Tray → Tray) (d j : Nat) :
    (s.modTray c k f).tray d j = if (d, j) = (c, k) then f (s.tray c k) else s.tray d j := by
  simp only [State.tray, State.modTray, modCore_eq, setCore_core, Prod.mk.injEq]
  by_cases hd : d = c
  · subst hd
    simp
  · simp [hd]

/-- A loop over trays changes the cores alone. -/
theorem forEach_modTray_shape {α : Type} (g : α → Nat × Nat) (f : Tray → Tray) (l : List α) (s : State) :
    forEach l (fun x t => t.modTray (g x).1 (g x).2 f) s =
      { s with cores := (forEach l (fun x t => t.modTray (g x).1 (g x).2 f) s).cores } :=
  forEach_rel (R := fun s t => t = { s with cores := t.cores }) (fun _ => rfl) (fun s t u hst htu => by rw [htu, hst])
    _ (fun _ t => modTray_shape t _ _ f) l s

/-- What a change that is the same when made twice does to the trays of a list. -/
theorem forEach_modTray {f : Tray → Tray} (hf : ∀ y, f (f y) = f y) (l : List (Nat × Nat)) (s : State) (c k : Nat) :
    (forEach l (fun p t => t.modTray p.1 p.2 f) s).tray c k = if (c, k) ∈ l then f (s.tray c k) else s.tray c k := by
  induction l generalizing s with
  | nil => simp [forEach_nil]
  | cons p l ih =>
    obtain ⟨d, j⟩ := p
    rw [forEach_cons, ih, modTray_tray]
    by_cases here : (c, k) = (d, j)
    · rw [if_pos here, if_pos (List.mem_cons.mpr (.inl here)), hf, ite_self]
      rw [Prod.mk.injEq] at here
      rw [here.1, here.2]
    · rw [if_neg here]
      simp only [List.mem_cons, here, false_or]

/-! ### The return of trays -/

/-- A tray that has gone back to the scheduler (R299). -/
def returned (y : Tray) : Tray :=
  { y with owner := if y.parkedBy.isSome then 0x9 else if y.pinned then 0xA else 0, scrubbing := false, scrubFor := 0 }

/-- The trays of a killed run have returned. -/
def traysReturned (q : Nat) (s : State) : State :=
  (forEach (s.run q).traysOut (fun p t => returnTray p.1 p.2 t) s).modRun q (fun r => { r with traysOut := [] })

theorem execKillTraysReturned_eq (q : Nat) (s : State) :
    exec (.killTraysReturned q) s = .next (settle (traysReturned q s)) := rfl

theorem returnTrays_shape (l : List (Nat × Nat)) (s : State) : forEach l (fun p t => returnTray p.1 p.2 t) s =
    { s with cores := (forEach l (fun p t => returnTray p.1 p.2 t) s).cores } :=
  forEach_modTray_shape id returned l s

theorem traysReturned_shape (q : Nat) (s : State) :
    traysReturned q s = { s with cores := (traysReturned q s).cores, runs := (traysReturned q s).runs } := by
  unfold traysReturned
  rw [returnTrays_shape]
  rfl

theorem traysReturned_run (q p : Nat) (s : State) : (traysReturned q s).run p =
    if p = q then { s.run q with traysOut := [] } else s.run p := by
  unfold traysReturned
  rw [returnTrays_shape, modRun_eq, setRun_run]
  rfl

theorem traysReturned_tray (q c k : Nat) (s : State) : (traysReturned q s).tray c k =
    if (c, k) ∈ (s.run q).traysOut then returned (s.tray c k) else s.tray c k := by
  have back := forEach_modTray (f := returned) (fun y => rfl) (s.run q).traysOut s c k
  exact back

theorem settle_core (s : State) (c : Nat) : (settle s).core c = s.core c := by
  rw [(settle_readiness s).1]
  rfl

theorem settle_tray (s : State) (c k : Nat) : (settle s).tray c k = s.tray c k := by
  rw [State.tray, State.tray, settle_core]

/-! ### The scrub of a tray -/

/-- The tray is all zero, and its BERTH that for which it was scrubbed (R301). -/
def scrubbed (core tray : Nat) (s : State) : State :=
  { s.modTray core tray (fun k => { k with scrubbing := false, scrubFor := 0, berth := k.scrubFor }) with
    trays := zeroBytes s.trays (trayKey core tray 0) 131072 }

/-- Engines of the crew that holds a core start what they can. -/
def crewStarts (core : Nat) (s : State) : State :=
  match (s.core core).crew with
  | some q => startIdle q s
  | none => s

theorem execTrayScrubDone_due {s : State} {core tray : Nat} (h : (s.tray core tray).scrubbing = true) :
    exec (.trayScrubDone core tray) s = .next (tryAdmit core tray (crewStarts core (scrubbed core tray s))) := if_pos h

theorem scrubbed_tray (core tray c k : Nat) (s : State) : (scrubbed core tray s).tray c k =
    if c = core ∧ k = tray then { s.tray c k with scrubbing := false, scrubFor := 0, berth := (s.tray c k).scrubFor }
    else s.tray c k := by
  have one := modTray_tray s core tray (fun k => { k with scrubbing := false, scrubFor := 0, berth := k.scrubFor }) c k
  simp only [Prod.mk.injEq] at one
  refine Eq.trans one ?_
  split
  · next h => rw [h.1, h.2]
  · rfl

theorem crewStarts_starts (core : Nat) (s : State) : s.sameButStarts (crewStarts core s) := by
  unfold crewStarts
  split
  · exact startIdle_starts ..
  · exact .refl s

/-- Engines that start touch neither the bytes nor the owner registers of trays, nor an operator command. -/
theorem sameButStarts_trays {s t : State} (h : s.sameButStarts t) :
    t.trays = s.trays ∧ t.twc = s.twc ∧ ∀ c k, t.tray c k = s.tray c k := by
  obtain ⟨shape, -, -, -, -, core, -, -⟩ := h
  refine ⟨by rw [shape], by rw [shape], fun c k => ?_⟩
  rw [State.tray, core c]
  rfl

theorem tryAdmit_unasked {s : State} {core tray : Nat} (h : s.twc.pendScrub.contains (core, tray) = false) :
    tryAdmit core tray s = s := if_pos (by rw [h]; rfl)

/-- Settles O23: a return changes the trays of its list alone, a scrub one tray, before readiness, engines and a waiting
admission follow. -/
theorem traysReturnAndAreScrubbed : Obligations.TraysReturnAndAreScrubbed := by
  unfold Obligations.TraysReturnAndAreScrubbed
  refine ⟨fun s q => ?returns, fun s core tray h => ?scrubs⟩
  case returns =>
    refine ⟨_, execKillTraysReturned_eq q s, traysReturned q s, settle_readiness _, traysReturned_shape q s, fun p hp => ?_, ?_,
      fun c k => ?_⟩
    · rw [traysReturned_run, if_neg hp]
    · rw [traysReturned_run, if_pos rfl]
    · rw [settle_tray, traysReturned_tray]
      rfl
  case scrubs =>
    have starts := crewStarts_starts core (scrubbed core tray s)
    obtain ⟨bytes, twc, owners⟩ := sameButStarts_trays starts
    refine ⟨_, execTrayScrubDone_due h, scrubbed core tray s, _, starts, rfl, rfl, fun unasked => ?_, fun a => ?_,
      fun c k => ?_⟩
    · exact tryAdmit_unasked (by rw [twc]; exact unasked)
    · rw [bytes]
      exact rdByte_zeroBytes ..
    · rw [owners, scrubbed_tray]

end Sys2Proof.Machine
end

section
/-! SUPPORT. The crew grant (11_scheduler.md R134, R371, R372). -/
namespace Sys2Proof.Machine

/-- No switch turns the kernel away (R381), so what the grant does turns on its readiness alone. -/
theorem execCrewGrant_ready {s : State} {q : Nat} (ho : openSlotOf s q = none) (hm : mayLeave s q = true) :
    exec (.crewGrant q) s =
      if zeroShape s q then .next (settle (leaveState1 q s))
      else if aheadNow s q then .next s
      else if crewNow s q then
        .next (settle (takeCrew q ((qualifying s q (wideNow s q)).take (s.template q).coresMax) (leaveState1 q s)))
      else .next (settle (preemptFor q s.runs.length s)) := by
  change execCrewGrant q s = _
  unfold execCrewGrant
  simp only [bakeSkip_unserved ho, ite_self, applyBake, hm, Bool.not_true, Bool.false_eq_true, if_false]

/-- What a run keeps of its fields when only its place in time moves. -/
theorem settle_run (s : State) (q : Nat) : (settle s).run q = { s.run q with readyAt := ((settle s).run q).readyAt } :=
  (settle_readiness s).2.1 q

/-- A crew that is taken: its run, its cores, and nothing else but what its cores and their runs hold. -/
theorem takeCrew_facts (q : Nat) (cores : List Nat) (s : State) :
    takeCrew q cores s = { s with cores := (takeCrew q cores s).cores, runs := (takeCrew q cores s).runs } ∧
      (∃ m, (takeCrew q cores s).run q = { s.run q with crew := sortNat cores, trayMap := m }) ∧
      ∀ c, if c ∈ sortNat cores then ((takeCrew q cores s).core c).crew = some q
        else (takeCrew q cores s).core c = s.core c := by
  obtain ⟨shape, -, ⟨m, own⟩, joined⟩ := joinAll q (fun c _ =>
    (decide (c = (sortNat cores).headD 0), usesStripe (s.run q).words &&
      !((sortNat cores).any (fun d => clusterOf d = clusterOf c && decide (d > c)))))
    (sortNat cores) (s.modRun q (fun x => { x with crew := sortNat cores }))
  refine ⟨shape, ⟨m, ?_⟩, joined⟩
  refine own.trans ?_
  rw [modRun_eq, setRun_run, if_pos rfl]

/-- Settles O24: a zero-shape kernel only leaves STATE 1; any other also takes the qualifying cores. -/
theorem readyKernelsTakeTheirCrew : Obligations.ReadyKernelsTakeTheirCrew := by
  unfold Obligations.ReadyKernelsTakeTheirCrew
  intro s q ho hm
  obtain ⟨left, here, others, _, _, _, sampled⟩ := leaveState1_facts q s
  refine ⟨fun hz => ?zero, fun hz ha hc => ?crew⟩
  case zero =>
    refine ⟨_, by rw [execCrewGrant_ready ho hm, if_pos hz], ?_⟩
    have settled := (settle_readiness (leaveState1 q s)).1
    beta_reduce
    rw [settle_run, sampled]
    refine ⟨by rw [settle_queue, here], fun p hp => by rw [settle_queue, (others p hp).1], rfl, hz, rfl, rfl, rfl, ?_⟩
    rw [settled, left]
    exact ⟨rfl, rfl, rfl⟩
  case crew =>
    refine ⟨_, by rw [execCrewGrant_ready ho hm, if_neg (by simp [hz]), if_neg (by simp [ha]), if_pos hc], ?_⟩
    obtain ⟨shape, ⟨m, own⟩, joined⟩ :=
      takeCrew_facts q ((qualifying s q (wideNow s q)).take (s.template q).coresMax) (leaveState1 q s)
    generalize takeCrew q _ _ = u at shape own joined ⊢
    have settled := (settle_readiness u).1
    have queues : ∀ p, u.queue p = (leaveState1 q s).queue p := fun p => by rw [shape]; rfl
    have cores : ∀ c, (leaveState1 q s).core c = s.core c := fun c => by rw [left]; rfl
    rw [settle_run, own, sampled]
    refine ⟨by rw [settle_queue, queues, here], fun p hp => by rw [settle_queue, queues, (others p hp).1], rfl, rfl, rfl, rfl,
      fun c h => ?_, fun c h => ?_, ?_⟩
    · have := joined c
      rwa [if_pos h, ← settle_core] at this
    · have := joined c
      rwa [if_neg h, ← settle_core, cores] at this
    · rw [settled, shape, left]
      exact ⟨rfl, rfl, rfl⟩

end Sys2Proof.Machine
end

section
/-! SUPPORT. The start of a commit and its phase 1 (02_kernels_commit.md R45, 09_backward.md R231). -/
namespace Sys2Proof.Machine

theorem execCommitBegin_due {s : State} {q : Nat} (hd : drained (s.run q) = true)
    (hr : (s.run q).landed = true ∨ s.twc.resetWait = 0) : exec (.commitBegin q) s =
      .next ((s.modRun q (fun r => { r with phase := .committing, commitPhase := 1 })).modQueue q
        (fun c => { c with state := .committing })) := by
  change execCommitBegin q s = _
  unfold execCommitBegin
  rw [if_pos]
  rcases hr with hr | hr <;> simp [hd, hr]

theorem execCommitBegin_early {s : State} {q : Nat}
    (h : drained (s.run q) = false ∨ (s.run q).landed = false ∧ s.twc.resetWait ≠ 0) :
    exec (.commitBegin q) s = .next s := by
  change execCommitBegin q s = _
  unfold execCommitBegin
  rw [if_neg]
  rcases h with h | ⟨hl, hw⟩
  · simp [h]
  · simp [hl, hw]

/-! ### Working copies -/

/-- Where the committed copy of an accumulator word lies, whose working copy stands 2^16 above it (R231). -/
def wordAt (img : Image) (p : Nat × Nat) : Option Nat :=
  (img.accs.find? (fun a => a.tray = p.2 / 2 ^ 32)).map (fun a =>
    trayKey (a.cores.getD (p.2 % 2 ^ 32 / 2 ^ 14) 0) (p.2 / 2 ^ 32) (4 * (p.2 % 2 ^ 32 % 2 ^ 14)))

theorem trayKey_working (core tray off : Nat) : trayKey core tray (off + 65536) = trayKey core tray off + 2 ^ 16 := by
  unfold trayKey
  omega

/-- The working copy of one word becomes the committed one. -/
def publishWord (img : Image) (p : Nat × Nat) (m : Memory) : Memory :=
  match wordAt img p with
  | none => m
  | some k => wrBytes m k (rdBytes m (k + 2 ^ 16) 4)

/-- Of the words that l names, one has its committed byte at a. -/
def publishes (img : Image) (l : List (Nat × Nat)) (a : Nat) : Prop :=
  ∃ p ∈ l, ∃ k, wordAt img p = some k ∧ k ≤ a ∧ a < k + 4

/-- Committed copies fill the lower half of their tray. -/
theorem wordAt_low {img : Image} {p : Nat × Nat} {k a : Nat} (h : wordAt img p = some k) (ha : k ≤ a ∧ a < k + 4) :
    a % 2 ^ 17 < 2 ^ 16 := by
  simp only [wordAt, trayKey, Option.map_eq_some_iff] at h
  obtain ⟨d, -, rfl⟩ := h
  omega

theorem publishWord_byte (img : Image) (p : Nat × Nat) (m : Memory) (a : Nat) :
    ((∃ k, wordAt img p = some k ∧ k ≤ a ∧ a < k + 4) → rdByte (publishWord img p m) a = rdByte m (a + 2 ^ 16)) ∧
      ((¬ ∃ k, wordAt img p = some k ∧ k ≤ a ∧ a < k + 4) → rdByte (publishWord img p m) a = rdByte m a) := by
  unfold publishWord
  cases hw : wordAt img p with
  | none => simp
  | some k =>
    have four : (rdBytes m (k + 2 ^ 16) 4).length = 4 := rfl
    simp only [Option.some.injEq, exists_eq_left', rdByte_wrBytes, four]
    refine ⟨fun h => ?_, fun h => if_neg h⟩
    rw [if_pos h, rdBytes_getD _ _ _ _ (by omega)]
    congr 1
    omega

/-- Words published one after another: no published byte is another's source, so the order does not matter. -/
theorem publishWords_byte (img : Image) (l : List (Nat × Nat)) (m : Memory) (a : Nat) :
    (publishes img l a → rdByte (l.foldl (fun m p => publishWord img p m) m) a = rdByte m (a + 2 ^ 16)) ∧
      (¬ publishes img l a → rdByte (l.foldl (fun m p => publishWord img p m) m) a = rdByte m a) := by
  induction l generalizing m with
  | nil => simp [publishes]
  | cons p l ih =>
    rw [List.foldl_cons]
    obtain ⟨later, kept⟩ := ih (publishWord img p m)
    obtain ⟨here, off⟩ := publishWord_byte img p m a
    refine ⟨fun h => ?_, fun h => ?_⟩
    · by_cases hl : publishes img l a
      · rw [later hl]
        obtain ⟨_, _, _, hk, ha⟩ := hl
        have low := wordAt_low hk ha
        refine (publishWord_byte img p m _).2 ?_
        rintro ⟨j, hj, hb⟩
        have := wordAt_low hj hb
        omega
      · rw [kept hl, here]
        obtain ⟨x, hx, hk⟩ := h
        rcases List.mem_cons.mp hx with rfl | hx
        · exact hk
        · exact absurd ⟨x, hx, hk⟩ hl
    · rw [kept (fun ⟨x, hx, hk⟩ => h ⟨x, List.mem_cons_of_mem _ hx, hk⟩)]
      exact off (fun hk => h ⟨p, List.mem_cons_self, hk⟩)

/-- The words of accumulators that a queue wrote and has not committed. -/
def unpublished (s : State) (q : Nat) : List (Nat × Nat) :=
  (s.berth (s.queue q).berth).accWritten.filter (fun p => p.1 = q)

/-- The model's step of phase 1 for one word. -/
def publishStep (b : Nat) (p : Nat × Nat) (t : State) : State :=
  match (t.imageOf b).accs.find? (fun a => a.tray = p.2 / 2 ^ 32) with
  | none => t
  | some a =>
    let core := a.cores.getD (p.2 % 2 ^ 32 / 2 ^ 14) 0
    let off := 4 * (p.2 % 2 ^ 32 % 2 ^ 14)
    { t with trays := wrBytes t.trays (trayKey core (p.2 / 2 ^ 32) off) (rdBytes t.trays (trayKey core (p.2 / 2 ^ 32) (off + 65536)) 4) }

theorem publishWords_state (b : Nat) (l : List (Nat × Nat)) (s : State) (m : Memory) :
    forEach l (fun p (t : State) => { t with trays := publishWord (t.imageOf b) p t.trays }) { s with trays := m } =
      { s with trays := l.foldl (fun m p => publishWord (s.imageOf b) p m) m } := by
  induction l generalizing m with
  | nil => rfl
  | cons p l ih =>
    rw [forEach_cons, List.foldl_cons, ← ih]
    rfl

/-- Phase 1: the queue's words are published and forgotten. -/
theorem commitWords_eq (q : Nat) (s : State) : commitWords q s =
    ({ s with trays := (unpublished s q).foldl (fun m p => publishWord (s.imageOf (s.queue q).berth) p m) s.trays } : State).modBerth
      (s.queue q).berth (fun t => { t with accWritten := t.accWritten.filter (fun p => p.1 ≠ q) }) := by
  have step : ∀ (p : Nat × Nat) (t : State), publishStep (s.queue q).berth p t =
      { t with trays := publishWord (t.imageOf (s.queue q).berth) p t.trays } := by
    intro p t
    unfold publishStep publishWord wordAt
    cases (t.imageOf (s.queue q).berth).accs.find? (fun a => a.tray = p.2 / 2 ^ 32) with
    | none => rfl
    | some a =>
      dsimp only [Option.map_some]
      rw [trayKey_working]
  have loop : forEach (unpublished s q) (publishStep (s.queue q).berth) s = _ :=
    (congrArg (forEach (unpublished s q) · s) (funext fun p => funext fun t => step p t)).trans
      (publishWords_state (s.queue q).berth (unpublished s q) s s.trays)
  exact congrArg (fun t : State => t.modBerth (s.queue q).berth
    (fun t => { t with accWritten := t.accWritten.filter (fun p => p.1 ≠ q) })) loop

/-- Settles O31: the words published are those of the queue, each from its working copy. -/
theorem commitsStartAndPublishAccumulators : Obligations.CommitsStartAndPublishAccumulators := by
  unfold Obligations.CommitsStartAndPublishAccumulators
  intro s q
  refine ⟨fun hd hr => ?start, execCommitBegin_early, fun hp => ?publish⟩
  case start =>
    refine ⟨_, execCommitBegin_due hd hr, rfl, fun p hp => by simp [hp], by simp, by simp⟩
  case publish =>
    have due : exec (.commitStoresAcked q) s =
        .next ((commitWords q s).modRun q (fun r => { r with commitPhase := 2 })) := by
      change execCommitStoresAcked q s = _
      unfold execCommitStoresAcked
      rw [if_pos hp]
    have bytes := publishWords_byte (s.imageOf (s.queue q).berth) (unpublished s q) s.trays
    refine ⟨_, due, ?_⟩
    rw [commitWords_eq]
    refine ⟨rfl, fun p hp => by simp [hp, State.run], by simp [State.run], by simp [State.berth], fun a => ?_,
      fun p hp hq d hd i hi => ?_⟩
    · by_cases h : publishes (s.imageOf (s.queue q).berth) (unpublished s q) a
      · obtain ⟨_, _, _, hk, ha⟩ := id h
        exact .inr ⟨wordAt_low hk ha, (bytes a).1 h⟩
      · exact .inl ((bytes a).2 h)
    · refine (bytes _).1 ⟨p, List.mem_filter.mpr ⟨hp, by simpa using hq⟩, _, by rw [wordAt, hd]; rfl, Nat.le_add_right .., ?_⟩
      exact Nat.add_lt_add_left hi _

end Sys2Proof.Machine
end

section
/-! SUPPORT. Remote effects of a commit (02_kernels_commit.md R45, 16_causeway.md R403): what a request adds, and what the
loop that sends one effect to each part leaves. -/
namespace Sys2Proof.Machine

/-! ### Routing leaves the part-wide Causeway state -/

theorem chargeVl_cwy (s : State) (p vl n : Nat) : (chargeVl s p vl n).cwy = s.cwy := by
  unfold chargeVl
  split <;> rfl

theorem sendPort_cwy (p n : Nat) (s : State) : (sendPort p n s).cwy = s.cwy := by
  induction n generalizing s with
  | zero => rfl
  | succ n ih =>
    unfold sendPort
    dsimp only
    split
    · split
      · rfl
      · split
        · rfl
        · exact (ih _).trans (chargeVl_cwy _ _ _ _)
    · rfl

theorem enqueue_cwy (p : Nat) (k : Packet) (s : State) : (enqueue p k s).cwy = s.cwy := sendPort_cwy ..

theorem countBad_cwy (p : Nat) (s : State) : (countBad p s).cwy = s.cwy := rfl

theorem route_cwy (half : Nat) (k : Packet) (s : State) : (route half k s).cwy = s.cwy := by
  unfold route routeTo
  dsimp only
  repeat' split
  all_goals simp only [enqueue_cwy, countBad_cwy, emit_cwy]

/-! ### Requests that have no answer yet -/

/-- Requests sent, or waiting for a TXN. -/
def State.requests (s : State) : List Outst := s.cwy.outst ++ s.cwy.waiting

theorem effectOut_requests (s : State) (q part : Nat) :
    effectOut s q part = s.requests.any (fun o => o.what = .effect q && o.packet.dstPart = part) := rfl

/-- The request o carries the packet k of half h. -/
def Outst.carries (o : Outst) (half : Nat) (what : OutstFor) (k : Packet) : Prop :=
  o.what = what ∧ o.half = half ∧ o.packet = { k with txn := o.packet.txn }

/-- A request adds itself to those without an answer, and changes nothing else of which they are. -/
theorem request_requests {half : Nat} {what : OutstFor} {k : Packet} {s : State} (hp : k.srcPart = s.cwy.partId)
    (hh : k.srcHalf = half) : (request half what k s).cwy.partId = s.cwy.partId ∧ ∃ o : Outst, o.carries half what k ∧
      ∀ x, x ∈ (request half what k s).requests ↔ x ∈ s.requests ∨ x = o := by
  unfold request State.requests
  dsimp only
  split
  case isTrue =>
    refine ⟨rfl, { half := half, txn := look 0 s.cwy.txn half, what := what, packet := k, sends := 0 }, ⟨rfl, rfl, rfl⟩,
      fun x => ?_⟩
    simp only [modCwy_cwy, List.mem_append, List.mem_singleton, or_assoc]
  case isFalse =>
    rw [route_cwy]
    refine ⟨rfl, {
      half := half, txn := look 0 s.cwy.txn half, what := what, sends := 1
      packet := { k with txn := look 0 s.cwy.txn half, srcPart := s.cwy.partId, srcHalf := half } },
      ⟨rfl, rfl, by rw [← hp, ← hh]⟩, fun x => ?_⟩
    simp only [modCwy_cwy, List.mem_append, List.mem_singleton, or_right_comm]

/-! ### The packet of an effect -/

theorem effectPacket_source (s : State) (q : Nat) (e : Held) :
    (effectPacket s q e).srcPart = s.cwy.partId ∧ (effectPacket s q e).srcHalf = queueHalf q := by
  unfold effectPacket
  dsimp only
  split
  case h_3 => split <;> exact ⟨rfl, rfl⟩
  all_goals exact ⟨rfl, rfl⟩

theorem effectPacket_dstPart {own part : Nat} {e : Held} (h : remotePart own e = some part) (s : State) (q : Nat) :
    (effectPacket s q e).dstPart = part := by
  cases e <;> simp only [remotePart, Option.some.injEq, reduceCtorEq, Option.ite_none_right_eq_some] at h
  case remoteWrite => exact h
  case atom => exact h.2
  case signal v sync p queue value =>
    unfold effectPacket
    dsimp only
    split <;> exact h.2

theorem effectPacket_congr {s t : State} {q : Nat} (hq : t.queue q = s.queue q) (hp : t.cwy.partId = s.cwy.partId)
    (hd : (t.run q).drops = (s.run q).drops) (e : Held) : effectPacket t q e = effectPacket s q e := by
  unfold effectPacket
  rw [hq, hp, hd]

/-! ### One effect to each part -/

/-- One effect of the log goes out where its part has none unanswered. -/
def sendHeld (q : Nat) (h : HeldRec) (t : State) : State :=
  match remotePart t.cwy.partId h.eff with
  | none => t
  | some part =>
    if effectOut t q part then t
    else request (queueHalf q) (.effect q) (effectPacket t q h.eff)
      (t.modRun q (fun r => { r with held := r.held.filter (· ≠ h) }))

theorem sendRemote_eq (q : Nat) (s : State) :
    sendRemote q s = forEach (if (s.run q).halted then [] else heldSorted (s.run q)) (sendHeld q) s := rfl

/-- From s to t only the held log of queue q and the fabric differ. -/
def State.sending (s : State) (q : Nat) (t : State) : Prop :=
  t = { s with runs := t.runs, ports := t.ports, cwy := t.cwy, arbs := t.arbs, out := t.out } ∧
    t.cwy.partId = s.cwy.partId ∧ (∀ p, p ≠ q → t.run p = s.run p) ∧ t.run q = { s.run q with held := (t.run q).held }

theorem State.sending.refl (s : State) (q : Nat) : s.sending q s := ⟨rfl, rfl, fun _ _ => rfl, rfl⟩

theorem State.sending.trans {s t u : State} {q : Nat} (h : s.sending q t) (k : t.sending q u) : s.sending q u := by
  obtain ⟨shape, part, others, own⟩ := h
  obtain ⟨shape', part', others', own'⟩ := k
  exact ⟨by rw [shape', shape], part'.trans part, fun p hp => (others' p hp).trans (others p hp), by rw [own', own]⟩

theorem State.sending.effectPacket {s t : State} {q : Nat} (h : s.sending q t) (e : Held) :
    effectPacket t q e = effectPacket s q e := by
  obtain ⟨shape, part, -, own⟩ := h
  exact effectPacket_congr (by rw [shape]; rfl) part (by rw [own]) e

/-- Nothing goes to a part that owes an answer. -/
theorem sendHeld_stays {q : Nat} {h : HeldRec} {t : State}
    (hs : ∀ part, remotePart t.cwy.partId h.eff = some part → effectOut t q part = true) : sendHeld q h t = t := by
  unfold sendHeld
  cases hp : remotePart t.cwy.partId h.eff with
  | none => rfl
  | some part => simp [hs part hp]

/-- An effect that goes out leaves the log and is a request. -/
theorem sendHeld_goes {q part : Nat} {h : HeldRec} {t : State} (hp : remotePart t.cwy.partId h.eff = some part)
    (ho : effectOut t q part = false) : t.sending q (sendHeld q h t) ∧
      ((sendHeld q h t).run q).held = (t.run q).held.filter (· ≠ h) ∧
      ∃ o : Outst, o.carries (queueHalf q) (.effect q) (effectPacket t q h.eff) ∧
        ∀ x, x ∈ (sendHeld q h t).requests ↔ x ∈ t.requests ∨ x = o := by
  have step : sendHeld q h t = request (queueHalf q) (.effect q) (effectPacket t q h.eff)
      (t.modRun q (fun r => { r with held := r.held.filter (· ≠ h) })) := by
    simp [sendHeld, hp, ho]
  obtain ⟨srcPart, srcHalf⟩ := effectPacket_source t q h.eff
  obtain ⟨partId, o, carried, added⟩ := request_requests (what := .effect q)
    (s := t.modRun q (fun r => { r with held := r.held.filter (· ≠ h) })) srcPart srcHalf
  rw [← step] at partId added
  have shape : _ = sendHeld q h t := step.symm
  have sent := request_sent (queueHalf q) (.effect q) (effectPacket t q h.eff)
    (t.modRun q (fun r => { r with held := r.held.filter (· ≠ h) }))
  rw [← step] at sent
  have runs : ∀ p, (sendHeld q h t).run p =
      (t.modRun q (fun r => { r with held := r.held.filter (· ≠ h) })).run p := fun p => by rw [sent]; rfl
  refine ⟨⟨by rw [sent]; rfl, partId, fun p hpq => by rw [runs]; simp [hpq], by rw [runs]; simp⟩, by rw [runs]; simp,
    o, carried, added⟩

/-- After a request to a part, that part owes an answer, and others as before. -/
theorem sendHeld_effectOut {q part : Nat} {h : HeldRec} {t : State} (hp : remotePart t.cwy.partId h.eff = some part)
    (ho : effectOut t q part = false) (p : Nat) :
    effectOut (sendHeld q h t) q p = true ↔ effectOut t q p = true ∨ p = part := by
  obtain ⟨-, -, o, ⟨what, -, packet⟩, added⟩ := sendHeld_goes hp ho
  have dst : o.packet.dstPart = part := by
    rw [packet]
    exact effectPacket_dstPart hp t q
  simp only [effectOut_requests, List.any_eq_true, added]
  constructor
  · rintro ⟨x, hx | rfl, hxp⟩
    · exact .inl ⟨x, hx, hxp⟩
    · simp only [what, dst, Bool.and_eq_true, decide_eq_true_eq] at hxp
      exact .inr hxp.2.symm
  · rintro (⟨x, hx, hxp⟩ | rfl)
    · exact ⟨x, .inl hx, hxp⟩
    · exact ⟨o, .inr rfl, by simp [what, dst]⟩

/-- The first effect of a list that goes to a part. -/
def firstTo (own : Nat) (l : List HeldRec) (part : Nat) : Option HeldRec := l.find? (fun h => remotePart own h.eff = some part)

theorem firstTo_skip {own part : Nat} {h : HeldRec} (hp : remotePart own h.eff ≠ some part) (l : List HeldRec) :
    firstTo own (h :: l) part = firstTo own l part := by
  simp [firstTo, hp]

theorem firstTo_head {own part : Nat} {h : HeldRec} (hp : remotePart own h.eff = some part) (l : List HeldRec) :
    firstTo own (h :: l) part = some h := by
  simp [firstTo, hp]

/-- What the loop over a list leaves: of each part that owes no answer, the list's first effect is out of the log and is a
request; the rest of the log stays. -/
theorem sendHeld_loop (q : Nat) (l : List HeldRec) (t : State) :
    t.sending q (forEach l (sendHeld q) t) ∧
      (∀ h, h ∈ ((forEach l (sendHeld q) t).run q).held ↔
        h ∈ (t.run q).held ∧ ∀ part, effectOut t q part = false → firstTo t.cwy.partId l part ≠ some h) ∧
      (∀ o ∈ t.requests, o ∈ (forEach l (sendHeld q) t).requests) ∧
      ∀ h part, effectOut t q part = false → firstTo t.cwy.partId l part = some h →
        ∃ o ∈ (forEach l (sendHeld q) t).requests, o.carries (queueHalf q) (.effect q) (effectPacket t q h.eff) := by
  induction l generalizing t with
  | nil => exact ⟨.refl t q, fun h => by simp [forEach_nil, firstTo], fun o ho => ho, fun h part _ hf => by simp [firstTo] at hf⟩
  | cons a l ih =>
    rw [forEach_cons]
    by_cases stays : ∀ part, remotePart t.cwy.partId a.eff = some part → effectOut t q part = true
    case pos =>
      have first : ∀ part, effectOut t q part = false → firstTo t.cwy.partId (a :: l) part = firstTo t.cwy.partId l part :=
        fun part ho => firstTo_skip (fun hp => by simp [stays part hp] at ho) l
      rw [sendHeld_stays stays]
      obtain ⟨sending, log, kept, out⟩ := ih t
      refine ⟨sending, fun h => (log h).trans ?_, kept, fun h part ho hf => out h part ho (first part ho ▸ hf)⟩
      exact and_congr_right' (forall_congr' fun part => forall_congr' fun ho => by rw [first part ho])
    case neg =>
      push Not at stays
      obtain ⟨part, hp, ho⟩ := stays
      rw [ne_eq, Bool.not_eq_true] at ho
      obtain ⟨went, left, o, carried, added⟩ := sendHeld_goes hp ho
      have owes := sendHeld_effectOut hp ho
      obtain ⟨sending, log, kept, out⟩ := ih (sendHeld q a t)
      rw [went.2.1] at log out
      have still : ∀ p, effectOut (sendHeld q a t) q p = false ↔ effectOut t q p = false ∧ p ≠ part := fun p => by
        rw [← Bool.not_eq_true, owes p, not_or, Bool.not_eq_true]
      have skip : ∀ p, p ≠ part → firstTo t.cwy.partId (a :: l) p = firstTo t.cwy.partId l p := fun p hpp =>
        firstTo_skip (fun h => hpp (Option.some.inj (h.symm.trans hp))) l
      refine ⟨went.trans sending, fun h => (log h).trans ?_, fun x hx => kept x ((added x).mpr (.inl hx)), fun h p hop hf => ?_⟩
      · rw [left, List.mem_filter, decide_eq_true_eq, and_assoc]
        refine and_congr_right' ⟨fun ⟨hne, hl⟩ p hop => ?_, fun hall => ⟨fun heq => ?_, fun p hop => ?_⟩⟩
        · by_cases hpp : p = part
          · subst hpp
            rw [firstTo_head hp]
            exact fun he => hne (Option.some.inj he).symm
          · rw [skip p hpp]
            exact hl p ((still p).mpr ⟨hop, hpp⟩)
        · exact hall part ho (by rw [firstTo_head hp, heq])
        · obtain ⟨hop, hpp⟩ := (still p).mp hop
          rw [← skip p hpp]
          exact hall p hop
      · by_cases hpp : p = part
        · subst hpp
          rw [firstTo_head hp, Option.some.injEq] at hf
          subst hf
          exact ⟨o, kept o ((added o).mpr (.inr rfl)), carried⟩
        · rw [← went.effectPacket]
          exact out h p ((still p).mpr ⟨hop, hpp⟩) (skip p hpp ▸ hf)

/-- A loop over effects of which none is remote sends nothing. -/
theorem sendHeld_none {q : Nat} {l : List HeldRec} {t : State} (h : ∀ a ∈ l, remotePart t.cwy.partId a.eff = none) :
    forEach l (sendHeld q) t = t := by
  induction l with
  | nil => rfl
  | cons a l ih =>
    rw [forEach_cons, sendHeld_stays (fun part hp => by simp [h a List.mem_cons_self] at hp)]
    exact ih (fun x hx => h x (List.mem_cons_of_mem _ hx))

/-! ### The held log in order -/

theorem mem_insertHeld (a x : HeldRec) (l : List HeldRec) : x ∈ insertHeld a l ↔ x = a ∨ x ∈ l := by
  induction l with
  | nil => simp [insertHeld]
  | cons b l ih =>
    unfold insertHeld
    split
    · simp
    · rw [List.mem_cons, ih, List.mem_cons, or_left_comm]

theorem mem_heldSorted (r : Run) (x : HeldRec) : x ∈ heldSorted r ↔ x ∈ r.held := by
  unfold heldSorted
  induction r.held with
  | nil => rfl
  | cons a l ih => rw [List.foldr_cons, mem_insertHeld, ih, List.mem_cons]

theorem sendRemote_none {q : Nat} {s : State} (h : ∀ x ∈ (s.run q).held, remotePart s.cwy.partId x.eff = none) :
    sendRemote q s = s := by
  rw [sendRemote_eq]
  refine sendHeld_none fun x hx => ?_
  split at hx
  · cases hx
  · exact h x ((mem_heldSorted _ x).mp hx)

/-- Settles O33: the effects that go out are those that the loop over the log finds first for their part. -/
theorem remoteEffectsGoOut : Obligations.RemoteEffectsGoOut := by
  unfold Obligations.RemoteEffectsGoOut
  intro s q hp hl
  have notHalted : (s.run q).halted = false := by
    unfold inPhase at hp
    simp only [Bool.and_eq_true, Bool.not_eq_true'] at hp
    exact hp.2
  have due : exec (.commitAtomicsDone q) s = .next (sendRemote q (s.modRun q (fun r => { r with commitPhase := 3 }))) := by
    change execCommitAtomicsDone q s = _
    unfold execCommitAtomicsDone
    rw [if_pos (by simp [hp, hl])]
  refine ⟨_, due, ?_⟩
  have phase : (s.modRun q (fun r => { r with commitPhase := 3 })).run q = { s.run q with commitPhase := 3 } := by simp
  have sorted : sendRemote q (s.modRun q (fun r => { r with commitPhase := 3 })) =
      forEach (heldSorted (s.run q)) (sendHeld q) (s.modRun q (fun r => { r with commitPhase := 3 })) := by
    rw [sendRemote_eq, phase]
    simp only [notHalted]
    rfl
  have none_goes := sendRemote_none (q := q) (s := s.modRun q (fun r => { r with commitPhase := 3 }))
  obtain ⟨⟨shape, -, others, own⟩, log, -, out⟩ :=
    sendHeld_loop q (heldSorted (s.run q)) (s.modRun q (fun r => { r with commitPhase := 3 }))
  rw [← sorted] at shape others own log out
  refine ⟨shape, fun p hpq => (others p hpq).trans (by simp [hpq]), by rw [own, phase], fun h => ?_, fun h part ho hf => ?_,
    fun hn => ?_⟩
  · rw [log h, phase]
    rfl
  · obtain ⟨o, ho, what, half, packet⟩ := out h part ho hf
    rw [effectPacket_congr (s := s) (t := s.modRun q (fun r => { r with commitPhase := 3 })) rfl rfl (by rw [phase])] at packet
    exact ⟨o, ho, what, half, packet⟩
  · rw [none_goes (by rw [phase]; exact hn)]
    exact ⟨rfl, rfl⟩

end Sys2Proof.Machine
end

section
/-! SUPPORT. Answers and time-outs at the source (16_causeway.md R403 to R405): one equation per answer and kind of request. -/
namespace Sys2Proof.Machine

/-! ### Which request an answer ends -/

/-- The part after a NACK has come and its reason is noted. -/
def nackCome (p : Packet) (s : State) : State := (arrive p s).modCwy (fun c => { c with lastNack := p.op % 16 })

section
variable {half : Nat} {p : Packet} {s : State} {o : Outst} {q j off : Nat}

/-- The answer ends the request o. -/
def answers (p : Packet) (s : State) (o : Outst) : Prop := findOutst (arrive p s) p.srcHalf p.txn = some o

theorem execAck_effect (hf : answers p s o) (ho : o.what = .effect q) :
    exec (.ack half p) s = .next (sendRemote q (dropOutst o (arrive p s))) := by
  change execAck half p s = _
  unfold answers at hf
  simp only [execAck, hf, ho]

theorem execAck_other (h : ∀ o q, answers p s o → o.what ≠ .effect q) : exec (.ack half p) s = .next (arrive p s) := by
  change execAck half p s = _
  unfold execAck
  dsimp only
  split
  · rfl
  · next o hf =>
    split
    · next q ho => exact absurd ho (h o q hf)
    · rfl

theorem execReadResp_read (hf : answers p s o) (ho : o.what = .readFor q j off) :
    exec (.readResp half p) s = .next (deliverRead o q j off
      (if p.poison then List.replicate o.packet.length 0 else p.data.take o.packet.length) p.poison (arrive p s)) := by
  change execReadResp half p s = _
  unfold answers at hf
  simp only [execReadResp, hf, ho]
  cases p.poison <;> rfl

theorem execReadResp_other (h : ∀ o q j off, answers p s o → o.what ≠ .readFor q j off) :
    exec (.readResp half p) s = .next (arrive p s) := by
  change execReadResp half p s = _
  unfold execReadResp
  dsimp only
  split
  · rfl
  · next o hf =>
    split
    · next q j off ho => exact absurd ho (h o q j off hf)
    · rfl

theorem execNack_none (hf : findOutst (arrive p s) p.srcHalf p.txn = none) :
    exec (.nack half p) s = .next (nackCome p s) := by
  have hf : findOutst (nackCome p s) p.srcHalf p.txn = none := hf
  change execNack half p s = _
  unfold nackCome at *
  simp only [execNack, hf]

/-- What a NACK does to the request that it ends. -/
def nacked (p : Packet) (o : Outst) (s : State) : State :=
  match o.what with
  | .effect q => dropSent o q (p.op % 16) s
  | .readFor q j off =>
    if p.op % 16 = 1 then faultRun q 0x0E 3 ((s.run q).insts.getD j {}).word none (dropOutst o s)
    else deliverPoison o q j off s
  | .mgmt => dropOutst o s

theorem execNack_some (hf : answers p s o) : exec (.nack half p) s = .next (nacked p o (nackCome p s)) := by
  have hf : findOutst (nackCome p s) p.srcHalf p.txn = some o := hf
  change execNack half p s = _
  unfold nackCome at *
  simp only [execNack, hf, nacked]
  cases o.what with
  | effect q => rfl
  | mgmt => rfl
  | readFor q j off => by_cases h : p.op % 16 = 1 <;> simp only [h, if_true, if_false]

theorem nacked_unexported (ho : o.what = .readFor q j off) (h : p.op % 16 = 1) (t : State) :
    nacked p o t = faultRun q 0x0E 3 ((t.run q).insts.getD j {}).word none (dropOutst o t) := by
  simp only [nacked, ho, h, if_true]

theorem nacked_poison (ho : o.what = .readFor q j off) (h : p.op % 16 ≠ 1) (t : State) :
    nacked p o t = deliverPoison o q j off t := by
  simp only [nacked, ho, h, if_false]

end

/-- What the time-out of a delivery does to its request. -/
def timedOut (o : Outst) (s : State) : State :=
  match o.what with
  | .effect q => dropSent o q 0 s
  | .readFor q j off => deliverPoison o q j off s
  | .mgmt => dropOutst o s

theorem execDeliveryTimeout_some {half txn : Nat} {s : State} {o : Outst} (hf : findOutst s half txn = some o) :
    exec (.deliveryTimeout half txn) s = .next (timedOut o s) := by
  change execDeliveryTimeout half txn s = _
  simp only [execDeliveryTimeout, hf, timedOut]
  cases o.what <;> rfl

theorem timeouts_none {half txn : Nat} {s : State} (hf : findOutst s half txn = none) :
    exec (.resendTimeout half txn) s = .next s ∧ exec (.deliveryTimeout half txn) s = .next s := by
  constructor
  · change execResendTimeout half txn s = _
    simp only [execResendTimeout, hf]
  · change execDeliveryTimeout half txn s = _
    simp only [execDeliveryTimeout, hf]

theorem execResendTimeout_some {half txn : Nat} {s : State} {o : Outst} (hf : findOutst s half txn = some o) :
    exec (.resendTimeout half txn) s =
      if o.sends < s.cwy.resends + 1 then .next (route half o.packet (s.modCwy (fun c => { c with
        outst := c.outst.map (fun x => if x = o then { x with sends := x.sends + 1 } else x)
        resent := satAdd 28 c.resent 1 })))
      else .next s := by
  change execResendTimeout half txn s = _
  simp only [execResendTimeout, hf]

theorem sendWaiting_none {s : State} (h : s.cwy.waiting = []) : sendWaiting s = s := by
  unfold sendWaiting
  rw [h]
  change { s with cwy := { s.cwy with waiting := [] } } = s
  rw [← h]

/-! ### What they leave -/

/-- What a delivered read changes: its request is gone, and its instruction has the data. -/
theorem deliverRead_facts (o : Outst) (q j off : Nat) (data : List Byte) (poison : Bool) (s : State) :
    deliverRead o q j off data poison s = { s with
      runs := (deliverRead o q j off data poison s).runs, cwy := { s.cwy with outst := s.cwy.outst.filter (· ≠ o) } } ∧
    (∀ r, r ≠ q → (deliverRead o q j off data poison s).run r = s.run r) ∧
    (j < (s.run q).insts.length → (deliverRead o q j off data poison s).inst q j = { s.inst q j with
      readsLeft := (s.inst q j).readsLeft.erase (off, o.packet.length)
      got := (s.inst q j).got ++ [(off, data, poison)] }) := by
  refine ⟨rfl, fun r hr => ?_, fun hj => ?_⟩
  · unfold deliverRead State.modInst
    rw [modRun_eq, setRun_run, if_neg hr]
    rfl
  · exact (modInst_inst (dropOutst o s) q j _ q j).trans (if_pos ⟨rfl, rfl, hj⟩)

theorem faultRun_landed {s : State} {q : Nat} (hl : (s.run q).landed = true) (code detail word : Nat) (g : Option Nat) :
    faultRun q code detail word g s = s := by
  unfold faultRun
  dsimp only
  rw [if_pos hl]

/-- Settles O55: each answer by the kind of the request that it ends. -/
theorem answersEndTheirRequests : Obligations.AnswersEndTheirRequests := by
  unfold Obligations.AnswersEndTheirRequests
  refine ⟨fun s half p v w hv hw => ⟨fun none => ?unknown, fun o hf => ⟨fun q u x ho hu hx => ?effect, fun ho => ?mgmt,
    fun q ho => ?effectRead, fun q j off ho => ?read⟩⟩, fun s half txn => ⟨timeouts_none, fun o hf => ⟨?again, ?spent,
      fun ho => ?mgmtOut, fun q ho => ?effectOut, fun q j off ho => ?readOut⟩, fun part h => ?expiry, ⟨_, rfl, rfl⟩,
      fun none => ?free⟩⟩
  case unknown =>
    subst hv hw
    have nothing : ∀ o, ¬ answers p s o := fun o ho => by simp [answers, none] at ho
    exact ⟨⟨_, execAck_other (fun o _ ho => absurd ho (nothing o)), rfl⟩,
      ⟨_, execReadResp_other (fun o _ _ _ ho => absurd ho (nothing o)), rfl⟩, ⟨_, execNack_none none, rfl⟩⟩
  case effect =>
    subst hv hw hu hx
    refine ⟨⟨_, execAck_effect hf ho, rfl⟩, ⟨_, execNack_some hf, ?_⟩, fun hn => ⟨_, execAck_effect hf ho, ?_⟩⟩
    · simp only [nacked, ho]
      rfl
    · exact sendRemote_none hn
  case mgmt =>
    subst hv hw
    have only : ∀ a, answers p s a → a.what = .mgmt := fun a ha => by
      rw [Option.some.inj (ha.symm.trans hf), ho]
    refine ⟨⟨_, execAck_other (fun a q ha => by simp [only a ha]), rfl⟩,
      ⟨_, execReadResp_other (fun a q j off ha => by simp [only a ha]), rfl⟩, ⟨_, execNack_some hf, ?_⟩⟩
    simp only [nacked, ho]
    rfl
  case effectRead =>
    subst hv
    refine ⟨_, execReadResp_other (fun a r j off ha => ?_), rfl⟩
    rw [Option.some.inj (ha.symm.trans hf), ho]
    exact OutstFor.noConfusion
  case read =>
    subst hv hw
    refine ⟨⟨_, execAck_other (fun a r ha => ?_), rfl⟩, ⟨_, execReadResp_read hf ho, deliverRead_facts ..⟩,
      fun h1 hl => ⟨_, execNack_some hf, ?_⟩, fun h1 hl => ⟨_, execNack_some hf, ?_⟩, fun h1 => ⟨_, execNack_some hf, ?_⟩⟩
    · rw [Option.some.inj (ha.symm.trans hf), ho]
      exact OutstFor.noConfusion
    · rw [nacked_unexported ho h1]
      exact faultRun_landed (s := dropOutst o (nackCome p s)) hl 0x0E 3 _ none
    · rw [nacked_unexported ho h1]
      exact faultRun_stops (s := dropOutst o (nackCome p s)) hl rfl rfl _ none
    · rw [nacked_poison ho h1]
      obtain ⟨shape, -, got⟩ := deliverRead_facts o q j off (List.replicate o.packet.length 0) true (nackCome p s)
      exact ⟨shape, got⟩
  case again => exact fun h => ⟨_, (execResendTimeout_some hf).trans (if_pos h), rfl⟩
  case spent => exact fun h => (execResendTimeout_some hf).trans (if_neg (by omega))
  case mgmtOut =>
    refine ⟨_, execDeliveryTimeout_some hf, ?_⟩
    simp only [timedOut, ho]
    rfl
  case effectOut =>
    refine ⟨_, execDeliveryTimeout_some hf, ?_⟩
    simp only [timedOut, ho]
    rfl
  case readOut =>
    refine ⟨_, execDeliveryTimeout_some hf, ?_⟩
    simp only [timedOut, ho]
    obtain ⟨shape, -, got⟩ := deliverRead_facts o q j off (List.replicate o.packet.length 0) true s
    exact ⟨shape, got⟩
  case expiry =>
    refine ⟨_, rfl, rfl, fun e => ?_⟩
    simp only [modCwy_cwy, List.mem_filter, Bool.not_eq_true', ← Bool.not_eq_true, Bool.and_eq_true, decide_eq_true_eq, and_assoc]
  case free => exact ⟨_, rfl, sendWaiting_none none⟩

end Sys2Proof.Machine
end

section
/-! SUPPORT. Telemetry (19_tidewatch.md R456, R528) and the deadline monitor (11_scheduler.md R379, R380). -/
namespace Sys2Proof.Machine

/-! ### Telemetry of a half -/

/-- The count of milliseconds since the last telemetry starts anew. -/
def telemCleared (half : Nat) (s : State) : State := s.modHalf half (fun t => { t with sinceTelem := 0 })

theorem telemCleared_half (half : Nat) (s : State) (i : Nat) :
    (telemCleared half s).half i = if i = half then { s.half half with sinceTelem := 0 } else s.half i := by
  simp [telemCleared]

theorem payHalf_telemCleared (half : Nat) (s : State) : payHalf (telemCleared half s) half = payHalf s half := by
  unfold payHalf ownPower
  rw [telemCleared_half, if_pos rfl]
  rfl

theorem recordBytes_telemCleared (half type b : Nat) (pl : List Byte) (s : State) :
    recordBytes (telemCleared half s) half type b pl = recordBytes s half type b pl := by
  unfold recordBytes
  rw [telemCleared_half, if_pos rfl]

/-- The half's own record has gone out. -/
def halfReported (half : Nat) (s : State) : State :=
  makeRecord half 0x26 0xFF (payHalf (telemCleared half s) half) (telemCleared half s)

theorem halfReported_recorded (half : Nat) (s : State) : (telemCleared half s).recorded (halfReported half s) :=
  makeRecord_recorded ..

theorem halfReported_partHalf (half : Nat) (s : State) : partHalf (halfReported half s) = partHalf s := by
  unfold partHalf
  rw [(halfReported_recorded half s).glb]
  rfl

theorem halfReported_out (half : Nat) (s : State) :
    .record half (recordBytes s half 0x26 0xFF (payHalf s half)) ∈ (halfReported half s).out := by
  rw [← payHalf_telemCleared, ← recordBytes_telemCleared]
  exact (makeRecord_out ..).1

theorem halfReported_berths (half : Nat) (s : State) : (halfReported half s).berths = s.berths := makeRecord_berths ..

/-! ### Telemetry of the berths -/

theorem look_foldl_put {α : Type} [DecidableEq α] (d : α) (g : Nat → α) (l : List Nat) (t : Tbl α) (k : Nat) :
    look d (l.foldl (fun u c => put d u c (g c)) t) k = if k ∈ l then g k else look d t k := by
  induction l generalizing t with
  | nil => simp
  | cons a l ih =>
    rw [List.foldl_cons, ih, look_put]
    by_cases tail : k ∈ l
    · simp [tail]
    · by_cases here : k = a <;> simp [here, tail]

/-- The cycles of a berth that telemetry has then sent, in units of 256 (R528). -/
def sentCycles (y : Berth) : Berth :=
  { y with cyclesSent := (List.range 7).foldl (fun u c => put 0 u c (look 0 y.cycles c / 256)) [] }

theorem sentCycles_sent (y : Berth) {c : Nat} (hc : c < 7) : look 0 (sentCycles y).cyclesSent c = look 0 y.cycles c / 256 :=
  (look_foldl_put ..).trans (if_pos (List.mem_range.mpr hc))

/-- The record of one berth goes out. -/
def reportBerth (half b : Nat) (t : State) : State :=
  (makeRecord half 0x27 b (payBerth t b) t).modBerth b sentCycles

/-- From s to t only records go out and berths count what they have sent. -/
structure State.reporting (s t : State) : Prop where
  shape : t = { s with
    twcH := t.twcH, twc := t.twc, glb := t.glb, ports := t.ports, cwy := t.cwy, arbs := t.arbs, out := t.out, berths := t.berths }
  half : ∀ i, t.half i = { s.half i with recSeq := (t.half i).recSeq }
  berth : ∀ b, t.berth b = { s.berth b with cyclesSent := (t.berth b).cyclesSent }
  grows : s.grows t

theorem State.reporting.refl (s : State) : s.reporting s := ⟨rfl, fun _ => rfl, fun _ => rfl, .refl s⟩

theorem State.reporting.trans {s t u : State} (h : s.reporting t) (k : t.reporting u) : s.reporting u :=
  ⟨by rw [k.shape, h.shape], fun i => by rw [k.half, h.half], fun b => by rw [k.berth, h.berth], h.grows.trans k.grows⟩

theorem makeRecord_reporting (h t b : Nat) (pl : List Byte) (s : State) : s.reporting (makeRecord h t b pl s) := by
  have r := makeRecord_recorded h t b pl s
  refine ⟨by rw [r.shape], r.half, fun c => ?_, (makeRecord_out h t b pl s).2⟩
  rw [State.berth, makeRecord_berths]
  rfl

theorem halfReported_reporting (half : Nat) (s : State) : (telemCleared half s).reporting (halfReported half s) :=
  makeRecord_reporting ..

theorem reportBerth_berth (half b : Nat) (t : State) (c : Nat) :
    (reportBerth half b t).berth c = if c = b then sentCycles (t.berth b) else t.berth c := by
  have same : ∀ i, (makeRecord half 0x27 b (payBerth t b) t).berth i = t.berth i := fun i => by
    rw [State.berth, makeRecord_berths]
    rfl
  unfold reportBerth
  rw [modBerth_eq, setBerth_berth, same, same]

theorem reportBerth_reporting (half b : Nat) (t : State) : t.reporting (reportBerth half b t) := by
  have r := makeRecord_reporting half 0x27 b (payBerth t b) t
  refine ⟨?_, fun i => r.half i, fun c => ?_, r.grows.trans (.same rfl)⟩
  · unfold reportBerth
    rw [r.shape]
    rfl
  · rw [reportBerth_berth]
    split
    · next e => rw [e]; rfl
    · rfl

theorem reportBerths_reporting (half : Nat) (l : List Nat) (t : State) : t.reporting (forEach l (reportBerth half) t) :=
  forEach_rel (R := State.reporting) .refl (fun _ _ _ => .trans) _ (fun b t => reportBerth_reporting half b t) l t

/-- Each berth of the list is reported, from a state whose queues are those of before, and its cycles are then sent. -/
theorem reportBerths_reports (half : Nat) (l : List Nat) (t : State) (b : Nat) (hb : b ∈ l) :
    (∃ v : State, .record half (recordBytes v half 0x27 b (payBerth v b)) ∈ (forEach l (reportBerth half) t).out ∧
      v.queues = t.queues) ∧
    ∀ c < 7, look 0 ((forEach l (reportBerth half) t).berth b).cyclesSent c = look 0 (t.berth b).cycles c / 256 := by
  induction l generalizing t with
  | nil => cases hb
  | cons a l ih =>
    rw [forEach_cons]
    have here := reportBerth_reporting half a t
    by_cases hl : b ∈ l
    · obtain ⟨⟨v, out, queues⟩, sent⟩ := ih (reportBerth half a t) hl
      refine ⟨⟨v, out, queues.trans (by rw [here.shape])⟩, fun c hc => ?_⟩
      rw [sent c hc, here.berth]
    · have e : b = a := (List.mem_cons.mp hb).resolve_right hl
      subst e
      have later := reportBerths_reporting half l (reportBerth half b t)
      refine ⟨⟨t, later.grows.mem (makeRecord_out half 0x27 b (payBerth t b) t).1, rfl⟩, fun c hc => ?_⟩
      have untouched : ∀ (l : List Nat) (u : State), b ∉ l → (forEach l (reportBerth half) u).berth b = u.berth b := by
        intro l
        induction l with
        | nil => exact fun u _ => rfl
        | cons a l ih =>
          intro u hn
          rw [forEach_cons, ih _ (fun h => hn (List.mem_cons_of_mem _ h)), reportBerth_berth, if_neg]
          exact fun h => hn (h ▸ List.mem_cons_self)
      rw [untouched l _ hl, reportBerth_berth, if_pos rfl]
      exact sentCycles_sent _ hc

/-- The berths that report. -/
def reportedBerths (s : State) : List Nat := (s.berths.filter (fun b => b.2.layout.configured)).map (·.1)

theorem execTelemetry_due {half : Nat} {s : State} (on : s.on = true) (every : s.twc.telemMs ≠ 0)
    (due : s.twc.telemMs ≤ (s.half half).sinceTelem) : exec (.telemetry half) s = .next
      (if half = partHalf s then forEach (reportedBerths s) (reportBerth half) (halfReported half s) else halfReported half s) := by
  change execTelemetry half s = _
  unfold execTelemetry
  rw [if_pos (by simp [on, every, due])]
  have part := halfReported_partHalf half s
  have berths := halfReported_berths half s
  rw [← part, reportedBerths, ← berths]
  rfl

theorem execTelemetry_notDue {half : Nat} {s : State}
    (h : s.on = false ∨ s.twc.telemMs = 0 ∨ (s.half half).sinceTelem < s.twc.telemMs) :
    exec (.telemetry half) s = .next s := by
  change execTelemetry half s = _
  unfold execTelemetry
  rw [if_neg]
  simp only [Bool.and_eq_true, decide_eq_true_eq]
  rintro ⟨⟨on, every⟩, due⟩
  rcases h with h | h | h
  · simp [h] at on
  · exact every h
  · exact absurd due (by omega)

/-! ### The deadline monitor -/

/-- Where a loop passes over an element once, and every other pass keeps a relation, the relation leads to that pass and
from it. -/
theorem forEach_at {β σ : Type} {R : σ → σ → Prop} (refl : ∀ s, R s s) (trans : ∀ s t u, R s t → R t u → R s u)
    {f : β → σ → σ} {l : List β} {a : β} (once : l.Nodup) (mem : a ∈ l) (others : ∀ x, x ≠ a → ∀ s, R s (f x s)) (s : σ) :
    ∃ u, R s u ∧ R (f a u) (forEach l f s) := by
  obtain ⟨l₁, l₂, rfl⟩ := List.append_of_mem mem
  have apart : ∀ x, x ∈ l₁ ∨ x ∈ l₂ → x ≠ a := by
    rintro x hx rfl
    rw [List.nodup_middle, List.nodup_cons, List.mem_append] at once
    exact once.1 hx
  have passes : ∀ l : List β, (∀ x ∈ l, x ≠ a) → ∀ t, R t (forEach l f t) := by
    intro l
    induction l with
    | nil => exact fun _ t => refl t
    | cons b l ih => exact fun h t => trans _ _ _ (others b (h b List.mem_cons_self) t) (ih (fun x hx => h x (List.mem_cons_of_mem _ hx)) _)
  refine ⟨forEach l₁ f s, passes l₁ (fun x hx => apart x (.inl hx)) s, ?_⟩
  have split : forEach (l₁ ++ a :: l₂) f s = forEach l₂ f (f a (forEach l₁ f s)) := List.foldl_append ..
  rw [split]
  exact passes l₂ (fun x hx => apart x (.inr hx)) _

/-- The slot k of berth b. -/
def State.slotReq (s : State) (b k : Nat) : Req := look {} (s.berth b).reqs k

theorem modReq_slotReq (s : State) (b k : Nat) (f : Req → Req) (c j : Nat) :
    (s.modReq b k f).slotReq c j = if c = b ∧ j = k then f (s.slotReq b k) else s.slotReq c j := by
  unfold State.slotReq State.modReq
  rw [modBerth_eq, setBerth_berth]
  by_cases hc : c = b
  · subst hc
    simp
  · simp [hc]

theorem modReq_berth_ne (s : State) {b c : Nat} (h : c ≠ b) (k : Nat) (f : Req → Req) : (s.modReq b k f).berth c = s.berth c := by
  unfold State.modReq
  rw [modBerth_eq, setBerth_berth, if_neg h]

/-- The slot after the monitor has found it late: it switches. -/
def lateReq (r : Req) (now : Nat) : Req :=
  { r with
    predict := min (predictReq r now).1 (2 ^ 32 - 1), switched := true, switchPass := r.started
    stillLate := decide (r.deadline < if r.started = 0 then now + r.passes * r.estCheap
      else r.ts + (predictReq r now).2 + (r.passes - r.started) * r.estCheap) }

/-- The slot is late, has passes to come and an alternate. -/
def switches (r : Req) (now : Nat) : Prop := (predictReq r now).1 > r.deadline ∧ r.started < r.passes ∧ r.altValid = true

/-- The slot with its prediction noted. -/
def predicted (r : Req) (now : Nat) : Req := { r with predict := min (predictReq r now).1 (2 ^ 32 - 1) }

theorem evalReq_timely {b k : Nat} {s : State} (h : ¬ switches (s.slotReq b k) (slotNow s (s.slotReq b k))) :
    evalReq b k s = s.modReq b k (fun r => predicted r (slotNow s (s.slotReq b k))) := by
  unfold evalReq
  exact if_neg h

/-- A switch of the queue's kernel is counted and flagged (R50, R380). -/
def halfbaked (c : QCtx) : QCtx := raiseEvent 0x11 { c with halfbake := satAdd 32 c.halfbake 1 }

theorem evalReq_late {b k : Nat} {s : State} (h : switches (s.slotReq b k) (slotNow s (s.slotReq b k))) :
    ∃ (v : Nat) (u : State), evalReq b k s = raiseVector v (u.modQueue (s.slotReq b k).primary halfbaked) ∧
      u = { s with berths := u.berths } ∧ (∀ c, c ≠ b → u.berth c = s.berth c) ∧
      ∀ c j, u.slotReq c j =
        if c = b ∧ j = k then lateReq (s.slotReq b k) (slotNow s (s.slotReq b k)) else s.slotReq c j := by
  unfold evalReq
  refine ⟨_, _, if_pos h, rfl, fun c hc => ?_, fun c j => ?_⟩
  · rw [modReq_berth_ne _ hc, modReq_berth_ne _ hc]
  · rw [modReq_slotReq, modReq_slotReq, modReq_slotReq]
    by_cases here : c = b ∧ j = k
    · simp only [here, and_self, if_true]
      rfl
    · simp only [here, if_false]

/-- What the evaluation of one slot may change: that slot, but not whether it is open nor its queue; that queue; what the
host is told. -/
structure State.evaluated (s : State) (b k : Nat) (t : State) : Prop where
  shape : t = { s with berths := t.berths, queues := t.queues, glb := t.glb, out := t.out }
  kept : ∀ c j, (t.slotReq c j).isOpen = (s.slotReq c j).isOpen ∧ (t.slotReq c j).primary = (s.slotReq c j).primary
  others : ∀ c j, ¬ (c = b ∧ j = k) → t.slotReq c j = s.slotReq c j
  berths : ∀ c, c ≠ b → t.berth c = s.berth c
  queues : ∀ p, p ≠ (s.slotReq b k).primary → t.queue p = s.queue p

theorem evaluated_of_slot {s t : State} {b k : Nat} {r : Req}
    (shape : t = { s with berths := t.berths, queues := t.queues, glb := t.glb, out := t.out })
    (slots : ∀ c j, t.slotReq c j = if c = b ∧ j = k then r else s.slotReq c j)
    (hr : r.isOpen = (s.slotReq b k).isOpen ∧ r.primary = (s.slotReq b k).primary)
    (berths : ∀ c, c ≠ b → t.berth c = s.berth c) (queues : ∀ p, p ≠ (s.slotReq b k).primary → t.queue p = s.queue p) :
    s.evaluated b k t := by
  refine ⟨shape, fun c j => ?_, fun c j h => by rw [slots, if_neg h], berths, queues⟩
  rw [slots]
  split
  · next h => rw [h.1, h.2]; exact hr
  · exact ⟨rfl, rfl⟩

theorem raiseVector_queue (v : Nat) (s : State) (p : Nat) : (raiseVector v s).queue p = s.queue p := by
  rw [raiseVector_glb]
  rfl

theorem raiseVector_slotReq (v : Nat) (s : State) (c j : Nat) : (raiseVector v s).slotReq c j = s.slotReq c j := by
  rw [raiseVector_glb]
  rfl

theorem evalReq_evaluated (b k : Nat) (s : State) : s.evaluated b k (evalReq b k s) := by
  by_cases h : switches (s.slotReq b k) (slotNow s (s.slotReq b k))
  case neg =>
    rw [evalReq_timely h]
    exact evaluated_of_slot rfl (fun c j => modReq_slotReq ..) ⟨rfl, rfl⟩ (fun c hc => modReq_berth_ne s hc ..)
      (fun p _ => rfl)
  case pos =>
    obtain ⟨v, u, eval, shape, berths, slots⟩ := evalReq_late h
    rw [eval]
    refine evaluated_of_slot ?_ (fun c j => (raiseVector_slotReq ..).trans (slots c j)) ⟨rfl, rfl⟩ (fun c hc => ?_)
      (fun p hp => ?_)
    · rw [raiseVector_glb, shape]
      rfl
    · rw [raiseVector_glb]
      exact berths c hc
    · rw [raiseVector_queue, modQueue_eq, setQueue_queue, if_neg hp, shape]
      rfl

/-- One slot is evaluated where it is open, has not switched and is of the half. -/
def evalDue (half b k : Nat) (u : State) : State :=
  if (u.slotReq b k).isOpen ∧ !(u.slotReq b k).switched ∧ queueHalf (u.slotReq b k).primary = half then evalReq b k u else u

/-- The slots of one berth. -/
def evalBerth (half b : Nat) (t : State) : State := forEach ((t.berth b).reqs.map (·.1)) (evalDue half b) t

theorem evalDue_idle {half b k : Nat} {u : State} (h : (u.slotReq b k).isOpen = false ∨ (u.slotReq b k).switched = true ∨
    queueHalf (u.slotReq b k).primary ≠ half) : evalDue half b k u = u := by
  unfold evalDue
  refine if_neg ?_
  rintro ⟨isOpen, switched, own⟩
  rcases h with h | h | h
  · simp [h] at isOpen
  · simp [h] at switched
  · exact h own

/-- No other open slot is of the queue of slot k of berth b. -/
def State.alone (s : State) (b k : Nat) : Prop :=
  ∀ c j, ¬ (c = b ∧ j = k) → (s.slotReq c j).isOpen = true → (s.slotReq c j).primary ≠ (s.slotReq b k).primary

/-- What the monitor does beside slot k of berth b: that slot stays, and its queue where no other open slot is of it. -/
structure State.beside (b k : Nat) (s t : State) : Prop where
  shape : t = { s with berths := t.berths, queues := t.queues, glb := t.glb, out := t.out }
  kept : ∀ c j, (t.slotReq c j).isOpen = (s.slotReq c j).isOpen ∧ (t.slotReq c j).primary = (s.slotReq c j).primary
  slot : t.slotReq b k = s.slotReq b k
  queue : s.alone b k → t.queue (s.slotReq b k).primary = s.queue (s.slotReq b k).primary

theorem alone_kept {s t : State} {b k : Nat} (kept : ∀ c j,
    (t.slotReq c j).isOpen = (s.slotReq c j).isOpen ∧ (t.slotReq c j).primary = (s.slotReq c j).primary)
    (h : s.alone b k) : t.alone b k := by
  intro c j hc isOpen
  rw [(kept c j).1] at isOpen
  rw [(kept c j).2, (kept b k).2]
  exact h c j hc isOpen

theorem State.beside.refl (b k : Nat) (s : State) : State.beside b k s s := ⟨rfl, fun _ _ => ⟨rfl, rfl⟩, rfl, fun _ => rfl⟩

theorem State.beside.trans {b k : Nat} {s t u : State} (h : State.beside b k s t) (g : State.beside b k t u) :
    State.beside b k s u := by
  refine ⟨by rw [g.shape, h.shape], fun c j => ?_, g.slot.trans h.slot, fun ha => ?_⟩
  · exact ⟨(g.kept c j).1.trans (h.kept c j).1, (g.kept c j).2.trans (h.kept c j).2⟩
  · have := g.queue (alone_kept h.kept ha)
    rw [h.slot] at this
    exact this.trans (h.queue ha)

theorem evalDue_beside {half b k c j : Nat} (h : ¬ (c = b ∧ j = k)) (u : State) : State.beside b k u (evalDue half c j u) := by
  unfold evalDue
  split
  case isFalse => exact .refl b k u
  case isTrue due =>
    have e := evalReq_evaluated c j u
    refine ⟨e.shape, e.kept, e.others b k (fun hb => h ⟨hb.1.symm, hb.2.symm⟩), fun ha => ?_⟩
    exact e.queues _ (ha c j h due.1).symm

theorem evalBerth_beside {half b c : Nat} (k : Nat) (h : c ≠ b) (u : State) : State.beside b k u (evalBerth half c u) :=
  forEach_rel (R := State.beside b k) (.refl b k) (fun _ _ _ => .trans) _ (fun _ t => evalDue_beside (fun e => h e.1) t) _ u

theorem evalBerth_berth_ne {half b c : Nat} (h : c ≠ b) (u : State) : (evalBerth half c u).berth b = u.berth b := by
  refine forEach_same (fun s : State => s.berth b) (evalDue half c) (fun j t => ?_) _ u
  unfold evalDue
  split
  · exact (evalReq_evaluated c j t).berths b h.symm
  · rfl

/-- The monitor evaluates a slot once; what it does before and after stays beside that slot. -/
theorem deadlineEval_at {s : State} {half b k : Nat} (hb : b ∈ s.berths.map (·.1)) (nb : (s.berths.map (·.1)).Nodup)
    (hk : k ∈ (s.berth b).reqs.map (·.1)) (nk : ((s.berth b).reqs.map (·.1)).Nodup) :
    ∃ u, State.beside b k s u ∧ State.beside b k (evalDue half b k u) (deadlineEval half s) := by
  obtain ⟨u, ⟨before, same⟩, ⟨after, -⟩⟩ := forEach_at
    (R := fun s t : State => State.beside b k s t ∧ t.berth b = s.berth b) (fun s => ⟨.refl b k s, rfl⟩)
    (fun _ _ _ h g => ⟨h.1.trans g.1, g.2.trans h.2⟩) nb hb
    (fun c hc t => ⟨evalBerth_beside (half := half) k hc t, evalBerth_berth_ne hc t⟩) s
  obtain ⟨v, first, last⟩ := forEach_at (R := State.beside b k) (.refl b k) (fun _ _ _ => .trans)
    (same ▸ nk) (same ▸ hk) (fun j hj t => evalDue_beside (half := half) (fun e => hj e.2) t) u
  exact ⟨v, before.trans first, last.trans after⟩

theorem deadlineEval_none {s : State} {half : Nat} (h : ∀ b k, (s.slotReq b k).isOpen = false ∨
    (s.slotReq b k).switched = true ∨ queueHalf (s.slotReq b k).primary ≠ half) : deadlineEval half s = s := by
  have idle : ∀ b (l : List Nat), forEach l (evalDue half b) s = s := by
    intro b l
    induction l with
    | nil => rfl
    | cons k l ih => rw [forEach_cons, evalDue_idle (h b k), ih]
  have all : ∀ l : List Nat, forEach l (evalBerth half) s = s := by
    intro l
    induction l with
    | nil => rfl
    | cons b l ih => rw [forEach_cons, evalBerth, idle, ih]
  exact all _

/-- What the monitor leaves of a slot that is due. -/
theorem deadlineEval_due {s : State} {half b k : Nat} (hb : b ∈ s.berths.map (·.1)) (nb : (s.berths.map (·.1)).Nodup)
    (hk : k ∈ (s.berth b).reqs.map (·.1)) (nk : ((s.berth b).reqs.map (·.1)).Nodup) (isOpen : (s.slotReq b k).isOpen = true)
    (stays : (s.slotReq b k).switched = false) (own : queueHalf (s.slotReq b k).primary = half) :
    ∃ u, State.beside b k s u ∧ slotNow u (s.slotReq b k) = slotNow s (s.slotReq b k) ∧
      State.beside b k (evalReq b k u) (deadlineEval half s) := by
  obtain ⟨u, before, after⟩ := deadlineEval_at (half := half) hb nb hk nk
  rw [evalDue, if_pos (by simp [before.slot, isOpen, stays, own])] at after
  refine ⟨u, before, ?_, after⟩
  unfold slotNow
  rw [before.shape]
  rfl

/-- Settles O45: telemetry berth by berth, and the monitor's one evaluation of each slot. -/
theorem monitorsReport : Obligations.MonitorsReport := by
  unfold Obligations.MonitorsReport
  refine ⟨fun s half => ⟨execTelemetry_notDue, fun on every due => ⟨_, execTelemetry_due on every due, ?telemetry⟩⟩,
    fun s half h => congrArg Host.Outcome.next (deadlineEval_none h), fun s half b k p m r hb nb hk nk hr hp => ?monitor⟩
  case telemetry =>
    have cleared := telemCleared_half half s
    have own := halfReported_reporting half s
    have out := halfReported_out half s
    have berths := halfReported_berths half s
    by_cases part : half = partHalf s
    case pos =>
      rw [if_pos part]
      have all := own.trans (reportBerths_reporting half (reportedBerths s) (halfReported half s))
      refine ⟨by rw [all.shape]; rfl, fun h => absurd part h, by rw [all.half, cleared, if_pos rfl],
        (reportBerths_reporting half _ _).grows.mem out, fun _ b ⟨y, hy, conf⟩ => ?_⟩
      have mem : b ∈ reportedBerths s := List.mem_map.mpr ⟨(b, y), List.mem_filter.mpr ⟨hy, conf⟩, rfl⟩
      obtain ⟨⟨v, vout, vq⟩, sent⟩ := reportBerths_reports half _ (halfReported half s) b mem
      refine ⟨⟨v, vout, vq.trans (by rw [own.shape]; rfl)⟩, fun _ c hc => (sent c hc).trans ?_⟩
      rw [State.berth, berths]
      rfl
    case neg =>
      rw [if_neg part]
      exact ⟨by rw [own.shape]; rfl, fun _ => berths, by rw [own.half, cleared, if_pos rfl], out,
        fun h => absurd h part⟩
  case monitor =>
    change r = s.slotReq b k at hr
    subst hr
    have due := deadlineEval_due (half := half) hb nb hk nk
    refine ⟨fun h => ⟨_, rfl, ?_⟩, fun isOpen stays own => ⟨fun h => ⟨_, rfl, ?_⟩, fun h1 h2 h3 => ⟨_, rfl, ?_⟩⟩⟩
    · obtain ⟨u, before, after⟩ := deadlineEval_at (half := half) hb nb hk nk
      rw [evalDue_idle (by rw [before.slot]; exact h)] at after
      exact after.slot.trans before.slot
    · obtain ⟨u, before, now, after⟩ := due isOpen stays own
      have timely : ¬ switches (s.slotReq b k) (slotNow s (s.slotReq b k)) := by
        rintro ⟨late, more, alt⟩
        rw [hp] at late
        rcases h with h | h | h
        · exact absurd late (by simpa using h)
        · omega
        · simp [h] at alt
      refine after.slot.trans ?_
      rw [evalReq_timely (by rw [before.slot, now]; exact timely), modReq_slotReq, if_pos ⟨rfl, rfl⟩, before.slot, now,
        predicted, hp]
    · obtain ⟨u, before, now, after⟩ := due isOpen stays own
      have late : switches (s.slotReq b k) (slotNow s (s.slotReq b k)) := ⟨by rw [hp]; exact h1, h2, h3⟩
      have evaluated := evalReq_evaluated b k u
      obtain ⟨v, w, eval, shape, -, slots⟩ := evalReq_late (s := u) (by rw [before.slot, now]; exact late)
      simp only [before.slot, now] at eval slots
      have slot : (evalReq b k u).slotReq b k = lateReq (s.slotReq b k) (slotNow s (s.slotReq b k)) := by
        rw [eval, raiseVector_slotReq]
        exact (slots b k).trans (if_pos ⟨rfl, rfl⟩)
      refine ⟨by rw [after.shape, evaluated.shape, before.shape], ?_, fun distinct => ?_⟩
      · refine (after.slot.trans slot).trans ?_
        rw [lateReq, hp]
      · have alone : s.alone b k := fun c j hc ho => distinct c j (fun e => hc (Prod.mk.inj e)) ho
        have queue := after.queue (alone_kept evaluated.kept (alone_kept before.kept alone))
        rw [slot] at queue
        refine queue.trans ?_
        rw [eval, raiseVector_queue, shape]
        refine (setQueue_queue ..).trans ((if_pos rfl).trans ?_)
        exact congrArg halfbaked (before.queue alone)

end Sys2Proof.Machine
end

section
/-! SUPPORT. The end of a commit (02_kernels_commit.md R45, R47): what dropped effects and phases 4 to 7 leave. -/
namespace Sys2Proof.Machine

/-! ### Dropped effects -/

theorem recordSpot_sameRuns (b va : Nat) (s : State) : s.sameRuns (recordSpot b va s) := by
  unfold recordSpot
  split
  · split
    · exact ⟨fun _ => rfl, fun _ => rfl, rfl⟩
    · exact recordStore_sameRuns ..
  · exact ⟨fun _ => rfl, fun _ => rfl, rfl⟩

/-- The state in which the drop of an effect is counted. -/
def dropCounted (q : Nat) (s : State) : State :=
  (s.modRun q (fun r => { r with drops := r.drops + 1 })).modQueue q (fun c => { c with dropCount := satAdd 16 c.dropCount 1 })

theorem dropEffect_kept (q part reason : Nat) (s : State) : (dropEffect q part reason s).kept = (dropCounted q s).kept :=
  makeRecord_kept ..

theorem dropEffect_stored (q part reason : Nat) (s : State) : (dropEffect q part reason s).stored = s.stored :=
  (kept_stored (dropEffect_kept q part reason s)).trans rfl

theorem dropEffect_queue (q part reason p : Nat) (s : State) : (dropEffect q part reason s).queue p =
    if p = q then { s.queue q with dropCount := satAdd 16 (s.queue q).dropCount 1 } else s.queue p := by
  rw [kept_queue (dropEffect_kept q part reason s) p, dropCounted, modQueue_eq, setQueue_queue]
  rfl

theorem dropEffect_run (q part reason p : Nat) (s : State) : (dropEffect q part reason s).run p =
    if p = q then { s.run q with drops := (s.run q).drops + 1 } else s.run p := by
  rw [kept_run (dropEffect_kept q part reason s) p, dropCounted, modQueue_eq, setQueue_run, modRun_eq, setRun_run]

/-! ### Phase 4 -/

theorem deep_stored {s t : State} (h : t.deep = s.deep) : t.stored = s.stored := by
  change t.deep.stored = s.deep.stored
  rw [h]

theorem deepOwn_stored {s t : State} {q : Nat} (h : t.deepOwn q = s.deepOwn q) : t.stored = s.stored :=
  deep_stored (congrArg Prod.fst h)

theorem deepOwn_own {s t : State} {q : Nat} (h : t.deepOwn q = s.deepOwn q) : t.own q = s.own q := congrArg Prod.snd h

/-- What no phase before the seventh changes: STATE of the queues, sync objects, trays, and of the run of q its words. -/
structure State.sameCommit (q : Nat) (s t : State) : Prop where
  state : ∀ p, (t.queue p).state = (s.queue p).state
  start : (t.run q).start = (s.run q).start
  words : (t.run q).words = (s.run q).words
  syncs : t.syncs = s.syncs
  trays : t.trays = s.trays

theorem State.sameCommit.refl (q : Nat) (s : State) : State.sameCommit q s s := ⟨fun _ => rfl, rfl, rfl, rfl, rfl⟩

theorem State.sameCommit.trans {q : Nat} {s t u : State} (h : State.sameCommit q s t) (k : State.sameCommit q t u) :
    State.sameCommit q s u :=
  ⟨fun p => (k.state p).trans (h.state p), k.start.trans h.start, k.words.trans h.words, k.syncs.trans h.syncs,
    k.trays.trans h.trays⟩

theorem sameCommit_of_deepOwn {s t : State} (q : Nat) (h : ∀ p, t.deepOwn p = s.deepOwn p) : State.sameCommit q s t := by
  have own : ∀ p, t.own p = s.own p := fun p => deepOwn_own (h p)
  have stored := deepOwn_stored (h q)
  simp only [State.own, Prod.mk.injEq] at own
  simp only [State.stored, Prod.mk.injEq] at stored
  exact ⟨fun p => (own p).2, by rw [(own q).1], by rw [(own q).1], stored.2.2.2, stored.2.2.1⟩

theorem sameCommit_of_sameRuns {s t : State} (q : Nat) (h : s.sameRuns t) : State.sameCommit q s t := by
  obtain ⟨queues, runs, stored⟩ := h
  simp only [State.stored, Prod.mk.injEq] at stored
  exact ⟨fun p => by rw [queues], by rw [runs], by rw [runs], stored.2.2.2, stored.2.2.1⟩

theorem dropEffect_sameCommit (q part reason : Nat) (s : State) : State.sameCommit q s (dropEffect q part reason s) := by
  have stored := dropEffect_stored q part reason s
  simp only [State.stored, Prod.mk.injEq] at stored
  refine ⟨fun p => ?_, by rw [dropEffect_run, if_pos rfl], by rw [dropEffect_run, if_pos rfl], stored.2.2.2, stored.2.2.1⟩
  rw [dropEffect_queue]
  split
  · next e => rw [e]
  · rfl

theorem poke_sameCommit (q b va : Nat) (bs : List Byte) (s : State) : State.sameCommit q s (s.poke b va bs).2 := by
  rw [poke_shape]
  exact ⟨fun _ => rfl, rfl, rfl, rfl, rfl⟩

theorem applyFour_sameCommit (q : Nat) (e : Held) (s : State) : State.sameCommit q s (applyFour q e s) := by
  by_cases h : e.isRelease = false
  case pos => exact sameCommit_of_deepOwn q (fun p => applyFour_deepOwn q p e s h)
  case neg =>
    cases e with
    | release addr value =>
      unfold applyFour
      dsimp only
      have poked := poke_sameCommit q (s.queue q).berth addr (leBytes 8 value) s
      split
      · exact poked
      · exact (poked.trans (sameCommit_of_sameRuns q (recordSpot_sameRuns ..))).trans (dropEffect_sameCommit ..)
    | _ => exact absurd rfl h

theorem fourPhase_sameCommit (q : Nat) (es : List Held) (s : State) : State.sameCommit q s (forEach es (applyFour q) s) :=
  forEach_rel (R := State.sameCommit q) (.refl q) (fun _ _ _ => .trans) _ (applyFour_sameCommit q) es s

/-- Without a release phase 4 writes no memory. -/
theorem fourPhase_stored {q : Nat} {es : List Held} (h : ∀ e ∈ es, e.isRelease = false) (s : State) :
    (forEach es (applyFour q) s).stored = s.stored := by
  induction es generalizing s with
  | nil => rfl
  | cons e es ih =>
    rw [forEach_cons, ih (fun x hx => h x (List.mem_cons_of_mem _ hx))]
    exact deepOwn_stored (applyFour_deepOwn q q e s (h e List.mem_cons_self))

/-! ### Phases 5 to 7 -/

theorem epochsEvents_deepOwn (q p : Nat) (s : State) : (applyEvents q (applyEpochs q s)).deepOwn p = s.deepOwn p :=
  (applyEvents_deepOwn q p _).trans (applyEpochs_deepOwn q p s)

theorem sevenPhase_syncs (d : Bool) (es : List Held) {s t : State} (h : s.syncs = t.syncs) :
    (forEach es (applySeven d) s).syncs = (forEach es (applySeven d) t).syncs := by
  induction es generalizing s t with
  | nil => exact h
  | cons e es ih => exact ih (applySeven_syncs d e s t h)

theorem sevenPhase_own (d : Bool) (es : List Held) {s : State} {p : Nat} (h : (s.queue p).state ≠ .stopped) :
    (forEach es (applySeven d) s).own p = s.own p := by
  induction es generalizing s with
  | nil => rfl
  | cons e es ih =>
    have own := applySeven_own d e p s h
    have state : ((applySeven d e s).queue p).state = (s.queue p).state := congrArg Prod.snd own
    rw [forEach_cons, ih (state ▸ h), own]

theorem sevenPhase_stored3 (d : Bool) (es : List Held) (s : State) : (forEach es (applySeven d) s).stored3 = s.stored3 :=
  forEach_same State.stored3 _ (applySeven_stored3 d) es s

/-- Settles O34: phase by phase, then the end of the run. -/
theorem commitsEnd : Obligations.CommitsEnd := by
  unfold Obligations.CommitsEnd
  intro s u q hp hr hs hb hu
  generalize hes : (heldSorted (s.run q)).map (·.eff) = es at hb hu ⊢
  have due : exec (.commitRemoteDone q) s = .next (finishCommit q
      (forEach es (applySeven (decide ((u.run q).drops ≠ 0))) (applyEvents q (applyEpochs q u)))) := by
    change execCommitRemoteDone q s = _
    unfold execCommitRemoteDone
    rw [hes, if_pos (by simp [hp, hr, hb]), hu]
  refine ⟨_, due, ?_⟩
  have four : State.sameCommit q s u := hu ▸ fourPhase_sameCommit q es s
  have five := sameCommit_of_deepOwn q (fun p => epochsEvents_deepOwn q p u)
  generalize hv : applyEvents q (applyEpochs q u) = v at five
  have pre := four.trans five
  have own := fun p (h : (s.queue p).state ≠ .stopped) =>
    sevenPhase_own (decide ((u.run q).drops ≠ 0)) es (s := v) (p := p) (by rw [pre.state]; exact h)
  have stored3 := sevenPhase_stored3 (decide ((u.run q).drops ≠ 0)) es v
  have syncs := sevenPhase_syncs (decide ((u.run q).drops ≠ 0)) es pre.syncs
  generalize forEach es (applySeven (decide ((u.run q).drops ≠ 0))) v = w at own stored3 syncs
  obtain ⟨queues, run, -, stored⟩ := finishCommit_facts q w
  simp only [State.stored, Prod.mk.injEq] at stored
  simp only [State.stored3, Prod.mk.injEq] at stored3
  simp only [State.own, Prod.mk.injEq] at own
  obtain ⟨mem, units, trays, syncs'⟩ := stored
  obtain ⟨mem3, units3, trays3⟩ := stored3
  have ownRun := (own q (by rw [hs]; exact QState.noConfusion)).1
  refine ⟨by rw [queues, if_pos rfl], ?head, ?run, syncs'.trans syncs, trays.trans (trays3.trans pre.trays),
    fun p hpq hstop => ?others, fun hrel => ?memory⟩
  case head => rw [queues, if_pos rfl, ownRun, pre.start, pre.words]
  case run => rw [run]
  case others => rw [queues, if_neg hpq, (own p hstop).2, pre.state]
  case memory =>
    have free : ∀ e ∈ es, e.isRelease = false := by
      rw [← hes]
      intro e he
      obtain ⟨h, hh, rfl⟩ := List.mem_map.mp he
      exact hrel h ((mem_heldSorted _ h).mp hh)
    have unstored : v.stored = s.stored := by
      rw [← hv, deepOwn_stored (epochsEvents_deepOwn q q u), hu, fourPhase_stored free]
    simp only [State.stored, Prod.mk.injEq] at unstored
    exact ⟨mem.trans (mem3.trans unstored.1), units.trans (units3.trans unstored.2.1)⟩

end Sys2Proof.Machine
end

section
/-! SUPPORT. Atomics of a commit (02_kernels_commit.md R45, 12_trays_harbour.md R311 to R315): what a write at a place leaves
of what readers see, and what the count of the home Harbour becomes. -/
namespace Sys2Proof.Machine

/-! ### A write at a place -/

theorem merged_stored (s : State) (u x : Nat) (h : x / 32 = u) :
    (s.merged u).delivered.find? (fun d => d.1 = x / 32) = none := by
  rw [h]
  exact find_same u s.delivered

theorem merged_stays {s : State} {u x : Nat} (h : s.delivered.find? (fun d => d.1 = x / 32) = none) :
    (s.merged u).delivered.find? (fun d => d.1 = x / 32) = none := by
  by_cases hx : x / 32 = u
  · exact merged_stored s u x hx
  · exact (find_other u (x / 32) hx s.delivered).trans h

/-- Readers of a stack see the bytes written, and of every other address what they saw. The bytes reach no further than two
units, in which a masked write merges into what was delivered (R336). -/
theorem spotWrite_stack_memByte (s : State) (b va pa : Nat) (bs : List Byte) (h : 0 < bs.length ∧ bs.length ≤ 33) (x : Nat) :
    (s.spotWrite b va (.stack pa) bs).memByte x = if pa ≤ x ∧ x < pa + bs.length then bs.getD (x - pa) 0 else s.memByte x := by
  generalize hm : (s.merged (pa / 32)).merged ((pa + bs.length - 1) / 32) = m
  have seen : m.memByte x = s.memByte x := by
    rw [← hm, State.merged_memByte, State.merged_memByte]
  have written : (s.spotWrite b va (.stack pa) bs).memByte x = ({ m with mem := wrBytes m.mem pa bs } : State).memByte x := by
    rw [← hm]
    rfl
  rw [written]
  split
  case isTrue hx =>
    have stored : m.delivered.find? (fun d => d.1 = x / 32) = none := by
      rw [← hm]
      by_cases first : x / 32 = pa / 32
      · exact merged_stays (merged_stored s _ x first)
      · exact merged_stored _ _ x (by omega)
    rw [memByte_stored (s := { m with mem := wrBytes m.mem pa bs }) stored]
    exact (rdByte_wrBytes ..).trans (if_pos hx)
  case isFalse hx =>
    rw [← seen]
    exact memByte_congr rfl ((rdByte_wrBytes ..).trans (if_neg hx))

theorem spotWrite_mooring_moor (s : State) (b va home v : Nat) (bs : List Byte) (x : Nat) :
    rdByte (s.spotWrite b va (.mooring home v) bs).moor x =
      if moorKey b v ≤ x ∧ x < moorKey b v + bs.length then bs.getD (x - moorKey b v) 0 else rdByte s.moor x :=
  rdByte_wrBytes ..

/-- What an access from outside a kernel may change. -/
def State.outside (s t : State) : Prop :=
  t = { s with mem := t.mem, delivered := t.delivered, moor := t.moor, berths := t.berths, hbr := t.hbr }

theorem State.outside.trans {s t u : State} (h : s.outside t) (k : t.outside u) : s.outside u := by
  unfold State.outside at *
  rw [k, h]

theorem slotTouch_outside (s : State) (l : Locus) (st : Bool) : s.outside (s.slotTouch l st) := by
  unfold State.outside
  rw [slotTouch_shape]

theorem atomWrite_outside (s : State) (b va op w x y : Nat) : s.outside (s.atomWrite b va op w x y) := spotWrite_shape ..

theorem countAtom_outside (s : State) (l : Locus) : s.outside (s.countAtom l) := rfl

theorem atomWrites_outside (b op : Nat) (es : List (Nat × BitVec 32)) (s : State) :
    s.outside (forEach es (fun e t => t.atomWrite b e.1 op 32 e.2.toNat 0) s) :=
  forEach_rel (R := State.outside) (fun _ => rfl) (fun _ _ _ => .trans) _ (fun _ t => atomWrite_outside t ..) es s

/-! ### The count of atomics -/

theorem spotWrite_atoms (s : State) (b va : Nat) (l : Locus) (bs : List Byte) (h : Nat) :
    ((s.spotWrite b va l bs).harbour h).atoms = (s.harbour h).atoms := by
  cases l with
  | stack pa => rfl
  | acc a w => rfl
  | mooring home v =>
    have allotted : ((s.allot home (lineOf b (s.moorBase b v) v)).harbour h).atoms = (s.harbour h).atoms := by
      simp only [State.allot, modHarbour_eq, setHarbour_harbour]
      split
      · next e =>
        rw [e]
        split <;> rfl
      · rfl
    exact allotted

theorem atomWrites_atoms (b op : Nat) (es : List (Nat × BitVec 32)) (s : State) (h : Nat) :
    ((forEach es (fun e t => t.atomWrite b e.1 op 32 e.2.toNat 0) s).harbour h).atoms = (s.harbour h).atoms :=
  forEach_same (fun s => (s.harbour h).atoms) _ (fun _ t => spotWrite_atoms t ..) es s

/-- The half h is home to a place. -/
def State.homeOf (s : State) (l : Locus) (h : Nat) : Prop :=
  match l with
  | .stack pa => h = s.homeHalf pa
  | .mooring home _ => h = home
  | .acc .. => False

theorem countAtom_atoms {s : State} {l : Locus} {h : Nat} (home : s.homeOf l h) :
    ((s.countAtom l).harbour h).atoms = wrapAdd 64 (s.harbour h).atoms 1 := by
  cases l with
  | stack pa =>
    cases home
    simp [State.countAtom]
  | mooring home v =>
    cases home
    simp [State.countAtom]
  | acc a w => cases home

theorem State.outside.homeOf {s t : State} (h : s.outside t) {l : Locus} {half : Nat} (hl : s.homeOf l half) :
    t.homeOf l half := by
  have home : ∀ pa, t.homeHalf pa = s.homeHalf pa := fun pa => by
    rw [h]
    rfl
  cases l with
  | stack pa => exact hl.trans (home pa).symm
  | mooring => exact hl
  | acc => exact hl

/-! ### Runs and Harbours do not matter to what is written -/

/-- The states agree but for runs and Harbours. -/
def State.alike (s t : State) : Prop := t = { s with hbr := t.hbr, runs := t.runs }

theorem State.alike.memByte {s t : State} (h : s.alike t) (x : Nat) : t.memByte x = s.memByte x := by
  rw [h]
  rfl

theorem State.alike.spot {s t : State} (h : s.alike t) (b va : Nat) : t.spot b va = s.spot b va := by
  rw [h]
  rfl

theorem State.alike.atomWrite {s t : State} (h : s.alike t) (b va op w x y : Nat) :
    (s.atomWrite b va op w x y).alike (t.atomWrite b va op w x y) := by
  unfold State.alike at h
  generalize t.hbr = hbr, t.runs = runs at h
  subst h
  have spot : ({ s with hbr := hbr, runs := runs } : State).spot b va = s.spot b va := rfl
  unfold State.atomWrite
  rw [spot]
  cases s.spot b va <;> rfl

theorem State.alike.atomWrites {s t : State} (h : s.alike t) (b op : Nat) (es : List (Nat × BitVec 32)) :
    (forEach es (fun e t => t.atomWrite b e.1 op 32 e.2.toNat 0) s).alike
      (forEach es (fun e t => t.atomWrite b e.1 op 32 e.2.toNat 0) t) := by
  induction es generalizing s t with
  | nil => exact h
  | cons e es ih => exact ih (h.atomWrite ..)

/-! ### The step of phase 2 -/

/-- The state with the effect out of the log, and what is left of it in again. -/
def logWithout (s : State) (q : Nat) (h : HeldRec) (keep : List HeldRec) : State :=
  s.modRun q (fun x => { x with held := keep ++ (s.run q).held.filter (· ≠ h) })

theorem logWithout_alike (s : State) (q : Nat) (h : HeldRec) (keep : List HeldRec) : s.alike (logWithout s q h keep) := rfl

theorem logWithout_run (s : State) (q : Nat) (h : HeldRec) (keep : List HeldRec) (p : Nat) : (logWithout s q h keep).run p =
    if p = q then { s.run q with held := keep ++ (s.run q).held.filter (· ≠ h) } else s.run p := by
  simp [logWithout]

/-- Neither out of reach nor marked (R337). -/
def State.spotGood (s : State) (b : Nat) (l : Locus) : Prop := s.spotDead l = false ∧ s.markAt b l = .good

theorem atomAt_good {s : State} {b va : Nat} (h : s.spotGood b (s.spot b va)) (op w x y : Nat) :
    s.atomAt b va op w x y = (true, (s.slotTouch (s.spot b va)).atomWrite b va op w x y) := by
  simp [State.atomAt, h.1, h.2]

theorem atomAt_bad {s : State} {b va : Nat} (h : ¬ s.spotGood b (s.spot b va)) (op w x y : Nat) :
    s.atomAt b va op w x y = (false, s) := by
  refine if_pos ?_
  by_cases dead : s.spotDead (s.spot b va) = true
  · simp [dead]
  · simp only [Bool.not_eq_true] at dead
    simp only [dead, Bool.false_or, decide_eq_true_eq]
    exact fun good => h ⟨dead, good⟩

/-- The elements that apply now, where they lie in one unit. -/
def unitWrites (b op : Nat) (es : List (Nat × BitVec 32)) (s : State) : State :=
  forEach (unitPrefix es) (fun e t => t.atomWrite b e.1 op 32 e.2.toNat 0) s

/-- What is left of a reduction. -/
def unitRest (h : HeldRec) (op : Nat) (es : List (Nat × BitVec 32)) : List HeldRec :=
  if es.drop (unitPrefix es).length = [] then [] else [{ h with eff := .reduce op (es.drop (unitPrefix es).length) }]

theorem unitPrefix_cons (e : Nat × BitVec 32) (es : List (Nat × BitVec 32)) :
    unitPrefix (e :: es) = e :: es.takeWhile (fun x => x.1 / 32 = e.1 / 32) := by
  simp [unitPrefix]

/-! ### The step of phase 2 -/

section
variable {s : State} {q : Nat} {h : HeldRec} (hp : inPhase s q 2 = true)
  (hf : (heldSorted (s.run q)).find? (fun h => isLocalAtom h.eff) = some h)
include hp hf

theorem opApply_atom {o : AtomOps} (he : h.eff = .atom o) (hb : s.spotBarred (s.queue q).berth o.addr = false) :
    exec (.harbourOpApply q) s = .next
      (let p := (logWithout s q h []).atomAt (s.queue q).berth o.addr o.op (if o.wide64 then 64 else 32) o.operand o.compare
      if p.1 then p.2.countAtom (s.spot (s.queue q).berth o.addr)
      else dropEffect q s.cwy.partId 7 (recordSpot (s.queue q).berth o.addr p.2)) := by
  change execHarbourOpApply q s = _
  simp only [execHarbourOpApply, hp, hf, he, hb, if_true, Bool.false_eq_true, if_false]
  rfl

theorem opApply_reduce {op : Nat} {es : List (Nat × BitVec 32)} (he : h.eff = .reduce op es) (hne : es ≠ [])
    (hb : s.spotBarred (s.queue q).berth (es.headD (0, 0)).1 = false) :
    exec (.harbourOpApply q) s = .next
      (let t := logWithout s q h (unitRest h op es)
      let l := s.spot (s.queue q).berth (es.headD (0, 0)).1
      if s.spotDead l || s.markAt (s.queue q).berth l ≠ .good then
        dropEffect q s.cwy.partId 7 (recordSpot (s.queue q).berth (es.headD (0, 0)).1 t)
      else (unitWrites (s.queue q).berth op es (t.slotTouch l)).countAtom l) := by
  obtain ⟨e, es, rfl⟩ := List.exists_cons_of_ne_nil hne
  change execHarbourOpApply q s = _
  have head : (unitPrefix (e :: es)).headD (0, 0) = e := by rw [unitPrefix_cons]; rfl
  have some_now : unitPrefix (e :: es) ≠ [] := by rw [unitPrefix_cons]; exact List.cons_ne_nil _ _
  simp only [List.headD_cons] at hb ⊢
  unfold execHarbourOpApply
  rw [if_pos hp]
  dsimp only
  rw [hf]
  dsimp only
  rw [he]
  dsimp only
  rw [head, if_neg (by simp [hb]), if_neg some_now]
  exact (apply_ite Host.Outcome.next _ _ _).symm

theorem opApply_barred {va : Nat} (he : (∃ o, h.eff = .atom o ∧ va = o.addr) ∨
      ∃ op es, h.eff = .reduce op es ∧ es ≠ [] ∧ va = (es.headD (0, 0)).1)
    (hb : s.spotBarred (s.queue q).berth va = true) : exec (.harbourOpApply q) s = .next s := by
  change execHarbourOpApply q s = _
  rcases he with ⟨o, he, rfl⟩ | ⟨op, es, he, hne, rfl⟩
  · simp only [execHarbourOpApply, hp, hf, he, hb, if_true]
  · obtain ⟨e, es, rfl⟩ := List.exists_cons_of_ne_nil hne
    have head : (unitPrefix (e :: es)).headD (0, 0) = e := by rw [unitPrefix_cons]; rfl
    simp only [List.headD_cons] at hb
    simp only [execHarbourOpApply, hp, hf, he, head, hb, if_true]

end

theorem not_mem_unitRest {h : HeldRec} {op : Nat} {es : List (Nat × BitVec 32)} (he : h.eff = .reduce op es) (hne : es ≠ []) :
    h ∉ unitRest h op es := by
  obtain ⟨e, es, rfl⟩ := List.exists_cons_of_ne_nil hne
  unfold unitRest
  split
  · exact List.not_mem_nil
  · rw [List.mem_singleton]
    intro same
    have eff := he.symm.trans (congrArg HeldRec.eff same)
    have lengths := congrArg List.length (Held.reduce.inj eff).2
    simp only [unitPrefix_cons, List.length_drop, List.length_cons] at lengths
    omega

/-- An effect that is dropped leaves the log, and is counted in its run and its queue (R47, R337). -/
theorem dropped_facts {s : State} {q b va part : Nat} {h : HeldRec} {keep : List HeldRec} (hk : h ∉ keep) {t : State}
    (ht : t = dropEffect q part 7 (recordSpot b va (logWithout s q h keep))) :
    t.mem = s.mem ∧ t.units = s.units ∧ t.trays = s.trays ∧ t.syncs = s.syncs ∧
      (t.run q).drops = (s.run q).drops + 1 ∧ h ∉ (t.run q).held ∧
      t.queue q = { s.queue q with dropCount := satAdd 16 (s.queue q).dropCount 1 } ∧
      ∀ p, p ≠ q → t.run p = s.run p ∧ t.queue p = s.queue p := by
  obtain ⟨queues, runs, stored⟩ := recordSpot_sameRuns b va (logWithout s q h keep)
  have all : t.stored = s.stored := by rw [ht, dropEffect_stored, stored]; rfl
  simp only [State.stored, Prod.mk.injEq] at all
  obtain ⟨mem, units, trays, syncs⟩ := all
  have run : ∀ p, t.run p = if p = q then { (logWithout s q h keep).run q with
      drops := ((logWithout s q h keep).run q).drops + 1 } else (logWithout s q h keep).run p := fun p => by
    rw [ht, dropEffect_run, runs, runs]
  have queue : ∀ p, t.queue p = if p = q then { s.queue q with dropCount := satAdd 16 (s.queue q).dropCount 1 }
      else s.queue p := fun p => by
    rw [ht, dropEffect_queue, queues, queues]
    rfl
  refine ⟨mem, units, trays, syncs, ?drops, ?log, by rw [queue, if_pos rfl], fun p hp => ⟨?others, by rw [queue, if_neg hp]⟩⟩
  case drops => rw [run, if_pos rfl, logWithout_run, if_pos rfl]
  case log =>
    rw [run, if_pos rfl, logWithout_run, if_pos rfl]
    simp [hk]
  case others => rw [run, if_neg hp, logWithout_run, if_neg hp]

/-- What an access from outside, after the effect left the log, leaves of queues, runs and marks. -/
theorem logWithout_outside {s t : State} {q : Nat} {h : HeldRec} {keep : List HeldRec}
    (ho : (logWithout s q h keep).outside t) : t.queues = s.queues ∧
      t.run q = { s.run q with held := keep ++ (s.run q).held.filter (· ≠ h) } ∧
      (∀ p, p ≠ q → t.run p = s.run p) ∧ t.units = s.units ∧ t.trays = s.trays ∧ t.syncs = s.syncs := by
  have run : ∀ p, t.run p = (logWithout s q h keep).run p := fun p => by rw [ho]; rfl
  refine ⟨by rw [ho]; rfl, ?_, fun p hp => ?_, ?_⟩
  · rw [run, logWithout_run, if_pos rfl]
  · rw [run, logWithout_run, if_neg hp]
  · rw [ho]
    exact ⟨rfl, rfl, rfl⟩

/-- One atomic on a good word: what readers of a stack, or of the moorings, then see. -/
theorem atomWrite_stack {s : State} {b va pa w : Nat} (hs : s.spot b va = .stack pa) (hw : 0 < w / 8 ∧ w / 8 ≤ 33)
    (op x y : Nat) : (s.atomWrite b va op w x y).moor = s.moor ∧ ∀ a, (s.atomWrite b va op w x y).memByte a =
      if pa ≤ a ∧ a < pa + w / 8 then
        (leBytes (w / 8) (atomWord op w (leNat ((List.range (w / 8)).map (fun i => s.memByte (pa + i)))) x y)).getD (a - pa) 0
      else s.memByte a := by
  unfold State.atomWrite
  rw [hs]
  dsimp only
  refine ⟨rfl, fun a => ?_⟩
  rw [spotWrite_stack_memByte _ _ _ _ _ (by rwa [leBytes_length]), leBytes_length]
  rfl

theorem atomWrite_mooring {s : State} {b va home v w : Nat} (hs : s.spot b va = .mooring home v) (op x y : Nat) :
    (s.atomWrite b va op w x y).mem = s.mem ∧ ∀ a, rdByte (s.atomWrite b va op w x y).moor a =
      if moorKey b v ≤ a ∧ a < moorKey b v + w / 8 then
        (leBytes (w / 8) (atomWord op w (leNat (rdBytes s.moor (moorKey b v) (w / 8))) x y)).getD (a - moorKey b v) 0
      else rdByte s.moor a := by
  unfold State.atomWrite
  rw [hs]
  dsimp only
  refine ⟨rfl, fun a => ?_⟩
  rw [spotWrite_mooring_moor, leBytes_length]
  rfl

/-- The lookup before an atomic changes nothing that readers see. -/
theorem slotTouch_alike {s t : State} (h : s.alike t) (l : Locus) : s.alike (t.slotTouch l) := by
  unfold State.alike at *
  rw [slotTouch_shape, h]

/-- Settles O32: the step of phase 2 by the kind of the effect and by the place it reaches. -/
theorem atomicsApplyInOrder : Obligations.AtomicsApplyInOrder := by
  unfold Obligations.AtomicsApplyInOrder
  intro s q h hp hf
  refine ⟨fun o he hb hd hm => ?atom, fun op es he hne hb hd hm => ?reduce,
    fun va hva => ⟨opApply_barred hp hf hva, fun hb hbad => ?dropped⟩⟩
  case atom =>
    have good : (logWithout s q h []).spotGood (s.queue q).berth
      ((logWithout s q h []).spot (s.queue q).berth o.addr) := ⟨hd, hm⟩
    refine ⟨_, opApply_atom hp hf he hb, ?_⟩
    rw [atomAt_good good]
    dsimp only
    have spot : (logWithout s q h []).spot (s.queue q).berth o.addr = s.spot (s.queue q).berth o.addr := rfl
    rw [spot, if_pos rfl]
    have width : (if o.wide64 then 64 else 32) / 8 = if o.wide64 then 8 else 4 := by cases o.wide64 <;> rfl
    have touched := slotTouch_alike (logWithout_alike s q h []) (s.spot (s.queue q).berth o.addr)
    have count := fun half => slotTouch_atoms (logWithout s q h []) (s.spot (s.queue q).berth o.addr) false half
    have outside := slotTouch_outside (logWithout s q h []) (s.spot (s.queue q).berth o.addr) false
    generalize (logWithout s q h []).slotTouch (s.spot (s.queue q).berth o.addr) = v at touched count outside ⊢
    have wrote := atomWrite_outside v (s.queue q).berth o.addr o.op (if o.wide64 then 64 else 32) o.operand o.compare
    obtain ⟨queues, run, others, units, trays, syncs⟩ :=
      logWithout_outside ((outside.trans wrote).trans (countAtom_outside _ (s.spot (s.queue q).berth o.addr)))
    have counted := fun half (hh : s.homeOf (s.spot (s.queue q).berth o.addr) half) =>
      (countAtom_atoms ((outside.trans wrote).homeOf hh)).trans
        (congrArg (wrapAdd 64 · 1) ((spotWrite_atoms ..).trans (count half)))
    have vspot : v.spot (s.queue q).berth o.addr = s.spot (s.queue q).berth o.addr := touched.spot ..
    refine ⟨queues, run, others, units, trays, syncs, fun pa hs => ?stack, fun home w hs => ?mooring⟩
    case stack =>
      obtain ⟨moor, bytes⟩ := atomWrite_stack (vspot.trans hs) (w := if o.wide64 then 64 else 32)
        (by rw [width]; split <;> omega) o.op o.operand o.compare
      simp only [width, touched.memByte] at bytes
      exact ⟨moor.trans (by rw [touched]), bytes, counted _ (by rw [hs]; rfl)⟩
    case mooring =>
      obtain ⟨mem, bytes⟩ := atomWrite_mooring (vspot.trans hs) (w := if o.wide64 then 64 else 32) o.op o.operand o.compare
      have moor : v.moor = s.moor := by rw [touched]
      simp only [width, moor] at bytes
      exact ⟨mem.trans (by rw [touched]), bytes, counted _ (by rw [hs]; rfl)⟩
  case reduce =>
    refine ⟨_, opApply_reduce hp hf he hne hb, ?_⟩
    dsimp only
    rw [if_neg (by rw [hd, hm]; exact Bool.noConfusion)]
    generalize s.spot (s.queue q).berth (es.headD (0, 0)).1 = l
    have touched := slotTouch_alike (logWithout_alike s q h (unitRest h op es)) l
    have count := fun half => slotTouch_atoms (logWithout s q h (unitRest h op es)) l false half
    have outside := slotTouch_outside (logWithout s q h (unitRest h op es)) l false
    generalize (logWithout s q h (unitRest h op es)).slotTouch l = v at touched count outside ⊢
    have wrote := atomWrites_outside (s.queue q).berth op (unitPrefix es) v
    have alike := touched.atomWrites (s.queue q).berth op (unitPrefix es)
    obtain ⟨queues, run, others, units, trays, syncs⟩ :=
      logWithout_outside ((outside.trans wrote).trans (countAtom_outside _ l))
    refine ⟨queues, others, congrArg Run.held run, units, trays, syncs, alike.memByte, ?moor, fun half hh => ?count⟩
    case moor =>
      rw [countAtom_outside]
      exact (congrArg State.moor alike).trans rfl
    case count =>
      have home : s.homeOf l half := by cases l <;> exact hh
      exact (countAtom_atoms ((outside.trans wrote).homeOf home)).trans
        (congrArg (wrapAdd 64 · 1) ((atomWrites_atoms ..).trans (count half)))
  case dropped =>
    rcases hva with ⟨o, he, rfl⟩ | ⟨op, es, he, hne, rfl⟩
    · have bad : ¬ (logWithout s q h []).spotGood (s.queue q).berth
          ((logWithout s q h []).spot (s.queue q).berth o.addr) := by
        rintro ⟨reach, mark⟩
        rcases hbad with dead | marked
        · exact absurd (dead.symm.trans reach) Bool.noConfusion
        · exact marked mark
      refine ⟨_, opApply_atom hp hf he hb, ?_⟩
      rw [atomAt_bad bad]
      exact dropped_facts List.not_mem_nil (if_neg Bool.noConfusion)
    · refine ⟨_, opApply_reduce hp hf he hne hb, dropped_facts (not_mem_unitRest he hne) (if_pos ?_)⟩
      rcases hbad with dead | marked
      · rw [dead, Bool.true_or]
      · rw [decide_eq_true marked, Bool.or_true]

end Sys2Proof.Machine
end

section
/-! SUPPORT. The operator's kill of a queue (19_tidewatch.md R464) meets a run that has landed (02_kernels_commit.md R64). -/
namespace Sys2Proof.Machine

/-- A command that is written while none runs and the boot chain has ended is handled. -/
theorem operatorCmd_taken {op b : Nat} {f : State → State} {s : State} (on : s.on = true) (free : s.twc.cmdBusy = false)
    (boot : booting s = false) : operatorCmd op b f s = f (beginCmd op b s) := by
  unfold operatorCmd
  rw [if_neg (by simp [on]), if_neg (by simp [free]), if_neg (by simp [free])]
  exact if_neg (by rw [show booting (beginCmd op b s) = false from boot]; exact Bool.noConfusion)

/-- The end of a command leaves the queues. -/
theorem finishCmd_queue (r : Nat) (s : State) (q : Nat) : (finishCmd r s).queue q = s.queue q :=
  kept_queue (makeRecord_kept ..) q

/-- A kill has no effect on a run that has landed (R64), whatever its phase. -/
theorem killQueue_landed {q : Nat} {s : State} (hl : (s.run q).landed = true) (detail : Nat) : killQueue q detail s = s := by
  unfold killQueue
  dsimp only
  split
  · exact faultRun_landed hl ..
  · rfl

/-- The kill of a queue whose run has landed leaves every queue as it was. -/
theorem execKillQueue_landed {s : State} {b q : Nat} (on : s.on = true) (free : s.twc.cmdBusy = false)
    (boot : booting s = false) (own : (s.queue q).berth = b) (enabled : (s.queue q).state ≠ .disabled)
    (hl : (s.run q).landed = true) :
    exec (.killQueue b q) s = .next (finishCmd 0 (beginCmd 5 b s)) := by
  have begun : (beginCmd 5 b s).queue q = s.queue q := rfl
  change Host.Outcome.next (operatorCmd 5 b _ s) = _
  rw [operatorCmd_taken on free boot, begun, if_neg (fun h => h.elim (· own) enabled),
    killQueue_landed (s := beginCmd 5 b s) hl]

/-- A run in STATE 1 with its words fetched, which `killable` lets a command kill, and which is marked as landed. -/
def waitingLanded : State :=
  { clk := { power := .alwaysOn }, twcH := [(0, { chair := .alone })], queues := [(5, { state := .waiting })]
    runs := [(5, { phase := .waiting, fetched := true, landed := true })] }

/-- Refutes O48: of a kill it asks, for every state, that a killable run ends with KILLED detail 7; in the state
`waitingLanded` the run is killable by its phase, but it has landed, so the kill leaves it and its queue as they were. -/
theorem not_berthCommandsAnswer : ¬ Obligations.BerthCommandsAnswer := by
  unfold Obligations.BerthCommandsAnswer
  intro h
  obtain ⟨-, commands, -⟩ := h
  obtain ⟨-, -, -, -, -, -, -, -, kills⟩ := commands waitingLanded 0 rfl rfl rfl
  obtain ⟨t, step, v, ended, done⟩ := (kills 5 rfl (by decide)).2 rfl
  have answer := execKillQueue_landed (s := waitingLanded) (b := 0) (q := 5) rfl rfl rfl rfl (by decide) rfl
  have queue : t.queue 5 = waitingLanded.queue 5 := by
    rw [← Host.Outcome.next.inj (answer.symm.trans step), finishCmd_queue]
    rfl
  have killed : (v.queue 5).killCount = 1 := congrArg QCtx.killCount ended.1
  have same : v.queue 5 = t.queue 5 := by
    rw [done.1]
    rfl
  rw [same, queue] at killed
  exact absurd killed (by decide)

end Sys2Proof.Machine
end

section
/-! SUPPORT. Instruction words (03_instructions.md R66, R67, Table 3.1): fields side by side read back, a word is put together
again from its fields, and what taking a word's operands off leaves of it. -/
namespace Sys2Proof

/-! ### Fields side by side -/

/-- Bits that fields side by side take. -/
def spanBits (l : List (Nat × Nat)) : Nat := (l.map Prod.fst).sum

/-- Every field's value fits its width. -/
def FieldsFit (l : List (Nat × Nat)) : Prop := ∀ p ∈ l, p.2 < 2 ^ p.1

@[simp] theorem fieldsFit_nil : FieldsFit [] := fun _ h => absurd h List.not_mem_nil

@[simp] theorem fieldsFit_cons (p : Nat × Nat) (t : List (Nat × Nat)) : FieldsFit (p :: t) ↔ p.2 < 2 ^ p.1 ∧ FieldsFit t :=
  List.forall_mem_cons

theorem FieldsFit.tail {p : Nat × Nat} {l : List (Nat × Nat)} (h : FieldsFit (p :: l)) : FieldsFit l :=
  fun x hx => h x (List.mem_cons_of_mem p hx)

theorem FieldsFit.append {a b : List (Nat × Nat)} (ha : FieldsFit a) (hb : FieldsFit b) : FieldsFit (a ++ b) :=
  fun p hp => (List.mem_append.mp hp).elim (ha p) (hb p)

theorem concat_lt {l : List (Nat × Nat)} (h : FieldsFit l) : concat l < 2 ^ spanBits l := by
  induction l with
  | nil => exact Nat.one_pos
  | cons p t ih =>
    have hp : p.2 < 2 ^ p.1 := h p (List.mem_cons_self ..)
    have ht : concat t + 1 ≤ 2 ^ spanBits t := ih h.tail
    calc concat (p :: t) < 2 ^ p.1 + 2 ^ p.1 * concat t := Nat.add_lt_add_right hp _
      _ = 2 ^ p.1 * (concat t + 1) := by ring
      _ ≤ 2 ^ p.1 * 2 ^ spanBits t := Nat.mul_le_mul_left _ ht
      _ = 2 ^ spanBits (p :: t) := by simp [spanBits, pow_add]

/-- Neighbouring empty fields are one. -/
theorem concat_zeros (a b : Nat) (t : List (Nat × Nat)) : concat ((a, 0) :: (b, 0) :: t) = concat ((a + b, 0) :: t) := by
  simp only [concat, pow_add]
  ring

theorem bit_eq_field (w i : Nat) : bit w i = decide (field w i 1 = 1) := by simp [bit, field]

theorem bitNat_bit (w i : Nat) : bitNat (bit w i) = field w i 1 := by
  have two : field w i 1 < 2 := Nat.mod_lt _ (by decide)
  rw [bit_eq_field, bitNat]
  split
  · next h => exact (of_decide_eq_true h).symm
  · next h =>
    have : field w i 1 ≠ 1 := fun e => h (decide_eq_true e)
    omega

theorem bitNat_lt (b : Bool) : bitNat b < 2 ^ 1 := by cases b <;> decide

@[simp] theorem bitNat_eq_zero (b : Bool) : bitNat b = 0 ↔ b = false := by cases b <;> decide

theorem field_lt (w l n : Nat) : field w l n < 2 ^ n := Nat.mod_lt _ (Nat.two_pow_pos n)

@[simp] theorem field_empty (w l : Nat) : field w l 0 = 0 := Nat.mod_one _

@[simp] theorem field_mod_word (w l : Nat) : field w l 32 % 4294967296 = field w l 32 := Nat.mod_eq_of_lt (field_lt w l 32)

@[simp] theorem fits_zero (n : Nat) : fits n 0 = true := decide_eq_true (Nat.two_pow_pos n)

@[simp] theorem fits_field (w l n : Nat) : fits n (field w l n) = true := decide_eq_true (field_lt w l n)

/-- A field is its lower part and its upper part. -/
theorem field_add (w l a b : Nat) : field w l (a + b) = field w l a + 2 ^ a * field w (l + a) b := by
  rw [field, field, field, pow_add 2 a b, Nat.mod_mul, pow_add 2 l a, ← Nat.div_div_eq_div_mul]

/-! ### A word cut into fields -/

/-- A word's bits from bit l on, cut into fields of the given widths. -/
def slices (w : Nat) : Nat → List Nat → List (Nat × Nat)
  | _, [] => []
  | l, n :: ns => (n, field w l n) :: slices w (l + n) ns

@[simp] theorem slices_nil (w l : Nat) : slices w l [] = [] := rfl

@[simp] theorem slices_cons (w l n : Nat) (ns : List Nat) : slices w l (n :: ns) = (n, field w l n) :: slices w (l + n) ns := rfl

theorem concat_slices (w l : Nat) (ns : List Nat) : concat (slices w l ns) = field w l ns.sum := by
  induction ns generalizing l with
  | nil => simp [slices, concat, field, Nat.mod_one]
  | cons n ns ih => rw [slices, concat, ih, List.sum_cons, field_add]

theorem slices_append (w l : Nat) (a b : List Nat) : slices w l (a ++ b) = slices w l a ++ slices w (l + a.sum) b := by
  induction a generalizing l with
  | nil => rfl
  | cons n a ih => rw [List.cons_append, slices, ih, slices, List.cons_append, List.sum_cons, Nat.add_assoc]

/-- Fields that lie above bit l of a word read back as they were laid there. -/
theorem slices_above {low l : Nat} (hlow : low < 2 ^ l) {xs : List (Nat × Nat)} (fit : FieldsFit xs) :
    slices (low + 2 ^ l * concat xs) l (xs.map Prod.fst) = xs := by
  induction xs generalizing low l with
  | nil => rfl
  | cons p t ih =>
    have hp : p.2 < 2 ^ p.1 := fit p (List.mem_cons_self ..)
    have drop : (low + 2 ^ l * concat (p :: t)) / 2 ^ l = p.2 + 2 ^ p.1 * concat t := by
      rw [Nat.add_mul_div_left _ _ (Nat.two_pow_pos l), Nat.div_eq_of_lt hlow, Nat.zero_add]
      rfl
    have lowest : field (low + 2 ^ l * concat (p :: t)) l p.1 = p.2 := by
      rw [field, drop, Nat.add_mul_mod_self_left, Nat.mod_eq_of_lt hp]
    have below : low + 2 ^ l * p.2 < 2 ^ (l + p.1) :=
      calc low + 2 ^ l * p.2 < 2 ^ l + 2 ^ l * p.2 := Nat.add_lt_add_right hlow _
        _ = 2 ^ l * (p.2 + 1) := by ring
        _ ≤ 2 ^ (l + p.1) := by rw [pow_add]; exact Nat.mul_le_mul_left _ hp
    have regroup : low + 2 ^ l * concat (p :: t) = (low + 2 ^ l * p.2) + 2 ^ (l + p.1) * concat t := by
      rw [concat]
      ring
    rw [List.map_cons, slices, lowest, regroup, ih below fit.tail]

/-- Fields side by side read back. -/
theorem slices_concat {xs : List (Nat × Nat)} (fit : FieldsFit xs) : slices (concat xs) 0 (xs.map Prod.fst) = xs := by
  simpa using slices_above (low := 0) (l := 0) Nat.one_pos fit

/-! ### What a word spells -/

/-- A word of 256 bits holds these operand fields, flags, variant and opcode (Table 3.1). -/
structure Spells (w : Nat) (xs : List (Nat × Nat)) (f0 f1 f2 f3 : Bool) (v o : Nat) : Prop where
  lt : w < 2 ^ 256
  fields : slices w 0 (xs.map Prod.fst) = xs
  flag0 : bit w 240 = f0
  flag1 : bit w 241 = f1
  flag2 : bit w 242 = f2
  flag3 : bit w 243 = f3
  variant : variantOf w = v
  opcode : opcodeOf w = o

theorem bit_of_field {w i : Nat} {b : Bool} (h : field w i 1 = bitNat b) : bit w i = b := by
  rw [bit_eq_field, h]
  cases b <;> rfl

theorem spells_concat {xs : List (Nat × Nat)} (fit : FieldsFit xs) (span : spanBits xs = 240) (f0 f1 f2 f3 : Bool) {v o : Nat}
    (hv : v < 2 ^ 4) (ho : o < 2 ^ 8) : Spells (concat (xs ++ head f0 f1 f2 f3 v o)) xs f0 f1 f2 f3 v o := by
  have top : FieldsFit (head f0 f1 f2 f3 v o) := by
    simp only [FieldsFit, head, List.forall_mem_cons]
    exact ⟨bitNat_lt f0, bitNat_lt f1, bitNat_lt f2, bitNat_lt f3, hv, ho, fun _ h => absurd h List.not_mem_nil⟩
  have all : spanBits (xs ++ head f0 f1 f2 f3 v o) = 256 := by
    have two : spanBits (xs ++ head f0 f1 f2 f3 v o) = spanBits xs + 16 := by simp [spanBits, head]
    rw [two, span]
  have read := slices_concat (fit.append top)
  have lt : concat (xs ++ head f0 f1 f2 f3 v o) < 2 ^ 256 := all ▸ concat_lt (fit.append top)
  generalize concat (xs ++ head f0 f1 f2 f3 v o) = w at read lt ⊢
  rw [List.map_append, slices_append] at read
  obtain ⟨fields, above⟩ := List.append_inj' read rfl
  have start : 0 + (xs.map Prod.fst).sum = 240 := (Nat.zero_add _).trans span
  simp only [start, head, List.map_cons, List.map_nil, slices, List.cons.injEq, Prod.mk.injEq, true_and, and_true] at above
  obtain ⟨b0, b1, b2, b3, variant, opcode⟩ := above
  exact ⟨lt, fields, bit_of_field b0, bit_of_field b1, bit_of_field b2, bit_of_field b3, variant, opcode⟩

/-- A word is its operand fields under its flags, its variant and its opcode. -/
theorem Spells.eq {w : Nat} {xs : List (Nat × Nat)} {f0 f1 f2 f3 : Bool} {v o : Nat} (h : Spells w xs f0 f1 f2 f3 v o)
    (span : spanBits xs = 240) : concat (xs ++ head f0 f1 f2 f3 v o) = w := by
  obtain ⟨lt, fields, rfl, rfl, rfl, rfl, rfl, rfl⟩ := h
  have top : head (bit w 240) (bit w 241) (bit w 242) (bit w 243) (variantOf w) (opcodeOf w) =
      slices w (0 + (xs.map Prod.fst).sum) [1, 1, 1, 1, 4, 8] := by
    have start : (xs.map Prod.fst).sum = 240 := span
    simp only [head, bitNat_bit, start]
    rfl
  have all : (xs.map Prod.fst ++ [1, 1, 1, 1, 4, 8]).sum = 256 := by
    rw [List.sum_append]
    exact congrArg (· + 16) span
  conv_lhs => rw [← fields, top, ← slices_append, concat_slices, all]
  exact (congrArg (· % 2 ^ 256) (Nat.div_one w)).trans (Nat.mod_eq_of_lt lt)

/-! ### Unassigned operand bits -/

/-- The operand bits from bit l on outside the given spans are 0. -/
def gapsZero (w : Nat) : Nat → List (Nat × Nat) → Prop
  | l, [] => field w l (240 - l) = 0
  | l, p :: t => field w l (p.1 - l) = 0 ∧ gapsZero w (p.1 + p.2) t

@[simp] theorem gapsZero_nil (w l : Nat) : gapsZero w l [] ↔ field w l (240 - l) = 0 := .rfl

@[simp] theorem gapsZero_cons (w l : Nat) (p : Nat × Nat) (t : List (Nat × Nat)) :
    gapsZero w l (p :: t) ↔ field w l (p.1 - l) = 0 ∧ gapsZero w (p.1 + p.2) t := .rfl

/-- Spans follow one another from bit l on, inside the operand bits. -/
def spansOrdered : Nat → List (Nat × Nat) → Bool
  | l, [] => decide (l ≤ 240)
  | l, p :: t => decide (l ≤ p.1) && spansOrdered (p.1 + p.2) t

theorem spansOrdered_le {l : Nat} {ps : List (Nat × Nat)} (h : spansOrdered l ps = true) : l ≤ 240 := by
  induction ps generalizing l with
  | nil => exact of_decide_eq_true h
  | cons p t ih =>
    simp only [spansOrdered, Bool.and_eq_true, decide_eq_true_eq] at h
    have := ih h.2
    omega

/-- Taking the spans off leaves the gaps. -/
theorem foldl_spans {w l : Nat} {ps : List (Nat × Nat)} (h : spansOrdered l ps = true) (g : Nat) :
    ps.foldl (fun acc p => acc - field w p.1 p.2 * 2 ^ p.1) (g + 2 ^ l * field w l (240 - l)) = 0 ↔ g = 0 ∧ gapsZero w l ps := by
  induction ps generalizing l g with
  | nil => simp [gapsZero]
  | cons p t ih =>
    simp only [spansOrdered, Bool.and_eq_true, decide_eq_true_eq] at h
    obtain ⟨first, rest⟩ := h
    have top := spansOrdered_le rest
    have cut : 240 - l = (p.1 - l) + (p.2 + (240 - (p.1 + p.2))) := by omega
    have split : 2 ^ l * field w l (240 - l) = 2 ^ l * field w l (p.1 - l) + 2 ^ p.1 * field w p.1 p.2 +
        2 ^ (p.1 + p.2) * field w (p.1 + p.2) (240 - (p.1 + p.2)) := by
      have up : 2 ^ l * 2 ^ (p.1 - l) = 2 ^ p.1 := by rw [← pow_add, Nat.add_sub_of_le first]
      rw [cut, field_add, Nat.add_sub_of_le first, field_add, mul_add, ← mul_assoc, up, pow_add 2 p.1]
      ring
    have taken : g + 2 ^ l * field w l (240 - l) - field w p.1 p.2 * 2 ^ p.1 = (g + 2 ^ l * field w l (p.1 - l)) +
        2 ^ (p.1 + p.2) * field w (p.1 + p.2) (240 - (p.1 + p.2)) := by
      rw [split, Nat.mul_comm (field w p.1 p.2)]
      omega
    rw [List.foldl_cons, taken, ih rest]
    simp [gapsZero, and_assoc]

theorem operandBits_ordered (w : Nat) : spansOrdered 0 (operandBits w) = true := by
  unfold operandBits
  dsimp only
  repeat' split
  all_goals rfl

theorem reservedZero_iff (w : Nat) : reservedZero w = true ↔ gapsZero w 0 (operandBits w) := by
  have whole : w % 2 ^ 240 = 0 + 2 ^ 0 * field w 0 (240 - 0) := by simp [field]
  rw [reservedZero, decide_eq_true_eq, whole, foldl_spans (operandBits_ordered w)]
  simp

/-! ### Flags -/

theorem flagsOf_eq (w : Nat) : flagsOf w = bitNat (bit w 240) + 2 * (bitNat (bit w 241) + 2 * (bitNat (bit w 242) +
    2 * bitNat (bit w 243))) := by
  simp only [bitNat_bit]
  exact (field_add w 240 1 3).trans (congrArg (field w 240 1 + 2 * ·) ((field_add w 241 1 2).trans
    (congrArg (field w 241 1 + 2 * ·) (field_add w 242 1 1))))

theorem flagsOf_zero (w : Nat) : flagsOf w = 0 ↔
    bit w 240 = false ∧ bit w 241 = false ∧ bit w 242 = false ∧ bit w 243 = false := by
  simp only [flagsOf_eq, ← bitNat_eq_zero]
  omega

theorem flagsOf_le_one (w : Nat) : flagsOf w ≤ 1 ↔ bit w 241 = false ∧ bit w 242 = false ∧ bit w 243 = false := by
  have low := bitNat_lt (bit w 240)
  simp only [flagsOf_eq, ← bitNat_eq_zero]
  omega

theorem flagsOf_lt_four (w : Nat) : flagsOf w < 4 ↔ bit w 242 = false ∧ bit w 243 = false := by
  have low := bitNat_lt (bit w 240)
  have next := bitNat_lt (bit w 241)
  simp only [flagsOf_eq, ← bitNat_eq_zero]
  omega

theorem flagsOf_lt_eight (w : Nat) : flagsOf w < 8 ↔ bit w 243 = false := by
  have low := bitNat_lt (bit w 240)
  have next := bitNat_lt (bit w 241)
  have third := bitNat_lt (bit w 242)
  simp only [flagsOf_eq, ← bitNat_eq_zero]
  omega

/-! ### The word of an operation -/

/-- The word of an operation: it has 256 bits, its unassigned operand bits are 0, and it decodes to the operation. -/
def Spelled (op : Op) : Prop :=
  encodeOp op < 2 ^ 256 ∧ gapsZero (encodeOp op) 0 (operandBits (encodeOp op)) ∧ decodeOp (encodeOp op) = some op

/-- The word of an operation, from the fields, the flags, the variant and the opcode that it is laid out with. -/
theorem spelled_of {op : Op} {xs : List (Nat × Nat)} {f0 f1 f2 f3 : Bool} {v o : Nat}
    (word : encodeOp op = concat (xs ++ head f0 f1 f2 f3 v o)) (span : spanBits xs = 240) (fit : FieldsFit xs)
    (hv : v < 2 ^ 4) (ho : o < 2 ^ 8)
    (reads : ∀ w, opcodeOf w = o → variantOf w = v → bit w 240 = f0 → bit w 241 = f1 → bit w 242 = f2 → bit w 243 = f3 →
      slices w 0 (xs.map Prod.fst) = xs → gapsZero w 0 (operandBits w) ∧ decodeOp w = some op) : Spelled op := by
  have spells := spells_concat fit span f0 f1 f2 f3 hv ho
  rw [← word] at spells
  obtain ⟨lt, fields, b0, b1, b2, b3, variant, opcode⟩ := spells
  exact ⟨lt, reads _ opcode variant b0 b1 b2 b3 fields⟩

/-- The operand bits of a RECIPE of variant 0 above its set are one gap. -/
theorem encodeOp_recipe_plain (s : Nat) :
    encodeOp (.recipe 0 s 0 0) = concat ([(16, s), (224, 0)] ++ head false false false false 0 0x08) :=
  congrArg (s + 2 ^ 16 * ·) ((concat_zeros ..).trans (concat_zeros ..))

/-- The operand bits of a SOUND of variant 0 are one gap. -/
theorem encodeOp_sound_off : encodeOp (.sound 0 0 0 0) = concat ([(240, 0)] ++ head false false false false 0 0x1E) := by
  simp [encodeOp, concat_zeros]

theorem spelled_recipe {v s x g : Nat} (h : (Op.recipe v s x g).wf = true) : Spelled (.recipe v s x g) := by
  simp [Op.wf, fits, and_assoc] at h
  obtain ⟨hs, hx, hg, rfl | ⟨rfl, rfl, rfl⟩⟩ := h
  · exact spelled_of (xs := [(16, s), (16, x), (6, g), (202, 0)]) rfl rfl (by simp [hs, hx, hg]) (by decide) (by decide)
      (by simp +contextual [operandBits, decodeOp, flagsOf_zero])
  · exact spelled_of (encodeOp_recipe_plain s) rfl (by simp [hs]) (by decide) (by decide)
      (by simp +contextual [operandBits, decodeOp, flagsOf_zero])

theorem spelled_sound {v p s : Nat} {t : BitVec 32} (h : (Op.sound v p s t).wf = true) : Spelled (.sound v p s t) := by
  simp [Op.wf, fits, and_assoc] at h
  obtain ⟨hp, hs, rfl | ⟨rfl, rfl, rfl, rfl⟩⟩ := h
  · exact spelled_of (xs := [(4, p), (4, 0), (8, s), (16, 0), (32, t.toNat), (176, 0)]) rfl rfl
      (by simp [hp, hs, t.isLt]) (by decide) (by decide) (by simp +contextual [operandBits, decodeOp, flagsOf_zero])
  · exact spelled_of encodeOp_sound_off rfl (by simp) (by decide) (by decide)
      (by simp +contextual [operandBits, decodeOp, flagsOf_zero])

theorem spelled_attn (o : AttnOps) (h : (Op.attn o).wf = true) : Spelled (.attn o) := by
  obtain ⟨back, first, last, mask, causal, base, scale, qpos, kpos⟩ := o
  refine spelled_of rfl rfl (by simpa [Op.wf, attnWf, fits, and_assoc, scale.isLt] using h)
    ((bitNat_lt back).trans (by decide)) (by decide) ?_
  cases back <;> simp +contextual [operandBits, decodeOp, decodeAttn, bitNat]

theorem spelled_atom (o : AtomOps) (h : (Op.atom o).wf = true) : Spelled (.atom o) := by
  obtain ⟨v, wide, remote, addr, part, operand, compare, src, dst, op⟩ := o
  simp [Op.wf, atomWf, fits, and_assoc] at h
  obtain ⟨-, ha, hp, hx, hc, hs, hd, ho, ⟨rfl, rfl, rfl⟩ | ⟨rfl, rfl, rfl, rfl, rfl, rfl, rfl⟩⟩ := h
  · refine spelled_of (xs := [(48, addr), (16, part), (64, operand), (64, compare), (4, op), (44, 0)]) rfl rfl
      (by simp [*]) (by decide) (by decide) ?_
    simp +contextual [operandBits, decodeOp, decodeAtom, flagsOf_lt_four]
  · refine spelled_of (xs := [(42, src), (42, dst), (108, 0), (4, op), (44, 0)]) rfl rfl (by simp [*]) (by simp)
      (by decide) ?_
    simp +contextual [operandBits, decodeOp, decodeAtom, flagsOf_zero]

/-- Every operation that a word can spell has its word: the decoder reads the fields back, and no bit outside them is set. -/
theorem spelled_of_wf (op : Op) (h : op.wf = true) : Spelled op := by
  cases op with
  | nop =>
    exact spelled_of (xs := [(240, 0)]) rfl rfl (by simp) (by decide) (by decide)
      (by simp +contextual [operandBits, decodeOp, flagsOf_zero])
  | kbegin t r irq pass =>
    exact spelled_of (xs := [(16, t), (16, r), (208, 0)]) rfl rfl (by simpa [Op.wf, fits] using h)
      (by decide) (by decide) (by simp +contextual [operandBits, decodeOp, flagsOf_lt_four])
  | commit =>
    exact spelled_of (xs := [(240, 0)]) rfl rfl (by simp) (by decide) (by decide)
      (by simp +contextual [operandBits, decodeOp, flagsOf_zero])
  | wait s t =>
    exact spelled_of (xs := [(14, s), (50, 0), (64, t), (112, 0)]) rfl rfl (by simpa [Op.wf, fits] using h)
      (by decide) (by decide) (by simp +contextual [operandBits, decodeOp, flagsOf_zero])
  | signal v s p q x =>
    simp [Op.wf, fits, and_assoc] at h
    exact spelled_of (xs := [(14, s), (2, 0), (16, p), (19, q), (13, 0), (64, x), (112, 0)]) rfl rfl (by simpa using h.2)
      (by omega) (by decide) (by simp +contextual [operandBits, decodeOp, flagsOf_zero, h.1])
  | fence =>
    exact spelled_of (xs := [(240, 0)]) rfl rfl (by simp) (by decide) (by decide)
      (by simp +contextual [operandBits, decodeOp, flagsOf_zero])
  | recipe v s x g => exact spelled_recipe h
  | prob o =>
    exact spelled_of rfl rfl (by simpa [Op.wf, probWf, fits, and_assoc] using h) (by decide) (by decide)
      (by simp +contextual [operandBits, decodeOp, decodeProb, flagsOf_lt_eight])
  | attn o => exact spelled_attn o h
  | atom o => exact spelled_atom o h
  | rowop o =>
    simp [Op.wf, rowWf, fits, and_assoc] at h
    exact spelled_of rfl rfl (by simp [h, o.eps.isLt]) (by omega) (by decide)
      (by simp +contextual [operandBits, decodeOp, decodeRow, flagsOf_lt_four, h])
  | stripe o =>
    simp [Op.wf, stripeWf, fits, and_assoc] at h
    exact spelled_of rfl rfl (by simp [h]) (by omega) (by decide)
      (by simp +contextual [operandBits, decodeOp, decodeStripe, flagsOf_lt_four, h])
  | peel o =>
    simp [Op.wf, peelWf, fits, and_assoc] at h
    exact spelled_of rfl rfl (by simp [h]) (by omega) (by decide)
      (by simp +contextual [operandBits, decodeOp, decodePeel, flagsOf_le_one, h])
  | coll o =>
    simp [Op.wf, collWf, fits, and_assoc] at h
    exact spelled_of rfl rfl (by simp [h]) (by omega) (by decide)
      (by simp +contextual [operandBits, decodeOp, decodeColl, flagsOf_le_one, h])
  | codec v j =>
    simp [Op.wf, fits] at h
    exact spelled_of (xs := [(42, j), (198, 0)]) rfl rfl (by simpa using h.2) (by omega) (by decide)
      (by simp +contextual [operandBits, decodeOp, flagsOf_zero, h.1])
  | place r t =>
    exact spelled_of (xs := [(42, r), (2, t), (196, 0)]) rfl rfl (by simpa [Op.wf, fits] using h) (by decide)
      (by decide) (by simp +contextual [operandBits, decodeOp, flagsOf_zero])
  | epoch v s x =>
    simp [Op.wf, fits, and_assoc] at h
    exact spelled_of (xs := [(12, s), (4, 0), (32, x), (192, 0)]) rfl rfl (by simpa using h.2) (by omega) (by decide)
      (by simp +contextual [operandBits, decodeOp, flagsOf_zero, h.1])
  | sound v p s t => exact spelled_sound h

/-! ### What a word decodes to -/

theorem fits_variant (w : Nat) : fits 4 (variantOf w) = true := fits_field w 244 4

theorem bitNat_variant {w : Nat} (h : variantOf w ≤ 1) : variantOf w = bitNat (decide (variantOf w = 1)) := by
  obtain v | v : variantOf w = 0 ∨ variantOf w = 1 := by omega
  all_goals rw [v]; rfl

theorem eq_of_ite_some {α : Type} {c : Prop} [Decidable c] {a b : α} (h : (if c then some a else none) = some b) : c ∧ a = b := by
  simpa using h

/-- A word without flags spells its fields under its variant and its opcode. -/
theorem Spells.plain {w : Nat} (hw : w < 2 ^ 256) {v o : Nat} (opcode : opcodeOf w = o) (variant : variantOf w = v)
    (flags : flagsOf w = 0) {xs : List (Nat × Nat)} (fields : slices w 0 (xs.map Prod.fst) = xs) :
    Spells w xs false false false false v o := by
  obtain ⟨b0, b1, b2, b3⟩ := (flagsOf_zero w).mp flags
  exact ⟨hw, fields, b0, b1, b2, b3, variant, opcode⟩

/-- A word of 256 bits whose unassigned operand bits are 0 and that decodes is the word of what it decodes to: each field
that the decoder reads stands where the word of the operation has it, and the others are gaps. -/
theorem encodeOp_of_decodeOp {w : Nat} (hw : w < 2 ^ 256) (gaps : gapsZero w 0 (operandBits w)) {op : Op}
    (h : decodeOp w = some op) : op.wf = true ∧ encodeOp op = w := by
  unfold decodeOp at h
  dsimp only at h
  have hv := fits_variant w
  split at h
  case h_1 opcode | h_3 opcode | h_6 opcode =>
    obtain ⟨⟨variant, flags⟩, rfl⟩ := eq_of_ite_some h
    simp [operandBits, opcode] at gaps
    exact ⟨rfl, (Spells.plain hw opcode variant flags (xs := [(240, 0)]) (by simp [gaps])).eq rfl⟩
  case h_2 opcode =>
    obtain ⟨⟨variant, flags⟩, rfl⟩ := eq_of_ite_some h
    obtain ⟨b2, b3⟩ := (flagsOf_lt_four w).mp flags
    simp [operandBits, opcode] at gaps
    exact ⟨by simp [Op.wf], Spells.eq (xs := [(16, _), (16, _), (208, 0)])
      ⟨hw, by simp [gaps], rfl, rfl, b2, b3, variant, opcode⟩ rfl⟩
  case h_4 opcode =>
    obtain ⟨⟨variant, flags⟩, rfl⟩ := eq_of_ite_some h
    simp [operandBits, opcode] at gaps
    exact ⟨by simp [Op.wf], (Spells.plain hw opcode variant flags (xs := [(14, _), (50, 0), (64, _), (112, 0)])
      (by simp [gaps])).eq rfl⟩
  case h_5 opcode =>
    obtain ⟨⟨variant, flags⟩, rfl⟩ := eq_of_ite_some h
    simp [operandBits, opcode] at gaps
    exact ⟨by simp [Op.wf, variant], (Spells.plain hw opcode rfl flags
      (xs := [(14, _), (2, 0), (16, _), (19, _), (13, 0), (64, _), (112, 0)]) (by simp [gaps])).eq rfl⟩
  case h_7 opcode =>
    split at h
    case isTrue kind =>
      obtain ⟨variant, flags⟩ := kind
      cases Option.some.inj h
      simp [operandBits, opcode, variant] at gaps
      exact ⟨by simp [Op.wf], (encodeOp_recipe_plain _).trans ((Spells.plain hw opcode variant flags (by simp [gaps])).eq rfl)⟩
    case isFalse =>
      obtain ⟨⟨variant, flags⟩, rfl⟩ := eq_of_ite_some h
      simp [operandBits, opcode, variant] at gaps
      exact ⟨by simp [Op.wf], (Spells.plain hw opcode variant flags (xs := [(16, _), (16, _), (6, _), (202, 0)])
        (by simp [gaps])).eq rfl⟩
  case h_8 opcode =>
    obtain ⟨⟨variant, flags⟩, rfl⟩ := eq_of_ite_some h
    have b3 := (flagsOf_lt_eight w).mp flags
    simp [operandBits, opcode] at gaps
    exact ⟨by simp [Op.wf, probWf, decodeProb],
      Spells.eq ⟨hw, by simp [decodeProb, gaps], rfl, rfl, rfl, b3, variant, opcode⟩ rfl⟩
  case h_9 opcode =>
    obtain ⟨variant, rfl⟩ := eq_of_ite_some h
    simp [operandBits, opcode] at gaps
    exact ⟨by simp [Op.wf, attnWf, decodeAttn],
      Spells.eq ⟨hw, by simp [decodeAttn, gaps], rfl, rfl, rfl, rfl, bitNat_variant variant, opcode⟩ rfl⟩
  case h_10 opcode =>
    obtain ⟨⟨variant, flags⟩, rfl⟩ := eq_of_ite_some h
    obtain ⟨b2, b3⟩ := (flagsOf_lt_four w).mp flags
    simp [operandBits, opcode] at gaps
    exact ⟨by simp [Op.wf, rowWf, decodeRow, variant, hv],
      Spells.eq ⟨hw, by simp [decodeRow, gaps], rfl, rfl, b2, b3, rfl, opcode⟩ rfl⟩
  case h_11 opcode =>
    obtain ⟨⟨variant, flags⟩, rfl⟩ := eq_of_ite_some h
    obtain ⟨b2, b3⟩ := (flagsOf_lt_four w).mp flags
    simp [operandBits, opcode] at gaps
    exact ⟨by simp [Op.wf, stripeWf, decodeStripe, variant, hv],
      Spells.eq ⟨hw, by simp [decodeStripe, gaps], rfl, rfl, b2, b3, rfl, opcode⟩ rfl⟩
  case h_12 opcode =>
    obtain ⟨⟨variant, flags⟩, rfl⟩ := eq_of_ite_some h
    obtain ⟨b1, b2, b3⟩ := (flagsOf_le_one w).mp (Nat.le_of_lt_succ flags)
    simp [operandBits, opcode] at gaps
    exact ⟨by simp [Op.wf, peelWf, decodePeel, variant, hv],
      Spells.eq ⟨hw, by simp [decodePeel, gaps], rfl, b1, b2, b3, rfl, opcode⟩ rfl⟩
  case h_13 opcode =>
    obtain ⟨⟨variant, flags⟩ | ⟨variant, flags⟩, rfl⟩ := eq_of_ite_some h
    all_goals
      simp [operandBits, opcode, variant] at gaps
      rw [variant] at hv
    · obtain ⟨b2, b3⟩ := (flagsOf_lt_four w).mp flags
      rw [show decodeAtom w = _ from if_pos variant]
      exact ⟨by simp [Op.wf, atomWf], Spells.eq (xs := [(48, _), (16, _), (64, _), (64, _), (4, _), (44, 0)])
        ⟨hw, by simp [gaps], rfl, rfl, b2, b3, variant, opcode⟩ rfl⟩
    · rw [show decodeAtom w = _ from if_neg (by omega), variant]
      exact ⟨by simp [Op.wf, atomWf, hv], (Spells.plain hw opcode variant flags
        (xs := [(42, _), (42, _), (108, 0), (4, _), (44, 0)]) (by simp [gaps])).eq rfl⟩
  case h_14 opcode =>
    obtain ⟨⟨variant, flags⟩, rfl⟩ := eq_of_ite_some h
    obtain ⟨b1, b2, b3⟩ := (flagsOf_le_one w).mp (Nat.le_of_lt_succ flags)
    simp [operandBits, opcode] at gaps
    exact ⟨by simp [Op.wf, collWf, decodeColl, variant, hv],
      Spells.eq ⟨hw, by simp [decodeColl, gaps], rfl, b1, b2, b3, rfl, opcode⟩ rfl⟩
  case h_15 opcode =>
    obtain ⟨⟨variant, flags⟩, rfl⟩ := eq_of_ite_some h
    simp [operandBits, opcode] at gaps
    exact ⟨by simp [Op.wf, variant],
      (Spells.plain hw opcode rfl flags (xs := [(42, _), (198, 0)]) (by simp [gaps])).eq rfl⟩
  case h_16 opcode =>
    obtain ⟨⟨variant, flags⟩, rfl⟩ := eq_of_ite_some h
    simp [operandBits, opcode] at gaps
    exact ⟨by simp [Op.wf],
      (Spells.plain hw opcode variant flags (xs := [(42, _), (2, _), (196, 0)]) (by simp [gaps])).eq rfl⟩
  case h_17 opcode =>
    obtain ⟨⟨variant, flags⟩, rfl⟩ := eq_of_ite_some h
    simp [operandBits, opcode] at gaps
    exact ⟨by simp [Op.wf, variant],
      (Spells.plain hw opcode rfl flags (xs := [(12, _), (4, 0), (32, _), (192, 0)]) (by simp [gaps])).eq rfl⟩
  case h_18 opcode =>
    split at h
    case isTrue kind =>
      obtain ⟨variant, flags⟩ := kind
      cases Option.some.inj h
      simp [operandBits, opcode, variant] at gaps
      exact ⟨by decide, encodeOp_sound_off.trans ((Spells.plain hw opcode variant flags (by simp [gaps])).eq rfl)⟩
    case isFalse =>
      obtain ⟨⟨variant, flags⟩, rfl⟩ := eq_of_ite_some h
      simp [operandBits, opcode, variant] at gaps
      exact ⟨by simp [Op.wf], (Spells.plain hw opcode variant flags
        (xs := [(4, _), (4, 0), (8, _), (16, 0), (32, _), (176, 0)]) (by simp [gaps])).eq rfl⟩
  case h_19 => cases h

/-- Settles O60: an operation's fields read back from its word; a word without set gaps is put together again from the fields
that the decoder reads; a reserved word meets no arm of the decoder. -/
theorem wordsDecodeToWhatTheySpell : Obligations.WordsDecodeToWhatTheySpell := by
  unfold Obligations.WordsDecodeToWhatTheySpell
  refine ⟨fun op h => ?word, fun w op hw zero h => ?operation, fun w reserved => ?reserved⟩
  case word =>
    obtain ⟨lt, gaps, decoded⟩ := spelled_of_wf op h
    exact ⟨lt, (reservedZero_iff _).mpr gaps, decoded⟩
  case operation => exact encodeOp_of_decodeOp hw ((reservedZero_iff w).mp zero) h
  case reserved =>
    unfold decodeOp
    dsimp only
    split
    case h_19 => rfl
    case h_7 opcode | h_18 opcode =>
      simp [opcode] at reserved
      rw [if_neg (by omega), if_neg (by omega)]
    all_goals
      next opcode =>
        simp [opcode] at reserved
        exact if_neg (by omega)

end Sys2Proof
end

section
/-! SUPPORT. Words that change their kernel's run alone (03_instructions.md R75 to R104): a dispatch that goes through, the
entries of the held log (02_kernels_commit.md R44, R45), and a word whose turn has not come. -/
namespace Sys2Proof.Machine

theorem State.onlyRun.refl (s : State) (q : Nat) : s.onlyRun q s := ⟨rfl, fun _ _ => rfl⟩

/-! ### A dispatch that goes through -/

/-- A word that dispatches with what it does to its run. -/
theorem yields_dispatched {c : Instr} {s u : State} {q : Nat} {op : Op} {f : State → Except Flt State}
    (command : exec c s = .next (dispatch q op f s)) (next : nextWord (s.run q) op = true) (does : f s = .ok u)
    (only : s.onlyRun q u) :
    Yields c s fun t => s.onlyRun q t ∧ t.run q = { u.run q with ip := (u.run q).ip + 1 } := by
  have dispatched : dispatch q op f s = advance q u := by simp [dispatch, next, does]
  obtain ⟨rest, others⟩ := only
  refine ⟨_, command.trans (congrArg _ dispatched), ⟨?_, fun p hp => ?_⟩, ?_⟩
  · rw [rest]
    rfl
  · simp [advance, hp, others p hp]
  · simp [advance]

/-- A word that dispatches and sets its run. -/
theorem yields_setRun {c : Instr} {s : State} {q : Nat} {op : Op} {f : State → Except Flt State} {r : Run}
    (command : exec c s = .next (dispatch q op f s)) (next : nextWord (s.run q) op = true) (does : f s = .ok (s.setRun q r)) :
    Yields c s fun t => s.onlyRun q t ∧ t.run q = { r with ip := r.ip + 1 } := by
  have yields := yields_dispatched command next does (setRun_only s q r)
  rwa [setRun_run_self] at yields

theorem execFence_due {s : State} {q : Nat} (completed : ∀ i ∈ (s.run q).insts, i.done = true) :
    exec (.fence q) s = .next (dispatch q .fence .ok s) :=
  if_pos (List.all_eq_true.mpr completed)

theorem execCommit_due {s : State} {q : Nat} (next : nextWord (s.run q) .commit = true) :
    exec (.commit q) s = .next ((advance q s).modRun q (fun r => { r with phase := .draining })) :=
  if_pos next

/-- A run after a RECIPE of variant 1 (R85, R220), where its template declares a wide footprint or not. -/
def sampledRecipe (r : Run) (has : Bool) (set wide group : Nat) : Run :=
  { r with
    set := recipeSet r.recSample has 1 set wide group
    keptGroups := if bitOf r.recSample group ∧ !has then setBit r.keptGroups group true else r.keptGroups }

theorem execRecipe_sampled (s : State) (q set wide group : Nat) : exec (.recipe q 1 set wide group) s =
    .next (dispatch q (.recipe 1 set wide group)
      (fun t => .ok (t.setRun q (sampledRecipe (t.run q) (s.template q).wide.isSome set wide group))) s) := by
  refine congrArg (fun f => Host.Outcome.next (dispatch q (.recipe 1 set wide group) f s)) (funext fun t => ?_)
  simp [sampledRecipe]

/-- Settles O8: each of the words dispatches with a change of its run, which is none for NOP and FENCE. -/
theorem plainWordsDispatch : Obligations.PlainWordsDispatch := by
  unfold Obligations.PlainWordsDispatch
  intro s q
  refine ⟨fun next => ?nop, fun next completed => ?fence, fun next => ?commit,
    fun period slot thr => ⟨fun next => ?soundOff, fun next => ?soundOn⟩,
    fun set wide group => ⟨fun next => ?plain, fun next => ?sampled⟩⟩
  case nop => exact yields_dispatched rfl next rfl (.refl s q)
  case fence => exact yields_dispatched (execFence_due completed) next rfl (.refl s q)
  case commit => exact ⟨_, execCommit_due next, ⟨rfl, fun p hp => by simp [advance, hp]⟩, by simp [advance]⟩
  case soundOff => exact yields_setRun (r := { s.run q with snd := none }) rfl next rfl
  case soundOn =>
    exact yields_setRun (r := { s.run q with snd := some { period := period, slot := slot, thr := thr } }) rfl next rfl
  case plain => exact yields_setRun (r := { s.run q with set := set }) rfl next rfl
  case sampled =>
    obtain ⟨t, command, only, run⟩ := yields_setRun (r := sampledRecipe (s.run q) (s.template q).wide.isSome set wide group)
      (execRecipe_sampled s q set wide group) next rfl
    refine ⟨t, command, only, run.trans ?_⟩
    cases sampled : bitOf (s.run q).recSample group <;> cases has : (s.template q).wide.isSome <;>
      simp [sampledRecipe, recipeSet, sampled]

/-! ### The held log -/

/-- The entries that the effects of the word at position i make, in order (R45). -/
def heldRecs (r : Run) (i : Nat) (effs : List Held) : List HeldRec :=
  (List.range effs.length).map fun k =>
    { inst := i, ord := (r.held.filter (fun h => h.inst = i)).length + k, eff := effs.getD k (.release 0 0) }

theorem heldRecs_effs (r : Run) (i : Nat) (effs : List Held) : (heldRecs r i effs).map (·.eff) = effs := by
  refine List.ext_getElem (by simp [heldRecs]) fun k _ hk => ?_
  simp [heldRecs, hk]

/-- Effects for which the declared held log has room (R44). -/
theorem hold_room {s : State} {q n : Nat} (room : (s.run q).entries + n ≤ (s.template q).heldCount) (i : Nat)
    (effs : List Held) : hold q i n effs s = .ok (s.setRun q { s.run q with
      held := (s.run q).held ++ heldRecs (s.run q) i effs, entries := (s.run q).entries + n }) :=
  if_neg (Nat.not_lt.mpr room)

/-- A word that dispatches with one held effect. -/
theorem yields_holding {c : Instr} {s : State} {q : Nat} {op : Op} {f : State → Except Flt State} {eff : Held}
    (room : (s.run q).entries + 1 ≤ (s.template q).heldCount) (command : exec c s = .next (dispatch q op f s))
    (next : nextWord (s.run q) op = true) (does : f s = hold q (s.run q).ip 1 [eff] s) :
    Yields c s fun t => s.onlyRun q t ∧ t.run q = (s.run q).holding eff :=
  yields_setRun command next (does.trans (hold_room room ..))

/-- The places of a held effect are in reach (R41). -/
theorem reachAll_ok {s : State} {c : Ctx} {vas : List Nat} (reach : ∀ va ∈ vas, ∃ p, s.locate c writeRole va = .ok p) :
    s.reachAll c vas = .ok s := by
  unfold State.reachAll
  induction vas with
  | nil => rfl
  | cons va vas ih =>
    obtain ⟨p, found⟩ := reach va (List.mem_cons_self ..)
    simp only [foldE, found]
    exact ih fun v hv => reach v (List.mem_cons_of_mem va hv)

/-- Settles O9: each word's dispatch enters one effect, after its operands have been checked. -/
theorem heldWordsEnterTheLog : Obligations.HeldWordsEnterTheLog := by
  unfold Obligations.HeldWordsEnterTheLog
  intro s q room
  refine ⟨fun variant sync part queue value next => ?signal, fun variant set version next => ?epoch,
    fun region tier d next read aligned => ?place, fun o next variant reach => ?atom⟩
  case signal => exact yields_holding room rfl next rfl
  case epoch => exact yields_holding room rfl next rfl
  case place =>
    refine yields_holding room rfl next ?_
    simp only [read, aligned, Bool.not_true, Bool.false_eq_true, if_false]
  case atom =>
    refine yields_holding room rfl next ?_
    dsimp only
    rw [if_pos variant]
    obtain remote | ⟨p, found⟩ := reach
    · rw [remote]
      rfl
    · have near : s.reachAll (s.ctx q) [o.addr] = .ok s :=
        reachAll_ok fun va hva => ⟨p, List.mem_singleton.mp hva ▸ found⟩
      cases o.remote <;> simp [near]

/-- Settles O10: a reduction is held as the chunks of its elements, whose places are all in reach. -/
theorem reductionsEnterTheLog : Obligations.ReductionsEnterTheLog := by
  unfold Obligations.ReductionsEnterTheLog
  intro s q o ds es next variant read agree aligned elems reach room
  have places : s.reachAll (s.ctx q) (es.map (·.1)) = .ok s :=
    reachAll_ok fun va hva => by
      obtain ⟨e, he, rfl⟩ := List.mem_map.mp hva
      exact reach e he
  obtain ⟨t, command, only, run⟩ := yields_setRun (c := .atom q o) (s := s) (q := q) rfl next (by
    dsimp only
    rw [if_neg (by omega), read]
    simp only [agree, aligned, elems, places, Bool.not_true, Bool.false_eq_true, if_false]
    exact hold_room room ..)
  refine ⟨t, command, only, ?_⟩
  rw [run]
  simp [heldRecs_effs]

/-! ### Words out of their turn -/

section
variable {s : State} {q : Nat} {op : Op} (other : nextWord (s.run q) op = false)
include other

theorem dispatch_waits (f : State → Except Flt State) : dispatch q op f s = s := by simp [dispatch, other]

theorem dispatchWork_waits : dispatchWork q op s = s := by simp [dispatchWork, other]

end

theorem execFence_waits {s : State} {q : Nat} (other : nextWord (s.run q) .fence = false) : exec (.fence q) s = .next s := by
  refine Eq.trans (b := if _ then _ else _) rfl ?_
  rw [dispatch_waits other, ite_self]

theorem execCommit_waits {s : State} {q : Nat} (other : nextWord (s.run q) .commit = false) :
    exec (.commit q) s = .next s :=
  if_neg (by simp [other])

theorem execColl_waits {s : State} {q : Nat} {o : CollOps} (other : nextWord (s.run q) (.coll o) = false) :
    exec (.coll q o) s = .next s :=
  if_pos (by simp [other])

/-- Settles O12: the turn is the first thing that each word's meaning asks. -/
theorem otherWordsWait : Obligations.OtherWordsWait := by
  unfold Obligations.OtherWordsWait
  intro s q c op word other
  have work : isWork q c op → exec c s = .next s := fun h => (exec_work h s).trans (congrArg _ (dispatchWork_waits other))
  rcases word with ⟨rfl, rfl⟩ | ⟨rfl, rfl⟩ | ⟨rfl, rfl⟩ | ⟨v, a, p, k, x, rfl, rfl⟩ | ⟨v, a, w, g, rfl, rfl⟩ | prob |
    attn | rowop | stripe | peel | ⟨o, rfl, rfl⟩ | ⟨o, rfl, rfl⟩ | ⟨r, k, rfl, rfl⟩ | ⟨v, a, x, rfl, rfl⟩ |
    ⟨v, p, k, x, rfl, rfl⟩
  · exact congrArg _ (dispatch_waits other _)
  · exact execFence_waits other
  · exact execCommit_waits other
  · exact congrArg _ (dispatch_waits other _)
  · exact congrArg _ (dispatch_waits other _)
  · exact work (.inl prob)
  · exact work (.inr (.inl attn))
  · exact work (.inr (.inr (.inl rowop)))
  · exact work (.inr (.inr (.inr (.inl stripe))))
  · exact work (.inr (.inr (.inr (.inr peel))))
  · exact congrArg _ (dispatch_waits other _)
  · exact execColl_waits other
  · exact congrArg _ (dispatch_waits other _)
  · exact congrArg _ (dispatch_waits other _)
  · exact congrArg _ (dispatch_waits other _)

end Sys2Proof.Machine
end

section
/-! SUPPORT. Row batches, Peel batches and stripes that complete (06_row_engine.md R154, R182; 03_instructions.md R99;
08_soundings.md R208; 10_stripes.md R255, R260): what each completion leads to where no fault arises, and what it counts. -/
namespace Sys2Proof.Machine

/-! ### Rows -/

/-- An RWE's counts of a batch of rows (R154). -/
def countRows (rows evals : Nat) (c : Core) : Core :=
  { c with rweRows := wrapAdd 64 c.rweRows rows, rweEvals := wrapAdd 64 c.rweEvals evals }

theorem execRowDone_completes {s u : State} {e stall : Nat} {rx : BitVec 288} {q j : Nat} {w : Work} {o : RowOps} {y : Yield}
    {rows : Nat} (item : runningItem s ((s.core e).crew).toList .rwe e = some (q, j, w)) (op : (s.inst q j).op = .rowop o)
    (bar : s.engineBar q e 5 rx 4 = none)
    (count : rows = min 32 ((nth (tensors (s.inst q j).descs) 0).rowCount - 32 * w.item))
    (computed : foldE (s.rowStep (s.ctx q) { base2 := (s.run q).base2, heirloom := setHeirloom (s.inst q j).set } o
      (tensors (s.inst q j).descs)) {} ((List.range rows).map (· + 32 * w.item)) = .ok y)
    (stored : applyYield q j 0 y s = .ok u) :
    exec (.rowDone e ⟨stall, rx⟩) s = .next (finishCounted q j w .rwe 2
      (rowCycles (s.run q).base2 o ((nth (tensors (s.inst q j).descs) 0).e 0) rows + stall) (rowTail (s.run q).base2 o)
      (u.modCore e (countRows rows y.evals))) := by
  subst count
  unfold State.inst at op computed
  simp only [exec, execRowDone, item, op, bar, computed, stored]
  rfl

/-! ### Peel batches -/

theorem addCycles_berth (s : State) (b cls n a : Nat) :
    (addCycles b cls n s).berth a = { s.berth a with cycles := ((addCycles b cls n s).berth a).cycles } := by
  simp only [addCycles, modBerth_eq, setBerth_berth]
  split
  · next same => rw [same]
  · rfl

theorem execPeelBatchDone_completes {s u : State} {e stall : Nat} {rx : BitVec 288} {q j : Nat} {w : Work} {o : PeelOps}
    {y : Yield} {src dst : Tensor} (item : runningItem s ((s.core e).crew).toList .peel e = some (q, j, w))
    (op : (s.inst q j).op = .peel o) (hsrc : src = nth (tensors (s.inst q j).descs) 0)
    (hdst : dst = nth (tensors (s.inst q j).descs) 1) (reads : readsDone (s.ctx q) (s.inst q j) w.item = true)
    (fills : fillWaits s e = false)
    (bar : s.engineBar q e 6 rx
      (if (tensors (s.inst q j).descs).any (fun t => !t.remote && ((s.ctx q).acc t.base).isSome) then 4 else 5) = none)
    (moved : s.peelBatch (s.ctx q) (s.inst q j) o w.item = .ok y)
    (stored : applyYield q j 0 { y with
      st := if dst.remote then [] else (splitWindows (s.ctx q) y.st).2
      reads := peelReads s (s.ctx q) (s.inst q j) o w.item } s = .ok u) :
    exec (.peelBatchDone e ⟨stall, rx⟩) s = .next (finishItem q j w (addCycles (s.queue q).berth 3
      (cdiv (batchBytes (if o.variant = 1 then src else dst) w.item) (if o.variant = 1 then 128 else 256) +
        2 * y.records + stall)
      (if dst.remote then holdRemote q j w.item dst y.st u else putWords (s.ctx q) (splitWindows (s.ctx q) y.st).1 u))) := by
  subst hsrc hdst
  unfold State.inst at op reads bar moved stored
  simp only [exec, execPeelBatchDone, item, op, reads, fills, bar, moved, stored, Bool.not_true, Bool.or_self,
    Bool.false_eq_true, if_false]
  rfl

theorem holdRemote_insts (q j b : Nat) (t : Tensor) (st : Stores) (s : State) :
    ((holdRemote q j b t st s).run q).insts = (s.run q).insts := by
  simp [holdRemote]

theorem accWrite_runs (s : State) (b q : Nat) (a : AccDecl) (w v : Nat) : (s.accWrite b q a w v).runs = s.runs := by
  simp [State.accWrite]

theorem putWords_runs (c : Ctx) (l : List (AccDecl × Nat × Nat)) (s : State) : (putWords c l s).runs = s.runs := by
  rw [putWords, forEach_same State.runs]
  exact fun p t => accWrite_runs ..

/-! ### Stripes -/

/-- A Stripe engine's counts of a stripe (R255, R260). -/
def countStripe (refetch zb : Nat) (c : Cluster) : Cluster :=
  { c with
    strDone := wrapAdd 64 c.strDone 1
    strRefetch := wrapAdd 64 c.strRefetch refetch
    strZcBytes := wrapAdd 64 c.strZcBytes zb }

/-- The lead core's row engine evaluates for the stripes of its cluster. -/
def countEvals (evals : Nat) (c : Core) : Core := { c with rweEvals := wrapAdd 64 c.rweEvals evals }

theorem execStripeDone_completes {s u : State} {e stall : Nat} {rx : BitVec 288} {q j : Nat} {w : Work} {o : StripeOps}
    {y : Yield} {zb lead : Nat} {g : Conv} (item : runningItem s (clusterRuns s e) .stripe e = some (q, j, w))
    (op : (s.inst q j).op = .stripe o) (bar : ∀ k < 8, s.engineBar q (8 * e + k) 8 rx 4 = none)
    (conv : g = convOf o (tensors (s.inst q j).descs)) (computed : s.stripeItem q j (s.inst q j) o w.item = .ok (y, zb))
    (stored : applyYield q j (outTray (outDest (s.ctx q).img ((s.inst q j).descs.getD 2 {}).va)) y s = .ok u)
    (hlead : ((sortNat (u.run q).crew).reverse.find? (fun k => clusterOf k = e)).getD 0 = lead) :
    exec (.stripeDone e ⟨stall, rx⟩) s = .next (finishCounted q j w .stripe 4
      (stripeCycles o (tensors (s.inst q j).descs) g (stripeOut (s.inst q j) g w.item).length + stall) 40
      (((u.modCluster e (countStripe (refetched (s.inst q j) o g w) zb)).modCore lead (countEvals y.evals)).modInst q j
        (fun x => { x with engLast := (e, w.item) :: x.engLast }))) := by
  subst conv hlead
  have bars : (List.range 8).findSome? (fun k => s.engineBar q (8 * e + k) 8 rx 4) = none :=
    List.findSome?_eq_none_iff.mpr fun k hk => bar k (List.mem_range.mp hk)
  unfold State.inst at op computed stored
  simp only [exec, execStripeDone, item, op, bars, computed, stored]
  rfl

/-- A stripe is done, from a state in which its engine and its lead core have counted it, as its engine's last (R254). -/
theorem finishStripe_done {u c : State} (counted : c = { u with cores := c.cores, clusters := c.clusters }) {q j : Nat}
    (hj : j < (u.run q).insts.length) (w : Work) (e m : Nat) :
    u.itemDone q j w { u.inst q j with engLast := (e, w.item) :: (u.inst q j).engLast } (finishCounted q j w .stripe 4 m 40
      (c.modInst q j (fun x => { x with engLast := (e, w.item) :: x.engLast }))) := by
  have runs : ∀ p, c.run p = u.run p := fun p => by
    rw [counted]
    rfl
  have insts : ∀ k, c.inst q k = u.inst q k := fun k => by rw [State.inst, runs, State.inst]
  have own := modInst_inst c q j (fun x => { x with engLast := (e, w.item) :: x.engLast })
  have self := (own q j).trans (if_pos ⟨rfl, rfl, runs q ▸ hj⟩)
  rw [insts] at self
  rw [← self]
  refine finishCounted_done q j w .stripe 4 m 40 ?_ ?_ (fun p hp => ?_) (fun k hk => ?_) ?_ fun b => ?_
  · simpa [State.modInst, runs] using hj
  · rw [counted]
    rfl
  · simp [State.modInst, hp, runs]
  · exact (own q k).trans ((if_neg fun same => hk same.2.1).trans (insts k))
  · simp [State.modInst, runs]
  · rw [counted]
    rfl

/-- Settles O28: each completion leaves the item done, and its engine's and its class's counters higher. -/
theorem batchesAndStripesComplete : Obligations.BatchesAndStripesComplete := by
  unfold Obligations.BatchesAndStripesComplete
  intro s e stall rx q j w u hj
  refine ⟨fun o y rows n item op bar count computed stored hn => ?rows,
    fun o y v src dst item op hsrc hdst reads fills bar moved stored hv => ?peel,
    fun o y zb g n lead item op bar conv computed stored hlead hn => ?stripe⟩
  case rows =>
    have eng := runningItem_eng item
    refine ⟨_, execRowDone_completes item op bar count computed stored, ?_⟩
    subst hn
    generalize hm : rowCycles (s.run q).base2 o _ rows + stall = m
    generalize ht : rowTail (s.run q).base2 o = tail
    have done := finishCounted_done (u := u) (s := u.modCore e (countRows rows y.evals)) q j w .rwe 2 m tail hj rfl
      (fun _ _ => rfl) (fun _ _ => rfl) rfl (fun _ => rfl)
    obtain ⟨cores, -, -, cycles⟩ := finishCounted_counts q j w .rwe 2 m tail (u.modCore e (countRows rows y.evals)) hj
    rw [eng] at cycles
    refine ⟨done, ?_, ?_, cycles⟩
    · rw [cores e]
      simp [countRows]
    · rw [cores e]
      simp [countRows]
  case peel =>
    refine ⟨_, execPeelBatchDone_completes item op hsrc hdst reads fills bar moved stored, ?_⟩
    rw [← hv]
    have hjv : j < (v.run q).insts.length := by
      have same : (v.run q).insts = (u.run q).insts := by
        rw [hv]
        split
        · exact holdRemote_insts ..
        · simp only [State.run, putWords_runs]
      rwa [same]
    generalize cdiv _ _ + 2 * y.records + stall = n
    have kept := (finishItem_counts q j w (addCycles (s.queue q).berth 3 n v) hjv).2.2.2
    have done := finishItem_done (u := v) (s := addCycles (s.queue q).berth 3 n v) q j w hjv rfl (fun _ _ => rfl)
      (fun _ _ => rfl) rfl (addCycles_berth v _ 3 n)
    refine ⟨done, ?_⟩
    rw [kept]
    simp [addCycles]
  case stripe =>
    have eng := runningItem_eng item
    refine ⟨_, execStripeDone_completes item op bar conv computed stored hlead, ?_⟩
    subst hn
    generalize stripeCycles o _ g _ + stall = m
    generalize hc : (u.modCluster e (countStripe (refetched (s.inst q j) o g w) zb)).modCore lead (countEvals y.evals) = c
    have counted : c = { u with cores := c.cores, clusters := c.clusters } := by
      rw [← hc]
      rfl
    have hjc : j < ((c.modInst q j (fun x => { x with engLast := (e, w.item) :: x.engLast })).run q).insts.length := by
      simpa [← hc, State.modInst] using hj
    obtain ⟨cores, -, clusters, cycles⟩ := finishCounted_counts q j w .stripe 4 m 40 _ hjc
    obtain ⟨stripes, bytes, refetches⟩ := clusters e
    rw [eng, ← hc] at cycles
    refine ⟨finishStripe_done counted hj w e m, ?_, ?_, ?_, ?_, hc ▸ cycles⟩
    · rw [stripes, ← hc]
      simp [countStripe, State.modInst]
    · rw [bytes, ← hc]
      simp [countStripe, State.modInst]
    · rw [refetches, ← hc]
      simp [countStripe, State.modInst]
    · rw [cores lead, ← hc]
      simp [countEvals, State.modInst]

end Sys2Proof.Machine
end

section
/-! SUPPORT. COLL (17_longshore.md R411, R416, R418, R429, R430): where its dispatch leads, the engine or the place that it
takes, and a member that holds no greeting of its children. -/
namespace Sys2Proof.Machine

/-! ### One instruction changed -/

/-- A change of the instruction that was dispatched last. -/
theorem modInst_last {s : State} {q : Nat} {l : List Inst} {x : Inst} (last : (s.run q).insts = l ++ [x]) (f : Inst → Inst) :
    (s.modInst q l.length f).run q = { s.run q with insts := l ++ [f x] } := by
  have list : (List.range (l ++ [x]).length).map (fun k =>
      if k = l.length then f ((l ++ [x]).getD k {}) else (l ++ [x]).getD k {}) = l ++ [f x] := by
    refine List.ext_getElem (by simp) fun k _ hk => ?_
    by_cases top : k = l.length
    · simp [top]
    · have below : k < l.length := by
        have := List.length_append ▸ hk
        simp only [List.length_singleton] at this
        omega
      simp [List.getElem_append_left, List.getElem?_append_left, below, top]
  simp only [State.modInst, modRun_eq, setRun_run_self, last, list]

/-- A change that leaves its instruction as it was leaves every run as it was. -/
theorem modInst_same {s : State} {q j : Nat} {f : Inst → Inst} (same : f (s.inst q j) = s.inst q j) (p : Nat) :
    (s.modInst q j f).run p = s.run p := by
  have list : (List.range (s.run q).insts.length).map (fun k =>
      if k = j then f ((s.run q).insts.getD k {}) else (s.run q).insts.getD k {}) = (s.run q).insts := by
    refine List.ext_getElem (by simp) fun k _ hk => ?_
    by_cases own : k = j
    · subst own
      simpa [State.inst, hk] using same
    · simp [own, hk]
  by_cases own : p = q
  · subst own
    simp only [State.modInst, modRun_eq, setRun_run_self, list]
  · simp [State.modInst, own]

/-! ### The engine that a COLL takes (R418) -/

/-- An engine serves COLL j of queue q; its data does not move yet. -/
def grantEngine (q j e : Nat) (s : State) : State :=
  (s.modLshEng e (fun l => { l with
    busy := true, variant := (collOps (s.inst q j).op).variant, queue := q, group := (collOps (s.inst q j).op).group })).modInst q j
    (fun i => { i with engine := some e })

theorem giveEngine_eq (q j e : Nat) (s : State) : giveEngine q j e s = beginData q j (grantEngine q j e s) := rfl

theorem beginData_early {s : State} {q j : Nat} (early : (s.collSt q j).go = false) : beginData q j s = s := by
  simp [beginData, early]

theorem grantEngine_shape (q j e : Nat) (s : State) :
    grantEngine q j e s = { s with runs := (grantEngine q j e s).runs, lsh := (grantEngine q j e s).lsh } := rfl

theorem grantEngine_run (q j e : Nat) (s : State) {p : Nat} (other : p ≠ q) : (grantEngine q j e s).run p = s.run p := by
  simp [grantEngine, State.modInst, other]

theorem grantEngine_last {q : Nat} {s : State} {l : List Inst} {x : Inst} (last : (s.run q).insts = l ++ [x]) (e : Nat) :
    (grantEngine q l.length e s).run q = { s.run q with insts := l ++ [{ x with engine := some e }] } :=
  modInst_last (s := s.modLshEng e _) last _

theorem grantEngine_inst {q j : Nat} {s : State} (hj : j < (s.run q).insts.length) (e k : Nat) :
    (grantEngine q j e s).inst q k = if k = j then { s.inst q j with engine := some e } else s.inst q k := by
  refine (modInst_inst ..).trans ?_
  by_cases own : k = j
  · subst own
    rw [if_pos ⟨rfl, rfl, hj⟩, if_pos rfl]
    rfl
  · rw [if_neg fun h => own h.2.1, if_neg own]
    rfl

theorem grantEngine_lshEng (q j e k : Nat) (s : State) : (grantEngine q j e s).lshEng k = if k = e then
    { s.lshEng e with busy := true, variant := (collOps (s.inst q j).op).variant, queue := q
                      group := (collOps (s.inst q j).op).group }
    else s.lshEng k := by
  simp [grantEngine, State.modInst]

theorem grantEngine_collSt {q j : Nat} {s : State} (hj : j < (s.run q).insts.length) (e : Nat) :
    (grantEngine q j e s).collSt q j = s.collSt q j := by
  simp only [State.collSt, grantEngine_inst hj, if_pos]

/-- Without GO the engine that a COLL takes moves no data. -/
theorem giveEngine_early {s : State} {q j : Nat} (hj : j < (s.run q).insts.length) (early : (s.collSt q j).go = false)
    (e : Nat) : giveEngine q j e s = grantEngine q j e s := by
  rw [giveEngine_eq, beginData_early]
  rw [grantEngine_collSt hj, early]

/-! ### The longest-waiting COLL -/

theorem execGrant_empty {s : State} (empty : s.lshQ = []) : exec .longshoreEngineGrant s = .next s := by
  simp only [exec, execLongshoreEngineGrant, empty]

section
variable {s : State} {q j : Nat} {rest : List (Nat × Nat)} (longest : s.lshQ = (q, j) :: rest)
include longest

theorem execGrant_busy (busy : idleEngineFor s q = none) : exec .longshoreEngineGrant s = .next s := by
  simp only [exec, execLongshoreEngineGrant, longest, busy]

theorem execGrant_takes {e : Nat} (idle : idleEngineFor s q = some e) :
    exec .longshoreEngineGrant s = .next (beginData q j (grantEngine q j e { s with lshQ := rest })) := by
  simp only [exec, execLongshoreEngineGrant, longest, idle, giveEngine_eq]

end

/-! ### Dispatch (R101, R429, R430) -/

section
variable {s : State} {q b i : Nat} {o : CollOps} (next : nextWord (s.run q) (.coll o) = true)
  (found : s.findGroup o.group = some (b, i))
include next found

theorem execColl_excluded (out : (s.group b i).state = .excluded) :
    exec (.coll q o) s = .next (faultRun q 7 2 (wordIndex (s.run q)) (some o.group) s) := by
  simp [exec, execColl, next, found, out]

theorem execColl_noQuorum (out : (s.group b i).state = .noQuorum) :
    exec (.coll q o) s = .next (faultRun q 7 3 (wordIndex (s.run q)) (some o.group) s) := by
  simp [exec, execColl, next, found, out]

theorem execColl_reforming (busy : (s.group b i).state = .reforming) : exec (.coll q o) s = .next s := by
  simp [exec, execColl, next, found, busy]

theorem execColl_active {ds : List Desc} {mine : List Nat} {broken : Nat} (active : (s.group b i).state = .active)
    (read : s.readSlots (s.ctx q) (s.run q).set (.coll o) = .ok ds) (aligned : opAligned ds = true)
    (counts : (if o.variant = 3 then readCounts s (s.ctx q) (nth (tensors ds) 2) else .ok []) = .ok mine)
    (breaks : collBreak (collDim (s.group b i) { op := .coll o, descs := ds } { myCounts := mine }) (s.group b i).reforms
      mine.length = broken) (agree : broken ≠ 1) :
    exec (.coll q o) s = .next (startColl q b i o ds mine (if broken = 2 then 3 else 0) s) := by
  simp only [exec, execColl, next, found, active, read, aligned, counts, breaks, Bool.not_true, Bool.false_eq_true, if_false]
  split
  · exact absurd rfl agree
  · rfl
  · next other => rw [if_neg other]

end

/-! ### A COLL that joins its kernel -/

/-- COLL state c joins its kernel. -/
def collInst (r : Run) (o : CollOps) (ds : List Desc) (c : CollSt) : Inst :=
  { word := wordIndex r, op := .coll o, descs := ds, set := r.set, snd := r.snd, planned := true, coll := some c }

/-- COLL j of queue q takes an idle engine, or its place in the queue (R418). -/
def takeEngine (q j : Nat) (s : State) : State :=
  if s.lshQ = [] then match idleEngineFor s q with
    | some e => giveEngine q j e s
    | none => { s with lshQ := [(q, j)] }
  else { s with lshQ := s.lshQ ++ [(q, j)] }

/-- What a COLL that dispatches holds at first: its number in the group's sequence (R411), its own counts. -/
def firstColl (s : State) (q b i : Nat) (o : CollOps) (mine : List Nat) (mismatch : Nat) : CollSt :=
  { group := o.group, seq := ((s.group b i).seq + collCountOf ((s.run q).words.take (s.run q).ip) o.group) % 2 ^ 32
    myCounts := mine, mismatch := mismatch }

/-- The state in which a COLL has joined its kernel and taken its engine or its place. -/
def joinColl (q b i : Nat) (o : CollOps) (ds : List Desc) (mine : List Nat) (mismatch : Nat) (s : State) : State :=
  takeEngine q (s.run q).insts.length (joinInst q (collInst (s.run q) o ds (firstColl s q b i o mine mismatch)) 0 s)

theorem startColl_eq (q b i : Nat) (o : CollOps) (ds : List Desc) (mine : List Nat) (mismatch : Nat) (s : State) :
    startColl q b i o ds mine mismatch s = tryGreet q (s.run q).insts.length (takeHeld q (s.run q).insts.length b i
      (if o.variant = 3 then forEach ((List.range (s.group b i).members.length).filter (· ≠ (s.group b i).rank))
        (fun k t => sendColl q (s.run q).insts.length k 0x09 0 0 (fun p => { p with operand := mine.getD k 0 }) t)
        (joinColl q b i o ds mine mismatch s)
      else joinColl q b i o ds mine mismatch s)) := rfl

/-! ### What joining leaves -/

section
variable (q b i : Nat) (o : CollOps) (ds : List Desc) (mine : List Nat) (mismatch : Nat) (s : State)

/-- State u: the COLL of state c has joined its kernel, and has an idle engine or the last place in the queue. -/
structure Joined (c : CollSt) (u : State) : Prop where
  shape : u = { s with runs := u.runs, lsh := u.lsh, lshQ := u.lshQ }
  others : ∀ p, p ≠ q → u.run p = s.run p
  own : u.run q = { s.run q with
    ip := (s.run q).ip + 1
    insts := (s.run q).insts ++ [{ collInst (s.run q) o ds c with
      engine := if s.lshQ = [] then idleEngineFor s q else none }] }
  places : u.lshQ = if s.lshQ = [] ∧ (idleEngineFor s q).isSome then [] else s.lshQ ++ [(q, (s.run q).insts.length)]
  engines : ∀ e, u.lshEng e = if s.lshQ = [] ∧ idleEngineFor s q = some e then
    { s.lshEng e with busy := true, variant := o.variant, queue := q, group := o.group } else s.lshEng e

/-- A COLL that takes a place in the queue. -/
theorem joined_waits {c : CollSt} (waits : s.lshQ = [] → idleEngineFor s q = none) :
    Joined q o ds s c { joinInst q (collInst (s.run q) o ds c) 0 s with
      lshQ := s.lshQ ++ [(q, (s.run q).insts.length)] } where
  shape := rfl
  others := (joinInst_only q _ 0 s).2
  own := by
    have none : (if s.lshQ = [] then idleEngineFor s q else none) = none := by
      split
      · next empty => exact waits empty
      · rfl
    rw [none]
    exact joinInst_run q _ 0 s
  places := by
    rw [if_neg]
    rintro ⟨empty, some⟩
    simp [waits empty] at some
  engines e := by
    rw [if_neg]
    · rfl
    · rintro ⟨empty, some⟩
      simp [waits empty] at some

/-- A COLL that takes an idle engine, from the state v in which it has joined its kernel. -/
theorem joined_served {c : CollSt} {e : Nat} {v : State} (only : s.onlyRun q v)
    (run : v.run q = { s.run q with ip := (s.run q).ip + 1, insts := (s.run q).insts ++ [collInst (s.run q) o ds c] })
    (empty : s.lshQ = []) (idle : idleEngineFor s q = some e) :
    Joined q o ds s c (grantEngine q (s.run q).insts.length e v) := by
  obtain ⟨rest, others⟩ := only
  have insts : (v.run q).insts = (s.run q).insts ++ [collInst (s.run q) o ds c] := by rw [run]
  have op : (v.inst q (s.run q).insts.length).op = .coll o := by
    rw [State.inst, insts]
    simp [collInst]
  have engines : ∀ k, v.lshEng k = s.lshEng k := fun k => by
    rw [rest]
    rfl
  constructor
  case shape =>
    rw [grantEngine_shape, rest]
  case others => exact fun p hp => (grantEngine_run q _ e v hp).trans (others p hp)
  case own =>
    rw [if_pos empty, idle]
    rw [grantEngine_last insts, run]
  case places =>
    rw [if_pos ⟨empty, by rw [idle]; rfl⟩, grantEngine_shape, rest, ← empty]
  case engines =>
    intro k
    rw [grantEngine_lshEng, op, engines, engines]
    by_cases own : k = e
    · subst own
      rw [if_pos rfl, if_pos ⟨empty, idle⟩]
      rfl
    · rw [if_neg own, if_neg fun h => own (Option.some.inj (idle.symm.trans h.2)).symm]

/-- A COLL joins its kernel and takes its engine or its place. -/
theorem joinColl_joined :
    Joined q o ds s (firstColl s q b i o mine mismatch) (joinColl q b i o ds mine mismatch s) := by
  unfold joinColl takeEngine
  generalize hc : firstColl s q b i o mine mismatch = c
  have only := joinInst_only q (collInst (s.run q) o ds c) 0 s
  have run := joinInst_run q (collInst (s.run q) o ds c) 0 s
  by_cases empty : s.lshQ = []
  · rw [if_pos (show (joinInst q (collInst (s.run q) o ds c) 0 s).lshQ = [] from empty),
      show idleEngineFor (joinInst q (collInst (s.run q) o ds c) 0 s) q = idleEngineFor s q from rfl]
    cases idle : idleEngineFor s q with
    | none => simpa [empty] using joined_waits q o ds s (c := c) fun _ => idle
    | some e =>
      generalize joinInst q (collInst (s.run q) o ds c) 0 s = v at only run
      have early : (v.collSt q (s.run q).insts.length).go = false := by
        rw [State.collSt, State.inst, run]
        simp [collInst, ← hc, firstColl]
      dsimp only
      rw [giveEngine_early (by rw [run]; simp) early]
      exact joined_served q o ds s only run empty idle
  · rw [if_neg (show ¬(joinInst q (collInst (s.run q) o ds c) 0 s).lshQ = [] from empty)]
    exact joined_waits q o ds s fun h => absurd h empty

end

/-! ### A member that holds no greeting (R416) -/

/-- A member that holds no packets takes none. -/
theorem takeHeld_empty {s : State} {b i : Nat} (empty : (s.group b i).held = []) (q j : Nat) :
    takeHeld q j b i s = s.modColl q j (fun x => { x with kids := [], counts := [] }) := by
  simp [takeHeld, empty]

/-- A member that lacks a child's greeting does not greet. -/
theorem tryGreet_lacks {s : State} {q j : Nat} (kids : treeKids (s.dimOf q j).g (s.dimOf q j).rank ≠ [])
    (none : (s.collSt q j).kids = []) : tryGreet q j s = s := by
  have lacks : (treeKids (s.dimOf q j).g (s.dimOf q j).rank).all
      (fun r => (s.collSt q j).kids.any (fun x => x.1 = r)) = false := by
    obtain ⟨r, rest, first⟩ := List.exists_cons_of_ne_nil kids
    simp [first, none]
  simp [tryGreet, lacks]

/-- A COLL that has joined and holds no greeting of its children changes nothing further. -/
theorem Joined.silent {q b i : Nat} {o : CollOps} {ds : List Desc} {s u : State} {c : CollSt} (joined : Joined q o ds s c u)
    (found : s.findGroup c.group = some (b, i)) (kids : c.kids = []) (counts : c.counts = [])
    (tree : treeKids (s.group b i).members.length (s.group b i).rank ≠ []) (empty : (s.group b i).held = []) :
    ∃ t : State, tryGreet q (s.run q).insts.length (takeHeld q (s.run q).insts.length b i u) = t ∧
      t = { u with runs := t.runs } ∧ ∀ p, t.run p = u.run p := by
  have group : u.group b i = s.group b i := by
    rw [joined.shape]
    rfl
  have coll : (u.inst q (s.run q).insts.length).coll = some c := by
    rw [State.inst, joined.own]
    simp [collInst]
  have cleared : ({ c with kids := [], counts := [] } : CollSt) = c := by rw [← kids, ← counts]
  rw [takeHeld_empty (by rw [group, empty])]
  generalize hw : u.modColl q (s.run q).insts.length (fun x => { x with kids := [], counts := [] }) = w
  have shape : w = { u with runs := w.runs } := by
    rw [← hw]
    rfl
  have runs : ∀ p, w.run p = u.run p := fun p => by
    rw [← hw]
    refine modInst_same ?_ p
    rw [coll, Option.map_some, cleared, ← coll]
  have state : w.collSt q (s.run q).insts.length = c := by
    rw [State.collSt, State.inst, runs]
    exact congrArg (·.getD {}) coll
  have place : w.collGroup q (s.run q).insts.length = (b, i) := by
    rw [State.collGroup, state, show w.findGroup c.group = some (b, i) by rw [shape, joined.shape]; exact found]
    rfl
  refine ⟨w, tryGreet_lacks ?_ (by rw [state, kids]), shape, runs⟩
  rw [State.dimOf, place, show w.group b i = s.group b i by rw [shape, joined.shape]; rfl]
  exact tree

/-! ### O36 -/

/-- Settles O36: the group's state tells which branch a dispatching COLL takes; one that joins holds no packets yet. -/
theorem collectivesDispatch : Obligations.CollectivesDispatch := by
  unfold Obligations.CollectivesDispatch
  refine ⟨fun s q b i o next found => ⟨fun out hl => ?excluded, fun out hl => ?noQuorum,
    execColl_reforming next found, fun ds mine c active read aligned counts agree hc => ?joins⟩, fun s => ⟨execGrant_empty,
      fun q j rest longest => ⟨execGrant_busy longest, fun e idle hj => ?granted⟩⟩⟩
  case excluded =>
    obtain ⟨queue, -, phase, -⟩ := faultRun_stops (code := 7) (detail := 2) hl rfl rfl (wordIndex (s.run q)) (some o.group)
    exact ⟨_, execColl_excluded next found out, phase, by rw [queue], by rw [queue], by rw [queue]; rfl⟩
  case noQuorum =>
    obtain ⟨queue, -, phase, -⟩ := faultRun_stops (code := 7) (detail := 3) hl rfl rfl (wordIndex (s.run q)) (some o.group)
    exact ⟨_, execColl_noQuorum next found out, phase, by rw [queue], by rw [queue], by rw [queue]; rfl⟩
  case joins =>
    have command := (execColl_active next found active read aligned counts rfl agree).trans
      (congrArg _ (startColl_eq ..))
    have joined := joinColl_joined q b i o ds mine (if collBreak (collDim (s.group b i) { op := .coll o, descs := ds }
      { myCounts := mine }) (s.group b i).reforms mine.length = 2 then 3 else 0) s
    generalize joinColl q b i o ds mine _ s = u at command joined
    rw [firstColl, ← hc] at joined
    refine ⟨u, joined.shape, joined.others, joined.own, joined.places, joined.engines, command,
      fun variant tree empty => ?_⟩
    obtain ⟨t, settled, same⟩ := joined.silent (by rw [hc]; exact found) (by rw [hc]) (by rw [hc]) tree empty
    rw [if_neg variant, settled] at command
    exact ⟨t, command, same⟩
  case granted =>
    have command := execGrant_takes longest idle
    refine ⟨grantEngine q j e { s with lshQ := rest }, grantEngine_shape .., ?_, fun k hk => ?_,
      fun p hp => grantEngine_run q j e _ hp, fun k hk => ?_, ?_, command, fun early => ?_⟩
    · exact (grantEngine_inst (s := { s with lshQ := rest }) hj e j).trans (if_pos rfl)
    · exact (grantEngine_inst (s := { s with lshQ := rest }) hj e k).trans (if_neg hk)
    · exact (grantEngine_lshEng ..).trans (if_neg hk)
    · exact (grantEngine_lshEng ..).trans (if_pos rfl)
    · rw [command, beginData_early]
      exact (congrArg CollSt.go (grantEngine_collSt (s := { s with lshQ := rest }) hj e)).trans early

end Sys2Proof.Machine
end

section
/-! SUPPORT. Tiles that complete (05_matrix_engines.md R150, R151; 07_attention.md R198, R199; 09_backward.md R222): what the
completion of a tile leads to, and what its MXE and its core count. -/
namespace Sys2Proof.Machine

/-! ### Counters of MXEs and their cores -/

/-- An MXE's count of a tile. -/
def countTile (m : Mxe) : Mxe := { m with tiles := wrapAdd 64 m.tiles 1 }

/-- A core's counts of a tile of an ATTN: key chunks and evaluations. -/
def countAttn (chunks evals : Nat) (c : Core) : Core :=
  { c with attnChunks := wrapAdd 64 c.attnChunks chunks, rweEvals := wrapAdd 64 c.rweEvals evals }

theorem modMxe_mxe (s : State) (m : Nat) (f : Mxe → Mxe) : (s.modMxe m f).mxe m = f (s.mxe m) := by
  simp [State.mxe, State.modMxe]

/-- A change of an MXE leaves the rest of its core as it was. -/
theorem modMxe_core (s : State) (m : Nat) (f : Mxe → Mxe) (c : Nat) :
    (s.modMxe m f).core c = { s.core c with mxe := ((s.modMxe m f).core c).mxe } := by
  simp only [State.modMxe, modCore_eq, setCore_core]
  split
  · next own => rw [own]
  · rfl

/-- A change of a core's other fields leaves its MXEs as they are. -/
theorem modCore_mxe (s : State) (c : Nat) (f : Core → Core) (keeps : ∀ x, (f x).mxe = x.mxe) (m : Nat) :
    (s.modCore c f).mxe m = s.mxe m := by
  simp only [State.mxe, modCore_eq, setCore_core]
  split
  · next own => rw [keeps, own]
  · rfl

/-- MXE m has counted a tile, and its core, by f, what it computed. -/
def tileCounted (m : Nat) (f : Core → Core) (s : State) : State := (s.modCore (m / 4) f).modMxe m countTile

theorem tileCounted_shape (m : Nat) (f : Core → Core) (s : State) :
    tileCounted m f s = { s with cores := (tileCounted m f s).cores } := rfl

theorem tileCounted_tiles (m : Nat) {f : Core → Core} (keeps : ∀ x, (f x).mxe = x.mxe) (s : State) :
    ((tileCounted m f s).mxe m).tiles = wrapAdd 64 (s.mxe m).tiles 1 := by
  rw [tileCounted, modMxe_mxe, modCore_mxe _ _ _ keeps]
  rfl

theorem tileCounted_core (m : Nat) (f : Core → Core) (s : State) : (tileCounted m f s).core (m / 4) =
    { f (s.core (m / 4)) with mxe := ((tileCounted m f s).core (m / 4)).mxe } := by
  rw [tileCounted, modMxe_core, modCore_eq, setCore_core, if_pos rfl]

/-! ### Soundings of a tile (R213) -/

theorem readySound_shape (q j t : Nat) (a : Accs) (s : State) :
    readySound q j t a s = { s with runs := (readySound q j t a s).runs } := rfl

theorem readySound_run (q j t : Nat) (a : Accs) (s : State) :
    (readySound q j t a s).run q = { s.run q with sounds := ((readySound q j t a s).run q).sounds } := by
  simp only [readySound, modRun_eq, setRun_run_self]

theorem readySound_run_ne {q p : Nat} (j t : Nat) (a : Accs) (s : State) (other : p ≠ q) :
    (readySound q j t a s).run p = s.run p :=
  (setRun_only s q _).2 p other

theorem readySound_inst (q j t : Nat) (a : Accs) (s : State) (k : Nat) : (readySound q j t a s).inst q k = s.inst q k := by
  rw [State.inst, readySound_run, State.inst]

/-! ### Tiles of a PROB -/

/-- A tile of a PROB, stored in u, is done: n A-cycles, and the drain's 39 where no further tile follows at once (R151). -/
def probTileDone (m q j : Nat) (w : Work) (a : Accs) (evals n : Nat) (u : State) : State :=
  finishCounted q j w .mxe 1 n 39 (readySound q j w.item a (tileCounted m (countEvals evals) u))

theorem probTileDone_counts {m : Nat} {q j : Nat} {w : Work} {u : State} (hj : j < (u.run q).insts.length) (eng : w.eng = m)
    (a : Accs) (evals n : Nat) {t : State} (ht : probTileDone m q j w a evals n u = t) :
    u.itemDone q j w (u.inst q j) t ∧ (t.mxe m).tiles = wrapAdd 64 (u.mxe m).tiles 1 ∧
      (t.core (m / 4)).rweEvals = wrapAdd 64 (u.core (m / 4)).rweEvals evals ∧
      look 0 (t.berth (u.queue q).berth).cycles 1 =
        if (t.mxe m).busy then wrapAdd 64 (look 0 (u.berth (u.queue q).berth).cycles 1) n
        else wrapAdd 64 (wrapAdd 64 (look 0 (u.berth (u.queue q).berth).cycles 1) n) 39 := by
  have tile := tileCounted_tiles m (f := countEvals evals) (fun _ => rfl) u
  have core := tileCounted_core m (countEvals evals) u
  have counted := tileCounted_shape m (countEvals evals) u
  unfold probTileDone at ht
  generalize tileCounted m (countEvals evals) u = c at tile core counted ht
  have runs : ∀ p, c.run p = u.run p := fun p => by
    rw [counted]
    rfl
  have insts : ∀ k, (readySound q j w.item a c).inst q k = u.inst q k := fun k => by
    rw [readySound_inst, State.inst, runs, State.inst]
  have hjv : j < ((readySound q j w.item a c).run q).insts.length := by
    rwa [readySound_run, runs]
  have done := finishCounted_done (u := u) q j w .mxe 1 n 39 hjv (by rw [readySound_shape, counted])
    (fun p hp => (readySound_run_ne j w.item a c hp).trans (runs p)) (fun k _ => insts k)
    (by rw [readySound_run, runs]) (fun b => by rw [readySound_shape, counted]; rfl)
  obtain ⟨cores, tiles, -, cycles⟩ := finishCounted_counts q j w .mxe 1 n 39 _ hjv
  have queue : (readySound q j w.item a c).queue q = u.queue q := by
    rw [readySound_shape, counted]
    rfl
  have berth : ∀ b, (readySound q j w.item a c).berth b = u.berth b := fun b => by
    rw [readySound_shape, counted]
    rfl
  rw [insts, ht] at done
  rw [ht] at cores tiles cycles
  rw [eng, queue, berth] at cycles
  refine ⟨done, (tiles m).trans tile, ?_, cycles⟩
  rw [cores]
  exact congrArg Core.rweEvals core

/-! ### Tiles of an ATTN -/

/-- A tile of an ATTN, stored in u, is done, after n A-cycles. -/
def attnTileDone (m q j : Nat) (w : Work) (chunks evals n : Nat) (u : State) : State :=
  finishItem q j w (addCycles (u.queue q).berth 1 n (tileCounted m (countAttn chunks evals) u))

theorem attnTileDone_counts {q j : Nat} {u : State} (hj : j < (u.run q).insts.length) (m : Nat) (w : Work)
    (chunks evals n : Nat) {t : State} (ht : attnTileDone m q j w chunks evals n u = t) :
    u.itemDone q j w (u.inst q j) t ∧ (t.mxe m).tiles = wrapAdd 64 (u.mxe m).tiles 1 ∧
      (t.core (m / 4)).attnChunks = wrapAdd 64 (u.core (m / 4)).attnChunks chunks ∧
      (t.core (m / 4)).rweEvals = wrapAdd 64 (u.core (m / 4)).rweEvals evals ∧
      look 0 (t.berth (u.queue q).berth).cycles 1 = wrapAdd 64 (look 0 (u.berth (u.queue q).berth).cycles 1) n := by
  have tile := tileCounted_tiles m (f := countAttn chunks evals) (fun _ => rfl) u
  have core := tileCounted_core m (countAttn chunks evals) u
  have counted := tileCounted_shape m (countAttn chunks evals) u
  unfold attnTileDone at ht
  generalize tileCounted m (countAttn chunks evals) u = c at tile core counted ht
  have runs : ∀ p, (addCycles (u.queue q).berth 1 n c).run p = u.run p := fun p => by
    rw [counted]
    rfl
  have insts : ∀ k, (addCycles (u.queue q).berth 1 n c).inst q k = u.inst q k := fun k => by
    rw [State.inst, runs, State.inst]
  have berth : ∀ b, c.berth b = u.berth b := fun b => by
    rw [counted]
    rfl
  have hjc : j < ((addCycles (u.queue q).berth 1 n c).run q).insts.length := by rwa [runs]
  have done := finishItem_done (u := u) q j w hjc (by rw [addCycles, modBerth_eq, counted]; rfl) (fun p _ => runs p)
    (fun k _ => insts k) (by rw [runs]) (fun b => by rw [addCycles_berth, berth])
  obtain ⟨cores, tiles, -, kept⟩ := finishItem_counts q j w _ hjc
  rw [insts, ht] at done
  rw [ht] at cores tiles kept
  refine ⟨done, (tiles m).trans tile, ?_, ?_, ?_⟩
  · rw [cores]
    exact congrArg Core.attnChunks core
  · rw [cores]
    exact congrArg Core.rweEvals core
  · rw [kept, ← berth]
    simp [addCycles]

/-! ### The command -/

section
variable {s : State} {m : Nat} {rx : BitVec 288} {q j : Nat} {w : Work}
  (item : mxeItem s m = some (q, j, w)) (bar : s.engineBar q (m / 4) (m % 4 + 1) rx 4 = none)
include item bar

section
variable {o : ProbOps} (op : (s.inst q j).op = .prob o) (filled : (needFills (s.inst q j)).getD 0 ≤ w.fills)
  {y : Yield} {a : Accs} (computed : s.probTile q j w.item = .ok (y, a))
include op filled computed

theorem execTileDone_prob {u : State} (stored : applyYield q j o.acc y s = .ok u) (stall : Nat) :
    exec (.tileDone m stall rx) s = .next (probTileDone m q j w a y.evals
      (probCycles (u.ctx q).img (s.inst q j) o a y.records + stall) u) := by
  unfold State.inst at op filled
  simp only [exec, execTileDone, item, bar, op, finishProb, if_neg (Nat.not_lt.mpr filled), computed, stored]
  rfl

theorem execTileDone_probFaults {f : Flt} (fault : applyYield q j o.acc y s = .error f) (stall : Nat) :
    exec (.tileDone m stall rx) s = .next (itemFault q j w f s) := by
  unfold State.inst at op filled
  simp only [exec, execTileDone, item, bar, op, finishProb, if_neg (Nat.not_lt.mpr filled), computed, fault]

end

theorem execTileDone_attn {o : AttnOps} {st : Stores} {u : State} (op : (s.inst q j).op = .attn o)
    (shared : o.back = false → attnChunks (s.inst q j) o w.item ≤ w.shares)
    (computed : s.attnItem q (s.inst q j) o w.item = .ok st)
    (stored : applyYield q j 0 { st := st, reads := attnReads s (s.ctx q) (s.inst q j) o w.item } s = .ok u) (stall : Nat) :
    exec (.tileDone m stall rx) s = .next (attnTileDone m q j w
      (if o.back then attnChunks (s.inst q j) o w.item else min (attnChunks (s.inst q j) o w.item) 2)
      (endEvals s (s.ctx q) (s.inst q j) o w.item (s.run q).base2) (attnCycles (s.inst q j) o w.item + stall) u) := by
  have due : (!o.back && decide (w.shares < attnChunks (s.inst q j) o w.item)) = false := by
    cases back : o.back with
    | true => rfl
    | false => simpa using shared back
  unfold State.inst at op due computed stored
  simp only [exec, execTileDone, item, bar, op, finishAttn, due, computed, stored]
  rfl

end

/-- Settles O27: each completion leaves the item done, and its MXE's, its core's and class 1's counters higher; a tray in
other hands ends the run. -/
theorem tilesComplete : Obligations.TilesComplete := by
  unfold Obligations.TilesComplete
  intro s m stall rx q j w u item bar hj
  refine ⟨fun o y a n op filled computed stored hn => ?prob,
    fun o y a core tray op filled landed computed hc ht ho fault => ?fault,
    fun o st n op hn shared computed stored => ?attn⟩
  case prob =>
    subst hn
    exact ⟨_, execTileDone_prob item bar op filled computed stored stall,
      probTileDone_counts hj (runningItem_eng item) a y.evals _ rfl⟩
  case fault =>
    exact ⟨_, execTileDone_probFaults item bar op filled computed fault stall,
      itemFault_ends q j w core tray (s.tray core tray).owner 6 s landed ht ho hc⟩
  case attn =>
    subst hn
    exact ⟨_, execTileDone_attn item bar op shared computed stored stall, attnTileDone_counts hj m w _ _ _ rfl⟩

end Sys2Proof.Machine
end

section
/-! SUPPORT. Plans (05_matrix_engines.md R136, R139, R152; 08_soundings.md R211, R212): what a plan enters in its instruction
and in the plan counters, and the soundings that it asks for. -/
namespace Sys2Proof.Machine

/-! ### The plan and its counters -/

/-- The cluster of a crew's lead core, whose Baker core plans for the run. -/
def leadCluster (r : Run) : Nat := clusterOf (r.crew.headD 0)

/-- What tells a planned instruction from another in the plan cache (R139). -/
def planKey (s : State) (q : Nat) (i : Inst) : PlanKey :=
  { berth := (s.queue q).berth, templ := (s.run q).templ, word := ahead 32 i.word (s.run q).start
    extents := (tensors i.descs).flatMap (·.ext), set := i.set
    crew := [(crewEngines s (s.run q) ((engKind i.op).getD .mxe)).length] }

/-- Two keys stand for the same word of the same template. -/
def PlanKey.sameWord (a b : PlanKey) : Bool := a.berth = b.berth && a.templ = b.templ && a.word = b.word

/-- The lead cluster may reuse plans, and its cache holds this one (R139, R152). -/
def reusesPlan (s : State) (q : Nat) (key : PlanKey) : Bool :=
  bit (runCtrl (s.run q) (leadCluster (s.run q))) 8 && (s.cluster (leadCluster (s.run q))).planCache.any (fun k =>
    k.sameWord key && k.extents = key.extents && k.crew = key.crew)

/-- A cluster counts a plan and keeps it in its cache. -/
def countPlan (key : PlanKey) (reuse : Bool) (c : Cluster) : Cluster :=
  { c with
    plans := wrapAdd 32 c.plans 1
    reused := if reuse then wrapAdd 32 c.reused 1 else c.reused
    planCache := key :: c.planCache.filter (fun k => !k.sameWord key) }

/-- An instruction with the shape and the items of its plan. -/
def takePlan (p : (Nat × Nat) × List Work × Nat) (i : Inst) : Inst :=
  { i with planned := true, shape := p.1, work := p.2.1 }

/-- Instruction j of queue q takes its plan, and the lead cluster counts it. -/
def enterPlan (q j : Nat) (s : State) : State :=
  (s.modCluster (leadCluster (s.run q)) (countPlan (planKey s q (s.inst q j))
    (reusesPlan s q (planKey s q (s.inst q j))))).modInst q j (takePlan (planOf s q (s.inst q j)))

theorem enterPlan_shape (q j : Nat) (s : State) :
    enterPlan q j s = { s with clusters := (enterPlan q j s).clusters, runs := (enterPlan q j s).runs } := rfl

theorem enterPlan_run_ne {q p : Nat} (j : Nat) (s : State) (other : p ≠ q) : (enterPlan q j s).run p = s.run p :=
  (setRun_only _ q _).2 p other

theorem enterPlan_inst {q j : Nat} {s : State} (hj : j < (s.run q).insts.length) (k : Nat) :
    (enterPlan q j s).inst q k = if k = j then takePlan (planOf s q (s.inst q j)) (s.inst q j) else s.inst q k := by
  refine (modInst_inst ..).trans ?_
  by_cases own : k = j
  · subst own
    rw [if_pos ⟨rfl, rfl, hj⟩, if_pos rfl]
    rfl
  · rw [if_neg fun h => own h.2.1, if_neg own]
    rfl

theorem enterPlan_cluster (q j : Nat) (s : State) (c : Nat) :
    (enterPlan q j s).cluster c = if c = leadCluster (s.run q) then
      countPlan (planKey s q (s.inst q j)) (reusesPlan s q (planKey s q (s.inst q j))) (s.cluster (leadCluster (s.run q)))
    else s.cluster c :=
  setCluster_cluster ..

/-! ### Soundings -/

/-- The run, with the soundings of an instruction that is planned (R211, R212). -/
def planSounds (q j : Nat) (work : List Work) (s : State) : State :=
  if isSounded (s.inst q j) then
    match (s.inst q j).snd with
    | some c => s.modRun q (fun x => { x with
        sounds := x.sounds ++ (sampledTiles work.length c.period (look 0 (s.run q).sndSeq c.slot +
          (((s.run q).insts.take j).filter (fun x => isSounded x && (match x.snd with
            | some d => d.slot = c.slot
            | none => false))).length)).map (fun t => ({ inst := j, tile := t } : SndWork))
        sndCount := put 0 x.sndCount c.slot (look 0 x.sndCount c.slot + 1) })
    | none => s
  else s

/-- Soundings that an instruction's plan asks for change its run alone, and no instruction. -/
theorem planSounds_only (q j : Nat) (work : List Work) (s : State) : s.onlyRun q (planSounds q j work s) ∧
    ((planSounds q j work s).run q).insts = (s.run q).insts := by
  unfold planSounds
  split
  · split
    · exact ⟨setRun_only .., by rw [modRun_eq, setRun_run_self]⟩
    · exact ⟨⟨rfl, fun _ _ => rfl⟩, rfl⟩
  · exact ⟨⟨rfl, fun _ _ => rfl⟩, rfl⟩

/-! ### The plan of the oldest instruction that has none -/

theorem execPlanReady_plans {s : State} {q j : Nat} (works : (s.run q).phase = .running ∨ (s.run q).phase = .draining)
    (oldest : (s.run q).insts.findIdx? (fun i => (engKind i.op).isSome && !i.planned && !i.zero && !i.done) = some j)
    (bar : s.trayBar q ((s.run q).crew.headD 0) 7 = none) :
    exec (.planReady q) s =
      .next (startIdle q (planSounds q j (planOf s q (s.inst q j)).2.1 (enterPlan q j s))) := by
  have phase : ¬((s.run q).phase ≠ .running ∧ (s.run q).phase ≠ .draining) := by tauto
  simp only [exec, execPlanReady, oldest, bar]
  rw [if_neg phase]
  rfl

/-- Settles O26: the plan is entered in its instruction and counted in the lead core's cluster; soundings are entered in
the run, and then idle engines start. -/
theorem plansDealTheirWork : Obligations.PlansDealTheirWork := by
  unfold Obligations.PlansDealTheirWork
  intro s q j works oldest bar
  have hj : j < (s.run q).insts.length := (List.findIdx?_eq_some_iff_getElem.mp oldest).1
  obtain ⟨⟨rest, others⟩, instructions⟩ := planSounds_only q j (planOf s q (s.inst q j)).2.1 (enterPlan q j s)
  have command := execPlanReady_plans works oldest bar
  generalize planSounds q j _ (enterPlan q j s) = u at rest others instructions command
  have insts : ∀ k, u.inst q k = (enterPlan q j s).inst q k := fun k => by rw [State.inst, instructions, State.inst]
  have clusters : ∀ c, u.cluster c = (enterPlan q j s).cluster c := fun c => by
    rw [rest]
    rfl
  refine ⟨_, command, u, startIdle_starts q u, ?_, ?_, fun k hk => ?_, fun p hp => ?_, fun c hc => ?_, ?_, fun off => ?_⟩
  · rw [rest, enterPlan_shape]
  · rw [insts, enterPlan_inst hj, if_pos rfl]
    rfl
  · rw [insts, enterPlan_inst hj, if_neg hk]
  · exact (others p hp).trans (enterPlan_run_ne j s hp)
  · exact (clusters c).trans ((enterPlan_cluster q j s c).trans (if_neg hc))
  · rw [clusters, enterPlan_cluster, leadCluster, if_pos rfl]
    rfl
  · have fresh : reusesPlan s q (planKey s q (s.inst q j)) = false := by
      rw [reusesPlan, leadCluster, off, Bool.false_and]
    rw [clusters, enterPlan_cluster, fresh, leadCluster, if_pos rfl]
    rfl

end Sys2Proof.Machine
end

section
/-! SUPPORT. A core that joins a running crew (05_matrix_engines.md R147, 15_berths_scheduling.md R372). -/
namespace Sys2Proof.Machine

/-- Core `core` is one more of a run's crew. -/
def addToCrew (core : Nat) (r : Run) : Run := { r with crew := r.crew ++ [core] }

/-- The core is the first of its cluster in a crew that uses the Stripe engine. -/
def firstOfCluster (r : Run) (core : Nat) : Bool :=
  usesStripe r.words && !(r.crew.any (fun d => clusterOf d = clusterOf core))

theorem execCrewCoreJoin_joins {s : State} {q core : Nat} (running : (s.run q).phase = .running)
    (shape : (s.run q).zeroShape = false) (room : (s.run q).crew.length < (s.template q).coresMax)
    (fits : qualifies s q core (s.run q).wide = true)
    (unwanted : ∀ p ∈ s.runs.map (·.1), p ≠ q → before s p q = true → mayLeave s p = true → zeroShape s p = false →
      qualifies s p core (wideNow s p) = false) :
    exec (.crewCoreJoin q core) s = .next (startIdle q
      (joinCore q core false (firstOfCluster (s.run q) core) (s.modRun q (addToCrew core)))) := by
  have none : (s.runs.map (·.1)).any (fun p => p ≠ q && before s p q && mayLeave s p && !zeroShape s p &&
      qualifies s p core (wideNow s p)) = false := by
    rw [List.any_eq_false]
    intro p hp ahead
    simp only [Bool.and_eq_true, decide_eq_true_eq, Bool.not_eq_true'] at ahead
    obtain ⟨⟨⟨⟨other, first⟩, may⟩, work⟩, takes⟩ := ahead
    exact Bool.false_ne_true ((unwanted p hp other first may work).symm.trans takes)
  simp only [exec, execCrewCoreJoin, none]
  rw [if_pos ⟨running, by rw [shape]; rfl, room, fits, rfl⟩]
  rfl

/-- Idle engines that start leave the crews as they are. -/
theorem State.sameButStarts.crew {s t : State} (h : s.sameButStarts t) (c : Nat) : (t.core c).crew = (s.core c).crew := by
  obtain ⟨-, -, -, -, -, cores, -⟩ := h
  rw [cores c]

/-- Settles O25: the run takes the core into its crew, the core takes the run's trays, and then idle engines start. -/
theorem coresJoinLater : Obligations.CoresJoinLater := by
  unfold Obligations.CoresJoinLater
  intro s q core running shape room fits unwanted
  refine ⟨_, execCrewCoreJoin_joins running shape room fits unwanted, ?_⟩
  obtain ⟨⟨rest, cores, runs, trays, own⟩, crew⟩ :=
    joinCore_only q core false (firstOfCluster (s.run q) core) (s.modRun q (addToCrew core))
  generalize joinCore q core false _ _ = u at rest cores runs own crew ⊢
  have starts := startIdle_starts q u
  refine ⟨u, starts, rest, ?_, fun p hp => ?_, (starts.crew core).trans crew, cores⟩
  · rw [own, modRun_eq, setRun_run_self]
    rfl
  · exact (runs p hp).trans ((setRun_only s q _).2 p hp)

end Sys2Proof.Machine
end

section
/-! SUPPORT. Steals (05_matrix_engines.md R145, 06_row_engine.md R154, 10_stripes.md R253, 03_instructions.md R527): which
item an idle engine takes, and the count of an MXE's core. -/
namespace Sys2Proof.Machine

/-- A core counts a steal. -/
def countSteal (c : Core) : Core := { c with steals := wrapAdd 64 c.steals 1 }

/-- The core of an MXE counts its steal; no other engine's is counted. -/
def stealCounted (k : EngKind) (e : Nat) (s : State) : State := if k = .mxe then s.modCore (e / 4) countSteal else s

theorem stealCounted_shape (k : EngKind) (e : Nat) (s : State) :
    stealCounted k e s = { s with cores := (stealCounted k e s).cores } := by
  unfold stealCounted
  split
  · rfl
  · rfl

theorem stealCounted_core (k : EngKind) (e : Nat) (s : State) (x : Nat) : (stealCounted k e s).core x = { s.core x with
    steals := if k = .mxe ∧ x = e / 4 then wrapAdd 64 (s.core x).steals 1 else (s.core x).steals } := by
  unfold stealCounted
  by_cases mxe : k = .mxe
  · rw [if_pos mxe, modCore_eq, setCore_core]
    by_cases own : x = e / 4
    · rw [if_pos own, if_pos ⟨mxe, own⟩, own]
      rfl
    · rw [if_neg own, if_neg fun h => own h.2]
  · rw [if_neg mxe, if_neg fun h => mxe h.1]

/-- Work that an idle engine finds is of an instruction of its run. -/
theorem findWork_lt {s : State} {r : Run} {k : EngKind} {e j : Nat} {v : Option Nat} (found : findWork s r k e = some (j, v)) :
    j < r.insts.length := by
  obtain ⟨i, hi, found⟩ := firstSome_mem found
  rw [List.mem_range] at hi
  dsimp only at found
  split at found
  · split at found
    · cases found
      exact hi
    · obtain ⟨x, -, same⟩ := Option.map_eq_some_iff.mp found
      cases same
      exact hi
  · cases found

section
variable {s : State} {q e j v : Nat} {k : EngKind} {w : Work} (found : findWork s (s.run q) k e = some (j, some v))
include found

theorem steal_takes (idle : engBusy s (s.run q) k e = false) (scrubbed : crewScrubbing s (s.run q) = false)
    (serves : e ∈ crewEngines s (s.run q) k) (last : (untaken (s.inst q j) v).getLast? = some w) :
    steal q k e s = startIdle q (stealCounted k e (startItem q j w.item e true s)) := by
  have may : (engBusy s (s.run q) k e || crewScrubbing s (s.run q) || !(crewEngines s (s.run q) k).contains e) = false := by
    rw [idle, scrubbed, List.contains_iff_mem.mpr serves]
    rfl
  unfold State.inst at last
  simp only [steal, may, found, last]
  rfl

/-- Each command of a steal has the engine steal for the crew that it works for. -/
theorem exec_steals {c : Instr} (command : (c = .tileSteal e ∧ k = .mxe ∧ (s.core (e / 4)).crew = some q) ∨
    (c = .batchSteal e false ∧ k = .rwe ∧ (s.core e).crew = some q) ∨
    (c = .batchSteal e true ∧ k = .peel ∧ (s.core e).crew = some q) ∨
    (c = .stripeSteal e ∧ k = .stripe ∧ (clusterRuns s e).head? = some q)) : exec c s = .next (steal q k e s) := by
  obtain ⟨rfl, rfl, crew⟩ | ⟨rfl, rfl, crew⟩ | ⟨rfl, rfl, crew⟩ | ⟨rfl, rfl, first⟩ := command
  · simp only [exec, execTileSteal, crew]
  · simp only [exec, execBatchSteal, crew]
    rfl
  · simp only [exec, execBatchSteal, crew]
    rfl
  · obtain ⟨rest, runs⟩ := List.head?_eq_some_iff.mp first
    have victim : (findVictimOf s (s.run q) .stripe e).isSome = true := by
      rw [findVictimOf, found]
      rfl
    simp only [exec, execStripeSteal, runs, List.find?_cons, victim]

end

/-- Settles O29: the engine starts the victim's last untaken item, the core of an MXE counts it, and then idle engines
start. -/
theorem idleEnginesSteal : Obligations.IdleEnginesSteal := by
  unfold Obligations.IdleEnginesSteal
  intro s q e j v k w c command idle scrubbed serves found last
  refine ⟨_, (exec_steals found command).trans (congrArg _ (steal_takes found idle scrubbed serves last)),
    startItem q j w.item e true s, stealCounted k e (startItem q j w.item e true s), startItem_starts ..,
    stealCounted_shape .., startIdle_starts .., fun x => ?_, ?_⟩
  · obtain ⟨-, -, -, -, -, cores, -⟩ := startItem_starts q j w.item e true s
    rw [stealCounted_core, cores x]
  · rw [← startItem_work q j w.item e true s (findWork_lt found), State.inst, State.run, stealCounted_shape]
    rfl

end Sys2Proof.Machine
end

section
/-! SUPPORT. Fills of MXE slots and an RWE's shares of chunks (07_attention.md R198; 08_soundings.md R222, R223), what keeps
an engine from what it completes (12_trays_harbour.md R294 to R297, 13_stacks.md R331), and soundings (R213 to R217). -/
namespace Sys2Proof.Machine

/-! ### Fills and shares -/

/-- A work list of which the item of w is changed. -/
def changeItem (w : Work) (f : Work → Work) (x : Inst) : Inst :=
  { x with work := x.work.map (fun v => if v.item = w.item then f v else v) }

/-- One fill more of an item's slots. -/
def countFill (v : Work) : Work := { v with fills := v.fills + 1 }

/-- One share more of an item's chunks. -/
def countShare (v : Work) : Work := { v with shares := v.shares + 1 }

theorem changeItem_work {s u : State} {q j : Nat} (hj : j < (s.run q).insts.length) (runs : u.runs = s.runs) (w : Work)
    (f : Work → Work) : ((u.modInst q j (changeItem w f)).inst q j).work =
      (s.inst q j).work.map (fun v => if v.item = w.item then f v else v) := by
  have run : u.run q = s.run q := by rw [State.run, runs, State.run]
  rw [modInst_inst, if_pos ⟨rfl, rfl, run ▸ hj⟩, State.inst, run]
  rfl

theorem addCycles_count (b cls n : Nat) (s : State) :
    look 0 ((addCycles b cls n s).berth b).cycles cls = wrapAdd 64 (look 0 (s.berth b).cycles cls) n := by
  simp [addCycles]

/-- F-cycles of the fill of a slot that is due (R222). -/
def fillCycles (i : Inst) (w : Work) (isB : Bool) : Nat :=
  cdiv (fillBytes i isB (w.fills / 2)) (if fillTransposes i isB then 128 else 256)

/-- An RWE's counts of its share of a chunk: the MXE's wait, the chunk before the one before it, evaluations (R198,
R203). -/
def countChunk (shares evals wait : Nat) (c : Core) : Core :=
  { c with
    attnWait := wrapAdd 64 c.attnWait wait
    attnChunks := if 2 ≤ shares then wrapAdd 64 c.attnChunks 1 else c.attnChunks
    rweEvals := wrapAdd 64 c.rweEvals evals }

/-- An MXE streams on while its tile has further chunks. -/
def streamOn (more : Bool) (m : Mxe) : Mxe :=
  { m with
    stream := m.stream && more, streamHeirloom := m.streamHeirloom && more, streamBase2 := m.streamBase2 && more }

/-- An RWE has counted its share of a chunk for MXE m, and class 2 of berth b n A-cycles. -/
def chunkCounted (m b shares evals wait n : Nat) (more : Bool) (s : State) : State :=
  (addCycles b 2 n (s.modCore (m / 4) (countChunk shares evals wait))).modMxe m (streamOn more)

theorem chunkCounted_counts {m b shares evals wait n : Nat} {more : Bool} {s c : State}
    (counted : chunkCounted m b shares evals wait n more s = c) :
    c = { s with berths := c.berths, cores := c.cores } ∧
      c.core (m / 4) = { countChunk shares evals wait (s.core (m / 4)) with mxe := (c.core (m / 4)).mxe } ∧
      look 0 (c.berth b).cycles 2 = wrapAdd 64 (look 0 (s.berth b).cycles 2) n := by
  subst counted
  refine ⟨rfl, ?_, addCycles_count b 2 n _⟩
  rw [chunkCounted, modMxe_core]
  simp [addCycles]

section
variable {s : State} {m q j : Nat} {w : Work} (item : mxeItem s m = some (q, j, w))
include item

theorem execChunkFillDone_fills {isB : Bool} {rx : BitVec 288} (due : nextFill (s.inst q j) w isB = true)
    (bar : s.engineBar q (m / 4) (m % 4 + 1) rx 5 = none) :
    exec (.chunkFillDone m isB rx) s = .next ((addCycles (s.queue q).berth 3 (fillCycles (s.inst q j) w isB) s).modInst
      q j (changeItem w countFill)) := by
  have kept (b n : Nat) : (addCycles b 3 n s).engineBar q (m / 4) (m % 4 + 1) rx 5 = none := bar
  unfold State.inst at due
  simp only [exec, execChunkFillDone, item, due, kept, Bool.not_true, Bool.false_eq_true, if_false]
  rfl

theorem execAttnShareDone_shares {o : AttnOps} (op : (s.inst q j).op = .attn o) (forward : o.back = false)
    (due : w.shares < attnChunks (s.inst q j) o w.item) (own : s.trayBar q (m / 4) (m % 4 + 1) = none) (wait : Nat) :
    exec (.attnShareDone m wait) s = .next ((chunkCounted m (s.queue q).berth w.shares
      (shareEvals s (s.ctx q) (s.inst q j) o w.item w.shares) wait (2 * (s.inst q j).shape.1 + 46)
      (decide (w.shares + 1 < attnChunks (s.inst q j) o w.item)) s).modInst q j (changeItem w countShare)) := by
  have more : (o.back || decide (w.shares ≥ attnChunks (s.inst q j) o w.item)) = false := by
    rw [forward, decide_eq_false (Nat.not_le.mpr due)]
    rfl
  unfold State.inst at op more
  simp only [exec, execAttnShareDone, item, op, more, own]
  rfl

/-! ### What keeps an engine from a piece of work -/

theorem execTileDone_barred {rx : BitVec 288} {f : Flt} (bar : s.engineBar q (m / 4) (m % 4 + 1) rx 4 = some f)
    (stall : Nat) : exec (.tileDone m stall rx) s = .next (itemFault q j w f s) := by
  simp only [exec, execTileDone, item, bar]

/-- The Peel's time for a fill is counted also where the fill faults. -/
theorem execChunkFillDone_barred {isB : Bool} {rx : BitVec 288} {f : Flt} (due : nextFill (s.inst q j) w isB = true)
    (bar : s.engineBar q (m / 4) (m % 4 + 1) rx 5 = some f) :
    exec (.chunkFillDone m isB rx) s =
      .next (itemFault q j w f (addCycles (s.queue q).berth 3 (fillCycles (s.inst q j) w isB) s)) := by
  have kept (b n : Nat) : (addCycles b 3 n s).engineBar q (m / 4) (m % 4 + 1) rx 5 = some f := bar
  unfold State.inst at due
  simp only [exec, execChunkFillDone, item, due, kept, Bool.not_true, Bool.false_eq_true, if_false]
  rfl

end

section
variable {s : State} {core q j : Nat} {w : Work} {rx : BitVec 288} {f : Flt}

theorem execRowDone_barred {o : RowOps} (item : runningItem s ((s.core core).crew).toList .rwe core = some (q, j, w))
    (op : (s.inst q j).op = .rowop o) (bar : s.engineBar q core 5 rx 4 = some f) (stall : Nat) :
    exec (.rowDone core ⟨stall, rx⟩) s = .next (itemFault q j w f s) := by
  unfold State.inst at op
  simp only [exec, execRowDone, item, op, bar]

theorem execPeelBatchDone_barred {o : PeelOps} (item : runningItem s ((s.core core).crew).toList .peel core = some (q, j, w))
    (op : (s.inst q j).op = .peel o) (reads : readsDone (s.ctx q) (s.inst q j) w.item = true)
    (fills : fillWaits s core = false)
    (bar : s.engineBar q core 6 rx
      (if (tensors (s.inst q j).descs).any (fun t => !t.remote && ((s.ctx q).acc t.base).isSome) then 4 else 5) = some f)
    (stall : Nat) : exec (.peelBatchDone core ⟨stall, rx⟩) s = .next (itemFault q j w f s) := by
  unfold State.inst at op reads bar
  simp only [exec, execPeelBatchDone, item, op, reads, fills, bar, Bool.not_true, Bool.or_self, Bool.false_eq_true,
    if_false]

theorem findSome?_range_first {α : Type} {g : Nat → Option α} {k n : Nat} {x : α} (hk : k < n) (before : ∀ i < k, g i = none)
    (here : g k = some x) : (List.range n).findSome? g = some x := by
  obtain ⟨d, rfl⟩ := Nat.exists_eq_add_of_lt hk
  have none : (List.range k).findSome? g = none :=
    List.findSome?_eq_none_iff.mpr fun i hi => before i (List.mem_range.mp hi)
  rw [Nat.add_assoc, List.range_add, List.findSome?_append, none, List.range_succ_eq_map]
  simp [here]

/-- The first core of a cluster, in which an engine finds its trays in other hands or a bad codeword, names the fault. -/
theorem execStripeDone_barred {e k : Nat} {o : StripeOps} (item : runningItem s (clusterRuns s e) .stripe e = some (q, j, w))
    (op : (s.inst q j).op = .stripe o) (hk : k < 8) (before : ∀ i < k, s.engineBar q (8 * e + i) 8 rx 4 = none)
    (bar : s.engineBar q (8 * e + k) 8 rx 4 = some f) (stall : Nat) :
    exec (.stripeDone e ⟨stall, rx⟩) s = .next (itemFault q j w f s) := by
  have first := findSome?_range_first (g := fun i => s.engineBar q (8 * e + i) 8 rx 4) hk before bar
  unfold State.inst at op
  simp only [exec, execStripeDone, item, op, first]

/-- The command has an engine of a core, acting for an owner, complete the item w, of which it reads the codeword rx; the
detail is that of a codeword that cannot be corrected (R294, R302, R331). -/
def completes (s : State) (c : Instr) (q j core owner detail : Nat) (w : Work) (rx : BitVec 288) : Prop :=
  (∃ m stall, c = .tileDone m stall rx ∧ mxeItem s m = some (q, j, w) ∧ core = m / 4 ∧ owner = m % 4 + 1 ∧ detail = 4) ∨
    (∃ m isB, c = .chunkFillDone m isB rx ∧ mxeItem s m = some (q, j, w) ∧ nextFill (s.inst q j) w isB = true ∧
      core = m / 4 ∧ owner = m % 4 + 1 ∧ detail = 5) ∨
    (∃ stall o, c = .rowDone core ⟨stall, rx⟩ ∧ runningItem s ((s.core core).crew).toList .rwe core = some (q, j, w) ∧
      (s.inst q j).op = .rowop o ∧ owner = 5 ∧ detail = 4) ∨
    (∃ stall o, c = .peelBatchDone core ⟨stall, rx⟩ ∧ runningItem s ((s.core core).crew).toList .peel core = some (q, j, w) ∧
      (s.inst q j).op = .peel o ∧ readsDone (s.ctx q) (s.inst q j) w.item = true ∧ fillWaits s core = false ∧ owner = 6 ∧
      detail = if (tensors (s.inst q j).descs).any (fun t => !t.remote && ((s.ctx q).acc t.base).isSome) then 4 else 5) ∨
    ∃ e k stall o, c = .stripeDone e ⟨stall, rx⟩ ∧ runningItem s (clusterRuns s e) .stripe e = some (q, j, w) ∧
      (s.inst q j).op = .stripe o ∧ k < 8 ∧ core = 8 * e + k ∧ (∀ i < k, s.engineBar q (8 * e + i) 8 rx 4 = none) ∧
      owner = 8 ∧ detail = 4

theorem completes.detail {c : Instr} {owner detail : Nat} (command : completes s c q j core owner detail w rx) :
    detail = 4 ∨ detail = 5 := by
  obtain ⟨_, _, _, _, _, _, h⟩ | ⟨_, _, _, _, _, _, _, h⟩ | ⟨_, _, _, _, _, _, h⟩ | ⟨_, _, _, _, _, _, _, _, h⟩ |
    ⟨_, _, _, _, _, _, _, _, _, _, _, h⟩ := command
  · exact .inl h
  · exact .inr h
  · exact .inl h
  · rw [h]
    split
    · exact .inl rfl
    · exact .inr rfl
  · exact .inl h

/-- Where something keeps the engine from the item, the item faults with it, engine time apart. -/
theorem completes.barred {c : Instr} {owner detail : Nat} (command : completes s c q j core owner detail w rx)
    (bar : s.engineBar q core owner rx detail = some f) :
    ∃ b, exec c s = .next (itemFault q j w f { s with berths := b }) := by
  obtain ⟨m, stall, rfl, item, rfl, rfl, rfl⟩ | ⟨m, isB, rfl, item, due, rfl, rfl, rfl⟩ |
    ⟨stall, o, rfl, item, op, rfl, rfl⟩ | ⟨stall, o, rfl, item, op, reads, fills, rfl, rfl⟩ |
    ⟨e, k, stall, o, rfl, item, op, hk, rfl, before, rfl, rfl⟩ := command
  · exact ⟨s.berths, execTileDone_barred item bar stall⟩
  · exact ⟨_, execChunkFillDone_barred item due bar⟩
  · exact ⟨s.berths, execRowDone_barred item op bar stall⟩
  · exact ⟨s.berths, execPeelBatchDone_barred item op reads fills bar stall⟩
  · exact ⟨s.berths, execStripeDone_barred item op hk before bar stall⟩

end

theorem berths_sameRuns (s : State) (b : Tbl Berth) : s.sameRuns { s with berths := b } :=
  ⟨fun _ => rfl, fun _ => rfl, rfl⟩

/-- A codeword that cannot be corrected ends the run of a kernel that has not landed, and its queue stops. -/
theorem itemFault_unreadable {s : State} {q detail : Nat} (landed : (s.run q).landed = false) (small : detail < 256)
    (j : Nat) (w : Work) : s.endedRun q 0x09 detail (s.inst q j).word true (itemFault q j w (0x09, detail) s) := by
  have fault : itemFault q j w (0x09, detail) s = faultRun q 0x09 detail (s.inst q j).word none s := by
    simp [itemFault, trayFault, runFault, stalled, landed, State.inst]
  rw [fault]
  exact faultRun_stops landed (by simp [stopCode]) (Nat.mod_eq_of_lt small) _ _

/-! ### Soundings -/

/-- A core counts a sounding. -/
def countSounding (c : Core) : Core := { c with sndTiles := wrapAdd 64 c.sndTiles 1 }

/-- A sounding leaves its run's list, and its drift is kept for the commit (R214, R215). -/
def keepDrift (x : SndWork) (res : SndRes) (r : Run) : Run :=
  { r with sounds := r.sounds.filter (· ≠ x), sndRes := r.sndRes ++ [res] }

/-- A-cycles of a sounding of a tile (R217). -/
def soundingCycles (i : Inst) (o : ProbOps) : Nat :=
  i.shape.1 / 32 * (i.shape.2 / 32) * 6 * roundUp (probDims o (tensors i.descs)).2.2 64 + 79

theorem execSoundingCompare_compares {s : State} {m q : Nat} {o : ProbOps} {k : SndCfg} {refs : List Fv} {x : SndWork}
    (works : (s.run q).phase = .running ∨ (s.run q).phase = .draining) (pool : poolMxe s (s.run q) m = true)
    (oldest : (s.run q).sounds.find? (·.ready) = some x) (op : (s.inst q x.inst).op = .prob o)
    (cfg : (s.inst q x.inst).snd = some k) (computed : refAccs s (s.ctx q) (s.inst q x.inst) o x.tile = .ok refs) :
    exec (.soundingCompare q m) s = .next ((addCycles (s.ctx q).berth 1 (soundingCycles (s.inst q x.inst) o)
      (s.modCore (m / 4) countSounding)).modRun q (keepDrift x {
        inst := x.inst, tile := x.tile, slot := k.slot, thr := k.thr
        d := BitVec.ofNat 32 (encFp fp32 (driftOf ((x.acc.map (fun b => decFp fp32 b.toNat)).zip refs))) })) := by
  unfold State.inst at op cfg computed
  simp only [exec, execSoundingCompare, if_pos (And.intro works pool), oldest, op, cfg, computed]
  rfl

/-- Settles O30: fills, shares and soundings by what their commands count; an engine kept from its item by the fault that
ends the run. -/
theorem fillsSharesAndSoundingsCount : Obligations.FillsSharesAndSoundingsCount := by
  unfold Obligations.FillsSharesAndSoundingsCount
  refine ⟨fun s m q j w item => ⟨fun isB rx due bar => ?fill, fun o wait op forward due own => ?share⟩,
    fun s c q j core owner detail w rx (command : completes s c q j core owner detail w rx) landed =>
      ⟨fun own bad => ?unreadable, fun tray other hc ht ho => ?owner⟩,
    fun s m q o k refs x works pool oldest op cfg computed => ?sounding⟩
  case fill =>
    refine ⟨_, execChunkFillDone_fills item due bar, rfl, ?_, ?_⟩
    · exact changeItem_work (runningItem_lt item) rfl w countFill
    · exact addCycles_count ..
  case share =>
    refine ⟨_, execAttnShareDone_shares item op forward due own wait, ?_⟩
    generalize counted : chunkCounted _ _ _ _ _ _ _ _ = c
    obtain ⟨shape, core, cycles⟩ := chunkCounted_counts counted
    have runs : c.runs = s.runs := by rw [shape]
    refine ⟨?_, changeItem_work (runningItem_lt item) runs w countShare, ?_, ?_, ?_, cycles⟩
    · rw [State.modInst, modRun_eq, shape]
      rfl
    · exact congrArg Core.attnWait core
    · exact congrArg Core.attnChunks core
    · exact congrArg Core.rweEvals core
  case unreadable =>
    have bar : s.engineBar q core owner rx detail = some (0x09, detail) := by
      rw [State.engineBar, own, if_pos bad]
      rfl
    obtain ⟨b, run⟩ := command.barred bar
    have small : detail < 256 := by
      have := command.detail
      omega
    have ends := itemFault_unreadable (s := { s with berths := b }) landed small j w
    exact ⟨_, run, endedRun_congr (berths_sameRuns s b) ends⟩
  case owner =>
    have bar : s.engineBar q core owner rx detail = some (s.trayOwnerFault core tray owner) := by
      rw [State.engineBar, other]
      rfl
    obtain ⟨b, run⟩ := command.barred bar
    obtain ⟨ends, noted⟩ :=
      itemFault_ends q j w core tray (s.tray core tray).owner owner { s with berths := b } landed ht ho hc
    exact ⟨_, run, endedRun_congr (berths_sameRuns s b) ends, noted⟩
  case sounding =>
    refine ⟨_, execSoundingCompare_compares works pool oldest op cfg computed, rfl, fun p other => ?_, ?_, ?_⟩
    · exact (setRun_only _ q _).2 p other
    · rw [modRun_eq, setRun_run_self]
      rfl
    · simp [addCycles, countSounding]

end Sys2Proof.Machine
end

section
/-! SUPPORT. Request slots and sounding slots (15_berths_scheduling.md R377, R382, 08_soundings.md R218): when an open write is
refused, what a closed slot holds, and that passing a kernel over leaves the request slots alone. -/
namespace Sys2Proof.Machine

/-! ### Opening -/

/-- An open write that changes nothing (R377). -/
def openRefused (s : State) (b primary alt passes : Nat) (altValid : Bool) : Prop :=
  (s.slotReq b (s.berth b).reqSel).isOpen = true ∨ passes = 0 ∨ ownsQueue s b primary = false ∨
    altValid = true ∧ (ownsQueue s b alt = false ∨ queueHalf primary ≠ queueHalf alt) ∨
    (s.berth b).layout.configured = false

/-- The slot that an open write leaves: its deadline and estimates stay. -/
def openedReq (r : Req) (primary alt passes us : Nat) (altValid : Bool) : Req :=
  { primary := primary, alt := alt, altValid := altValid, passes := passes, deadline := r.deadline, estFull := r.estFull
    estCheap := r.estCheap, isOpen := true, openedAt := us }

section
variable {s : State} {b primary alt passes : Nat} {altValid : Bool}

theorem doOpen_refused (h : openRefused s b primary alt passes altValid) : doOpen b primary alt altValid passes s = s := by
  refine if_pos ?_
  unfold openRefused State.slotReq at h
  simp only [Bool.not_eq_true']
  tauto

theorem doOpen_opens (h : ¬ openRefused s b primary alt passes altValid) : doOpen b primary alt altValid passes s =
    s.modReq b (s.berth b).reqSel
      (fun r => openedReq r primary alt passes (s.half (queueHalf primary)).us altValid) := by
  refine if_neg ?_
  unfold openRefused State.slotReq at h
  simp only [Bool.not_eq_true']
  tauto

end

theorem modReq_onlyBerth (s : State) (b k : Nat) (f : Req → Req) : s.onlyBerth b (s.modReq b k f) := modBerth_onlyBerth ..

theorem modReq_slotReq_self (s : State) (b k : Nat) (f : Req → Req) : (s.modReq b k f).slotReq b k = f (s.slotReq b k) := by
  rw [modReq_slotReq, if_pos ⟨rfl, rfl⟩]

theorem openSlot_opens {s : State} {b primary alt passes : Nat} {altValid : Bool}
    (h : ¬ openRefused s b primary alt passes altValid) : Yields (.openSlot b primary alt altValid passes) s fun t =>
      s.onlyBerth b t ∧ t.slotReq b (s.berth b).reqSel = openedReq (s.slotReq b (s.berth b).reqSel) primary alt passes
        (s.half (queueHalf primary)).us altValid :=
  ⟨_, congrArg Host.Outcome.next (doOpen_opens h), modReq_onlyBerth .., modReq_slotReq_self ..⟩

/-! ### Request slots stay when a kernel is passed over -/

theorem modBerth_slotReq (s : State) (b : Nat) {f : Berth → Berth} (h : ∀ t, (f t).reqs = t.reqs) (c k : Nat) :
    (s.modBerth b f).slotReq c k = s.slotReq c k := by
  unfold State.slotReq
  rw [modBerth_eq, setBerth_berth]
  split
  · next here => rw [h, here]
  · rfl

theorem dropSamples_slotReq (q : Nat) (s : State) (c k : Nat) : (dropSamples q s).slotReq c k = s.slotReq c k :=
  forEach_same (fun s : State => s.slotReq c k) _ (fun x t => by
    split
    · refine modBerth_slotReq t _ ?_ c k
      exact fun _ => rfl
    · rfl) _ s

theorem modSlot_slotReq (s : State) (b i : Nat) (f : Slot → Slot) (c k : Nat) :
    (s.modSlot b i f).slotReq c k = s.slotReq c k := by
  refine modBerth_slotReq s b ?_ c k
  exact fun _ => rfl

theorem applyClears_slotReq (q : Nat) (s : State) (c k : Nat) : (applyClears q s).slotReq c k = s.slotReq c k :=
  forEach_same (fun s : State => s.slotReq c k) _ (fun i t => by
    split
    · exact modSlot_slotReq t _ i clearedSlot c k
    · rfl) _ s

theorem passOver_slotReq (q head : Nat) (s : State) (c k : Nat) : (passOver q head s).slotReq c k = s.slotReq c k := by
  have written := modBerth_slotReq (applyClears q (dropSamples q s)) (s.queue q).berth
    (f := fun t => { t with accWritten := t.accWritten.filter (fun p => p.1 ≠ q) }) (fun _ => rfl) c k
  exact written.trans ((applyClears_slotReq ..).trans (dropSamples_slotReq ..))

theorem passOver_mem (q head : Nat) (s : State) : (passOver q head s).mem = s.mem := by
  rw [passOver_shape]

theorem settle_slotReq (s : State) (b k : Nat) : (settle s).slotReq b k = s.slotReq b k := by
  unfold State.slotReq
  rw [(settle_readiness s).2.2.1 b]

theorem settle_mem (s : State) : (settle s).mem = s.mem := congrArg Prod.fst (settle_stored s)

/-! ### Closing -/

/-- A queue that its slot's close leaves alone: it has no image, or a begun commit completes (R46). -/
def staysBusy (s : State) (q : Nat) : Prop :=
  (s.queue q).state = .disabled ∨ (s.run q).phase = .committing ∨ (s.run q).landed = true

theorem idleAtTail_busy {s : State} {q : Nat} (h : staysBusy s q) : idleAtTail q s = s := if_pos h

/-- The queue goes idle at TAIL; the request slots and memory stay. -/
theorem idleAtTail_idles {s : State} {q : Nat} (h : ¬ staysBusy s q) :
    ((idleAtTail q s).queue q).state = .idle ∧ ((idleAtTail q s).queue q).head = (s.queue q).tail ∧
      (idleAtTail q s).mem = s.mem ∧ ∀ b k, (idleAtTail q s).slotReq b k = s.slotReq b k := by
  obtain ⟨u, run, mem, berths⟩ : ∃ u : State, idleAtTail q s = settle (passOver q (s.queue q).tail u) ∧ u.mem = s.mem ∧
      u.berths = s.berths := by
    refine ⟨_, if_neg h, ?_, ?_⟩
    · rw [modRun_eq, setRun_mem]
      exact congrArg Prod.fst (kept_stored ((freeScratch_kept q _).trans (stopEngines_kept q s)))
    · rw [modRun_eq, setRun_berths, freeScratch_berths, stopEngines_berths]
  rw [run]
  have passed := passOver_queue q (s.queue q).tail q u
  rw [if_pos rfl] at passed
  refine ⟨?_, ?_, ?_, fun b k => ?_⟩
  · rw [settle_queue, passed]
  · rw [settle_queue, passed]
  · rw [settle_mem, passOver_mem, mem]
  · rw [settle_slotReq, passOver_slotReq]
    unfold State.slotReq State.berth
    rw [berths]

/-- The slot that a close leaves. -/
def closedReq (r : Req) (now : Nat) : Req :=
  { r with isOpen := false, finish := min now (2 ^ 32 - 1), late := decide (r.deadline < now), abandoned := false }

/-- The state with the slot closed, before its alternate goes idle. -/
def slotClosed (b k : Nat) (s : State) : State :=
  s.modReq b k (fun r => closedReq r (slotNow s (s.slotReq b k)))

section
variable {s : State} {b k : Nat}

theorem closeReq_closed (h : (s.slotReq b k).isOpen = false) : closeReq b k false s = s := by
  unfold State.slotReq at h
  simp [closeReq, h]

theorem closeReq_open (h : (s.slotReq b k).isOpen = true) : closeReq b k false s =
    if ((s.slotReq b k).altValid && !(s.slotReq b k).switched) = true
    then idleAtTail (s.slotReq b k).alt (slotClosed b k s) else slotClosed b k s := by
  unfold State.slotReq at h
  simp only [closeReq, h]
  rfl

theorem slotClosed_slotReq (b k : Nat) (s : State) :
    (slotClosed b k s).slotReq b k = closedReq (s.slotReq b k) (slotNow s (s.slotReq b k)) := modReq_slotReq_self ..

theorem slotClosed_busy {q : Nat} : staysBusy (slotClosed b k s) q ↔ staysBusy s q := Iff.rfl

/-- Where there is no alternate, or the slot has switched to it, or the alternate's queue stays busy, a close changes the
slot alone. -/
theorem closeReq_alone (h : (s.slotReq b k).isOpen = true) (alone : (s.slotReq b k).altValid = false ∨
    (s.slotReq b k).switched = true ∨ staysBusy s (s.slotReq b k).alt) : closeReq b k false s = slotClosed b k s := by
  rw [closeReq_open h]
  rcases alone with alone | alone | busy
  · simp [alone]
  · simp [alone]
  · rw [idleAtTail_busy (slotClosed_busy.mpr busy), ite_self]

theorem closeSlot_alone (h : (s.slotReq b (s.berth b).reqSel).isOpen = true)
    (alone : (s.slotReq b (s.berth b).reqSel).altValid = false ∨ (s.slotReq b (s.berth b).reqSel).switched = true ∨
      staysBusy s (s.slotReq b (s.berth b).reqSel).alt) : Yields (.closeSlot b) s fun t => s.onlyBerth b t ∧
      t.slotReq b (s.berth b).reqSel =
        closedReq (s.slotReq b (s.berth b).reqSel) (slotNow s (s.slotReq b (s.berth b).reqSel)) :=
  ⟨_, congrArg Host.Outcome.next (closeReq_alone h alone), modReq_onlyBerth .., slotClosed_slotReq ..⟩

/-- An alternate that never ran goes idle (R382). -/
theorem closeReq_idles (h : (s.slotReq b k).isOpen = true) (alt : (s.slotReq b k).altValid = true)
    (unused : (s.slotReq b k).switched = false) (free : ¬ staysBusy s (s.slotReq b k).alt) :
    (closeReq b k false s).slotReq b k = closedReq (s.slotReq b k) (slotNow s (s.slotReq b k)) ∧
      ((closeReq b k false s).queue (s.slotReq b k).alt).state = .idle ∧
      ((closeReq b k false s).queue (s.slotReq b k).alt).head = (s.queue (s.slotReq b k).alt).tail ∧
      (closeReq b k false s).mem = s.mem := by
  obtain ⟨idle, head, mem, slots⟩ := idleAtTail_idles (slotClosed_busy.not.mpr free)
  rw [closeReq_open h, if_pos (by simp [alt, unused])]
  exact ⟨(slots b k).trans (slotClosed_slotReq b k s), idle, head, mem⟩

end

/-! ### Sounding slots -/

theorem modSlot_onlyBerth (s : State) (b i : Nat) (f : Slot → Slot) : s.onlyBerth b (s.modSlot b i f) := modBerth_onlyBerth ..

theorem doClear_unnamed {s : State} {b i : Nat} (h : slotQueue (s.imageOf b) i = none) : doClear b i s = s := by
  unfold doClear
  rw [h]

/-- The slot after a CLEAR: at once where its queue runs no kernel, else when that kernel commits or is skipped. -/
theorem doClear_named {s : State} {b i q : Nat} (h : slotQueue (s.imageOf b) i = some q) :
    s.onlyBerth b (doClear b i s) ∧ look {} ((doClear b i s).berth b).slots i =
      if (s.queue q).state = .idle ∨ (s.queue q).state = .disabled then {}
      else { look {} (s.berth b).slots i with clearPend := true } := by
  unfold doClear
  rw [h]
  dsimp only
  split
  · exact ⟨modSlot_onlyBerth .., (modSlot_slot ..).trans (if_pos rfl)⟩
  · exact ⟨modSlot_onlyBerth .., (modSlot_slot ..).trans (if_pos rfl)⟩

end Sys2Proof.Machine
end

section
/-! SUPPORT. The host link, its vectors and decoders, and rations (18_host_port.md R435 to R440, R446, R452,
15_berths_scheduling.md R383, R384): which pending messages a flush sends, and what one edge of an arbiter starts. -/
namespace Sys2Proof.Machine

/-! ### Vectors -/

theorem raiseVector_open {s : State} {v : Nat} (h : vectorOpen s v = true) : raiseVector v s =
    { s with
      glb := { s.glb with msix := put {} s.glb.msix v { look {} s.glb.msix v with pending := false } }
      out := .msix v (look {} s.glb.msix v).addr (look {} s.glb.msix v).data :: s.out } := if_pos h

/-- What sending pending messages may change: messages, and in the MSI-X table the pending bits of open vectors, each of
which is cleared as its message is sent. -/
structure State.flushed (s t : State) : Prop where
  shape : t = { s with glb := t.glb, out := t.out }
  glb : t.glb = { s.glb with msix := t.glb.msix }
  entry : ∀ v, look {} t.glb.msix v = { look {} s.glb.msix v with pending := (look {} t.glb.msix v).pending }
  shut : ∀ v, vectorOpen s v = false → look {} t.glb.msix v = look {} s.glb.msix v
  quiet : ∀ v, (look {} s.glb.msix v).pending = false → (look {} t.glb.msix v).pending = false
  sent : ∀ v, (look {} s.glb.msix v).pending = true → (look {} t.glb.msix v).pending = false →
    Out.msix v (look {} s.glb.msix v).addr (look {} s.glb.msix v).data ∈ t.out
  grows : s.grows t

theorem State.flushed.refl (s : State) : s.flushed s where
  shape := rfl
  glb := rfl
  entry _ := rfl
  shut _ _ := rfl
  quiet _ h := h
  sent v pending sent := by
    rw [pending] at sent
    cases sent
  grows := .refl s

theorem State.flushed.vectorOpen_eq {s t : State} (h : s.flushed t) (v : Nat) : vectorOpen t v = vectorOpen s v := by
  have masked : (look {} t.glb.msix v).masked = (look {} s.glb.msix v).masked := by rw [h.entry v]
  unfold vectorOpen State.linkUp
  rw [masked, h.glb]

theorem State.flushed.trans {s t u : State} (h : s.flushed t) (k : t.flushed u) : s.flushed u where
  shape := by rw [k.shape, h.shape]
  glb := by rw [k.glb, h.glb]
  entry v := by rw [k.entry, h.entry]
  shut v hv := (k.shut v ((h.vectorOpen_eq v).trans hv)).trans (h.shut v hv)
  quiet v hv := k.quiet v (h.quiet v hv)
  sent v pending sent := by
    cases ht : (look {} t.glb.msix v).pending with
    | false => exact k.grows.mem (h.sent v pending ht)
    | true =>
      have later := k.sent v ht sent
      rwa [h.entry v] at later
  grows := h.grows.trans k.grows

/-- One pass of a flush. -/
def flushVector (v : Nat) (s : State) : State :=
  if (look {} s.glb.msix v).pending && vectorOpen s v then raiseVector v s else s

theorem flushVectors_eq (s : State) : flushVectors s = forEach (s.glb.msix.map (·.1)) flushVector s := rfl

theorem raiseVector_flushed {s : State} {v : Nat} (h : vectorOpen s v = true) : s.flushed (raiseVector v s) := by
  rw [raiseVector_open h]
  have entry : ∀ i, look {} (put {} s.glb.msix v { look {} s.glb.msix v with pending := false }) i =
      { look {} s.glb.msix i with pending := if i = v then false else (look {} s.glb.msix i).pending } := fun i => by
    rw [look_put]
    split
    · next here => rw [here]
    · rfl
  refine ⟨rfl, rfl, fun i => ?_, fun i shut => ?_, fun i quiet => ?_, fun i pending sent => ?_, ⟨[_], rfl⟩⟩
  · dsimp only
    rw [entry]
  · have other : i ≠ v := by
      rintro rfl
      rw [h] at shut
      cases shut
    exact look_put_ne _ _ _ other
  · dsimp only
    rw [entry]
    simp [quiet]
  · dsimp only at sent
    rw [entry] at sent
    have here : i = v := by
      by_contra other
      simp [other, pending] at sent
    rw [here]
    exact List.mem_cons_self ..

theorem flushVector_flushed (v : Nat) (s : State) : s.flushed (flushVector v s) := by
  unfold flushVector
  split
  · next h =>
    rw [Bool.and_eq_true] at h
    exact raiseVector_flushed h.2
  · exact .refl s

theorem forEach_flushVector_flushed (l : List Nat) (s : State) : s.flushed (forEach l flushVector s) :=
  forEach_rel .refl (fun _ _ _ => .trans) flushVector flushVector_flushed l s

theorem flushVectors_flushed (s : State) : s.flushed (flushVectors s) := by
  rw [flushVectors_eq]
  exact forEach_flushVector_flushed _ s

theorem flushVector_clears {s : State} {v : Nat} (h : vectorOpen s v = true) :
    (look {} (flushVector v s).glb.msix v).pending = false := by
  unfold flushVector
  cases pending : (look {} s.glb.msix v).pending with
  | false => simpa using pending
  | true => simp [h, raiseVector_open h]

theorem forEach_flushVector_clears {v : Nat} (l : List Nat) {s : State} (h : vectorOpen s v = true) (mem : v ∈ l) :
    (look {} (forEach l flushVector s).glb.msix v).pending = false := by
  induction l generalizing s with
  | nil => cases mem
  | cons a l ih =>
    rw [forEach_cons]
    rcases List.mem_cons.mp mem with rfl | mem
    · exact (forEach_flushVector_flushed l _).quiet v (flushVector_clears h)
    · exact ih (((flushVector_flushed a s).vectorOpen_eq v).trans h) mem

/-- After a flush no open vector is pending (R452). -/
theorem flushVectors_clears {s : State} {v : Nat} (h : vectorOpen s v = true) :
    (look {} (flushVectors s).glb.msix v).pending = false := by
  by_cases listed : v ∈ s.glb.msix.map (·.1)
  · rw [flushVectors_eq]
    exact forEach_flushVector_clears _ h listed
  · refine (flushVectors_flushed s).quiet v ?_
    rw [look_absent]
    rintro u hu rfl
    exact listed (List.mem_map_of_mem hu)

/-! ### The link -/

/-- The link does not train: the part or its SerDes clock is off, no such width or rate, or lanes of a half that is not in
service (R435, R439). -/
def linkBarred (s : State) (w r : Nat) (h1 : Bool) : Prop :=
  s.on = false ∨ s.clk.serdes = false ∨ (w ≠ 8 ∧ w ≠ 16) ∨ r = 0 ∨ 5 < r ∨
    (s.fenced 0 || s.fenced 1) = true ∧ (w ≠ 8 ∨ h1 ≠ s.fenced 0) ∨ (s.fenced 0 || s.fenced 1) = false ∧ h1 = true

/-- GLB after the link has trained. -/
def linkTrained (g : Glb) (w r : Nat) (cache mem h1 : Bool) : Glb :=
  { g with
    linkWidth := w, linkRate := r, cxlCache := cache && mem && decide (r = 5), cxlMem := mem && decide (r = 5)
    degraded := decide (w = 8), lanesHalf1 := h1, trainings := satAdd 32 g.trainings 1 }

section
variable {s : State} {w r : Nat} {h1 : Bool}

theorem linkBarred_iff : (!s.on || !s.clk.serdes || !(w = 8 || w = 16) || decide (r < 1) || decide (r > 5) ||
    ((s.fenced 0 || s.fenced 1) && !(w = 8 && h1 = s.fenced 0)) || (!(s.fenced 0 || s.fenced 1) && h1)) = true ↔
      linkBarred s w r h1 := by
  have width : (decide (w = 8) || decide (w = 16)) = false ↔ w ≠ 8 ∧ w ≠ 16 := by simp
  have lanes : (decide (w = 8) && decide (h1 = s.fenced 0)) = false ↔ w ≠ 8 ∨ h1 ≠ s.fenced 0 := by simp [imp_iff_not_or]
  unfold linkBarred
  simp only [Bool.or_eq_true, Bool.and_eq_true, Bool.not_eq_true', decide_eq_true_eq, width, lanes, Nat.lt_one_iff,
    gt_iff_lt, or_assoc]

theorem execHostLinkUp_barred (h : linkBarred s w r h1) (cache mem : Bool) :
    execHostLinkUp w r cache mem h1 s = .next s := if_pos (linkBarred_iff.mpr h)

theorem execHostLinkUp_trains (h : ¬ linkBarred s w r h1) (cache mem : Bool) : execHostLinkUp w r cache mem h1 s =
    .next (flushVectors (raiseVector 2 { s with glb := linkTrained s.glb w r cache mem h1 })) := by
  unfold linkTrained
  rw [Bool.and_assoc]
  exact if_neg (linkBarred_iff.not.mpr h)

theorem hostLinkUp_trains (h : ¬ linkBarred s w r h1) (cache mem : Bool) : Yields (.hostLinkUp w r cache mem h1) s fun t =>
    t = { s with glb := t.glb, out := t.out } ∧
      t.glb = { linkTrained s.glb w r cache mem h1 with msix := t.glb.msix } := by
  refine ⟨_, execHostLinkUp_trains h cache mem, ?_⟩
  have flushed := flushVectors_flushed (raiseVector 2 { s with glb := linkTrained s.glb w r cache mem h1 })
  constructor
  · rw [flushed.shape, raiseVector_glb]
  · rw [flushed.glb, raiseVector_msix]

end

/-- MSI-X Enable and Function Mask are as written; the vectors that this opens send what they held (R452). -/
theorem configSpaceWrite_opens (s : State) (en mask : Bool) : Yields (.configSpaceWrite en mask) s fun t =>
    t = { s with glb := t.glb, out := t.out } ∧
    t.glb = { s.glb with msixEnable := en, msixFmask := mask, msix := t.glb.msix } ∧
    (∀ v, vectorOpen t v = true → (look {} t.glb.msix v).pending = false) ∧
    (∀ v, vectorOpen t v = true → (look {} s.glb.msix v).pending = true →
      Out.msix v (look {} s.glb.msix v).addr (look {} s.glb.msix v).data ∈ t.out) ∧
    ∀ v, vectorOpen t v = false → look {} t.glb.msix v = look {} s.glb.msix v := by
  have flushed := flushVectors_flushed (s.modGlb (fun g => { g with msixEnable := en, msixFmask := mask }))
  have clears := fun v isOpen => flushVectors_clears (v := v) ((flushed.vectorOpen_eq v).symm.trans isOpen)
  refine ⟨_, rfl, ?_, flushed.glb, clears, fun v isOpen pending => ?_, fun v shut => ?_⟩
  · rw [flushed.shape]
    rfl
  · exact flushed.sent v pending (clears v isOpen)
  · exact flushed.shut v ((flushed.vectorOpen_eq v).symm.trans shut)

theorem linkLost_eq (s : State) : linkLost s = { s with glb := { s.glb with
    linkWidth := 0, linkRate := 0, cxlCache := false, cxlMem := false, degraded := false, lanesHalf1 := false
    hostWait := [] } } := rfl

/-! ### Decoders -/

theorem waysCode_eq_zero (ways : Nat) : waysCode ways = 0 ↔ ways = 1 := by
  unfold waysCode
  split
  · next h => simp [h]
  · next h =>
    simp only [h, iff_false]
    omega

/-- A decoder commits without an error only where it interleaves one way (R446). -/
theorem commitDecoder_ways (d : Hdm) (base size ways : Nat) :
    commitDecoder { d with base := base, size := size, ways := waysCode ways } =
      { d with
        base := base, size := size, ways := waysCode ways, committed := decide (ways = 1), error := decide (ways ≠ 1) } := by
  unfold commitDecoder
  simp only [ne_eq, waysCode_eq_zero]

theorem execHdmDecoderCommit_absent {s : State} {k : Nat} (h : s.glb.cxlMem = false ∨ 4 ≤ k) (base size ways : Nat) :
    execHdmDecoderCommit k base size ways s = .next s := by
  refine if_pos ?_
  rcases h with h | h
  · simp [h]
  · simp [h]

theorem execHdmDecoderCommit_commits {s : State} {k : Nat} (cxl : s.glb.cxlMem = true) (hk : k < 4) (base size ways : Nat) :
    execHdmDecoderCommit k base size ways s = .next { s with glb := { s.glb with hdm := put {} s.glb.hdm k (commitDecoder
      { look {} s.glb.hdm k with base := base, size := size, ways := waysCode ways }) } } :=
  if_neg (by simp [cxl, hk])

/-! ### Snoops -/

theorem execSnoop_answered {s : State} (up : s.linkUp = true) (cache : s.glb.cxlCache = true) (a : Nat) :
    execSnoop a s = .next { s with out := .snooped a :: s.out } := by
  simp [execSnoop, up, cache, State.emit]

theorem execSnoop_ignored {s : State} (h : s.linkUp = false ∨ s.glb.cxlCache = false) (a : Nat) : execSnoop a s = .next s := by
  unfold execSnoop
  rcases h with h | h
  · simp [h]
  · simp [h]

/-! ### Rations -/

/-- The edge starts a window: the first after reset, at the window's end, or where the pending requesters' credits are
used up (R383, R384). -/
def refills (ws : List Nat) (window : Nat) (a : Arb) (e : Nat) (pend : List Nat) : Prop :=
  a.started = false ∨ e - a.wstart = window ∨ arbExhausted ws a.credit pend = true

section
variable {ws : List Nat} {window : Nat} {a : Arb} {e : Nat} {pend : List Nat}

theorem arbEdge_refills (h : refills ws window a e pend) : (arbEdge ws window a e pend).wstart = e ∧
    (arbEdge ws window a e pend).chosen = arbChoose ws (arbFull ws) pend := by
  have refill : (!a.started || decide (e - a.wstart = window) ||
      arbExhausted ws (if a.started then a.credit else []) pend) = true := by
    unfold refills at h
    cases started : a.started with
    | false => rfl
    | true => simpa [started] using h
  unfold arbEdge
  simp only [refill, if_true, and_self]

theorem arbEdge_goesOn (started : a.started = true) (within : e - a.wstart ≠ window)
    (left : arbExhausted ws a.credit pend = false) : (arbEdge ws window a e pend).wstart = a.wstart ∧
    (arbEdge ws window a e pend).chosen = arbChoose ws a.credit pend := by
  simp [arbEdge, started, within, left]

end

end Sys2Proof.Machine
end

section
/-! SUPPORT. Host-managed memory (18_host_port.md R446 to R448, 14_shelf_tiers.md R351): how an access is served, what a read
within one unit returns, and what a write leaves of that unit. -/
namespace Sys2Proof.Machine

/-! ### Serving an access -/

section
variable {s : State} {a : HostAcc} {addr k va n why : Nat} {d : Hdm} {bs : List (Option Byte)} {x : Bool}

theorem execCxlMem_down (h : s.linkUp = false ∨ s.glb.cxlMem = false) :
    execCxlMemRead addr n s = .next s ∧ execCxlMemWrite addr bs x s = .next s := by
  unfold execCxlMemRead execCxlMemWrite
  rcases h with h | h
  · simp [h]
  · simp [h]

theorem execCxlMem_up (up : s.linkUp = true) (cxl : s.glb.cxlMem = true) :
    execCxlMemRead addr n s = .next (hostAccess { addr := addr, n := n } (retryHost s)) ∧
      execCxlMemWrite addr bs x s =
        .next (hostAccess { write := true, addr := addr, data := bs, poison := x } (retryHost s)) := by
  simp [execCxlMemRead, execCxlMemWrite, up, cxl]

theorem retryHost_none (h : s.glb.hostWait = []) : retryHost s = s := by
  unfold retryHost State.modGlb
  rw [h, forEach_nil, ← h]

theorem hostAccess_uncovered (h : decoderAt s a.addr = none) : hostAccess a s = s := by
  rw [hostAccess, h]

theorem hostAccess_waits (cover : decoderAt s a.addr = some (k, d))
    (wait : hostWaits s d (d.bindVbase + (a.addr - d.base)) (if a.write then a.data.length else a.n) = true) :
    hostAccess a s = { s with glb := { s.glb with hostWait := s.glb.hostWait ++ [a] } } := by
  rw [hostAccess, cover]
  exact if_pos wait

theorem hostAccess_served (cover : decoderAt s a.addr = some (k, d))
    (go : hostWaits s d (d.bindVbase + (a.addr - d.base)) (if a.write then a.data.length else a.n) = false) :
    hostAccess a s = if a.write then hostWrite k d (d.bindVbase + (a.addr - d.base)) a.data a.poison s
      else hostRead k d (d.bindVbase + (a.addr - d.base)) a.n s := by
  rw [hostAccess, cover]
  exact if_neg (ne_true_of_eq_false go)

theorem hostRead_refused (h : hostRefusal s d va n = some why) : hostRead k d va n s =
    { s with
      glb := { s.glb with errReason := why, errDecoder := k, errRefused := satAdd 32 s.glb.errRefused 1 }
      fresh := s.fresh + n, out := .hostData (freeBytes n s).1 true :: s.out } := by
  rw [hostRead, h]
  rfl

theorem hostWrite_refused (h : hostRefusal s d va bs.length = some why) : hostWrite k d va bs x s =
    { s with glb := { s.glb with errReason := why, errDecoder := k, errRefused := satAdd 32 s.glb.errRefused 1 } } := by
  rw [hostWrite, h]
  rfl

theorem hostRead_allowed (h : hostRefusal s d va n = none) : hostRead k d va n s =
    (outsideRead d.bindBerth va n s).2.emit
      (.hostData (outsideRead d.bindBerth va n s).1.1 (outsideRead d.bindBerth va n s).1.2) := by
  rw [hostRead, h]

theorem hostWrite_allowed (h : hostRefusal s d va bs.length = none) : hostWrite k d va bs x s =
    forEach (maskedPieces va bs.length bs) (hostPiece d.bindBerth x) s := by
  rw [hostWrite, h]

/-- The conditions under which the decoder k, which is d, serves an access to a host address, none waiting before it. -/
structure Served (s : State) (addr k : Nat) (d : Hdm) (va : Nat) : Prop where
  up : s.linkUp = true
  cxl : s.glb.cxlMem = true
  first : s.glb.hostWait = []
  cover : decoderAt s addr = some (k, d)
  place : va = d.bindVbase + (addr - d.base)

theorem Served.waits (h : Served s addr k d va) (wait : hostWaits s d va bs.length = true) :
    exec (.cxlMemRead addr bs.length) s =
      .next { s with glb := { s.glb with hostWait := [{ addr := addr, n := bs.length }] } } ∧
    exec (.cxlMemWrite addr bs x) s = .next { s with glb := { s.glb with
      hostWait := [{ write := true, addr := addr, data := bs, poison := x }] } } := by
  obtain ⟨up, cxl, first, cover, rfl⟩ := h
  obtain ⟨read, write⟩ := execCxlMem_up (addr := addr) (n := bs.length) (bs := bs) (x := x) up cxl
  rw [retryHost_none first, hostAccess_waits cover (by simpa using wait), first] at read
  rw [retryHost_none first, hostAccess_waits cover (by simpa using wait), first] at write
  exact ⟨read, write⟩

theorem Served.serves (h : Served s addr k d va) (go : hostWaits s d va bs.length = false) :
    exec (.cxlMemRead addr bs.length) s = .next (hostRead k d va bs.length s) ∧
    exec (.cxlMemWrite addr bs x) s = .next (hostWrite k d va bs x s) := by
  obtain ⟨up, cxl, first, cover, rfl⟩ := h
  obtain ⟨read, write⟩ := execCxlMem_up (addr := addr) (n := bs.length) (bs := bs) (x := x) up cxl
  rw [retryHost_none first, hostAccess_served cover (by simpa using go)] at read
  rw [retryHost_none first, hostAccess_served cover (by simpa using go)] at write
  exact ⟨read, write⟩

theorem freeBytes_length (n : Nat) (s : State) : (freeBytes n s).1.length = n := by
  simp [freeBytes]

/-! ### Pieces of an access -/

theorem unitPieces_nil (va n : Nat) : unitPieces va n [] = [] := by
  cases n with
  | zero => rfl
  | succ n => rfl

/-- Bytes within one unit are one piece. -/
theorem unitPieces_one {l : List Byte} (stored : l ≠ []) (fits : va % 32 + l.length ≤ 32) :
    unitPieces va l.length l = [(va, l)] := by
  obtain ⟨n, hn⟩ := Nat.exists_eq_add_one_of_ne_zero (List.length_pos_iff.mpr stored).ne'
  rw [hn, unitPieces, if_neg stored]
  simp only
  rw [List.take_of_length_le (by omega), List.drop_eq_nil_of_le (by omega), unitPieces_nil]

theorem maskedPieces_nil (va n : Nat) : maskedPieces va n [] = [] := by
  cases n with
  | zero => rfl
  | succ n => rfl

theorem maskedPieces_one (stored : bs ≠ []) (fits : va % 32 + bs.length ≤ 32) : maskedPieces va bs.length bs = [(va, bs)] := by
  obtain ⟨n, hn⟩ := Nat.exists_eq_add_one_of_ne_zero (List.length_pos_iff.mpr stored).ne'
  rw [hn, maskedPieces, if_neg stored]
  simp only
  rw [List.take_of_length_le (by omega), List.drop_eq_nil_of_le (by omega), maskedPieces_nil]

/-- Cutting a write at unit borders adds no byte. -/
theorem mem_of_mem_maskedPieces {p : Nat × List (Option Byte)} (mem : p ∈ maskedPieces va n bs) : ∀ i ∈ p.2, i ∈ bs := by
  induction n generalizing va bs with
  | zero => cases mem
  | succ n ih =>
    unfold maskedPieces at mem
    split at mem
    · cases mem
    · rcases List.mem_cons.mp mem with rfl | mem
      · exact fun i => List.mem_of_mem_take
      · exact fun i hi => List.mem_of_mem_drop (ih mem i hi)

/-! ### Reading within one unit -/

theorem outsideRead_one (b : Nat) (pos : 0 < n) (fits : va % 32 + n ≤ 32) : outsideRead b va n s =
    if s.markAt b (s.spot b va) = .good then ((s.spotBytes b (s.spot b va) n, false), s.slotTouch (s.spot b va))
    else (((freeBytes n s).1, true), (freeBytes n s).2.slotTouch (s.spot b va)) := by
  have one := unitPieces_one (va := va) (l := List.replicate n (0 : Byte)) (by simp; omega) (by simpa using fits)
  rw [List.length_replicate] at one
  rw [outsideRead, one]
  simp

theorem markAt_stack (s : State) (b pa : Nat) : s.markAt b (.stack pa) = look .good s.units (pa / 32) := rfl

/-- A read of a good unit returns what readers see. -/
theorem hostRead_good {pa : Nat} (allowed : hostRefusal s d va n = none) (pos : 0 < n) (fits : va % 32 + n ≤ 32)
    (spot : s.spot d.bindBerth va = .stack pa) (good : look .good s.units (pa / 32) = .good) : hostRead k d va n s =
      { s with
        hbr := (s.slotTouch (.stack pa)).hbr
        out := .hostData ((List.range n).map (fun i => s.memByte (pa + i))) false :: s.out } := by
  rw [hostRead_allowed allowed, outsideRead_one _ pos fits, spot, markAt_stack, if_pos good]
  dsimp only
  rw [slotTouch_shape]
  rfl

/-- A read of a marked unit returns free bytes, as poison. -/
theorem hostRead_marked {pa : Nat} (allowed : hostRefusal s d va n = none) (pos : 0 < n) (fits : va % 32 + n ≤ 32)
    (spot : s.spot d.bindBerth va = .stack pa) (marked : look .good s.units (pa / 32) ≠ .good) : hostRead k d va n s =
      { s with
        hbr := ((freeBytes n s).2.slotTouch (.stack pa)).hbr, fresh := s.fresh + n
        out := .hostData (freeBytes n s).1 true :: s.out } := by
  rw [hostRead_allowed allowed, outsideRead_one _ pos fits, spot, markAt_stack, if_neg marked]
  dsimp only
  rw [slotTouch_shape]
  rfl

end

/-! ### Writing a piece -/

/-- The write holds every byte of a unit. -/
def coversUnit (bs : List (Option Byte)) : Bool := bs.all (·.isSome) && decide (bs.length = 32)

section
variable {s : State} {b va : Nat} {bs : List (Option Byte)} {x : Bool}

theorem hostPiece_masked (h : ∀ i ∈ bs, i = none) : hostPiece b x (va, bs) s = s := by
  have off : bs.all (·.isNone) = true := by simpa using h
  have part : (bs.all (·.isSome) && decide (bs.length = 32)) = false := by
    cases bs with
    | nil => rfl
    | cons i bs => simp [h i List.mem_cons_self]
  unfold hostPiece maskedUnit
  simp [off, part]

/-- A write that its mask empties changes nothing. -/
theorem forEach_hostPiece_masked (n : Nat) (h : ∀ i ∈ bs, i = none) :
    forEach (maskedPieces va n bs) (hostPiece b x) s = s := by
  have masked : ∀ p ∈ maskedPieces va n bs, ∀ i ∈ p.2, i = none := fun p hp i hi => h i (mem_of_mem_maskedPieces hp i hi)
  generalize maskedPieces va n bs = l at masked
  induction l with
  | nil => rfl
  | cons p l ih =>
    rw [forEach_cons, hostPiece_masked (masked p List.mem_cons_self)]
    exact ih fun q hq => masked q (List.mem_cons_of_mem _ hq)

/-- A write of every byte of the unit clears its mark. -/
theorem hostPiece_whole (whole : coversUnit bs = true) (start : va % 32 = 0) : hostPiece b false (va, bs) s =
    ((s.setMark b (s.spot b va) .good).spotWrite b va (s.spot b va) (bs.map (·.getD 0))).slotTouch (s.spot b va) true := by
  obtain ⟨all, len⟩ := Bool.and_eq_true_iff.mp whole
  have len := of_decide_eq_true len
  simp [hostPiece, maskedUnit, State.pokeUnit, all, len, start]

section
variable (part : coversUnit bs = false) (stored : ∃ i ∈ bs, i ≠ none)
include stored

theorem length_pos_of_stored : 0 < bs.length := by
  obtain ⟨i, mem, -⟩ := stored
  exact List.length_pos_of_mem mem

theorem all_isNone_of_stored : bs.all (·.isNone) = false := by
  obtain ⟨i, mem, stores⟩ := stored
  rw [List.all_eq_false]
  exact ⟨i, mem, by simpa using stores⟩

/-- Poison marks the whole unit, whose bytes are then zero. -/
theorem hostPiece_poisons (start : va % 32 = 0) (fits : bs.length ≤ 32) : hostPiece b true (va, bs) s =
    (s.spotWrite b va (s.spot b va) (List.replicate 32 0)).setMark b (s.spot b va) .poison := by
  have pos := length_pos_of_stored stored
  have one : (va + bs.length - 1) / 32 + 1 - va / 32 = 1 := by omega
  have first : va / 32 * 32 = va := by omega
  simp [hostPiece, all_isNone_of_stored stored, poisonRange, pos.ne', one, first, forEach]

include part

theorem hostPiece_good (h : s.markAt b (s.spot b va) = .good) : hostPiece b false (va, bs) s =
    (s.spotWrite b va (s.spot b va)
      ((bs.zip (s.spotBytes b (s.spot b va) bs.length)).map (fun p => p.1.getD p.2))).slotTouch (s.spot b va) := by
  unfold coversUnit at part
  simp [hostPiece, maskedUnit, part, all_isNone_of_stored stored, h]

theorem hostPiece_poisoned (h : s.markAt b (s.spot b va) = .poison) : hostPiece b false (va, bs) s = s := by
  unfold coversUnit at part
  simp [hostPiece, maskedUnit, part, all_isNone_of_stored stored, h]

/-- A write that cannot merge is recorded with SOURCE 3. -/
theorem hostPiece_uncorrectable {pa : Nat} (spot : s.spot b va = .stack pa)
    (h : look .good s.units (pa / 32) = .uncorrectable) :
    hostPiece b false (va, bs) s = recordUe (s.place pa).stack (s.place pa).channel pa 3 s := by
  unfold coversUnit at part
  simp [hostPiece, maskedUnit, part, all_isNone_of_stored stored, spot, markAt_stack, h]

end

theorem hostWrite_one {k : Nat} {d : Hdm} (allowed : hostRefusal s d va bs.length = none) (stored : ∃ i ∈ bs, i ≠ none)
    (fits : va % 32 + bs.length ≤ 32) : hostWrite k d va bs x s = hostPiece d.bindBerth x (va, bs) s := by
  rw [hostWrite_allowed allowed, maskedPieces_one (List.length_pos_iff.mp (length_pos_of_stored stored)) fits, forEach_cons,
    forEach_nil]

end

/-! ### What a write within one unit leaves -/

/-- The unit that holds pa is good and holds the bytes written in the places that the mask leaves, and what readers saw in the
others; all other bytes and marks stay. -/
structure State.wroteUnit (s : State) (pa : Nat) (bs : List (Option Byte)) (t : State) : Prop where
  shape : t = { s with mem := t.mem, delivered := t.delivered, units := t.units, berths := t.berths, hbr := t.hbr }
  good : look .good t.units (pa / 32) = .good
  marks : ∀ u, u ≠ pa / 32 → look .good t.units u = look .good s.units u
  bytes : ∀ a, t.memByte a = if pa ≤ a ∧ a < pa + bs.length then (bs.getD (a - pa) none).getD (s.memByte a) else s.memByte a

theorem slotTouch_memByte (s : State) (l : Locus) (st : Bool) (a : Nat) : (s.slotTouch l st).memByte a = s.memByte a := by
  rw [slotTouch_shape]
  rfl

theorem spotWrite_stack_shape (s : State) (b va pa : Nat) (new : List Byte) : s.spotWrite b va (.stack pa) new =
    { s with
      mem := (s.spotWrite b va (.stack pa) new).mem, delivered := (s.spotWrite b va (.stack pa) new).delivered
      berths := (s.spotWrite b va (.stack pa) new).berths } := rfl

theorem setMark_stack_units (s : State) (b pa : Nat) (m : UnitSt) (u : Nat) :
    look .good (s.setMark b (.stack pa) m).units u = if u = pa / 32 then m else look .good s.units u := look_put ..

/-- Bytes stored in a unit whose mark is then good. -/
theorem wroteUnit_of_spotWrite {s v : State} {b va pa : Nat} {bs : List (Option Byte)} {new : List Byte} (st : Bool)
    (shape : v = { s with units := v.units }) (good : look .good v.units (pa / 32) = .good)
    (marks : ∀ u, u ≠ pa / 32 → look .good v.units u = look .good s.units u)
    (len : new.length = bs.length) (fits : 0 < bs.length ∧ bs.length ≤ 32)
    (merged : ∀ i < bs.length, new.getD i 0 = (bs.getD i none).getD (s.memByte (pa + i))) :
    s.wroteUnit pa bs ((v.spotWrite b va (.stack pa) new).slotTouch (.stack pa) st) := by
  have before : ∀ a, v.memByte a = s.memByte a := fun a => by
    rw [shape]
    rfl
  have units : ((v.spotWrite b va (.stack pa) new).slotTouch (.stack pa) st).units = v.units := by
    rw [slotTouch_shape]
    rfl
  refine ⟨?_, ?_, fun u hu => ?_, fun a => ?_⟩
  · rw [units, slotTouch_shape, spotWrite_stack_shape, shape]
  · rw [units, good]
  · rw [units, marks u hu]
  · rw [slotTouch_memByte, spotWrite_stack_memByte _ _ _ _ _ (by omega), len, before]
    split
    · next inside => rw [merged _ (by omega), Nat.add_sub_cancel' inside.1]
    · rfl

section
variable {s : State} {b va pa : Nat} {bs : List (Option Byte)} (spot : s.spot b va = .stack pa)
include spot

theorem hostPiece_whole_wroteUnit (whole : coversUnit bs = true) (start : va % 32 = 0) :
    s.wroteUnit pa bs (hostPiece b false (va, bs) s) := by
  rw [hostPiece_whole whole start, spot]
  obtain ⟨all, len⟩ := Bool.and_eq_true_iff.mp whole
  have len := of_decide_eq_true len
  have marks := setMark_stack_units s b pa .good
  refine wroteUnit_of_spotWrite true rfl ((marks _).trans (if_pos rfl)) (fun u hu => (marks u).trans (if_neg hu))
    (List.length_map _) (by omega) fun i hi => ?_
  obtain ⟨x, hx⟩ := Option.isSome_iff_exists.mp (List.all_eq_true.mp all bs[i] (List.getElem_mem hi))
  simp [List.getD_eq_getElem?_getD, List.getElem?_eq_getElem hi, hx]

/-- A write that is whole, or merges into a good unit, changes the unit's bytes alone. -/
theorem hostPiece_wroteUnit (stored : ∃ i ∈ bs, i ≠ none) (fits : va % 32 + bs.length ≤ 32)
    (merges : coversUnit bs = true ∨ look .good s.units (pa / 32) = .good) :
    s.wroteUnit pa bs (hostPiece b false (va, bs) s) := by
  cases part : coversUnit bs with
  | true =>
    have len := of_decide_eq_true (Bool.and_eq_true_iff.mp part).2
    exact hostPiece_whole_wroteUnit spot part (by omega)
  | false =>
    have good := merges.resolve_left (ne_true_of_eq_false part)
    have pos := length_pos_of_stored stored
    rw [hostPiece_good part stored (by rw [spot, markAt_stack, good]), spot]
    refine wroteUnit_of_spotWrite false rfl good (fun _ _ => rfl) ?_ (by omega) fun i hi => ?_
    · simp [State.spotBytes]
    · simp [State.spotBytes, List.getD_eq_getElem?_getD, hi]

theorem hostPiece_poisons_marks (stored : ∃ i ∈ bs, i ≠ none) (start : va % 32 = 0) (fits : bs.length ≤ 32) (u : Nat) :
    look .good (hostPiece b true (va, bs) s).units u = if u = pa / 32 then .poison else look .good s.units u := by
  rw [hostPiece_poisons stored start fits, spot]
  exact setMark_stack_units ..

end

theorem recordUe_stored (st ch pa so : Nat) (s : State) :
    (recordUe st ch pa so s).mem = s.mem ∧ (recordUe st ch pa so s).units = s.units := by
  rw [(recordUe_recorded st ch pa so s).shape]
  exact ⟨rfl, rfl⟩

/-! ### The statement -/

/-- Settles O57: a slot's command and the host's each change one unit of the state, or nothing; an access to host-managed
memory waits, is refused, or is done, within one unit as the unit's mark says. -/
theorem slotsAndHostAccessesAct : Obligations.SlotsAndHostAccessesAct := by
  unfold Obligations.SlotsAndHostAccessesAct
  refine ⟨?slots,
    fun s => ⟨?trains, ⟨_, rfl, linkLost_eq s⟩, ?barred, configSpaceWrite_opens s, ?snoop, ?decoder, ?rations⟩,
    fun s addr => ⟨?down, ?up, ?uncovered, ?covered⟩⟩
  case slots =>
    rintro s b _ _ rfl rfl
    refine ⟨fun pri alt n av refused means => ⟨fun h => ?_, fun h => openSlot_opens (means.not.mp h)⟩, fun closed => ?_, ?_,
      fun i => ⟨fun h => congrArg Host.Outcome.next (doClear_unnamed h), fun q h => ⟨_, rfl, doClear_named h⟩⟩⟩
    · exact congrArg Host.Outcome.next (doOpen_refused (means.mp h))
    · exact congrArg Host.Outcome.next (closeReq_closed closed)
    · rintro x isOpen rfl
      refine ⟨fun used => closeSlot_alone isOpen (used.imp_right .inl), fun _ _ busy => closeSlot_alone isOpen (.inr (.inr busy)),
        fun alt unused image committing landed => ⟨_, rfl, closeReq_idles isOpen alt unused ?_⟩⟩
      rintro (off | begun | landing)
      · exact image off
      · exact committing begun
      · exact Bool.false_ne_true (landed.symm.trans landing)
  case trains =>
    intro w r cache mem h1 on serdes width rate lanes whole
    refine hostLinkUp_trains ?_ cache mem
    unfold linkBarred
    simp only [on, serdes, Bool.true_eq_false, false_or]
    rintro (h | h | h | ⟨fenced, h⟩ | ⟨fenced, h⟩)
    · omega
    · omega
    · omega
    · exact h.elim (· (lanes fenced).1) (· (lanes fenced).2)
    · rw [whole fenced] at h
      cases h
  case barred => exact fun w r cache mem h1 h => execHostLinkUp_barred h cache mem
  case snoop => exact fun a => ⟨fun up cache => ⟨_, execSnoop_answered up cache a, rfl⟩, fun h => execSnoop_ignored h a⟩
  case decoder =>
    refine fun k base size ways => ⟨fun h => execHdmDecoderCommit_absent h .., fun cxl hk => ?_⟩
    refine ⟨_, execHdmDecoderCommit_commits cxl hk base size ways, rfl, fun j hj => look_put_ne _ _ _ hj, ?_⟩
    exact (look_put_self ..).trans (commitDecoder_ways ..)
  case rations =>
    refine fun a e rs => ⟨_, rfl, rfl, fun j hj => look_put_ne _ _ _ hj, ?_⟩
    rintro x y rfl rfl
    dsimp only
    rw [look_put_self]
    exact ⟨rfl, arbEdge_refills, arbEdge_goesOn⟩
  case down => exact fun h n bs x => execCxlMem_down h
  case up => exact fun up cxl n bs x => execCxlMem_up up cxl
  case uncovered =>
    intro up cxl first bare n bs x
    have access := execCxlMem_up (addr := addr) (n := n) (bs := bs) (x := x) up cxl
    rw [retryHost_none first, hostAccess_uncovered bare, hostAccess_uncovered bare] at access
    exact access
  case covered =>
    rintro k d va up cxl first cover place _ bs x rfl
    have served : Served s addr k d va := ⟨up, cxl, first, cover, place⟩
    refine ⟨fun wait => ?wait, fun go => ?served⟩
    case wait =>
      obtain ⟨read, write⟩ := served.waits (x := x) wait
      exact ⟨⟨_, read, rfl⟩, ⟨_, write, rfl⟩⟩
    obtain ⟨read, write⟩ := served.serves (x := x) go
    refine ⟨fun why refused => ?refused, fun allowed => ⟨?outside, ?pieces, ?masked, fun pa pos fits spot => ?unit⟩⟩
    case refused =>
      rw [hostRead_refused refused] at read
      rw [hostWrite_refused refused] at write
      exact ⟨⟨_, read, _, freeBytes_length .., rfl⟩, ⟨_, write, rfl⟩⟩
    case outside =>
      rintro _ rfl
      rw [read, hostRead_allowed allowed]
    case pieces => rw [write, hostWrite_allowed allowed]
    case masked =>
      intro masked
      rw [write, hostWrite_allowed allowed, forEach_hostPiece_masked _ masked]
    case unit =>
      refine ⟨fun good => ?_, fun marked => ?_, fun stored => ?_⟩
      · exact ⟨_, read.trans (congrArg Host.Outcome.next (hostRead_good allowed pos fits spot good)), rfl⟩
      · exact ⟨_, read.trans (congrArg Host.Outcome.next (hostRead_marked allowed pos fits spot marked)), _,
          freeBytes_length .., rfl⟩
      · rw [hostWrite_one allowed stored fits] at write
        refine ⟨?_, ?_⟩
        · rintro rfl whole means
          have covers : whole = coversUnit bs := means.trans (Bool.and_comm ..)
          rw [covers]
          refine ⟨fun merges => ?_, fun part poisoned => ?_, fun part bad => ?_⟩
          · have wrote := hostPiece_wroteUnit spot stored fits merges
            exact ⟨_, write, wrote.shape, wrote.good, wrote.marks, wrote.bytes⟩
          · rw [write, hostPiece_poisoned part stored (by rw [spot, markAt_stack, poisoned])]
          · rw [hostPiece_uncorrectable part stored spot bad] at write
            obtain ⟨mem, units⟩ := recordUe_stored (s.place pa).stack (s.place pa).channel pa 3 s
            exact ⟨_, write, mem, units, rfl⟩
        · rintro rfl start
          have marks := hostPiece_poisons_marks spot stored start (by omega)
          exact ⟨_, write, (marks _).trans (if_pos rfl), fun u hu => (marks u).trans (if_neg hu)⟩

end Sys2Proof.Machine
end

section
/-! SUPPORT. Codec jobs (11_codec.md R262, R264, R277, R280): a CODEC that joins its kernel, the engine that the job which
has waited longest takes, and where the end of a job leads. -/
namespace Sys2Proof.Machine

/-! ### Changes of one run -/

theorem State.onlyRun.trans {s t u : State} {q : Nat} (first : s.onlyRun q t) (second : t.onlyRun q u) : s.onlyRun q u := by
  obtain ⟨rest, others⟩ := first
  obtain ⟨rest', others'⟩ := second
  refine ⟨?_, fun p hp => (others' p hp).trans (others p hp)⟩
  rw [rest', rest]

/-- What a change of one instruction leaves of it, it leaves of the run's list. -/
theorem modInst_map {α : Type} {f : Inst → Inst} {g : Inst → α} (keeps : ∀ x, g (f x) = g x) (s : State) (q j : Nat) :
    ((s.modInst q j f).run q).insts.map g = (s.run q).insts.map g := by
  simp only [State.modInst, modRun_eq, setRun_run_self]
  refine List.ext_getElem (by simp) fun k _ hk => ?_
  have below : k < (s.run q).insts.length := by simpa using hk
  by_cases own : k = j
  · subst own
    simp [below, keeps]
  · simp [own, below]

/-! ### A CODEC joins its kernel (R262, R277) -/

/-- A CODEC as it joins its kernel: complete at once where its job counts no pictures. -/
def codecInst (r : Run) (v job : Nat) (d : Desc) : Inst :=
  { capturedInst r (.codec v job) [d] with
    planned := true, zero := field d.bits 128 32 = 0, done := field d.bits 128 32 = 0 }

/-- Held-log entries of a job: that of its producer pointer, where it counts pictures (R277, R280). -/
def jobEntries (d : Desc) : Nat := if field d.bits 128 32 = 0 then 0 else 1

/-- The places of jobs after a job of queue q with descriptor d, which is instruction j (R264). -/
def codecPlaces (d : Desc) (q j : Nat) (l : List (Nat × Nat)) : List (Nat × Nat) :=
  if field d.bits 128 32 = 0 then l else l ++ [(q, j)]

/-- A CODEC has entered its run; its word is still to advance. -/
def enterRun (q v job : Nat) (d : Desc) (s : State) : State :=
  (s.setRun q { s.run q with
    held := (s.run q).held ++ heldRecs (s.run q) (s.run q).ip [], entries := (s.run q).entries + jobEntries d }).modRun q
      (fun x => { x with insts := x.insts ++ [codecInst (s.run q) v job d] })

/-- A CODEC has entered its run and its job the queue of jobs. -/
def enterCodec (q v job : Nat) (d : Desc) (s : State) : State :=
  { enterRun q v job d s with codecQ := codecPlaces d q (s.run q).insts.length s.codecQ }

/-- A CODEC has joined its kernel. -/
def joinCodec (q v job : Nat) (d : Desc) (s : State) : State := advance q (enterCodec q v job d s)

theorem enterRun_only (q v job : Nat) (d : Desc) (s : State) : s.onlyRun q (enterRun q v job d s) :=
  (setRun_only s q _).trans (setRun_only _ q _)

theorem enterRun_own (q v job : Nat) (d : Desc) (s : State) : (enterRun q v job d s).run q = { s.run q with
    entries := (s.run q).entries + jobEntries d, insts := (s.run q).insts ++ [codecInst (s.run q) v job d] } := by
  simp [enterRun, heldRecs]

theorem joinCodec_shape (q v job : Nat) (d : Desc) (s : State) : joinCodec q v job d s =
    { s with runs := (joinCodec q v job d s).runs, codecQ := (joinCodec q v job d s).codecQ } := by
  obtain ⟨entered, -⟩ := enterRun_only q v job d s
  obtain ⟨advanced, -⟩ : (enterCodec q v job d s).onlyRun q (joinCodec q v job d s) := setRun_only _ q _
  rw [enterCodec] at advanced
  generalize enterRun q v job d s = w at entered advanced
  generalize joinCodec q v job d s = u at advanced
  rw [advanced, entered]

theorem joinCodec_others (q v job : Nat) (d : Desc) (s : State) {p : Nat} (hp : p ≠ q) :
    (joinCodec q v job d s).run p = s.run p :=
  ((setRun_only _ q _).2 p hp).trans ((enterRun_only q v job d s).2 p hp)

theorem joinCodec_own (q v job : Nat) (d : Desc) (s : State) : (joinCodec q v job d s).run q = { s.run q with
    ip := (s.run q).ip + 1, entries := (s.run q).entries + jobEntries d
    insts := (s.run q).insts ++ [codecInst (s.run q) v job d] } := by
  refine (setRun_run_self ..).trans ?_
  rw [show (enterCodec q v job d s).run q = _ from enterRun_own q v job d s]

/-- A descriptor that can be read and a log with room let a CODEC dispatch. -/
theorem startCodec_enters {s : State} {q v job : Nat} {d : Desc} (read : s.readJob (s.ctx q) v (job * 64) = .ok d)
    (room : (s.run q).entries + jobEntries d ≤ (s.template q).heldCount) :
    startCodec q v job s = .ok (enterCodec q v job d s) := by
  have entries : (if decide (field d.bits 128 32 = 0) = true then 0 else 1) = jobEntries d := by simp [jobEntries]
  simp only [startCodec, read, entries, hold_room room, enterCodec, enterRun, codecPlaces]
  by_cases noPictures : field d.bits 128 32 = 0
  · rw [if_pos (decide_eq_true noPictures), if_pos noPictures]
    rfl
  · rw [if_neg (by simpa using noPictures), if_neg noPictures]
    rfl

/-- The job of a CODEC that dispatches takes an idle engine at once where no job waits before it. -/
theorem execCodec_joins {s : State} {q v job : Nat} {d : Desc} (next : nextWord (s.run q) (.codec v job) = true)
    (starts : startCodec q v job s = .ok (enterCodec q v job d s)) :
    exec (.codec q v job) s = if s.codecQ = [] ∧ field d.bits 128 32 ≠ 0 then
      exec .codecEngineGrant (joinCodec q v job d s) else .next (joinCodec q v job d s) := by
  have dispatched : dispatch q (.codec v job) (startCodec q v job) s = joinCodec q v job d s := by
    simp [dispatch, next, starts, joinCodec]
  have command : exec (.codec q v job) s = .next (if s.codecQ ≠ [] then joinCodec q v job d s
      else grantCodecs (joinCodec q v job d s).codecQ.length (joinCodec q v job d s)) := by
    rw [← dispatched]
    rfl
  have places : (joinCodec q v job d s).codecQ = codecPlaces d q (s.run q).insts.length s.codecQ := rfl
  rw [command]
  by_cases empty : s.codecQ = []
  · rw [if_neg (not_not.mpr empty), places, codecPlaces, empty]
    by_cases noPictures : field d.bits 128 32 = 0
    · rw [if_pos noPictures, if_neg fun h => h.2 noPictures]
      rfl
    · rw [if_neg noPictures, if_pos ⟨rfl, noPictures⟩]
      rfl
  · rw [if_pos empty, if_neg fun h => empty h.1]

/-! ### The job that has waited longest (R264) -/

theorem execCodecGrant_empty {s : State} (empty : s.codecQ = []) : exec .codecEngineGrant s = .next s := by
  simp only [exec, execCodecEngineGrant, grantCodecs, empty]

section
variable {s : State} {q j : Nat} {rest : List (Nat × Nat)} (longest : s.codecQ = (q, j) :: rest)
include longest

theorem execCodecGrant_busy (busy : idleCodecFor s q = none) : exec .codecEngineGrant s = .next s := by
  simp only [exec, execCodecEngineGrant, grantCodecs, longest, busy]

theorem execCodecGrant_takes {e : Nat} (idle : idleCodecFor s q = some e) :
    exec .codecEngineGrant s = .next (startJob q j e { s with codecQ := rest }) := by
  simp only [exec, execCodecEngineGrant, grantCodecs, longest, idle]

end

/-- The one read of a job's consumer pointer, which a decode has not. -/
def consRead (q j : Nat) (s : State) : Except Flt (List Byte) :=
  if codecVariant (s.inst q j).op = 0 then .ok []
  else s.readBytes (s.ctx q) readRole (jobCons (codecVariant (s.inst q j).op) ((s.inst q j).descs.getD 0 {}).bits) 8

/-- Engine e runs the job of instruction j of queue q. -/
def engageCodec (q j e cons : Nat) (s : State) : State :=
  (s.modInst q j (fun x => { x with engine := some e })).modCodecEng e (fun k => { k with
    busy := true, variant := codecVariant (s.inst q j).op, queue := q, inst := j, cons := cons })

theorem startJob_engages {s : State} {q j : Nat} {bs : List Byte} (read : consRead q j s = .ok bs) (e : Nat) :
    startJob q j e s = engageCodec q j e (leNat bs) s := by
  unfold consRead at read
  simp only [startJob, read, engageCodec]

theorem startJob_faults {s : State} {q j : Nat} {f : Flt} (unread : consRead q j s = .error f) (e : Nat) :
    startJob q j e s = runFault q (s.inst q j).word f s := by
  unfold consRead at unread
  simp only [startJob, unread]

theorem engageCodec_codecEng (q j e cons k : Nat) (s : State) : (engageCodec q j e cons s).codecEng k = if k = e then
    { s.codecEng e with busy := true, variant := codecVariant (s.inst q j).op, queue := q, inst := j, cons := cons }
    else s.codecEng k := by
  simp [engageCodec, State.modInst]

theorem engageCodec_others (q j e cons : Nat) (s : State) {p : Nat} (hp : p ≠ q) :
    (engageCodec q j e cons s).run p = s.run p := (setRun_only s q _).2 p hp

theorem engageCodec_engine {q j : Nat} {s : State} (hj : j < (s.run q).insts.length) (e cons : Nat) :
    ((engageCodec q j e cons s).inst q j).engine = some e := by
  have inst : (engageCodec q j e cons s).inst q j = { s.inst q j with engine := some e } :=
    (modInst_inst s q j (fun x => { x with engine := some e }) q j).trans (if_pos ⟨rfl, rfl, hj⟩)
  rw [inst]

theorem engageCodec_insts (q j e cons : Nat) (s : State) :
    ((engageCodec q j e cons s).run q).insts.map (fun i => { i with engine := none }) =
      (s.run q).insts.map (fun i => { i with engine := none }) :=
  modInst_map (f := fun x => { x with engine := some e }) (fun _ => rfl) s q j

/-! ### The end of a job (R280) -/

/-- The bits of the job descriptor of the job that engine e runs. -/
def jobBits (s : State) (e : Nat) : Nat := ((s.inst (s.codecEng e).queue (s.codecEng e).inst).descs.getD 0 {}).bits

/-- What the job of engine e computes. -/
def ranJob (s : State) (e : Nat) : Job :=
  runJob { s := s, c := s.ctx (s.codecEng e).queue, variant := (s.codecEng e).variant, b := jobBits s e } (s.codecEng e).cons

/-- Engine e is idle again and has counted its job, which ran to x. -/
def freeCodec (s : State) (e : Nat) (x : Job) : State :=
  addCycles (s.ctx (s.codecEng e).queue).berth 5 (jobCycles (s.codecEng e).variant (jobBits s e) x.recs)
    ((s.modCodecEng e (fun k => { k with
      busy := false, pictures := wrapAdd 64 k.pictures x.pictures, blocks := wrapAdd 64 k.blocks x.blocks
      clipped := wrapAdd 64 k.clipped x.clipped })).modInst (s.codecEng e).queue (s.codecEng e).inst
        (fun y => { y with engine := none }))

/-- A job that ran to x ends with fault f: of its run, of its stores to the pool, or of its output. -/
def jobFaults (c : Ctx) (x : Job) (v : State) (f : Flt) : Prop :=
  x.err = some f ∨ x.err = none ∧ (v.store (poolCtx c) x.pool = .error f ∨
    ∃ w, v.store (poolCtx c) x.pool = .ok w ∧ w.store c x.st = .error f)

/-- The release of a job's producer pointer, which a decode has not. -/
def jobRelease (variant b prod : Nat) : List Held := if variant = 0 then [] else [.release (jobProd variant b) prod]

/-- Instruction j of queue q completes, with entries of the held log. -/
def completeHolding (q j : Nat) (recs : List HeldRec) (s : State) : State :=
  (s.modRun q (fun r => { r with held := r.held ++ recs })).modInst q j (fun y => { y with done := true })

theorem completeHolding_only (q j : Nat) (recs : List HeldRec) (s : State) : s.onlyRun q (completeHolding q j recs s) :=
  (setRun_only s q _).trans (setRun_only _ q _)

theorem completeHolding_inst {q j : Nat} {s : State} (hj : j < (s.run q).insts.length) (recs : List HeldRec) :
    (completeHolding q j recs s).inst q j = { s.inst q j with done := true } := by
  refine (modInst_inst ..).trans ((if_pos ⟨rfl, rfl, by simpa using hj⟩).trans ?_)
  simp [State.inst]

theorem completeHolding_held (q j : Nat) (recs : List HeldRec) (s : State) :
    ((completeHolding q j recs s).run q).held = (s.run q).held ++ recs := by
  simp [completeHolding, State.modInst]

theorem execCodecJobDone_idle {s : State} {e : Nat} (idle : (s.codecEng e).busy = false) :
    exec (.codecJobDone e) s = .next s := by
  simp [exec, execCodecJobDone, idle]

section
variable {s v : State} {e : Nat} {x : Job} (busy : (s.codecEng e).busy = true) (hx : x = ranJob s e)
  (hv : v = freeCodec s e x)
include busy hx hv

theorem execCodecJobDone_faults {f : Flt} (faults : jobFaults (s.ctx (s.codecEng e).queue) x v f) :
    exec (.codecJobDone e) s =
      .next (runFault (s.codecEng e).queue (s.inst (s.codecEng e).queue (s.codecEng e).inst).word f v) := by
  unfold ranJob jobBits at hx
  unfold freeCodec jobBits at hv
  simp only [exec, execCodecJobDone, busy, Bool.not_true, Bool.false_eq_true, if_false, ← hx, ← hv]
  obtain err | ⟨sound, pool | ⟨w, pool, out⟩⟩ := faults
  · simp only [err]
  · simp only [sound, pool]
  · simp only [sound, pool, out]

theorem execCodecJobDone_completes {w u : State} (sound : x.err = none)
    (pool : v.store (poolCtx (s.ctx (s.codecEng e).queue)) x.pool = .ok w)
    (out : w.store (s.ctx (s.codecEng e).queue) x.st = .ok u) :
    ∃ recs : List HeldRec, recs.map (·.eff) = jobRelease (s.codecEng e).variant (jobBits s e) x.prod ∧
      exec (.codecJobDone e) s = .next (completeHolding (s.codecEng e).queue (s.codecEng e).inst recs u) := by
  unfold ranJob jobBits at hx
  unfold freeCodec jobBits at hv
  simp only [exec, execCodecJobDone, busy, Bool.not_true, Bool.false_eq_true, if_false, ← hx, ← hv, sound, pool, out]
  refine ⟨_, ?_, rfl⟩
  unfold jobRelease jobBits
  split <;> rfl

end

/-- Settles O35: a CODEC joins and, alone, asks for an engine at once; an engine is granted with the read of the consumer
pointer; a job's end faults at its run or its stores, or completes its instruction. -/
theorem codecJobsRun : Obligations.CodecJobsRun := by
  unfold Obligations.CodecJobsRun
  refine ⟨fun s q v job d next read room => ?joins, fun s q j e rest longest idle => ⟨fun bs read => ?takes,
    fun f variant unread => ?unread⟩, fun s waits => ?none, fun s e => execCodecJobDone_idle,
    fun s e x v busy hx hv => ⟨fun f err => ?run, fun f sound pool => ?pool, fun w sound pool =>
      ⟨fun f out => ?output, fun u out hj => ?completes⟩⟩⟩
  case joins =>
    exact ⟨joinCodec q v job d s, joinCodec_shape .., fun p hp => joinCodec_others q v job d s hp, joinCodec_own ..,
      rfl, execCodec_joins next (startCodec_enters read room)⟩
  case takes =>
    have engages := startJob_engages (s := { s with codecQ := rest }) read e
    refine ⟨engageCodec q j e (leNat bs) { s with codecQ := rest },
      (execCodecGrant_takes longest idle).trans (congrArg Host.Outcome.next engages), rfl, ?_, fun k hk => ?_,
      fun p hp => engageCodec_others q j e _ _ hp, engageCodec_insts q j e _ _,
      fun hj => engageCodec_engine hj e (leNat bs)⟩
    · exact (engageCodec_codecEng ..).trans (if_pos rfl)
    · exact (engageCodec_codecEng ..).trans (if_neg hk)
  case unread =>
    have faults := startJob_faults (s := { s with codecQ := rest }) ((if_neg variant).trans unread) e
    exact (execCodecGrant_takes longest idle).trans (congrArg Host.Outcome.next faults)
  case none =>
    match places : s.codecQ with
    | [] => exact execCodecGrant_empty places
    | (q, j) :: rest =>
      obtain empty | busy := waits
      · exact execCodecGrant_empty empty
      · exact execCodecGrant_busy places (busy q j rest places)
  case run => exact execCodecJobDone_faults busy hx hv (.inl err)
  case pool => exact execCodecJobDone_faults busy hx hv (.inr ⟨sound, .inl pool⟩)
  case output => exact execCodecJobDone_faults busy hx hv (.inr ⟨sound, .inr ⟨w, pool, out⟩⟩)
  case completes =>
    obtain ⟨recs, effs, command⟩ := execCodecJobDone_completes busy hx hv sound pool out
    refine ⟨_, command, completeHolding_only .., completeHolding_inst hj recs, ?_⟩
    rw [completeHolding_held, List.map_append, effs]
    rfl

end Sys2Proof.Machine
end

section
/-! SUPPORT. Parked trays (12_trays_harbour.md R299, R374, R376): the copy of a tray's bytes to and from the park reserve, and
what the Shelf's own work at a park and a return leaves alone. -/
namespace Sys2Proof.Machine

/-! ### The Shelf's work -/

/-- Only what the Shelf's work and its warning record touch differs, and no gating command begins or ends: the Shelf's
records, the gated flash stacks, the record ring and messages. -/
structure State.shelfWork (s t : State) : Prop where
  shape : t = { s with shelf := t.shelf, twcH := t.twcH, twc := t.twc, glb := t.glb, ports := t.ports, cwy := t.cwy
                       arbs := t.arbs, out := t.out }
  domBusy : t.twc.domBusy = s.twc.domBusy

theorem State.shelfWork.refl (s : State) : s.shelfWork s := ⟨rfl, rfl⟩

theorem State.shelfWork.trans {s t u : State} (h : s.shelfWork t) (k : t.shelfWork u) : s.shelfWork u :=
  ⟨by rw [k.shape, h.shape], k.domBusy.trans h.domBusy⟩

theorem State.shelfOnly.shelfWork {s t : State} (h : s.shelfOnly t) (busy : t.twc.domBusy = s.twc.domBusy) :
    s.shelfWork t := ⟨by rw [h], busy⟩

theorem State.recorded.shelfWork {s t : State} (h : s.recorded t) : s.shelfWork t :=
  ⟨by rw [h.shape], by rw [h.twc]⟩

theorem State.shelfWork.modTray {s t : State} (h : s.shelfWork t) (core tray : Nat) (f : Tray → Tray) :
    (s.modTray core tray f).shelfWork (t.modTray core tray f) :=
  ⟨by rw [h.shape]; rfl, h.domBusy⟩

theorem dropCopy_twc (lu : Nat) (s : State) : (dropCopy lu s).twc = s.twc := by
  unfold dropCopy
  split <;> rfl

theorem programInto_twc (i lu : Nat) (s : State) : (programInto i lu s).twc = s.twc := dropCopy_twc lu s

theorem programUnit_twc (park : Bool) (lu : Nat) (s : State) :
    (programUnit park lu s).twc = (wakeFlash (flashOf lu) s).twc := by
  unfold programUnit
  dsimp only
  split
  · rfl
  · exact programInto_twc ..

theorem dropCopy_shelfWork (lu : Nat) (s : State) : s.shelfWork (dropCopy lu s) :=
  (dropCopy_only lu s).shelfWork (by rw [dropCopy_twc])

theorem programUnit_shelfWork (park : Bool) (lu : Nat) (s : State) : s.shelfWork (programUnit park lu s) :=
  (programUnit_only park lu s).shelfWork (by rw [programUnit_twc]; rfl)

theorem forEach_shelfWork {α : Type} {f : α → State → State} (h : ∀ a (s : State), s.shelfWork (f a s)) (l : List α)
    (s : State) : s.shelfWork (forEach l f s) :=
  forEach_rel State.shelfWork.refl (fun _ _ _ => State.shelfWork.trans) f h l s

theorem shelfFlags_shelfWork (s : State) : s.shelfWork (shelfFlags s) := by
  have flags : ∀ f : Shelf → Shelf, s.shelfWork (s.modShelf f) := fun f => (modShelf_only f s).shelfWork rfl
  unfold shelfFlags
  dsimp only
  split
  · exact (flags _).trans (makeRecord_recorded ..).shelfWork
  · exact flags _

/-! ### A tray's bytes move -/

/-- The trays' bytes with the 128 KiB of one tray copied to another key. -/
def trayCopied (m : Memory) (src dst : Nat) : Memory :=
  wrBytes (zeroBytes m dst 131072) dst (rdBytes m src 131072)

theorem rdBytes_length (m : Memory) (n a : Nat) : (rdBytes m a n).length = n := by
  induction n generalizing a with
  | zero => rfl
  | succ n ih => exact congrArg (· + 1) (ih (a + 1))

theorem trayCopied_inside (m : Memory) (src dst : Nat) {o : Nat} (ho : o < 131072) :
    rdByte (trayCopied m src dst) (dst + o) = rdByte m (src + o) := by
  rw [trayCopied, rdByte_wrBytes, rdBytes_length, if_pos ⟨Nat.le_add_right .., by omega⟩, Nat.add_sub_cancel_left,
    rdBytes_getD _ _ _ _ ho]

theorem trayCopied_outside (m : Memory) (src dst : Nat) {a : Nat} (ha : a < dst ∨ dst + 131072 ≤ a) :
    rdByte (trayCopied m src dst) a = rdByte m a := by
  have out : ¬ (dst ≤ a ∧ a < dst + 131072) := by omega
  rw [trayCopied, rdByte_wrBytes, rdBytes_length, if_neg out, rdByte_zeroBytes, if_neg out]

/-- New bytes in the trays and a new record of one tray, with the Shelf's work and readiness after them. -/
theorem settle_changedTray {s u : State} {m : Memory} {core tray : Nat} {f : Tray → Tray}
    (h : (({ s with trays := m } : State).modTray core tray f).shelfWork u) :
    (settle u).tray core tray = f (s.tray core tray) ∧ (settle u).trays = m ∧ (settle u).mem = s.mem ∧
      (settle u).units = s.units ∧ (settle u).queues = s.queues := by
  have record : u.tray core tray = f (s.tray core tray) := by
    rw [h.shape]
    exact (modTray_tray { s with trays := m } core tray f core tray).trans (if_pos rfl)
  rw [settle_tray, (settle_readiness u).1]
  refine ⟨record, ?_, ?_, ?_, ?_⟩
  all_goals
    rw [h.shape]
    rfl

/-- When the new bytes are a tray's copy, that copy reads as the tray did, and every other byte as before. -/
theorem settle_copiedTray {s u : State} {src dst core tray : Nat} {f : Tray → Tray}
    (h : (({ s with trays := trayCopied s.trays src dst } : State).modTray core tray f).shelfWork u) :
    (settle u).tray core tray = f (s.tray core tray) ∧
      (∀ o < 131072, rdByte (settle u).trays (dst + o) = rdByte s.trays (src + o)) ∧
      (∀ a, a < dst ∨ dst + 131072 ≤ a → rdByte (settle u).trays a = rdByte s.trays a) ∧
      (settle u).mem = s.mem ∧ (settle u).units = s.units ∧ (settle u).queues = s.queues := by
  obtain ⟨record, bytes, others⟩ := settle_changedTray h
  rw [bytes]
  exact ⟨record, fun o => trayCopied_inside _ _ _, fun a => trayCopied_outside _ _ _, others⟩

/-! ### Parking -/

theorem parkTray_shelfWork (core tray : Nat) (s : State) :
    (({ s with trays := trayCopied s.trays (trayKey core tray 0) (parkKey (s.tray core tray).berth core tray) } :
      State).modTray core tray (fun k => { k with owner := 0x9, parkedBy := some (s.tray core tray).berth })).shelfWork
        (parkTray core tray s) := by
  unfold parkTray trayCopied
  exact (forEach_shelfWork (programUnit_shelfWork true) _ _).trans (shelfFlags_shelfWork _)

section
variable {s : State} {core tray : Nat}

theorem execTrayParkDone_due (rests : restsPinned s core tray = true)
    (displaced : bitOf s.twc.gated core = true ∨ preemptsTray s core tray = true) :
    exec (.trayParkDone core tray) s = .next (settle (checkGating (parkTray core tray s))) :=
  if_pos (by rw [rests, Bool.true_and, Bool.or_eq_true]; exact displaced)

theorem execTrayParkDone_notDue
    (h : restsPinned s core tray = false ∨ bitOf s.twc.gated core = false ∧ preemptsTray s core tray = false) :
    exec (.trayParkDone core tray) s = .next s := by
  refine if_neg ?_
  obtain held | ⟨powered, alone⟩ := h
  · simp [held]
  · simp [powered, alone]

/-! ### The return -/

theorem execTrayRestoreDone_notDue
    (h : (s.tray core tray).parkedBy = none ∨ (s.tray core tray).owner ≠ 0x9 ∨ coreInService s core = false) :
    exec (.trayRestoreDone core tray) s = .next s := by
  change execTrayRestoreDone core tray s = _
  unfold execTrayRestoreDone
  dsimp only
  split
  next b away =>
    refine if_neg fun ⟨marked, serves⟩ => ?_
    obtain here | unmarked | out := h
    · rw [here] at away
      cases away
    · exact unmarked marked
    · rw [out] at serves
      cases serves
  next => rfl

/-- A rewrite rule of its own: left to definitional equality, the comparison of the two states would evaluate the copy of
all 131072 bytes. -/
theorem pinnedOwner_trays (s : State) (m : Memory) (b core tray : Nat) :
    pinnedOwner { s with trays := m } b core tray = pinnedOwner s b core tray := rfl

/-- A parked tray of a berth is back on its core. -/
def returnParked (b core tray : Nat) (s : State) : State :=
  (forEach (trayUnits b core tray) dropCopy
    { s with trays := trayCopied s.trays (parkKey b core tray) (trayKey core tray 0) }).modTray core tray
      (fun k => { k with owner := pinnedOwner s b core tray, berth := b, parkedBy := none })

theorem execTrayRestoreDone_due {b : Nat} (away : (s.tray core tray).parkedBy = some b)
    (marked : (s.tray core tray).owner = 0x9) (serves : coreInService s core = true) :
    exec (.trayRestoreDone core tray) s = .next (settle (returnParked b core tray s)) := by
  change execTrayRestoreDone core tray s = _
  unfold execTrayRestoreDone
  simp only [away]
  rw [if_pos ⟨marked, serves⟩, pinnedOwner_trays s, returnParked, trayCopied]

theorem returnParked_shelfWork (b core tray : Nat) (s : State) :
    (({ s with trays := trayCopied s.trays (parkKey b core tray) (trayKey core tray 0) } : State).modTray core tray
      (fun k => { k with owner := pinnedOwner s b core tray, berth := b, parkedBy := none })).shelfWork
        (returnParked b core tray s) :=
  (forEach_shelfWork dropCopy_shelfWork _ _).modTray ..

end

/-- Settles O47: a park and a return are each one copy of the tray's bytes with a change of its record; the rest is the
Shelf's work, which touches no tray and leaves the gating command in progress as it is. -/
theorem parkedTraysKeepTheirBytes : Obligations.ParkedTraysKeepTheirBytes := by
  unfold Obligations.ParkedTraysKeepTheirBytes
  refine fun s core tray b => ⟨execTrayParkDone_notDue, execTrayParkDone_due, fun owner rests displaced idle => ?parks,
    execTrayRestoreDone_notDue, fun away marked serves => ?returns⟩
  case parks =>
    have work := parkTray_shelfWork core tray s
    have command := execTrayParkDone_due rests displaced
    rw [checkGating_idle (work.domBusy.trans idle)] at command
    subst owner
    exact ⟨_, command, settle_copiedTray work⟩
  case returns =>
    exact ⟨_, execTrayRestoreDone_due away marked serves, settle_copiedTray (returnParked_shelfWork b core tray s)⟩

end Sys2Proof.Machine
end

section
/-! SUPPORT. Codewords that a channel returns (13_stacks.md R323, R330, R332, R333, R335, R339): which are ignored, delivered
or read again, and what a correction counts. -/
namespace Sys2Proof.Machine

theorem kept_chan {s t : State} (h : t.kept = s.kept) (k ch : Nat) : t.chan k ch = s.chan k ch := by
  change t.kept.chan k ch = s.kept.chan k ch
  rw [h]

theorem kept_trec {s t : State} (h : t.kept = s.kept) : t.trec = s.trec := by
  change t.kept.trec = s.kept.trec
  rw [h]

/-! ### One pin's count (R332, R333) -/

/-- The count that a pin reaches. -/
def Chan.nextCount (c : Chan) (pin : Nat) : Nat := satAdd 8 (look 0 c.counts pin) 1

theorem Chan.mark_unmarked {c : Chan} (h : c.valid = false) : c.mark = none := by simp [Chan.mark, h]

/-- The channel with the pin's new count. -/
def countedUp (k ch pin : Nat) (s : State) : State :=
  let n := (s.chan k ch).nextCount pin
  s.modChan k ch (fun x => { x with counts := put 0 x.counts pin n })

theorem countedUp_chan (k ch pin : Nat) (s : State) : (countedUp k ch pin s).chan k ch =
    { s.chan k ch with counts := put 0 (s.chan k ch).counts pin ((s.chan k ch).nextCount pin) } := modChan_chan ..

theorem modChan_markThresh (s : State) (k ch : Nat) (f : Chan → Chan) :
    ((s.modChan k ch f).stack k).markThresh = (s.stack k).markThresh := by
  simp [State.modChan]

section
variable {s : State} {k ch pin : Nat}

theorem countPin_own (own : (s.chan k ch).mark = some pin) : countPin k ch pin s = s := if_pos own

theorem countPin_below (other : (s.chan k ch).mark ≠ some pin)
    (below : (s.chan k ch).nextCount pin < (s.stack k).markThresh) : countPin k ch pin s = countedUp k ch pin s :=
  (if_neg other).trans (if_pos (by rwa [modChan_markThresh]))

theorem countedUp_reached (reached : (s.stack k).markThresh ≤ (s.chan k ch).nextCount pin) :
    ¬ (s.chan k ch).nextCount pin < ((countedUp k ch pin s).stack k).markThresh := by
  rw [countedUp, modChan_markThresh]
  exact Nat.not_lt.mpr reached

/-- The threshold is reached where another pin is marked: SECOND is set, and reported once. -/
theorem countPin_again (other : (s.chan k ch).mark ≠ some pin) (valid : (s.chan k ch).valid = true)
    (reached : (s.stack k).markThresh ≤ (s.chan k ch).nextCount pin) : (countPin k ch pin s).kept =
      ((countedUp k ch pin s).modChan k ch (fun x => { x with second := true })).kept := by
  rw [show countPin k ch pin s = _ from (if_neg other).trans ((if_neg (countedUp_reached reached)).trans (if_pos valid))]
  dsimp only
  split
  · rfl
  · exact makeRecord_kept ..

theorem countPin_marks (unmarked : (s.chan k ch).valid = false)
    (reached : (s.stack k).markThresh ≤ (s.chan k ch).nextCount pin) : countPin k ch pin s =
      keepMark k ch ((countedUp k ch pin s).modChan k ch
        (fun x => { x with valid := true, pin := pin, auto := true, counts := [] })) := by
  have other : (s.chan k ch).mark ≠ some pin := by simp [Chan.mark_unmarked unmarked]
  exact (if_neg other).trans ((if_neg (countedUp_reached reached)).trans (if_neg (by simp [unmarked])))

theorem countPin_again_chan (other : (s.chan k ch).mark ≠ some pin) (valid : (s.chan k ch).valid = true)
    (reached : (s.stack k).markThresh ≤ (s.chan k ch).nextCount pin) : (countPin k ch pin s).chan k ch =
      { s.chan k ch with counts := put 0 (s.chan k ch).counts pin ((s.chan k ch).nextCount pin), second := true } := by
  rw [kept_chan (countPin_again other valid reached), modChan_chan, countedUp_chan]

theorem countPin_marks_chan (unmarked : (s.chan k ch).valid = false)
    (reached : (s.stack k).markThresh ≤ (s.chan k ch).nextCount pin) : (countPin k ch pin s).chan k ch =
      { s.chan k ch with valid := true, pin := pin, auto := true, counts := [] } := by
  have recorded : ∀ t : State, (keepMark k ch t).chan k ch = t.chan k ch := fun _ => rfl
  rw [countPin_marks unmarked reached, recorded, modChan_chan, countedUp_chan]

/-- The record of the part holds the mark (R334). -/
theorem countPin_marks_trec (unmarked : (s.chan k ch).valid = false)
    (reached : (s.stack k).markThresh ≤ (s.chan k ch).nextCount pin) : (countPin k ch pin s).trec =
      { s.trec with pinMarks := put (0, false) s.trec.pinMarks (k * 64 + ch) (pin + 1, true) } := by
  have recorded : ∀ t : State, (t.chan k ch).valid = true → (keepMark k ch t).trec = { t.trec with
      pinMarks := put (0, false) t.trec.pinMarks (k * 64 + ch) ((t.chan k ch).pin + 1, (t.chan k ch).auto) } :=
    fun t h => by simp only [keepMark, modTrec_trec, h, if_true]
  rw [countPin_marks unmarked reached, recorded _ (by rw [modChan_chan]), modChan_chan]
  rfl

end

theorem countPin_lastPin (k ch pin : Nat) (s : State) :
    ((countPin k ch pin s).chan k ch).lastPin = (s.chan k ch).lastPin := by
  by_cases own : (s.chan k ch).mark = some pin
  · rw [countPin_own own]
  by_cases below : (s.chan k ch).nextCount pin < (s.stack k).markThresh
  · rw [countPin_below own below, countedUp_chan]
  have reached := Nat.not_lt.mp below
  cases valid : (s.chan k ch).valid with
  | true => rw [countPin_again_chan own valid reached]
  | false => rw [countPin_marks_chan valid reached]

/-! ### A corrected codeword (R332, Table 13.8) -/

/-- The pin of a correction's symbols, where they share one. -/
def sharedPin (syms : List Nat) : Nat := if (syms.map (· / 2)).eraseDups.length = 1 then syms.headD 0 / 2 else 31

/-- The channel counts the codeword, and notes its pin. -/
def noteCorrection (k ch : Nat) (syms : List Nat) (s : State) : State :=
  s.modChan k ch (fun x => { x with corrected := satAdd 32 x.corrected 1, lastPin := sharedPin syms })

theorem noteCorrection_chan (k ch : Nat) (syms : List Nat) (s : State) : (noteCorrection k ch syms s).chan k ch =
    { s.chan k ch with corrected := satAdd 32 (s.chan k ch).corrected 1, lastPin := sharedPin syms } := modChan_chan ..

theorem countCorrected_none (k ch : Nat) (s : State) : countCorrected k ch [] s = s := rfl

theorem countCorrected_one (k ch x : Nat) (s : State) :
    countCorrected k ch [x] s = countPin k ch (x / 2) (noteCorrection k ch [x] s) := rfl

theorem countCorrected_some {syms : List Nat} (h : syms ≠ []) (k ch : Nat) (s : State) : countCorrected k ch syms s =
    forEach (syms.map (· / 2)).eraseDups (countPin k ch) (noteCorrection k ch syms s) := by
  obtain ⟨x, xs, rfl⟩ := List.exists_cons_of_ne_nil h
  unfold countCorrected noteCorrection sharedPin
  rw [if_neg h, List.map_cons, List.eraseDups_cons]
  cases ((xs.map (· / 2)).filter (fun b => !b == x / 2)).eraseDups with
  | nil => rfl
  | cons => rfl

theorem countCorrected_contents (k ch : Nat) (syms : List Nat) (s : State) :
    (countCorrected k ch syms s).contents = s.contents := by
  by_cases h : syms = []
  · rw [h, countCorrected_none]
  · exact congrArg Prod.fst (countCorrected_counts h k ch s)

theorem countCorrected_corrected {syms : List Nat} (h : syms ≠ []) (k ch : Nat) (s : State) :
    ((countCorrected k ch syms s).chan k ch).corrected = satAdd 32 (s.chan k ch).corrected 1 :=
  congrArg (fun c => c.2.2) (countCorrected_counts h k ch s)

theorem countCorrected_lastPin {syms : List Nat} (h : syms ≠ []) (k ch : Nat) (s : State) :
    ((countCorrected k ch syms s).chan k ch).lastPin = sharedPin syms := by
  rw [countCorrected_some h]
  refine (forEach_same (fun t => (t.chan k ch).lastPin) _ (fun pin t => countPin_lastPin k ch pin t) _ _).trans ?_
  rw [noteCorrection_chan]

/-! ### The codeword's outcomes (R330, R335) -/

section
variable {s : State} {k ch pa : Nat} {rx : BitVec 288}

theorem channelReturn_ignored (h : channelOf s k ch pa = false ∨ rx = poisonWord) (source : Nat) :
    channelReturn k ch pa source rx s = s := if_pos (by simpa using h)

theorem channelReturn_lost (here : channelOf s k ch pa = true) (good : rx ≠ poisonWord)
    (lost : decodeWord (s.chan k ch).mark rx = none) (source : Nat) : channelReturn k ch pa source rx s =
      (undelivered (pa / 32) s).modChan k ch (fun x => { x with rereads := x.rereads ++ [(pa / 32, source)] }) := by
  simp [channelReturn, here, good, lost]

theorem channelReturn_decoded {d : List Byte} {syms : List Nat} (here : channelOf s k ch pa = true) (good : rx ≠ poisonWord)
    (decoded : decodeWord (s.chan k ch).mark rx = some (d, syms)) (source : Nat) : channelReturn k ch pa source rx s =
      deliver (pa / 32) source d (syms ≠ []) (countCorrected k ch syms s) := by
  simp [channelReturn, here, good, decoded]

end

theorem deliver_chan (u source : Nat) (d : List Byte) (corrected : Bool) (s : State) (k ch : Nat) :
    (deliver u source d corrected s).chan k ch = s.chan k ch := by rw [deliver_shape]; rfl

theorem deliver_trec (u source : Nat) (d : List Byte) (corrected : Bool) (s : State) :
    (deliver u source d corrected s).trec = s.trec := by rw [deliver_shape]

/-- Settles O40: a codeword that decodes is counted, then delivered; the count is one pin's where one symbol was wrong. -/
theorem stackCodewordsAreCounted : Obligations.StackCodewordsAreCounted := by
  unfold Obligations.StackCodewordsAreCounted
  intro s k ch pa source rx c hc
  have command : exec c s = .next (channelReturn k ch pa source rx s) := by
    obtain rfl | ⟨rfl, rfl⟩ := hc
    · rfl
    · rfl
  refine ⟨fun h => command.trans (by rw [channelReturn_ignored h]), fun here good => ⟨fun lost => ?lost,
    fun d syms decoded => ⟨?decoded, fun x n one count => ?one⟩⟩⟩
  case lost =>
    rw [channelReturn_lost here good lost] at command
    exact ⟨_, command, rfl, (modChan_only (undelivered (pa / 32) s) k ch _).2, modChan_chan ..⟩
  case decoded =>
    rw [channelReturn_decoded here good decoded] at command
    have len := decodeWord_length decoded
    have contents := countCorrected_contents k ch syms s
    simp only [State.contents, Prod.mk.injEq] at contents
    obtain ⟨hmem, hunits, hdel, htrays, hsyncs, hruns, hqueues⟩ := contents
    refine ⟨_, command, ?_, ?_, ?_, ?_, ?_, fun x => ?_, fun x => ?_, fun h => ?_, fun h => ?_⟩
    · rw [deliver_shape]; exact hunits
    · rw [deliver_shape]; exact htrays
    · rw [deliver_shape]; exact hsyncs
    · rw [deliver_shape]; exact hruns
    · rw [deliver_shape]; exact hqueues
    · rw [deliver_memByte len]
      exact if_congr Iff.rfl rfl (memByte_congr (congrArg _ hdel) (congrArg (rdByte · x) hmem))
    · rw [deliver_mem len, hunits, hmem]
      exact if_congr (by rw [decide_eq_true_eq, and_left_comm]) rfl rfl
    · rw [deliver_shape, h]
      exact ⟨rfl, rfl⟩
    · rw [deliver_chan]
      exact ⟨countCorrected_corrected h k ch s, countCorrected_lastPin h k ch s⟩
  case one =>
    subst one count
    rw [channelReturn_decoded here good decoded, countCorrected_one] at command
    have noted := noteCorrection_chan k ch [x] s
    have thresh : ((noteCorrection k ch [x] s).stack k).markThresh = (s.stack k).markThresh := modChan_markThresh ..
    have trec : (noteCorrection k ch [x] s).trec = s.trec := rfl
    refine ⟨_, command, ?_⟩
    dsimp only
    rw [deliver_chan, deliver_trec]
    generalize noteCorrection k ch [x] s = v at noted thresh trec
    rw [← thresh, ← trec]
    refine ⟨fun own => ?_, fun other below => ?_, fun other valid reached => ?_, fun unmarked reached => ?_⟩
    · rw [countPin_own (by rw [noted]; exact own)]
      exact ⟨rfl, noted⟩
    · rw [countPin_below (by rw [noted]; exact other) (by rw [noted]; exact below), countedUp_chan, noted]
      exact ⟨rfl, rfl⟩
    · rw [countPin_again_chan (by rw [noted]; exact other) (by rw [noted]; exact valid) (by rw [noted]; exact reached),
        noted]
      rfl
    · have valid : (v.chan k ch).valid = false := by rw [noted]; exact unmarked
      have due : (v.stack k).markThresh ≤ (v.chan k ch).nextCount (x / 2) := by rw [noted]; exact reached
      rw [countPin_marks_trec valid due, countPin_marks_chan valid due, noted]
      exact ⟨rfl, rfl⟩

end Sys2Proof.Machine
end

section
/-! SUPPORT. The thermal rule (13_stacks.md R341, R342; 19_tidewatch.md R456): what a kill leaves of the registers that the
control loop works on, and the rule of one stack and its cluster among those of the others. -/
namespace Sys2Proof.Machine

/-! ### What a kill leaves of the loop's registers -/

/-- A cluster without the status of its Stripe engine, which a kill stops. -/
def Cluster.unstriped (c : Cluster) : Cluster := { c with strBusy := false, strStolen := false, strZc := false }

/-- The registers that the control loop works on. -/
def State.loopRegs (s : State) : Glb × Tbl Stack × Tbl TwcHalf × Twc × (Nat → Cluster) :=
  (s.glb, s.stks, s.twcH, s.twc, fun k => (s.cluster k).unstriped)

theorem setCluster_loopRegs {s : State} {k : Nat} {v : Cluster} (h : v.unstriped = (s.cluster k).unstriped) :
    (s.setCluster k v).loopRegs = s.loopRegs := by
  have same : ∀ j, ((s.setCluster k v).cluster j).unstriped = (s.cluster j).unstriped := by
    intro j
    rw [setCluster_cluster]
    split
    · next e => rw [e, h]
    · rfl
  simp only [State.loopRegs, same]
  rfl

theorem sent_loopRegs {s t : State} (h : s.sent t) : t.loopRegs = s.loopRegs := by rw [h]; rfl

theorem settle_loopRegs (s : State) : (settle s).loopRegs = s.loopRegs := by rw [(settle_readiness s).1]; rfl

theorem idleEngine_loopRegs (o : Op) (w : Work) (s : State) : (idleEngine o w s).loopRegs = s.loopRegs := by
  unfold idleEngine
  split
  · rfl
  · split
    · rfl
    · rfl
    · rfl
    · exact setCluster_loopRegs rfl
    · rfl

theorem idleUnit_loopRegs (i : Inst) (s : State) : (idleUnit i s).loopRegs = s.loopRegs := by
  unfold idleUnit
  split
  · rfl
  · rfl
  · rfl

theorem stopEngines_loopRegs (q : Nat) (s : State) : (stopEngines q s).loopRegs = s.loopRegs := by
  unfold stopEngines
  dsimp only
  refine (forEach_same State.loopRegs _ ?_ _ _).trans
    (forEach_same State.loopRegs (fun i t => idleUnit i (forEach i.work (idleEngine i.op) t)) (fun i t => ?_) _ _)
  · intro _ _; rfl
  · exact (idleUnit_loopRegs i _).trans (forEach_same State.loopRegs _ (idleEngine_loopRegs i.op) _ _)

theorem freeScratch_loopRegs (q : Nat) (s : State) : (freeScratch q s).loopRegs = s.loopRegs := by
  unfold freeScratch
  dsimp only
  split
  · rfl
  · refine (forEach_same State.loopRegs _ (fun u t => ?_) _ _).trans rfl
    split
    · rfl
    · rfl

theorem killRun_loopRegs (q code detail word : Nat) (g : Option Nat) (s : State) :
    (killRun q code detail word g s).loopRegs = s.loopRegs := by
  unfold killRun
  dsimp only
  have stopped : (freeScratch q (stopEngines q s)).loopRegs = s.loopRegs :=
    (freeScratch_loopRegs q _).trans (stopEngines_loopRegs q s)
  generalize freeScratch q (stopEngines q s) = u at stopped
  refine (forEach_same State.loopRegs _ (fun g t => ?_) _ _).trans stopped
  split
  · rfl
  · exact (sent_loopRegs (sendAbort_sent ..)).trans rfl

theorem killQueue_loopRegs (q detail : Nat) (s : State) : (killQueue q detail s).loopRegs = s.loopRegs := by
  unfold killQueue
  dsimp only
  split
  · cases landed : (s.run q).landed with
    | true => simp [faultRun, landed]
    | false =>
      rw [faultRun_kill landed]
      exact (settle_loopRegs _).trans (killRun_loopRegs q 5 (detail % 256) _ none s)
  · rfl

/-! ### Cores gated one after the other -/

theorem gateCore_loopRegs (c : Nat) (s : State) : (gateCore c s).loopRegs = (setGated c true s).loopRegs := by
  have killed : (killAll (crewQueues s [c]) 2 s).loopRegs = s.loopRegs :=
    forEach_same State.loopRegs _ (fun q t => killQueue_loopRegs q 2 t) _ s
  simp only [State.loopRegs, Prod.mk.injEq] at killed ⊢
  obtain ⟨glb, stks, halves, twc, clusters⟩ := killed
  exact ⟨glb, stks, halves, congrArg (fun t => { t with
    gated := setBit t.gated c true, ungating := t.ungating.filter (· ≠ c) }) twc, clusters⟩

/-- Tidewatch's registers with some cores gated. -/
def Twc.gateAll (cores : List Nat) (t : Twc) : Twc :=
  { t with gated := cores.foldl (fun g c => setBit g c true) t.gated, ungating := t.ungating.filter (fun c => c ∉ cores) }

/-- Gating cores ends their kernels, and changes of the loop's registers the domains' alone. -/
theorem gateCores_loopRegs (cores : List Nat) (s : State) :
    (forEach cores gateCore s).loopRegs = (s.modTwc (Twc.gateAll cores)).loopRegs := by
  induction cores generalizing s with
  | nil => simp [forEach_nil, State.loopRegs, Twc.gateAll, State.modTwc, State.cluster]
  | cons c cores ih =>
    have first := gateCore_loopRegs c s
    rw [forEach_cons, ih]
    simp only [State.loopRegs, Prod.mk.injEq] at first ⊢
    obtain ⟨glb, stks, halves, twc, clusters⟩ := first
    refine ⟨glb, stks, halves, ?_, clusters⟩
    simp only [modTwc_twc, twc, Twc.gateAll, setGated, List.foldl_cons, List.filter_filter]
    congr 2
    funext x
    simp [Bool.and_comm]

theorem foldl_setBit {w : Nat} (v : BitVec w) (l : List Nat) (i : Nat) :
    bitOf (l.foldl (fun g c => setBit g c true) v) i = (bitOf v i || decide (i ∈ l ∧ i < w)) := by
  induction l generalizing v with
  | nil => simp
  | cons c l ih =>
    rw [List.foldl_cons, ih, bitOf_setBit]
    by_cases h : i = c
    · subst h
      by_cases hw : i < w
      · simp [hw]
      · simp [hw, bitOf, BitVec.getLsbD_of_ge, Nat.le_of_not_lt]
    · simp [h]

/-! ### The thermal rule of one stack and its cluster (R341, R342) -/

/-- The next stage of a stack or a cluster, of `top` at 105 °C and above. -/
def thermalLevel (x : Stack) (hot m top : Nat) : Nat :=
  if hot ≥ 420 then top else if hot ≥ 4 * x.tHi then min (m + 1) top else if hot ≤ 4 * x.tLo then m - 1 else m

/-- The rule's step of the thermal values, before cores are gated or released. -/
def thermalStep (k : Nat) (s : State) : State :=
  let level := thermalLevel (s.stack k) (hottest s k)
  ((s.modStack k (fun y => { y with doubleRefresh := decide (y.temp > 340) })).modCluster k
    (fun c => { c with mTherm := level c.mTherm 12 })).modStack k (fun y => { y with stkM := level y.stkM 8 })

theorem thermalStep_stack (k j : Nat) (s : State) : (thermalStep k s).stack j = if j = k then { s.stack k with
    doubleRefresh := decide ((s.stack k).temp > 340), stkM := thermalLevel (s.stack k) (hottest s k) (s.stack k).stkM 8 }
    else s.stack j := by
  simp only [thermalStep, modStack_eq, modCluster_eq, setStack_stack, setCluster_stack]
  split
  · rfl
  · rfl

theorem thermalStep_cluster (k j : Nat) (s : State) : (thermalStep k s).cluster j = if j = k then { s.cluster k with
    mTherm := thermalLevel (s.stack k) (hottest s k) (s.cluster k).mTherm 12 } else s.cluster j := setCluster_cluster ..

theorem thermalRule_eq (k : Nat) (s : State) : thermalRule k s =
    if (decide (hottest s k ≥ 420) && !(s.stack k).crit) = true then thermalGate k (thermalStep k s)
    else if ((s.stack k).crit && decide (hottest s k ≤ 4 * (s.stack k).tLo)) = true then
      thermalRelease k (thermalStep k s)
    else thermalStep k s := by
  have level : thermalLevel (s.stack k) (hottest s k) = fun m top => if decide (hottest s k ≥ 420) = true then top
      else if decide (hottest s k ≥ 4 * (s.stack k).tHi) = true then min (m + 1) top
      else if decide (hottest s k ≤ 4 * (s.stack k).tLo) = true then m - 1 else m := by
    funext m top
    simp only [thermalLevel, decide_eq_true_eq]
  unfold thermalStep
  rw [level]
  rfl

/-! ### What the rule leaves of the part -/

/-- From s to t, of what the loop reads and the part keeps, only what a run of the thermal rule may change differs: pending
vectors, counts of records, the record ring, and cores that go out of service or start to come back. -/
structure State.ruled (s t : State) : Prop where
  glb : t.glb = { s.glb with msix := t.glb.msix }
  half : ∀ i, t.half i = { s.half i with recSeq := (t.half i).recSeq }
  twc : t.twc = { s.twc with
    gated := t.twc.gated, ungating := t.twc.ungating, prod := t.twc.prod, ringDropped := t.twc.ringDropped }
  gated : ∀ c, bitOf s.twc.gated c = true → bitOf t.twc.gated c = true

theorem State.ruled.refl (s : State) : s.ruled s := ⟨rfl, fun _ => rfl, rfl, fun _ => id⟩

theorem State.ruled.trans {s t u : State} (h : s.ruled t) (k : t.ruled u) : s.ruled u :=
  ⟨by rw [k.glb, h.glb], fun i => by rw [k.half, h.half], by rw [k.twc, h.twc], fun c => k.gated c ∘ h.gated c⟩

theorem ruled_of_halves {s t : State} (glb : t.glb = s.glb) (halves : t.twcH = s.twcH)
    (twc : t.twc = { s.twc with gated := t.twc.gated, ungating := t.twc.ungating })
    (gated : ∀ c, bitOf s.twc.gated c = true → bitOf t.twc.gated c = true) : s.ruled t :=
  ⟨by rw [glb], fun i => by rw [State.half, halves]; rfl, by rw [twc], gated⟩

theorem State.recorded.gated {s t : State} (h : s.recorded t) : t.twc.gated = s.twc.gated := by rw [h.twc]
theorem State.recorded.ungating {s t : State} (h : s.recorded t) : t.twc.ungating = s.twc.ungating := by rw [h.twc]
theorem State.recorded.stack {s t : State} (h : s.recorded t) (k : Nat) : t.stack k = s.stack k := by rw [h.shape]; rfl
theorem State.recorded.cluster {s t : State} (h : s.recorded t) (k : Nat) : t.cluster k = s.cluster k := by rw [h.shape]; rfl

theorem State.recorded.ruled {s t : State} (h : s.recorded t) : s.ruled t :=
  ⟨h.glb, h.half, by rw [h.twc], fun c hc => by rw [h.gated]; exact hc⟩

/-- From s to t the thermal rule ran for other stacks than k: it leaves stack k, its cluster, and what of the cluster's
cores is coming back. -/
structure State.apart (k : Nat) (s t : State) : Prop where
  ruled : s.ruled t
  stack : t.stack k = s.stack k
  cluster : (t.cluster k).unstriped = (s.cluster k).unstriped
  ungating : ∀ c ∈ s.twc.ungating, c / 8 = k → c ∈ t.twc.ungating

theorem State.apart.refl (k : Nat) (s : State) : State.apart k s s := ⟨.refl s, rfl, rfl, fun _ h _ => h⟩

theorem State.apart.trans {k : Nat} {s t u : State} (h : State.apart k s t) (g : State.apart k t u) : State.apart k s u :=
  ⟨h.ruled.trans g.ruled, g.stack.trans h.stack, g.cluster.trans h.cluster,
    fun c hc hk => g.ungating c (h.ungating c hc hk) hk⟩

theorem State.recorded.apart {s t : State} (h : s.recorded t) (k : Nat) : State.apart k s t :=
  ⟨h.ruled, h.stack k, by rw [h.cluster], fun c hc _ => by rw [h.ungating]; exact hc⟩

theorem thermalStep_ruled (k : Nat) (s : State) : s.ruled (thermalStep k s) := ruled_of_halves rfl rfl rfl fun _ => id

/-! ### Cores gated (R341) -/

/-- The cores of a cluster that are in service, or come back. -/
def openCores (k : Nat) (s : State) : List Nat :=
  (clusterCores k).filter (fun c => !bitOf s.twc.gated c || s.twc.ungating.contains c)

theorem mem_clusterCores {k c : Nat} : c ∈ clusterCores k ↔ c / 8 = k := by
  simp only [clusterCores, List.mem_map, List.mem_range]
  constructor
  · rintro ⟨i, hi, rfl⟩
    omega
  · intro h
    exact ⟨c % 8, by omega, by omega⟩

/-- The cluster's cores are gated, and noted as held. -/
def coresHeld (k : Nat) (s : State) : State :=
  let cores := openCores k s
  ((forEach cores gateCore s).modCluster k (fun c => { c with held := cores })).modStack k (fun t => { t with crit := true })

theorem thermalGate_recorded (k : Nat) (s : State) : (coresHeld k s).recorded (thermalGate k s) := makeRecord_recorded ..

theorem coresHeld_regs (k : Nat) (s : State) : (coresHeld k s).glb = s.glb ∧ (coresHeld k s).twcH = s.twcH ∧
    (coresHeld k s).twc = s.twc.gateAll (openCores k s) ∧
    (∀ j, (coresHeld k s).stack j = if j = k then { s.stack k with crit := true } else s.stack j) ∧
    ∀ j, ((coresHeld k s).cluster j).unstriped =
      if j = k then { (s.cluster k).unstriped with held := openCores k s } else (s.cluster j).unstriped := by
  have gated := gateCores_loopRegs (openCores k s) s
  unfold coresHeld
  dsimp only
  generalize forEach (openCores k s) gateCore s = u at gated
  simp only [State.loopRegs, Prod.mk.injEq] at gated
  obtain ⟨glb, stks, halves, twc, clusters⟩ := gated
  have stack : ∀ j, u.stack j = s.stack j := fun j => congrArg (fun t => look ({} : Stack) t j) stks
  have cluster : ∀ j, (u.cluster j).unstriped = (s.cluster j).unstriped := fun j => congrFun clusters j
  refine ⟨glb, halves, twc, fun j => ?_, fun j => ?_⟩
  · simp only [modStack_eq, modCluster_eq, setStack_stack, setCluster_stack, stack]
  · simp only [modStack_eq, modCluster_eq, setStack_cluster, setCluster_cluster]
    split
    · rw [← cluster k]; rfl
    · exact cluster j

theorem coresHeld_ruled (k : Nat) (s : State) : s.ruled (coresHeld k s) := by
  obtain ⟨glb, halves, twc, -⟩ := coresHeld_regs k s
  refine ruled_of_halves glb halves (by rw [twc]; rfl) fun c hc => ?_
  rw [twc, Twc.gateAll, foldl_setBit, hc, Bool.true_or]

theorem coresHeld_apart {j k : Nat} (h : j ≠ k) (s : State) : State.apart j s (coresHeld k s) := by
  obtain ⟨-, -, twc, stack, cluster⟩ := coresHeld_regs k s
  refine ⟨coresHeld_ruled k s, by rw [stack, if_neg h], by rw [cluster, if_neg h], fun c hc own => ?_⟩
  have other : c ∉ openCores k s := fun hm => h (own.symm.trans (mem_clusterCores.mp (List.mem_filter.mp hm).1))
  rw [twc]
  exact List.mem_filter.mpr ⟨hc, by simpa using other⟩

/-- Every core of the cluster is then out of service. -/
theorem coresHeld_gated {k : Nat} (hk : k < 32) (s : State) {c : Nat} (hc : c / 8 = k) :
    bitOf (coresHeld k s).twc.gated c = true := by
  obtain ⟨-, -, twc, -⟩ := coresHeld_regs k s
  rw [twc, Twc.gateAll, foldl_setBit]
  by_cases gated : bitOf s.twc.gated c = true
  · rw [gated, Bool.true_or]
  · have isOpen : c ∈ openCores k s := List.mem_filter.mpr ⟨mem_clusterCores.mpr hc, by simp [gated]⟩
    simp [isOpen, show c < 384 by omega]

/-! ### Cores that come back (R341) -/

/-- The cores that the rule held start to come back. -/
def coresFreed (k : Nat) (s : State) : State :=
  let held := (s.cluster k).held
  ((s.modCluster k (fun c => { c with held := [] })).modTwc
    (fun t => { t with ungating := (t.ungating ++ held).eraseDups })).modStack k (fun t => { t with crit := false })

theorem thermalRelease_recorded (k : Nat) (s : State) : (coresFreed k s).recorded (thermalRelease k s) :=
  makeRecord_recorded ..

theorem coresFreed_stack (k j : Nat) (s : State) :
    (coresFreed k s).stack j = if j = k then { s.stack k with crit := false } else s.stack j := setStack_stack ..

theorem coresFreed_cluster (k j : Nat) (s : State) :
    (coresFreed k s).cluster j = if j = k then { s.cluster k with held := [] } else s.cluster j := setCluster_cluster ..

theorem coresFreed_ungating (k c : Nat) (s : State) :
    c ∈ (coresFreed k s).twc.ungating ↔ c ∈ s.twc.ungating ∨ c ∈ (s.cluster k).held :=
  List.mem_eraseDups.trans List.mem_append

theorem coresFreed_ruled (k : Nat) (s : State) : s.ruled (coresFreed k s) := ruled_of_halves rfl rfl rfl fun _ => id

theorem coresFreed_apart {j k : Nat} (h : j ≠ k) (s : State) : State.apart j s (coresFreed k s) :=
  ⟨coresFreed_ruled k s, by rw [coresFreed_stack, if_neg h], by rw [coresFreed_cluster, if_neg h],
    fun c hc _ => (coresFreed_ungating k c s).mpr (.inl hc)⟩

/-! ### The rule among those of the other stacks -/

theorem thermalRule_apart {j k : Nat} (h : j ≠ k) (s : State) : State.apart j s (thermalRule k s) := by
  have stepped : State.apart j s (thermalStep k s) :=
    ⟨thermalStep_ruled k s, by rw [thermalStep_stack, if_neg h], by rw [thermalStep_cluster, if_neg h], fun _ hc _ => hc⟩
  rw [thermalRule_eq]
  split
  · exact stepped.trans ((coresHeld_apart h _).trans ((thermalGate_recorded k _).apart j))
  · split
    · exact stepped.trans ((coresFreed_apart h _).trans ((thermalRelease_recorded k _).apart j))
    · exact stepped

/-- What a run of the rule for a stack leaves of the part, seen from any other. -/
theorem thermalRule_ruled (k : Nat) (s : State) : s.ruled (thermalRule k s) := (thermalRule_apart k.succ_ne_self s).ruled

/-- What the thermal rule of stack k makes of it and of its cluster. -/
structure State.thermal (k : Nat) (s t : State) : Prop where
  ruled : s.ruled t
  stack : t.stack k = { s.stack k with
    doubleRefresh := decide ((s.stack k).temp > 340), stkM := thermalLevel (s.stack k) (hottest s k) (s.stack k).stkM 8
    crit := if (s.stack k).crit then decide (4 * (s.stack k).tLo < hottest s k) else decide (420 ≤ hottest s k) }
  cluster : (t.cluster k).unstriped = { (s.cluster k).unstriped with
    mTherm := thermalLevel (s.stack k) (hottest s k) (s.cluster k).mTherm 12, held := (t.cluster k).held }
  gated : 420 ≤ hottest s k → (s.stack k).crit = false → ∀ c, c / 8 = k → bitOf t.twc.gated c = true
  freed : hottest s k ≤ 4 * (s.stack k).tLo → (s.stack k).crit = true → ∀ c ∈ (s.cluster k).held, c / 8 = k →
    c ∈ t.twc.ungating

theorem thermalRule_thermal {k : Nat} (hk : k < 32) (s : State) : State.thermal k s (thermalRule k s) := by
  have stack : (thermalStep k s).stack k = _ := (thermalStep_stack k k s).trans (if_pos rfl)
  have cluster : (thermalStep k s).cluster k = _ := (thermalStep_cluster k k s).trans (if_pos rfl)
  have ruled := thermalStep_ruled k s
  rw [thermalRule_eq]
  generalize thermalStep k s = u at stack cluster ruled
  split
  next gates =>
    simp only [Bool.and_eq_true, decide_eq_true_eq, Bool.not_eq_true'] at gates
    obtain ⟨hot, cool⟩ := gates
    have recorded := thermalGate_recorded k u
    obtain ⟨-, -, twc, held, striped⟩ := coresHeld_regs k u
    refine ⟨(ruled.trans (coresHeld_ruled k u)).trans recorded.ruled, ?_, ?_, fun _ _ c hc => ?_, fun _ crit => ?_⟩
    · rw [recorded.stack, held, if_pos rfl, stack]
      simp [cool, hot]
    · have noted : ((coresHeld k u).cluster k).held = openCores k u :=
        congrArg Cluster.held ((striped k).trans (if_pos rfl))
      rw [recorded.cluster, striped, if_pos rfl, cluster, noted]
      rfl
    · rw [recorded.gated]
      exact coresHeld_gated hk u hc
    · rw [cool] at crit
      cases crit
  next stays =>
    split
    next frees =>
      simp only [Bool.and_eq_true, decide_eq_true_eq] at frees
      obtain ⟨crit, low⟩ := frees
      have recorded := thermalRelease_recorded k u
      refine ⟨(ruled.trans (coresFreed_ruled k u)).trans recorded.ruled, ?_, ?_, fun _ cool => ?_, fun _ _ c hc _ => ?_⟩
      · rw [recorded.stack, coresFreed_stack, if_pos rfl, stack]
        simp [crit, low]
      · rw [recorded.cluster, coresFreed_cluster, if_pos rfl, cluster]
        rfl
      · rw [crit] at cool
        cases cool
      · rw [recorded.ungating, coresFreed_ungating, cluster]
        exact .inr hc
    next warm =>
      refine ⟨ruled, ?_, ?_, fun hot cool => ?_, fun low crit => ?_⟩
      · have same : (s.stack k).crit = if (s.stack k).crit then decide (4 * (s.stack k).tLo < hottest s k)
            else decide (420 ≤ hottest s k) := by
          cases crit : (s.stack k).crit with
          | true => simpa [crit] using warm
          | false => simpa [crit] using stays
        rw [stack, ← same]
      · rw [cluster]
        rfl
      · exact absurd (by simp [hot, cool]) stays
      · exact absurd (by simp [low, crit]) warm

/-- What the loop reads of a cluster is not the status of its Stripe engine. -/
theorem unstriped_values {c d : Cluster} (h : c.unstriped = d.unstriped) :
    c.temp = d.temp ∧ c.mTherm = d.mTherm ∧ c.mCap = d.mCap ∧ c.held = d.held :=
  ⟨(congrArg Cluster.temp h :), (congrArg Cluster.mTherm h :), (congrArg Cluster.mCap h :), (congrArg Cluster.held h :)⟩

theorem hottest_congr {k : Nat} {s t : State} (stack : t.stack k = s.stack k)
    (cluster : (t.cluster k).unstriped = (s.cluster k).unstriped) : hottest t k = hottest s k := by
  rw [hottest, hottest, stack, (unstriped_values cluster).1]

/-- The rule of other stacks, before and after, leaves what the rule of this one makes. -/
theorem State.thermal.between {k : Nat} {s t u v : State} (before : State.apart k s t) (own : State.thermal k t u)
    (after : State.apart k u v) : State.thermal k s v := by
  obtain ⟨ruled, stack, cluster, gated, freed⟩ := own
  have temp := hottest_congr before.stack before.cluster
  obtain ⟨-, stage, -, held⟩ := unstriped_values before.cluster
  obtain ⟨-, -, -, noted⟩ := unstriped_values after.cluster
  rw [before.stack, temp] at stack gated freed
  rw [before.stack, before.cluster, temp, stage] at cluster
  rw [held] at freed
  exact ⟨(before.ruled.trans ruled).trans after.ruled, after.stack.trans stack,
    after.cluster.trans (by rw [cluster, noted]),
    fun hot cool c hc => after.ruled.gated c (gated hot cool c hc),
    fun low crit c hc hk => after.ungating c (freed low crit c hc hk) hk⟩

end Sys2Proof.Machine
end

section
/-! SUPPORT. The control loop of a half (19_tidewatch.md R455, R456, R458, R459): a run latches the sensors, runs the thermal
rule of each stack, applies the power rule and writes the clock stages; an over-current throttles the half. The steps of a run
are kept folded: where two states are compared, a variable stands for the loop over the half's units that made them. -/
namespace Sys2Proof.Machine

/-! ### The rule of a half (R28, R456) -/

/-- The stacks of a half, which are numbered as its clusters. -/
def halfStacks (half : Nat) : List Nat := (List.range 16).map (· + 16 * half)

theorem mem_halfStacks {half k : Nat} : k ∈ halfStacks half ↔ k / 16 = half := by
  simp only [halfStacks, List.mem_map, List.mem_range]
  constructor
  · rintro ⟨i, hi, rfl⟩
    omega
  · intro h
    exact ⟨k % 16, by omega, by omega⟩

theorem halfStacks_nodup (half : Nat) : (halfStacks half).Nodup :=
  List.nodup_range.map fun _ _ h => Nat.add_right_cancel h

/-- The rule runs for each stack of a half that is not fenced. -/
def rulesRun (half : Nat) (s : State) : State := if s.fenced half then s else forEach (halfStacks half) thermalRule s

theorem rulesRun_fenced {half : Nat} {s : State} (h : s.fenced half = true) : rulesRun half s = s := if_pos h

theorem rulesRun_open {half : Nat} {s : State} (h : s.fenced half = false) :
    rulesRun half s = forEach (halfStacks half) thermalRule s := if_neg (by simp [h])

theorem rulesRun_ruled (half : Nat) (s : State) : s.ruled (rulesRun half s) := by
  unfold rulesRun
  split
  · exact .refl s
  · exact forEach_rel (R := State.ruled) .refl (fun _ _ _ => .trans) thermalRule thermalRule_ruled _ s

theorem rulesRun_thermal {half k : Nat} (hh : half < 2) (hk : k / 16 = half) {s : State} (h : s.fenced half = false) :
    State.thermal k s (rulesRun half s) := by
  rw [rulesRun_open h]
  obtain ⟨u, before, after⟩ := forEach_at (State.apart.refl k) (fun _ _ _ => State.apart.trans) (halfStacks_nodup half)
    (mem_halfStacks.mpr hk) (fun j hj t => thermalRule_apart hj.symm t) s
  exact .between before (thermalRule_thermal (by omega) u) after

/-- Where no core is gated or released, the rule steps the thermal values alone. -/
theorem thermalRule_quiet {k : Nat} {s : State} (cool : (s.stack k).crit = false) (low : hottest s k < 420) :
    thermalRule k s = thermalStep k s := by
  rw [thermalRule_eq, if_neg (by simp [low]), if_neg (by simp [cool])]

theorem thermalStep_crit (k j : Nat) (s : State) : ((thermalStep k s).stack j).crit = (s.stack j).crit := by
  rw [thermalStep_stack]
  split
  · next h => rw [h]
  · rfl

theorem thermalStep_hottest (k j : Nat) (s : State) : hottest (thermalStep k s) j = hottest s j := by
  rw [hottest, thermalStep_stack, thermalStep_cluster]
  split
  · next h => rw [h]; rfl
  · rfl

theorem rules_quiet (l : List Nat) {s : State} (h : ∀ k ∈ l, (s.stack k).crit = false ∧ hottest s k < 420) :
    forEach l thermalRule s = forEach l thermalStep s := by
  induction l generalizing s with
  | nil => rfl
  | cons k l ih =>
    obtain ⟨cool, low⟩ := h k List.mem_cons_self
    rw [forEach_cons, forEach_cons, thermalRule_quiet cool low]
    refine ih fun j hj => ?_
    rw [thermalStep_crit, thermalStep_hottest]
    exact h j (List.mem_cons_of_mem _ hj)

/-! ### The sensors (R456) -/

/-- The loop counts its run. -/
def runCounted (half : Nat) (s : State) : State :=
  s.modHalf half (fun t => { t with loops := wrapAdd 32 t.loops 1, sinceTelem := t.sinceTelem + 1 })

/-- The sensors of one stack and its cluster are latched. -/
def latchPair (half : Nat) (x : Sensors) (cc : Nat) (s : State) : State :=
  (s.modStack (16 * half + cc) (fun y => { y with temp := x.stack.getD cc 0 % 1024 })).modCluster (16 * half + cc)
    (fun y => { y with temp := x.cluster.getD cc 0 })

/-- From s to t stack k and its cluster are as they were. -/
def State.samePair (k : Nat) (s t : State) : Prop := t.stack k = s.stack k ∧ t.cluster k = s.cluster k

theorem latchPair_samePair {half cc k : Nat} (h : k ≠ 16 * half + cc) (x : Sensors) (s : State) :
    s.samePair k (latchPair half x cc s) := by
  refine ⟨?_, ?_⟩
  · simp [latchPair, h]
  · simp [latchPair, h]

/-- The sensors of a half's stacks and clusters are latched. -/
def latchPairs (half : Nat) (x : Sensors) (s : State) : State := forEach (List.range 16) (latchPair half x) s

theorem latchPairs_shape (half : Nat) (x : Sensors) (s : State) : latchPairs half x s = { s with
    stks := (latchPairs half x s).stks, clusters := (latchPairs half x s).clusters } :=
  forEach_rel (R := fun s t : State => t = { s with stks := t.stks, clusters := t.clusters }) (fun _ => rfl)
    (fun _ _ _ h k => by rw [k, h]) (latchPair half x) (fun _ _ => rfl) (List.range 16) s

theorem latchPairs_pair {half k cc : Nat} (hcc : cc < 16) (hk : k = 16 * half + cc) (x : Sensors) (s : State) :
    (latchPairs half x s).stack k = { s.stack k with temp := x.stack.getD cc 0 % 1024 } ∧
    (latchPairs half x s).cluster k = { s.cluster k with temp := x.cluster.getD cc 0 } := by
  obtain ⟨u, ⟨stack, cluster⟩, stack', cluster'⟩ := forEach_at (R := State.samePair k) (f := latchPair half x)
    (fun _ => ⟨rfl, rfl⟩) (fun _ _ _ h k => ⟨k.1.trans h.1, k.2.trans h.2⟩) List.nodup_range (List.mem_range.mpr hcc)
    (fun i hi t => latchPair_samePair (by omega) x t) s
  rw [latchPairs, stack', cluster', ← stack, ← cluster, hk]
  simp [latchPair]

/-- GLB with the entry's sensors latched, by the half that applies the part's power rule. -/
def entryLatched (half : Nat) (x : Sensors) (s : State) : Glb :=
  if half = partHalf s then { s.glb with vin := x.vin % 1024, iin := x.iin % 2048 } else s.glb

theorem entryLatched_eq (half : Nat) (x : Sensors) (s : State) :
    (if half = partHalf s then s.modGlb (fun g => { g with vin := x.vin % 1024, iin := x.iin % 2048 }) else s) =
      { s with glb := entryLatched half x s } := by
  unfold entryLatched
  split
  · rfl
  · rfl

theorem latch_eq (half : Nat) (x : Sensors) (s : State) : latch half x s =
    { latchPairs half x s with glb := entryLatched half x (latchPairs half x s) } := by
  rw [← entryLatched_eq]
  unfold latch latchPairs
  generalize List.range 16 = l
  rfl

theorem entryLatched_latchPairs (half : Nat) (x : Sensors) (s : State) :
    entryLatched half x (latchPairs half x s) = entryLatched half x s := by
  have glb : (latchPairs half x s).glb = s.glb := by rw [latchPairs_shape]
  rw [entryLatched, entryLatched, partHalf, partHalf, glb]

/-! ### The power rule and the stages (R458, R459) -/

theorem powerRule_part {half : Nat} {s : State} (h : ownPower s half = false) (part : half = partHalf s) (x : Sensors) :
    powerRule half x s = s.modTwc (fun t => { t with
      power := x.power % 2 ^ 16, mP := powerStep t.mP x.power t.pwrLimit t.pwrHyst }) :=
  (if_neg (by simp [h])).trans (if_pos part)

/-- The power rule and the stages, after the thermal rule of a half. -/
def stagesSet (half : Nat) (x : Sensors) (s : State) : State := writeStages half (powerRule half x s)

/-- What the power rule and the stages leave of the loop's registers. -/
structure State.staged (s t : State) : Prop where
  shape : t = { s with clusters := t.clusters, codecs := t.codecs, twcH := t.twcH, twc := t.twc }
  half : ∀ i, t.half i = { s.half i with mH := (t.half i).mH, fEff := (t.half i).fEff, sEff := (t.half i).sEff }
  twc : t.twc = { s.twc with power := t.twc.power, mP := t.twc.mP }

theorem modHalf_half (s : State) (h i : Nat) (f : TwcHalf → TwcHalf) :
    (s.modHalf h f).half i = if i = h then f (s.half h) else s.half i := setHalf_half ..

theorem powerRule_staged (half : Nat) (x : Sensors) (s : State) : s.staged (powerRule half x s) := by
  unfold powerRule
  split
  · refine ⟨rfl, fun i => ?_, rfl⟩
    rw [modHalf_half]
    split
    · next h => rw [h]
    · rfl
  · split
    · exact ⟨rfl, fun _ => rfl, rfl⟩
    · exact ⟨rfl, fun _ => rfl, rfl⟩

theorem forEach_modCodecEng (f : CodecEng → CodecEng) (l : List Nat) (s : State) :
    forEach l (fun e t => t.modCodecEng e f) s =
      { s with codecs := (forEach l (fun e t => t.modCodecEng e f) s).codecs } :=
  forEach_rel (R := fun s t : State => t = { s with codecs := t.codecs }) (fun _ => rfl)
    (fun _ _ _ h k => by rw [k, h]) _ (fun _ _ => rfl) l s

/-- The level of the power rule in force in a half. -/
def powerLevel (s : State) (half : Nat) : Nat := if ownPower s half then (s.half half).mH else s.twc.mP

/-- The stage of a cluster under the power rule's level. -/
def Cluster.staged (m : Nat) (c : Cluster) : Cluster := { c with mEff := max (max c.mTherm m) c.mCap }

/-- The stages of a half's clusters are written. -/
def clustersStaged (half : Nat) (s : State) : State :=
  forEach (halfStacks half) (fun k t => t.modCluster k (Cluster.staged (powerLevel s half))) s

/-- The stages of a half's codec engines are written. -/
def codecsStaged (half m : Nat) (s : State) : State :=
  forEach ((List.range 4).map (· + 4 * half))
    (fun e t => t.modCodecEng e (fun c => { c with mEff := max m (s.half half).kCap })) s

theorem writeStages_eq (half : Nat) (s : State) : writeStages half s =
    (codecsStaged half (powerLevel s half) (clustersStaged half s)).modHalf half
      (fun t => { t with fEff := t.fCap, sEff := t.sCap }) := by
  unfold writeStages codecsStaged clustersStaged halfStacks powerLevel
  generalize List.range 16 = l
  generalize List.range 4 = l'
  rfl

theorem clustersStaged_shape (half : Nat) (s : State) :
    clustersStaged half s = { s with clusters := (clustersStaged half s).clusters } := forEach_onlyClusters ..

theorem codecsStaged_shape (half m : Nat) (s : State) :
    codecsStaged half m s = { s with codecs := (codecsStaged half m s).codecs } := forEach_modCodecEng ..

/-- From s to t only clock stages may differ: those of clusters, of codec engines, and of a half's own clocks. -/
structure State.onlyStages (s t : State) : Prop where
  shape : t = { s with clusters := t.clusters, codecs := t.codecs, twcH := t.twcH }
  half : ∀ i, t.half i = { s.half i with fEff := (t.half i).fEff, sEff := (t.half i).sEff }

theorem State.onlyStages.trans {s t u : State} (h : s.onlyStages t) (k : t.onlyStages u) : s.onlyStages u :=
  ⟨by rw [k.shape, h.shape], fun i => by rw [k.half, h.half]⟩

theorem State.onlyStages.twc {s t : State} (h : s.onlyStages t) : t.twc = s.twc := by rw [h.shape]

theorem onlyStages_of_clusters {s t : State} (h : t = { s with clusters := t.clusters }) : s.onlyStages t :=
  ⟨by rw [h], fun i => by rw [h]; rfl⟩

theorem onlyStages_of_codecs {s t : State} (h : t = { s with codecs := t.codecs }) : s.onlyStages t :=
  ⟨by rw [h], fun i => by rw [h]; rfl⟩

theorem onlyStages_of_half (half : Nat) (s : State) :
    s.onlyStages (s.modHalf half (fun t => { t with fEff := t.fCap, sEff := t.sCap })) := by
  refine ⟨rfl, fun i => ?_⟩
  rw [modHalf_half]
  split
  · next h => rw [h]
  · rfl

theorem writeStages_only (half : Nat) (s : State) : s.onlyStages (writeStages half s) := by
  rw [writeStages_eq]
  exact ((onlyStages_of_clusters (clustersStaged_shape half s)).trans
    (onlyStages_of_codecs (codecsStaged_shape half _ _))).trans (onlyStages_of_half half _)

theorem writeStages_cluster {half k : Nat} (hk : k / 16 = half) (s : State) :
    (writeStages half s).cluster k = (s.cluster k).staged (powerLevel s half) := by
  have clusters : (codecsStaged half (powerLevel s half) (clustersStaged half s)).clusters =
      (clustersStaged half s).clusters := by
    rw [codecsStaged_shape]
  rw [writeStages_eq, modHalf_eq, setHalf_cluster, State.cluster, clusters]
  exact (forEach_modCluster (f := Cluster.staged (powerLevel s half)) (fun _ => rfl) (halfStacks half) s k).trans
    (if_pos (mem_halfStacks.mpr hk))

theorem writeStages_powerLevel (half : Nat) (s : State) : powerLevel (writeStages half s) half = powerLevel s half := by
  have only := writeStages_only half s
  rw [powerLevel, ownPower, only.half, only.twc, powerLevel, ownPower]

theorem State.staged.trans {s t u : State} (h : s.staged t) (k : t.staged u) : s.staged u :=
  ⟨by rw [k.shape, h.shape], fun i => by rw [k.half, h.half], by rw [k.twc, h.twc]⟩

theorem State.onlyStages.staged {s t : State} (h : s.onlyStages t) : s.staged t :=
  ⟨by rw [h.shape], fun i => by rw [h.half], by rw [h.twc]⟩

theorem stagesSet_staged (half : Nat) (x : Sensors) (s : State) : s.staged (stagesSet half x s) :=
  (powerRule_staged half x s).trans (writeStages_only half _).staged

theorem stagesSet_cluster {half k : Nat} (hk : k / 16 = half) (x : Sensors) (s : State) :
    (stagesSet half x s).cluster k = (s.cluster k).staged (powerLevel (stagesSet half x s) half) := by
  have same : (powerRule half x s).cluster k = s.cluster k := by
    unfold powerRule
    split
    · rfl
    · split
      · rfl
      · rfl
  rw [stagesSet, writeStages_cluster hk, writeStages_powerLevel, same]

/-! ### A run of the loop -/

/-- The state of a run whose sensors are latched. -/
def sensed (half : Nat) (x : Sensors) (s : State) : State := latch half x (runCounted half s)

theorem sensed_shape (half : Nat) (x : Sensors) (s : State) : sensed half x s = { s with
    glb := entryLatched half x s, stks := (sensed half x s).stks, clusters := (sensed half x s).clusters
    twcH := (runCounted half s).twcH } := by
  have pairs := latchPairs_shape half x (runCounted half s)
  rw [sensed, latch_eq, entryLatched_latchPairs]
  generalize latchPairs half x (runCounted half s) = u at pairs ⊢
  rw [pairs]
  rfl

theorem sensed_pair {half k cc : Nat} (hcc : cc < 16) (hk : k = 16 * half + cc) (x : Sensors) (s : State) :
    (sensed half x s).stack k = { s.stack k with temp := x.stack.getD cc 0 % 1024 } ∧
    (sensed half x s).cluster k = { s.cluster k with temp := x.cluster.getD cc 0 } := by
  have pair := latchPairs_pair hcc hk x (runCounted half s)
  rw [sensed, latch_eq]
  generalize latchPairs half x (runCounted half s) = u at pair ⊢
  exact pair

theorem runCounted_half (half i : Nat) (s : State) : (runCounted half s).half i = if i = half then { s.half half with
    loops := wrapAdd 32 (s.half half).loops 1, sinceTelem := (s.half half).sinceTelem + 1 } else s.half i := setHalf_half ..

theorem sensed_half (half i : Nat) (x : Sensors) (s : State) : (sensed half x s).half i = (runCounted half s).half i := by
  rw [sensed_shape]; rfl

/-- One run of the loop, before readiness is brought up to date. -/
def loopRun (half : Nat) (x : Sensors) (s : State) : State := stagesSet half x (rulesRun half (sensed half x s))

theorem execTidewatchLoop_off {s : State} (off : s.on = false) (half : Nat) (overran : Bool) (x : Sensors) :
    exec (.tidewatchLoop half overran x) s = .next s := if_pos (by simp [off])

theorem execTidewatchLoop_runs {s : State} (on : s.on = true) (half : Nat) (x : Sensors) :
    exec (.tidewatchLoop half false x) s = .next (settle (loopRun half x s)) := by
  change execTidewatchLoop half false x s = _
  simp only [execTidewatchLoop, on, Bool.not_true, Bool.false_eq_true, if_false]
  rfl

theorem execTidewatchLoop_skips {s : State} (on : s.on = true) (half : Nat) (x : Sensors) :
    exec (.tidewatchLoop half true x) s =
      .next (s.modHalf half (fun t => { t with overruns := satAdd 16 t.overruns 1 })) := by
  change execTidewatchLoop half true x s = _
  simp only [execTidewatchLoop, on, Bool.not_true, Bool.false_eq_true, if_false, if_true]

/-- What a run of the loop leaves of its count, of what decides whose power level is in force, and of the part's power
registers. -/
structure State.ran (half : Nat) (x : Sensors) (s t : State) : Prop where
  loops : (t.half half).loops = wrapAdd 32 (s.half half).loops 1
  own : ownPower t half = ownPower s half
  part : half = partHalf s → ownPower s half = false →
    t.twc.power = x.power % 2 ^ 16 ∧ t.twc.mP = powerStep s.twc.mP x.power s.twc.pwrLimit s.twc.pwrHyst
  entry : half = partHalf s → t.glb.vin = x.vin % 1024 ∧ t.glb.iin = x.iin % 2048

/-- The level is the half's own where, before the run, it had only that. -/
theorem State.ran.powerLevel_eq {half : Nat} {x : Sensors} {s t : State} (h : s.ran half x t) :
    powerLevel t half = if ownPower s half then (t.half half).mH else t.twc.mP := by
  rw [powerLevel, h.own]

theorem entryLatched_partHalf {half : Nat} {x : Sensors} {s t : State}
    (h : t.glb = { entryLatched half x s with msix := t.glb.msix }) : partHalf t = partHalf s := by
  rw [partHalf, h, entryLatched]
  split
  · rfl
  · rfl

theorem loopRun_ran (half : Nat) (x : Sensors) (s : State) : s.ran half x (loopRun half x s) := by
  have ruled := rulesRun_ruled half (sensed half x s)
  have shape := sensed_shape half x s
  have halves : (sensed half x s).half half = _ :=
    (sensed_half half half x s).trans ((runCounted_half half half s).trans (if_pos rfl))
  unfold loopRun
  generalize rulesRun half (sensed half x s) = w at ruled ⊢
  have glb : w.glb = { entryLatched half x s with msix := w.glb.msix } := by
    have := ruled.glb
    rw [shape] at this
    exact this
  have twc : (sensed half x s).twc = s.twc := by rw [shape]
  have own : ownPower w half = ownPower s half := by rw [ownPower, ruled.half, halves, ownPower]
  have staged := stagesSet_staged half x w
  have kept : (stagesSet half x w).glb = w.glb := by rw [staged.shape]
  refine ⟨?_, ?_, fun part alone => ?_, fun part => ?_⟩
  · rw [staged.half, ruled.half, halves]
  · rw [ownPower, staged.half, ← own, ownPower]
  · have last : (stagesSet half x w).twc = (powerRule half x w).twc := (writeStages_only half _).twc
    have part' : half = partHalf w := part.trans (entryLatched_partHalf glb).symm
    rw [last, powerRule_part (own.trans alone) part', modTwc_twc, ruled.twc, twc]
    exact ⟨rfl, rfl⟩
  · rw [kept, glb, entryLatched, if_pos part]
    exact ⟨rfl, rfl⟩

theorem sensed_fenced (half i : Nat) (x : Sensors) (s : State) : (sensed half x s).fenced i = s.fenced i := by
  have glb : (sensed half x s).glb = entryLatched half x s := by rw [sensed_shape]
  rw [State.fenced, glb, entryLatched, State.fenced]
  split
  · split
    · rfl
    · rfl
  · split
    · rfl
    · rfl

theorem sensed_hottest {half k cc : Nat} (hcc : cc < 16) (hk : k = 16 * half + cc) (x : Sensors) (s : State) :
    hottest (sensed half x s) k = max (x.stack.getD cc 0 % 1024) (x.cluster.getD cc 0) := by
  obtain ⟨stack, cluster⟩ := sensed_pair hcc hk x s
  rw [hottest, stack, cluster]

theorem State.staged.stack {s t : State} (h : s.staged t) (k : Nat) : t.stack k = s.stack k := by rw [h.shape]; rfl

theorem loopRun_stack (half k : Nat) (x : Sensors) (s : State) :
    (loopRun half x s).stack k = (rulesRun half (sensed half x s)).stack k := (stagesSet_staged half x _).stack k

theorem loopRun_cluster {half k : Nat} (hk : k / 16 = half) (x : Sensors) (s : State) : (loopRun half x s).cluster k =
    ((rulesRun half (sensed half x s)).cluster k).staged (powerLevel (loopRun half x s) half) := stagesSet_cluster hk ..

theorem loopRun_gated (half : Nat) (x : Sensors) (s : State) :
    (loopRun half x s).twc.gated = (rulesRun half (sensed half x s)).twc.gated := by
  rw [loopRun, (stagesSet_staged half x _).twc]

theorem loopRun_ungating (half : Nat) (x : Sensors) (s : State) :
    (loopRun half x s).twc.ungating = (rulesRun half (sensed half x s)).twc.ungating := by
  rw [loopRun, (stagesSet_staged half x _).twc]

/-- The thermal rule changes no sensor's reading, and no cap that the operator set. -/
theorem rulesRun_readings {half k : Nat} (hh : half < 2) (hk : k / 16 = half) (s : State) :
    ((rulesRun half s).stack k).temp = (s.stack k).temp ∧ ((rulesRun half s).cluster k).temp = (s.cluster k).temp ∧
    ((rulesRun half s).cluster k).mCap = (s.cluster k).mCap := by
  cases fenced : s.fenced half with
  | true =>
    rw [rulesRun_fenced fenced]
    exact ⟨rfl, rfl, rfl⟩
  | false =>
    have thermal := rulesRun_thermal hh hk fenced
    exact ⟨by rw [thermal.stack], (congrArg Cluster.temp thermal.cluster :), (congrArg Cluster.mCap thermal.cluster :)⟩

/-! ### Runs below 105 °C -/

/-- From s to t only what a run of the loop writes may differ. -/
def State.loopOnly (s t : State) : Prop :=
  t = { s with glb := t.glb, clusters := t.clusters, stks := t.stks, codecs := t.codecs, twcH := t.twcH, twc := t.twc }

theorem State.loopOnly.trans {s t u : State} (h : s.loopOnly t) (k : t.loopOnly u) : s.loopOnly u := by
  unfold State.loopOnly at *
  rw [k, h]

theorem State.staged.loopOnly {s t : State} (h : s.staged t) : s.loopOnly t := by
  unfold State.loopOnly
  rw [h.shape]

theorem steps_loopOnly (l : List Nat) (s : State) : s.loopOnly (forEach l thermalStep s) :=
  forEach_rel (R := State.loopOnly) (fun _ => rfl) (fun _ _ _ => .trans) thermalStep (fun _ _ => rfl) l s

theorem sensed_loopOnly (half : Nat) (x : Sensors) (s : State) : s.loopOnly (sensed half x s) := by
  have shape := sensed_shape half x s
  generalize sensed half x s = t at shape
  unfold State.loopOnly
  rw [shape]

/-- Below 105 °C a run that gates and releases nothing changes thermal values, stages and counts alone. -/
theorem loopRun_quiet {half : Nat} {x : Sensors} {s : State} (powered : s.fenced half = false)
    (low : ∀ cc < 16, x.stack.getD cc 0 < 420 ∧ x.cluster.getD cc 0 < 420 ∧ (s.stack (16 * half + cc)).crit = false) :
    s.loopOnly (loopRun half x s) := by
  have quiet : ∀ k ∈ halfStacks half,
      ((sensed half x s).stack k).crit = false ∧ hottest (sensed half x s) k < 420 := by
    intro k mem
    have hk := mem_halfStacks.mp mem
    have at_cc : k = 16 * half + k % 16 := by omega
    obtain ⟨stack, -⟩ := sensed_pair (Nat.mod_lt k (by omega)) at_cc x s
    obtain ⟨stackLow, clusterLow, cool⟩ := low (k % 16) (Nat.mod_lt k (by omega))
    rw [sensed_hottest (Nat.mod_lt k (by omega)) at_cc, stack]
    exact ⟨by rw [at_cc]; exact cool, by omega⟩
  have stepped := steps_loopOnly (halfStacks half) (sensed half x s)
  rw [← rules_quiet _ quiet, ← rulesRun_open ((sensed_fenced ..).trans powered)] at stepped
  exact ((sensed_loopOnly half x s).trans stepped).trans (stagesSet_staged half x _).loopOnly

/-! ### Over-current (R458) -/

/-- Every cluster of a half is at stage 12. -/
def throttled (half : Nat) (s : State) : State :=
  forEach (halfStacks half) (fun k t => t.modCluster k (fun c => { c with mEff := 12 })) s

theorem throttled_shape (half : Nat) (s : State) : throttled half s = { s with clusters := (throttled half s).clusters } :=
  forEach_onlyClusters ..

theorem throttled_cluster (half k : Nat) (s : State) : (throttled half s).cluster k =
    if k / 16 = half then { s.cluster k with mEff := 12 } else s.cluster k :=
  (forEach_modCluster (f := fun c => { c with mEff := 12 }) (fun _ => rfl) (halfStacks half) s k).trans
    (if_congr mem_halfStacks rfl rfl)

theorem execOverCurrent_off {s : State} (off : s.on = false) (half : Nat) : exec (.overCurrent half) s = .next s :=
  if_pos (by simp [off])

theorem execOverCurrent_on {s : State} (on : s.on = true) (half : Nat) : exec (.overCurrent half) s =
    .next ((throttled half s).modTwc (fun t => { t with ocTrips := satAdd 32 t.ocTrips 1 })) := by
  change execOverCurrent half s = _
  simp only [execOverCurrent, on, Bool.not_true, Bool.false_eq_true, if_false]
  rfl

theorem settle_half (s : State) (i : Nat) : (settle s).half i = s.half i := by rw [(settle_readiness s).1]; rfl
theorem settle_glb (s : State) : (settle s).glb = s.glb := by rw [(settle_readiness s).1]
theorem settle_stack (s : State) (k : Nat) : (settle s).stack k = s.stack k := by rw [(settle_readiness s).1]; rfl
theorem settle_cluster (s : State) (k : Nat) : (settle s).cluster k = s.cluster k := by rw [(settle_readiness s).1]; rfl

theorem overCurrent_throttles {s : State} (on : s.on = true) (half : Nat) : Yields (.overCurrent half) s fun t =>
    t = { s with clusters := t.clusters, twc := t.twc } ∧
    t.twc = { s.twc with ocTrips := satAdd 32 s.twc.ocTrips 1 } ∧
    ∀ k, t.cluster k = if k / 16 = half then { s.cluster k with mEff := 12 } else s.cluster k := by
  have shape := throttled_shape half s
  have cluster := fun k => throttled_cluster half k s
  have command := execOverCurrent_on on half
  generalize throttled half s = u at shape cluster command
  exact ⟨_, command, by rw [shape]; rfl, by rw [shape]; rfl, fun k => by rw [modTwc_cluster]; exact cluster k⟩

/-- Settles O44: a run latches the sensors, then the thermal rule of each stack runs among those of the others, which leave
it alone, and the power rule and the stages follow. -/
theorem tidewatchSetsTheStages : Obligations.TidewatchSetsTheStages := by
  unfold Obligations.TidewatchSetsTheStages
  intro s half x
  refine ⟨fun off => ⟨fun o => execTidewatchLoop_off off half o x, execOverCurrent_off off half⟩,
    fun on hh => ⟨?skipped, ?runs, fun powered low => ?quiet, ?overCurrent⟩⟩
  case skipped =>
    refine ⟨_, execTidewatchLoop_skips on half x, ⟨rfl, fun j hj => ?_⟩, ?_⟩
    · exact (modHalf_half ..).trans (if_neg hj)
    · exact (modHalf_half ..).trans (if_pos rfl)
  case runs =>
    have ran := loopRun_ran half x s
    refine ⟨_, execTidewatchLoop_runs on half x, ?_⟩
    simp only [settle_half, settle_twc, settle_glb, settle_stack, settle_cluster]
    refine ⟨ran.loops, ran.part, ran.entry, fun cc hcc k hot hk hot_eq => ?_⟩
    have own : k / 16 = half := by omega
    have level := ran.powerLevel_eq
    obtain ⟨stack, cluster⟩ := sensed_pair hcc hk x s
    have temp := (sensed_hottest hcc hk x s).trans hot_eq.symm
    have readings := rulesRun_readings hh own (sensed half x s)
    have fenced := fun h => rulesRun_fenced ((sensed_fenced half half x s).trans h)
    have thermal := fun h => rulesRun_thermal hh own ((sensed_fenced half half x s).trans h)
    rw [loopRun_stack, loopRun_cluster own, loopRun_gated, loopRun_ungating, level]
    generalize loopRun half x s = t
    generalize rulesRun half (sensed half x s) = w at readings fenced thermal ⊢
    generalize sensed half x s = v at stack cluster temp readings fenced thermal
    rw [stack, cluster] at readings
    obtain ⟨stackTemp, clusterTemp, cap⟩ := readings
    refine ⟨stackTemp, clusterTemp, congrArg (max _) cap, fun h => ?_, fun h => ?_⟩
    · rw [fenced h, stack, cluster]
      exact ⟨rfl, rfl⟩
    · obtain ⟨-, after, striped, gated, freed⟩ := thermal h
      have stage := congrArg Cluster.mTherm striped
      rw [temp, stack] at after gated freed stage
      rw [cluster] at stage freed
      rw [after]
      exact ⟨rfl, stage, rfl, rfl, gated, freed⟩
  case quiet => exact ⟨_, execTidewatchLoop_runs on half x, _, settle_readiness _, loopRun_quiet powered low⟩
  case overCurrent =>
    obtain ⟨t, command, shape, trips, cluster⟩ := overCurrent_throttles on half
    exact ⟨t, command, shape, trips, fun cc hcc => (cluster _).trans (if_pos (by omega)),
      fun k hk => (cluster k).trans (if_neg hk)⟩

end Sys2Proof.Machine
end

section
/-! SUPPORT. What no command undoes, of the whole part (Laws/Keeps.lean): every command and every step keeps it. -/
namespace Sys2Proof.Machine

/-- Every command answers a next state and keeps what none undoes, each by the lemma about its meaning. -/
theorem exec_answers : ∀ (c : Instr) (s : State), Answers s (exec c s)
  | .nop _, _ => execNop_answers ..
  | .kbegin _ _ _ _ _, _ => execKbegin_answers ..
  | .commit _, _ => execCommit_answers ..
  | .wait _ _ _, _ => execWait_answers ..
  | .signal _ _ _ _ _ _, _ => execSignal_answers ..
  | .fence _, _ => execFence_answers ..
  | .recipe _ _ _ _ _, _ => execRecipe_answers ..
  | .prob _ _, _ => execProb_answers ..
  | .attn _ _, _ => execAttn_answers ..
  | .rowop _ _, _ => execRowop_answers ..
  | .stripe _ _, _ => execStripe_answers ..
  | .peel _ _, _ => execPeel_answers ..
  | .atom _ _, _ => execAtom_answers ..
  | .coll _ _, _ => execColl_answers ..
  | .codec _ _ _, _ => execCodec_answers ..
  | .place _ _ _, _ => execPlace_answers ..
  | .epoch _ _ _ _, _ => execEpoch_answers ..
  | .sound _ _ _ _ _, _ => execSound_answers ..
  | .tail _ _, _ => execTail_answers ..
  | .resume _, _ => execResume_answers ..
  | .skip _, _ => execSkip_answers ..
  | .clrEvents _, _ => execClrEvents_answers ..
  | .synValueWrite _ _, _ => execSynValueWrite_answers ..
  | .registerWrite _ _ _ _, _ => execRegisterWrite_answers ..
  | .kernelFetch _, _ => execKernelFetch_answers ..
  | .crewGrant _, _ => execCrewGrant_answers ..
  | .trayScrubDone _ _, _ => execTrayScrubDone_answers ..
  | .killTraysReturned _, _ => execKillTraysReturned_answers ..
  | .crewCoreJoin _ _, _ => execCrewCoreJoin_answers ..
  | .planReady _, _ => execPlanReady_answers ..
  | .chunkFillDone _ _ _, _ => execChunkFillDone_answers ..
  | .tileDone _ _ _, _ => execTileDone_answers ..
  | .tileSteal _, _ => execTileSteal_answers ..
  | .batchSteal _ _, _ => execBatchSteal_answers ..
  | .rowDone _ _, _ => execRowDone_answers ..
  | .attnShareDone _ _, _ => execAttnShareDone_answers ..
  | .peelBatchDone _ _, _ => execPeelBatchDone_answers ..
  | .stripeDone _ _, _ => execStripeDone_answers ..
  | .stripeSteal _, _ => execStripeSteal_answers ..
  | .soundingCompare _ _, _ => execSoundingCompare_answers ..
  | .commitBegin _, _ => execCommitBegin_answers ..
  | .commitStoresAcked _, _ => execCommitStoresAcked_answers ..
  | .commitAtomicsDone _, _ => execCommitAtomicsDone_answers ..
  | .commitRemoteDone _, _ => execCommitRemoteDone_answers ..
  | .kernelRerun _, _ => execKernelRerun_answers ..
  | .harbourOpApply _, _ => execHarbourOpApply_answers ..
  | .stackReadDone _ _ _ _ _, _ => execStackReadDone_answers ..
  | .ueRereadDone _ _ _ _, _ => execUeRereadDone_answers ..
  | .pinCountClear _ _, _ => execPinCountClear_answers ..
  | .refresh _ _, _ => execRefresh_answers ..
  | .scrubRead _ _ _ _, _ => execScrubRead_answers ..
  | .migrationDone _ _, _ => execMigrationDone_answers ..
  | .shelfReadDone _ _, _ => execShelfReadDone_answers ..
  | .shelfMapRebuild, _ => execShelfMapRebuild_answers ..
  | .wearLevel, _ => execWearLevel_answers ..
  | .garbageCollect _, _ => execGarbageCollect_answers ..
  | .shelfRelocate _ _ _, _ => execShelfRelocate_answers ..
  | .tidewatchLoop _ _ _, _ => execTidewatchLoop_answers ..
  | .deadlineEval _, _ => execDeadlineEval_answers ..
  | .telemetry _, _ => execTelemetry_answers ..
  | .overCurrent _, _ => execOverCurrent_answers ..
  | .admission _ _, _ => execAdmit_answers ..
  | .proofCheckDone _, _ => execProofCheckDone_answers ..
  | .remove _, _ => execRemove_answers ..
  | .park _, _ => execPark_answers ..
  | .parkComplete _, _ => execParkComplete_answers ..
  | .restore _ _, _ => execRestore_answers ..
  | .restorePageReturn _ _, _ => execRestorePageReturn_answers ..
  | .killQueue _ _, _ => execKillQueue_answers ..
  | .ticket _, _ => execTicket_answers ..
  | .reset, _ => execReset_answers ..
  | .fundamentalReset, _ => execFundamentalReset_answers ..
  | .trayParkDone _ _, _ => execTrayParkDone_answers ..
  | .trayRestoreDone _ _, _ => execTrayRestoreDone_answers ..
  | .domainGate _, _ => execDomainGate_answers ..
  | .domainUngate _, _ => execDomainUngate_answers ..
  | .domainUngateDone _, _ => execDomainUngateDone_answers ..
  | .openSlot _ _ _ _ _, _ => execOpenSlot_answers ..
  | .closeSlot _, _ => execCloseSlot_answers ..
  | .clearSlot _ _, _ => execClearSlot_answers ..
  | .relock, _ => execRelock_answers ..
  | .portEnable _, _ => execPortEnable_answers ..
  | .portDisable _, _ => execPortDisable_answers ..
  | .routeEntryWrite _, _ => execRouteEntryWrite_answers ..
  | .pinMarkWrite _ _ _, _ => execPinMarkWrite_answers ..
  | .hdmDecoderCommit _ _ _ _, _ => execHdmDecoderCommit_answers ..
  | .halfTicketVerified, _ => execHalfTicketVerified_answers ..
  | .custodianHalfTicket _ _ _, _ => execCustodianHalfTicket_answers ..
  | .ticketTimeout _, _ => execTicketTimeout_answers ..
  | .peerTicketCheck, _ => execPeerTicketCheck_answers ..
  | .peerVerdict, _ => execPeerVerdict_answers ..
  | .peerVerdictTimeout, _ => execPeerVerdictTimeout_answers ..
  | .isthmusHeartbeatSend _, _ => execIsthmusHeartbeatSend_answers ..
  | .isthmusHeartbeat _ _ _ _, _ => execIsthmusHeartbeat_answers ..
  | .isthmusHeartbeatLost _, _ => execIsthmusHeartbeatLost_answers ..
  | .bootHeartbeatTimeout _, _ => execBootHeartbeatTimeout_answers ..
  | .vinQualified, _ => execVinQualified_answers ..
  | .rootPllLocked, _ => execRootPllLocked_answers ..
  | .serdesPllLocked, _ => execSerdesPllLocked_answers ..
  | .bootStageDone _ _ _ _ _, _ => execBootStageDone_answers ..
  | .rootPllLockLoss, _ => execRootPllLockLoss_answers ..
  | .relockAttempt _, _ => execRelockAttempt_answers ..
  | .underVoltage, _ => execUnderVoltage_answers ..
  | .holdupEnd, _ => execHoldupEnd_answers ..
  | .thermalTrip _, _ => execThermalTrip_answers ..
  | .portTrained _ _ _, _ => execPortTrained_answers ..
  | .laneLockLoss _ _, _ => execLaneLockLoss_answers ..
  | .ackStall _, _ => execAckStall_answers ..
  | .drainEnd _, _ => execDrainEnd_answers ..
  | .codewordUncorrectable _, _ => execCodewordUncorrectable_answers ..
  | .linkAck _ _ _, _ => execLinkAck_answers ..
  | .linkNak _ _, _ => execLinkNak_answers ..
  | .linkAckTimer _, _ => execLinkAckTimer_answers ..
  | .write _ _, _ => execWrite_answers ..
  | .read _ _, _ => execRead_answers ..
  | .readResp half _, _ => execReadResp_answers half ..
  | .atomic _ _, _ => execAtomic_answers ..
  | .signalAdd _ _, _ => execSignalAdd_answers ..
  | .signalSet _ _, _ => execSignalSet_answers ..
  | .doorbell _ _, _ => execDoorbell_answers ..
  | .ack half _, _ => execAck_answers half ..
  | .nack half _, _ => execNack_answers half ..
  | .packetForward _ _, _ => execPacketForward_answers ..
  | .reservedPacket _ _, _ => execReservedPacket_answers ..
  | .resendTimeout _ _, _ => execResendTimeout_answers ..
  | .deliveryTimeout _ _, _ => execDeliveryTimeout_answers ..
  | .filterExpiry _ _ _ _, _ => execFilterExpiry_answers ..
  | .txnFree _ _, _ => execTxnFree_answers ..
  | .holTimeout _ _, _ => execHolTimeout_answers ..
  | .longshoreEngineGrant, _ => execLongshoreEngineGrant_answers ..
  | .collGreeting _, _ => execCollGreeting_answers ..
  | .collCount _, _ => execCollCount_answers ..
  | .go _, _ => execGo_answers ..
  | .abort _, _ => execAbort_answers ..
  | .collData _, _ => execCollData_answers ..
  | .chunkAck _, _ => execChunkAck_answers ..
  | .chunkNak _, _ => execChunkNak_answers ..
  | .chunkResend _ _ _, _ => execChunkResend_answers ..
  | .collDone _, _ => execCollDone_answers ..
  | .land _, _ => execLand_answers ..
  | .memberHeartbeatSend _, _ => execMemberHeartbeatSend_answers ..
  | .memberHeartbeat _, _ => execMemberHeartbeat_answers ..
  | .memberLost _ _, _ => execMemberLost_answers ..
  | .lostNotice _, _ => execLostNotice_answers ..
  | .leaveNotice _, _ => execLeaveNotice_answers ..
  | .poll _, _ => execPoll_answers ..
  | .pollAnswer _, _ => execPollAnswer_answers ..
  | .coordinatorTimeout _, _ => execCoordinatorTimeout_answers ..
  | .install _, _ => execInstall_answers ..
  | .exclusion _, _ => execExclusion_answers ..
  | .installTimeout _, _ => execInstallTimeout_answers ..
  | .taint _, _ => execTaint_answers ..
  | .codecEngineGrant, _ => execCodecEngineGrant_answers ..
  | .codecJobDone _, _ => execCodecJobDone_answers ..
  | .hostLinkUp _ _ _ _ _, _ => execHostLinkUp_answers ..
  | .hostLinkDown, _ => execHostLinkDown_answers ..
  | .cxlMemRead _ _, _ => execCxlMemRead_answers ..
  | .cxlMemWrite _ _ _, _ => execCxlMemWrite_answers ..
  | .doeDiscovery _, _ => execDoeDiscovery_answers ..
  | .cdatRead, _ => execCdatRead_answers ..
  | .spdmRequest _, _ => execSpdmRequest_answers ..
  | .getMldsaCert _ _, _ => execGetMldsaCert_answers ..
  | .signTranscript, _ => execSignTranscript_answers ..
  | .rationsWindow _ _ _, _ => execRationsWindow_answers ..
  | .lhCharacter _ _, _ => execLhCharacter_answers ..
  | .keeperId, _ => execKeeperId_answers ..
  | .baud _, _ => execBaud_answers ..
  | .baudRevert, _ => execBaudRevert_answers ..
  | .rd _ _, _ => execRd_answers ..
  | .wr _ _, _ => execWr_answers ..
  | .wrd _ _ _, _ => execWrd_answers ..
  | .wwr _ _ _, _ => execWwr_answers ..
  | .temp, _ => execTemp_answers ..
  | .mrd _ _ _, _ => execMrd_answers ..
  | .mwr _ _ _, _ => execMwr_answers ..
  | .keeperBlock _ _, _ => execKeeperBlock_answers ..
  | .keeperBlockTimeout, _ => execKeeperBlockTimeout_answers ..
  | .halt _, _ => execHalt_answers ..
  | .release _, _ => execRelease_answers ..
  | .keeperKill _, _ => execKeeperKill_answers ..
  | .lock, _ => execLock_answers ..
  | .stat, _ => execStat_answers ..
  | .snoop _, _ => execSnoop_answers ..
  | .configSpaceWrite _ _, _ => execConfigSpaceWrite_answers ..
  | .mgmt _ _, _ => execMgmt_answers ..
  | .regulatorsGood, _ => execRegulatorsGood_answers ..

/-- A step takes the command off the queue and keeps what no command undoes. -/
theorem step_keeps {s t : State} (h : step s = .next t) : Keeps { s with pending := t.pending } t := by
  unfold step at h
  split at h
  case h_1 =>
    obtain rfl : idleTick s = t := by injection h
    have kept := idleTick_keeps s
    rw [kept.pending]
    exact kept
  case h_2 c rest _ =>
    obtain ⟨u, answer, kept⟩ := exec_answers c { s with pending := rest }
    obtain rfl : u = t := by rw [answer] at h; injection h
    rw [kept.pending]
    exact kept

/-- Settles O6: both lists are among what every step keeps. -/
theorem retiredPagesAndBadBlocksStay : Obligations.RetiredPagesAndBadBlocksStay := by
  unfold Obligations.RetiredPagesAndBadBlocksStay
  intro s t h
  have kept := step_keeps h
  exact ⟨kept.retired, kept.bad⟩

end Sys2Proof.Machine
end

section
/-! SUPPORT. A migration whose end also ends the request queued behind it (14_shelf_tiers.md R349, R351, R352). -/
namespace Sys2Proof.Machine

/-- Page 0 of berth 0 lies in Crust. Its migration to Crumb runs when a request for the Shelf is queued behind it, which a
request for Crumb then replaces (R349). -/
def requestedAgain : State :=
  requestMig 0 0 .crumb false 0 (requestMig 0 0 .shelf false 0 (requestMig 0 0 .crumb false 0
    { berths := [(0, { pages := [(0, { tier := .crust, phys := 3 })] })] }))

theorem requestedAgain_sound : requestedAgain.Sound :=
  ⟨by decide, ⟨by decide, by decide⟩, fun _ => Nat.zero_le _⟩

/-- Both requests want the page in Crumb; of the three, the replaced one counts as done. -/
theorem requestedAgain_requests :
    (requestedAgain.half 0).migRun = some { tier := .crumb } ∧ (requestedAgain.half 0).migQ = [{ tier := .crumb }] ∧
      look {} (requestedAgain.berth 0).pages 0 = { tier := .crust, phys := 3, migrating := true } ∧
      (requestedAgain.berth 0).migReq = 3 ∧ (requestedAgain.berth 0).migDone = 1 := by
  decide

/-- Once the mapping has switched, the engine finds its next request's page in the tier that it asks for, and counts that
request as done too. -/
theorem requestedAgain_done :
    Yields (.migrationDone 0 0x40000) requestedAgain fun t => (t.berth 0).migDone = 3 := ⟨_, rfl, by decide +kernel⟩

/-- Refutes O42: it asks that a migration's end raise the berth's DONE by 1, whatever is queued; in the state
`requestedAgain` the engine's next request is for the page that has just come to its tier, and DONE rises by 2. -/
theorem not_migrationsCopyPages : ¬ Obligations.MigrationsCopyPages := by
  unfold Obligations.MigrationsCopyPages
  intro h
  obtain ⟨running, -, source, -, before⟩ := requestedAgain_requests
  obtain ⟨-, moves⟩ := h requestedAgain 0 0x40000
  obtain ⟨-, -, copies⟩ := moves _ _ requestedAgain_sound running source.symm
  obtain ⟨t, step, -, -, -, -, -, -, -, done, -⟩ :=
    copies nofun (by decide) (by decide) nofun
  obtain ⟨u, answer, twice⟩ := requestedAgain_done
  obtain rfl : t = u := Host.Outcome.next.inj (step.symm.trans answer)
  rw [before, twice] at done
  exact absurd done (by decide)

end Sys2Proof.Machine
end

section
/-! SUPPORT. Blocks of the Shelf (14_shelf_tiers.md R353 to R357): what a read, a unit that is superseded, moved or lost, and
the Shelf's flags leave of the map and of the blocks. -/
namespace Sys2Proof.Machine

/-! ### Entries of the map, and blocks -/

@[simp] theorem mapEntry_block (s : State) (lu : Nat) (e : Option (Nat × Nat)) (i : Nat) :
    (s.mapEntry lu e).block i = s.block i := rfl

@[simp] theorem mapEntry_map (s : State) (lu : Nat) (e : Option (Nat × Nat)) (k : Nat) :
    look none (s.mapEntry lu e).shelf.map k = if k = lu then e else look none s.shelf.map k :=
  look_put none e s.shelf.map lu k

@[simp] theorem setBlock_map (s : State) (i : Nat) (v : Block) : (s.setBlock i v).shelf.map = s.shelf.map := rfl

theorem modShelf_block (s : State) (f : Shelf → Shelf) (i : Nat) (h : (f s.shelf).blocks = s.shelf.blocks) :
    (s.modShelf f).block i = s.block i := congrArg (fun t => look ({} : Block) t i) h

theorem modShelf_map (s : State) (f : Shelf → Shelf) (h : (f s.shelf).map = s.shelf.map) :
    (s.modShelf f).shelf.map = s.shelf.map := h

/-! ### Flags -/

theorem shelfFlags_shelf (s : State) : (shelfFlags s).shelf =
    { s.shelf with lowSpare := (shelfFlags s).shelf.lowSpare, wearWarn := (shelfFlags s).shelf.wearWarn } := by
  unfold shelfFlags
  dsimp only
  split
  · rw [(makeRecord_recorded ..).shape]
    rfl
  · rfl

@[simp] theorem shelfFlags_map (s : State) : (shelfFlags s).shelf.map = s.shelf.map := by rw [shelfFlags_shelf]
@[simp] theorem shelfFlags_mapReady (s : State) : (shelfFlags s).shelf.mapReady = s.shelf.mapReady := by
  rw [shelfFlags_shelf]
@[simp] theorem shelfFlags_inService (s : State) : (shelfFlags s).shelf.inService = s.shelf.inService := by
  rw [shelfFlags_shelf]
@[simp] theorem shelfFlags_lostUnits (s : State) : (shelfFlags s).shelf.lostUnits = s.shelf.lostUnits := by
  rw [shelfFlags_shelf]
@[simp] theorem shelfFlags_lost (s : State) : (shelfFlags s).shelf.lost = s.shelf.lost := by rw [shelfFlags_shelf]
@[simp] theorem shelfFlags_block (s : State) (i : Nat) : (shelfFlags s).block i = s.block i := by
  rw [State.block, shelfFlags_shelf]
  rfl
@[simp] theorem shelfFlags_mem (s : State) : (shelfFlags s).mem = s.mem := by rw [(shelfFlags_shelfWork s).shape]
@[simp] theorem shelfFlags_units (s : State) : (shelfFlags s).units = s.units := by rw [(shelfFlags_shelfWork s).shape]

theorem State.shelfOnly.mem {s t : State} (h : s.shelfOnly t) : t.mem = s.mem := by rw [h]
theorem State.shelfOnly.units {s t : State} (h : s.shelfOnly t) : t.units = s.units := by rw [h]

/-! ### Where a unit lies -/

/-- The current copy of a logical unit lies in block i (R355). -/
def State.unitIn (s : State) (lu i : Nat) : Prop :=
  ∃ f u, look none s.shelf.map lu = some (f, u) ∧ f * blocksPerStack + u / 512 = i

theorem State.unitIn.of_same {s t : State} {lu i : Nat} (h : s.unitIn lu i)
    (same : look none t.shelf.map lu = look none s.shelf.map lu) : t.unitIn lu i := by
  unfold State.unitIn
  rw [same]
  exact h

theorem readUnit_block {s : State} {lu i : Nat} (h : s.unitIn lu i) (j : Nat) :
    (readUnit lu s).block j = if j = i then { s.block i with reads := (s.block i).reads + 1 } else s.block j := by
  obtain ⟨f, u, entry, rfl⟩ := h
  unfold readUnit
  rw [entry]
  exact setBlock_block ..

/-! ### A superseded copy -/

@[simp] theorem dropCopy_map (lu k : Nat) (s : State) :
    look none (dropCopy lu s).shelf.map k = if k = lu then none else look none s.shelf.map k := by
  unfold dropCopy
  split
  next absent =>
    split
    next e => rw [e, absent]
    · rfl
  · exact look_put none none s.shelf.map lu k

theorem dropCopy_block {s : State} {lu i : Nat} (h : s.unitIn lu i) (j : Nat) : (dropCopy lu s).block j =
    if j = i then { s.block i with valid := (s.block i).valid.filter (· ≠ lu) } else s.block j := by
  obtain ⟨f, u, entry, rfl⟩ := h
  unfold dropCopy
  rw [entry]
  exact setBlock_block ..

/-- Of the Shelf's registers, a superseded copy changes none. -/
theorem dropCopy_shelf (lu : Nat) (s : State) : (dropCopy lu s).shelf = { s.shelf with
    map := (dropCopy lu s).shelf.map, saved := (dropCopy lu s).shelf.saved, blocks := (dropCopy lu s).shelf.blocks } := by
  unfold dropCopy
  split <;> rfl

theorem forEach_dropCopy_map {l : List Nat} {lu : Nat} (h : lu ∉ l) (s : State) :
    look none (forEach l dropCopy s).shelf.map lu = look none s.shelf.map lu := by
  induction l generalizing s with
  | nil => rfl
  | cons a l ih =>
    rw [List.mem_cons, not_or] at h
    rw [forEach_cons, ih h.2, dropCopy_map, if_neg h.1]

/-! ### Units that move from a block to another -/

theorem programInto_block (d lu : Nat) (s : State) (j : Nat) : (programInto d lu s).block j =
    if j = d then { (dropCopy lu s).block d with
      used := ((dropCopy lu s).block d).used + 1, valid := ((dropCopy lu s).block d).valid ++ [lu], reads := 0
      since := (dropCopy lu s).shelf.us } else (dropCopy lu s).block j := by
  unfold programInto
  dsimp only
  rw [modShelf_block _ _ _ (by rfl), mapEntry_block, setBlock_block]

theorem programInto_map (d lu : Nat) (s : State) (k : Nat) : look none (programInto d lu s).shelf.map k =
    if k = lu then some (d / blocksPerStack, d % blocksPerStack * 512 + ((dropCopy lu s).block d).used)
    else look none (dropCopy lu s).shelf.map k := by
  unfold programInto
  dsimp only
  rw [modShelf_map _ _ (by rfl), mapEntry_map, setBlock_map]

/-- A unit is programmed into block d and counted as refreshed. -/
def moveInto (d lu : Nat) (s : State) : State :=
  (programInto d lu s).modShelf (fun h => { h with refreshed := wrapAdd 64 h.refreshed 1 })

theorem moveInto_block (d lu : Nat) (s : State) (j : Nat) :
    (moveInto d lu s).block j = (programInto d lu s).block j := modShelf_block _ _ _ rfl

theorem moveInto_map (d lu : Nat) (s : State) : (moveInto d lu s).shelf.map = (programInto d lu s).shelf.map := rfl

/-- t is s after the units of l moved from block i to block d, where they lie one behind the other. -/
structure State.movedUnits (s : State) (i d : Nat) (l : List Nat) (t : State) : Prop where
  only : s.shelfOnly t
  source : t.block i = { s.block i with valid := (s.block i).valid.filter (· ∉ l) }
  valid : (t.block d).valid = (s.block d).valid ++ l
  used : (t.block d).used = (s.block d).used + l.length
  entry : ∀ n < l.length, look none t.shelf.map (l.getD n 0) =
    some (d / blocksPerStack, d % blocksPerStack * 512 + (s.block d).used + n)
  others : ∀ lu, lu ∉ l → look none t.shelf.map lu = look none s.shelf.map lu

theorem State.movedUnits.nil (s : State) (i d : Nat) : s.movedUnits i d [] s where
  only := rfl
  source := by simp
  valid := by simp
  used := rfl
  entry n hn := absurd hn (Nat.not_lt_zero n)
  others _ _ := rfl

theorem moveInto_movedUnits {s : State} {i d lu : Nat} (ne : d ≠ i) (h : s.unitIn lu i) :
    s.movedUnits i d [lu] (moveInto d lu s) := by
  have dropped := dropCopy_block h
  constructor
  case only => exact (programInto_only d lu s).trans (modShelf_only ..)
  case source => simp [moveInto_block, programInto_block, dropped, ne.symm]
  case valid => simp [moveInto_block, programInto_block, dropped, ne]
  case used => simp [moveInto_block, programInto_block, dropped, ne]
  case entry =>
    intro n hn
    obtain rfl : n = 0 := by simpa using hn
    simp [moveInto_map, programInto_map, dropped, ne]
  case others =>
    intro k hk
    have : k ≠ lu := by simpa using hk
    simp [moveInto_map, programInto_map, this]

theorem State.movedUnits.cons {s t u : State} {i d lu : Nat} {l : List Nat} (fresh : lu ∉ l)
    (h : s.movedUnits i d [lu] t) (k : t.movedUnits i d l u) : s.movedUnits i d (lu :: l) u where
  only := h.only.trans k.only
  source := by
    rw [k.source, h.source]
    simp [List.filter_filter, Bool.and_comm]
  valid := by rw [k.valid, h.valid, List.append_assoc, List.singleton_append]
  used := by
    rw [k.used, h.used]
    simp only [List.length_cons, List.length_nil]
    omega
  entry n hn := by
    cases n with
    | zero => simpa [k.others lu fresh] using h.entry 0 (by simp)
    | succ n =>
      have placed := k.entry n (by simpa using hn)
      rw [h.used] at placed
      rw [List.getD_cons_succ, placed]
      simp only [List.length_cons, List.length_nil]
      congr 2
      omega
  others x hx := by
    rw [List.mem_cons, not_or] at hx
    rw [k.others x hx.2, h.others x (by simpa using hx.1)]

theorem forEach_moveInto {i d : Nat} (ne : d ≠ i) {l : List Nat} (nodup : l.Nodup) {s : State}
    (h : ∀ lu ∈ l, s.unitIn lu i) : s.movedUnits i d l (forEach l (moveInto d) s) := by
  induction l generalizing s with
  | nil => exact .nil s i d
  | cons lu l ih =>
    obtain ⟨fresh, nodup⟩ := List.nodup_cons.1 nodup
    have first := moveInto_movedUnits ne (h lu (List.mem_cons_self ..))
    refine first.cons fresh (ih nodup fun x hx => ?_)
    exact (h x (List.mem_cons_of_mem _ hx)).of_same (first.others x (by simpa using ne_of_mem_of_not_mem hx fresh))

/-! ### Blocks that are emptied (R356, R357) -/

theorem moveUnits_empty {s : State} {i : Nat} (dst : Nat → State → Option Nat) (h : (s.block i).valid = []) :
    moveUnits i dst s = s := by
  unfold moveUnits
  rw [h]
  rfl

theorem moveUnits_one {s : State} {i d lu : Nat} {dst : Nat → State → Option Nat} (h : (s.block i).valid = [lu])
    (choice : dst lu s = some d) : moveUnits i dst s = moveInto d lu s := by
  unfold moveUnits
  rw [h, forEach_cons, choice]
  rfl

/-- Where no block can take them, the units stay. -/
theorem moveUnits_none (s : State) (i : Nat) : moveUnits i (fun _ _ => none) s = s :=
  forEach_same id _ (fun _ _ => rfl) ..

theorem State.movedUnits.emptied {s t : State} {i d : Nat} (h : s.movedUnits i d (s.block i).valid t) :
    (t.block i).valid = [] := by
  rw [h.source]
  exact List.filter_eq_nil_iff.2 fun x hx => by simpa using hx

/-- A block that failed joins the bad-block list (R357). -/
def listFailed (i : Nat) (failed : Bool) (s : State) : State :=
  if failed then s.setBlock i { s.block i with bad := true } else s

theorem listFailed_only (i : Nat) (failed : Bool) (s : State) : s.shelfOnly (listFailed i failed s) := by
  unfold listFailed
  split <;> rfl

theorem listFailed_shelf (i : Nat) (failed : Bool) (s : State) :
    (listFailed i failed s).shelf = { s.shelf with blocks := (listFailed i failed s).shelf.blocks } := by
  unfold listFailed
  split <;> rfl

theorem listFailed_block (i : Nat) (failed : Bool) (s : State) (j : Nat) : (listFailed i failed s).block j =
    if j = i then { s.block i with bad := (s.block i).bad || failed } else s.block j := by
  cases failed with
  | true => simp [listFailed]
  | false =>
    simp only [listFailed, Bool.false_eq_true, if_false, Bool.or_false]
    split
    next e => rw [e]
    · rfl

/-! ### Lost units (R357) -/

theorem look_poisonedUnits (l : List Nat) (t : Tbl UnitSt) (x : Nat) :
    look .good (l.foldl (fun t u => put .good t u .poison) t) x = if x ∈ l then .poison else look .good t x := by
  have pairs := look_poisoned id x (l.map fun u => (u, .good)) t
  rw [List.foldl_map] at pairs
  simpa using pairs

section
variable {s : State} {lu : Nat} (new : s.shelf.lostUnits.contains lu = false)
include new

/-- A unit marked lost for the first time: the list and the count, and the bytes and marks that its readers meet. -/
theorem loseUnit_new : ∃ v : State, v.recorded (loseUnit lu s) ∧
    v = { s with
      shelf := { s.shelf with lostUnits := s.shelf.lostUnits ++ [lu], lost := satAdd 32 s.shelf.lost 1 }
      mem := zeroBytes s.mem (2 ^ 44 + lu * 65536) 65536
      units := ((List.range 2048).map (· + (2 ^ 44 + lu * 65536) / 32)).foldl (fun t u => put .good t u .poison) s.units } := by
  unfold loseUnit
  rw [new]
  exact ⟨_, makeRecord_recorded .., rfl⟩

theorem loseUnit_shelf : (loseUnit lu s).shelf =
    { s.shelf with lostUnits := s.shelf.lostUnits ++ [lu], lost := satAdd 32 s.shelf.lost 1 } := by
  obtain ⟨v, record, made⟩ := loseUnit_new new
  rw [record.shape, made]

theorem loseUnit_mem : (loseUnit lu s).mem = zeroBytes s.mem (2 ^ 44 + lu * 65536) 65536 := by
  obtain ⟨v, record, made⟩ := loseUnit_new new
  rw [record.shape, made]

theorem loseUnit_poisoned {o : Nat} (ho : o < 2048) :
    look .good (loseUnit lu s).units (2 ^ 39 + lu * 2048 + o) = .poison := by
  obtain ⟨v, record, made⟩ := loseUnit_new new
  have marked : 2 ^ 39 + lu * 2048 + o ∈ (List.range 2048).map (· + (2 ^ 44 + lu * 65536) / 32) :=
    List.mem_map.2 ⟨o, List.mem_range.2 ho, by omega⟩
  rw [record.shape, made, look_poisonedUnits, if_pos marked]
end

/-! ### Reads and the map (R353, R355) -/

/-- A unit of a berth's page is read, where the page lies on the Shelf. -/
def readAt (b va : Nat) (s : State) : State :=
  if (s.page b va).tier = .shelf then readUnit (unitOfPa ((s.page b va).phys * 2 ^ 21 + va % 2 ^ 21)) s else s

theorem readAt_only (b va : Nat) (s : State) : s.shelfOnly (readAt b va s) := by
  unfold readAt
  split
  · exact readUnit_only ..
  · rfl

theorem readAt_elsewhere {s : State} {b va : Nat} (h : (s.page b va).tier ≠ .shelf) : readAt b va s = s := if_neg h

theorem readAt_block {s : State} {b va i : Nat} (stored : (s.page b va).tier = .shelf)
    (lies : s.unitIn (unitOfPa ((s.page b va).phys * 2 ^ 21 + va % 2 ^ 21)) i) (j : Nat) : (readAt b va s).block j =
      if j = i then { s.block i with reads := (s.block i).reads + 1 } else s.block j := by
  unfold readAt
  rw [if_pos stored]
  exact readUnit_block lies j

/-- An instruction that still waits for the given reads. -/
def Inst.reading (rest : List (Nat × Nat)) (x : Inst) : Inst := { x with readsLeft := rest }

section
variable {s : State} {q j : Nat}

theorem execShelfReadDone_notDue (h : s.shelf.mapReady = false ∨
    onShelf (s.ctx q) (nth (tensors ((s.run q).insts.getD j {}).descs) 0) = false ∨
      ((s.run q).insts.getD j {}).readsLeft = []) : exec (.shelfReadDone q j) s = .next s := by
  change execShelfReadDone q j s = _
  unfold execShelfReadDone
  obtain unready | elsewhere | finished := h
  · exact if_neg fun due => Bool.noConfusion (unready.symm.trans due.1)
  · exact if_neg fun due => Bool.noConfusion (elsewhere.symm.trans due.2)
  · dsimp only
    rw [finished]
    exact ite_self _

theorem execShelfReadDone_due {p : Nat × Nat} {rest : List (Nat × Nat)} (ready : s.shelf.mapReady = true)
    (source : onShelf (s.ctx q) (nth (tensors ((s.run q).insts.getD j {}).descs) 0) = true)
    (reads : ((s.run q).insts.getD j {}).readsLeft = p :: rest) :
    exec (.shelfReadDone q j) s = .next (readAt (s.ctx q).berth p.1 (s.modInst q j (Inst.reading rest))) := by
  change execShelfReadDone q j s = _
  unfold execShelfReadDone
  dsimp only
  rw [if_pos ⟨ready, source⟩, reads]
  rfl

/-- An instruction with reads left is one of the run's. -/
theorem readsLeft_inst {p : Nat × Nat} {rest : List (Nat × Nat)}
    (reads : ((s.run q).insts.getD j {}).readsLeft = p :: rest) : j < (s.run q).insts.length := by
  by_contra beyond
  rw [List.getD_eq_default _ _ (Nat.le_of_not_lt beyond)] at reads
  exact nomatch reads

theorem modInst_readsLeft {p : Nat × Nat} {rest : List (Nat × Nat)}
    (reads : ((s.run q).insts.getD j {}).readsLeft = p :: rest) :
    ((s.modInst q j (Inst.reading rest)).inst q j).readsLeft = rest := by
  rw [modInst_inst, if_pos ⟨rfl, rfl, readsLeft_inst reads⟩]
  rfl
end

/-- The boot chain of the half that loads the Shelf controller has reached it (R355, R473). -/
def shelfReached (s : State) : Bool :=
  s.on && s.glb.sOnRoot && [0, 1].any (fun h => loadsShelf s h && decide ((s.half h).bootStage ≥ 3))

theorem execShelfMapRebuild_eq (s : State) :
    exec .shelfMapRebuild s = .next (if shelfReached s then rebuildMap s else s) := rfl

/-- The map as its journal gives it. -/
def journalMap (s : State) : State := s.modShelf (fun h => { h with map := h.saved, mapReady := true, inService := 0xFF })

/-- The units of park reserves that nothing holds any longer. -/
def strayUnits (s : State) : List Nat := ((journalMap s).shelf.map.map (·.1)).filter (strayUnit s)

theorem rebuildMap_eq (s : State) : rebuildMap s = shelfFlags (forEach (strayUnits s) dropCopy (journalMap s)) := rfl

theorem rebuildMap_ready (s : State) : (rebuildMap s).shelf.mapReady = true := by
  rw [rebuildMap_eq, shelfFlags_mapReady]
  exact forEach_same (·.shelf.mapReady) _ (fun lu t => by rw [dropCopy_shelf]) _ (journalMap s)

theorem rebuildMap_inService (s : State) : (rebuildMap s).shelf.inService = 0xFF := by
  rw [rebuildMap_eq, shelfFlags_inService]
  exact forEach_same (·.shelf.inService) _ (fun lu t => by rw [dropCopy_shelf]) _ (journalMap s)

theorem rebuildMap_map {s : State} {lu : Nat} (h : strayUnit s lu = false) :
    look none (rebuildMap s).shelf.map lu = look none s.shelf.saved lu := by
  have held : lu ∉ strayUnits s := by simp [strayUnits, h]
  rw [rebuildMap_eq, shelfFlags_map, forEach_dropCopy_map held]
  rfl

theorem rebuildMap_stored (s : State) : (rebuildMap s).mem = s.mem ∧ (rebuildMap s).units = s.units := by
  have only := (modShelf_only _ s).trans (forEach_only dropCopy_only (strayUnits s) (journalMap s))
  rw [rebuildMap_eq, shelfFlags_mem, shelfFlags_units]
  exact ⟨only.mem, only.units⟩

/-! ### Garbage, wear and relocation (R356, R357) -/

theorem execGarbageCollect_notDue {s : State} {i : Nat} (h : s.shelf.mapReady = false ∨ (s.block i).valid ≠ [] ∨
    (s.block i).used = 0 ∨ (s.block i).bad = true ∨ rawBlocks ≤ i) : exec (.garbageCollect i) s = .next s := by
  refine if_neg ?_
  rintro ⟨ready, raw, good, programmed, superseded⟩
  obtain unready | valid | erased | bad | beyond := h
  · exact Bool.noConfusion (unready.symm.trans ready)
  · exact valid superseded
  · exact programmed erased
  · exact absurd good (by simp [bad])
  · exact absurd raw (Nat.not_lt.2 beyond)

theorem execGarbageCollect_due {s : State} {i : Nat} (ready : s.shelf.mapReady = true) (raw : i < rawBlocks)
    (good : (s.block i).bad = false) (programmed : (s.block i).used ≠ 0) (superseded : (s.block i).valid = []) :
    exec (.garbageCollect i) s = .next (shelfFlags (s.setBlock i
      { s.block i with erases := (s.block i).erases + 1, used := 0, reads := 0 })) :=
  if_pos ⟨ready, raw, by rw [good]; rfl, programmed, superseded⟩

theorem execWearLevel_notDue {s : State} (h : maxErase s ≤ minErase s + 256 ∨ s.shelf.mapReady = false) :
    exec .wearLevel s = .next s := by
  refine if_pos (h.imp_right fun unready => ?_)
  rw [unready]
  rfl

theorem execWearLevel_due {s : State} {i : Nat} (ready : s.shelf.mapReady = true) (apart : minErase s + 256 < maxErase s)
    (low : lowBlock s = some i) :
    exec .wearLevel s = .next (shelfFlags (moveUnits i (fun _ _ => highBlock s i) s)) := by
  have due : ¬ (maxErase s ≤ minErase s + 256 ∨ (!s.shelf.mapReady) = true) := by
    rw [ready]
    simpa using apart
  change execWearLevel s = _
  unfold execWearLevel
  rw [if_neg due, low]

section
variable {s : State} {i : Nat} {failed : Bool}

theorem execShelfRelocate_notDue (lost : List Nat)
    (h : s.shelf.mapReady = false ∨ failed = false ∧ relocationDue s i = false) :
    exec (.shelfRelocate i failed lost) s = .next s := by
  refine if_neg ?_
  rintro ⟨-, ready, due⟩
  obtain unready | ⟨working, fresh⟩ := h
  · exact Bool.noConfusion (unready.symm.trans ready)
  · simp [working, fresh] at due

variable (ready : s.shelf.mapReady = true) (raw : i < rawBlocks) (due : failed = true ∨ relocationDue s i = true)
include ready raw due

theorem execShelfRelocate_due (lost : List Nat) : exec (.shelfRelocate i failed lost) s = .next (shelfFlags
    (listFailed i failed (moveUnits i (fun _ t => otherBlock i t)
      (forEach (lost.filter (fun lu => (s.block i).valid.contains lu)) (fun lu t => loseUnit lu (dropCopy lu t)) s)))) :=
  if_pos ⟨raw, ready, due⟩

variable {lu : Nat} (valid : (s.block i).valid = [lu]) (lies : s.unitIn lu i)
include valid lies

/-- The one unit of a block moves to the block that its flash stack chooses. -/
theorem shelfRelocate_moves {d : Nat} (choice : otherBlock i s = some d) (ne : d ≠ i) :
    Yields (.shelfRelocate i failed []) s fun t =>
      look none t.shelf.map lu = some (d / blocksPerStack, d % blocksPerStack * 512 + (s.block d).used) ∧
      (t.block i).valid = [] ∧ (t.block i).bad = ((s.block i).bad || failed) ∧
      (t.block d).valid = (s.block d).valid ++ [lu] ∧ t.mem = s.mem ∧ t.units = s.units := by
  have moved := moveInto_movedUnits ne lies
  have answer := execShelfRelocate_due ready raw due []
  rw [List.filter_nil, forEach_nil, moveUnits_one (dst := fun _ t => otherBlock i t) valid choice] at answer
  have only := moved.only.trans (listFailed_only i failed _)
  refine ⟨_, answer, ?_, ?_, ?_, ?_, ?_, ?_⟩
  · rw [shelfFlags_map, listFailed_shelf]
    simpa using moved.entry 0 (by simp)
  · rw [shelfFlags_block, listFailed_block, if_pos rfl]
    exact State.movedUnits.emptied (valid ▸ moved)
  · rw [shelfFlags_block, listFailed_block, if_pos rfl, moved.source]
  · rw [shelfFlags_block, listFailed_block, if_neg ne, moved.valid]
  · rw [shelfFlags_mem, only.mem]
  · rw [shelfFlags_units, only.units]

/-- The one unit of a block is lost: nothing is left to move. -/
theorem shelfRelocate_loses (new : s.shelf.lostUnits.contains lu = false) :
    Yields (.shelfRelocate i failed [lu]) s fun t =>
      t.shelf.lostUnits = s.shelf.lostUnits ++ [lu] ∧ t.shelf.lost = satAdd 32 s.shelf.lost 1 ∧
      look none t.shelf.map lu = none ∧ (t.block i).valid = [] ∧ (t.block i).bad = ((s.block i).bad || failed) ∧
      (∀ o < 2048, look .good t.units (2 ^ 39 + lu * 2048 + o) = .poison) ∧
      (∀ a, a < 2 ^ 44 + lu * 65536 ∨ 2 ^ 44 + lu * 65536 + 65536 ≤ a → rdByte t.mem a = rdByte s.mem a) := by
  have registers := dropCopy_shelf lu s
  have dropped := dropCopy_block lies
  have new : (dropCopy lu s).shelf.lostUnits.contains lu = false := by rw [registers]; exact new
  have lost := loseUnit_shelf new
  have block : (loseUnit lu (dropCopy lu s)).block i = { s.block i with valid := [] } := by
    rw [State.block, lost]
    refine (dropped i).trans ((if_pos rfl).trans ?_)
    rw [valid]
    simp
  have answer := execShelfRelocate_due ready raw due [lu]
  rw [valid, List.filter_eq_self.2 (by simp), forEach_cons, forEach_nil, moveUnits_empty _ (by rw [block])] at answer
  have only := listFailed_only i failed (loseUnit lu (dropCopy lu s))
  have kept := listFailed_shelf i failed (loseUnit lu (dropCopy lu s))
  refine ⟨_, answer, ?_, ?_, ?_, ?_, ?_, fun o ho => ?_, fun a ha => ?_⟩
  · rw [shelfFlags_lostUnits, kept, lost, registers]
  · rw [shelfFlags_lost, kept, lost, registers]
  · rw [shelfFlags_map, kept, lost]
    exact (dropCopy_map lu lu s).trans (if_pos rfl)
  · rw [shelfFlags_block, listFailed_block, if_pos rfl, block]
  · rw [shelfFlags_block, listFailed_block, if_pos rfl, block]
  · rw [shelfFlags_units, only.units]
    exact loseUnit_poisoned new ho
  · rw [shelfFlags_mem, only.mem, loseUnit_mem new, rdByte_zeroBytes, if_neg (by omega), (dropCopy_only lu s).mem]
end

/-- The units of the block of the lowest count move to the erased block of the highest. -/
theorem wearLevel_moves {s : State} {i d : Nat} (ready : s.shelf.mapReady = true) (apart : minErase s + 256 < maxErase s)
    (low : lowBlock s = some i) (high : highBlock s i = some d) (ne : d ≠ i) (nodup : (s.block i).valid.Nodup)
    (lie : ∀ lu ∈ (s.block i).valid, s.unitIn lu i) : Yields .wearLevel s fun t =>
      (t.block i).valid = [] ∧ (t.block d).valid = (s.block d).valid ++ (s.block i).valid ∧
      (t.block d).used = (s.block d).used + (s.block i).valid.length ∧
      (∀ n < (s.block i).valid.length, look none t.shelf.map ((s.block i).valid.getD n 0) =
        some (d / blocksPerStack, d % blocksPerStack * 512 + (s.block d).used + n)) ∧
      (∀ lu, lu ∉ (s.block i).valid → look none t.shelf.map lu = look none s.shelf.map lu) ∧
      t.mem = s.mem ∧ t.units = s.units := by
  have moved := forEach_moveInto ne nodup lie
  have answer := execWearLevel_due ready apart low
  rw [high] at answer
  refine ⟨_, answer, ?_⟩
  simp only [shelfFlags_block, shelfFlags_map, shelfFlags_mem, shelfFlags_units]
  exact ⟨moved.emptied, moved.valid, moved.used, moved.entry, moved.others, moved.only.mem, moved.only.units⟩

/-- Settles O43: each command is due or not; one that is due is a read of a unit, a rebuilt map, an erased block, or a move or
a loss of units, before the Shelf's flags. -/
theorem shelfBlocksTurnOver : Obligations.ShelfBlocksTurnOver := by
  unfold Obligations.ShelfBlocksTurnOver
  refine ⟨fun s q j => ⟨execShelfReadDone_notDue, fun p rest ready source reads => ?read⟩,
    fun s => ⟨fun unreached => ?tooEarly, fun reached => ?rebuild⟩,
    fun s i => ⟨fun unready => ?unready, fun kept => execGarbageCollect_notDue (.inr kept),
      fun close => execWearLevel_notDue (.inl close), fun lost fresh => execShelfRelocate_notDue lost (.inr ⟨rfl, fresh⟩),
      fun ready => ⟨fun raw good programmed superseded => ?garbage, fun d => wearLevel_moves ready, fun apart low full => ?full,
        fun failed lu d f u raw due valid entry home => shelfRelocate_moves ready raw due valid ⟨f, u, entry, home⟩,
        fun failed lu f u raw due valid entry home => shelfRelocate_loses ready raw due valid ⟨f, u, entry, home⟩⟩⟩⟩
  case read =>
    have answer := execShelfReadDone_due ready source reads
    have left := modInst_readsLeft reads
    have only := readAt_only (s.ctx q).berth p.1 (s.modInst q j (Inst.reading rest))
    refine ⟨_, answer, ?_, ?_, fun elsewhere => ?_, fun f u stored entry => ?_⟩
    · rw [only]
      rfl
    · rw [only]
      exact left
    · rw [readAt_elsewhere (s := s.modInst q j (Inst.reading rest)) elsewhere]
      rfl
    · have read := readAt_block (s := s.modInst q j (Inst.reading rest)) stored ⟨f, u, entry, rfl⟩
      exact ⟨(read _).trans (if_pos rfl), fun i hi => (read i).trans (if_neg hi)⟩
  case tooEarly => rw [execShelfMapRebuild_eq, shelfReached, unreached, if_neg Bool.false_ne_true]
  case rebuild =>
    have answer := execShelfMapRebuild_eq s
    rw [shelfReached, reached, if_pos rfl] at answer
    obtain ⟨mem, units⟩ := rebuildMap_stored s
    exact ⟨_, answer, rebuildMap_ready s, rebuildMap_inService s, fun lu => rebuildMap_map, mem, units⟩
  case unready =>
    exact ⟨execGarbageCollect_notDue (.inl unready), execWearLevel_notDue (.inr unready), fun failed lost =>
      execShelfRelocate_notDue lost (.inl unready)⟩
  case garbage =>
    refine ⟨_, execGarbageCollect_due ready raw good programmed superseded, ?_⟩
    simp only [shelfFlags_block, shelfFlags_map, shelfFlags_mem, shelfFlags_units, setBlock_block]
    exact ⟨if_pos trivial, fun j hj => if_neg hj, rfl, rfl, rfl⟩
  case full =>
    have answer := execWearLevel_due ready apart low
    rw [full, moveUnits_none] at answer
    exact ⟨_, answer, shelfFlags_map s, shelfFlags_block s, shelfFlags_mem s⟩

end Sys2Proof.Machine
end

section
/-! SUPPORT. The invariants of the whole part, from what every command and every step keeps (`exec_answers`, `step_keeps`). -/
namespace Sys2Proof.Machine

/-- Settles O3: each part of soundness is among what every step keeps. -/
theorem everyStepKeepsSoundness : Obligations.EveryStepKeepsSoundness := by
  unfold Obligations.EveryStepKeepsSoundness
  rintro s t ⟨memories, keeper, tickets⟩ h
  have kept := step_keeps h
  exact ⟨kept.memWf memories, kept.keeper keeper, kept.tickets tickets⟩

/-- Settles O4: every memory, buffer and list of the part after a power-on reset is empty. -/
theorem resetIsSound : Obligations.ResetIsSound := by
  unfold Obligations.ResetIsSound
  exact ⟨⟨rfl, Dbg.fits_reset, fun _ => Nat.zero_le _⟩, rfl⟩

/-- Settles O2: every command answers a state that keeps the queue. -/
theorem everyCommandAnswersAndKeepsTheQueue : Obligations.EveryCommandAnswersAndKeepsTheQueue := by
  unfold Obligations.EveryCommandAnswersAndKeepsTheQueue
  intro c s
  obtain ⟨t, answer, kept⟩ := exec_answers c s
  exact ⟨t, answer, kept.pending⟩

/-- Settles O5: SECVER_MIN is among what every step keeps; a type's least SECVER is the greater of its fuse at delivery and that. -/
theorem secverMinNeverFalls : Obligations.SecverMinNeverFalls := by
  unfold Obligations.SecverMinNeverFalls
  intro s t h type
  exact max_le_max (Nat.le_refl _) ((step_keeps h).secver type)

/-- Settles O7: the counter of free values is among what every step keeps. -/
theorem freeValuesAreFresh : Obligations.FreeValuesAreFresh := by
  unfold Obligations.FreeValuesAreFresh
  intro s t h
  exact (step_keeps h).fresh

/-- Settles O1: a step looks at the front of the queue alone. -/
theorem stepRunsTheFrontCommand : Obligations.StepRunsTheFrontCommand := by
  unfold Obligations.StepRunsTheFrontCommand
  refine ⟨fun c rest s front => ?_, fun s empty => ?_⟩
  · unfold step
    rw [front]
  · unfold step
    rw [empty]

end Sys2Proof.Machine
end

section
/-! SUPPORT. Two statements ask of a kill that it ends every killable run; a run that waits, with its words fetched, is
killable by its phase, and where it is marked as landed the kill leaves it as it was (02_kernels_commit.md R64). -/
namespace Sys2Proof.Machine

/-- Half 0 is in AGREED and queue 5, of half 0, holds a run in STATE 1 that is marked as landed. -/
def agreedLanded : State :=
  { clk := { power := .alwaysOn }, twcH := [(0, { chair := .agreed, bootStage := 7 })]
    runs := [(5, { phase := .waiting, fetched := true, landed := true })] }

/-- Refutes O51: a half that no longer hears the other one enters SPLIT, and the statement asks that every killable run of
it is killed then (`State.splitBy`); in the state `agreedLanded` the run of queue 5 still waits after it. -/
theorem not_bootStagesMeasureAndLoad : ¬ Obligations.BootStagesMeasureAndLoad := by
  unfold Obligations.BootStagesMeasureAndLoad
  intro h
  obtain ⟨-, -, heartbeats⟩ := h
  obtain ⟨-, -, lost, -⟩ := heartbeats agreedLanded 0 false 0 0
  obtain ⟨split, -⟩ := lost _ rfl
  obtain ⟨t, answer, -, -, -, -, -, kills⟩ := split rfl
  obtain ⟨killed, -⟩ := kills 5 rfl rfl
  have waits : (t.run 5).phase = .waiting := by
    rw [← Host.Outcome.next.inj answer]
    rfl
  exact absurd (waits.symm.trans killed) (by decide)

/-- Keeper runs at level 2 with berth 0 unlocked, whose queue 5 holds a run in STATE 1 that is marked as landed. -/
def unlockedLanded : State :=
  { clk := { power := .alwaysOn }, twcH := [(0, { bootStage := 7 })], sec := { level := 2, debugBerths := 1 }
    berths := [(0, { layout := { configured := true, qcount := 8 } })], queues := [(5, { state := .waiting })]
    runs := [(5, { phase := .waiting, fetched := true, landed := true })] }

/-- The reply of Keeper leaves every queue. -/
theorem replied_queue {u t : State} {lines : List String} {err : Bool} (h : u.replied lines err t) (q : Nat) :
    t.queue q = u.queue q := by
  rw [h.1]
  rfl

/-- Refutes O59: the statement asks that KILL of a killable run counts a kill in its queue; in the state `unlockedLanded`
the run of queue 5 is killable by its phase, but it has landed, and its queue is left as it was. -/
theorem not_keeperAnswersItsLines : ¬ Obligations.KeeperAnswersItsLines := by
  unfold Obligations.KeeperAnswersItsLines
  intro h
  obtain ⟨-, commands, -⟩ := h
  obtain ⟨-, -, -, -, -, -, -, -, -, kill, -⟩ := commands unlockedLanded _ ⟨rfl, rfl, rfl, rfl, rfl⟩ rfl
  obtain ⟨-, ends⟩ := kill 5 (by decide) (by decide)
  obtain ⟨t, answer, w, ended, replied⟩ := ends rfl
  have killed : (t.queue 5).killCount = 1 := by
    rw [replied_queue replied, ended.1]
    rfl
  have left : (t.queue 5).killCount = 0 := by
    rw [← Host.Outcome.next.inj answer]
    rfl
  exact absurd (killed.symm.trans left) (by decide)

end Sys2Proof.Machine
end

section
/-! SUPPORT. The DOE mailbox (18_host_port.md R453, 20_security.md R476 to R478): what each request leaves while the host link
is up, and that none is answered while it is down. -/
namespace Sys2Proof.Machine

section
variable {s : State} (down : s.linkUp = false)
include down

theorem execDoeDiscovery_down (i : Nat) : exec (.doeDiscovery i) s = .next s := if_pos (by simp [down])

theorem execCdatRead_down : exec .cdatRead s = .next s := congrArg Host.Outcome.next (if_neg (by simp [down]))

theorem execSpdmRequest_down (r : SpdmReq) : exec (.spdmRequest r) s = .next s := if_pos (by simp [down])

theorem execGetMldsaCert_down (off len : Nat) : exec (.getMldsaCert off len) s = .next s := if_pos (by simp [down])

theorem execSignTranscript_down : exec .signTranscript s = .next s := if_pos (by simp [down])

end

/-- The answer of DOE discovery to an index: the protocol, and the index that follows. -/
def discoveryWord : Nat → Nat
  | 0 => 0x01000001
  | 1 => 0x02010001
  | 2 => 0x00021E98
  | _ => 0x0000FFFF

section
variable {s : State} (up : s.linkUp = true)
include up

theorem execDoeDiscovery_up (i : Nat) : exec (.doeDiscovery i) s = .next (s.emit (.doe (leBytes 4 (discoveryWord i)))) :=
  if_neg (by simp [up])

theorem execCdatRead_up : exec .cdatRead s = .next (s.emit (.doe (cdatBytes s.glb.linkWidth))) :=
  congrArg Host.Outcome.next (if_pos up)

theorem execSpdmRequest_up (r : SpdmReq) : exec (.spdmRequest r) s = .next ((s.modSec (fun x => { x with
    lastHash := if spdmSigned s.sec.spdmSeen r then
      some (Config.sha384 (Config.spdmTranscript s.sec.spdmSeen r (spdmContent s r))) else none
    spdmSeen := if r = .getVersion then [r] else s.sec.spdmSeen ++ [r] })).emit
      (.doe (Config.spdmResponse s.sec.spdmSeen r (spdmContent s r)))) := if_neg (by simp [up])

theorem execGetMldsaCert_up (off len : Nat) : exec (.getMldsaCert off len) s =
    .next ((s.modSec (fun x => { x with lastHash := none })).emit (.doe (if len > 4096 then spdmError 1
      else ((Config.certChain 1 (aliasCdi s) (allMeas s)).drop off).take len))) := if_neg (by simp [up])

theorem execSignTranscript_unsigned (unsigned : s.sec.lastHash = none) : exec .signTranscript s =
    .next ((s.modSec (fun x => { x with lastHash := none })).emit (.doe (spdmError 4))) := by
  refine (if_neg (by simp [up])).trans ?_
  rw [unsigned]

theorem execSignTranscript_signed {h : BitVec 384} (signed : s.sec.lastHash = some h) : exec .signTranscript s =
    .next ((s.modSec (fun x => { x with lastHash := none })).emit
      (.doe (Config.mlSign (aliasCdi s) (ascii "xzl-spdm") h))) := by
  refine (if_neg (by simp [up])).trans ?_
  rw [signed]

end

/-- Settles O58: each request by its equation while the link is up; while it is down none is answered. -/
theorem mailboxRequestsAreAnswered : Obligations.MailboxRequestsAreAnswered := by
  unfold Obligations.MailboxRequestsAreAnswered
  refine fun s answer emitted => ⟨fun down => ⟨execDoeDiscovery_down down, execCdatRead_down down, execSpdmRequest_down down,
    execGetMldsaCert_down down, execSignTranscript_down down⟩, fun up => ?answers, fun nonce slot => ⟨rfl, rfl⟩⟩
  obtain rfl : answer = fun bs => { s with out := Out.doe bs :: s.out } := funext emitted
  refine ⟨⟨_, execDoeDiscovery_up up _, rfl⟩, ⟨_, execDoeDiscovery_up up _, rfl⟩, ⟨_, execDoeDiscovery_up up _, rfl⟩,
    fun i beyond => ?last, ⟨_, execCdatRead_up up, rfl⟩, ?spdm, fun off len => ?cert, ?sign⟩
  case last =>
    obtain ⟨k, rfl⟩ := Nat.exists_eq_add_of_le' beyond
    exact ⟨_, execDoeDiscovery_up up _, rfl⟩
  case spdm =>
    rintro r - - rfl rfl
    exact ⟨_, execSpdmRequest_up up r, rfl⟩
  case cert =>
    refine ⟨_, execGetMldsaCert_up up off len, rfl, fun short => ?_, fun long => ?_⟩
    · rw [if_neg (Nat.not_lt.mpr short)]
      rfl
    · rw [if_pos long]
      rfl
  case sign =>
    cases last : s.sec.lastHash with
    | none => exact ⟨_, execSignTranscript_unsigned up last, rfl, fun _ => rfl, nofun⟩
    | some h =>
      refine ⟨_, execSignTranscript_signed up last, rfl, nofun, ?_⟩
      rintro _ ⟨rfl⟩
      rfl

end Sys2Proof.Machine
end

section
/-! SUPPORT. A chunk of a COLL that goes out, or goes out again (17_longshore.md R419, R420). -/
namespace Sys2Proof.Machine

/-- The engine of a COLL counts the bytes of a chunk; a COLL without one counts none. -/
def countBytes (q j n : Nat) (s : State) : State :=
  match (s.inst q j).engine with
  | some e => s.modLshEng e (fun l => { l with bytes := wrapAdd 64 l.bytes n })
  | none => s

/-- A chunk goes out in the turn that the chunks sent before it to its target give it. -/
theorem sendChunk_eq (q j : Nat) (x : Send) (s : State) : sendChunk q j x s = sendColl q j x.target 0x04 0
    ((s.collSt q j).sends.filter (fun y => y.target = x.target && y.sent)).length
    (fun p => { p with chunk := x.chunk, data := x.data, length := x.data.length, poison := x.poison })
    (countBytes q j x.data.length s) := rfl

theorem countBytes_shape (q j n : Nat) (s : State) : countBytes q j n s = { s with lsh := (countBytes q j n s).lsh } := by
  unfold countBytes
  split <;> rfl

theorem countBytes_lshEng (q j n : Nat) (s : State) (e : Nat) : (countBytes q j n s).lshEng e =
    if (s.inst q j).engine = some e then { s.lshEng e with bytes := wrapAdd 64 (s.lshEng e).bytes n } else s.lshEng e := by
  unfold countBytes
  cases (s.inst q j).engine with
  | none => rfl
  | some k =>
    by_cases own : e = k
    · subst own
      simp
    · rw [if_neg fun h => own (Option.some.inj h).symm]
      simp [own]

theorem sent_lshEng {s t : State} (h : s.sent t) (e : Nat) : t.lshEng e = s.lshEng e := by
  rw [h]
  rfl

/-- Messages and the bytes of its engine are all that a chunk which goes out changes. -/
theorem sendChunk_shape (q j : Nat) (x : Send) (s : State) : sendChunk q j x s = { s with
    lsh := (sendChunk q j x s).lsh, ports := (sendChunk q j x s).ports, cwy := (sendChunk q j x s).cwy
    arbs := (sendChunk q j x s).arbs, out := (sendChunk q j x s).out } := by
  rw [sendChunk_eq]
  have sent := sendColl_sent q j x.target 0x04 0 ((s.collSt q j).sends.filter (fun y => y.target = x.target && y.sent)).length
    (fun p => { p with chunk := x.chunk, data := x.data, length := x.data.length, poison := x.poison })
    (countBytes q j x.data.length s)
  generalize sendColl q j x.target _ _ _ _ (countBytes q j x.data.length s) = t at sent ⊢
  rw [sent, countBytes_shape]

theorem sendChunk_lshEng (q j : Nat) (x : Send) (s : State) (e : Nat) : (sendChunk q j x s).lshEng e =
    if (s.inst q j).engine = some e then { s.lshEng e with bytes := wrapAdd 64 (s.lshEng e).bytes x.data.length }
    else s.lshEng e := by
  rw [sendChunk_eq, sent_lshEng (sendColl_sent ..), countBytes_lshEng]

section
variable {s : State} {q j chunk : Nat}

theorem execChunkResend_acknowledged (none_waits : (s.collSt q j).sends.find? (fun x => x.target = chunk / 2 ^ 32 &&
    x.chunk = chunk % 2 ^ 32 && x.sent && !x.acked) = none) : exec (.chunkResend q j chunk) s = .next s := by
  simp only [exec, execChunkResend, none_waits]

theorem execChunkResend_waits {x : Send} (waits : (s.collSt q j).sends.find? (fun x => x.target = chunk / 2 ^ 32 &&
    x.chunk = chunk % 2 ^ 32 && x.sent && !x.acked) = some x) :
    exec (.chunkResend q j chunk) s = .next (sendChunk q j x s) := by
  simp only [exec, execChunkResend, waits]

end

/-- Settles O38: the resend is the chunk's sending, where one waits for its acknowledgement. -/
theorem chunksAreResent : Obligations.ChunksAreResent := by
  unfold Obligations.ChunksAreResent
  intro s q j target n lt
  have parts : (target * 2 ^ 32 + n) / 2 ^ 32 = target ∧ (target * 2 ^ 32 + n) % 2 ^ 32 = n := by omega
  generalize target * 2 ^ 32 + n = chunk at parts ⊢
  obtain ⟨rfl, rfl⟩ := parts
  refine ⟨execChunkResend_acknowledged, fun x waits => ?_⟩
  have command := execChunkResend_waits waits
  refine ⟨command, _, command, sendChunk_shape q j x s, fun e engine => ?_, fun e other => ?_⟩
  · rw [sendChunk_lshEng, if_pos engine]
  · rw [sendChunk_lshEng, if_neg other]

end Sys2Proof.Machine
end

section
/-! SUPPORT. Packets on their way (16_causeway.md R398, R399, R406): where a packet goes from a half, what becomes of one that
has no route or has been too far, and of one that waits at the head of its queue. -/
namespace Sys2Proof.Machine

/-! ### Routing from a half (R406) -/

/-- A NACK goes back from a half, by its route or to this part; without a route, port p counts it as bad. -/
def bounce (half p : Nat) (n : Packet) (s : State) : State :=
  if n.dstPart = s.cwy.partId then s.emit (.packet none n)
  else match routePort s half n.vl n.dstPart with
    | some r => enqueue r n s
    | none => countBad p s

theorem bounce_home {half p : Nat} {n : Packet} {s : State} (home : n.dstPart = s.cwy.partId) :
    bounce half p n s = s.emit (.packet none n) := if_pos home

theorem bounce_routed {half p r : Nat} {n : Packet} {s : State} (away : n.dstPart ≠ s.cwy.partId)
    (found : routePort s half n.vl n.dstPart = some r) : bounce half p n s = enqueue r n s := by
  rw [bounce, if_neg away, found]

theorem bounce_lost {half p : Nat} {n : Packet} {s : State} (away : n.dstPart ≠ s.cwy.partId)
    (none_found : routePort s half n.vl n.dstPart = none) : bounce half p n s = countBad p s := by
  rw [bounce, if_neg away, none_found]

theorem route_home {half : Nat} {k : Packet} {s : State} (home : k.dstPart = s.cwy.partId) :
    route half k s = s.emit (.packet none k) := if_pos home

section
variable {half : Nat} {k : Packet} {s : State} (away : k.dstPart ≠ s.cwy.partId)
include away

theorem route_onward {r : Nat} (found : routePort s half k.vl k.dstPart = some r) (near : k.hops < 63) :
    route half k s = enqueue r k s := by
  rw [route, routeTo, if_neg away, found]
  exact if_neg (Nat.not_le.mpr near)

theorem route_farAnswer {r : Nat} (found : routePort s half k.vl k.dstPart = some r) (far : 63 ≤ k.hops)
    (answer : isAnswer k = true) : route half k s = countBad r s := by
  rw [route, routeTo, if_neg away, found]
  exact (if_pos far).trans (if_pos (by simp [answer]))

theorem route_farRequest {r : Nat} (found : routePort s half k.vl k.dstPart = some r) (far : 63 ≤ k.hops)
    (request : isAnswer k = false) : route half k s = bounce half r (nackTo s k 0x6) s := by
  rw [route, routeTo, if_neg away, found]
  exact (if_pos far).trans (if_neg (by simp [request]))

theorem route_lostAnswer (none_found : routePort s half k.vl k.dstPart = none) (answer : isAnswer k = true) :
    route half k s = countBad (32 * half) s := by
  rw [route, routeTo, if_neg away, none_found]
  exact if_pos (by simp [answer])

theorem route_lostRequest (none_found : routePort s half k.vl k.dstPart = none) (request : isAnswer k = false) :
    route half k s = bounce half (32 * half) (nackTo s k 0x5) s := by
  rw [route, routeTo, if_neg away, none_found]
  exact if_neg (by simp [request])

end

/-! ### What is discarded (R391, R398, R462) -/

theorem countBad_only (p : Nat) (s : State) : s.onlyPort p (countBad p s) := setPort_only ..

theorem countBad_port (p : Nat) (s : State) :
    (countBad p s).port p = { s.port p with rxBad := satAdd 16 (s.port p).rxBad 1 } := by simp [countBad]

theorem execMgmt_known {p : Packet} (known : mgmtKnown p.kind = true) (h : Nat) (s : State) :
    exec (.mgmt h p) s = .next (arrive p s) := congrArg Host.Outcome.next (if_pos known)

theorem execMgmt_reserved {p : Packet} (reserved : mgmtKnown p.kind = false) (h : Nat) (s : State) :
    exec (.mgmt h p) s = .next (countBad (p.port.getD (32 * h)) (arrive p s)) :=
  congrArg Host.Outcome.next (if_neg (by simp [reserved]))

section
variable {s : State} {port vl : Nat}

theorem execHolTimeout_empty (empty : frontOf (s.port port).txq vl = none) :
    exec (.holTimeout port vl) s = .next s := by
  simp only [exec, execHolTimeout, empty]

variable {y : Packet} (front : frontOf (s.port port).txq vl = some y)
include front

/-- A packet of this part's own, or one that has credit, stays at the head of its queue. -/
theorem execHolTimeout_stays (stays : y.srcPart = s.cwy.partId ∨
    look 0 (s.port port).credit vl + flitsOf y ≤ vlBuffer vl) : exec (.holTimeout port vl) s = .next s := by
  simp only [exec, execHolTimeout, front]
  refine if_neg fun ⟨transit, without⟩ => ?_
  obtain own | credit := stays
  · exact transit own
  · exact Nat.not_lt.mpr credit without

theorem execHolTimeout_discards (transit : y.srcPart ≠ s.cwy.partId)
    (without : vlBuffer vl < look 0 (s.port port).credit vl + flitsOf y) :
    exec (.holTimeout port vl) s = .next (sendPort port (dropFront (s.port port).txq vl).length
      { s.setPort port { s.port port with txq := dropFront (s.port port).txq vl } with
        cwy := { s.cwy with holDrops := satAdd 32 s.cwy.holDrops 1 } }) := by
  simp only [exec, execHolTimeout, front]
  rw [if_pos ⟨transit, without⟩, modCwy_port, setPort_port, if_pos rfl]
  rfl

end

/-! ### O56 -/

/-- Settles O56: a packet that passes through is routed from the half of its port, case by case of its route and its hops. -/
theorem packetsPassThrough : Obligations.PacketsPassThrough := by
  unfold Obligations.PacketsPassThrough
  intro s p port half v k hhalf hv hk
  have forward : exec (.packetForward port p) s = .next (route half k v) := by
    rw [hhalf, hv, hk]
    rfl
  have dst : k.dstPart = p.dstPart := by rw [hk]
  have hops : k.hops = p.hops := by rw [hk]
  have answers : isAnswer k = isAnswer p := by rw [hk]; rfl
  have routes : routePort v half k.vl k.dstPart = routePort v half p.vl p.dstPart := by rw [hk]
  have back : ∀ reason, (nackTo v k reason).dstPart = p.srcPart := fun _ => by rw [hk]; rfl
  rw [← routes, ← dst, ← hops, ← answers]
  refine ⟨forward, fun home => ⟨_, forward, route_home home⟩, fun r away found => ⟨fun near => ?onward, fun far answer =>
    ?farAnswer, fun r' far request source back_found => ?farBack, fun far request source back_lost => ?farLost⟩,
    fun away lost => ⟨fun answer => ?lostAnswer, fun r request source back_found => ?lostBack,
      fun request source back_lost => ?lostLost⟩, fun n hn away request source far => ?own, ?reserved, fun h =>
      ⟨fun known => ⟨_, execMgmt_known known h s, rfl⟩, fun bad => ⟨_, execMgmt_reserved bad h s, rfl⟩⟩,
    fun vl => execHolTimeout_empty, fun vl x y u hx front hu => ?head⟩
  case onward => exact ⟨_, forward, route_onward away found near⟩
  case farAnswer => exact ⟨_, forward, route_farAnswer away found far answer⟩
  case farBack =>
    exact ⟨_, forward, (route_farRequest away found far request).trans
      (bounce_routed (by rwa [back]) (by rw [back]; exact back_found))⟩
  case farLost =>
    exact ⟨_, forward, (route_farRequest away found far request).trans
      (bounce_lost (by rwa [back]) (by rw [back]; exact back_lost))⟩
  case lostAnswer => exact ⟨_, forward, route_lostAnswer away lost answer⟩
  case lostBack =>
    exact ⟨_, forward, (route_lostRequest away lost request).trans
      (bounce_routed (by rwa [back]) (by rw [back]; exact back_found))⟩
  case lostLost =>
    exact ⟨_, forward, (route_lostRequest away lost request).trans
      (bounce_lost (by rwa [back]) (by rw [back]; exact back_lost))⟩
  case own =>
    have home : ∀ reason, (nackTo v k reason).dstPart = v.cwy.partId := fun _ => (back _).trans source
    rw [hn]
    cases found : routePort v half k.vl k.dstPart with
    | none => exact ⟨_, forward, (route_lostRequest away found request).trans (bounce_home (home _))⟩
    | some r =>
      exact ⟨_, forward, (route_farRequest away found (far (by rw [found]; rfl)) request).trans (bounce_home (home _))⟩
  case reserved =>
    have command : exec (.reservedPacket port p) s = .next (countBad port v) := by
      rw [hv]
      rfl
    exact ⟨_, command, countBad_only port v, countBad_port port v⟩
  case head =>
    subst hx hu
    refine ⟨execHolTimeout_stays front, fun transit without => ?_⟩
    have command := execHolTimeout_discards front transit without
    refine ⟨command, fun empty => ?_⟩
    rw [empty] at command
    exact ⟨_, command, rfl, fun j other => (setPort_only s port _).2 j other, look_put_self ..⟩

end Sys2Proof.Machine
end

section
/-! SUPPORT. The link layer (16_causeway.md R391 to R396): what going DOWN leaves of a port, the credit that a LINK_ACK returns,
and each link command where it is due. -/
namespace Sys2Proof.Machine

/-! ### Going DOWN (R394) -/

/-- A port without queued packets has none to route again. -/
theorem reroute_empty {p : Nat} {s : State} (empty : (s.port p).txq = []) :
    reroute p s = s.setPort p { s.port p with txq := [] } := by
  unfold reroute
  rw [empty]
  rfl

theorem goDown_stays {p : Nat} {s : State} (h : (s.port p).state ≠ .up) : goDown p s = s := if_neg h

/-- An UP port without queued packets goes DOWN alone. -/
theorem goDown_downed {p : Nat} {s : State} (up : (s.port p).state = .up) (empty : (s.port p).txq = []) :
    s.onlyPort p (goDown p s) ∧
      (goDown p s).port p = (s.port p).downed ((s.port p).enable && portPowered s p) := by
  have down : goDown p s = trainPort p (reroute p (s.setPort p { s.port p with
      state := .down, linkDowns := satAdd 16 (s.port p).linkDowns 1, unacked := [], rxHold := false, nakRun := 0 })) :=
    if_pos up
  rw [down, reroute_empty (by simpa using empty)]
  refine ⟨((setPort_only ..).trans (setPort_only ..)).trans (trainPort_only p _), ?_⟩
  rw [trainPort_port, portPowered_setPort, portPowered_setPort]
  cases enabled : (s.port p).enable <;> cases powered : portPowered s p <;> simp [Port.downed, enabled, empty]

theorem goDown_setPort {p : Nat} {s : State} {x : Port} (up : x.state = .up) (empty : x.txq = []) :
    s.onlyPort p (goDown p (s.setPort p x)) ∧
      (goDown p (s.setPort p x)).port p = x.downed (x.enable && portPowered s p) := by
  obtain ⟨only, port⟩ := goDown_downed (p := p) (s := s.setPort p x) (by simpa using up) (by simpa using empty)
  refine ⟨(setPort_only ..).trans only, ?_⟩
  rw [port, setPort_port, if_pos rfl, portPowered_setPort]

/-! ### Entries of a table changed one after the other -/

theorem look_foldl_update {α : Type} [DecidableEq α] (d : α) (f : Nat → α → α) {l : List Nat} (nodup : l.Nodup) (t : Tbl α)
    (k : Nat) : look d (l.foldl (fun c i => put d c i (f i (look d c i))) t) k =
      if k ∈ l then f k (look d t k) else look d t k := by
  induction l generalizing t with
  | nil => rfl
  | cons i l ih =>
    obtain ⟨fresh, rest⟩ := List.nodup_cons.mp nodup
    rw [List.foldl_cons, ih rest, look_put]
    by_cases own : k = i
    · subst own
      simp [fresh]
    · simp [own]

/-! ### Commands of the link, one by one -/

theorem execAckStall_idle {p : Nat} {s : State} (none_sent : (s.port p).unacked = []) :
    exec (.ackStall p) s = .next s := congrArg Host.Outcome.next (if_pos none_sent)

theorem execAckStall_due {p : Nat} {s : State} (sent : (s.port p).unacked ≠ []) :
    exec (.ackStall p) s = .next (goDown p s) := congrArg Host.Outcome.next (if_neg sent)

section
variable {s : State} {p : Nat} (silent : carries s p = false)
include silent

theorem execLinkAck_silent (n c : Nat) : exec (.linkAck p n c) s = .next s := if_neg (by simp [silent])

theorem execLinkNak_silent (n : Nat) : exec (.linkNak p n) s = .next s := if_neg (by simp [silent])

end

theorem execLinkAckTimer_idle {s : State} {p : Nat} (idle : carries s p = false ∨ (s.port p).sinceAck = 0) :
    exec (.linkAckTimer p) s = .next s := by
  refine congrArg Host.Outcome.next (if_neg ?_)
  obtain silent | none_due := idle
  · simp [silent]
  · simp [none_due]

/-- A port after a LINK_ACK: the retry buffer from the number on, the credit that it returns. -/
def Port.linkAcked (x : Port) (n c : Nat) : Port :=
  { x with
    unacked := afterNumber x.unacked n
    credit := (List.range 8).foldl (fun t vl => put 0 t vl (look 0 t vl - 16 * field c (4 * vl) 4)) x.credit }

theorem linkAcked_credit (x : Port) (n c : Nat) {vl : Nat} (lt : vl < 8) :
    look 0 (x.linkAcked n c).credit vl = look 0 x.credit vl - 16 * field c (4 * vl) 4 :=
  (look_foldl_update 0 (fun vl y => y - 16 * field c (4 * vl) 4) List.nodup_range x.credit vl).trans
    (if_pos (List.mem_range.mpr lt))

/-- A port after a LINK_NAK: the run of LINK_NAKs that name its number, the flits that go out again. -/
def Port.linkNaked (x : Port) (n : Nat) : Port :=
  { x with
    nakNum := n, nakRun := if x.nakNum = n then x.nakRun + 1 else 1
    txFlits := wrapAdd 64 x.txFlits (x.unacked.dropWhile (·.1 ≠ n)).length }

section
variable {s : State} {p : Nat} (open_ : carries s p = true)
include open_

theorem execLinkAck_due (n c : Nat) : exec (.linkAck p n c) s =
    .next (sendPort p (s.port p).txq.length (s.setPort p ((s.port p).linkAcked n c))) := by
  refine (if_pos open_).trans ?_
  rw [modPort_eq, setPort_port, if_pos rfl]
  rfl

theorem execLinkNak_down {n : Nat} (many : 16 ≤ ((s.port p).linkNaked n).nakRun) :
    exec (.linkNak p n) s = .next (goDown p (s.setPort p ((s.port p).linkNaked n))) :=
  (if_pos open_).trans (congrArg Host.Outcome.next (if_pos many))

theorem execLinkNak_again {n : Nat} (few : ((s.port p).linkNaked n).nakRun < 16) :
    exec (.linkNak p n) s = .next { s.setPort p ((s.port p).linkNaked n) with
      out := if (s.port p).unacked.dropWhile (·.1 ≠ n) = [] then s.out
        else Out.flits p (((s.port p).unacked.dropWhile (·.1 ≠ n)).map (·.2)) :: s.out } := by
  refine ((if_pos open_).trans (congrArg Host.Outcome.next (if_neg (Nat.not_le.mpr few)))).trans ?_
  by_cases none_again : (s.port p).unacked.dropWhile (·.1 ≠ n) = []
  · rw [if_pos none_again, if_pos none_again]
    rfl
  · rw [if_neg none_again, if_neg none_again]
    rfl

theorem execLinkAckTimer_due (due : 0 < (s.port p).sinceAck) :
    exec (.linkAckTimer p) s = .next (sendLinkAck p s) :=
  congrArg Host.Outcome.next (if_pos (by simp [open_, due]))

end

/-- A LINK_ACK that leaves is a message and a change of its port's counts. -/
theorem sendLinkAck_facts (p : Nat) (s : State) :
    sendLinkAck p s = { s with ports := (sendLinkAck p s).ports, out := (sendLinkAck p s).out } ∧
      (∀ j, j ≠ p → (sendLinkAck p s).port j = s.port j) ∧
      (∃ c, (sendLinkAck p s).out = Out.link p false (((s.port p).rxNext + 4095) % 4096) c :: s.out) ∧
      (sendLinkAck p s).port p = { s.port p with sinceAck := 0, freed := ((sendLinkAck p s).port p).freed } := by
  refine ⟨rfl, (setPort_only s p _).2, ⟨_, rfl⟩, ?_⟩
  simp [sendLinkAck]

/-- An uncorrectable codeword is counted at its port. -/
def countUncorr (p : Nat) (s : State) : State :=
  s.setPort p { s.port p with fecUncorr := satAdd 32 (s.port p).fecUncorr 1 }

theorem countUncorr_port (p : Nat) (s : State) : (countUncorr p s).port p =
    { s.port p with fecUncorr := satAdd 32 (s.port p).fecUncorr 1 } := by simp [countUncorr]

theorem countUncorr_carries (p : Nat) (s : State) : carries (countUncorr p s) p = carries s p := by
  simp [carries, countUncorr_port]

section
variable {s : State} {p : Nat}

/-- The first uncorrectable codeword since the last retry is answered by a LINK_NAK (R393). -/
theorem execCodewordUncorrectable_nak (due : carries s p = true ∧ (s.port p).rxHold = false) :
    exec (.codewordUncorrectable p) s = .next (((countUncorr p s).setPort p { s.port p with
      rxHold := true, retries := satAdd 32 (s.port p).retries 1, fecUncorr := satAdd 32 (s.port p).fecUncorr 1 }).emit
        (.link p true (s.port p).rxNext 0)) := by
  change Host.Outcome.next (if carries (countUncorr p s) p && !((countUncorr p s).port p).rxHold then
    ((countUncorr p s).setPort p { (countUncorr p s).port p with
      rxHold := true, retries := satAdd 32 ((countUncorr p s).port p).retries 1 }).emit
        (.link p true ((countUncorr p s).port p).rxNext 0) else countUncorr p s) = _
  rw [countUncorr_carries, countUncorr_port, if_pos (by simp [due])]

theorem execCodewordUncorrectable_counts (held : ¬(carries s p = true ∧ (s.port p).rxHold = false)) :
    exec (.codewordUncorrectable p) s = .next (countUncorr p s) := by
  refine congrArg Host.Outcome.next (if_neg ?_)
  change ¬ (carries (countUncorr p s) p && !((countUncorr p s).port p).rxHold) = true
  rw [countUncorr_carries, countUncorr_port]
  simpa using held

end

/-! ### O53 -/

/-- Settles O53: each link command by its equation; a port that goes DOWN with nothing queued changes alone. -/
theorem linksAcknowledgeAndRetry : Obligations.LinksAcknowledgeAndRetry := by
  unfold Obligations.LinksAcknowledgeAndRetry
  refine fun s p => ⟨fun lane x hx => ⟨?laneLost, fun dark => ?laneAlone⟩, execAckStall_idle, execAckStall_due,
    fun n again run x hagain hrun carried hx => ?nak, fun x train htrain up empty => ?downed, ?codeword,
    fun silent n c => ⟨execLinkAck_silent silent n c, execLinkNak_silent silent n, execLinkAckTimer_idle (.inl silent)⟩,
    fun idle => execLinkAckTimer_idle (.inr idle), fun carried => ⟨fun n c => ?ack, fun due => ?timer⟩⟩
  case laneLost =>
    rw [hx]
    rfl
  case laneAlone =>
    have command : exec (.laneLockLoss p lane) s = .next (goDown p (s.setPort p x)) := by
      rw [hx]
      rfl
    rw [goDown_stays (by simpa [hx] using dark)] at command
    exact ⟨_, command, setPort_only .., by simp⟩
  case nak =>
    obtain rfl : x = (s.port p).linkNaked n := by rw [hx, hagain, hrun]; rfl
    subst hagain hrun
    refine ⟨execLinkNak_down carried, fun few => ?_⟩
    exact ⟨_, execLinkNak_again carried few, rfl, (setPort_only s p _).2, look_put_self ..⟩
  case downed =>
    refine ⟨fun lane hx => ?_, fun hx sent => ?_, fun n again hagain named many hx => ?_⟩
    · have downs := goDown_setPort (s := s) (p := p) (x := x) (by rw [hx]; exact up) (by rw [hx]; exact empty)
      rw [show x.enable = (s.port p).enable by rw [hx], ← htrain] at downs
      exact ⟨_, by rw [hx]; rfl, downs⟩
    · have downs := goDown_downed up empty
      rw [← htrain, ← hx] at downs
      exact ⟨_, execAckStall_due sent, downs⟩
    · have carried : carries s p = true := by simp [carries, up]
      have run : ((s.port p).linkNaked n).nakRun = (s.port p).nakRun + 1 := if_pos named.symm
      obtain ⟨only, port⟩ := goDown_setPort (s := s) (p := p) (x := (s.port p).linkNaked n) up empty
      refine ⟨_, execLinkNak_down carried (by omega), only, ?_⟩
      rw [port, hx, hagain, htrain, named]
      rfl
  case codeword =>
    by_cases due : carries s p = true ∧ (s.port p).rxHold = false
    · refine ⟨_, execCodewordUncorrectable_nak due, rfl, ?_, fun _ => ⟨rfl, look_put_self ..⟩, fun h => absurd due h⟩
      exact ((setPort_only s p _).trans (setPort_only ..)).2
    · refine ⟨_, execCodewordUncorrectable_counts due, rfl, (setPort_only s p _).2, fun h => absurd h due, fun _ => ⟨rfl, ?_⟩⟩
      exact countUncorr_port p s
  case ack =>
    have command := execLinkAck_due carried n c
    refine ⟨_, command, fun empty => ?_, rfl, fun vl lt => linkAcked_credit _ n c lt⟩
    rw [command, empty]
    rfl
  case timer => exact ⟨_, execLinkAckTimer_due carried due, sendLinkAck_facts p s⟩

end Sys2Proof.Machine
end

section
/-! SUPPORT. One COLL of a run (17_longshore.md R411 to R421): finding it, changing its progress, what its shape then is, and
that moving its data undoes no stored byte. -/
namespace Sys2Proof.Machine

/-! ### Finding a COLL, and a change of its progress -/

/-- Instruction j of queue q is a COLL that has dispatched. -/
def State.holdsColl (s : State) (q j : Nat) : Prop := j < (s.run q).insts.length ∧ (s.inst q j).coll.isSome = true

theorem findColl_holds {s : State} {b group seq q j : Nat} (found : findColl s b group seq = some (q, j)) :
    s.holdsColl q j := by
  obtain ⟨x, -, here⟩ := firstSome_mem found
  dsimp only at here
  split at here
  · simp only [Option.map_eq_some_iff, Prod.mk.injEq] at here
    obtain ⟨k, index, rfl, rfl⟩ := here
    obtain ⟨lt, names, -⟩ := List.findIdx?_eq_some_iff_getElem.mp index
    refine ⟨lt, ?_⟩
    simp only [State.inst, List.getD_eq_getElem _ _ lt]
    cases coll : (s.run x).insts[k].coll with
    | none => simp [coll] at names
    | some c => rfl
  · cases here

section
variable {s : State} {q j : Nat}

theorem modColl_only (f : CollSt → CollSt) : s.onlyRun q (s.modColl q j f) := setRun_only ..

theorem modColl_inst (lt : j < (s.run q).insts.length) (f : CollSt → CollSt) :
    (s.modColl q j f).inst q j = { s.inst q j with coll := (s.inst q j).coll.map f } :=
  (modInst_inst ..).trans (if_pos ⟨rfl, rfl, lt⟩)

variable (holds : s.holdsColl q j)
include holds

theorem modColl_collSt (f : CollSt → CollSt) : (s.modColl q j f).collSt q j = f (s.collSt q j) := by
  obtain ⟨c, coll⟩ := Option.isSome_iff_exists.mp holds.2
  rw [State.collSt, modColl_inst holds.1, State.collSt, coll]
  rfl

/-- The shape of a COLL after a change of its progress within its group. -/
theorem modColl_dimOf {f : CollSt → CollSt} (group : (f (s.collSt q j)).group = (s.collSt q j).group) :
    (s.modColl q j f).dimOf q j = { s.dimOf q j with
      mine := (f (s.collSt q j)).myCounts, theirs := (f (s.collSt q j)).counts } := by
  simp only [State.dimOf, State.collGroup, modColl_collSt holds, modColl_inst holds.1, group]
  rfl

end

section
variable {s t : State} (sent : s.sent t) (q j : Nat)
include sent

theorem sent_run : t.run q = s.run q := by rw [sent]; rfl

theorem sent_inst : t.inst q j = s.inst q j := by rw [State.inst, sent_run sent]; rfl

theorem sent_collSt : t.collSt q j = s.collSt q j := by rw [State.collSt, sent_inst sent]; rfl

theorem sent_dimOf : t.dimOf q j = s.dimOf q j := by rw [sent]; rfl

end

/-! ### Moving data undoes no stored byte (R53) -/

theorem faultRun_stored (q code detail word : Nat) (g : Option Nat) (s : State) :
    (faultRun q code detail word g s).stored = s.stored := by
  cases landed : (s.run q).landed with
  | true => rw [faultRun_landed landed]
  | false => exact endedRun_stored (faultRun_ends q code detail word g s landed)

theorem abortHere_stored (b i reason detail seq : Nat) (s : State) :
    (abortHere b i reason detail seq s).stored = s.stored := by
  unfold abortHere
  dsimp only
  split
  · rfl
  · refine (forEach_same State.stored _ (fun q t => ?_) _ _).trans rfl
    split
    · exact faultRun_stored ..
    · exact faultRun_stored ..
    · split <;> exact faultRun_stored ..
    · exact faultRun_stored ..

theorem spreadAbort_stored (b i reason detail seq : Nat) (but : Option Nat) (s : State) :
    (spreadAbort b i reason detail seq but s).stored = s.stored :=
  (abortHere_stored ..).trans (sent_stored (sendAbort_sent ..))

theorem modColl_stored (s : State) (q j : Nat) (f : CollSt → CollSt) : (s.modColl q j f).stored = s.stored := rfl

theorem modGroup_stored (s : State) (b i : Nat) (f : Group → Group) : (s.modGroup b i f).stored = s.stored := rfl

theorem modRun_stored (s : State) (q : Nat) (f : Run → Run) : (s.modRun q f).stored = s.stored := rfl

theorem modInst_stored (s : State) (q j : Nat) (f : Inst → Inst) : (s.modInst q j f).stored = s.stored := rfl

/-- LAND goes down the tree, the COLL has landed, and its group knows it. -/
def landTaken (q j : Nat) (s : State) : State :=
  ((forEach (treeKids (s.dimOf q j).g (s.dimOf q j).rank) (fun r t => sendColl q j r 0x08 0 0 id t) s).modColl q j
    (fun x => { x with landed := true })).modGroup (s.collGroup q j).1 (s.collGroup q j).2
      (fun g => { g with landedSeen := ((s.collSt q j).seq :: g.landedSeen).take 64 })

/-- A kernel lands with its last COLL. -/
theorem landHere_eq (q j : Nat) (s : State) : landHere q j s =
    if lastColl ((landTaken q j s).run q).words = some (wordPos ((landTaken q j s).run q) j)
    then (landTaken q j s).modRun q (fun x => { x with landed := true }) else landTaken q j s := rfl

theorem landTaken_stored (q j : Nat) (s : State) : (landTaken q j s).stored = s.stored := by
  have sent : s.sent (forEach (treeKids (s.dimOf q j).g (s.dimOf q j).rank) (fun r t => sendColl q j r 0x08 0 0 id t) s) :=
    forEach_sent (fun _ _ => sendColl_sent ..) _ s
  exact (modGroup_stored ..).trans ((modColl_stored ..).trans (sent_stored sent))

theorem landHere_stored (q j : Nat) (s : State) : (landHere q j s).stored = s.stored := by
  rw [landHere_eq]
  split
  · exact (modRun_stored ..).trans (landTaken_stored q j s)
  · exact landTaken_stored q j s

theorem tryDone_stored (q j : Nat) (s : State) : (tryDone q j s).stored = s.stored := by
  unfold tryDone
  extract_lets k c kids bad u bi
  have same : u.stored = s.stored := modColl_stored ..
  clear_value u
  split
  · rfl
  · split
    · exact (sent_stored (sendColl_sent ..)).trans same
    · split
      · exact (spreadAbort_stored ..).trans same
      · exact (landHere_stored ..).trans same

theorem finishColl_stored (q j : Nat) (s : State) : (finishColl q j s).stored = s.stored := by
  unfold finishColl
  extract_lets i c u
  have same : u.stored = s.stored := kept_stored (idleUnit_kept ..)
  clear_value u
  split
  · rfl
  · exact (tryDone_stored ..).trans ((modInst_stored ..).trans same)

theorem sendChunk_stored (q j : Nat) (x : Send) (s : State) : (sendChunk q j x s).stored = s.stored := by
  rw [sendChunk_shape]
  rfl

theorem flushSends_stored (q j : Nat) (s : State) : (flushSends q j s).stored = s.stored := by
  unfold flushSends
  split
  · exact forEach_same State.stored _ (fun x t => (modColl_stored ..).trans (sendChunk_stored q j x t)) _ s
  · rfl

/-- What a chunk stored stays, whatever its COLL then does. -/
theorem settleColl_stored (q j : Nat) (s t : State) : (settleColl q j (.ok t) s).stored = t.stored :=
  (finishColl_stored ..).trans (flushSends_stored ..)

end Sys2Proof.Machine
end

section
/-! SUPPORT. Packets of a collective (17_longshore.md R416, R417, R419 to R421, R426): which of them reach their COLL, and what
one of each kind does there. -/
namespace Sys2Proof.Machine

/-! ### The gate of a group (R417) -/

theorem gatePacket_stray {p : Packet} {f : Nat → Nat → State → State} {s : State} (stray : s.findGroup p.group = none) :
    gatePacket p f s = s := by
  rw [gatePacket, stray]

section
variable {p : Packet} {f : Nat → Nat → State → State} {s : State} {b i : Nat} (found : s.findGroup p.group = some (b, i))
include found

theorem gatePacket_later (later : (s.group b i).epoch < p.epoch) : gatePacket p f s = holdPacket b i p s := by
  rw [gatePacket, found]
  exact if_pos later

theorem gatePacket_other (other : p.epoch < (s.group b i).epoch ∨
    p.epoch = (s.group b i).epoch ∧ (s.group b i).members.getD p.rank 65536 ≠ p.srcPart) : gatePacket p f s = s := by
  rw [gatePacket, found]
  refine (if_neg ?_).trans (if_pos ?_)
  · obtain earlier | ⟨same, -⟩ := other <;> omega
  · exact other.imp_right And.right

theorem gatePacket_own (epoch : p.epoch = (s.group b i).epoch)
    (member : (s.group b i).members.getD p.rank 65536 = p.srcPart) : gatePacket p f s = f b i s := by
  rw [gatePacket, found]
  refine (if_neg (by omega)).trans (if_neg ?_)
  rintro (earlier | stranger)
  · omega
  · exact stranger member

end

/-- The packet of each command is one of its KIND. -/
theorem exec_collPacket {s : State} {p : Packet} {k : Nat} {c : Instr}
    (named : (k = 1 ∧ c = .collGreeting p) ∨ (k = 2 ∧ c = .go p) ∨ (k = 3 ∧ c = .abort p) ∨ (k = 4 ∧ c = .collData p) ∨
      (k = 5 ∧ c = .chunkAck p) ∨ (k = 6 ∧ c = .chunkNak p) ∨ (k = 7 ∧ c = .collDone p) ∨ (k = 8 ∧ c = .land p) ∨
      (k = 9 ∧ c = .collCount p)) :
    exec c s = .next (gatePacket { p with kind := k } (takeColl { p with kind := k }) (arrive { p with kind := k } s)) := by
  obtain ⟨rfl, rfl⟩ | ⟨rfl, rfl⟩ | ⟨rfl, rfl⟩ | ⟨rfl, rfl⟩ | ⟨rfl, rfl⟩ | ⟨rfl, rfl⟩ | ⟨rfl, rfl⟩ | ⟨rfl, rfl⟩ |
    ⟨rfl, rfl⟩ := named <;> rfl

theorem modGroup_onlyBerth (s : State) (b i : Nat) (f : Group → Group) : s.onlyBerth b (s.modGroup b i f) :=
  modBerth_onlyBerth ..

/-! ### ABORT (R416, R427) -/

/-- The state in which the kernels that an abort reaches end: its group holds no packets of other epochs, and has counted
the abort. -/
def abortCounted (b i reason : Nat) (s : State) : State :=
  (s.modGroup b i (fun x => { x with held := x.held.filter (fun p => p.epoch ≠ x.epoch) })).modGroup b i (fun x => { x with
    aborts := satAdd 16 x.aborts 1
    mismatches := if reason = 1 then satAdd 16 x.mismatches 1 else x.mismatches
    poisoned := if reason = 4 then satAdd 16 x.poisoned 1 else x.poisoned })

theorem abortCounted_sameRuns (b i reason : Nat) (s : State) : s.sameRuns (abortCounted b i reason s) :=
  ⟨fun _ => rfl, fun _ => rfl, rfl⟩

section
variable {s : State} {b i seq q : Nat} (one : carriers s b i seq = [q])
include one

theorem abortHere_mismatch (detail : Nat) : abortHere b i 1 detail seq s =
    faultRun q 6 detail (collWord (s.run q) (s.group b i).group seq) (some (s.group b i).group) (abortCounted b i 1 s) := by
  unfold abortHere
  rw [one]
  rfl

theorem abortHere_killed (detail : Nat) : abortHere b i 2 detail seq s =
    faultRun q 5 6 (lastWord (s.run q)) (some (s.group b i).group) (abortCounted b i 2 s) := by
  unfold abortHere
  rw [one]
  rfl

end

theorem sent_sameRuns {s t : State} (sent : s.sent t) : s.sameRuns t :=
  ⟨fun _ => by rw [sent]; rfl, fun _ => by rw [sent]; rfl, sent_stored sent⟩

theorem sent_group {s t : State} (sent : s.sent t) (b i : Nat) : t.group b i = s.group b i := by rw [sent]; rfl

theorem sent_carriers {s t : State} (sent : s.sent t) (b i seq : Nat) : carriers t b i seq = carriers s b i seq := by
  rw [sent]
  rfl

section
variable {s : State} {b i seq q : Nat} (one : carriers s b i seq = [q]) (open_ : (s.run q).landed = false)
include one open_

/-- An abort for a mismatch stops the one kernel that carries its COLL. -/
theorem spreadAbort_mismatch {detail : Nat} (small : detail % 256 = detail) (but : Option Nat) :
    s.endedRun q 6 detail (collWord (s.run q) (s.group b i).group seq) true (spreadAbort b i 1 detail seq but s) := by
  have sent := sendAbort_sent (groupHalf s b i) b i 1 detail seq but s
  unfold spreadAbort
  rw [abortHere_mismatch ((sent_carriers sent b i seq).trans one), sent_group sent, sent_run sent]
  refine endedRun_congr ((sent_sameRuns sent).trans (abortCounted_sameRuns b i 1 _)) (faultRun_stops ?_ rfl small _ _)
  exact (congrArg Run.landed (sent_run sent q)).trans open_

/-- An abort for a kill kills it; the queue re-runs it. -/
theorem spreadAbort_killed (detail : Nat) (but : Option Nat) :
    s.endedRun q 5 6 (lastWord (s.run q)) false (spreadAbort b i 2 detail seq but s) := by
  have sent := sendAbort_sent (groupHalf s b i) b i 2 detail seq but s
  unfold spreadAbort
  rw [abortHere_killed ((sent_carriers sent b i seq).trans one), sent_group sent, sent_run sent]
  have ends := faultRun_ends q 5 6 (lastWord (s.run q)) (some (s.group b i).group)
    (abortCounted b i 2 (sendAbort (groupHalf s b i) b i 2 detail seq but s))
    ((congrArg Run.landed (sent_run sent q)).trans open_)
  exact endedRun_congr ((sent_sameRuns sent).trans (abortCounted_sameRuns b i 2 _)) ends

end

/-! ### Greetings and counts (R416) -/

/-- A member that has greeted, or lacks a child's greeting, does not greet. -/
theorem tryGreet_waits {s : State} {q j : Nat} (waits : (s.collSt q j).greeted = true ∨
    ∃ r ∈ treeKids (s.dimOf q j).g (s.dimOf q j).rank, ∀ x ∈ (s.collSt q j).kids, x.1 ≠ r) : tryGreet q j s = s := by
  refine if_pos ?_
  obtain greeted | ⟨r, child, lacks⟩ := waits
  · simp [greeted]
  · have missing : (treeKids (s.dimOf q j).g (s.dimOf q j).rank).all
        (fun r => (s.collSt q j).kids.any (fun x => x.1 = r)) = false := by
      rw [List.all_eq_false]
      exact ⟨r, child, by simpa using fun g d member => lacks _ member rfl⟩
    simp [missing]

section
variable {p : Packet} {s : State} {b i : Nat}

theorem takeGreeting_stranger (stranger : p.rank ∉ treeKids (s.group b i).members.length (s.group b i).rank) :
    takeGreeting p b i s = s := if_pos (by simpa using stranger)

section
variable (child : p.rank ∈ treeKids (s.group b i).members.length (s.group b i).rank)
include child

theorem takeGreeting_found {q j : Nat} (found : findColl s b (s.group b i).group p.seq = some (q, j)) :
    takeGreeting p b i s = enterGreeting q j p s := by
  refine (if_neg (by simpa using child)).trans ?_
  rw [found]

theorem takeGreeting_lacking {q j : Nat} (none_found : findColl s b (s.group b i).group p.seq = none)
    (lacks : lacksGreeting s b (s.group b i).group p.rank = some (q, j)) :
    takeGreeting p b i s = enterGreeting q j p s := by
  refine (if_neg (by simpa using child)).trans ?_
  rw [none_found, lacks]

theorem takeGreeting_held (none_found : findColl s b (s.group b i).group p.seq = none)
    (none_lacks : lacksGreeting s b (s.group b i).group p.rank = none) : takeGreeting p b i s = holdPacket b i p s := by
  refine (if_neg (by simpa using child)).trans ?_
  rw [none_found, none_lacks]

end

theorem enterGreeting_again {q j : Nat} (go : (s.collSt q j).go = true) :
    enterGreeting q j p s = sendColl q j p.rank 0x02 0 0 id s := if_pos go

theorem enterGreeting_new {q j : Nat} (early : (s.collSt q j).go = false) :
    enterGreeting q j p s = tryGreet q j (s.modColl q j (fun x => { x with
      kids := x.kids.filter (fun y => y.1 ≠ p.rank) ++ [(p.rank, p.greeting, p.operand)] })) := if_neg (by simp [early])

theorem takeCount_held (none_found : findColl s b (s.group b i).group p.seq = none) :
    takeCount p b i s = holdPacket b i p s := by
  rw [takeCount, none_found]

theorem takeCount_late {q j : Nat} (found : findColl s b (s.group b i).group p.seq = some (q, j))
    (greeted : (s.collSt q j).greeted = true) : takeCount p b i s = s := by
  rw [takeCount, found]
  exact if_pos greeted

theorem takeCount_enters {q j : Nat} (found : findColl s b (s.group b i).group p.seq = some (q, j))
    (open_ : (s.collSt q j).greeted = false) : takeCount p b i s = tryGreet q j (s.modColl q j (fun x => { x with
      counts := x.counts.filter (fun y => y.1 ≠ p.rank) ++ [(p.rank, p.operand)] })) := by
  rw [takeCount, found]
  exact if_neg (by simp [open_])

end

/-! ### GO (R416, R419) -/

theorem beginData_idle {s : State} {q j : Nat} (idle : (s.inst q j).engine = none) : beginData q j s = s :=
  if_neg (by simp [idle])

section
variable {p : Packet} {s : State} {b i : Nat}

theorem takeGoPacket_none (none_found : findColl s b (s.group b i).group p.seq = none) : takeGoPacket p b i s = s := by
  rw [takeGoPacket, none_found]

section
variable {q j : Nat} (found : findColl s b (s.group b i).group p.seq = some (q, j))
include found

theorem takeGoPacket_ignored (h : treeParent (s.group b i).rank ≠ some p.rank ∨ (s.collSt q j).go = true) :
    takeGoPacket p b i s = s := by
  rw [takeGoPacket, found]
  refine if_neg fun ⟨parent, early⟩ => ?_
  obtain other | go := h
  · exact other parent
  · simp [go] at early

theorem takeGoPacket_taken (parent : treeParent (s.group b i).rank = some p.rank) (early : (s.collSt q j).go = false) :
    takeGoPacket p b i s = takeGo q j s := by
  rw [takeGoPacket, found]
  exact if_pos ⟨parent, by simp [early]⟩

end

/-- GO at a COLL that has no engine: it is held and passed down the tree. -/
theorem takeGo_unserved {q j : Nat} (holds : s.holdsColl q j) (idle : (s.inst q j).engine = none) :
    takeGo q j s = { s with runs := (takeGo q j s).runs, ports := (takeGo q j s).ports, cwy := (takeGo q j s).cwy
                            arbs := (takeGo q j s).arbs, out := (takeGo q j s).out } ∧
      (takeGo q j s).collSt q j = { s.collSt q j with go := true } := by
  have sent : (s.modColl q j (fun x => { x with go := true })).sent (forEach
      (treeKids (s.dimOf q j).g (s.dimOf q j).rank) (fun r t => sendColl q j r 0x02 0 0 id t)
      (s.modColl q j (fun x => { x with go := true }))) := forEach_sent (fun _ _ => sendColl_sent ..) _ _
  have none_serves : (forEach (treeKids (s.dimOf q j).g (s.dimOf q j).rank) (fun r t => sendColl q j r 0x02 0 0 id t)
      (s.modColl q j (fun x => { x with go := true }))).inst q j =
      { s.inst q j with coll := (s.inst q j).coll.map (fun x => { x with go := true }) } := by
    rw [sent_inst sent, modColl_inst holds.1]
  have taken : takeGo q j s = forEach (treeKids (s.dimOf q j).g (s.dimOf q j).rank)
      (fun r t => sendColl q j r 0x02 0 0 id t) (s.modColl q j (fun x => { x with go := true })) :=
    beginData_idle (by rw [none_serves]; exact idle)
  rw [taken]
  refine ⟨?_, (sent_collSt sent q j).trans (modColl_collSt holds _)⟩
  generalize forEach _ _ (s.modColl q j _) = t at sent ⊢
  rw [sent]
  rfl

end

/-! ### Chunks (R420, R426) -/

/-- NAKs that a COLL has sent for a chunk. -/
def CollSt.naks (c : CollSt) (rank chunk : Nat) : Nat :=
  ((c.chunkNaks.find? (fun x => x.1 = rank && x.2.1 = chunk)).map (·.2.2)).getD 0

section
variable {p : Packet} {s : State} {b i : Nat}

theorem takeData_none (none_found : findColl s b (s.group b i).group p.seq = none) : takeData p b i s = s := by
  rw [takeData, none_found]

variable {q j : Nat} (found : findColl s b (s.group b i).group p.seq = some (q, j))
include found

theorem takeData_again (known : (s.collSt q j).recvd.contains (p.rank, p.chunk) = true) :
    takeData p b i s = sendColl q j p.rank 0x05 0 0 (fun x => { x with chunk := p.chunk }) s := by
  rw [takeData, found]
  exact if_pos known

variable (new : (s.collSt q j).recvd.contains (p.rank, p.chunk) = false)
include new

theorem takeData_unexpected (h : (s.inst q j).engine.isNone = true ∨
    (s.dimOf q j).expected.contains (p.rank, p.chunk) = false) : takeData p b i s = s := by
  rw [takeData, found]
  refine (if_neg (by simpa using new)).trans (if_pos ?_)
  obtain idle | unexpected := h
  · simp [idle]
  · rw [unexpected, Bool.not_false, Bool.or_true]

variable (served : (s.inst q j).engine.isSome = true) (expected : (s.dimOf q j).expected.contains (p.rank, p.chunk) = true)
include served expected

theorem takeData_refused (poison : p.poison = true) (few : (s.collSt q j).naks p.rank p.chunk < s.cwy.resends) :
    takeData p b i s = sendColl q j p.rank 0x06 0 0 (fun x => { x with chunk := p.chunk })
      (s.modColl q j (fun x => { x with
        chunkNaks := x.chunkNaks.filter (fun y => !(y.1 = p.rank && y.2.1 = p.chunk)) ++
          [(p.rank, p.chunk, (s.collSt q j).naks p.rank p.chunk + 1)] })) := by
  rw [takeData, found]
  refine (if_neg (by simpa using new)).trans ((if_neg ?_).trans (if_pos ⟨poison, few⟩))
  rw [expected, Bool.not_true, Bool.or_false, Option.isNone_eq_false_iff.mpr served]
  exact Bool.false_ne_true

theorem takeData_taken (good : p.poison = false ∨ s.cwy.resends ≤ (s.collSt q j).naks p.rank p.chunk) {v : State}
    (hv : v = sendColl q j p.rank 0x05 0 0 (fun x => { x with chunk := p.chunk })
      (s.modColl q j (fun x => { x with recvd := x.recvd ++ [(p.rank, p.chunk)] }))) :
    takeData p b i s = settleColl q j (takeChunk q j p.rank p.chunk p.data p.poison v) v := by
  rw [takeData, found, hv]
  refine (if_neg (by simpa using new)).trans ((if_neg ?_).trans (if_neg ?_))
  · rw [expected, Bool.not_true, Bool.or_false, Option.isNone_eq_false_iff.mpr served]
    exact Bool.false_ne_true
  · rintro ⟨poison, few⟩
    obtain clean | many := good
    · simp [clean] at poison
    · exact Nat.not_lt.mpr many few

end

/-- A chunk of variants 2 to 5 that is taken: its bytes are stored, and nothing that follows undoes them. -/
theorem settleColl_storeChunk {q j rank chunk : Nat} {data : List Byte} {poison : Bool} {v w : State}
    (direct : 2 ≤ (v.dimOf q j).variant)
    (stored : v.storeChunk q j ((v.dimOf q j).chunkAt rank chunk).1 ((v.dimOf q j).chunkAt rank chunk).2 data
      (if poison then List.range ((v.dimOf q j).chunkAt rank chunk).2 else []) = .ok w) :
    (settleColl q j (takeChunk q j rank chunk data poison v) v).stored = w.stored := by
  have taken : takeChunk q j rank chunk data poison v = .ok (forEach ((v.dimOf q j).onward chunk)
      (fun r t => addSend q j r chunk data none poison t) w) := by
    refine (if_neg (by omega)).trans ?_
    dsimp only
    rw [stored]
  rw [taken, settleColl_stored]
  exact forEach_same State.stored _ (fun _ _ => modColl_stored ..) _ w

section
variable {p : Packet} {s : State} {b i : Nat}

theorem takeChunkAck_none (none_found : findColl s b (s.group b i).group p.seq = none) : takeChunkAck p b i s = s := by
  rw [takeChunkAck, none_found]

theorem takeChunkNak_none (none_found : findColl s b (s.group b i).group p.seq = none) : takeChunkNak p b i s = s := by
  rw [takeChunkNak, none_found]

variable {q j : Nat} (found : findColl s b (s.group b i).group p.seq = some (q, j))
include found

theorem takeChunkAck_found : takeChunkAck p b i s = finishColl q j (modSend q j p.rank p.chunk (fun x =>
    if x.sent then { x with acked := true, data := [] } else x) s) := by
  rw [takeChunkAck, found]

theorem takeChunkNak_unsent (unsent : (s.collSt q j).sends.find? (fun x =>
    x.target = p.rank && x.chunk = p.chunk && x.sent && !x.acked) = none) : takeChunkNak p b i s = s := by
  simp only [takeChunkNak, found, unsent]

variable {x : Send} (waits : (s.collSt q j).sends.find? (fun x =>
    x.target = p.rank && x.chunk = p.chunk && x.sent && !x.acked) = some x)
include waits

theorem takeChunkNak_kept (kept : x.src = none) : takeChunkNak p b i s = sendChunk q j x s := by
  simp only [takeChunkNak, found, waits, kept]

variable {e0 n : Nat} (source : x.src = some (e0, n))
include source

theorem takeChunkNak_faults {f : Flt}
    (unread : s.takeSrc q (nth (tensors (s.inst q j).descs) 0) e0 n = .error f) :
    takeChunkNak p b i s = runFault q (s.inst q j).word f s := by
  simp only [takeChunkNak, found, waits, source, unread]

theorem takeChunkNak_reads {bs : List Byte} {bad : List Nat} {v : State}
    (read : s.takeSrc q (nth (tensors (s.inst q j).descs) 0) e0 n = .ok (bs, bad, v)) :
    takeChunkNak p b i s = sendChunk q j { x with data := bs, poison := !bad.isEmpty }
      (modSend q j x.target x.chunk (fun _ => { x with data := bs, poison := !bad.isEmpty }) v) := by
  simp only [takeChunkNak, found, waits, source, read]

end

/-- A COLL with a chunk that nobody acknowledged is not complete. -/
theorem finishColl_unacked {s : State} {q j : Nat} {x : Send} (sent : x ∈ (s.collSt q j).sends) (open_ : x.acked = false) :
    finishColl q j s = s := by
  refine if_pos ?_
  have waits : (s.collSt q j).sends.all (·.acked) = false := List.all_eq_false.mpr ⟨x, sent, by simp [open_]⟩
  simp [waits]

/-! ### DONE and LAND (R421) -/

theorem tryDone_running {s : State} {q j : Nat} (running : (s.inst q j).done = false) : tryDone q j s = s :=
  if_pos (by simp [running])

section
variable {p : Packet} {s : State} {b i : Nat}

theorem takeDone_none (none_found : findColl s b (s.group b i).group p.seq = none) : takeDone p b i s = s := by
  rw [takeDone, none_found]

theorem takeLand_none (none_found : findColl s b (s.group b i).group p.seq = none) : takeLand p b i s = s := by
  rw [takeLand, none_found]

variable {q j : Nat} (found : findColl s b (s.group b i).group p.seq = some (q, j))
include found

theorem takeDone_stranger (stranger : p.rank ∉ treeKids (s.group b i).members.length (s.group b i).rank) :
    takeDone p b i s = s := by
  rw [takeDone, found]
  exact if_pos (by simpa using stranger)

theorem takeDone_child (child : p.rank ∈ treeKids (s.group b i).members.length (s.group b i).rank) :
    takeDone p b i s = tryDone q j (s.modColl q j (fun x => { x with
      doneKids := x.doneKids.filter (fun y => y.1 ≠ p.rank) ++ [(p.rank, decide (p.operand % 2 = 1))] })) := by
  rw [takeDone, found]
  exact if_neg (by simpa using child)

theorem takeLand_ignored (h : treeParent (s.group b i).rank ≠ some p.rank ∨ (s.collSt q j).doneSent = false ∨
    (s.collSt q j).landed = true) : takeLand p b i s = s := by
  rw [takeLand, found]
  refine if_neg fun ⟨parent, done, open_⟩ => ?_
  obtain other | early | landed := h
  · exact other parent
  · simp [early] at done
  · simp [landed] at open_

theorem takeLand_taken (parent : treeParent (s.group b i).rank = some p.rank) (done : (s.collSt q j).doneSent = true)
    (open_ : (s.collSt q j).landed = false) : takeLand p b i s = landHere q j s := by
  rw [takeLand, found]
  exact if_pos ⟨parent, done, by simp [open_]⟩

end

section
variable {s : State} {q j : Nat} (holds : s.holdsColl q j)
include holds

theorem landTaken_facts : landTaken q j s = { s with
      runs := (landTaken q j s).runs, berths := (landTaken q j s).berths, ports := (landTaken q j s).ports
      cwy := (landTaken q j s).cwy, arbs := (landTaken q j s).arbs, out := (landTaken q j s).out } ∧
    (landTaken q j s).collSt q j = { s.collSt q j with landed := true } ∧
    ((landTaken q j s).run q).words = (s.run q).words ∧
    wordPos ((landTaken q j s).run q) j = wordPos (s.run q) j := by
  have sent : s.sent (forEach (treeKids (s.dimOf q j).g (s.dimOf q j).rank) (fun r t => sendColl q j r 0x08 0 0 id t) s) :=
    forEach_sent (fun _ _ => sendColl_sent ..) _ s
  unfold landTaken
  generalize forEach _ _ s = u at sent ⊢
  have told : u.holdsColl q j := by
    unfold State.holdsColl
    rw [sent_run sent, sent_inst sent]
    exact holds
  have word := congrArg Inst.word (modColl_inst told.1 (fun x => { x with landed := true }))
  rw [sent_inst sent] at word
  refine ⟨?_, ?_, ?_, ?_⟩
  · rw [sent]
    rfl
  · refine Eq.trans ?_ ((modColl_collSt told (fun x => { x with landed := true })).trans
      (congrArg (fun x : CollSt => { x with landed := true }) (sent_collSt sent q j)))
    rfl
  · simp [State.modColl, State.modInst, State.modGroup, sent_run sent]
  · refine congrArg₂ (ahead 32) word ?_
    simp [State.modColl, State.modInst, State.modGroup, sent_run sent]

/-- LAND at a COLL: its kernel lands with its last one. -/
theorem landHere_facts : landHere q j s = { s with
      runs := (landHere q j s).runs, berths := (landHere q j s).berths, ports := (landHere q j s).ports
      cwy := (landHere q j s).cwy, arbs := (landHere q j s).arbs, out := (landHere q j s).out } ∧
    (landHere q j s).collSt q j = { s.collSt q j with landed := true } ∧
    (lastColl (s.run q).words = some (wordPos (s.run q) j) → ((landHere q j s).run q).landed = true) := by
  obtain ⟨shape, coll, words, pos⟩ := landTaken_facts holds
  rw [landHere_eq, words, pos]
  by_cases last : lastColl (s.run q).words = some (wordPos (s.run q) j)
  · rw [if_pos last]
    refine ⟨?_, ?_, fun _ => by simp⟩
    · conv_lhs => rw [shape]
      rfl
    · refine Eq.trans ?_ coll
      simp [State.collSt, State.inst]
  · rw [if_neg last]
    exact ⟨shape, coll, fun h => absurd h last⟩

end

end Sys2Proof.Machine
end

section
/-! SUPPORT. O37: what a packet of its group's epoch changes where its COLL is found. -/
namespace Sys2Proof.Machine

section
variable {u : State} {q j : Nat} (holds : u.holdsColl q j)
include holds

/-- A change of a COLL within its group, and nothing else. -/
theorem modColl_facts (f : CollSt → CollSt) :
    u.onlyRun q (u.modColl q j f) ∧ (u.modColl q j f).collSt q j = f (u.collSt q j) :=
  ⟨modColl_only f, modColl_collSt holds f⟩

/-- A child's greeting leaves a member waiting that has greeted, or lacks another child's. -/
theorem tryGreet_kid {rank : Nat} {g : Greeting} {operand : Nat} (waits : (u.collSt q j).greeted = true ∨
    ∃ r ∈ treeKids (u.dimOf q j).g (u.dimOf q j).rank, r ≠ rank ∧ ∀ x ∈ (u.collSt q j).kids, x.1 ≠ r) :
    tryGreet q j (u.modColl q j (fun x => { x with kids := x.kids.filter (fun y => y.1 ≠ rank) ++ [(rank, g, operand)] })) =
      u.modColl q j (fun x => { x with kids := x.kids.filter (fun y => y.1 ≠ rank) ++ [(rank, g, operand)] }) := by
  refine tryGreet_waits ?_
  rw [modColl_dimOf holds (by rfl), modColl_collSt holds]
  refine waits.imp_right fun ⟨r, child, other, lacks⟩ => ⟨r, child, fun x member => ?_⟩
  obtain old | new := List.mem_append.mp member
  · exact lacks x (List.mem_of_mem_filter old)
  · rw [List.mem_singleton.mp new]
    exact other.symm

/-- Counts leave a member waiting that lacks a child's greeting. -/
theorem tryGreet_count {rank operand : Nat}
    (waits : ∃ r ∈ treeKids (u.dimOf q j).g (u.dimOf q j).rank, ∀ x ∈ (u.collSt q j).kids, x.1 ≠ r) :
    tryGreet q j (u.modColl q j (fun x => { x with
        counts := x.counts.filter (fun y => y.1 ≠ rank) ++ [(rank, operand)] })) =
      u.modColl q j (fun x => { x with counts := x.counts.filter (fun y => y.1 ≠ rank) ++ [(rank, operand)] }) := by
  refine tryGreet_waits (.inr ?_)
  rw [modColl_dimOf holds (by rfl), modColl_collSt holds]
  exact waits

/-- A chunk turned back: its NAK is counted and sent. -/
theorem sendColl_modColl (target kind op operand : Nat) (g : Packet → Packet) (f : CollSt → CollSt) {t : State}
    (ht : t = sendColl q j target kind op operand g (u.modColl q j f)) :
    t = { u with runs := t.runs, ports := t.ports, cwy := t.cwy, arbs := t.arbs, out := t.out } ∧
      t.collSt q j = f (u.collSt q j) := by
  have sent : (u.modColl q j f).sent t := ht ▸ sendColl_sent ..
  refine ⟨?_, (sent_collSt sent q j).trans (modColl_collSt holds f)⟩
  rw [sent]
  rfl

/-- An acknowledged chunk leaves its COLL waiting for another one. -/
theorem finishColl_acked {target chunk : Nat} (waits : ∃ x ∈ (u.collSt q j).sends, x.acked = false ∧
      ¬ (x.target = target ∧ x.chunk = chunk)) (f : Send → Send) :
    finishColl q j (modSend q j target chunk f u) = modSend q j target chunk f u ∧
      u.onlyRun q (modSend q j target chunk f u) ∧
      (modSend q j target chunk f u).collSt q j = { u.collSt q j with
        sends := (u.collSt q j).sends.map (fun x => if x.target = target ∧ x.chunk = chunk then f x else x) } := by
  have facts := modColl_facts holds (fun c => { c with
    sends := c.sends.map (fun x => if x.target = target ∧ x.chunk = chunk then f x else x) })
  refine ⟨?_, facts⟩
  obtain ⟨x, member, open_, other⟩ := waits
  refine finishColl_unacked (x := x) ?_ open_
  rw [modSend, facts.2]
  exact List.mem_map.mpr ⟨x, member, if_neg other⟩

/-- DONE of a child leaves a COLL that still runs. -/
theorem tryDone_kid (running : (u.inst q j).done = false) (f : CollSt → CollSt) :
    tryDone q j (u.modColl q j f) = u.modColl q j f :=
  tryDone_running (by rw [modColl_inst holds.1]; exact running)

end

theorem takeData_again_sent {u t : State} {q j target chunk : Nat}
    (ht : t = sendColl q j target 0x05 0 0 (fun x => { x with chunk := chunk }) u) :
    t = { u with ports := t.ports, cwy := t.cwy, arbs := t.arbs, out := t.out } :=
  (ht ▸ sendColl_sent .. : u.sent t)

/-- A chunk of variants 2 to 5 that is taken: what its bytes store is what the part then holds. -/
theorem takeData_stores {u v w : State} {q j rank chunk : Nat} {data : List Byte} {poison : Bool} (holds : u.holdsColl q j)
    (hv : v = sendColl q j rank 0x05 0 0 (fun x => { x with chunk := chunk })
      (u.modColl q j (fun x => { x with recvd := x.recvd ++ [(rank, chunk)] })))
    (direct : 2 ≤ (u.dimOf q j).variant)
    (stored : v.storeChunk q j ((u.dimOf q j).chunkAt rank chunk).1 ((u.dimOf q j).chunkAt rank chunk).2 data
      (if poison then List.range ((u.dimOf q j).chunkAt rank chunk).2 else []) = .ok w) :
    (settleColl q j (takeChunk q j rank chunk data poison v) v).mem = w.mem ∧
      (settleColl q j (takeChunk q j rank chunk data poison v) v).units = w.units := by
  have dims : v.dimOf q j = u.dimOf q j := by
    have sent : (u.modColl q j (fun x => { x with recvd := x.recvd ++ [(rank, chunk)] })).sent v := hv ▸ sendColl_sent ..
    rw [sent_dimOf sent, modColl_dimOf holds (by rfl)]
    rfl
  have same := settleColl_storeChunk (data := data) (poison := poison) (by rw [dims]; exact direct)
    (by rw [dims]; exact stored)
  exact ⟨congrArg (·.1) same, congrArg (·.2.1) same⟩

end Sys2Proof.Machine
end

section
/-! SUPPORT. O37: packets of a collective (17_longshore.md R416 to R421, R426). -/
namespace Sys2Proof.Machine

/-- Settles O37: the gate of the group decides what reaches a COLL, and each kind of packet then acts as its function's
branches say; what its COLL holds after it is read through the rules of a COLL's progress and of sending. -/
theorem collectivePacketsAct : Obligations.CollectivePacketsAct := by
  intro s u p k c named hu
  have command : exec c s = .next (gatePacket { p with kind := k } (takeColl { p with kind := k }) u) :=
    hu ▸ exec_collPacket named
  refine ⟨fun stray => command.trans (congrArg _ (gatePacket_stray stray)), fun b i found => ⟨fun later => ?_,
    fun other => command.trans (congrArg _ (gatePacket_other found other)), fun epoch member => ?_⟩⟩
  · exact ⟨_, command.trans (congrArg _ (gatePacket_later found later)), modGroup_onlyBerth ..,
      (modGroup_group ..).trans (if_pos ⟨rfl, rfl⟩)⟩
  have own : exec c s = .next (takeColl { p with kind := k } b i u) :=
    command.trans (congrArg _ (gatePacket_own found epoch member))
  refine ⟨?_, ?_, fun none_found => ⟨?_, ?_, ?_⟩, fun q j coll => ?_⟩
  · rintro rfl
    refine ⟨own, fun q one open_ => ⟨fun mismatch => ⟨_, own, ?_⟩, fun kill => ⟨_, own, ?_⟩⟩⟩
    · have spread := spreadAbort_mismatch one open_ (Nat.mod_mod p.operand 256) (some p.rank)
      rwa [← mismatch] at spread
    · have spread := spreadAbort_killed one open_ (p.operand % 256) (some p.rank)
      rwa [← kill] at spread
  · rintro rfl stranger
    exact own.trans (congrArg _ (takeGreeting_stranger stranger))
  · rintro (rfl | rfl | rfl | rfl | rfl | rfl)
    · exact own.trans (congrArg _ (takeGoPacket_none none_found))
    · exact own.trans (congrArg _ (takeData_none none_found))
    · exact own.trans (congrArg _ (takeChunkAck_none none_found))
    · exact own.trans (congrArg _ (takeChunkNak_none none_found))
    · exact own.trans (congrArg _ (takeDone_none none_found))
    · exact own.trans (congrArg _ (takeLand_none none_found))
  · rintro (rfl | ⟨rfl, child, none_lacks⟩)
    · exact own.trans (congrArg _ (takeCount_held none_found))
    · exact own.trans (congrArg _ (takeGreeting_held child none_found none_lacks))
  · rintro q j rfl child lacks
    exact own.trans (congrArg _ (takeGreeting_lacking (p := { p with kind := 1 }) child none_found lacks))
  have holds := findColl_holds coll
  refine ⟨?_, ?_, ?_, ?_, ?_, ?_, ?_, ?_, ?_, ?_⟩
  · rintro rfl child
    have entered := own.trans (congrArg _ (takeGreeting_found (p := { p with kind := 1 }) child coll))
    refine ⟨fun go => entered.trans (congrArg _ (enterGreeting_again go)),
      fun early => entered.trans (congrArg _ (enterGreeting_new early)), fun early waits => ?_⟩
    exact ⟨_, entered.trans (congrArg _ ((enterGreeting_new early).trans (tryGreet_kid holds waits))),
      modColl_facts holds _⟩
  · rintro rfl
    refine ⟨fun late => own.trans (congrArg _ (takeCount_late coll late)),
      fun open_ => ⟨own.trans (congrArg _ (takeCount_enters coll open_)), fun waits => ?_⟩⟩
    exact ⟨_, own.trans (congrArg _ ((takeCount_enters (p := { p with kind := 9 }) coll open_).trans (tryGreet_count holds waits))),
      modColl_facts holds _⟩
  · rintro rfl
    refine ⟨fun ignored => own.trans (congrArg _ (takeGoPacket_ignored coll ignored)), fun parent early => ?_⟩
    have taken := own.trans (congrArg _ (takeGoPacket_taken coll parent early))
    exact ⟨taken, fun idle => ⟨_, taken, takeGo_unserved holds idle⟩⟩
  · rintro rfl known
    have again := own.trans (congrArg _ (takeData_again coll known))
    exact ⟨again, _, again, takeData_again_sent rfl⟩
  · rintro rfl new unexpected
    exact own.trans (congrArg _ (takeData_unexpected coll new unexpected))
  · rintro n rfl new served expected rfl
    refine ⟨fun poison few => ?_, fun good => ?_⟩
    · have refused := own.trans (congrArg _ (takeData_refused coll new served expected poison few))
      exact ⟨⟨_, modColl_only _, refused⟩, _, refused, sendColl_modColl holds _ _ _ _ _ _ rfl⟩
    · have taken := own.trans (congrArg _ (takeData_taken coll new served expected good rfl))
      exact ⟨_, rfl, (sendColl_modColl holds _ _ _ _ _ _ rfl).2, taken,
        fun w direct stored => ⟨_, taken, takeData_stores holds rfl direct stored⟩⟩
  · rintro rfl
    have acked := own.trans (congrArg _ (takeChunkAck_found coll))
    refine ⟨acked, fun _ waits => ?_⟩
    obtain ⟨unfinished, facts⟩ := finishColl_acked holds waits _
    exact ⟨_, acked.trans (congrArg _ unfinished), facts⟩
  · rintro rfl
    refine ⟨fun unsent => own.trans (congrArg _ (takeChunkNak_unsent coll unsent)), fun x waits => ⟨fun kept => ?_, ?_⟩⟩
    · have again := own.trans (congrArg _ (takeChunkNak_kept coll waits kept))
      exact ⟨again, _, again, sendChunk_shape .., fun e engine => by rw [sendChunk_lshEng, if_pos engine]⟩
    · exact fun e0 n source => ⟨fun f unread => own.trans (congrArg _ (takeChunkNak_faults coll waits source unread)),
        fun bs bad v read => own.trans (congrArg _ (takeChunkNak_reads coll waits source read))⟩
  · rintro rfl
    refine ⟨fun stranger => own.trans (congrArg _ (takeDone_stranger coll stranger)), fun child => ?_⟩
    have taken := own.trans (congrArg _ (takeDone_child coll child))
    exact ⟨taken, fun running => ⟨_, taken.trans (congrArg _ (tryDone_kid holds running _)), modColl_facts holds _⟩⟩
  · rintro rfl
    refine ⟨fun ignored => own.trans (congrArg _ (takeLand_ignored coll ignored)), fun parent done open_ => ?_⟩
    obtain ⟨shape, landed, last⟩ := landHere_facts holds
    exact ⟨_, own.trans (congrArg _ (takeLand_taken coll parent done open_)), landed, last, shape⟩

end Sys2Proof.Machine
end

section
/-! SUPPORT. Messages between the members of a group (17_longshore.md R427 to R430): the gate of their epoch, and what a
group record is after a re-forming begins, a group stops or an install. -/
namespace Sys2Proof.Machine

/-! ### Commands of one group record -/

section
variable {s : State} {group b i : Nat} (found : s.findGroup group = some (b, i))

theorem execMemberLost_stray {rank : Nat} (stray : s.findGroup group = none) :
    exec (.memberLost group rank) s = .next s := by
  simp only [exec, execMemberLost, stray]

theorem execCoordinatorTimeout_stray (stray : s.findGroup group = none) :
    exec (.coordinatorTimeout group) s = .next s := by
  simp only [exec, execCoordinatorTimeout, stray]

theorem execInstallTimeout_stray (stray : s.findGroup group = none) : exec (.installTimeout group) s = .next s := by
  simp only [exec, execInstallTimeout, stray]

include found

theorem execMemberLost_heard {rank : Nat} (heard : (s.half (groupHalf s b i)).us <
    look 0 (s.group b i).lastHeard rank + 1000 * (s.half (groupHalf s b i)).lostMs) :
    exec (.memberLost group rank) s = .next s := by
  simp only [exec, execMemberLost, found]
  refine if_neg ?_
  simp [Nat.not_le.mpr heard]

theorem execMemberLost_silent {rank : Nat} (running : (s.group b i).state = .active ∨ (s.group b i).state = .reforming)
    (near : (neighbours (s.group b i)).contains rank = true) (new : (s.group b i).lostRanks.contains rank = false)
    (silent : look 0 (s.group b i).lastHeard rank + 1000 * (s.half (groupHalf s b i)).lostMs ≤
      (s.half (groupHalf s b i)).us) :
    exec (.memberLost group rank) s = .next (startReform b i [rank] (tellRanks b i 0x02 (allRanks (s.group b i))
      (fun p => { p with operand := rank }) s)) := by
  simp only [exec, execMemberLost, found]
  refine if_pos ?_
  simp only [near, new, Bool.not_false, Bool.and_true, Bool.and_eq_true, Bool.or_eq_true, decide_eq_true_eq]
  exact ⟨silent, running⟩

theorem execCoordinatorTimeout_other (other : (s.group b i).state ≠ .reforming) :
    exec (.coordinatorTimeout group) s = .next s := by
  simp only [exec, execCoordinatorTimeout, found]
  exact if_pos other

theorem execCoordinatorTimeout_decides (reforming : (s.group b i).state = .reforming)
    (coordinator : (s.group b i).coordinator = true) :
    exec (.coordinatorTimeout group) s = .next (decideReform b i s) := by
  simp only [exec, execCoordinatorTimeout, found]
  exact (if_neg (not_not_intro reforming)).trans (if_pos coordinator)

theorem execCoordinatorTimeout_stands (reforming : (s.group b i).state = .reforming)
    (member : (s.group b i).coordinator = false) :
    exec (.coordinatorTimeout group) s = .next (tellRanks b i 0x04 (allRanks (s.group b i)) id
      (s.modGroup b i (fun x => { x with coordinator := true, answers := [] }))) := by
  simp only [exec, execCoordinatorTimeout, found]
  exact (if_neg (not_not_intro reforming)).trans (if_neg (by simp [member]))

theorem execInstallTimeout_other (other : (s.group b i).state ≠ .reforming) :
    exec (.installTimeout group) s = .next s := by
  simp only [exec, execInstallTimeout, found]
  exact if_neg other

theorem execInstallTimeout_stops (reforming : (s.group b i).state = .reforming) :
    exec (.installTimeout group) s = .next (stopGroup b i 3
      (s.modGroup b i (fun g => { g with state := .noQuorum, coordinator := false }))) := by
  simp only [exec, execInstallTimeout, found]
  exact if_pos reforming

end

/-! ### The gate of a message -/

section
variable {s u : State} {p : Packet} {f : Nat → Nat → State → State} (hu : u = arrive p s)
include hu

theorem gateMsg_discarded (h : u.findGroup p.group = none ∨ ∃ b i, u.findGroup p.group = some (b, i) ∧
    (p.epoch ≠ (u.group b i).epoch ∨ (u.group b i).members.getD p.rank 65536 ≠ p.srcPart)) : gateMsg p f s = u := by
  rw [gateMsg, ← hu]
  obtain stray | ⟨b, i, found, other⟩ := h
  · simp only [stray]
  · simp only [found]
    exact if_neg fun ⟨epoch, member⟩ => other.elim (· epoch) (· member)

variable {b i : Nat} (found : u.findGroup p.group = some (b, i))
  (member : (u.group b i).members.getD p.rank 65536 = p.srcPart)
include found

theorem gateMsg_own (epoch : p.epoch = (u.group b i).epoch) (member : (u.group b i).members.getD p.rank 65536 = p.srcPart) :
    gateMsg p f s = f b i u := by
  rw [gateMsg, ← hu]
  simp only [found]
  exact if_pos ⟨epoch, member⟩

theorem execInstall_other (other : p.epoch ≠ (u.group b i).epoch + 1 ∨ (u.group b i).state = .noQuorum ∨
    (u.group b i).state = .excluded) : exec (.install p) s = .next u := by
  simp only [exec, execInstall, ← hu, found]
  refine if_neg fun ⟨epoch, _, running⟩ => ?_
  obtain later | quorum | excluded := other
  · exact later epoch
  · simp [quorum] at running
  · simp [excluded] at running

include member

theorem execInstall_next (epoch : p.epoch = (u.group b i).epoch + 1)
    (running : (u.group b i).state = .reforming ∨ (u.group b i).state = .active) :
    exec (.install p) s = .next (installHere b i p.epoch p.list p.landed (startReform b i [] u)) := by
  simp only [exec, execInstall, ← hu, found]
  exact if_pos ⟨epoch, member, running.symm⟩

end

/-! ### Group records -/

theorem onlyBerth_trans {s t u : State} {b : Nat} (first : s.onlyBerth b t) (second : t.onlyBerth b u) : s.onlyBerth b u := by
  obtain ⟨shape, others⟩ := first
  obtain ⟨shape2, others2⟩ := second
  refine ⟨?_, fun j other => (others2 j other).trans (others j other)⟩
  rw [shape2, shape]

@[simp] theorem modGroup_same (s : State) (b i : Nat) (f : Group → Group) :
    (s.modGroup b i f).group b i = f (s.group b i) := (modGroup_group ..).trans (if_pos ⟨rfl, rfl⟩)

theorem startReform_stored (b i : Nat) (lost : List Nat) (s : State) : (startReform b i lost s).stored = s.stored := by
  unfold startReform
  dsimp only
  split
  · rfl
  · rfl
  · rfl
  · exact (forEach_same State.stored _ (fun _ _ => faultRun_stored ..) _ _).trans (modGroup_stored ..)

section
variable {s : State} {b i : Nat}

theorem startReform_ended (lost : List Nat) (ended : (s.group b i).state = .noQuorum ∨ (s.group b i).state = .excluded) :
    startReform b i lost s = s := by
  obtain state | state := ended <;> simp only [startReform, state]

theorem startReform_reforming (lost : List Nat) (reforming : (s.group b i).state = .reforming) :
    startReform b i lost s = s.modGroup b i (fun x => { x with lostRanks := (x.lostRanks ++ lost).eraseDups }) := by
  simp only [startReform, reforming]

/-- An active group that begins to re-form; its kernels that end count an abort each. -/
theorem startReform_active (lost : List Nat) (active : (s.group b i).state = .active) :
    (startReform b i lost s).group b i = { s.group b i with
      state := .reforming, lostRanks := lost, answers := [], coordinator := false
      aborts := ((startReform b i lost s).group b i).aborts } := by
  have begun : (s.modGroup b i (fun x => { x with
      state := .reforming, lostRanks := lost, answers := [], coordinator := false })).sameGroups (startReform b i lost s) := by
    simp only [startReform, active]
    exact forEach_groups (fun _ _ => faultRun_groups ..) _ _
  have same := begun.same b i
  rwa [modGroup_same] at same

/-- A group that stops after a change of its record. -/
theorem stopGroup_modGroup (detail : Nat) (f : Group → Group) :
    (stopGroup b i detail (s.modGroup b i f)).group b i = { f (s.group b i) with
      aborts := ((stopGroup b i detail (s.modGroup b i f)).group b i).aborts } := by
  have same := (stopGroup_groups b i detail (s.modGroup b i f)).same b i
  rwa [modGroup_same] at same

theorem decided_coordinator (c : Bool) (low high : Nat) : (if low < high then false else c) = (c && decide (high ≤ low)) := by
  split
  · next lt => simp [Nat.not_le.mpr lt]
  · next le => simp [Nat.not_lt.mp le]

/-- The state in which a poll is answered: the re-forming has begun, and a poll of a lower rank ends this member's own. -/
def pollTaken (b i rank : Nat) (s : State) : State :=
  if rank < ((startReform b i [] s).group b i).rank then
    (startReform b i [] s).modGroup b i (fun g => { g with coordinator := false })
  else startReform b i [] s

theorem pollTaken_group (rank : Nat) : (pollTaken b i rank s).group b i = { (startReform b i [] s).group b i with
    coordinator := ((startReform b i [] s).group b i).coordinator &&
      decide (((startReform b i [] s).group b i).rank ≤ rank) } := by
  rw [← decided_coordinator]
  unfold pollTaken
  split
  · rw [modGroup_same]
  · rfl

theorem pollTaken_reforming (rank : Nat) (reforming : (s.group b i).state = .reforming) :
    s.onlyBerth b (pollTaken b i rank s) ∧ (pollTaken b i rank s).group b i = { s.group b i with
      lostRanks := (s.group b i).lostRanks.eraseDups
      coordinator := (s.group b i).coordinator && decide ((s.group b i).rank ≤ rank) } := by
  constructor
  · unfold pollTaken
    rw [startReform_reforming [] reforming]
    split
    · exact onlyBerth_trans (modGroup_onlyBerth ..) (modGroup_onlyBerth ..)
    · exact modGroup_onlyBerth ..
  · rw [pollTaken_group, startReform_reforming [] reforming, modGroup_same, List.append_nil]

theorem pollTaken_active (rank : Nat) (active : (s.group b i).state = .active) :
    (pollTaken b i rank s).group b i = { s.group b i with
      state := .reforming, lostRanks := [], answers := [], coordinator := false
      aborts := ((pollTaken b i rank s).group b i).aborts } := by
  have taken := pollTaken_group (s := s) (b := b) (i := i) rank
  rw [startReform_active [] active] at taken
  rw [taken]
  rfl

/-- The poll's answer, where the group re-forms. -/
theorem poll_answered {p : Packet} {t : State} (gate : ∀ f : Nat → Nat → State → State, gateMsg p f t = f b i s)
    (reforming : ((pollTaken b i p.rank s).group b i).state = .reforming) :
    exec (.poll p) t = .next (tellRanks b i 0x05 [p.rank]
      (fun x => { x with landed := ((pollTaken b i p.rank s).group b i).landedSeen }) (pollTaken b i p.rank s)) := by
  refine congrArg _ ((gate _).trans ?_)
  exact if_pos reforming

/-- The record of a survivor, before every neighbour counts as heard and held packets are taken. -/
def installed (epoch rank : Nat) (list landed : List Nat) (x : Group) : Group := { x with
  state := .active, members := list, rank := rank, epoch := epoch, reforms := satAdd 16 x.reforms 1, reformed := true
  lostRanks := [], answers := [], coordinator := false, landedSeen := (landed ++ x.landedSeen).eraseDups.take 64
  held := x.held.filter (fun p => decide (p.epoch ≥ epoch)) }

/-- An install at a member whose group holds no packets and whose kernels have all ended. -/
theorem installHere_quiet {epoch rank : Nat} {list landed : List Nat} (self : list.findIdx? (· = s.cwy.partId) = some rank)
    (held : (s.group b i).held = []) (ended : groupRuns s b (s.group b i).group = []) :
    installHere b i epoch list landed s =
      (hearAll b i (s.modGroup b i (installed epoch rank list landed))).modGroup b i (fun x => { x with
        held := x.held.filter (fun p => p.epoch ≠ epoch) }) := by
  have none_now : ((hearAll b i (s.modGroup b i (installed epoch rank list landed))).group b i).held = [] := by
    simp [hearAll, installed, held]
  unfold installed at none_now
  simp only [installHere, self, ended, List.filter_nil, forEach, List.foldl_nil, none_now]
  rfl

theorem installHere_facts {epoch rank : Nat} {list landed : List Nat} (self : list.findIdx? (· = s.cwy.partId) = some rank)
    (held : (s.group b i).held = []) (ended : groupRuns s b (s.group b i).group = []) {t : State}
    (ht : t = installHere b i epoch list landed s) : t = { s with berths := t.berths } ∧
      (t.group b i).state = .active ∧ (t.group b i).members = list ∧ (t.group b i).rank = rank ∧
      (t.group b i).epoch = epoch ∧ (t.group b i).reforms = satAdd 16 (s.group b i).reforms 1 ∧
      (t.group b i).reformed = true ∧ (t.group b i).lostRanks = [] ∧ (t.group b i).group = (s.group b i).group := by
  rw [installHere_quiet self held ended] at ht
  subst ht
  refine ⟨rfl, ?_⟩
  simp [hearAll, installed]

/-- The state in which an answer is counted. -/
def answerTaken (b i : Nat) (p : Packet) (s : State) : State :=
  s.modGroup b i (fun x => { x with
    answers := (x.answers ++ [p.rank]).eraseDups, landedSeen := (x.landedSeen ++ p.landed).eraseDups })

section
variable {p : Packet} {t : State} (gate : ∀ f : Nat → Nat → State → State, gateMsg p f t = f b i s)
include gate

theorem pollAnswer_ignored (other : (s.group b i).coordinator = false ∨ (s.group b i).state ≠ .reforming) :
    exec (.pollAnswer p) t = .next s := by
  refine congrArg _ ((gate _).trans (if_neg fun ⟨coordinator, reforming⟩ => ?_))
  obtain member | settled := other
  · simp [member] at coordinator
  · exact settled reforming

theorem pollAnswer_counted (reforming : (s.group b i).state = .reforming) (coordinator : (s.group b i).coordinator = true) :
    exec (.pollAnswer p) t = .next (if (List.range (s.group b i).members.length).all (fun r =>
      r = (s.group b i).rank || ((s.group b i).answers ++ [p.rank]).eraseDups.contains r ||
        (s.group b i).lostRanks.contains r) then decideReform b i (answerTaken b i p s) else answerTaken b i p s) := by
  refine congrArg _ ((gate _).trans ((if_pos ⟨coordinator, reforming⟩).trans ?_))
  dsimp only
  rw [modGroup_same]
  rfl

theorem exclusion_ends (running : (s.group b i).state = .reforming ∨ (s.group b i).state = .active) :
    exec (.exclusion p) t = .next (excludeHere b i s) := congrArg _ ((gate _).trans (if_pos running))

theorem exclusion_ended (ended : (s.group b i).state = .noQuorum ∨ (s.group b i).state = .excluded) :
    exec (.exclusion p) t = .next s := by
  refine congrArg _ ((gate _).trans (if_neg fun running => ?_))
  obtain state | state := ended <;> simp [state] at running

end

end

end Sys2Proof.Machine
end

section
/-! SUPPORT. O39: messages between the members of a group (17_longshore.md R427 to R430). -/
namespace Sys2Proof.Machine

/-- Settles O39: the gate of the message decides whether it acts; what it makes of the group's record is read through the
rules of a re-forming, of a stop and of an install. -/
theorem groupMessagesAct : Obligations.GroupMessagesAct := by
  refine ⟨fun s half => ⟨_, rfl, forEach_sent (fun _ _ => tellRanks_sent ..) _ s, rfl⟩, ?_, ?_, ?_, ?_⟩
  · rintro s group c stray (rfl | rfl | ⟨rank, rfl⟩)
    · exact execInstallTimeout_stray stray
    · exact execCoordinatorTimeout_stray stray
    · exact execMemberLost_stray stray
  · intro s group b i found
    refine ⟨fun rank running near new silent => ?_, fun rank => execMemberLost_heard found,
      fun reforming member => ?_, execCoordinatorTimeout_decides found, execCoordinatorTimeout_other found,
      fun reforming => ⟨_, execInstallTimeout_stops found reforming, stopGroup_modGroup ..⟩, execInstallTimeout_other found⟩
    · have lost := execMemberLost_silent found running near new silent
      have sent := tellRanks_sent b i 0x02 (allRanks (s.group b i)) (fun p => { p with operand := rank }) s
      refine ⟨lost, _, lost, ?_⟩
      generalize tellRanks b i 0x02 _ _ s = u at sent ⊢
      have record := sent_group sent b i
      have same := (startReform_stored b i [rank] u).trans (sent_stored sent)
      refine ⟨fun active => ?_, fun reforming => ?_, congrArg (·.1) same, congrArg (·.2.1) same, congrArg (·.2.2.1) same,
        congrArg (·.2.2.2) same⟩
      · rw [← record] at active ⊢
        exact startReform_active [rank] active
      · rw [← record] at reforming ⊢
        rw [startReform_reforming [rank] reforming, modGroup_same]
    · have stands := execCoordinatorTimeout_stands found reforming member
      have sent := tellRanks_sent b i 0x04 (allRanks (s.group b i)) id
        (s.modGroup b i (fun x => { x with coordinator := true, answers := [] }))
      refine ⟨_, stands, ?_, rfl, (sent_group sent b i).trans (modGroup_same ..)⟩
      generalize tellRanks b i 0x04 _ _ _ = t at sent ⊢
      rw [sent]
      rfl
  · intro s u p c named hu stray
    simp only [List.mem_cons, List.not_mem_nil, or_false] at named
    obtain rfl | rfl | rfl | rfl | rfl | rfl | rfl := named <;> exact congrArg _ (gateMsg_discarded hu stray)
  · intro s u p b i hu found member
    refine ⟨fun epoch => ?_, execInstall_other hu found, execInstall_next hu found member,
      fun epoch reforming rank self held ended => ?_⟩
    · have gate : ∀ f : Nat → Nat → State → State, gateMsg p f s = f b i u := fun f => gateMsg_own hu found epoch member
      have heard : exec (.memberHeartbeat p) s = .next (u.modGroup b i (fun g => { g with
          lastHeard := put 0 g.lastHeard p.rank (u.half (groupHalf u b i)).us })) := congrArg _ (gate _)
      have tainted : exec (.taint p) s = .next (u.modGroup b i (fun g => { g with
          tainted := true, poisoned := satAdd 16 g.poisoned 1 })) := congrArg _ (gate _)
      have lost : exec (.lostNotice p) s = .next (startReform b i [p.operand] u) := congrArg _ (gate _)
      have left : exec (.leaveNotice p) s = .next (startReform b i [p.rank] u) := congrArg _ (gate _)
      refine ⟨⟨_, heard, modGroup_onlyBerth .., modGroup_same ..⟩, ⟨_, tainted, modGroup_onlyBerth .., modGroup_same ..⟩, lost, left,
        fun active => ⟨⟨_, lost, startReform_active _ active⟩, _, left, startReform_active _ active⟩,
        fun running => ⟨_, exclusion_ends gate running, stopGroup_modGroup ..⟩,
        fun ended => ⟨exclusion_ended gate ended, lost.trans (congrArg _ (startReform_ended _ ended)),
          left.trans (congrArg _ (startReform_ended _ ended))⟩,
        fun reforming => ?_, fun active => ?_, pollAnswer_ignored gate, fun reforming coordinator => ?_⟩
      · obtain ⟨only, record⟩ := pollTaken_reforming p.rank reforming
        have answers := poll_answered gate (by rw [record]; exact reforming)
        have sent := tellRanks_sent b i 0x05 [p.rank]
          (fun x => { x with landed := ((pollTaken b i p.rank u).group b i).landedSeen }) (pollTaken b i p.rank u)
        refine ⟨_, answers, ?_, (sent_group sent b i).trans record, pollTaken b i p.rank u, only, by rw [record]⟩
        generalize tellRanks b i 0x05 _ _ _ = t at sent ⊢
        rw [sent, only.1]
      · have record := pollTaken_active p.rank active
        have answers := poll_answered gate (by rw [record])
        have sent := tellRanks_sent b i 0x05 [p.rank]
          (fun x => { x with landed := ((pollTaken b i p.rank u).group b i).landedSeen }) (pollTaken b i p.rank u)
        refine ⟨_, answers, ?_⟩
        beta_reduce
        rw [sent_group sent b i]
        exact record
      · exact ⟨answerTaken b i p u, modGroup_onlyBerth .., modGroup_same .., pollAnswer_counted gate reforming coordinator⟩
    · refine ⟨_, execInstall_next hu found member epoch (.inl reforming), ?_⟩
      rw [startReform_reforming [] reforming]
      have facts := installHere_facts (s := u.modGroup b i (fun x => { x with
        lostRanks := (x.lostRanks ++ []).eraseDups })) (landed := p.landed) (epoch := p.epoch) self (by rw [modGroup_same]; exact held)
        (by rw [modGroup_same]; exact ended) rfl
      rwa [modGroup_same] at facts

end Sys2Proof.Machine
end

section
/-! SUPPORT. Requests at their target (16_causeway.md R399 to R404, R424): what serving makes of one that is a duplicate, is
refused, waits, is turned away or applies; and what each kind applies. -/
namespace Sys2Proof.Machine

/-! ### Serving -/

section
variable {half n : Nat} {p : Packet} {s v : State} {apply : Nat → State → Bool × State} (hv : v = arrive p s)
include hv

theorem serve_duplicate {e : FilterEnt} (found : v.cwy.filter.find? (filterHit half p) = some e) :
    serve half p n apply s = route half e.answer v := by
  rw [serve, ← hv]
  simp only [found]

theorem serve_full (unknown : v.cwy.filter.find? (filterHit half p) = none)
    (full : 65536 ≤ (v.cwy.filter.filter (fun e => e.half = half)).length) :
    serve half p n apply s = { v with cwy := { v.cwy with filterFull := satAdd 32 v.cwy.filterFull 1 } } := by
  rw [serve, ← hv]
  simp only [unknown]
  exact if_pos full

variable (new : v.isNew half p)
include new

theorem serve_refused {r : Nat} (fails : targetCheck v half p = .error r) :
    serve half p n apply s = route half (answerTo v p 0x9 r) v := by
  rw [serve, ← hv]
  simp only [new.1, fails]
  exact if_neg (Nat.not_le.mpr new.2)

variable {b : Nat} (admitted : targetCheck v half p = .ok b)
include admitted

theorem serve_barred (barred : (unitPieces p.addr n (List.replicate n 0)).any (fun q => v.spotBarred b q.1) = true) :
    serve half p n apply s = v := by
  rw [serve, ← hv]
  simp only [new.1, admitted]
  exact (if_neg (Nat.not_le.mpr new.2)).trans (if_pos barred)

variable (free : (unitPieces p.addr n (List.replicate n 0)).any (fun q => v.spotBarred b q.1) = false)
include free

theorem serve_declined (declines : apply b v = (false, v)) :
    serve half p n apply s = route half (answerTo v p 0x9 0x7) v := by
  rw [serve, ← hv]
  simp only [new.1, admitted, free, declines]
  exact if_neg (Nat.not_le.mpr new.2)

theorem serve_applied {w : State} (applies : apply b v = (true, w)) : serve half p n apply s = w.acked half p := by
  rw [serve, ← hv]
  simp only [new.1, admitted, free, applies]
  exact if_neg (Nat.not_le.mpr new.2)

end

/-- Each request that is not a READ is served. -/
theorem exec_request {half : Nat} {p : Packet} {c : Instr} (named : c = .write half p ∨ c = .signalAdd half p ∨
    c = .signalSet half p ∨ c = .doorbell half p ∨ c = .atomic half p ∧ atomicLegal p = true) (s : State) :
    ∃ n apply, exec c s = .next (serve half p n apply s) := by
  obtain rfl | rfl | rfl | rfl | ⟨rfl, legal⟩ := named
  · exact ⟨_, _, rfl⟩
  · exact ⟨_, _, rfl⟩
  · exact ⟨_, _, rfl⟩
  · exact ⟨_, _, rfl⟩
  · exact ⟨_, _, congrArg _ (if_pos legal)⟩

/-! ### READ -/

section
variable {half : Nat} {p : Packet} {s v : State} (hv : v = arrive p s)
include hv

theorem read_full (full : 65536 ≤ (v.cwy.filter.filter (fun e => e.half = half)).length) : exec (.read half p) s =
    .next { v with cwy := { v.cwy with filterFull := satAdd 32 v.cwy.filterFull 1 } } := by
  simp only [exec, execRead, ← hv]
  exact if_pos full

variable (room : (v.cwy.filter.filter (fun e => e.half = half)).length < 65536)
include room

theorem read_refused {r : Nat} (fails : targetCheck v half p = .error r) :
    exec (.read half p) s = .next (route half (answerTo v p 0x9 r) v) := by
  simp only [exec, execRead, ← hv, fails]
  exact if_neg (Nat.not_le.mpr room)

theorem read_answered {b : Nat} (admitted : targetCheck v half p = .ok b) {ps : List (Nat × List Byte)}
    (hps : ps = unitPieces p.addr p.length (List.replicate p.length 0)) : exec (.read half p) s =
    .next (route half { answerTo v p 0x3 0 with
      data := ps.flatMap (fun q => v.spotBytes b (v.spot b q.1) q.2.length), length := p.length
      poison := ps.any (fun q => v.markAt b (v.spot b q.1) ≠ .good) }
        (forEach ps (fun q u => u.slotTouch (u.spot b q.1)) v)) := by
  simp only [exec, execRead, ← hv, admitted, ← hps]
  exact if_neg (Nat.not_le.mpr room)

end

theorem touches_hbr (b : Nat) (ps : List (Nat × List Byte)) (v : State) :
    forEach ps (fun q u => u.slotTouch (u.spot b q.1)) v =
      { v with hbr := (forEach ps (fun q u => u.slotTouch (u.spot b q.1)) v).hbr } := by
  refine forEach_rel (R := fun s t => t = { s with hbr := t.hbr }) (fun _ => rfl) (fun s t u first second => ?_) _
    (fun _ _ => slotTouch_shape ..) ps v
  rw [second, first]

/-! ### WRITE -/

theorem applyWrite_masked {p : Packet} {b : Nat} {v : State} (bad : maskedBad v b p.addr (p.data.take p.length) = true) :
    applyWrite p b v = (false, v) := if_pos bad

section
variable {p : Packet} {b : Nat} {v : State} (clean : maskedBad v b p.addr (p.data.take p.length) = false)
include clean

theorem applyWrite_poisons (poison : p.poison = true) :
    applyWrite p b v = (true, poisonRange b p.addr (p.data.take p.length).length v) :=
  (if_neg (by rw [clean]; decide)).trans (if_pos poison)

theorem applyWrite_pokes (good : p.poison = false) :
    applyWrite p b v = (true, (v.poke b p.addr (p.data.take p.length)).2) :=
  (if_neg (by rw [clean]; decide)).trans (if_neg (by rw [good]; decide))

end

section
variable {s : State} {b va : Nat} {bs : List Byte}

theorem poke_one (stored : bs ≠ []) (fits : va % 32 + bs.length ≤ 32) : (s.poke b va bs).2 = (s.pokeUnit b va bs).2 := by
  rw [State.poke, unitPieces_one stored fits]
  rfl

theorem pokeUnit_whole (start : va % 32 = 0) (len : bs.length = 32) : (s.pokeUnit b va bs).2 =
    ((s.setMark b (s.spot b va) .good).spotWrite b va (s.spot b va) bs).slotTouch (s.spot b va) true :=
  congrArg Prod.snd (if_pos ⟨start, len⟩)

theorem pokeUnit_good (part : bs.length ≠ 32) (good : s.markAt b (s.spot b va) = .good) :
    (s.pokeUnit b va bs).2 = (s.spotWrite b va (s.spot b va) bs).slotTouch (s.spot b va) true := by
  unfold State.pokeUnit
  dsimp only
  rw [if_neg (fun h => part h.2), good]

/-- A masked write into a poisoned unit leaves it (R424). -/
theorem pokeUnit_poisoned (part : bs.length ≠ 32) (poisoned : s.markAt b (s.spot b va) = .poison) :
    (s.pokeUnit b va bs).2 = s := by
  unfold State.pokeUnit
  dsimp only
  rw [if_neg (fun h => part h.2), poisoned]

section
variable {pa : Nat} (spot : s.spot b va = .stack pa) (stored : bs ≠ []) (fits : va % 32 + bs.length ≤ 32)
include spot stored fits

/-- A write within one unit of a stack that is whole, or merges into a good unit. -/
theorem poke_wroteUnit (merges : look .good s.units (pa / 32) = .good ∨ bs.length = 32) :
    s.wroteUnit pa (bs.map some) (s.poke b va bs).2 := by
  have len : bs.length = (bs.map some).length := (List.length_map _).symm
  have pos := List.length_pos_iff.mpr stored
  have bytes : ∀ i < (bs.map some).length, bs.getD i 0 = ((bs.map some).getD i none).getD (s.memByte (pa + i)) :=
    fun i lt => by
      have lt := len ▸ lt
      simp [List.getD_eq_getElem?_getD, List.getElem?_eq_getElem lt]
  rw [poke_one stored fits]
  by_cases whole : bs.length = 32
  · have marks := setMark_stack_units s b pa .good
    rw [pokeUnit_whole (by omega) whole, spot]
    exact wroteUnit_of_spotWrite true rfl ((marks _).trans (if_pos rfl)) (fun u other => (marks u).trans (if_neg other)) len
      (by omega) bytes
  · have good := merges.resolve_right whole
    rw [pokeUnit_good whole (by rw [spot, markAt_stack, good]), spot]
    exact wroteUnit_of_spotWrite true rfl good (fun _ _ => rfl) len (by omega) bytes

theorem poke_poisoned (poisoned : look .good s.units (pa / 32) = .poison) (part : bs.length < 32) :
    (s.poke b va bs).2 = s :=
  (poke_one stored fits).trans (pokeUnit_poisoned part.ne (by rw [spot, markAt_stack, poisoned]))

end

theorem spotWrite_moorUnits (l : Locus) : (s.spotWrite b va l bs).moorUnits = s.moorUnits := by rw [spotWrite_shape]

theorem spotWrite_mooring_mem (home x : Nat) : (s.spotWrite b va (.mooring home x) bs).mem = s.mem := rfl

end

/-- The unit of a mooring is good and holds the bytes written; its other bytes and the stacks stay. -/
structure State.wroteMooring (s : State) (b va : Nat) (bs : List Byte) (t : State) : Prop where
  mem : t.mem = s.mem
  good : look .good t.moorUnits (moorKey b va / 32) = .good
  bytes : ∀ a, rdByte t.moor a =
    if moorKey b va ≤ a ∧ a < moorKey b va + bs.length then bs.getD (a - moorKey b va) 0 else rdByte s.moor a

theorem setMark_mooring_same (s : State) (b home x : Nat) (m : UnitSt) :
    look .good (s.setMark b (.mooring home x) m).moorUnits (moorKey b x / 32) = m := (look_put ..).trans (if_pos rfl)

theorem wroteMooring_of_spotWrite {s u : State} {b va home x : Nat} {bs : List Byte} (mem : u.mem = s.mem)
    (moor : u.moor = s.moor) (good : look .good u.moorUnits (moorKey b x / 32) = .good) :
    s.wroteMooring b x bs ((u.spotWrite b va (.mooring home x) bs).slotTouch (.mooring home x) true) := by
  rw [slotTouch_shape]
  refine ⟨?_, ?_, fun a => ?_⟩
  · exact (spotWrite_mooring_mem (s := u) (b := b) (va := va) (bs := bs) home x).trans mem
  · exact (congrArg (look .good · (moorKey b x / 32)) (spotWrite_moorUnits (s := u) (b := b) (va := va) (bs := bs) (.mooring home x))).trans good
  · rw [← moor]
    exact spotWrite_mooring_moor u b va home x bs a

/-- A write within one unit of a mooring that is whole, or merges into a good unit. -/
theorem poke_wroteMooring {s : State} {b va home x : Nat} {bs : List Byte} (spot : s.spot b va = .mooring home x)
    (stored : bs ≠ []) (fits : va % 32 + bs.length ≤ 32)
    (merges : s.markAt b (.mooring home x) = .good ∨ bs.length = 32) : s.wroteMooring b x bs (s.poke b va bs).2 := by
  rw [poke_one stored fits]
  by_cases whole : bs.length = 32
  · rw [pokeUnit_whole (by omega) whole, spot]
    exact wroteMooring_of_spotWrite rfl rfl (setMark_mooring_same ..)
  · have good := merges.resolve_right whole
    rw [pokeUnit_good whole (by rw [spot]; exact good), spot]
    exact wroteMooring_of_spotWrite rfl rfl good

theorem setMark_stack_memByte (s : State) (b pa : Nat) (m : UnitSt) (a : Nat) :
    (s.setMark b (.stack pa) m).memByte a = s.memByte a := rfl

/-- Poison within one unit of a stack: its bytes are zero and its mark is set, no other changes (R424). -/
theorem poisonRange_stack {s : State} {b va n pa : Nat} (spot : s.spot b va = .stack pa) (start : va % 32 = 0) (pos : 0 < n)
    (fits : n ≤ 32) : look .good (poisonRange b va n s).units (pa / 32) = .poison ∧
      (∀ a, pa ≤ a ∧ a < pa + 32 → (poisonRange b va n s).memByte a = 0) ∧
      ∀ u, u ≠ pa / 32 → look .good (poisonRange b va n s).units u = look .good s.units u := by
  have last : (va + n - 1) / 32 + 1 - va / 32 = 1 := by omega
  have unit : va / 32 * 32 = va := by omega
  have one : poisonRange b va n s = (s.spotWrite b va (.stack pa) (List.replicate 32 0)).setMark b (.stack pa) .poison := by
    unfold poisonRange
    dsimp only
    rw [if_neg (by omega), last]
    simp only [List.range_one, List.map_cons, List.map_nil, Nat.add_zero, unit, forEach_cons, forEach_nil, spot]
  have marks : ∀ u, look .good (poisonRange b va n s).units u = if u = pa / 32 then .poison else look .good s.units u :=
    fun u => by
      rw [one]
      exact setMark_stack_units (s.spotWrite b va (.stack pa) (List.replicate 32 0)) b pa .poison u
  refine ⟨(marks _).trans (if_pos rfl), fun a inside => ?_, fun u other => (marks u).trans (if_neg other)⟩
  rw [one, setMark_stack_memByte, spotWrite_stack_memByte _ _ _ _ _ (by simp), List.length_replicate, if_pos inside,
    List.getD_eq_getElem?_getD, List.getElem?_replicate]
  split
  · rfl
  · rfl

/-! ### ATOMIC -/

theorem countAtom_memByte (s : State) (l : Locus) (a : Nat) : (s.countAtom l).memByte a = s.memByte a := rfl

theorem countAtom_mem (s : State) (l : Locus) : (s.countAtom l).mem = s.mem := rfl

theorem countAtom_moor (s : State) (l : Locus) : (s.countAtom l).moor = s.moor := rfl

section
variable {p : Packet} {b : Nat} {v : State}

theorem applyAtomic_bad (bad : v.spotDead (v.spot b p.addr) = true ∨ v.markAt b (v.spot b p.addr) ≠ .good) :
    applyAtomic p b v = (false, v) := by
  have away : ¬ v.spotGood b (v.spot b p.addr) := fun ⟨reached, good⟩ =>
    bad.elim (fun dead => by simp [reached] at dead) (· good)
  unfold applyAtomic
  rw [atomAt_bad away]
  rfl

/-- The state after an ATOMIC on n bytes. -/
def atomApplied (p : Packet) (b n : Nat) (v : State) : State :=
  ((v.slotTouch (v.spot b p.addr)).spotWrite b p.addr (v.spot b p.addr)
    (leBytes n (atomWord p.op (8 * n) (leNat (v.spotBytes b (v.spot b p.addr) n)) p.operand (leNat p.data)))).countAtom
      (v.spot b p.addr)

theorem applyAtomic_good (good : v.spotGood b (v.spot b p.addr)) :
    applyAtomic p b v = (true, atomApplied p b (if p.wide64 then 8 else 4) v) := by
  have spot : (v.slotTouch (v.spot b p.addr)).spot b p.addr = v.spot b p.addr := by
    rw [slotTouch_shape]
    rfl
  have bytes : ∀ n, (v.slotTouch (v.spot b p.addr)).spotBytes b (v.spot b p.addr) n =
      v.spotBytes b (v.spot b p.addr) n := fun n => by
    rw [slotTouch_shape]
    rfl
  unfold applyAtomic
  rw [atomAt_good good]
  simp only [State.atomWrite, spot, bytes, if_true, atomApplied]
  cases p.wide64
  · rfl
  · rfl

variable (p b v) (n : Nat)

theorem atomApplied_outside : v.outside (atomApplied p b n v) :=
  ((slotTouch_outside ..).trans (spotWrite_shape ..)).trans (countAtom_outside ..)

theorem atomApplied_stack {pa : Nat} (spot : v.spot b p.addr = .stack pa) (pos : 0 < n) (fits : n ≤ 8) :
    (atomApplied p b n v).moor = v.moor ∧ ∀ a, (atomApplied p b n v).memByte a = if pa ≤ a ∧ a < pa + n then
      (leBytes n (atomWord p.op (8 * n) (leNat (v.spotBytes b (.stack pa) n)) p.operand (leNat p.data))).getD (a - pa) 0
    else v.memByte a := by
  unfold atomApplied
  rw [spot]
  generalize hbs : leBytes n _ = bs
  have len : bs.length = n := by rw [← hbs, leBytes_length]
  refine ⟨?_, fun a => ?_⟩
  · rw [countAtom_moor, spotWrite_stack_shape, slotTouch_shape]
  · rw [countAtom_memByte, spotWrite_stack_memByte _ _ _ _ _ (by omega), slotTouch_memByte, len]

theorem atomApplied_mooring {home x : Nat} (spot : v.spot b p.addr = .mooring home x) :
    (atomApplied p b n v).mem = v.mem ∧ ∀ a, rdByte (atomApplied p b n v).moor a =
      if moorKey b x ≤ a ∧ a < moorKey b x + n then
        (leBytes n (atomWord p.op (8 * n) (leNat (v.spotBytes b (.mooring home x) n)) p.operand (leNat p.data))).getD
          (a - moorKey b x) 0
      else rdByte v.moor a := by
  unfold atomApplied
  rw [spot]
  generalize hbs : leBytes n _ = bs
  have len : bs.length = n := by rw [← hbs, leBytes_length]
  refine ⟨?_, fun a => ?_⟩
  · rw [countAtom_mem, spotWrite_mooring_mem, slotTouch_shape]
  · rw [countAtom_moor, spotWrite_mooring_moor, len, slotTouch_shape]

end

/-! ### Signals and doorbells -/

section
variable {add dropped : Bool} {i value : Nat} {v : State}

theorem applySignal_unallocated (off : (v.sync i).allocated = false) : applySignal add i value dropped v = v :=
  if_pos (by simp [off])

theorem applySignal_facts (on : (v.sync i).allocated = true) {w : State} (hw : w = applySignal add i value dropped v) :
    w = { v with syncs := w.syncs, glb := w.glb, out := w.out } ∧ (∀ j, j ≠ i → w.sync j = v.sync j) ∧
      w.sync i = { v.sync i with
        value := if add then satAdd 64 (v.sync i).value value else value % 2 ^ 64
        dropped := (v.sync i).dropped || dropped } ∧
      ((v.sync i).irqEn = false → w.glb = v.glb ∧ w.out = v.out) := by
  unfold applySignal at hw
  dsimp only at hw
  rw [if_neg (by simp [on])] at hw
  subst hw
  split
  · next irq =>
    refine ⟨?_, fun j other => ?_, ?_, fun off => by simp [off] at irq⟩
    · rw [raiseVector_glb]
      rfl
    · rw [raiseVector_sync, setSync_sync, if_neg other]
    · rw [raiseVector_sync, setSync_sync, if_pos rfl]
  · refine ⟨rfl, fun j other => ?_, ?_, fun _ => ⟨rfl, rfl⟩⟩
    · rw [setSync_sync, if_neg other]
    · rw [setSync_sync, if_pos rfl]

end

end Sys2Proof.Machine
end

section
/-! SUPPORT. O54: requests at their target (16_causeway.md R399 to R404, R424). -/
namespace Sys2Proof.Machine

theorem getD_take {l : List Byte} {n i : Nat} (lt : i < n) : (l.take n).getD i 0 = l.getD i 0 := by
  simp [List.getD_eq_getElem?_getD, lt]

/-- The data of a WRITE that carries all of its bytes. -/
theorem writeData {p : Packet} (carried : p.length ≤ p.data.length) (pos : 0 < p.length) :
    (p.data.take p.length).length = p.length ∧ p.data.take p.length ≠ [] := by
  have len : (p.data.take p.length).length = p.length := List.length_take.trans (Nat.min_eq_left carried)
  exact ⟨len, fun none_left => by rw [none_left] at len; exact absurd len.symm pos.ne'⟩

/-- What readers see of a stack after a WRITE within one unit. -/
theorem wroteUnit_memByte {v w : State} {p : Packet} {pa : Nat} (carried : p.length ≤ p.data.length)
    (wrote : v.wroteUnit pa ((p.data.take p.length).map some) w) (a : Nat) :
    w.memByte a = if pa ≤ a ∧ a < pa + p.length then p.data.getD (a - pa) 0 else v.memByte a := by
  have len : (p.data.take p.length).length = p.length := List.length_take.trans (Nat.min_eq_left carried)
  rw [wrote.bytes a, List.length_map, len]
  split
  · next inside =>
    have lt : a - pa < (p.data.take p.length).length := by omega
    rw [← getD_take (n := p.length) (by omega)]
    simp only [List.getD_eq_getElem?_getD, List.getElem?_map, List.getElem?_eq_getElem lt, Option.map_some, Option.getD_some]
  · rfl

section
variable {s v : State} {half b : Nat} {p : Packet} (hv : v = arrive p s) (new : v.isNew half p)
  (admitted : targetCheck v half p = .ok b)
include hv new admitted

section
variable (free : (unitPieces p.addr p.length (List.replicate p.length 0)).any (fun q => v.spotBarred b q.1) = false)
include free

theorem write_declined (bad : maskedBad v b p.addr (p.data.take p.length) = true) :
    exec (.write half p) s = .next (route half (answerTo v p 0x9 0x7) v) :=
  congrArg _ (serve_declined hv new admitted free (applyWrite_masked bad))

variable (clean : maskedBad v b p.addr (p.data.take p.length) = false)
include clean

theorem write_poisons (poison : p.poison = true) :
    exec (.write half p) s = .next ((poisonRange b p.addr (p.data.take p.length).length v).acked half p) :=
  congrArg _ (serve_applied hv new admitted free (applyWrite_poisons clean poison))

theorem write_pokes (good : p.poison = false) :
    exec (.write half p) s = .next ((v.poke b p.addr (p.data.take p.length)).2.acked half p) :=
  congrArg _ (serve_applied hv new admitted free (applyWrite_pokes clean good))

end

section
variable (legal : atomicLegal p = true)
  (free : (unitPieces p.addr (if p.wide64 then 8 else 4) (List.replicate (if p.wide64 then 8 else 4) 0)).any
    (fun q => v.spotBarred b q.1) = false)
include legal free

theorem atomic_declined (bad : v.spotDead (v.spot b p.addr) = true ∨ v.markAt b (v.spot b p.addr) ≠ .good) :
    exec (.atomic half p) s = .next (route half (answerTo v p 0x9 0x7) v) :=
  congrArg _ ((if_pos legal).trans (serve_declined hv new admitted free (applyAtomic_bad bad)))

theorem atomic_applies (good : v.spotGood b (v.spot b p.addr)) : exec (.atomic half p) s =
    .next ((atomApplied p b (if p.wide64 then 8 else 4) v).acked half p) :=
  congrArg _ ((if_pos legal).trans (serve_applied hv new admitted free (applyAtomic_good good)))

end

theorem signal_applies (add : Bool) : exec (if add then .signalAdd half p else .signalSet half p) s =
    .next ((applySignal add p.addr p.operand p.dropped v).acked half p) := by
  cases add
  · exact congrArg _ (serve_applied hv new admitted rfl rfl)
  · exact congrArg _ (serve_applied hv new admitted rfl rfl)

theorem doorbell_rings : exec (.doorbell half p) s = .next
    ((if doorbellOpen v p.addr then setTail p.addr (p.operand % 2 ^ 32) v else v).acked half p) :=
  congrArg _ (serve_applied hv new admitted rfl rfl)

end

/-- Settles O54: serving decides which requests apply; what one that applies changes is read through the rules of a write,
an atomic, a signal and a write of TAIL. -/
theorem requestsAreServed : Obligations.RequestsAreServed := by
  intro s half p v hv
  refine ⟨fun c named => ?_, fun illegal => ?_, fun full => ⟨_, read_full hv full, rfl⟩,
    fun r room fails => ⟨_, read_refused hv room fails, rfl⟩, fun b admitted => ⟨fun ps hps room => ?_, fun new => ?_⟩⟩
  · obtain ⟨n, apply, served⟩ := exec_request named s
    exact ⟨fun e found => ⟨_, served, serve_duplicate hv found⟩, fun unknown full => ⟨_, served, serve_full hv unknown full⟩,
      fun r new fails => ⟨_, served, serve_refused hv new fails⟩⟩
  · have discarded : exec (.atomic half p) s = .next (discard half p s) := congrArg _ (if_neg (by simp [illegal]))
    refine ⟨_, discarded, ?_⟩
    rw [hv]
    rfl
  · exact ⟨_, read_answered hv room admitted hps, _, touches_hbr b ps v, rfl⟩
  refine ⟨fun c n named barred => ?_, fun bs hbs free => ?_, fun l n hl hn legal free => ?_, ?_, fun closed => ?_,
    fun n hn opens => ?_⟩
  · obtain ⟨rfl, rfl⟩ | ⟨rfl, legal, rfl⟩ := named
    · exact congrArg _ (serve_barred hv new admitted barred)
    · exact congrArg _ ((if_pos legal).trans (serve_barred hv new admitted barred))
  · subst hbs
    refine ⟨fun bad => ⟨_, write_declined hv new admitted free bad, rfl⟩, fun clean => ?_⟩
    have poisons := write_poisons hv new admitted free clean
    have pokes := write_pokes hv new admitted free clean
    refine ⟨fun poison => ⟨_, poisons poison, rfl⟩, fun good => ⟨_, pokes good, rfl⟩, fun pa spot pos fits carried => ?_,
      fun home va spot pos fits carried good merges => ?_⟩
    · obtain ⟨len, stored⟩ := writeData carried pos
      refine ⟨fun good merges => ?_, fun good poisoned part => ?_, fun poison start => ?_⟩
      · have wrote := poke_wroteUnit spot stored (by rwa [len]) (by rwa [len])
        exact ⟨_, pokes good, _, rfl, wrote.shape, wroteUnit_memByte carried wrote, wrote.good, wrote.marks⟩
      · refine ⟨_, pokes good, ?_⟩
        rw [poke_poisoned spot stored (by rwa [len]) poisoned (by rwa [len])]
      · refine ⟨_, poisons poison, _, rfl, ?_⟩
        rw [len]
        exact poisonRange_stack spot start pos (by omega)
    · obtain ⟨len, stored⟩ := writeData carried pos
      have wrote := poke_wroteMooring spot stored (by rwa [len]) (by rwa [len])
      refine ⟨_, pokes good, _, rfl, wrote.mem, wrote.good, fun a => ?_⟩
      rw [wrote.bytes a, len]
      split
      · exact getD_take (by omega)
      · rfl
  · subst hl hn
    refine ⟨fun bad => ⟨_, atomic_declined hv new admitted legal free bad, rfl⟩, fun reached good =>
      ⟨_, atomic_applies hv new admitted legal free ⟨reached, good⟩, _, rfl, atomApplied_outside .., fun pa spot => ?_,
        fun home va spot => ?_⟩⟩
    · rw [spot]
      exact atomApplied_stack p b v _ spot (by split <;> omega) (by split <;> omega)
    · rw [spot]
      exact atomApplied_mooring p b v _ spot
  · rintro c add rfl
    have applies := signal_applies hv new admitted add
    refine ⟨fun off => ⟨_, applies, ?_⟩, fun on => ⟨_, applies, _, rfl, applySignal_facts on rfl⟩⟩
    rw [applySignal_unallocated off]
  · have rings := doorbell_rings hv new admitted
    rw [if_neg (by simp [closed])] at rings
    exact ⟨_, rings, rfl⟩
  · have rings := doorbell_rings hv new admitted
    rw [if_pos opens] at rings
    have bound : p.operand % 2 ^ 32 < 2 ^ 32 := Nat.mod_lt _ (by decide)
    subst hn
    refine ⟨⟨_, rings, rfl⟩, fun ignored => ⟨_, rings, ?_⟩, fun fits forward idle => ?_⟩
    · rw [setTail_ignored bound ignored]
    · have taken := setTail_accepted bound (s := v) (q := p.addr) (by unfold tailIgnored; omega)
      rw [if_neg (by simp [idle])] at taken
      refine ⟨_, rings, _, rfl, ?_⟩
      rw [taken]
      exact ⟨setQueue_only .., tailTaken_queue ..⟩

end Sys2Proof.Machine
end

section
/-! SUPPORT. Half-tickets (20_security.md R481 to R483; 19_tidewatch.md R464): the end of a command and of a ticket, and what
the verification of a half-ticket leaves. -/
namespace Sys2Proof.Machine

theorem State.recorded.sec {s t : State} (h : s.recorded t) : t.sec = s.sec := by rw [h.shape]

theorem State.recorded.trec {s t : State} (h : s.recorded t) : t.trec = s.trec := by rw [h.shape]

theorem State.recorded.berths {s t : State} (h : s.recorded t) : t.berths = s.berths := by rw [h.shape]

theorem recordBytes_congr {s t : State} {h : Nat} (half : t.half h = s.half h) (type berth : Nat) (payload : List Byte) :
    recordBytes t h type berth payload = recordBytes s h type berth payload := by
  rw [recordBytes, half, recordBytes]

/-! ### The end of a command -/

/-- The state in which a command's record is made. -/
def cmdEnded (result : Nat) (s : State) : State :=
  s.modTwc (fun t => { t with cmdBusy := false, result := result, cmdDone := wrapAdd 32 t.cmdDone 1 })

theorem finishCmd_recorded (result : Nat) (s : State) : (cmdEnded result s).recorded (finishCmd result s) :=
  makeRecord_recorded ..

theorem finishCmd_grows (result : Nat) (s : State) : s.grows (finishCmd result s) :=
  State.grows.trans (t := cmdEnded result s) (.same rfl) (makeRecord_out ..).2

theorem finishCmd_sec (result : Nat) (s : State) : (finishCmd result s).sec = s.sec := (finishCmd_recorded result s).sec

theorem finishCmd_twc (result : Nat) (s : State) : (finishCmd result s).twc.cmdBusy = false ∧
    (finishCmd result s).twc.result = result := by
  rw [(finishCmd_recorded result s).twc]
  exact ⟨rfl, rfl⟩

theorem finishCmd_commandDone (op berth result : Nat) (s : State) :
    s.commandDone op berth result (finishCmd result (beginCmd op berth s)) := by
  have recorded := finishCmd_recorded result (beginCmd op berth s)
  have twc := recorded.twc
  refine ⟨?_, ?_, ?_, ?_, ?_, ?_, ?_⟩
  · rw [recorded.shape]
    rfl
  · rw [twc]
    rfl
  · rw [twc]
    rfl
  · rw [twc]
    rfl
  · rw [twc]
    rfl
  · rw [twc]
    rfl
  · exact (makeRecord_out ..).1

theorem endTicketCmd_command (code : Nat) (s : State) : endTicketCmd viaCommand code s = finishCmd code s := if_pos rfl

theorem endTicketCmd_other {src : Nat} (other : src ≠ viaCommand) (code : Nat) (s : State) : endTicketCmd src code s = s :=
  if_neg other

theorem endTicketCmd_sec (src code : Nat) (s : State) : (endTicketCmd src code s).sec = s.sec := by
  unfold endTicketCmd
  split
  · exact finishCmd_sec code s
  · rfl

theorem endTicketCmd_grows (src code : Nat) (s : State) : s.grows (endTicketCmd src code s) := by
  unfold endTicketCmd
  split
  · exact finishCmd_grows code s
  · exact .refl s

/-! ### The operator's command (R464) -/

section
variable {op b : Nat} {f : State → State} {s : State}

theorem operatorCmd_off (off : s.on = false) : operatorCmd op b f s = s := if_pos (by simp [off])

variable (on : s.on = true)
include on

theorem operatorCmd_booting (free : s.twc.cmdBusy = false) (boot : booting s = true) :
    operatorCmd op b f s = finishCmd 0xFF (beginCmd op b s) := by
  unfold operatorCmd
  rw [if_neg (by simp [on]), if_neg (by simp [free]), if_neg (by simp [free])]
  exact if_pos boot

variable (busy : s.twc.cmdBusy = true)
include busy

theorem operatorCmd_awaited (awaits : s.twc.cmdAwait = true) (same : s.twc.lastOp = op) (berth : s.twc.cmdBerth = b) :
    operatorCmd op b f s = f (s.modTwc (fun t => { t with cmdAwait := false })) := by
  unfold operatorCmd
  rw [if_neg (by simp [on])]
  exact if_pos (by simp [busy, awaits, same, berth])

theorem operatorCmd_busy (other : s.twc.cmdAwait = false ∨ s.twc.lastOp ≠ op ∨ s.twc.cmdBerth ≠ b) :
    operatorCmd op b f s = s := by
  unfold operatorCmd
  rw [if_neg (by simp [on]), if_neg]
  · exact if_pos busy
  · simp only [busy, Bool.true_and, Bool.and_eq_true, decide_eq_true_eq]
    rintro ⟨⟨awaits, same⟩, berth⟩
    obtain h | h | h := other
    · exact absurd (awaits.symm.trans h) Bool.noConfusion
    · exact h same
    · exact h berth

end

/-! ### The end of a ticket -/

/-- The state in which a ticket's result is recorded. -/
def ticketBooked (k : Ticket) (code : Nat) (s : State) : State :=
  ((s.modSec (fun x => { x with
    pend := x.pend.filter (fun y => !(y.digest = k.digest && y.half = k.half))
    paired := x.paired.filter (· ≠ (k.half, k.digest)), lastResult := code, lastAction := k.body.action % 256
    refused := if code = 0 then x.refused else satAdd 32 x.refused 1 })).modTrec (fun x => { x with
      refused := if code = 0 then x.refused else satAdd 32 x.refused 1 })).modTwc (fun x => { x with result := code })

section
variable (k : Ticket) (code : Nat) (s : State)

theorem ticketBooked_half (i : Nat) : (ticketBooked k code s).half i = s.half i := rfl

theorem endTicket_recorded : (ticketBooked k code s).recorded (endTicket k code s) := by
  have recorded := makeRecord_recorded k.half 0x11 0xFF (payTicket code (k.body.action % 256) k.body.seq k.digest)
    (ticketBooked k code s)
  unfold endTicket
  dsimp only
  split
  · exact recorded_sent recorded (route_sent ..)
  · exact recorded

theorem endTicket_out : s.grows (endTicket k code s) ∧
    Out.record k.half (recordBytes s k.half 0x11 0xFF (payTicket code (k.body.action % 256) k.body.seq k.digest)) ∈
      (endTicket k code s).out := by
  obtain ⟨made, grows⟩ := makeRecord_out k.half 0x11 0xFF (payTicket code (k.body.action % 256) k.body.seq k.digest)
    (ticketBooked k code s)
  have grows : s.grows _ := State.grows.trans (t := ticketBooked k code s) (.same rfl) grows
  unfold endTicket
  dsimp only
  split
  · have routed := route_grows k.half (mgmtPacket (makeRecord k.half 0x11 0xFF
      (payTicket code (k.body.action % 256) k.body.seq k.digest) (ticketBooked k code s)) k.custPart 0x11
        (recordBytes (ticketBooked k code s) k.half 0x11 0xFF (payTicket code (k.body.action % 256) k.body.seq k.digest)))
      (makeRecord k.half 0x11 0xFF (payTicket code (k.body.action % 256) k.body.seq k.digest) (ticketBooked k code s))
    exact ⟨grows.trans routed, routed.mem made⟩
  · exact ⟨grows, made⟩

theorem endTicket_sec : (endTicket k code s).sec = { s.sec with
    pend := s.sec.pend.filter (fun y => !(y.digest = k.digest && y.half = k.half))
    paired := s.sec.paired.filter (· ≠ (k.half, k.digest)), lastResult := code, lastAction := k.body.action % 256
    refused := if code = 0 then s.sec.refused else satAdd 32 s.sec.refused 1 } := (endTicket_recorded k code s).sec

theorem endTicket_trec : (endTicket k code s).trec = { s.trec with
    refused := if code = 0 then s.trec.refused else satAdd 32 s.trec.refused 1 } := (endTicket_recorded k code s).trec

theorem endTicket_result : (endTicket k code s).twc.result = code := by rw [(endTicket_recorded k code s).twc]; rfl

theorem endTicket_ended : s.ticketEnded k code (endTicket k code s) := by
  refine ⟨?_, endTicket_sec .., endTicket_trec .., endTicket_result .., (endTicket_out k code s).2⟩
  rw [(endTicket_recorded k code s).shape]
  rfl

end

/-! ### The verification of a half-ticket (R481 steps 1 and 2) -/

/-- A pending ticket with the half-ticket of one party. -/
def Ticket.joined (p : Ticket) (x : HalfTicket) (src : Nat) : Ticket :=
  if x.party = 1 then { p with oper := true, operHt := some x } else { p with cust := true, custHt := some x, custPart := src }

/-- The part has the half-ticket of x's party, or of the other one. -/
def Ticket.has (p : Ticket) (x : HalfTicket) : Bool := if x.party = 1 then p.oper else p.cust
def Ticket.hasOther (p : Ticket) (x : HalfTicket) : Bool := if x.party = 1 then p.cust else p.oper

@[simp] theorem joined_half (p : Ticket) (x : HalfTicket) (src : Nat) : (p.joined x src).half = p.half := by
  unfold Ticket.joined
  split <;> rfl

@[simp] theorem joined_digest (p : Ticket) (x : HalfTicket) (src : Nat) : (p.joined x src).digest = p.digest := by
  unfold Ticket.joined
  split <;> rfl

@[simp] theorem joined_body (p : Ticket) (x : HalfTicket) (src : Nat) : (p.joined x src).body = p.body := by
  unfold Ticket.joined
  split <;> rfl

@[simp] theorem joined_sent (p : Ticket) (x : HalfTicket) (src : Nat) : (p.joined x src).sent = p.sent := by
  unfold Ticket.joined
  split <;> rfl

theorem joined_both (p : Ticket) (x : HalfTicket) (src : Nat) :
    ((p.joined x src).oper && (p.joined x src).cust) = p.hasOther x := by
  unfold Ticket.joined Ticket.hasOther
  split
  · exact Bool.true_and _
  · exact Bool.and_true _

/-- The record that a half-ticket is verified. -/
def verified (x : HalfTicket) (h : Nat) (s : State) : State :=
  makeRecord h 0x10 0xFF (payTicket x.party (x.body.action % 256) x.body.seq (ticketDigest x.body)) s

section
variable {x : HalfTicket} {h src : Nat} {v : State}

theorem takeHalfTicket_keyless (none_held : partyKeys v x.body x.party = none) :
    takeHalfTicket x h src v = refuseArrived x h src 0x09 v := by
  rw [takeHalfTicket, none_held]

variable {k : KeyPair} (keys : partyKeys v x.body x.party = some k)
include keys

theorem takeHalfTicket_unsigned (unsigned : signedBy k x = false) :
    takeHalfTicket x h src v = refuseArrived x h src 0x01 v := by
  simp only [takeHalfTicket, keys]
  exact if_pos (by simp [unsigned])

variable (signed : signedBy k x = true)
include signed

theorem takeHalfTicket_fifth (new : findTicket v h (ticketDigest x.body) = none)
    (full : 4 ≤ (v.sec.pend.filter (fun t => t.half = h)).length) :
    takeHalfTicket x h src v = refuseArrived x h src 0x08 v := by
  simp only [takeHalfTicket, keys]
  exact (if_neg (by simp [signed])).trans (if_pos ⟨new, full⟩)

theorem takeHalfTicket_first (new : findTicket v h (ticketDigest x.body) = none)
    (room : (v.sec.pend.filter (fun t => t.half = h)).length < 4) : takeHalfTicket x h src v =
    endTicketCmd src 0 (verified x h (v.modSec (fun y => { y with
      pend := y.pend ++ [({ body := x.body, digest := ticketDigest x.body, half := h } : Ticket).joined x src] }))) := by
  simp only [takeHalfTicket, keys]
  refine (if_neg (by simp [signed])).trans ((if_neg (by omega)).trans ?_)
  rw [new]
  unfold Ticket.joined
  split
  · rfl
  · rfl

variable {p : Ticket} (found : findTicket v h (ticketDigest x.body) = some p)
include found

theorem takeHalfTicket_again (has : p.has x = true) : takeHalfTicket x h src v = endTicketCmd src 0 v := by
  simp only [takeHalfTicket, keys]
  refine (if_neg (by simp [signed])).trans ((if_neg (by simp [found])).trans ?_)
  rw [found]
  exact if_pos has

theorem takeHalfTicket_pairs (lacks : p.has x = false) (other : p.hasOther x = true) : takeHalfTicket x h src v =
    endTicketCmd src 0 (verified x h (v.modSec (fun y => { y with
      pend := y.pend.map (fun z => if z.half = h && z.digest = ticketDigest x.body then p.joined x src else z)
      paired := y.paired ++ [(h, ticketDigest x.body)] }))) := by
  simp only [takeHalfTicket, keys]
  refine (if_neg (by simp [signed])).trans ((if_neg (by simp [found])).trans ?_)
  rw [found]
  refine (if_neg (ne_true_of_eq_false lacks)).trans ?_
  have both := (joined_both p x src).trans other
  unfold Ticket.joined at both ⊢
  simp only [reduceCtorEq, if_false, Option.getD_some, if_pos both]
  rfl

end

/-- A refused half-ticket: its result alone is booked. -/
theorem refuseArrived_facts (x : HalfTicket) (h src : Nat) {code : Nat} (refused : code ≠ 0) (v : State) :
    (refuseArrived x h src code v).sec = { v.sec with
      lastResult := code, lastAction := x.body.action % 256, refused := satAdd 32 v.sec.refused 1 } ∧
    (refuseArrived x h src code v).twc.result = code := by
  unfold refuseArrived
  dsimp only
  generalize hk : ({ body := x.body, digest := ticketDigest x.body, half := h, cust := x.party = 2, custPart := src } : Ticket) = k
  have body : k.body = x.body := by rw [← hk]
  constructor
  · rw [endTicketCmd_sec, modSec_sec, endTicket_sec, if_neg refused, body]
  · unfold endTicketCmd
    split
    · exact (finishCmd_twc ..).2
    · exact endTicket_result ..

end Sys2Proof.Machine
end

section
/-! SUPPORT. Paired tickets (20_security.md R481, R482): the step that sends one to the other half, and what its checks
read. -/
namespace Sys2Proof.Machine

/-! ### What the checks of a ticket read -/

/-- The states agree in what the checks of a ticket read. -/
structure State.sameChecks (s t : State) : Prop where
  shape : t = { s with sec := t.sec, twcH := t.twcH, twc := t.twc, glb := t.glb, ports := t.ports, cwy := t.cwy
                       arbs := t.arbs, out := t.out }
  seq : t.sec.seq = s.sec.seq
  provisioned : t.sec.provisioned = s.sec.provisioned
  chair : ∀ i, (t.half i).chair = (s.half i).chair
  heard : ∀ i, (t.half i).peerHb = (s.half i).peerHb
  fencing : t.twc.fencing = s.twc.fencing
  fenced : ∀ i, t.fenced i = s.fenced i

theorem State.sameChecks.trans {s t u : State} (h : s.sameChecks t) (k : t.sameChecks u) : s.sameChecks u :=
  ⟨by rw [k.shape, h.shape], k.seq.trans h.seq, k.provisioned.trans h.provisioned, fun i => (k.chair i).trans (h.chair i),
    fun i => (k.heard i).trans (h.heard i), k.fencing.trans h.fencing, fun i => (k.fenced i).trans (h.fenced i)⟩

theorem State.recorded.sameChecks {s t : State} (h : s.recorded t) : s.sameChecks t := by
  refine ⟨?_, by rw [h.sec], by rw [h.sec], fun i => by rw [h.half], fun i => by rw [h.half], by rw [h.twc], fun i => ?_⟩
  · rw [h.shape]
  · unfold State.fenced
    rw [h.glb]

theorem modSec_sameChecks (s : State) {f : Sec → Sec} (seq : (f s.sec).seq = s.sec.seq)
    (provisioned : (f s.sec).provisioned = s.sec.provisioned) : s.sameChecks (s.modSec f) :=
  ⟨rfl, seq, provisioned, fun _ => rfl, fun _ => rfl, rfl, fun _ => rfl⟩

theorem endTicketCmd_sameChecks (src code : Nat) (s : State) : s.sameChecks (endTicketCmd src code s) := by
  have ended : s.sameChecks (cmdEnded code s) := ⟨rfl, rfl, rfl, fun _ => rfl, fun _ => rfl, rfl, fun _ => rfl⟩
  unfold endTicketCmd
  split
  · exact ended.trans (finishCmd_recorded code s).sameChecks
  · exact ⟨rfl, rfl, rfl, fun _ => rfl, fun _ => rfl, rfl, fun _ => rfl⟩

section
variable {s t : State} (same : s.sameChecks t)
include same

theorem sameChecks_berth (b : Nat) : t.berth b = s.berth b := by rw [same.shape]; rfl

theorem sameChecks_layoutValid (p : List Byte) : layoutValid t p = layoutValid s p := by rw [same.shape]; rfl

theorem sameChecks_partWideChange (p : List Byte) : partWideChange t p = partWideChange s p := by rw [same.shape]; rfl

theorem sameChecks_berthFree : berthFree t = berthFree s := by
  funext b
  simp only [berthFree, sameChecks_berth same]

theorem sameChecks_actionAllowed (h action : Nat) : actionAllowed t h action = actionAllowed s h action := by
  simp only [actionAllowed, same.chair, same.heard]

theorem sameChecks_actionApplies (h : Nat) (b : TicketBody) : actionApplies t h b = actionApplies s h b := by
  simp only [actionApplies, same.chair, same.fenced, sameChecks_berth same, sameChecks_partWideChange same,
    sameChecks_berthFree same]

theorem sameChecks_fencedAlready (b : TicketBody) : fencedAlready t b = fencedAlready s b := by
  simp only [fencedAlready, same.seq, same.fenced, same.fencing]

/-- A ticket's code is that of its body. -/
theorem ticketCode_congr {k p : Ticket} (body : k.body = p.body) (h : Nat) : ticketCode t h k = ticketCode s h p := by
  unfold ticketCode
  dsimp only
  rw [body, same.seq, same.chair, same.provisioned, sameChecks_fencedAlready same, sameChecks_actionAllowed same,
    sameChecks_layoutValid same, sameChecks_actionApplies same]

theorem checksAlone_congr {k p : Ticket} (body : k.body = p.body) (half : k.half = p.half) :
    checksAlone t k = checksAlone s p := by
  simp only [checksAlone, body, half, same.chair, same.heard]

end

/-! ### The step to the other half -/

theorem sendPaired_none {s : State} (none_paired : s.sec.paired = []) (n : Nat) : sendPaired n s = s := by
  cases n with
  | zero => rfl
  | succ n =>
    unfold sendPaired
    rw [none_paired]
    split
    · rfl
    · rfl

section
variable {s : State} {h n : Nat} {d : BitVec 384} {k : Ticket} {rest : List (Nat × BitVec 384)}
  (paired : s.sec.paired = (h, d) :: rest) (found : findTicket s h d = some k)
include paired found

theorem sendPaired_sent (sent : k.sent = true) : sendPaired n s = s := by
  cases n with
  | zero => rfl
  | succ n =>
    simp only [sendPaired, paired, found, sent, if_true, ite_self]

variable (free : s.twc.cmdBusy = false) (unsent : k.sent = false)
include free unsent

theorem sendPaired_refuses (refused : ticketCode s h k ≠ 0) :
    sendPaired (n + 1) s = sendPaired n (endTicket k (ticketCode s h k) s) := by
  simp only [sendPaired, free, paired, found, unsent]
  exact if_pos refused

theorem sendPaired_sends (accepted : ticketCode s h k = 0) (peer : checksAlone s k = false) : sendPaired (n + 1) s =
    (s.modSec (fun x => { x with pend := x.pend.map (fun y =>
      if y.half = h && y.digest = d then { y with sent := true } else y) })).emit (.ticketTo (1 - h) k.body) := by
  simp only [sendPaired, free, paired, found, unsent]
  exact (if_neg (not_not_intro accepted)).trans (if_neg (ne_true_of_eq_false peer))

end

theorem sentTicket_some {s : State} {k : Ticket} {h : Nat} {d : BitVec 384} {rest : List (Nat × BitVec 384)}
    (paired : s.sec.paired = (h, d) :: rest) (found : findTicket s h d = some k) (sent : k.sent = true) :
    sentTicket s = some k := by
  simp only [sentTicket, paired, found, Option.bind_some, sent, if_true]

/-! ### A pair of half-tickets -/

theorem findTicket_names {s : State} {h : Nat} {d : BitVec 384} {k : Ticket} (found : findTicket s h d = some k) :
    k.half = h ∧ k.digest = d := by
  simpa using List.find?_some found

/-- The pending tickets with every one of a half and a digest replaced. -/
def replaced (h : Nat) (d : BitVec 384) (k : Ticket) (l : List Ticket) : List Ticket :=
  l.map (fun z => if z.half = h && z.digest = d then k else z)

theorem find_replaced {h : Nat} {d : BitVec 384} {k p : Ticket} {l : List Ticket} (half : k.half = h) (digest : k.digest = d)
    (found : l.find? (fun t => t.half = h && t.digest = d) = some p) :
    (replaced h d k l).find? (fun t => t.half = h && t.digest = d) = some k := by
  have names : (p.half = h && p.digest = d) = true := by simpa using List.find?_some found
  have same : (fun t : Ticket => decide (t.half = h) && decide (t.digest = d)) ∘
      (fun z => if z.half = h && z.digest = d then k else z) = fun t => t.half = h && t.digest = d := by
    funext z
    by_cases hz : z.half = h ∧ z.digest = d
    · simp [hz.1, hz.2, half, digest]
    · simp [hz]
  rw [replaced, List.find?_map, same, found]
  simp only [Option.map_some, names, if_true]

theorem sent_replaced {h : Nat} {d : BitVec 384} {k : Ticket} (half : k.half = h) (digest : k.digest = d) (l : List Ticket) :
    (replaced h d k l).map (fun y => if y.half = h && y.digest = d then { y with sent := true } else y) =
      replaced h d { k with sent := true } l := by
  simp only [replaced, List.map_map]
  refine List.map_congr_left fun z _ => ?_
  by_cases hz : z.half = h ∧ z.digest = d
  · simp [hz.1, hz.2, half, digest]
  · simp [hz]

/-- The state in which a half-ticket has joined the other party's. -/
def pairTaken (x : HalfTicket) (h src : Nat) (k : Ticket) (v : State) : State :=
  endTicketCmd src 0 (verified x h (v.modSec (fun y => { y with
    pend := replaced h (ticketDigest x.body) k y.pend, paired := y.paired ++ [(h, ticketDigest x.body)] })))

section
variable (x : HalfTicket) (h src : Nat) (k : Ticket) (v : State)

theorem pairTaken_sec : (pairTaken x h src k v).sec = { v.sec with
    pend := replaced h (ticketDigest x.body) k v.sec.pend, paired := v.sec.paired ++ [(h, ticketDigest x.body)] } := by
  rw [pairTaken, endTicketCmd_sec, verified, (makeRecord_recorded ..).sec]
  rfl

theorem pairTaken_sameChecks : v.sameChecks (pairTaken x h src k v) :=
  ((modSec_sameChecks v rfl rfl).trans (makeRecord_recorded ..).sameChecks).trans (endTicketCmd_sameChecks ..)

theorem pairTaken_free (free : v.twc.cmdBusy = false ∨ src = viaCommand) : (pairTaken x h src k v).twc.cmdBusy = false := by
  by_cases command : src = viaCommand
  · subst command
    rw [pairTaken, endTicketCmd_command]
    exact (finishCmd_twc ..).1
  · rw [pairTaken, endTicketCmd_other command, verified, (makeRecord_recorded ..).twc]
    exact free.resolve_right command

end

section
variable {x : HalfTicket} {h src : Nat} {k p : Ticket} {v : State} (found : findTicket v h (ticketDigest x.body) = some p)
  (alone : v.sec.paired = []) (half : k.half = h) (digest : k.digest = ticketDigest x.body)
include found alone half digest

theorem pairTaken_paired : (pairTaken x h src k v).sec.paired = [(h, ticketDigest x.body)] ∧
    findTicket (pairTaken x h src k v) h (ticketDigest x.body) = some k := by
  rw [findTicket, pairTaken_sec, alone]
  exact ⟨rfl, find_replaced half digest found⟩

variable (free : v.twc.cmdBusy = false ∨ src = viaCommand) (unsent : k.sent = false) (body : k.body = p.body)
include free unsent body

/-- A pair whose first failing check has a code is refused with it. -/
theorem pairTaken_refused (n : Nat) (refused : ticketCode v h p ≠ 0) {t : State}
    (ht : t = sendPaired (n + 1) (pairTaken x h src k v)) :
    t.sec.lastResult = ticketCode v h p ∧ t.sec.refused = satAdd 32 v.sec.refused 1 ∧ t.sec.seq = v.sec.seq ∧
      t.sec.paired = [] ∧ t.berths = v.berths := by
  obtain ⟨paired, pending⟩ := pairTaken_paired (src := src) found alone half digest
  have same := pairTaken_sameChecks x h src k v
  have code := ticketCode_congr same body h
  have sec := endTicket_sec k (ticketCode v h p) (pairTaken x h src k v)
  have emptied : (endTicket k (ticketCode v h p) (pairTaken x h src k v)).sec.paired = [] := by
    rw [sec, paired, half, digest]
    simp
  rw [sendPaired_refuses paired pending (pairTaken_free x h src k v free) unsent (by rwa [code]), code,
    sendPaired_none emptied] at ht
  subst ht
  refine ⟨by rw [sec], ?_, ?_, emptied, ?_⟩
  · rw [sec, if_neg refused, pairTaken_sec]
  · rw [sec, pairTaken_sec]
  · rw [(endTicket_recorded ..).berths]
    exact (same.shape ▸ rfl : (pairTaken x h src k v).berths = v.berths)

/-- A pair that passes its checks goes to the other half. -/
theorem pairTaken_sent (n : Nat) (accepted : ticketCode v h p = 0) (peer : checksAlone v p = false) (halves : p.half = h)
    {t : State} (ht : t = sendPaired (n + 1) (pairTaken x h src k v)) :
    t.sec.paired = [(h, ticketDigest x.body)] ∧ .ticketTo (1 - h) p.body ∈ t.out ∧
      t.sec.pend = replaced h (ticketDigest x.body) { k with sent := true } v.sec.pend := by
  obtain ⟨paired, pending⟩ := pairTaken_paired (src := src) found alone half digest
  have same := pairTaken_sameChecks x h src k v
  rw [sendPaired_sends paired pending (pairTaken_free x h src k v free) unsent ((ticketCode_congr same body h).trans accepted)
    ((checksAlone_congr same body (half.trans halves.symm)).trans peer)] at ht
  subst ht
  refine ⟨paired, ?_, ?_⟩
  · rw [body]
    exact List.mem_cons_self ..
  · refine Eq.trans ?_ (sent_replaced half digest v.sec.pend)
    rw [emit_sec, modSec_sec, pairTaken_sec]

end

end Sys2Proof.Machine
end

section
/-! SUPPORT. What an accepted ticket does (20_security.md R481, Table 20.5): each action keeps the ticket counters, and sets
what it names. -/
namespace Sys2Proof.Machine

/-! ### The security block and the record of the part -/

def State.books (s : State) : Sec × TRec := (s.sec, s.trec)

/-- The counters of tickets, and the pairs that wait. -/
def State.tally (s : State) : Nat × Nat × List (Nat × BitVec 384) × Nat :=
  (s.sec.seq, s.sec.refused, s.sec.paired, s.trec.seq)

theorem tally_of_books {s t : State} (h : t.books = s.books) : t.tally = s.tally :=
  congrArg (fun b : Sec × TRec => (b.1.seq, b.1.refused, b.1.paired, b.2.seq)) h

theorem books_of_kept {s t : State} (h : t.kept = s.kept) : t.books = s.books := by
  change t.kept.books = s.kept.books
  rw [h]

theorem State.recorded.books {s t : State} (h : s.recorded t) : t.books = s.books := by rw [h.shape]; rfl

theorem sent_books {s t : State} (h : s.sent t) : t.books = s.books := by rw [h]; rfl

theorem settle_books (s : State) : (settle s).books = s.books := by rw [(settle_readiness s).1]; rfl

theorem reportFrom_shape (half : Nat) (x : String) (s : State) :
    reportFrom half x s = { s with dbg := (reportFrom half x s).dbg, out := (reportFrom half x s).out } := by
  unfold reportFrom
  split
  · exact report_shape x s
  · rfl

theorem reportFrom_books (half : Nat) (x : String) (s : State) : (reportFrom half x s).books = s.books := by
  rw [reportFrom_shape]
  rfl

theorem setGlbHalf_recorded (half : Nat) (f : Glb → Glb) (s : State) : (s.modGlb f).recorded (setGlbHalf half f s) := by
  unfold setGlbHalf
  dsimp only
  split
  · exact .refl _
  · exact (raiseVector_recorded ..).trans (makeRecord_recorded ..)

theorem setGlbHalf_books (half : Nat) (f : Glb → Glb) (s : State) : (setGlbHalf half f s).books = s.books :=
  (setGlbHalf_recorded half f s).books

theorem startMig_books (h : Nat) (s : State) : (startMig h s).books = s.books := books_of_kept (startMig_kept h s)

/-- A kill reaches neither. -/
theorem killQueue_books (q detail : Nat) (s : State) : (killQueue q detail s).books = s.books := by
  unfold killQueue
  dsimp only
  split
  · cases landed : (s.run q).landed with
    | true => rw [faultRun_landed landed]
    | false =>
      rw [faultRun_kill landed, settle_books]
      have killed := killRun_kept q 5 (detail % 256) (lastWord (s.run q)) none s
      exact (congrArg State.books killed).trans rfl
  · rfl

theorem killAll_books (qs : List Nat) (detail : Nat) (s : State) : (killAll qs detail s).books = s.books :=
  forEach_same State.books _ (fun q t => killQueue_books q detail t) qs s

theorem passOver_books (q h : Nat) (s : State) : (passOver q h s).books = s.books := by rw [passOver_shape]; rfl

theorem modRun_books (q : Nat) (f : Run → Run) (s : State) : (s.modRun q f).books = s.books := rfl

theorem idleAtTail_books (q : Nat) (s : State) : (idleAtTail q s).books = s.books := by
  unfold idleAtTail
  dsimp only
  split
  · rfl
  · exact (settle_books ..).trans ((passOver_books ..).trans ((modRun_books ..).trans
      (books_of_kept ((freeScratch_kept ..).trans (stopEngines_kept ..)))))

theorem closeReq_books (b k : Nat) (abandoned : Bool) (s : State) : (closeReq b k abandoned s).books = s.books := by
  unfold closeReq
  dsimp only
  split
  · rfl
  · split
    · exact idleAtTail_books ..
    · rfl

theorem parkDrop_books (b : Nat) (s : State) : (parkDrop b s).books = s.books :=
  (forEach_same State.books (fun h t => t.modHalf h (fun x => { x with migQ := x.migQ.filter (fun r => r.berth ≠ b) }))
    (fun _ _ => rfl) _ _).trans rfl

theorem beginPark_books (b : Nat) (byFence : Bool) (s : State) : (beginPark b byFence s).books = s.books := by
  unfold beginPark
  exact (forEach_same State.books _ (fun _ _ => sent_books (tellRanks_sent ..)) _ _).trans
    ((forEach_same State.books _ (fun _ _ => closeReq_books ..) _ _).trans ((killAll_books ..).trans (parkDrop_books ..)))

/-! ### Fences -/

theorem bringUp_books (h : Nat) (state : Chair) (s : State) : (bringUp h state s).books = s.books :=
  (reportFrom_books ..).trans (setGlbHalf_books ..)

theorem applyRaises_tally (h : Nat) (s : State) : (applyRaises h s).tally = s.tally :=
  (forEach_same State.tally (fun (x : Nat × Nat) t => t.modSec (fun y => { y with
    secverMin := put 0 y.secverMin x.1 (max x.2 (look 0 y.secverMin x.1)) })) (fun _ _ => rfl) _ _).trans rfl

theorem aloneChairs_books (h : Nat) (s : State) : (aloneChairs h s).books = s.books := by
  unfold aloneChairs
  dsimp only
  split
  · rfl
  · rfl

theorem removeHalf_tally (h : Nat) (s : State) : (removeHalf h s).tally = s.tally := by
  unfold removeHalf
  extract_lets a b c d live u
  have reported : d.tally = s.tally :=
    calc d.tally = c.tally := tally_of_books ((reportFrom_books ..).trans (aloneChairs_books h c))
      _ = b.tally := tally_of_books (setGlbHalf_books ..)
      _ = s.tally := by
        unfold b
        rw [State.tally, modTrec_trec]
        split
        · rfl
        · rfl
  clear_value d
  have up : u.tally = s.tally := by
    unfold u
    split
    · exact reported
    · exact (applyRaises_tally ..).trans ((tally_of_books (bringUp_books ..)).trans reported)
  clear_value u
  exact (tally_of_books ((settle_books ..).trans (startMig_books ..))).trans up

theorem fenceStep_tally (s : State) : (fenceStep s).tally = s.tally := by
  unfold fenceStep
  split
  · rfl
  · next h draining _ =>
    split
    · rfl
    · extract_lets a b c
      have drained : c.tally = s.tally := by
        unfold c
        split
        · rfl
        · refine tally_of_books ((forEach_same State.books _ (fun _ _ => sent_books (drainPort_sent ..)) _ _).trans ?_)
          exact killAll_books ..
      clear_value c
      split
      · exact (removeHalf_tally ..).trans drained
      · exact drained

theorem beginFence_tally (h : Nat) (s : State) : (beginFence h false s).tally = s.tally := by
  unfold beginFence
  exact (fenceStep_tally ..).trans
    (tally_of_books (forEach_same State.books _ (fun _ _ => beginPark_books ..) _ _))

/-! ### LAYOUT and SHARES -/

/-- The security block, the record of the part and the registers of GLB. -/
def State.globals (s : State) : Sec × TRec × Glb := (s.sec, s.trec, s.glb)

/-- A LAYOUT that is applied, before the Shelf's flags are raised. -/
def layoutTaken (p : List Byte) (s : State) : State :=
  forEach (maskBerths p) (fun b t =>
    ((if (look {} (resulting s p) b).configured then
        t.modBerth b (fun x => { x with layout := look {} (resulting s p) b, share := (look {} (resulting s p) b).shareMin })
      else t.setBerth b {}).modShare 0 b (fun k => { k with share := (look {} (resulting s p) b).harbour0 })).modShare 1 b
        (fun k => { k with share := (look {} (resulting s p) b).harbour1 }))
    (forEach [0, 1] (fun h t => t.modHarbour h (fun x =>
      { x with moorWays := payAt p h 1, cache := mapTbl [] (fun c => c.take (16 - payAt p h 1)) x.cache }))
      ((s.modTrec (fun t => { t with
        layouts := resulting s p, moor0 := payAt p 0 1, moor1 := payAt p 1 1, crustSplit := payAt p 2 2
        crumbSplit := payAt p 4 2 })).modGlb (fun g => { g with crustSplit := payAt p 2 2, crumbSplit := payAt p 4 2 })))

theorem layoutTaken_globals (p : List Byte) (s : State) : (layoutTaken p s).globals = (s.sec,
    { s.trec with layouts := resulting s p, moor0 := payAt p 0 1, moor1 := payAt p 1 1, crustSplit := payAt p 2 2
                  crumbSplit := payAt p 4 2 },
    { s.glb with crustSplit := payAt p 2 2, crumbSplit := payAt p 4 2 }) := by
  refine (forEach_same State.globals _ (fun b t => ?_) _ _).trans
    ((forEach_same State.globals (fun h (t : State) => t.modHarbour h (fun x =>
      { x with moorWays := payAt p h 1, cache := mapTbl [] (fun c => c.take (16 - payAt p h 1)) x.cache }))
      (fun _ _ => rfl) _ _).trans rfl)
  split
  · rfl
  · rfl

theorem shelfFlags_globals (s : State) : ∃ m, (shelfFlags s).globals = (s.sec, s.trec, { s.glb with msix := m }) := by
  obtain ⟨v, only, recorded⟩ := shelfFlags_facts s
  have glb : v.glb = s.glb := by rw [only]
  refine ⟨(shelfFlags s).glb.msix, ?_⟩
  rw [State.globals, recorded.sec, recorded.trec, recorded.glb, glb, only]

theorem applyLayout_globals (p : List Byte) (s : State) : ∃ m, (applyLayout p s).globals = (s.sec,
    { s.trec with layouts := resulting s p, moor0 := payAt p 0 1, moor1 := payAt p 1 1, crustSplit := payAt p 2 2
                  crumbSplit := payAt p 4 2 },
    { s.glb with crustSplit := payAt p 2 2, crumbSplit := payAt p 4 2, msix := m }) := by
  obtain ⟨m, flags⟩ := shelfFlags_globals (layoutTaken p s)
  have taken := layoutTaken_globals p s
  simp only [State.globals, Prod.mk.injEq] at taken
  obtain ⟨sec, trec, glb⟩ := taken
  rw [sec, trec, glb] at flags
  exact ⟨m, flags⟩

/-- A layout with the limits of a SHARES payload. -/
def limited (p : List Byte) (l : Layout) : Layout := { l with shareMin := payAt p 1 2, shareMax := payAt p 3 2 }

/-- SHARES that are applied, before readiness is brought up to date. -/
def sharesTaken (p : List Byte) (s : State) : State :=
  (s.modTrec (fun t => { t with
    layouts := put {} t.layouts (payAt p 0 1) (limited p (look {} t.layouts (payAt p 0 1))) })).modBerth (payAt p 0 1)
      (fun x => { x with
        layout := limited p x.layout, share := max (payAt p 1 2) (min (payAt p 3 2) x.share) })

theorem applyShares_eq (p : List Byte) (s : State) : applyShares p s = settle (sharesTaken p s) := rfl

theorem applyShares_tally (p : List Byte) (s : State) : (applyShares p s).tally = s.tally :=
  (tally_of_books (settle_books (sharesTaken p s))).trans rfl

theorem applyShares_berth (p : List Byte) (s : State) :
    ((applyShares p s).berth (payAt p 0 1)).layout = limited p (s.berth (payAt p 0 1)).layout ∧
    ((applyShares p s).berth (payAt p 0 1)).share =
      max (payAt p 1 2) (min (payAt p 3 2) (s.berth (payAt p 0 1)).share) := by
  obtain ⟨-, -, berths, -⟩ := settle_readiness (sharesTaken p s)
  have taken : (sharesTaken p s).berth (payAt p 0 1) = { s.berth (payAt p 0 1) with
      layout := limited p (s.berth (payAt p 0 1)).layout
      share := max (payAt p 1 2) (min (payAt p 3 2) (s.berth (payAt p 0 1)).share) } := by
    simp [sharesTaken]
  rw [applyShares_eq, berths, taken]
  exact ⟨rfl, rfl⟩

/-! ### The debug level -/

theorem setLevel_facts (level : Nat) (berths : BitVec 32) (s : State) :
    setLevel level berths s = { s with sec := (setLevel level berths s).sec, dbg := (setLevel level berths s).dbg
                                       out := (setLevel level berths s).out } ∧
      (setLevel level berths s).sec = { s.sec with level := level, debugBerths := berths } ∧
      (s.sec.level = level → (setLevel level berths s).dbg = s.dbg ∧ (setLevel level berths s).out = s.out) := by
  unfold setLevel levelReport
  dsimp only
  split
  · exact ⟨rfl, rfl, fun _ => ⟨rfl, rfl⟩⟩
  · next changes =>
    rw [report_shape]
    exact ⟨rfl, rfl, fun same => absurd same.symm changes⟩

/-! ### UNFENCE -/

/-- What UNFENCE does to the half before its ports train: the fence is cleared and its boot chain is to start. -/
def unfenceBegun (h : Nat) (s : State) : State :=
  (setGlbHalf (1 - h) (fun g => if h = 0 then { g with h0Fenced := false, chair := 0 } else { g with h1Fenced := false })
    (s.modTrec (fun t => if h = 0 then { t with fence0 := false } else { t with fence1 := false }))).modHalf h (fun t =>
      { resetHalf t with peerHb := t.peerHb, keyClosed := t.keyClosed, secretLocked := t.secretLocked
                         devKeys := t.devKeys, lostMs := t.lostMs, heartbeatMs := t.heartbeatMs
                         reformMs := t.reformMs, fCap := t.fCap, sCap := t.sCap, kCap := t.kCap
                         loops := t.loops, overruns := t.overruns, cause := t.cause
                         splits := t.splits })

/-- What the rest of UNFENCE keeps. -/
def State.unfenceView (h : Nat) (s : State) : (Nat × Nat × List (Nat × BitVec 384) × Nat) × Bool × Nat × Chair :=
  (s.tally, s.trec.fence0, (s.half h).bootStage, (s.half h).chair)

theorem sent_unfenceView {h : Nat} {s t : State} (sent : s.sent t) : t.unfenceView h = s.unfenceView h := by rw [sent]; rfl

theorem unfenceHalf_view (h : Nat) (s : State) : (unfenceHalf h s).unfenceView h = (unfenceBegun h s).unfenceView h := by
  unfold unfenceHalf
  extract_lets a b c d e mine f g u
  have begun : c = unfenceBegun h s := rfl
  clear_value c
  have measured : e.unfenceView h = c.unfenceView h := by
    refine (forEach_same (State.unfenceView h) (fun i t => setMeas h i 0 t) (fun _ _ => rfl) _ _).trans ?_
    have other : d.half h = c.half h := by
      simp only [d, modHalf_eq, setHalf_half]
      exact if_neg (by omega)
    simp only [State.unfenceView, other]
    rfl
  clear_value e
  have trained : u.unfenceView h = e.unfenceView h :=
    (forEach_same (State.unfenceView h) _ (fun _ _ => sent_unfenceView (trainPort_sent ..)) _ _).trans rfl
  clear_value u
  have settled : (settle (reportFrom (1 - h) ("!UNFENCE " ++ dec h) u)).unfenceView h = u.unfenceView h := by
    rw [(settle_readiness _).1, reportFrom_shape]
    rfl
  rw [settled, trained, measured, begun]

theorem unfenceBegun_view (h : Nat) (s : State) : (unfenceBegun h s).tally = s.tally ∧
    (h = 0 → (unfenceBegun h s).trec.fence0 = false) ∧ ((unfenceBegun h s).half h).bootStage = 0 ∧
    ((unfenceBegun h s).half h).chair = .boot := by
  have recorded := setGlbHalf_recorded (1 - h)
    (fun g => if h = 0 then { g with h0Fenced := false, chair := 0 } else { g with h1Fenced := false })
    (s.modTrec (fun t => if h = 0 then { t with fence0 := false } else { t with fence1 := false }))
  refine ⟨?_, ?_, ?_, ?_⟩
  · refine (tally_of_books recorded.books).trans ?_
    by_cases h0 : h = 0
    · simp [State.tally, h0]
    · simp [State.tally, h0]
  · rintro rfl
    exact congrArg TRec.fence0 recorded.trec
  · simp [unfenceBegun, resetHalf]
  · simp [unfenceBegun, resetHalf]

theorem unfenceHalf_facts (h : Nat) (s : State) : (unfenceHalf h s).tally = s.tally ∧
    (h = 0 → (unfenceHalf h s).trec.fence0 = false) ∧ ((unfenceHalf h s).half h).bootStage = 0 ∧
    ((unfenceHalf h s).half h).chair = .boot := by
  have view := unfenceHalf_view h s
  simp only [State.unfenceView, Prod.mk.injEq] at view
  obtain ⟨tally, fence, stage, chair⟩ := view
  rw [tally, fence, stage, chair]
  exact unfenceBegun_view h s

/-! ### CLEAR_SPLIT and KEYS -/

theorem modHalf_chair (h i : Nat) {f : TwcHalf → TwcHalf} (s : State) (same : ∀ x, (f x).chair = x.chair) :
    ((s.modHalf h f).half i).chair = (s.half i).chair := by
  simp only [modHalf_eq, setHalf_half]
  split
  · next e => rw [same, e]
  · rfl

theorem nextMig_chair (h n i : Nat) (s : State) : ((nextMig h n s).half i).chair = (s.half i).chair := by
  induction n generalizing s with
  | zero => rfl
  | succ n ih =>
    unfold nextMig
    dsimp only
    split
    · split
      · rfl
      · split
        · rw [ih, modBerth_eq, setBerth_half]
          exact modHalf_chair h i s (fun _ => rfl)
        · rw [State.modPage, modBerth_eq, setBerth_half]
          exact modHalf_chair h i s (fun _ => rfl)
    · rfl

theorem startMig_chair (h i : Nat) (s : State) : ((startMig h s).half i).chair = (s.half i).chair := nextMig_chair ..

theorem bringUp_chair (h i : Nat) (state : Chair) (s : State) :
    ((bringUp h state s).half i).chair = if i = h then state else (s.half i).chair := by
  unfold bringUp
  dsimp only
  rw [reportFrom_shape]
  refine (congrArg TwcHalf.chair ((setGlbHalf_recorded ..).half i)).trans ?_
  by_cases e : i = h
  · subst e
    simp
  · simp [e]

theorem applyRaises_chair (h i : Nat) (s : State) : ((applyRaises h s).half i).chair = (s.half i).chair := by
  refine (forEach_same (fun t : State => (t.half i).chair) (fun (x : Nat × Nat) t => t.modSec (fun y => { y with
    secverMin := put 0 y.secverMin x.1 (max x.2 (look 0 y.secverMin x.1)) })) (fun _ _ => rfl) _ _).trans ?_
  exact modHalf_chair h i s (fun _ => rfl)

theorem clearSplit_facts (s : State) : (clearSplit s).tally = s.tally ∧ ((clearSplit s).half 0).chair = .agreed ∧
    ((clearSplit s).half 1).chair = .agreed := by
  unfold clearSplit
  extract_lets a b c d
  have freed : c.tally = s.tally :=
    (tally_of_books (setGlbHalf_books ..)).trans
      ((forEach_same State.tally (fun h (t : State) => t.modHalf h (fun x => { x with migHeld := false })) (fun _ _ => rfl)
        _ _).trans rfl)
  have raised : d = applyRaises 1 (bringUp 1 .agreed (applyRaises 0 (bringUp 0 .agreed c))) := by
    simp only [d, forEach_cons, forEach_nil]
  clear_value c d
  have chairs : ∀ i, ((settle (startMig 1 (startMig 0 d))).half i).chair = (d.half i).chair := fun i => by
    rw [settle_half, startMig_chair, startMig_chair]
  refine ⟨?_, ?_, ?_⟩
  · rw [tally_of_books ((settle_books ..).trans ((startMig_books ..).trans (startMig_books ..))), raised, applyRaises_tally,
      tally_of_books (bringUp_books ..), applyRaises_tally, tally_of_books (bringUp_books ..), freed]
  · rw [chairs, raised, applyRaises_chair, bringUp_chair, applyRaises_chair, bringUp_chair]
    rfl
  · rw [chairs, raised, applyRaises_chair, bringUp_chair]
    rfl

end Sys2Proof.Machine
end

section
/-! SUPPORT. O49: accepted tickets, and the commands of a ticket's steps. -/
namespace Sys2Proof.Machine

/-! ### An accepted ticket -/

/-- The counter and the record of the part take a ticket's SEQ. -/
def seqTaken (k : Ticket) (s : State) : State :=
  (s.modTrec (fun x => { x with seq := k.body.seq })).modSec (fun x => { x with seq := k.body.seq })

/-- What both halves accept, before the ticket ends. -/
def ticketApplied (k : Ticket) (s : State) : State :=
  match k.body.action with
  | 1 => applyLayout k.body.payload (seqTaken k s)
  | 2 => applyShares k.body.payload (seqTaken k s)
  | 3 => setLevel (payAt k.body.payload 4 1) (BitVec.ofNat 32 (payAt k.body.payload 0 4)) (seqTaken k s)
  | 4 => applyFence k false (seqTaken k s)
  | 5 => unfenceHalf (payAt k.body.payload 0 1) (seqTaken k s)
  | 6 => clearSplit (seqTaken k s)
  | _ => applyKeys k.body.payload (seqTaken k s)

theorem applyTicket_eq (k : Ticket) (s : State) : applyTicket k false s = endTicket k 0 (ticketApplied k s) := rfl

section
variable (k : Ticket) (s : State)

theorem applyFence_tally : (applyFence k false s).tally = s.tally := by
  unfold applyFence
  exact (congrArg State.tally (if_neg (by simp))).trans (beginFence_tally ..)

theorem seqTaken_tally : (seqTaken k s).tally = (k.body.seq, s.sec.refused, s.sec.paired, k.body.seq) := rfl

theorem ticketApplied_tally : (ticketApplied k s).tally = (k.body.seq, s.sec.refused, s.sec.paired, k.body.seq) := by
  unfold ticketApplied
  split
  · obtain ⟨m, globals⟩ := applyLayout_globals k.body.payload (seqTaken k s)
    exact congrArg (fun g : Sec × TRec × Glb => (g.1.seq, g.1.refused, g.1.paired, g.2.1.seq)) globals
  · exact (applyShares_tally ..).trans (seqTaken_tally k s)
  · obtain ⟨shape, sec, -⟩ := setLevel_facts (payAt k.body.payload 4 1) (BitVec.ofNat 32 (payAt k.body.payload 0 4))
      (seqTaken k s)
    rw [State.tally, sec, shape]
    rfl
  · exact (applyFence_tally ..).trans (seqTaken_tally k s)
  · exact (unfenceHalf_facts ..).1.trans (seqTaken_tally k s)
  · exact (clearSplit_facts ..).1.trans (seqTaken_tally k s)
  · rfl

theorem applyTicket_sec : (applyTicket k false s).sec = { (ticketApplied k s).sec with
    pend := (ticketApplied k s).sec.pend.filter (fun y => !(y.digest = k.digest && y.half = k.half))
    paired := (ticketApplied k s).sec.paired.filter (· ≠ (k.half, k.digest)), lastResult := 0
    lastAction := k.body.action % 256 } := by
  rw [applyTicket_eq]
  exact endTicket_sec ..

theorem applyTicket_trec : (applyTicket k false s).trec = (ticketApplied k s).trec := endTicket_trec ..

theorem applyTicket_glb : ∃ m, (applyTicket k false s).glb = { (ticketApplied k s).glb with msix := m } :=
  ⟨_, (endTicket_recorded k 0 (ticketApplied k s)).glb⟩

theorem applyTicket_berth (b : Nat) : (applyTicket k false s).berth b = (ticketApplied k s).berth b := by
  unfold State.berth
  exact congrArg (fun t => look {} t b) (endTicket_recorded k 0 (ticketApplied k s)).berths

theorem applyTicket_half (i : Nat) : ((applyTicket k false s).half i).bootStage = ((ticketApplied k s).half i).bootStage ∧
    ((applyTicket k false s).half i).chair = ((ticketApplied k s).half i).chair := by
  have same := (endTicket_recorded k 0 (ticketApplied k s)).half i
  rw [ticketBooked_half] at same
  exact ⟨(congrArg TwcHalf.bootStage same).trans rfl, (congrArg TwcHalf.chair same).trans rfl⟩

end

section
variable {k : Ticket} {s : State}

/-- The counters once a ticket is applied that alone was paired. -/
theorem applyTicket_counters (paired : s.sec.paired = [(k.half, k.digest)]) {t : State} (ht : t = applyTicket k false s) :
    t.sec.seq = k.body.seq ∧ t.trec.seq = k.body.seq ∧ t.sec.lastResult = 0 ∧ t.sec.refused = s.sec.refused ∧
      t.sec.paired = [] := by
  have tally := ticketApplied_tally k s
  simp only [State.tally, Prod.mk.injEq] at tally
  obtain ⟨seq, refused, pairs, recorded⟩ := tally
  subst ht
  refine ⟨by rw [applyTicket_sec]; exact seq, by rw [applyTicket_trec]; exact recorded, by rw [applyTicket_sec],
    by rw [applyTicket_sec]; exact refused, ?_⟩
  rw [applyTicket_sec, pairs, paired]
  simp

theorem applyTicket_layout (action : k.body.action = 1) {t : State} (ht : t = applyTicket k false s) :
    t.trec.layouts = resulting s k.body.payload ∧ t.glb.crustSplit = payAt k.body.payload 2 2 ∧
      t.glb.crumbSplit = payAt k.body.payload 4 2 := by
  have applied : ticketApplied k s = applyLayout k.body.payload (seqTaken k s) := by simp only [ticketApplied, action]
  obtain ⟨m, globals⟩ := applyLayout_globals k.body.payload (seqTaken k s)
  rw [← applied] at globals
  simp only [State.globals, Prod.mk.injEq] at globals
  obtain ⟨-, trec, glb⟩ := globals
  obtain ⟨n, same⟩ := applyTicket_glb k s
  subst ht
  rw [applyTicket_trec, trec, same, glb]
  exact ⟨rfl, rfl, rfl⟩

theorem applyTicket_shares (action : k.body.action = 2) {t : State} (ht : t = applyTicket k false s) :
    ∀ b, b = payAt k.body.payload 0 1 →
      (t.berth b).layout = { (s.berth b).layout with
        shareMin := payAt k.body.payload 1 2, shareMax := payAt k.body.payload 3 2 } ∧
      (t.berth b).share = max (payAt k.body.payload 1 2) (min (payAt k.body.payload 3 2) (s.berth b).share) := by
  rintro b rfl
  have applied : ticketApplied k s = applyShares k.body.payload (seqTaken k s) := by simp only [ticketApplied, action]
  subst ht
  rw [applyTicket_berth, applied]
  exact applyShares_berth ..

theorem applyTicket_level (action : k.body.action = 3) {t : State} (ht : t = applyTicket k false s) :
    t.sec.level = payAt k.body.payload 4 1 ∧ t.sec.debugBerths = BitVec.ofNat 32 (payAt k.body.payload 0 4) := by
  have applied : ticketApplied k s = setLevel (payAt k.body.payload 4 1) (BitVec.ofNat 32 (payAt k.body.payload 0 4))
      (seqTaken k s) := by simp only [ticketApplied, action]
  subst ht
  rw [applyTicket_sec, applied, (setLevel_facts ..).2.1]
  exact ⟨rfl, rfl⟩

theorem applyTicket_unfence (action : k.body.action = 5) (zero : payAt k.body.payload 0 1 = 0) {t : State}
    (ht : t = applyTicket k false s) : t.trec.fence0 = false ∧ (t.half 0).bootStage = 0 ∧ (t.half 0).chair = .boot := by
  have applied : ticketApplied k s = unfenceHalf 0 (seqTaken k s) := by simp only [ticketApplied, action, zero]
  obtain ⟨-, fence, stage, chair⟩ := unfenceHalf_facts 0 (seqTaken k s)
  obtain ⟨sameStage, sameChair⟩ := applyTicket_half k s 0
  subst ht
  rw [applyTicket_trec, sameStage, sameChair, applied]
  exact ⟨fence rfl, stage, chair⟩

theorem applyTicket_clearSplit (action : k.body.action = 6) {t : State} (ht : t = applyTicket k false s) :
    (t.half 0).chair = .agreed ∧ (t.half 1).chair = .agreed := by
  have applied : ticketApplied k s = clearSplit (seqTaken k s) := by simp only [ticketApplied, action]
  obtain ⟨-, first, second⟩ := clearSplit_facts (seqTaken k s)
  subst ht
  rw [(applyTicket_half k s 0).2, (applyTicket_half k s 1).2, applied]
  exact ⟨first, second⟩

theorem applyTicket_keys (action : k.body.action = 7) {t : State} (ht : t = applyTicket k false s) :
    t.sec.operKeys = (keysIn k.body.payload 1).orElse (fun _ => s.sec.operKeys) ∧
      t.sec.custKeys = (keysIn k.body.payload 2).orElse (fun _ => s.sec.custKeys) := by
  have applied : ticketApplied k s = applyKeys k.body.payload (seqTaken k s) := by simp only [ticketApplied, action]
  subst ht
  rw [applyTicket_sec, applied]
  exact ⟨rfl, rfl⟩

end

/-! ### The commands of a ticket's steps -/

section
variable {s : State} {x : HalfTicket} {half src : Nat}

theorem custodianHalfTicket_ignored (h : s.on = false ∨ s.fenced half = true ∨
    x.party ≠ 2 ∧ (x.party ≠ 1 ∨ (s.half half).chair ≠ .split)) : exec (.custodianHalfTicket half src x) s = .next s := by
  refine if_pos ?_
  obtain off | fenced | ⟨other, barred⟩ := h
  · simp [off]
  · simp [fenced]
  · obtain stranger | agreed := barred
    · simp [other, stranger]
    · simp [other, agreed]

theorem custodianHalfTicket_arrives (on : s.on = true) (live : s.fenced half = false)
    (party : x.party = 2 ∨ x.party = 1 ∧ (s.half half).chair = .split) : exec (.custodianHalfTicket half src x) s =
    .next { s with sec := { s.sec with arrived := s.sec.arrived ++ [(x, if (s.half half).chair = .split &&
      !((s.half 0).peerHb && (s.half 1).peerHb) then half else s.glb.chair, src % 65536)] } } := by
  refine if_neg ?_
  obtain custodian | ⟨operator, split⟩ := party
  · simp [on, live, custodian]
  · simp [on, live, operator, split]

end

theorem halfTicketVerified_none {s : State} (empty : s.sec.arrived = []) : exec .halfTicketVerified s = .next s := by
  simp only [exec, execHalfTicketVerified, empty]

theorem halfTicketVerified_next {s : State} {x : HalfTicket} {h src : Nat} {rest : List (HalfTicket × Nat × Nat)}
    (arrived : s.sec.arrived = (x, h, src) :: rest) {v w : State} (hv : v = { s with sec := { s.sec with arrived := rest } })
    (hw : w = takeHalfTicket x h src v) :
    exec .halfTicketVerified s = .next (sendPaired (w.sec.paired.length + 1) w) := by
  subst hw hv
  simp only [exec, execHalfTicketVerified, arrived]
  rfl

theorem peerTicketCheck_idle {s v : State} (hv : v = sendPaired (s.sec.paired.length + 1) s) (h : sentTicket v = none ∨
    ∃ k, sentTicket v = some k ∧ (k.peerSays.isSome = true ∨ (v.half (1 - k.half)).bootStage < 2 ∨
      (v.half (1 - k.half)).romReject = true ∨ (v.half (1 - k.half)).peerHb = false)) :
    exec .peerTicketCheck s = .next v := by
  simp only [exec, execPeerTicketCheck, ← hv]
  obtain none_sent | ⟨k, sent, waits⟩ := h
  · simp only [none_sent]
  · simp only [sent]
    refine if_pos ?_
    obtain said | early | rom | deaf := waits
    · simp [said]
    · simp [early]
    · simp [rom]
    · simp [deaf]

theorem peerTicketCheck_answers {s v : State} (hv : v = sendPaired (s.sec.paired.length + 1) s) {k : Ticket}
    (sent : sentTicket v = some k) (silent : k.peerSays = none) (heard : (v.half (1 - k.half)).peerHb = true)
    (booted : (v.half (1 - k.half)).romReject = false) (stage : 2 ≤ (v.half (1 - k.half)).bootStage) :
    exec .peerTicketCheck s = .next (v.modSec (fun y => { y with
      pend := y.pend.map (fun z => if z.half = k.half && z.digest = k.digest then { z with
        peerSays := some (if fourSigned v k then ticketCode v (1 - k.half) k else 0x01) } else z) })) := by
  simp only [exec, execPeerTicketCheck, ← hv, sent]
  exact if_neg (by simp [silent, heard, booted, Nat.not_lt.mpr stage])

section
variable {s : State}

theorem peerVerdict_none (none_sent : sentTicket s = none) : exec .peerVerdict s = .next s := by
  simp only [exec, execPeerVerdict, none_sent]

theorem peerVerdictTimeout_none (none_sent : sentTicket s = none) : exec .peerVerdictTimeout s = .next s := by
  simp only [exec, execPeerVerdictTimeout, none_sent]

variable {k : Ticket} (sent : sentTicket s = some k)
include sent

theorem peerVerdict_silent (silent : k.peerSays = none) : exec .peerVerdict s = .next s := by
  simp only [exec, execPeerVerdict, sent, silent]

theorem peerVerdict_takes {n : Nat} (said : k.peerSays = some n) {u : State}
    (hu : u = if n = 0 then applyTicket k false s else endTicket k (if n = 1 then 0x01 else 0x07) s) :
    exec .peerVerdict s = .next (sendPaired (u.sec.paired.length + 1) u) := by
  subst hu
  simp only [exec, execPeerVerdict, sent, said]

theorem peerVerdictTimeout_ends {u : State} (hu : u = endTicket k 0x07 s) :
    exec .peerVerdictTimeout s = .next (sendPaired (u.sec.paired.length + 1) u) := by
  subst hu
  simp only [exec, execPeerVerdictTimeout, sent]

end

theorem ticketTimeout_none {s : State} {d : BitVec 384}
    (none_waits : s.sec.pend.find? (fun t => t.digest = d && !(t.oper && t.cust)) = none) :
    exec (.ticketTimeout d) s = .next s := by
  simp only [exec, execTicketTimeout, none_waits]

theorem ticketTimeout_ends {s : State} {d : BitVec 384} {k : Ticket}
    (waits : s.sec.pend.find? (fun t => t.digest = d && !(t.oper && t.cust)) = some k) :
    exec (.ticketTimeout d) s = .next (endTicket k 0x06 s) := by
  simp only [exec, execTicketTimeout, waits]

end Sys2Proof.Machine
end

section
/-! SUPPORT. O49: countersigned change (20_security.md R479 to R486). -/
namespace Sys2Proof.Machine

/-! ### O49's clauses -/

theorem ticket_command (s : State) (x : HalfTicket) : exec (.ticket x) s = .next (operatorCmd 6 0 (fun t =>
    t.modSec (fun y => { y with arrived := y.arrived ++ [(x, t.chairHalf, viaCommand)] })) s) := rfl

/-- The TICKET command ends while the boot chain runs; else its half-ticket has arrived. -/
theorem ticket_arrives (s : State) (x : HalfTicket) :
    (s.on = false → exec (.ticket x) s = .next s) ∧
    (s.on = true → s.twc.cmdBusy = true →
      (s.twc.cmdAwait = false ∨ s.twc.lastOp ≠ 6 ∨ s.twc.cmdBerth ≠ 0 → exec (.ticket x) s = .next s) ∧
      (s.twc.cmdAwait = true → s.twc.lastOp = 6 → s.twc.cmdBerth = 0 → Yields (.ticket x) s fun t => t = { s with
        twc := { s.twc with cmdAwait := false }
        sec := { s.sec with arrived := s.sec.arrived ++ [(x, s.glb.chair, viaCommand)] } })) ∧
    (s.on = true → s.twc.cmdBusy = false → booting s = true → Yields (.ticket x) s (s.commandDone 6 0 0xFF)) ∧
    (s.on = true → s.twc.cmdBusy = false → booting s = false → Yields (.ticket x) s fun t => t = { s with
      twc := { s.twc with cmdBusy := true, lastOp := 6, cmdBerth := 0 }
      sec := { s.sec with arrived := s.sec.arrived ++ [(x, s.glb.chair, viaCommand)] } }) :=
  ⟨fun off => (ticket_command s x).trans (congrArg _ (operatorCmd_off off)),
    fun on busy => ⟨fun other => (ticket_command s x).trans (congrArg _ (operatorCmd_busy on busy other)),
      fun awaits same berth => ⟨_, (ticket_command s x).trans (congrArg _ (operatorCmd_awaited on busy awaits same berth)), rfl⟩⟩,
    fun on free boot => ⟨_, (ticket_command s x).trans (congrArg _ (operatorCmd_booting on free boot)), finishCmd_commandDone 6 0 0xFF s⟩,
    fun on free up => ⟨_, (ticket_command s x).trans (congrArg _ (operatorCmd_taken on free up)), rfl⟩⟩

section
variable {s : State} {x : HalfTicket} {h src : Nat} {rest : List (HalfTicket × Nat × Nat)}
  (arrived : s.sec.arrived = (x, h, src) :: rest) {v : State} (hv : v = { s with sec := { s.sec with arrived := rest } })
include arrived hv

/-- A half-ticket that pairs no ticket leaves nothing to send. -/
theorem halfTicketVerified_unpaired {w : State} (taken : takeHalfTicket x h src v = w) (none_paired : w.sec.paired = []) :
    exec .halfTicketVerified s = .next w := by
  rw [halfTicketVerified_next arrived hv rfl, taken, sendPaired_none none_paired]

variable (alone : s.sec.paired = [])
include alone

theorem halfTicketVerified_refused {code : Nat} (refused : code ≠ 0)
    (taken : takeHalfTicket x h src v = refuseArrived x h src code v) : Yields .halfTicketVerified s fun t =>
      t.sec = { v.sec with lastResult := code, lastAction := x.body.action % 256
                           refused := satAdd 32 s.sec.refused 1 } ∧ t.twc.result = code := by
  obtain ⟨sec, result⟩ := refuseArrived_facts x h src refused v
  have before : v.sec.refused = s.sec.refused := by rw [hv]
  rw [before] at sec
  have none_paired : (refuseArrived x h src code v).sec.paired = [] := by
    rw [sec, hv]
    exact alone
  exact ⟨_, halfTicketVerified_unpaired arrived hv taken none_paired, sec, result⟩

variable {k : KeyPair} (keys : partyKeys v x.body x.party = some k) (signed : signedBy k x = true)
include keys signed

theorem halfTicketVerified_first (new : findTicket v h (ticketDigest x.body) = none)
    (room : (v.sec.pend.filter (fun t => t.half = h)).length < 4) : Yields .halfTicketVerified s fun t =>
      t.sec = { v.sec with pend := s.sec.pend ++ [{
        body := x.body, digest := ticketDigest x.body, half := h, oper := decide (x.party = 1)
        cust := decide (x.party ≠ 1), operHt := if x.party = 1 then some x else none
        custHt := if x.party = 1 then none else some x, custPart := if x.party = 1 then 0 else src }] } ∧
      .record h (recordBytes s h 0x10 0xFF (payTicket x.party (x.body.action % 256) x.body.seq (ticketDigest x.body))) ∈
        t.out := by
  have taken := takeHalfTicket_first (src := src) keys signed new room
  generalize hu : v.modSec (fun y => { y with
    pend := y.pend ++ [({ body := x.body, digest := ticketDigest x.body, half := h } : Ticket).joined x src] }) = u at taken
  have sec : (endTicketCmd src 0 (verified x h u)).sec = u.sec := by
    rw [endTicketCmd_sec, verified, (makeRecord_recorded ..).sec]
  have none_paired : u.sec.paired = [] := by
    rw [← hu, hv]
    exact alone
  refine ⟨_, halfTicketVerified_unpaired arrived hv taken (by rw [sec, none_paired]), ?_, ?_⟩
  · rw [sec, ← hu, hv]
    unfold Ticket.joined
    by_cases operator : x.party = 1
    · simp [operator]
    · simp [operator]
  · refine (endTicketCmd_grows src 0 (verified x h u)).mem ?_
    have half : u.half h = s.half h := by
      rw [← hu, hv]
      rfl
    rw [← recordBytes_congr half]
    exact (makeRecord_out ..).1

variable {p : Ticket} (found : findTicket v h (ticketDigest x.body) = some p)
include found

theorem halfTicketVerified_again (has : p.has x = true) : exec .halfTicketVerified s = .next (endTicketCmd src 0 v) := by
  refine halfTicketVerified_unpaired arrived hv (takeHalfTicket_again keys signed found has) ?_
  rw [endTicketCmd_sec, hv]
  exact alone

theorem halfTicketVerified_pairs (lacks : p.has x = false) (other : p.hasOther x = true) : exec .halfTicketVerified s =
    .next (sendPaired 2 (pairTaken x h src (p.joined x src) v)) := by
  rw [halfTicketVerified_next arrived hv rfl, takeHalfTicket_pairs keys signed found lacks other]
  have one : (pairTaken x h src (p.joined x src) v).sec.paired.length = 1 := by
    rw [pairTaken_sec, hv]
    simp [alone]
  exact congrArg (fun n => Host.Outcome.next (sendPaired (n + 1) (pairTaken x h src (p.joined x src) v))) one

end

section
variable {s : State} {k : Ticket} (paired : s.sec.paired = [(k.half, k.digest)])
include paired

/-- Nothing is left to send once the one paired ticket has ended. -/
theorem endTicket_alone (code n : Nat) : sendPaired n (endTicket k code s) = endTicket k code s := by
  refine sendPaired_none ?_ n
  rw [endTicket_sec, paired]
  simp

theorem applyTicket_alone (n : Nat) : sendPaired n (applyTicket k false s) = applyTicket k false s :=
  sendPaired_none (applyTicket_counters paired rfl).2.2.2.2 n

end

/-- The joined ticket, once sent, as its party gives it. -/
theorem joined_sent_eq (p : Ticket) (x : HalfTicket) (src : Nat) : { p.joined x src with sent := true } =
    if x.party = 1 then { p with oper := true, operHt := some x, sent := true }
    else { p with cust := true, custHt := some x, custPart := src, sent := true } := by
  unfold Ticket.joined
  split
  · rfl
  · rfl

/-- Settles O49: the verification of a half-ticket ends in one of five ways, each read through the record that it makes; the
verdict of the other half applies or ends the one ticket that was sent. -/
theorem ticketsAreCountersigned : Obligations.TicketsAreCountersigned := by
  refine ⟨fun s x => ?_, fun s => halfTicketVerified_none, fun s x h src rest v w arrived hv hw => ?_,
    fun s d k waits => ⟨_, ticketTimeout_ends waits, endTicket_ended ..⟩, fun s d => ticketTimeout_none,
    fun s v hv => ?_, fun s k paired found sent => ?_, fun s => ⟨_, rfl, setLevel_facts 0 0 s⟩⟩
  · obtain ⟨off, busy, boots, starts⟩ := ticket_arrives s x
    exact ⟨off, busy, boots, starts, fun half src => ⟨custodianHalfTicket_ignored,
      fun on live party => ⟨_, custodianHalfTicket_arrives on live party, rfl⟩⟩⟩
  · refine ⟨halfTicketVerified_next arrived hv hw, fun alone => ?_⟩
    have keysSame : partyKeys v x.body x.party = partyKeys s x.body x.party := by rw [hv]; rfl
    have findSame : findTicket v h (ticketDigest x.body) = findTicket s h (ticketDigest x.body) := by rw [hv]; rfl
    have pendSame : v.sec.pend = s.sec.pend := by rw [hv]
    refine ⟨fun code hcode fifth => ?_, fun k keys signed => ?_⟩
    · cases keys : partyKeys s x.body x.party with
      | none =>
        simp only [keys] at hcode
        subst hcode
        exact halfTicketVerified_refused arrived hv alone (by decide) (takeHalfTicket_keyless (keysSame.trans keys))
      | some k =>
        cases signed : signedBy k x with
        | false =>
          simp only [keys, signed] at hcode
          subst hcode
          exact halfTicketVerified_refused arrived hv alone (by decide)
            (takeHalfTicket_unsigned (keysSame.trans keys) signed)
        | true =>
          simp only [keys, signed] at hcode
          subst hcode
          obtain ⟨new, full⟩ := fifth rfl
          exact halfTicketVerified_refused arrived hv alone (by decide)
            (takeHalfTicket_fifth (keysSame.trans keys) signed (findSame.trans new) (by rw [pendSame]; exact full))
    · have keys := keysSame.trans keys
      refine ⟨fun new room => halfTicketVerified_first arrived hv alone keys signed (findSame.trans new)
        (by rw [pendSame]; exact room), fun p found => ?_⟩
      have found := findSame.trans found
      obtain ⟨half, digest⟩ := findTicket_names found
      refine ⟨halfTicketVerified_again arrived hv alone keys signed found, fun lacks other unsent free => ?_⟩
      have pairs := halfTicketVerified_pairs arrived hv alone keys signed found lacks other
      have checks : s.sameChecks v := hv ▸ modSec_sameChecks s (f := fun y => { y with arrived := rest }) rfl rfl
      have code := ticketCode_congr (k := p) (p := p) checks rfl h
      have none_paired : v.sec.paired = [] := by rw [hv]; exact alone
      have ready : v.twc.cmdBusy = false ∨ src = viaCommand := by rw [hv]; exact free
      have before : v.sec.refused = s.sec.refused ∧ v.sec.seq = s.sec.seq ∧ v.berths = s.berths := by
        rw [hv]
        exact ⟨rfl, rfl, rfl⟩
      obtain ⟨refusedSame, seqSame, berthsSame⟩ := before
      refine ⟨fun refused => ⟨_, pairs, ?_⟩, fun accepted peer => ⟨_, pairs, ?_⟩⟩
      · rw [← code] at refused ⊢
        rw [← refusedSame, ← seqSame, ← berthsSame]
        exact pairTaken_refused found none_paired ((joined_half ..).trans half) ((joined_digest ..).trans digest) ready
          ((joined_sent ..).trans unsent) (joined_body ..) 1 refused rfl
      · obtain ⟨pair, told, pend⟩ := pairTaken_sent found none_paired ((joined_half ..).trans half)
          ((joined_digest ..).trans digest) ready ((joined_sent ..).trans unsent) (joined_body ..) 1 (code.trans accepted)
          ((checksAlone_congr checks rfl rfl).trans peer) half rfl
        refine ⟨pair, told, pend.trans ?_⟩
        rw [joined_sent_eq, pendSame]
        rfl
  · exact ⟨fun none_sent => peerTicketCheck_idle hv (.inl none_sent),
      fun k sent waits => peerTicketCheck_idle hv (.inr ⟨k, sent, waits⟩),
      fun none_sent => ⟨peerVerdict_none none_sent, peerVerdictTimeout_none none_sent⟩,
      fun k sent => ⟨peerVerdict_silent sent, fun u => peerVerdictTimeout_ends sent,
        fun n u said => peerVerdict_takes sent said⟩⟩
  · have here := sentTicket_some paired found sent
    refine ⟨fun silent heard booted stage => ?_, ?_, fun n said refused => ?_, fun said => ?_⟩
    · have stays : s = sendPaired (s.sec.paired.length + 1) s := (sendPaired_sent paired found sent).symm
      exact ⟨_, peerTicketCheck_answers stays here silent heard booted stage, rfl⟩
    · refine ⟨_, peerVerdictTimeout_ends here rfl, ?_⟩
      rw [endTicket_alone paired]
      exact endTicket_ended ..
    · refine ⟨_, peerVerdict_takes here said (if_neg refused).symm, ?_⟩
      rw [endTicket_alone paired]
      exact endTicket_ended ..
    · refine ⟨_, peerVerdict_takes here said (if_pos rfl).symm, ?_⟩
      rw [applyTicket_alone paired]
      obtain ⟨seq, recorded, result, refused, none_paired⟩ := applyTicket_counters paired rfl
      exact ⟨seq, recorded, result, refused, none_paired, fun action => applyTicket_layout action rfl,
        fun action => applyTicket_shares action rfl, fun action => applyTicket_level action rfl,
        fun action zero => applyTicket_unfence action zero rfl, fun action => applyTicket_clearSplit action rfl,
        fun action => applyTicket_keys action rfl⟩

end Sys2Proof.Machine
end
